-- ==== Sys2Proof/Word.lean ====
section
/-! DEFINITION. The words of the register space and the bytes of frames (spec/00 R3, R5). -/

namespace Sys2Proof

/-- A 32-bit register word (spec/00 R7: registers are accessed as 32-bit or 64-bit words). -/
abbrev Word := BitVec 32

/-- A 64-bit register value. -/
abbrev DWord := BitVec 64

/-- One byte of a frame or of a structure in memory. -/
abbrev Byte := BitVec 8

end Sys2Proof
end

