-- ==== Sys2Proof/Machine/Maps.lean ====
section
/-! DEFINITION. Sparse maps in canonical form, bit fields, and byte order: the plain helpers every
unit's model uses.  A map is a list of (key, value) pairs with keys strictly rising and no value
equal to the default of the map, so equal maps are equal lists. -/

namespace Sys2Proof.Machine

/-- A sparse map from numbers: keys strictly rise. -/
abbrev AMap (α : Type) := List (Nat × α)

/-- The value under `k`, or `d` where the key is not listed. -/
def mapGet {α : Type} (d : α) : AMap α → Nat → α
  | [], _ => d
  | (k, v) :: m, q => if k = q then v else mapGet d m q

/-- The value under `k`, if the key is listed. -/
def mapFind {α : Type} : AMap α → Nat → Option α
  | [], _ => none
  | (k, v) :: m, q => if k = q then some v else mapFind m q

/-- The map without the key `q`. -/
def mapErase {α : Type} (m : AMap α) (q : Nat) : AMap α := m.filter (fun p => p.1 ≠ q)

/-- The map with `v` placed under `q`, keeping the keys rising. -/
def mapPut {α : Type} : AMap α → Nat → α → AMap α
  | [], q, v => [(q, v)]
  | (k, w) :: m, q, v =>
    if q < k then (q, v) :: (k, w) :: m
    else if q = k then (q, v) :: m
    else (k, w) :: mapPut m q v

/-- The map with `v` under `q`: a value equal to the default `d` is not listed. -/
def mapSet {α : Type} [DecidableEq α] (d : α) (m : AMap α) (q : Nat) (v : α) : AMap α :=
  if v = d then mapErase m q else mapPut m q v

/-- The map with the value under `q` changed by `f`. -/
def mapUpd {α : Type} [DecidableEq α] (d : α) (m : AMap α) (q : Nat) (f : α → α) : AMap α :=
  mapSet d m q (f (mapGet d m q))

/-- The map whose listed values are changed by `f`; values that become `d` are dropped. -/
def mapAll {α : Type} [DecidableEq α] (d : α) (f : Nat → α → α) : AMap α → AMap α
  | [] => []
  | (k, v) :: m => if f k v = d then mapAll d f m else (k, f k v) :: mapAll d f m

/-- The keys rise strictly. -/
def keysRise {α : Type} : AMap α → Bool
  | [] => true
  | [_] => true
  | (k, _) :: (k', v') :: m => decide (k < k') && keysRise ((k', v') :: m)

/-- The canonical form of a map with default `d`. -/
def mapWf {α : Type} [DecidableEq α] (d : α) (m : AMap α) : Bool :=
  keysRise m && m.all (fun p => decide (p.2 ≠ d))

/-- Bits [lo + width - 1 : lo] of `v`. -/
def bitsOf (v lo width : Nat) : Nat := v / 2 ^ lo % 2 ^ width

/-- Bit `i` of `v`. -/
def bitOf (v i : Nat) : Bool := v.testBit i

/-- `v` with bits [lo + width - 1 : lo] replaced by the low bits of `x`. -/
def putBits (v lo width x : Nat) : Nat :=
  v / 2 ^ (lo + width) * 2 ^ (lo + width) + x % 2 ^ width * 2 ^ lo + v % 2 ^ lo

/-- The bit as a number. -/
def b2n (b : Bool) : Nat := if b then 1 else 0

/-- The little-endian number held by bytes (spec/00 R5). -/
def leBytes : List Byte → Nat
  | [] => 0
  | b :: bs => b.toNat + 256 * leBytes bs

/-- The big-endian (wire order) number held by bytes (spec/00 R5). -/
def beBytes (bs : List Byte) : Nat := bs.foldl (fun a b => a * 256 + b.toNat) 0

/-- `n` bytes of `v`, least significant first. -/
def toLe : Nat → Nat → List Byte
  | 0, _ => []
  | n + 1, v => BitVec.ofNat 8 v :: toLe n (v / 256)

/-- `n` bytes of `v` in wire order. -/
def toBe (n v : Nat) : List Byte := (toLe n v).reverse

/-- Bytes `off` to `off + n - 1`; bytes past the end read 0. -/
def bytesAt (bs : List Byte) (off n : Nat) : List Byte :=
  ((bs.drop off).take n) ++ List.replicate (n - ((bs.drop off).take n).length) 0

/-- The little-endian field of `n` bytes at `off`. -/
def leAt (bs : List Byte) (off n : Nat) : Nat := leBytes (bytesAt bs off n)

/-- The wire-order field of `n` bytes at `off`. -/
def beAt (bs : List Byte) (off n : Nat) : Nat := beBytes (bytesAt bs off n)

/-- `bs` with the bytes at `off` replaced by `new`, as far as `bs` reaches. -/
def patchAt (bs : List Byte) (off : Nat) (new : List Byte) : List Byte :=
  bs.take off ++ (new.take (bs.length - off)) ++ bs.drop (off + new.length)

/-- `v` moved to the nearer of the limits `lo` and `hi`. -/
def clampNat (lo hi v : Nat) : Nat := if v < lo then lo else if hi < v then hi else v

/-- `v` moved to the nearer of the limits `lo` and `hi`. -/
def clampInt (lo hi v : Int) : Int := if v < lo then lo else if hi < v then hi else v

/-- A number read as a two's complement number of `w` bits. -/
def signedOf (w v : Nat) : Int := if v % 2 ^ w < 2 ^ (w - 1) then (v % 2 ^ w : Int) else (v % 2 ^ w : Int) - 2 ^ w

/-- An integer as `w` bits of two's complement. -/
def unsignedOf (w : Nat) (v : Int) : Nat := (v % (2 ^ w : Int)).toNat

/-- Rounding division upwards. -/
def ceilDiv (a b : Nat) : Nat := if b = 0 then 0 else (a + b - 1) / b

/-- The list with the elements at index `i` changed by `f`. -/
def listUpd {α : Type} (l : List α) (i : Nat) (f : α → α) : List α := l.modify i f

end Sys2Proof.Machine
end

