-- ==== Sys2Proof/Machine/PowerState.lean ====
section
/-! DEFINITION. State of the Footing, the standby domain, the pins, the Pace Governor, the TSU, the
readiness map, the resets and the boot loader (spec/02, spec/03, spec/04, spec/22). -/

namespace Sys2Proof.Machine

/-- Progress of the main supply (spec/03 R68, R70, R73). -/
inductive PowerPhase where
  /-- The main rails are off. -/
  | off
  /-- Rails up, waiting for HKCLK (step 5 of R68). -/
  | waitClock
  /-- Power-good: every rail is within its range (step 6 of R68). -/
  | good
  deriving DecidableEq, Repr

/-- The standby domain, the supply measurements and the pins (spec/03). -/
structure Supply where
  /-- 1 bit; 03 R64; reset 0 (unpowered). The standby domain is powered. -/
  standby : Bool := false
  /-- enum; 03 R68; reset off. Progress of the main rails. -/
  phase : PowerPhase := .off
  /-- 12 bits; 03 R75 vin_cv; reset 0. VIN in units of 10 mV. -/
  vinCv : Nat := 0
  /-- 12 bits; 03 R75 vstby_cv; reset 0. VSTBY in units of 10 mV. -/
  vstbyCv : Nat := 0
  /-- 1 bit; 03 R75 vin_range_err; reset 0. -/
  vinRangeErr : Bool := false
  /-- 12 bits; 03 R77 iin_10ma; reset 0. -/
  iin10ma : Nat := 0
  /-- 12 bits; 03 R77 pin_100mw; reset 0. -/
  pin100mw : Nat := 0
  /-- signed 8 bits; 03 R78 tj_max; reset 0. -/
  tjMax : Int := 0
  /-- signed 8 bits; 03 R78 hbm0_t; reset 0. -/
  hbm0T : Int := 0
  /-- signed 8 bits; 03 R78 hbm1_t; reset 0. -/
  hbm1T : Int := 0
  /-- 1 bit; 03 R78 tj_warn; reset 0. -/
  tjWarn : Bool := false
  /-- 1 bit; 03 R78 hbm_warn; reset 0. -/
  hbmWarn : Bool := false
  /-- 1 bit; 03 R76 uvlo_seen; reset 0 at standby power-on. -/
  uvloSeen : Bool := false
  /-- 1 bit; 03 R76 thermal_trip; reset 0 at standby power-on. -/
  tripSeen : Bool := false
  /-- 1 bit; 03 R76 ovp_seen; reset 0 at standby power-on. -/
  ovpSeen : Bool := false
  /-- 1 bit; 03 R76 hkclk_lost; reset 0 at standby power-on. -/
  hkclkLost : Bool := false
  /-- 1 bit; 03 R73; reset 0 at standby power-on. The thermal-trip latch. -/
  tripLatch : Bool := false
  /-- 1 bit; 03 R73; reset 0. A recognised low on MRST_N has been seen since the trip. -/
  tripMrstLow : Bool := false
  /-- 1 bit; 03 R65; reset 0. The input switch is open after an overvoltage. -/
  ovpOpen : Bool := false
  /-- 1 bit; 03 R95; reset 0 (released). The device pulls SMB_ALERT_N low. -/
  smbAlert : Bool := false
  /-- 1 bit; 03 R94, 22 R660; reset 1. The SMBus interface is idle, its command byte not yet taken. -/
  smbIdle : Bool := true
  /-- 8 bits; 03 R94; reset DESIGN CHOICE 0 (log 3). The command byte last acknowledged. -/
  smbCmd : Nat := 0
  /-- 1 bit; 03 R91 MRST_N pin; reset DESIGN CHOICE 1 (log 3), its pull-up. Recognised level. -/
  mrstN : Bool := true
  /-- 4 bits; 03 R91 PERST_N pins; reset DESIGN CHOICE 0 (log 3), their pull-downs. Recognised levels, face 0 first. -/
  perstN : List Bool := [false, false, false, false]
  /-- 4 bits; 03 R91 WAKE_N pins; reset 0 (released). Faces whose WAKE_N the device pulls low. -/
  wakeN : List Bool := [false, false, false, false]
  /-- 1 bit; 03 R91 THERM_N pin; reset DESIGN CHOICE 1 (log 3). -/
  thermN : Bool := true
  /-- 1 bit; 03 R91 PWR_ALERT_N pin; reset DESIGN CHOICE 1 (log 3). -/
  pwrAlertN : Bool := true
  /-- 2 bits; 03 R93 STACK_ID; reset 0 until sampled (R94 command 0x01). Sampled strap. -/
  stackId : Nat := 0
  /-- 2 bits; 03 R93 PRIMARY_FACE; reset 0 until sampled. Sampled strap. -/
  primaryFace : Nat := 0
  /-- 1 bit; 03 R93 BOOT_SEL; reset 0 until sampled. Sampled strap. -/
  bootSel : Bool := false
  /-- 1 bit; 03 R93 TEST_MODE; reset 0 until sampled. Sampled strap. -/
  testMode : Bool := false
  deriving DecidableEq, Repr

/-- The reference clocks (spec/03 R89, R90, spec/22 R658). -/
structure Clocks where
  /-- 1 bit; 03 R89 HKCLK; reset DESIGN CHOICE 0 (log 3). HKCLK is present. -/
  hkclk : Bool := false
  /-- 1 bit; 03 R89 LREFA; reset DESIGN CHOICE 0 (log 3). LREFA is judged present. -/
  lrefa : Bool := false
  /-- 1 bit; 03 R89 LREFB; reset DESIGN CHOICE 0 (log 3). LREFB is judged present. -/
  lrefb : Bool := false
  /-- 4 bits; 03 R89 PCIe references; reset DESIGN CHOICE 0 (log 3). Each face's reference is present. -/
  pcie : List Bool := [false, false, false, false]
  /-- 1 bit; 05 R120, R125; reset 0. LREFA was present at the release point. -/
  lrefaAtRelease : Bool := false
  /-- 1 bit; 05 R120, R125; reset 0. LREFB was present at the release point. -/
  lrefbAtRelease : Bool := false
  /-- 1 bit; 03 R90; reset 0. The housekeeping PLLs run from the internal oscillator. -/
  hkInternal : Bool := false
  deriving DecidableEq, Repr

/-- The trigger sources of the Pace Governor (spec/02 R46). -/
inductive PaceSource where
  | vin | core | est | alert
  deriving DecidableEq, Repr

/-- The Pace Governor (spec/02 R46-R55). -/
structure Pace where
  /-- 2 bits; 02 R47, R48; reset 0. The step that R48 gives, before force_step. -/
  natural : Nat := 0
  /-- 1 bit; 02 R46; reset 0. VIN droop holds now. -/
  condVin : Bool := false
  /-- 1 bit; 02 R46; reset 0. Core droop holds now. -/
  condCore : Bool := false
  /-- 1 bit; 02 R46; reset 0. The estimate exceeds cap_w now. -/
  condEst : Bool := false
  /-- 1 bit; 02 R46; reset 0. PWR_ALERT_N is recognised low. -/
  condAlert : Bool := false
  /-- tick; 02 R48; reset none. End of the running settle window. -/
  settleEnd : Option Nat := none
  /-- tick; 02 R48, R54 in_hold; reset none. End of the running hold. -/
  holdEnd : Option Nat := none
  /-- 1 bit; 02 R54 cause_vin; reset 0. -/
  causeVin : Bool := false
  /-- 1 bit; 02 R54 cause_core; reset 0. -/
  causeCore : Bool := false
  /-- 1 bit; 02 R54 cause_est; reset 0. -/
  causeEst : Bool := false
  /-- 1 bit; 02 R54 cause_alert; reset 0. -/
  causeAlert : Bool := false
  /-- 7 bits; 02 R54 est_w; reset 0. -/
  estW : Nat := 0
  deriving DecidableEq, Repr

/-- The time base (spec/02 R56-R62). -/
structure Tsu where
  /-- 64 bits; 02 R62 TSU_TICK; reset 0. -/
  tick : Nat := 0
  /-- 64 bits; 02 R62 TSU_TOD; reset 0. Time-of-day in ns. -/
  todNs : Nat := 0
  /-- 32 bits; 02 R59; reset 0. Fraction of the time-of-day, in 2^-32 ns. -/
  todFrac : Nat := 0
  /-- 1 bit; 02 R62 tod_set; reset 0. -/
  todSet : Bool := false
  /-- 1 bit; 02 R62 fallback; reset 0. -/
  fallback : Bool := false
  /-- 1 bit; 02 R62 ref_ok; reset 0. -/
  refOk : Bool := false
  /-- 64 bits; 02 R62 TSU_SNAP_TICK; reset 0. -/
  snapTick : Nat := 0
  /-- 64 bits; 02 R62 TSU_SNAP_TOD; reset 0. -/
  snapTod : Nat := 0
  deriving DecidableEq, Repr

/-- What holds the main domain in reset (spec/04 R111, R112). -/
inductive ResetPhase where
  /-- Module reset is held. -/
  | module
  /-- Chip reset is held until the tick of its start plus 1 ms (spec/04 R112). -/
  | chip
  /-- The release point has passed. -/
  | released
  deriving DecidableEq, Repr

/-- Readiness, resets and the boot loader (spec/04). -/
structure BringUp where
  /-- enum; 04 R111, R112; reset module (held before the first release point). -/
  phase : ResetPhase := .module
  /-- 1 bit; 04 R102; reset 0. The device has passed a release point since MRST_N or power-on. -/
  everReleased : Bool := false
  /-- 2 bits; 04 R102 cause; reset: set at release, DESIGN CHOICE 0 before the first (log 3). Kept in standby. -/
  cause : Nat := 0
  /-- 10 bits; 04 R102 src; reset: set at release, DESIGN CHOICE 0 before the first (log 3). Kept in standby. -/
  causeSrc : Nat := 0
  /-- 2 bits; 04 R102; reset 0. The cause the next release point will record. -/
  nextCause : Nat := 0
  /-- 10 bits; 04 R102; reset 0. The source the next release point will record. -/
  nextSrc : Nat := 0
  /-- 21 bits; 04 R102 GLB_READY_SUB; reset 0. Bit n is block n. -/
  readySub : Nat := 0
  /-- 32 bits; 04 R102 GLB_READY_PORT; reset 0. -/
  readyPort : Nat := 0
  /-- 4 bits; 04 R102 GLB_READY_MISC.face; reset 0. -/
  readyFace : Nat := 0
  /-- 4 bits; 04 R102 GLB_READY_MISC.quoin; reset 0. -/
  readyQuoin : Nat := 0
  /-- 4 bits; 04 R102 GLB_READY_MISC.course; reset 0. -/
  readyCourse : Nat := 0
  /-- 21 bits; 04 R102 GLB_EARLY_ACCESS; reset 0. -/
  earlyAccess : Nat := 0
  /-- 21 bits; 04 R113; reset 0. Bit n: block n is in block reset. -/
  blockReset : Nat := 0
  /-- 3 bits; 04 R109 BTL_STAT.state; reset 0. -/
  btlState : Nat := 0
  /-- 2 bits; 04 R109 BTL_STAT.slot; reset 3. -/
  btlSlot : Nat := 3
  /-- 1 bit; 04 R109 BTL_STAT.complex; reset 0. -/
  btlComplex : Nat := 0
  /-- 3 bits; 04 R109 BTL_STAT.slot_bad; reset 0. -/
  btlSlotBad : Nat := 0
  /-- 1 bit; 04 R109 BTL_STAT.dir_backup; reset 0. -/
  btlDirBackup : Bool := false
  /-- 1 bit; 04 R109 BTL_STAT.selftest_fail; reset 0. -/
  btlSelftestFail : Bool := false
  /-- 32 bits; 04 R109 BTL_IMG_VER; reset 0. -/
  btlFwVer : Nat := 0
  /-- 64 bits; 04 R109 BTL_START_TICK; reset 0. -/
  btlStartTick : Nat := 0
  deriving DecidableEq, Repr

end Sys2Proof.Machine
end

