-- ==== Sys2Proof/Machine/Inputs.lean ====
section
/-! DEFINITION. What commands carry: the master of an access, the boot loader's findings, configuration
requests, completions, flits and Quoin messages. -/

namespace Sys2Proof.Machine

/-- Who makes a register access (spec/00, actors; spec/06 R164, R170; spec/18 R550). -/
inductive Master where
  /-- Through the PF BAR0 of a face: its manager. -/
  | pf (face : Nat)
  /-- Through the VF BAR0 of a tenant instance. -/
  | vf (inst : Nat)
  /-- A Keystone complex (0 A, 1 B); `epoch` is the stamp of the write. -/
  | fw (cplx epoch : Nat)
  deriving DecidableEq, Repr

/-- What the release point samples (spec/03 R93, spec/22 R671). -/
structure ReleaseIn where
  /-- Samples of 8 read high on STACK_ID0, STACK_ID1, PRIMARY_FACE0, PRIMARY_FACE1, BOOT_SEL, TEST_MODE. -/
  straps : List Nat := [0, 0, 0, 0, 0, 0]
  deriving DecidableEq, Repr

/-- A unit, port, face or course with a readiness bit (spec/04 R102). -/
inductive ReadyUnit where
  | block (n : Nat)
  | port (n : Nat)
  | quoin (n : Nat)
  | course (n : Nat)
  deriving DecidableEq, Repr

/-- What the boot loader finds in one slot of the flash (spec/04 R104, R105). -/
structure SlotIn where
  /-- Both magic values are right. -/
  magicOk : Bool := true
  /-- hdr_ver. -/
  hdrVer : Nat := 1
  /-- key_slot. -/
  key : Nat := 0
  /-- seq. -/
  seq : Nat := 0
  /-- svn. -/
  svn : Nat := 0
  /-- code_len. -/
  codeLen : Nat := 4096
  /-- entry. -/
  entry : Nat := 0
  /-- fw_ver. -/
  fwVer : Nat := 0
  /-- The signature verifies under the fused key of key_slot. -/
  sigOk : Bool := true
  /-- The digest matches the code as loaded. -/
  digestOk : Bool := true
  /-- The code copied into the complex's SRAM, from address 0. -/
  code : List Byte := []
  deriving DecidableEq, Repr

/-- What the boot loader finds (spec/04 R103-R106). -/
structure BootIn where
  /-- The directory: 0 good, 1 only the backup good, 2 both bad. -/
  dir : Nat := 0
  /-- Complex A passes its lockstep self-test. -/
  okA : Bool := true
  /-- Complex B passes its lockstep self-test. -/
  okB : Bool := true
  /-- Normal slots 0 and 1 and the recovery slot. -/
  slots : List SlotIn := [{}, {}, {}]
  deriving DecidableEq, Repr

/-- A reference clock (spec/03 R89). -/
inductive RefClock where
  | lrefa | lrefb
  | pcie (face : Nat)
  deriving DecidableEq, Repr

/-- A field of a function's configuration space that software writes (spec/06 R160, R162). -/
inductive CfgField where
  | bme | mse | pmeEn | pmeStatus | powerState | numVfs | vfEnable | vfMse | mps | mrrs | cto | tag10 | extTag
  | relaxed | msixEn | msixMask | atsEn | pasidEn | aspm | l1ss | bar0 | bar2 | flr
  deriving DecidableEq, Repr

/-- A configuration request (spec/04 R110, spec/06 R159, R160). -/
inductive CfgReq where
  | read (f : CfgField)
  | write (f : CfgField) (v : Nat)
  /-- A request to a function or register that the configuration space does not have. -/
  | other
  deriving DecidableEq, Repr

/-- How a read completion ended (spec/09 R270). -/
inductive CplStatus where
  /-- Successful completion with data. -/
  | ok
  /-- Unsupported Request or Completer Abort. -/
  | error
  /-- Poisoned data. -/
  | poisoned
  deriving DecidableEq, Repr

/-- How a translation ended (spec/09 R279). -/
inductive XlateResult where
  /-- A translation: translated page, read and write permission. -/
  | ok (page : Nat) (r w : Bool)
  /-- No translation, or a failed Translation Request. -/
  | fail
  deriving DecidableEq, Repr

/-- A flit as it arrives, with its header (spec/20 R600). -/
structure FlitIn where
  /-- RS decoding: 0 clean, 1 corrected, 2 not correctable. -/
  fec : Nat := 0
  /-- type. -/
  typ : Nat := 0
  /-- ch. -/
  ch : Nat := 0
  /-- sop. -/
  sop : Bool := false
  /-- eop. -/
  eop : Bool := false
  /-- seq. -/
  seq : Nat := 0
  /-- ack_seq. -/
  ackSeq : Nat := 0
  /-- ack_vld. -/
  ackVld : Bool := false
  /-- nak. -/
  nak : Bool := false
  /-- cr_ch. -/
  crCh : Nat := 0
  /-- cr_count. -/
  crCount : Nat := 0
  /-- The valid payload bytes. -/
  payload : List Byte := []
  deriving DecidableEq, Repr

/-- The body of a HELLO message (spec/20 R604). -/
structure HelloMsg where
  /-- module_id. -/
  id : Nat
  /-- port. -/
  port : Nat
  /-- ver_min. -/
  verMin : Nat
  /-- ver_max. -/
  verMax : Nat
  /-- seen. -/
  seen : Bool
  /-- serial. -/
  serial : Nat
  /-- alloc_0 to alloc_8. -/
  alloc : List Nat
  deriving DecidableEq, Repr

/-- The body of a TOPO message (spec/20 R604). -/
structure TopoMsg where
  /-- module_id. -/
  id : Nat
  /-- direct. -/
  direct : Nat
  /-- prio. -/
  prio : Nat
  /-- master_capable. -/
  capable : Bool
  /-- ksc_ready. -/
  kscReady : Bool
  /-- master_valid. -/
  masterValid : Bool
  /-- master_id. -/
  masterId : Nat
  /-- lease_epoch. -/
  leaseEpoch : Nat
  /-- cfg_epoch. -/
  cfgEpoch : Nat
  deriving DecidableEq, Repr

end Sys2Proof.Machine
end

