-- ==== Sys2Proof/Syntax.lean ====
section
/-! DEFINITION. The commands the block takes: one constructor of `Instr` per row of the opcode table,
with the operands that the row's event or access carries. -/

namespace Sys2Proof

open Sys2Proof.Machine

/-- The commands of the VZ-8128-M, one constructor per row of the opcode table. -/
inductive Instr where
  -- supply, clocks and resets (spec/03, spec/04)
  | vinRise (vinCv : Nat)
  | hkclkArrival
  | releasePoint (i : ReleaseIn)
  | vinUndervoltage (vinCv : Nat)
  | vinOvervoltage (vinCv : Nat)
  | vinOvpRecovery (vinCv : Nat)
  | vinRangeEntry (vinCv : Nat)
  | thermalTrip (tj hbm0 hbm1 : Int)
  | tempWarnCrossing (tj hbm0 hbm1 : Int)
  | thermNFall
  | hkclkLoss
  | hkclkReturn
  | pwrRailFault
  | mrstNLow
  | perstNFall (face : Nat)
  | perstNRise (face : Nat)
  | faceReady (face : Nat)
  | unitReady (u : ReadyUnit) (ok : Bool)
  | bootComplete (i : BootIn)
  | chipResetEnd (i : ReleaseIn)
  | blockResetDone (block : Nat)
  -- pacing and time base (spec/02)
  | paceTrigger (src : PaceSource)
  | estimateCompare (w : Nat)
  | paceSettleEnd
  | paceTriggersClear (srcs : List PaceSource)
  | paceHoldEnd
  | forceStepWrite (m : Master) (data : Nat)
  | tsuTick
  | tsuReferenceLoss
  | tsuReferenceReturn
  | todSet (m : Master) (ns : Nat)
  | todStep (m : Master) (ns : Nat)
  | todAdjWrite (m : Master) (data : Nat)
  | tsuSnap (m : Master) (data : Nat)
  | lineRefLoss (b : Bool)
  | pcieRefLoss (face : Nat)
  | refReturn (r : RefClock)
  -- SMBus and TAP
  | smbusRead (cmd : Nat)
  | smbusWrite (cmd : Nat) (data : List Byte)
  | alertResponse
  | smbusTimeout
  | tapInstruction (ir : Nat)
  | ftChallenge
  | ftUnlock (sig : Nat)
  -- registers (spec/00, spec/06)
  | registerWrite (m : Master) (addr bytes data : Nat)
  | lockSet (m : Master) (data : Nat)
  | primaryFaceWrite (m : Master) (data : Nat)
  | admitSlotsWrite (m : Master) (course act data : Nat)
  -- line ports (spec/05)
  | splitWrite (m : Master) (octet data : Nat)
  | portEnable (m : Master) (port data : Nat)
  | portDisable (m : Master) (port data : Nat)
  | lineLinkUp (port : Nat) (anDone : Bool)
  | lineLinkDown (port : Nat)
  | rxFrameStart (port : Nat) (bytes : List Byte) (pcsError : Bool)
  | rxFrameEnd (port : Nat) (rest : List Byte) (pcsError : Bool)
  | rxControlFrame (port : Nat) (bytes : List Byte)
  | pauseTimerExpiry (port pri : Nat)
  | pfcFrameSend (port : Nat)
  | pfcRepeat (port : Nat)
  | txFrame (port : Nat)
  | statClear (m : Master) (lsd : Bool) (mask : Nat)
  | txtsPop (m : Master) (port data : Nat)
  -- the courses (spec/01, spec/11-spec/15)
  | markCreation (pkt : Nat)
  | parse (pkt : Nat)
  | lateFindings (pkt : Nat)
  | rulePass (pkt : Nat)
  | lateVerdict (pkt : Nat)
  | limiterRefill
  | forwardingLookup (pkt : Nat)
  | learnRecordExpiry (domain addr : Nat)
  | agingVisit (flow : Bool) (index : Nat)
  | tunnelStage (pkt : Nat)
  | cryptoStage (pkt : Nat)
  | saCacheFill (sa : Nat) (wrapOk : Bool)
  | stoRxPacket (pkt : Nat)
  | stoSend (ctx : Nat)
  | delayedAck (ctx : Nat)
  | ackTimerExpiry (ctx : Nat)
  | rnrWaitEnd (ctx : Nat)
  | alphaTimer (ctx : Nat)
  | increaseEvent (ctx : Nat)
  | ddpSetup (ctx : Nat)
  | ddpTeardown (ctx : Nat)
  -- buffer (spec/16)
  | bufferAdmission (pkt : Nat)
  | chargeCorrection (pkt : Nat)
  | admissionRetry (pkt : Nat)
  | bufWaitExpiry (pkt : Nat)
  | xoffEvaluation (port pri : Nat)
  | markAgeScan
  | hrxHoldExpiry (pkt : Nat)
  | spillMove (pkt : Nat)
  | spillReadback (pkt : Nat) (uncorr : Bool)
  | portDownFlush (port : Nat)
  | peakClear (m : Master) (data : Nat)
  | recircTake (pkt : Nat)
  | recircHoldExpiry (pkt : Nat)
  -- scheduler (spec/17)
  | exitSelect (exit : Nat)
  | cutThroughCorrection (pkt : Nat)
  | shaperRefill (shaper : Nat)
  | gateArm (m : Master) (port data : Nat)
  | gateSwitch (port : Nat)
  -- host faces (spec/06)
  | configRequest (fn bus dev : Nat) (r : CfgReq)
  | pcieDlActive (face link rate width : Nat) (flit : Bool)
  | pcieLinkReset (face link : Nat) (hot : Bool)
  | vfEnable (face numVfs : Nat)
  | vfDisable (face : Nat)
  | bmeClear (fn : Nat)
  | bmeSet (fn : Nat)
  | vfFlr (inst : Nat)
  | d3hotEntry (fn : Nat)
  | d0Return (fn : Nat)
  | pmeResend (fn : Nat)
  | pmeTurnOff (face link : Nat)
  | msixUnmask (fn vec : Nat) (whole : Bool)
  | mctpControl (face : Nat) (msg : List Byte)
  | pldmRequest (face : Nat) (msg : List Byte)
  | atsInvalidate (face fn page pages : Nat)
  | invalidateDeadline (face fn page : Nat)
  | atsTranslation (face id : Nat) (r : XlateResult)
  -- queues (spec/07)
  | queueEnable (m : Master) (face : Nat) (rx : Bool) (q : Nat)
  | queueStop (m : Master) (face : Nat) (rx : Bool) (q : Nat)
  | queueStopped (rx : Bool) (q : Nat)
  | queueResume (m : Master) (face : Nat) (rx : Bool) (q : Nat)
  | queueReset (m : Master) (face : Nat) (rx : Bool) (q : Nat)
  | queueResetDone (rx : Bool) (q : Nat)
  | lineEnable (m : Master) (face line : Nat)
  | lineDisable (m : Master) (face line : Nat)
  | pollIssue (line : Nat)
  | pollReturn (face tag : Nat) (st : CplStatus) (bytes : List Byte)
  | descriptorFetch (face : Nat)
  | txItemHandoff (q : Nat)
  | txItemComplete (q : Nat)
  | regionClose (q : Nat)
  -- completions (spec/08)
  | cqEntryReady (ring : Nat)
  | corbelDrain (ring : Nat)
  | cqEnable (m : Master) (face ring : Nat)
  | cqDisable (m : Master) (face ring : Nat)
  | coalesceTimerExpiry (ring : Nat)
  -- DMA (spec/09)
  | readIssue (face : Nat)
  | readCompletion (face tag : Nat) (st : CplStatus) (bytes : List Byte)
  | readTimeout (face tag : Nat)
  | quarantineEnd (face tag : Nat)
  | writeTlp (face link chan : Nat)
  | jobSubmit (m : Master) (face count : Nat)
  | jobFinish (face : Nat)
  | flushCompletion (face tag : Nat)
  | flushTimeout (face tag : Nat)
  -- instances and mailboxes (spec/10)
  | create (m : Master) (face inst : Nat)
  | start (m : Master) (face inst : Nat)
  | reset (m : Master) (face inst : Nat)
  | remove (m : Master) (face inst : Nat)
  | setShare (m : Master) (face inst : Nat)
  | resetSequenceDone (inst : Nat)
  | mbxDataWrite (m : Master) (chan word data : Nat)
  | go (m : Master) (chan : Nat)
  | done (m : Master) (chan : Nat)
  | notify (m : Master) (chan : Nat)
  | cancel (m : Master) (chan : Nat)
  | mbxEventDelivery (chan : Nat) (endB : Bool)
  | mbxBindWrite (m : Master) (chan data : Nat)
  | mgrHello (face : Nat)
  | mboxCreate (face : Nat)
  | mboxRemove (face : Nat)
  | mboxSetShare (face : Nat)
  | getNotice (chan : Nat)
  | tenantHello (inst : Nat)
  | resetRequest (inst : Nat)
  | upgradeStatus (face : Nat)
  | upgradeConfirm (face : Nat)
  -- rule banks (spec/12)
  | load (m : Master) (bank : Nat)
  | loadComplete (bank : Nat) (uncorr : Bool)
  | commit (m : Master) (bank : Nat)
  | clear (m : Master) (bank : Nat)
  -- forwarding tables (spec/13)
  | emInsert (m : Master) (set : Nat) (replace : Bool)
  | emDelete (m : Master) (set : Nat)
  | emRead (m : Master) (set : Nat)
  | expWrite (m : Master) (set index : Nat)
  | expRead (m : Master) (set index : Nat)
  | flowInsert (m : Master) (set : Nat) (replace : Bool) (region : Nat)
  | flowDelete (m : Master) (set region : Nat)
  | flowRead (m : Master) (set region : Nat)
  | lpmAdd (m : Master) (set : Nat)
  | lpmDel (m : Master) (set : Nat)
  | rehash (m : Master) (set : Nat)
  | rehashEnd
  -- crypto (spec/14)
  | saWrite (m : Master) (set index : Nat)
  | saRead (m : Master) (set index : Nat)
  | saDelete (m : Master) (set index : Nat)
  | saLimit (m : Master) (set index : Nat)
  | tlsResync (m : Master) (set index : Nat)
  | laneDrain (m : Master) (lane : Nat)
  | laneOut (lane : Nat)
  | laneTest (m : Master) (lane : Nat)
  | laneTestEnd (lane : Nat) (pass : Bool)
  | laneReturn (m : Master) (lane : Nat)
  -- transport (spec/15)
  | ctxWrite (m : Master) (set index : Nat)
  | ctxRead (m : Master) (set index : Nat)
  | ctxModify (m : Master) (set index : Nat)
  | ctxDestroy (m : Master) (set index : Nat)
  | keyWrite (m : Master) (set index : Nat)
  | keyDelete (m : Master) (set index : Nat)
  | pathWrite (m : Master) (set index : Nat)
  | connResync (m : Master) (set index : Nat)
  -- Keystone and Masons (spec/18)
  | leaseRenew (m : Master) (epoch : Nat)
  | leaseRelease (m : Master) (epoch : Nat)
  | leaseEnd
  | lockstepMismatch (cplx : Nat)
  | leaseReq (m : Master) (jpos : Nat)
  | takeoverDeadline
  | handoverLapse
  | ckptCommit (m : Master) (slot jpos : Nat)
  | ckptDeadline
  | complexStart (m : Master) (cplx slot : Nat)
  | complexStarted (cplx : Nat) (testOk verifyOk : Bool)
  | complexStop (m : Master) (cplx : Nat)
  | complexTest (m : Master) (cplx : Nat)
  | complexTestEnd (cplx : Nat) (pass : Bool)
  | masonDelivery
  | xqPop (cluster : Nat)
  | xqFreePop (cluster : Nat)
  | xqRet (cluster : Nat) (data : Nat) (stores : List (Nat × Byte))
  | masonReturn (cluster : Nat)
  | masonNew (cluster : Nat)
  | masonDiscard (cluster : Nat)
  | slotHoldExpiry (cluster slot : Nat)
  | clusterDrain (m : Master) (cluster : Nat)
  | clusterOut (cluster : Nat)
  | clusterTest (m : Master) (cluster : Nat)
  | clusterTestEnd (cluster : Nat) (pass : Bool)
  | clusterReturn (m : Master) (cluster : Nat)
  -- the Plumb (spec/19)
  | memCorr (block : Nat)
  | memUncorr (block : Nat)
  | memHbmCorr
  | memHbmUncorr (addr : Nat)
  | memProtUncorr (addr : Nat)
  | captureAck (m : Master) (cls data : Nat)
  | errpinRelease (m : Master) (data : Nat)
  | faultInject (m : Master) (data : Nat)
  -- the Quoin link (spec/20)
  | quoinPortEnable (m : Master) (port data : Nat)
  | laneAlign (port : Nat) (reversed : Bool) (invert : Nat)
  | helloTimer (port : Nat)
  | hello (port : Nat) (msg : HelloMsg)
  | flitRx (port : Nat) (f : FlitIn)
  | resendTimer (port : Nat)
  | down (port cause : Nat)
  | quoinLinkLoss (port : Nat)
  | creditWaitExpiry (port ch : Nat)
  | quoinDownFlush (port : Nat)
  | topoTimer
  | topo (port : Nat) (msg : TopoMsg)
  | topoExpiry (port : Nat)
  | moduleLostExpiry (module_ : Nat)
  | stackRenew (m : Master) (epoch : Nat)
  | lease (port epoch masterId prio renewSeq : Nat)
  | stackLeaseExpiry
  | election
  | epochCmd (m : Master) (epoch : Nat)
  | epoch (port leaseEpoch cfgEpoch todNs masterId : Nat)
  | epochActivation
  | timeTimer
  | time (port tTx echoTx echoRx : Nat)
  | mbox (port action word data : Nat)
  | mbxLinkTimeout (port : Nat)
  | retire (m : Master) (data : Nat)
  -- courses in service and security version (spec/21)
  | courseDrain (m : Master) (course : Nat)
  | courseOut (course : Nat)
  | courseTest (m : Master) (course : Nat)
  | courseTestEnd (course : Nat) (pass : Bool)
  | courseReturn (m : Master) (course : Nat)
  | svnRaise (m : Master) (data : Nat)
  | svnFuseEnd
  -- further supply and link events
  | standbyPowerOn (vstbyCv vinCv : Nat)
  | standbyPowerLoss
  | vinRangeExit (vinCv : Nat)
  | tempWarnClear (tj hbm0 hbm1 : Int)
  | rsFaultChange (port : Nat) (align localFault remoteFault : Bool)
  | l1Entry (face link substate : Nat)
  | l1Exit (face link : Nat)
  deriving DecidableEq, Repr

end Sys2Proof
end

