-- ==== Sys2Proof/Config.lean ====
section
/-! DEFINITION. What an implementation fixes and the spec leaves open: free values, as constants with no
body.  No statement rests on a value of one of them. -/

namespace Sys2Proof.Config

/-- The k-th draw of the device's pseudo-random generator (spec/12 R354, R388, spec/16 R499): free value (log 12). -/
opaque draw : Nat → Nat

/-- The k-th factory challenge, "Random" in spec/19 R596: free value (log 12). -/
opaque challenge : Nat → Nat

/-- Whether a signature over a challenge and serial number verifies under the fused factory key
(spec/19 R589): the key is not in the spec, so the outcome is free (log 12). -/
opaque ftVerify : Nat → Nat → Nat → Bool

/-- Byte `pos` of the AES-GCM keystream of a key and nonce (spec/14 R418, R419); the cipher is not in the spec:
uninterpreted (log 13). -/
opaque gcmKeystream : List Byte → List Byte → Nat → Byte

/-- The 16 bytes of the AES-GCM tag of a key, nonce, additional data and ciphertext, as a number
(spec/14 R418, R419); uninterpreted (log 13). -/
opaque gcmTag : List Byte → List Byte → List Byte → List Byte → Nat

/-- The bytes that lie past what a host read returned or a memory holds where the spec gives none: free
value (log 12). -/
opaque freeByte : Nat → Byte

/-- A number the spec leaves open, by the model's counter of open values (log 12). -/
opaque freeNat : Nat → Nat

/-- The TAP's instruction code of IDCODE, which spec/03 R96 does not give: free value (log 12). -/
opaque tapIdcode : Nat

/-- The MCTP endpoint UUID that derives from a serial number (spec/06 R192): the derivation is not in the spec (log 12). -/
opaque uuid : Nat → Nat

end Sys2Proof.Config
end

