-- ==== Sys2Proof/Machine/RegTable.lean ====
section
/-! DEFINITION. The register table: every register that stores what is written to it, with its place
in PF BAR0, its writable fields, their access codes and its reset value, taken from the register
tables of spec/01 to spec/21 (spec/00 R1, R6).  Status registers are views of the state. -/

namespace Sys2Proof.Machine

/-- How a written field value is stored (the Meaning column of a register table). -/
inductive Store where
  /-- As written. -/
  | any
  /-- A value outside `lo`-`hi` is stored as the nearer limit. -/
  | clamp (lo hi : Nat)
  /-- As `clamp`, for a field of `w` bits read as a signed number. -/
  | sclamp (w : Nat) (lo hi : Int)
  /-- 0 stays 0; any other value outside `lo`-`hi` is stored as the nearer limit. -/
  | clampNz (lo hi : Nat)
  /-- CSC_CFG.ver_max: 0 and 3 are stored as 2 (spec/20 R621). -/
  | verMax
  deriving DecidableEq, Repr

/-- The value stored for a written value. -/
def Store.apply : Store → Nat → Nat
  | .any, v => v
  | .clamp lo hi, v => clampNat lo hi v
  | .sclamp w lo hi, v => unsignedOf w (clampInt lo hi (signedOf w v))
  | .clampNz lo hi, v => if v = 0 then 0 else clampNat lo hi v
  | .verMax, v => if v = 1 then 1 else 2

/-- A writable field of a register word. -/
structure FieldDef where
  /-- Lowest bit. -/
  lo : Nat
  /-- Width. -/
  w : Nat
  /-- RWL: locked by the block's GLB_LOCK bit (spec/00 R6). -/
  lock : Bool := false
  /-- W1S: a bit written 0 keeps its value (spec/00 R6). -/
  w1s : Bool := false
  /-- How a written value is stored. -/
  store : Store := .any
  deriving DecidableEq, Repr

/-- A register word, or an array of them. -/
structure RegDef where
  /-- Block number (spec/00 R1). -/
  block : Nat
  /-- Offset within the block of element 0. -/
  off : Nat
  /-- Dimensions, outermost first: count and stride. -/
  dims : List (Nat × Nat) := []
  /-- Writable fields; all other bits read 0 or belong to a view. -/
  fields : List FieldDef
  /-- The elements that exist; the others are RSV in every bit. -/
  valid : List Nat → Bool := fun _ => true
  /-- Reset value of an element. -/
  reset : List Nat → Nat := fun _ => 0
  /-- Only firmware may write it. -/
  fw : Bool := false

/-- RW field. -/
def rw (lo w : Nat) : FieldDef := { lo, w }
/-- RW field with a rule for the stored value. -/
def rws (lo w : Nat) (st : Store) : FieldDef := { lo, w, store := st }
/-- RWL field. -/
def rwl (lo w : Nat) : FieldDef := { lo, w, lock := true }
/-- RWL field with a rule for the stored value. -/
def rwls (lo w : Nat) (st : Store) : FieldDef := { lo, w, lock := true, store := st }

/-- The base of block n in PF BAR0 (spec/00 R1). -/
def blockBase (n : Nat) : Nat := n * 0x200000

/-- The offset that indices add. -/
def idxOff : List (Nat × Nat) → List Nat → Nat
  | (_, st) :: ds, i :: is => i * st + idxOff ds is
  | _, _ => 0

/-- The PF BAR0 address of an element. -/
def RegDef.addr (r : RegDef) (idx : List Nat) : Nat := blockBase r.block + r.off + idxOff r.dims idx

/-- The indices that an offset beyond the base spells, if any; strides fall. -/
def idxOf : List (Nat × Nat) → Nat → Option (List Nat)
  | [], o => if o = 0 then some [] else none
  | (n, st) :: ds, o => if o / st < n then (idxOf ds (o % st)).map (o / st :: ·) else none

/-- The element of `r` at a PF BAR0 address, if it is one. -/
def RegDef.at? (r : RegDef) (a : Nat) : Option (List Nat) :=
  if a < blockBase r.block + r.off then none
  else (idxOf r.dims (a - (blockBase r.block + r.off))).filter r.valid

/-- Nth index, 0 where missing. -/
def ix (l : List Nat) (k : Nat) : Nat := l.getD k 0

namespace Reg

/-- spec/01 R30. -/
def prsAdmitSlots : RegDef :=
  { block := 8, off := 0x200, dims := [(4, 0x20), (8, 4)], fields := [rwl 0 9, rwl 16 9]
    valid := fun i => ix i 1 ≠ 1 && ix i 1 ≠ 3
    reset := fun i => match ix i 1 with
      | 0 => 64 + 160 * 65536 | 2 => 64 + 160 * 65536 | 4 => 32 + 96 * 65536
      | 5 => 16 + 48 * 65536 | 6 => 8 + 24 * 65536 | _ => 8 + 16 * 65536 }
/-- spec/02 R52. -/
def pwrPaceCtl : RegDef :=
  { block := 1, off := 0x100, fields := [rwl 0 1, rwl 1 1, rwl 2 1, rwl 3 1, rws 8 7 (.clamp 80 120), rw 16 2]
    reset := fun _ => 0xF + 120 * 256 }
/-- spec/02 R53. -/
def pwrDroopThr : RegDef :=
  { block := 1, off := 0x104, fields := [rws 0 5 (.clamp 2 20), rws 8 6 (.clamp 10 60)]
    reset := fun _ => 8 + 25 * 256 }
/-- spec/02 R62. -/
def tsuCtl : RegDef := { block := 0, off := 0x10000, fields := [rwl 0 1] }
/-- spec/02 R62. -/
def tsuTodAdj : RegDef :=
  { block := 0, off := 0x10018, fields := [rws 0 32 (.sclamp 32 (-2097152) 2097152)] }
/-- spec/03 R79. -/
def pwrThermCtl : RegDef :=
  { block := 1, off := 0x14, fields := [rws 0 8 (.clamp 70 110), rws 8 8 (.clamp 70 95), rw 16 1]
    reset := fun _ => 100 + 90 * 256 + 65536 }
/-- spec/05 R144. -/
def lsdOctetCfg : RegDef :=
  { block := 2, off := 0, dims := [(4, 0x10)], fields := [{ lo := 0, w := 7, w1s := true }, rwl 8 1] }
/-- spec/05 R146. -/
def lsdLaneCtl : RegDef :=
  { block := 2, off := 0x100, dims := [(32, 4)], fields := [rwl 0 1, rwl 1 1, rw 4 4] }
/-- spec/05 R147. -/
def lsdPortCtl : RegDef :=
  { block := 2, off := 0x200, dims := [(32, 0x10)], fields := [rw 0 1, rwl 1 2, rwl 3 2, rw 5 1, rw 6 2]
    reset := fun _ => 2 * 8 }
/-- spec/05 R150. -/
def macPortCfg : RegDef :=
  { block := 3, off := 0, dims := [(32, 0x40)]
    fields := [rws 0 14 (.clamp 128 10240), rw 14 2, rw 16 2, rw 18 1, rw 19 1, rw 20 1, rw 21 1]
    reset := fun _ => 9216 + 2 ^ 19 }
/-- spec/05 R151. -/
def macVlanCfg : RegDef :=
  { block := 3, off := 4, dims := [(32, 0x40)], fields := [rw 0 16, rw 16 16], reset := fun _ => 0x8100 }
/-- spec/05 R151. -/
def macPfcCfg : RegDef :=
  { block := 3, off := 8, dims := [(32, 0x40)], fields := [rw 0 16, rw 16 8, rw 24 8]
    reset := fun _ => 0xFFFFFFFF }
/-- spec/05 R151. -/
def macPtpCorr : RegDef := { block := 3, off := 0xC, dims := [(32, 0x40)], fields := [rw 0 16, rw 16 16] }
/-- spec/05 R151. -/
def macPauseSaLo : RegDef := { block := 3, off := 0x14, dims := [(32, 0x40)], fields := [rw 0 32] }
/-- spec/05 R151. -/
def macPauseSaHi : RegDef := { block := 3, off := 0x18, dims := [(32, 0x40)], fields := [rw 0 16] }
/-- spec/06 R193. -/
def hfcFaceSetup : RegDef :=
  { block := 4, off := 0, dims := [(4, 0x1000)], fields := [rwl 0 1, rwl 1 2, rwl 3 3] }
/-- spec/06 R193. -/
def hfcFaceVf : RegDef :=
  { block := 4, off := 4, dims := [(4, 0x1000)], fields := [rwl 0 12, rwls 16 12 (.clamp 0 2048)]
    reset := fun i => 512 * ix i 0 + 512 * 65536 }
/-- spec/06 R193. -/
def hfcFaceSubsys : RegDef :=
  { block := 4, off := 8, dims := [(4, 0x1000)], fields := [rwl 0 16, rwl 16 16], reset := fun _ => 0x1CA31 }
/-- spec/07 R227, transmit words 0-5. -/
def qmgTxq : RegDef :=
  { block := 6, off := 0, dims := [(16384, 0x20), (6, 4)], fields := [rw 0 32]
    reset := fun i => match ix i 1 with | 3 => 65536 + 15 * 2 ^ 24 | 4 => 64 | _ => 0 }
/-- spec/07 R227, receive words 0-5. -/
def qmgRxq : RegDef :=
  { block := 6, off := 0x80000, dims := [(16384, 0x20), (6, 4)], fields := [rw 0 32]
    reset := fun i => match ix i 1 with | 3 => 65536 + 15 * 2 ^ 24 | 4 => 6 * 2 | _ => 0 }
/-- spec/07 R228, word 0. -/
def qmgDbLine : RegDef :=
  { block := 6, off := 0x100000, dims := [(8192, 0x10)], fields := [rw 0 12, rw 12 1, rw 13 3, rw 16 1, rw 17 1]
    reset := fun _ => 2 ^ 13 }
/-- spec/07 R228, word 1. -/
def qmgDbLineLo : RegDef := { block := 6, off := 0x100004, dims := [(8192, 0x10)], fields := [rw 0 32] }
/-- spec/07 R228, word 2. -/
def qmgDbLineHi : RegDef := { block := 6, off := 0x100008, dims := [(8192, 0x10)], fields := [rw 0 32] }
/-- spec/07 R228, word 3. -/
def qmgDbLinePasid : RegDef := { block := 6, off := 0x10000C, dims := [(8192, 0x10)], fields := [rw 0 20] }
/-- spec/07 R229. -/
def qmgPollClass : RegDef :=
  { block := 6, off := 0x130000, dims := [(4, 0x1000), (8, 4)]
    fields := [rws 0 14 (.clamp 2 8388), rws 16 4 (.clamp 0 13)]
    reset := fun i => if ix i 1 = 0 then 4 + 65536 else 64 + 4 * 65536 }
/-- spec/07 R229. -/
def qmgPollFace : RegDef :=
  { block := 6, off := 0x130040, dims := [(4, 0x1000)], fields := [rws 0 9 (.clamp 1 500)], reset := fun _ => 500 }
/-- spec/08 R253, words 0-1. -/
def qmgCq : RegDef := { block := 6, off := 0x140000, dims := [(8192, 0x20), (2, 4)], fields := [rw 0 32] }
/-- spec/08 R253, word 2. -/
def qmgCq2 : RegDef :=
  { block := 6, off := 0x140008, dims := [(8192, 0x20)], fields := [rw 0 12, rw 12 4, rw 16 13, rw 29 3] }
/-- spec/08 R253, word 3. -/
def qmgCq3 : RegDef :=
  { block := 6, off := 0x14000C, dims := [(8192, 0x20)]
    fields := [rw 0 8, rw 8 1, rw 9 1, rw 10 1, rws 16 9 (.clamp 0 256)], reset := fun _ => 65536 }
/-- spec/08 R253, word 4. -/
def qmgCq4 : RegDef :=
  { block := 6, off := 0x140010, dims := [(8192, 0x20)], fields := [rw 0 16, rws 16 9 (.clamp 4 256)]
    reset := fun _ => 256 * 65536 }
/-- spec/08 R253, word 5. -/
def qmgCq5 : RegDef := { block := 6, off := 0x140014, dims := [(8192, 0x20)], fields := [rw 0 20] }
/-- spec/09 R283. -/
def dmaPoolCfg : RegDef :=
  { block := 5, off := 0, dims := [(4, 0x1000), (8, 0x10)], fields := [rwl 0 13, rwl 16 10]
    valid := fun i => ix i 1 = 2 || ix i 1 = 3 || ix i 1 = 7
    reset := fun i => match ix i 1 with | 2 => 2560 + 128 * 65536 | 3 => 1024 | _ => 496 }
/-- spec/09 R283. -/
def dmaPoolStage : RegDef :=
  { block := 5, off := 4, dims := [(4, 0x1000), (8, 0x10)], fields := [rwl 0 14]
    valid := fun i => ix i 1 = 2 || ix i 1 = 3 || ix i 1 = 7
    reset := fun i => match ix i 1 with | 2 => 2432 | 3 => 1024 | _ => 448 }
/-- spec/09 R284. -/
def dmaFaceCtl : RegDef := { block := 5, off := 0x100, dims := [(4, 0x1000)], fields := [rw 0 1, rw 1 1] }
/-- spec/09 R274: job records. -/
def dmaJob : RegDef :=
  { block := 5, off := 0x800, dims := [(4, 0x1000), (32, 0x20), (8, 4)], fields := [rw 0 32], fw := true }
/-- spec/10 R289. -/
def ivmCmdArg : RegDef := { block := 7, off := 8, dims := [(4, 0x1000), (4, 4)], fields := [rw 0 32] }
/-- spec/10 R307; Quoin channels are views. -/
def ivmMbxBind : RegDef :=
  { block := 7, off := 0x190000, dims := [(2052, 4)], fields := [rwl 0 3, rwl 4 3], fw := true
    reset := fun i => if ix i 0 < 2048 then 1 + 2 * 16 else 1 + 3 * 16 }
/-- spec/11 R336. -/
def prsActCfg : RegDef :=
  { block := 8, off := 0, dims := [(8, 0x10)], fields := [rwl 0 6, rw 8 1, rw 9 1, rw 10 1, rw 11 1, rw 12 1]
    valid := fun i => ix i 0 ≠ 1 && ix i 0 ≠ 3
    reset := fun i => if ix i 0 = 0 || ix i 0 = 4 || ix i 0 = 5 then 1 + 0x1700 else 1 + 0x1400 }
/-- spec/11 R336. -/
def prsHashSeed : RegDef :=
  { block := 8, off := 4, dims := [(8, 0x10)], fields := [rw 0 32]
    valid := fun i => ix i 0 ≠ 1 && ix i 0 ≠ 3, reset := fun _ => 0xFFFFFFFF }
/-- spec/11 R336. -/
def prsPatUser : RegDef :=
  { block := 8, off := 8, dims := [(8, 0x10)], fields := [rw 0 24]
    valid := fun i => ix i 0 ≠ 1 && ix i 0 ≠ 3 }

/-- The built-in nodes as registers (spec/11 R319, R321): the four words of types 1-22. -/
def builtinNodes : List (List Nat) :=
  let n (base term fromEnd lfEn mult nxt shift : Nat) : Nat :=
    base + 512 + term * 1024 + fromEnd * 2048 + lfEn * 4096 + mult * 8192 + nxt * 65536 + shift * 2 ^ 25
  let stop (off mask : Nat) : Nat := mask + off * 65536 + 2 ^ 25
  let claim (off fromEnd minLen : Nat) : Nat := off + 512 + fromEnd * 1024 + minLen * 65536
  let m (minLen : Nat) : Nat := minLen * 65536
  [ [n 14 0 0 0 0 12 0, 0, 0, m 14],
    [n 4 0 0 0 0 2 0, 0, 0, m 4],
    [n 4 0 0 0 0 2 0, 0, 0, m 4],
    [n 0 0 1 1 2 2 8, 0x0F00, 0, m 8],
    [n 4 0 0 0 0 2 0, 0, 0, m 4],
    [n 0 0 0 1 2 8 8, 0x0F00, stop 6 0x1FFF, claim 2 0 20],
    [n 40 0 0 0 0 6 0, 0, 0, claim 4 1 40],
    [n 8 0 0 1 3 0 0, 0x00FF, 0, m 8],
    [n 8 0 0 0 0 0 0, 0, stop 2 0xFFF8, m 8],
    [n 8 0 0 1 2 0 0, 0x00FF, 0, m 12],
    [n 8 1 0 0 0 0 0, 0, 0, m 8],
    [n 8 0 0 0 0 2 0, 0, 0, claim 4 0 8],
    [n 0 1 0 1 2 0 12, 0xF000 + 12 * 65536, 0, m 20],
    [n 8 1 0 0 0 0 0, 0, 0, m 8],
    [n 8 1 0 0 0 0 0, 0, 0, m 8],
    [n 28 1 0 0 0 0 0, 0, 0, m 28],
    [n 8 0 0 0 0 0 0, 0, 0, m 8],
    [n 8 0 0 1 2 2 8, 0x3F00, 0, m 8],
    [n 4 0 0 0 0 2 0, 0, 0, m 4],
    [n 6 1 0 1 3 0 13, 0x2000, 0, m 6],
    [n 12 1 0 0 0 0 0, 0, 0, m 12],
    [n 34 1 0 0 0 0 0, 0, 0, m 34] ]

/-- spec/11 R337; types 1-22 hold the built-in values and are not writable. -/
def prsNode0 : RegDef :=
  { block := 8, off := 0x1000, dims := [(64, 0x10)]
    fields := [rwl 0 9, rwl 9 1, rwl 10 1, rwl 11 1, rwl 12 1, rwl 13 3, rwl 16 9, rwl 25 4]
    valid := fun i => 48 ≤ ix i 0 }
/-- spec/11 R337. -/
def prsNode1 : RegDef :=
  { block := 8, off := 0x1004, dims := [(64, 0x10)], fields := [rwl 0 16, rwl 16 9], valid := fun i => 48 ≤ ix i 0 }
/-- spec/11 R337. -/
def prsNode2 : RegDef :=
  { block := 8, off := 0x1008, dims := [(64, 0x10)], fields := [rwl 0 16, rwl 16 9, rwl 25 1]
    valid := fun i => 48 ≤ ix i 0 }
/-- spec/11 R337. -/
def prsNode3 : RegDef :=
  { block := 8, off := 0x100C, dims := [(64, 0x10)], fields := [rwl 0 9, rwl 9 1, rwl 10 1, rwl 16 9]
    valid := fun i => 48 ≤ ix i 0 }

/-- The built-in edges 0-104 as (from, value, mask, to) (spec/11 R320). -/
def builtinEdges : List (Nat × Nat × Nat × Nat) :=
  let f (srcs : List Nat) (v m to_ : Nat) := srcs.map (fun t => (t, v, m, to_))
  let ip (src : Nat) (mult mask : Nat) (l : List (Nat × Nat)) := l.map (fun p => (src, p.1 * mult, mask, p.2))
  let l6 := [(0, 8), (43, 8), (60, 8), (44, 9), (6, 13), (17, 12), (58, 15), (1, 14), (47, 19), (50, 11),
    (51, 10), (4, 6), (41, 7)]
  f [1, 3, 4, 2] 0x8100 0xFFFF 2 ++ f [1, 4] 0x88A8 0xFFFF 3 ++ f [1] 0x88B5 0xFFFF 4
  ++ f [1, 4, 2, 3] 0x0800 0xFFFF 6 ++ f [1, 4, 2, 3] 0x86DD 0xFFFF 7 ++ f [1, 4, 2, 3] 0x8847 0xFFFF 5
  ++ f [1, 4, 2, 3] 0x0806 0xFFFF 16 ++ f [1, 4, 2, 3] 0x88E5 0xFFFF 20 ++ f [1, 4, 2, 3] 0x88F7 0xFFFF 22
  ++ f [5] 0x0000 0x0100 5
  ++ ip 6 1 0x00FF [(6, 13), (17, 12), (1, 14), (47, 19), (50, 11), (51, 10), (4, 6), (41, 7)]
  ++ ip 7 0x100 0xFF00 l6 ++ ip 8 0x100 0xFF00 l6 ++ ip 9 0x100 0xFF00 l6 ++ ip 10 0x100 0xFF00 l6
  ++ [(12, 4789, 0xFFFF, 17), (12, 6081, 0xFFFF, 18), (12, 4791, 0xFFFF, 21), (12, 319, 0xFFFF, 22),
      (12, 320, 0xFFFF, 22), (17, 0, 0, 1), (18, 0x6558, 0xFFFF, 1), (18, 0x0800, 0xFFFF, 6),
      (18, 0x86DD, 0xFFFF, 7), (19, 0x6558, 0xFFFF, 1), (19, 0x0800, 0xFFFF, 6), (19, 0x86DD, 0xFFFF, 7),
      (19, 0x8847, 0xFFFF, 5)]

/-- spec/11 R338, word 0. -/
def prsEdge0 : RegDef :=
  { block := 8, off := 0x2000, dims := [(512, 8)], fields := [rwl 0 6, rwl 6 1, rwl 8 6]
    reset := fun i => match builtinEdges[ix i 0]? with
      | some (f, _, _, t) => f + 64 + t * 256 | none => 0 }
/-- spec/11 R338, word 1. -/
def prsEdge1 : RegDef :=
  { block := 8, off := 0x2004, dims := [(512, 8)], fields := [rwl 0 16, rwl 16 16]
    reset := fun i => match builtinEdges[ix i 0]? with
      | some (_, v, m, _) => v + m * 65536 | none => 0 }
/-- spec/11 R339, word 0. -/
def prsPat0 : RegDef :=
  { block := 8, off := 0x4000, dims := [(64, 0x20)], fields := [rw 0 6, rw 6 2, rw 8 9, rw 17 6, rw 24 5, rw 31 1] }
/-- spec/11 R339, word 1. -/
def prsPat1 : RegDef := { block := 8, off := 0x4004, dims := [(64, 0x20)], fields := [rw 0 8, rw 8 4] }
/-- spec/11 R339, value and mask words. -/
def prsPatWords : RegDef := { block := 8, off := 0x4008, dims := [(64, 0x20), (4, 4)], fields := [rw 0 32] }
/-- spec/21 R630. -/
def prsPortCourse : RegDef :=
  { block := 8, off := 0x8000, dims := [(32, 4)], fields := [rw 0 2], fw := true, reset := fun i => ix i 0 / 8 }
/-- spec/12 R373. -/
def clsLoadSrc : RegDef := { block := 9, off := 8, fields := [rw 0 32], fw := true }
/-- spec/12 R373. -/
def clsLoadLen : RegDef := { block := 9, off := 0xC, fields := [rw 0 22], fw := true }
/-- spec/12 R374. -/
def clsExcLim : RegDef :=
  { block := 9, off := 0x1000, dims := [(32, 0x20)], fields := [rw 0 16, rws 16 12 (.clamp 1 4095)]
    reset := fun _ => 1000 + 64 * 65536 }
/-- spec/12 R374. -/
def clsExcMap : RegDef :=
  { block := 9, off := 0x2000, dims := [(256, 4)], fields := [rw 0 5], reset := fun i => ix i 0 / 8 }
/-- spec/13 R404. -/
def fwdClassProf : RegDef :=
  { block := 10, off := 0, dims := [(256, 0x10)]
    fields := [rw 0 1, rw 1 1, rw 2 2, rw 4 1, rw 5 2, rw 7 1, rw 8 1, rw 9 1, rw 10 2, rw 12 1]
    reset := fun _ => 2 + 4 + 256 }
/-- spec/13 R404. -/
def fwdClassRegion : RegDef := { block := 10, off := 4, dims := [(256, 0x10)], fields := [rw 0 12] }
/-- spec/13 R404. -/
def fwdClassMiss : RegDef := { block := 10, off := 8, dims := [(256, 0x10)], fields := [rw 0 27] }
/-- spec/13 R404. -/
def fwdSrcportDom : RegDef := { block := 10, off := 0x1000, dims := [(256, 4)], fields := [rw 0 13] }
/-- spec/13 R405. -/
def fwdDomain : RegDef :=
  { block := 10, off := 0x8000, dims := [(8192, 4)], fields := [rw 0 12, rw 12 1], reset := fun _ => 4096 }
/-- spec/13 R405. -/
def fwdNhGroup : RegDef :=
  { block := 10, off := 0x10000, dims := [(16384, 4)], fields := [rw 0 16, rws 16 7 (.clamp 0 64)] }
/-- spec/13 R405. -/
def fwdNhMember : RegDef := { block := 10, off := 0x20000, dims := [(65536, 0x10)], fields := [rw 0 27, rw 27 1] }
/-- spec/13 R405, the address words. -/
def fwdNhAddr : RegDef := { block := 10, off := 0x20004, dims := [(65536, 0x10), (3, 4)], fields := [rw 0 32] }
/-- spec/13 R405. -/
def fwdRepl : RegDef := { block := 10, off := 0x120000, dims := [(16384, 4)], fields := [rw 0 27] }
/-- spec/13 R405. -/
def fwdFloodGroup : RegDef :=
  { block := 10, off := 0x130000, dims := [(4096, 4)], fields := [rw 0 14, rws 16 7 (.clamp 0 64)] }
/-- spec/13 R405. -/
def fwdPartOwner : RegDef :=
  { block := 10, off := 0x140000, dims := [(64, 4)], fields := [rw 0 12, rw 12 1], fw := true }
/-- spec/13 R406. -/
def fwdSeed : RegDef :=
  { block := 10, off := 0x2000, dims := [(6, 4)], fields := [rwl 0 32]
    reset := fun i => ix [0x9E3779B9, 0x7F4A7C15, 0x85EBCA6B, 0xC2B2AE35, 0x27D4EB2F, 0x165667B1] (ix i 0) }
/-- spec/13 R406. -/
def fwdSeedNext : RegDef := { block := 10, off := 0x2020, dims := [(4, 4)], fields := [rw 0 32] }
/-- spec/13 R406. -/
def fwdTblCfg : RegDef :=
  { block := 10, off := 0x3000, fields := [rw 0 1, rw 1 1, rw 2 2, rw 4 2, rws 6 4 (.clamp 1 8)]
    reset := fun _ => 3 + 4 * 64 }
/-- spec/13 R406. -/
def fwdLearnCfg : RegDef :=
  { block := 10, off := 0x3004, fields := [rws 0 10 (.clamp 1 1000)], reset := fun _ => 10 }
/-- spec/13 R406. -/
def fwdAgeCfg : RegDef := { block := 10, off := 0x3008, fields := [rw 0 16, rw 16 16] }
/-- spec/13 R406. -/
def fwdEmLimit : RegDef :=
  { block := 10, off := 0x3010, dims := [(2, 4)], fields := [rw 0 22], reset := fun _ => 2097408 }
/-- spec/13 R406. -/
def fwdLrnCons : RegDef := { block := 10, off := 0x4004, fields := [rw 0 32], fw := true }
/-- spec/13 R407. -/
def fwdCmdArg : RegDef := { block := 10, off := 0x5040, dims := [(5, 0x100), (16, 4)], fields := [rw 0 32] }
/-- spec/14 R442. -/
def tunClassProf : RegDef :=
  { block := 11, off := 0, dims := [(256, 4)], fields := [rw 0 1, rw 1 1, rw 2 2, rw 4 14], reset := fun _ => 2 }
/-- spec/14 R442. -/
def tunOpt : RegDef := { block := 11, off := 0x8000, dims := [(256, 0x40), (16, 4)], fields := [rw 0 32] }
/-- spec/14 R443, word 0. -/
def tunEntry0 : RegDef :=
  { block := 11, off := 0x100000, dims := [(16384, 0x40)], fields := [rw 0 13, rw 16 8, rw 24 6]
    reset := fun _ => 64 + 128 + 256 + 64 * 65536 }
/-- spec/14 R443, word 1. -/
def tunEntry1 : RegDef :=
  { block := 11, off := 0x100004, dims := [(16384, 0x40)]
    fields := [rws 0 14 (.clampNz 64 10240), rws 14 5 (.clamp 0 16), rw 19 8] }
/-- spec/14 R443, word 2. -/
def tunEntry2 : RegDef := { block := 11, off := 0x100008, dims := [(16384, 0x40)], fields := [rw 0 32] }
/-- spec/14 R443, word 3. -/
def tunEntry3 : RegDef :=
  { block := 11, off := 0x10000C, dims := [(16384, 0x40)], fields := [rw 0 16, rw 16 16], reset := fun _ => 4789 }
/-- spec/14 R443, words 4-14. -/
def tunEntryAddr : RegDef := { block := 11, off := 0x100010, dims := [(16384, 0x40), (11, 4)], fields := [rw 0 32] }
/-- spec/14 R445. -/
def cryClassProf : RegDef := { block := 12, off := 0, dims := [(256, 4)], fields := [rw 0 1] }
/-- spec/14 R445. -/
def cryLaneCtl : RegDef :=
  { block := 12, off := 0x1000, dims := [(8, 0x10)], fields := [rw 0 1], reset := fun i => if ix i 0 < 4 then 0 else 1 }
/-- spec/14 R446. -/
def crySaArg : RegDef := { block := 12, off := 0x5040, dims := [(5, 0x100), (16, 4)], fields := [rw 0 32] }
/-- spec/15 R481. -/
def stoClassProf : RegDef :=
  { block := 13, off := 0, dims := [(256, 4)], fields := [rw 0 1, rw 1 1, rw 2 1], reset := fun _ => 4 }
/-- spec/15 R481. -/
def stoCc0 : RegDef :=
  { block := 13, off := 0x1000, fields := [rws 0 8 (.clamp 1 255), rw 8 8, rws 16 16 (.clamp 1 65535)]
    reset := fun _ => 4 + 5 * 256 + 50 * 65536 }
/-- spec/15 R481. -/
def stoCc1 : RegDef :=
  { block := 13, off := 0x1004, fields := [rw 0 16, rw 16 16], reset := fun _ => 55 + 300 * 65536 }
/-- spec/15 R481. -/
def stoCc2 : RegDef :=
  { block := 13, off := 0x1008, fields := [rws 0 20 (.clamp 1 800000)], reset := fun _ => 400000 }
/-- spec/15 R481. -/
def stoCc3 : RegDef := { block := 13, off := 0x100C, fields := [rw 0 20], reset := fun _ => 100 }
/-- spec/15 R481. -/
def stoCc4 : RegDef := { block := 13, off := 0x1010, fields := [rw 0 20], reset := fun _ => 40 }
/-- spec/15 R481. -/
def stoCc5 : RegDef :=
  { block := 13, off := 0x1014, fields := [rws 0 20 (.clamp 1 1048575)], reset := fun _ => 10240 }
/-- spec/15 R482. -/
def stoCmdArg : RegDef := { block := 13, off := 0x5040, dims := [(5, 0x100), (16, 4)], fields := [rw 0 32] }
/-- spec/16 R506. -/
def bufClassMap : RegDef := { block := 15, off := 0x400, dims := [(256, 4)], fields := [rw 0 3] }
/-- spec/16 R507. -/
def bufIngCfg : RegDef :=
  { block := 15, off := 0x1000, dims := [(8, 0x10)], fields := [rwl 0 19, rws 19 4 (.clamp 0 10)]
    valid := fun i => ix i 0 = 2 || (4 ≤ ix i 0)
    reset := fun i => (match ix i 0 with | 2 => 8192 | 4 => 4096 | 5 => 1024 | _ => 512) + 6 * 2 ^ 19 }
/-- spec/16 R507. -/
def bufIngWait : RegDef :=
  { block := 15, off := 0x1004, dims := [(8, 0x10)], fields := [rws 0 12 (.clamp 0 3000)]
    valid := fun i => ix i 0 = 2 || ix i 0 = 4 || ix i 0 = 6 || ix i 0 = 7, reset := fun _ => 1000 }
/-- spec/16 R508. -/
def bufPgCfg : RegDef :=
  { block := 15, off := 0x2000, dims := [(32, 0x100), (8, 0x10)], fields := [rwl 0 16, rwl 16 16], reset := fun _ => 64 }
/-- spec/16 R508. -/
def bufPgCtl : RegDef :=
  { block := 15, off := 0x2004, dims := [(32, 0x100), (8, 0x10)], fields := [rws 0 4 (.clamp 0 10), rw 8 16]
    reset := fun _ => 4 + 32 * 256 }
/-- spec/16 R509. -/
def bufEgCfg : RegDef :=
  { block := 15, off := 0x4000, dims := [(36, 0x100), (8, 0x10)], fields := [rw 0 16, rws 16 4 (.clamp 0 10), rw 20 3]
    reset := fun _ => 40 + 7 * 65536 }
/-- spec/16 R509. -/
def bufEgAct : RegDef :=
  { block := 15, off := 0x7000, dims := [(8, 0x10)], fields := [rw 0 16, rws 16 4 (.clamp 0 10)]
    valid := fun i => 5 ≤ ix i 0, reset := fun _ => 40 + 7 * 65536 }
/-- spec/16 R510. -/
def bufHrxQprof : RegDef := { block := 15, off := 0x10000, dims := [(16384, 4)], fields := [rw 0 4] }
/-- spec/16 R510, word 0. -/
def bufHrxProf0 : RegDef :=
  { block := 15, off := 0x20000, dims := [(16, 0x10)], fields := [rw 0 16, rws 16 4 (.clamp 0 10), rw 20 3, rw 23 1]
    reset := fun _ => 40 + 7 * 65536 }
/-- spec/16 R510, word 1. -/
def bufHrxProf1 : RegDef :=
  { block := 15, off := 0x20004, dims := [(16, 0x10)], fields := [rw 0 16, rw 16 16], reset := fun _ => 100 + 64 * 65536 }
/-- spec/16 R510, word 2. -/
def bufHrxProf2 : RegDef :=
  { block := 15, off := 0x20008, dims := [(16, 0x10)], fields := [rws 0 14 (.clamp 0 8192)], reset := fun _ => 64 }
/-- spec/16 R510, word 0. -/
def bufEcnProf0 : RegDef :=
  { block := 15, off := 0x21000, dims := [(8, 8)], fields := [rw 0 16, rw 16 16], valid := fun i => 1 ≤ ix i 0 }
/-- spec/16 R510, word 1. -/
def bufEcnProf1 : RegDef :=
  { block := 15, off := 0x21004, dims := [(8, 8)], fields := [rw 0 9], valid := fun i => 1 ≤ ix i 0 }
/-- spec/16 R510. -/
def bufSpillCfg : RegDef := { block := 15, off := 0x22000, fields := [rwl 0 1, rwl 1 14] }
/-- spec/16 R511. -/
def bufRstoreCfg : RegDef :=
  { block := 15, off := 0x23000, dims := [(4, 0x10)], fields := [rws 0 8 (.clamp 1 63), rw 8 8]
    reset := fun _ => 16 + 8 * 256 }
/-- spec/16 R511. -/
def bufPortCfg : RegDef :=
  { block := 15, off := 0x24000, dims := [(32, 4)], fields := [rw 0 16], reset := fun _ => 100 }
/-- spec/17 R538 first word: rate, k, en. -/
def shpFields0 : List FieldDef := [rws 0 20 (.clamp 0 800000), rw 20 3, rw 31 1]
/-- spec/17 R539. -/
def tmsExitCfg : RegDef :=
  { block := 14, off := 0, dims := [(44, 0x40)], fields := [rws 0 7 (.sclamp 7 (-32) 63), rw 8 12]
    reset := fun i =>
      if ix i 0 < 32 then 20 + 8 * ix i 0 * 256
      else if ix i 0 < 40 then 0 else (256 + 8 * (ix i 0 - 40)) * 256 }
/-- spec/17 R539. -/
def tmsExitShp0 : RegDef := { block := 14, off := 0x10, dims := [(44, 0x40)], fields := shpFields0 }
/-- spec/17 R539. -/
def tmsExitShp1 : RegDef :=
  { block := 14, off := 0x14, dims := [(44, 0x40)], fields := [rw 0 24], reset := fun _ => 16384 }
/-- The exit of group g at reset (spec/17 R517). -/
def groupExit0 (g : Nat) : Nat :=
  if g < 32 then g else if g < 36 then 40 + (g - 32) else if g < 44 then 32 + (g - 36) else 0
/-- spec/17 R540. -/
def tmsGroupCfg : RegDef :=
  { block := 14, off := 0x10000, dims := [(512, 0x20)], fields := [rw 0 6, rw 8 8, rw 16 8]
    reset := fun i => groupExit0 (ix i 0) + 256 + 65536 }
/-- spec/17 R540. -/
def tmsGroupShp0 : RegDef := { block := 14, off := 0x10004, dims := [(512, 0x20)], fields := shpFields0 }
/-- spec/17 R540. -/
def tmsGroupShp1 : RegDef :=
  { block := 14, off := 0x10008, dims := [(512, 0x20)], fields := [rw 0 24], reset := fun _ => 16384 }
/-- spec/17 R541. -/
def tmsNodeCfg : RegDef :=
  { block := 14, off := 0x20000, dims := [(2052, 0x20)], fields := [rw 0 8], reset := fun _ => 1 }
/-- spec/17 R541. -/
def tmsNodeShp0 : RegDef := { block := 14, off := 0x20004, dims := [(2052, 0x20)], fields := shpFields0 }
/-- spec/17 R541. -/
def tmsNodeShp1 : RegDef :=
  { block := 14, off := 0x20008, dims := [(2052, 0x20)], fields := [rw 0 24], reset := fun _ => 16384 }
/-- spec/17 R542. -/
def tmsTqCfg : RegDef :=
  { block := 14, off := 0x40000, dims := [(4096, 8)], fields := [rw 0 9, rw 9 3, rw 12 8, rw 20 6]
    reset := fun i => (if ix i 0 < 288 then ix i 0 / 8 + ix i 0 % 8 * 512 else 511) + 4096 }
/-- spec/17 R542. -/
def tmsRxqCfg : RegDef :=
  { block := 14, off := 0x80000, dims := [(16384, 4)], fields := [rw 0 9, rw 9 3, rw 12 8, rw 20 6, rw 26 1]
    reset := fun _ => 4096 }
/-- spec/17 R543. -/
def tmsPolCfg : RegDef :=
  { block := 14, off := 0xC0000, dims := [(4096, 0x20)]
    fields := [rw 0 1, rw 1 1, rw 2 1, rw 3 1, rws 4 7 (.sclamp 7 (-32) 63)] }
/-- spec/17 R543, cir_mbps and pir_mbps. -/
def tmsPolRate : RegDef :=
  { block := 14, off := 0xC0004, dims := [(4096, 0x20), (2, 4)], fields := [rws 0 20 (.clamp 0 800000)] }
/-- spec/17 R543, cbs and pbs. -/
def tmsPolSize : RegDef := { block := 14, off := 0xC000C, dims := [(4096, 0x20), (2, 4)], fields := [rw 0 24] }
/-- spec/17 R544. -/
def tmsGateCtl : RegDef := { block := 14, off := 0x100000, dims := [(32, 0x1000)], fields := [rw 0 1] }
/-- spec/17 R544. -/
def tmsGateList : RegDef :=
  { block := 14, off := 0x100100, dims := [(32, 0x1000), (2, 0x20)], fields := [rw 0 7] }
/-- spec/17 R544. -/
def tmsGateBase : RegDef :=
  { block := 14, off := 0x100108, dims := [(32, 0x1000), (2, 0x20), (2, 4)], fields := [rw 0 32] }
/-- spec/17 R544. -/
def tmsGateEnt : RegDef :=
  { block := 14, off := 0x100400, dims := [(32, 0x1000), (2, 0x200), (64, 8)], fields := [rw 0 24, rw 24 8] }
/-- spec/18 R562. -/
def kscReturnCtl : RegDef := { block := 18, off := 0x14, fields := [rw 0 1], fw := true }
/-- spec/18 R574. -/
def xpeClusterCtl : RegDef := { block := 17, off := 0, dims := [(4, 0x100)], fields := [rw 0 32], fw := true }
/-- spec/18 R574. -/
def xpeClusterCfg : RegDef :=
  { block := 17, off := 4, dims := [(4, 0x100)], fields := [rw 0 16], reset := fun _ => 1000 }

/-- Level and routes of a source after reset: level, int_ksc in bit 3, int_mgr in bit 4 (spec/19 R578, R579). -/
def srcReset (s : Nat) : Nat :=
  let k (l : Nat) := l + 8
  let m (l : Nat) := l + 16
  let km (l : Nat) := l + 24
  if s = 1 || s = 17 || s = 353 || s = 385 || s = 481 then k 5
  else if [193, 225, 257, 273, 289, 321, 417, 449].contains s then k 3
  else if [33, 49, 65, 97, 129, 161, 177, 513].contains s then k 2
  else if s = 6 then m 4
  else if [9, 390, 454].contains s then km 4
  else if s = 25 then k 5
  else if [389, 522].contains s then k 2
  else if [3, 5, 8, 20, 21, 22, 23, 24, 36, 67, 68, 69, 70, 71, 106, 136, 280, 355, 356, 421, 451, 453, 455,
    460, 461, 517, 519, 520, 521].contains s then km 1
  else k 1

/-- The sources that R578 and R579 define (spec/19 R576). -/
def srcDefined (s : Nat) : Bool :=
  ([0, 1, 16, 17, 18, 32, 33, 34, 48, 49, 50, 64, 65, 96, 97, 98, 128, 129, 130, 160, 161, 162, 176, 177, 178,
    192, 193, 194, 224, 225, 226, 256, 257, 258, 272, 273, 274, 288, 289, 290, 320, 321, 322, 352, 353, 354,
    384, 385, 386, 416, 417, 418, 448, 449, 450, 480, 481, 482, 512, 513, 514] : List Nat).contains s
  || (3 ≤ s && s ≤ 9) || (19 ≤ s && s ≤ 25) || (35 ≤ s && s ≤ 37) || (51 ≤ s && s ≤ 53)
  || (67 ≤ s && s ≤ 73) || (99 ≤ s && s ≤ 107) || (131 ≤ s && s ≤ 136) || (163 ≤ s && s ≤ 167)
  || (195 ≤ s && s ≤ 198) || (227 ≤ s && s ≤ 229) || (275 ≤ s && s ≤ 280) || (291 ≤ s && s ≤ 293)
  || (323 ≤ s && s ≤ 325) || (355 ≤ s && s ≤ 359) || (387 ≤ s && s ≤ 390) || (419 ≤ s && s ≤ 421)
  || (451 ≤ s && s ≤ 461) || s = 483 || (515 ≤ s && s ≤ 522)

/-- Class of a source: 0 C, 1 D, 2 U, 3 F (spec/19 R577-R579). -/
def srcClass (s : Nat) : Nat :=
  if [1, 17, 353, 385, 481, 25, 390].contains s then 3
  else if [193, 225, 257, 273, 289, 321, 417, 449, 33, 49, 65, 97, 129, 161, 177, 513, 6, 389, 451, 454, 455,
    522].contains s then 2
  else if [278, 280, 358, 388, 421].contains s then 1
  else 0

/-- spec/19 R592. -/
def fltSrcCfg : RegDef :=
  { block := 19, off := 0, dims := [(544, 4)], fields := [rwls 0 3 (.clamp 1 5), rwl 3 1, rwl 4 1]
    valid := fun i => srcDefined (ix i 0), reset := fun i => srcReset (ix i 0) }
/-- spec/19 R593. -/
def fltMgrCfg : RegDef := { block := 19, off := 0x3004, fields := [rw 0 8, rw 8 1], reset := fun _ => 256 }
/-- spec/19 R593. -/
def fltInjectDetail : RegDef := { block := 19, off := 0x3014, fields := [rw 0 32] }
/-- spec/20 R621. -/
def cscCfg : RegDef :=
  { block := 20, off := 0, fields := [rw 0 1, rwl 1 1, rwl 2 4, rwls 6 2 .verMax], reset := fun _ => 3 + 8 * 4 + 2 * 64 }
/-- spec/20 R622. -/
def cscPortCfg : RegDef :=
  { block := 20, off := 0x100, dims := [(4, 0x40)], fields := [rw 0 1, rw 1 2, rw 3 16]
    reset := fun i => ix i 0 * 2 + 100 * 8 }
/-- spec/20 R622. -/
def cscPortCredit : RegDef :=
  { block := 20, off := 0x108, dims := [(4, 0x40)], fields := [rws 0 16 (.clamp 1 65535)], reset := fun _ => 1000 }
/-- spec/20 R622. -/
def cscRxAlloc : RegDef :=
  { block := 20, off := 0x110, dims := [(4, 0x40), (9, 4)], fields := [rwl 0 13]
    reset := fun i => if ix i 1 < 8 then 480 else 256 }
/-- spec/20 R623. -/
def cscEpochAt : RegDef := { block := 20, off := 0x1020, dims := [(2, 4)], fields := [rw 0 32], fw := true }
/-- spec/20 R624. -/
def cscShard : RegDef := { block := 20, off := 0x2000, dims := [(2, 0x400), (256, 4)], fields := [rw 0 2] }
/-- spec/20 R624. -/
def cscShardClass : RegDef := { block := 20, off := 0x3000, dims := [(256, 4)], fields := [rw 0 1] }
/-- spec/21 R636. -/
def cscRetire : RegDef := { block := 20, off := 0x1200, fields := [rw 0 4], fw := true }

end Reg

/-- Every stored register. -/
def allRegs : List RegDef :=
  [Reg.tsuCtl, Reg.tsuTodAdj, Reg.pwrPaceCtl, Reg.pwrDroopThr, Reg.pwrThermCtl,
   Reg.lsdOctetCfg, Reg.lsdLaneCtl, Reg.lsdPortCtl,
   Reg.macPortCfg, Reg.macVlanCfg, Reg.macPfcCfg, Reg.macPtpCorr, Reg.macPauseSaLo, Reg.macPauseSaHi,
   Reg.hfcFaceSetup, Reg.hfcFaceVf, Reg.hfcFaceSubsys,
   Reg.dmaPoolCfg, Reg.dmaPoolStage, Reg.dmaFaceCtl, Reg.dmaJob]
  ++ [Reg.qmgTxq, Reg.qmgRxq, Reg.qmgDbLine, Reg.qmgDbLineLo, Reg.qmgDbLineHi, Reg.qmgDbLinePasid,
   Reg.qmgPollClass, Reg.qmgPollFace, Reg.qmgCq, Reg.qmgCq2, Reg.qmgCq3, Reg.qmgCq4, Reg.qmgCq5,
   Reg.ivmCmdArg, Reg.ivmMbxBind]
  ++ [Reg.prsAdmitSlots, Reg.prsActCfg, Reg.prsHashSeed, Reg.prsPatUser, Reg.prsNode0, Reg.prsNode1, Reg.prsNode2,
   Reg.prsNode3, Reg.prsEdge0, Reg.prsEdge1, Reg.prsPat0, Reg.prsPat1, Reg.prsPatWords, Reg.prsPortCourse,
   Reg.clsLoadSrc, Reg.clsLoadLen, Reg.clsExcLim, Reg.clsExcMap]
  ++ [Reg.fwdClassProf, Reg.fwdClassRegion, Reg.fwdClassMiss, Reg.fwdSrcportDom, Reg.fwdDomain, Reg.fwdNhGroup,
   Reg.fwdNhMember, Reg.fwdNhAddr, Reg.fwdRepl, Reg.fwdFloodGroup, Reg.fwdPartOwner, Reg.fwdSeed, Reg.fwdSeedNext,
   Reg.fwdTblCfg, Reg.fwdLearnCfg, Reg.fwdAgeCfg, Reg.fwdEmLimit, Reg.fwdLrnCons, Reg.fwdCmdArg]
  ++ [Reg.tunClassProf, Reg.tunOpt, Reg.tunEntry0, Reg.tunEntry1, Reg.tunEntry2, Reg.tunEntry3, Reg.tunEntryAddr,
   Reg.cryClassProf, Reg.cryLaneCtl, Reg.crySaArg, Reg.stoClassProf, Reg.stoCc0, Reg.stoCc1, Reg.stoCc2, Reg.stoCc3,
   Reg.stoCc4, Reg.stoCc5, Reg.stoCmdArg]
  ++ [Reg.bufClassMap, Reg.bufIngCfg, Reg.bufIngWait, Reg.bufPgCfg, Reg.bufPgCtl, Reg.bufEgCfg, Reg.bufEgAct,
   Reg.bufHrxQprof, Reg.bufHrxProf0, Reg.bufHrxProf1, Reg.bufHrxProf2, Reg.bufEcnProf0, Reg.bufEcnProf1,
   Reg.bufSpillCfg, Reg.bufRstoreCfg, Reg.bufPortCfg]
  ++ [Reg.tmsExitCfg, Reg.tmsExitShp0, Reg.tmsExitShp1, Reg.tmsGroupCfg, Reg.tmsGroupShp0, Reg.tmsGroupShp1,
   Reg.tmsNodeCfg, Reg.tmsNodeShp0, Reg.tmsNodeShp1, Reg.tmsTqCfg, Reg.tmsRxqCfg, Reg.tmsPolCfg, Reg.tmsPolRate,
   Reg.tmsPolSize, Reg.tmsGateCtl, Reg.tmsGateList, Reg.tmsGateBase, Reg.tmsGateEnt]
  ++ [Reg.kscReturnCtl, Reg.xpeClusterCtl, Reg.xpeClusterCfg, Reg.fltSrcCfg, Reg.fltMgrCfg, Reg.fltInjectDetail,
   Reg.cscCfg, Reg.cscPortCfg, Reg.cscPortCredit, Reg.cscRxAlloc, Reg.cscEpochAt, Reg.cscShard, Reg.cscShardClass,
   Reg.cscRetire]

/-- The register table's element at a PF BAR0 address, if a stored register lies there. -/
def regAt (a : Nat) : Option (RegDef × List Nat) :=
  allRegs.findSome? (fun r => (r.at? a).map (fun i => (r, i)))

end Sys2Proof.Machine
end

