-- ==== Sys2Proof/Machine/Mark.lean ====
section
/-! DEFINITION. The Mark (spec/01 R11-R26): activities, flags, reasons, the 512-bit layout, and the
packet that travels with it. -/

namespace Sys2Proof.Machine

/-- The eight activities (spec/01 R25). -/
inductive Act where
  | lrx | ltx | htx | hrx | cas | recirc | exc | mgt
  deriving DecidableEq, Repr

/-- The value of an activity in act and ent_act (spec/01 R25). -/
def Act.val : Act → Nat
  | .lrx => 0 | .ltx => 1 | .htx => 2 | .hrx => 3 | .cas => 4 | .recirc => 5 | .exc => 6 | .mgt => 7

/-- The activity a 3-bit value names (spec/01 R25). -/
def Act.ofVal (v : Nat) : Act :=
  match v % 8 with
  | 0 => .lrx | 1 => .ltx | 2 => .htx | 3 => .hrx | 4 => .cas | 5 => .recirc | 6 => .exc | _ => .mgt

/-- The flags of a Mark (spec/01 R18), bit 0 first. -/
structure Flags where
  /-- Bit 0: the packet is to be discarded. -/
  drop : Bool := false
  /-- Bit 1: a mirror copy is to be made. -/
  mirror : Bool := false
  /-- Bit 2: forwarding hit the express table. -/
  express : Bool := false
  /-- Bit 3: a learn notice has been issued. -/
  learned : Bool := false
  /-- Bit 4: parsing stopped at a limit. -/
  parseIncomplete : Bool := false
  /-- Bit 5: an inner length claims more bytes than are present. -/
  malformed : Bool := false
  /-- Bit 6: an inner length claims fewer bytes than are present. -/
  trailer : Bool := false
  /-- Bit 7: a verified checksum failed. -/
  csumBad : Bool := false
  /-- Bit 8: the FCS failed after cut-through began. -/
  stomp : Bool := false
  /-- Bit 9: Congestion Experienced was marked by this device. -/
  ecnCe : Bool := false
  /-- Bit 10: the tunnel engine removed an encapsulation. -/
  decapDone : Bool := false
  /-- Bit 11: the tunnel engine added an encapsulation. -/
  encapDone : Bool := false
  /-- Bit 12: crypto processed the packet. -/
  cryptoDone : Bool := false
  /-- Bit 13: crypto failed authentication or replay. -/
  cryptoFail : Bool := false
  /-- Bit 14: a transmit timestamp is to be taken. -/
  tsReq : Bool := false
  /-- Bit 15: a further pass is requested. -/
  recirc : Bool := false
  /-- Bit 16: the packet is to go to the Masons. -/
  exception : Bool := false
  /-- Bit 17: received over a Quoin link in another Mark version. -/
  translated : Bool := false
  /-- Bit 18: may be held in the HBM spill region. -/
  spill : Bool := false
  /-- Bit 19: forwarding does not report the source address. -/
  noLearn : Bool := false
  /-- Bit 20: forwarding has taken a flood group. -/
  flood : Bool := false
  deriving DecidableEq, Repr

/-- The flags as a list of bits, bit 0 first (spec/01 R18). -/
def Flags.bits (f : Flags) : List Bool :=
  [f.drop, f.mirror, f.express, f.learned, f.parseIncomplete, f.malformed, f.trailer, f.csumBad,
   f.stomp, f.ecnCe, f.decapDone, f.encapDone, f.cryptoDone, f.cryptoFail, f.tsReq, f.recirc,
   f.exception, f.translated, f.spill, f.noLearn, f.flood]

/-- The number whose bit i is the i-th entry. -/
def natOfBits : List Bool → Nat
  | [] => 0
  | b :: bs => b2n b + 2 * natOfBits bs

/-- The flags field as a number (spec/01 R18). -/
def Flags.toNat (f : Flags) : Nat := natOfBits f.bits

/-- The flags a 32-bit field holds; reserved bits are ignored (spec/01 R18, spec/00 R9). -/
def Flags.ofNat (v : Nat) : Flags :=
  { drop := bitOf v 0, mirror := bitOf v 1, express := bitOf v 2, learned := bitOf v 3
    parseIncomplete := bitOf v 4, malformed := bitOf v 5, trailer := bitOf v 6, csumBad := bitOf v 7
    stomp := bitOf v 8, ecnCe := bitOf v 9, decapDone := bitOf v 10, encapDone := bitOf v 11
    cryptoDone := bitOf v 12, cryptoFail := bitOf v 13, tsReq := bitOf v 14, recirc := bitOf v 15
    exception := bitOf v 16, translated := bitOf v 17, spill := bitOf v 18, noLearn := bitOf v 19
    flood := bitOf v 20 }

/-- One parsed header: type and offset in 2-byte units (spec/01 R13, R14). -/
structure Hdr where
  /-- hdr_type, 6 bits; 0 is no header. -/
  typ : Nat := 0
  /-- hdr_off, 8 bits, in units of 2 bytes. -/
  off : Nat := 0
  deriving DecidableEq, Repr

/-- The value of inst that names no instance (spec/01 R13). -/
def noInst : Nat := 0xFFF

/-- The Mark, format version 3 (spec/01 R13).  `hdrs` lists the parsed headers from index 0; every
entry after the last is type 0, offset 0 (R14) and is not listed. -/
structure Mark where
  /-- [3:0] format version. -/
  ver : Nat := 3
  /-- [6:4] current activity. -/
  act : Act := .lrx
  /-- [8:7] course, 0-3. -/
  course : Nat := 0
  /-- [10:9] completed recirculations. -/
  pass : Nat := 0
  /-- [12:11] policer colour. -/
  colour : Nat := 0
  /-- [15:13] entry activity. -/
  entAct : Act := .lrx
  /-- [23:16] rule-set epoch of the first pass. -/
  epoch : Nat := 0
  /-- [31:24] class. -/
  cls : Nat := 0
  /-- [39:32] global source port. -/
  srcPort : Nat := 0
  /-- [47:40] global destination port. -/
  dstPort : Nat := 0
  /-- [63:48] target queue. -/
  queue : Nat := 0
  /-- [95:64] flags. -/
  flags : Flags := {}
  /-- [107:96] instance touched next. -/
  inst : Nat := 0xFFF
  /-- [119:108] generation of inst. -/
  gen : Nat := 0
  /-- [127:120] drop or exception reason. -/
  reason : Nat := 0
  /-- [159:128] flow hash. -/
  hash : Nat := 0
  /-- [191:160] flow handle. -/
  flow : Nat := 0
  /-- [223:192] low half of the arrival tick count. -/
  ts : Nat := 0
  /-- [239:224] frame length in bytes. -/
  len : Nat := 0
  /-- [263:240] security association index. -/
  sa : Nat := 0
  /-- [287:264] free for rules and Mason code. -/
  user : Nat := 0
  /-- hdr_off[i] and hdr_type[i], at most 16. -/
  hdrs : List Hdr := []
  deriving DecidableEq, Repr

/-- The header entry at index i; an unlisted entry is type 0, offset 0 (spec/01 R14). -/
def Mark.hdr (m : Mark) (i : Nat) : Hdr := m.hdrs.getD i {}

/-- Every field fits its width of spec/01 R13. -/
def Mark.wf (m : Mark) : Bool :=
  decide (m.ver < 16) && decide (m.course < 4) && decide (m.pass < 4) && decide (m.colour < 4)
  && decide (m.epoch < 256) && decide (m.cls < 256) && decide (m.srcPort < 256)
  && decide (m.dstPort < 256) && decide (m.queue < 65536) && decide (m.inst < 4096)
  && decide (m.gen < 4096) && decide (m.reason < 256) && decide (m.hash < 2 ^ 32)
  && decide (m.flow < 2 ^ 32) && decide (m.ts < 2 ^ 32) && decide (m.len < 65536)
  && decide (m.sa < 2 ^ 24) && decide (m.user < 2 ^ 24) && decide (m.hdrs.length ≤ 16)
  && m.hdrs.all (fun h => decide (h.off < 256) && decide (0 < h.typ) && decide (h.typ < 64))

/-- Fields packed from bit 0 upwards: each is (width, value). -/
def packFields : List (Nat × Nat) → Nat
  | [] => 0
  | (w, v) :: fs => v % 2 ^ w + 2 ^ w * packFields fs

/-- The 512-bit Mark (spec/01 R13): the fixed fields, then sixteen hdr_off, then sixteen hdr_type. -/
def Mark.toBits (m : Mark) : Nat :=
  packFields
    ([(4, m.ver), (3, m.act.val), (2, m.course), (2, m.pass), (2, m.colour), (3, m.entAct.val),
      (8, m.epoch), (8, m.cls), (8, m.srcPort), (8, m.dstPort), (16, m.queue), (32, m.flags.toNat),
      (12, m.inst), (12, m.gen), (8, m.reason), (32, m.hash), (32, m.flow), (32, m.ts), (16, m.len),
      (24, m.sa), (24, m.user)]
      ++ (List.range 16).map (fun i => (8, (m.hdr i).off))
      ++ (List.range 16).map (fun i => (6, (m.hdr i).typ)))

/-- The headers up to the first entry of type 0. -/
def hdrsOf (v : Nat) : Nat → Nat → List Hdr
  | 0, _ => []
  | n + 1, i =>
    if bitsOf v (416 + 6 * i) 6 = 0 then []
    else { typ := bitsOf v (416 + 6 * i) 6, off := bitsOf v (288 + 8 * i) 8 } :: hdrsOf v n (i + 1)

/-- The Mark that 512 bits hold (spec/01 R13). -/
def Mark.ofBits (v : Nat) : Mark :=
  { ver := bitsOf v 0 4, act := Act.ofVal (bitsOf v 4 3), course := bitsOf v 7 2
    pass := bitsOf v 9 2, colour := bitsOf v 11 2, entAct := Act.ofVal (bitsOf v 13 3)
    epoch := bitsOf v 16 8, cls := bitsOf v 24 8, srcPort := bitsOf v 32 8, dstPort := bitsOf v 40 8
    queue := bitsOf v 48 16, flags := Flags.ofNat (bitsOf v 64 32), inst := bitsOf v 96 12
    gen := bitsOf v 108 12, reason := bitsOf v 120 8, hash := bitsOf v 128 32
    flow := bitsOf v 160 32, ts := bitsOf v 192 32, len := bitsOf v 224 16, sa := bitsOf v 240 24
    user := bitsOf v 264 24, hdrs := hdrsOf v 16 0 }

/-- The 64 bytes of a stored Mark, bit 0 in byte 0 (spec/01 R12). -/
def Mark.toBytes (m : Mark) : List Byte := toLe 64 m.toBits

/-- The 64-bit arrival time of a 32-bit ts against the tick count t (spec/01 R16). -/
def tsExtend (t ts : Nat) : Nat :=
  let hi := t / 2 ^ 32
  let hi' := if t % 2 ^ 32 < ts then (hi + 2 ^ 32 - 1) % 2 ^ 32 else hi
  hi' * 2 ^ 32 + ts

/-- A Mark's age at the tick count t (spec/01 R17). -/
def markAge (t ts : Nat) : Nat := (t % 2 ^ 32 + 2 ^ 32 - ts % 2 ^ 32) % 2 ^ 32

/-- The module id of a global port number (spec/00, naming). -/
def portModule (p : Nat) : Nat := p / 64 % 4

/-- The local port of a global port number (spec/00, naming). -/
def portLocal (p : Nat) : Nat := p % 64

/-- The global number of a local port (spec/00, naming). -/
def globalPort (moduleId l : Nat) : Nat := (moduleId % 4) * 64 + l % 64

/-- Where a packet stands on its way through the device (spec/00, "How the parts fit together"). -/
inductive Stage where
  /-- Waiting at its source for an admission slot (spec/01 R29). -/
  | waitSlot
  /-- Its Mark is made; the parser is next. -/
  | atParser
  /-- Parsed; the rule engine is next. -/
  | atRules
  /-- The rule engine has resolved it; forwarding is next. -/
  | atForward
  /-- The tunnel engine is next. -/
  | atTunnel
  /-- The crypto lanes are next. -/
  | atCrypto
  /-- The storage and transport engine is next. -/
  | atStorage
  /-- At buffer admission. -/
  | atBuffer
  /-- Waiting at buffer admission for cells (spec/16 R493). -/
  | bufWait
  /-- Held in the packet buffer, queued at its egress unit. -/
  | queued
  /-- Taken by its exit and leaving. -/
  | leaving
  deriving DecidableEq, Repr

end Sys2Proof.Machine
end

