-- ==== Sys2Proof/Machine/DmaState.lean ====
section
/-! DEFINITION. State of the host DMA engines (spec/09). -/

namespace Sys2Proof.Machine

/-- The tag pools of a face (spec/09 R257, R259). -/
inductive Pool where
  | htx | hrx | mgt | flush
  deriving DecidableEq, Repr

/-- What a host read is for (spec/09 R257). -/
inductive Requester where
  /-- A poll of a doorbell line. -/
  | poll (line : Nat)
  /-- Ring descriptors `first` to `first + n - 1` of a queue. -/
  | desc (queue first n : Nat)
  /-- A list of a transmit item. -/
  | list (queue item addr : Nat)
  /-- A piece of the data of a transmit item's segment. -/
  | data (queue item seg off : Nat)
  /-- A firmware job. -/
  | job (slot : Nat)
  /-- Payload the transport engine fetches for a packet it prepares for a context, and its offset in the payload. -/
  | sto (ctx num off : Nat)
  /-- A Translation Request for the waiting request `id`. -/
  | xlate (id : Nat)
  /-- A flush read of an instance on a channel. -/
  | flush (inst link chan : Nat)
  deriving DecidableEq, Repr

/-- A host read, waiting or outstanding (spec/09 R258-R268). -/
structure HostRead where
  /-- The model's own number of the request. -/
  id : Nat
  /-- Who reads. -/
  req : Requester
  /-- Face. -/
  face : Nat
  /-- Link of the face. -/
  link : Nat
  /-- Pool the tag is drawn from. -/
  pool : Pool
  /-- Function key under whose identity the request goes out. -/
  fn : Nat
  /-- Instance. -/
  inst : Nat
  /-- Generation when the work was taken. -/
  gen : Nat
  /-- First byte. -/
  addr : Nat
  /-- Bytes of the transfer. -/
  len : Nat
  /-- Staging bytes reserved, in whole 64-byte blocks (R263, R266). -/
  stage : Nat := 0
  /-- Address to be translated (R279). -/
  ats : Bool := false
  /-- PASID carried. -/
  pasid : Option Nat := none
  /-- The work has been withdrawn (R272). -/
  withdrawn : Bool := false
  /-- Bytes received so far. -/
  got : List Byte := []
  deriving DecidableEq, Repr

/-- An outstanding read with its tag and timer (spec/09 R259, R267). -/
structure OutRead where
  /-- Tag, plus 4,096 for a tag of link 1. -/
  tag : Nat
  /-- The request. -/
  rd : HostRead
  /-- Tick of issue. -/
  issued : Nat
  /-- T of R267 in force at issue. -/
  t : Nat
  /-- Bytes that completions carry in front of the transfer's first byte (R266, read_round64). -/
  lead : Nat := 0
  /-- Bytes that the completions carry in all (R266, R268). -/
  total : Nat := 0
  deriving DecidableEq, Repr

/-- A quarantined tag (spec/09 R268, R269). -/
structure Quarantined where
  /-- Face. -/
  face : Nat
  /-- Link. -/
  link : Nat
  /-- Pool the tag returns to. -/
  pool : Pool
  /-- Tag. -/
  tag : Nat
  /-- Function key of the read. -/
  fn : Nat
  /-- Tick at which the quarantine ends. -/
  endAt : Nat
  /-- The tag was taken by the poller (R260). -/
  poll : Bool := false
  deriving DecidableEq, Repr

/-- What a write channel carries (spec/09 R257, R276). -/
inductive WriteWork where
  /-- Data of a receive packet, by packet id. -/
  | packet (pkt : Nat)
  /-- Data of a firmware job. -/
  | job (slot : Nat)
  /-- Payload the transport engine places for a context. -/
  | sto (ctx num : Nat)
  deriving DecidableEq, Repr

/-- Work waiting in a write channel (spec/09 R265, R272, R276). -/
structure HostWrite where
  /-- What is written. -/
  work : WriteWork
  /-- Function key. -/
  fn : Nat
  /-- Instance. -/
  inst : Nat
  /-- Generation when the work was taken. -/
  gen : Nat
  /-- Pieces still to write: address and bytes, in order. -/
  parts : List (Nat × List Byte)
  /-- Address to be translated. -/
  ats : Bool := false
  /-- PASID carried. -/
  pasid : Option Nat := none
  /-- The work has been withdrawn. -/
  withdrawn : Bool := false
  /-- A TLP of the work has been issued. -/
  started : Bool := false
  deriving DecidableEq, Repr

/-- An entry of a face's translation cache (spec/09 R279). -/
structure AtsEntry where
  /-- Function key. -/
  fn : Nat
  /-- PASID, if any. -/
  pasid : Option Nat
  /-- Untranslated page number (4 KiB pages). -/
  page : Nat
  /-- Translated page number. -/
  target : Nat
  /-- Reads are allowed. -/
  r : Bool
  /-- Writes are allowed. -/
  w : Bool
  deriving DecidableEq, Repr

/-- An Invalidate Request being served (spec/09 R280). -/
structure Invalidation where
  /-- Function key. -/
  fn : Nat
  /-- First page. -/
  page : Nat
  /-- Pages covered. -/
  pages : Nat
  /-- Tick of arrival plus 50 µs. -/
  deadline : Nat
  /-- Numbers of the outstanding reads that used the entries. -/
  reads : List Nat
  deriving DecidableEq, Repr

/-- What a channel has written for an instance since its last flush (spec/09 R281). -/
structure Unflushed where
  /-- Instance. -/
  inst : Nat
  /-- Link. -/
  link : Nat
  /-- Channel: value of its activity. -/
  chan : Nat
  /-- Address of the DW of the last byte written. -/
  addr : Nat
  /-- PASID of that write. -/
  pasid : Option Nat
  /-- Address type of that write: translated. -/
  translated : Bool := false
  deriving DecidableEq, Repr

/-- A started firmware job (spec/09 R274, R275). -/
structure Job where
  /-- Count of the job in the queue; its record is count mod 32. -/
  count : Nat
  /-- Generation of its instance when the record was accepted. -/
  gen : Nat
  /-- Reads outstanding or writes left. -/
  left : Nat
  /-- Outcome, 0 while it runs (status of R274). -/
  status : Nat := 0
  /-- Finished; status already written. -/
  done : Bool := false
  deriving DecidableEq, Repr

/-- The DMA engines of one face (spec/09). -/
structure DmaFace where
  /-- list; 09 R261; reset empty. Requests waiting for a tag or staging, in the order they asked. -/
  waiting : List HostRead := []
  /-- list of at most 4,096; 09 R259, R268; reset empty. Outstanding reads. -/
  out : List OutRead := []
  /-- list; 09 R268, R269; reset empty. Quarantined tags. -/
  quarantine : List Quarantined := []
  /-- by 8 × link + activity; 09 R257, R276; reset empty. Write channels, oldest work first. -/
  chans : AMap (List HostWrite) := []
  /-- list; 09 R281; reset empty. Channels with writes since an instance's last flush. -/
  unflushed : List Unflushed := []
  /-- list; 09 R279; reset empty. Translation cache of the face. -/
  ats : List AtsEntry := []
  /-- list; 09 R280; reset empty. Invalidate Requests being served. -/
  invals : List Invalidation := []
  /-- 32 bits; 09 R284 DMA_JOB_PROD; reset 0. -/
  jobProd : Nat := 0
  /-- 32 bits; 09 R284 DMA_JOB_DONE; reset 0. -/
  jobDone : Nat := 0
  /-- list of at most 32; 09 R274; reset empty. Jobs started and not yet passed by DMA_JOB_DONE. -/
  jobs : List Job := []
  deriving DecidableEq, Repr

/-- A pool's configuration in force (spec/09 R260, R262). -/
structure PoolCfg where
  /-- Tag limit. -/
  tags : Nat
  /-- Tags only the poller may hold. -/
  pollReserve : Nat
  /-- Read staging quota in KiB. -/
  stageKib : Nat
  deriving DecidableEq, Repr

/-- The DMA block (spec/09). -/
structure Dma where
  /-- by face; 09; reset all default. -/
  faces : List DmaFace := [{}, {}, {}, {}]
  /-- 4 × 3 pools; 09 R262, R283; reset values of R283. Pool configuration in force: HTX, HRX, MGT of each face. -/
  pools : List PoolCfg :=
    (List.replicate 4 [⟨2560, 128, 2432⟩, ⟨1024, 0, 1024⟩, ⟨496, 0, 448⟩]).flatten
  /-- 1 bit; 09 R286 pool_cfg_invalid; reset 0. -/
  cfgInvalid : Bool := false
  /-- 1 bit; 09 R286 cfg_read; reset 0. -/
  cfgRead : Bool := false
  /-- number; model's own; reset DESIGN CHOICE 0 (log 7). Next request number. -/
  nextId : Nat := 0
  deriving DecidableEq, Repr

end Sys2Proof.Machine
end

