-- ==== Sys2Proof/Machine/FaceState.lean ====
section
/-! DEFINITION. State of the host faces: links, functions, the PCIe configuration state, power
management, and the parts of block 0 that no register word holds (spec/06). -/

namespace Sys2Proof.Machine

/-- State of one PCIe link (spec/06 R154, R186, R187, spec/04 R111). -/
inductive LinkState where
  /-- In reset, or down and not training. -/
  | down
  /-- Training towards DL_Active. -/
  | training
  /-- DL_Active, L0. -/
  | l0
  /-- ASPM L1 or an L1 substate. -/
  | l1
  /-- L2 after PME_Turn_Off. -/
  | l2
  deriving DecidableEq, Repr

/-- One link of a face; key 2 × face + link (spec/06 R154, R155, R193). -/
structure PciLink where
  /-- enum; 06 R154, R186; reset down. -/
  state : LinkState := .down
  /-- 3 bits; 06 R193 rate; reset 7 (down). -/
  rate : Nat := 7
  /-- 5 bits; 06 R193 width; reset 0. -/
  width : Nat := 0
  /-- 1 bit; 06 R193 flit; reset 0. -/
  flit : Bool := false
  /-- 2 bits; 06 R186; reset 0. L1 substate: 0 none, 1 L1.1, 2 L1.2. -/
  substate : Nat := 0
  /-- 1 bit; 04 R110; reset 0. Device Readiness Status has been sent since the link became active. -/
  drsSent : Bool := false
  deriving DecidableEq, Repr

/-- One MSI-X vector of a function (spec/06 R160, R165, spec/08 R249). -/
structure MsixVec where
  /-- 64 bits; 06 R165 message address; reset 0. -/
  addr : Nat := 0
  /-- 32 bits; 06 R165 message data; reset 0. -/
  data : Nat := 0
  /-- 1 bit; 06 R165 vector mask; reset 1 (PRESUMED, PCIe MSI-X, log 4). -/
  masked : Bool := true
  /-- 1 bit; 06 R165 PBA bit; reset 0. -/
  pending : Bool := false
  /-- 1 bit; 08 R251, R255; reset 0. The pending bit was set by a completion ring. -/
  byRing : Bool := false
  deriving DecidableEq, Repr

/-- One PCIe function: keys 0-2047 the VF of that tenant instance, 2048 + n the PF of face n,
2052 + n the companion function of face n (spec/06 R158-R166, R183). -/
structure PciFn where
  /-- 1 bit; 06 R188, R194 bme; reset 0. Bus Master Enable. -/
  bme : Bool := false
  /-- 1 bit; 06 R166; reset 0. Memory Space Enable. -/
  mse : Bool := false
  /-- 1 bit; 06 R183, R194 dstate; reset 0 (D0). The function is in D3hot. -/
  d3hot : Bool := false
  /-- 1 bit; 06 R183; reset 0. PME_En; survives face and link reset. -/
  pmeEn : Bool := false
  /-- 1 bit; 06 R183; reset 0. PME_Status; survives face and link reset. -/
  pmeStatus : Bool := false
  /-- tick; 06 R185; reset none. When PM_PME is sent again. -/
  pmeResendAt : Option Nat := none
  /-- 1 bit; 06 R185; reset 0. A PM_PME is held until the link reaches DL_Active. -/
  pmeHeld : Bool := false
  /-- 1 bit; 06 R194 flr_busy; reset 0. -/
  flrBusy : Bool := false
  /-- 16 bits; 06 R163 NumVFs (PF); reset 0. -/
  numVfs : Nat := 0
  /-- 1 bit; 06 R163 VF Enable (PF); reset 0. -/
  vfEnable : Bool := false
  /-- 1 bit; 06 R163 VF Memory Space Enable (PF); reset 0. -/
  vfMse : Bool := false
  /-- 3 bits; 06 R160 Max_Payload_Size code; reset 0 (PRESUMED, PCIe, log 4). -/
  mps : Nat := 0
  /-- 3 bits; 06 R160 Max_Read_Request_Size code; reset 2 (PRESUMED, PCIe, log 4). -/
  mrrs : Nat := 2
  /-- 4 bits; 06 R160 Completion Timeout Value; reset 0 (PRESUMED, PCIe, log 4). -/
  cto : Nat := 0
  /-- 1 bit; 06 R155 10-Bit Tag Requester Enable; reset 0 (PRESUMED, PCIe, log 4). -/
  tag10 : Bool := false
  /-- 1 bit; 06 R160 Extended Tag Field Enable; reset 1 (PRESUMED, PCIe, log 4). -/
  extTag : Bool := true
  /-- 1 bit; 09 R276 Enable Relaxed Ordering; reset 1 (PRESUMED, PCIe, log 4). -/
  relaxed : Bool := true
  /-- 1 bit; 06 R160 MSI-X Enable; reset 0 (PRESUMED, PCIe, log 4). -/
  msixEn : Bool := false
  /-- 1 bit; 06 R160 MSI-X Function Mask; reset 0 (PRESUMED, PCIe, log 4). -/
  msixMask : Bool := false
  /-- 1 bit; 06 R160 ATS Enable; reset 0 (PRESUMED, PCIe, log 4). -/
  atsEn : Bool := false
  /-- 1 bit; 06 R160 PASID Enable; reset 0 (PRESUMED, PCIe, log 4). -/
  pasidEn : Bool := false
  /-- 2 bits; 06 R186 ASPM control; reset 0 (PRESUMED, PCIe, log 4). -/
  aspm : Nat := 0
  /-- 4 bits; 06 R186 L1 PM Substates enables; reset 0 (PRESUMED, PCIe, log 4). -/
  l1ss : Nat := 0
  /-- 32 bits; 06 R160, 09 R269, R270 AER uncorrectable error status; reset 0 (PRESUMED, PCIe, log 4). -/
  aer : Nat := 0
  /-- 8 bits; 19 R583; reset 0 (R583: a bus number not yet captured reads 0). Captured bus number. -/
  bus : Nat := 0
  /-- 5 bits; 19 R583; reset 0. Captured device number. -/
  dev : Nat := 0
  /-- 64 bits; 06 R164 BAR0/1; reset 0 (PRESUMED, PCIe, log 4). -/
  bar0 : Nat := 0
  /-- 64 bits; 06 R164 BAR2/3; reset 0 (PRESUMED, PCIe, log 4). -/
  bar2 : Nat := 0
  /-- by vector; 06 R160, R165; reset all default. The MSI-X table and PBA. -/
  msix : AMap MsixVec := []
  deriving DecidableEq, Repr

/-- One host face (spec/06 R154-R162, R185, R187, spec/04 R110). -/
structure Face where
  /-- 1 bit; 06 R157, R193 applied mode; reset 0. -/
  mode : Nat := 0
  /-- 2 bits; 06 R157, R193 applied clk; reset 0. -/
  clk : Nat := 0
  /-- 3 bits; 06 R157, R193 applied max_rate; reset 0. -/
  maxRate : Nat := 0
  /-- 12 bits; 06 R157, R193 applied first_inst; reset 512 × n. -/
  firstInst : Nat := 0
  /-- 12 bits; 06 R157, R193 applied total_vfs; reset 512. -/
  totalVfs : Nat := 512
  /-- 16 bits; 06 R157 applied ssvid; reset 0xCA31. -/
  ssvid : Nat := 0xCA31
  /-- 16 bits; 06 R157 applied ssid; reset 0x0001. -/
  ssid : Nat := 1
  /-- 1 bit; 06 R193 vf_cfg_invalid; reset 0. -/
  vfCfgInvalid : Bool := false
  /-- 1 bit; 06 R193 d3cold; reset 0. -/
  d3cold : Bool := false
  /-- 1 bit; 04 R111; reset 1 (PERST_N low). The face is held in face reset. -/
  inReset : Bool := true
  deriving DecidableEq, Repr

/-- Fuses, read at the release point (spec/06 R168, R181, spec/04 R105, spec/21 R647). -/
structure Fuses where
  /-- 64 bits; 06 R168 GLB_SERIAL; fused, DESIGN CHOICE 0 (log 5). -/
  serial : Nat := 0
  /-- 12 bits; 06 R181 FEATURE; fused, DESIGN CHOICE all ones (log 5). -/
  features : Nat := 0xFFF
  /-- 16 bits; 04 R105 fused minimum security version; DESIGN CHOICE 0 (log 5). -/
  minSvn : Nat := 0
  /-- 4 bits; 04 R105 revoked key slots; DESIGN CHOICE 0 (log 5). -/
  revoked : Nat := 0
  deriving DecidableEq, Repr

/-- Block 0 beyond its plain register words (spec/06 R168-R182). -/
structure Global where
  /-- 21 bits; 06 R169 GLB_LOCK; reset 0. -/
  lock : Nat := 0
  /-- 21 bits; 06 R169 GLB_LOCK_VIOL; reset 0. -/
  lockViol : Nat := 0
  /-- 4 × 21 bits; 06 R170 GLB_FACE_WR; reset 0x1FFFFF for the primary face, 0 for the others. -/
  faceWr : List Nat := [0x1FFFFF, 0, 0, 0]
  /-- 2 bits; 06 R170 GLB_PRIMARY.face; reset PRIMARY_FACE strap. -/
  primary : Nat := 0
  /-- 4 bits; 06 R170 GLB_WR_DENIED; reset 0. -/
  wrDenied : Nat := 0
  /-- 32 bits; 06 R173 gen; reset DESIGN CHOICE 0 (log 6). Change count of the discovery table. -/
  dtGen : Nat := 0
  /-- words; 06 R172, R182; reset none. The FIRMWARE entry and firmware-defined entries. -/
  dtFirmware : List Nat := []
  /-- words; 06 R172; reset empty (built at the release point). The FACE entries as last rewritten. -/
  dtFaces : List (List Nat) := []
  /-- 8 bits; 06 R192; reset DESIGN CHOICE 0 (log 6). The MCTP endpoint identifier. -/
  mctpEid : Nat := 0
  deriving DecidableEq, Repr

/-- The host side: faces, links and functions (spec/06). -/
structure HostSide where
  /-- by face 0-3; 06; reset R193. -/
  faces : List Face :=
    [{}, { firstInst := 512 }, { firstInst := 1024 }, { firstInst := 1536 }]
  /-- by 2 × face + link; 06 R154; reset all default. -/
  links : AMap PciLink := []
  /-- by function key; 06 R158-R166; reset all default. -/
  fns : AMap PciFn := []
  deriving DecidableEq, Repr

end Sys2Proof.Machine
end

