-- ==== Sys2Proof/Machine/RingState.lean ====
section
/-! DEFINITION. State of the queue manager: transmit and receive queues, doorbell lines, the poller,
completion rings, the corbel and moderation (spec/07, spec/08). -/

namespace Sys2Proof.Machine

/-- Codes of a transmit or receive queue's state (spec/07 R220). -/
inductive QState where
  | disabled | running | stopping | stopped | error | masterOff | resetting
  deriving DecidableEq, Repr

/-- The value the state field shows (spec/07 R220, R227). -/
def QState.code : QState → Nat
  | .disabled => 0 | .running => 1 | .stopping => 2 | .stopped => 3 | .error => 4
  | .masterOff => 5 | .resetting => 6

/-- A queue context as read at ENABLE (spec/07 R227). -/
structure QCtx where
  /-- Ring base address. -/
  ring : Nat := 0
  /-- Owning instance. -/
  inst : Nat := 0
  /-- N, the descriptors of the ring. -/
  n : Nat := 64
  /-- Doorbell line. -/
  dbLine : Nat := 0
  /-- Slot within the line. -/
  dbSlot : Nat := 0
  /-- Completion ring. -/
  cq : Nat := 0
  /-- Course for hand-off (transmit). -/
  course : Nat := 0
  /-- Link of a manager queue. -/
  link : Nat := 0
  /-- Fetch weight, 0 taken as 1. -/
  weight : Nat := 1
  /-- Descriptors per visit. -/
  burst : Nat := 16
  /-- Segment limit (transmit). -/
  chainMax : Nat := 64
  /-- Receive mode: stream instead of buffer. -/
  stream : Bool := false
  /-- Stream stride, as a power of two. -/
  strideLog2 : Nat := 6
  /-- Most buffers of one packet (receive buffer mode). -/
  maxBufs : Nat := 1
  /-- Addresses are translated. -/
  ats : Bool := false
  /-- The PASID that requests carry, if any. -/
  pasid : Option Nat := none
  deriving DecidableEq, Repr

/-- A descriptor the device has fetched or asked for (spec/07 R213). -/
structure Fetched where
  /-- Ring count of the descriptor. -/
  count : Nat
  /-- Its 32 bytes, once the read has completed. -/
  bytes : Option (List Byte) := none
  deriving DecidableEq, Repr

/-- Progress of a transmit item (spec/07 R203-R208). -/
inductive ItemPhase where
  /-- The chain is being walked: list reads may be outstanding. -/
  | walking
  /-- The walk is complete and the data reads are outstanding. -/
  | reading
  /-- The data has arrived. -/
  | ready
  /-- Every frame has been handed in. -/
  | handed
  /-- Ended with a status before any frame was handed in. -/
  | ended
  deriving DecidableEq, Repr

/-- A transmit item taken from a ring (spec/07 R201-R208). -/
structure TxItem where
  /-- Ring count of the first descriptor. -/
  first : Nat
  /-- The item's ring descriptors, in count order. -/
  descs : List (List Byte) := []
  /-- Lists read so far: address and bytes. -/
  lists : List (Nat × List Byte) := []
  /-- Data segments in walk order: address, length and the bytes read so far. -/
  segs : List (Nat × Nat × List Byte) := []
  /-- Progress. -/
  phase : ItemPhase := .walking
  /-- Status of R235, set when the item ends. -/
  status : Nat := 0
  /-- Reads still outstanding for the item. -/
  readsOut : Nat := 0
  /-- Frames handed into the course. -/
  frames : Nat := 0
  /-- Frames of the item not yet admitted or discarded. -/
  toAdmit : Nat := 0
  /-- The item waits for the transmit timestamp of its last frame. -/
  tsWait : Bool := false
  /-- The transmit timestamp taken. -/
  ts : Option Nat := none
  /-- Generation of the instance when the item was taken. -/
  gen : Nat := 0
  /-- Staging bytes that its arrived data holds until the frames are handed in (spec/09 R263). -/
  stage : Nat := 0
  deriving DecidableEq, Repr

/-- An open or closed stream region (spec/07 R211). -/
structure RxRegion where
  /-- Ring count of the region's descriptor. -/
  count : Nat
  /-- Cookie of the descriptor. -/
  cookie : Nat := 0
  /-- Address of the region. -/
  addr : Nat := 0
  /-- Size in bytes. -/
  size : Nat := 0
  /-- Offset at which the next packet would go. -/
  next : Nat := 0
  /-- Packets placed and not yet completed. -/
  open_ : Nat := 0
  /-- The region is closed. -/
  closed : Bool := false
  deriving DecidableEq, Repr

/-- A receive packet whose data is being written (spec/07 R210, R211, spec/08 R232). -/
structure RxPlaced where
  /-- Packet number. -/
  pkt : Nat
  /-- Cookie of the first buffer or of the region. -/
  cookie : Nat := 0
  /-- Count of the first buffer or of the region. -/
  count : Nat := 0
  /-- Buffers used, or the offset in the region. -/
  place : Nat := 0
  /-- Status of the entry to come (spec/15 R473). -/
  status : Nat := 0
  deriving DecidableEq, Repr

/-- One transmit or receive queue; keys q for transmit, 16,384 + q for receive (spec/07 R220). -/
structure Queue where
  /-- 4 bits; 07 R227 state; reset 0 DISABLED. -/
  state : QState := .disabled
  /-- 4 bits; 07 R227 err_cause; reset 0. -/
  errCause : Nat := 0
  /-- struct; 07 R221; reset none read. The context as read at ENABLE. -/
  ctx : QCtx := {}
  /-- 32 bits; 07 R196, R227 db_count; reset 0. P, the last accepted count (also L of R200). -/
  p : Nat := 0
  /-- 32 bits; 07 R196; reset 0. C, the taken count. -/
  c : Nat := 0
  /-- list of at most 64; 07 R213; reset empty. Fetched descriptors not yet taken or used. -/
  held : List Fetched := []
  /-- list; 07 R201-R208; reset empty. Transmit items taken and not yet completed. -/
  items : List TxItem := []
  /-- list; 07 R211; reset empty. Receive stream regions, the current one last. -/
  regions : List RxRegion := []
  /-- list; 07 R210, R211; reset empty. Receive packets whose data is being written, oldest first. -/
  placing : List RxPlaced := []
  /-- 32 bits; 07 R222; reset none. Count up to which a running STOP or RESET aborts. -/
  stopTo : Option Nat := none
  deriving DecidableEq, Repr

/-- Codes of a doorbell line's state (spec/07 R228). -/
inductive LnState where
  | off | active | idle | failed
  deriving DecidableEq, Repr

/-- One doorbell line (spec/07 R199, R214-R218, R228). -/
structure DbLine where
  /-- 2 bits; 07 R228 state; reset 0 OFF. -/
  state : LnState := .off
  /-- 4 bits; 07 R228 shift; reset 0. -/
  shift : Nat := 0
  /-- 2 bits; 07 R228 fails; reset 0. -/
  fails : Nat := 0
  /-- tick; 07 R216; reset 0. Issue tick of the last poll. -/
  issued : Nat := 0
  /-- tick; 07 R216; reset 0. When the next poll is due. -/
  due : Nat := 0
  /-- 1 bit; 07 R216; reset 0. A poll is outstanding. -/
  outstanding : Bool := false
  /-- 12 bits; 07 R228 inst as read at line ENABLE; reset 0. -/
  inst : Nat := 0
  /-- 1 bit; 07 R228 link as read at line ENABLE; reset 0. -/
  link : Nat := 0
  /-- 3 bits; 07 R228 class as read at line ENABLE; reset 0. -/
  cls : Nat := 0
  /-- 1 bit; 07 R228 ats as read at line ENABLE; reset 0. -/
  ats : Bool := false
  /-- 20 bits; 07 R228 pasid as read at line ENABLE; reset none. -/
  pasid : Option Nat := none
  /-- 64 bits; 07 R228 addr as read at line ENABLE; reset 0. -/
  addr : Nat := 0
  deriving DecidableEq, Repr

/-- A completion entry before its phase bit is known (spec/08 R232, R234, R251). -/
structure CqEntry where
  /-- 0x00 cookie. -/
  cookie : Nat := 0
  /-- 0x04 count. -/
  count : Nat := 0
  /-- 0x08 queue. -/
  queue : Nat := 0
  /-- 0x08 dir: receive queue. -/
  rx : Bool := false
  /-- 0x08 status. -/
  status : Nat := 0
  /-- 0x08 class. -/
  cls : Nat := 0
  /-- 0x0C bytes. -/
  bytes : Nat := 0
  /-- 0x10 frames and span, or hash. -/
  w10 : Nat := 0
  /-- 0x14 place. -/
  place : Nat := 0
  /-- 0x14 [31:26]: parse_incomplete, csum_bad, decap_done, crypto_done, ecn_ce, trailer. -/
  flags : Nat := 0
  /-- 0x1C malformed. -/
  malformed : Bool := false
  /-- Timestamp, when ts_valid. -/
  ts : Option Nat := none
  /-- 0x18 [23:0] of a UD message: the source QPN (spec/15 R465). -/
  src : Nat := 0
  /-- Instance and generation of the work the entry reports (R251). -/
  inst : Nat := 0
  /-- Generation of that instance. -/
  gen : Nat := 0
  deriving DecidableEq, Repr

/-- Codes of a completion ring's state (spec/08 R244). -/
inductive RingSt where
  | disabled | running | error
  deriving DecidableEq, Repr

/-- A completion ring context as read at ENABLE (spec/08 R253). -/
structure CqCtx where
  /-- Ring base address. -/
  ring : Nat := 0
  /-- Owning instance. -/
  inst : Nat := 0
  /-- M, the entries of the ring. -/
  m : Nat := 64
  /-- Doorbell line. -/
  dbLine : Nat := 0
  /-- Slot within the line. -/
  dbSlot : Nat := 0
  /-- MSI-X vector. -/
  vector : Nat := 0
  /-- Link of a manager ring. -/
  link : Nat := 0
  /-- The ring address is translated. -/
  ats : Bool := false
  /-- The PASID that writes carry, if any. -/
  pasid : Option Nat := none
  /-- Entries per interrupt. -/
  coalCount : Nat := 1
  /-- Moderation time in 125 ns units. -/
  coalTime : Nat := 0
  /-- Most corbel entries of the ring. -/
  corbelCap : Nat := 256
  deriving DecidableEq, Repr

/-- One completion ring (spec/08 R230-R253). -/
structure CompRing where
  /-- 2 bits; 08 R254 state; reset 0 DISABLED. -/
  state : RingSt := .disabled
  /-- 2 bits; 08 R254 err_cause; reset 0. -/
  errCause : Nat := 0
  /-- struct; 08 R245; reset none read. The context as read at ENABLE. -/
  ctx : CqCtx := {}
  /-- 32 bits; 08 R231, R254 written; reset 0. W. -/
  w : Nat := 0
  /-- 32 bits; 08 R231, R254 head; reset 0. L. -/
  l : Nat := 0
  /-- 1 bit; 08 R239; reset 0. A, the arm bit last accepted. -/
  a : Bool := false
  /-- 1 bit; 08 R248, R254 armed; reset 0. -/
  armed : Bool := false
  /-- 32 bits; 08 R248; reset 0. F, the head at the last fire. -/
  f : Nat := 0
  /-- number; 08 R248; reset 0. U, entries ready since the last fire. -/
  u : Nat := 0
  /-- tick; 08 R248, R254 timer_run; reset none. End of the running moderation timer. -/
  timerEnd : Option Nat := none
  /-- list; 08 R241; reset empty. Ready entries not yet written, held or left waiting, oldest first. -/
  ready : List CqEntry := []
  /-- list of at most 256; 08 R240; reset empty. Entries held in the corbel, oldest first. -/
  corbel : List CqEntry := []
  /-- list; 08 R242; reset empty. Entries waiting for a place, oldest first. -/
  waiting : List CqEntry := []
  deriving DecidableEq, Repr

/-- A register command unit: QMG_CMD, QMG_CQ_CMD and the like (spec/07 R229, spec/08 R255). -/
structure CmdStat where
  /-- 1 bit; busy; reset 0. -/
  busy : Bool := false
  /-- 2-3 bits; result; reset 0. -/
  result : Nat := 0
  /-- 4 bits; why; reset 0. -/
  why : Nat := 0
  deriving DecidableEq, Repr

/-- States of a crypto lane, a Mason cluster or a course (spec/14 R445, spec/18 R574, spec/21 R630). -/
inductive UnitSt where
  | inService | draining | out | testing | failed
  deriving DecidableEq, Repr

/-- The codes shown: 0 IN, 1 DRAINING, 2 OUT, 3 TESTING, 4 FAILED (spec/14 R445, spec/18 R574, spec/21 R630). -/
def UnitSt.code : UnitSt → Nat
  | .inService => 0 | .draining => 1 | .out => 2 | .testing => 3 | .failed => 4

/-- The queue manager (spec/07, spec/08). -/
structure Qmg where
  /-- by q or 16,384 + q; 07 R220; reset all default. -/
  queues : AMap Queue := []
  /-- by line 0-8,191; 07 R228; reset all default. -/
  lines : AMap DbLine := []
  /-- by ring 0-8,191; 08 R254; reset all default. -/
  rings : AMap CompRing := []
  /-- by face; 07 R229 QMG_CMD_STAT; reset 0. -/
  cmd : List CmdStat := [{}, {}, {}, {}]
  /-- by face; 07 R221, R225; reset none. Queue key of the running STOP or RESET. -/
  cmdQueue : List (Option Nat) := [none, none, none, none]
  /-- by face; 08 R255 QMG_CQ_CMD_STAT; reset 0. -/
  cqCmd : List CmdStat := [{}, {}, {}, {}]
  /-- by face, ticks; 07 R216; reset empty. Issue ticks of the polls of the last 1,000 ticks, newest first. -/
  pollTicks : List (List Nat) := [[], [], [], []]
  /-- 1 bit; 08 R242; reset 0. An entry waits for the device-wide corbel. -/
  exhausted : Bool := false
  deriving DecidableEq, Repr

end Sys2Proof.Machine
end

