-- ==== Sys2Proof/Machine/FwdState.lean ====
section
/-! DEFINITION. State of the forwarding tables and learning (spec/13). -/

namespace Sys2Proof.Machine

/-- An exact-match or express entry (spec/13 R384). -/
structure EmEntry where
  /-- Value bytes 0-5, byte 0 in bits [7:0]. -/
  value : Nat := 0
  /-- Domain. -/
  domain : Nat := 0
  /-- 0 L2, 1 IPv4 host. -/
  ktype : Nat := 0
  /-- Destination word [26:0] (R380). -/
  dest : Nat := 0
  /-- Not aged, not evicted. -/
  static : Bool := false
  /-- Subject to aging. -/
  ageEn : Bool := false
  /-- Written by the device. -/
  hit : Bool := false
  /-- TSU tick bits [35:20] at placement. -/
  born : Nat := 0
  /-- Order of placement of a stash entry (R386); 0 in a bucket. -/
  stamp : Nat := 0
  deriving DecidableEq, Repr

/-- A flow entry (spec/13 R391). -/
structure FlowEntry where
  /-- Key bytes 0x00-0x27 as a number, byte 0 lowest. -/
  key : Nat := 0
  /-- Destination word [26:0]. -/
  dest : Nat := 0
  /-- Security association index. -/
  sa : Nat := 0
  /-- Write sa. -/
  saEn : Bool := false
  /-- Subject to aging. -/
  ageEn : Bool := false
  /-- Written by the device. -/
  hit : Bool := false
  /-- Kept for software. -/
  cookie : Nat := 0
  deriving DecidableEq, Repr

/-- A route (spec/13 R393). -/
structure Route where
  /-- VRF. -/
  vrf : Nat
  /-- IPv6. -/
  v6 : Bool
  /-- Prefix length. -/
  len : Nat
  /-- Prefix bytes as a number in wire order, left aligned in 32 or 128 bits. -/
  pfx : Nat
  /-- Destination word [26:0]. -/
  dest : Nat
  deriving DecidableEq, Repr

/-- A learn filter record (spec/13 R395). -/
structure LearnRec where
  /-- Domain. -/
  domain : Nat
  /-- Source address, byte 0 lowest. -/
  addr : Nat
  /-- Port of the record. -/
  port : Nat
  /-- The address is contended. -/
  contended : Bool := false
  /-- Tick at which the record expires. -/
  expires : Nat
  deriving DecidableEq, Repr

/-- One table command set (spec/13 R399, R407). -/
structure FwdCmdSet where
  /-- 1 bit; 13 R407 busy; reset 0. -/
  busy : Bool := false
  /-- 3 bits; 13 R407 result; reset 0. -/
  result : Nat := 0
  /-- 32 bits; 13 R407 FWD_CMD_OUT; reset 0. -/
  out : Nat := 0
  deriving DecidableEq, Repr

/-- The forwarding block (spec/13). -/
structure Fwd where
  /-- by index 0-4,095; 13 R382; reset DESIGN CHOICE empty (log 9). Express table. -/
  express : AMap EmEntry := []
  /-- by (bank × 131,072 + bucket) × 4 + slot; 13 R383; reset empty (04 R100, memories cleared). -/
  buckets : AMap EmEntry := []
  /-- by bank × 64 + slot; 13 R383; reset empty (04 R100). Stashes. -/
  stash : AMap EmEntry := []
  /-- number; 13 R386; reset 1. The model's order of stash placements. -/
  nextStamp : Nat := 1
  /-- by flow index; 13 R390; reset empty (04 R111: HBM contents cleared). -/
  flows : AMap FlowEntry := []
  /-- list; 13 R393; reset empty (04 R111). Routes. -/
  routes : List Route := []
  /-- list of at most 2,048; 13 R395; reset empty. Learn filter. -/
  filter : List LearnRec := []
  /-- by k mod 8,192; 13 R396; reset 0. Learn ring: the four words of each notice. -/
  ring : AMap (List Nat) := []
  /-- 32 bits; 13 R406 FWD_LRN_PROD; reset 0. -/
  prod : Nat := 0
  /-- 1 bit; 13 R406 rehash; reset 0. -/
  rehash : Bool := false
  /-- 1 bit; 13 R406 rehash_failed; reset 0. -/
  rehashFailed : Bool := false
  /-- lists of four seeds; 13 R389; reset empty. The next seeds of a running or failed REHASH, which lookups probe
  beside FWD_SEED. -/
  probe : List (List Nat) := []
  /-- five sets; 13 R407; reset 0. Command sets of faces 0-3 and firmware. -/
  sets : List FwdCmdSet := [{}, {}, {}, {}, {}]
  deriving DecidableEq, Repr

end Sys2Proof.Machine
end

