-- ==== Sys2Proof/Machine/InstState.lean ====
section
/-! DEFINITION. State of the instance manager: instances, grants, mailbox channels and notices
(spec/10). -/

namespace Sys2Proof.Machine

/-- Instance states (spec/10 R287). -/
inductive InstSt where
  | absent | created | started | resetting | removing
  deriving DecidableEq, Repr

/-- The code the state fields show (spec/10 R287). -/
def InstSt.code : InstSt → Nat
  | .absent => 0 | .created => 1 | .started => 2 | .resetting => 3 | .removing => 4

/-- A grant from the pool (spec/10 R291). -/
structure Grant where
  /-- Word 0 [7:0]. -/
  txUnits : Nat := 0
  /-- Word 0 [14:8]. -/
  txBase : Nat := 0
  /-- Word 0 [23:16]. -/
  rxUnits : Nat := 0
  /-- Word 0 [30:24]. -/
  rxBase : Nat := 0
  /-- Word 1 [7:0]. -/
  cqUnits : Nat := 0
  /-- Word 1 [14:8]. -/
  cqBase : Nat := 0
  /-- Word 1 [27:16]. -/
  saUnits : Nat := 0
  /-- Word 2 [10:0]. -/
  qpUnits : Nat := 0
  /-- Word 2 [22:16]. -/
  flowParts : Nat := 0
  /-- Word 3 [9:0]. -/
  hotSlots : Nat := 0
  deriving DecidableEq, Repr

/-- One instance: 0-2047 tenants, 2048 + n the manager of face n (spec/10 R287-R298, R313). -/
structure Inst where
  /-- 4 bits; 10 R287, R313 state; reset 0 ABSENT for tenants, 2 STARTED for managers. -/
  state : InstSt := .absent
  /-- enum; 10 R288; reset ABSENT. The state to return to when the reset sequence ends. -/
  prior : InstSt := .absent
  /-- 1 bit; 10 R298; reset 0. A removal follows when the running reset ends. -/
  removeNext : Bool := false
  /-- 2 bits; 10 R288; reset none. The face off which an application moved the instance that is being removed. -/
  moved : Option Nat := none
  /-- 12 bits; 10 R294, R313 gen; reset 0. -/
  gen : Nat := 0
  /-- words; 10 R291, R313; reset 0, managers under R291. The grant held. -/
  grant : Grant := {}
  /-- 48 bits; 10 R313 IVM_INST_RESETS; reset 0. Reset sequences completed. -/
  resets : Nat := 0
  /-- 1 bit; 10 R297, R313 wrap_hold; reset 0. A reset waits at a generation wrap. -/
  wrapHold : Bool := false
  /-- 1 bit; 10 R297; reset 0. A raise of the running sequence wrapped. -/
  wrapped : Bool := false
  /-- 1 bit; 10 R310; reset 0. The removal answers a manager's REMOVE: an INST_GONE notice follows. -/
  gone : Bool := false
  deriving DecidableEq, Repr

/-- Codes of a mailbox channel's state (spec/10 R301). -/
inductive MbxSt where
  | idle | posted | replied
  deriving DecidableEq, Repr

/-- What one end of a channel sees for itself (spec/10 R301). -/
structure MbxEnd where
  /-- 1 bit; 10 R301 notice; reset 0. -/
  notice : Bool := false
  /-- 1 bit; 10 R301 aborted; reset 0. -/
  aborted : Bool := false
  /-- 1 bit; 10 R301 refused; reset 0. -/
  refused : Bool := false
  /-- 8 bits; 10 R301 MBX_INTR.vector; reset 0. -/
  vector : Nat := 0
  /-- 1 bit; 10 R301 MBX_INTR.en; reset 0. -/
  en : Bool := false
  /-- 1 bit; 10 R303; reset 0. An event for this end is held. -/
  held : Bool := false
  deriving DecidableEq, Repr

/-- One mailbox channel 0-2055 (spec/10 R300-R308). -/
structure Channel where
  /-- 16 × 32 bits; 10 R301 MBX_DATA; reset 0. Sparse by word. -/
  data : AMap Nat := []
  /-- 2 bits; 10 R301 state; reset 0 IDLE. -/
  state : MbxSt := .idle
  /-- 8 bits; 10 R301 seq; reset 0. -/
  seq : Nat := 0
  /-- struct; 10 R301; reset 0. End A's copy. -/
  a : MbxEnd := {}
  /-- struct; 10 R301; reset 0. End B's copy. -/
  b : MbxEnd := {}
  deriving DecidableEq, Repr

/-- A notice (spec/10 R311). -/
structure Notice where
  /-- Kind. -/
  kind : Nat
  /-- Instance, or the number the owning chapter places there. -/
  inst : Nat
  /-- Word 1. -/
  data : Nat
  deriving DecidableEq, Repr

/-- Notices held for one channel (spec/10 R311). -/
structure Notices where
  /-- list of at most 1,024; 10 R311; reset empty. Oldest first. -/
  list : List Notice := []
  /-- number; 10 R311 LOST; reset 0. Notices dropped since the last fetch. -/
  lost : Nat := 0
  deriving DecidableEq, Repr

/-- The instance manager (spec/10). -/
structure Ivm where
  /-- by instance 0-2051; 10 R287; reset ABSENT, managers STARTED with the grant of R291. -/
  insts : AMap Inst := []
  /-- by face; 10 R289 IVM_CMD_STAT; reset 0. -/
  cmd : List CmdStat := [{}, {}, {}, {}]
  /-- by channel 0-2055; 10 R300; reset all default. -/
  chans : AMap Channel := []
  /-- by channel; 10 R311; reset empty. Notices held for end A of the channel. -/
  notices : AMap Notices := []
  /-- by Quoin port 0-3; 10 R307; reset 0. end_a of channels 2052-2055 (0 unbound, 3 or 6). -/
  quoinEndA : List Nat := [0, 0, 0, 0]
  /-- by Quoin port 0-3; 10 R303, 20 R617; reset none. When the channel's link went down. -/
  quoinDownSince : List (Option Nat) := [none, none, none, none]
  /-- number by face; 10 R310, 21 R646; reset DESIGN CHOICE 1 (log 8). Protocol version a manager's HELLO agreed. -/
  helloVer : List Nat := [0, 0, 0, 0]
  deriving DecidableEq, Repr

end Sys2Proof.Machine
end

