-- ==== Sys2Proof/Machine/KeystoneState.lean ====
section
/-! DEFINITION. State of the Keystone complexes, the lease, the journal, the checkpoints and the
Masons (spec/18). -/

namespace Sys2Proof.Machine

/-- A byte-addressed memory: addresses strictly rise and no listed byte is 0 (an unlisted byte reads 0). -/
abbrev Mem := List (Nat × Byte)

/-- Complex states (spec/18 R546). -/
inductive CplxSt where
  | off | starting | sync | active | failed | testing
  deriving DecidableEq, Repr

/-- The code KSC_STAT shows (spec/18 R546). -/
def CplxSt.code : CplxSt → Nat
  | .off => 0 | .starting => 1 | .sync => 2 | .active => 3 | .failed => 4 | .testing => 5

/-- One Keystone complex (spec/18 R546, R557, R562). -/
structure Complex where
  /-- 3 bits; 18 R546, R562 KSC_STAT state_a, state_b; reset 0 OFF. -/
  state : CplxSt := .off
  /-- 1 bit; 18 R562 KSC_CMPLX_STAT img_slot; reset 0. -/
  imgSlot : Nat := 0
  /-- 1 bit; 18 R562 KSC_CMPLX_STAT test_pass; reset 0. -/
  testPass : Bool := false
  /-- 1 bit; 18 R562 KSC_CMPLX_STAT verify_fail; reset 0. -/
  verifyFail : Bool := false
  /-- 1 bit; 18 R555; reset 0. The start under way is a takeover's. -/
  forTakeover : Bool := false
  /-- 1 bit; 18 R555, R557; reset 0. Image slot that the start under way loads. -/
  loadSlot : Nat := 0
  /-- 32 bits; 04 R104 fw_ver; reset 0. fw_ver of the image in its SRAM. -/
  fwVer : Nat := 0
  /-- 16 bits; 04 R104 svn; reset 0. svn of the image in its SRAM. -/
  svn : Nat := 0
  /-- 2 bits; 04 R104 key_slot; reset 0. key_slot of the image in its SRAM. -/
  key : Nat := 0
  /-- bytes; 18 R548; reset 0 (04 R111). The complex's own SRAM, 8 MiB. -/
  sram : Mem := []
  deriving DecidableEq, Repr

/-- A register write of the holder that waits for journal space (spec/18 R553). -/
structure JrnlWait where
  /-- PF BAR0 offset. -/
  off : Nat
  /-- 64-bit write. -/
  wide : Bool
  /-- Data. -/
  data : Nat
  /-- Epoch stamped. -/
  epoch : Nat
  /-- Complex that wrote. -/
  cplx : Nat
  deriving DecidableEq, Repr

/-- KSC_STALE_LOG (spec/18 R562). -/
structure StaleLog where
  /-- 1 bit; 18 R562 valid; reset 0. -/
  valid : Bool := false
  /-- 26 bits; 18 R562 off; reset 0. -/
  off : Nat := 0
  /-- 1 bit; 18 R562 no_lease; reset 0. -/
  noLease : Bool := false
  /-- 16 bits; 18 R562 epoch; reset 0. -/
  epoch : Nat := 0
  /-- 1 bit; 18 R562 cmplx; reset 0. -/
  cplx : Nat := 0
  deriving DecidableEq, Repr

/-- The Keystone block (spec/18). -/
structure Ksc where
  /-- two, A and B; 18 R546; reset all default. -/
  cplx : List Complex := [{}, {}]
  /-- 1 bit; 18 R562 active; reset 0 until a boot grants the lease. Last holder. -/
  active : Nat := 0
  /-- 1 bit; 18 R562 lease_held; reset 0 until a boot grants the lease, then 1. -/
  held : Bool := false
  /-- 16 bits; 18 R549, R562 epoch; reset 0 until a boot grants epoch 1. -/
  epoch : Nat := 0
  /-- tick; 18 R549, R562 left_us; reset 0. The lease end. -/
  leaseEnd : Nat := 0
  /-- 1 bit; 18 R555, R562 takeover; reset 0. -/
  takeover : Bool := false
  /-- tick; 18 R555; reset none. Start of the takeover, until ksc.takeover_late is raised. -/
  takeoverAt : Option Nat := none
  /-- 1 bit; 18 R555; reset 0. No grant until the next release point. -/
  dead : Bool := false
  /-- 1 bit; 18 R562 handover; reset 0. -/
  handover : Bool := false
  /-- complex and tick; 18 R558; reset none. Requester of the running handover and its request tick. -/
  handoverReq : Option (Nat × Nat) := none
  /-- list; 18 R553, R562 jrnl_wait; reset empty. Writes that wait for journal space, oldest first. -/
  jrnlWait : List JrnlWait := []
  /-- 48 bits; 18 R553, R562 KSC_JRNL_COUNT; reset 0. J. -/
  j : Nat := 0
  /-- 1 bit; 18 R554, R562 KSC_CKPT_STAT slot; reset 0. -/
  ckptSlot : Nat := 0
  /-- 48 bits; 18 R554, R562 KSC_CKPT_STAT jpos; reset 0. -/
  ckptJpos : Nat := 0
  /-- 64 bits; 18 R554, R562 KSC_CKPT_TICK; reset 0. -/
  ckptTick : Nat := 0
  /-- tick; 18 R554; reset 0. Tick from which the 1,100,000 ticks run. -/
  ckptFrom : Nat := 0
  /-- struct; 18 R562 KSC_STALE_LOG; reset 0. -/
  stale : StaleLog := {}
  /-- struct; 18 R562 KSC_CMPLX_CMD_STAT; reset 0. -/
  cmd : CmdStat := {}
  /-- bytes by local address 0x4000_0000-0xFFFF_FFFF; 18 R548, R552; reset 0 (04 R111). The Mason and firmware HBM areas. -/
  hbm : Mem := []
  deriving DecidableEq, Repr

/-- Where a Mason slot stands (spec/18 R567-R569). -/
inductive SlotSt where
  /-- Free. -/
  | free
  /-- Delivered and not yet taken. -/
  | waiting
  /-- Held by Mason code, taken from XQ_POP. -/
  | popped
  /-- Held by Mason code, taken from XQ_FREE_POP. -/
  | fresh
  /-- Handed back: its entry is in the return FIFO, or waits for it. -/
  | returned
  deriving DecidableEq, Repr

/-- One Mason packet slot (spec/18 R565-R571). Its Mark and frame lie in the cluster's memory (R566). -/
structure MSlot where
  /-- enum; 18 R567, R568; reset free. -/
  st : SlotSt := .free
  /-- 1 bit; 18 R569; reset 0. Taken from XQ_FREE_POP. -/
  isFree : Bool := false
  /-- 12 bits; 18 R570; reset 0. inst of the Mark handed out. -/
  inst : Nat := 0
  /-- 2 bits; 18 R569; reset 0. pass at hand-out. -/
  pass : Nat := 0
  /-- 1 bit; 18 R570; reset 0. Marked stale. -/
  stale : Bool := false
  /-- Mark as handed out; 01 R36; reset default. -/
  mark : Mark := {}
  /-- tick; 18 R571; reset 0. Since when Mason code holds it. -/
  since : Nat := 0
  /-- 1 bit; 18 R571; reset 0. xpe.slot_hold has been raised for this holding. -/
  raised : Bool := false
  deriving DecidableEq, Repr

/-- An entry of a return FIFO (spec/18 R568). -/
structure RetEntry where
  /-- Slot. -/
  slot : Nat
  /-- 0 RETURN, 1 DISCARD, 2 NEW. -/
  action : Nat
  /-- Course field. -/
  course : Nat
  /-- The course field is used. -/
  courseSel : Bool
  /-- Frame length. -/
  len : Nat
  deriving DecidableEq, Repr

/-- One Mason cluster (spec/18 R564-R575). -/
structure Cluster where
  /-- 3 bits; 18 R574 state; reset 2 OUT. -/
  state : UnitSt := .out
  /-- 1 bit; 18 R574 test_pass; reset 0. -/
  testPass : Bool := false
  /-- 32 bits; 18 R572; reset 0. Entry address the cores were released at. -/
  entry : Nat := 0
  /-- bytes by Mason local address 0-0x009F_FFFF; 18 R565, R566; reset 0. Cluster SRAM and packet slots. -/
  mem : Mem := []
  /-- by slot 0-127; 18 R567-R571; reset all free. -/
  slots : AMap MSlot := []
  /-- list of slots; 18 R568 XQ_POP; reset empty. Delivered slots not yet taken, oldest first. -/
  xq : List Nat := []
  /-- list of at most 64; 18 R568 ret_level; reset empty. Return FIFO, oldest first. -/
  ret : List RetEntry := []
  /-- list; 18 R568; reset empty. XQ_RET writes stalled on a full return FIFO, oldest first. -/
  stalled : List RetEntry := []
  deriving DecidableEq, Repr

/-- The Masons (spec/18). -/
structure Xpe where
  /-- four; 18 R572; reset OUT. -/
  clusters : List Cluster := [{}, {}, {}, {}]
  /-- struct; 18 R574 XPE_CMD_STAT; reset 0. -/
  cmd : CmdStat := {}
  deriving DecidableEq, Repr

end Sys2Proof.Machine
end

