-- ==== Sys2Proof/Machine/LineState.lean ====
section
/-! DEFINITION. State of the line lanes and the frame MACs (spec/05). -/

namespace Sys2Proof.Machine

/-- A frame that a line port is receiving, past its first 128 bytes (spec/05 R126, R127). -/
structure RxFrame where
  /-- Its bytes so far, as received. -/
  head : List Byte
  /-- MAC_PORT_CFG at the frame's start (R150). -/
  cfg : Nat := 0
  /-- The packet handed on. -/
  pkt : Option Nat := none
  /-- The error counter of R141 that the frame has met so far, 0 none. -/
  err : Nat := 0
  /-- A PCS error block or an uncorrectable codeword has been met. -/
  code : Bool := false
  deriving DecidableEq, Repr

/-- One line port (spec/05). -/
structure LinePort where
  /-- 1 bit; 05 R147 port_en as applied; reset 0. The port is enabled and started. -/
  running : Bool := false
  /-- 4 bits; 05 R123; reset 0. Lanes of the port as enabled. -/
  lanes : Nat := 0
  /-- 2 bits; 05 R140, R147; reset 0. lane_rate as applied at the last enable. -/
  laneRate : Nat := 0
  /-- 2 bits; 05 R140, R147; reset 0. fec as applied at the last enable. -/
  fec : Nat := 0
  /-- 1 bit; 05 R140, R147; reset 0. an_en as applied at the last enable. -/
  anEn : Bool := false
  /-- 2 bits; 05 R140; reset 0. loopback as applied at the last enable. -/
  loopback : Nat := 0
  /-- 4 bits per lane; 05 R146, R121; reset 0. tx_eq of the first lane as applied at the last enable. -/
  txEq : Nat := 0
  /-- 1 bit; 05 R148 align_ok; reset 0. -/
  align : Bool := false
  /-- 1 bit; 05 R148 local_fault; reset 0. Local fault signalled while aligned. -/
  localFault : Bool := false
  /-- 1 bit; 05 R148 remote_fault; reset 0. -/
  remoteFault : Bool := false
  /-- 1 bit; 05 R148 link_up; reset 0. -/
  linkUp : Bool := false
  /-- 1 bit; 05 R148 an_done; reset 0. -/
  anDone : Bool := false
  /-- 1 bit; 05 R148 cfg_invalid; reset 0. -/
  cfgInvalid : Bool := false
  /-- 8 ticks; 05 R135; reset 0. Tick at which each priority's pause ends; 0 is not paused. -/
  pauseEnd : List Nat := [0, 0, 0, 0, 0, 0, 0, 0]
  /-- 8 bits; 05 R136, R151 xoff; reset 0. Priorities this port is asserting. -/
  xoff : Nat := 0
  /-- tick; 05 R136; reset none. When the asserted state is sent again. -/
  refreshAt : Option Nat := none
  /-- 1 bit; 05 R136; reset 0. A flow control frame waits to be sent. -/
  fcPending : Bool := false
  /-- 16 entries of (tag, ns); 05 R138, R152; reset empty. Transmit timestamp FIFO, oldest first. -/
  txts : List (Nat × Nat) := []
  /-- struct; 05 R126, R127; reset none. The frame being received, past its first 128 bytes. -/
  rxNow : Option RxFrame := none
  /-- packet id; 05 R129; reset none. The frame being transmitted. -/
  txNow : Option Nat := none
  /-- tick; 16 R503; reset none. When the line link went down. -/
  downSince : Option Nat := none
  deriving DecidableEq, Repr

/-- The line side: octets and ports (spec/05). -/
structure LineSide where
  /-- 4 × 7 bits; 05 R145 applied; reset 0. Split bits in effect, by octet. -/
  applied : List Nat := [0, 0, 0, 0]
  /-- 4 × bytes; 05 R128; reset 0. Level of each octet's receive store. -/
  storeLevel : List Nat := [0, 0, 0, 0]
  /-- 32 bits; 05 R149 LSD_STAT_HALF; reset 0. -/
  lsdHalf : Nat := 0
  /-- 32 bits; 05 R153 MAC_STAT_HALF; reset 0. -/
  macHalf : Nat := 0
  /-- by port 0-31; 05; reset all default. The line ports. -/
  ports : AMap LinePort := []
  deriving DecidableEq, Repr

end Sys2Proof.Machine
end

