-- ==== Sys2Proof/Machine/OutState.lean ====
section
/-! DEFINITION. What the block sends while it carries out a command (model's own; log 2). -/

namespace Sys2Proof.Machine

/-- A PCIe message the device sends (spec/04 R110, spec/06 R183-R187, spec/09 R279, R280). -/
inductive PcieMsg where
  | readinessStatus
  | pmPme (fn : Nat)
  | pmeToAck
  | translationRequest (id fn addr : Nat) (pasid : Option Nat)
  | invalidateCompletion (fn page : Nat)
  | mctp (bytes : List Byte)
  deriving DecidableEq, Repr

/-- What a memory request carries beside its address (spec/09 R258, R276): it never sets No Snoop or ID-based ordering
and its traffic class is 0. -/
structure ReqAttr where
  /-- Address type: translated. -/
  translated : Bool := false
  /-- PASID. -/
  pasid : Option Nat := none
  /-- Relaxed Ordering, which only data writes ever have set. -/
  relaxed : Bool := false
  deriving DecidableEq, Repr

/-- One thing sent. -/
inductive Out where
  /-- A memory read request: the bytes of its DWs and its first and last byte enables (spec/09 R266). -/
  | hostRead (face link tag fn addr len firstBe lastBe : Nat) (attr : ReqAttr)
  /-- A memory write request: exactly the bytes that its byte enables select (spec/09 R266). -/
  | hostWrite (face link fn addr : Nat) (bytes : List Byte) (attr : ReqAttr)
  /-- A message on a PCIe link. -/
  | pcie (face link : Nat) (m : PcieMsg)
  /-- The answer to a configuration request: none is retry status. -/
  | cfg (fn : Nat) (v : Option Nat)
  /-- A frame on a line port, FCS included. -/
  | frame (port : Nat) (bytes : List Byte)
  /-- A flit on a Quoin port: type, channel, sop, eop, sequence number and payload. -/
  | flit (port typ ch : Nat) (sop eop : Bool) (seq : Nat) (payload : List Byte)
  /-- An acknowledgement or nak on a Quoin port: ack_seq, nak. -/
  | ack (port seq : Nat) (nak : Bool)
  /-- Credits returned on a Quoin port. -/
  | credit (port ch n : Nat)
  /-- An SMBus answer. -/
  | smbus (bytes : List Byte)
  /-- An SMBus write: its command byte acknowledged, and so many data bytes refused. -/
  | smbusNak (n : Nat)
  /-- Bits shifted out of the TAP. -/
  | tap (bits : Nat)
  /-- A level-1 interrupt to the lease holder. -/
  | ksInterrupt (src : Nat)
  /-- A trap to the lease holder. -/
  | ksTrap (src : Nat)
  /-- A mailbox interrupt to a complex. -/
  | ksMailbox (cplx : Nat)
  /-- The word a read of XQ_POP or XQ_FREE_POP returns. -/
  | pop (cluster word : Nat)
  /-- A packet at the Keystone's port, local 46 (spec/01 R25, spec/17 R513): its Mark and its bytes. -/
  | keystone (mark : Mark) (bytes : List Byte)
  /-- A PLDM request handed to firmware. -/
  | pldm (face : Nat) (bytes : List Byte)
  deriving DecidableEq, Repr

end Sys2Proof.Machine
end

