-- ==== Sys2Proof/Machine/PlumbState.lean ====
section
/-! DEFINITION. State of the Plumb, the TAP and the fuse unit (spec/19, spec/21 R648). -/

namespace Sys2Proof.Machine

/-- A first-error capture (spec/19 R582, R593). -/
structure Capture where
  /-- 1 bit; 19 R593 valid; reset 0, kept. -/
  valid : Bool := false
  /-- 10 bits; 19 R593 src; reset 0, kept. -/
  src : Nat := 0
  /-- 3 bits; 19 R593 level; reset 0, kept. -/
  level : Nat := 0
  /-- 3 bits; 19 R593 count; reset 0, kept. -/
  count : Nat := 0
  /-- 64 bits; 19 R593 FLT_CAP_ADDR; reset 0, kept. -/
  addr : Nat := 0
  /-- 21 bits; 19 R583, R593 master; reset 0, kept. -/
  master : Nat := 0
  /-- 2 bits; 19 R593 access; reset 0, kept. -/
  access : Nat := 0
  /-- 64 bits; 19 R593 FLT_CAP_TICK; reset 0, kept. -/
  tick : Nat := 0
  /-- 32 bits; 19 R593 FLT_CAP_DETAIL; reset 0, kept. -/
  detail : Nat := 0
  deriving DecidableEq, Repr

/-- A history entry (spec/19 R584). -/
structure HistEntry where
  /-- 0x00 [9:0]. -/
  src : Nat
  /-- 0x00 [11:10]. -/
  cls : Nat
  /-- 0x00 [14:12]. -/
  level : Nat
  /-- 0x00 [15]. -/
  escalated : Bool
  /-- 0x00 [31:16]. -/
  seq : Nat
  /-- 0x04. -/
  detail : Nat
  /-- 0x08, 0x0C. -/
  tick : Nat
  deriving DecidableEq, Repr

/-- The history queue of a block (spec/19 R584, R594). -/
structure History where
  /-- number; 19 R584 push count; reset 0, kept. -/
  pushes : Nat := 0
  /-- by entry 0-7; 19 R594; reset 0, kept. The entries in their places. -/
  entries : AMap (Option HistEntry) := []
  deriving DecidableEq, Repr

/-- The Plumb (spec/19). -/
structure Flt where
  /-- 17 × 32 bits; 19 R593 FLT_PEND; reset 0, kept. -/
  pend : AMap Nat := []
  /-- four; 19 R593; reset 0, kept. Captures of classes C, D, U and F. -/
  caps : List Capture := [{}, {}, {}, {}]
  /-- by block 0-20; 19 R584, R594; reset empty, kept. -/
  hist : AMap History := []
  /-- 1 bit; 19 R593 asserted; reset 0, kept. -/
  errpin : Bool := false
  /-- 10 bits; 19 R593 FLT_ERRPIN src; reset 0, kept. -/
  errSrc : Nat := 0
  /-- list; 19 R585; reset empty. Keystone interrupts (source, false) and traps (source, true) that wait for a holder. -/
  waiting : List (Nat × Bool) := []
  /-- 1 bit; 06 R171, 19 R585; reset 0. The manager's message waits while the primary face is in reset. -/
  mgrHeld : Bool := false
  deriving DecidableEq, Repr

/-- The TAP and factory test mode (spec/19 R589, R596), and the fusing of a security version (spec/21 R648). -/
structure Tap where
  /-- 8 bits; 03 R96, 19 R589; reset DESIGN CHOICE 0xFF BYPASS (log 11). The instruction register. -/
  ir : Nat := 0xFF
  /-- 1 bit; 19 R596 ft_mode; reset 0. -/
  ftMode : Bool := false
  /-- 4 bits; 19 R596 fails; reset 0. -/
  fails : Nat := 0
  /-- number; 19 R596 TAP_FT_CHALLENGE; reset DESIGN CHOICE 0 (log 11). Number of the draw of the challenge in force; its value is free. -/
  draw : Nat := 0
  /-- 1 bit; 21 R648 BTL_SVN_STAT busy; reset 0. -/
  svnBusy : Bool := false
  /-- 2 bits; 21 R648 BTL_SVN_STAT result; reset 0. -/
  svnResult : Nat := 0
  /-- svn and revoke; 21 R648; reset none. The change being fused. -/
  svnNew : Option (Nat × Nat) := none
  /-- 1 bit; 21 R646; reset 0. An UPGRADE_CONFIRM waits for its UPGRADE_DONE. -/
  upgradeWait : Bool := false
  /-- 16 bits; 21 R648; reset 0. svn of the running image. -/
  imgSvn : Nat := 0
  /-- 2 bits; 21 R648; reset 0. Key slot of the running image. -/
  imgKey : Nat := 0
  /-- 8 bits; 18 R554, 21 R646; reset DESIGN CHOICE 0 (log 11). ck_ver of the running firmware. -/
  ckVer : Nat := 0
  /-- 8 bits; 21 R646; reset DESIGN CHOICE 0 (log 11). ck_ver being written. -/
  ckWritten : Nat := 0
  /-- 1 bit; 21 R646 confirmed; reset 1 (nothing to confirm at a boot; DESIGN CHOICE, log 11). -/
  confirmed : Bool := true
  deriving DecidableEq, Repr

end Sys2Proof.Machine
end

