-- ==== Sys2Proof/Machine/QuoinState.lean ====
section
/-! DEFINITION. State of the Quoin ports, the stack and the courses' service states (spec/20, spec/21). -/

namespace Sys2Proof.Machine

/-- States of a Quoin port (spec/20 R622). -/
inductive QPort where
  | disabled | training | negotiate | up | verMismatch | idConflict
  deriving DecidableEq, Repr

/-- The code CSC_PORT_STAT shows (spec/20 R622). -/
def QPort.code : QPort → Nat
  | .disabled => 0 | .training => 1 | .negotiate => 2 | .up => 3 | .verMismatch => 4 | .idConflict => 5

/-- A flit that takes a sequence number (spec/20 R600, R602). -/
structure Flit where
  /-- 1 DATA, 2 CONTROL. -/
  typ : Nat
  /-- Channel. -/
  ch : Nat
  /-- First flit of a packet or message. -/
  sop : Bool
  /-- Last flit of a packet or message. -/
  eop : Bool
  /-- Valid payload bytes. -/
  payload : List Byte
  deriving DecidableEq, Repr

/-- A flit sent and not yet acknowledged (spec/20 R602). -/
structure SentFlit where
  /-- Sequence number. -/
  seq : Nat
  /-- Times sent. -/
  sends : Nat
  /-- The flit. -/
  flit : Flit
  deriving DecidableEq, Repr

/-- The latest TOPO of a port's peer (spec/20 R604, R606). -/
structure TopoRec where
  /-- Arrival tick. -/
  at_ : Nat
  /-- module_id. -/
  id : Nat
  /-- direct. -/
  direct : Nat
  /-- prio. -/
  prio : Nat
  /-- master_capable. -/
  capable : Bool
  /-- ksc_ready. -/
  kscReady : Bool
  deriving DecidableEq, Repr

/-- One Quoin port (spec/20). -/
structure QuoinPort where
  /-- 3 bits; 20 R622 state; reset 0 DISABLED. -/
  state : QPort := .disabled
  /-- 2 bits; 20 R622 peer_id; reset 0. -/
  peerId : Nat := 0
  /-- 2 bits; 20 R622 peer_port; reset 0. -/
  peerPort : Nat := 0
  /-- 2 bits; 20 R622 link_ver; reset 0. -/
  linkVer : Nat := 0
  /-- 1 bit; 20 R622 lane_rev; reset 0. -/
  laneRev : Bool := false
  /-- 8 bits; 20 R622 rx_invert; reset 0. -/
  rxInvert : Nat := 0
  /-- 1 bit; 20 R605; reset 0. A HELLO has been received since negotiating. -/
  heard : Bool := false
  /-- three numbers; 20 R605; reset 0. module_id, port and v of the last HELLO judged good. -/
  helloFrom : Nat × Nat × Nat := (0, 0, 0)
  /-- 1 bit; 20 R605; reset 0. A HELLO with seen = 1 has been sent since negotiating. -/
  sentSeen : Bool := false
  /-- 1 bit; 20 R605; reset 0. A HELLO with seen = 1 has been received since negotiating. -/
  gotSeen : Bool := false
  /-- 9 × 13 bits; 20 R603, R605; reset 0. Allocation the peer's last HELLO advertised. -/
  peerAlloc : List Nat := [0, 0, 0, 0, 0, 0, 0, 0, 0]
  /-- 12 bits; 20 R602; reset 0. Next sequence number to send. -/
  txSeq : Nat := 0
  /-- list of at most 512; 20 R602; reset empty. Flits not acknowledged, oldest first. -/
  unacked : List SentFlit := []
  /-- tick; 20 R602; reset 0. When ack_seq last advanced or a flit was first held. -/
  ackAt : Nat := 0
  /-- 12 bits; 20 R602; reset 0. Next sequence number expected. -/
  rxSeq : Nat := 0
  /-- 1 bit; 20 R602; reset 0. A flit has been taken in order, so ack_seq is valid. -/
  ackVld : Bool := false
  /-- 1 bit; 20 R602; reset 0. nak has been sent for the present gap. -/
  nakSent : Bool := false
  /-- 9 × 13 bits; 20 R603, R622 CSC_TX_CREDIT; reset 0. -/
  credits : List Nat := [0, 0, 0, 0, 0, 0, 0, 0, 0]
  /-- 9 × 13 bits; 20 R603, R622 CSC_RX_ALLOC in force; reset 480 × 8, 256. -/
  alloc : List Nat := [480, 480, 480, 480, 480, 480, 480, 480, 256]
  /-- list of 9 lists; 20 R603; reset empty. Flits that wait for credit or for the window, by channel, oldest first. -/
  waiting : List (List Flit) := [[], [], [], [], [], [], [], [], []]
  /-- 9 ticks; 20 R603; reset none. Since when the first waiting flit of a channel has had no credit; 0 once raised. -/
  creditWait : List (Option Nat) := [none, none, none, none, none, none, none, none, none]
  /-- list of 9; 20 R601; reset none. Bytes of the packet or message being received, by channel. -/
  rx : List (Option (List Byte)) := [none, none, none, none, none, none, none, none, none]
  /-- list of 9; 20 R601; reset none. Packet being received, by channel, once handed in. -/
  rxPkt : List (Option Nat) := [none, none, none, none, none, none, none, none, none]
  /-- by packet number; 20 R603; reset (0, 0). Channel and number of flits whose bytes have not entered a course: their
  credits are not returned yet. -/
  owed : AMap (Nat × Nat) := []
  /-- tick; 20 R617; reset none. When the link went down. -/
  downSince : Option Nat := none
  /-- record; 20 R606; reset none. Latest TOPO of the peer. -/
  topo : Option TopoRec := none
  /-- 16 bits; 20 R622 delay_ns; reset 0. -/
  delayNs : Nat := 0
  /-- signed 64 bits; 20 R622 offset_ns; reset 0. -/
  offsetNs : Int := 0
  /-- two times; 20 R604 TIME; reset none. t_tx of the last TIME received and its arrival time. -/
  echo : Option (Nat × Nat) := none
  deriving DecidableEq, Repr

/-- The stack (spec/20). -/
structure Csc where
  /-- four, Q0-Q3; 20 R622; reset all default. -/
  ports : List QuoinPort := [{}, {}, {}, {}]
  /-- 1 bit; 20 R621 cfg_invalid; reset 0. -/
  cfgInvalid : Bool := false
  /-- 1 bit; 20 R621 cfg_read; reset 0. -/
  cfgRead : Bool := false
  /-- 2 bits; 20 R623 master_id; reset 0. -/
  masterId : Nat := 0
  /-- 1 bit; 20 R623 master_valid; reset 0. -/
  masterValid : Bool := false
  /-- 1 bit; 20 R623 is_master; reset 0. -/
  isMaster : Bool := false
  /-- 16 bits; 20 R623 lease_epoch; reset 0. E. -/
  leaseEpoch : Nat := 0
  /-- tick; 20 R612, R623 left_us; reset 0. The stack lease end. -/
  leaseEnd : Nat := 0
  /-- 32 bits; 20 R612, R613; reset 0. renew_seq of the lease held or last accepted. -/
  renewSeq : Nat := 0
  /-- 4 bits; 20 R613; reset 0. prio of the holder, as its last accepted LEASE gave it. -/
  masterPrio : Nat := 0
  /-- 4 bits; 20 R623 reach; reset 0. Modules in the reach set. -/
  reach : Nat := 0
  /-- tick; 20 R614; reset 0. Since when master_valid is 0. -/
  invalidSince : Nat := 0
  /-- 16 bits; 20 R623 CSC_CFG_EPOCH current; reset 0. -/
  cfgEpoch : Nat := 0
  /-- epoch and time; 20 R615, R623 pending; reset none. -/
  pending : Option (Nat × Nat) := none
  /-- 1 bit; 20 R623 bank; reset 0. Active shard bank. -/
  bank : Nat := 0
  /-- 4 ticks; 20 R611; reset none each. Since when each module is out of the reach set; none when in it or once raised. -/
  lostSince : List (Option Nat) := [none, none, none, none]
  /-- tick; 20 R611; reset 0. Last TOPO sending. -/
  topoAt : Nat := 0
  /-- tick; 20 R616; reset 0. Last TIME sending. -/
  timeAt : Nat := 0
  deriving DecidableEq, Repr

/-- One course's service state (spec/21 R627-R630). -/
structure Course where
  /-- 3 bits; 21 R630 state; reset 0 IN. -/
  state : UnitSt := .inService
  /-- 1 bit; 21 R630 test_pass; reset 0. -/
  testPass : Bool := false
  deriving DecidableEq, Repr

/-- The courses (spec/21). -/
structure Courses where
  /-- four; 21 R630; reset IN. -/
  list : List Course := [{}, {}, {}, {}]
  /-- struct; 21 R630 PRS_COURSE_CMD_STAT; reset 0. -/
  cmd : CmdStat := {}
  deriving DecidableEq, Repr

end Sys2Proof.Machine
end

