-- ==== Sys2Proof/Machine/RuleState.lean ====
section
/-! DEFINITION. State of course admission, the rule engine and its banks (spec/01 R28, spec/12). -/

namespace Sys2Proof.Machine

/-- Admission slots of one course and one activity (spec/01 R28, R31). -/
structure Slots where
  /-- 9 bits; 01 R31 in_use; reset 0. -/
  inUse : Nat := 0
  /-- 9 bits; 01 R31 reserve_granted; reset as allocated by R28. -/
  granted : Nat := 0
  deriving DecidableEq, Repr

/-- A rule entry (spec/12 R346): 48-byte value and mask as numbers, byte 0 lowest. -/
structure RuleEntry where
  /-- Key value. -/
  value : Nat := 0
  /-- Key mask. -/
  mask : Nat := 0
  /-- Action word index. -/
  action : Nat := 0
  /-- The entry takes part in lookups. -/
  valid : Bool := false
  deriving DecidableEq, Repr

/-- A stage descriptor (spec/12 R347). -/
structure RuleStage where
  /-- The ten selector words (R345). -/
  sels : List Nat := []
  /-- First entry. -/
  base : Nat := 0
  /-- Entries. -/
  count : Nat := 0
  /-- Action on a miss. -/
  missAction : Nat := 0
  /-- The stage is enabled. -/
  en : Bool := false
  deriving DecidableEq, Repr

/-- A rule-set image (spec/12 R360); action words are kept as their eight words. -/
structure Image where
  /-- Header word 0x0C: first stage by activity. -/
  start : Nat := 0
  /-- Header word 0x10: the default action table (R359). -/
  defaults : Nat := 0
  /-- Header word 0x14. -/
  imgTag : Nat := 0
  /-- S0-S7. -/
  stages : List RuleStage := []
  /-- Class table, sparse: mirror session of each class. -/
  classTab : AMap Nat := []
  /-- Mirror sessions, sparse: the two words as one number. -/
  sessions : AMap Nat := []
  /-- Rule entries. -/
  entries : List RuleEntry := []
  /-- Action words. -/
  actions : List (List Nat) := []
  deriving DecidableEq, Repr

/-- Bank states (spec/12 R362). -/
inductive BankSt where
  | empty | loading | ready | active | draining
  deriving DecidableEq, Repr

/-- The code CLS_EPOCH shows (spec/12 R362). -/
def BankSt.code : BankSt → Nat
  | .empty => 0 | .loading => 1 | .ready => 2 | .active => 3 | .draining => 4

/-- One rule-set bank (spec/12 R362-R365). -/
structure Bank where
  /-- 3 bits; 12 R373 state; reset 3 for bank 0, 0 for bank 1. -/
  state : BankSt := .empty
  /-- 8 bits; 12 R373 epoch; reset 0. -/
  epoch : Nat := 0
  /-- image; 12 R360, R369; reset the built-in rule set in bank 0, empty in bank 1. -/
  image : Image := {}
  deriving DecidableEq, Repr

/-- Selector of the built-in S0 (spec/12 R369): src 1, off 8. -/
def builtinSel0 : Nat := 1 + 8 * 512

/-- The built-in rule set (spec/12 R369). -/
def builtinImage : Image :=
  { start := 0x88008080, defaults := 0x42, imgTag := 0
    stages := { sels := builtinSel0 :: List.replicate 9 0, base := 0, count := 2, missAction := 0, en := true }
      :: List.replicate 7 { sels := List.replicate 10 0 }
    entries := [{ value := 0x10, mask := 0x10, action := 1, valid := true },
                { value := 0x20, mask := 0x20, action := 1, valid := true }]
    actions := [[0, 0, 0, 0, 0, 0, 0, 0], [0x100000, 0, 0, 0, 0, 0, 0, 0]] }

/-- One exception limiter (spec/12 R353, R374). -/
structure ExcLimiter where
  /-- 22 bits; 12 R374 tokens; reset 64,000. Milli-packets. -/
  tokens : Nat := 64000
  /-- tick; 12 R353; reset none. Start of the 1,000,000-tick window in which a refusal last raised cls.exc_over. -/
  overSince : Option Nat := none
  deriving DecidableEq, Repr

/-- Course admission and the rule engine (spec/01 R28-R31, spec/12, spec/21 R627). -/
structure Rules where
  /-- 4 courses × 8 activities; 01 R31; reset as allocated by R28 from the reset registers. -/
  slots : List Slots :=
    (List.replicate 4 [⟨0, 64⟩, ⟨0, 0⟩, ⟨0, 64⟩, ⟨0, 0⟩, ⟨0, 32⟩, ⟨0, 16⟩, ⟨0, 8⟩, ⟨0, 8⟩]).flatten
  /-- two; 12 R362; reset built-in ACTIVE and EMPTY. The banks. -/
  banks : List Bank := [{ state := .active, image := builtinImage }, {}]
  /-- 8 bits; 12 R373 current; reset 0. -/
  epoch : Nat := 0
  /-- struct; 12 R373 CLS_BANK_CMD_STAT; reset 0. busy, result and why. -/
  cmdBusy : Bool := false
  /-- 2 bits; 12 R373 result; reset 0. -/
  cmdResult : Nat := 0
  /-- 4 bits; 12 R373 why; reset 0. -/
  cmdWhy : Nat := 0
  /-- 64 bits; 12 R373 CLS_SWAP_TICK; reset 0. -/
  swapTick : Nat := 0
  /-- 64 bits; 12 R373 CLS_FREE_TICK; reset 0. -/
  freeTick : Nat := 0
  /-- by limiter 0-31; 12 R353, R374; reset all default. -/
  limiters : AMap ExcLimiter := []
  deriving DecidableEq, Repr

end Sys2Proof.Machine
end

