-- ==== Sys2Proof/Machine/BufferState.lean ====
section
/-! DEFINITION. State of the packet buffer (spec/16) and the packets on their way through the device. -/

namespace Sys2Proof.Machine

/-- Ingress units (spec/16 R488): a priority group of a line port, or an activity. -/
inductive IngUnit where
  | pg (port pri : Nat)
  | act (a : Act)
  deriving DecidableEq, Repr

/-- Egress units (spec/16 R489). -/
inductive EgUnit where
  | line (port pri : Nat)
  | quoin (q pri : Nat)
  | rxq (q : Nat)
  | act (a : Act)
  deriving DecidableEq, Repr

/-- A packet, or one copy of it, from its source to its exit (spec/01 R11, spec/16 R484). -/
structure Packet where
  /-- Its Mark. -/
  mark : Mark := {}
  /-- Its bytes, without FCS. -/
  bytes : List Byte := []
  /-- Where it stands. -/
  stage : Stage := .waitSlot
  /-- The end marker has arrived. -/
  ended : Bool := true
  /-- It holds an admission slot (spec/01 R28). -/
  slot : Bool := false
  /-- Bad by a check at its end (spec/05 R127). -/
  bad : Bool := false
  /-- Received line frame: its length with FCS, known at its end (spec/05 R126). -/
  rxSize : Nat := 0
  /-- The tunnel engine, crypto and the transport engine pass it unchanged in this pass (spec/20 R608, R609). -/
  passBy : Bool := false
  /-- Transmit queue and item that made it (spec/07 R208). -/
  item : Option (Nat × Nat) := none
  /-- Late findings flagged at its end (spec/11 R327). -/
  late : List Nat := []
  /-- The frame as the parser saw it, kept until the end marker has passed the parser (spec/11 R327). -/
  raw : List Byte := []
  /-- The bound B of the last parse where a claim set it; the frame's end where none (spec/11 R325). -/
  bound : Option Nat := none
  /-- The Mark is created afresh: course admission writes the current epoch (spec/01 R32, R36, spec/12 R355). -/
  fresh : Bool := true
  /-- Number of the packet whose cells it shares (spec/16 R484), itself for an original. -/
  orig : Nat := 0
  /-- Cells charged to its ingress unit from reserve and shared pool. -/
  ingCells : Nat := 0
  /-- Cells charged to its ingress unit's headroom. -/
  hdrmCells : Nat := 0
  /-- Cells charged to its egress unit. -/
  egCells : Nat := 0
  /-- Its ingress unit. -/
  ing : IngUnit := .act .exc
  /-- Its egress unit. -/
  eg : EgUnit := .act .exc
  /-- Tick at which it began to wait: for a slot, at buffer admission, or at the recirculation port. -/
  since : Nat := 0
  /-- Tick of its buffer admission (spec/16 R500). -/
  admitted : Nat := 0
  /-- Bound for, or held in, the spill region (spec/16 R501). -/
  spill : Bool := false
  /-- Moved to HBM (spec/16 R501). -/
  inHbm : Bool := false
  /-- Transmit queue of its exit (spec/17 R514). -/
  txq : Nat := 0
  /-- Length already charged to shapers at cut-through (spec/17 R522). -/
  charged : Option Nat := none
  /-- A copy made by mirroring or flooding (spec/01 R11), not an original. -/
  copy : Bool := false
  /-- Truncation length of a mirror copy, 0 none (spec/12 R354). -/
  trunc : Nat := 0
  /-- Order in which it reached the crypto stage, then order of its buffer admission (spec/14 R411, spec/16 R487). -/
  order : Nat := 0
  /-- The item asked for csum_l4 (spec/07 R206, spec/14 R426). -/
  csumL4 : Bool := false
  /-- Its SA was found by the SPI lookup (spec/14 R425). -/
  spiHit : Bool := false
  /-- The last frame of its item (spec/07 R208, spec/14 R426). -/
  itemEnd : Bool := false
  /-- Its bytes held in its octet's receive store (spec/05 R128). -/
  inStore : Nat := 0
  /-- Status of its completion entry (spec/15 R473). -/
  rxStatus : Nat := 0
  /-- Charged provisionally until its end marker (spec/16 R485). -/
  prov : Bool := false
  deriving DecidableEq, Repr

/-- Cells of the on-die store (spec/16, opening). -/
def totalCells : Nat := 262144

/-- A priority group's counts (spec/16 R508). -/
structure PgUse where
  /-- 19 bits; 16 R508 BUF_PG_STAT used; reset 0. -/
  used : Nat := 0
  /-- 1 bit; 16 R508 BUF_PG_STAT xoff; reset 0. -/
  xoff : Bool := false
  /-- 16 bits; 16 R508 BUF_PG_HDRM hdrm_used; reset 0. -/
  hdrmUsed : Nat := 0
  /-- 16 bits; 16 R508 rsv in force (R494); reset 64. -/
  rsv : Nat := 64
  /-- 16 bits; 16 R508 hdrm in force (R494); reset 0. -/
  hdrm : Nat := 0
  /-- tick; 16 R504; reset none. Last buf.headroom_drop of the group. -/
  dropAt : Option Nat := none
  deriving DecidableEq, Repr

/-- An activity's ingress counts (spec/16 R507). -/
structure ActUse where
  /-- 19 bits; 16 R507 BUF_ING_STAT used; reset 0. -/
  used : Nat := 0
  /-- 19 bits; 16 R507 rsv in force (R494); reset HTX 8,192, CAS 4,096, REC 1,024, EXC 512, MGT 512. -/
  rsv : Nat := 0
  deriving DecidableEq, Repr

/-- The packet buffer (spec/16). -/
structure Buf where
  /-- by 8 × n + p; 16 R508; reset all default. Priority groups. -/
  pgs : AMap PgUse := []
  /-- by activity value; 16 R507; reset R507. Activity units. -/
  acts : AMap ActUse :=
    [(2, { rsv := 8192 }), (4, { rsv := 4096 }), (5, { rsv := 1024 }), (6, { rsv := 512 }), (7, { rsv := 512 })]
  /-- by 8 × e + p; 16 R509 BUF_EG_STAT used; reset 0. Line and Quoin egress units. -/
  egs : AMap Nat := []
  /-- by receive queue; 16 R510 BUF_HRX_QPROF used; reset 0. -/
  rxqs : AMap Nat := []
  /-- by activity value; 16 R509 BUF_EG_ACT; reset 0. -/
  egActs : AMap Nat := []
  /-- 19 bits; 16 R506 cells_used; reset 0. -/
  used : Nat := 0
  /-- 19 bits; 16 R506 peak; reset 0. -/
  peak : Nat := 0
  /-- 1 bit; 16 R506 cfg_invalid; reset 0. -/
  cfgInvalid : Bool := false
  /-- 1 bit; 16 R506 cfg_read; reset 0. -/
  cfgRead : Bool := false
  /-- 1 bit; 16 R510 BUF_SPILL_CFG en in force; reset 0. -/
  spillEn : Bool := false
  /-- 14 bits; 16 R510 BUF_SPILL_CFG size_mib in force; reset 0. -/
  spillMib : Nat := 0
  /-- 4 × 1 bit; 16 R511 BUF_RSTORE_STAT xoff; reset 0. -/
  rsXoff : List Bool := [false, false, false, false]
  /-- by receive queue; 16 R501; reset 0. Cells in the spill region. -/
  spilled : AMap Nat := []
  /-- list of queues; 16 R501; reset empty. Queues whose buf.spill_full has been raised. -/
  spillFull : List Nat := []
  /-- tick; 16 R500; reset none. Last buf.hrx_hold. -/
  holdAt : Option Nat := none
  deriving DecidableEq, Repr

end Sys2Proof.Machine
end

