-- ==== Sys2Proof/Machine/SchedState.lean ====
section
/-! DEFINITION. State of the scheduler, its shapers, policers and gate lists (spec/17). -/

namespace Sys2Proof.Machine

/-- A shaper as it acts (spec/17 R523, R524): the settings in force and the credit. -/
structure Shaper where
  /-- 1 bit; 17 R538 en in force (R524); reset 0. -/
  en : Bool := false
  /-- 20 bits; 17 R538 rate_mbps in force (R524); reset 0. -/
  rate : Nat := 0
  /-- 3 bits; 17 R538 k in force (R524); reset 0. -/
  k : Nat := 0
  /-- 24 bits; 17 R538 cbs in force (R524); reset 16,384. -/
  cbs : Nat := 16384
  /-- signed, units of 2^-24 byte; 17 R523, R538 credit; reset 0. -/
  credit : Int := 0
  /-- tick; 17 R523; reset none. Tick of the last refill. -/
  refilled : Option Nat := none
  deriving DecidableEq, Repr

/-- A policer's buckets (spec/17 R526, R527), in units of 2^-24 byte. -/
structure Policer where
  /-- 17 R543 tc; reset 0 (full at a size of 0). Bucket C. -/
  tc : Nat := 0
  /-- 17 R543 tp; reset 0 (full at a size of 0). Bucket P or E. -/
  tp : Nat := 0
  /-- tick; 17 R527; reset 0. Last use. -/
  last : Nat := 0
  deriving DecidableEq, Repr

/-- Weighted round robin at one parent (spec/17 R519): the pass under way and the last member visited. -/
structure Wrr where
  /-- Pass r, 1-255. -/
  pass : Nat := 1
  /-- Members below this number have been visited in the pass. -/
  next : Nat := 0
  deriving DecidableEq, Repr

/-- A queue visit under way (spec/17 R519). -/
structure Visit where
  /-- Priority. -/
  pri : Nat
  /-- Group. -/
  group : Nat
  /-- Member: node, or 4,095 for the anonymous member. -/
  member : Nat
  /-- Leaf queue. -/
  queue : Nat
  /-- Packets the visit may still send. -/
  left : Nat
  deriving DecidableEq, Repr

/-- A line port's gate (spec/17 R529-R533, R544). -/
structure GatePort where
  /-- 2 bits; 17 R544 oper; reset 3 none. -/
  oper : Option Nat := none
  /-- 1 bit and list; 17 R544 pending; reset 0. -/
  pending : Option Nat := none
  /-- 1 bit; 17 R544 cfg_invalid; reset 0. -/
  cfgInvalid : Bool := false
  /-- 8 × 32 bits; 17 R544 TMS_GATE_LONG; reset 0xFFFF_FFFF each. -/
  longest : List Nat := List.replicate 8 0xFFFFFFFF
  /-- tick; 17 R532; reset none. Last tms.gate_oversize of the port. -/
  oversizeAt : Option Nat := none
  deriving DecidableEq, Repr

/-- The scheduler (spec/17). -/
structure Tms where
  /-- by exit e, 64 + group, 1024 + node; 17 R538-R541; reset all default. Shapers. -/
  shapers : AMap Shaper := []
  /-- by policer 0-4,095; 17 R543; reset all default. -/
  policers : AMap Policer := []
  /-- by exit × 8 + p; 17 R519; reset all default. Groups of an exit. -/
  wrrGroup : AMap Wrr := []
  /-- by group × 8 + p; 17 R519; reset all default. Members of a group. -/
  wrrMember : AMap Wrr := []
  /-- by (group × 4,096 + member) × 8 + p; 17 R519; reset all default. Queues of a member. -/
  wrrQueue : AMap Wrr := []
  /-- by exit; 17 R519; reset none. Queue visits under way. -/
  visits : AMap (Option Visit) := []
  /-- by group; 17 R537, R540 exit_pending; reset none. Exit kept by a group whose new exit waits. -/
  exitKept : AMap (Option Nat) := []
  /-- by queue; 17 R537, R542 group_pending; reset none. Group kept by a queue whose new group waits. -/
  groupKept : AMap (Option Nat) := []
  /-- by line port; 17 R544; reset all default. -/
  gates : AMap GatePort := []
  deriving DecidableEq, Repr

end Sys2Proof.Machine
end

