-- ==== Sys2Proof/Machine/CryptoState.lean ====
section
/-! DEFINITION. State of the tunnel engine and inline crypto (spec/14). -/

namespace Sys2Proof.Machine

/-- A security association (spec/14 R428). -/
structure SaEntry where
  /-- 0x00 [1:0]: 0 none, 1 ESP, 2 MACsec, 3 TLS. -/
  proto : Nat := 0
  /-- 0x00 [2]: decrypt. -/
  decrypt : Bool := false
  /-- 0x00 [4:3]. -/
  alg : Nat := 0
  /-- 0x00 [5]. -/
  esn : Bool := false
  /-- 0x00 [6]. -/
  tunnel : Bool := false
  /-- 0x00 [7]. -/
  natt : Bool := false
  /-- 0x00 [9:8]. -/
  confOff : Nat := 0
  /-- 0x00 [10]. -/
  sciEn : Bool := false
  /-- 0x00 [12:11]. -/
  an : Nat := 0
  /-- 0x00 [13]. -/
  valid : Bool := false
  /-- 0x00 [14] (R432). -/
  exhausted : Bool := false
  /-- 0x00 [15] (R432). -/
  softHit : Bool := false
  /-- 0x00 [17:16] (R427). -/
  tlsState : Nat := 0
  /-- 0x04 [11:0]. -/
  owner : Nat := 0
  /-- 0x04 [23:12]. -/
  ownerGen : Nat := 0
  /-- 0x04 [27:24]. -/
  winLog2 : Nat := 0
  /-- 0x08. -/
  spi : Nat := 0
  /-- 0x0C [15:0]. -/
  nattSport : Nat := 0
  /-- 0x0C [31:16]. -/
  nattDport : Nat := 0
  /-- 0x10-0x17. -/
  sci : Nat := 0
  /-- 0x18-0x1F (R431): the live value. -/
  seq : Nat := 0
  /-- 0x20-0x27. -/
  softLimit : Nat := 0
  /-- 0x28. -/
  tlsTcpSeq : Nat := 0
  /-- 0x2C [15:0]. -/
  tlsLeft : Nat := 0
  /-- 0x34. -/
  authFail : Nat := 0
  /-- 0x38. -/
  replayDrop : Nat := 0
  /-- Key area: the key. -/
  key : List Byte := []
  /-- Key area: the salt. -/
  salt : List Byte := []
  /-- Replay bitmap: bit n is number n modulo the window (R433). -/
  window : Nat := 0
  /-- Record header bytes already seen of a header split across frames (R426). -/
  tlsHdr : List Byte := []
  /-- Body bytes already seen of the current record (R426). -/
  tlsBody : List Byte := []
  /-- Resync point: TCP sequence and record number (R427). -/
  resync : Option (Nat × Nat) := none
  /-- cry.seq_exhausted has been raised for this installation (R432). -/
  exhaustedRaised : Bool := false
  /-- The HBM copy of seq (R435). -/
  stored : Nat := 0
  /-- Wrapped under a key-encryption key that has been erased (R429, spec/19 R589). -/
  wrapDead : Bool := false
  deriving DecidableEq, Repr

/-- A crypto lane (spec/14 R437, R438, R445). -/
structure Lane where
  /-- 3 bits; 14 R445 state; reset 0 IN. -/
  state : UnitSt := .inService
  /-- 1 bit; 14 R445 test_pass; reset 0. -/
  testPass : Bool := false
  /-- 1 bit; 14 R445 dir_applied; reset 0 for lanes 0-3, 1 for 4-7. -/
  decrypt : Bool := false
  /-- list of at most 256 packet ids; 14 R434; reset empty. The miss queue, oldest first. -/
  miss : List Nat := []
  deriving DecidableEq, Repr

/-- The tunnel engine and inline crypto (spec/14). -/
structure Crypto where
  /-- 4 × 16 bits; 14 R415; reset DESIGN CHOICE 0 (log 10). Identification counts, by course. -/
  ipId : List Nat := [0, 0, 0, 0]
  /-- by index; 14 R428; reset empty (04 R111: HBM contents cleared). SA store. -/
  sas : AMap SaEntry := []
  /-- list of at most 65,536 indices; 14 R434; reset empty. Cached SAs, least recently used first. -/
  cache : List Nat := []
  /-- eight; 14 R437; reset R445. Lanes. -/
  lanes : List Lane := List.replicate 4 ({} : Lane) ++ List.replicate 4 ({ decrypt := true } : Lane)
  /-- five sets; 14 R446 CRY_SA_CMD_STAT; reset 0. -/
  sets : List CmdStat := [{}, {}, {}, {}, {}]
  /-- by set × 16 + word; 14 R446 CRY_KEY_ARG; reset none written (write-only). Key words of the next command. -/
  keyArgs : AMap Nat := []
  /-- struct; 14 R445 CRY_LANE_CMD_STAT; reset 0. -/
  laneCmd : CmdStat := {}
  deriving DecidableEq, Repr

end Sys2Proof.Machine
end

