-- ==== Sys2Proof/Machine/StorageState.lean ====
section
/-! DEFINITION. State of the storage and transport engine (spec/15). -/

namespace Sys2Proof.Machine

/-- Context kinds (spec/15 R451). -/
inductive CtxKind where
  | none | rc | ud | nvt
  deriving DecidableEq, Repr

/-- The code of kind (spec/15 R451). -/
def CtxKind.code : CtxKind → Nat
  | .none => 0 | .rc => 1 | .ud => 2 | .nvt => 3

/-- The kind a 2-bit code names (spec/15 R451). -/
def CtxKind.ofCode (v : Nat) : CtxKind :=
  match v % 4 with
  | 0 => .none | 1 => .rc | 2 => .ud | _ => .nvt

/-- Context states (spec/15 R451, R453). -/
inductive CtxSt where
  | reset | init | rtr | rts | error
  deriving DecidableEq, Repr

/-- The code of state (spec/15 R451). -/
def CtxSt.code : CtxSt → Nat
  | .reset => 0 | .init => 1 | .rtr => 2 | .rts => 3 | .error => 4

/-- nvt_state (spec/15 R451, R471). -/
inductive NvtSt where
  | track | resync | failed
  deriving DecidableEq, Repr

/-- The code of nvt_state (spec/15 R451). -/
def NvtSt.code : NvtSt → Nat
  | .track => 0 | .resync => 1 | .failed => 2

/-- One message of a bound transmit queue (spec/15 R455, R458, R461). -/
structure StoMsg where
  /-- Ring count of the item's first descriptor. -/
  first : Nat
  /-- op of R455. -/
  op : Nat
  /-- Solicited event. -/
  se : Bool := false
  /-- Waits for earlier READs. -/
  fence : Bool := false
  /-- Immediate data. -/
  imm : Nat := 0
  /-- rkey, or the Q_Key of a UD message. -/
  rkey : Nat := 0
  /-- Remote address, or destination QPN. -/
  raddr : Nat := 0
  /-- Path entry of a UD message. -/
  path : Nat := 0
  /-- Local list: address and length of each segment. -/
  segs : List (Nat × Nat) := []
  /-- Message length in bytes. -/
  len : Nat := 0
  /-- First PSN, given when the first packet is sent. -/
  psn : Option Nat := none
  /-- Packets of the message (for READ: response packets). -/
  pkts : Nat := 1
  /-- READ response packets received. -/
  got : Nat := 0
  /-- The message is complete. -/
  done : Bool := false
  /-- cookie of the descriptor that completes the item. -/
  cookie : Nat := 0
  /-- Ring descriptors of the item. -/
  span : Nat := 1
  deriving DecidableEq, Repr

/-- A packet that the engine prepares and hands in when its payload has been read (spec/15 R457, R461). -/
structure StoOut where
  /-- The engine's number of it. -/
  num : Nat
  /-- PSN. -/
  psn : Nat
  /-- BTH opcode. -/
  op : Nat
  /-- Solicited event bit. -/
  se : Bool := false
  /-- AckReq bit. -/
  ackReq : Bool := false
  /-- Extended headers after the BTH. -/
  ext : List Byte := []
  /-- Payload; bytes not yet read are 0. -/
  data : List Byte := []
  /-- Reads outstanding. -/
  reads : Nat := 0
  /-- Sent before. -/
  again : Bool := false
  /-- It belongs to the responder's side: a READ response. -/
  resp : Bool := false
  /-- Path entry. -/
  path : Nat := 0
  /-- Destination QPN. -/
  dest : Nat := 0
  /-- Last packet of the UD message whose item begins at this count. -/
  item : Option Nat := none
  deriving DecidableEq, Repr

/-- Data that the engine is writing to host memory (spec/15 R458, R463, R472). -/
structure StoPlace where
  /-- The engine's number of it. -/
  num : Nat
  /-- The entry of the message that these bytes end. -/
  entry : Option CqEntry := none
  /-- READ response bytes of the item that begins at this count. -/
  item : Option Nat := none
  /-- Bytes. -/
  bytes : Nat := 0
  /-- CID of a direct data placement. -/
  cid : Option Nat := none
  deriving DecidableEq, Repr

/-- A READ held as responder (spec/15 R451 max_dest_rd_m1, R460). -/
structure StoRead where
  /-- First response PSN. -/
  psn : Nat
  /-- Address. -/
  addr : Nat
  /-- Bytes. -/
  len : Nat
  /-- Response packets prepared. -/
  sent : Nat := 0
  /-- Addresses are translated. -/
  ats : Bool := false
  /-- PASID. -/
  pasid : Option Nat := none
  deriving DecidableEq, Repr

/-- A message that a responder is receiving (spec/15 R460, R463, R464). -/
structure StoRx where
  /-- 0 SEND, 2 WRITE. -/
  op : Nat
  /-- Bytes received. -/
  bytes : Nat := 0
  /-- Buffers taken: address and length. -/
  bufs : List (Nat × Nat) := []
  /-- Cookie of the first. -/
  cookie : Nat := 0
  /-- Count of the first. -/
  count : Nat := 0
  /-- WRITE: address of the next byte, bytes left, translation and PASID of its key. -/
  addr : Nat := 0
  /-- WRITE: bytes left. -/
  left : Nat := 0
  /-- WRITE: addresses are translated. -/
  ats : Bool := false
  /-- WRITE: PASID. -/
  pasid : Option Nat := none
  deriving DecidableEq, Repr

/-- A buffer recorded by DDP_SETUP (spec/15 R469). -/
structure DdpEntry where
  /-- CID. -/
  cid : Nat
  /-- Local list of the buffer. -/
  segs : List (Nat × Nat)
  /-- Reference tag of the first block. -/
  refTag : Nat
  /-- Wire offset of the block under way. -/
  blkAt : Nat := 0
  /-- Its bytes seen so far. -/
  blk : List Byte := []
  deriving DecidableEq, Repr

/-- A PDU that a tracker is inside of (spec/15 R468, R472). -/
structure PduSt where
  /-- Bytes of the PDU seen so far, up to its header length. -/
  hdr : List Byte := []
  /-- Bytes of the PDU passed so far. -/
  pos : Nat := 0
  /-- The data bytes seen and the digest bytes, for the digest check. -/
  data : List Byte := []
  /-- The CID whose buffer takes the data of the PDU. -/
  cid : Option Nat := none
  deriving DecidableEq, Repr

/-- A transport context (spec/15 R451): the fields of bytes 0x00-0x3F and the device working state. -/
structure Ctx where
  /-- 0x00 [1:0]. -/
  kind : CtxKind := .none
  /-- 0x00 [2]. -/
  valid : Bool := false
  /-- 0x00 [5:3]. -/
  state : CtxSt := .reset
  /-- 0x00 [31:20]. -/
  ownerGen : Nat := 0
  /-- 0x2C [17:16]. -/
  nvt : NvtSt := .track
  /-- Words 0-15 as CTX_WRITE gave them (software's bits). -/
  words : List Nat := []
  /-- Working state: next PSN to be given to a new packet. -/
  sPsn : Nat := 0
  /-- Working state: next PSN to send (behind sPsn while resending). -/
  sendAt : Nat := 0
  /-- Working state: oldest unacknowledged PSN. -/
  unack : Nat := 0
  /-- Working state: expected receive PSN e. -/
  ePsn : Nat := 0
  /-- Working state: messages of sq not yet completed, oldest first. -/
  msgs : List StoMsg := []
  /-- Working state: retries spent in a row. -/
  retries : Nat := 0
  /-- Working state: RNR retries spent in a row. -/
  rnrs : Nat := 0
  /-- Working state: tick at which the acknowledgement timer expires. -/
  ackEnd : Option Nat := none
  /-- Working state: tick at which a delayed ACK is due. -/
  delayEnd : Option Nat := none
  /-- Working state: tick at which an RNR wait ends. -/
  rnrEnd : Option Nat := none
  /-- Working state: a PSN Sequence Error NAK has been sent for e. -/
  nakSent : Bool := false
  /-- Working state: message under way as responder. -/
  rxMsg : Option StoRx := none
  /-- Working state: READs held as responder, oldest first. -/
  reads : List StoRead := []
  /-- Working state: packets prepared and not handed in, oldest first. -/
  outs : List StoOut := []
  /-- Working state: data being written to host memory, oldest first. -/
  placing : List StoPlace := []
  /-- Working state: next number of a packet or a placement. -/
  nextNum : Nat := 0
  /-- Working state: messages executed as responder (MSN of the AETH). -/
  msn : Nat := 0
  /-- Working state: rate Rc in Mb/s (R467). -/
  rc : Rat := 0
  /-- Working state: target rate Rt (R467). -/
  rt : Rat := 0
  /-- Working state: alpha (R467). -/
  alpha : Rat := 1
  /-- Working state: stage (R467). -/
  stage : Nat := 0
  /-- Working state: tick of the last alpha event. -/
  alphaAt : Nat := 0
  /-- Working state: tick of the last increase event or CNP. -/
  incrAt : Nat := 0
  /-- Working state: bytes sent since the last increase event. -/
  incrBytes : Nat := 0
  /-- Working state: tick from which Rc allows the next packet. -/
  nextSend : Rat := 0
  /-- Working state: tick of the last CNP sent. -/
  cnpAt : Option Nat := none
  /-- Working state: DDP entries, at most 256. -/
  ddp : List DdpEntry := []
  /-- Working state: expected TCP sequence. -/
  tcpSeq : Nat := 0
  /-- Working state: resync point. -/
  resync : Option Nat := none
  /-- Working state: the PDU under way. -/
  pdu : PduSt := {}
  deriving DecidableEq, Repr

/-- A memory key (spec/15 R462). -/
structure MemKey where
  /-- Region base. -/
  iova : Nat := 0
  /-- Region length. -/
  len : Nat := 0
  /-- Owner. -/
  owner : Nat := 0
  /-- Owner's generation at KEY_WRITE (R450). -/
  ownerGen : Nat := 0
  /-- valid. -/
  valid : Bool := false
  /-- rem_write. -/
  remWrite : Bool := false
  /-- rem_read. -/
  remRead : Bool := false
  /-- ats. -/
  ats : Bool := false
  /-- PASID, when pasid_en. -/
  pasid : Option Nat := none
  /-- variant. -/
  variant : Nat := 0
  /-- pd. -/
  pd : Nat := 0
  deriving DecidableEq, Repr

/-- A path entry (spec/15 R456). -/
structure PathEntry where
  /-- Words 0-15 as written. -/
  words : List Nat := []
  /-- Owner's generation at PATH_WRITE (R450). -/
  ownerGen : Nat := 0
  /-- valid. -/
  valid : Bool := false
  deriving DecidableEq, Repr

/-- The storage and transport engine (spec/15). -/
structure Sto where
  /-- by context 0-1,048,575; 15 R451; reset empty (04 R111: HBM contents cleared). Context store. -/
  ctxs : AMap Ctx := []
  /-- by key 0-2,097,151; 15 R462; reset empty. Memory keys. -/
  keys : AMap MemKey := []
  /-- by path 0-65,535; 15 R456; reset empty. Path entries. -/
  paths : AMap PathEntry := []
  /-- list of at most 16,384; 15 R448 STO_CACHE_STAT; reset empty. Cached contexts, least recently used first. -/
  cache : List Nat := []
  /-- five sets; 15 R482 STO_CMD_STAT; reset 0. -/
  sets : List CmdStat := [{}, {}, {}, {}, {}]
  deriving DecidableEq, Repr

end Sys2Proof.Machine
end

