-- ==== Sys2Proof/Machine/State.lean ====
section
/-! DEFINITION. The state of the block, plain data, with the queue of waiting commands, and the state
right after reset. -/

namespace Sys2Proof.Machine

/-- What stops the machine with a fault: nothing of this block does (spec/00 R2: no access raises an
error; every event the spec describes is an effect on the state). -/
inductive Fault where
  /-- Raised by no command; kept so that the type is inhabited.  Safe. -/
  | none
  deriving DecidableEq, Repr

/-- What the model refuses, by name. -/
inductive Refusal where
  /-- The dispatch table, for a command that has no meaning yet.  Safe: it stops. -/
  | notModelled (mnemonic : String)
  deriving DecidableEq, Repr

/-- The block's state. -/
structure State where
  /-- spec/03: supply, standby domain and pins. -/
  supply : Supply := {}
  /-- spec/03, spec/22: reference clocks. -/
  clocks : Clocks := {}
  /-- spec/02: the Pace Governor. -/
  pace : Pace := {}
  /-- spec/02: the time base. -/
  tsu : Tsu := {}
  /-- spec/04: readiness, resets and the boot loader. -/
  bring : BringUp := {}
  /-- spec/05: line lanes and frame MACs. -/
  line : LineSide := {}
  /-- spec/06: faces, links and functions. -/
  host : HostSide := {}
  /-- spec/06, spec/21: fuses. -/
  fuses : Fuses := {}
  /-- spec/06: block 0. -/
  glb : Global := {}
  /-- spec/07, spec/08: the queue manager. -/
  qmg : Qmg := {}
  /-- spec/09: the DMA engines. -/
  dma : Dma := {}
  /-- spec/10: instances, mailboxes and notices. -/
  ivm : Ivm := {}
  /-- spec/01, spec/12: admission slots and the rule engine. -/
  rules : Rules := {}
  /-- spec/13: forwarding and learning. -/
  fwd : Fwd := {}
  /-- spec/14: crypto and tunnels. -/
  cry : Crypto := {}
  /-- spec/15: storage and transport. -/
  sto : Sto := {}
  /-- spec/16: the packet buffer. -/
  buf : Buf := {}
  /-- by packet number; spec/01 R11, spec/16: every packet and copy in the device; reset empty. -/
  packets : AMap Packet := []
  /-- number; model's own: the next packet number; reset DESIGN CHOICE 1 (log 7). -/
  nextPkt : Nat := 1
  /-- spec/17: the scheduler. -/
  tms : Tms := {}
  /-- spec/18: the Keystone. -/
  ksc : Ksc := {}
  /-- spec/18: the Masons. -/
  xpe : Xpe := {}
  /-- spec/19: the Plumb. -/
  flt : Flt := {}
  /-- spec/19, spec/21: TAP and fusing. -/
  tap : Tap := {}
  /-- spec/20: the Quoin link and the stack. -/
  csc : Csc := {}
  /-- spec/21: courses in service. -/
  courses : Courses := {}
  /-- by PF BAR0 address of a word; spec/00 R6 and every register table: stored register words that
  differ from their reset value; reset empty. -/
  regs : AMap Nat := []
  /-- by PF BAR0 address; spec/19 R588 and every counter table: 48-bit counters; reset 0. -/
  counters : AMap Nat := []
  /-- number; model's own: open values drawn so far; reset DESIGN CHOICE 0 (log 12). -/
  freeCount : Nat := 0
  /-- list of (block, source), block 21 for the chip; model's own: resets that events have asked for and
  that the command carries out at its end; reset empty (log 2). -/
  due : List (Nat × Nat) := []
  /-- list; model's own: what the last command made the block send; reset empty (log 2). -/
  out : List Out := []
  /-- list; the queue of waiting commands, first in, first out; reset empty. -/
  pending : List Instr := []
  deriving DecidableEq, Repr

/-- The module before power: every register at its reset value, nothing powered (log 1). -/
def State.reset : State := {}

end Sys2Proof.Machine
end

