-- ==== Sys2Proof/Machine/Ops.lean ====
section
/-! DEFINITION. Shared operations: register words, counters, time, free values, what is sent, host
functions and their messages, mailbox events and notices, and the handling of an event by the Plumb. -/

namespace Sys2Proof.Machine

/-! ### Register words -/

/-- The stored word of an element of a register (spec/00 R6). -/
def State.word (s : State) (r : RegDef) (idx : List Nat) : Nat := mapGet (r.reset idx) s.regs (r.addr idx)

/-- The state with an element's stored word replaced. -/
def State.setWord (s : State) (r : RegDef) (idx : List Nat) (v : Nat) : State :=
  { s with regs := mapSet (r.reset idx) s.regs (r.addr idx) v }

/-- A field of a register word. -/
def State.fld (s : State) (r : RegDef) (idx : List Nat) (lo w : Nat) : Nat := bitsOf (s.word r idx) lo w

/-- A one-bit field of a register word. -/
def State.bit (s : State) (r : RegDef) (idx : List Nat) (i : Nat) : Bool := bitOf (s.word r idx) i

/-- The state with a field of a register word replaced. -/
def State.setFld (s : State) (r : RegDef) (idx : List Nat) (lo w x : Nat) : State :=
  s.setWord r idx (putBits (s.word r idx) lo w x)

/-- A 64-bit value held in two successive words (the last index counts words). -/
def State.dword (s : State) (r : RegDef) (idx : List Nat) (k : Nat) : Nat :=
  s.word r (idx ++ [k]) + 2 ^ 32 * s.word r (idx ++ [k + 1])

/-- The TSU tick count (spec/02 R56). -/
def State.now (s : State) : Nat := s.tsu.tick

/-- The main domain has passed its release point and is not held in reset (spec/04 R111, R112). -/
def State.released (s : State) : Bool := decide (s.bring.phase = .released)

/-- The readiness bit of a block (spec/04 R102). -/
def State.ready (s : State) (b : Nat) : Bool := bitOf s.bring.readySub b

/-- A block is in block reset (spec/04 R113). -/
def State.inReset (s : State) (b : Nat) : Bool := bitOf s.bring.blockReset b

/-- This module's ID, from STACK_ID (spec/06 R168). -/
def State.moduleId (s : State) : Nat := s.supply.stackId

/-- The state with one more thing sent. -/
def State.send (s : State) (o : Out) : State := { s with out := s.out ++ [o] }

/-- The next open value: its number, and the state with the count advanced (log 12). -/
def State.takeFree (s : State) : Nat × State := (s.freeCount, { s with freeCount := s.freeCount + 1 })

/-! ### Lists used as register files -/

/-- The element at `i`, or the default. -/
def nth {α : Type} [Inhabited α] (l : List α) (i : Nat) : α := l.getD i default

/-- The list with element `i` replaced, as far as it reaches. -/
def setNth {α : Type} (l : List α) (i : Nat) (v : α) : List α := l.set i v

/-- Bit `i` of `v` set or cleared. -/
def putBit (v i : Nat) (b : Bool) : Nat := putBits v i 1 (b2n b)

/-! ### Host faces, links, functions and instances -/

/-- Face n (spec/06 R154). -/
def State.face (s : State) (n : Nat) : Face := s.host.faces.getD n {}

/-- The state with face n replaced. -/
def State.setFace (s : State) (n : Nat) (f : Face) : State :=
  { s with host := { s.host with faces := setNth s.host.faces n f } }

/-- Link l of face n (spec/06 R154). -/
def State.link (s : State) (n l : Nat) : PciLink := mapGet {} s.host.links (2 * n + l)

/-- The state with a link replaced. -/
def State.setLink (s : State) (n l : Nat) (x : PciLink) : State :=
  { s with host := { s.host with links := mapSet {} s.host.links (2 * n + l) x } }

/-- The link is in DL_Active (spec/06 R186). -/
def PciLink.active (x : PciLink) : Bool := decide (x.state = .l0) || decide (x.state = .l1)

/-- A function by its key (spec/06 R158). -/
def State.fn (s : State) (k : Nat) : PciFn := mapGet {} s.host.fns k

/-- The state with a function replaced. -/
def State.setFn (s : State) (k : Nat) (f : PciFn) : State :=
  { s with host := { s.host with fns := mapSet {} s.host.fns k f } }

/-- The face whose applied range holds tenant instance `i` (spec/06 R162). -/
def State.tenantFace (s : State) (i : Nat) : Option Nat :=
  (List.range 4).find? (fun n => decide ((s.face n).firstInst ≤ i) && decide (i < (s.face n).firstInst + (s.face n).totalVfs))

/-- The face of an instance (spec/10 R313). -/
def State.instFace (s : State) (i : Nat) : Option Nat :=
  if i < 2048 then s.tenantFace i else if i < 2052 then some (i - 2048) else none

/-- The face of a function. -/
def State.fnFace (s : State) (k : Nat) : Option Nat :=
  if k < 2048 then s.tenantFace k else if k < 2052 then some (k - 2048)
  else if k < 2056 then some (k - 2052) else none

/-- The link of a function: only the companion is on link 1 (spec/06 R158). -/
def fnLink (k : Nat) : Nat := if k < 2052 then 0 else 1

/-- The instance of a function (spec/06 R165). -/
def fnInst (k : Nat) : Nat := if k < 2052 then k else k - 4

/-- The function under whose identity an instance's requests go out on a link (spec/06 R158). -/
def instFn (i link : Nat) : Nat := if i < 2048 then i else if link = 0 then i else i + 4

/-- Vectors of a function's MSI-X table (spec/06 R160). -/
def fnVectors (k : Nat) : Nat := if k < 2048 then 8 else 256

/-- The grant a manager holds at the release point (spec/10 R291). -/
def managerGrant (n : Nat) : Grant :=
  { txUnits := 4, txBase := 4 * n, rxUnits := 4, rxBase := 4 * n, cqUnits := 4, cqBase := 4 * n, hotSlots := 64 }

/-- An instance as it is at the release point (spec/10 R287, R291). -/
def instDefault (i : Nat) : Inst :=
  if 2048 ≤ i ∧ i < 2052 then { state := .started, prior := .started, grant := managerGrant (i - 2048) } else {}

/-- Instance i (spec/10 R287). -/
def State.inst (s : State) (i : Nat) : Inst := mapGet (instDefault i) s.ivm.insts i

/-- The state with an instance replaced. -/
def State.setInst (s : State) (i : Nat) (x : Inst) : State :=
  { s with ivm := { s.ivm with insts := mapSet (instDefault i) s.ivm.insts i x } }

/-- An instance in a reset sequence (spec/10 R295). -/
def Inst.resetting (x : Inst) : Bool := decide (x.state = .resetting) || decide (x.state = .removing)

/-- Work that names instance `i` with generation `g` is not stale (spec/01 R24, spec/10 R295). -/
def State.genOk (s : State) (i g : Nat) : Bool :=
  i = noInst || (!(s.inst i).resetting && decide ((s.inst i).gen = g))

/-- The routing ID of a function as captured (spec/19 R583, spec/06 R162). -/
def State.routingId (s : State) (k : Nat) : Nat :=
  if k < 2048 then
    match s.tenantFace k with
    | some n => ((s.fn (2048 + n)).bus * 256 + (s.fn (2048 + n)).dev * 8 + 1 + (k - (s.face n).firstInst)) % 65536
    | none => 0
  else (s.fn k).bus * 256 + (s.fn k).dev * 8

/-- The access a fault concerns: address, master identity and access type (spec/19 R582, R583). -/
structure Acc where
  /-- Address. -/
  addr : Nat := 0
  /-- 21-bit master identity. -/
  master : Nat := 0
  /-- 0 none, 1 read, 2 write, 3 instruction fetch. -/
  access : Nat := 0
  deriving DecidableEq, Repr

/-- A master identity word (spec/19 R583). -/
def masterWord (kind id face : Nat) : Nat := id % 65536 + kind * 65536 + face * 2 ^ 19

/-- The identity of a PCIe function (spec/19 R583). -/
def State.fnMaster (s : State) (k : Nat) : Nat := masterWord 1 (s.routingId k) ((s.fnFace k).getD 0)

/-- The identity of the master of a register access (spec/19 R583). -/
def State.masterId (s : State) : Master → Nat
  | .pf f => s.fnMaster (2048 + f)
  | .vf i => s.fnMaster i
  | .fw c _ => masterWord 2 c 0

/-! ### MSI-X messages and power management events -/

/-- A PME condition of a function (spec/06 R185): PM_PME on a link in L0 or L1, WAKE_N in L2 or while
PERST_N is low, held otherwise; nothing while PME_Status is 1. -/
def State.pme (s : State) (k : Nat) : State :=
  match s.fnFace k with
  | none => s
  | some n =>
    let f := s.fn k
    let l := s.link n (fnLink k)
    if !f.pmeEn || f.pmeStatus || !(f.d3hot || (s.face n).inReset || (s.face n).d3cold) then s
    else if l.active then
      (s.setFn k { f with pmeStatus := true, pmeResendAt := some (s.now + 100000000) }).send
        (.pcie n (fnLink k) (.pmPme k))
    else if l.state = .l2 || (s.face n).inReset then
      { (s.setFn k { f with pmeStatus := true, pmeHeld := true }) with
        supply := { s.supply with wakeN := setNth s.supply.wakeN n true } }
    else s.setFn k { f with pmeStatus := true, pmeHeld := true }

/-- A vector's message can be sent now (spec/08 R249). -/
def State.vectorOpen (s : State) (k vec : Nat) : Bool :=
  match s.fnFace k with
  | none => false
  | some n =>
    let f := s.fn k
    !f.d3hot && f.bme && f.msixEn && !f.msixMask && !(mapGet {} f.msix vec).masked
      && (s.link n (fnLink k)).active && !(s.face n).inReset

/-- The state with a vector's pending bit set or cleared. -/
def State.setPba (s : State) (k vec : Nat) (b : Bool) : State :=
  s.setFn k { s.fn k with msix := mapUpd {} (s.fn k).msix vec (fun v => { v with pending := b, byRing := v.byRing && b }) }

/-- Send the message of a vector: a 4-byte memory write (spec/06 R160). -/
def State.sendVector (s : State) (k vec : Nat) : State :=
  let v := mapGet {} (s.fn k).msix vec
  (s.setPba k vec false).send (.hostWrite ((s.fnFace k).getD 0) (fnLink k) k v.addr (toLe 4 v.data) {})

/-- An interrupt on a vector of a function (spec/08 R249, spec/10 R305): sent, or its pending bit set;
outside D0 it is a wake condition. -/
def State.fire (s : State) (k vec : Nat) : State :=
  if fnVectors k ≤ vec then s
  else if s.vectorOpen k vec then s.sendVector k vec
  else (s.setPba k vec true).pme k

/-! ### Mailbox channels and notices -/

/-- Mailbox channel c (spec/10 R300). -/
def State.chan (s : State) (c : Nat) : Channel := mapGet {} s.ivm.chans c

/-- The state with a channel replaced. -/
def State.setChan (s : State) (c : Nat) (x : Channel) : State :=
  { s with ivm := { s.ivm with chans := mapSet {} s.ivm.chans c x } }

/-- The binding of a channel's ends, 0 at both where the pair is not permitted (spec/10 R307). -/
def State.binding (s : State) (c : Nat) : Nat × Nat :=
  if c < 2052 then
    let a := s.fld Reg.ivmMbxBind [c] 0 3
    let b := s.fld Reg.ivmMbxBind [c] 4 3
    if a = 1 && (if c < 2048 then b = 2 || b = 3 else b = 3 || b = 4 || b = 5) then (a, b) else (0, 0)
  else
    let a := s.ivm.quoinEndA.getD (c - 2052) 0
    if a = 3 then (3, 6) else if a = 6 then (6, 3) else (0, 0)

/-- The binding value of one end. -/
def State.endVal (s : State) (c : Nat) (endB : Bool) : Nat := if endB then (s.binding c).2 else (s.binding c).1

/-- One end's own copy (spec/10 R301). -/
def Channel.fin (x : Channel) (endB : Bool) : MbxEnd := if endB then x.b else x.a

/-- The channel with one end's copy replaced. -/
def Channel.setFin (x : Channel) (endB : Bool) (e : MbxEnd) : Channel :=
  if endB then { x with b := e } else { x with a := e }

/-- The function at an end, for a function end (spec/10 R307). -/
def State.endFn (s : State) (c : Nat) (endB : Bool) : Option Nat :=
  match s.endVal c endB with
  | 1 => some c
  | 2 => (s.tenantFace c).map (2048 + ·)
  | _ => none

/-- The active Keystone can take an event (spec/10 R303). -/
def State.keystoneUp (s : State) : Bool := s.ksc.held && !s.ksc.takeover && s.ready 18

/-- A complex runs (spec/18 R546). -/
def State.complexRuns (s : State) (x : Nat) : Bool :=
  let st := (s.ksc.cplx.getD x {}).state
  decide (st = .active) || decide (st = .sync)

/-- The Quoin link of a Quoin channel is up (spec/20 R605). -/
def State.quoinUp (s : State) (p : Nat) : Bool := decide ((s.csc.ports.getD p {}).state = .up)

/-- An end of a channel cannot take an event now: what peer_busy shows the other end, and the condition
under which an event is held (spec/10 R303). -/
def State.endBusy (s : State) (c : Nat) (endB : Bool) : Bool :=
  match s.endVal c endB with
  | 3 => !s.keystoneUp
  | 4 => !s.complexRuns 0
  | 5 => !s.complexRuns 1
  | 6 => !s.quoinUp (c - 2052)
  | _ =>
    match s.endFn c endB with
    | none => false
    | some k => (s.fn k).d3hot || !(s.fn k).bme || decide ((s.inst (fnInst k)).state = .resetting)

/-- The state with an end's held mark set. -/
def State.holdEvent (s : State) (c : Nat) (endB h : Bool) : State :=
  s.setChan c ((s.chan c).setFin endB { (s.chan c).fin endB with held := h })

/-- Start the power-up of a named complex's domain (spec/10 R303). -/
def State.powerUpComplex (s : State) (x : Nat) : State :=
  let c := s.ksc.cplx.getD x {}
  if c.state = .off then { s with ksc := { s.ksc with cplx := setNth s.ksc.cplx x { c with state := .starting } } }
  else s

/-- An event at one end of a channel (spec/10 R303, R305, spec/18 R561). -/
def State.mbxEvent (s : State) (c : Nat) (endB : Bool) : State :=
  match s.endVal c endB with
  | 3 => if s.keystoneUp then (s.holdEvent c endB false).send (.ksMailbox s.ksc.active) else s.holdEvent c endB true
  | 4 =>
    if s.complexRuns 0 then (s.holdEvent c endB false).send (.ksMailbox 0)
    else (s.holdEvent c endB true).powerUpComplex 0
  | 5 =>
    if s.complexRuns 1 then (s.holdEvent c endB false).send (.ksMailbox 1)
    else (s.holdEvent c endB true).powerUpComplex 1
  | 6 => if s.quoinUp (c - 2052) then s.holdEvent c endB false else s.holdEvent c endB true
  | _ =>
    match s.endFn c endB with
    | none => s
    | some k =>
      if (s.inst (fnInst k)).state = .resetting then s.holdEvent c endB true
      else
        let e := (s.chan c).fin endB
        if e.en then (s.holdEvent c endB false).fire k e.vector else s.holdEvent c endB false

/-- The notify action of end B: end A's notice and its event, merged while notice is 1 (spec/10 R302, R306). -/
def State.mbxNotify (s : State) (c : Nat) : State :=
  let x := s.chan c
  if x.a.notice then s else (s.setChan c { x with a := { x.a with notice := true } }).mbxEvent c false

/-- A notice held for end A of a channel: kept while fewer than 1,024 are held, counted as lost
otherwise, and flagged by notify once firmware runs (spec/10 R311). -/
def State.postNotice (s : State) (c : Nat) (n : Notice) : State :=
  let h := mapGet {} s.ivm.notices c
  let h' : Notices := if h.list.length < 1024 then { h with list := h.list ++ [n] } else { h with lost := h.lost + 1 }
  let t := { s with ivm := { s.ivm with notices := mapSet {} s.ivm.notices c h' } }
  if c < 2048 || t.keystoneUp then t.mbxNotify c else t

/-! ### Events and counters -/

/-- The block that owns a source (spec/19 R576). -/
def srcBlock (src : Nat) : Nat :=
  if src < 16 then 0 else if src < 32 then 1 else if src < 48 then 2 else if src < 64 then 3
  else if src < 96 then 4 else if src < 128 then 5 else if src < 160 then 6 else if src < 176 then 7
  else if src < 192 then 8 else if src < 224 then 9 else if src < 256 then 10 else if src < 272 then 11
  else if src < 288 then 12 else if src < 320 then 13 else if src < 352 then 14 else if src < 384 then 15
  else if src < 416 then 16 else if src < 448 then 17 else if src < 480 then 18 else if src < 512 then 19 else 20

/-- The base source of a block (spec/19 R576). -/
def blockSrc (b : Nat) : Nat :=
  ix [0, 16, 32, 48, 64, 96, 128, 160, 176, 192, 224, 256, 272, 288, 320, 352, 384, 416, 448, 480, 512] b

/-- A block whose block reset is a chip reset (spec/19 R580, spec/04 R113). -/
def chipBlock (b : Nat) : Bool := b = 0 || b = 1 || b = 15 || b = 16 || b = 19

/-- Add to a 48-bit counter; the flag says that bit 47 turned from 0 to 1 (spec/19 R588). -/
def State.addCount (s : State) (a n : Nat) : State × Bool :=
  let old := mapGet 0 s.counters a
  let new := (old + n) % 2 ^ 48
  ({ s with counters := mapSet 0 s.counters a new }, decide (old < 2 ^ 47) && decide (2 ^ 47 ≤ new))

/-- The port bits that a half-range turn of a line counter sets (spec/05 R141, R149, R153). -/
def State.halfMark (s : State) (a : Nat) : State :=
  let b := a / 0x200000
  let o := a % 0x200000
  if b = 3 && 0x100000 ≤ o then
    { s with line := { s.line with macHalf := putBit s.line.macHalf ((o - 0x100000) / 0x800) true } }
  else if b = 2 && 0x1000 ≤ o && o < 0x2000 then
    { s with line := { s.line with lsdHalf := putBit s.line.lsdHalf ((o - 0x1000) / 0x40) true } }
  else s

/-- Count in a counter at a PF BAR0 address; `r` raises a source with a detail (spec/19 R588). -/
def State.countWith (r : State → Nat → Nat → State) (s : State) (a n : Nat) : State :=
  let p := s.addCount a n
  if p.2 then r (p.1.halfMark a) (blockSrc (a / 0x200000) + 2) (a % 0x200000) else p.1

/-- Address of FLT counter k (spec/19 R595). -/
def fltCounter (k : Nat) : Nat := blockBase 19 + 0x20000 + 8 * k

/-- Deliver an interrupt or a trap to the lease holder, or let it wait (spec/19 R585); `cnt` counts a
delivered trap. -/
def State.toKeystone (cnt : State → Nat → State) (s : State) (src : Nat) (trap : Bool) : State :=
  if s.ksc.held then
    if trap then (cnt s (fltCounter 4)).send (.ksTrap src) else s.send (.ksInterrupt src)
  else if trap || !s.flt.waiting.contains (src, false) then
    { s with flt := { s.flt with waiting := s.flt.waiting ++ [(src, trap)] } }
  else s

/-- The primary manager's message (spec/19 R585): held while the primary face is in reset. -/
def State.toManager (s : State) : State :=
  if (s.face s.glb.primary).inReset then { s with flt := { s.flt with mgrHeld := true } }
  else s.fire (2048 + s.glb.primary) (s.fld Reg.fltMgrCfg [] 0 8)

/-- Push into a block's history (spec/19 R584). -/
def State.pushHistory (s : State) (src lvl : Nat) (escalated : Bool) (detail : Nat) : State :=
  let b := srcBlock src
  let h := mapGet {} s.flt.hist b
  let e : HistEntry :=
    { src, cls := Reg.srcClass src, level := lvl, escalated, seq := (h.pushes + 1) % 65536, detail := detail % 2 ^ 32
      tick := s.now }
  { s with flt := { s.flt with
      hist := mapSet {} s.flt.hist b
        { pushes := h.pushes + 1, entries := mapSet none h.entries (h.pushes % 8) (some e) } } }

/-- The notice of an event to the manager of a face that is not the primary one (spec/19 R586). -/
def State.faultNotice (s : State) (src : Nat) (who : Option Nat) : State :=
  match who.bind (fun i => (s.instFace i).map (fun n => (i, n))) with
  | some (i, n) => if n = s.glb.primary then s else s.postNotice (2048 + n) { kind := 0x40, inst := i, data := src }
  | none => s

/-- The level applied to an event of a source (spec/19 R581, R587). -/
def State.eventLevel (s : State) (src : Nat) : Nat :=
  let k := Reg.srcClass src
  let c := s.flt.caps.getD k {}
  let lvl := s.fld Reg.fltSrcCfg [src] 0 3
  if k = 0 then lvl else min (lvl + (if c.valid then c.count else 0)) 5

/-- The first-error capture after an event (spec/19 R581, R582). -/
def State.captureAfter (s : State) (src detail : Nat) (acc : Acc) : Capture :=
  let c := s.flt.caps.getD (Reg.srcClass src) {}
  let c' : Capture :=
    if c.valid then c
    else { valid := true, src := src, level := s.eventLevel src, count := 0, addr := acc.addr, master := acc.master
           access := acc.access, tick := s.now, detail := detail % 2 ^ 32 }
  if c'.count < 7 then { c' with count := c'.count + 1 } else c'

/-- The capture and the pending bit of an event (spec/19 R581, R582). -/
def State.noteEvent (s : State) (src detail : Nat) (acc : Acc) : State :=
  { s with flt := { s.flt with
    caps := setNth s.flt.caps (Reg.srcClass src) (s.captureAfter src detail acc)
    pend := mapUpd 0 s.flt.pend (src / 32) (fun w => putBit w (src % 32) true) } }

/-- Counting an event, and its escalation. -/
def State.countEvent (cnt : State → Nat → State) (s : State) (esc : Bool) : State :=
  let s := cnt s (fltCounter 0)
  if esc then cnt s (fltCounter 1) else s

/-- Who is told of an event at a level (spec/19 R585): `was` says that it was pending before. -/
def State.tellEvent (cnt : State → Nat → State) (s : State) (src lvl : Nat) (was : Bool) : State :=
  let s := if s.bit Reg.fltSrcCfg [src] 3 then s.toKeystone cnt src false else s
  let s := if s.bit Reg.fltSrcCfg [src] 4 && !was && s.bit Reg.fltMgrCfg [] 8 then s.toManager else s
  if 2 ≤ lvl then s.toKeystone cnt src true else s

/-- What an event of a level asks for: the error pin and the resets (spec/19 R580, R585). -/
def State.askEvent (s : State) (src lvl : Nat) : State :=
  let s := if 4 ≤ lvl then { s with flt := { s.flt with errpin := true, errSrc := src } } else s
  let b := srcBlock src
  let s := if 3 ≤ lvl then { s with due := s.due ++ [(if chipBlock b then 21 else b, src)] } else s
  if 5 ≤ lvl then { s with due := s.due ++ [(21, src)] } else s

/-- Record an event and react to it (spec/19 R580, R581, R585, R586); `fuel` bounds the half-range
events of the Plumb's own counters. -/
def State.raiseF : Nat → State → Nat → Nat → Option Nat → Acc → State
  | 0, s, _, _, _, _ => s
  | fuel + 1, s, src, detail, who, acc =>
    if !s.released then s
    else
      let cnt := fun (t : State) (a : Nat) => t.countWith (fun u x d => State.raiseF fuel u x d none {}) a 1
      let lvl := s.eventLevel src
      let esc := decide (lvl ≠ s.fld Reg.fltSrcCfg [src] 0 3)
      let was := bitOf (mapGet 0 s.flt.pend (src / 32)) (src % 32)
      let t := (State.countEvent cnt (s.noteEvent src detail acc) esc).pushHistory src lvl esc detail
      ((State.tellEvent cnt t src lvl was).askEvent src lvl).faultNotice src who

/-- Raise an event (spec/19 R581): `who` is the instance its detail names or belongs to, `acc` the access it
concerns. -/
def State.raise (s : State) (src detail : Nat) (who : Option Nat := none) (acc : Acc := {}) : State :=
  s.raiseF 4 src detail who acc

/-- Count `n` in the counter at a PF BAR0 address (spec/19 R588). -/
def State.count (s : State) (a n : Nat) : State := s.countWith (fun t x d => t.raise x d) a n

/-- Deliver what waits for the holder, at a grant: traps in the order raised (spec/19 R585, spec/18 R555), held
mailbox events of the active Keystone (spec/10 R303), and the flags of notices held (spec/10 R311). -/
def State.deliverWaiting (s : State) : State :=
  let w := s.flt.waiting
  let s := { s with flt := { s.flt with waiting := [] } }
  let s := w.foldl (fun t p => t.toKeystone (fun u a => u.count a 1) p.1 p.2) s
  let s := s.ivm.chans.foldl (fun t p =>
    let t := if (t.chan p.1).a.held && t.endVal p.1 false = 3 then t.mbxEvent p.1 false else t
    if (t.chan p.1).b.held && t.endVal p.1 true = 3 then t.mbxEvent p.1 true else t) s
  s.ivm.notices.foldl (fun t p => if p.2.list ≠ [] && 2048 ≤ p.1 then t.mbxNotify p.1 else t) s

end Sys2Proof.Machine
end

