-- ==== Sys2Proof/Machine/Flags.lean ====
section
/-! DEFINITION. Flags, reasons, checksums and CRCs: every flag of a Mark that a unit sets, and the check
values the frame formats use (spec/01 R18-R22, spec/11 R326, R334, spec/14 R412, R416, spec/15 R472, R475). -/

namespace Sys2Proof.Machine

/-! ### Reasons (spec/01 R19, R20 and the owning chapters) -/

namespace Reason
def staleGen : Nat := 0x01
def aged : Nat := 0x02
def markVersion : Nat := 0x03
def recircLimit : Nat := 0x22
def fwdBadDest : Nat := 0x44
def fwdDropEntry : Nat := 0x41
def bufIngressFull : Nat := 0x80
def bufEgressFull : Nat := 0x81
def bufHeadroom : Nat := 0x82
def bufWaitExpired : Nat := 0x83
def bufSpillFull : Nat := 0x84
def bufHrxHold : Nat := 0x85
def bufPortDown : Nat := 0x86
def bufSpillError : Nat := 0x87
end Reason

/-- Set drop after the rule engine: only the first unit writes reason (spec/01 R21). -/
def Mark.dropLate (m : Mark) (r : Nat) : Mark :=
  if m.flags.drop then m else { m with flags := { m.flags with drop := true }, reason := r }

/-- Write inst with an instance's number and its current generation (spec/01 R23). -/
def State.writeInst (s : State) (m : Mark) (i : Nat) : Mark :=
  if i = noInst then { m with inst := noInst, gen := 0 } else { m with inst := i, gen := (s.inst i).gen }

/-! ### Checksums -/

/-- The sum of 16-bit words in wire order; an odd last byte is padded with 0. -/
def sum16 : List Byte → Nat
  | [] => 0
  | [a] => a.toNat * 256
  | a :: b :: r => a.toNat * 256 + b.toNat + sum16 r

/-- A sum folded to 16 bits with end-around carry. -/
def fold16 (v : Nat) : Nat :=
  let a := v % 65536 + v / 65536
  let b := a % 65536 + a / 65536
  b % 65536 + b / 65536

/-- The Internet checksum of bytes added to a start sum. -/
def inetChecksum (start : Nat) (bs : List Byte) : Nat := 65535 - fold16 (start + sum16 bs)

/-- The update of a checksum when a 16-bit word changes from `a` to `b` (RFC 1624). -/
def checksumUpdate (c a b : Nat) : Nat := 65535 - fold16 ((65535 - c % 65536) + (65535 - a % 65536) + b % 65536)

/-- One bit of a reflected CRC. -/
def crcBit (poly : Nat) (c : Nat) : Nat := if c % 2 = 1 then Nat.xor (c / 2) poly else c / 2

/-- One byte of a reflected CRC. -/
def crcByte (poly : Nat) (c : Nat) (b : Byte) : Nat :=
  let x := Nat.xor c b.toNat
  crcBit poly (crcBit poly (crcBit poly (crcBit poly (crcBit poly (crcBit poly (crcBit poly (crcBit poly x)))))))

/-- A reflected 32-bit CRC over bytes from a register value. -/
def crcRun (poly : Nat) (c : Nat) (bs : List Byte) : Nat := bs.foldl (crcByte poly) c

/-- CRC-32 of IEEE 802.3. -/
def crc32 (bs : List Byte) : Nat := Nat.xor (crcRun 0xEDB88320 0xFFFFFFFF bs) 0xFFFFFFFF

/-- CRC-32C from a seed, without a final complement. -/
def crc32cRaw (seed : Nat) (bs : List Byte) : Nat := crcRun 0x82F63B78 seed bs

/-- CRC-32C. -/
def crc32c (bs : List Byte) : Nat := Nat.xor (crc32cRaw 0xFFFFFFFF bs) 0xFFFFFFFF

/-- One bit of the T10 DIF CRC-16. -/
def crc16Bit (c : Nat) : Nat := if 32768 ≤ c then Nat.xor (c * 2 % 65536) 0x8BB7 else c * 2 % 65536

/-- The CRC-16 of T10 DIF, polynomial 0x8BB7, start 0 (spec/15 R475). -/
def crcT10 (bs : List Byte) : Nat :=
  bs.foldl (fun c b =>
    let x := Nat.xor c (b.toNat * 256)
    crc16Bit (crc16Bit (crc16Bit (crc16Bit (crc16Bit (crc16Bit (crc16Bit (crc16Bit x)))))))) 0

end Sys2Proof.Machine
end

