-- ==== Sys2Proof/Machine/Operands.lean ====
section
/-! DEFINITION. Register accesses: who may write, what a write meets on its way (spec/00 R6-R9, spec/04
R99, spec/06 R166, R169, R170, spec/18 R550, R551, R553), how a word is stored, and bytes in the HBM. -/

namespace Sys2Proof.Machine

/-- A memory as bytes: an unlisted address reads 0 (log 15). -/
def memRead (m : Mem) (a : Nat) : Byte := mapGet 0 m a

/-- The memory with one byte written. -/
def memWrite (m : Mem) (a : Nat) (b : Byte) : Mem := mapSet 0 m a b

/-- The memory with successive bytes written. -/
def memWriteBytes (m : Mem) : Nat → List Byte → Mem
  | _, [] => m
  | a, b :: bs => memWriteBytes (memWrite m a b) (a + 1) bs

/-- `n` successive bytes. -/
def memReadBytes (m : Mem) (a n : Nat) : List Byte := (List.range n).map (fun i => memRead m (a + i))

/-- The block that a PF BAR0 offset lies in, if any (spec/00 R1, R2). -/
def addrBlock (a : Nat) : Option Nat := if a / 0x200000 ≤ 20 then some (a / 0x200000) else none

/-- The mailbox channel blocks, which the binding table governs instead (spec/10 R300). -/
def inMailboxBlocks (a : Nat) : Bool := decide (blockBase 7 + 0x100000 ≤ a) && decide (a < blockBase 7 + 0x181400)

/-- A memory request to a BAR of the PF or the companion of a face is taken (spec/06 R166). -/
def State.fnReachable (s : State) (k : Nat) : Bool :=
  match s.fnFace k with
  | none => false
  | some n =>
    bitOf s.bring.readyFace n && (s.link n (fnLink k)).active && !(s.fn k).d3hot
      && (if k < 2048 then
            (s.fn (2048 + n)).vfEnable && (s.fn (2048 + n)).vfMse
              && decide (k < (s.face n).firstInst + (s.fn (2048 + n)).numVfs)
          else (s.fn k).mse)

/-- A register write has an effect, or is ignored. -/
abbrev Eff := State → State × Bool

/-- An effect that is never ignored. -/
def eff (f : State → State) : Eff := fun s => (f s, true)

/-- A write that is ignored. -/
def noEff : Eff := fun s => (s, false)

/-- Journal entry k as its 16 bytes (spec/18 R553). -/
def journalEntry (off bytes data epoch j : Nat) : List Byte :=
  let wide := bytes = 8
  let redacted := blockBase 12 + 0x5000 ≤ off && off < blockBase 12 + 0x5500 && 0x80 ≤ (off - blockBase 12 - 0x5000) % 0x100
  let d := if redacted then 0 else data
  toLe 4 (off % 2 ^ 26 + b2n wide * 2 ^ 26 + b2n redacted * 2 ^ 27) ++ toLe 4 d
    ++ toLe 4 (if wide then d / 2 ^ 32 else 0) ++ toLe 4 (epoch % 65536 + j % 65536 * 65536)

/-- The write is journalled: it lies in register space outside the KSC registers and the mailbox channel
blocks (spec/18 R553). -/
def journalled (off : Nat) : Bool := !(off / 0x200000 = 18) && !inMailboxBlocks off

/-- Journal one write that takes effect (spec/18 R553). -/
def State.journal (s : State) (off bytes data epoch : Nat) : State :=
  let j := s.ksc.j
  let s := { s with ksc := { s.ksc with
    hbm := memWriteBytes s.ksc.hbm (0x84000000 + 16 * (j % 262144)) (journalEntry off bytes data epoch j)
    j := (j + 1) % 2 ^ 48 } }
  if s.ksc.j = s.ksc.ckptJpos + 49152 then s.raise 456 0 else s

/-- A stale write: refused, counted, the first one logged (spec/18 R550, R562, R563). -/
def State.staleWrite (s : State) (cplx epoch off : Nat) : State :=
  let s :=
    if s.ksc.stale.valid then s
    else { s with ksc := { s.ksc with
      stale := { valid := true, off := off % 2 ^ 26, noLease := !s.ksc.held, epoch := epoch % 65536, cplx := cplx } } }
  (s.count (blockBase 18 + 0x100 + 8 * 2) 1).raise 452 cplx none
    { addr := off, master := masterWord 2 cplx 0, access := 2 }

/-- An access to a block whose readiness bit is 0 (spec/04 R99); block 0 records no bit. -/
def State.earlyAccess (s : State) (b : Nat) : State :=
  if b = 0 then s else { s with bring := { s.bring with earlyAccess := putBit s.bring.earlyAccess b true } }

/-- A write through a face's PF BAR0 that its permissions refuse (spec/06 R170). -/
def State.writeDenied (s : State) (f off : Nat) : State :=
  ({ s with glb := { s.glb with wrDenied := putBit s.glb.wrDenied f true } }).raise 71 f (some (2048 + f))
    { addr := off, master := s.fnMaster (2048 + f), access := 2 }

/-- The complex holds the lease with the stamped epoch (spec/18 R550). -/
def State.freshEpoch (s : State) (epoch : Nat) : Bool := s.ksc.held && decide (epoch = s.ksc.epoch)

/-- An aligned 32-bit or 64-bit register write at a PF BAR0 offset by a manager or by firmware: the checks of
readiness, face permission and epoch, the journal, then the effect.  A tenant reaches no register here.  Firmware
reaches XPE and KSC before their readiness bits rise, since its own writes raise them (spec/18 R555, R572; log 24). -/
def State.access (s : State) (m : Master) (off bytes data : Nat) (e : Eff) (exempt : Bool := false) : State :=
  match addrBlock off with
  | none => s
  | some b =>
    match m with
    | .vf _ => s
    | .pf f =>
      if !s.fnReachable (2048 + f) then s
      else if !s.ready b then s.earlyAccess b
      else if !inMailboxBlocks off && !bitOf (s.glb.faceWr.getD f 0) b then s.writeDenied f off
      else (e s).1
    | .fw c ep =>
      if !exempt && !s.freshEpoch ep then s.staleWrite c ep off
      else if !s.released then s
      else if !s.ready b && b ≠ 17 && b ≠ 18 then s.earlyAccess b
      else
        let r := e s
        if !journalled off || !r.2 then r.1
        else if s.ksc.jrnlWait ≠ [] || s.ksc.ckptJpos + 65536 ≤ s.ksc.j then
          let w : JrnlWait := { off, wide := bytes = 8, data, epoch := ep, cplx := c }
          ({ s with ksc := { s.ksc with jrnlWait := s.ksc.jrnlWait ++ [w] } }).count (blockBase 18 + 0x100 + 8 * 6) 1
        else r.1.journal off bytes data ep

/-- The lease holder's firmware is the master. -/
def Master.isFw : Master → Bool
  | .fw _ _ => true
  | _ => false

/-- An instance is on the master's face (spec/06 R170); firmware is bound to none. -/
def State.onFace (s : State) (m : Master) (i : Nat) : Bool :=
  match m with
  | .fw _ _ => true
  | .pf f => decide (s.instFace i = some f)
  | .vf j => decide (i = j)

/-- A write to a locked RWL field (spec/06 R169): the violation bit, and its event when it sets. -/
def State.lockViolation (s : State) (b off : Nat) (acc : Acc) : State :=
  if bitOf s.glb.lockViol b then s
  else ({ s with glb := { s.glb with lockViol := putBit s.glb.lockViol b true } }).raise 7 b none
    { acc with addr := off, access := 2 }

/-- The word after a write of `data` to the fields that are open (spec/00 R6). -/
def storeFields (locked : Bool) (old data : Nat) (fs : List FieldDef) : Nat :=
  fs.foldl (fun w f =>
    if f.lock && locked then w
    else
      let v := bitsOf data f.lo f.w
      putBits w f.lo f.w (if f.w1s then Nat.lor (bitsOf old f.lo f.w) v else f.store.apply v)) old

/-- Write a stored register (spec/00 R6, R8, spec/06 R169): locked RWL fields keep their value and the violation
is recorded; a firmware-only register ignores every other master. -/
def State.writeReg (m : Master) (r : RegDef) (idx : List Nat) (data : Nat) : Eff := fun s =>
  if r.fw && !m.isFw then (s, false)
  else if !r.valid idx || r.fields = [] then (s, false)
  else
    let locked := bitOf s.glb.lock r.block
    let s' := s.setWord r idx (storeFields locked (s.word r idx) data r.fields)
    if locked && r.fields.any (fun f => f.lock) then
      (s'.lockViolation r.block (r.addr idx) { master := s.masterId m }, r.fields.any (fun f => !f.lock))
    else (s', true)

end Sys2Proof.Machine
end

