-- ==== Sys2Proof/Machine/PacketOps.lean ====
section
/-! DEFINITION. Packets: admission slots (spec/01 R28), the cells of the packet buffer and their accounting
(spec/16 R484-R498), and the ways a packet leaves. -/

namespace Sys2Proof.Machine

/-! ### Packets -/

/-- The packet of that number. -/
def State.pkt (s : State) (p : Nat) : Option Packet := mapFind s.packets p

/-- The state with a packet replaced. -/
def State.setPkt (s : State) (p : Nat) (x : Packet) : State := { s with packets := mapPut s.packets p x }

/-- The state with a packet's Mark replaced. -/
def State.setMark (s : State) (p : Nat) (x : Packet) (m : Mark) : State := s.setPkt p { x with mark := m }

/-- Apply `f` to a packet that stands at `st`; nothing happens otherwise. -/
def State.onPkt (s : State) (p : Nat) (st : Stage) (f : Packet → State) : State :=
  match s.pkt p with
  | none => s
  | some x => if x.stage = st then f x else s

/-- A new packet under the next packet number (spec/01 R11). -/
def State.newPkt (s : State) (x : Packet) : Nat × State :=
  (s.nextPkt, { (s.setPkt s.nextPkt { x with orig := if x.copy then x.orig else s.nextPkt }) with
    nextPkt := s.nextPkt + 1 })

/-- The packets that share a packet's cells, itself apart (spec/16 R484). -/
def State.family (s : State) (p : Nat) (x : Packet) : List (Nat × Packet) :=
  s.packets.filter (fun q => decide (q.2.orig = x.orig) && decide (q.1 ≠ p))

/-! ### Admission slots (spec/01 R28-R31) -/

/-- The slots of a course and an entry activity. -/
def State.slots (s : State) (c : Nat) (a : Act) : Slots := s.rules.slots.getD (c * 8 + a.val) {}

/-- The state with the slots replaced. -/
def State.setSlots (s : State) (c : Nat) (a : Act) (x : Slots) : State :=
  { s with rules := { s.rules with slots := setNth s.rules.slots (c * 8 + a.val) x } }

/-- Slots of a course not granted as reserves (spec/01 R28 item 2). -/
def State.sharedSlots (s : State) (c : Nat) : Nat :=
  256 - ((List.range 8).map (fun a => (s.rules.slots.getD (c * 8 + a) {}).granted)).sum

/-- Shared slots of a course in use. -/
def State.sharedSlotsUsed (s : State) (c : Nat) : Nat :=
  ((List.range 8).map (fun a =>
    let x := s.rules.slots.getD (c * 8 + a) ({} : Slots)
    x.inUse - x.granted)).sum

/-- The effective cap of an activity (spec/01 R28 items 3 and 4). -/
def State.slotCap (s : State) (c : Nat) (a : Act) : Nat :=
  let cap := s.fld Reg.prsAdmitSlots [c, a.val] 16 9
  max (if cap = 0 then 1 else cap) (s.slots c a).granted

/-- A slot can be taken now (spec/01 R28). -/
def State.slotFree (s : State) (c : Nat) (a : Act) : Bool :=
  let x := s.slots c a
  decide (x.inUse < x.granted)
    || (decide (x.inUse < s.slotCap c a) && decide (s.sharedSlotsUsed c < s.sharedSlots c))

/-- Take or give back one slot. -/
def State.takeSlot (s : State) (c : Nat) (a : Act) : State :=
  s.setSlots c a { s.slots c a with inUse := (s.slots c a).inUse + 1 }

/-- Give back one slot. -/
def State.giveSlot (s : State) (c : Nat) (a : Act) : State :=
  s.setSlots c a { s.slots c a with inUse := (s.slots c a).inUse - 1 }

/-- Allocate a course's reserves in activity order (spec/01 R28 item 1). -/
def State.allocateSlots (s : State) (c : Nat) : State :=
  ((List.range 8).foldl (fun (p : Nat × State) a =>
    let want := if a = 1 || a = 3 then 0 else p.2.fld Reg.prsAdmitSlots [c, a] 0 9
    let g := min want p.1
    let act := Act.ofVal a
    (p.1 - g, p.2.setSlots c act { p.2.slots c act with granted := g })) (256, s)).2

/-- Release a packet's slot, if it holds one. -/
def State.freeSlot (s : State) (p : Nat) : State :=
  match s.pkt p with
  | some x => if x.slot then (s.setPkt p { x with slot := false }).giveSlot x.mark.course x.mark.entAct else s
  | none => s

/-! ### Cells (spec/16 R484-R495) -/

/-- Cells of `n` bytes (spec/16 R484). -/
def cellsOf (n : Nat) : Nat := (n + 255) / 256

/-- Key of a priority group. -/
def pgKey (port pri : Nat) : Nat := 8 * port + pri

/-- A priority group's counts. -/
def State.pg (s : State) (port pri : Nat) : PgUse := mapGet {} s.buf.pgs (pgKey port pri)

/-- The state with a priority group's counts replaced. -/
def State.setPg (s : State) (port pri : Nat) (x : PgUse) : State :=
  { s with buf := { s.buf with pgs := mapSet {} s.buf.pgs (pgKey port pri) x } }

/-- An activity unit's counts. -/
def State.actUse (s : State) (a : Act) : ActUse := mapGet {} s.buf.acts a.val

/-- The state with an activity unit's counts replaced. -/
def State.setActUse (s : State) (a : Act) (x : ActUse) : State :=
  { s with buf := { s.buf with acts := mapSet {} s.buf.acts a.val x } }

/-- Cells an ingress unit holds from reserve and shared pool. -/
def State.ingUsed (s : State) : IngUnit → Nat
  | .pg n p => (s.pg n p).used
  | .act a => (s.actUse a).used

/-- Reserve of an ingress unit in force (spec/16 R494). -/
def State.ingRsv (s : State) : IngUnit → Nat
  | .pg n p => (s.pg n p).rsv
  | .act a => (s.actUse a).rsv

/-- Alpha code of an ingress unit. -/
def State.ingAlpha (s : State) : IngUnit → Nat
  | .pg n p => s.fld Reg.bufPgCtl [n, p] 0 4
  | .act a => s.fld Reg.bufIngCfg [a.val] 19 4

/-- Add cells to an ingress unit; `hdr` draws them from headroom (spec/16 R492). -/
def State.ingAdd (s : State) (u : IngUnit) (c : Nat) (hdr : Bool) : State :=
  match u with
  | .pg n p =>
    let x := s.pg n p
    s.setPg n p (if hdr then { x with hdrmUsed := x.hdrmUsed + c } else { x with used := x.used + c })
  | .act a => s.setActUse a { s.actUse a with used := (s.actUse a).used + c }

/-- Return cells of an ingress unit: headroom first (spec/16 R492). -/
def State.ingSub (s : State) (u : IngUnit) (c : Nat) : State :=
  match u with
  | .pg n p =>
    let x := s.pg n p
    let h := min x.hdrmUsed c
    s.setPg n p { x with hdrmUsed := x.hdrmUsed - h, used := x.used - (c - h) }
  | .act a => s.setActUse a { s.actUse a with used := (s.actUse a).used - c }

/-- Cells charged to an egress unit. -/
def State.egUsed (s : State) : EgUnit → Nat
  | .line n p => mapGet 0 s.buf.egs (8 * n + p)
  | .quoin q p => mapGet 0 s.buf.egs (8 * (32 + q) + p)
  | .rxq q => mapGet 0 s.buf.rxqs q
  | .act a => mapGet 0 s.buf.egActs a.val

/-- The state with an egress unit's count replaced. -/
def State.setEg (s : State) (u : EgUnit) (c : Nat) : State :=
  match u with
  | .line n p => { s with buf := { s.buf with egs := mapSet 0 s.buf.egs (8 * n + p) c } }
  | .quoin q p => { s with buf := { s.buf with egs := mapSet 0 s.buf.egs (8 * (32 + q) + p) c } }
  | .rxq q => { s with buf := { s.buf with rxqs := mapSet 0 s.buf.rxqs q c } }
  | .act a => { s with buf := { s.buf with egActs := mapSet 0 s.buf.egActs a.val c } }

/-- The register word with emin, alpha and ecn_prof of an egress unit (spec/16 R509, R510). -/
def State.egCfg (s : State) : EgUnit → Nat
  | .line n p => s.word Reg.bufEgCfg [n, p]
  | .quoin q p => s.word Reg.bufEgCfg [32 + q, p]
  | .rxq q => s.word Reg.bufHrxProf0 [s.fld Reg.bufHrxQprof [q] 0 4]
  | .act a => s.word Reg.bufEgAct [a.val] % 2 ^ 20

/-- Cells set aside as reserves and headrooms in force (spec/16 R488). -/
def State.reservedCells (s : State) : Nat :=
  ((List.range 256).map (fun k => let g := mapGet ({} : PgUse) s.buf.pgs k; g.rsv + g.hdrm)).sum
    + (s.buf.acts.map (fun p => p.2.rsv)).sum

/-- Free cells of the shared pool (spec/16 R492, R506). -/
def State.sharedFree (s : State) : Nat :=
  totalCells - s.reservedCells
    - ((s.buf.pgs.map (fun p => p.2.used - p.2.rsv)).sum + (s.buf.acts.map (fun p => p.2.used - p.2.rsv)).sum)

/-- The threshold of an alpha code (spec/16 R492); a stored code above 10 acts as 10 (log 16). -/
def thr (a f : Nat) : Nat := f * 2 ^ (min a 10) / 2 ^ 7

/-- fc_mode of a line port; 3 acts as 0 (spec/05 R150). -/
def State.fcMode (s : State) (n : Nat) : Nat :=
  let v := s.fld Reg.macPortCfg [n] 14 2
  if v = 3 then 0 else v

/-- A priority group is lossless (spec/16 R491). -/
def State.lossless (s : State) (n p : Nat) : Bool :=
  decide (s.fcMode n = 1) || (decide (s.fcMode n = 2) && bitOf (s.fld Reg.macPfcCfg [n] 16 8) p)

/-- A line port. -/
def State.port (s : State) (n : Nat) : LinePort := mapGet {} s.line.ports n

/-- The state with a line port replaced. -/
def State.setPort (s : State) (n : Nat) (x : LinePort) : State :=
  { s with line := { s.line with ports := mapSet {} s.line.ports n x } }

/-- The priorities a port asserts: a group's or, for lossless priorities, its octet's receive store's (spec/16
R495, R498). -/
def State.portXoff (s : State) (n : Nat) : Nat :=
  natOfBits ((List.range 8).map (fun p =>
    s.lossless n p && ((s.pg n p).xoff || s.buf.rsXoff.getD (n / 8) false)))

/-- Show a port's asserted priorities to its transmit MAC; a change waits to be sent while the link is up
(spec/05 R136, spec/16 R503). -/
def State.updateXoff (s : State) (n : Nat) : State :=
  let x := s.port n
  let v := s.portXoff n
  if v = x.xoff then s else s.setPort n { x with xoff := v, fcPending := true }

/-- Evaluate one priority group (spec/16 R495). -/
def State.evalXoff (s : State) (n p : Nat) : State :=
  let g := s.pg n p
  let lim := g.rsv + thr (s.fld Reg.bufPgCtl [n, p] 0 4) s.sharedFree
  let v :=
    if !s.lossless n p then false
    else if 0 < g.hdrmUsed then true
    else if lim ≤ g.used then true
    else if g.used + s.fld Reg.bufPgCtl [n, p] 8 16 ≤ lim then false
    else g.xoff
  let s := if v && !g.xoff then s.count (blockBase 15 + 0x30000 + 8 * 10) 1 else s
  (s.setPg n p { s.pg n p with xoff := v }).updateXoff n

/-- Evaluate the group of an ingress unit. -/
def State.evalUnit (s : State) : IngUnit → State
  | .pg n p => s.evalXoff n p
  | .act _ => s

/-- Evaluate an octet's receive store against its thresholds (spec/16 R498). -/
def State.evalStore (s : State) (o : Nat) : State :=
  let lvl := s.line.storeLevel.getD o 0
  let on := s.fld Reg.bufRstoreCfg [o] 0 8
  let off := s.fld Reg.bufRstoreCfg [o] 8 8
  let off := if off < on then off else on - 1
  let was := s.buf.rsXoff.getD o false
  let v := if on * 1024 < lvl then true else if lvl ≤ off * 1024 then false else was
  if v = was then s
  else
    let s := { s with buf := { s.buf with rsXoff := setNth s.buf.rsXoff o v } }
    let s := if v then s.count (blockBase 15 + 0x30000 + 8 * 11) 1 else s
    (List.range 8).foldl (fun t k => t.updateXoff (8 * o + k)) s

/-- Change the level of an octet's receive store (spec/05 R128). -/
def State.storeAdd (s : State) (o : Nat) (d : Int) : State :=
  ({ s with line := { s.line with
      storeLevel := setNth s.line.storeLevel o (((s.line.storeLevel.getD o 0 : Nat) : Int) + d).toNat } }).evalStore o

/-- Free a packet's cells: its own egress charge, and the shared ingress charge unless another packet of its family
is in the buffer and takes it over (spec/16 R484, R492). -/
def State.freeCells (s : State) (p : Nat) : State :=
  match s.pkt p with
  | none => s
  | some x =>
    let s := s.setEg x.eg (s.egUsed x.eg - x.egCells)
    let held := x.ingCells + x.hdrmCells
    let s := s.setPkt p { x with egCells := 0, ingCells := 0, hdrmCells := 0 }
    if held = 0 then s
    else
      match (s.family p x).find? (fun q => decide (0 < q.2.egCells) && !q.2.inHbm) with
      | some q => s.setPkt q.1 { q.2 with ingCells := x.ingCells, hdrmCells := x.hdrmCells, ing := x.ing }
      | none =>
        let s := s.ingSub x.ing held
        ({ s with buf := { s.buf with used := s.buf.used - held } }).evalUnit x.ing

/-- A line frame's bytes leave its octet's receive store (spec/05 R128). -/
def State.leaveStore (s : State) (p : Nat) : State :=
  match s.pkt p with
  | some x =>
    if x.inStore = 0 then s
    else (s.setPkt p { x with inStore := 0 }).storeAdd (portLocal x.mark.srcPort / 8) (-(x.inStore : Int))
  | none => s

/-- The credits of a cascade packet's flits are returned: its bytes have entered a course or are discarded (spec/20
R603). -/
def State.returnOwed (s : State) (p : Nat) : State :=
  (List.range 4).foldl (fun (t : State) q =>
    let x := t.csc.ports.getD q ({} : QuoinPort)
    let o := mapGet (0, 0) x.owed p
    if o.2 = 0 then t
    else
      ({ t with csc := { t.csc with ports := setNth t.csc.ports q { x with owed := mapErase x.owed p } } }).send
        (.credit q o.1 o.2)) s

/-- The packet leaves the device: its slot and its cells are free and its Mark ends (spec/01 R11, R28). -/
def State.removePkt (s : State) (p : Nat) : State :=
  let s := (((s.leaveStore p).returnOwed p).freeSlot p).freeCells p
  let s :=
    match s.pkt p with
    | some x =>
      match x.eg with
      | .rxq q =>
        if x.inHbm then
          let left := mapGet 0 s.buf.spilled q - cellsOf x.mark.len
          { s with buf := { s.buf with
              spilled := mapSet 0 s.buf.spilled q left
              spillFull := if left = 0 then s.buf.spillFull.filter (· ≠ q) else s.buf.spillFull } }
        else s
      | _ => s
    | none => s
  { s with packets := mapErase s.packets p }

/-! ### Transmit items (spec/07 R208) -/

/-- Key of a transmit queue and of a receive queue in the queue map. -/
def queueKey (rx : Bool) (q : Nat) : Nat := if rx then 16384 + q else q

/-- A queue. -/
def State.queue (s : State) (k : Nat) : Queue := mapGet {} s.qmg.queues k

/-- The state with a queue replaced. -/
def State.setQueue (s : State) (k : Nat) (x : Queue) : State :=
  { s with qmg := { s.qmg with queues := mapSet {} s.qmg.queues k x } }

/-- The state with the transmit item of a packet changed. -/
def State.updItem (s : State) (it : Option (Nat × Nat)) (f : TxItem → TxItem) : State :=
  match it with
  | none => s
  | some (q, first) =>
    let x := s.queue q
    s.setQueue q { x with items := x.items.map (fun i => if i.first = first then f i else i) }

/-- A frame of an item has been admitted to its course or discarded before it (spec/07 R208); its later passes count no
more. -/
def State.itemAdmitted (s : State) (x : Packet) : State :=
  if x.fresh then s.updItem x.item (fun i => { i with toAdmit := i.toAdmit - 1 }) else s

/-- A frame's item tag is removed: an item that waits for its timestamp ends its wait with none (spec/05 R138). -/
def State.itemTagGone (s : State) (x : Packet) : State :=
  if x.itemEnd then s.updItem x.item (fun i => { i with tsWait := false }) else s

/-- A discarded packet's late findings pass to a copy of it that is still in the device, unless flags.drop is set: the
verdict of its end marker applies to every such copy (spec/12 R358). -/
def State.passLate (s : State) (p : Nat) (x : Packet) : State :=
  if x.mark.flags.drop || (x.raw = [] && x.late = []) then s
  else
    match s.family p x with
    | [] => s
    | q :: _ => s.setPkt q.1 { q.2 with raw := x.raw, late := x.late }

/-- Discard a packet: the owner of the reason counts it first (spec/01 R21). -/
def State.dropPkt (s : State) (p : Nat) : State :=
  match s.pkt p with
  | none => s
  | some x =>
    let s := if x.stage = .waitSlot then s.itemAdmitted x else s
    let s := if x.copy then s else s.itemTagGone x
    (s.passLate p x).removePkt p

/-- A BUF discard counter (spec/16 R512): reasons 0x80-0x87, and AGED. -/
def bufDrop (r : Nat) : Nat :=
  blockBase 15 + 0x30000 + 8 * (if r = Reason.aged then 15 else 2 + (r - 0x80))

/-- Discard at the packet buffer with one of its reasons (spec/16 R504, R512). -/
def State.dropBuf (s : State) (p r : Nat) : State :=
  match s.pkt p with
  | none => s
  | some x =>
    let s := if (0x80 ≤ r && r ≤ 0x87) || r = Reason.aged then s.count (bufDrop r) 1 else s
    let s :=
      match x.ing with
      | .pg n g =>
        if r = Reason.bufIngressFull || r = Reason.bufHeadroom then
          let s := s.count (blockBase 15 + 0x31000 + 8 * (8 * n + g)) 1
          let u := s.pg n g
          if r = Reason.bufHeadroom && (match u.dropAt with | some t => decide (t + 1000000 ≤ s.now) | none => true) then
            (s.setPg n g { u with dropAt := some s.now }).raise 356 (globalPort s.moduleId n)
          else s
        else s
      | .act _ => s
    s.dropPkt p

/-- The order in which a packet passes its stages. -/
def Stage.rank : Stage → Nat
  | .waitSlot => 0 | .atParser => 1 | .atRules => 2 | .atForward => 3 | .atTunnel => 4 | .atCrypto => 5
  | .atStorage => 6 | .atBuffer => 7 | .bufWait => 8 | .queued => 9 | .leaving => 10

/-- A packet is inside a stage: it stands there, or has passed it while its end marker has not (spec/04 R113). -/
def Packet.inside (x : Packet) (st : Stage) : Bool :=
  decide (x.stage = st) || (!x.ended && decide (st.rank < x.stage.rank))

/-- A block reset discards the packets inside its stage; one whose bytes have left is stomped (spec/04 R113). -/
def State.dropInside (s : State) (st : Stage) : State :=
  s.packets.foldl (fun t p =>
    if p.2.inside st then
      if p.2.stage = .leaving then
        t.setPkt p.1 { p.2 with mark := { p.2.mark with flags := { p.2.mark.flags with stomp := true } } }
      else t.dropPkt p.1
    else t) s

end Sys2Proof.Machine
end

