-- ==== Sys2Proof/Machine/ParserOps.lean ====
section
/-! DEFINITION. Course admission and the parser (spec/01 R28-R36, spec/11 R315-R334, spec/21 R627). -/

namespace Sys2Proof.Machine

/-! ### Courses and Mark creation -/

/-- State of a course (spec/21 R627). -/
def State.courseSt (s : State) (c : Nat) : UnitSt := (s.courses.list.getD c {}).state

/-- The course that takes work naming `c` (spec/21 R627, R630). -/
def State.redirect (s : State) (c : Nat) : Nat :=
  if s.courseSt c = .inService then c
  else (([(c + 1) % 4, (c + 2) % 4, (c + 3) % 4].find? (fun d => s.courseSt d = .inService)).getD c)

/-- The course a waiting packet enters, if it may enter one now (spec/21 R627). -/
def State.entryCourse (s : State) (m : Mark) : Option Nat :=
  if m.entAct = .recirc then
    if s.courseSt m.course = .inService || s.courseSt m.course = .draining then some m.course else none
  else
    let c := s.redirect m.course
    if s.courseSt c = .inService then some c else none

/-- MARK_CREATION: a waiting packet takes an admission slot and its Mark is made (spec/01 R11, R28, R29, R33). -/
def State.createMark (s : State) (p : Nat) : State :=
  s.onPkt p .waitSlot (fun x =>
    match s.entryCourse x.mark with
    | none => s
    | some c =>
      if !s.ready 8 || !bitOf s.bring.readyCourse c && x.mark.entAct ≠ .recirc then s
      else if !s.slotFree c x.mark.entAct then s
      else
        let m := { x.mark with ver := 3, act := x.mark.entAct, course := c
                               epoch := if x.fresh then s.rules.epoch else x.mark.epoch }
        let s := (s.itemAdmitted x).takeSlot c m.entAct
        ((s.setPkt p { x with mark := m, stage := .atParser, slot := true }).leaveStore p).returnOwed p)

/-! ### The walk -/

/-- What a read of a field at some bytes of the frame gives (spec/11 R318). -/
inductive Rd where
  | val (v : Nat)
  /-- Past byte 511. -/
  | window
  /-- Past the frame's end. -/
  | short
  /-- Not received yet. -/
  | wait
  deriving DecidableEq, Repr

/-- The 16-bit word at byte `o` of a frame whose end is known when `ended`. -/
def rdWord (bs : List Byte) (ended : Bool) (o : Nat) : Rd :=
  if 512 < o + 2 then .window
  else if o + 2 ≤ bs.length then .val (beAt bs o 2)
  else if ended then .short else .wait

/-- Word i of node t (spec/11 R321, R337). -/
def State.node (s : State) (t i : Nat) : Nat :=
  if 1 ≤ t && t ≤ 22 then ix (Reg.builtinNodes.getD (t - 1) []) i
  else match i with
    | 0 => s.word Reg.prsNode0 [t]
    | 1 => s.word Reg.prsNode1 [t]
    | 2 => s.word Reg.prsNode2 [t]
    | _ => s.word Reg.prsNode3 [t]

/-- Node t is enabled. -/
def State.nodeEn (s : State) (t : Nat) : Bool := bitOf (s.node t 0) 9

/-- The length of a header of type t at byte o (spec/11 R319, R321). -/
def State.hdrLen (s : State) (bs : List Byte) (ended : Bool) (t o : Nat) : Rd :=
  if t = 19 then
    match rdWord bs ended o with
    | .val w => .val (4 + 4 * (bitsOf w 15 1 + bitsOf w 13 1 + bitsOf w 12 1))
    | r => r
  else
    let n := s.node t 0
    let base := bitsOf n 0 9
    if bitOf n 12 then
      match rdWord bs ended (o + bitsOf (s.node t 1) 16 9) with
      | .val w => .val (base + Nat.land w (bitsOf (s.node t 1) 0 16) / 2 ^ bitsOf n 25 4 * 2 ^ bitsOf n 13 3)
      | r => r
    else .val base

/-- The enabled edge entries in index order: from, value, mask, to (spec/11 R322). -/
def State.edges (s : State) : List (Nat × Nat × Nat × Nat) :=
  (List.range 512).filterMap (fun e =>
    let w0 := s.word Reg.prsEdge0 [e]
    let w1 := s.word Reg.prsEdge1 [e]
    if bitOf w0 6 then some (bitsOf w0 0 6, bitsOf w1 0 16, bitsOf w1 16 16, bitsOf w0 8 6) else none)

/-- The next type for a key: the lowest matching entry wins (spec/11 R322); 0 ends the walk. -/
def edgeLookup (es : List (Nat × Nat × Nat × Nat)) (t key : Nat) : Nat :=
  match es.find? (fun e => decide (e.1 = t) && decide (Nat.land key e.2.2.1 = Nat.land e.2.1 e.2.2.1)) with
  | some e => e.2.2.2
  | none => 0

/-- The findings of a walk so far (spec/11 R318, R324, R325). -/
structure Walk where
  /-- Headers recorded: type and byte offset. -/
  hdrs : List (Nat × Nat) := []
  /-- End of the last recorded header. -/
  last : Nat := 0
  /-- Smallest claim recorded. -/
  bound : Option Nat := none
  /-- A claim exceeded the bound. -/
  badLen : Bool := false
  /-- The walk-ending finding. -/
  ended : Option Nat := none
  /-- The walk ended on a missing edge or a disabled node. -/
  missing : Bool := false
  /-- The walk needs bytes that have not arrived. -/
  wait : Bool := false
  /-- Bytes of the frame that the walk has read. -/
  need : Nat := 0
  deriving DecidableEq, Repr

/-- The bound B of a claim: the smallest claim, or the frame length once it is known (spec/11 R318, R325). -/
def Walk.limit (w : Walk) (f : Option Nat) : Option Nat :=
  match w.bound, f with
  | some b, some n => some (min b n)
  | some b, none => some b
  | none, n => n

/-- Take a claim c (spec/11 R325). -/
def Walk.claim (w : Walk) (f : Option Nat) (c : Nat) : Walk :=
  match w.limit f with
  | some b => if b < c then { w with badLen := true } else { w with bound := some c }
  | none => { w with bound := some c }

/-- A field that ends the walk: past the window, past the end, or not there yet. -/
def Walk.stopAt (w : Walk) (r : Rd) : Walk :=
  match r with
  | .window => { w with ended := some 0x12 }
  | .short => { w with ended := some 0x14 }
  | .wait => { w with wait := true }
  | .val _ => w

/-- The walk of spec/11 R318 from type t at byte o; `n` bounds the headers left. -/
def State.walk (s : State) (bs : List Byte) (f : Option Nat) (es : List (Nat × Nat × Nat × Nat)) :
    Nat → Nat → Nat → Walk → Walk
  | 0, _, o, w => if o % 2 = 1 then { w with ended := some 0x13 } else { w with ended := some 0x11 }
  | n + 1, t, o, w =>
    let fin := f.isSome
    if o % 2 = 1 then { w with ended := some 0x13 }
    else
      match s.hdrLen bs fin t o with
      | .val h =>
        let minLen := bitsOf (s.node t 3) 16 9
        if h < max minLen 2 then { w with ended := some 0x14 }
        else if 512 < o + h then { w with ended := some 0x12 }
        else if (match w.limit f with | some b => decide (b < o + h) | none => false) then { w with ended := some 0x14 }
        else if bs.length < o + h then (if fin then { w with ended := some 0x14 } else { w with wait := true })
        else
          let w := { w with hdrs := w.hdrs ++ [(t, o)], last := o + h, need := max w.need (o + h) }
          let n3 := s.node t 3
          let cl := rdWord bs fin (o + bitsOf n3 0 9)
          let w1 :=
            if bitOf n3 9 then
              match cl with
              | .val c => w.claim f (c + (if bitOf n3 10 then o + h else o))
              | r => w.stopAt r
            else w
          if w1.ended.isSome || w1.wait then w1
          else
            let n2 := s.node t 2
            let st := rdWord bs fin (o + bitsOf n2 16 9)
            let w2 := if bitOf n2 25 then w1.stopAt st else w1
            if w2.ended.isSome || w2.wait then w2
            else if bitOf n2 25 && (match st with | .val v => Nat.land v (bitsOf n2 0 16) ≠ 0 | _ => false) then w2
            else if bitOf (s.node t 0) 10 then w2
            else
              let off := bitsOf (s.node t 0) 16 9
              match rdWord bs fin (if bitOf (s.node t 0) 11 then o + h - off else o + off) with
              | .val key =>
                let nt := edgeLookup es t key
                if nt = 0 || !s.nodeEn nt then { w2 with missing := true }
                else s.walk bs f es n nt (o + h) w2
              | r => w2.stopAt r
      | r => w.stopAt r

/-- The parse of a frame whose activity is `a`: `f` is the frame length once known (spec/11 R317). -/
def State.walkFrame (s : State) (a : Act) (bs : List Byte) (f : Option Nat) : Walk :=
  let t := s.fld Reg.prsActCfg [a.val] 0 6
  if !s.nodeEn t then { ended := some 0x10 }
  else s.walk bs f s.edges 16 t 0 {}

/-! ### Checksums (spec/11 R328, R329) -/

/-- The IPv4 header at byte o is a fragment. -/
def ip4Frag (bs : List Byte) (o : Nat) : Bool := Nat.land (beAt bs (o + 6) 2) 0x3FFF ≠ 0

/-- The pseudo-header sum of the L3 header (type t at o) for a protocol and length (spec/11 R328). -/
def pseudoSum (bs : List Byte) (t o proto len : Nat) : Nat :=
  (if t = 6 then sum16 (bytesAt bs (o + 12) 8) else sum16 (bytesAt bs (o + 8) 32)) + proto + len / 65536 + len % 65536

/-- The nearest recorded IPV4 or IPV6 header before index i. -/
def l3Before (hs : List (Nat × Nat)) (i : Nat) : Option (Nat × Nat) :=
  ((hs.take i).reverse).find? (fun h => h.1 = 6 || h.1 = 7)

/-- The L4 checksum of the recorded header at index i fails, over bytes up to b; an unverified one never fails. -/
def l4Bad (bs : List Byte) (hs : List (Nat × Nat)) (i b : Nat) : Bool :=
  let h := hs.getD i (0, 0)
  let o := h.2
  let frag := (hs.take i).any (fun g => (g.1 = 6 && ip4Frag bs g.2) || g.1 = 9)
  let body := bytesAt bs o (b - o)
  if frag then false
  else if h.1 = 14 then decide (fold16 (sum16 body) ≠ 65535)
  else if h.1 = 12 && beAt bs (o + 6) 2 = 0 then false
  else
    match l3Before hs i with
    | none => false
    | some l3 =>
      let proto := if h.1 = 13 then 6 else if h.1 = 12 then 17 else 58
      decide (fold16 (pseudoSum bs l3.1 l3.2 proto (b - o) + sum16 body) ≠ 65535)

/-- The indices of the outermost and innermost L4 headers. -/
def l4Indices (hs : List (Nat × Nat)) : List Nat :=
  let l := (List.range hs.length).filter (fun i => [12, 13, 14, 15].contains (hs.getD i (0, 0)).1)
  match l.head?, l.getLast? with
  | some a, some b => if a = b then [a] else [a, b]
  | _, _ => []

/-- A recorded IPV4 header's checksum fails. -/
def ip4Bad (bs : List Byte) (hs : List (Nat × Nat)) : Bool :=
  hs.any (fun h => h.1 = 6 && decide (fold16 (sum16 (bytesAt bs h.2 (4 * beAt bs h.2 1 % 64))) ≠ 65535))

/-! ### Flow hash (spec/11 R330) -/

/-- Two byte strings of one length in order, the smaller first as big-endian numbers; the flag tells a swap. -/
def ordered (sym : Bool) (a b : List Byte) : List Byte × Bool :=
  if sym && decide (beBytes b < beBytes a) then (b ++ a, true) else (a ++ b, false)

/-- The key of the flow hash under an activity's configuration word. -/
def hashKey (cfg : Nat) (bs : List Byte) (hs : List (Nat × Nat)) : List Byte :=
  let inner := bitOf cfg 10
  let sym := bitOf cfg 11
  let idx := (List.range hs.length).filter (fun i => (hs.getD i (0, 0)).1 = 6 || (hs.getD i (0, 0)).1 = 7)
  match (if inner then idx.getLast? else idx.head?) with
  | some i =>
    let h := hs.getD i (0, 0)
    let o := h.2
    let r := if h.1 = 6 then ordered sym (bytesAt bs (o + 12) 4) (bytesAt bs (o + 16) 4)
             else ordered sym (bytesAt bs (o + 8) 16) (bytesAt bs (o + 24) 16)
    let proto := bytesAt bs (if h.1 = 6 then o + 9 else o + 6) 1
    let rest := hs.drop (i + 1)
    let passed := rest.takeWhile (fun g => [8, 9, 10].contains g.1)
    let frag := (h.1 = 6 && ip4Frag bs o) || passed.any (fun g => g.1 = 9)
    match (rest.drop passed.length).head? with
    | some g =>
      if bitOf cfg 12 && (g.1 = 12 || g.1 = 13) && !frag then
        let a := bytesAt bs g.2 2
        let b := bytesAt bs (g.2 + 2) 2
        r.1 ++ proto ++ (if r.2 then b ++ a else a ++ b)
      else r.1 ++ proto
    | none => r.1 ++ proto
  | none =>
    match hs.find? (fun h => h.1 = 1) with
    | some h => (ordered sym (bytesAt bs h.2 6) (bytesAt bs (h.2 + 6) 6)).1
    | none => bs.take 16

/-! ### Patterns (spec/11 R331, R332) -/

/-- The anchor of a pattern entry, if present. -/
def patAnchor (mode typ : Nat) (w : Walk) : Option Nat :=
  match mode with
  | 0 => some 0
  | 1 => (w.hdrs.find? (fun h => h.1 = typ)).map (·.2)
  | 2 => (w.hdrs.reverse.find? (fun h => h.1 = typ)).map (·.2)
  | _ => if w.hdrs = [] then none else some w.last

/-- Masked bytes agree at position x. -/
def patAt (bs : List Byte) (x : Nat) (len value mask : Nat) : Bool :=
  (List.range len).all (fun j =>
    let m := bitsOf mask (8 * j) 8
    Nat.land (leAt bs (x + j) 1) m = Nat.land (bitsOf value (8 * j) 8) m)

/-- One pattern entry against a frame: none while bytes it needs have not arrived; otherwise whether it matches. -/
def State.patMatch (s : State) (p : Nat) (a : Act) (bs : List Byte) (f : Option Nat) (w : Walk) : Option Bool :=
  let w0 := s.word Reg.prsPat0 [p]
  let w1 := s.word Reg.prsPat1 [p]
  let l := bitsOf w1 8 4
  let len := if l = 0 || 8 < l then 8 else l
  if !(bitOf w0 31 && bitOf w1 a.val) then some false
  else
    match patAnchor (bitsOf w0 6 2) (bitsOf w0 0 6) w with
    | none => some false
    | some anc =>
      let lo := anc + bitsOf w0 8 9
      let span := bitsOf w0 17 6
      let cap := match w.limit f with | some b => min 512 b | none => 512
      let top := min cap (lo + span + len)
      if f.isNone && bs.length < top then none
      else
        some ((List.range (span + 1)).any (fun k =>
          decide (lo + k + len ≤ cap) && patAt bs (lo + k) len (s.dword Reg.prsPatWords [p] 0) (s.dword Reg.prsPatWords [p] 2)))

/-- The last byte an enabled pattern window needs (spec/11 R316). -/
def State.patNeed (s : State) (a : Act) (w : Walk) (f : Option Nat) : Nat :=
  (List.range 64).foldl (fun acc p =>
    let w0 := s.word Reg.prsPat0 [p]
    let w1 := s.word Reg.prsPat1 [p]
    if bitOf w0 31 && bitOf w1 a.val then
      match patAnchor (bitsOf w0 6 2) (bitsOf w0 0 6) w with
      | some anc =>
        let l := bitsOf w1 8 4
        let cap := match w.limit f with | some b => min 512 b | none => 512
        max acc (min cap (anc + bitsOf w0 8 9 + bitsOf w0 17 6 + (if l = 0 || 8 < l then 8 else l)))
      | none => acc
    else acc) 0

/-! ### The parse -/

/-- Counter k of course c of the parser (spec/11 R340). -/
def prsCounter (c k : Nat) : Nat := blockBase 8 + 0x6000 + 0x100 * c + 8 * k

/-- The findings of a parse (spec/11 R324-R334). -/
structure Findings where
  incomplete : Bool := false
  malformed : Bool := false
  trailer : Bool := false
  csumIp4 : Bool := false
  csumL4 : Bool := false
  /-- The reason of the first finding in the order of R334. -/
  reason : Option Nat := none
  deriving DecidableEq, Repr

/-- What a walk and the checksums find; `f` is the frame length once known (spec/11 R325-R329, R334). -/
def findings (cfg : Nat) (bs : List Byte) (f : Option Nat) (w : Walk) : Findings :=
  let malformed := decide (w.ended = some 0x14) || w.badLen
  let ip4 := bitOf cfg 8 && ip4Bad bs w.hdrs
  let l4 :=
    match f with
    | some n =>
      bitOf cfg 9 && !malformed
        && (l4Indices w.hdrs).any (fun i => l4Bad bs w.hdrs i ((w.limit (some n)).getD n))
    | none => false
  let trailer :=
    match f with
    | some n => decide ((w.limit (some n)).getD n < n) && decide (n ≠ 60)
    | none => false
  { incomplete := w.ended.isSome && decide (w.ended ≠ some 0x14), malformed, trailer, csumIp4 := ip4, csumL4 := l4
    reason :=
      match w.ended with
      | some r => some r
      | none =>
        if w.badLen then some 0x15 else if ip4 then some 0x16 else if l4 then some 0x17
        else if trailer then some 0x18 else none }

/-- PARSE: a Mark at the parser is parsed and handed on to the rule engine (spec/11 R315, R316); one of another activity
than LRX has no late findings, so it is handed on whole (spec/11 R327; log 34). -/
def State.parseMark (s : State) (p : Nat) : State :=
  s.onPkt p .atParser (fun x =>
    let a := x.mark.act
    let bs := x.bytes
    let f := if x.ended then some bs.length else none
    let w := s.walkFrame a bs f
    let pats := (List.range 64).map (fun k => s.patMatch k a bs f w)
    if !s.ready 8 || w.wait || (!x.ended && a ≠ .lrx) || pats.any (fun r => r.isNone) then s
    else
      let cfg := s.word Reg.prsActCfg [a.val]
      let fi := findings cfg bs f w
      let mask := s.fld Reg.prsPatUser [a.val] 0 24
      let hit (b : Nat) : Bool := (List.range 64).any (fun k =>
        decide (s.fld Reg.prsPat0 [k] 24 5 = b) && decide (pats.getD k none = some true))
      let user := (List.range 24).foldl (fun u b => if bitOf mask b then putBit u b (hit b) else u) x.mark.user
      let fl := { x.mark.flags with
        parseIncomplete := fi.incomplete, malformed := fi.malformed, trailer := fi.trailer
        csumBad := fi.csumIp4 || fi.csumL4 }
      let m := { x.mark with
        hdrs := w.hdrs.map (fun h => { typ := h.1, off := h.2 / 2 })
        flags := fl, hash := Nat.xor (crc32cRaw (s.word Reg.prsHashSeed [a.val]) (hashKey cfg bs w.hdrs)) 0xFFFFFFFF
        user, reason := fi.reason.getD x.mark.reason }
      let c := m.course
      let s := s.setPkt p { x with mark := m, stage := .atRules, raw := if x.ended then [] else bs, late := [], bound := w.bound }
      let s := s.count (prsCounter c 0) 1
      let s := if fl.parseIncomplete then s.count (prsCounter c 1) 1 else s
      let s := if fl.malformed then s.count (prsCounter c 2) 1 else s
      let s := if fl.trailer then s.count (prsCounter c 3) 1 else s
      let s := if fl.csumBad then s.count (prsCounter c 4) 1 else s
      let s := if w.missing then s.count (prsCounter c 5) 1 else s
      let s := if a = .lrx && 128 < max w.need (s.patNeed a w f) then s.count (prsCounter c 6) 1 else s
      (List.range 64).foldl (fun t k =>
        if pats.getD k none = some true then t.count (blockBase 8 + 0x7000 + 8 * k) 1 else t) s)

/-- LATE_FINDINGS: the end marker of an LRX frame passes the parser (spec/11 R327): late findings set their
flags and are kept for the rules' end actions; they never write reason. -/
def State.lateParse (s : State) (p : Nat) : State :=
  match s.pkt p with
  | none => s
  | some x =>
    if !x.ended || x.raw = [] || x.stage = .waitSlot || x.stage = .atParser then s
    else
      let cfg := s.word Reg.prsActCfg [0]
      let bs := x.raw
      let w := s.walkFrame .lrx bs (some bs.length)
      let fi := findings cfg bs (some bs.length) w
      let old := x.mark.flags
      let malf := fi.malformed && !old.malformed
      let trail := fi.trailer && !old.trailer
      let bad := (fi.csumIp4 || fi.csumL4) && !old.csumBad
      let fl := { old with malformed := old.malformed || malf, trailer := old.trailer || trail
                           csumBad := old.csumBad || bad }
      let late := (if malf then [0x15] else []) ++ (if bad then [if fi.csumIp4 then 0x16 else 0x17] else [])
        ++ (if trail then [0x18] else [])
      let c := x.mark.course
      let s := s.setPkt p { x with mark := { x.mark with flags := fl }, raw := [], late }
      let s := if malf then s.count (prsCounter c 2) 1 else s
      let s := if trail then s.count (prsCounter c 3) 1 else s
      if bad then s.count (prsCounter c 4) 1 else s

end Sys2Proof.Machine
end

