-- ==== Sys2Proof/Machine/RuleOps.lean ====
section
/-! DEFINITION. The rule engine: keys, stages, edits, the policer, resolution, late verdicts, and the rule-set
banks (spec/12, spec/17 R525-R528). -/

namespace Sys2Proof.Machine

/-- Counter k of course c of the rule engine (spec/12 R376). -/
def clsCounter (c k : Nat) : Nat := blockBase 9 + 0x3000 + 0x100 * c + 8 * k

/-! ### Banks -/

/-- A Mark is bound to its epoch (spec/12 R365): from its creation to the release point of its last pass. -/
def Packet.isBound (x : Packet) : Bool :=
  !x.copy &&
    (match x.stage with
     | .waitSlot => x.mark.entAct = .recirc
     | .queued => x.mark.act = .recirc || !x.ended
     | .leaving => !x.ended
     | _ => true)

/-- Marks bound to an epoch (spec/12 R365, R373 CLS_INFLIGHT). -/
def State.inflight (s : State) (epoch : Nat) : Nat :=
  (s.packets.filter (fun p => p.2.isBound && decide (p.2.mark.epoch = epoch))).length

/-- Bank b. -/
def State.bank (s : State) (b : Nat) : Bank := s.rules.banks.getD b {}

/-- The state with a bank replaced. -/
def State.setBank (s : State) (b : Nat) (x : Bank) : State :=
  { s with rules := { s.rules with banks := setNth s.rules.banks b x } }

/-- The image an epoch selects (spec/12 R341). -/
def State.imageOf (s : State) (epoch : Nat) : Image :=
  match s.rules.banks.find? (fun b => decide (b.epoch = epoch) && (b.state = .active || b.state = .draining)) with
  | some b => b.image
  | none => {}

/-- A DRAINING bank with no bound Mark becomes READY (spec/12 R365). -/
def State.drainBank (s : State) (b : Nat) : State :=
  let x := s.bank b
  if x.state = .draining && s.inflight x.epoch = 0 then
    let t := s.setBank b { x with state := .ready }
    ({ t with rules := { t.rules with freeTick := s.now } }).raise 196 b
  else s

/-- Both banks. -/
def State.drainBanks (s : State) : State := (s.drainBank 0).drainBank 1

/-! ### Keys (spec/12 R344, R345) -/

/-- What a selector gives. -/
inductive Sel where
  | absent
  | present (v : Nat)
  | wait
  deriving DecidableEq, Repr

/-- The frame word at byte o for a selector. -/
def selFrame (x : Packet) (o : Nat) : Sel :=
  let lim := match x.bound with | some b => min b 512 | none => 512
  if lim < o + 4 then .absent
  else if o + 4 ≤ x.bytes.length then .present (leAt x.bytes o 4)
  else if x.ended then .absent else .wait

/-- The value of a selector word (spec/12 R345). -/
def selector (x : Packet) (m : Mark) (w : Nat) : Sel :=
  let sel := bitsOf w 3 6
  let off := bitsOf w 9 9
  match bitsOf w 0 3 with
  | 0 => .present 0
  | 1 => .present (bitsOf m.toBits (8 * off) 32)
  | 2 => match m.hdrs.find? (fun h => h.typ = sel) with | some h => selFrame x (2 * h.off + off) | none => .absent
  | 3 => match m.hdrs.reverse.find? (fun h => h.typ = sel) with | some h => selFrame x (2 * h.off + off) | none => .absent
  | 4 => match m.hdrs[sel]? with | some h => selFrame x (2 * h.off + off) | none => .absent
  | 5 => selFrame x off
  | _ => .absent

/-- The last byte of the frame that a selector reads. -/
def selEnd (m : Mark) (w : Nat) : Nat :=
  let sel := bitsOf w 3 6
  let off := bitsOf w 9 9
  match bitsOf w 0 3 with
  | 2 => match m.hdrs.find? (fun h => h.typ = sel) with | some h => 2 * h.off + off + 4 | none => 0
  | 3 => match m.hdrs.reverse.find? (fun h => h.typ = sel) with | some h => 2 * h.off + off + 4 | none => 0
  | 4 => match m.hdrs[sel]? with | some h => 2 * h.off + off + 4 | none => 0
  | 5 => off + 4
  | _ => 0

/-- The 48-byte key as a number, byte 0 lowest; none while a byte it needs has not arrived. -/
def buildKey (x : Packet) (m : Mark) (sels : List Nat) (tag : Nat) : Option Nat :=
  let vs := sels.map (selector x m)
  if vs.any (fun v => decide (v = .wait)) then none
  else
    let body := packFields (vs.map (fun v => (32, match v with | .present n => n | _ => 0)))
    let pres := natOfBits (vs.map (fun v => match v with | .present _ => true | _ => false))
    some (body % 2 ^ 320 + tag % 65536 * 2 ^ 320 + pres % 1024 * 2 ^ 336)

/-- The action of a stage for a key: the lowest matching valid entry, or the miss action; the flag is a hit
(spec/12 R346). -/
def lookup (img : Image) (st : RuleStage) (key : Nat) : Nat × Bool :=
  match ((img.entries.drop st.base).take st.count).find?
      (fun e => e.valid && decide (Nat.land key e.mask = Nat.land e.value e.mask)) with
  | some e => (e.action, true)
  | none => (st.missAction, false)

/-! ### Action words (spec/12 R348) -/

/-- Apply a keep/set/clear op to a flag; 3 acts as 0. -/
def opFlag (op : Nat) (b : Bool) : Bool := if op = 1 then true else if op = 2 then false else b

/-- The Mark writes of an action word (spec/12 R348). -/
def applyAction (m : Mark) (w : List Nat) : Mark :=
  let w0 := ix w 0
  let w1 := ix w 1
  let w2 := ix w 2
  let dropOp := bitsOf w0 18 2
  let excOp := bitsOf w0 20 2
  let byte (j u : Nat) : Nat := if bitOf w2 (24 + j) then putBits u (8 * j) 8 (bitsOf w2 (8 * j) 8) else u
  { m with
    cls := if bitOf w0 0 then bitsOf w0 8 8 else m.cls
    colour := if bitOf w0 1 then bitsOf w0 16 2 else m.colour
    queue := if bitOf w0 2 then bitsOf w1 0 16 else m.queue
    sa := if bitOf w0 4 then bitsOf (ix w 3) 0 24 else m.sa
    dstPort := if bitOf w0 5 then bitsOf w1 16 8 else m.dstPort
    reason := if bitsOf w0 24 8 ≠ 0 && (dropOp = 1 || excOp = 1) then bitsOf w0 24 8 else m.reason
    user := byte 2 (byte 1 (byte 0 m.user))
    flags := { m.flags with
      drop := opFlag dropOp m.flags.drop, exception := opFlag excOp m.flags.exception
      mirror := opFlag (bitsOf w0 22 2) m.flags.mirror, recirc := opFlag (bitsOf w1 24 2) m.flags.recirc
      tsReq := m.flags.tsReq || bitOf w1 26, noLearn := m.flags.noLearn || bitOf w1 27
      spill := m.flags.spill || bitOf w1 28 } }

/-- What the stages of a pass produce. -/
structure PassOut where
  mark : Mark
  /-- The policer named last: op and index. -/
  meter : Nat × Nat := (0, 0)
  /-- The action words with edits, in stage order. -/
  edits : List (List Nat) := []
  /-- Stages that hit and that missed. -/
  hits : List Nat := []
  misses : List Nat := []
  /-- The last frame byte the selectors read. -/
  need : Nat := 0
  /-- The rules wrote dst_port in this pass. -/
  wroteDst : Bool := false
  /-- A selector's bytes have not arrived. -/
  wait : Bool := false

/-- The stages of a pass (spec/12 R342); `n` bounds the stages left. -/
def stages (img : Image) (x : Packet) : Nat → Nat → Nat → PassOut → PassOut
  | 0, _, _, o => o
  | n + 1, i, tag, o =>
    if 8 ≤ i then o
    else
      let st := img.stages.getD i {}
      if !st.en then stages img x n (i + 1) tag o
      else
        match buildKey x o.mark st.sels tag with
        | none => { o with wait := true }
        | some k =>
          let r := lookup img st k
          let w := img.actions.getD r.1 []
          let w4 := ix w 4
          let w5 := ix w 5
          let mop := bitsOf w5 12 2
          let o' : PassOut := { o with
            mark := applyAction o.mark w
            meter := if mop = 1 || mop = 2 then (mop, bitsOf w5 0 12) else o.meter
            edits := if bitsOf (ix w 6) 0 4 = 0 then o.edits else o.edits ++ [w]
            hits := if r.2 then o.hits ++ [i] else o.hits
            misses := if r.2 then o.misses else o.misses ++ [i]
            need := st.sels.foldl (fun a q => max a (selEnd o.mark q)) o.need
            wroteDst := o.wroteDst || bitOf (ix w 0) 5 }
          let tag' := if bitOf w4 16 then bitsOf w4 0 16 else tag
          match bitsOf w4 17 2 with
          | 1 => o'
          | 2 => stages img x n (if i < bitsOf w4 19 3 then bitsOf w4 19 3 else 8) tag' o'
          | _ => stages img x n (i + 1) tag' o'

/-! ### Edits (spec/12 R349-R351) -/

/-- A frame under edit: Mark, bytes, bound, and whether the last edit was applied. -/
structure Edited where
  mark : Mark
  bytes : List Byte
  bound : Option Nat
  applied : Nat := 0
  skipped : Nat := 0
  /-- TTL_DEC met 0 or 1. -/
  ttl : Bool := false

/-- The edit was skipped. -/
def Edited.skip (e : Edited) : Edited := { e with skipped := e.skipped + 1 }

/-- The edit was applied. -/
def Edited.ok (e : Edited) (bs : List Byte) : Edited := { e with bytes := bs, applied := e.applied + 1 }

/-- Replace a checksum field at byte o after 16-bit words of the frame changed from `old` to `new` at the
offsets given (RFC 1624). -/
def fixChecksum (bs : List Byte) (o : Nat) (old new : List Byte) (offs : List Nat) : List Byte :=
  let c := offs.foldl (fun c w =>
    let a := beAt old w 2
    let b := beAt new w 2
    if a = b then c else checksumUpdate c a b) (beAt bs o 2)
  patchAt bs o (toBe 2 c)

/-- Word offsets of a range of bytes that starts at an even byte. -/
def wordsOf (o n : Nat) : List Nat := (List.range (n / 2)).map (fun i => o + 2 * i)

/-- The checksum field of the next recorded TCP or UDP header from index i on: offset, unless it is a UDP 0. -/
def nextL4 (bs : List Byte) (hs : List Hdr) (i : Nat) : Option Nat :=
  match (hs.drop i).find? (fun h => h.typ = 12 || h.typ = 13) with
  | some h =>
    let o := 2 * h.off
    if h.typ = 12 then (if beAt bs (o + 6) 2 = 0 then none else some (o + 6)) else some (o + 16)
  | none => none

/-- Update checksums after bytes of header i changed from `old` to `new` (spec/12 R351): the IPV4 header's own,
and the next TCP or UDP checksum for an address or a port. -/
def fixAfter (hs : List Hdr) (i : Nat) (old new : List Byte) : List Byte :=
  let h := hs.getD i {}
  let o := 2 * h.off
  if h.typ = 6 then
    let ihl := 4 * (beAt new o 1 % 16)
    let b := fixChecksum new (o + 10) old new ((wordsOf o ihl).filter (· ≠ o + 10))
    match nextL4 b hs (i + 1) with
    | some c => fixChecksum b c old new (wordsOf (o + 12) 8)
    | none => b
  else if h.typ = 7 then
    match nextL4 new hs (i + 1) with
    | some c => fixChecksum new c old new (wordsOf (o + 8) 32)
    | none => new
  else if h.typ = 12 || h.typ = 13 then
    match nextL4 new hs i with
    | some c => fixChecksum new c old new (wordsOf o 4)
    | none => new
  else new

/-- The bound after `d` bytes are inserted (or removed) at byte o. -/
def moveBound (b : Option Nat) (d : Int) : Option Nat := b.map (fun n => ((n : Int) + d).toNat)

/-- Header entries after an insertion or removal: entries from index i on move by `d` bytes. -/
def moveHdrs (hs : List Hdr) (i : Nat) (d : Int) : List Hdr :=
  hs.take i ++ (hs.drop i).map (fun h => { h with off := (((2 * h.off : Nat) : Int) + d).toNat / 2 % 256 })

/-- At most 16 entries: the deepest are discarded and parse_incomplete is set (spec/01 R15, spec/12 R350). -/
def Mark.cutHdrs (m : Mark) (hs : List Hdr) : Mark :=
  if 16 < hs.length then { m with hdrs := hs.take 16, flags := { m.flags with parseIncomplete := true } }
  else { m with hdrs := hs }

/-- One edit of an action word (spec/12 R349). -/
def State.applyEdit (s : State) (e : Edited) (w : List Nat) : Edited :=
  let w6 := ix w 6
  let i := bitsOf w6 4 4
  let off := bitsOf w6 8 9
  let val := toLe 4 (ix w 7) ++ [BitVec.ofNat 8 (bitsOf (ix w 5) 16 8), BitVec.ofNat 8 (bitsOf (ix w 5) 24 8)]
  match e.mark.hdrs[i]? with
  | none => e.skip
  | some h =>
    let o := 2 * h.off
    let hl := match s.hdrLen e.bytes true h.typ o with | .val n => n | _ => 0
    match bitsOf w6 0 4 with
    | 1 =>
      let n := bitsOf w6 17 3
      if hl < off + n || 512 < o + off + n || n = 0 || e.bytes.length < o + off + n then e.skip
      else
        let nb := patchAt e.bytes (o + off) (val.take n)
        e.ok (fixAfter e.mark.hdrs i e.bytes nb)
    | 2 =>
      let p := if h.typ = 6 then o + 8 else o + 7
      if !(h.typ = 6 || h.typ = 7) || 512 < o + hl then e.skip
      else
        let t := beAt e.bytes p 1
        if t ≤ 1 then
          { e with ttl := true, applied := e.applied + 1
                   mark := { e.mark with flags := { e.mark.flags with exception := true }, reason := 0x26 } }
        else
          let nb := patchAt e.bytes p (toBe 1 (t - 1))
          e.ok (if h.typ = 6 then fixChecksum nb (o + 10) e.bytes nb [o + 8] else nb)
    | 3 =>
      if !(1 ≤ h.typ && h.typ ≤ 4) || 512 < o + hl + 4 then e.skip
      else
        let tag := val.take 4
        let t := if beAt tag 0 2 = 0x88A8 then 3 else 2
        let moved := moveHdrs e.mark.hdrs (i + 1) 4
        let hs := moved.take (i + 1) ++ [{ typ := t, off := (o + hl) / 2 }] ++ moved.drop (i + 1)
        { (e.ok (e.bytes.take (o + hl) ++ tag ++ e.bytes.drop (o + hl))) with
          mark := ({ e.mark with len := e.mark.len + 4 }).cutHdrs hs, bound := moveBound e.bound 4 }
    | 4 =>
      if !(h.typ = 2 || h.typ = 3) || 512 < o + 4 then e.skip
      else
        let moved := moveHdrs e.mark.hdrs (i + 1) (-4)
        { (e.ok (e.bytes.take o ++ e.bytes.drop (o + 4))) with
          mark := { e.mark with len := e.mark.len - 4, hdrs := moved.take i ++ moved.drop (i + 1) }
          bound := moveBound e.bound (-4) }
    | 5 =>
      let d := beAt val 0 1 % 64
      if !(h.typ = 6 || h.typ = 7) || 512 < o + hl then e.skip
      else if h.typ = 6 then
        let nb := patchAt e.bytes (o + 1) (toBe 1 (d * 4 + beAt e.bytes (o + 1) 1 % 4))
        e.ok (fixChecksum nb (o + 10) e.bytes nb [o])
      else
        let v := beAt e.bytes o 2
        e.ok (patchAt e.bytes o (toBe 2 (v / 4096 * 4096 + d * 64 + v % 64)))
    | _ => e.skip

/-! ### The policer (spec/17 R525-R528) -/

/-- Units of 2^-24 byte in a byte. -/
def fracByte : Nat := 2 ^ 24

/-- A policer's buckets at the current tick (spec/17 R527). -/
def State.policerNow (s : State) (p : Nat) : Policer :=
  let x := mapGet {} s.tms.policers p
  let dt := s.now - x.last
  let cir := s.word Reg.tmsPolRate [p, 0]
  let pir := s.word Reg.tmsPolRate [p, 1]
  let pir := if !s.bit Reg.tmsPolCfg [p] 1 && pir < cir then cir else pir
  let cap (k : Nat) : Nat := s.word Reg.tmsPolSize [p, k] * fracByte
  { tc := min (cap 0) (x.tc + cir * dt * fracByte / 8000), tp := min (cap 1) (x.tp + pir * dt * fracByte / 8000)
    last := s.now }

/-- The colour a policer gives and its buckets after (spec/17 R526): 0 green, 1 yellow, 2 red. -/
def policerColour (rfc4115 : Bool) (inc b : Nat) (x : Policer) : Nat × Policer :=
  let b := b * fracByte
  if rfc4115 then
    if 2 ≤ inc then (2, x)
    else if inc = 0 && b ≤ x.tc then (0, { x with tc := x.tc - b })
    else if b ≤ x.tp then (1, { x with tp := x.tp - b })
    else (2, x)
  else
    if 2 ≤ inc then (2, x)
    else if x.tp < b then (2, x)
    else if inc = 1 || x.tc < b then (1, { x with tp := x.tp - b })
    else (0, { tc := x.tc - b, tp := x.tp - b, last := x.last })

/-- The policer a pass calls, if one that is enabled (spec/12 R348, spec/17 R525). -/
def State.policerOf (s : State) (m : Mark) (meter : Nat × Nat) : Option Nat :=
  let p := if meter.1 = 1 then m.inst else meter.2
  if meter.1 = 0 || (meter.1 = 1 && m.inst = noInst) || !s.bit Reg.tmsPolCfg [p] 0 then none else some p

/-- Police a Mark (spec/17 R526, R528). -/
def State.police (s : State) (m : Mark) (p : Nat) : State × Mark :=
  let cfg := s.word Reg.tmsPolCfg [p]
  let b := ((m.len : Int) + signedOf 7 (bitsOf cfg 4 7)).toNat
  let inc := if bitOf cfg 2 then m.colour else 0
  let r := policerColour (bitOf cfg 1) inc b (s.policerNow p)
  let s := { s with tms := { s.tms with policers := mapSet {} s.tms.policers p r.2 } }
  let s := s.count (blockBase 14 + 0xE0000 + 0x20 * p + 8 * r.1) 1
  let m := { m with colour := r.1 }
  (s, if r.1 = 2 && bitOf cfg 3 then { m with flags := { m.flags with drop := true }, reason := 0x91 } else m)

/-! ### Resolution (spec/12 R352, R353) -/

/-- Ask the exception limiter of a reason (spec/12 R353): the state after, and whether it admits. -/
def State.askLimiter (s : State) (reason : Nat) : State × Bool :=
  let l := s.fld Reg.clsExcMap [reason] 0 5
  let x := mapGet {} s.rules.limiters l
  let base := blockBase 9 + 0x1000 + 0x20 * l
  if 1000 ≤ x.tokens then
    (({ s with rules := { s.rules with limiters := mapSet {} s.rules.limiters l { x with tokens := x.tokens - 1000 } } }).count
      (base + 8) 1, true)
  else
    let s := s.count (base + 0x10) 1
    let fresh := match x.overSince with | some t => decide (t + 1000000 ≤ s.now) | none => true
    if fresh then
      (({ s with rules := { s.rules with
          limiters := mapSet {} s.rules.limiters l { x with overSince := some s.now } } }).raise 198 l, false)
    else (s, false)

/-- Resolution at the end of a pass (spec/12 R352); `ovr` is the image's over_limit verdict. -/
def State.resolveMark (s : State) (c : Nat) (m : Mark) (ovr : Bool) : State × Mark :=
  let recirc (t : State) (n : Mark) : State × Mark :=
    if n.flags.recirc then (t.count (clsCounter c 6) 1, { n with dstPort := globalPort s.moduleId 44 }) else (t, n)
  if m.flags.drop then
    (s.count (clsCounter c 2) 1,
      { m with reason := if m.reason = 0 then 0x20 else m.reason
               flags := { m.flags with exception := false, recirc := false } })
  else if m.flags.exception then
    let m := { m with reason := if m.reason = 0 then 0x21 else m.reason }
    if !s.ready 17 then (s.count (clsCounter c 5) 1, { m with flags := { m.flags with drop := true } })
    else
      let r := s.askLimiter m.reason
      if r.2 then
        (r.1.count (clsCounter c 3) 1,
          { m with dstPort := globalPort s.moduleId 45, flags := { m.flags with recirc := false } })
      else
        let s := r.1.count (clsCounter c 4) 1
        if ovr then (s, { m with flags := { m.flags with drop := true }, reason := 0x25 })
        else recirc s { m with flags := { m.flags with exception := false } }
  else recirc s m

/-- RULE_PASS: one pass of a Mark (spec/12 R342). -/
def State.rulePass (s : State) (p : Nat) : State :=
  s.onPkt p .atRules (fun x =>
    let c := x.mark.course
    let img := s.imageOf x.mark.epoch
    let o := stages img x 9 (bitsOf img.start (4 * x.mark.act.val) 4) 0 { mark := x.mark }
    if !s.ready 9 || o.wait then s
    else
      let e : Edited := o.edits.foldl s.applyEdit { mark := o.mark, bytes := x.bytes, bound := x.bound }
      let pol := s.policerOf e.mark o.meter
      if pol.isSome && !x.ended then s
      else
        let s := s.count (clsCounter c 0) 1
        let s := o.hits.foldl (fun t i => (t.count (clsCounter c 1) 1).count (blockBase 9 + 0x3400 + 0x10 * i) 1) s
        let s := o.misses.foldl (fun t i => t.count (blockBase 9 + 0x3400 + 0x10 * i + 8) 1) s
        let s := if 0 < e.applied then s.count (clsCounter c 12) e.applied else s
        let s := if 0 < e.skipped then s.count (clsCounter c 13) e.skipped else s
        let s := if x.mark.act = .lrx && 128 < o.need then s.count (clsCounter c 14) 1 else s
        let r := match pol with | some q => s.police e.mark q | none => (s, e.mark)
        let v := r.1.resolveMark c r.2 (bitOf img.defaults 6)
        v.1.setPkt p { x with mark := v.2, bytes := e.bytes, bound := e.bound, stage := .atForward })

/-! ### Late verdicts (spec/12 R358) -/

/-- The verdict of a late finding in a default action table (spec/12 R359). -/
def lateVerdictOf (defaults code : Nat) : Nat :=
  let v := if code = 0x15 || code = 0x14 then bitsOf defaults 0 2
    else if code = 0x16 || code = 0x17 then bitsOf defaults 2 2 else bitsOf defaults 4 2
  if v = 3 then 0 else v

/-- A packet's transmission on a line or Quoin port has begun. -/
def Packet.begun (x : Packet) : Bool := decide (x.stage = .leaving)

/-- Drop where it stands, or stomp once its transmission has begun (spec/05 R127, spec/12 R358). -/
def State.lateDrop (s : State) (p : Nat) (x : Packet) (reason : Nat) : State :=
  if x.begun then s.setPkt p { x with mark := { x.mark with flags := { x.mark.flags with stomp := true } }, late := [] }
  else (s.setPkt p { x with mark := x.mark.dropLate reason, late := [] }).dropPkt p

/-- Apply a late verdict to one packet or copy. -/
def State.lateApply (s : State) (verdict reason : Nat) (ovr : Bool) (p : Nat) : State :=
  match s.pkt p with
  | none => s
  | some x =>
    let c := x.mark.course
    if verdict = 1 || (verdict = 2 && !s.ready 17) || (verdict = 2 && x.begun) then
      (s.count (clsCounter c 10) 1).lateDrop p x reason
    else if verdict = 2 then
      let r := s.askLimiter reason
      if r.2 then
        (r.1.count (clsCounter c 11) 1).setPkt p { x with
          late := []
          stage := if x.stage = .queued || x.stage = .bufWait then .atBuffer else x.stage
          mark := { x.mark with reason, dstPort := globalPort s.moduleId 45
                                flags := { x.mark.flags with exception := true, recirc := false, flood := false } } }
      else if ovr then ((r.1.count (clsCounter c 4) 1).count (clsCounter c 10) 1).lateDrop p x 0x25
      else (r.1.count (clsCounter c 4) 1).setPkt p { x with late := [] }
    else s.setPkt p { x with late := [] }

/-- LATE_VERDICT: the end marker passes the rule engine (spec/12 R358): the first late finding in the order of
R334 whose verdict is not 0 governs the packet and every copy still in the device. -/
def State.lateVerdict (s : State) (p : Nat) : State :=
  match s.pkt p with
  | none => s
  | some x =>
    if x.late = [] || x.stage = .atRules then s
    else if x.mark.flags.drop then s.setPkt p { x with late := [] }
    else
      let img := s.imageOf x.mark.epoch
      match x.late.find? (fun c => decide (lateVerdictOf img.defaults c ≠ 0)) with
      | none => s.setPkt p { x with late := [] }
      | some c =>
        (p :: (s.family p x).map (·.1)).foldl
          (fun t q => State.lateApply t (lateVerdictOf img.defaults c) c (bitOf img.defaults 6) q) s

/-- LIMITER_REFILL: every limiter adds its rate and is capped at its burst (spec/12 R353). -/
def State.refillLimiters (s : State) : State :=
  if s.now % 1000 ≠ 0 then s
  else
    (List.range 32).foldl (fun t l =>
      let x := mapGet {} t.rules.limiters l
      let w := t.word Reg.clsExcLim [l]
      let v := min (x.tokens + bitsOf w 0 16) (bitsOf w 16 12 * 1000)
      { t with rules := { t.rules with limiters := mapSet {} t.rules.limiters l { x with tokens := v } } }) s

/-! ### Bank commands (spec/12 R360-R364, R375) -/

/-- A little-endian word of an image. -/
def imgWord (bs : List Byte) (o : Nat) : Nat := leAt bs o 4

/-- The image that bytes spell (spec/12 R360). -/
def parseImage (bs : List Byte) : Image :=
  let ne := imgWord bs 8 % 65536
  let na := imgWord bs 8 / 65536
  { start := imgWord bs 0xC, defaults := imgWord bs 0x10, imgTag := imgWord bs 0x14
    stages := (List.range 8).map (fun i =>
      let o := 0x40 + 64 * i
      { sels := (List.range 10).map (fun k => imgWord bs (o + 4 * k))
        base := imgWord bs (o + 0x28) % 65536, count := imgWord bs (o + 0x28) / 65536
        missAction := imgWord bs (o + 0x2C) % 16384, en := bitOf (imgWord bs (o + 0x2C)) 14 })
    classTab := ((List.range 256).map (fun c => (c, imgWord bs (0x240 + 4 * c) % 32))).filter (fun p => p.2 ≠ 0)
    sessions := ((List.range 32).map (fun k => (k, leAt bs (0x640 + 8 * k) 8))).filter (fun p => p.2 ≠ 0)
    entries := (List.range ne).map (fun i =>
      let o := 0x740 + 128 * i
      { value := leAt bs o 48, mask := leAt bs (o + 0x30) 48, action := imgWord bs (o + 0x60) % 16384
        valid := bitOf (imgWord bs (o + 0x60)) 14 })
    actions := (List.range na).map (fun i =>
      (List.range 8).map (fun k => imgWord bs (0x740 + 128 * ne + 32 * i + 4 * k))) }

/-- A selector word is in range (spec/12 R345, R363). -/
def selOk (w : Nat) : Bool :=
  match bitsOf w 0 3 with
  | 0 => true
  | 1 => decide (bitsOf w 9 9 ≤ 60)
  | 5 => decide (bitsOf w 9 9 ≤ 508)
  | 6 => false
  | 7 => false
  | _ => true

/-- The why of the first check an image fails, 0 when it is valid (spec/12 R363, R375). -/
def imageWhy (bs : List Byte) : Nat :=
  let ne := imgWord bs 8 % 65536
  let na := imgWord bs 8 / 65536
  let img := parseImage bs
  let on := img.stages.filter (fun st => st.en)
  let clash := (List.range on.length).any (fun i => (List.range i).any (fun j =>
    let a := on.getD i {}
    let b := on.getD j {}
    decide (0 < a.count) && decide (0 < b.count) && decide (a.base < b.base + b.count) && decide (b.base < a.base + a.count)))
  if imgWord bs 0 ≠ 0x56525349 || imgWord bs 4 % 256 ≠ 1 then 1
  else if bs.length < 0x740 || crc32 (patchAt bs 0x3C [0, 0, 0, 0]) ≠ imgWord bs 0x3C then 2
  else if 16384 < ne || na < 1 || 16384 < na then 4
  else if bs.length ≠ 1856 + 128 * ne + 32 * na then 3
  else if on.any (fun st => decide (ne < st.base + st.count) || decide (16384 < st.count)) || clash then 5
  else if on.any (fun st => decide (na ≤ st.missAction)
      || ((img.entries.drop st.base).take st.count).any (fun e => decide (na ≤ e.action))) then 6
  else if on.any (fun st => st.sels.any (fun w => !selOk w))
      || img.actions.any (fun w => decide (5 < bitsOf (ix w 6) 0 4)
          || (bitsOf (ix w 6) 0 4 = 1 && (bitsOf (ix w 6) 17 3 = 0 || bitsOf (ix w 6) 17 3 = 7)))
      || (List.range 31).any (fun k =>
          let t := bitsOf (mapGet 0 img.sessions (k + 1)) 32 10
          decide (t ≠ 0) && (decide (t < 64) || decide (512 < t))) then 7
  else 0

/-- End the bank command (spec/12 R373). -/
def State.endBank (s : State) (result why : Nat) : State :=
  { s with rules := { s.rules with cmdBusy := false, cmdResult := result, cmdWhy := why } }

/-- A range of the Keystone local space of R274 and R373 (spec/18 R548): the complex's SRAM or the firmware HBM
area. -/
def inKeystoneLocal (a n : Nat) : Bool :=
  decide (a + n ≤ 0x800000) || (decide (0x80000000 ≤ a) && decide (a + n ≤ 0x100000000))

/-- Bytes of the Keystone local space as the active complex sees them; the HBM area reads 0 until MEM is ready. -/
def State.localBytes (s : State) (a n : Nat) : List Byte :=
  if a < 0x800000 then memReadBytes (s.ksc.cplx.getD s.ksc.active {}).sram a n
  else if s.ready 16 then memReadBytes s.ksc.hbm a n else List.replicate n 0

/-- A write to CLS_BANK_CMD (spec/12 R363, R364): ops 1 LOAD, 2 COMMIT, 3 CLEAR. -/
def State.bankCommand (m : Master) (op b : Nat) : Eff := fun s =>
  if !m.isFw || s.rules.cmdBusy then (s, false)
  else
    let x := s.bank b
    match op with
    | 1 =>
      if x.state = .empty || x.state = .ready then
        let t := s.setBank b { x with state := .loading }
        ({ t with rules := { t.rules with cmdBusy := true } }, true)
      else (s.endBank 1 0, true)
    | 2 =>
      if x.state = .active then (s.endBank 2 12, true)
      else if x.state = .ready then
        let e := (s.rules.epoch + 1) % 256
        let old := s.bank (1 - b)
        let t := if old.state = .active then s.setBank (1 - b) { old with state := .draining } else s
        let t := t.setBank b { x with state := .active, epoch := e }
        let t := { t with rules := { t.rules with epoch := e, swapTick := s.now } }
        (((t.endBank 0 0).raise 195 b).drainBanks, true)
      else (s.endBank 1 0, true)
    | 3 =>
      if x.state = .ready then ((s.setBank b { x with state := .empty, image := {} }).endBank 0 0, true)
      else (s.endBank 1 0, true)
    | _ => (s.endBank 2 11, true)

/-- LOAD_COMPLETE: a load ends (spec/12 R363); an uncorrectable HBM error in the copy fails the CRC. -/
def State.loadComplete (s : State) (b : Nat) (uncorr : Bool) : State :=
  let x := s.bank b
  if x.state ≠ .loading then s
  else
    let a := s.word Reg.clsLoadSrc []
    let n := s.word Reg.clsLoadLen []
    let bs := s.localBytes a n
    let why := if a % 64 ≠ 0 || !inKeystoneLocal a n then 8 else if uncorr then 2 else imageWhy bs
    if why = 0 then (s.setBank b { x with state := .ready, image := parseImage bs }).endBank 0 0
    else ((s.setBank b { x with state := .empty, image := {} }).endBank 2 why).raise 197 b

/-- The effect of a block reset of CLS on the engine (spec/12 R371). -/
def State.resetCls (s : State) : State :=
  let s := s.dropInside .atRules
  (List.range 2).foldl (fun t b =>
    if (t.bank b).state = .loading then (t.setBank b { t.bank b with state := .empty, image := {} }).endBank 2 13
    else t) s

end Sys2Proof.Machine
end

