-- ==== Sys2Proof/Machine/LineOps.lean ====
section
/-! DEFINITION. Line ports and frame MACs: formats, splits, links, reception, tags, PAUSE and PFC, transmission,
timestamps and counters (spec/05, spec/04 R673). -/

namespace Sys2Proof.Machine

/-! ### Time (spec/02 R60, spec/05 R137) -/

/-- The time-of-day of tick t at the present instant (spec/02 R60). -/
def State.tickToTod (s : State) (t : Nat) : Nat :=
  let back : Int := (s.now : Int) - t
  let corr := (back * signedOf 32 (s.word Reg.tsuTodAdj []) + 2 ^ 31) / 2 ^ 32
  (((s.tsu.todNs : Int) - back - corr) % 2 ^ 64).toNat

/-- Picoseconds rounded to the nearest nanosecond, as a 64-bit number. -/
def psToNs (v : Int) : Nat := ((v + 500) / 1000 % 2 ^ 64).toNat

/-- Port rate in Gb/s, L_rx and L_tx in ns of a width, a lane rate code and a fec code; none where the table does not
list them (spec/05 R118, R119, R147). -/
def lineFormat (lanes laneRate fec : Nat) : Option (Nat × Nat × Nat) :=
  match laneRate, lanes, fec with
  | 0, 8, 2 => some (800, 96, 28)
  | 0, 4, 2 => some (400, 112, 30)
  | 1, 8, 2 => some (400, 118, 32)
  | 0, 2, 2 => some (200, 136, 34)
  | 1, 4, 2 => some (200, 142, 36)
  | 0, 1, 2 => some (100, 184, 40)
  | 1, 2, 2 => some (100, 190, 42)
  | 2, 4, 1 => some (100, 154, 38)
  | 1, 1, 2 => some (50, 268, 48)
  | 2, 1, 1 => some (25, 402, 56)
  | 2, 1, 0 => some (25, 42, 30)
  | _, _, _ => none

/-- The format of a port as enabled; rate 0 where it is not. -/
def LinePort.format (x : LinePort) : Nat × Nat × Nat := (lineFormat x.lanes x.laneRate x.fec).getD (0, 0, 0)

/-- The receive timestamp of a packet in ns (spec/05 R137). -/
def State.rxTimestamp (s : State) (x : Packet) : Nat :=
  let m := x.mark
  let tod := s.tickToTod (tsExtend s.now m.ts)
  let n := portLocal m.srcPort
  if portModule m.srcPort = s.moduleId && n < 32 && (m.entAct = .lrx || m.entAct = .recirc || m.entAct = .exc) then
    let f := (s.port n).format
    let ser : Int := if f.1 = 0 then 0 else ((min x.rxSize 128 * 8 * 1000 / f.1 : Nat) : Int)
    psToNs ((tod : Int) * 1000 - ser - (f.2.1 : Int) * 1000 - signedOf 16 (s.fld Reg.macPtpCorr [n] 0 16))
  else tod

/-! ### Counters (spec/05 R141, R142) -/

/-- Counter k of port n in the MAC block. -/
def macCounter (n k : Nat) : Nat := blockBase 3 + 0x100000 + 0x800 * n + 8 * k

/-- Counter k of port n in the LSD block. -/
def lsdCounter (n k : Nat) : Nat := blockBase 2 + 0x1000 + 0x40 * n + 8 * k

/-- The number of port Pn in an event's detail: its global port (spec/19 R581). -/
def State.linePortId (s : State) (n : Nat) : Nat := globalPort s.moduleId n

/-- STAT_CLEAR: every counter of the named ports of a block becomes 0 (spec/05 R143, R149, R153). -/
def State.statClear (lsd : Bool) (mask : Nat) : Eff := fun s =>
  let named (a : Nat) : Bool :=
    if lsd then
      decide (lsdCounter 0 0 ≤ a) && decide (a < lsdCounter 32 0) && bitOf mask ((a - lsdCounter 0 0) / 0x40)
    else decide (macCounter 0 0 ≤ a) && decide (a < macCounter 32 0) && bitOf mask ((a - macCounter 0 0) / 0x800)
  ({ s with counters := s.counters.filter (fun c => !named c.1) }, true)

/-- The bin of a size, 64 bytes or more (spec/05 R141). -/
def sizeBin (n : Nat) : Nat :=
  if n ≤ 64 then 0 else if n ≤ 127 then 1 else if n ≤ 255 then 2 else if n ≤ 511 then 3 else if n ≤ 1023 then 4
  else if n ≤ 1518 then 5 else if n ≤ 2047 then 6 else if n ≤ 4095 then 7 else if n ≤ 8191 then 8 else 9

/-- 0 unicast, 1 multicast, 2 broadcast. -/
def destType (bs : List Byte) : Nat :=
  if bytesAt bs 0 6 = List.replicate 6 0xFF then 2 else if beAt bs 0 1 % 2 = 1 then 1 else 0

/-! ### Formation (spec/05 R123-R125) -/

/-- Lanes of port n in the formation that split bits give; 0 where n names no port. -/
def formLanes (bits n : Nat) : Nat :=
  let k := n % 8
  if !bitOf bits 0 then (if k = 0 then 8 else 0)
  else if !bitOf bits (1 + k / 4) then (if k % 4 = 0 then 4 else 0)
  else if !bitOf bits (3 + k / 2) then (if k % 2 = 0 then 2 else 0)
  else 1

/-- Lanes of port n in the applied formation. -/
def State.portLanes (s : State) (n : Nat) : Nat := formLanes (s.line.applied.getD (n / 8) 0) n

/-- The port that a split bit of octet o divides. -/
def splitPort (o b : Nat) : Nat := if b = 0 then 8 * o else if b < 3 then 8 * o + 4 * (b - 1) else 8 * o + 2 * (b - 3)

/-- The applied bit that a split bit acts under, if any. -/
def splitParent (b : Nat) : Option Nat := if b = 0 then none else if b < 3 then some 0 else some (1 + (b - 3) / 2)

/-- Apply one split bit of octet o, where it is set, acts and divides a disabled port; the new port is as ready as the
port that was divided. -/
def State.applySplit (s : State) (o b : Nat) : State :=
  let bits := s.line.applied.getD o 0
  let n := splitPort o b
  let acts := match splitParent b with | some q => bitOf bits q | none => true
  if !bitOf (s.word Reg.lsdOctetCfg [o]) b || bitOf bits b || !acts || (s.port n).running then s
  else
    let half := s.portLanes n / 2
    { s with
      line := { s.line with applied := setNth s.line.applied o (putBit bits b true) }
      bring := { s.bring with readyPort := putBit s.bring.readyPort (n + half) (bitOf s.bring.readyPort n) } }

/-- Apply every split that can be applied. -/
def State.applySplits (s : State) (o : Nat) : State := (List.range 7).foldl (fun t b => t.applySplit o b) s

/-- SPLIT_WRITE: LSD_OCTET_CFG is written (spec/05 R123, R124, R144). -/
def State.splitWrite (m : Master) (o data : Nat) : Eff := fun s =>
  let r := State.writeReg m Reg.lsdOctetCfg [o] data s
  (r.1.applySplits o, r.2)

/-! ### The receive side -/

/-- The frame's FCS is good (IEEE 802.3, least significant bit first). -/
def fcsGood (bs : List Byte) : Bool := decide (leBytes (bs.drop (bs.length - 4)) = crc32 (bs.take (bs.length - 4)))

/-- A frame carries a fabric tag (spec/05 R131, R133). -/
def hasFabTag (bs : List Byte) : Bool := decide (beAt bs 12 2 = 0x88B5)

/-- The tag version and the length in words of a fabric tag. -/
def fabVer (bs : List Byte) : Nat := beAt bs 14 1 / 16
def fabWords (bs : List Byte) : Nat := beAt bs 14 1 % 16

/-- The length of a right fabric tag, 0 where there is none. -/
def fabLen (bs : List Byte) : Nat :=
  if !hasFabTag bs then 0
  else if fabVer bs = 1 && fabWords bs = 2 then 8 else if fabVer bs = 2 && fabWords bs = 3 then 12 else 0

/-- The fabric tag check under MAC_PORT_CFG (spec/05 R133): the error counter and the event, 0 for none. -/
def fabCheck (cfg : Nat) (bs : List Byte) : Nat × Nat :=
  let mode := bitsOf cfg 16 2
  if mode = 0 then (0, 0)
  else if !hasFabTag bs then (if mode = 3 then (35, 0) else (0, 0))
  else if fabVer bs = 1 || fabVer bs = 2 then (if fabLen bs = 0 then (35, 52) else (0, 0))
  else (34, 51)

/-- The first tag after any fabric tag is 802.1Q: TPID 0x8100, or the port's own (log 19). -/
def State.hasVlan (s : State) (n : Nat) (bs : List Byte) : Bool :=
  let t := beAt bs (12 + fabLen bs) 2
  t = 0x8100 || decide (t = s.fld Reg.macVlanCfg [n] 0 16)

/-- The frame as it is handed on: fabric tag and port VLAN tag removed as set up (spec/05 R130, R133). -/
def State.stripTags (s : State) (n cfg : Nat) (bs : List Byte) : List Byte :=
  let a := if 2 ≤ bitsOf cfg 16 2 then bs.take 12 ++ bs.drop (12 + fabLen bs) else bs
  let o := 12 + fabLen a
  if bitOf cfg 20 && decide (beAt a o 2 = s.fld Reg.macVlanCfg [n] 0 16)
      && decide (beAt a (o + 2) 2 % 4096 = s.fld Reg.macVlanCfg [n] 16 16 % 4096) then a.take o ++ a.drop (o + 4)
  else a

/-- The one error counter of a received frame, in the order of spec/05 R127; 0 where the frame is good. -/
def rxError (cfg size : Nat) (fcs full code : Bool) (early : Nat) : Nat :=
  if full then 36
  else if code then 33
  else if early ≠ 0 then early
  else if size < 64 then (if fcs then 29 else 30)
  else if bitsOf cfg 0 14 < size then (if fcs then 31 else 32)
  else if !fcs then 28 else 0

/-- Count a received frame (spec/05 R127, R141); a PCS error counts one errored block or codeword (R142, log 19). -/
def State.countRx (s : State) (n cfg : Nat) (bs : List Byte) (err : Nat) (code : Bool) : State :=
  let size := bs.length
  let s := if code then s.count (lsdCounter n (if (s.port n).fec = 0 then 3 else 1)) 1 else s
  let s := s.count (macCounter n 1) size
  let s := if 64 ≤ size then s.count (macCounter n (18 + sizeBin size)) 1 else s
  if err ≠ 0 then s.count (macCounter n err) 1
  else
    let s := (s.count (macCounter n 0) size).count (macCounter n 2) 1
    let s := s.count (macCounter n (3 + destType bs)) 1
    let s := if s.hasVlan n bs then s.count (macCounter n 6) 1 else s
    if bitsOf cfg 16 2 ≠ 0 && hasFabTag bs then s.count (macCounter n 7) 1 else s

/-! ### PAUSE and PFC (spec/05 R134-R136) -/

/-- Ticks of a pause time of `q` quanta at a port rate, rounded up (spec/05 R135). -/
def pauseTicks (rate q : Nat) : Nat := ceilDiv (q * 512) rate

/-- Set or release one priority's pause timer. -/
def State.setPause (s : State) (n p q : Nat) : State :=
  let x := s.port n
  s.setPort n { x with pauseEnd := setNth x.pauseEnd p (if q = 0 then 0 else s.now + pauseTicks x.format.1 q) }

/-- A priority is paused by a received frame (spec/05 R135). -/
def State.paused (s : State) (n p : Nat) : Bool := decide (s.now < (s.port n).pauseEnd.getD p 0)

/-- A MAC control frame has been received whole (spec/05 R134, R135). -/
def State.rxControl (s : State) (n : Nat) (bs : List Byte) (err : Nat) : State :=
  let op := beAt bs 14 2
  let mode := s.fcMode n
  if !(op = 1 || op = 0x101) || (op = 1 && mode = 2) || (op = 0x101 && mode = 1) then s.count (macCounter n 17) 1
  else if err ≠ 0 || bs.length ≠ 64 || beAt bs 0 6 ≠ 0x0180C2000001 then s
  else if op = 1 then
    let s := s.count (macCounter n 8) 1
    if mode = 1 then (List.range 8).foldl (fun t p => t.setPause n p (beAt bs 16 2)) s else s
  else
    (List.range 8).foldl (fun t p =>
      if bitOf (beAt bs 16 2) p then
        let t := t.count (macCounter n (9 + p)) 1
        if mode = 2 && bitOf (s.fld Reg.macPfcCfg [n] 24 8) p then t.setPause n p (beAt bs (18 + 2 * p) 2) else t
      else t) s

/-- PAUSE_TIMER_EXPIRY (spec/05 R135). -/
def State.pauseExpiry (s : State) (n p : Nat) : State :=
  let x := s.port n
  if x.pauseEnd.getD p 0 ≤ s.now then s.setPort n { x with pauseEnd := setNth x.pauseEnd p 0 } else s

/-- A MAC control frame. -/
def isControl (bs : List Byte) : Bool := decide (beAt bs 12 2 = 0x8808)

/-- The receive MAC takes frames (spec/05 R122). -/
def LinePort.takes (x : LinePort) : Bool := x.running && x.linkUp

/-- Hand a frame to its course (spec/05 R126, R137): `bs` as received so far. -/
def State.handOff (s : State) (n cfg : Nat) (bs : List Byte) (whole : Bool) : Nat × State :=
  let b := s.stripTags n cfg bs
  let b := if whole then b.take (b.length - 4) else b
  let x : Packet :=
    { mark :=
        { act := .lrx, entAct := .lrx, course := s.fld Reg.prsPortCourse [n] 0 2, srcPort := s.linePortId n
          ts := s.now % 2 ^ 32, len := if whole then b.length else 0 }
      bytes := b, ended := whole, since := s.now, inStore := bs.length, rxSize := bs.length }
  let r := s.newPkt x
  (r.1, r.2.storeAdd (n / 8) bs.length)

/-- RX_FRAME_START: the first 128 bytes of a frame, or the whole of a shorter one (spec/05 R126-R128, R133, R134). -/
def State.rxStart (s : State) (n : Nat) (bs : List Byte) (code : Bool) : State :=
  let x := s.port n
  if !x.takes || x.rxNow.isSome then s
  else
    let cfg := s.word Reg.macPortCfg [n]
    let whole := decide (bs.length < 128)
    let full := decide (65536 < s.line.storeLevel.getD (n / 8) 0 + bs.length)
    let ctl := isControl bs
    let fab := if ctl then (0, 0) else fabCheck cfg bs
    let s := if fab.2 ≠ 0 && !full then s.raise fab.2 (s.linePortId n) else s
    if whole then
      let err := rxError cfg bs.length (fcsGood bs) full code fab.1
      let s := s.countRx n cfg bs err code
      if ctl then s.rxControl n bs err
      else if err ≠ 0 || x.loopback = 3 then s else (s.handOff n cfg bs true).2
    else
      let fr : RxFrame := { head := bs, cfg, err := if full then 36 else fab.1, code }
      if ctl || fr.err ≠ 0 || x.loopback = 3 then s.setPort n { x with rxNow := some fr }
      else
        let r := s.handOff n cfg bs false
        r.2.setPort n { r.2.port n with rxNow := some { fr with pkt := some r.1 } }

/-- The rest of a frame joins its packet or a copy of it, which is then whole (spec/05 R126). -/
def Packet.finish (x : Packet) (rest : List Byte) (fcs : Nat) (size : Nat) : Packet :=
  let join (b : List Byte) : List Byte := (b ++ rest).take ((b ++ rest).length - fcs)
  let b := join x.bytes
  let b := if x.copy && x.trunc ≠ 0 then b.take x.trunc else b
  { x with bytes := b, raw := if x.raw = [] then [] else join x.raw, mark := { x.mark with len := b.length }, ended := true
           rxSize := size, inStore := if x.inStore = 0 then 0 else x.inStore + rest.length }

/-- The packets of a received frame still in the device: the one it was handed on as, and its copies (spec/01 R11). -/
def State.ofFrame (s : State) (p : Nat) : List Nat :=
  (s.packets.filter (fun q => decide (q.2.orig = p))).map (fun q => q.1)

/-- The frame of packet number `p` ends bad: the packet and its copies still in the device are discarded where they
stand, or stomped once their transmission has begun (spec/05 R127); the last `fcs` bytes of what is passed on are FCS
(spec/01 R13). -/
def State.badEnd (s : State) (p : Nat) (rest : List Byte) (fcs size : Nat) : State :=
  (s.ofFrame p).foldl (fun t q =>
    match t.pkt q with
    | none => t
    | some y =>
      if y.ended then t
      else if y.stage = .leaving then
        let z := y.finish rest fcs size
        t.setPkt q { z with mark := { z.mark with flags := { z.mark.flags with stomp := true } } }
      else t.dropPkt q) s

/-- The frame of packet number `p` ends good: the packet and its copies still in the device are whole. -/
def State.goodEnd (s : State) (p : Nat) (rest : List Byte) (size : Nat) : State :=
  let t := (s.ofFrame p).foldl (fun t q =>
    match t.pkt q with
    | none => t
    | some y => if y.ended then t else t.setPkt q (y.finish rest 4 size)) s
  match s.pkt p with
  | none => t
  | some x => if x.inStore = 0 then t else t.storeAdd (portLocal x.mark.srcPort / 8) rest.length

/-- End the reception of a frame; `cut` tells that the link went down in it (spec/05 R122, R127, R128). -/
def State.rxFinish (s : State) (n : Nat) (fr : RxFrame) (rest : List Byte) (code : Bool) : State :=
  let bs := fr.head ++ rest
  let held := match fr.pkt with | some p => (match s.pkt p with | some x => decide (x.inStore ≠ 0) | none => false) | none => false
  let full := fr.err = 36 || (held && decide (65536 < s.line.storeLevel.getD (n / 8) 0 + rest.length))
  let err := rxError fr.cfg bs.length (fcsGood bs) full (code || fr.code) (if fr.err = 36 then 0 else fr.err)
  let s := s.setPort n { s.port n with rxNow := none }
  let s := s.countRx n fr.cfg bs err (code || fr.code)
  if isControl fr.head then s.rxControl n bs err
  else
    match fr.pkt with
    | none => s
    | some p =>
      let kept := rest.take (bitsOf fr.cfg 0 14 - fr.head.length)
      if err ≠ 0 then s.badEnd p kept (4 - (rest.length - kept.length)) bs.length
      else s.goodEnd p rest bs.length

/-- RX_FRAME_END: the rest of the frame, FCS included. -/
def State.rxEnd (s : State) (n : Nat) (rest : List Byte) (code : Bool) : State :=
  match (s.port n).rxNow with
  | some fr => if (s.port n).takes then s.rxFinish n fr rest code else s
  | none => s

/-- RX_CONTROL_FRAME: a whole MAC control frame (spec/05 R134). -/
def State.rxControlFrame (s : State) (n : Nat) (bs : List Byte) : State :=
  if !(s.port n).takes || (s.port n).rxNow.isSome || !isControl bs then s
  else
    let cfg := s.word Reg.macPortCfg [n]
    let err := rxError cfg bs.length (fcsGood bs) false false 0
    (s.countRx n cfg bs err false).rxControl n bs err

/-! ### The transmit side (spec/05 R129-R132, R138) -/

/-- The fabric tag of a frame (spec/05 R131, R132). -/
def fabricTag (v2 : Bool) (tc : Nat) (m : Mark) : List Byte :=
  let w0 := 0x88B5 * 65536 + (if v2 then 0x2300 else 0x1200) + tc * 32 + b2n (m.colour ≠ 0) * 16 + b2n (v2 && m.flags.ecnCe) * 8
  let w1 := m.inst % 4096 * 2 ^ 20 + m.srcPort * 4096 + (if v2 then m.cls * 16 else 0)
  toBe 4 w0 ++ toBe 4 w1 ++ (if v2 then toBe 4 m.hash else [])

/-- The frame with the port's tags, padded to 60 bytes. -/
def State.txBytes (s : State) (n : Nat) (x : Packet) : List Byte :=
  let cfg := s.word Reg.macPortCfg [n]
  let fab := if bitOf cfg 18 then fabricTag (bitOf cfg 19) (s.fld Reg.tmsTqCfg [x.txq] 9 3) x.mark else []
  let vlan := if bitOf cfg 21 then toBe 2 (s.fld Reg.macVlanCfg [n] 0 16) ++ toBe 2 (s.fld Reg.macVlanCfg [n] 16 16) else []
  let b := x.bytes.take 12 ++ fab ++ vlan ++ x.bytes.drop 12
  b ++ List.replicate (60 - b.length) 0

/-- A frame with its FCS, or with the complement of it. -/
def withFcs (b : List Byte) (good : Bool) : List Byte := b ++ toLe 4 (if good then crc32 b else 2 ^ 32 - 1 - crc32 b)

/-- Count a frame sent (spec/05 R141); `how` is 0 for a good one, or its error counter. -/
def State.countTx (s : State) (n : Nat) (bs : List Byte) (how : Nat) : State :=
  let s := s.count (macCounter n (56 + sizeBin bs.length)) 1
  let s := if s.hasVlan n bs then s.count (macCounter n 45) 1 else s
  let s := if hasFabTag bs then s.count (macCounter n 46) 1 else s
  if how ≠ 0 then s.count (macCounter n how) 1
  else ((s.count (macCounter n 40) bs.length).count (macCounter n 41) 1).count (macCounter n (42 + destType bs)) 1

/-- The transmit timestamp at this instant (spec/05 R138). -/
def State.txTimestamp (s : State) (n : Nat) : Nat :=
  psToNs ((s.tsu.todNs : Int) * 1000 + ((s.port n).format.2.2 : Int) * 1000 + signedOf 16 (s.fld Reg.macPtpCorr [n] 16 16))

/-- A packet carries the tag of an item that waits for its timestamp (spec/05 R138). -/
def State.carriesTag (s : State) (x : Packet) : Bool :=
  match x.item with
  | none => false
  | some (q, first) =>
    x.itemEnd && !x.copy && (s.queue q).items.any (fun i => decide (i.first = first) && i.tsWait)

/-- Take the transmit timestamp of a frame with ts_req (spec/05 R138), where the feature is present (spec/22 R672). -/
def State.takeTxTs (s : State) (n : Nat) (x : Packet) : State :=
  if !x.mark.flags.tsReq || !bitOf s.fuses.features 10 then s
  else
    let t := s.txTimestamp n
    if s.carriesTag x then s.updItem x.item (fun i => { i with tsWait := false, ts := some t })
    else
      let y := s.port n
      if 16 ≤ y.txts.length then s.raise 53 (s.linePortId n)
      else s.setPort n { y with txts := y.txts ++ [(x.mark.user % 65536, t)] }

/-- Send the frame that a port is transmitting; `cut` ends it with a complemented FCS whatever it holds. -/
def State.sendFrame (s : State) (n : Nat) (cut : Bool) : State :=
  let y := s.port n
  match y.txNow with
  | none => s
  | some p =>
    let s := s.setPort n { y with txNow := none }
    match s.pkt p with
    | none => s
    | some x =>
      let how := if cut || !x.ended then 67 else if x.mark.flags.stomp then 66 else 0
      let b := withFcs (s.txBytes n x) (how = 0)
      let s := (s.countTx n b how).send (.frame n b)
      let cfg := s.word Reg.macPortCfg [n]
      let s := if bitOf cfg 18 && !bitOf cfg 19 then s.count (macCounter n 68) 1 else s
      (s.takeTxTs n x).removePkt p

/-- The end marker of a frame has passed every stage that acts on it, or has not arrived. -/
def Packet.settled (x : Packet) : Bool :=
  !x.ended || (x.charged.isNone && !x.prov && decide (x.raw = []) && decide (x.late = []))

/-- TX_FRAME: the transmit MAC sends its frame; a cut-through frame whose end has not arrived runs out of data (spec/05
R129). -/
def State.txFrame (s : State) (n : Nat) : State :=
  match (s.port n).txNow.bind (fun p => s.pkt p) with
  | some x => if (s.port n).takes && x.settled then s.sendFrame n false else s
  | none => s

/-- The pause or PFC frame that a port sends now (spec/05 R136). -/
def State.fcFrame (s : State) (n : Nat) : List Byte :=
  let x := s.port n
  let q := s.fld Reg.macPfcCfg [n] 0 16
  let en := s.fld Reg.macPfcCfg [n] 16 8
  let sa := toLe 4 (s.word Reg.macPauseSaLo [n]) ++ toLe 2 (s.fld Reg.macPauseSaHi [n] 0 16)
  let body :=
    if s.fcMode n = 1 then toBe 2 1 ++ toBe 2 (if x.xoff = 0 then 0 else q)
    else toBe 2 0x101 ++ toBe 2 en
      ++ (List.range 8).flatMap (fun p => toBe 2 (if bitOf en p && bitOf x.xoff p then q else 0))
  let b := toBe 6 0x0180C2000001 ++ sa ++ toBe 2 0x8808 ++ body
  b ++ List.replicate (60 - b.length) 0

/-- A port can send a flow control frame now: link up, no frame in progress, flow control in use (spec/05 R136, R140). -/
def State.fcCan (s : State) (n : Nat) : Bool :=
  let x := s.port n
  x.takes && x.txNow.isNone && decide (x.loopback ≠ 3) && decide (s.fcMode n ≠ 0)

/-- Send a flow control frame. -/
def State.sendFc (s : State) (n : Nat) : State :=
  let b := withFcs (s.fcFrame n) true
  let s := (s.countTx n b 0).send (.frame n b)
  let x := s.port n
  let s :=
    if s.fcMode n = 1 then s.count (macCounter n 47) 1
    else (List.range 8).foldl (fun t p =>
      if bitOf x.xoff p && bitOf (s.fld Reg.macPfcCfg [n] 16 8) p then t.count (macCounter n (48 + p)) 1 else t) s
  let y := s.port n
  let gap := s.fld Reg.macPfcCfg [n] 0 16 * 512 / (2 * max 1 y.format.1)
  s.setPort n { y with fcPending := false, refreshAt := if y.xoff = 0 then none else some (s.now + gap) }

/-- PFC_FRAME_SEND: a state change waits, and no frame is in progress. -/
def State.pfcSend (s : State) (n : Nat) : State := if (s.port n).fcPending && s.fcCan n then s.sendFc n else s

/-- PFC_REPEAT: the refresh interval of an asserted priority has ended. -/
def State.pfcRepeat (s : State) (n : Nat) : State :=
  let x := s.port n
  match x.refreshAt with
  | none => s
  | some t =>
    if s.now < t || x.xoff = 0 then s
    else if s.fcCan n then s.sendFc n
    else s.setPort n { x with fcPending := true, refreshAt := none }

/-- TXTS_POP: the oldest transmit timestamp is removed (spec/05 R152). -/
def State.txtsPop (n data : Nat) : Eff := fun s =>
  if bitOf data 0 then
    let x := s.port n
    (s.setPort n { x with txts := x.txts.drop 1 }, true)
  else (s, true)

/-! ### Links (spec/05 R120-R122, R148) -/

/-- The line link comes up. -/
def State.lineUp (s : State) (n : Nat) : State :=
  let x := s.port n
  (s.setPort n { x with linkUp := true, downSince := none, fcPending := x.fcPending || decide (x.xoff ≠ 0) }).raise 35
    (s.linePortId n)

/-- The line link goes down: the frame being sent is cut off, and one being received is cut (spec/05 R122). -/
def State.lineDown (s : State) (n : Nat) : State :=
  let s := match (s.port n).rxNow with | some fr => s.rxFinish n fr [] true | none => s
  let x := s.port n
  let s := s.setPort n { x with linkUp := false, txNow := none, downSince := some s.now, refreshAt := none }
  let s := match x.txNow with | some p => (s.count (macCounter n 69) 1).dropPkt p | none => s
  (s.count (lsdCounter n 4) 1).raise 36 (s.linePortId n)

/-- What the receive side sees changes; the link follows (spec/05 R122) once the port is calibrated (spec/04 R100) and while
its octet's reference is present (spec/22 R659). -/
def State.lineSees (s : State) (n : Nat) (align lf rf : Bool) : State :=
  let x := s.port n
  if !x.running then s
  else
    let s := s.setPort n { x with align, localFault := align && lf, remoteFault := rf }
    let up := align && !lf && !rf
    let can := bitOf s.bring.readyPort n
      && (if s.bit Reg.lsdOctetCfg [n / 8] 8 then s.clocks.lrefb else s.clocks.lrefa)
    if up && !can then s
    else if up && !x.linkUp then s.lineUp n
    else if !up && x.linkUp then s.lineDown n else s

/-- LINE_LINK_UP: alignment without fault; with an_en, only once auto-negotiation is done (spec/05 R121, R122). -/
def State.lineLinkUp (s : State) (n : Nat) (an : Bool) : State :=
  let x := s.port n
  if !x.running || x.linkUp || (x.anEn && !an) then s
  else (s.setPort n { x with anDone := x.anEn && an }).lineSees n true false false

/-- LINE_LINK_DOWN. -/
def State.lineLinkDown (s : State) (n : Nat) : State :=
  if (s.port n).linkUp then s.lineSees n false false false else s

/-- The octet's reference was present at the release point (spec/05 R120, R145). -/
def State.refPresent (s : State) (o : Nat) : Bool :=
  if s.bit Reg.lsdOctetCfg [o] 8 then s.clocks.lrefbAtRelease else s.clocks.lrefaAtRelease

/-- Enable port n under its set-up (spec/05 R120, R140, R147): what the formation does not define has no effect. -/
def State.enablePort (s : State) (n : Nat) : State :=
  let x := s.port n
  let lanes := s.portLanes n
  let w := s.word Reg.lsdPortCtl [n]
  let rate := bitsOf w 1 2
  let fec := bitsOf w 3 2
  if lanes = 0 || x.running then s
  else if (lineFormat lanes rate fec).isNone || !s.refPresent (n / 8) then
    (s.setPort n { x with cfgInvalid := true }).raise 37 (s.linePortId n)
  else
    s.setPort n { x with
      running := true, lanes, laneRate := rate, fec, anEn := bitOf w 5, loopback := bitsOf w 6 2, cfgInvalid := false
      txEq := s.fld Reg.lsdLaneCtl [n] 4 4
      align := false, localFault := false, remoteFault := false, anDone := false, downSince := some s.now }

/-- Discard every packet queued for a line port with BUF_PORT_DOWN (spec/16 R503). -/
def State.flushLine (s : State) (n : Nat) : State :=
  s.packets.foldl (fun t p =>
    match p.2.eg with
    | .line k _ => if k = n && p.2.stage = .queued then t.dropBuf p.1 Reason.bufPortDown else t
    | _ => t) s

/-- Disable port n: its link goes down, its queued packets are discarded and pending splits are applied (spec/05 R124,
spec/16 R503). -/
def State.disablePort (s : State) (n : Nat) : State :=
  let s := if (s.port n).linkUp then s.lineDown n else s
  let x := s.port n
  let s := s.setPort n { x with running := false, align := false, localFault := false, remoteFault := false
                                anDone := false, downSince := none }
  (s.flushLine n).applySplits (n / 8)

/-- A write to LSD_PORT_CTL (spec/05 R140, R147). -/
def State.portCtl (m : Master) (n data : Nat) : Eff := fun s =>
  let r := State.writeReg m Reg.lsdPortCtl [n] data s
  if !r.2 then r
  else if bitOf data 0 then (r.1.enablePort n, true)
  else if (r.1.port n).running then (r.1.disablePort n, true) else r

/-- A packet for a line port that cannot send is discarded at admission (spec/16 R503). -/
def State.lineShut (s : State) (n : Nat) : Bool :=
  let x := s.port n
  !x.running
    || (match x.downSince with
        | some t => decide (t + 1000 * s.fld Reg.bufPortCfg [n] 0 16 ≤ s.now)
        | none => false)

/-- PORT_DOWN_FLUSH: the link has been down for down_flush_us (spec/16 R503). -/
def State.portDownFlush (s : State) (n : Nat) : State := if s.lineShut n then s.flushLine n else s

/-! ### Block resets (spec/04 R673) -/

/-- A block reset of LSD: every link goes down and trains again. -/
def State.resetLsd (s : State) : State :=
  s.line.ports.foldl (fun t p =>
    if !p.2.running then t
    else
      let t := if p.2.linkUp then t.lineDown p.1 else t
      t.setPort p.1 { t.port p.1 with align := false, localFault := false, remoteFault := false, anDone := false }) s

/-- Line packets of port n that wait in the receive store. -/
def State.storeWaiting (s : State) (n : Nat) : List Nat :=
  (s.packets.filter (fun p => decide (p.2.stage = .waitSlot) && decide (p.2.mark.entAct = .lrx)
    && decide (p.2.mark.srcPort = s.linePortId n))).map (fun p => p.1)

/-- A block reset of MAC on one port. -/
def State.resetMacPort (s : State) (n : Nat) : State :=
  let ws := s.storeWaiting n
  let s := ws.foldl (fun t p => (t.count (macCounter n 36) 1).dropPkt p) s
  let x := s.port n
  let s :=
    match x.rxNow with
    | none => s
    | some fr =>
      match fr.pkt with
      | some p => if ws.contains p then s.setPort n { x with rxNow := none }
                  else s.setPort n { x with rxNow := some { fr with code := true } }
      | none => (s.count (macCounter n 36) 1).setPort n { s.port n with rxNow := none }
  let s := s.sendFrame n true
  let y := s.port n
  s.setPort n { y with pauseEnd := List.replicate 8 0, fcPending := decide (y.xoff ≠ 0), refreshAt := none, txts := [] }

/-- A block reset of MAC. -/
def State.resetMac (s : State) : State :=
  let s := s.line.ports.foldl (fun t p => t.resetMacPort p.1) s
  s.qmg.queues.foldl (fun t q =>
    let x := t.queue q.1
    t.setQueue q.1 { x with items := x.items.map (fun i => { i with tsWait := false }) }) s

end Sys2Proof.Machine
end

