-- ==== Sys2Proof/Machine/FwdOps.lean ====
section
/-! DEFINITION. Forwarding: keys, tables, resolution, learning, aging and the table commands (spec/13). -/

namespace Sys2Proof.Machine

/-- Counter k of forwarding (spec/13 R408). -/
def fwdCounter (k : Nat) : Nat := blockBase 10 + 0x180000 + 8 * k

/-- The hash function of the tables (spec/11 R330). -/
def prsHash (seed : Nat) (bs : List Byte) : Nat := Nat.xor (crc32cRaw seed bs) 0xFFFFFFFF

/-! ### Notices (spec/13 R396) -/

/-- The counter of a notice kind (spec/13 R408). -/
def noticeCounter (kind : Nat) : Nat :=
  match kind with
  | 1 => 7 | 2 => 8 | 3 => 9 | 4 => 12 | 5 => 13 | _ => 14

/-- Write a notice to the learn ring, or lose it when the ring is full (spec/13 R396). -/
def State.fwdNotice (s : State) (kind domain ktype value portA portB : Nat) : State :=
  if 8192 ≤ (s.fwd.prod + 2 ^ 32 - s.word Reg.fwdLrnCons []) % 2 ^ 32 then (s.count (fwdCounter 10) 1).raise 229 0
  else
    let ws := [kind + domain % 8192 * 2 ^ 8 + ktype * 2 ^ 21 + portA % 256 * 2 ^ 24, value % 2 ^ 32,
      value / 2 ^ 32 % 65536 + portB % 256 * 65536, s.now % 2 ^ 32]
    ({ s with fwd := { s.fwd with
        ring := mapPut s.fwd.ring (s.fwd.prod % 8192) ws, prod := (s.fwd.prod + 1) % 2 ^ 32 } }).count
      (fwdCounter (noticeCounter kind)) 1

/-! ### Keys (spec/13 R378, R390) -/

/-- A key of the exact-match and express tables: bytes 0x00-0x07 of an entry as a number (spec/13 R383, R384). -/
def emKey (value domain ktype : Nat) : Nat := value % 2 ^ 48 + domain % 8192 * 2 ^ 48 + ktype % 8 * 2 ^ 61

/-- The key of an entry. -/
def EmEntry.key (e : EmEntry) : Nat := emKey e.value e.domain e.ktype

/-- The dst_port, queue and kind fields of a destination word (spec/13 R380). -/
def destPort (d : Nat) : Nat := bitsOf d 0 8
def destQueue (d : Nat) : Nat := bitsOf d 8 16
def destKind (d : Nat) : Nat := bitsOf d 24 3

/-- A destination word in range: its kind and its queue field (spec/13 R380, R399). -/
def destOk (d : Nat) (none_ : Bool) : Bool :=
  match destKind d with
  | 0 => true
  | 1 => decide (destQueue d < 16384)
  | 2 => decide (destQueue d < 4096)
  | 3 => decide (destQueue d = 0)
  | 4 => none_ && decide (destQueue d = 0)
  | _ => false

/-- The Mark's domain (spec/13 R378). -/
def State.domainOf (s : State) (m : Mark) (prof : Nat) : Nat :=
  if bitOf prof 12 then m.user % 8192 else s.word Reg.fwdSrcportDom [m.srcPort]

/-- The chosen IP header: type and byte offset (spec/13 R378). -/
def chosenIp (m : Mark) (inner : Bool) : Option (Nat × Nat) :=
  let l := m.hdrs.filter (fun h => h.typ = 6 || h.typ = 7)
  ((if inner then l.getLast? else l.head?).map (fun h => (h.typ, 2 * h.off)))

/-- An L2 key from the destination or source address of header 0 (spec/13 R378). -/
def l2Key (m : Mark) (bs : List Byte) (dom : Nat) (src : Bool) : Option Nat :=
  if (m.hdr 0).typ ≠ 1 then none
  else some (emKey (leAt bs (2 * (m.hdr 0).off + if src then 6 else 0) 6) dom 0)

/-- The IPv4 host key (spec/13 R378). -/
def hostKey (m : Mark) (bs : List Byte) (dom : Nat) (inner : Bool) : Option Nat :=
  match chosenIp m inner with
  | some (6, o) => some (emKey (leAt bs (o + 16) 4) dom 1)
  | _ => none

/-- The flow key: bytes 0x00-0x27 of an entry as a number (spec/13 R390, R391), with the header choice and ordering
of the flow hash (spec/11 R330). -/
def flowKey (cfg : Nat) (m : Mark) (bs : List Byte) : Option Nat :=
  let hs := m.hdrs.map (fun h => (h.typ, 2 * h.off))
  let idx := (List.range hs.length).filter (fun i => (hs.getD i (0, 0)).1 = 6 || (hs.getD i (0, 0)).1 = 7)
  match (if bitOf cfg 10 then idx.getLast? else idx.head?) with
  | none => none
  | some i =>
    let h := hs.getD i (0, 0)
    let o := h.2
    let v6 := decide (h.1 = 7)
    let a := if v6 then bytesAt bs (o + 8) 16 else bytesAt bs (o + 12) 4
    let b := if v6 then bytesAt bs (o + 24) 16 else bytesAt bs (o + 16) 4
    let swap := bitOf cfg 11 && decide (beBytes b < beBytes a)
    let proto := leAt bs (if v6 then o + 6 else o + 9) 1
    let rest := hs.drop (i + 1)
    let passed := rest.takeWhile (fun g => [8, 9, 10].contains g.1)
    let frag := (h.1 = 6 && ip4Frag bs o) || passed.any (fun g => g.1 = 9)
    let ports : Option (List Byte) :=
      match (rest.drop passed.length).head? with
      | some g =>
        if bitOf cfg 12 && (g.1 = 12 || g.1 = 13) && !frag then
          some (if swap then bytesAt bs (g.2 + 2) 2 ++ bytesAt bs g.2 2 else bytesAt bs g.2 4)
        else none
      | none => none
    let first := if swap then b else a
    let second := if swap then a else b
    some (leBytes first + leBytes second * 2 ^ 128 + leBytes (ports.getD []) * 2 ^ 256 + proto * 2 ^ 288
      + b2n v6 * 2 ^ 296 + b2n ports.isSome * 2 ^ 297)

/-! ### The express and exact-match tables (spec/13 R382-R388) -/

/-- The valid express entry with the lowest index that a key matches (spec/13 R382). -/
def State.expressFind (s : State) (key : Nat) : Option EmEntry :=
  (s.fwd.express.find? (fun p => decide (p.2.key = key))).map (·.2)

/-- The candidate buckets of a key under four seeds, in bank order (spec/13 R383). -/
def emBuckets (seeds : List Nat) (key : Nat) : List (Nat × Nat) :=
  (List.range 4).map (fun b => (b, prsHash (ix seeds b) (toLe 8 key) % 131072))

/-- The number of slot i of a bucket. -/
def emSlot (b : Nat × Nat) (i : Nat) : Nat := (b.1 * 131072 + b.2) * 4 + i

/-- The bucket of a slot number. -/
def emSlotBucket (n : Nat) : Nat × Nat := (n / 4 / 131072, n / 4 % 131072)

/-- The seed sets that lookups probe: FWD_SEED, then those of a REHASH (spec/13 R389). -/
def State.emSeeds (s : State) : List (List Nat) :=
  (List.range 4).map (fun k => s.word Reg.fwdSeed [k]) :: s.fwd.probe

/-- The seeds that placements use (spec/13 R385, R389). -/
def State.placeSeeds (s : State) : List Nat := s.emSeeds.getLast?.getD []

/-- Where an exact-match entry lies. -/
inductive EmPlace where
  | slot (n : Nat)
  | stash (n : Nat)
  deriving DecidableEq, Repr

/-- The entry at a place. -/
def Fwd.emAt (f : Fwd) : EmPlace → Option EmEntry
  | .slot n => mapFind f.buckets n
  | .stash n => mapFind f.stash n

/-- The table with an entry written to a place; a stash placement takes the next order number (spec/13 R386). -/
def Fwd.emPut (f : Fwd) (p : EmPlace) (e : EmEntry) : Fwd :=
  match p with
  | .slot n => { f with buckets := mapPut f.buckets n { e with stamp := 0 } }
  | .stash n => { f with stash := mapPut f.stash n { e with stamp := f.nextStamp }, nextStamp := f.nextStamp + 1 }

/-- The table with an entry rewritten where it lies. -/
def Fwd.emWrite (f : Fwd) (p : EmPlace) (e : EmEntry) : Fwd :=
  match p with
  | .slot n => { f with buckets := mapPut f.buckets n e }
  | .stash n => { f with stash := mapPut f.stash n e }

/-- The table with a place cleared. -/
def Fwd.emClear (f : Fwd) : EmPlace → Fwd
  | .slot n => { f with buckets := mapErase f.buckets n }
  | .stash n => { f with stash := mapErase f.stash n }

/-- The place of a key: its candidate slots under every probed seed set, then the stashes (spec/13 R383, R389). -/
def Fwd.emFind (f : Fwd) (sets : List (List Nat)) (key : Nat) : Option EmPlace :=
  let cand := sets.flatMap (fun seeds => (emBuckets seeds key).flatMap (fun b =>
    (List.range 4).map (fun i => EmPlace.slot (emSlot b i))))
  (cand ++ f.stash.map (fun p => EmPlace.stash p.1)).find? (fun p =>
    match f.emAt p with | some e => decide (e.key = key) | none => false)

/-- The first free slot of a bucket. -/
def Fwd.freeIn (f : Fwd) (b : Nat × Nat) : Option Nat :=
  ((List.range 4).map (emSlot b)).find? (fun n => (mapFind f.buckets n).isNone)

/-- Free slots of a bucket. -/
def Fwd.freeCount (f : Fwd) (b : Nat × Nat) : Nat :=
  (((List.range 4).map (emSlot b)).filter (fun n => (mapFind f.buckets n).isNone)).length

/-- The first bucket with the most free slots, if any is free (spec/13 R385). -/
def Fwd.mostFree (f : Fwd) (bs : List (Nat × Nat)) : Option (Nat × Nat) :=
  bs.foldl (fun best b =>
    match best with
    | none => if 0 < f.freeCount b then some b else none
    | some c => if f.freeCount c < f.freeCount b then some b else some c) none

/-- The other candidate buckets of the occupant of a slot, in bank order (spec/13 R385). -/
def Fwd.otherBuckets (f : Fwd) (seeds : List Nat) (n : Nat) : List (Nat × Nat) :=
  match mapFind f.buckets n with
  | some e => (emBuckets seeds e.key).filter (fun b => decide (b ≠ emSlotBucket n))
  | none => []

/-- The shortest chain of moves, breadth first (spec/13 R385): the free slot, then the slots of the chain from its
far end to its head.  `n` is the number of moves left. -/
def Fwd.shortestChain (f : Fwd) (seeds : List Nat) : Nat → List (List Nat) → Option (List Nat)
  | 0, _ => none
  | n + 1, front =>
    match front.findSome? (fun path =>
        ((f.otherBuckets seeds (ix path 0)).findSome? f.freeIn).map (fun d => d :: path)) with
    | some c => some c
    | none =>
      f.shortestChain seeds n (front.flatMap (fun path =>
        ((f.otherBuckets seeds (ix path 0)).flatMap (fun b => (List.range 4).map (emSlot b))).filterMap (fun sl =>
          if path.contains sl then none else some (sl :: path))))

/-- Move the occupants of a chain, each into the slot before it in the list (spec/13 R385). -/
def Fwd.moveChain (f : Fwd) : List Nat → Fwd
  | d :: n :: rest =>
    match mapFind f.buckets n with
    | some e => Fwd.moveChain ((f.emPut (.slot d) e).emClear (.slot n)) (n :: rest)
    | none => Fwd.moveChain f (n :: rest)
  | _ => f

/-- The stash with the fewest entries that is not full; the lower bank on a tie (spec/13 R385). -/
def Fwd.leastStash (f : Fwd) : Option Nat :=
  let n (b : Nat) := (f.stash.filter (fun p => decide (p.1 / 64 = b))).length
  (List.range 4).foldl (fun best b =>
    match best with
    | none => if n b < 64 then some b else none
    | some c => if n b < n c then some b else some c) none

/-- Place an entry without eviction: a free slot, a chain of moves, or a stash (spec/13 R385). -/
def Fwd.emPlace (f : Fwd) (seeds : List Nat) (kick : Nat) (e : EmEntry) : Option Fwd :=
  let bs := emBuckets seeds e.key
  match (f.mostFree bs).bind f.freeIn with
  | some n => some (f.emPut (.slot n) e)
  | none =>
    match f.shortestChain seeds kick (bs.flatMap (fun b => (List.range 4).map (fun i => [emSlot b i]))) with
    | some c => some ((f.moveChain c).emPut (.slot (c.getLast?.getD 0)) e)
    | none =>
      f.leastStash.bind (fun b =>
        (((List.range 64).map (b * 64 + ·)).find? (fun n => (mapFind f.stash n).isNone)).map
          (fun n => f.emPut (.stash n) e))

/-- A freed bucket slot takes the stash entry placed earliest that may lie there (spec/13 R386). -/
def Fwd.promote (f : Fwd) (sets : List (List Nat)) (n : Nat) : Fwd :=
  let fits := f.stash.filter (fun p => sets.any (fun seeds => (emBuckets seeds p.2.key).contains (emSlotBucket n)))
  match fits.foldl (fun (best : Option (Nat × EmEntry)) p =>
      match best with
      | none => some p
      | some q => if p.2.stamp < q.2.stamp then some p else some q) none with
  | some (k, e) => (f.emPut (.slot n) e).emClear (.stash k)
  | none => f

/-- Remove the entry at a place (spec/13 R386). -/
def Fwd.emRemove (f : Fwd) (sets : List (List Nat)) (p : EmPlace) : Fwd :=
  match p with
  | .slot n => (f.emClear p).promote sets n
  | .stash _ => f.emClear p

/-- Entries of a ktype (spec/13 R386, FWD_EM_KT_STAT). -/
def Fwd.ktUsed (f : Fwd) (k : Nat) : Nat :=
  (f.buckets.filter (fun p => decide (p.2.ktype = k))).length + (f.stash.filter (fun p => decide (p.2.ktype = k))).length

/-- The tick field that an entry keeps (spec/13 R384). -/
def State.bornNow (s : State) : Nat := s.now / 2 ^ 20 % 65536

/-- Choose one of `n` candidates by the device's generator (spec/13 R388; free value, log 12). -/
def State.choose (s : State) (n : Nat) : Nat × State :=
  let r := s.takeFree
  (Config.draw r.1 % n, r.2)

/-- No place for a new entry (spec/13 R388, R389). -/
def State.noPlace (s : State) (seeds : List Nat) (e : EmEntry) : State × Nat :=
  let code := s.fld Reg.fwdTblCfg [] 2 2
  let cands := ((emBuckets seeds e.key).flatMap (fun b => (List.range 4).map (emSlot b))).filterMap
    (fun n => (mapFind s.fwd.buckets n).bind (fun o => if o.static then none else some (n, o)))
  if !(code = 1 || code = 2) || !bitOf s.fuses.features 8 || s.fwd.rehash || cands = [] then
    ((s.fwdNotice 5 e.domain e.ktype e.value (destPort e.dest) 0).raise 227 0, 6)
  else
    let pick : (Nat × EmEntry) × State :=
      if code = 1 then
        let r := s.choose cands.length
        (cands.getD r.1 (0, {}), r.2)
      else
        let age (o : EmEntry) : Nat := (s.bornNow + 65536 - o.born) % 65536
        (cands.tail.foldl (fun best c => if age best.2 < age c.2 then c else best) (cands.headD (0, {})), s)
    let o := pick.1.2
    let t := { pick.2 with fwd := pick.2.fwd.emClear (.slot pick.1.1) }
    let t := t.fwdNotice 6 o.domain o.ktype o.value (destPort o.dest) 0
    ({ t with fwd := t.fwd.emPut (.slot pick.1.1) e }, 0)

/-- EM_INSERT (spec/13 R385-R389): the state after, and the result code. -/
def State.emInsert (s : State) (e : EmEntry) (replace : Bool) : State × Nat :=
  -- every INSERT after a failed rehash (spec/13 R389)
  if s.fwd.rehashFailed && !s.fwd.rehash then (s, 1)
  else
  match s.fwd.emFind s.emSeeds e.key with
  | some p =>
    if !replace then (s, 4)
    else
      match s.fwd.emAt p with
      | some o =>
        ({ s with fwd := s.fwd.emWrite p { o with dest := e.dest, static := e.static, ageEn := e.ageEn } }, 0)
      | none => (s, 4)
  | none =>
    if s.word Reg.fwdEmLimit [e.ktype] ≤ s.fwd.ktUsed e.ktype then (s, 7)
    else
      let e := { e with hit := false, born := s.bornNow, stamp := 0 }
      match s.fwd.emPlace s.placeSeeds (s.fld Reg.fwdTblCfg [] 6 4) e with
      | some f => ({ s with fwd := f }, 0)
      | none => s.noPlace s.placeSeeds e

/-! ### The flow table (spec/13 R390-R392) -/

/-- First index and size of a region (spec/13 R390). -/
def flowRegion (r : Nat) : Nat × Nat :=
  if r < 2048 then (32768 * r, 32768) else (67108864 + 1048576 * (r - 2048), 1048576)

/-- The region of a flow index. -/
def regionOfFlow (i : Nat) : Nat := if i < 67108864 then i / 32768 else 2048 + (i - 67108864) / 1048576

/-- The first slots of the two candidate buckets of a key in a region (spec/13 R391). -/
def State.flowBuckets (s : State) (r key : Nat) : List Nat :=
  let reg := flowRegion r
  let n := reg.2 / 8
  let a := prsHash (s.word Reg.fwdSeed [4]) (toLe 40 key) % n
  let b := prsHash (s.word Reg.fwdSeed [5]) (toLe 40 key) % n
  let b := if b = a then Nat.xor a 1 else b
  [reg.1 + 8 * a, reg.1 + 8 * b]

/-- The candidate slots of a key. -/
def State.flowSlots (s : State) (r key : Nat) : List Nat :=
  (s.flowBuckets r key).flatMap (fun b => (List.range 8).map (b + ·))

/-- The index of a key in a region. -/
def State.flowFind (s : State) (r key : Nat) : Option Nat :=
  (s.flowSlots r key).find? (fun i => match mapFind s.fwd.flows i with | some e => decide (e.key = key) | none => false)

/-- A flow handle (spec/13 R391). -/
def flowHandle (i : Nat) : Nat := 2 ^ 31 + i

/-- The state with a flow entry written. -/
def State.setFlow (s : State) (i : Nat) (e : FlowEntry) : State :=
  { s with fwd := { s.fwd with flows := mapPut s.fwd.flows i e } }

/-- FLOW_INSERT (spec/13 R391): the state after, the result and the handle. -/
def State.flowInsert (s : State) (r : Nat) (e : FlowEntry) (replace : Bool) : State × Nat × Nat :=
  match s.flowFind r e.key with
  | some i =>
    if !replace then (s, 4, 0)
    else
      match mapFind s.fwd.flows i with
      | some o => (s.setFlow i { e with hit := o.hit }, 0, flowHandle i)
      | none => (s, 4, 0)
  | none =>
    let free (b : Nat) : List Nat := ((List.range 8).map (b + ·)).filter (fun i => (mapFind s.fwd.flows i).isNone)
    let bs := s.flowBuckets r e.key
    let a := ix bs 0
    let b := ix bs 1
    let c := if (free a).length < (free b).length then b else a
    match free c with
    | i :: _ => (s.setFlow i { e with hit := false }, 0, flowHandle i)
    | [] =>
      let code := s.fld Reg.fwdTblCfg [] 4 2
      if !(code = 1 || code = 2) || !bitOf s.fuses.features 8 then
        ((s.fwdNotice 5 r 7 0 (destPort e.dest) 0).raise 227 0, 6, 0)
      else
        let cands := s.flowSlots r e.key
        let q := s.choose cands.length
        let i := cands.getD q.1 0
        let o := mapGet {} s.fwd.flows i
        let t := q.2.fwdNotice 6 r 7 (flowHandle i) (destPort o.dest) 0
        (t.setFlow i { e with hit := false }, 0, flowHandle i)

/-- The region of a Mark's flow lookup (spec/13 R390). -/
def State.lookupRegion (s : State) (m : Mark) (prof : Nat) : Option Nat :=
  match bitsOf prof 5 2 with
  | 1 => if m.inst < 2048 then some m.inst else none
  | 2 =>
    let r := s.word Reg.fwdClassRegion [m.cls]
    if r < 2112 then some r else none
  | _ => none

/-! ### Longest-prefix match (spec/13 R393) -/

/-- The route with the longest prefix that covers an address of `w` bits. -/
def State.routeFind (s : State) (vrf : Nat) (v6 : Bool) (addr : Nat) : Option Route :=
  let w := if v6 then 128 else 32
  (s.fwd.routes.filter (fun r => decide (r.vrf = vrf) && decide (r.v6 = v6)
      && decide (addr / 2 ^ (w - r.len) = r.pfx / 2 ^ (w - r.len)))).foldl
    (fun best r =>
      match best with
      | none => some r
      | some b => if b.len < r.len then some r else some b) none

/-- Routes of an address family held. -/
def State.routesHeld (s : State) (v6 : Bool) : Nat := (s.fwd.routes.filter (fun r => decide (r.v6 = v6))).length

/-! ### Resolution (spec/13 R381) -/

/-- Whether a port is a line or Quoin port of a module. -/
def lineOrQuoin (p : Nat) : Bool := portLocal p < 32 || (40 ≤ portLocal p && portLocal p ≤ 43)

/-- A host queue (spec/13 R381): inst and gen of the queue's instance, and its host port; none for a bad one. -/
def State.hostDest (s : State) (m : Mark) (q : Nat) : Option Mark :=
  if 16384 ≤ q then none
  else
    let i := bitsOf (s.word Reg.qmgRxq [q, 2]) 0 12
    match s.instFace i with
    | some n =>
      some { s.writeInst m i with
        dstPort := globalPort s.moduleId (32 + 2 * n + bitsOf (s.word Reg.qmgRxq [q, 3]) 15 1), queue := q }
    | none => none

/-- A destination that names a port (spec/13 R381). -/
def State.portDest (s : State) (m : Mark) (prof dp q : Nat) : State × Mark :=
  let here := decide (portModule dp = s.moduleId)
  let l := portLocal dp
  if here && 32 ≤ l && l ≤ 39 then
    match s.hostDest m q with
    | some m' => (s, m')
    | none => (s, m.dropLate Reason.fwdBadDest)
  else if here && 48 ≤ l then (s, m.dropLate Reason.fwdBadDest)
  else if lineOrQuoin dp && dp = m.srcPort && !bitOf prof 9 then (s.count (fwdCounter 15) 1, m.dropLate 0x43)
  else (s, { m with dstPort := dp, queue := q })

/-- A table entry that names a port: local port 47 of this module is the discard port, with its reason (spec/01 R26,
spec/13 R381). -/
def State.entryDest (s : State) (m : Mark) (prof dp q : Nat) : State × Mark :=
  let r := s.portDest m prof dp q
  if dp = globalPort s.moduleId 47 then (r.1, { r.2 with reason := Reason.fwdDropEntry }) else r

/-- A flood group taken (spec/13 R398). -/
def State.floodDest (s : State) (m : Mark) (g : Nat) : Mark :=
  { m with dstPort := globalPort s.moduleId 47, queue := g, flags := { m.flags with flood := true } }

/-- Resolve a destination word (spec/13 R381): the state, the Mark and the frame after. -/
def State.resolveDest (s : State) (x : Packet) (m : Mark) (prof d : Nat) : State × Mark × List Byte :=
  match destKind d with
  | 0 =>
    let r := s.entryDest m prof (destPort d) (destQueue d)
    (r.1, r.2, x.bytes)
  | 1 =>
    let g := destQueue d
    if 16384 ≤ g then (s, m.dropLate Reason.fwdBadDest, x.bytes)
    else
      let w := s.word Reg.fwdNhGroup [g]
      let n := bitsOf w 16 7
      if n = 0 then (s, m.dropLate 0x42, x.bytes)
      else
        let k := (bitsOf w 0 16 + m.hash % n) % 65536
        let e := s.word Reg.fwdNhMember [k]
        if destKind e ≠ 0 then (s, m.dropLate Reason.fwdBadDest, x.bytes)
        else
          let a := leBytes ((List.range 3).flatMap (fun i => toLe 4 (s.word Reg.fwdNhAddr [k, i])))
          let bs := if bitOf e 27 && (m.hdr 0).typ = 1 then patchAt x.bytes (2 * (m.hdr 0).off) (toLe 12 a) else x.bytes
          let r := s.entryDest m prof (destPort e) (destQueue e)
          (r.1, r.2, bs)
  | 2 =>
    if 4096 ≤ destQueue d then (s, m.dropLate Reason.fwdBadDest, x.bytes)
    else (s, s.floodDest m (destQueue d), x.bytes)
  | 3 => (s, m.dropLate Reason.fwdDropEntry, x.bytes)
  | _ => (s, m.dropLate Reason.fwdBadDest, x.bytes)

/-! ### Learning (spec/13 R394, R395) -/

/-- The live filter records. -/
def State.liveRecords (s : State) : List LearnRec := s.fwd.filter.filter (fun r => decide (s.now ≤ r.expires))

/-- A NEW (kind 1) or STATION_MOVE (kind 2) sighting (spec/13 R395); the flag says whether learned is set. -/
def State.sighting (s : State) (kind dom addr port installed : Nat) : State × Bool :=
  let live := s.liveRecords
  match live.find? (fun r => decide (r.domain = dom) && decide (r.addr = addr)) with
  | none =>
    let s :=
      if live.length < 2048 then
        { s with fwd := { s.fwd with filter := live ++ [{
            domain := dom, addr, port, expires := s.now + 1000 * s.word Reg.fwdLearnCfg [] }] } }
      else s.count (fwdCounter 11) 1
    (s.fwdNotice kind dom 0 addr port installed, true)
  | some r =>
    if r.port = port || r.contended then (s, false)
    else
      let s := { s with fwd := { s.fwd with
        filter := live.map (fun (q : LearnRec) =>
          if q.domain = dom && q.addr = addr then { q with contended := true } else q) } }
      (s.fwdNotice 3 dom 0 addr r.port port, true)

/-- The source lookup of a Mark (spec/13 R394). -/
def State.sourceLookup (s : State) (m : Mark) (bs : List Byte) (prof : Nat) : State × Mark :=
  let dom := s.domainOf m prof
  match l2Key m bs dom true with
  | none => (s, m)
  | some key =>
    let addr := key % 2 ^ 48
    if !bitOf prof 8 || !s.bit Reg.fwdDomain [dom] 12 || m.flags.noLearn || addr % 2 = 1 then (s, m)
    else
      let see (kind installed : Nat) : State × Mark :=
        let r := s.sighting kind dom addr m.srcPort installed
        (r.1, if r.2 then { m with flags := { m.flags with learned := true } } else m)
      match s.expressFind key with
      | some e => if destPort e.dest = m.srcPort then (s, m) else (s.count (fwdCounter 16) 1, m)
      | none =>
        match (s.fwd.emFind s.emSeeds key).bind (fun p => (s.fwd.emAt p).map (fun e => (p, e))) with
        | none => see 1 0
        | some (p, e) =>
          if destPort e.dest = m.srcPort then
            (if e.static then s else { s with fwd := s.fwd.emWrite p { e with hit := true } }, m)
          else if e.static then (s.count (fwdCounter 16) 1, m)
          else see 2 (destPort e.dest)

/-! ### The lookup of one Mark (spec/13 R377) -/

/-- What the destination lookup has found so far. -/
structure Found where
  /-- The state. -/
  st : State
  /-- The Mark. -/
  mark : Mark
  /-- The destination word taken. -/
  dest : Option Nat := none

/-- The key that em_sel selects (spec/13 R378). -/
def State.emKeyOf (s : State) (x : Packet) (m : Mark) (prof : Nat) : Option Nat :=
  let dom := s.domainOf m prof
  if bitsOf prof 2 2 = 2 then hostKey m x.bytes dom (bitOf prof 7) else l2Key m x.bytes dom false

/-- Step 1 of R377. -/
def State.expressStep (s : State) (x : Packet) (m : Mark) (prof : Nat) : Found :=
  match (if bitOf prof 1 && !bitOf prof 0 then (s.emKeyOf x m prof).bind s.expressFind else none) with
  | some e =>
    { st := s.count (fwdCounter 0) 1, mark := { m with flags := { m.flags with express := true } }, dest := some e.dest }
  | none => { st := s, mark := m }

/-- The home module of a Mark that the shard check sends away (spec/20 R609); none when it stays. -/
def State.shardHome (s : State) (m : Mark) : Option Nat :=
  if !s.bit Reg.cscShardClass [m.cls] 0 then none
  else
    let home := s.fld Reg.cscShard [s.csc.bank, m.hash % 256] 0 2
    if home = s.moduleId then none else some home

/-- A cascade entry for the home module's flow processing (spec/20 R608). -/
def State.shardEntry (s : State) (m : Mark) : Bool :=
  decide (m.entAct = .cas) && decide (m.dstPort = globalPort s.moduleId 44)

/-- Steps 2 to 4 of R377, after step 1. -/
def State.lookupSteps (x : Packet) (f1 : Found) (prof : Nat) : Found :=
  let s := f1.st
  let m := f1.mark
  let dom := s.domainOf m prof
  let ruleDst := bitOf prof 0
  let sel := bitsOf prof 2 2
  let inner := bitOf prof 7
  let key := s.emKeyOf x m prof
  if f1.dest.isSome then f1
  else
    let fk := if s.ready 16 then flowKey (s.word Reg.prsActCfg [m.act.val]) m x.bytes else none
    let f2 : Found :=
      match (s.lookupRegion m prof).bind (fun r => fk.bind (s.flowFind r)) with
      | some i =>
        let e := mapGet {} s.fwd.flows i
        let t := s.setFlow i { e with hit := true }
        let m := { m with flow := flowHandle i, sa := if e.saEn then e.sa else m.sa }
        if destKind e.dest = 4 || ruleDst then { st := t, mark := m }
        else { st := t.count (fwdCounter 1) 1, mark := m, dest := some e.dest }
      | none => f1
    if f2.dest.isSome || ruleDst then f2
    else
      let s := f2.st
      let f3 : Found :=
        match (if sel = 1 || sel = 2 then key.bind (s.fwd.emFind s.emSeeds) else none) with
        | some p =>
          let e := (s.fwd.emAt p).getD {}
          let t := if e.ktype = 1 then { s with fwd := s.fwd.emWrite p { e with hit := true } } else s
          { st := t.count (fwdCounter 2) 1, mark := f2.mark, dest := some e.dest }
        | none => f2
      if f3.dest.isSome then f3
      else
        match (if bitOf prof 4 && s.ready 16 then chosenIp f2.mark inner else none) with
        | some (t, o) =>
          let v6 := decide (t = 7)
          match s.routeFind dom v6 (if v6 then beAt x.bytes (o + 24) 16 else beAt x.bytes (o + 16) 4) with
          | some r => { st := s.count (fwdCounter 3) 1, mark := f2.mark, dest := some r.dest }
          | none => f3
        | none => f3

/-- FORWARDING_LOOKUP: forwarding of one Mark (spec/13 R377, R381, R394). -/
def State.forward (s : State) (p : Nat) : State :=
  s.onPkt p .atForward (fun x =>
    if !s.ready 10 then s
    else
      let prof := s.word Reg.fwdClassProf [x.mark.cls]
      let l := s.sourceLookup x.mark x.bytes prof
      let fin (t : State) (m : Mark) (bs : List Byte) (pass : Bool) : State :=
        t.setPkt p { x with mark := m, bytes := bs, stage := .atTunnel, passBy := pass }
      let m := x.mark
      if m.flags.drop || m.flags.exception || m.flags.recirc then fin l.1 l.2 x.bytes false
      else if m.entAct = .cas && m.pass = 0 && !s.shardEntry m then
        if m.dstPort = globalPort s.moduleId 47 then
          fin l.1 (l.1.floodDest l.2 (l.1.fld Reg.fwdDomain [s.domainOf m prof] 0 12)) x.bytes true
        else
          let r := l.1.portDest l.2 prof m.dstPort m.queue
          fin r.1 r.2 x.bytes true
      else
        let f1 := l.1.expressStep x l.2 prof
        match (if f1.dest.isNone && !s.shardEntry m then s.shardHome m else none) with
        | some home => fin f1.st { f1.mark with dstPort := globalPort home 44 } x.bytes true
        | none =>
          let f := State.lookupSteps x f1 prof
          if bitOf prof 0 then
            let r := f.st.portDest f.mark prof f.mark.dstPort f.mark.queue
            fin r.1 r.2 x.bytes false
          else
            match f.dest with
            | some d =>
              let r := f.st.resolveDest x f.mark prof d
              fin r.1 r.2.1 r.2.2 false
            | none =>
              match bitsOf prof 10 2 with
              | 0 =>
                fin (f.st.count (fwdCounter 4) 1)
                  (s.floodDest f.mark (s.fld Reg.fwdDomain [s.domainOf m prof] 0 12)) x.bytes false
              | 2 =>
                let r := f.st.resolveDest x f.mark prof (s.word Reg.fwdClassMiss [m.cls])
                fin r.1 r.2.1 r.2.2 false
              | _ => fin (f.st.count (fwdCounter 5) 1) (f.mark.dropLate 0x40) x.bytes false)

/-- LEARN_RECORD_EXPIRY: a filter record has lived its window (spec/13 R395). -/
def State.learnExpiry (s : State) (dom addr : Nat) : State :=
  { s with fwd := { s.fwd with filter := s.fwd.filter.filter (fun r =>
      !(decide (r.domain = dom) && decide (r.addr = addr) && decide (r.expires ≤ s.now))) } }

/-- AGING_VISIT of an exact-match entry: bucket slots are numbered from 0, stash places from 2,097,152 (spec/13 R397). -/
def State.ageEm (s : State) (n : Nat) : State :=
  let p := if n < 2097152 then EmPlace.slot n else EmPlace.stash (n - 2097152)
  match s.fwd.emAt p with
  | none => s
  | some e =>
    -- a static entry is not aged, whatever its age_en (spec/13 R384)
    if s.fld Reg.fwdAgeCfg [] 0 16 = 0 || !e.ageEn || e.static then s
    else if e.hit then { s with fwd := s.fwd.emWrite p { e with hit := false } }
    else
      let s := s.fwdNotice 4 e.domain e.ktype e.value (destPort e.dest) 0
      if s.bit Reg.fwdTblCfg [] 0 then { s with fwd := s.fwd.emRemove s.emSeeds p } else s

/-- AGING_VISIT of a flow entry (spec/13 R397). -/
def State.ageFlow (s : State) (i : Nat) : State :=
  match mapFind s.fwd.flows i with
  | none => s
  | some e =>
    if s.fld Reg.fwdAgeCfg [] 16 16 = 0 || !e.ageEn then s
    else if e.hit then s.setFlow i { e with hit := false }
    else
      let s := s.fwdNotice 4 (regionOfFlow i) 7 (flowHandle i) (destPort e.dest) 0
      if s.bit Reg.fwdTblCfg [] 1 then { s with fwd := { s.fwd with flows := mapErase s.fwd.flows i } } else s

/-! ### Table commands (spec/13 R399, R407) -/

/-- Argument word w of command set f. -/
def State.fwdArg (s : State) (f w : Nat) : Nat := s.word Reg.fwdCmdArg [f, w]

/-- The state with argument words of a set replaced from word 0 (a READ command's image). -/
def State.putFwdArgs (s : State) (f : Nat) (ws : List Nat) : State :=
  ((List.range ws.length).foldl (fun t w => t.setWord Reg.fwdCmdArg [f, w] (ix ws w)) s)

/-- End a table command. -/
def State.endFwd (s : State) (f result out : Nat) : State :=
  { s with fwd := { s.fwd with sets := setNth s.fwd.sets f { busy := false, result, out } } }

/-- The entry that words 0-2 of an image spell (spec/13 R384). -/
def emOfArgs (a0 a1 a2 : Nat) : EmEntry :=
  { value := a0 + bitsOf a1 0 16 * 2 ^ 32, domain := bitsOf a1 16 13, ktype := bitsOf a1 29 3
    dest := bitsOf a2 0 27, static := bitOf a2 27, ageEn := bitOf a2 28 }

/-- A key field in range (spec/13 R384, R399). -/
def EmEntry.keyOk (e : EmEntry) : Bool := decide (e.ktype < 2) && (e.ktype = 0 || decide (e.value < 2 ^ 32))

/-- The image of an entry (spec/13 R384). -/
def EmEntry.words (e : EmEntry) : List Nat :=
  [e.value % 2 ^ 32, e.value / 2 ^ 32 + e.domain * 2 ^ 16 + e.ktype * 2 ^ 29,
   e.dest + b2n e.static * 2 ^ 27 + b2n e.ageEn * 2 ^ 28 + b2n e.hit * 2 ^ 29 + 2 ^ 30, e.born]

/-- The flow key in argument words 0-9. -/
def State.flowKeyArg (s : State) (f : Nat) : Nat :=
  leBytes ((List.range 10).flatMap (fun w => toLe 4 (s.fwdArg f w))) % 2 ^ 298

/-- A flow key's fields in range (spec/13 R391, R399): unused address bytes and ports are 0. -/
def flowKeyOk (k : Nat) : Bool :=
  (bitOf k 296 || (bitsOf k 32 96 = 0 && bitsOf k 160 96 = 0)) && (bitOf k 297 || bitsOf k 256 32 = 0)

/-- The image of a flow entry (spec/13 R391). -/
def FlowEntry.words (e : FlowEntry) : List Nat :=
  (List.range 10).map (fun w => bitsOf e.key (32 * w) 32)
    ++ [0, e.dest, e.sa + b2n e.saEn * 2 ^ 24 + 2 ^ 25 + b2n e.hit * 2 ^ 26 + b2n e.ageEn * 2 ^ 27, e.cookie, 0, 0]

/-- The region's owner is on a face (spec/13 R392). -/
def State.regionOn (s : State) (f r : Nat) : Bool :=
  if r < 2048 then decide (s.instFace r = some f)
  else
    let w := s.word Reg.fwdPartOwner [r - 2048]
    bitOf w 12 && decide (s.instFace (bitsOf w 0 12) = some f)

/-- A FLOW command through set f may touch a region (spec/06 R170, spec/13 R392): its owner is on the set's face, and on the
face of the PF that writes the command; firmware's own set may touch every one. -/
def State.regionAllowed (s : State) (m : Master) (f r : Nat) : Bool :=
  (f = 4 || s.regionOn f r) && (match m with | .pf g => s.regionOn g r | _ => true)

/-- The prefix of a route command in wire order, 128 bits. -/
def State.routePfx (s : State) (f : Nat) : Nat := beBytes ((List.range 4).flatMap (fun w => toLe 4 (s.fwdArg f (1 + w))))

/-- The route of a command, without its destination; none when a field is out of range (spec/13 R399). -/
def State.routeArg (s : State) (f : Nat) : Option Route :=
  let w := s.fwdArg f 0
  let v6 := bitOf w 13
  let len := bitsOf w 14 8
  let pfx := s.routePfx f
  if (if v6 then 128 else 32) < len || pfx % 2 ^ (128 - len) ≠ 0 then none
  else some { vrf := bitsOf w 0 13, v6, len, pfx := if v6 then pfx else pfx / 2 ^ 96, dest := 0 }

/-- The same prefix. -/
def Route.same (a b : Route) : Bool := a.vrf = b.vrf && a.v6 = b.v6 && a.len = b.len && a.pfx = b.pfx

/-- EM_INSERT, EM_DELETE and EM_READ through set f (spec/13 R399). -/
def State.emCommand (s : State) (f op : Nat) (replace : Bool) : State :=
  let e := emOfArgs (s.fwdArg f 0) (s.fwdArg f 1) (s.fwdArg f 2)
  if !e.keyOk || (op = 1 && !destOk e.dest false) then s.endFwd f 2 0
  else if op = 1 then
    let r := s.emInsert e replace
    r.1.endFwd f r.2 0
  else
    match s.fwd.emFind s.emSeeds e.key with
    | none => s.endFwd f 5 0
    | some p =>
      if op = 2 then ({ s with fwd := s.fwd.emRemove s.emSeeds p }).endFwd f 0 0
      else (s.putFwdArgs f ((s.fwd.emAt p).getD {}).words).endFwd f 0 0

/-- EXP_WRITE and EXP_READ (spec/13 R382, R399). -/
def State.expCommand (s : State) (f op index : Nat) : State :=
  if op = 4 then
    let e := emOfArgs (s.fwdArg f 0) (s.fwdArg f 1) (s.fwdArg f 2)
    if !bitOf (s.fwdArg f 2) 30 then
      ({ s with fwd := { s.fwd with express := mapErase s.fwd.express index } }).endFwd f 0 0
    else if !e.keyOk || !destOk e.dest false then s.endFwd f 2 0
    else
      ({ s with fwd := { s.fwd with express := mapPut s.fwd.express index { e with born := s.bornNow } } }).endFwd f 0 0
  else
    match mapFind s.fwd.express index with
    | some e => (s.putFwdArgs f e.words).endFwd f 0 0
    | none => (s.putFwdArgs f [0, 0, 0, 0]).endFwd f 0 0

/-- FLOW_INSERT, FLOW_DELETE and FLOW_READ (spec/13 R391, R392, R399). -/
def State.flowCommand (s : State) (m : Master) (f op r : Nat) (replace : Bool) : State :=
  let key := s.flowKeyArg f
  let w := s.fwdArg f 12
  let dest := bitsOf (s.fwdArg f 11) 0 27
  if !s.ready 16 then s.endFwd f 1 0
  else if 2112 ≤ r || !flowKeyOk key || (op = 6 && !destOk dest true) then s.endFwd f 2 0
  else if !s.regionAllowed m f r then s.endFwd f 3 0
  else if op = 6 then
    let e : FlowEntry :=
      { key, dest, sa := bitsOf w 0 24, saEn := bitOf w 24, ageEn := bitOf w 27, cookie := s.fwdArg f 13 }
    let q := s.flowInsert r e replace
    q.1.endFwd f q.2.1 q.2.2
  else
    match s.flowFind r key with
    | none => s.endFwd f 5 0
    | some i =>
      if op = 7 then ({ s with fwd := { s.fwd with flows := mapErase s.fwd.flows i } }).endFwd f 0 0
      else (s.putFwdArgs f (mapGet {} s.fwd.flows i).words).endFwd f 0 0

/-- LPM_ADD and LPM_DEL (spec/13 R393, R399). -/
def State.lpmCommand (s : State) (f op : Nat) : State :=
  if !s.ready 16 then s.endFwd f 1 0
  else
    match s.routeArg f with
    | none => s.endFwd f 2 0
    | some r =>
      let dest := bitsOf (s.fwdArg f 5) 0 27
      if op = 9 then
        if !destOk dest false then s.endFwd f 2 0
        else if s.fwd.routes.any (fun q => q.same r) then
          ({ s with fwd := { s.fwd with
              routes := s.fwd.routes.map (fun (q : Route) => if q.same r then { q with dest } else q) } }).endFwd f 0 0
        else if (if r.v6 then 2097152 else 4194304) ≤ s.routesHeld r.v6 then s.endFwd f 6 0
        else ({ s with fwd := { s.fwd with routes := s.fwd.routes ++ [{ r with dest }] } }).endFwd f 0 0
      else if s.fwd.routes.any (fun q => q.same r) then
        ({ s with fwd := { s.fwd with routes := s.fwd.routes.filter (fun q => !q.same r) } }).endFwd f 0 0
      else s.endFwd f 5 0

/-- REHASH: start re-placing every entry under the next seeds (spec/13 R389). -/
def State.startRehash (s : State) (f : Nat) : State :=
  if f ≠ 4 then s.endFwd f 2 0
  else if s.fwd.rehash then s.endFwd f 1 0
  else
    ({ s with fwd := { s.fwd with
        rehash := true, rehashFailed := false
        probe := s.fwd.probe ++ [(List.range 4).map (fun k => s.word Reg.fwdSeedNext [k])] } }).endFwd f 0 0

/-- A write to FWD_CMD of set f (spec/13 R399): the fifth set is firmware's. -/
def State.fwdCommand (m : Master) (f op : Nat) (replace : Bool) (index : Nat) : Eff := fun s =>
  if 5 ≤ f || (f = 4 && !m.isFw) || (s.fwd.sets.getD f {}).busy then (s, false)
  else
    (if 1 ≤ op && op ≤ 3 then s.emCommand f op replace
     else if op = 4 || op = 5 then s.expCommand f op index
     else if 6 ≤ op && op ≤ 8 then s.flowCommand m f op index replace
     else if op = 9 || op = 10 then s.lpmCommand f op
     else if op = 11 then s.startRehash f
     else s.endFwd f 2 0, true)

/-- Re-place the entry of a key under the next seeds; none when it finds no place (spec/13 R389). -/
def Fwd.replaceKey (f : Fwd) (sets : List (List Nat)) (seeds : List Nat) (kick key : Nat) : Option Fwd :=
  match f.emFind sets key with
  | none => some f
  | some p =>
    match f.emAt p with
    | none => some f
    | some e => (f.emClear p).emPlace seeds kick e

/-- REHASH_END: the rehash has taken every entry, in bank, bucket and slot order and then the stashes (spec/13 R389). -/
def State.endRehash (s : State) : State :=
  if !s.fwd.rehash then s
  else
    let seeds := s.placeSeeds
    let kick := s.fld Reg.fwdTblCfg [] 6 4
    let keys := s.fwd.buckets.map (fun p => p.2.key) ++ s.fwd.stash.map (fun p => p.2.key)
    let r := keys.foldl (fun (r : Fwd × Bool) k =>
      if r.2 then
        match r.1.replaceKey s.emSeeds seeds kick k with
        | some f => (f, true)
        | none => (r.1, false)
      else r) (s.fwd, true)
    if r.2 then
      let s := { s with fwd := { r.1 with rehash := false, probe := [] } }
      ((List.range 4).foldl (fun t k => t.setWord Reg.fwdSeed [k] (ix seeds k)) s).raise 228 0
    else { s with fwd := { r.1 with rehash := false, rehashFailed := true } }

/-- The effect of a block reset of FWD (spec/13 R402). -/
def State.resetFwd (s : State) : State :=
  let s := s.dropInside .atForward
  { s with fwd := { s.fwd with
      filter := []
      sets := s.fwd.sets.map (fun x => if x.busy then { x with busy := false, result := 1, out := 0 } else x) } }

end Sys2Proof.Machine
end

