-- ==== Sys2Proof/Machine/TunOps.lean ====
section
/-! DEFINITION. The tunnel engine: decapsulation and encapsulation (spec/14 R409-R417, R439, R444). -/

namespace Sys2Proof.Machine

/-- Counter k of course c of the tunnel engine (spec/14 R444). -/
def tunCounter (c k : Nat) : Nat := blockBase 11 + 0xC000 + 0x100 * c + 8 * k

/-- Header entries of a frame after bytes at its front have been removed or inserted (spec/01 R15). -/
def shiftHdrs (hs : List Hdr) (d : Int) : List Hdr := moveHdrs hs 0 d

/-- The recorded header list as types and byte offsets. -/
def Mark.heads (m : Mark) : List (Nat × Nat) := m.hdrs.map (fun h => (h.typ, 2 * h.off))

/-- An IP header type. -/
def isIp (t : Nat) : Bool := t = 6 || t = 7

/-- The index of the tunnel header (spec/14 R412). -/
def tunnelHeader (hs : List (Nat × Nat)) : Option Nat :=
  (List.range hs.length).find? (fun i =>
    let t := (hs.getD i (0, 0)).1
    t = 17 || t = 18 || t = 19 || (isIp t && isIp (hs.getD (i + 1) (0, 0)).1))

/-- The ECN field of an IP header at byte o. -/
def ipEcn (bs : List Byte) (t o : Nat) : Nat :=
  if t = 6 then beAt bs (o + 1) 1 % 4 else beAt bs o 2 / 16 % 4

/-- The DSCP field of an IP header at byte o. -/
def ipDscp (bs : List Byte) (t o : Nat) : Nat :=
  if t = 6 then beAt bs (o + 1) 1 / 4 else beAt bs o 2 / 64 % 64

/-- The frame with the ECN field of an IP header replaced and an IPv4 checksum updated (spec/14 R413). -/
def setEcn (bs : List Byte) (t o v : Nat) : List Byte :=
  if t = 6 then
    let nb := patchAt bs (o + 1) (toBe 1 (beAt bs (o + 1) 1 / 4 * 4 + v))
    fixChecksum nb (o + 10) bs nb [o]
  else
    let w := beAt bs o 2
    patchAt bs o (toBe 2 (w / 64 * 64 + v * 16 + w % 16))

/-- The inner ECN after decapsulation: none is a discard (spec/14 R413). -/
def combineEcn (outer inner : Nat) : Option Nat :=
  if outer = 3 then (if inner = 0 then none else some 3)
  else if outer = 1 && inner = 2 then some 1
  else some inner

/-- A Mark and its frame under the tunnel engine. -/
structure Tun where
  /-- State. -/
  st : State
  /-- Mark. -/
  mark : Mark
  /-- Frame. -/
  bytes : List Byte
  /-- Bound B. -/
  bound : Option Nat

/-- The Mark after the frame has become `bs`: len follows once the end marker has passed. -/
def Mark.relen (m : Mark) (ended : Bool) (bs : List Byte) : Mark := if ended then { m with len := bs.length } else m

/-- A discard by the tunnel engine: the drop flag and its reason; buffer admission discards (spec/01 R21). -/
def Tun.drop (u : Tun) (c r : Nat) : Tun :=
  { u with mark := u.mark.dropLate r, st := u.st.count (tunCounter c (if r = 0x51 then 3 else 4)) 1 }

/-- Decapsulation (spec/14 R412, R413). -/
def Tun.decap (u : Tun) (ended : Bool) (prof : Nat) : Tun :=
  let c := u.mark.course
  let hs := u.mark.heads
  let none_ : Tun := { u with st := u.st.count (tunCounter c 1) 1 }
  match tunnelHeader hs with
  | none => none_
  | some t =>
    match hs[t + 1]? with
    | none => none_
    | some inner =>
      let done (hs' : List Hdr) (bs : List Byte) (d : Nat) : Tun :=
        { st := u.st.count (tunCounter c 0) 1
          mark := { (u.mark.relen ended bs) with hdrs := hs', flags := { u.mark.flags with decapDone := true } }
          bytes := bs, bound := moveBound u.bound (-(d : Int)) }
      if inner.1 = 1 then
        done (shiftHdrs (u.mark.hdrs.drop (t + 1)) (-(inner.2 : Int))) (u.bytes.drop inner.2) inner.2
      else if isIp inner.1 && (u.mark.hdr 0).typ = 1 then
        let o1 := (hs.getD 1 (0, 0)).2
        let outer := if isIp (hs.getD t (0, 0)).1 then some (hs.getD t (0, 0)) else l3Before hs t
        let ecn : Option Nat :=
          match outer with
          | some o =>
            if bitOf prof 1 then combineEcn (ipEcn u.bytes o.1 o.2) (ipEcn u.bytes inner.1 inner.2)
            else some (ipEcn u.bytes inner.1 inner.2)
          | none => some (ipEcn u.bytes inner.1 inner.2)
        match ecn with
        | none => u.drop c 0x53
        | some e =>
          let bs := if e = ipEcn u.bytes inner.1 inner.2 then u.bytes else setEcn u.bytes inner.1 inner.2 e
          let d := inner.2 - o1
          let bs := bs.take o1 ++ bs.drop inner.2
          let bs := patchAt bs (2 * (u.mark.hdr 0).off + 12) (toBe 2 (if inner.1 = 6 then 0x0800 else 0x86DD))
          done (u.mark.hdrs.take 1 ++ shiftHdrs (u.mark.hdrs.drop (t + 1)) (-(d : Int))) bs d
      else none_

/-- The outer IPv4 header (spec/14 R415). -/
def outerIp4 (tos total ident df ttl proto : Nat) (src dst : List Byte) : List Byte :=
  let h := toBe 1 0x45 ++ toBe 1 tos ++ toBe 2 total ++ toBe 2 ident ++ toBe 2 (df * 0x4000) ++ toBe 1 ttl ++ toBe 1 proto
    ++ [0, 0] ++ src.take 4 ++ dst.take 4
  patchAt h 10 (toBe 2 (inetChecksum 0 h))

/-- The outer IPv6 header (spec/14 R415). -/
def outerIp6 (tc label plen next hop : Nat) (src dst : List Byte) : List Byte :=
  toBe 4 (6 * 2 ^ 28 + tc * 2 ^ 20 + label % 2 ^ 20) ++ toBe 2 plen ++ toBe 1 next ++ toBe 1 hop ++ src ++ dst

/-- Bytes of a tunnel entry's words 4 to 14. -/
def State.tunBytes (s : State) (t : Nat) : List Byte :=
  (List.range 11).flatMap (fun k => toLe 4 (s.word Reg.tunEntryAddr [t, k]))

/-- The UDP header with its checksum (spec/14 R415). -/
def outerUdp (sport dport : Nat) (csum : Bool) (v6 : Bool) (src dst body : List Byte) : List Byte :=
  let n := 8 + body.length
  let h := toBe 2 sport ++ toBe 2 dport ++ toBe 2 n ++ [0, 0]
  if !csum then h
  else
    let ps := sum16 (if v6 then src ++ dst else src.take 4 ++ dst.take 4) + 17 + n
    let v := inetChecksum (ps + sum16 h) body
    patchAt h 6 (toBe 2 (if v = 0 then 0xFFFF else v))

/-- A tunnel exception passes the exception limiter as at rule resolution (spec/14 R416, spec/12 R352, R353). -/
def State.tunException (s : State) (m : Mark) (r : Nat) : State × Mark :=
  let c := m.course
  if !s.ready 17 then (s.count (clsCounter c 5) 1, m.dropLate r)
  else
    let q := s.askLimiter r
    if q.2 then
      (q.1.count (clsCounter c 3) 1,
        { m with reason := r, dstPort := globalPort s.moduleId 45
                 flags := { m.flags with exception := true, recirc := false, flood := false } })
    else
      let s := q.1.count (clsCounter c 4) 1
      if bitOf (s.imageOf m.epoch).defaults 6 then (s, m.dropLate 0x25) else (s, m)

/-- Encapsulation through tunnel entry t (spec/14 R414-R416). -/
def Tun.encap (u : Tun) (t : Nat) : Tun :=
  let s := u.st
  let c := u.mark.course
  let w0 := s.word Reg.tunEntry0 [t]
  let w1 := s.word Reg.tunEntry1 [t]
  let id := s.word Reg.tunEntry2 [t]
  let w3 := s.word Reg.tunEntry3 [t]
  let typ := bitsOf w0 0 3
  let v6 := bitOf w0 3
  let l2 := bitOf w0 4
  let pairOk := (typ = 1 && l2) || typ = 2 || typ = 3 || (typ = 4 && !l2)
  if !bitOf w0 12 || !pairOk then u.drop c 0x50
  else
    let ip := u.mark.heads.find? (fun h => isIp h.1)
    match (if l2 then some (0, 0) else ip) with
    | none => u.drop c 0x52
    | some cut =>
      let k := if l2 then 0 else (u.mark.heads.takeWhile (fun h => !isIp h.1)).length
      let inner := u.bytes.drop cut.2
      let innerHdrs := u.mark.hdrs.drop k
      let it := (ip.map (·.1)).getD 6
      let proto16 := if l2 then 0x6558 else if it = 6 then 0x0800 else 0x86DD
      let dscp := match ip with
        | some h => if bitOf w0 7 then ipDscp u.bytes h.1 h.2 else bitsOf w0 24 6
        | none => bitsOf w0 24 6
      let ecn := match ip with | some h => if bitOf w0 8 then ipEcn u.bytes h.1 h.2 else 0 | none => 0
      let a := s.tunBytes t
      let src := bytesAt a 0 16
      let dst := bytesAt a 16 16
      let dmac := bytesAt a 32 6
      let smac := bytesAt a 38 6
      let opts := ((List.range (bitsOf w1 14 5)).flatMap (fun k =>
        toLe 4 (s.word Reg.tunOpt [bitsOf w1 19 8, k])))
      let shim : List Byte :=
        match typ with
        | 1 => [8, 0, 0, 0] ++ toBe 3 id ++ [0]
        | 2 => toBe 1 (bitsOf w1 14 5) ++ [0] ++ toBe 2 proto16 ++ toBe 3 id ++ [0] ++ opts
        | 3 => toBe 2 (if bitOf w0 9 then 0x2000 else 0) ++ toBe 2 proto16 ++ (if bitOf w0 9 then toBe 4 id else [])
        | _ => []
      let udp := typ = 1 || typ = 2
      let l4 : List Byte :=
        if udp then
          outerUdp (0xC000 + u.mark.hash % 2 ^ 14) (bitsOf w3 0 16) (bitOf w0 5) v6 src dst (shim ++ inner) ++ shim
        else shim
      let proto := if udp then 17 else if typ = 3 then 47 else if it = 6 then 4 else 41
      let plen := l4.length + inner.length
      let df := bitOf w0 6
      let ident := if df then 0 else s.cry.ipId.getD c 0
      let s := if v6 || df then s
        else { s with cry := { s.cry with ipId := setNth s.cry.ipId c ((s.cry.ipId.getD c 0 + 1) % 65536) } }
      let iph := if v6 then outerIp6 (dscp * 4 + ecn) (u.mark.hash % 2 ^ 20) plen proto (bitsOf w0 16 8) src dst
        else outerIp4 (dscp * 4 + ecn) (20 + plen) ident (b2n df) (bitsOf w0 16 8) proto src dst
      let vlan := bitOf w0 10
      let eth := dmac ++ smac ++ (if vlan then toBe 2 0x8100 ++ toBe 2 (bitsOf w3 16 16) else [])
        ++ toBe 2 (if v6 then 0x86DD else 0x0800)
      let front := eth ++ iph ++ l4
      let bs := front ++ inner
      let ipo := eth.length
      let l4o := ipo + iph.length
      let newHs : List (Nat × Nat) :=
        [(1, 0)] ++ (if vlan then [(2, 14)] else []) ++ [(if v6 then 7 else 6, ipo)]
          ++ (match typ with
              | 1 => [(12, l4o), (17, l4o + 8)]
              | 2 => [(12, l4o), (18, l4o + 8)]
              | 3 => [(19, l4o)]
              | _ => [])
      let d : Int := (front.length : Int) - cut.2
      let hs := newHs.map (fun h => ({ typ := h.1, off := h.2 / 2 } : Hdr)) ++ shiftHdrs innerHdrs d
      let m := ({ u.mark with len := bs.length, flags := { u.mark.flags with encapDone := true } }).cutHdrs hs
      let v : Tun := { st := s.count (tunCounter c 2) 1, mark := m, bytes := bs, bound := moveBound u.bound d }
      let mtu := bitsOf w1 0 14
      if 10240 < bs.length then v.drop c 0x54
      else if mtu ≠ 0 && mtu < bs.length then
        if bitOf w0 11 then
          let r := (v.st.count (tunCounter c 3) 1).tunException m 0x51
          { v with st := r.1, mark := r.2 }
        else v.drop c 0x51
      else v

/-- The tunnel entry an encapsulation asks for (spec/14 R409, R414). -/
def encapEntry (prof : Nat) (m : Mark) : Option Nat :=
  match bitsOf prof 2 2 with
  | 1 => some (bitsOf prof 4 14)
  | 2 => some (m.user % 16384)
  | _ => none

/-- TUNNEL_STAGE: the tunnel engine acts on a Mark and hands it to crypto (spec/14 R409). -/
def State.tunnel (s : State) (p : Nat) : State :=
  s.onPkt p .atTunnel (fun x =>
    let prof := s.word Reg.tunClassProf [x.mark.cls]
    let fin (u : Tun) : State :=
      { (u.st.setPkt p { x with mark := u.mark, bytes := u.bytes, bound := u.bound, stage := .atCrypto, order := s.nextPkt })
        with nextPkt := s.nextPkt + 1 }
    let u : Tun := { st := s, mark := x.mark, bytes := x.bytes, bound := x.bound }
    if !s.ready 11 then s
    else if x.mark.flags.drop || x.mark.flags.exception || x.passBy then fin u
    else if (encapEntry prof x.mark).isSome && !x.ended then s
    else
      let u := if bitOf prof 0 then u.decap x.ended prof else u
      match encapEntry prof x.mark with
      | some t => if u.mark.flags.drop then fin u else fin (u.encap t)
      | none => fin u)

/-- The effect of a block reset of TUN (spec/14 R439). -/
def State.resetTun (s : State) : State := s.dropInside .atTunnel

end Sys2Proof.Machine
end

