-- ==== Sys2Proof/Machine/CryOps.lean ====
section
/-! DEFINITION. Inline crypto: the SA store and cache, ESP, MACsec and TLS, the lanes, and the SA commands
(spec/14 R409-R447). -/

namespace Sys2Proof.Machine

/-- Counter k of lane l (spec/14 R447). -/
def cryCounter (l k : Nat) : Nat := blockBase 12 + 0x10000 + 0x100 * l + 8 * k

/-! ### AES-GCM over uninterpreted parts (log 13) -/

/-- Bytes of a GCM body XORed with the keystream from position `pos`. -/
def gcmXor (key nonce : List Byte) : Nat → List Byte → List Byte
  | _, [] => []
  | pos, b :: bs => BitVec.xor b (Config.gcmKeystream key nonce pos) :: gcmXor key nonce (pos + 1) bs

/-- The 16-byte tag. -/
def gcmTag16 (key nonce aad ct : List Byte) : List Byte := toBe 16 (Config.gcmTag key nonce aad ct)

/-- XOR of two byte strings of one length. -/
def xorBytes (a b : List Byte) : List Byte := List.zipWith BitVec.xor a b

/-! ### The SA store (spec/14 R428) -/

/-- The SA at an index. -/
def State.sa (s : State) (i : Nat) : SaEntry := mapGet {} s.cry.sas i

/-- The state with an SA replaced. -/
def State.setSa (s : State) (i : Nat) (x : SaEntry) : State := { s with cry := { s.cry with sas := mapSet {} s.cry.sas i x } }

/-- The SA is live: valid and not stale (spec/14 R430, R445). -/
def State.saLive (s : State) (x : SaEntry) : Bool := x.valid && s.genOk x.owner x.ownerGen

/-- Live SAs of an owner, one index apart (spec/14 R436). -/
def State.saInUse (s : State) (owner except : Nat) : Nat :=
  (s.cry.sas.filter (fun p => decide (p.2.owner = owner) && decide (p.1 ≠ except) && s.saLive p.2)).length

/-- GMAC algorithms. -/
def SaEntry.gmac (x : SaEntry) : Bool := 2 ≤ x.alg

/-- The greatest number of an encrypt SA (spec/14 R431). -/
def SaEntry.greatest (x : SaEntry) : Nat := if x.esn then 2 ^ 64 - 1 else 2 ^ 32 - 1

/-- A saturating 32-bit count. -/
def sat32 (n : Nat) : Nat := if n < 2 ^ 32 - 1 then n + 1 else 2 ^ 32 - 1

/-- The HBM copy of seq never falls behind (spec/14 R435). -/
def SaEntry.store (x : SaEntry) : SaEntry := if x.stored < x.seq then { x with stored := x.stored + 65536 } else x

/-- A number sent or accepted meets the soft limit (spec/14 R432). -/
def State.softLimit (s : State) (i n : Nat) : State :=
  let x := s.sa i
  if x.softLimit ≠ 0 && x.softLimit ≤ n && !x.softHit then
    (s.setSa i { x with softHit := true }).raise 275 i (some x.owner)
  else s

/-- An encrypt SA has used its next number (spec/14 R431, R432, R435). -/
def State.usedNumber (s : State) (i : Nat) : State :=
  let x := s.sa i
  let x' := if x.seq = x.greatest then { x with exhausted := true } else ({ x with seq := x.seq + 1 } : SaEntry).store
  (s.setSa i x').softLimit i x.seq

/-! ### Replay (spec/14 R433) -/

/-- The replay check of a number. -/
def SaEntry.replayOk (x : SaEntry) (n : Nat) : Bool :=
  let w := 2 ^ x.winLog2
  decide (x.seq < n) || (decide (x.seq - n < w) && !bitOf x.window (n % w))

/-- The window and seq after a number has been accepted; without a window only seq moves. -/
def SaEntry.replayUpdate (x : SaEntry) (n : Nat) : SaEntry :=
  if x.winLog2 = 0 then (if x.seq < n then ({ x with seq := n } : SaEntry).store else x)
  else
    let w := 2 ^ x.winLog2
    let win :=
      if x.seq < n then
        if w ≤ n - x.seq then 0
        else (List.range (n - x.seq - 1)).foldl (fun v k => putBit v ((x.seq + 1 + k) % w) false) x.window
      else x.window
    ({ x with window := putBit win (n % w) true, seq := max x.seq n } : SaEntry).store

/-- The 64-bit number of an ESP packet, RFC 4303 Appendix A (spec/14 R431). -/
def espNumber (x : SaEntry) (lo : Nat) : Nat :=
  if !x.esn then lo
  else
    let w := if x.winLog2 = 0 then 2 ^ 31 else 2 ^ x.winLog2
    let tl := x.seq % 2 ^ 32
    let th := x.seq / 2 ^ 32
    let hi :=
      if w - 1 ≤ tl then (if tl - (w - 1) ≤ lo then th else th + 1)
      else if (tl + 2 ^ 32 - (w - 1)) % 2 ^ 32 ≤ lo then (th + 2 ^ 32 - 1) else th
    hi % 2 ^ 32 * 2 ^ 32 + lo

/-- The 64-bit number of an XPN frame, IEEE 802.1AE-2018 (spec/14 R431; PRESUMED, log 17). -/
def xpnNumber (x : SaEntry) (lo : Nat) : Nat :=
  if !x.esn then lo
  else
    let w := if x.winLog2 = 0 then 2 ^ 31 else 2 ^ x.winLog2
    let low := x.seq + 1 - w
    let hi := low / 2 ^ 32
    let hi := if 2 ^ 31 ≤ low % 2 ^ 32 && lo < 2 ^ 31 then hi + 1 else hi
    hi % 2 ^ 32 * 2 ^ 32 + lo

/-! ### Frames under crypto -/

/-- Discard in the crypto stage: the drop flag, its reason and the lane's counter (spec/01 R21, spec/14 R447). -/
def State.cryDrop (s : State) (l p r : Nat) (fail : Bool := false) : State :=
  match s.pkt p with
  | none => s
  | some x =>
    let k : Option Nat :=
      if r = 0x62 then some 2 else if r = 0x63 then some 3 else if r = 0x64 then some 4
      else if r = 0x65 || r = 0x66 then some 7 else if r = 0x60 || r = 0x61 || r = Reason.staleGen then some 8 else none
    let m := x.mark.dropLate r
    let m := if fail then { m with flags := { m.flags with cryptoFail := true } } else m
    let s := s.setPkt p { x with mark := m, stage := .atStorage }
    match k with | some k => s.count (cryCounter l k) 1 | none => s

/-- The frame leaves the crypto stage processed. -/
def State.cryDone (s : State) (p : Nat) (x : Packet) (m : Mark) (bs : List Byte) (bound : Option Nat) : State :=
  s.setPkt p { x with mark := { m with len := bs.length, flags := { m.flags with cryptoDone := true } }
                      bytes := bs, bound, stage := .atStorage }

/-- The outermost IP header and the IP6EXT headers directly after it (spec/14 R420): its index, the index of the
last of them, and the insertion point. -/
def State.espPoint (s : State) (m : Mark) (bs : List Byte) : Option (Nat × Nat × Nat) :=
  let hs := m.heads
  match (List.range hs.length).find? (fun i => isIp (hs.getD i (0, 0)).1) with
  | none => none
  | some i =>
    let n := ((hs.drop (i + 1)).takeWhile (fun h => h.1 = 8)).length
    let last := hs.getD (i + n) (0, 0)
    match s.hdrLen bs true last.1 last.2 with
    | .val h => some (i, i + n, last.2 + h)
    | _ => none

/-- The byte that names the header after an IP or IP6EXT header. -/
def nextByte (t o : Nat) : Nat := if t = 6 then o + 9 else if t = 7 then o + 6 else o

/-- The frame with an IP header's length made to fit the frame and an IPv4 checksum recomputed (spec/14 R420, R423). -/
def refitIp (bs : List Byte) (t o : Nat) : List Byte :=
  if t = 6 then
    let b := patchAt (patchAt bs (o + 2) (toBe 2 (bs.length - o))) (o + 10) [0, 0]
    patchAt b (o + 10) (toBe 2 (inetChecksum 0 (bytesAt b o (4 * (beAt b o 1 % 16)))))
  else patchAt bs (o + 4) (toBe 2 (bs.length - o - 40))

/-- ESP additional data (RFC 4106): SPI and sequence number. -/
def espAad (x : SaEntry) (spi n : Nat) : List Byte := toBe 4 spi ++ (if x.esn then toBe 8 n else toBe 4 n)

/-- Encrypt or authenticate an ESP body: the body as sent and its ICV (RFC 4106, RFC 4543). -/
def espSeal (x : SaEntry) (n : Nat) (body : List Byte) : List Byte :=
  let iv := toBe 8 n
  let nonce := x.salt.take 4 ++ iv
  if x.gmac then body ++ gcmTag16 x.key nonce (espAad x x.spi n ++ iv ++ body) []
  else
    let ct := gcmXor x.key nonce 0 body
    ct ++ gcmTag16 x.key nonce (espAad x x.spi n) ct

/-- ESP encryption of a frame (spec/14 R420, R421). -/
def State.espEncrypt (s : State) (l p i : Nat) (x : Packet) : State :=
  let a := s.sa i
  match s.espPoint x.mark x.bytes with
  | none => s.cryDrop l p 0x60
  | some (ipx, lastx, pt) =>
    let body := x.bytes.drop pt
    let last := x.mark.heads.getD lastx (0, 0)
    let ip := x.mark.heads.getD ipx (0, 0)
    let pad := (4 - (body.length + 2) % 4) % 4
    let nh := beAt x.bytes (nextByte last.1 last.2) 1
    let clear := body ++ (List.range pad).map (fun k => BitVec.ofNat 8 (k + 1)) ++ toBe 1 pad ++ toBe 1 nh
    let esp := toBe 4 a.spi ++ toBe 4 a.seq ++ toBe 8 a.seq ++ espSeal a a.seq clear
    let udp := if a.natt then toBe 2 a.nattSport ++ toBe 2 a.nattDport ++ toBe 2 (8 + esp.length) ++ [0, 0] else []
    let bs := x.bytes.take pt ++ udp ++ esp
    if 10240 < bs.length then s.cryDrop l p 0x66
    else
      let bs := patchAt bs (nextByte last.1 last.2) (toBe 1 (if a.natt then 17 else 50))
      let bs := refitIp bs ip.1 ip.2
      let hs := x.mark.hdrs.take (lastx + 1) ++ (if a.natt then [{ typ := 12, off := pt / 2 }] else [])
        ++ [{ typ := 11, off := (pt + udp.length) / 2 }]
      (s.usedNumber i).cryDone p x (x.mark.cutHdrs hs) bs none

/-- Bytes left clear by a MACsec confidentiality offset. -/
def SaEntry.clearBytes (x : SaEntry) : Nat := if x.gmac then 0 else ix [0, 30, 50] x.confOff

/-- The MACsec nonce of a number (IEEE 802.1AE). -/
def macsecNonce (x : SaEntry) (sci : List Byte) (n : Nat) : List Byte :=
  if x.esn then xorBytes (toBe 4 x.spi ++ toBe 8 n) x.salt else sci ++ toBe 4 n

/-- The protected part of a MACsec frame: secure data as sent and the ICV. -/
def macsecSeal (x : SaEntry) (nonce front body : List Byte) : List Byte :=
  if x.gmac then body ++ gcmTag16 x.key nonce (front ++ body) []
  else
    let c := body.take x.clearBytes
    let ct := gcmXor x.key nonce 0 (body.drop x.clearBytes)
    c ++ ct ++ gcmTag16 x.key nonce (front ++ c) ct

/-- MACsec encryption of a frame (spec/14 R420, R421). -/
def State.macsecEncrypt (s : State) (l p i : Nat) (x : Packet) : State :=
  let a := s.sa i
  if (x.mark.hdr 0).typ ≠ 1 then s.cryDrop l p 0x60
  else
    let o := 2 * (x.mark.hdr 0).off + 12
    let body := x.bytes.drop o
    let tci := b2n a.sciEn * 32 + (if a.gmac then 0 else 12) + a.an
    let sci := toLe 8 a.sci
    let tag := toBe 2 0x88E5 ++ toBe 1 tci ++ toBe 1 (if body.length < 48 then body.length else 0) ++ toBe 4 a.seq
      ++ (if a.sciEn then sci else [])
    let front := x.bytes.take o ++ tag
    let bs := front ++ macsecSeal a (macsecNonce a sci a.seq) front body
    if 10240 < bs.length then s.cryDrop l p 0x66
    else
      (s.usedNumber i).cryDone p x { x.mark with hdrs := x.mark.hdrs.take 1 ++ [{ typ := 20, off := (o + 2) / 2 }] } bs none

/-- Run the parser's walk again from recorded header `k` over a decrypted frame (spec/14 R423). -/
def State.rewalk (s : State) (m : Mark) (bs : List Byte) (k typ o : Nat) : Mark × Option Nat :=
  let kept := m.heads.take k
  let w := s.walk bs (some bs.length) s.edges (16 - kept.length) typ o { hdrs := kept, last := o }
  ({ m with
      hdrs := w.hdrs.map (fun h => { typ := h.1, off := h.2 / 2 })
      flags := { m.flags with
        parseIncomplete := m.flags.parseIncomplete || (w.ended.isSome && decide (w.ended ≠ some 0x14))
        malformed := m.flags.malformed || decide (w.ended = some 0x14) || w.badLen } }, w.bound)

/-- A number accepted by a decrypt SA (spec/14 R431-R433). -/
def State.accepted (s : State) (i n : Nat) : State := (s.setSa i ((s.sa i).replayUpdate n)).softLimit i n

/-- A replay discard (spec/14 R433). -/
def State.replayDrop (s : State) (l p i : Nat) : State :=
  (s.setSa i { s.sa i with replayDrop := sat32 (s.sa i).replayDrop }).cryDrop l p 0x63 true

/-- An ICV that fails (spec/14 R433). -/
def State.authDrop (s : State) (l p i : Nat) : State :=
  (s.setSa i { s.sa i with authFail := sat32 (s.sa i).authFail }).cryDrop l p 0x62 true

/-- Where an ESP header lies for decryption (spec/14 R422): the index of the ESP header, the index of the header
before it that is not natt's UDP, and the index of its IP header. -/
def espPlace (a : SaEntry) (hs : List (Nat × Nat)) : Option (Nat × Nat × Nat) :=
  match (List.range hs.length).find? (fun i => (hs.getD i (0, 0)).1 = 11) with
  | none => none
  | some e =>
    let b := if a.natt && 1 ≤ e && (hs.getD (e - 1) (0, 0)).1 = 12 then e - 1 else e
    let n := (((hs.take b).reverse).takeWhile (fun h => h.1 = 8)).length
    if n + 1 ≤ b && isIp (hs.getD (b - n - 1) (0, 0)).1 then some (e, b - 1, b - n - 1) else none

/-- ESP decryption of a frame (spec/14 R422, R423). -/
def State.espDecrypt (s : State) (l p i : Nat) (x : Packet) : State :=
  let a := s.sa i
  let hs := x.mark.heads
  match espPlace a hs with
  | none => s.cryDrop l p 0x65
  | some (e, before, ipx) =>
    let eo := (hs.getD e (0, 0)).2
    if x.bytes.length < eo + 34 then s.cryDrop l p 0x65
    else
      let n := espNumber a (beAt x.bytes (eo + 4) 4)
      if a.winLog2 ≠ 0 && !a.replayOk n then s.replayDrop l p i
      else
        let iv := bytesAt x.bytes (eo + 8) 8
        let nonce := a.salt.take 4 ++ iv
        let rest := x.bytes.drop (eo + 16)
        let ct := rest.take (rest.length - 16)
        let icv := rest.drop (rest.length - 16)
        let aad := espAad a (beAt x.bytes eo 4) n
        let good := if a.gmac then decide (icv = gcmTag16 a.key nonce (aad ++ iv ++ ct) [])
          else decide (icv = gcmTag16 a.key nonce aad ct)
        if !good then s.authDrop l p i
        else
          let s := s.accepted i n
          let clear := if a.gmac then ct else gcmXor a.key nonce 0 ct
          let padLen := beAt clear (clear.length - 2) 1
          let nh := beAt clear (clear.length - 1) 1
          let body := clear.take (clear.length - 2 - padLen)
          let padOk := decide (padLen + 2 ≤ clear.length)
            && decide ((clear.drop body.length).take padLen = (List.range padLen).map (fun k => BitVec.ofNat 8 (k + 1)))
          if !padOk || (a.tunnel && nh ≠ 4 && nh ≠ 41) then s.cryDrop l p 0x65
          else
            let ip := hs.getD ipx (0, 0)
            let last := hs.getD before (0, 0)
            let udp := before + 1 < e
            let cut := if udp then (hs.getD (e - 1) (0, 0)).2 else eo
            if a.tunnel then
              let bs := x.bytes.take ip.2 ++ body
              let bs := if ipx = 0 then bs else patchAt bs (ip.2 - 2) (toBe 2 (if nh = 4 then 0x0800 else 0x86DD))
              let k := ipx - 1
              let st := if ipx = 0 then (if nh = 4 then 6 else 7, ip.2) else hs.getD k (0, 0)
              let r := s.rewalk x.mark bs k st.1 st.2
              s.cryDone p x r.1 bs r.2
            else
              let bs := x.bytes.take cut ++ body
              let bs := patchAt bs (nextByte last.1 last.2) (toBe 1 nh)
              let bs := refitIp bs ip.1 ip.2
              let r := s.rewalk x.mark bs before last.1 last.2
              s.cryDone p x r.1 bs r.2

/-- MACsec decryption of a frame (spec/14 R422, R423). -/
def State.macsecDecrypt (s : State) (l p i : Nat) (x : Packet) : State :=
  let a := s.sa i
  let o := 2 * (x.mark.hdr 1).off
  let tci := beAt x.bytes o 1
  let sc := bitOf tci 5
  let d := o + (if sc then 14 else 6)
  if (x.mark.hdr 1).typ ≠ 20 || bitOf tci 7 || tci % 4 ≠ a.an || x.bytes.length < d + 16 then s.cryDrop l p 0x65
  else
    let n := xpnNumber a (beAt x.bytes (o + 2) 4)
    if a.winLog2 ≠ 0 && !a.replayOk n then s.replayDrop l p i
    else
      let sl := beAt x.bytes (o + 1) 1 % 64
      let dl := if sl ≠ 0 && d + sl + 16 ≤ x.bytes.length then sl else x.bytes.length - d - 16
      let front := x.bytes.take d
      let body := bytesAt x.bytes d dl
      let icv := bytesAt x.bytes (d + dl) 16
      let nonce := macsecNonce a (if sc then bytesAt x.bytes (o + 6) 8 else toLe 8 a.sci) n
      let c := body.take a.clearBytes
      let ct := body.drop a.clearBytes
      let good := if a.gmac then decide (icv = gcmTag16 a.key nonce (front ++ body) [])
        else decide (icv = gcmTag16 a.key nonce (front ++ c) ct)
      if !good then s.authDrop l p i
      else
        let s := s.accepted i n
        let clear := if a.gmac then body else c ++ gcmXor a.key nonce 0 ct
        let bs := x.bytes.take (o - 2) ++ clear
        let h0 := x.mark.heads.getD 0 (0, 0)
        let r := s.rewalk x.mark bs 0 h0.1 h0.2
        s.cryDone p x r.1 bs r.2

/-! ### TLS (spec/14 R426, R427) -/

/-- The TCP payload of a frame: its first byte and its end, by the IP header before the TCP header. -/
def tcpPayload (m : Mark) (bs : List Byte) : Option (Nat × Nat × Nat) :=
  let hs := m.heads
  match (List.range hs.length).find? (fun i => (hs.getD i (0, 0)).1 = 13) with
  | none => none
  | some i =>
    let o := (hs.getD i (0, 0)).2
    let a := o + 4 * (beAt bs (o + 12) 1 / 16)
    let e := match l3Before hs i with
      | some (6, io) => io + beAt bs (io + 2) 2
      | some (_, io) => io + 40 + beAt bs (io + 4) 2
      | none => bs.length
    some (o, min a bs.length, max (min a bs.length) (min e bs.length))

/-- The TLS nonce of a record number (RFC 8446). -/
def tlsNonce (a : SaEntry) (n : Nat) : List Byte := xorBytes (toBe 12 n) a.salt

/-- A record header that R426 allows. -/
def tlsHeaderOk (h : List Byte) : Bool :=
  decide (beAt h 0 1 = 23) && decide (beAt h 1 2 = 0x0303) && decide (17 ≤ beAt h 3 2) && decide (beAt h 3 2 ≤ 16640)

/-- What receive processing of payload bytes gives: the SA, the bytes, and how it ended: 0 clean, 1 RESYNC, 2 a tag
failed, 3 the last record number. -/
structure TlsRx where
  sa : SaEntry
  out : List Byte := []
  stop : Nat := 0
  /-- Records accepted. -/
  records : List Nat := []

/-- One payload byte of a receive SA (spec/14 R426). -/
def tlsRxByte (r : TlsRx) (b : Byte) : TlsRx :=
  if r.stop ≠ 0 then { r with out := r.out ++ [b] }
  else
    let a := r.sa
    if a.tlsLeft = 0 then
      let h := a.tlsHdr ++ [b]
      let r := { r with out := r.out ++ [b] }
      if h.length < 5 then { r with sa := { a with tlsHdr := h } }
      else if !tlsHeaderOk h then { r with sa := { a with tlsHdr := [] }, stop := 1 }
      else { r with sa := { a with tlsHdr := h, tlsBody := [], tlsLeft := beAt h 3 2 } }
    else
      let n := beAt a.tlsHdr 3 2
      let pos := n - a.tlsLeft
      let nonce := tlsNonce a a.seq
      let body := a.tlsBody ++ [b]
      let ob := if pos < n - 16 then BitVec.xor b (Config.gcmKeystream a.key nonce pos) else b
      let r := { r with out := r.out ++ [ob] }
      if 1 < a.tlsLeft then { r with sa := { a with tlsBody := body, tlsLeft := a.tlsLeft - 1 } }
      else
        let a' := { a with tlsBody := [], tlsLeft := 0, tlsHdr := [] }
        if a.seq = 2 ^ 64 - 1 then { r with sa := a', stop := 3 }
        else if body.drop (n - 16) = gcmTag16 a.key nonce a.tlsHdr (body.take (n - 16)) then
          { r with sa := { a' with seq := a.seq + 1 }, records := r.records ++ [a.seq] }
        else { r with sa := a', stop := 2 }

/-- A receive TLS SA enters RESYNC (spec/14 R427, R435). -/
def State.tlsResyncEnter (s : State) (l i : Nat) : State :=
  let a := s.sa i
  ((s.setSa i { a with tlsState := 2, tlsHdr := [], tlsBody := [], tlsLeft := 0, resync := none }).count
    (cryCounter l 9) 1).raise 277 i (some a.owner)

/-- TLS decryption of a frame (spec/14 R426, R427). -/
def State.tlsDecrypt (s : State) (l p i : Nat) (x : Packet) : State :=
  match tcpPayload x.mark x.bytes with
  | none => s.cryDrop l p 0x65
  | some (o, from_, end_) =>
    let seq := beAt x.bytes (o + 4) 4
    let pass (t : State) : State := t.setPkt p { x with stage := .atStorage }
    let a0 := s.sa i
    let a :=
      match a0.resync with
      | some (t, n) =>
        if a0.tlsState = 2 && t = seq then
          { a0 with tlsState := 0, tlsTcpSeq := seq, seq := n, tlsHdr := [], tlsBody := [], tlsLeft := 0, resync := none }
        else a0
      | none => a0
    if 2 ≤ a.tlsState then pass s
    else
      let d := (seq + 2 ^ 32 - a.tlsTcpSeq) % 2 ^ 32
      if d = 0 then
        let pay := bytesAt x.bytes from_ (end_ - from_)
        let r := pay.foldl tlsRxByte { sa := a }
        let a' := { r.sa with tlsTcpSeq := (seq + pay.length) % 2 ^ 32, tlsState := if r.sa.tlsLeft = 0 then 0 else 1 }
        let s := r.records.foldl (fun t n => t.softLimit i n) (s.setSa i a')
        match r.stop with
        | 0 => s.cryDone p x x.mark (patchAt x.bytes from_ r.out) x.bound
        | 1 => (s.setPkt p { x with bytes := patchAt x.bytes from_ r.out, stage := .atStorage }).tlsResyncEnter l i
        | 2 => (s.setSa i { s.sa i with tlsState := 3, authFail := sat32 (s.sa i).authFail }).cryDrop l p 0x62 true
        | _ => s.cryDrop l p 0x64
      else if d < 2 ^ 31 then (pass (s.setSa i a)).tlsResyncEnter l i
      else pass s

/-- The frames of an item that wait at the crypto stage, in hand-in order; a frame of no item stands alone. -/
def State.itemGroup (s : State) (p : Nat) (x : Packet) : List (Nat × Packet) :=
  match x.item with
  | none => [(p, x)]
  | some it => s.packets.filter (fun q => decide (q.2.item = some it) && !q.2.copy && decide (q.2.stage = .atCrypto))

/-- Every frame of the item has reached the crypto stage. -/
def State.itemGathered (s : State) (x : Packet) : Bool :=
  match x.item with
  | none => true
  | some it =>
    s.packets.any (fun q => decide (q.2.item = some it) && !q.2.copy && q.2.itemEnd && decide (q.2.stage = .atCrypto))
      && s.packets.all (fun q => !(decide (q.2.item = some it) && !q.2.copy && decide (q.2.stage.rank < Stage.atCrypto.rank)))

/-- What transmit processing of the records of an item gives: bytes, and how it ended: 0 clean, 1 mid-record or a bad
header, 2 the last record number. -/
structure TlsTx where
  out : List Byte := []
  stop : Nat := 0
  records : List Nat := []
  /-- Open bytes taken. -/
  free : Nat

/-- Encrypt the records of an item's payload (spec/14 R426); `n` bounds the records left. -/
def tlsTxRecords (a : SaEntry) : Nat → List Byte → TlsTx → TlsTx
  | 0, bs, r => { r with out := r.out ++ bs }
  | n + 1, bs, r =>
    if bs = [] then r
    else
      let l := beAt bs 3 2
      let h := bs.take 5
      if bs.length < 5 || !tlsHeaderOk h then { r with out := r.out ++ bs, stop := 1 }
      else if bs.length < 5 + l then
        let m := bs.length - 5
        { r with out := r.out ++ h ++ (List.range m).map (fun k => Config.freeByte (r.free + k)), free := r.free + m, stop := 1 }
      else
        let body := (bs.drop 5).take l
        let num := beAt body (l - 16) 8
        if num = 2 ^ 64 - 1 then { r with out := r.out ++ bs, stop := 2 }
        else
          let nonce := tlsNonce a num
          let ct := gcmXor a.key nonce 0 (body.take (l - 16))
          tlsTxRecords a n (bs.drop (5 + l))
            { r with out := r.out ++ h ++ ct ++ gcmTag16 a.key nonce h ct, records := r.records ++ [num] }

/-- The frame with its TCP checksum recomputed (spec/07 R206, spec/14 R426). -/
def fixTcp (m : Mark) (bs : List Byte) (o : Nat) : List Byte :=
  let hs := m.heads
  let i := (hs.takeWhile (fun h => h.1 ≠ 13)).length
  match l3Before hs i with
  | none => bs
  | some l3 =>
    let b := patchAt bs (o + 16) [0, 0]
    let n := bs.length - o
    patchAt b (o + 16) (toBe 2 (inetChecksum (pseudoSum b l3.1 l3.2 6 n) (b.drop o)))

/-- Write back the frames of an item after their payloads changed to `out`. -/
def State.tlsWriteBack (s : State) : List (Nat × Packet) → List Byte → State
  | [], _ => s
  | (p, x) :: rest, out =>
    match tcpPayload x.mark x.bytes with
    | none => State.tlsWriteBack s rest out
    | some (o, a, e) =>
      let bs := patchAt x.bytes a (out.take (e - a))
      let bs := if x.csumL4 then fixTcp x.mark bs o else bs
      State.tlsWriteBack (s.cryDone p x x.mark bs x.bound) rest (out.drop (e - a))

/-- TLS encryption of the frames of an item (spec/14 R426, R427, R432). -/
def State.tlsEncrypt (s : State) (l p i : Nat) (x : Packet) : State :=
  let g := (s.itemGroup p x).filter (fun q => !q.2.mark.flags.drop)
  let pay := g.flatMap (fun q =>
    match tcpPayload q.2.mark q.2.bytes with | some (_, a, e) => bytesAt q.2.bytes a (e - a) | none => [])
  if g.any (fun q => (tcpPayload q.2.mark q.2.bytes).isNone) then
    g.foldl (fun t q => t.cryDrop l q.1 0x60) s
  else
    let r := tlsTxRecords (s.sa i) pay.length pay { free := s.freeCount }
    let s := { s with freeCount := r.free }
    let s := r.records.foldl (fun t n => t.softLimit i n) s
    let s := s.tlsWriteBack g r.out
    match r.stop, g.getLast? with
    | 1, some q => s.cryDrop l q.1 0x68
    | 2, some q => s.cryDrop l q.1 0x64
    | _, _ => s

/-! ### Lanes and the cache (spec/14 R434, R437) -/

/-- A lane. -/
def State.lane (s : State) (l : Nat) : Lane := s.cry.lanes.getD l {}

/-- The state with a lane replaced. -/
def State.setLane (s : State) (l : Nat) (x : Lane) : State := { s with cry := { s.cry with lanes := setNth s.cry.lanes l x } }

/-- Packets that wait in a lane's miss queue (spec/14 R434, CRY_LANE_STAT.miss_held). -/
def State.missHeld (s : State) (l : Nat) : List Nat :=
  (s.lane l).miss.filter (fun p => match s.pkt p with | some x => decide (x.stage = .atCrypto) | none => false)

/-- The IN lanes of a direction, in lane number order (spec/14 R437). -/
def State.inLanes (s : State) (decrypt : Bool) : List Nat :=
  (List.range 8).filter (fun l => decide ((s.lane l).state = .inService) && (s.lane l).decrypt == decrypt)

/-- The lane an SA goes to (spec/14 R437). -/
def State.laneOf (s : State) (i : Nat) : Option Nat :=
  let ls := s.inLanes (s.sa i).decrypt
  if ls = [] then none else ls[i % ls.length]?

/-- The SA of a Mark at the crypto stage, after the SPI lookup (spec/14 R425): its index, and whether the lookup
found it. -/
def State.effSa (s : State) (x : Packet) : Nat × Bool :=
  if x.mark.sa = 0 && bitOf (s.word Reg.cryClassProf [x.mark.cls]) 0 then
    match x.mark.heads.find? (fun h => h.1 = 11) with
    | some h => (beAt x.bytes h.2 4 % 2 ^ 22, true)
    | none => (0, false)
  else (x.mark.sa, false)

/-- Move an SA to the most recently used place of the cache. -/
def State.touchSa (s : State) (i : Nat) : State :=
  { s with cry := { s.cry with cache := s.cry.cache.filter (· ≠ i) ++ [i] } }

/-- The proto and direction of an SA fit the frame (spec/14 R425, R430). -/
def State.saFits (s : State) (x : Packet) (a : SaEntry) (found : Bool) : Bool :=
  if found then
    decide (a.proto = 1) && a.decrypt
      && (match x.mark.heads.find? (fun h => h.1 = 11) with | some h => decide (beAt x.bytes h.2 4 = a.spi) | none => false)
  else decide (a.proto ≠ 0) && (a.decrypt || (if a.proto = 1 then (s.espPoint x.mark x.bytes).isSome
    else if a.proto = 2 then decide ((x.mark.hdr 0).typ = 1) else (tcpPayload x.mark x.bytes).isSome))

/-- One packet in its lane under SA i (spec/14 R420-R433, R430, R447). -/
def State.laneWork (s : State) (l p i : Nat) (found : Bool) (x : Packet) : State :=
  let a := s.sa i
  let enter (t : State) : State := ((t.count (cryCounter l 0) 1).count (cryCounter l 1) x.mark.len)
  if !a.valid || !s.saFits x a found then (enter s).cryDrop l p 0x60
  else if !s.genOk a.owner a.ownerGen then (enter s).cryDrop l p Reason.staleGen
  else if a.owner < 2048 && a.owner ≠ x.mark.inst then (enter s).cryDrop l p 0x61
  else if !a.decrypt && a.exhausted then
    let s := enter s
    let s := if a.exhaustedRaised then s else (s.setSa i { a with exhaustedRaised := true }).raise 276 i (some a.owner)
    s.cryDrop l p 0x64
  else
    match a.decrypt, a.proto with
    | false, 1 => (enter s).espEncrypt l p i x
    | false, 2 => (enter s).macsecEncrypt l p i x
    | false, _ =>
      if s.itemGathered x then
        ((s.itemGroup p x).foldl (fun t q =>
          (t.count (cryCounter l 0) 1).count (cryCounter l 1) q.2.mark.len) s).tlsEncrypt l p i x
      else s
    | true, 1 => (enter s).espDecrypt l p i x
    | true, 2 => (enter s).macsecDecrypt l p i x
    | true, _ => (enter s).tlsDecrypt l p i x

/-- CRYPTO_STAGE: one packet at the crypto stage (spec/14 R409, R411, R425, R428, R434). -/
def State.crypto (s : State) (p : Nat) : State :=
  s.onPkt p .atCrypto (fun x =>
    let e := s.effSa x
    let i := e.1
    let ahead := s.packets.any (fun q => decide (q.1 ≠ p) && decide (q.2.stage = .atCrypto) && decide (q.2.order < x.order)
      && !q.2.mark.flags.drop && !q.2.mark.flags.exception && !q.2.passBy && decide ((s.effSa q.2).1 = i) && decide (q.2.item ≠ x.item || x.item = none))
    if !s.ready 12 then s
    else if x.mark.flags.drop || x.mark.flags.exception || x.passBy || i = 0 then s.setPkt p { x with stage := .atStorage }
    else if !x.ended then s
    else
      match s.laneOf i with
      | none => s
      | some l =>
        let x' := { x with mark := { x.mark with sa := i }, spiHit := e.2 }
        if 4194304 ≤ i then (((s.setPkt p x').count (cryCounter l 0) 1).count (cryCounter l 1) x.mark.len).cryDrop l p 0x60
        else
          let holders := (List.range 8).filter (fun k => (s.missHeld k).any (fun q =>
            match s.pkt q with | some y => decide (y.mark.sa = i) | none => false))
          if (s.missHeld l).contains p || holders.any (· ≠ l) then s
          else if s.cry.cache.contains i && holders = [] then
            if ahead then s
            else (((s.setPkt p x').count (cryCounter l 5) 1).touchSa i).laneWork l p i e.2 x'
          else if 256 ≤ (s.missHeld l).length then s
          else
            ((s.setPkt p x').setLane l { s.lane l with miss := s.missHeld l ++ [p] }).count (cryCounter l 6) 1)

/-- Whether any packet in a miss queue waits for an SA. -/
def State.saWaits (s : State) (i : Nat) : Bool :=
  (List.range 8).any (fun l => (s.missHeld l).any (fun p =>
    match s.pkt p with | some x => decide (x.mark.sa = i) | none => false))

/-- SA_CACHE_FILL: an SA entry arrives from HBM; its wrap authenticates or not (spec/14 R429, R434). -/
def State.fillSa (s : State) (i : Nat) (wrapOk : Bool) : State :=
  if !s.saWaits i || !s.ready 12 then s
  else
    let jobs := (List.range 8).flatMap (fun l => ((s.missHeld l).filter (fun p =>
      match s.pkt p with | some x => decide (x.mark.sa = i) | none => false)).map (fun p => (l, p)))
    let s := jobs.foldl (fun t j => t.setLane j.1 { t.lane j.1 with miss := (t.missHeld j.1).filter (· ≠ j.2) }) s
    if wrapOk && !(s.sa i).wrapDead then
      let s :=
        if 65536 ≤ s.cry.cache.length then
          match s.cry.cache.find? (fun k => !s.saWaits k) with
          | some k =>
            let s := { s with cry := { s.cry with cache := s.cry.cache.filter (· ≠ k) } }
            s.setSa k { s.sa k with stored := (s.sa k).seq }
          | none => s
        else s
      let s := s.touchSa i
      jobs.foldl (fun t j =>
        match t.pkt j.2 with
        | some x => if x.stage = .atCrypto then t.laneWork j.1 j.2 i x.spiHit x else t
        | none => t) s
    else
      (jobs.foldl (fun t j => t.cryDrop j.1 j.2 0x67) s).raise 278 i (some (s.sa i).owner)

/-- The cache's contents are lost (spec/14 R435). -/
def State.loseCache (s : State) : State :=
  let s := s.cry.cache.foldl (fun t i =>
    let a := t.sa i
    if !a.valid then t
    else if !a.decrypt then (if a.proto = 3 then t else t.setSa i { a with seq := a.stored })
    else if a.proto = 3 then (if a.tlsState = 3 then t else t.tlsResyncEnter ((t.laneOf i).getD 0) i)
    else t.setSa i { a with seq := a.stored, window := 2 ^ 1024 - 1 }) s
  { s with cry := { s.cry with cache := [] } }

/-- The on-die key store and the SA cache are erased: every stored SA then fails its unwrapping (spec/14 R429, spec/19
R589). -/
def State.eraseKeys (s : State) : State :=
  let s := s.loseCache
  { s with cry := { s.cry with sas := mapAll {} (fun _ (a : SaEntry) => { a with wrapDead := true }) s.cry.sas } }

/-! ### SA commands (spec/14 R436, R446) -/

/-- Argument word w of SA command set f. -/
def State.saArg (s : State) (f w : Nat) : Nat := s.word Reg.crySaArg [f, w]

/-- End an SA command: the key words are cleared (spec/14 R429). -/
def State.endSa (s : State) (f result : Nat) : State :=
  { s with cry := { s.cry with
      sets := setNth s.cry.sets f { busy := false, result }
      keyArgs := s.cry.keyArgs.filter (fun p => decide (p.1 / 16 ≠ f)) } }

/-- The key words written since the last command of a set. -/
def State.keyWords (s : State) (f : Nat) : List Nat :=
  (s.cry.keyArgs.filter (fun p => decide (p.1 / 16 = f))).map (fun p => p.1 % 16)

/-- The key and salt bytes of a set. -/
def State.keyBytes (s : State) (f n : Nat) : List Byte :=
  (List.range n).flatMap (fun w => toLe 4 (mapGet 0 s.cry.keyArgs (16 * f + w)))

/-- The SA that argument words spell (spec/14 R428, R436). -/
def State.saOfArgs (s : State) (f : Nat) : SaEntry :=
  let w (k : Nat) : Nat := s.saArg f k
  { proto := bitsOf (w 0) 0 2, decrypt := bitOf (w 0) 2, alg := bitsOf (w 0) 3 2, esn := bitOf (w 0) 5
    tunnel := bitOf (w 0) 6, natt := bitOf (w 0) 7, confOff := bitsOf (w 0) 8 2, sciEn := bitOf (w 0) 10
    an := bitsOf (w 0) 11 2, owner := bitsOf (w 1) 0 12, winLog2 := bitsOf (w 1) 24 4, spi := w 2
    nattSport := bitsOf (w 3) 0 16, nattDport := bitsOf (w 3) 16 16, sci := w 4 + 2 ^ 32 * w 5
    seq := w 6 + 2 ^ 32 * w 7, softLimit := w 8 + 2 ^ 32 * w 9, tlsTcpSeq := w 10 }

/-- Words 0-15 of the live entry (spec/14 R428). -/
def SaEntry.words (x : SaEntry) : List Nat :=
  [x.proto + b2n x.decrypt * 4 + x.alg * 8 + b2n x.esn * 32 + b2n x.tunnel * 64 + b2n x.natt * 128 + x.confOff * 256
     + b2n x.sciEn * 1024 + x.an * 2048 + b2n x.valid * 2 ^ 13 + b2n x.exhausted * 2 ^ 14 + b2n x.softHit * 2 ^ 15
     + x.tlsState * 2 ^ 16,
   x.owner + x.ownerGen * 2 ^ 12 + x.winLog2 * 2 ^ 24, x.spi, x.nattSport + x.nattDport * 65536,
   x.sci % 2 ^ 32, x.sci / 2 ^ 32, x.seq % 2 ^ 32, x.seq / 2 ^ 32, x.softLimit % 2 ^ 32, x.softLimit / 2 ^ 32,
   x.tlsTcpSeq, x.tlsLeft, 0, x.authFail, x.replayDrop, 0]

/-- The share of SAs of an owner (spec/14 R436). -/
def State.saShare (s : State) (owner : Nat) : Nat :=
  (if owner < 2048 then 1024 else 0) + 1024 * (s.inst owner).grant.saUnits

/-- A command through set f may touch an owner's SA: the owner is on the set's face, and on the face of the PF that writes the
command (spec/06 R170, spec/14 R436). -/
def State.saAllowed (s : State) (m : Master) (f owner : Nat) : Bool :=
  (f = 4 || decide (s.instFace owner = some f)) && s.onFace m owner

/-- SA_WRITE (spec/14 R436); a protocol whose feature is fused off ends with INVALID (spec/22 R672). -/
def State.saWrite (s : State) (m : Master) (f i : Nat) : State :=
  let x := s.saOfArgs f
  let n := if x.alg % 2 = 0 then 7 else 11
  let old := s.sa i
  if i = 0 || 4194303 < i || x.proto = 0 || x.confOff = 3 || 2051 < x.owner
      || !(x.winLog2 = 0 || (6 ≤ x.winLog2 && x.winLog2 ≤ 10)) || (x.proto = 3 && x.gmac)
      || s.keyWords f ≠ List.range n || !bitOf s.fuses.features (if x.proto = 2 then 0 else if x.proto = 1 then 1 else 2)
    then s.endSa f 2
  else if !s.saAllowed m f x.owner then s.endSa f 3
  else if s.saLive old && old.owner ≠ x.owner then s.endSa f 6
  else if s.saShare x.owner < s.saInUse x.owner i + 1 then s.endSa f 4
  else
    let kb := s.keyBytes f n
    let y := { x with
      valid := true, ownerGen := (s.inst x.owner).gen, key := kb.take (4 * n - 12), salt := kb.drop (4 * n - 12)
      window := if x.decrypt && x.winLog2 ≠ 0 then 2 ^ (x.seq % 2 ^ x.winLog2) else 0, stored := x.seq }
    (s.setSa i y).endSa f 0

/-- The state with the argument words of a set replaced by an image. -/
def State.putSaArgs (s : State) (f : Nat) (ws : List Nat) : State :=
  (List.range ws.length).foldl (fun t w => t.setWord Reg.crySaArg [f, w] (ix ws w)) s

/-- A write to CRY_SA_CMD of set f (spec/14 R436): the fifth set is firmware's. -/
def State.saCommand (m : Master) (f op i : Nat) : Eff := fun s =>
  if 5 ≤ f || (f = 4 && !m.isFw) || (s.cry.sets.getD f {}).busy then (s, false)
  else
    let x := s.sa i
    (if !s.ready 16 then s.endSa f 1
     else if op = 0 || 5 < op then s.endSa f 2
     else if op = 1 then s.saWrite m f i
     else if i = 0 || 4194303 < i then s.endSa f 2
     else if x.valid && !s.saAllowed m f x.owner then s.endSa f 3
     else if op = 2 then (s.putSaArgs f x.words).endSa f 0
     else if op = 3 then
       if x.valid then (s.setSa i { x with valid := false }).endSa f 0 else s.endSa f 5
     else if op = 4 then
       if x.valid then
         (s.setSa i { x with softLimit := s.saArg f 8 + 2 ^ 32 * s.saArg f 9, softHit := false }).endSa f 0
       else s.endSa f 5
     else if x.valid && x.proto = 3 && x.decrypt && x.tlsState = 2 then
       (s.setSa i { x with resync := some (s.saArg f 0, s.saArg f 1 + 2 ^ 32 * s.saArg f 2) }).endSa f 0
     else s.endSa f 2, true)

/-- A write to CRY_KEY_ARG (spec/14 R446): write-only key words. -/
def State.keyArgWrite (m : Master) (f w data : Nat) : Eff := fun s =>
  if f = 4 && !m.isFw then (s, false)
  else ({ s with cry := { s.cry with keyArgs := mapPut s.cry.keyArgs (16 * f + w) data } }, true)

/-! ### Lane commands (spec/14 R438, R445) -/

/-- End a lane command. -/
def State.endLane (s : State) (result : Nat) : State := { s with cry := { s.cry with laneCmd := { busy := false, result } } }

/-- A write to CRY_LANE_CMD (spec/14 R438): 1 DRAIN, 2 TEST, 3 RETURN. -/
def State.laneCommand (m : Master) (op l : Nat) : Eff := fun s =>
  if !m.isFw || s.cry.laneCmd.busy then (s, false)
  else
    let x := s.lane l
    (match op with
     | 1 =>
       if x.state ≠ .inService then s.endLane 1
       else if (s.inLanes x.decrypt).length ≤ 1 then s.endLane 2
       else (s.setLane l { x with state := .draining }).endLane 0
     | 2 =>
       if x.state = .out || x.state = .failed then
         let t := s.setLane l { x with state := .testing }
         { t with cry := { t.cry with laneCmd := { t.cry.laneCmd with busy := true } } }
       else s.endLane 1
     | 3 =>
       if x.state = .out then
         (s.setLane l { x with state := .inService, decrypt := s.bit Reg.cryLaneCtl [l] 0 }).endLane 0
       else s.endLane 1
     | _ => s.endLane 2, true)

/-- LANE_OUT: a draining lane holds no packet (spec/14 R438). -/
def State.laneGoesOut (s : State) (l : Nat) : State :=
  let x := s.lane l
  if x.state = .draining && s.missHeld l = [] then (s.setLane l { x with state := .out, miss := [] }).raise 279 l else s

/-- LANE_TEST_END: a lane test ends (spec/14 R438). -/
def State.endLaneTest (s : State) (l : Nat) (pass : Bool) : State :=
  let x := s.lane l
  if x.state ≠ .testing then s
  else if pass then (s.setLane l { x with state := .out, testPass := true }).endLane 0
  else ((s.setLane l { x with state := .failed, testPass := false }).endLane 0).raise 280 l

/-- The effect of a block reset of CRY (spec/14 R439, R435). -/
def State.resetCry (s : State) : State :=
  let s := (s.dropInside .atCrypto).loseCache
  let s := if s.cry.laneCmd.busy then s.endLane 1 else s
  { s with cry := { s.cry with
      lanes := s.cry.lanes.map (fun x =>
        if x.state = .testing then { x with state := .out, testPass := false, miss := [] } else { x with miss := [] })
      sets := s.cry.sets.map (fun x => if x.busy then { x with busy := false, result := 1 } else x) } }

end Sys2Proof.Machine
end

