-- ==== Sys2Proof/Machine/BufferOps.lean ====
section
/-! DEFINITION. The packet buffer: where a Mark goes, mirror and flood copies, admission, charges, holding and
spill, and the recirculation port (spec/12 R354-R357, spec/13 R398, spec/16, spec/20 R606-R610). -/

namespace Sys2Proof.Machine

/-- Counter k of the buffer (spec/16 R512). -/
def bufCounter (k : Nat) : Nat := blockBase 15 + 0x30000 + 8 * k

/-- Counter k of exit e of the scheduler (spec/17 R545). -/
def tmsCounter (e k : Nat) : Nat := blockBase 14 + 0x38000 + 0x100 * e + 8 * k

/-- Counter k of Quoin port p (spec/20 R625). -/
def cscCounter (p k : Nat) : Nat := blockBase 20 + 0x10000 + 0x100 * p + 8 * k

/-- Module counter k of the stack (spec/20 R625). -/
def cscModCounter (k : Nat) : Nat := blockBase 20 + 0x10400 + 8 * k

/-- A feature bit (spec/06 R181). -/
def State.feature (s : State) (i : Nat) : Bool := bitOf s.fuses.features i

/-! ### Routing over the stack (spec/20 R606, R607, R610) -/

/-- Quoin port p. -/
def State.quoin (s : State) (p : Nat) : QuoinPort := s.csc.ports.getD p {}

/-- The state with a Quoin port replaced. -/
def State.setQuoin (s : State) (p : Nat) (x : QuoinPort) : State :=
  { s with csc := { s.csc with ports := setNth s.csc.ports p x } }

/-- A Quoin port takes part in the route sets: it is UP and not retired (spec/20 R606, spec/21 R636). -/
def State.inRoutes (s : State) (p : Nat) : Bool := s.quoinUp p && !s.bit Reg.cscRetire [] p

/-- The direct set of a module. -/
def State.directSet (s : State) (m : Nat) : List Nat :=
  (List.range 4).filter (fun p => s.inRoutes p && decide ((s.quoin p).peerId = m))

/-- The route set of a module; a cascade entry is relayed through the direct set only. -/
def State.routeSet (s : State) (m : Nat) (cas : Bool) : List Nat :=
  let d := s.directSet m
  if d ≠ [] || cas || !s.bit Reg.cscCfg [] 0 then d
  else
    (List.range 4).filter (fun p =>
      s.inRoutes p && (match (s.quoin p).topo with
        | some t => decide (s.now < t.at_ + 300000) && bitOf t.direct m
        | none => false))

/-- A Quoin port has been down longer than its flush time (spec/20 R617). -/
def State.quoinShut (s : State) (p : Nat) : Bool :=
  !s.quoinUp p && (match (s.quoin p).downSince with
    | some t => decide (t + 1000 * s.fld Reg.cscPortCfg [p] 3 16 ≤ s.now)
    | none => false)

/-- Where a Mark leaves. -/
inductive Leave where
  | line (n : Nat)
  | host (link q : Nat)
  | quoin (p : Nat)
  | local_ (a : Act)
  | flood
  | bad (reason : Nat)
  deriving DecidableEq, Repr

/-- Route to a module. -/
def State.routeTo (s : State) (x : Mark) (m : Nat) : Leave :=
  let set := s.routeSet m (x.entAct = .cas)
  if set = [] then .bad 0xB0 else .quoin (ix set (x.hash % set.length))

/-- The exit that a Mark's dst_port selects (spec/01 R25, R26, spec/12 R356, spec/20 R597, R606, R610), with the Mark as
it leaves. -/
def State.leaveBy (s : State) (x : Mark) : Leave × Mark :=
  let l := portLocal x.dstPort
  if portModule x.dstPort ≠ s.moduleId then
    (if l ≤ 44 || l = 47 then s.routeTo x (portModule x.dstPort) else .bad 0xB0, x)
  else if l < 32 then (if s.lineShut l then .bad Reason.bufPortDown else .line l, x)
  else if l ≤ 39 then (.host (l - 32) x.queue, x)
  else if l ≤ 43 then
    let p := l - 40
    if s.quoinShut p then (.bad 0xB1, x)
    else
      let m := (s.quoin p).peerId
      let y := { x with dstPort := globalPort m 47 }
      if s.quoinUp p then (s.routeTo y m, y) else (.bad 0xB0, y)
  else if l = 44 then (if x.pass = 3 then .bad Reason.recircLimit else .local_ .recirc, x)
  else if l = 45 then (.local_ .exc, x)
  else if l = 46 then (.local_ .mgt, x)
  else if l = 47 then (if x.flags.flood then .flood else .bad x.reason, x)
  else (.bad Reason.fwdBadDest, x)

/-- Discard at buffer admission, counted where its reason is owned (spec/01 R21, spec/12 R376, spec/16 R512, spec/20
R625). -/
def State.dropAdmit (s : State) (p r : Nat) : State :=
  match s.pkt p with
  | none => s
  | some x =>
    let s := if r = Reason.recircLimit then s.count (clsCounter x.mark.course 7) 1 else s
    let s := if r = 0xB0 then s.count (cscModCounter 0) 1 else s
    let s := if r = 0xB1 then s.count (cscCounter (portLocal x.mark.dstPort - 40) 8) 1 else s
    s.dropBuf p r

/-! ### Scheduler queues at admission (spec/17 R514, R515, R537) -/

/-- Packets of leaf `k` that wait: scheduler queue k, or receive queue k - 4,096. -/
def State.leafHolds (s : State) (k : Nat) : Bool :=
  s.packets.any (fun p => decide (p.2.stage = .queued) &&
    (match p.2.eg with
     | .line _ _ => decide (p.2.txq = k)
     | .quoin _ _ => decide (p.2.txq = k)
     | .rxq q => decide (4096 + q = k)
     | .act _ => false))

/-- The group of scheduler queue q. -/
def State.tqGroup (s : State) (q : Nat) : Nat := (mapGet none s.tms.groupKept q).getD (s.fld Reg.tmsTqCfg [q] 0 9)

/-- The exit of a group. -/
def State.groupExit (s : State) (g : Nat) : Nat := (mapGet none s.tms.exitKept g).getD (s.fld Reg.tmsGroupCfg [g] 0 6)

/-- The host link of a receive queue, from its context (spec/17 R515). -/
def State.rxqLink (s : State) (q : Nat) : Nat :=
  let w := s.word Reg.qmgRxq [q, 2]
  2 * (s.instFace (bitsOf w 0 12)).getD 0 + bitsOf (s.word Reg.qmgRxq [q, 3]) 15 1

/-- The group that a receive queue's registers ask for; the flag tells that the link's default was taken for another. -/
def State.rxqAsked (s : State) (q : Nat) : Nat × Bool :=
  let l := s.rxqLink q
  let w := s.word Reg.tmsRxqCfg [q]
  if !bitOf w 26 then (36 + l, false)
  else if s.groupExit (bitsOf w 0 9) = 32 + l then (bitsOf w 0 9, false) else (36 + l, true)

/-- The group of receive queue q. -/
def State.rxqGroup (s : State) (q : Nat) : Nat := (mapGet none s.tms.groupKept (4096 + q)).getD (s.rxqAsked q).1

/-- The group of leaf k. -/
def State.leafGroup (s : State) (k : Nat) : Nat := if k < 4096 then s.tqGroup k else s.rxqGroup (k - 4096)

/-- Leaves with a packet. -/
def State.leaves (s : State) : List Nat :=
  s.packets.foldl (fun (l : List Nat) p =>
    if p.2.stage ≠ .queued then l
    else
      match p.2.eg with
      | .line _ _ => if l.contains p.2.txq then l else p.2.txq :: l
      | .quoin _ _ => if l.contains p.2.txq then l else p.2.txq :: l
      | .rxq q => if l.contains (4096 + q) then l else (4096 + q) :: l
      | .act _ => l) []

/-- Changes of group and of exit that waited for emptiness take effect (spec/17 R537). -/
def State.settleTms (s : State) : State :=
  if s.tms.groupKept = [] && s.tms.exitKept = [] then s
  else
    let s := { s with tms := { s.tms with groupKept := s.tms.groupKept.filter (fun p => s.leafHolds p.1) } }
    let gs := s.leaves.map s.leafGroup
    { s with tms := { s.tms with exitKept := s.tms.exitKept.filter (fun p => gs.contains p.1) } }

/-- The scheduler queue of a packet for a line or Quoin exit (spec/17 R514), counted; none with no default queue. -/
def State.chooseTq (s : State) (e pri v : Nat) : Option Nat × State :=
  if 1 ≤ v && v ≤ 4095 && s.groupExit (s.tqGroup v) = e then (some v, s)
  else
    let q := s.fld Reg.tmsExitCfg [e] 8 12 + pri
    let s := if v ≠ 0 then s.count (tmsCounter e 5) 1 else s
    if q ≤ 4095 && s.groupExit (s.tqGroup q) = e then (some q, s)
    else (none, s.count (tmsCounter e 6) 1)

/-! ### The admission test (spec/16 R484-R493, R501) -/

/-- The ingress unit of a packet (spec/16 R488). -/
def Packet.ingUnit (x : Packet) (pri : Nat) : IngUnit :=
  if x.mark.entAct = .lrx then .pg (portLocal x.mark.srcPort) pri else .act x.mark.entAct

/-- The buffer priority of a Mark (spec/16 R490). -/
def State.bufPri (s : State) (m : Mark) : Nat := s.fld Reg.bufClassMap [m.cls] 0 3

/-- The charge of a packet's own data (spec/16 R484, R485). -/
def State.chargeOf (s : State) (x : Packet) : Nat :=
  if x.ended then cellsOf x.mark.len else cellsOf (s.fld Reg.macPortCfg [portLocal x.mark.srcPort] 0 14)

/-- What admission decides. -/
inductive Verdict where
  | take (hdr : Bool)
  | wait
  | refuse (reason : Nat)
  deriving DecidableEq, Repr

/-- Cells that the packet's family holds already, so that its data takes no more. -/
def State.familyHolds (s : State) (p : Nat) (x : Packet) : Bool :=
  decide (0 < x.ingCells + x.hdrmCells) || (s.family p x).any (fun q => decide (0 < q.2.ingCells + q.2.hdrmCells))

/-- The ingress test: passes, and whether from headroom. -/
def State.ingTest (s : State) (u : IngUnit) (c : Nat) : Bool × Bool :=
  let fs := s.sharedFree
  let used := s.ingUsed u
  let rsv := s.ingRsv u
  let ing := decide (used + c ≤ rsv + thr (s.ingAlpha u) fs) && decide (c ≤ fs + (rsv - used))
  let hdr :=
    match u with
    | .pg n p => s.lossless n p && decide ((s.pg n p).hdrmUsed + c ≤ (s.pg n p).hdrm)
    | .act _ => false
  (ing, !ing && hdr)

/-- The egress test. -/
def State.egTest (s : State) (u : EgUnit) (c : Nat) : Bool :=
  let w := s.egCfg u
  decide (s.egUsed u + c ≤ max (bitsOf w 0 16) (thr (bitsOf w 16 4) (totalCells - s.buf.used)))

/-- buf_admit (spec/16 R492, R493): `c` its egress charge, `full` the charge of the shared data, `held` that its family
holds the data already, `spill` that it goes to spill. -/
def State.bufAdmit (s : State) (x : Packet) (i : IngUnit) (e : EgUnit) (c full : Nat) (held spill : Bool) : Verdict :=
  let ll := match i with | .pg n p => s.lossless n p | .act _ => false
  let t := if held then (true, false) else s.ingTest i full
  let eg := spill || (ll && !x.copy) || s.egTest e c
  let waits := match i with | .pg _ _ => false | .act a => decide (a ≠ .recirc)
  if (t.1 || t.2) && eg then .take t.2
  else if waits && !x.copy then .wait
  else if ll && !t.1 then .refuse Reason.bufHeadroom
  else .refuse (if t.1 then Reason.bufEgressFull else Reason.bufIngressFull)

/-- Spill is active (spec/16 R501). -/
def State.spillActive (s : State) : Bool := s.buf.spillEn && s.feature 7 && s.ready 16

/-- Cells of a receive queue in the spill region or bound for it. -/
def State.spillHeld (s : State) (q : Nat) : Nat :=
  mapGet 0 s.buf.spilled q
    + ((s.packets.filter (fun p => p.2.spill && !p.2.inHbm && decide (p.2.eg = .rxq q) && decide (p.2.stage = .queued))).map
        (fun p => cellsOf p.2.mark.len)).sum

/-- Cells of the whole spill region in use or bound for it. -/
def State.spillTotal (s : State) : Nat :=
  (s.buf.spilled.map (fun p => p.2)).sum
    + ((s.packets.filter (fun p => p.2.spill && !p.2.inHbm && decide (p.2.stage = .queued))).map
        (fun p => cellsOf p.2.mark.len)).sum

/-- The profile of a receive queue. -/
def State.hrxProf (s : State) (q : Nat) : Nat := s.fld Reg.bufHrxQprof [q] 0 4

/-- The packet is to be sent to spill (spec/16 R501). -/
def State.spillAsked (s : State) (m : Mark) (e : EgUnit) : Bool :=
  match e with
  | .rxq q =>
    let k := s.hrxProf q
    s.spillActive && m.flags.spill && s.bit Reg.bufHrxProf0 [k] 23
      && (decide (s.fld Reg.bufHrxProf1 [k] 16 16 ≤ mapGet 0 s.buf.rxqs q) || decide (0 < s.spillHeld q))
  | _ => false

/-- The spill region has room for c cells of a queue. -/
def State.spillRoom (s : State) (e : EgUnit) (c : Nat) : Bool :=
  match e with
  | .rxq q =>
    decide (s.spillTotal + c ≤ 4096 * s.buf.spillMib)
      && decide (s.spillHeld q + c ≤ 4096 * s.fld Reg.bufHrxProf2 [s.hrxProf q] 0 14)
  | _ => false

/-- Refused by the spill region (spec/16 R501). -/
def State.spillRefused (s : State) (p : Nat) (e : EgUnit) : State :=
  let s :=
    match e with
    | .rxq q =>
      if s.buf.spillFull.contains q then s
      else ({ s with buf := { s.buf with spillFull := q :: s.buf.spillFull } }).raise 357 q
        (some (s.queue (queueKey true q)).ctx.inst)
    | _ => s
  s.dropBuf p Reason.bufSpillFull

/-! ### ECN (spec/16 R499) -/

/-- The first recorded IP header: type and byte offset. -/
def firstIp (m : Mark) : Option (Nat × Nat) :=
  (m.hdrs.find? (fun h => h.typ = 6 || h.typ = 7)).map (fun h => (h.typ, 2 * h.off))

/-- The ECN field of an IP header. -/
def ecnOf (bs : List Byte) (t o : Nat) : Nat := if t = 6 then beAt bs (o + 1) 1 % 4 else beAt bs (o + 1) 1 / 16 % 4

/-- The frame with CE in its first IP header, where that header's ECN field is ECT(0) or ECT(1). -/
def markCe (m : Mark) (bs : List Byte) : Option (List Byte) :=
  match firstIp m with
  | none => none
  | some (t, o) =>
    if ecnOf bs t o ≠ 1 && ecnOf bs t o ≠ 2 then none
    else if t = 6 then
      let a := beAt bs o 2
      let b := a / 4 * 4 + 3
      some (putBeAt (putBeAt bs o b) (o + 10) (checksumUpdate (beAt bs (o + 10) 2) a b))
    else some (putBeAt bs o (putBits (beAt bs o 2) 4 2 3))
where
  /-- Put a 16-bit wire-order field. -/
  putBeAt (bs : List Byte) (o v : Nat) : List Byte := patchAt bs o (toBe 2 v)

/-- Whether an egress unit marks now: the state after a draw, if one was needed. -/
def State.ecnAsks (s : State) (e : EgUnit) : Bool × State :=
  let k := bitsOf (s.egCfg e) 20 3
  if k = 0 then (false, s)
  else
    let w := s.word Reg.bufEcnProf0 [k]
    let kmin := bitsOf w 0 16
    let kmax := max kmin (bitsOf w 16 16)
    let u := s.egUsed e
    if kmax ≤ u then (true, s)
    else if u < kmin then (false, s)
    else
      let r := s.takeFree
      (decide (Config.draw r.1 % (256 * (kmax - kmin)) < s.fld Reg.bufEcnProf1 [k] 0 9 * (u - kmin)), r.2)

/-- ECN marking of an admitted packet. -/
def State.ecnMark (s : State) (p : Nat) (e : EgUnit) : State :=
  match s.pkt p with
  | none => s
  | some x =>
    match markCe x.mark x.bytes with
    | none => s
    | some bs =>
      let r := s.ecnAsks e
      if r.1 then
        (r.2.setPkt p { x with bytes := bs, mark := { x.mark with flags := { x.mark.flags with ecnCe := true } } }).count
          (bufCounter 12) 1
      else r.2

/-! ### Charging -/

/-- Charge an admitted packet and queue it (spec/16 R484, R487, R492). -/
def State.charge (s : State) (p : Nat) (x : Packet) (i : IngUnit) (e : EgUnit) (c full : Nat) (held hdr spill : Bool)
    (tq : Nat) : State :=
  let s := s.setEg e (s.egUsed e + c)
  let s := if held then s else { (s.ingAdd i full hdr) with buf := { (s.ingAdd i full hdr).buf with used := s.buf.used + full } }
  let s := { s with buf := { s.buf with peak := max s.buf.peak s.buf.used } }
  let s := s.setPkt p { x with
    stage := .queued, eg := e, ing := i, egCells := c, txq := tq, spill
    ingCells := if held then x.ingCells else if hdr then 0 else full
    hdrmCells := if held then x.hdrmCells else if hdr then full else 0
    prov := !x.ended, admitted := s.now, since := s.now, order := s.nextPkt }
  let s := { s with nextPkt := s.nextPkt + 1 }
  let s := s.freeSlot p
  let s := s.count (bufCounter 0) 1
  let s := if held || !x.ended then s else s.count (bufCounter 1) full
  (s.ecnMark p e).evalUnit i

/-- Test a packet whose exit is chosen, and take it in, let it wait, or discard it; `full` is the charge of its data. -/
def State.tryAdmit (s : State) (p : Nat) (e : EgUnit) (full tq : Nat) : State :=
  match s.pkt p with
  | none => s
  | some x =>
    let i := x.ingUnit (s.bufPri x.mark)
    let c := s.chargeOf x
    let held := s.familyHolds p x
    let spill := s.spillAsked x.mark e
    match s.bufAdmit x i e c full held spill with
    | .take hdr =>
      if spill && !s.spillRoom e c then s.spillRefused p e
      else s.charge p x i e c full held hdr spill tq
    | .wait =>
      if x.stage = .bufWait then s
      else (s.setPkt p { x with stage := .bufWait, eg := e, ing := i, txq := tq, since := s.now }).count (bufCounter 16) 1
    | .refuse r =>
      let s := s.setPkt p { x with ing := i, eg := e, egCells := 0 }
      s.dropBuf p r

/-- Send a packet to its exit: act, the egress unit and the queue of the exit (spec/01 R26, spec/16 R489, spec/17 R514). -/
def State.toExit (s : State) (p full : Nat) (l : Leave) (m : Mark) : State :=
  match s.pkt p with
  | none => s
  | some x =>
    -- a packet sent elsewhere by a late verdict gives up its egress charge first (spec/12 R358)
    let s := s.setEg x.eg (s.egUsed x.eg - x.egCells)
    let pri := s.bufPri m
    let put (t : State) (a : Act) : State := t.setPkt p { x with mark := { m with act := a }, egCells := 0 }
    let queued (a : Act) (e : EgUnit) (exit : Nat) : State :=
      let r := s.settleTms.chooseTq exit pri m.queue
      match r.1 with
      | some q => (put r.2 a).tryAdmit p e full q
      | none => (put r.2 a).dropPkt p
    match l with
    | .line n => queued .ltx (.line n pri) n
    | .quoin q => queued .cas (.quoin q pri) (40 + q)
    | .host _ q =>
      let s := s.settleTms
      let r := s.rxqAsked q
      let s := if r.2 then s.count (tmsCounter (32 + s.rxqLink q) 5) 1 else s
      (put s .hrx).tryAdmit p (.rxq q) full 0
    | .local_ a => (put s a).tryAdmit p (.act a) full 0
    | .flood => s
    | .bad r => (s.setPkt p { x with mark := { m with reason := r }, egCells := 0 }).dropAdmit p r

/-! ### Copies -/

/-- A copy of a packet (spec/01 R11, spec/16 R484). -/
def Packet.copyOf (x : Packet) (m : Mark) (bs : List Byte) (trunc : Nat) : Packet :=
  { x with mark := m, bytes := bs, copy := true, trunc, slot := false, item := none, itemEnd := false, inStore := 0
           ingCells := 0, hdrmCells := 0, egCells := 0, late := [], raw := [], stage := .atBuffer }

/-- Resolve a copy's host port (spec/13 R381, R398); the flag tells a bad one. -/
def State.copyDest (s : State) (m : Mark) (dp q : Nat) : Mark × Bool :=
  if portModule dp = s.moduleId && 32 ≤ portLocal dp && portLocal dp ≤ 39 then
    match s.hostDest m q with
    | some m' => (m', true)
    | none => ({ m with dstPort := dp, queue := q }, false)
  else ({ m with dstPort := dp, queue := q }, true)

/-- The members of a flood group that the Mark's packet is sent to (spec/13 R398), as Marks. -/
def State.floodMarks (s : State) (m : Mark) : List (Mark × Bool) :=
  let w := s.word Reg.fwdFloodGroup [m.queue % 4096]
  let prof := s.word Reg.fwdClassProf [m.cls]
  let base := { m with flags := { m.flags with flood := false } }
  (List.range (bitsOf w 16 7)).filterMap (fun i =>
    let d := s.word Reg.fwdRepl [(bitsOf w 0 14 + i) % 16384]
    let dp := destPort d
    let here := decide (portModule dp = s.moduleId)
    let r := s.copyDest base dp (destQueue d)
    if destKind d ≠ 0 then none
    else if lineOrQuoin dp && dp = m.srcPort && !bitOf prof 9 then none
    else if here && 32 ≤ portLocal dp && portLocal dp ≤ 39 && r.2 && m.inst ≠ noInst && r.1.inst = m.inst then none
    else if here && 40 ≤ portLocal dp && portLocal dp ≤ 43 && m.entAct = .cas then none
    else some r)

/-- Put a flooded packet on its way: itself as the first copy, new packets as the others (spec/13 R398). -/
def State.flood (s : State) (p full : Nat) (x : Packet) : State :=
  match s.floodMarks x.mark with
  | [] => (s.setPkt p { x with mark := { x.mark with reason := 0x42 } }).dropPkt p
  | (m, ok) :: ms =>
    let s := s.count (fwdCounter 6) (ms.length + 1)
    let go (t : State) (q : Nat) (m : Mark) (ok : Bool) : State :=
      let l := if ok then t.leaveBy m else (.bad Reason.fwdBadDest, m)
      t.toExit q full (match l.1 with | .flood => .bad Reason.fwdDropEntry | z => z) l.2
    -- the other copies stand before the first is tested, so that the family shares its cells whatever becomes of it
    let r := ms.foldl (fun (acc : State × List (Nat × Mark × Bool)) q =>
      let n := acc.1.newPkt (x.copyOf q.1 x.bytes x.trunc)
      (n.2, acc.2 ++ [(n.1, q.1, q.2)])) (s, [])
    r.2.foldl (fun t q => go t q.1 q.2.1 q.2.2) (go r.1 p m ok)

/-- Put a packet at buffer admission on its way (spec/01 R21, R26). -/
def State.place (s : State) (p full : Nat) : State :=
  match s.pkt p with
  | none => s
  | some x =>
    if x.mark.flags.drop then s.dropPkt p
    else
      match s.leaveBy x.mark with
      | (.flood, _) => s.flood p full x
      | (l, m) => s.toExit p full l m

/-- The mirror copy that a Mark asks for (spec/01 R21, spec/12 R354, R361): its number and the state; a copy of a packet
to be discarded is not itself one to be discarded. -/
def State.mirrorCopy (s : State) (x : Packet) : Option Nat × State :=
  if !x.mark.flags.mirror then (none, s)
  else
    let img := s.imageOf x.mark.epoch
    let k := bitsOf (mapGet 0 img.classTab x.mark.cls) 0 5
    if k = 0 then (none, s)
    else
      let w := mapGet 0 img.sessions k
      let trunc := bitsOf w 32 10
      let bs := if trunc = 0 then x.bytes else x.bytes.take trunc
      let m := { x.mark with
        flags := { x.mark.flags with mirror := false, drop := false }, dstPort := bitsOf w 0 8, queue := bitsOf w 16 16
        len := if x.ended && trunc ≠ 0 then min x.mark.len trunc else x.mark.len }
      let r := s.copyDest m m.dstPort m.queue
      let m := if r.2 then r.1 else { r.1 with flags := { r.1.flags with drop := true }, reason := Reason.fwdBadDest }
      let b := if trunc = 0 then x.bound else some (match x.bound with | some v => min v trunc | none => trunc)
      let n := s.newPkt { x.copyOf m bs trunc with bound := b }
      (some n.1, n.2)

/-- BUFFER_ADMISSION: a packet reaches the buffer (spec/16 R492): its mirror copy first, then itself. -/
def State.bufferAdmission (s : State) (p : Nat) : State :=
  s.onPkt p .atBuffer (fun x =>
    if !s.ready 15 then s
    else
      let full := s.chargeOf x
      let r := s.mirrorCopy x
      let s := r.2.setPkt p { x with mark := { x.mark with flags := { x.mark.flags with mirror := false } } }
      let s := match r.1 with | some q => s.place q full | none => s
      s.place p full)

/-- CHARGE_CORRECTION: the end marker of a provisionally charged packet passes buffer admission (spec/16 R485). -/
def State.chargeCorrection (s : State) (p : Nat) : State :=
  match s.pkt p with
  | none => s
  | some x =>
    if !x.prov || !x.ended || x.raw ≠ [] || x.late ≠ [] then s
    else
      let fam := (p, x) :: s.family p x
      let full := (fam.map (fun q => cellsOf q.2.mark.len)).foldl max 0
      let s := fam.foldl (fun t q =>
        match t.pkt q.1 with
        | none => t
        | some y =>
          if !y.prov then t
          else
            let c := min y.egCells (cellsOf y.mark.len)
            let t := if y.stage = .leaving || y.stage = .queued then t.setEg y.eg (t.egUsed y.eg - (y.egCells - c)) else t
            let held := y.ingCells + y.hdrmCells
            let back := held - min held full
            let t := { (t.ingSub y.ing back) with buf := { (t.ingSub y.ing back).buf with used := t.buf.used - back } }
            let h := min y.hdrmCells back
            t.setPkt q.1 { y with prov := false, egCells := c, hdrmCells := y.hdrmCells - h, since := t.now
                                  ingCells := y.ingCells - (back - h) }) s
      (s.count (bufCounter 1) full).evalUnit x.ing

/-- ADMISSION_RETRY: a waiting packet is tested again at a release of cells (spec/16 R493). -/
def State.admissionRetry (s : State) (p : Nat) : State :=
  s.onPkt p .bufWait (fun x => s.tryAdmit p x.eg (s.chargeOf x) x.txq)

/-- BUF_WAIT_EXPIRY (spec/16 R493). -/
def State.bufWaitExpiry (s : State) (p : Nat) : State :=
  s.onPkt p .bufWait (fun x =>
    if x.since + s.fld Reg.bufIngWait [x.mark.entAct.val] 0 12 ≤ s.now then s.dropBuf p Reason.bufWaitExpired else s)

/-- MARK_AGE_SCAN: every packet that the buffer holds is examined (spec/01 R17). -/
def State.ageScan (s : State) : State :=
  s.packets.foldl (fun t q =>
    if q.2.stage = .queued && decide (2 ^ 31 ≤ markAge s.now q.2.mark.ts) then t.dropBuf q.1 Reason.aged else t) s

/-- HRX_HOLD_EXPIRY (spec/16 R500). -/
def State.hrxHoldExpiry (s : State) (p : Nat) : State :=
  s.onPkt p .queued (fun x =>
    match x.eg with
    | .rxq q =>
      let ms := s.fld Reg.bufHrxProf1 [s.hrxProf q] 0 16
      if ms = 0 || decide (s.now < x.admitted + 1000000 * ms) then s
      else
        let quiet := match s.buf.holdAt with | some t => decide (s.now < t + 1000000) | none => false
        let s :=
          if quiet then s
          else ({ s with buf := { s.buf with holdAt := some s.now } }).raise 359 q (some x.mark.inst)
        s.dropBuf p Reason.bufHrxHold
    | _ => s)

/-- SPILL_MOVE: an ended packet bound for spill moves to HBM and frees its on-die cells (spec/16 R501). -/
def State.spillMove (s : State) (p : Nat) : State :=
  s.onPkt p .queued (fun x =>
    match x.eg with
    | .rxq q =>
      if !x.spill || x.inHbm || x.prov || !s.spillActive then s
      else
        let s := s.freeCells p
        match s.pkt p with
        | none => s
        | some y =>
          (({ s with buf := { s.buf with
              spilled := mapUpd 0 s.buf.spilled q (fun c => c + cellsOf x.mark.len) } }).setPkt p
            { y with inHbm := true }).count (bufCounter 13) 1
    | _ => s)

/-- A packet leaves the spill region. -/
def State.leaveSpill (s : State) (q c : Nat) : State :=
  let left := mapGet 0 s.buf.spilled q - c
  { s with buf := { s.buf with
      spilled := mapSet 0 s.buf.spilled q left
      spillFull := if left = 0 then s.buf.spillFull.filter (· ≠ q) else s.buf.spillFull } }

/-- SPILL_READBACK: a spilled packet is read back ahead of its delivery (spec/16 R502). -/
def State.spillReadback (s : State) (p : Nat) (uncorr : Bool) : State :=
  s.onPkt p .queued (fun x =>
    match x.eg with
    | .rxq q =>
      let rq := s.queue (queueKey true q)
      if !x.inHbm || rq.state ≠ .running || !s.genOk x.mark.inst x.mark.gen then s
      else if uncorr then (s.raise 358 q (some x.mark.inst)).dropBuf p Reason.bufSpillError
      else ((s.setPkt p { x with inHbm := false, spill := false }).leaveSpill q (cellsOf x.mark.len)).count (bufCounter 14) 1
    | _ => s)

/-- PEAK_CLEAR (spec/16 R506). -/
def State.peakClear (data : Nat) : Eff := fun s =>
  (if bitOf data 31 then { s with buf := { s.buf with peak := s.buf.used } } else s, true)

/-! ### The recirculation port (spec/12 R355-R357) -/

/-- The oldest packet that waits at a one-leaf exit. -/
def State.oldestAt (s : State) (a : Act) : Option (Nat × Packet) :=
  s.packets.foldl (fun (o : Option (Nat × Packet)) p =>
    if p.2.stage = .queued && decide (p.2.eg = .act a) then
      match o with
      | some b => if p.2.order < b.2.order then some p else o
      | none => some p
    else o) none

/-- The check points at dequeue (spec/01 R17, R24, spec/17 R520): true where the packet was discarded. -/
def State.dequeueCheck (s : State) (e p : Nat) (x : Packet) : Bool × State :=
  if !s.genOk x.mark.inst x.mark.gen then (true, (s.count (tmsCounter e 4) 1).dropPkt p)
  else if 2 ^ 31 ≤ markAge s.now x.mark.ts then (true, s.dropBuf p Reason.aged)
  else (false, s)

/-- RECIRC_TAKE: the recirculation port takes a whole packet, which waits for a REC slot of its course (spec/12 R355). -/
def State.recircTake (s : State) (p : Nat) : State :=
  match s.oldestAt .recirc with
  | none => s
  | some (q, x) =>
    if q ≠ p || x.prov || !x.ended || !s.ready 14 then s
    else
      let r := s.dequeueCheck 44 p x
      if r.1 then r.2
      else
        let s := (r.2.freeCells p).count (tmsCounter 44 0) 1
        let s := s.count (tmsCounter 44 1) x.mark.len
        match s.pkt p with
        | none => s
        | some y =>
          s.setPkt p { y with
            stage := .waitSlot, fresh := false
            mark := { y.mark with
              act := .recirc, entAct := .recirc, pass := y.mark.pass + 1, flags := { y.mark.flags with recirc := false } } }

/-- RECIRC_HOLD_EXPIRY: 4,000 ticks after its release point a packet has no REC slot (spec/12 R357). -/
def State.recircHold (s : State) (p : Nat) : State :=
  match s.pkt p with
  | none => s
  | some x =>
    if s.now < x.since + 4000 || x.prov then s
    else if (x.stage = .queued && decide (x.eg = .act .recirc)) || (x.stage = .waitSlot && decide (x.mark.entAct = .recirc)) then
      (s.count (clsCounter x.mark.course 8) 1).dropPkt p
    else s

/-! ### Configuration (spec/16 R494) -/

/-- BUF reads its RWL fields as firmware sets bit 15 of GLB_LOCK. -/
def State.lockBuf (s : State) : State :=
  let keys := (List.range 32).flatMap (fun n => (List.range 8).map (fun p => (n, p)))
  let acts := [2, 4, 5, 6, 7]
  let sum := (keys.map (fun k => s.fld Reg.bufPgCfg [k.1, k.2] 0 16 + s.fld Reg.bufPgCfg [k.1, k.2] 16 16)).sum
    + (acts.map (fun a => s.fld Reg.bufIngCfg [a] 0 19)).sum
  let s := { s with buf := { s.buf with cfgRead := true } }
  if 245760 < sum then ({ s with buf := { s.buf with cfgInvalid := true } }).raise 355 0
  else
    let s := keys.foldl (fun t k =>
      let w := t.word Reg.bufPgCfg [k.1, k.2]
      t.setPg k.1 k.2 { t.pg k.1 k.2 with rsv := bitsOf w 0 16, hdrm := bitsOf w 16 16 }) s
    let s := acts.foldl (fun t a =>
      t.setActUse (Act.ofVal a) { t.actUse (Act.ofVal a) with rsv := t.fld Reg.bufIngCfg [a] 0 19 }) s
    { s with buf := { s.buf with spillEn := s.bit Reg.bufSpillCfg [] 0, spillMib := min 8192 (s.fld Reg.bufSpillCfg [] 1 14) } }

end Sys2Proof.Machine
end

