-- ==== Sys2Proof/Machine/DmaOps.lean ====
section
/-! DEFINITION. The host DMA engines: tag pools, staging, splitting, reads and their ends, write channels,
withdrawal, jobs, address translation and flushes (spec/09). -/

namespace Sys2Proof.Machine

/-- Counter k of face f of the DMA block (spec/09 R285). -/
def dmaCounter (f k : Nat) : Nat := blockBase 5 + 0x1000 * f + 0x200 + 8 * k

/-- The engines of face f. -/
def State.dmaFace (s : State) (f : Nat) : DmaFace := s.dma.faces.getD f {}

/-- The state with a face's engines replaced. -/
def State.setDmaFace (s : State) (f : Nat) (x : DmaFace) : State :=
  { s with dma := { s.dma with faces := setNth s.dma.faces f x } }

/-! ### Tags and staging (spec/09 R259-R263) -/

/-- Index of a pool among the configured ones. -/
def Pool.ix : Pool → Nat
  | .htx => 0 | .hrx => 1 | .mgt => 2 | .flush => 3

/-- The function that owns a link (spec/06 R158, spec/09 R267). -/
def linkFn (f l : Nat) : Nat := if l = 0 then 2048 + f else 2052 + f

/-- The tag space S of a link (spec/09 R260). -/
def State.tagSpace (s : State) (f l : Nat) : Nat :=
  if (s.link f l).flit then 4096 else if (s.fn (linkFn f l)).tag10 then 768 else 256

/-- An effective limit (spec/09 R260). -/
def effLimit (limit space : Nat) : Nat := if limit = 0 then 0 else max 1 (limit * space / 4096)

/-- A pool's configuration in force. -/
def State.poolCfg (s : State) (f : Nat) (p : Pool) : PoolCfg := s.dma.pools.getD (3 * f + p.ix) ⟨0, 0, 0⟩

/-- A pool's effective limit on a link. -/
def State.poolLimit (s : State) (f l : Nat) (p : Pool) : Nat :=
  match p with
  | .flush => effLimit 16 (s.tagSpace f l)
  | _ => effLimit (s.poolCfg f p).tags (s.tagSpace f l)

/-- A poll. -/
def Requester.isPoll : Requester → Bool
  | .poll _ => true
  | _ => false

/-- A flush read. -/
def Requester.isFlush : Requester → Bool
  | .flush _ _ _ => true
  | _ => false

/-- A Translation Request. -/
def Requester.isXlate : Requester → Bool
  | .xlate _ => true
  | _ => false

/-- Tags of a pool held, quarantined ones included; `poll` counts only those the poller took. -/
def State.tagsHeld (s : State) (f : Nat) (p : Pool) (poll : Bool) : Nat :=
  let x := s.dmaFace f
  (x.out.filter (fun r => decide (r.rd.pool = p) && (r.rd.req.isPoll || !poll))).length
    + (x.quarantine.filter (fun q => decide (q.pool = p) && (q.poll || !poll))).length

/-- Staging bytes of a pool reserved or holding arrived data (spec/09 R263). -/
def State.stageUsed (s : State) (f : Nat) (p : Pool) : Nat :=
  (((s.dmaFace f).out.filter (fun r => decide (r.rd.pool = p))).map (fun r => r.rd.stage)).sum
    + (if p = .htx then
        ((s.qmg.queues.filter (fun q => decide (q.1 < 16384) && decide (s.instFace q.2.ctx.inst = some f))).map
          (fun q => (q.2.items.map (fun i => i.stage)).sum)).sum
      else 0)

/-- A tag of link 1 is numbered from 4,096. -/
def linkTag (l t : Nat) : Nat := 4096 * l + t

/-- Tags of a link in use. -/
def State.linkTags (s : State) (f l : Nat) : List Nat :=
  ((s.dmaFace f).out.filter (fun r => decide (r.rd.link = l))).map (fun r => r.tag)
    ++ ((s.dmaFace f).quarantine.filter (fun q => decide (q.link = l))).map (fun q => q.tag)

/-- A request finds a free tag and staging space (spec/09 R259, R260, R263). -/
def State.roomFor (s : State) (f l : Nat) (p : Pool) (poll : Bool) (stage : Nat) : Bool :=
  let held := s.tagsHeld f p false
  let polls := s.tagsHeld f p true
  let lim := s.poolLimit f l p
  let rsv := if p = .htx then effLimit (s.poolCfg f p).pollReserve (s.tagSpace f l) else 0
  decide ((s.dmaFace f).out.length + (s.dmaFace f).quarantine.length < 4096)
    && decide ((s.linkTags f l).length < s.tagSpace f l)
    && (if poll then decide (held < lim) else decide (held - polls + max polls rsv < lim))
    && (p = .flush || decide (s.stageUsed f p + stage ≤ 1024 * (s.poolCfg f p).stageKib))

/-- The lowest free tag of a link. -/
def State.freeTag (s : State) (f l : Nat) : Nat :=
  ((List.range (s.tagSpace f l)).find? (fun t => !(s.linkTags f l).contains (linkTag l t))).elim 0 (linkTag l)

/-- The time T that a Completion Timeout Value selects, in ticks (spec/09 R267). -/
def ctoTicks (v : Nat) : Nat :=
  match v with
  | 1 => 80000
  | 2 => 8000000
  | 5 => 40000000
  | 6 => 160000000
  | 9 => 640000000
  | 10 => 2500000000
  | 13 => 10000000000
  | 14 => 40000000000
  | _ => 16000000

/-- T in force on a link. -/
def State.linkT (s : State) (f l : Nat) : Nat := ctoTicks (s.fn (linkFn f l)).cto

/-- The function whose Device Control register governs a function: a VF uses its PF's (spec/09 R265). -/
def State.ctlFn (s : State) (k : Nat) : Nat := if k < 2048 then 2048 + (s.tenantFace k).getD 0 else k

/-- min(MRRS, 4,096) of a function (spec/09 R265). -/
def State.mrrs (s : State) (k : Nat) : Nat := min 4096 (128 * 2 ^ (s.fn (s.ctlFn k)).mrrs)

/-- MPS of a function, at most 512 (spec/09 R265). -/
def State.mps (s : State) (k : Nat) : Nat := min 512 (128 * 2 ^ (s.fn (s.ctlFn k)).mps)

/-- A function may issue requests: D0, Bus Master Enable, and an active link (spec/06 R184, R188, spec/09 R278). -/
def State.fnOpen (s : State) (k : Nat) : Bool :=
  match s.fnFace k with
  | none => false
  | some n => !(s.fn k).d3hot && (s.fn k).bme && (s.link n (fnLink k)).active && !(s.face n).inReset

/-- Split `len` bytes at `addr` at every multiple of `step` (spec/09 R265); `fuel` bounds the pieces. -/
def splitAt (step : Nat) : Nat → Nat → Nat → List (Nat × Nat)
  | 0, _, _ => []
  | fuel + 1, addr, len =>
    if len = 0 then []
    else
      let n := min len (step - addr % step)
      (addr, n) :: splitAt step fuel (addr + n) (len - n)

/-- The pieces of a transfer. -/
def pieces (step addr len : Nat) : List (Nat × Nat) := splitAt step (len / step + 2) addr len

/-! ### Asking for reads -/

/-- A data read, which read_round64 rounds (spec/09 R266). -/
def Requester.isData : Requester → Bool
  | .data _ _ _ _ => true
  | .sto _ _ _ => true
  | _ => false

/-- Append a read request to the face's waiting ones (spec/09 R261). -/
def State.askRead (s : State) (r : HostRead) : State :=
  let x := s.dmaFace r.face
  let r := { r with id := s.dma.nextId }
  let s := { s with dma := { s.dma with nextId := s.dma.nextId + 1 } }
  s.setDmaFace r.face { x with waiting := x.waiting ++ [r] }

/-- First byte and bytes of a read as sent (spec/09 R266). -/
def State.readSpan (s : State) (r : HostRead) : Nat × Nat :=
  if r.req.isData && s.bit Reg.dmaFaceCtl [r.face] 1 then
    (r.addr / 64 * 64, (r.addr + r.len + 63) / 64 * 64 - r.addr / 64 * 64)
  else (r.addr / 4 * 4, (r.addr + r.len + 3) / 4 * 4 - r.addr / 4 * 4)

/-- First and last byte enables of a read: those of the transfer's bytes, all of them where the read is rounded
outward, none for a flush read (spec/09 R266, R281). -/
def State.readBe (s : State) (r : HostRead) : Nat × Nat :=
  if r.req.isFlush then (0, 0)
  else if r.req.isData && s.bit Reg.dmaFaceCtl [r.face] 1 then (15, 15)
  else
    let lo := r.addr % 4
    let hi := lo + r.len
    if hi ≤ 4 then (2 ^ hi - 2 ^ lo, 0) else (16 - 2 ^ lo, if hi % 4 = 0 then 15 else 2 ^ (hi % 4) - 1)

/-- The cache entry for an address (spec/09 R279). -/
def State.atsFind (s : State) (f k : Nat) (pasid : Option Nat) (addr : Nat) : Option AtsEntry :=
  (s.dmaFace f).ats.find? (fun e => decide (e.fn = k) && decide (e.pasid = pasid) && decide (e.page = addr / 4096))

/-- An address under a cache entry. -/
def AtsEntry.translate (e : AtsEntry) (addr : Nat) : Nat := e.target * 4096 + addr % 4096

/-- Issue a read with a tag, at the address that goes out (spec/09 R259, R267, R285). -/
def State.issueRead (s : State) (r : HostRead) (addr : Nat) : State :=
  let sp := s.readSpan r
  let flush := r.req.isFlush
  let stage := if flush then 0 else (sp.2 + sp.1 % 64 + 63) / 64 * 64
  let round := r.req.isData && s.bit Reg.dmaFaceCtl [r.face] 1
  let o : OutRead :=
    { tag := s.freeTag r.face r.link, rd := { r with stage }, issued := s.now, t := s.linkT r.face r.link
      lead := if round then r.addr - sp.1 else 0, total := if round then sp.2 else r.len }
  let x := s.dmaFace r.face
  let s := s.setDmaFace r.face { x with out := x.out ++ [o] }
  let s := if flush then s.count (dmaCounter r.face 9) 1
    else (s.count (dmaCounter r.face 0) 1).count (dmaCounter r.face 1) sp.2
  let be := s.readBe r
  s.send (.hostRead r.face r.link o.tag r.fn (addr / 4096 * 4096 + sp.1 % 4096) (if flush then 4 else sp.2) be.1 be.2
    { translated := r.ats, pasid := r.pasid })

/-- Send a Translation Request for the waiting request `id` (spec/09 R279). -/
def State.askXlate (s : State) (f l : Nat) (p : Pool) (k i g id addr : Nat) (pasid : Option Nat) : State :=
  let r : HostRead :=
    { id, req := .xlate id, face := f, link := l, pool := p, fn := k, inst := i, gen := g, addr, len := 0, pasid }
  let o : OutRead := { tag := s.freeTag f l, rd := r, issued := s.now, t := s.linkT f l }
  let x := s.dmaFace f
  ((s.setDmaFace f { x with out := x.out ++ [o] }).count (dmaCounter f 11) 1).send
    (.pcie f l (.translationRequest id k addr pasid))

/-- A Translation Request for `id` is outstanding. -/
def State.xlating (s : State) (f id : Nat) : Bool := (s.dmaFace f).out.any (fun r => decide (r.rd.req = .xlate id))

/-- How a read ended for its requester (spec/09 R268, R270, R279). -/
inductive ReadEnd where
  | ok (data : List Byte)
  | timeout
  | error
  | xlate
  /-- A poll whose work was withdrawn has ended: it brings nothing. -/
  | gone
  deriving DecidableEq, Repr

/-- A translation failed (spec/09 R279). -/
def State.xlateFail (s : State) (f k addr : Nat) : State :=
  (s.count (dmaCounter f 12) 1).raise 104 f none { addr, master := s.fnMaster k, access := 1 }

/-- What a waiting request can do now. -/
inductive Ask where
  /-- Nothing: it waits for its function, its link or a translation. -/
  | idle
  /-- It lacks a tag or staging: requests behind it in the pool wait too (R261). -/
  | blocked
  /-- Its translation forbids the read. -/
  | denied
  /-- It needs a Translation Request, which can go out. -/
  | xlate
  /-- It can go out at this address. -/
  | go (addr : Nat)
  deriving DecidableEq, Repr

/-- Judge a waiting request (spec/09 R261, R278, R279). -/
def State.judgeRead (s : State) (r : HostRead) : Ask :=
  if !s.fnOpen r.fn then .idle
  else
    let sp := s.readSpan r
    let stage := if r.req.isFlush then 0 else (sp.2 + sp.1 % 64 + 63) / 64 * 64
    let go (a : Nat) : Ask := if s.roomFor r.face r.link r.pool r.req.isPoll stage then .go a else .blocked
    if !r.ats || r.req.isFlush then go r.addr
    else
      match s.atsFind r.face r.fn r.pasid r.addr with
      | some e => if e.r then go (e.translate r.addr) else .denied
      | none =>
        if s.xlating r.face r.id then .idle
        else if s.roomFor r.face r.link r.pool false 0 then .xlate else .blocked

/-- The first waiting request that can act, past pools that are blocked. -/
def State.pickRead (s : State) : List Pool → List HostRead → Option (HostRead × Ask)
  | _, [] => none
  | blk, r :: rs =>
    if blk.contains r.pool then s.pickRead blk rs
    else
      match s.judgeRead r with
      | .idle => s.pickRead blk rs
      | .blocked => s.pickRead (r.pool :: blk) rs
      | a => some (r, a)

/-- Remove a waiting request. -/
def State.dropWaiting (s : State) (f id : Nat) : State :=
  let x := s.dmaFace f
  s.setDmaFace f { x with waiting := x.waiting.filter (fun r => decide (r.id ≠ id)) }

/-- READ_ISSUE: the next request of a face goes out (spec/09 R261); a request whose generation is stale is not
issued (spec/10 R295). -/
def State.readIssue (s : State) (f : Nat) : State × Option (HostRead × ReadEnd) :=
  let x := s.dmaFace f
  let s := s.setDmaFace f { x with waiting := x.waiting.filter (fun r => r.req.isFlush || s.genOk r.inst r.gen) }
  match s.pickRead [] (s.dmaFace f).waiting with
  | none => (s, none)
  | some (r, .go a) => ((s.dropWaiting f r.id).issueRead r a, none)
  | some (r, .xlate) => (s.askXlate f r.link r.pool r.fn r.inst r.gen r.id r.addr r.pasid, none)
  | some (r, _) => ((s.dropWaiting f r.id).xlateFail f r.fn r.addr, some (r, .xlate))

/-! ### Ends of reads (spec/09 R268-R272) -/

/-- Log in a function's AER capability (spec/09 R269, R270): bit positions of PCIe (log 4). -/
def State.aerLog (s : State) (k bit : Nat) : State := s.setFn k { s.fn k with aer := putBit (s.fn k).aer bit true }

/-- The Invalidate Requests whose reads have all ended are completed (spec/09 R280). -/
def State.settleInvals (s : State) (f : Nat) : State :=
  (s.dmaFace f).invals.foldl (fun t v =>
    let x := t.dmaFace f
    if v.reads.any (fun id => x.out.any (fun r => decide (r.rd.id = id) && !r.rd.req.isXlate)) then t
    else
      let t := t.setDmaFace f { x with invals := x.invals.filter (fun w => decide (w ≠ v)) }
      (t.count (dmaCounter f 13) 1).send (.pcie f (fnLink v.fn) (.invalidateCompletion v.fn v.page))) s

/-- Take an outstanding read out of the table: its tag is free. -/
def State.closeRead (s : State) (f tag : Nat) : State :=
  let x := s.dmaFace f
  (s.setDmaFace f { x with out := x.out.filter (fun r => decide (r.tag ≠ tag)) }).settleInvals f

/-- The outstanding read with a tag. -/
def State.outRead (s : State) (f tag : Nat) : Option OutRead := (s.dmaFace f).out.find? (fun r => decide (r.tag = tag))

/-- The read's work still stands: not withdrawn and not of a stale generation (spec/09 R258, R272). -/
def State.readLive (s : State) (r : HostRead) : Bool := !r.withdrawn && s.genOk r.inst r.gen

/-- Hand a read's end to its requester, or discard it as withdrawn (spec/09 R272). -/
def State.endRead (s : State) (r : HostRead) (e : ReadEnd) : State × Option (HostRead × ReadEnd) :=
  if s.readLive r then (s, some (r, e))
  else
    let out := if r.req.isPoll then some (r, ReadEnd.gone) else none
    match e with
    | .ok _ => (s.count (dmaCounter r.face 14) 1, out)
    | _ => (s, out)

/-- READ_COMPLETION: a completion with a tag (spec/09 R268-R270). -/
def State.completion (s : State) (f tag : Nat) (st : CplStatus) (bytes : List Byte) :
    State × Option (HostRead × ReadEnd) :=
  match s.outRead f tag with
  | some o =>
    if o.rd.req.isXlate || o.rd.req.isFlush then (s, none)
    else
      match st with
      | .ok =>
        let n := o.rd.got.length + bytes.length
        if bytes = [] || o.total < n then (s, none)
        else if n < o.total then
          let x := s.dmaFace f
          (s.setDmaFace f { x with out := x.out.map (fun r =>
            if r.tag = tag then { r with rd := { r.rd with got := r.rd.got ++ bytes } } else r) }, none)
        else (s.closeRead f tag).endRead o.rd (.ok (((o.rd.got ++ bytes).drop o.lead).take o.rd.len))
      | .error =>
        (((s.closeRead f tag).count (dmaCounter f 6) 1).raise 102 0 (some o.rd.inst)
          { addr := o.rd.addr, master := s.fnMaster o.rd.fn, access := 1 }).endRead o.rd .error
      | .poisoned =>
        ((((s.closeRead f tag).count (dmaCounter f 7) 1).aerLog o.rd.fn 12).raise 103 0 (some o.rd.inst)
          { addr := o.rd.addr, master := s.fnMaster o.rd.fn, access := 1 }).endRead o.rd .error
  | none =>
    match (s.dmaFace f).quarantine.find? (fun q => decide (q.tag = tag)) with
    | some q =>
      ((s.count (dmaCounter f 5) 1).raise 100 0 none { master := s.fnMaster q.fn, access := 1 }, none)
    | none =>
      let k := linkFn f (tag / 4096)
      (((s.count (dmaCounter f 8) 1).aerLog k 16).raise 101 0 none { master := s.fnMaster k, access := 1 }, none)

/-- An outstanding read ends as timed out: event, count and quarantine (spec/09 R268, R271). -/
def State.timeOutRead (s : State) (f : Nat) (o : OutRead) : State × Option (HostRead × ReadEnd) :=
  let q : Quarantined :=
    { face := f, link := o.rd.link, pool := o.rd.pool, tag := o.tag, fn := o.rd.fn, endAt := s.now + 2 * o.t
      poll := o.rd.req.isPoll }
  let s := s.closeRead f o.tag
  let x := s.dmaFace f
  let s := s.setDmaFace f { x with quarantine := x.quarantine ++ [q] }
  let s := (s.count (dmaCounter f 4) 1).raise 99 0 (some o.rd.inst)
    { addr := o.rd.addr, master := s.fnMaster o.rd.fn, access := 1 }
  match o.rd.req with
  | .xlate _ => (s.xlateFail f o.rd.fn o.rd.addr, some (o.rd, .xlate))
  | _ => s.endRead o.rd .timeout

/-- READ_TIMEOUT: the timer of a read wins its entry (spec/09 R268). -/
def State.readTimeout (s : State) (f tag : Nat) : State × Option (HostRead × ReadEnd) :=
  match s.outRead f tag with
  | some o => if o.rd.req.isFlush || s.now < o.issued + o.t then (s, none) else s.timeOutRead f o
  | none => (s, none)

/-- QUARANTINE_END: the tag returns to its pool (spec/09 R269). -/
def State.quarantineEnd (s : State) (f tag : Nat) : State :=
  let x := s.dmaFace f
  s.setDmaFace f { x with quarantine := x.quarantine.filter (fun q => !(decide (q.tag = tag) && decide (q.endAt ≤ s.now))) }

/-- A flush read ends: its channel's writes are visible, or count as such (spec/09 R281). -/
def State.flushEnd (s : State) (f tag : Nat) (timeout : Bool) : State :=
  match s.outRead f tag with
  | some o =>
    if !o.rd.req.isFlush || (timeout && s.now < o.issued + o.t) then s
    else
      let s := s.closeRead f tag
      if timeout then
        (s.count (dmaCounter f 10) 1).raise 105 o.rd.inst (some o.rd.inst)
          { addr := o.rd.addr, master := s.fnMaster o.rd.fn, access := 1 }
      else s
  | none => s

/-! ### Withdrawal (spec/09 R272) -/

/-- Withdraw reads: waiting ones are not issued, outstanding ones stay and lose their data. -/
def State.withdrawReads (s : State) (f : Nat) (p : HostRead → Bool) : State :=
  let x := s.dmaFace f
  s.setDmaFace f { x with
    waiting := x.waiting.filter (fun r => !p r)
    out := x.out.map (fun o => if p o.rd then { o with rd := { o.rd with withdrawn := true } } else o) }

/-- The write TLPs left in a piece of work. -/
def State.tlpsLeft (s : State) (w : HostWrite) : Nat :=
  (w.parts.map (fun q => (pieces (s.mps w.fn) q.1 q.2.length).length)).sum

/-- A write channel (spec/09 R257). -/
def State.chanWork (s : State) (f l a : Nat) : List HostWrite := mapGet [] (s.dmaFace f).chans (8 * l + a)

/-- The state with a channel's work replaced. -/
def State.setChanWork (s : State) (f l a : Nat) (ws : List HostWrite) : State :=
  let x := s.dmaFace f
  s.setDmaFace f { x with chans := mapSet [] x.chans (8 * l + a) ws }

/-- Queue work on a write channel (spec/09 R276). -/
def State.askWrite (s : State) (f l a : Nat) (w : HostWrite) : State := s.setChanWork f l a (s.chanWork f l a ++ [w])

/-- Suppress the work that `p` names on every channel of a face, and count its TLPs. -/
def State.suppress (s : State) (f : Nat) (p : HostWrite → Bool) : State × List HostWrite :=
  (s.dmaFace f).chans.foldl (fun (acc : State × List HostWrite) c =>
    let gone := c.2.filter p
    if gone = [] then acc
    else
      let t := acc.1.setChanWork f (c.1 / 8) (c.1 % 8) (c.2.filter (fun w => !p w))
      (t.count (dmaCounter f 15) ((gone.map (fun w => s.tlpsLeft w)).sum), acc.2 ++ gone)) (s, [])

/-! ### Writes (spec/09 R265, R272, R276, R278, R279) -/

/-- A function's data writes on a face have Relaxed Ordering set (spec/09 R276). -/
def State.relaxedData (s : State) (f k : Nat) : Bool := s.bit Reg.dmaFaceCtl [f] 0 && (s.fn k).relaxed

/-- Remember what a channel wrote last for an instance (spec/09 R281). -/
def State.noteWrite (s : State) (f l a i addr : Nat) (attr : ReqAttr) : State :=
  let x := s.dmaFace f
  let old := x.unflushed.filter (fun u => !(decide (u.inst = i) && decide (u.link = l) && decide (u.chan = a)))
  s.setDmaFace f { x with unflushed := old ++ [{ inst := i, link := l, chan := a, addr := addr / 4 * 4
                                                 pasid := attr.pasid, translated := attr.translated }] }

/-- One write TLP of a channel (spec/09 R285): MSI-X apart. -/
def State.emitWrite (s : State) (f l a k i addr : Nat) (attr : ReqAttr) (bytes : List Byte) : State :=
  let s := s.noteWrite f l a i (addr + bytes.length - 1) attr
  ((s.count (dmaCounter f 2) 1).count (dmaCounter f 3) bytes.length).send (.hostWrite f l k addr bytes attr)

/-- The pool whose tags a channel's Translation Requests take (spec/09 R257). -/
def chanPool (a : Nat) : Pool := if a = 2 then .htx else if a = 3 then .hrx else .mgt

/-- The number under which a channel's first work waits for a translation. -/
def chanXlateId (l a : Nat) : Nat := 2 ^ 40 + 8 * l + a

/-- The number under which a completion ring waits for a translation. -/
def ringXlateId (r : Nat) : Nat := 2 ^ 41 + r

/-- The number under which a line's poll waits for a translation. -/
def pollXlateId (l : Nat) : Nat := 2 ^ 42 + l

/-- The address a write goes to: none while a translation is asked for or waited for, `false` where it is
forbidden (spec/09 R279). -/
def State.writeAddr (s : State) (f l : Nat) (p : Pool) (k i g id addr : Nat) (ats : Bool) (pasid : Option Nat) :
    State × Option (Nat × Bool) :=
  if !ats then (s, some (addr, true))
  else
    match s.atsFind f k pasid addr with
    | some e => (s, some (e.translate addr, e.w))
    | none =>
      if s.xlating f id || !s.roomFor f l p false 0 then (s, none)
      else (s.askXlate f l p k i g id addr pasid, none)

/-- The parts that remain after `n` bytes. -/
def advanceParts (n : Nat) : List (Nat × List Byte) → List (Nat × List Byte)
  | [] => []
  | (a, bs) :: ps => if n < bs.length then (a + n, bs.drop n) :: ps else ps

/-- How a piece of write work ended. -/
inductive WriteEnd where
  | done
  /-- Suppressed for a stale generation. -/
  | stale
  | bmeOff
  | xlate
  | dmaReset
  deriving DecidableEq, Repr

/-- WRITE_TLP: a channel at a TLP boundary (spec/09 R272). -/
def State.writeTlp (s : State) (f l a : Nat) : State × Option (HostWrite × WriteEnd) :=
  match s.chanWork f l a with
  | [] => (s, none)
  | w :: ws =>
    let stop (e : WriteEnd) : State × Option (HostWrite × WriteEnd) :=
      ((s.setChanWork f l a ws).count (dmaCounter f 15) (s.tlpsLeft w), some (w, e))
    if w.withdrawn then ((stop .stale).1, none)
    else if !s.genOk w.inst w.gen then stop .stale
    else if !(s.fn w.fn).bme then stop .bmeOff
    else if !s.fnOpen w.fn then (s, none)
    else
      match w.parts with
      | [] => (s.setChanWork f l a ws, some (w, .done))
      | (addr, bs) :: ps =>
        match s.writeAddr f l (chanPool a) w.fn w.inst w.gen (chanXlateId l a) addr w.ats w.pasid with
        | (t, none) => (t, none)
        | (t, some (_, false)) =>
          let t := t.setChanWork f l a ws
          ((t.count (dmaCounter f 15) (s.tlpsLeft w)).xlateFail f w.fn addr, some (w, .xlate))
        | (t, some (out, true)) =>
          let n := min bs.length (s.mps w.fn - addr % s.mps w.fn)
          let rest := (advanceParts n ((addr, bs) :: ps)).filter (fun q => q.2 ≠ [])
          let t := t.emitWrite f l a w.fn w.inst out
            { pasid := w.pasid, translated := w.ats, relaxed := s.relaxedData f w.fn } (bs.take n)
          if rest = [] then (t.setChanWork f l a ws, some (w, .done))
          else (t.setChanWork f l a ({ w with parts := rest, started := true } :: ws), none)

/-! ### Address translation (spec/09 R279, R280) -/

/-- What waited for a translation and failed. -/
inductive XlateFailed where
  | read (r : HostRead)
  | write (w : HostWrite)
  | ring (r : Nat)
  | poll (l : Nat)
  deriving DecidableEq, Repr

/-- The request that waited under a number fails (spec/09 R279). -/
def State.xlateFailed (s : State) (f id : Nat) : State × Option XlateFailed :=
  if 2 ^ 42 ≤ id then (s, some (.poll (id - 2 ^ 42)))
  else if 2 ^ 41 ≤ id then (s, some (.ring (id - 2 ^ 41)))
  else if 2 ^ 40 ≤ id then
    let l := (id - 2 ^ 40) / 8
    let a := (id - 2 ^ 40) % 8
    match s.chanWork f l a with
    | w :: ws => ((s.setChanWork f l a ws).count (dmaCounter f 15) (s.tlpsLeft w), some (.write w))
    | [] => (s, none)
  else
    match (s.dmaFace f).waiting.find? (fun r => decide (r.id = id)) with
    | some r => (s.dropWaiting f id, some (.read r))
    | none => (s, none)

/-- ATS_TRANSLATION: a Translation Completion arrives (spec/09 R279); the cache keeps 4,096 entries (spec/06 R160), the
oldest leaving first (log 18). -/
def State.translation (s : State) (f id : Nat) (r : XlateResult) : State × Option XlateFailed :=
  match (s.dmaFace f).out.find? (fun o => decide (o.rd.req = .xlate id)) with
  | none => (s, none)
  | some o =>
    let s := s.closeRead f o.tag
    match r with
    | .ok page rd wr =>
      let x := s.dmaFace f
      let e : AtsEntry := { fn := o.rd.fn, pasid := o.rd.pasid, page := o.rd.addr / 4096, target := page, r := rd, w := wr }
      let cache := x.ats ++ [e]
      (s.setDmaFace f { x with ats := cache.drop (cache.length - 4096) }, none)
    | .fail => (s.xlateFail f o.rd.fn o.rd.addr).xlateFailed f id

/-- ATS_INVALIDATE: an Invalidate Request arrives (spec/09 R280). -/
def State.invalidate (s : State) (f k page pages : Nat) : State :=
  let hit (p : Nat) : Bool := decide (page ≤ p) && decide (p < page + pages)
  let x := s.dmaFace f
  let used := (x.out.filter (fun r => r.rd.ats && decide (r.rd.fn = k) &&
    (if r.rd.req.isFlush then x.ats.any (fun e => decide (e.fn = k) && hit e.page && decide (e.target = r.rd.addr / 4096))
     else hit (r.rd.addr / 4096)))).map (fun r => r.rd.id)
  (s.setDmaFace f { x with
    ats := x.ats.filter (fun e => !(decide (e.fn = k) && hit e.page))
    invals := x.invals ++ [{ fn := k, page, pages, deadline := s.now + 50000, reads := used }] }).settleInvals f

/-- INVALIDATE_DEADLINE: the reads still outstanding end as timed out (spec/09 R280). -/
def State.invalDeadline (s : State) (f k page : Nat) : State × List (HostRead × ReadEnd) :=
  match (s.dmaFace f).invals.find? (fun v => decide (v.fn = k) && decide (v.page = page) && decide (v.deadline ≤ s.now)) with
  | none => (s, [])
  | some v =>
    ((s.dmaFace f).out.filter (fun o => v.reads.contains o.rd.id && !o.rd.req.isXlate)).foldl
      (fun (acc : State × List (HostRead × ReadEnd)) o =>
        if o.rd.req.isFlush then (acc.1.closeRead f o.tag, acc.2)
        else
          let r := acc.1.timeOutRead f o
          (r.1, acc.2 ++ r.2.toList)) (s, [])

/-! ### Resets of a link and of a face (spec/09 R271, R281) -/

/-- A link reset ends every outstanding read of the link as timed out; a flush ends as done. -/
def State.linkReadsEnd (s : State) (f l : Nat) : State × List (HostRead × ReadEnd) :=
  let s := s.setDmaFace f { s.dmaFace f with
    waiting := (s.dmaFace f).waiting.filter (fun r => !(r.req.isFlush && decide (r.link = l))) }
  ((s.dmaFace f).out.filter (fun o => decide (o.rd.link = l))).foldl
    (fun (acc : State × List (HostRead × ReadEnd)) o =>
      if o.rd.req.isFlush then (acc.1.closeRead f o.tag, acc.2)
      else
        let r := acc.1.timeOutRead f o
        (r.1, acc.2 ++ r.2.toList)) (s, [])

/-- A face reset retires the face's reads without report or quarantine (spec/09 R271, spec/04 R111). -/
def State.retireReads (s : State) (f : Nat) : State :=
  let x := s.dmaFace f
  s.setDmaFace f { x with waiting := [], out := [], ats := [], invals := [] }

/-! ### Flushes (spec/09 R281, R282) -/

/-- A flush of an instance is under way. -/
def State.flushing (s : State) (i : Nat) : Bool :=
  (List.range 4).any (fun f =>
    let x := s.dmaFace f
    x.waiting.any (fun r => r.req.isFlush && decide (r.inst = i))
      || x.out.any (fun o => o.rd.req.isFlush && decide (o.rd.inst = i)))

/-- Send one flush read on each channel that has written for the instance since its last flush; with Bus Master
Enable 0 none is sent (spec/06 R190). -/
def State.startFlush (s : State) (i : Nat) : State :=
  (List.range 4).foldl (fun t f =>
    let us := (t.dmaFace f).unflushed.filter (fun u => decide (u.inst = i))
    let x := t.dmaFace f
    let t := t.setDmaFace f { x with unflushed := x.unflushed.filter (fun u => decide (u.inst ≠ i)) }
    us.foldl (fun t u =>
      let k := instFn i u.link
      if (t.fn k).bme then
        t.askRead { id := 0, req := .flush i u.link u.chan, face := f, link := u.link, pool := .flush, fn := k, inst := i
                    gen := (t.inst i).gen, addr := u.addr, len := 0, ats := u.translated, pasid := u.pasid }
      else t) t) s

/-! ### Firmware jobs (spec/09 R274, R275) -/

/-- Word w of job record j of a face. -/
def State.jobWord (s : State) (f j w : Nat) : Nat := s.word Reg.dmaJob [f, j, w]

/-- Fields of a job record (spec/09 R274). -/
structure JobRec where
  host : Nat
  local_ : Nat
  len : Nat
  toHost : Bool
  ats : Bool
  pasid : Option Nat
  statusEn : Bool
  wrap : Nat
  inst : Nat
  link : Nat
  deriving DecidableEq, Repr

/-- Read job record j of face f. -/
def State.jobRec (s : State) (f j : Nat) : JobRec :=
  let w3 := s.jobWord f j 3
  let len := bitsOf w3 0 21
  { host := s.jobWord f j 0 + 2 ^ 32 * s.jobWord f j 1, local_ := s.jobWord f j 2
    len := if len = 0 then 1048576 else len, toHost := bitOf w3 21, ats := bitOf w3 22
    pasid := if bitOf w3 23 then some (bitsOf (s.jobWord f j 5) 0 20) else none, statusEn := bitOf w3 24
    wrap := bitsOf w3 27 5, inst := bitsOf (s.jobWord f j 4) 0 12, link := bitsOf (s.jobWord f j 4) 12 1 }

/-- The job is INVALID (spec/09 R275); a len above 1,048,576 is outside its range (log 18). -/
def State.jobInvalid (s : State) (f : Nat) (r : JobRec) : Bool :=
  (1 ≤ r.wrap && r.wrap ≤ 5) || r.wrap = 31 || (6 ≤ r.wrap && decide (2 ^ r.wrap < r.len)) || decide (1048576 < r.len)
    || decide (s.instFace r.inst ≠ some f)
    || (r.link = 1 && (decide (r.inst < 2048) || (s.face f).mode = 0))
    || !inKeystoneLocal r.local_ r.len || (decide (0x80000000 ≤ r.local_) && !s.ready 16)

/-- Byte i of the job goes to this host address (spec/09 R275). -/
def JobRec.hostAt (r : JobRec) (i : Nat) : Nat :=
  if r.wrap = 0 then r.host + i else r.host / 2 ^ r.wrap * 2 ^ r.wrap + (r.host + i) % 2 ^ r.wrap

/-- The byte of the job that a host address holds. -/
def JobRec.indexOf (r : JobRec) (a : Nat) : Nat :=
  if r.wrap = 0 then a - r.host else (a % 2 ^ r.wrap + 2 ^ r.wrap - r.host % 2 ^ r.wrap) % 2 ^ r.wrap

/-- The job's runs of successive host addresses: one, or two where the window wraps. -/
def JobRec.runs (r : JobRec) : List (Nat × Nat × Nat) :=
  if r.wrap = 0 then [(r.host, 0, r.len)]
  else
    let n := min r.len (2 ^ r.wrap - r.host % 2 ^ r.wrap)
    (r.host, 0, n) :: (if n < r.len then [(r.hostAt n, n, r.len - n)] else [])

/-- Write bytes into the Keystone local space. -/
def State.localWrite (s : State) (a : Nat) (bs : List Byte) : State :=
  if a < 0x800000 then
    let c := s.ksc.cplx.getD s.ksc.active {}
    { s with ksc := { s.ksc with cplx := setNth s.ksc.cplx s.ksc.active { c with sram := memWriteBytes c.sram a bs } } }
  else { s with ksc := { s.ksc with hbm := memWriteBytes s.ksc.hbm a bs } }

/-- Write a job's status word and raise its event (spec/09 R274). -/
def State.jobStatus (s : State) (f count status : Nat) : State :=
  let j := count % 32
  let en := (s.jobRec f j).statusEn
  let s := s.setWord Reg.dmaJob [f, j, 7] (putBits (s.jobWord f j 7) 0 8 status)
  if en then s.raise 107 f else s

/-- DMA_JOB_DONE advances past every job that has finished in queue order. -/
def advanceJobs : Nat → DmaFace → DmaFace
  | 0, x => x
  | n + 1, x =>
    match x.jobs.find? (fun j => decide (j.count = x.jobDone)) with
    | some j =>
      if j.done then
        advanceJobs n { x with jobDone := (x.jobDone + 1) % 2 ^ 32, jobs := x.jobs.filter (fun k => decide (k.count ≠ j.count)) }
      else x
    | none => x

/-- Mark a job finished and advance DMA_JOB_DONE. -/
def State.finishJob (s : State) (f : Nat) (j : Job) (status : Nat) : State :=
  let s := s.jobStatus f j.count status
  let x := s.dmaFace f
  s.setDmaFace f (advanceJobs 32 { x with jobs := x.jobs.map (fun k =>
    if k.count = j.count then { k with done := true, status } else k) })

/-- Start the job of a count (spec/09 R274, R275). -/
def State.startJob (s : State) (f count : Nat) : State :=
  let r := s.jobRec f (count % 32)
  let g := (s.inst r.inst).gen
  let add (s : State) (left : Nat) : State :=
    let x := s.dmaFace f
    s.setDmaFace f { x with jobs := x.jobs ++ [{ count, gen := g, left }] }
  if s.jobInvalid f r then (add s 0).finishJob f { count, gen := g, left := 0 } 7
  else if (s.inst r.inst).resetting then (add s 0).finishJob f { count, gen := g, left := 0 } 4
  else
    let k := instFn r.inst r.link
    if !(s.fn k).bme then (add s 0).finishJob f { count, gen := g, left := 0 } 5
    else if r.toHost then
      (add s 1).askWrite f r.link 7
        { work := .job (count % 32), fn := k, inst := r.inst, gen := g, ats := r.ats, pasid := r.pasid
          parts := r.runs.map (fun q => (q.1, s.localBytes (r.local_ + q.2.1) q.2.2)) }
    else
      let ps := r.runs.flatMap (fun q => pieces (s.mrrs k) q.1 q.2.2)
      ps.foldl (fun t q =>
        t.askRead { id := 0, req := .job (count % 32), face := f, link := r.link, pool := .mgt, fn := k, inst := r.inst
                    gen := g, addr := q.1, len := q.2, ats := r.ats, pasid := r.pasid }) (add s ps.length)

/-- JOB_SUBMIT: a write to DMA_JOB_PROD (spec/09 R274, R284): firmware only, at most 32 ahead. -/
def State.jobProd (m : Master) (f count : Nat) : Eff := fun s =>
  let x := s.dmaFace f
  if !m.isFw || decide (32 < (count + 2 ^ 32 - x.jobDone) % 2 ^ 32) then (s, false)
  else
    let n := (count + 2 ^ 32 - x.jobProd) % 2 ^ 32
    let s := s.setDmaFace f { x with jobProd := count }
    if 32 < n then (s, true)
    else
      ((List.range n).foldl (fun t i =>
        let c := (x.jobProd + i) % 2 ^ 32
        if (t.dmaFace f).jobs.any (fun j => decide (j.count = c)) then t else t.startJob f c) s, true)

/-- The running job of a record. -/
def State.jobAt (s : State) (f slot : Nat) : Option Job :=
  (s.dmaFace f).jobs.find? (fun j => decide (j.count % 32 = slot) && !j.done && decide (j.status = 0))

/-- The state with a running job changed. -/
def State.updJob (s : State) (f : Nat) (j : Job) : State :=
  let x := s.dmaFace f
  s.setDmaFace f { x with jobs := x.jobs.map (fun k => if k.count = j.count then j else k) }

/-- A job ends with a status; its requests are withdrawn. -/
def State.jobOver (s : State) (f slot status : Nat) : State :=
  match s.jobAt f slot with
  | none => s
  | some j =>
    let s := s.withdrawReads f (fun r => decide (r.req = .job slot))
    s.updJob f { j with status, left := 0 }

/-- A read of a job ends. -/
def State.jobRead (s : State) (r : HostRead) (slot : Nat) (e : ReadEnd) : State :=
  match s.jobAt r.face slot, e with
  | none, _ => s
  | some j, .ok data =>
    let rc := s.jobRec r.face slot
    let s := s.localWrite (rc.local_ + rc.indexOf r.addr) data
    s.updJob r.face (if j.left = 1 then { j with left := 0, status := 1 } else { j with left := j.left - 1 })
  | some _, .timeout => s.jobOver r.face slot 2
  | some _, .error => s.jobOver r.face slot 3
  | some _, .xlate => s.jobOver r.face slot 6
  | some _, .gone => s

/-- A write job ends. -/
def State.jobWrite (s : State) (f slot : Nat) (e : WriteEnd) : State :=
  s.jobOver f slot (match e with | .done => 1 | .stale => 4 | .bmeOff => 5 | .xlate => 6 | .dmaReset => 3)

/-- JOB_FINISH: a job that is over gets its status word, and DMA_JOB_DONE advances (spec/09 R274). -/
def State.jobFinish (s : State) (f : Nat) : State :=
  match (s.dmaFace f).jobs.find? (fun j => decide (j.status ≠ 0) && !j.done) with
  | some j => s.finishJob f j j.status
  | none => s

/-- The jobs of an instance end with a status: a stale generation or Bus Master Enable cleared. -/
def State.jobsOver (s : State) (f : Nat) (k status : Nat) : State :=
  (s.dmaFace f).jobs.foldl (fun t j =>
    let r := t.jobRec f (j.count % 32)
    if !j.done && j.status = 0 && instFn r.inst r.link = k then t.jobOver f (j.count % 32) status else t) s

/-! ### The pool configuration (spec/09 R262) -/

/-- Read the pool configuration in the instant bit 5 of GLB_LOCK is set. -/
def State.lockDma (s : State) : State :=
  let acts := [2, 3, 7]
  let rd (f a : Nat) : PoolCfg :=
    { tags := s.fld Reg.dmaPoolCfg [f, a] 0 13, pollReserve := if a = 2 then s.fld Reg.dmaPoolCfg [f, a] 16 10 else 0
      stageKib := s.fld Reg.dmaPoolStage [f, a] 0 14 }
  let cfg := (List.range 4).flatMap (fun f => acts.map (rd f))
  let ok := (List.range 4).all (fun f => decide (((acts.map (fun a => (rd f a).tags)).sum) ≤ 4080)
      && decide ((rd f 2).pollReserve ≤ (rd f 2).tags))
    && decide ((cfg.map (fun c => c.stageKib)).sum ≤ 15616)
  if ok then { s with dma := { s.dma with pools := cfg, cfgRead := true } }
  else ({ s with dma := { s.dma with cfgInvalid := true, cfgRead := true } }).raise 106 0

end Sys2Proof.Machine
end

