-- ==== Sys2Proof/Machine/CqOps.lean ====
section
/-! DEFINITION. Completion rings: entries, the corbel, moderation and interrupts, and the ring commands
(spec/08). -/

namespace Sys2Proof.Machine

/-- Counter k of face f (spec/08 R255). -/
def cqCounter (f k : Nat) : Nat := blockBase 6 + 0x1A0000 + 0x1000 * f + 0x100 + 8 * k

/-- A ring. -/
def State.ring (s : State) (r : Nat) : CompRing := mapGet {} s.qmg.rings r

/-- The state with a ring replaced. -/
def State.setRing (s : State) (r : Nat) (x : CompRing) : State :=
  { s with qmg := { s.qmg with rings := mapSet {} s.qmg.rings r x } }

/-- Instances that hold a grant or are managers. -/
def State.granted (s : State) : List Nat :=
  ((s.ivm.insts.map (fun p => p.1)).filter (fun i => decide (i < 2048))) ++ [2048, 2049, 2050, 2051]

/-- Unit u of a grant of `units` from `base`. -/
def inUnits (units base u : Nat) : Bool := decide (base ≤ u) && decide (u < base + units)

/-- The instance whose share or grant holds a ring (spec/10 R290, R291). -/
def State.ringOwner (s : State) (r : Nat) : Option Nat :=
  if r < 4096 then some (r / 2)
  else s.granted.find? (fun i => inUnits (s.inst i).grant.cqUnits (s.inst i).grant.cqBase ((r - 4096) / 32))

/-- The function of a ring (spec/08 R247). -/
def CompRing.fn (x : CompRing) : Nat := instFn x.ctx.inst x.ctx.link

/-- The face of a ring's instance. -/
def State.ringFace (s : State) (x : CompRing) : Nat := (s.instFace x.ctx.inst).getD 0

/-- a - b modulo 2^32. -/
def sub32 (a b : Nat) : Nat := (a + 2 ^ 32 - b % 2 ^ 32) % 2 ^ 32

/-- The ring is full (spec/08 R231). -/
def CompRing.full (x : CompRing) : Bool := decide (x.ctx.m ≤ sub32 x.w x.l)

/-- The 32 bytes of an entry of completion count k (spec/08 R232, R233). -/
def entryBytes (e : CqEntry) (k m : Nat) : List Byte :=
  let ts := e.ts.getD (e.src % 2 ^ 24)
  toLe 4 e.cookie ++ toLe 4 e.count
    ++ toLe 4 (e.queue % 16384 + b2n e.rx * 2 ^ 14 + b2n e.ts.isSome * 2 ^ 15 + e.status % 256 * 2 ^ 16 + e.cls % 256 * 2 ^ 24)
    ++ toLe 4 e.bytes ++ toLe 4 e.w10 ++ toLe 4 (e.place % 2 ^ 26 + e.flags % 64 * 2 ^ 26)
    ++ toLe 4 ts ++ toLe 4 (ts / 2 ^ 32 % 2 ^ 30 + b2n e.malformed * 2 ^ 30 + (1 - k / m % 2) * 2 ^ 31)

/-- ABORTED, as a status (spec/08 R235). -/
def stAborted : Nat := 5

/-- The channel that writes an entry (spec/09 R257). -/
def CqEntry.chan (e : CqEntry) : Nat := if e.rx && e.status ≠ stAborted then 3 else 2

/-! ### Interrupts (spec/08 R248, R249) -/

/-- Send every pending message of a function that can be sent now (spec/08 R249, R250). -/
def State.flushVectors (s : State) (k : Nat) : State :=
  (s.fn k).msix.foldl (fun t p =>
    if p.2.pending && t.vectorOpen k p.1 then
      let t := t.sendVector k p.1
      if p.2.byRing then t.count (cqCounter ((t.fnFace k).getD 0) 3) 1 else t
    else t) s

/-- A ring fires on its vector (spec/08 R249, R255). -/
def State.fireRing (s : State) (x : CompRing) : State :=
  let k := x.fn
  let v := x.ctx.vector
  let f := s.ringFace x
  if fnVectors k ≤ v then s
  else if s.vectorOpen k v then (s.fire k v).count (cqCounter f 3) 1
  else
    let wake := (s.fn k).pmeEn && ((s.fn k).d3hot || (s.face f).d3cold)
    let s := s.fire k v
    let s := s.setFn k { s.fn k with msix := mapUpd {} (s.fn k).msix v (fun u => { u with byRing := true }) }
    let s := s.count (cqCounter f 4) 1
    if wake then s.count (cqCounter f 5) 1 else s

/-- Moderation of a ring (spec/08 R248). -/
def State.cqCheck (s : State) (r : Nat) : State :=
  let x := s.ring r
  let unread := x.w ≠ x.l || x.corbel ≠ [] || x.waiting ≠ []
  if x.state ≠ .running || !x.armed || !unread then s
  else
    let fin := x.timerEnd.getD (s.now + x.ctx.coalTime * 125)
    if x.ctx.coalCount ≤ x.u || fin ≤ s.now then
      (s.setRing r { x with armed := false, u := 0, timerEnd := none, f := x.l }).fireRing x
    else s.setRing r { x with timerEnd := some fin }

/-! ### Entries (spec/08 R237-R243) -/

/-- A completion entry becomes ready (spec/08 R237): it joins its ring's ready entries, and U counts it. -/
def State.entryReady (s : State) (r : Nat) (e : CqEntry) : State :=
  let x := s.ring r
  s.setRing r { x with ready := x.ready ++ [e], u := x.u + 1 }

/-- Rings that have the guaranteed share of the corbel (spec/08 R240). -/
def State.liveRings (s : State) : Nat := (s.qmg.rings.filter (fun p => decide (p.2.state ≠ .disabled))).length

/-- The corbel can grant a ring one more entry (spec/08 R240). -/
def State.corbelGrants (s : State) (x : CompRing) : Bool :=
  decide (x.corbel.length < 4)
    || decide ((s.qmg.rings.map (fun p => p.2.corbel.length - 4)).sum + 4 * s.liveRings < 65536)

/-- Some ring's first waiting entry lacks only the device-wide corbel (spec/08 R242). -/
def State.updExhausted (s : State) : State :=
  let now := s.qmg.rings.any (fun p => decide (p.2.waiting ≠ []) && decide (p.2.corbel.length < p.2.ctx.corbelCap))
  { s with qmg := { s.qmg with exhausted := now } }

/-- An entry of an old generation is suppressed (spec/08 R251). -/
def State.entryStale (s : State) (x : CompRing) (e : CqEntry) : Bool :=
  !s.genOk e.inst e.gen || !s.genOk x.ctx.inst (s.inst x.ctx.inst).gen

/-- The ring can be written (spec/08 R241). -/
def State.ringOpen (s : State) (x : CompRing) : Bool := decide (x.state = .running) && s.fnOpen x.fn

/-- A ring moves to ERROR (spec/08 R245). -/
def State.ringError (s : State) (r cause : Nat) : State :=
  let x := s.ring r
  if x.state = .running then (s.setRing r { x with state := .error, errCause := cause }).raise 135 r (some x.ctx.inst)
  else s

/-- How an attempt to write an entry ended. -/
inductive Wrote where
  | yes
  /-- A translation is asked for. -/
  | later
  /-- The translation forbids the write. -/
  | denied
  deriving DecidableEq, Repr

/-- Write an entry into an open ring that is not full (spec/08 R231-R233, R238). -/
def State.writeEntry (s : State) (r : Nat) (e : CqEntry) : State × Wrote :=
  let x := s.ring r
  let k := x.fn
  let f := s.ringFace x
  let addr := x.ctx.ring + 32 * (x.w % x.ctx.m)
  let a := e.chan
  match s.writeAddr f x.ctx.link (chanPool a) k x.ctx.inst (s.inst x.ctx.inst).gen (ringXlateId r) addr x.ctx.ats
      x.ctx.pasid with
  | (t, none) => (t, .later)
  | (t, some (_, false)) => (t.xlateFail f k addr, .denied)
  | (t, some (out, true)) =>
    let t := t.emitWrite f x.ctx.link a k x.ctx.inst out { pasid := x.ctx.pasid, translated := x.ctx.ats } (entryBytes e x.w x.ctx.m)
    let y := t.ring r
    ((t.setRing r { y with w := (y.w + 1) % 2 ^ 32 }).count (cqCounter f 0) 1, .yes)

/-- Put an entry into the corbel; the first after an empty share raises qmg.cq_full (spec/08 R241). -/
def State.toCorbel (s : State) (r : Nat) (e : CqEntry) : State :=
  let x := s.ring r
  let f := s.ringFace x
  let first := x.corbel = []
  let s := (s.setRing r { x with corbel := x.corbel ++ [e] }).count (cqCounter f 1) 1
  if first then (s.count (cqCounter f 2) 1).raise 134 r (some x.ctx.inst) else s

/-- Discard an entry at the completion path, counted (spec/08 R242, R255). -/
def State.discardEntry (s : State) (r n : Nat) : State := s.count (cqCounter (s.ringFace (s.ring r)) 8) n

/-- Where an entry goes that cannot go to its ring now: the corbel, or it waits (spec/08 R241, R242). -/
def State.holdEntry (s : State) (r : Nat) (e : CqEntry) : State :=
  let x := s.ring r
  if x.waiting = [] && decide (x.corbel.length < x.ctx.corbelCap) && s.corbelGrants x then s.toCorbel r e
  else
    let wide := x.waiting = [] && decide (x.corbel.length < x.ctx.corbelCap)
    let s := s.setRing r { x with waiting := x.waiting ++ [e] }
    if wide && !s.qmg.exhausted then
      ({ s with qmg := { s.qmg with exhausted := true } }).raise 136 r (some x.ctx.inst)
    else s

/-- CQ_ENTRY_READY: the oldest ready entry of a ring is placed (spec/08 R241, R242, R245, R251). -/
def State.placeEntry (s : State) (r : Nat) : State :=
  let x := s.ring r
  match x.ready with
  | [] => s
  | e :: rest =>
    let t := s.setRing r { x with ready := rest }
    let t :=
      if s.entryStale x e then t.count (cqCounter (s.ringFace x) 6) 1
      else if x.state = .disabled || (x.state = .error && e.status = stAborted) then t.discardEntry r 1
      else if s.ringOpen x && !x.full && x.corbel = [] && x.waiting = [] then
        match t.writeEntry r e with
        | (u, .yes) => u
        | (u, .later) => u.setRing r { u.ring r with ready := e :: rest }
        | (u, .denied) => (u.holdEntry r e).ringError r 3
      else t.holdEntry r e
    t.cqCheck r

/-- Move waiting entries into the corbel as far as it takes them (spec/08 R243). -/
def State.admitWaiting (s : State) (r : Nat) : Nat → State
  | 0 => s
  | n + 1 =>
    let x := s.ring r
    match x.waiting with
    | [] => s
    | e :: rest =>
      if s.entryStale x e then
        ((s.setRing r { x with waiting := rest }).count (cqCounter (s.ringFace x) 6) 1).admitWaiting r n
      else if decide (x.corbel.length < x.ctx.corbelCap) && s.corbelGrants x then
        ((s.setRing r { x with waiting := rest }).toCorbel r e).admitWaiting r n
      else s

/-- Write held entries, oldest first, until the ring is full or the share is empty (spec/08 R243). -/
def State.drainLoop (s : State) (r : Nat) : Nat → State
  | 0 => s
  | n + 1 =>
    let s := s.admitWaiting r (s.ring r).waiting.length
    let x := s.ring r
    match x.corbel with
    | [] => s
    | e :: rest =>
      if s.entryStale x e then
        ((s.setRing r { x with corbel := rest }).count (cqCounter (s.ringFace x) 6) 1).drainLoop r n
      else if !s.ringOpen x || x.full then s
      else
        match s.writeEntry r e with
        | (t, .yes) => (t.setRing r { t.ring r with corbel := rest }).drainLoop r n
        | (t, .later) => t
        | (t, .denied) => t.ringError r 3

/-- The translation that a ring's first entry waits for has failed: the entry stays first in the corbel (spec/08
R245). -/
def State.ringXlateFail (s : State) (r : Nat) : State :=
  let x := s.ring r
  let s :=
    match x.corbel, x.ready with
    | [], e :: rest => (s.setRing r { x with ready := rest }).holdEntry r e
    | _, _ => s
  s.ringError r 3

/-- CORBEL_DRAIN of a ring, and every ring whose entries wait for the device-wide corbel moves up. -/
def State.drainRing (s : State) (r : Nat) : State :=
  let x := s.ring r
  let s := if x.state = .disabled then s else s.drainLoop r (x.corbel.length + x.waiting.length + 1)
  let s := s.qmg.rings.foldl (fun t p =>
    if p.2.waiting ≠ [] then t.admitWaiting p.1 p.2.waiting.length else t) s
  s.updExhausted.cqCheck r

/-- Drain every ring of a function (spec/08 R250, R252). -/
def State.drainFn (s : State) (k : Nat) : State :=
  s.qmg.rings.foldl (fun t p => if p.2.state ≠ .disabled && p.2.fn = k then t.drainRing p.1 else t) s

/-- Fetch is paused for a ring's queues (spec/08 R241, R243). -/
def CompRing.paused (x : CompRing) : Bool := decide (x.corbel ≠ []) || decide (x.waiting ≠ [])

/-- COALESCE_TIMER_EXPIRY: the moderation timer has reached its end (spec/08 R248). -/
def State.coalesceExpiry (s : State) (r : Nat) : State :=
  match (s.ring r).timerEnd with
  | some t => if t ≤ s.now then s.cqCheck r else s
  | none => s

/-! ### Records (spec/08 R239) -/

/-- A record's check field is right (spec/07 R198, R200). -/
def recordOk (lo hi : Nat) : Bool := decide (bitsOf hi 16 16 = 65535 - lo % 65536)

/-- Examine a ring's record; the flag says that the poll brought news (spec/07 R217). -/
def State.ringRecord (s : State) (r lo hi : Nat) : State × Bool :=
  let x := s.ring r
  let a := bitOf hi 0
  if x.state = .disabled then (s, false)
  else if !recordOk lo hi then (s.count (cqCounter (s.ringFace x) 7) 1, true)
  else if lo = x.l && a = x.a then (s, false)
  else
    let d := sub32 lo x.l
    if 2 ^ 31 ≤ d || sub32 x.w x.l < d then
      (if x.state = .running then s.ringError r 1 else s, false)
    else
      let armed := if !a then false else if !x.a || lo ≠ x.f then true else x.armed
      let s := s.setRing r { x with l := lo, a, armed := if x.state = .running then armed else x.armed }
      (s.drainRing r, true)

/-! ### Commands (spec/08 R245, R255) -/

/-- Read a ring context (spec/08 R253). -/
def State.readCqCtx (s : State) (r : Nat) : CqCtx :=
  let w2 := s.word Reg.qmgCq2 [r]
  let w3 := s.word Reg.qmgCq3 [r]
  let w4 := s.word Reg.qmgCq4 [r]
  { ring := s.word Reg.qmgCq [r, 0] + 2 ^ 32 * s.word Reg.qmgCq [r, 1], inst := bitsOf w2 0 12
    m := 64 * 2 ^ bitsOf w2 12 4, dbLine := bitsOf w2 16 13, dbSlot := bitsOf w2 29 3, vector := bitsOf w3 0 8
    link := bitsOf w3 8 1, ats := bitOf w3 9, pasid := if bitOf w3 10 then some (s.fld Reg.qmgCq5 [r] 0 20) else none
    coalCount := max 1 (bitsOf w3 16 9), coalTime := bitsOf w4 0 16, corbelCap := bitsOf w4 16 9 }

/-- A doorbell line. -/
def State.dbLine (s : State) (l : Nat) : DbLine := mapGet {} s.qmg.lines l

/-- The line is ACTIVE or IDLE and of the instance. -/
def State.lineUsable (s : State) (l i : Nat) : Bool :=
  let x := s.dbLine l
  (x.state = .active || x.state = .idle) && decide (x.inst = i)

/-- A queue or a ring that is not DISABLED uses the slot. -/
def State.slotUsed (s : State) (l n : Nat) : Bool :=
  s.qmg.queues.any (fun p => decide (p.2.state ≠ .disabled) && decide (p.2.ctx.dbLine = l) && decide (p.2.ctx.dbSlot = n))
    || s.qmg.rings.any (fun p => decide (p.2.state ≠ .disabled) && decide (p.2.ctx.dbLine = l) && decide (p.2.ctx.dbSlot = n))

/-- The link bit is allowed for an instance: 1 only for a manager in face mode 1 (spec/06 R158). -/
def State.linkAllowed (s : State) (i l : Nat) : Bool :=
  l = 0 || (decide (2048 ≤ i) && (s.face (i - 2048)).mode = 1)

/-- A command through face f on something of an owner is DENIED (spec/08 R255, spec/07 R229, spec/06 R170). -/
def State.cmdDenied (s : State) (m : Master) (f owner : Nat) : Bool :=
  decide (s.instFace owner ≠ some f) || !s.onFace m owner

/-- why of an INVALID ring ENABLE, 0 where it is allowed (spec/08 R255; the order of the checks is log 18). -/
def State.cqWhy (s : State) (r : Nat) (c : CqCtx) : Nat :=
  let code := s.fld Reg.qmgCq2 [r] 12 4
  if 10 < code then 1
  else if c.ring % (32 * c.m) ≠ 0 then 2
  else if s.ringOwner r ≠ some c.inst then 3
  else if !s.linkAllowed c.inst c.link then 10
  else if (s.inst c.inst).state ≠ .started then 8
  else if !s.lineUsable c.dbLine c.inst then 4
  else if s.slotUsed c.dbLine c.dbSlot then 5
  else if fnVectors (instFn c.inst c.link) ≤ c.vector then 7
  else 0

/-- End a ring command of face f. -/
def State.endCq (s : State) (f result why : Nat) : State :=
  { s with qmg := { s.qmg with cqCmd := setNth s.qmg.cqCmd f { busy := false, result, why } } }

/-- The instance that a ring command is judged by: the ring's owner, or the context's inst where no one holds it. -/
def State.ringJudge (s : State) (r : Nat) : Nat := (s.ringOwner r).getD (s.readCqCtx r).inst

/-- Discard what a ring holds (spec/08 R245). -/
def CompRing.emptied (x : CompRing) : CompRing :=
  { x with ready := [], corbel := [], waiting := [], armed := false, u := 0, timerEnd := none }

/-- The receive packets that wait in the packet buffer for a place in a ring are discarded with CQ_DOWN (spec/08
R236, R245). -/
def State.dropForRing (s : State) (r : Nat) : State :=
  s.packets.foldl (fun t p =>
    match p.2.eg with
    | .rxq q => if p.2.stage = .queued && (t.queue (16384 + q)).ctx.cq = r then t.dropPkt p.1 else t
    | _ => t) s

/-- QMG_CQ_CMD: ops 1 ENABLE, 5 DISABLE (spec/08 R245, R255). -/
def State.cqCommand (m : Master) (f op r : Nat) : Eff := fun s =>
  if (s.qmg.cqCmd.getD f {}).busy then (s, false)
  else if op ≠ 1 && op ≠ 5 then (s.endCq f 2 11, true)
  else if 2051 < s.ringJudge r then (s.endCq f 2 7, true)
  else if s.cmdDenied m f (s.ringJudge r) then (s.endCq f 3 0, true)
  else
    let x := s.ring r
    if op = 1 then
      if x.state ≠ .disabled then (s.endCq f 2 6, true)
      else
        let c := s.readCqCtx r
        let why := s.cqWhy r c
        if why ≠ 0 then (s.endCq f 2 why, true)
        else ((s.setRing r { state := .running, ctx := c }).endCq f 0 0, true)
    else if x.state = .disabled then (s.endCq f 1 0, true)
    else if s.qmg.queues.any (fun p => decide (p.2.state ≠ .disabled) && decide (p.2.ctx.cq = r)) then (s.endCq f 1 0, true)
    else
      let n := x.ready.length + x.corbel.length + x.waiting.length
      let s := s.discardEntry r n
      let s := if x.waiting = [] then s else s.dropForRing r
      let y := (s.ring r).emptied
      (((s.setRing r { y with state := .disabled, errCause := 0 }).updExhausted).endCq f 0 0, true)

/-- An instance reset moves the instance's rings to DISABLED and clears what they hold (spec/08 R251). -/
def State.resetRings (s : State) (i : Nat) : State :=
  (s.qmg.rings.foldl (fun t p =>
    if p.2.state ≠ .disabled && p.2.ctx.inst = i then
      let t := t.setRing p.1 { p.2.emptied with state := .disabled, errCause := 0 }
      t.setPba p.2.fn p.2.ctx.vector false
    else t) s).updExhausted

end Sys2Proof.Machine
end

