-- ==== Sys2Proof/Machine/QueueOps.lean ====
section
/-! DEFINITION. Transmit and receive queues, doorbell lines, the poller, descriptor fetch, transmit items,
receive placement, and the queue commands (spec/07). -/

namespace Sys2Proof.Machine

/-- Counter k of face f (spec/07 R229). -/
def pollCounter (f k : Nat) : Nat := blockBase 6 + 0x130000 + 0x1000 * f + 0x100 + 8 * k

/-! ### Owners and contexts -/

/-- The instance whose share or grant holds a queue (spec/10 R290, R291). -/
def State.queueOwner (s : State) (rx : Bool) (q : Nat) : Option Nat :=
  if q < 8192 then some (q / 4)
  else s.granted.find? (fun i =>
    let g := (s.inst i).grant
    if rx then inUnits g.rxUnits g.rxBase ((q - 8192) / 64) else inUnits g.txUnits g.txBase ((q - 8192) / 64))

/-- Word w of a queue context. -/
def State.ctxWord (s : State) (k w : Nat) : Nat :=
  if k < 16384 then s.word Reg.qmgTxq [k, w] else s.word Reg.qmgRxq [k - 16384, w]

/-- Read a queue context (spec/07 R227). -/
def State.readQCtx (s : State) (k : Nat) : QCtx :=
  let w2 := s.ctxWord k 2
  let w3 := s.ctxWord k 3
  let w4 := s.ctxWord k 4
  let w5 := s.ctxWord k 5
  { ring := s.ctxWord k 0 + 2 ^ 32 * s.ctxWord k 1, inst := bitsOf w2 0 12, n := 64 * 2 ^ bitsOf w2 12 4
    dbLine := bitsOf w2 16 13, dbSlot := bitsOf w2 29 3, cq := bitsOf w3 0 13
    course := if k < 16384 then bitsOf w3 13 2 else 0, link := bitsOf w3 15 1, weight := max 1 (bitsOf w3 16 8)
    burst := bitsOf w3 24 6 + 1, chainMax := bitsOf w4 0 7, stream := decide (16384 ≤ k) && bitOf w4 0
    strideLog2 := bitsOf w4 1 4, maxBufs := bitsOf w4 5 6 + 1, ats := bitOf w5 0
    pasid := if bitOf w5 1 then some (bitsOf w5 2 20) else none }

/-- The function of a queue (spec/06 R158). -/
def QCtx.fn (c : QCtx) : Nat := instFn c.inst c.link

/-- The face of a queue. -/
def State.queueFace (s : State) (x : Queue) : Nat := (s.instFace x.ctx.inst).getD 0

/-- The queue's number within its kind. -/
def queueNo (k : Nat) : Nat := if k < 16384 then k else k - 16384

/-- Word w of a transport context as software wrote it. -/
def Ctx.word (c : Ctx) (w : Nat) : Nat := c.words.getD w 0

/-- A context binds a queue (spec/15 R451). -/
def Ctx.binds (c : Ctx) (k : Nat) : Bool :=
  c.valid && (if k < 16384 then bitOf (c.word 1) 14 && decide (bitsOf (c.word 1) 0 14 = k)
    else bitOf (c.word 1) 15 && decide (bitsOf (c.word 1) 16 14 = k - 16384))

/-- The transport context that a queue is bound to (spec/15 R452). -/
def State.boundCtx (s : State) (k : Nat) : Option Nat := (s.sto.ctxs.find? (fun p => p.2.binds k)).map (fun p => p.1)

/-! ### Doorbell lines (spec/07 R214, R228) -/

/-- The state with a line replaced. -/
def State.setLine (s : State) (l : Nat) (x : DbLine) : State :=
  { s with qmg := { s.qmg with lines := mapSet {} s.qmg.lines l x } }

/-- The function of a line. -/
def DbLine.fn (x : DbLine) : Nat := instFn x.inst x.link

/-- The face of a line. -/
def State.lineFace (s : State) (x : DbLine) : Nat := (s.instFace x.inst).getD 0

/-- A line is enabled. -/
def DbLine.enabled (x : DbLine) : Bool := decide (x.state ≠ .off)

/-- A line may be polled (spec/07 R214). -/
def State.lineLive (s : State) (l : Nat) (x : DbLine) : Bool :=
  s.fnOpen x.fn
    && (s.qmg.queues.any (fun p => decide (p.2.ctx.dbLine = l) && (p.2.state = .running || p.2.state = .stopped))
      || s.qmg.rings.any (fun p => decide (p.2.ctx.dbLine = l) && decide (p.2.state ≠ .disabled)))

/-- Make an enabled line ACTIVE or IDLE (spec/07 R214). -/
def State.evalLine (s : State) (l : Nat) : State :=
  let x := s.dbLine l
  match x.state with
  | .active => if s.lineLive l x then s else s.setLine l { x with state := .idle }
  | .idle => if s.lineLive l x then s.setLine l { x with state := .active, shift := 0, due := s.now } else s
  | _ => s

/-- Every line. -/
def State.evalLines (s : State) : State := s.qmg.lines.foldl (fun t p => t.evalLine p.1) s

/-- base_interval and ceil_shift of a line's class (spec/07 R215). -/
def State.pollClass (s : State) (x : DbLine) : Nat × Nat :=
  let w := s.word Reg.qmgPollClass [s.lineFace x, x.cls]
  (bitsOf w 0 14, bitsOf w 16 4)

/-- A line's interval (spec/07 R215). -/
def State.pollInterval (s : State) (x : DbLine) (shift : Nat) : Nat := min ((s.pollClass x).1 * 125 * 2 ^ shift) 1048576

/-! ### Ends of commands -/

/-- End the QMG_CMD of face f. -/
def State.endQmg (s : State) (f result why : Nat) : State :=
  { s with qmg := { s.qmg with
      cmd := setNth s.qmg.cmd f { busy := false, result, why }, cmdQueue := setNth s.qmg.cmdQueue f none } }

/-- End the command that runs on a queue, if one does (spec/07 R225). -/
def State.endQmgOn (s : State) (k result : Nat) : State :=
  (List.range 4).foldl (fun t f => if t.qmg.cmdQueue.getD f none = some k then t.endQmg f result 0 else t) s

/-! ### Queue errors (spec/07 R221, R225) -/

/-- A queue enters ERROR; a STOP that runs ends with OK (spec/07 R225). -/
def State.queueError (s : State) (k cause : Nat) : State :=
  let x := s.queue k
  if x.state = .running || x.state = .stopping || x.state = .stopped then
    ((s.setQueue k { x with state := .error, errCause := cause, stopTo := none }).endQmgOn k 0).raise 131 (queueNo k)
      (some x.ctx.inst)
  else s

/-! ### The poller (spec/07 R200, R216-R218) -/

/-- Examine a queue's record (spec/07 R200); the flag says that the poll brought news. -/
def State.queueRecord (s : State) (k lo hi : Nat) : State × Bool :=
  let x := s.queue k
  if !recordOk lo hi then (s.count (pollCounter (s.queueFace x) 2) 1, true)
  else if lo = x.p then (s, false)
  else if 2 ^ 31 ≤ sub32 lo x.p || x.ctx.n < sub32 lo x.c then (s.queueError k 3, false)
  else (s.setQueue k { x with p := lo }, true)

/-- Examine slot n of a line. -/
def State.slotRecord (s : State) (l n lo hi : Nat) : State × Bool :=
  match s.qmg.queues.find? (fun p => decide (p.2.ctx.dbLine = l) && decide (p.2.ctx.dbSlot = n)
      && (p.2.state = .running || p.2.state = .stopped)) with
  | some p => s.queueRecord p.1 lo hi
  | none =>
    match s.qmg.rings.find? (fun p => decide (p.2.ctx.dbLine = l) && decide (p.2.ctx.dbSlot = n)
        && decide (p.2.state ≠ .disabled)) with
    | some p => s.ringRecord p.1 lo hi
    | none => (s, false)

/-- A poll has returned its 64 bytes (spec/07 R217). -/
def State.pollDone (s : State) (l : Nat) (bs : List Byte) : State :=
  let x := s.dbLine l
  if !x.enabled then s
  else
    let r := (List.range 8).foldl (fun (acc : State × Bool) n =>
      let q := acc.1.slotRecord l n (leAt bs (8 * n) 4) (leAt bs (8 * n + 4) 4)
      (q.1, acc.2 || q.2)) (s, false)
    let s := r.1
    let x := s.dbLine l
    let ceil := (s.pollClass x).2
    let shift := if r.2 then 0 else if x.shift < ceil then x.shift + 1 else ceil
    (s.setLine l { x with shift, fails := 0, outstanding := false
                          due := max s.now (x.issued + s.pollInterval x shift) }).evalLine l

/-- A poll has failed (spec/07 R218). -/
def State.pollFailed (s : State) (l : Nat) : State :=
  let x := s.dbLine l
  if !x.enabled then s
  else
    let s := (s.raise 132 l (some x.inst)).count (pollCounter (s.lineFace x) 3) 1
    let fails := x.fails + 1
    if fails < 3 then
      s.setLine l { x with shift := 0, fails, outstanding := false, due := max s.now (x.issued + s.pollInterval x 0) }
    else
      let s := s.setLine l { x with shift := 0, fails := 3, outstanding := false, state := .failed }
      let s := s.raise 133 l (some x.inst)
      let s := s.qmg.queues.foldl (fun t p => if p.2.ctx.dbLine = l then t.queueError p.1 4 else t) s
      s.qmg.rings.foldl (fun t p => if p.2.ctx.dbLine = l then t.ringError p.1 2 else t) s

/-- A poll whose work was withdrawn has ended. -/
def State.pollGone (s : State) (l : Nat) : State :=
  let x := s.dbLine l
  if x.outstanding then s.setLine l { x with outstanding := false, due := s.now } else s

/-- A line's poll is due. -/
def State.pollDue (s : State) (l : Nat) (x : DbLine) : Bool :=
  decide (x.state = .active) && !x.outstanding && decide (x.due ≤ s.now) && s.lineLive l x

/-- Polls outstanding on a face. -/
def State.pollsOut (s : State) (f : Nat) : Nat :=
  ((s.dmaFace f).out.filter (fun o => o.rd.req.isPoll)).length

/-- Line a goes before line b: class 0 first, then by due time, then by number (spec/07 R216). -/
def pollBefore (a : Nat × DbLine) (b : Nat × DbLine) : Bool :=
  let ha := a.2.cls = 0
  let hb := b.2.cls = 0
  if ha && !hb then true
  else if hb && !ha then false
  else decide (a.2.due < b.2.due) || (decide (a.2.due = b.2.due) && decide (a.1 < b.1))

/-- POLL_ISSUE: a due poll goes out in its order and within the poller's limits (spec/07 R216). -/
def State.pollIssue (s : State) (l : Nat) : State :=
  let x := s.dbLine l
  let f := s.lineFace x
  let recent := (s.qmg.pollTicks.getD f []).filter (fun t => decide (s.now < t + 1000))
  if !s.pollDue l x then s
  else if s.qmg.lines.any (fun p => decide (p.1 ≠ l) && decide (s.lineFace p.2 = f) && s.pollDue p.1 p.2
      && pollBefore p (l, x)) then s
  else if 512 ≤ s.pollsOut f then s
  else if s.fld Reg.qmgPollFace [f] 0 9 ≤ recent.length then s
  else if (match recent with | t :: _ => decide (s.now < t + 2) | [] => false) then s
  else if !s.roomFor f x.link .htx true 64 then s
  else
    let r : HostRead :=
      { id := 0, req := .poll l, face := f, link := x.link, pool := .htx, fn := x.fn, inst := x.inst
        gen := (s.inst x.inst).gen, addr := x.addr, len := 64, ats := x.ats, pasid := x.pasid }
    match s.writeAddr f x.link .htx x.fn x.inst r.gen (pollXlateId l) x.addr x.ats x.pasid with
    | (t, none) => t
    | (t, some (out, _)) =>
      if (match t.atsFind f x.fn x.pasid x.addr with | some e => x.ats && !e.r | none => false) then
        (t.xlateFail f x.fn x.addr).pollFailed l
      else
        let t := t.issueRead { r with id := t.dma.nextId } out
        let t := { t with dma := { t.dma with nextId := t.dma.nextId + 1 } }
        let t := t.count (pollCounter f 0) 1
        let t := if x.due + s.pollInterval x x.shift < s.now then t.count (pollCounter f 1) 1 else t
        let t := { t with qmg := { t.qmg with pollTicks := setNth t.qmg.pollTicks f (s.now :: recent) } }
        t.setLine l { t.dbLine l with issued := s.now, outstanding := true }

/-! ### Descriptor fetch (spec/07 R213, R219) -/

/-- Fetched descriptors that a queue holds (spec/07 R213). -/
def Queue.heldCount (x : Queue) : Nat :=
  x.held.length + ((x.items.filter (fun i => i.phase ≠ .handed && i.phase ≠ .ended)).map (fun i => i.descs.length)).sum

/-- A queue is eligible for fetch (spec/07 R213). -/
def State.fetchable (s : State) (x : Queue) : Bool :=
  decide (x.state = .running) && decide (x.p ≠ x.c) && decide (x.heldCount < 64)
    && !(s.fn x.ctx.fn).d3hot && (s.fn x.ctx.fn).bme && !(s.ring x.ctx.cq).paused

/-- Descriptors of one visit: burst, work, room, and the ring's wrap (spec/07 R219). -/
def Queue.visit (x : Queue) : Nat :=
  min (min x.ctx.burst (sub32 x.p x.c)) (min (64 - x.heldCount) (x.ctx.n - x.c % x.ctx.n))

/-- Read `n` descriptors of a queue. -/
def State.fetchDescs (s : State) (k n : Nat) : State :=
  let x := s.queue k
  let c := x.ctx
  let f := s.queueFace x
  let base := c.ring + 32 * (x.c % c.n)
  let s := (pieces (s.mrrs c.fn) base (32 * n)).foldl (fun t q =>
    t.askRead { id := 0, req := .desc k ((x.c + (q.1 - base) / 32) % 2 ^ 32) (q.2 / 32), face := f, link := c.link
                pool := if k < 16384 then .htx else .hrx, fn := c.fn, inst := c.inst, gen := (t.inst c.inst).gen
                addr := q.1, len := q.2, ats := c.ats, pasid := c.pasid }) s
  s.setQueue k { x with
    c := (x.c + n) % 2 ^ 32
    held := x.held ++ (List.range n).map (fun i => { count := (x.c + i) % 2 ^ 32 }) }

/-- One scheduler's round on a face (spec/07 R219): `rx` chooses the receive queues. -/
def State.fetchRound (s : State) (f : Nat) (rx : Bool) : State :=
  let ks := (s.qmg.queues.filter (fun p => decide ((16384 ≤ p.1) = rx) && decide (s.instFace p.2.ctx.inst = some f))).map
    (fun p => p.1)
  let top := (ks.map (fun k => (s.queue k).ctx.weight)).foldl max 0
  (List.range top).foldl (fun t i =>
    ks.foldl (fun t k =>
      let x := t.queue k
      if x.ctx.weight < i + 1 || !t.fetchable x then t else t.fetchDescs k x.visit) t) s

/-! ### Transmit items (spec/07 R201-R208) -/

/-- Fields of a descriptor or list entry (spec/07 R202). -/
def descAddr (d : List Byte) : Nat := leAt d 0 8
def descLen (d : List Byte) : Nat := leAt d 8 2
def descKind (d : List Byte) : Nat := bitsOf (leAt d 8 4) 16 2
def descMore (d : List Byte) : Bool := bitOf (leAt d 8 4) 18
def descCookie (d : List Byte) : Nat := leAt d 12 4

/-- The first descriptor's item fields (spec/07 R202). -/
def dL3Off (d : List Byte) : Nat := bitsOf (leAt d 16 4) 0 9
def dL4Off (d : List Byte) : Nat := bitsOf (leAt d 16 4) 9 9
def dHdrLen (d : List Byte) : Nat := bitsOf (leAt d 16 4) 18 9
def dV6 (d : List Byte) : Bool := bitOf (leAt d 16 4) 27
def dUdp (d : List Byte) : Bool := bitOf (leAt d 16 4) 28
def dCsumL3 (d : List Byte) : Bool := bitOf (leAt d 20 4) 0
def dCsumL4 (d : List Byte) : Bool := bitOf (leAt d 20 4) 1
def dSeg (d : List Byte) : Bool := bitOf (leAt d 20 4) 2
def dTsReq (d : List Byte) : Bool := bitOf (leAt d 20 4) 3
def dMss (d : List Byte) : Nat := bitsOf (leAt d 20 4) 16 14
def dUser (d : List Byte) : Nat := bitsOf (leAt d 24 4) 0 24

/-- Where a walk stands (spec/07 R203). -/
inductive WalkRes where
  | done (segs : List (Nat × Nat))
  | chainLimit
  | badDesc
  /-- A list must be read: address and bytes. -/
  | need (addr len : Nat)
  deriving DecidableEq, Repr

/-- A descriptor met in the walk breaks its own fields (spec/07 R203, R204). -/
def descBad (d : List Byte) : Bool :=
  descLen d = 0 || decide (2 ≤ descKind d)
    || (descKind d = 1 && (descLen d % 32 ≠ 0 || decide (2048 < descLen d) || descAddr d % 32 ≠ 0))

/-- The 32-byte entries of a list. -/
def listEntries (bs : List Byte) : List (List Byte) := (List.range (bs.length / 32)).map (fun i => bytesAt bs (32 * i) 32)

/-- The walk of an item's chain, depth first; `lists` are those read so far in the order met. -/
def walkChain (chainMax : Nat) : Nat → Nat → List (List Byte) → List (List Byte) → List (Nat × Nat) → WalkRes
  | 0, _, _, _, _ => .chainLimit
  | _ + 1, _, [], _, segs => .done segs
  | fuel + 1, n, d :: ds, lists, segs =>
    if chainMax < n + 1 then .chainLimit
    else if descBad d then .badDesc
    else if descKind d = 0 then walkChain chainMax fuel (n + 1) ds lists (segs ++ [(descAddr d, descLen d)])
    else
      match lists with
      | [] => .need (descAddr d) (descLen d)
      | l :: ls => walkChain chainMax fuel (n + 1) (listEntries l ++ ds) ls segs

/-- The item-wide conditions (spec/07 R204) on the first descriptor and the total of the data bytes. -/
def itemBad (d : List Byte) (total : Nat) : Bool :=
  let frame := if dSeg d then dHdrLen d else total
  let ip := dL3Off d + (if dV6 d then 40 else 20)
  let l4 := dL4Off d + (if dUdp d then 8 else 20)
  (!dSeg d && (decide (total < 14) || decide (10240 < total)))
    || (dSeg d && (!dCsumL4 d || decide (dMss d < 64) || decide (9216 < dMss d) || decide (10240 < dHdrLen d + dMss d)
        || decide (total ≤ dHdrLen d) || decide (262144 < total) || decide (dHdrLen d < l4)
        || decide (dHdrLen d < 14) || decide (510 < dHdrLen d)))
    || (dCsumL3 d && dV6 d)
    || ((dCsumL3 d || dCsumL4 d) && (decide (dL4Off d ≤ dL3Off d) || decide (frame < ip)))
    || (dCsumL4 d && decide (frame < l4))

/-- Chunks of `n` bytes, the last one shorter. -/
def chunks (n : Nat) : Nat → List Byte → List (List Byte)
  | 0, _ => []
  | fuel + 1, bs => if bs = [] then [] else bs.take n :: chunks n fuel (bs.drop n)

/-- Put a wire-order field of n bytes. -/
def putBe (bs : List Byte) (off n v : Nat) : List Byte := patchAt bs off (toBe n v)

/-- The length, identification, sequence and flag fields of frame i of a segmented item (spec/07 R205). -/
def segFields (d : List Byte) (i : Nat) (last : Bool) (bs : List Byte) : List Byte :=
  let l3 := dL3Off d
  let l4 := dL4Off d
  let bs :=
    if dV6 d then putBe bs (l3 + 4) 2 (bs.length - l3 - 40)
    else putBe (putBe bs (l3 + 2) 2 (bs.length - l3)) (l3 + 4) 2 ((beAt bs (l3 + 4) 2 + i) % 65536)
  if dUdp d then putBe bs (l4 + 4) 2 (bs.length - l4)
  else
    let fl := beAt bs (l4 + 13) 1
    let fl := if last then fl else putBit (putBit fl 0 false) 3 false
    let fl := if i = 0 then fl else putBit fl 7 false
    putBe (putBe bs (l4 + 4) 4 ((beAt bs (l4 + 4) 4 + i * dMss d) % 2 ^ 32)) (l4 + 13) 1 fl

/-- The checksums of one frame (spec/07 R206). -/
def insertChecksums (d : List Byte) (bs : List Byte) : List Byte :=
  let l3 := dL3Off d
  let l4 := dL4Off d
  let bs :=
    if dCsumL3 d then
      let z := putBe bs (l3 + 10) 2 0
      putBe z (l3 + 10) 2 (inetChecksum 0 (bytesAt z l3 (beAt z l3 1 % 16 * 4)))
    else bs
  if dCsumL4 d then
    let at_ := if dUdp d then l4 + 6 else l4 + 16
    let z := putBe bs at_ 2 0
    let addrs := if dV6 d then bytesAt z (l3 + 8) 32 else bytesAt z (l3 + 12) 8
    let n := z.length - l4
    let c := inetChecksum (sum16 addrs + (if dUdp d then 17 else 6) + n / 65536 + n % 65536) (z.drop l4)
    putBe z at_ 2 (if dUdp d && c = 0 then 65535 else c)
  else bs

/-- The frames of an item (spec/07 R205, R206). -/
def itemFrames (d : List Byte) (data : List Byte) : List (List Byte) :=
  if dSeg d then
    let cs := chunks (dMss d) (data.length + 1) (data.drop (dHdrLen d))
    cs.mapIdx (fun i c => insertChecksums d (segFields d i (i + 1 = cs.length) (data.take (dHdrLen d) ++ c)))
  else [insertChecksums d data]

/-- The first descriptor of an item. -/
def TxItem.head (i : TxItem) : List Byte := i.descs.headD []

/-- The data bytes of an item. -/
def TxItem.total (i : TxItem) : Nat := (i.segs.map (fun g => g.2.1)).sum

/-- The entry of a transmit item (spec/08 R232, R234). -/
def txEntry (k : Nat) (x : Queue) (i : TxItem) : CqEntry :=
  { cookie := descCookie i.head, count := i.first, queue := k, status := i.status
    bytes := if i.status = 0 then i.total else 0
    w10 := i.frames % 65536 + i.descs.length % 65536 * 65536, ts := i.ts, inst := x.ctx.inst, gen := i.gen }

/-- The state with an item of a queue replaced. -/
def State.setItem (s : State) (k : Nat) (i : TxItem) : State :=
  let x := s.queue k
  s.setQueue k { x with items := x.items.map (fun j => if j.first = i.first then i else j) }

/-- An item of a queue. -/
def State.itemOf (s : State) (k first : Nat) : Option TxItem := (s.queue k).items.find? (fun i => decide (i.first = first))

/-- The reads of an item are withdrawn. -/
def State.withdrawItem (s : State) (k first : Nat) : State :=
  s.withdrawReads (s.queueFace (s.queue k)) (fun r =>
    match r.req with
    | .list q i _ => decide (q = k) && decide (i = first)
    | .data q i _ _ => decide (q = k) && decide (i = first)
    | _ => false)

/-- An item ends with a status before any frame was handed in (spec/07 R203, R204, R226). -/
def State.endItem (s : State) (k : Nat) (i : TxItem) (status : Nat) : State :=
  let s := s.withdrawItem k i.first
  let f := s.queueFace (s.queue k)
  let s := s.setItem k { i with phase := .ended, status, readsOut := 0, lists := [], segs := [], stage := 0 }
  if status = 1 then s.count (pollCounter f 4) 1 else if status = 2 then s.count (pollCounter f 5) 1 else s

/-- Ask for a list or data transfer of an item: the pieces, and how many they are. -/
def State.askItem (s : State) (k : Nat) (mk : Nat → Requester) (addr len : Nat) : State × Nat :=
  let x := s.queue k
  let c := x.ctx
  let ps := pieces (s.mrrs c.fn) addr len
  (ps.foldl (fun t q =>
    t.askRead { id := 0, req := mk q.1, face := s.queueFace x, link := c.link, pool := .htx, fn := c.fn, inst := c.inst
                gen := (t.inst c.inst).gen, addr := q.1, len := q.2, ats := c.ats, pasid := c.pasid }) s, ps.length)

/-- The operation byte of a bound queue's item (spec/15 R455, R469). -/
def descOp (d : List Byte) : Nat := bitsOf (leAt d 8 4) 19 8

/-- The item-wide conditions of an item of a queue bound to a transport context (spec/15 R455, R469): RC and UD items
carry messages; NVMe/TCP DATA items are judged as frames. -/
def State.boundBad (s : State) (c : Ctx) (d : List Byte) (total : Nat) : Bool :=
  match c.kind with
  | .rc => decide (4 < descOp d) || decide (2 ^ 31 < total)
  | .ud =>
    let path := mapGet ({} : PathEntry) s.sto.paths (bitsOf (leAt d 28 4) 0 16)
    decide (1 < descOp d) || decide (128 * 2 ^ bitsOf (c.word 2) 16 3 < total)
      || !(path.valid && decide (bitsOf (path.words.getD 12 0) 0 12 = bitsOf (c.word 0) 8 12)
        && s.genOk (bitsOf (path.words.getD 12 0) 0 12) path.ownerGen)
  | .nvt => if descOp d = 0 then itemBad d total else decide (2 < descOp d)
  | .none => false

/-- Carry a walk on after a list has arrived, or start it (spec/07 R203): the item ends, asks for a list, or asks for
its data.  Messages and DDP items need no data before the engine sends them. -/
def State.walkItem (s : State) (k : Nat) (i : TxItem) : State :=
  let x := s.queue k
  match walkChain x.ctx.chainMax 66 0 i.descs (i.lists.map (fun l => l.2)) [] with
  | .chainLimit => s.endItem k i 1
  | .badDesc => s.endItem k i 2
  | .need a n =>
    let r := s.askItem k (fun p => .list k i.first p) a n
    r.1.setItem k { i with lists := i.lists ++ [(a, List.replicate n 0)], readsOut := r.2 }
  | .done segs =>
    let total := (segs.map (fun g => g.2)).sum
    let j := { i with lists := [], segs := segs.map (fun g => (g.1, g.2, ([] : List Byte))) }
    let ctx := (s.boundCtx k).map (fun c => mapGet ({} : Ctx) s.sto.ctxs c)
    let bad := match ctx with
      | some c => s.boundBad c i.head total
      | none => itemBad i.head total
    let frames := match ctx with
      | some c => c.kind = .nvt && descOp i.head = 0
      | none => true
    if bad then s.endItem k j 2
    else if !frames then s.setItem k { j with phase := .ready }
    else
      let r := segs.foldl (fun (acc : State × Nat × Nat) g =>
        let q := acc.1.askItem k (fun p => .data k i.first acc.2.1 (p - g.1)) g.1 g.2
        (q.1, acc.2.1 + 1, acc.2.2 + q.2)) (s, 0, 0)
      r.1.setItem k { j with phase := .reading, readsOut := r.2.2
                             segs := segs.map (fun g => (g.1, g.2, List.replicate g.2 0)) }

/-- The leading held descriptors that make a whole item, if they do (spec/07 R201). -/
def wholeItem : List Fetched → Option (List (List Byte))
  | [] => none
  | f :: fs =>
    match f.bytes with
    | none => none
    | some b => if descMore b then (wholeItem fs).map (b :: ·) else some [b]

/-- Take whole items from a queue's held descriptors and start their walks (spec/07 R201). -/
def State.takeItems (s : State) (k : Nat) : Nat → State
  | 0 => s
  | n + 1 =>
    let x := s.queue k
    if x.state ≠ .running && x.state ≠ .error then s
    else
      match wholeItem x.held with
      | none => s
      | some ds =>
        let i : TxItem := { first := (x.held.headD { count := 0 }).count, descs := ds, gen := (s.inst x.ctx.inst).gen }
        let s := s.setQueue k { x with held := x.held.drop ds.length, items := x.items ++ [i] }
        (s.walkItem k i).takeItems k n

/-- The entry for a single receive descriptor (spec/08 R234). -/
def rxDescEntry (k : Nat) (x : Queue) (gen count cookie status : Nat) : CqEntry :=
  { cookie, count, queue := queueNo k, rx := true, status, place := if x.ctx.stream then 0 else 1, inst := x.ctx.inst, gen }

/-- A receive descriptor breaks its limits (spec/07 R209). -/
def rxDescBad (stream : Bool) (d : List Byte) : Bool :=
  if stream then descLen d = 0 || decide (16384 < descLen d) || descAddr d % 4096 ≠ 0
  else decide (descLen d < 64)

/-- Complete the receive descriptors that break their limits and drop them from the held ones (spec/07 R209). -/
def State.judgeRx (s : State) (k : Nat) : State :=
  let x := s.queue k
  let bad (h : Fetched) : Bool := match h.bytes with | some b => rxDescBad x.ctx.stream b | none => false
  let g := (s.inst x.ctx.inst).gen
  let s := (x.held.filter bad).foldl (fun t h =>
    (t.entryReady x.ctx.cq (rxDescEntry k x g h.count (descCookie (h.bytes.getD [])) 2)).count
      (pollCounter (t.queueFace x) 5) 1) s
  s.setQueue k { s.queue k with held := x.held.filter (fun h => !bad h) }

/-- Ring descriptors have arrived. -/
def State.descArrived (s : State) (k first n : Nat) (bs : List Byte) : State :=
  let x := s.queue k
  let held := x.held.map (fun h =>
    let o := sub32 h.count first
    if o < n then { h with bytes := some (bytesAt bs (32 * o) 32) } else h)
  let s := s.setQueue k { x with held }
  if k < 16384 then s.takeItems k 64 else s.judgeRx k

/-- The status of a read's end (spec/09 R270). -/
def ReadEnd.status : ReadEnd → Nat
  | .timeout => 3
  | _ => 4

/-- A ring descriptor read has failed (spec/07 R226, spec/08 R234): one entry over the read's descriptors. -/
def State.descFailed (s : State) (k first n : Nat) (e : ReadEnd) : State :=
  let x := s.queue k
  let gone (h : Fetched) : Bool := decide (sub32 h.count first < n)
  let entry : CqEntry :=
    { count := first, queue := queueNo k, rx := decide (16384 ≤ k), status := e.status
      w10 := if k < 16384 then n % 65536 * 65536 else 0, place := if k < 16384 then 0 else n
      inst := x.ctx.inst, gen := (s.inst x.ctx.inst).gen }
  if !x.held.any gone then s
  else
    let s := s.setQueue k { x with held := x.held.filter (fun h => !gone h) }
    (s.entryReady x.ctx.cq entry).queueError k (e.status - 2)

/-- A list piece has arrived. -/
def State.listArrived (s : State) (k first addr : Nat) (bs : List Byte) : State :=
  match s.itemOf k first with
  | none => s
  | some i =>
    if i.phase ≠ .walking then s
    else
      let lists := i.lists.mapIdx (fun n l =>
        if n + 1 = i.lists.length then (l.1, patchAt l.2 (addr - l.1) bs) else l)
      let j := { i with lists, readsOut := i.readsOut - 1 }
      let s := s.setItem k j
      if j.readsOut = 0 then s.walkItem k j else s

/-- A data piece has arrived: the item is ready when every one has (spec/07 R207). -/
def State.dataArrived (s : State) (k first seg off stage : Nat) (bs : List Byte) : State :=
  match s.itemOf k first with
  | none => s
  | some i =>
    if i.phase ≠ .reading then s
    else
      let segs := i.segs.mapIdx (fun n g => if n = seg then (g.1, g.2.1, patchAt g.2.2 off bs) else g)
      let left := i.readsOut - 1
      s.setItem k { i with segs, readsOut := left, stage := i.stage + stage
                           phase := if left = 0 then .ready else .reading }

/-- A list or data read has failed: the item completes with its error and the queue enters ERROR (spec/07 R226). -/
def State.itemFailed (s : State) (k first : Nat) (e : ReadEnd) : State :=
  match s.itemOf k first with
  | none => s
  | some i =>
    if i.phase = .walking || i.phase = .reading then (s.endItem k i e.status).queueError k (e.status - 2) else s

/-- A global port of host face n and link l (spec/07 R207). -/
def hostPort (module_ n l : Nat) : Nat := globalPort module_ (32 + 2 * n + l)

/-- A fresh host-transmit packet of an instance, waiting for a slot of a course (spec/07 R207). -/
def State.htxPacket (s : State) (inst link course user : Nat) (ts : Bool) (bs : List Byte) : Packet :=
  { mark :=
      { act := .htx, entAct := .htx, course, srcPort := hostPort s.moduleId ((s.instFace inst).getD 0) link
        inst, gen := (s.inst inst).gen, ts := s.now % 2 ^ 32, len := bs.length, user, flags := { tsReq := ts } }
    bytes := bs, since := s.now }

/-- Hand an item's frames to course admission (spec/07 R205-R207); `fill` is what a transport context does to the data
first (spec/15 R468, R474, R475). -/
def State.handFrames (s : State) (k : Nat) (i : TxItem) (fill : List Byte → List Byte) : State :=
  let x := s.queue k
  let d := i.head
  let frames := itemFrames d (fill (i.segs.flatMap (fun g => g.2.2)))
  let n := frames.length
  let s := (frames.mapIdx (fun j b => (j, b))).foldl (fun t p =>
    let last := p.1 + 1 = n
    let pk := t.htxPacket x.ctx.inst x.ctx.link x.ctx.course (dUser d) (dTsReq d && last) p.2
    (t.newPkt { pk with item := some (k, i.first), csumL4 := dCsumL4 d, itemEnd := last }).2) s
  s.setItem k { i with phase := .handed, frames := n, toAdmit := n, tsWait := dTsReq d && bitOf s.fuses.features 10, stage := 0
                       segs := i.segs.map (fun g => (g.1, g.2.1, ([] : List Byte))) }

/-- The next item to be handed in: items go in count order (spec/07 R207). -/
def Queue.nextItem (x : Queue) : Option TxItem :=
  match x.items.find? (fun i => i.phase ≠ .handed && i.phase ≠ .ended) with
  | some i => if i.phase = .ready then some i else none
  | none => none

/-- TX_ITEM_COMPLETE: an item that meets its conditions makes its entry ready (spec/07 R208).  Items of a bound queue
complete under spec/15 R465 instead, but for those that end before they are sent. -/
def State.completeItem (s : State) (k : Nat) : State :=
  let x := s.queue k
  match x.items.find? (fun i => i.phase = .ended || (i.phase = .handed && decide (i.toAdmit = 0) && !i.tsWait)) with
  | none => s
  | some i =>
    let s := s.setQueue k { x with items := x.items.filter (fun j => decide (j.first ≠ i.first)) }
    s.entryReady x.ctx.cq (txEntry k x i)

/-! ### Receive placement (spec/07 R209-R212) -/

/-- What host delivery finds for a packet. -/
inductive RxFit where
  /-- It waits for posts or fetches. -/
  | wait
  | tooBig
  /-- It fits: the pieces to write, and what its entry will carry; the queue after the descriptors are used. -/
  | fits (parts : List (Nat × Nat)) (p : RxPlaced) (x : Queue)
  deriving DecidableEq, Repr

/-- The leading buffers that hold `len` bytes: address and bytes used of each. -/
def takeBuffers : Nat → Nat → List Fetched → Option (List (Nat × Nat))
  | 0, _, _ => none
  | fuel + 1, len, h :: hs =>
    match h.bytes with
    | none => none
    | some d =>
      if len ≤ descLen d then some [(descAddr d, len)]
      else (takeBuffers fuel (len - descLen d) hs).map ((descAddr d, descLen d) :: ·)
  | _ + 1, _, [] => none

/-- Buffer mode (spec/07 R210). -/
def fitBuffers (x : Queue) (pkt len : Nat) : RxFit :=
  match takeBuffers x.ctx.maxBufs len x.held with
  | some parts =>
    let d := ((x.held.headD { count := 0 }).bytes).getD []
    .fits parts { pkt, cookie := descCookie d, count := (x.held.headD { count := 0 }).count, place := parts.length }
      { x with held := x.held.drop parts.length }
  | none =>
    if x.ctx.maxBufs ≤ x.held.length && (x.held.take x.ctx.maxBufs).all (fun h => h.bytes.isSome) then .tooBig else .wait

/-- Round up to a multiple of the stride. -/
def roundUp (v m : Nat) : Nat := (v + m - 1) / m * m

/-- The current region (spec/07 R211). -/
def Queue.curRegion (x : Queue) : Option RxRegion := x.regions.find? (fun r => !r.closed)

/-- Stream mode (spec/07 R211). -/
def fitStream (x : Queue) (pkt len : Nat) : RxFit :=
  let stride := 2 ^ x.ctx.strideLog2
  let into (r : RxRegion) (rest : List RxRegion) (held : List Fetched) : RxFit :=
    .fits [(r.addr + r.next, len)] { pkt, cookie := r.cookie, count := r.count, place := r.next }
      { x with held, regions := rest ++ [{ r with next := roundUp (r.next + len) stride, open_ := r.open_ + 1 }] }
  let fresh : RxFit :=
    match x.held with
    | [] => .wait
    | h :: hs =>
      match h.bytes with
      | none => .wait
      | some d =>
        if 4096 * descLen d < len then .tooBig
        else
          into { count := h.count, cookie := descCookie d, addr := descAddr d, size := 4096 * descLen d }
            (x.regions.map (fun q => { q with closed := true })) hs
  match x.curRegion with
  | some r => if r.next + len ≤ r.size then into r (x.regions.filter (fun q => q.closed)) x.held else fresh
  | none => fresh

/-- What host delivery finds (spec/07 R210, R211). -/
def rxFit (x : Queue) (pkt len : Nat) : RxFit := if x.ctx.stream then fitStream x pkt len else fitBuffers x pkt len

/-- The pieces of a packet as write parts. -/
def writeParts : List (Nat × Nat) → List Byte → List (Nat × List Byte)
  | [], _ => []
  | (a, n) :: ps, bs => (a, bs.take n) :: writeParts ps (bs.drop n)

/-- The entry of a delivered packet (spec/08 R232). -/
def State.rxEntry (s : State) (q : Nat) (x : Queue) (pk : Packet) (p : RxPlaced) : CqEntry :=
  let m := pk.mark
  { cookie := p.cookie, count := p.count, queue := q, rx := true, status := p.status, cls := m.cls, bytes := m.len
    w10 := m.hash, place := p.place
    flags := natOfBits [m.flags.parseIncomplete, m.flags.csumBad, m.flags.decapDone, m.flags.cryptoDone, m.flags.ecnCe,
      m.flags.trailer]
    malformed := m.flags.malformed, ts := if bitOf s.fuses.features 10 then some (s.rxTimestamp pk) else none, inst := x.ctx.inst, gen := m.gen }

/-- A packet placed in a region is complete or gone. -/
def Queue.leaveRegion (x : Queue) (p : RxPlaced) : Queue :=
  if x.ctx.stream then
    { x with regions := x.regions.map (fun r => if r.count = p.count then { r with open_ := r.open_ - 1 } else r) }
  else x

/-- The last data write of a receive packet has been issued: its entry is ready and the packet leaves (spec/08 R237,
spec/09 R276). -/
def State.rxDone (s : State) (pkt : Nat) : State :=
  match s.pkt pkt with
  | none => s
  | some x =>
    match x.eg with
    | .rxq q =>
      let k := 16384 + q
      let qu := s.queue k
      match qu.placing.find? (fun p => decide (p.pkt = pkt)) with
      | none => s.removePkt pkt
      | some p =>
        let s := s.setQueue k
          ({ qu with placing := qu.placing.filter (fun r => decide (r.pkt ≠ pkt)) }.leaveRegion p)
        (s.entryReady qu.ctx.cq (s.rxEntry q qu x p)).removePkt pkt
    | _ => s.removePkt pkt

/-- A receive packet's writes stop part-way: no entry covers it (spec/09 R273). -/
def State.rxStopped (s : State) (pkt : Nat) : State :=
  match s.pkt pkt with
  | none => s
  | some x =>
    match x.eg with
    | .rxq q =>
      let k := 16384 + q
      let qu := s.queue k
      let s :=
        match qu.placing.find? (fun p => decide (p.pkt = pkt)) with
        | none => s
        | some p => s.setQueue k
            ({ qu with placing := qu.placing.filter (fun r => decide (r.pkt ≠ pkt)) }.leaveRegion p)
      s.dropPkt pkt
    | _ => s.dropPkt pkt

/-- REGION_CLOSE: a closed region whose packets are complete (spec/07 R211). -/
def State.regionClose (s : State) (q : Nat) : State :=
  let k := 16384 + q
  let x := s.queue k
  match x.regions.find? (fun r => r.closed && decide (r.open_ = 0)) with
  | none => s
  | some r =>
    let s := s.setQueue k { x with regions := x.regions.filter (fun t => decide (t.count ≠ r.count)) }
    s.entryReady x.ctx.cq
      { cookie := r.cookie, count := r.count, queue := q, rx := true, status := 6, bytes := r.next
        inst := x.ctx.inst, gen := (s.inst x.ctx.inst).gen }

/-! ### Stopping a queue (spec/07 R222, R223) -/

/-- The ABORTED entries of held transmit descriptors: count, cookie, span. -/
def abortHeld : Nat → List Fetched → List (Nat × Nat × Nat)
  | 0, _ => []
  | _ + 1, [] => []
  | fuel + 1, h :: hs =>
    match h.bytes with
    | none => (h.count, 0, 1) :: abortHeld fuel hs
    | some d =>
      let n := match wholeItem (h :: hs) with
        | some ds => ds.length
        | none => ((h :: hs).takeWhile (fun g => g.bytes.isSome)).length
      (h.count, descCookie d, n) :: abortHeld fuel (hs.drop (n - 1))

/-- Counts, cookies and spans of every outstanding entry, in ascending count order (spec/07 R222). -/
def Queue.outstanding (k : Nat) (x : Queue) : List (Nat × Nat × Nat) :=
  let items := (x.items.filter (fun i => i.phase ≠ .handed && i.phase ≠ .ended)).map (fun i =>
    (i.first, descCookie i.head, i.descs.length))
  let held := if k < 16384 then abortHeld 65 x.held
    else x.held.map (fun h => (h.count, (h.bytes.elim 0 descCookie), 1))
  let rest := (List.range (sub32 x.p x.c)).map (fun i => ((x.c + i) % 2 ^ 32, 0, 1))
  items ++ held ++ rest

/-- Complete every outstanding entry of a queue with a status and drop what the device has fetched. -/
def State.abortQueue (s : State) (k status : Nat) : State :=
  let x := s.queue k
  let g := (s.inst x.ctx.inst).gen
  let s := s.withdrawReads (s.queueFace x) (fun r =>
    match r.req with
    | .desc q _ _ => decide (q = k)
    | .list q i _ => decide (q = k) && x.items.any (fun t => decide (t.first = i) && t.phase ≠ .handed)
    | .data q i _ _ => decide (q = k) && x.items.any (fun t => decide (t.first = i) && t.phase ≠ .handed)
    | _ => false)
  let s := (x.outstanding k).foldl (fun t e =>
    t.entryReady x.ctx.cq
      (if k < 16384 then
        { cookie := e.2.1, count := e.1, queue := k, status, w10 := e.2.2 % 65536 * 65536, inst := x.ctx.inst, gen := g }
       else rxDescEntry k x g e.1 e.2.1 status)) s
  s.setQueue k { x with
    c := x.p, held := [], items := x.items.filter (fun i => i.phase = .handed || i.phase = .ended)
    regions := x.regions.map (fun r => { r with closed := true }) }

/-- Every completion of a stopping queue is in its ring or in the corbel (spec/07 R222). -/
def State.queueQuiet (s : State) (k : Nat) : Bool :=
  let x := s.queue k
  let of_ (e : CqEntry) : Bool := decide (e.queue = queueNo k) && decide (e.rx = decide (16384 ≤ k))
  x.items = [] && x.placing = [] && x.regions = [] && !(s.ring x.ctx.cq).ready.any of_ && !(s.ring x.ctx.cq).waiting.any of_

/-- QUEUE_STOPPED. -/
def State.queueStopped (s : State) (k : Nat) : State :=
  let x := s.queue k
  if x.state = .stopping && s.queueQuiet k then
    ((s.setQueue k { x with state := .stopped, stopTo := none }).endQmgOn k 0).evalLine x.ctx.dbLine
  else s

/-- QUEUE_RESET_DONE: P, L and C become 0 and the queue is DISABLED (spec/07 R223). -/
def State.queueResetDone (s : State) (k : Nat) : State :=
  let x := s.queue k
  if x.state = .resetting && s.queueQuiet k then
    ((s.setQueue k { ctx := x.ctx }).endQmgOn k 0).evalLine x.ctx.dbLine
  else s

/-! ### Commands (spec/07 R221, R229) -/

/-- why of an INVALID queue ENABLE, 0 where it is allowed (the order of the checks is log 18). -/
def State.queueWhy (s : State) (k : Nat) (c : QCtx) : Nat :=
  let ring := s.ring c.cq
  if 10 < bitsOf (s.ctxWord k 2) 12 4 then 1
  else if c.ring % (32 * c.n) ≠ 0 then 2
  else if s.queueOwner (decide (16384 ≤ k)) (queueNo k) ≠ some c.inst then 3
  else if !s.linkAllowed c.inst c.link then 10
  else if (s.inst c.inst).state ≠ .started then 8
  else if !s.lineUsable c.dbLine c.inst then 4
  else if s.slotUsed c.dbLine c.dbSlot then 5
  else if ring.state = .disabled || ring.ctx.inst ≠ c.inst then 6
  else if k < 16384 then (if c.chainMax = 0 || 64 < c.chainMax then 7 else 0)
  else if c.stream && (c.strideLog2 < 6 || 12 < c.strideLog2) then 7
  else 0

/-- A bound queue may be stopped or reset: its context is in RESET or ERROR (spec/15 R454). -/
def State.boundStops (s : State) (k : Nat) : Bool :=
  match s.boundCtx k with
  | none => true
  | some c => let x := mapGet ({} : Ctx) s.sto.ctxs c; x.state = .reset || x.state = .error

/-- Mark the command of face f as running on a queue. -/
def State.runQmg (s : State) (f k : Nat) : State :=
  { s with qmg := { s.qmg with cmd := setNth s.qmg.cmd f { busy := true }, cmdQueue := setNth s.qmg.cmdQueue f (some k) } }

/-- Queue commands of face f: ops 1 ENABLE, 2 STOP, 3 RESUME, 4 RESET. -/
def State.queueCommand (s : State) (m : Master) (f op k : Nat) : State :=
  let x := s.queue k
  let c := s.readQCtx k
  let judge := (s.queueOwner (decide (16384 ≤ k)) (queueNo k)).getD c.inst
  if op = 1 && 2051 < c.inst then s.endQmg f 2 7
  else if s.cmdDenied m f judge then s.endQmg f 3 0
  else
    match op, x.state with
    | 1, .disabled =>
      let why := s.queueWhy k c
      if why ≠ 0 then s.endQmg f 2 why
      else ((s.setQueue k { state := .running, ctx := c }).endQmg f 0 0).evalLine c.dbLine
    | 2, .running =>
      if !s.boundStops k then s.endQmg f 1 0
      else
        let s := (s.setQueue k { x with state := .stopping, stopTo := some x.p }).abortQueue k stAborted
        (s.runQmg f k).evalLine x.ctx.dbLine
    | 3, .stopped =>
      ((s.setQueue k { x with state := .running
                              ctx := { x.ctx with course := c.course, weight := c.weight, burst := c.burst } }).endQmg
        f 0 0).evalLine x.ctx.dbLine
    | 4, st =>
      if st = .disabled || st = .resetting then s.endQmg f 1 0
      else if st = .masterOff && !(s.fn x.ctx.fn).bme then s.endQmg f 1 0
      else if !s.boundStops k then s.endQmg f 1 0
      else
        let s := s.endQmgOn k 1
        let s := (s.setQueue k { x with state := .resetting, stopTo := some x.p }).abortQueue k stAborted
        (s.runQmg f k).evalLine x.ctx.dbLine
    | _, _ => s.endQmg f 1 0

/-- Enabled lines in class 0 of a face, or of an instance of it (spec/07 R215, spec/10 R293). -/
def State.hotLines (s : State) (p : DbLine → Bool) : Nat :=
  (s.qmg.lines.filter (fun l => l.2.enabled && decide (l.2.cls = 0) && p l.2)).length

/-- A line entry as its registers hold it (spec/07 R228). -/
def State.readLine (s : State) (l : Nat) : DbLine :=
  let w := s.word Reg.qmgDbLine [l]
  { inst := bitsOf w 0 12, link := bitsOf w 12 1, cls := bitsOf w 13 3, ats := bitOf w 16
    pasid := if bitOf w 17 then some (s.word Reg.qmgDbLinePasid [l]) else none
    addr := s.word Reg.qmgDbLineLo [l] + 2 ^ 32 * s.word Reg.qmgDbLineHi [l] }

/-- Line commands of face f: ops 1 ENABLE, 5 DISABLE (spec/07 R214, R215, R229). -/
def State.lineCommand (s : State) (m : Master) (f op l : Nat) : State :=
  let x := s.dbLine l
  let r := s.readLine l
  let judge := if x.enabled then x.inst else r.inst
  if 2051 < judge then s.endQmg f 2 7
  else if s.cmdDenied m f judge then s.endQmg f 3 0
  else if op = 1 then
    if x.enabled then s.endQmg f 1 0
    else if r.addr % 64 ≠ 0 then s.endQmg f 2 2
    else if !s.linkAllowed r.inst r.link then s.endQmg f 2 10
    else if (s.inst r.inst).state ≠ .started then s.endQmg f 2 8
    else if r.cls = 0 && (decide (512 ≤ s.hotLines (fun y => decide (s.lineFace y = f)))
        || decide ((s.inst r.inst).grant.hotSlots ≤ s.hotLines (fun y => decide (y.inst = r.inst)))) then s.endQmg f 2 9
    else ((s.setLine l { r with state := .idle }).evalLine l).endQmg f 0 0
  else if s.qmg.queues.any (fun p => decide (p.2.state ≠ .disabled) && decide (p.2.ctx.dbLine = l))
      || s.qmg.rings.any (fun p => decide (p.2.state ≠ .disabled) && decide (p.2.ctx.dbLine = l)) then s.endQmg f 1 0
  else (s.setLine l {}).endQmg f 0 0

/-- QMG_CMD of face f (spec/07 R229). -/
def State.qmgCommand (m : Master) (f op typ idx : Nat) : Eff := fun s =>
  if (s.qmg.cmd.getD f {}).busy then (s, false)
  else
    (match typ with
     | 0 => if 1 ≤ op && op ≤ 4 then s.queueCommand m f op (idx % 16384) else s.endQmg f 2 11
     | 1 => if 1 ≤ op && op ≤ 4 then s.queueCommand m f op (16384 + idx % 16384) else s.endQmg f 2 11
     | 2 =>
       if op ≠ 1 && op ≠ 5 then s.endQmg f 2 11
       else if 8192 ≤ idx then s.endQmg f 2 7 else s.lineCommand m f op idx
     | _ => s.endQmg f 2 7, true)

/-! ### Happenings of other chapters -/

/-- Bus Master Enable of a function is cleared: its queues move to MASTER_OFF (spec/06 R188, spec/07 R225). -/
def State.queuesOff (s : State) (k : Nat) : State :=
  (s.qmg.queues.foldl (fun t p =>
    let x := t.queue p.1
    if x.state ≠ .disabled && x.ctx.fn = k then
      (t.setQueue p.1 { x with state := .masterOff, stopTo := none }).endQmgOn p.1 1
    else t) s).evalLines

/-- An instance reset moves the instance's queues to DISABLED (spec/07 R221, R225): fetched descriptors and items are
gone; a running RESET ends with OK, any other command with BUSY. -/
def State.resetQueues (s : State) (i : Nat) : State :=
  (s.qmg.queues.foldl (fun t p =>
    let x := t.queue p.1
    if x.state ≠ .disabled && x.ctx.inst = i then
      let res := if x.state = .resetting then 0 else 1
      (t.setQueue p.1 { ctx := x.ctx }).endQmgOn p.1 res
    else t) s).evalLines

/-- QMG_DB_LINE and context writes are judged by instance (spec/06 R170, spec/07, spec/08): whether master m may write
the context of a queue. -/
def State.mayWriteQueue (s : State) (m : Master) (k : Nat) : Bool :=
  match m with
  | .fw _ _ => true
  | _ => match s.queueOwner (decide (16384 ≤ k)) (queueNo k) with | some i => s.onFace m i | none => false

/-- Whether master m may write the context of a ring. -/
def State.mayWriteRing (s : State) (m : Master) (r : Nat) : Bool :=
  match m with
  | .fw _ _ => true
  | _ => match s.ringOwner r with | some i => s.onFace m i | none => false

end Sys2Proof.Machine
end

