-- ==== Sys2Proof/Machine/SchedOps.lean ====
section
/-! DEFINITION. The scheduler: shapers, windows, selection, transmission and host delivery (spec/17, spec/07 R209-R212). -/

namespace Sys2Proof.Machine

/-! ### Leaves and exits (spec/17 R513-R516) -/

/-- The leaf that holds a packet: scheduler queue k, or 4,096 + receive queue. -/
def Packet.leaf (x : Packet) : Nat := match x.eg with | .rxq q => 4096 + q | _ => x.txq

/-- The exit of a packet, as a local port. -/
def State.exitOf (s : State) (x : Packet) : Nat :=
  match x.eg with
  | .line n _ => n
  | .quoin q _ => 40 + q
  | .rxq q => 32 + s.rxqLink q
  | .act a => if a = .recirc then 44 else if a = .exc then 45 else 46

/-- The member of its group that a packet belongs to: its node, or 4,095 with none (spec/17 R516). -/
def Packet.member (x : Packet) : Nat := if x.mark.inst = noInst then 4095 else x.mark.inst

/-- The register word of a leaf (spec/17 R542). -/
def State.leafCfg (s : State) (k : Nat) : Nat := if k < 4096 then s.word Reg.tmsTqCfg [k] else s.word Reg.tmsRxqCfg [k - 4096]

/-- The priority of a leaf. -/
def State.leafPri (s : State) (k : Nat) : Nat := bitsOf (s.leafCfg k) 9 3

/-- A weight of 0 is treated as 1. -/
def weightOf (w : Nat) : Nat := if w = 0 then 1 else w

/-! ### Counted length (spec/17 R521, R522) -/

/-- Bytes the transmit MAC inserts. -/
def State.inserted (s : State) (n : Nat) : Nat :=
  let cfg := s.word Reg.macPortCfg [n]
  (if bitOf cfg 21 then 4 else 0) + (if bitOf cfg 18 then (if bitOf cfg 19 then 12 else 8) else 0)

/-- L of a packet of length `len` at an exit. -/
def State.counted (s : State) (e len : Nat) : Nat :=
  let o := signedOf 7 (s.fld Reg.tmsExitCfg [e] 0 7)
  let n := if e < 32 then max (len + s.inserted e) 60 + 4 else len
  ((n : Int) + o).toNat

/-- L of a packet: its true length, or the ingress port's max_frame while its end marker has not passed. -/
def State.countedOf (s : State) (e : Nat) (x : Packet) : Nat :=
  s.counted e (if x.prov then s.fld Reg.macPortCfg [portLocal x.mark.srcPort] 0 14 else x.mark.len)

/-! ### Shapers (spec/17 R523, R524, R538) -/

/-- Shaper k: exit e, 64 + group, or 1,024 + node. -/
def State.shaper (s : State) (k : Nat) : Shaper := mapGet {} s.tms.shapers k

/-- The state with a shaper replaced. -/
def State.setShaper (s : State) (k : Nat) (x : Shaper) : State :=
  { s with tms := { s.tms with shapers := mapSet {} s.tms.shapers k x } }

/-- The register words of a shaper: rate, k and en, and cbs. -/
def State.shaperWords (s : State) (k : Nat) : Nat × Nat :=
  if k < 64 then (s.word Reg.tmsExitShp0 [k], s.word Reg.tmsExitShp1 [k])
  else if k < 1024 then (s.word Reg.tmsGroupShp0 [k - 64], s.word Reg.tmsGroupShp1 [k - 64])
  else (s.word Reg.tmsNodeShp0 [k - 1024], s.word Reg.tmsNodeShp1 [k - 1024])

/-- A shaper is open. -/
def Shaper.isOpen (x : Shaper) : Bool := !x.en || decide (0 ≤ x.credit)

/-- The shapers above a packet at an exit. -/
def State.shapersOf (s : State) (e : Nat) (x : Packet) : List Nat :=
  [e, 64 + s.leafGroup x.leaf] ++ (if x.mark.inst = noInst then [] else [1024 + x.mark.inst])

/-- Add bytes to every enabled shaper above a packet. -/
def State.shapersAdd (s : State) (e : Nat) (x : Packet) (bytes : Int) : State :=
  (s.shapersOf e x).foldl (fun t k =>
    let h := t.shaper k
    if h.en then t.setShaper k { h with credit := h.credit + bytes * 2 ^ 24 } else t) s

/-! ### Transmit windows (spec/17 R529-R533) -/

/-- The entries of list l of port n: duration and mask. -/
def State.gateEntries (s : State) (n l : Nat) : List (Nat × Nat) :=
  (List.range (s.fld Reg.tmsGateList [n, l] 0 7)).map (fun j =>
    let w := s.word Reg.tmsGateEnt [n, l, j]
    (bitsOf w 0 24, bitsOf w 24 8))

/-- The cycle of a list. -/
def gateCycle (es : List (Nat × Nat)) : Nat := (es.map (fun e => e.1)).sum

/-- The state of a port's gates. -/
def State.gate (s : State) (n : Nat) : GatePort := mapGet {} s.tms.gates n

/-- The state with a port's gates replaced. -/
def State.setGate (s : State) (n : Nat) (x : GatePort) : State :=
  { s with tms := { s.tms with gates := mapSet {} s.tms.gates n x } }

/-- The list that acts on a port, if one does. -/
def State.gateList (s : State) (n : Nat) : Option Nat :=
  if s.feature 9 && s.bit Reg.tmsGateCtl [n] 0 then (s.gate n).oper else none

/-- Tick t within the cycle of a list. -/
def State.gatePos (s : State) (n l t : Nat) : Nat :=
  let base : Int := (s.dword Reg.tmsGateBase [n, l] 0 : Nat)
  (((t : Int) - base) % (gateCycle (s.gateEntries n l) : Int)).toNat

/-- Ticks for which priority p stays open from the start of a list of entries. -/
def openRun (p : Nat) : List (Nat × Nat) → Nat
  | [] => 0
  | (d, m) :: es => if bitOf m p then d + openRun p es else 0

/-- Ticks for which priority p stays open from position `pos`; 0 where it is closed. -/
def openFrom (p : Nat) : Nat → List (Nat × Nat) → List (Nat × Nat) → Nat
  | _, _, [] => 0
  | pos, done, (d, m) :: es =>
    if pos < d then (if bitOf m p then d - pos + openRun p (es ++ done) else 0)
    else openFrom p (pos - d) (done ++ [(d, m)]) es

/-- Priority p is open in every entry. -/
def alwaysOpen (p : Nat) (es : List (Nat × Nat)) : Bool := es.all (fun e => bitOf e.2 p)

/-- The runs of p that begin at each entry. -/
def runsFrom (p : Nat) (done : List (Nat × Nat)) : List (Nat × Nat) → List Nat
  | [] => []
  | e :: es => openRun p (e :: es ++ done) :: runsFrom p (done ++ [e]) es

/-- The longest window of p, 0xFFFF_FFFF for one without end (spec/17 R530, R544). -/
def longestWindow (p : Nat) (es : List (Nat × Nat)) : Nat :=
  if alwaysOpen p es then 0xFFFFFFFF else (runsFrom p [] es).foldl max 0

/-- A list is valid (spec/17 R529). -/
def gateValid (es : List (Nat × Nat)) : Bool :=
  decide (1 ≤ es.length) && decide (es.length ≤ 64) && es.all (fun e => decide (0 < e.1)) && decide (gateCycle es < 2 ^ 32)

/-- Ticks that a packet of counted length L takes on a line port (spec/17 R531). -/
def State.sendTicks (s : State) (n len : Nat) : Nat := ceilDiv (len * 8) (max 1 (s.port n).format.1)

/-- What the gates say of a packet. -/
inductive GateSays where
  | fits | waits | never
  deriving DecidableEq, Repr

/-- Judge a packet of priority p against the windows of an exit (spec/17 R531, R532). -/
def State.gateJudge (s : State) (e p len : Nat) : GateSays :=
  match (if e < 32 then s.gateList e else none) with
  | none => .fits
  | some l =>
    let es := s.gateEntries e l
    let t := s.sendTicks e len
    if alwaysOpen p es then .fits
    else if longestWindow p es < t then .never
    else if t ≤ openFrom p (s.gatePos e l s.now) [] es && 0 < openFrom p (s.gatePos e l s.now) [] es then .fits
    else .waits

/-- A priority that the gates of a port do not leave open in every entry (spec/17 R531). -/
def State.gateCuts (s : State) (n p : Nat) : Bool :=
  match s.gateList n with
  | none => false
  | some l => !alwaysOpen p (s.gateEntries n l)

/-! ### Host delivery (spec/07 R210-R212, spec/08 R242, spec/16 R500) -/

/-- What stands at the start of a packet's host delivery. -/
inductive Delivery where
  | refuse (reason : Nat)
  | wait
  | go (parts : List (Nat × Nat)) (p : RxPlaced) (x : Queue)
  deriving DecidableEq, Repr

/-- A receive queue bound to a context of a kind that places its own data (spec/15 R452). -/
def State.boundRx (s : State) (k : Nat) : Bool :=
  match s.boundCtx k with
  | some c => decide ((mapGet ({} : Ctx) s.sto.ctxs c).kind ≠ .nvt)
  | none => false

/-- Judge a packet for host delivery (spec/07 R212). -/
def State.deliveryOf (s : State) (p : Nat) (x : Packet) (q : Nat) : Delivery :=
  let k := queueKey true q
  let qu := s.queue k
  let st := (s.inst x.mark.inst).state
  let fnk := qu.ctx.fn
  if !s.genOk x.mark.inst x.mark.gen then .refuse Reason.staleGen
  else if x.mark.inst = noInst || st = .absent || st = .created then .refuse 0xAA
  else if qu.state ≠ .running || s.boundRx k then .refuse 0xA0
  else if x.inHbm || !s.ready 6 || !s.fnOpen fnk || (s.ring qu.ctx.cq).waiting ≠ []
      || s.chanWork (s.queueFace qu) qu.ctx.link 3 ≠ [] then .wait
  else
    match rxFit qu p x.mark.len with
    | .wait => .wait
    | .tooBig => .refuse 0xA1
    | .fits parts pl y => .go parts pl y

/-! ### Eligibility (spec/17 R518) -/

/-- A packet may leave before its end marker (spec/01 R40, spec/16 R487, spec/17 R531). -/
def State.cutsThrough (s : State) (e : Nat) (x : Packet) : Bool :=
  decide (e < 32) && x.mark.flags.express && decide (x.mark.entAct = .lrx) && decide (x.mark.act = .ltx)
    && decide ((s.port e).format.1 ≤ (s.port (portLocal x.mark.srcPort)).format.1)
    && !s.gateCuts e (s.leafPri x.leaf)
    && decide ((s.packets.filter (fun q => decide (q.2.stage = .queued) && decide (s.exitOf q.2 = e)
        && decide (q.2.leaf = x.leaf))).length ≤ 1)

/-- A Quoin port's channel takes another packet: the link is UP and none of the channel's flits wait (spec/20 R603). -/
def State.quoinTakes (s : State) (q ch : Nat) : Bool := s.quoinUp q && decide ((s.quoin q).waiting.getD ch [] = [])

/-- A packet is the next of its member in its leaf (spec/17 R516, spec/16 R502). -/
def State.isHead (s : State) (x : Packet) : Bool :=
  !s.packets.any (fun q => decide (q.2.stage = .queued) && decide (q.2.leaf = x.leaf) && decide (q.2.order < x.order)
    && (match q.2.eg with | .act _ => false | _ => true)
    && (decide (4096 ≤ x.leaf) || decide (q.2.member = x.member)))

/-- A packet at its head is eligible but for the gates; `skip` is a shaper whose credit is not asked. -/
def State.openHead (s : State) (e p : Nat) (x : Packet) (skip : Option Nat) : Bool :=
  (!x.prov || s.cutsThrough e x)
    && (s.shapersOf e x).all (fun k => decide (some k = skip) || (s.shaper k).isOpen)
    && (decide (32 ≤ e) || !s.paused e (s.leafPri x.leaf))
    && (match x.eg with
        | .rxq q => decide (s.deliveryOf p x q ≠ .wait)
        | .quoin q pri => s.quoinTakes q pri
        | _ => true)

/-- The heads that wait at an exit. -/
def State.heads (s : State) (e : Nat) : List (Nat × Packet) :=
  s.packets.filter (fun q => decide (q.2.stage = .queued) && decide (s.exitOf q.2 = e) && s.isHead q.2)

/-- A head is eligible. -/
def State.eligible (s : State) (e : Nat) (q : Nat × Packet) : Bool :=
  s.openHead e q.1 q.2 none && decide (s.gateJudge e (s.leafPri q.2.leaf) (s.countedOf e q.2) = .fits)

/-! ### Weighted round robin (spec/17 R519) -/

/-- The next member: of (number, weight) pairs, all eligible, in ascending order. -/
def wrrNext (w : Wrr) (ms : List (Nat × Nat)) : Option (Nat × Wrr) :=
  let inPass (r from_ : Nat) : Option Nat := (ms.find? (fun m => decide (from_ ≤ m.1) && decide (r ≤ m.2))).map (fun m => m.1)
  match inPass w.pass w.next with
  | some i => some (i, { pass := w.pass, next := i + 1 })
  | none =>
    match inPass (w.pass + 1) 0 with
    | some i => some (i, { pass := w.pass + 1, next := i + 1 })
    | none => (inPass 1 0).map (fun i => (i, { pass := 1, next := i + 1 }))

/-- Distinct numbers in ascending order. -/
def distinct (l : List Nat) : List Nat :=
  (l.foldl (fun (m : AMap Unit) n => mapPut m n ()) []).map (fun p => p.1)

/-- Choose among eligible heads of one priority at an exit (spec/17 R518, R519). -/
def State.wrrChoose (s : State) (e p : Nat) (hs : List (Nat × Packet)) : Option (Nat × Packet) × State :=
  let gOf (q : Nat × Packet) : Nat := s.leafGroup q.2.leaf
  let gs := (distinct (hs.map gOf)).map (fun g => (g, weightOf (s.fld Reg.tmsGroupCfg [g] 8 8)))
  match wrrNext (mapGet {} s.tms.wrrGroup (8 * e + p)) gs with
  | none => (none, s)
  | some (g, wg) =>
    let inG := hs.filter (fun q => decide (gOf q = g))
    let ms := (distinct (inG.map (fun q => q.2.member))).map (fun i =>
      (i, weightOf (if i = 4095 then s.fld Reg.tmsGroupCfg [g] 16 8 else s.fld Reg.tmsNodeCfg [i] 0 8)))
    match wrrNext (mapGet {} s.tms.wrrMember (8 * g + p)) ms with
    | none => (none, s)
    | some (i, wm) =>
      let inM := inG.filter (fun q => decide (q.2.member = i))
      let ks := (distinct (inM.map (fun q => q.2.leaf))).map (fun k => (k, weightOf (bitsOf (s.leafCfg k) 12 8)))
      match wrrNext (mapGet {} s.tms.wrrQueue ((4096 * g + i) * 8 + p)) ks with
      | none => (none, s)
      | some (k, wq) =>
        let v : Visit := { pri := p, group := g, member := i, queue := k, left := bitsOf (s.leafCfg k) 20 6 }
        (inM.find? (fun q => decide (q.2.leaf = k)),
         { s with tms := { s.tms with
             wrrGroup := mapSet {} s.tms.wrrGroup (8 * e + p) wg, wrrMember := mapSet {} s.tms.wrrMember (8 * g + p) wm
             wrrQueue := mapSet {} s.tms.wrrQueue ((4096 * g + i) * 8 + p) wq
             visits := mapSet none s.tms.visits e (some v) } })

/-- Choose at one priority: the visit under way goes on while its queue's next packet is eligible (spec/17 R519). -/
def State.chooseAt (s : State) (e p : Nat) (hs : List (Nat × Packet)) : Option (Nat × Packet) × State :=
  match mapGet none s.tms.visits e with
  | some v =>
    match (if v.pri = p && 0 < v.left then
        hs.find? (fun q => decide (q.2.leaf = v.queue) && decide (q.2.member = v.member)) else none) with
    | some q => (some q, { s with tms := { s.tms with visits := mapSet none s.tms.visits e (some { v with left := v.left - 1 }) } })
    | none => s.wrrChoose e p hs
  | none => s.wrrChoose e p hs

/-- Discard a packet that no window of its priority holds (spec/17 R532). -/
def State.gateOversize (s : State) (e p : Nat) : State :=
  let s := s.count (tmsCounter e 2) 1
  let g := s.gate e
  let quiet := match g.oversizeAt with | some t => decide (s.now < t + 1000000) | none => false
  let s := if quiet then s else (s.setGate e { g with oversizeAt := some s.now }).raise 323 (globalPort s.moduleId e)
  match s.pkt p with
  | some x => (s.setPkt p { x with mark := x.mark.dropLate 0x90 }).dropPkt p
  | none => s

/-- Select at priorities p - 1 down to 0; the flag tells that a packet waited for a window. -/
def State.selectDown (s : State) (e : Nat) : Nat → Bool → Option (Nat × Packet) × Bool × State
  | 0, w => (none, w, s)
  | p + 1, w =>
    let cand := (s.heads e).filter (fun q => decide (s.leafPri q.2.leaf = p) && s.openHead e q.1 q.2 none)
    let judge (q : Nat × Packet) : GateSays := s.gateJudge e p (s.countedOf e q.2)
    match cand.find? (fun q => decide (judge q = .never)) with
    | some q =>
      -- judged and discarded at the gate; the selection is made again
      let t := s.gateOversize e q.1
      let cand := (t.heads e).filter (fun r => decide (t.leafPri r.2.leaf = p) && t.eligible e r)
      match t.chooseAt e p cand with
      | (some r, u) => (some r, w, u)
      | (none, u) => u.selectDown e p w
    | none =>
      let w := w || cand.any (fun q => decide (judge q = .waits))
      match s.chooseAt e p (cand.filter (fun q => decide (judge q = .fits))) with
      | (some r, u) => (some r, w, u)
      | (none, u) => u.selectDown e p w

/-- select_next with the check points of dequeue: a stale or aged packet is discarded and the selection is made again
(spec/17 R518, R520, spec/01 R17, R24). -/
def State.select (s : State) (e : Nat) : Nat → Option (Nat × Packet) × State
  | 0 => (none, s)
  | n + 1 =>
    let r := s.selectDown e 8 false
    let t := if r.2.1 then r.2.2.count (tmsCounter e 3) 1 else r.2.2
    match r.1 with
    | none => (none, t)
    | some q =>
      let c := t.dequeueCheck e q.1 q.2
      if c.1 then c.2.select e n else (some q, t)

/-! ### Leaving -/

/-- A packet starts to leave an exit: shapers are charged and the exit counts it (spec/17 R523, R545). -/
def State.startLeave (s : State) (e p : Nat) (x : Packet) : State :=
  let len := s.countedOf e x
  let s := s.shapersAdd e x (-(len : Int))
  let s := s.count (tmsCounter e 0) 1
  let s := if x.prov then s else s.count (tmsCounter e 1) len
  s.setPkt p { x with stage := .leaving, charged := if x.prov then some len else none }

/-- EXIT_SELECT on a line port: its transmit MAC takes the next packet. -/
def State.selectLine (s : State) (n : Nat) : State :=
  let y := s.port n
  if !y.takes || y.txNow.isSome || y.loopback = 3 then s
  else
    let r := s.select n (s.packets.length + 1)
    match r.1 with
    | none => r.2
    | some (p, x) => (r.2.startLeave n p x).setPort n { r.2.port n with txNow := some p }

/-- Refuse a packet at the start of its host delivery (spec/07 R212). -/
def State.refuseRx (s : State) (p : Nat) (x : Packet) (r : Nat) : State :=
  (s.setPkt p { x with mark := x.mark.dropLate r }).dropPkt p

/-- EXIT_SELECT on a host link: host delivery of the next packet begins (spec/07 R210, R211, spec/17 R515). -/
def State.selectHost (s : State) (l : Nat) : State :=
  let e := 32 + l
  let r := s.select e (s.packets.length + 1)
  match r.1 with
  | none => r.2
  | some (p, x) =>
    let s := r.2
    match x.eg with
    | .rxq q =>
      match s.deliveryOf p x q with
      | .wait => s
      | .refuse reason => s.refuseRx p x reason
      | .go parts pl qu =>
        let s := (s.itemTagGone x).startLeave e p x
        let s := s.setQueue (queueKey true q) { qu with placing := qu.placing ++ [{ pl with status := x.rxStatus }] }
        s.askWrite (s.queueFace qu) qu.ctx.link 3
          { work := .packet p, fn := qu.ctx.fn, inst := x.mark.inst, gen := x.mark.gen, parts := writeParts parts x.bytes
            ats := qu.ctx.ats, pasid := qu.ctx.pasid }
    | _ => s

/-- EXIT_SELECT on the Keystone's port: the packet is delivered (spec/17 R518; what firmware does is not said). -/
def State.selectKeystone (s : State) : State :=
  match s.oldestAt .mgt with
  | none => s
  | some (p, x) =>
    if x.prov || !s.ready 18 then s
    else
      let c := s.dequeueCheck 46 p x
      if c.1 then c.2
      else
        let s := (c.2.itemTagGone x).count (tmsCounter 46 0) 1
        ((s.count (tmsCounter 46 1) x.mark.len).send (.keystone x.mark x.bytes)).removePkt p

/-- CUT_THROUGH_CORRECTION: the end marker of a cut-through packet passes the scheduler (spec/17 R522). -/
def State.cutCorrection (s : State) (p : Nat) : State :=
  match s.pkt p with
  | none => s
  | some x =>
    match x.charged with
    | none => s
    | some c =>
      if !x.ended || x.prov then s
      else
        let e := s.exitOf x
        let len := s.counted e x.mark.len
        let s := s.shapersAdd e x ((c : Int) - (len : Int))
        (s.count (tmsCounter e 1) len).setPkt p { x with charged := none }

/-! ### Refills (spec/17 R523, R524) -/

/-- A shaper is busy: a packet under it waits at a leaf that is eligible apart from its credit, or is being sent. -/
def State.shaperBusy (s : State) (k : Nat) : Bool :=
  s.packets.any (fun q =>
    let e := s.exitOf q.2
    decide (e < 44) && (s.shapersOf e q.2).contains k
      && (decide (q.2.stage = .leaving)
        || (decide (q.2.stage = .queued) && s.isHead q.2 && s.openHead e q.1 q.2 (some k)
          && decide (s.gateJudge e (s.leafPri q.2.leaf) (s.countedOf e q.2) = .fits))))

/-- SHAPER_REFILL: a tick count that is a multiple of the shaper's period, once per tick; a write takes effect here under
the period in force before it. -/
def State.refill (s : State) (k : Nat) : State :=
  let x := s.shaper k
  if s.now % (32 * 2 ^ x.k) ≠ 0 || x.refilled = some s.now then s
  else
    let w := s.shaperWords k
    let y : Shaper := { x with en := bitOf w.1 31, rate := bitsOf w.1 0 20, k := bitsOf w.1 20 3, cbs := w.2
                               refilled := some s.now }
    let inc : Int := (y.rate * (32 * 2 ^ y.k) * 2 ^ 24 / 8000 : Nat)
    let cap : Int := (y.cbs * 2 ^ 24 : Nat)
    let c : Int :=
      if !y.en then y.credit
      else if s.shaperBusy k then min (y.credit + inc) cap
      else if 0 < y.credit then 0 else min (y.credit + inc) 0
    s.setShaper k { y with credit := min c cap }

/-! ### Gates (spec/17 R533) -/

/-- A write to TMS_GATE_CTL of port n. -/
def State.gateArm (m : Master) (n data : Nat) : Eff := fun s =>
  let r := State.writeReg m Reg.tmsGateCtl [n] data s
  let s := if bitOf data 6 then r.1.setGate n { r.1.gate n with cfgInvalid := false } else r.1
  if !bitOf data 1 then (s, r.2)
  else
    let l := bitsOf data 2 1
    let port := globalPort s.moduleId n
    if (s.gate n).oper = some l || !s.feature 9 || !gateValid (s.gateEntries n l) then
      ((s.setGate n { s.gate n with cfgInvalid := true }).raise 325 port, true)
    else (s.setGate n { s.gate n with pending := some l }, true)

/-- GATE_SWITCH: the first tick at or after the arming that starts a cycle of the pending list. -/
def State.gateSwitch (s : State) (n : Nat) : State :=
  match (s.gate n).pending with
  | none => s
  | some l =>
    if s.gatePos n l s.now ≠ 0 then s
    else
      let es := s.gateEntries n l
      (s.setGate n { s.gate n with
        oper := some l, pending := none, longest := (List.range 8).map (fun p => longestWindow p es) }).raise 324
        (globalPort s.moduleId n)

/-- A write to a word of a gate list that is operative or pending has no effect (spec/17 R533). -/
def State.gateLocked (s : State) (n l : Nat) : Bool := decide ((s.gate n).oper = some l) || decide ((s.gate n).pending = some l)

/-- Write a register of a gate list. -/
def State.gateWrite (m : Master) (r : RegDef) (idx : List Nat) (data : Nat) : Eff := fun s =>
  if s.gateLocked (ix idx 0) (ix idx 1) then
    (s.setGate (ix idx 0) { s.gate (ix idx 0) with cfgInvalid := true }, false)
  else State.writeReg m r idx data s

/-! ### Writes to groups and queues (spec/17 R537) -/

/-- A write to TMS_GROUP_CFG: a new exit waits until the group's leaves are empty. -/
def State.groupWrite (m : Master) (g data : Nat) : Eff := fun s =>
  let s := s.settleTms
  let old := s.groupExit g
  let r := State.writeReg m Reg.tmsGroupCfg [g] data s
  if r.2 && (s.leaves.map s.leafGroup).contains g && r.1.fld Reg.tmsGroupCfg [g] 0 6 ≠ old then
    ({ r.1 with tms := { r.1.tms with exitKept := mapSet none r.1.tms.exitKept g (some old) } }, true)
  else ({ r.1 with tms := { r.1.tms with exitKept := mapSet none r.1.tms.exitKept g none } }, r.2)

/-- A write to a leaf's register: a new group waits until the leaf is empty. -/
def State.leafWrite (m : Master) (r : RegDef) (idx : List Nat) (k data : Nat) : Eff := fun s =>
  let s := s.settleTms
  let old := s.leafGroup k
  let w := State.writeReg m r idx data s
  let kept := { w.1 with tms := { w.1.tms with groupKept := mapSet none w.1.tms.groupKept k none } }
  if w.2 && s.leafHolds k && kept.leafGroup k ≠ old then
    ({ w.1 with tms := { w.1.tms with groupKept := mapSet none w.1.tms.groupKept k (some old) } }, true)
  else (kept, w.2)

/-- A write to a policer's register fills its buckets (spec/17 R526). -/
def State.policerWrite (m : Master) (r : RegDef) (idx : List Nat) (data : Nat) : Eff := fun s =>
  let w := State.writeReg m r idx data s
  if w.2 then (fillPolicer (ix idx 0) w.1, true) else w
where
  /-- A policer with both buckets full. -/
  fillPolicer (p : Nat) (s : State) : State :=
    let x : Policer := { tc := s.word Reg.tmsPolSize [p, 0] * fracByte, tp := s.word Reg.tmsPolSize [p, 1] * fracByte, last := s.now }
    { s with tms := { s.tms with policers := mapSet {} s.tms.policers p x } }

/-! ### Resets (spec/17 R534, R535) -/

/-- An instance's reset sequence begins: its node shaper's credit is 0 and its policer's buckets are full. -/
def State.tmsInstReset (s : State) (i : Nat) : State :=
  State.policerWrite.fillPolicer i (s.setShaper (1024 + i) { s.shaper (1024 + i) with credit := 0 })

/-- A block reset of TMS. -/
def State.resetTms (s : State) : State :=
  let s := { s with tms := { s.tms with
    shapers := mapAll {} (fun _ (x : Shaper) => { x with credit := 0 }) s.tms.shapers
    wrrGroup := [], wrrMember := [], wrrQueue := [], visits := [] } }
  s.tms.policers.foldl (fun t p => State.policerWrite.fillPolicer p.1 t) s

end Sys2Proof.Machine
end

