-- ==== Sys2Proof/Machine/StoOps.lean ====
section
/-! DEFINITION. The storage and transport engine: contexts, keys and paths, RoCEv2 requester and responder, and the
congestion reaction (spec/15 R448-R467, R478-R483). -/

namespace Sys2Proof.Machine

/-- Counter k of STO (spec/15 R483). -/
def stoCounter (k : Nat) : Nat := blockBase 13 + 0x10000 + 8 * k

/-- A transport context. -/
def State.ctx (s : State) (c : Nat) : Ctx := mapGet {} s.sto.ctxs c

/-- The state with a context replaced. -/
def State.setCtx (s : State) (c : Nat) (x : Ctx) : State := { s with sto := { s.sto with ctxs := mapSet {} s.sto.ctxs c x } }

/-! ### Fields (spec/15 R451) -/

def Ctx.course (x : Ctx) : Nat := bitsOf (x.word 0) 6 2
def Ctx.owner (x : Ctx) : Nat := bitsOf (x.word 0) 8 12
def Ctx.sq (x : Ctx) : Option Nat := if bitOf (x.word 1) 14 then some (bitsOf (x.word 1) 0 14) else none
def Ctx.rq (x : Ctx) : Option Nat := if bitOf (x.word 1) 15 then some (bitsOf (x.word 1) 16 14) else none
def Ctx.path (x : Ctx) : Nat := bitsOf (x.word 2) 0 16
def Ctx.mtu (x : Ctx) : Nat := 128 * 2 ^ bitsOf (x.word 2) 16 3
def Ctx.ccEn (x : Ctx) : Bool := bitOf (x.word 2) 30
def Ctx.destQpn (x : Ctx) : Nat := bitsOf (x.word 3) 0 24
def Ctx.pd (x : Ctx) : Nat := bitsOf (x.word 7) 0 20

/-- The context is valid and not stale (spec/15 R450). -/
def State.ctxLive (s : State) (x : Ctx) : Bool := x.valid && s.genOk x.owner x.ownerGen

/-- Difference of PSNs, modulo 2^24. -/
def sub24 (a b : Nat) : Nat := (a + 2 ^ 24 - b % 2 ^ 24) % 2 ^ 24

/-- A PSN moved on. -/
def add24 (a n : Nat) : Nat := (a + n) % 2 ^ 24

/-- A context is used: it is cached, the least recently used one making room (spec/15 R448, R483). -/
def State.touchCtx (s : State) (c : Nat) : State :=
  if s.sto.cache.contains c then { s with sto := { s.sto with cache := s.sto.cache.filter (· ≠ c) ++ [c] } }
  else
    let l := if 16384 ≤ s.sto.cache.length then s.sto.cache.drop 1 else s.sto.cache
    ({ s with sto := { s.sto with cache := l ++ [c] } }).count (stoCounter 12) 1

/-! ### Errors (spec/15 R454, R470) -/

/-- Complete every outstanding item of a bound transmit queue with FLUSHED (spec/15 R454). -/
def State.flushSq (s : State) (k : Nat) : State :=
  (s.queue k).items.foldl (fun t i =>
    if i.phase = .ended then t
    else (t.withdrawItem k i.first).setItem k
      { i with phase := .ended, status := 0x20, readsOut := 0, lists := [], stage := 0, toAdmit := 0, tsWait := false }) s

/-- Complete every fetched descriptor of a bound receive queue with FLUSHED. -/
def State.flushRq (s : State) (x : Ctx) (q : Nat) : State :=
  let k := queueKey true q
  let qu := s.queue k
  let g := (s.inst qu.ctx.inst).gen
  let part := match x.rxMsg with
    | some r => if r.bufs = [] then [] else [(r.count, r.cookie)]
    | none => []
  let held := qu.held.filterMap (fun h => h.bytes.map (fun b => (h.count, descCookie b)))
  let s := s.setQueue k { qu with held := qu.held.filter (fun h => h.bytes.isNone) }
  (part ++ held).foldl (fun t e => t.entryReady qu.ctx.cq (rxDescEntry k qu g e.1 e.2 0x20)) s

/-- Withdraw the reads and writes of a context (spec/09 R272). -/
def State.withdrawCtx (s : State) (c : Nat) : State :=
  let f := (s.instFace (s.ctx c).owner).getD 0
  let s := s.withdrawReads f (fun r => match r.req with | .sto d _ _ => decide (d = c) | _ => false)
  (s.suppress f (fun w => match w.work with | .sto d _ => decide (d = c) | _ => false)).1

/-- A context enters ERROR: it sends nothing and takes nothing, and its outstanding work is flushed. -/
def State.ctxToError (s : State) (c : Nat) : State :=
  let s := s.withdrawCtx c
  let x := s.ctx c
  let s := match x.sq with | some q => s.flushSq q | none => s
  let s := match x.rq with | some q => s.flushRq x q | none => s
  s.setCtx c { x with state := .error, msgs := [], outs := [], placing := [], reads := [], rxMsg := none, ackEnd := none
                      delayEnd := none, rnrEnd := none }

/-- End the item of a message with a status. -/
def State.endMsg (s : State) (x : Ctx) (first status pkts : Nat) : State :=
  match x.sq with
  | none => s
  | some q =>
    match s.itemOf q first with
    | none => s
    | some i => s.setItem q { i with phase := .ended, status, frames := pkts, toAdmit := 0 }

/-- A context is torn down to ERROR; `item` is the message concerned and its status (spec/15 R470). -/
def State.teardown (s : State) (c : Nat) (item : Option (Nat × Nat)) : State :=
  let x := s.ctx c
  if x.kind = .nvt || !(x.state = .init || x.state = .rtr || x.state = .rts) then s
  else
    let s := match item with
      | some (first, status) => s.endMsg x first status 0
      | none => s
    (s.ctxToError c).raise 291 c (some x.owner)

/-- A queue is in ERROR or MASTER_OFF (spec/07 R221). -/
def State.queueFailed (s : State) (k : Nat) : Bool :=
  decide ((s.queue k).state = .error) || decide ((s.queue k).state = .masterOff)

/-- A queue that a context is bound to has failed (spec/15 R470). -/
def State.boundFailed (s : State) (c : Nat) : Bool :=
  (match (s.ctx c).sq with | some q => s.queueFailed q | none => false)
    || (match (s.ctx c).rq with | some q => s.queueFailed (queueKey true q) | none => false)

/-- The contexts whose bound queue has entered ERROR or MASTER_OFF are torn down (spec/15 R470). -/
def State.settleSto (s : State) : State :=
  s.sto.ctxs.foldl (fun (t : State) (p : Nat × Ctx) =>
    if (t.ctx p.1).valid && t.boundFailed p.1 then t.teardown p.1 none else t) s

/-! ### Commands (spec/15 R452, R453, R462, R482) -/

/-- Argument word w of set f. -/
def State.stoArg (s : State) (f w : Nat) : Nat := s.word Reg.stoCmdArg [f, w]

/-- End a command of set f. -/
def State.endSto (s : State) (f result : Nat) : State :=
  { s with sto := { s.sto with sets := setNth s.sto.sets f { busy := false, result } } }

/-- An instance may be named through set f by a master: it is on the set's face, and on the face of the PF that writes (spec/06
R170, spec/15 R482). -/
def State.stoOnFace (s : State) (m : Master) (f i : Nat) : Bool := (f = 4 || decide (s.instFace i = some f)) && s.onFace m i

/-- Live contexts of an owner, one index apart. -/
def State.ctxsOf (s : State) (i except : Nat) : Nat :=
  (s.sto.ctxs.filter (fun p => decide (p.1 ≠ except) && decide (p.2.owner = i) && s.ctxLive p.2)).length

/-- A key is valid and not stale. -/
def State.keyLive (s : State) (k : MemKey) : Bool := k.valid && s.genOk k.owner k.ownerGen

/-- Live keys of an owner, one index apart. -/
def State.keysOf (s : State) (i except : Nat) : Nat :=
  (s.sto.keys.filter (fun p => decide (p.1 ≠ except) && decide (p.2.owner = i) && s.keyLive p.2)).length

/-- A path entry. -/
def State.path (s : State) (p : Nat) : PathEntry := mapGet {} s.sto.paths p

/-- Word w of a path entry, and its owner. -/
def PathEntry.word (p : PathEntry) (w : Nat) : Nat := p.words.getD w 0
def PathEntry.owner (p : PathEntry) : Nat := bitsOf (p.word 12) 0 12

/-- A path entry is valid and not stale. -/
def State.pathLive (s : State) (p : PathEntry) : Bool := p.valid && s.genOk p.owner p.ownerGen

/-- A queue that a new context binds is DISABLED, of the owner, and bound by no other (spec/15 R452). -/
def State.bindable (s : State) (c owner k : Nat) : Bool :=
  decide ((s.queue k).state = .disabled) && decide (s.queueOwner (decide (16384 ≤ k)) (queueNo k) = some owner)
    && !s.sto.ctxs.any (fun p => decide (p.1 ≠ c) && p.2.binds k)

/-- CTX_WRITE; a kind or protection information whose feature is fused off ends with INVALID (spec/22 R672). -/
def State.ctxWrite (s : State) (m : Master) (f c : Nat) : State :=
  let ws := (List.range 16).map (fun w => s.stoArg f w)
  let kind := CtxKind.ofCode (bitsOf (ix ws 0) 0 2)
  let i := bitsOf (ix ws 0) 8 12
  let old := s.ctx c
  let n : Ctx :=
    { kind, valid := true, state := if kind = .nvt then .rts else .init, ownerGen := (s.inst i).gen, words := ws
      sPsn := bitsOf (ix ws 4) 0 24, sendAt := bitsOf (ix ws 4) 0 24, unack := bitsOf (ix ws 4) 0 24
      ePsn := bitsOf (ix ws 5) 0 24, rc := (s.word Reg.stoCc2 [] : Nat), rt := (s.word Reg.stoCc2 [] : Nat)
      alphaAt := s.now, incrAt := s.now, tcpSeq := ix ws 9 }
  let mtu := bitsOf (ix ws 2) 16 3
  let p := s.path n.path
  if c < 2 || 2051 < i then s.endSto f 2
  else if !s.stoOnFace m f i then s.endSto f 3
  else if s.ctxLive old && old.owner ≠ i then s.endSto f 6
  else if kind = .none
      || (match n.sq with | some q => !s.bindable c i q | none => false)
      || (match n.rq with | some q => !s.bindable c i (queueKey true q) | none => false)
      || (kind ≠ .nvt && (mtu = 0 || decide (5 < mtu)))
      || (kind = .rc && !(s.pathLive p && decide (p.owner = i)))
      || !bitOf s.fuses.features (if kind = .nvt then 4 else 3)
      || (bitsOf (ix ws 10) 2 2 ≠ 0 && !bitOf s.fuses.features 5) then s.endSto f 2
  else if 1024 * (s.inst i).grant.qpUnits < s.ctxsOf i c + 1
      || (kind = .nvt && decide (262144 ≤ (s.sto.ctxs.filter (fun q => decide (q.1 ≠ c) && q.2.valid && decide (q.2.kind = .nvt))).length))
    then s.endSto f 4
  else ((s.withdrawCtx c).setCtx c n).endSto f 0

/-- The image that CTX_READ returns: software's bits with the device's fields (spec/15 R451). -/
def Ctx.image (x : Ctx) : List Nat :=
  (List.range 16).map (fun w =>
    let v := x.word w
    if w = 0 then
      putBits (putBits (putBits v 2 1 (b2n x.valid)) 3 3 x.state.code) 20 12 x.ownerGen
    else if w = 11 then putBits v 16 2 x.nvt.code
    else v)

/-- CTX_MODIFY (spec/15 R453): INVALID for a state the table does not list. -/
def State.ctxModify (s : State) (f c : Nat) : State :=
  let x := s.ctx c
  let t := bitsOf (s.stoArg f 0) 0 3
  if x.kind = .nvt then s.endSto f 2
  else
    match x.state, t with
    | .init, 2 => (s.setCtx c { x with state := .rtr }).endSto f 0
    | .rtr, 3 => (s.setCtx c { x with state := .rts }).endSto f 0
    | .init, 4 => (s.ctxToError c).endSto f 0
    | .rtr, 4 => (s.ctxToError c).endSto f 0
    | .rts, 4 => (s.ctxToError c).endSto f 0
    | .error, 0 =>
      if (match x.sq with | some q => decide ((s.queue q).items ≠ []) | none => false) then s.endSto f 1
      else (s.setCtx c { x with state := .reset }).endSto f 0
    | .reset, 1 =>
      let a := bitsOf (x.word 4) 0 24
      (s.setCtx c { x with state := .init, sPsn := a, sendAt := a, unack := a, ePsn := bitsOf (x.word 5) 0 24, msn := 0
                           retries := 0, rnrs := 0, nakSent := false }).endSto f 0
    | _, _ => s.endSto f 2

/-- CTX_DESTROY: a context of RC or UD in RESET or ERROR, or of NVMe/TCP, with no outstanding item (log 21). -/
def State.ctxDestroy (s : State) (f c : Nat) : State :=
  let x := s.ctx c
  let idle := match x.sq with | some q => decide ((s.queue q).items = []) | none => true
  let ok := x.kind = .nvt || x.state = .reset || x.state = .error || !s.ctxLive x
  if !ok || !idle then s.endSto f 1
  else ({ s.withdrawCtx c with sto := { (s.withdrawCtx c).sto with
      ctxs := mapErase (s.withdrawCtx c).sto.ctxs c, cache := (s.withdrawCtx c).sto.cache.filter (· ≠ c) } }).endSto f 0

/-- The key that argument words spell. -/
def State.keyArg (s : State) (f : Nat) : MemKey :=
  let w4 := s.stoArg f 4
  let i := bitsOf w4 0 12
  { iova := s.stoArg f 0 + 2 ^ 32 * s.stoArg f 1, len := s.stoArg f 2 + 2 ^ 32 * bitsOf (s.stoArg f 3) 0 16
    owner := i, ownerGen := (s.inst i).gen, valid := true, remWrite := bitOf w4 13, remRead := bitOf w4 14
    ats := bitOf w4 15, pasid := if bitOf w4 16 then some (bitsOf (s.stoArg f 5) 0 20) else none
    variant := bitsOf w4 17 8, pd := bitsOf (s.stoArg f 6) 0 20 }

/-- KEY_WRITE. -/
def State.keyWrite (s : State) (m : Master) (f k : Nat) : State :=
  let n := s.keyArg f
  let old := mapGet ({} : MemKey) s.sto.keys k
  if 2051 < n.owner then s.endSto f 2
  else if !s.stoOnFace m f n.owner then s.endSto f 3
  else if s.keyLive old && old.owner ≠ n.owner then s.endSto f 6
  else if n.len = 0 then s.endSto f 2
  else if 2048 * (s.inst n.owner).grant.qpUnits < s.keysOf n.owner k + 1 then s.endSto f 4
  else ({ s with sto := { s.sto with keys := mapSet {} s.sto.keys k n } }).endSto f 0

/-- KEY_DELETE. -/
def State.keyDelete (s : State) (m : Master) (f k : Nat) : State :=
  let old := mapGet ({} : MemKey) s.sto.keys k
  if !old.valid then s.endSto f 5
  else if !s.stoOnFace m f old.owner then s.endSto f 3
  else ({ s with sto := { s.sto with keys := mapErase s.sto.keys k } }).endSto f 0

/-- PATH_WRITE. -/
def State.pathWrite (s : State) (m : Master) (f p : Nat) : State :=
  let ws := (List.range 16).map (fun w => s.stoArg f w)
  let i := bitsOf (ix ws 12) 0 12
  let old := s.path p
  if 65536 ≤ p || 2051 < i then s.endSto f 2
  else if !s.stoOnFace m f i then s.endSto f 3
  else if s.pathLive old && old.owner ≠ i then s.endSto f 6
  else
    let n : PathEntry := { words := ws, ownerGen := (s.inst i).gen, valid := true }
    ({ s with sto := { s.sto with paths := mapSet {} s.sto.paths p n } }).endSto f 0

/-- CONN_RESYNC (spec/15 R471, R482). -/
def State.connResync (s : State) (f c : Nat) : State :=
  let x := s.ctx c
  if x.kind ≠ .nvt || x.nvt ≠ .resync then s.endSto f 2
  else (s.setCtx c { x with resync := some (s.stoArg f 0) }).endSto f 0

/-- A write to STO_CMD of set f (spec/15 R482): the fifth set is firmware's. -/
def State.stoCommand (m : Master) (f op index : Nat) : Eff := fun s =>
  if 5 ≤ f || (f = 4 && !m.isFw) || (s.sto.sets.getD f {}).busy then (s, false)
  else
    let x := s.ctx index
    let onCtx (g : State) : State :=
      if 1048576 ≤ index then s.endSto f 2
      else if !x.valid then s.endSto f 5
      else if !s.stoOnFace m f x.owner then s.endSto f 3
      else g
    let live (g : State) : State := onCtx (if s.ctxLive x then g else s.endSto f 5)
    (if !s.ready 16 then s.endSto f 1
     else
       match op with
       | 1 => if 1048576 ≤ index then s.endSto f 2 else s.ctxWrite m f index
       | 2 => onCtx (((List.range 16).foldl (fun t w => t.setWord Reg.stoCmdArg [f, w] (ix x.image w)) s).endSto f 0)
       | 3 => live (s.ctxModify f index)
       | 4 => onCtx (s.ctxDestroy f index)
       | 5 => s.keyWrite m f (index % 2097152)
       | 6 => s.keyDelete m f (index % 2097152)
       | 7 => s.pathWrite m f index
       | 8 => live (s.connResync f index)
       | _ => s.endSto f 2, true)

/-! ### Packets on the wire (spec/15 R457; the field places of the BTH and its extended headers and the cover of the ICRC
are the InfiniBand Architecture Specification's, PRESUMED, log 22) -/

/-- The invariant CRC of a RoCEv2 packet from its IP header on, with its masked fields as ones. -/
def icrcOf (v6 : Bool) (pkt : List Byte) : List Byte :=
  let ihl := if v6 then 40 else beAt pkt 0 1 % 16 * 4
  let one (bs : List Byte) (o : Nat) : List Byte := patchAt bs o [0xFF]
  let m :=
    if v6 then
      let b := putBe pkt 0 4 (0x6FFFFFFF : Nat)
      one b 7
    else one (one (one (one pkt 1) 8) 10) 11
  let m := one (one m (ihl + 6)) (ihl + 7)
  let m := one m (ihl + 12)
  toLe 4 (crc32 (List.replicate 8 0xFF ++ m))

/-- A base transport header: opcode, SE, pad count, destination QPN, AckReq, PSN; `resv` is its reserved byte. -/
def bth (op : Nat) (se : Bool) (pad : Nat) (resv dest : Nat) (ack : Bool) (psn : Nat) : List Byte :=
  toBe 1 op ++ toBe 1 (b2n se * 128 + 64 + pad * 16) ++ toBe 2 0xFFFF ++ toBe 1 resv ++ toBe 3 dest
    ++ toBe 1 (b2n ack * 128) ++ toBe 3 psn

/-- Path address bytes: words from w, n bytes. -/
def PathEntry.addr (p : PathEntry) (w n : Nat) : List Byte := ((List.range 4).flatMap (fun i => toLe 4 (p.word (w + i)))).take n

/-- A whole RoCEv2 frame of context c to QPN `dest` over a path, from its BTH and what follows (spec/15 R457). -/
def roceFrame (c dest : Nat) (cc : Bool) (p : PathEntry) (body : List Byte) : List Byte :=
  let macs := toLe 4 (p.word 0) ++ toLe 2 (bitsOf (p.word 1) 0 16) ++ toLe 2 (bitsOf (p.word 1) 16 16) ++ toLe 4 (p.word 2)
  let w3 := p.word 3
  let v6 := bitOf w3 0
  let tag := if bitOf w3 1 then toBe 2 0x8100 ++ toBe 2 (bitsOf w3 16 16) else []
  let tos := bitsOf w3 2 6 * 4 + (if cc then 2 else 0)
  let ttl := bitsOf w3 8 8
  let ulen := 8 + body.length + 4
  let udp := toBe 2 (0xC000 + Nat.xor (c % 2 ^ 14) (dest % 2 ^ 14)) ++ toBe 2 4791 ++ toBe 2 ulen ++ toBe 2 0
  let ip :=
    if v6 then
      toBe 4 (6 * 2 ^ 28 + tos * 2 ^ 20) ++ toBe 2 ulen ++ toBe 1 17 ++ toBe 1 ttl ++ p.addr 4 16 ++ p.addr 8 16
    else
      let h := toBe 1 0x45 ++ toBe 1 tos ++ toBe 2 (20 + ulen) ++ toBe 2 0 ++ toBe 2 0x4000 ++ toBe 1 ttl ++ toBe 1 17 ++ toBe 2 0
        ++ p.addr 4 4 ++ p.addr 8 4
      putBe h 10 2 (inetChecksum 0 h)
  let l3 := ip ++ udp ++ body
  macs ++ tag ++ toBe 2 (if v6 then 0x86DD else 0x0800) ++ l3 ++ icrcOf v6 l3

/-- Hand a packet of a context to course admission (spec/15 R457). -/
def State.handSto (s : State) (c path dest : Nat) (body : List Byte) : State :=
  let x := s.ctx c
  let link := match x.sq with | some q => (s.queue q).ctx.link | none => 0
  let bs := roceFrame c dest x.ccEn (s.path path) body
  ((s.newPkt (s.htxPacket x.owner link x.course 0 false bs)).2).count (stoCounter 1) 1

/-- An ACK or NAK (spec/15 R460): the AETH syndrome, and the message sequence number. -/
def State.sendAck (s : State) (c syndrome psn : Nat) : State :=
  let x := s.ctx c
  s.handSto c x.path x.destQpn (bth 0x11 false 0 0 x.destQpn false psn ++ toBe 1 syndrome ++ toBe 3 x.msn)

/-- A NAK, counted (spec/15 R483). -/
def State.sendNak (s : State) (c syndrome psn : Nat) : State :=
  (s.sendAck c syndrome psn).count (stoCounter (if syndrome / 32 = 1 then 4 else 3)) 1

/-! ### The requester (spec/15 R455, R458, R461) -/

/-- The bytes from `off` on of a list of segments: the pieces that hold `n` bytes. -/
def segRange : Nat → Nat → List (Nat × Nat) → List (Nat × Nat)
  | _, _, [] => []
  | off, n, (a, l) :: gs =>
    if n = 0 then []
    else if l ≤ off then segRange (off - l) n gs
    else
      let m := min n (l - off)
      (a + off, m) :: segRange 0 (n - m) gs

/-- Word w of a work request's descriptor. -/
def descWord (d : List Byte) (o : Nat) : Nat := leAt d o 4

/-- The message that an item asks for (spec/15 R455). -/
def stoMsgOf (kind : CtxKind) (mtu : Nat) (i : TxItem) : StoMsg :=
  let d := i.head
  let segs := i.segs.map (fun g => (g.1, g.2.1))
  let len := (segs.map (fun g => g.2)).sum
  { first := i.first, op := descOp d, se := bitOf (descWord d 8) 27, fence := bitOf (descWord d 8) 28, imm := descWord d 0x10
    rkey := descWord d 0x14
    raddr := if kind = .ud then bitsOf (descWord d 0x18) 0 24 else descWord d 0x18 + 2 ^ 32 * descWord d 0x1C
    path := bitsOf (descWord d 0x1C) 0 16, segs, len, pkts := max 1 (ceilDiv len mtu), cookie := descCookie d, span := i.descs.length }

/-- The BTH opcode of packet j of n of an RC message (InfiniBand, log 22). -/
def rcOpcode (op j n : Nat) : Nat :=
  let last := j + 1 = n
  match op with
  | 0 => if n = 1 then 0x04 else if j = 0 then 0x00 else if last then 0x02 else 0x01
  | 1 => if n = 1 then 0x05 else if j = 0 then 0x00 else if last then 0x03 else 0x01
  | 2 => if n = 1 then 0x0A else if j = 0 then 0x06 else if last then 0x08 else 0x07
  | 3 => if n = 1 then 0x0B else if j = 0 then 0x06 else if last then 0x09 else 0x07
  | _ => 0x0C

/-- A RETH. -/
def reth (addr key len : Nat) : List Byte := toBe 8 addr ++ toBe 4 key ++ toBe 4 len

/-- Packet j of a requester's message of an RC context. -/
def rcPacket (x : Ctx) (m : StoMsg) (j : Nat) (again : Bool) : StoOut × List (Nat × Nat) :=
  let mtu := x.mtu
  let psn := add24 (m.psn.getD 0) j
  let base : StoOut := { num := x.nextNum, psn, op := rcOpcode m.op j m.pkts, path := x.path, dest := x.destQpn, again }
  if m.op = 4 then
    ({ base with ackReq := true, se := m.se, ext := reth (m.raddr + j * mtu) m.rkey (m.len - j * mtu) }, [])
  else
    let last := j + 1 = m.pkts
    let n := if last then m.len - j * mtu else mtu
    let imm := if last && (m.op = 1 || m.op = 3) then toBe 4 m.imm else []
    let rh := if j = 0 && (m.op = 2 || m.op = 3) then reth m.raddr m.rkey m.len else []
    ({ base with se := m.se && last, ackReq := last || (j + 1) % 16 = 0, ext := rh ++ imm, data := List.replicate n 0 },
      segRange (j * mtu) n m.segs)

/-- Read the payload of a packet under preparation and keep it until it is whole. -/
def State.prepare (s : State) (c : Nat) (o : StoOut) (segs : List (Nat × Nat)) (ats : Bool) (pasid : Option Nat) : State :=
  let x := s.ctx c
  let link := match x.sq with | some q => (s.queue q).ctx.link | none => 0
  let f := (s.instFace x.owner).getD 0
  let k := instFn x.owner link
  let offs := segs.foldl (fun (acc : List (Nat × Nat × Nat) × Nat) g => (acc.1 ++ [(g.1, g.2, acc.2)], acc.2 + g.2)) ([], 0)
  let ps := offs.1.flatMap (fun g => (pieces (s.mrrs k) g.1 g.2.1).map (fun q => (q.1, q.2, g.2.2 + (q.1 - g.1))))
  let s := ps.foldl (fun t q =>
    t.askRead { id := 0, req := .sto c o.num q.2.2, face := f, link, pool := .htx, fn := k, inst := x.owner, gen := x.ownerGen
                addr := q.1, len := q.2.1, ats, pasid }) s
  let x := s.ctx c
  s.setCtx c { x with nextNum := x.nextNum + 1, outs := x.outs ++ [{ o with reads := ps.length }] }

/-- Translation of a bound transmit queue's own addresses. -/
def State.sqAts (s : State) (x : Ctx) : Bool × Option Nat :=
  match x.sq with | some q => ((s.queue q).ctx.ats, (s.queue q).ctx.pasid) | none => (false, none)

/-- Take the next item of a bound transmit queue as a message (spec/15 R453, R455). -/
def State.takeMsg (s : State) (c : Nat) : State :=
  let x := s.ctx c
  match x.sq with
  | none => s
  | some q =>
    match (s.queue q).nextItem with
    | none => s
    | some i =>
      let m := stoMsgOf x.kind x.mtu i
      let m := if x.kind = .ud then { m with pkts := 1 } else m
      (s.setItem q { i with phase := .handed, toAdmit := 1 }).setCtx c { x with msgs := x.msgs ++ [m] }

/-- READs of a context that are not complete. -/
def Ctx.openReads (x : Ctx) : Nat := (x.msgs.filter (fun m => m.op = 4 && m.psn.isSome)).length

/-- The message that holds a PSN. -/
def Ctx.msgAt (x : Ctx) (psn : Nat) : Option StoMsg :=
  x.msgs.find? (fun m => match m.psn with | some p => decide (sub24 psn p < m.pkts) | none => false)

/-- The state with a message of a context changed. -/
def Ctx.updMsg (x : Ctx) (first : Nat) (f : StoMsg → StoMsg) : Ctx :=
  { x with msgs := x.msgs.map (fun m => if m.first = first then f m else m) }

/-- Prepare the requester's next packet: one to be sent again, or the next of the oldest message with unsent packets. -/
def State.prepareNext (s : State) (c : Nat) : State :=
  let x := s.ctx c
  let at_ := s.sqAts x
  if x.kind = .ud then
    match x.msgs with
    | [] => s
    | m :: ms =>
      let deth := toBe 4 m.rkey ++ toBe 4 c
      let o : StoOut :=
        { num := x.nextNum, psn := x.sPsn, op := if m.op = 1 then 0x65 else 0x64, se := m.se
          ext := deth ++ (if m.op = 1 then toBe 4 m.imm else []), data := List.replicate m.len 0, path := m.path, dest := m.raddr
          item := some m.first }
      (s.setCtx c { x with msgs := ms, sPsn := add24 x.sPsn 1 }).prepare c o m.segs at_.1 at_.2
  else if x.sendAt ≠ x.sPsn then
    match x.msgAt x.sendAt with
    | none => s.setCtx c { x with sendAt := x.sPsn }
    | some m =>
      let j := if m.op = 4 then max m.got (sub24 x.sendAt (m.psn.getD 0)) else sub24 x.sendAt (m.psn.getD 0)
      let r := rcPacket x m j true
      let next := if m.op = 4 then add24 (m.psn.getD 0) m.pkts else add24 x.sendAt 1
      (s.setCtx c { x with sendAt := next }).prepare c r.1 r.2 at_.1 at_.2
  else if 4096 ≤ sub24 x.sPsn x.unack then s
  else
    match x.msgs.find? (fun m => match m.psn with | none => true | some p => decide (sub24 x.sPsn p < m.pkts) && m.op ≠ 4) with
    | none => s
    | some m =>
      if m.psn.isNone && ((m.fence && decide (0 < x.openReads))
          || (m.op = 4 && decide (bitsOf (x.word 4) 24 4 + 1 ≤ x.openReads))) then s
      else
        let m := { m with psn := some (m.psn.getD x.sPsn) }
        let j := sub24 x.sPsn (m.psn.getD 0)
        let r := rcPacket x m j false
        let step := if m.op = 4 then m.pkts else 1
        let y := x.updMsg m.first (fun _ => m)
        (s.setCtx c { y with sPsn := add24 x.sPsn step, sendAt := add24 x.sPsn step }).prepare c r.1 r.2 at_.1 at_.2

/-- Prepare the next packet of the oldest READ held as responder (spec/15 R451, R460). -/
def State.prepareResp (s : State) (c : Nat) : State :=
  let x := s.ctx c
  match x.reads with
  | [] => s
  | r :: rs =>
    let n := max 1 (ceilDiv r.len x.mtu)
    let j := r.sent
    let op := if n = 1 then 0x10 else if j = 0 then 0x0D else if j + 1 = n then 0x0F else 0x0E
    let len := if j + 1 = n then r.len - j * x.mtu else x.mtu
    let o : StoOut :=
      { num := x.nextNum, psn := add24 r.psn j, op, ext := if op = 0x0E then [] else toBe 1 0x1F ++ toBe 3 x.msn
        data := List.replicate len 0, path := x.path, dest := x.destQpn, resp := true }
    let rs' := if j + 1 = n then rs else { r with sent := j + 1 } :: rs
    (s.setCtx c { x with reads := rs' }).prepare c o [(r.addr + j * x.mtu, len)] r.ats r.pasid

/-- Hand in a packet whose payload has been read (spec/15 R457, R461, R467). -/
def State.handOut (s : State) (c : Nat) (o : StoOut) : State :=
  let x := s.ctx c
  let pad := (4 - o.data.length % 4) % 4
  let body := bth o.op o.se pad 0 o.dest o.ackReq o.psn ++ o.ext ++ o.data ++ List.replicate pad 0
  let s := s.handSto c o.path o.dest body
  let s := if o.again then s.count (stoCounter 2) 1 else s
  let x := { x with outs := x.outs.filter (fun q => decide (q.num ≠ o.num)) }
  let t := bitsOf (x.word 2) 19 5
  let x := if x.kind = .rc && !o.resp && t ≠ 0 then { x with ackEnd := some (s.now + 4096 * 2 ^ t) } else x
  let x :=
    if x.ccEn then
      let from_ : Rat := if x.nextSend < (s.now : Rat) then (s.now : Rat) else x.nextSend
      { x with incrBytes := x.incrBytes + o.data.length
               nextSend := if x.rc = 0 then from_ else from_ + (body.length : Rat) * 8000 / x.rc }
    else x
  let s := s.setCtx c x
  match o.item with
  | some first => s.endMsg x first 0 1
  | none => s

/-- STO_SEND: the engine hands in the oldest prepared packet when its payload is there and Rc allows it; otherwise it
takes or prepares the next one (spec/15 R455, R458, R467). -/
def State.stoSend (s : State) (c : Nat) : State :=
  let x := s.ctx c
  if !s.ctxLive x || !s.ready 13 || x.kind = .nvt || !(x.state = .rtr || x.state = .rts) then s
  else
    let s := s.touchCtx c
    match x.outs with
    | o :: _ =>
      if o.reads = 0 then (if x.ccEn && (s.now : Rat) < x.nextSend then s else s.handOut c o)
      else s
    | [] =>
      if x.reads ≠ [] then s.prepareResp c
      else if x.state ≠ .rts || x.rnrEnd.isSome then s
      else
        let s := if x.msgs.all (fun m => m.psn.isSome) then s.takeMsg c else s
        s.prepareNext c

/-- Payload of a prepared packet has arrived. -/
def State.stoRead (s : State) (c num off : Nat) (bs : List Byte) : State :=
  let x := s.ctx c
  s.setCtx c { x with outs := x.outs.map (fun o =>
    if o.num = num then { o with data := patchAt o.data off bs, reads := o.reads - 1 } else o) }

/-- A payload read has failed (spec/15 R470, spec/07 R226): a requester's item completes with the read's error and its
queue enters ERROR; a responder answers as for a failed host write (log 21). -/
def State.stoReadFailed (s : State) (c num : Nat) (e : ReadEnd) : State :=
  let x := s.ctx c
  match x.outs.find? (fun o => decide (o.num = num)) with
  | none => s
  | some o =>
    if o.resp then (s.sendNak c 0x63 x.ePsn).teardown c none
    else
      let first := match o.item with | some i => some i | none => (x.msgAt o.psn).map (fun m => m.first)
      let s := match first with | some i => s.endMsg x i e.status 0 | none => s
      match x.sq with
      | some q => (s.queueError q (e.status - 2)).teardown c none
      | none => s.teardown c none

/-! ### Acknowledgements (spec/15 R461) -/

/-- Drop the requester's prepared packets: they are prepared again from the PSN that is resent. -/
def State.dropOuts (s : State) (c : Nat) : State :=
  let x := s.ctx c
  let gone := (x.outs.filter (fun o => !o.resp)).map (fun o => o.num)
  let f := (s.instFace x.owner).getD 0
  let s := s.withdrawReads f (fun r => match r.req with | .sto d n _ => decide (d = c) && gone.contains n | _ => false)
  let x := s.ctx c
  s.setCtx c { x with outs := x.outs.filter (fun o => o.resp) }

/-- Resend from a PSN. -/
def State.resendFrom (s : State) (c psn : Nat) : State :=
  let s := s.dropOuts c
  s.setCtx c { s.ctx c with sendAt := psn }

/-- A message is complete: its item's entry may go (spec/15 R465). -/
def State.finishMsg (s : State) (c : Nat) (m : StoMsg) : State :=
  let x := s.ctx c
  (s.setCtx c { x with msgs := x.msgs.filter (fun q => decide (q.first ≠ m.first)) }).endMsg x m.first 0 m.pkts

/-- A READ is complete once all its response bytes are placed. -/
def State.checkRead (s : State) (c first : Nat) : State :=
  let x := s.ctx c
  match x.msgs.find? (fun m => decide (m.first = first)) with
  | none => s
  | some m =>
    if m.op = 4 && m.got = m.pkts && !x.placing.any (fun p => decide (p.item = some first)) then s.finishMsg c m else s

/-- Everything before PSN a is acknowledged, up to the first READ response still missing. -/
def State.ackTo (s : State) (c a : Nat) : State :=
  let x := s.ctx c
  let cap := (x.msgs.filter (fun m => m.op = 4 && m.psn.isSome && decide (m.got < m.pkts))).foldl (fun n m =>
    min n (sub24 (add24 (m.psn.getD 0) m.got) x.unack)) (sub24 x.sPsn x.unack)
  let n := min (sub24 a x.unack) cap
  if sub24 x.sPsn x.unack < sub24 a x.unack || n = 0 then s
  else
    let u := add24 x.unack n
    let at_ := if sub24 x.sendAt x.unack < n then u else x.sendAt
    let s := s.setCtx c { x with unack := u, sendAt := at_, retries := 0, rnrs := 0
                                 ackEnd := if u = x.sPsn then none else x.ackEnd }
    let done := x.msgs.filter (fun m =>
      m.op ≠ 4 && m.psn.isSome && decide (sub24 (m.psn.getD 0) x.unack + m.pkts ≤ n
        || (sub24 x.unack (m.psn.getD 0) < m.pkts && m.pkts - sub24 x.unack (m.psn.getD 0) ≤ n)))
    done.foldl (fun t m => t.finishMsg c m) s

/-- Ticks of an RNR timer code (InfiniBand, log 22), in units of 10,000 ticks. -/
def rnrTicks (code : Nat) : Nat :=
  10000 * ix [65536, 1, 2, 3, 4, 6, 8, 12, 16, 24, 32, 48, 64, 96, 128, 192, 256, 384, 512, 768, 1024, 1536, 2048, 3072, 4096,
    6144, 8192, 12288, 16384, 24576, 32768, 49152] (code % 32)

/-- An ACK or NAK is taken (spec/15 R461, R470). -/
def State.takeAck (s : State) (c psn syndrome : Nat) : State :=
  let x := s.ctx c
  if sub24 x.sPsn x.unack ≤ sub24 psn x.unack then s
  else if syndrome < 32 then s.ackTo c (add24 psn 1)
  else
    let s := s.ackTo c psn
    let x := s.ctx c
    let first := (x.msgAt psn).map (fun m => m.first)
    if syndrome / 32 = 1 then
      let lim := bitsOf (x.word 2) 27 3
      if lim ≠ 7 && lim ≤ x.rnrs then s.teardown c (first.map (fun i => (i, 0x22)))
      else
        let s := s.resendFrom c psn
        let x := s.ctx c
        s.setCtx c { x with rnrs := x.rnrs + 1, rnrEnd := some (s.now + rnrTicks syndrome), ackEnd := none }
    else
      match syndrome % 32 with
      | 0 => s.resendFrom c psn
      | 1 => s.teardown c (first.map (fun i => (i, 0x24)))
      | 2 => s.teardown c (first.map (fun i => (i, 0x23)))
      | 3 => s.teardown c (first.map (fun i => (i, 0x25)))
      | _ => s

/-- ACK_TIMER_EXPIRY (spec/15 R461). -/
def State.ackExpiry (s : State) (c : Nat) : State :=
  let x := s.ctx c
  match x.ackEnd with
  | none => s
  | some t =>
    if s.now < t || !s.ctxLive x || x.unack = x.sPsn then s
    else if bitsOf (x.word 2) 24 3 ≤ x.retries then s.teardown c ((x.msgAt x.unack).map (fun m => (m.first, 0x21)))
    else
      let s := s.resendFrom c x.unack
      let x := s.ctx c
      s.setCtx c { x with retries := x.retries + 1, ackEnd := none }

/-- RNR_WAIT_END (spec/15 R461). -/
def State.rnrExpiry (s : State) (c : Nat) : State :=
  let x := s.ctx c
  match x.rnrEnd with
  | none => s
  | some t => if s.now < t then s else s.setCtx c { x with rnrEnd := none }

/-- DELAYED_ACK: 2 µs after the last unacknowledged packet (spec/15 R460). -/
def State.delayExpiry (s : State) (c : Nat) : State :=
  let x := s.ctx c
  match x.delayEnd with
  | none => s
  | some t =>
    if s.now < t || !s.ctxLive x then s
    else (s.setCtx c { x with delayEnd := none }).sendAck c 0x1F (sub24 x.ePsn 1)

/-! ### The responder (spec/15 R460-R464) -/

/-- Translation and link of a bound receive queue. -/
def State.rqCtx (s : State) (x : Ctx) : QCtx := match x.rq with | some q => (s.queue (queueKey true q)).ctx | none => {}

/-- Write bytes of a context to host memory; what they end is noted (spec/15, opening). -/
def State.putSto (s : State) (c : Nat) (parts : List (Nat × List Byte)) (ats : Bool) (pasid : Option Nat) (link : Nat)
    (p : StoPlace) : State :=
  let x := s.ctx c
  let f := (s.instFace x.owner).getD 0
  let s := s.askWrite f link 3
    { work := .sto c x.nextNum, fn := instFn x.owner link, inst := x.owner, gen := x.ownerGen, parts, ats, pasid }
  s.setCtx c { x with nextNum := x.nextNum + 1, placing := x.placing ++ [{ p with num := x.nextNum }] }

/-- Buffers with room for n more bytes after `used` bytes: the bytes of a descriptor. -/
def bufBytes (stream : Bool) (d : List Byte) : Nat := if stream then 4096 * descLen d else descLen d

/-- Take fetched descriptors of a receive queue until the buffers hold `need` bytes; none where too few are fetched,
`false` where max_bufs do not do. -/
def takeBufs (stream : Bool) (limit : Nat) : Nat → Nat → List (Nat × Nat) → List Fetched → Option (List (Nat × Nat) × List Fetched) × Bool
  | 0, _, _, _ => (none, true)
  | fuel + 1, need, bufs, held =>
    if need ≤ (bufs.map (fun b => b.2)).sum then (some (bufs, held), true)
    else if limit ≤ bufs.length then (none, false)
    else
      match held with
      | [] => (none, true)
      | h :: hs =>
        match h.bytes with
        | none => (none, true)
        | some d => takeBufs stream limit fuel need (bufs ++ [(descAddr d, bufBytes stream d)]) hs

/-- Completion entry of a message (spec/15 R465). -/
def State.msgEntry (s : State) (x : Ctx) (r : StoRx) (cls imm place src : Nat) : CqEntry :=
  { cookie := r.cookie, count := r.count, queue := (x.rq.getD 0), rx := true, cls, bytes := r.bytes, w10 := imm, place, src
    inst := x.owner, gen := (s.inst x.owner).gen }

/-- What executing a request packet leads to. -/
inductive RxDo where
  | done
  | rnr
  | nak (code : Nat) (down : Option Nat)
  deriving DecidableEq, Repr

/-- A SEND packet: its data goes to the next bytes of the message's buffers (spec/15 R460, R463). -/
def State.execSend (s : State) (c : Nat) (start last : Bool) (imm : Option Nat) (data : List Byte) : State × RxDo :=
  let x := s.ctx c
  let r0 : StoRx := if start then { op := 0 } else x.rxMsg.getD { op := 0 }
  match x.rq with
  | none => (s, .rnr)
  | some q =>
    let k := queueKey true q
    let qu := s.queue k
    let b := takeBufs qu.ctx.stream qu.ctx.maxBufs 70 (r0.bytes + data.length) r0.bufs qu.held
    match b with
    | (none, true) => (s, .rnr)
    | (none, false) => (s, .nak 0x61 (some 0x27))
    | (some (bufs, held), _) =>
      if qu.state ≠ .running then (s, .rnr)
      else
        let h := qu.held.headD { count := 0 }
        let r := { r0 with
          bytes := r0.bytes + data.length, bufs
          cookie := if r0.bufs = [] then descCookie (h.bytes.getD []) else r0.cookie
          count := if r0.bufs = [] then h.count else r0.count }
        let s := s.setQueue k { qu with held }
        let parts := writeParts (segRange r0.bytes data.length bufs) data
        let entry := if last then some (s.msgEntry x r (if imm.isSome then 1 else 0) (imm.getD 0) bufs.length 0) else none
        let s := s.setCtx c { x with rxMsg := if last then none else some r }
        (s.putSto c parts qu.ctx.ats qu.ctx.pasid qu.ctx.link { num := 0, entry, bytes := data.length }, .done)

/-- The key that a RETH names allows an access of a context (spec/15 R463). -/
def State.keyAllows (s : State) (x : Ctx) (rkey addr len : Nat) (write : Bool) : Option MemKey :=
  let k := mapGet ({} : MemKey) s.sto.keys (rkey / 256)
  if s.keyLive k && k.variant = rkey % 256 && k.owner = x.owner && k.pd = x.pd
      && (if write then k.remWrite && bitOf (x.word 7) 20 else k.remRead && bitOf (x.word 7) 21)
      && decide (k.iova ≤ addr) && decide (addr + len ≤ k.iova + k.len) then some k else none

/-- A WRITE packet. -/
def State.execWrite (s : State) (c : Nat) (rh : Option (Nat × Nat × Nat)) (last : Bool) (imm : Option Nat) (data : List Byte) :
    State × RxDo :=
  let x := s.ctx c
  let r0 : Option StoRx :=
    match rh with
    | some (addr, key, len) =>
      (s.keyAllows x key addr len true).map (fun k => { op := 2, addr, left := len, ats := k.ats, pasid := k.pasid })
    | none => x.rxMsg
  match r0 with
  | none => (s, .nak 0x62 none)
  | some r =>
    if r.left < data.length then (s, .nak 0x61 (some 0x27))
    else
      let r' := { r with bytes := r.bytes + data.length, addr := r.addr + data.length, left := r.left - data.length }
      let link := (s.rqCtx x).link
      let place (t : State) (e : Option CqEntry) : State :=
        ((t.setCtx c { t.ctx c with rxMsg := if last then none else some r' }).putSto c [(r.addr, data)] r.ats r.pasid link
          { num := 0, entry := e, bytes := data.length })
      match imm with
      | none => (place s none, .done)
      | some v =>
        match x.rq with
        | none => (s, .rnr)
        | some q =>
          let k := queueKey true q
          let qu := s.queue k
          match qu.held with
          | [] => (s, .rnr)
          | h :: hs =>
            match h.bytes with
            | none => (s, .rnr)
            | some d =>
              let e := s.msgEntry x { r' with cookie := descCookie d, count := h.count } 3 v 1 0
              (place (s.setQueue k { qu with held := hs }) (some e), .done)

/-- A READ request: it is held and its responses are sent in their turn (spec/15 R460, R463); one beyond those that
max_dest_rd_m1 lets the responder hold is an invalid request (spec/15 R451; log 22). -/
def State.execRead (s : State) (c psn : Nat) (rh : Nat × Nat × Nat) : State × RxDo :=
  let x := s.ctx c
  if bitsOf (x.word 5) 24 4 + 1 ≤ x.reads.length then (s, .nak 0x61 (some 0x24))
  else
  match s.keyAllows x rh.2.1 rh.1 rh.2.2 false with
  | none => (s, .nak 0x62 none)
  | some k =>
    (s.setCtx c { x with reads := x.reads ++ [{ psn, addr := rh.1, len := rh.2.2, ats := k.ats, pasid := k.pasid }] }, .done)

/-- The parts of a received RoCEv2 packet. -/
structure RoceIn where
  /-- Opcode. -/
  op : Nat
  /-- Destination QPN. -/
  dest : Nat
  /-- PSN. -/
  psn : Nat
  /-- AckReq. -/
  ack : Bool
  /-- The bytes after the BTH, without padding and ICRC. -/
  rest : List Byte
  /-- The packet carries CE. -/
  ce : Bool
  deriving DecidableEq, Repr

/-- The RETH at the front of some bytes. -/
def rethOf (bs : List Byte) : Nat × Nat × Nat := (beAt bs 0 8, beAt bs 8 4, beAt bs 12 4)

/-- Execute the request packet with the expected PSN; `none` for an opcode the device does not support. -/
def State.execRequest (s : State) (c : Nat) (r : RoceIn) : Option (State × RxDo × Nat × Bool) :=
  let d := r.rest
  let one (q : State × RxDo) (last : Bool) : Option (State × RxDo × Nat × Bool) := some (q.1, q.2, 1, last)
  let x := s.ctx c
  match r.op with
  | 0x00 => one (s.execSend c true false none d) false
  | 0x01 => one (s.execSend c false false none d) false
  | 0x02 => one (s.execSend c false true none d) true
  | 0x03 => one (s.execSend c false true (some (beAt d 0 4)) (d.drop 4)) true
  | 0x04 => one (s.execSend c true true none d) true
  | 0x05 => one (s.execSend c true true (some (beAt d 0 4)) (d.drop 4)) true
  | 0x06 => one (s.execWrite c (some (rethOf d)) false none (d.drop 16)) false
  | 0x07 => one (s.execWrite c none false none d) false
  | 0x08 => one (s.execWrite c none true none d) true
  | 0x09 => one (s.execWrite c none true (some (beAt d 0 4)) (d.drop 4)) true
  | 0x0A => one (s.execWrite c (some (rethOf d)) true none (d.drop 16)) true
  | 0x0B => one (s.execWrite c (some (rethOf d)) true (some (beAt d 16 4)) (d.drop 20)) true
  | 0x0C =>
    let q := s.execRead c r.psn (rethOf d)
    some (q.1, q.2, max 1 (ceilDiv (rethOf d).2.2 x.mtu), true)
  | _ => none

/-- Discard a packet with a reason of the engine (spec/15 R479, R483). -/
def State.stoDrop (s : State) (p r : Nat) : State :=
  match s.pkt p with
  | none => s
  | some x =>
    let s := if 0x70 ≤ r && r ≤ 0x77 then s.count (stoCounter 7) 1 else s
    (s.setPkt p { x with mark := x.mark.dropLate r }).dropPkt p

/-- A taken packet ends at the engine (spec/15 R459). -/
def State.stoTaken (s : State) (p : Nat) : State := (s.count (stoCounter 0) 1).dropPkt p

/-- The responder handles a request packet by its PSN (spec/15 R460). -/
def State.respond (s : State) (c p : Nat) (r : RoceIn) : State :=
  let x := s.ctx c
  let d := sub24 r.psn x.ePsn
  if d = 0 then
    match s.execRequest c r with
    | none => ((s.sendNak c 0x61 r.psn).teardown c none).stoTaken p
    | some (_, .rnr, _, _) => (s.sendNak c (32 + bitsOf (x.word 3) 24 5) r.psn).stoDrop p 0x72
    | some (_, .nak code down, _, _) =>
      let s := s.sendNak c code r.psn
      (match down with | some _ => s.teardown c none | none => s).stoDrop p 0x72
    | some (t, .done, n, last) =>
      let y := t.ctx c
      let t := t.setCtx c { y with
        ePsn := add24 r.psn n, nakSent := false, msn := if last then add24 y.msn 1 else y.msn
        delayEnd := if r.ack || r.op = 0x0C then none else some (t.now + 2000) }
      (if r.ack && r.op ≠ 0x0C then t.sendAck c 0x1F r.psn else t).stoTaken p
  else if d < 2 ^ 23 then
    let s := if x.nakSent then s else (s.sendNak c 0x60 x.ePsn).setCtx c { (s.sendNak c 0x60 x.ePsn).ctx c with nakSent := true }
    s.stoDrop p 0x72
  else if r.op = 0x0C then
    match s.execRead c r.psn (rethOf r.rest) with
    | (t, .done) => t.stoTaken p
    | (_, .nak _ (some _)) => s.stoDrop p 0x72
    | _ => (s.sendNak c 0x62 r.psn).stoDrop p 0x72
  else (s.sendAck c 0x1F (sub24 x.ePsn 1)).stoTaken p

/-- A READ response is taken by the requester (spec/15 R458, R466): it acknowledges everything before it, and its data
goes to the local list in PSN order. -/
def State.takeResponse (s : State) (c p : Nat) (r : RoceIn) : State :=
  let s := s.ackTo c r.psn
  let x := s.ctx c
  let data := if r.op = 0x0E then r.rest else r.rest.drop 4
  match x.msgAt r.psn with
  | none => s.stoTaken p
  | some m =>
    let j := sub24 r.psn (m.psn.getD 0)
    if m.op ≠ 4 || j ≠ m.got then s.stoTaken p
    else if m.len < j * x.mtu + data.length then ((s.stoTaken p).teardown c (some (m.first, 0x27)))
    else
      let s := s.setCtx c (x.updMsg m.first (fun q => { q with got := q.got + 1 }))
      let at_ := s.sqAts x
      let link := match x.sq with | some q => (s.queue q).ctx.link | none => 0
      let s := s.putSto c (writeParts (segRange (j * x.mtu) data.length m.segs) data) at_.1 at_.2 link
        { num := 0, item := some m.first, bytes := data.length }
      (s.ackTo c (add24 r.psn 1)).stoTaken p

/-! ### Congestion (spec/15 R467) -/

/-- A CNP is taken. -/
def State.takeCnp (s : State) (c : Nat) : State :=
  let x := s.ctx c
  let g : Rat := (bitsOf (s.word Reg.stoCc0 []) 0 8 : Rat) / 256
  let low : Rat := (s.word Reg.stoCc3 [] : Nat)
  let cut := x.rc * (1 - x.alpha / 2)
  (s.setCtx c { x with rt := x.rc, rc := if cut < low then low else cut, alpha := (1 - g) * x.alpha + g, stage := 0
                       alphaAt := s.now, incrAt := s.now, incrBytes := 0 }).count (stoCounter 6) 1

/-- ALPHA_TIMER: alpha_us without a CNP. -/
def State.alphaExpiry (s : State) (c : Nat) : State :=
  let x := s.ctx c
  let g : Rat := (bitsOf (s.word Reg.stoCc0 []) 0 8 : Rat) / 256
  if !x.valid || s.now < x.alphaAt + 1000 * bitsOf (s.word Reg.stoCc1 []) 0 16 then s
  else s.setCtx c { x with alpha := (1 - g) * x.alpha, alphaAt := s.now }

/-- INCREASE_EVENT: incr_us has passed, or incr_kib KiB are sent. -/
def State.increase (s : State) (c : Nat) : State :=
  let x := s.ctx c
  let byTime := x.incrAt + 1000 * bitsOf (s.word Reg.stoCc1 []) 16 16 ≤ s.now
  let byBytes := 1024 * s.word Reg.stoCc5 [] ≤ x.incrBytes
  if !x.valid || !(byTime || byBytes) then s
  else
    let max_ : Rat := (s.word Reg.stoCc2 [] : Nat)
    let up := x.rt + (s.word Reg.stoCc4 [] : Nat)
    let rt := if bitsOf (s.word Reg.stoCc0 []) 8 8 ≤ x.stage then (if max_ < up then max_ else up) else x.rt
    s.setCtx c { x with rt, rc := (rt + x.rc) / 2, stage := x.stage + 1
                        incrAt := if byTime then s.now else x.incrAt, incrBytes := if byBytes then 0 else x.incrBytes }

/-- Send a CNP for a packet that carried CE, at most once per cnp_gap_us (spec/15 R467). -/
def State.sendCnp (s : State) (c src : Nat) : State :=
  let x := s.ctx c
  let gap := 1000 * bitsOf (s.word Reg.stoCc0 []) 16 16
  if !x.ccEn || (match x.cnpAt with | some t => decide (s.now < t + gap) | none => false) then s
  else
    let dest := if x.kind = .ud then src else x.destQpn
    ((s.setCtx c { x with cnpAt := some s.now }).handSto c x.path dest
      (bth 0x81 false 0 0x40 dest false 0 ++ List.replicate 16 0)).count (stoCounter 5) 1

/-! ### Receiving RoCEv2 (spec/15 R459) -/

/-- The packet whose last recorded header is a BTH at byte offset o. -/
def roceParts (m : Mark) (bs : List Byte) (o : Nat) : RoceIn :=
  let ulen := beAt bs (o - 4) 2
  let pad := beAt bs (o + 1) 1 / 16 % 4
  { op := beAt bs o 1, dest := beAt bs (o + 5) 3, psn := beAt bs (o + 9) 3, ack := bitOf (beAt bs (o + 8) 1) 7
    rest := bytesAt bs (o + 12) (ulen - 24 - pad)
    ce := match (m.hdrs.reverse.find? (fun h => h.typ = 6 || h.typ = 7)) with
      | some h => ecnOf bs h.typ (2 * h.off) = 3
      | none => false }

/-- The ICRC of a received packet is right. -/
def icrcGood (m : Mark) (bs : List Byte) (o : Nat) : Bool :=
  match (m.hdrs.reverse.find? (fun h => h.typ = 6 || h.typ = 7)) with
  | none => false
  | some h =>
    let i := 2 * h.off
    let e := o - 8 + beAt bs (o - 4) 2
    bytesAt bs (e - 4) 4 = icrcOf (decide (h.typ = 7)) (bytesAt bs i (e - 4 - i))

/-- The kind of a context fits a BTH opcode. -/
def kindFits (k : CtxKind) (op : Nat) : Bool :=
  match k with
  | .rc => op < 0x20 || op = 0x81
  | .ud => op = 0x64 || op = 0x65 || op = 0x81
  | _ => false

/-- A UD SEND is placed with its GRH ahead (spec/15 R464, R465). -/
def State.takeUd (s : State) (c p : Nat) (x : Packet) (r : RoceIn) : State :=
  let y := s.ctx c
  let ext := if r.op = 0x65 then 12 else 8
  let grh :=
    match (x.mark.hdrs.reverse.find? (fun h => h.typ = 6 || h.typ = 7)) with
    | some h =>
      if h.typ = 7 then bytesAt x.bytes (2 * h.off) 40 else List.replicate 20 0 ++ bytesAt x.bytes (2 * h.off) 20
    | none => List.replicate 40 0
  let data := grh ++ r.rest.drop ext
  let imm := if r.op = 0x65 then some (beAt r.rest 8 4) else none
  match y.rq with
  | none => s.stoDrop p 0x76
  | some q =>
    let k := queueKey true q
    let qu := s.queue k
    match takeBufs qu.ctx.stream qu.ctx.maxBufs 70 data.length [] qu.held with
    | (some (bufs, held), _) =>
      if qu.state ≠ .running then s.stoDrop p 0x76
      else
        let h := qu.held.headD { count := 0 }
        let m : StoRx := { op := 0, bytes := data.length, bufs, cookie := descCookie (h.bytes.getD []), count := h.count }
        let e := s.msgEntry y m (if imm.isSome then 1 else 0) (imm.getD 0) bufs.length (beAt r.rest 5 3)
        let s := s.setQueue k { qu with held }
        (s.putSto c (writeParts (segRange 0 data.length bufs) data) qu.ctx.ats qu.ctx.pasid qu.ctx.link
          { num := 0, entry := some e, bytes := data.length }).stoTaken p
    | (none, _) => s.stoDrop p 0x76

/-- A RoCEv2 packet reaches the engine (spec/15 R448, R459): the state after, or none where it is left to its class's
handling. -/
def State.takeRoce (s : State) (p : Nat) (x : Packet) (o : Nat) (prof : Nat) : Option State :=
  let r := roceParts x.mark x.bytes o
  if r.dest < 2 || 1048576 ≤ r.dest then none
  else
    let c := r.dest
    let y := s.ctx c
    let s := s.touchCtx c
    some (
      if bitOf prof 2 && !icrcGood x.mark x.bytes o then s.stoDrop p 0x71
      else if !y.valid || !kindFits y.kind r.op then s.stoDrop p 0x70
      else if !s.genOk y.owner y.ownerGen then s.stoDrop p Reason.staleGen
      else if x.mark.inst ≠ noInst && x.mark.inst ≠ y.owner then s.stoDrop p 0x75
      else if y.state ≠ .rtr && y.state ≠ .rts then s.stoDrop p 0x74
      else if y.kind = .ud && r.op ≠ 0x81 && beAt r.rest 0 4 ≠ y.word 6 then s.stoDrop p 0x73
      else
        let s := if r.ce then s.sendCnp c (beAt r.rest 5 3) else s
        if r.op = 0x81 then (if y.ccEn then s.takeCnp c else s).stoTaken p
        else if y.kind = .ud then s.takeUd c p x r
        else if 0x0D ≤ r.op && r.op ≤ 0x10 then s.takeResponse c p r
        else if r.op = 0x11 then (s.takeAck c r.psn (beAt r.rest 0 1)).stoTaken p
        else s.respond c p r)

/-! ### Ends of writes -/

/-- A piece of placed data has been written, or will not be (spec/15 R463, R465, R466). -/
def State.stoWrite (s : State) (c num : Nat) (e : WriteEnd) : State :=
  let x := s.ctx c
  match x.placing.find? (fun p => decide (p.num = num)) with
  | none => s
  | some p =>
    let s := s.setCtx c { x with placing := x.placing.filter (fun q => decide (q.num ≠ num)) }
    match e with
    | .done =>
      let s := if p.cid.isSome then s.count (stoCounter 8) p.bytes else s
      let s := match p.entry with | some en => s.entryReady (s.rqCtx x).cq en | none => s
      match p.item with | some first => s.checkRead c first | none => s
    | .xlate =>
      match p.item with
      | some first => s.teardown c (some (first, 0x26))
      | none => if p.cid.isSome then s else (s.sendNak c 0x63 (sub24 x.ePsn 1)).teardown c none
    | _ => s

/-- TX_ITEM_COMPLETE of a bound transmit queue: entries go in ascending count order (spec/15 R465). -/
def State.completeBound (s : State) (k : Nat) : State :=
  let x := s.queue k
  match x.items with
  | [] => s
  | i :: is =>
    if i.phase = .ended || (i.phase = .handed && decide (i.toAdmit = 0) && !i.tsWait) then
      (s.setQueue k { x with items := is }).entryReady x.ctx.cq (txEntry k x i)
    else s

/-- Items that a bound queue fetches while its context is in ERROR complete with FLUSHED (spec/15 R454). -/
def State.flushBound (s : State) (k : Nat) : State :=
  match s.boundCtx k with
  | some c => if (s.ctx c).state = .error then s.flushSq k else s
  | none => s

/-- The effect of a block reset of STO (spec/15 R478). -/
def State.resetSto (s : State) : State :=
  let s := s.packets.foldl (fun t q =>
    if q.2.inside .atStorage then
      (if q.2.stage = .leaving then
        t.setPkt q.1 { q.2 with mark := { q.2.mark with flags := { q.2.mark.flags with stomp := true } } }
       else t.stoDrop q.1 0x77)
    else t) s
  let s := s.sto.cache.foldl (fun t c =>
    let x := t.ctx c
    if !x.valid then t
    else if x.kind = .rc then t.teardown c none
    else if x.kind = .nvt && x.nvt ≠ .failed then t.setCtx c { x with nvt := .resync, resync := none, pdu := {} }
    else t) s
  { s with sto := { s.sto with
      cache := [], sets := s.sto.sets.map (fun v => if v.busy then { v with busy := false, result := 1 } else v) } }

end Sys2Proof.Machine
end

