-- ==== Sys2Proof/Machine/InstOps.lean ====
section
/-! DEFINITION. The instance manager (spec/10): instance states, grants, the reset sequence, mailbox channels,
the binding table, notices, and the messages that firmware and managers answer (spec/21 R646). -/

namespace Sys2Proof.Machine

/-- Address of IVM counter k (spec/10 R314). -/
def ivmCounter (k : Nat) : Nat := blockBase 7 + 0x1B0000 + 8 * k

/-! ### Clearing of mailbox channels (spec/10 R304) -/

/-- A channel is cleared by a reset of end A, end B or both. -/
def State.clearChan (s : State) (c : Nat) (byA byB : Bool) : State :=
  let x := s.chan c
  let a := { x.a with notice := false, refused := false }
  let b := { x.b with notice := false, refused := false }
  let y := { x with data := [], state := .idle, seq := 0, a, b }
  if x.state = .posted && !(byA && byB) then
    let y := if byA then { y with b := { b with aborted := true } } else { y with a := { a with aborted := true } }
    (((s.setChan c y).count (ivmCounter 3) 1).raise 167 c).mbxEvent c byA
  else s.setChan c y

/-- The resets of the instances of a list clear the channels of which they are an end, each channel once. -/
def State.clearChansOf (s : State) (is : List Nat) : State :=
  s.ivm.chans.foldl (fun t p =>
    let c := p.1
    let hit (endB : Bool) : Bool := match t.endFn c endB with | some k => is.contains (fnInst k) | none => false
    if hit false || hit true then t.clearChan c (hit false) (hit true) else t) s

/-! ### Reset sequences (spec/10 R294-R298) -/

/-- A Mark in a course or the packet buffer, a read or a firmware job in flight names the instance (spec/10 R297). -/
def State.namesInst (s : State) (i : Nat) : Bool :=
  s.packets.any (fun p => decide (p.2.mark.inst = i) && decide (p.2.stage ≠ .waitSlot))
    || (List.range 4).any (fun f =>
      let x := s.dmaFace f
      x.out.any (fun o => decide (o.rd.inst = i) && !o.rd.req.isFlush)
        || x.jobs.any (fun j => !j.done && decide ((s.jobRec f (j.count % 32)).inst = i)))

/-- The wait of a wrap begins (spec/10 R297). -/
def State.wrapWait (s : State) (i : Nat) : State :=
  let x := s.inst i
  if x.wrapHold then s
  else ((s.setInst i { x with wrapHold := true }).count (ivmCounter 1) 1).raise 164 i (some i)

/-- Mason slots delivered and not yet freed whose handed-out inst is the instance are marked stale (spec/10 R297,
spec/18 R570; log 25). -/
def State.staleSlots (s : State) (i : Nat) : State :=
  { s with xpe := { s.xpe with clusters := s.xpe.clusters.map (fun (c : Cluster) =>
      { c with slots := mapAll {} (fun _ (m : MSlot) =>
          if m.st ≠ .free && !m.isFree && m.inst = i then { m with stale := true } else m) c.slots }) } }

/-- The generation rises (spec/10 R294, R297). -/
def State.raiseGen (s : State) (i : Nat) : State :=
  let x := s.inst i
  let g := (x.gen + 1) % 4096
  let s := s.setInst i { x with gen := g, wrapped := x.wrapped || (decide (g = 0) && x.resetting) }
  if g = 0 then
    let s := s.staleSlots i
    if x.resetting && s.namesInst i then s.wrapWait i else s
  else s

/-- The pending bits of an instance's functions are cleared (spec/10 R295, R296). -/
def State.clearPba (s : State) (i : Nat) : State :=
  let off (t : State) (k : Nat) : State :=
    t.setFn k { t.fn k with msix := mapAll {} (fun _ (v : MsixVec) => { v with pending := false, byRing := false }) (t.fn k).msix }
  if i < 2048 then off s i else off (off s i) (i + 4)

/-- Step 1 of the reset sequence but for the mailbox channels, and the start of the flush (spec/10 R296). -/
def State.resetStep (s : State) (i : Nat) (st : InstSt) : State :=
  let x := s.inst i
  let s := (s.setInst i { x with state := st, wrapHold := x.resetting && x.wrapHold, wrapped := x.resetting && x.wrapped
                                 prior := if x.resetting then x.prior else x.state }).raiseGen i
  let s := ((s.resetQueues i).resetRings i).clearPba i
  (s.tmsInstReset i).startFlush i

/-- One instance is reset by whatever cause (spec/10 R288, R298): whether a sequence starts, and the state. -/
def State.resetOne (s : State) (i : Nat) : Bool × State :=
  let x := s.inst i
  match x.state with
  | .absent => (false, s.raiseGen i)
  | .created => (true, s.resetStep i .resetting)
  | .started => (true, s.resetStep i .resetting)
  | .resetting => (false, (s.raiseGen i).startFlush i)
  | .removing => (false, (s.raiseGen i).startFlush i)

/-- Instances are reset in one instant (spec/10 R288, R296, R306). -/
def State.resetInsts (s : State) (is : List Nat) : State :=
  let r := is.foldl (fun (acc : List Nat × State) i =>
    let q := acc.2.resetOne i
    (if q.1 then acc.1 ++ [i] else acc.1, q.2)) ([], s)
  r.2.clearChansOf r.1

/-- The removal of an instance begins (spec/10 R288). -/
def State.startRemoval (s : State) (i : Nat) : State := (s.resetStep i .removing).clearChansOf [i]

/-- An application leaves an instance outside its old face's new range (spec/10 R288, R298). -/
def State.moveOff (s : State) (i old : Nat) : State :=
  let x := s.inst i
  match x.state with
  | .absent => s
  | .removing => s
  | .resetting => (s.setInst i { x with removeNext := true, moved := some old }).raise 165 i (some i)
  | _ => ((s.setInst i { x with moved := some old }).startRemoval i).raise 165 i (some i)

/-- Deliver the events held for the ends that an instance is (spec/10 R303). -/
def State.deliverHeld (s : State) (i : Nat) : State :=
  s.ivm.chans.foldl (fun t p =>
    let c := p.1
    let go (t : State) (endB : Bool) : State :=
      match t.endFn c endB with
      | some k => if fnInst k = i && ((t.chan c).fin endB).held then t.mbxEvent c endB else t
      | none => t
    go (go t false) true) s

/-- The channel of a removed instance has its state bits cleared (spec/10 R288). -/
def State.clearBits (s : State) (c : Nat) : State :=
  let x := s.chan c
  s.setChan c { x with state := .idle, a := { x.a with notice := false, aborted := false, refused := false }
                       b := { x.b with notice := false, aborted := false, refused := false } }

/-- RESET_SEQUENCE_DONE (spec/10 R288, R296, R297): it waits for the flush reads and for the wait of a wrap. -/
def State.resetDone (s : State) (i : Nat) : State :=
  let x := s.inst i
  if !x.resetting || s.flushing i then s
  else if x.wrapped && s.namesInst i then s.wrapWait i
  else
    let removing := x.state = .removing || x.removeNext
    let y : Inst := { state := if removing then .absent else x.prior, prior := if removing then .absent else x.prior
                      gen := x.gen, grant := if removing then {} else x.grant, resets := (x.resets + 1) % 2 ^ 48 }
    let s := s.setInst i y
    let s := s.setFn i { s.fn i with flrBusy := false }
    let s := if removing then s.clearBits i else s
    let s := (s.count (ivmCounter 0) 1).raise 163 i (some i)
    let s :=
      if removing then
        match x.moved with
        | some n => s.postNotice (2048 + n) { kind := 0x02, inst := i, data := x.gen }
        | none =>
          match s.instFace i with
          | some n => if x.gone then s.postNotice (2048 + n) { kind := 0x01, inst := i, data := x.gen } else s
          | none => s
      else s
    (s.deliverHeld i).evalLines

/-! ### Grants (spec/10 R290-R293) -/

/-- The grant that four words spell (spec/10 R291). -/
def grantOf (w0 w1 w2 w3 : Nat) : Grant :=
  { txUnits := bitsOf w0 0 8, txBase := bitsOf w0 8 7, rxUnits := bitsOf w0 16 8, rxBase := bitsOf w0 24 7
    cqUnits := bitsOf w1 0 8, cqBase := bitsOf w1 8 7, saUnits := bitsOf w1 16 12
    qpUnits := bitsOf w2 0 11, flowParts := bitsOf w2 16 7, hotSlots := bitsOf w3 0 10 }

/-- The four words of a grant (spec/10 R291). -/
def Grant.words (g : Grant) : List Nat :=
  [g.txUnits + g.txBase * 256 + g.rxUnits * 65536 + g.rxBase * 2 ^ 24, g.cqUnits + g.cqBase * 256 + g.saUnits * 65536,
   g.qpUnits + g.flowParts * 65536, g.hotSlots]

/-- Two ranges of units overlap. -/
def unitsMeet (n1 b1 n2 b2 : Nat) : Bool := decide (0 < n1) && decide (0 < n2) && decide (b1 < b2 + n2) && decide (b2 < b1 + n1)

/-- Instances that hold a grant, managers included. -/
def State.grants (s : State) (but : Nat) : List (Nat × Grant) :=
  ((s.ivm.insts.map (fun (p : Nat × Inst) => p.1)) ++ [2048, 2049, 2050, 2051]).dedup.filterMap (fun i =>
    if i = but then none else some (i, (s.inst i).grant))

/-- The why of a refused grant, 0 where it is accepted (spec/10 R289, R292). -/
def State.grantWhy (s : State) (i : Nat) (g : Grant) : Nat :=
  let os := s.grants i
  let sum (f : Grant → Nat) : Nat := (os.map (fun o => f o.2)).sum
  if 128 < g.txUnits || 128 < g.rxUnits || 128 < g.cqUnits || 2048 < g.saUnits || 1024 < g.qpUnits || 64 < g.flowParts
      || 512 < g.hotSlots then 7
  else if (0 < g.txUnits && 128 < g.txBase + g.txUnits) || (0 < g.rxUnits && 128 < g.rxBase + g.rxUnits)
      || (0 < g.cqUnits && 128 < g.cqBase + g.cqUnits)
      || os.any (fun o => unitsMeet g.txUnits g.txBase o.2.txUnits o.2.txBase || unitsMeet g.rxUnits g.rxBase o.2.rxUnits o.2.rxBase
        || unitsMeet g.cqUnits g.cqBase o.2.cqUnits o.2.cqBase) then 2
  else if 2048 < sum (·.saUnits) + g.saUnits || 1024 < sum (·.qpUnits) + g.qpUnits || 64 < sum (·.flowParts) + g.flowParts then 3
  else if 512 < ((os.filter (fun o => decide (s.instFace o.1 = s.instFace i))).map (fun o => o.2.hotSlots)).sum + g.hotSlots then 4
  else if i < 2048 && decide (g ≠ {}) && 64 ≤ (os.filter (fun o => decide (o.1 < 2048) && decide (o.2 ≠ {}))).length then 5
  else 0

/-- A pool queue lies in a grant (spec/10 R291). -/
def Grant.hasQueue (g : Grant) (rx : Bool) (q : Nat) : Bool :=
  decide (8192 ≤ q) && (if rx then inUnits g.rxUnits g.rxBase ((q - 8192) / 64) else inUnits g.txUnits g.txBase ((q - 8192) / 64))

/-- A pool ring lies in a grant (spec/10 R291). -/
def Grant.hasRing (g : Grant) (r : Nat) : Bool := decide (4096 ≤ r) && inUnits g.cqUnits g.cqBase ((r - 4096) / 32)

/-- The queues, by key, that a share change takes away. -/
def State.queuesLost (s : State) (g h : Grant) : List Nat :=
  (s.qmg.queues.map (fun p => p.1)).filter (fun k =>
    let rx : Bool := decide (16384 ≤ k)
    g.hasQueue rx (queueNo k) && !h.hasQueue rx (queueNo k))

/-- Flow partitions assigned to an instance (spec/13 R392). -/
def State.partsOf (s : State) (i : Nat) : Nat :=
  ((List.range 64).filter (fun p =>
    let w := s.word Reg.fwdPartOwner [p]
    bitOf w 12 && decide (bitsOf w 0 12 = i))).length

/-- The why with which a share change that takes something away is refused, 0 where it is not (spec/10 R293). -/
def State.shareWhy (s : State) (i : Nat) (g h : Grant) : Nat :=
  let stays (k : Nat) : Bool :=
    let x := s.queue k
    decide (x.state = .disabled) || (decide (x.state = .stopped) && decide (x.p = x.c))
  if !(s.queuesLost g h).all stays
      || s.qmg.rings.any (fun p => g.hasRing p.1 && !h.hasRing p.1 && decide (p.2.state ≠ .disabled)) then 12
  else if h.hotSlots < g.hotSlots && h.hotSlots < s.hotLines (fun l => decide (l.inst = i)) then 13
  else if (h.saUnits < g.saUnits && (if i < 2048 then 1024 else 0) + 1024 * h.saUnits < s.saInUse i (2 ^ 22))
      || (h.qpUnits < g.qpUnits && 1024 * h.qpUnits < s.ctxsOf i (2 ^ 20))
      || (h.flowParts < g.flowParts && h.flowParts < s.partsOf i) then 14
  else 0

/-! ### IVM_CMD (spec/10 R288, R289) -/

/-- End the command of face f's set. -/
def State.endIvm (s : State) (f result why : Nat) : State :=
  { s with ivm := { s.ivm with cmd := setNth s.ivm.cmd f { busy := false, result, why } } }

/-- The grant in face f's argument words. -/
def State.ivmArg (s : State) (f : Nat) : Grant :=
  let w := fun j => s.word Reg.ivmCmdArg [f, j]
  grantOf (w 0) (w 1) (w 2) (w 3)

/-- CREATE of an ABSENT instance. -/
def State.ivmCreate (s : State) (f i : Nat) : State :=
  let x := s.inst i
  let g := s.ivmArg f
  if x.state ≠ .absent then s.endIvm f 1 0
  else
    let why := s.grantWhy i g
    if why ≠ 0 then s.endIvm f 2 why
    else ((s.setInst i { x with state := .created, prior := .created, grant := g }).endIvm f 0 0).evalLines

/-- START of a CREATED instance. -/
def State.ivmStart (s : State) (f i : Nat) : State :=
  let x := s.inst i
  if x.state ≠ .created then s.endIvm f 1 0
  else ((s.setInst i { x with state := .started, prior := .started }).endIvm f 0 0).evalLines

/-- RESET. -/
def State.ivmReset (s : State) (f i : Nat) : State := (s.resetInsts [i]).endIvm f 0 0

/-- REMOVE. -/
def State.ivmRemove (s : State) (f i : Nat) : State :=
  let x := s.inst i
  match x.state with
  | .created => (s.startRemoval i).endIvm f 0 0
  | .started => (s.startRemoval i).endIvm f 0 0
  | .resetting => (s.setInst i { x with removeNext := true }).endIvm f 0 0
  | _ => s.endIvm f 1 0

/-- SET_SHARE of a CREATED or STARTED instance. -/
def State.ivmShare (s : State) (f i : Nat) : State :=
  let x := s.inst i
  let h := s.ivmArg f
  if x.state ≠ .created && x.state ≠ .started then s.endIvm f 1 0
  else
    let why := s.grantWhy i h
    if why ≠ 0 then s.endIvm f 2 why
    else
      let away := s.shareWhy i x.grant h
      if away ≠ 0 then s.endIvm f 1 away
      else
        let s := (s.queuesLost x.grant h).foldl (fun t k =>
          let y := t.queue k
          if y.state = .stopped then t.setQueue k { y with state := .disabled, held := [], items := [], regions := [] } else t) s
        ((s.setInst i { x with grant := h }).endIvm f 0 0).evalLines

/-- A write to IVM_CMD of face f (spec/10 R289). -/
def State.ivmCommand (m : Master) (f op i : Nat) : Eff := fun s =>
  if (s.ivm.cmd.getD f {}).busy then (s, false)
  else if op = 0 || 5 < op then (s.endIvm f 2 11, true)
  else
    let other := match m with | .pf g => decide (g ≠ f) | .vf _ => true | .fw _ _ => false
    if other || (!m.isFw && op ≠ 2 && op ≠ 3) then (s.endIvm f 3 0, true)
    else if 2051 < i then (s.endIvm f 2 7, true)
    else
      match s.instFace i with
      | none => (s.endIvm f 2 1, true)
      | some n =>
        if n ≠ f then (s.endIvm f 3 0, true)
        else if 2048 ≤ i && (op = 1 || op = 4) then (s.endIvm f 2 6, true)
        else
          (match op with
           | 1 => s.ivmCreate f i
           | 2 => s.ivmStart f i
           | 3 => s.ivmReset f i
           | 4 => s.ivmRemove f i
           | _ => s.ivmShare f i, true)

/-- Address of IVM_CMD of face f. -/
def ivmCmdAddr (f : Nat) : Nat := blockBase 7 + 0x1000 * f

/-- The word of a write to IVM_CMD. -/
def ivmCmdWord (op i : Nat) : Nat := op + i % 4096 * 16

/-! ### Mailbox actions (spec/10 R300-R308) -/

/-- An action on a channel. -/
inductive MbxAct where
  | data (word v : Nat)
  | go | done | notify | cancel
  deriving DecidableEq, Repr

/-- The end of a channel that a master is: false for end A (spec/10 R302, R307). -/
def State.mbxEnd (s : State) (m : Master) (c : Nat) : Option Bool :=
  let b := s.binding c
  let is (v : Nat) : Bool :=
    match m with
    | .vf i => v = 1 && c < 2048 && c = i
    | .pf f => (v = 1 && c = 2048 + f) || (v = 2 && decide (s.tenantFace c = some f))
    | .fw x _ => v = 3 || (v = 4 && x = 0) || (v = 5 && x = 1)
  if is b.1 then some false else if is b.2 then some true else none

/-- The action is accepted in the channel's state (spec/10 R302). -/
def State.mbxAccepts (s : State) (c : Nat) (endB : Bool) (a : MbxAct) : Bool :=
  let x := s.chan c
  let shut := !endB && decide (c < 2048) && (decide ((s.inst c).state = .absent) || (s.inst c).resetting)
  !shut &&
    match a with
    | .data _ _ => if endB then decide (x.state = .posted) else decide (x.state ≠ .posted)
    | .go => !endB && decide (x.state ≠ .posted)
    | .done => endB && decide (x.state = .posted)
    | .cancel => !endB && decide (x.state = .posted)
    | .notify => endB

/-- The effect of an accepted action (spec/10 R302). -/
def State.mbxEffect (s : State) (c : Nat) (a : MbxAct) : State :=
  let x := s.chan c
  match a with
  | .data w v => s.setChan c { x with data := mapSet 0 x.data (w % 16) (v % 2 ^ 32) }
  | .go => ((s.setChan c { x with state := .posted, seq := (x.seq + 1) % 256 }).count (ivmCounter 2) 1).mbxEvent c true
  | .done => (s.setChan c { x with state := .replied }).mbxEvent c false
  | .cancel => (s.setChan c { x with state := .idle, b := { x.b with aborted := true } }).mbxEvent c true
  | .notify => s.mbxNotify c

/-- The action is refused: the writer's refused bit (spec/10 R302). -/
def State.mbxRefuse (s : State) (c : Nat) (endB : Bool) : State :=
  let x := s.chan c
  (s.setChan c (x.setFin endB { x.fin endB with refused := true })).count (ivmCounter 5) 1

/-- Offset of a channel's block in IVM (spec/10 R300). -/
def chanOffset (c : Nat) : Nat :=
  if c < 2048 then 0x100000 + 0x100 * c else if c < 2052 then 0x180000 + 0x100 * (c - 2048) else 0x181000 + 0x100 * (c - 2052)

/-- An access by a master that is no end of the channel (spec/10 R302). -/
def State.mbxDenied (s : State) (m : Master) (c : Nat) : State :=
  (s.count (ivmCounter 4) 1).raise 166 c none { addr := blockBase 7 + chanOffset c, master := s.masterId m, access := 2 }

/-- A write to a channel's block by a master, judged by its end: `f` is what an end's write does. -/
def State.mbxAsEnd (m : Master) (c : Nat) (f : State → Bool → State) : Eff := fun s =>
  match s.mbxEnd m c with
  | none => (s.mbxDenied m c, false)
  | some e => (f s e, true)

/-- A write to a channel's block: a tenant's comes through its VF BAR0; a complex that the binding names needs no lease
(spec/18 R551). -/
def State.mbxAccess (s : State) (m : Master) (c off data : Nat) (e : Eff) : State :=
  match m with
  | .vf i =>
    if c ≠ i || 2048 ≤ c || !s.fnReachable i then s
    else if !s.ready 7 then s.earlyAccess 7
    else (e s).1
  | .fw x _ =>
    let named := s.complexRuns x && (s.endVal c false = 4 + x || s.endVal c true = 4 + x)
    s.access m (blockBase 7 + chanOffset c + off) 4 data e named
  | .pf _ => s.access m (blockBase 7 + chanOffset c + off) 4 data e

/-- MBX_EVENT_DELIVERY: an event held for an end is delivered once the end can take it (spec/10 R303). -/
def State.mbxDeliver (s : State) (c : Nat) (endB : Bool) : State :=
  if s.ready 7 && ((s.chan c).fin endB).held then s.mbxEvent c endB else s

/-- A write to a binding entry clears its channel, with no aborted (spec/10 R304, R307). -/
def State.mbxBind (m : Master) (c data : Nat) : Eff := fun s =>
  let r := State.writeReg m Reg.ivmMbxBind [c] data s
  if r.2 then (r.1.clearChan c true true, true) else r

/-! ### Messages (spec/10 R309-R312, spec/21 R646) -/

/-- Word k of a channel. -/
def State.msgWord (s : State) (c k : Nat) : Nat := mapGet 0 (s.chan c).data k

/-- The answerer of a channel can answer: firmware that holds the lease, or the manager of the instance's face. -/
def State.answers (s : State) (c : Nat) : Bool :=
  s.ready 7 &&
    match s.endVal c true with
    | 3 => s.keystoneUp
    | 4 => s.complexRuns 0
    | 5 => s.complexRuns 1
    | 2 => match s.tenantFace c with | some n => s.fnReachable (2048 + n) | none => false
    | _ => false

/-- The complex that answers a channel holds the lease, so its register writes are accepted (spec/18 R550). -/
def State.answererHolds (s : State) (c : Nat) : Bool :=
  s.keystoneUp && (s.endVal c true = 3 || s.endVal c true = 4 + s.ksc.active)

/-- A request with op waits on a channel and can be answered. -/
def State.asked (s : State) (c op : Nat) : Bool :=
  decide ((s.chan c).state = .posted) && s.answers c && decide (bitsOf (s.msgWord c 0) 0 8 = op)

/-- The request's version is one the answerer knows (spec/10 R309). -/
def State.verOk (s : State) (c : Nat) : Bool := decide (bitsOf (s.msgWord c 0) 8 8 = 1)

/-- Write the whole reply over the request and set done (spec/10 R309). -/
def State.reply (s : State) (c result : Nat) (ws : List Nat) : State :=
  let w0 := s.msgWord c 0 % 2 ^ 24 + result * 2 ^ 24
  let d := (ws.mapIdx (fun k v => (k + 1, v))).foldl (fun (m : AMap Nat) p => mapSet 0 m p.1 (p.2 % 2 ^ 32)) (mapSet 0 [] 0 w0)
  (s.setChan c { s.chan c with data := d }).mbxEffect c .done

/-- The answer to an unknown op or version (spec/10 R309). -/
def State.unsupported (s : State) (c : Nat) : State := s.reply c 4 [1 + 256]

/-- Answer a request of an op, or its unknown version. -/
def State.answer (s : State) (c op : Nat) (f : State → State) : State :=
  if !s.asked c op then s else if s.verOk c then f s else s.unsupported c

/-- Firmware's writes take effect at once: no write waits for the journal, and there is room. -/
def State.fwWrites (s : State) : Bool := s.ksc.jrnlWait = [] && decide (s.ksc.j + 16 < s.ksc.ckptJpos + 65536)

/-- A register write by the lease holder. -/
def State.fwAccess (s : State) (off data : Nat) (e : Eff) : State := s.access (.fw s.ksc.active s.ksc.epoch) off 4 data e

/-- Firmware carries out an IVM command through face f's set, and reads its result (spec/10 R310). -/
def State.fwIvm (s : State) (f op i : Nat) (args : List Nat) : State :=
  let m : Master := .fw s.ksc.active s.ksc.epoch
  let s := (args.mapIdx (fun w v => (w, v))).foldl (fun t p =>
    t.fwAccess (Reg.ivmCmdArg.addr [f, p.1]) p.2 (State.writeReg m Reg.ivmCmdArg [f, p.1] p.2)) s
  s.fwAccess (ivmCmdAddr f) (ivmCmdWord op i) (State.ivmCommand m f op i)

/-- The words of the FIRMWARE entry and the face, which HELLO returns (spec/06 R182, spec/10 R310). -/
def State.helloWords (s : State) (f : Nat) : List Nat :=
  [s.glb.dtFirmware.getD 0 0, s.glb.dtFirmware.getD 1 0 % 65536 + s.ksc.active * 65536,
   f + (if s.glb.primary = f then 4 else 0)]

/-- The operations that firmware answers on a manager channel, and those it passes on (spec/10 R309, R310, spec/21 R646). -/
def knownMgrOp (op : Nat) : Bool := (1 ≤ op && op ≤ 5) || op = 0x40 || op = 0x41 || 128 ≤ op

/-- MGR_HELLO: HELLO, or an op that firmware does not know (spec/10 R309, R310). -/
def State.mgrHello (s : State) (f : Nat) : State :=
  let c := 2048 + f
  let op := bitsOf (s.msgWord c 0) 0 8
  if !knownMgrOp op && s.asked c op then s.unsupported c
  else
    s.answer c 1 (fun t =>
      ({ t with ivm := { t.ivm with helloVer := setNth t.ivm.helloVer f 1 } }).reply c 0 (t.helloWords f))

/-- CREATE and SET_SHARE of a manager: op 2 or 4 of R310, IVM op 1 or 5. -/
def State.mgrGrant (s : State) (f op ivmOp : Nat) : State :=
  let c := 2048 + f
  if !s.fwWrites || !s.answererHolds c then s
  else
    s.answer c op (fun t =>
      let i := t.msgWord c 1 % 4096
      if i < 2048 && t.tenantFace i = some f then
        let g := (List.range 4).map (fun j => t.msgWord c (2 + j))
        let u := t.fwIvm f ivmOp i g
        let r := u.ivm.cmd.getD f {}
        u.reply c r.result [r.why]
      else t.reply c 3 [])

/-- MBOX_CREATE (spec/10 R310). -/
def State.mboxCreate (s : State) (f : Nat) : State := s.mgrGrant f 2 1

/-- MBOX_SET_SHARE (spec/10 R310). -/
def State.mboxShare (s : State) (f : Nat) : State := s.mgrGrant f 4 5

/-- MBOX_REMOVE: PENDING, and an INST_GONE notice at the end (spec/10 R310). -/
def State.mboxRemove (s : State) (f : Nat) : State :=
  let c := 2048 + f
  if !s.fwWrites || !s.answererHolds c then s
  else
    s.answer c 3 (fun t =>
      let i := t.msgWord c 1 % 4096
      if i < 2048 && t.tenantFace i = some f then
        let u := t.fwIvm f 4 i []
        let r := u.ivm.cmd.getD f {}
        if r.result = 0 then (u.setInst i { u.inst i with gone := true }).reply c 5 []
        else u.reply c r.result [r.why]
      else t.reply c 3 [])

/-- The two words of a notice (spec/10 R311). -/
def Notice.words (n : Notice) : List Nat := [n.kind + n.inst % 4096 * 256, n.data]

/-- GET_NOTICE: up to 7 notices, oldest first; those dropped are reported after the rest (spec/10 R310, R311). -/
def State.getNotice (s : State) (c : Nat) : State :=
  s.answer c 5 (fun t =>
    let h := mapGet {} t.ivm.notices c
    let room : Bool := decide (h.list.length < 7) && decide (h.lost ≠ 0)
    let out := h.list.take 7 ++ (if room then [{ kind := 0xFF, inst := 0, data := h.lost }] else [])
    let h' : Notices := { list := h.list.drop 7, lost := if room then 0 else h.lost }
    let t := { t with ivm := { t.ivm with notices := mapSet {} t.ivm.notices c h' } }
    let t := t.reply c 0 (out.length :: out.flatMap Notice.words)
    if h'.list ≠ [] || h'.lost ≠ 0 then t.mbxNotify c else t)

/-- TENANT_HELLO: HELLO on a tenant channel, or an op the answerer does not know (spec/10 R309, R312). -/
def State.tenantHello (s : State) (i : Nat) : State :=
  let op := bitsOf (s.msgWord i 0) 0 8
  if 2048 ≤ i then s
  else if !(op = 1 || op = 5 || op = 6 || 128 ≤ op) && s.asked i op then s.unsupported i
  else s.answer i 1 (fun t => t.reply i 0 ((i + (t.inst i).gen * 4096) :: (t.inst i).grant.words))

/-- RESET_REQUEST: PENDING, then RESET by whoever answers the channel (spec/10 R312). -/
def State.resetRequest (s : State) (i : Nat) : State :=
  if 2048 ≤ i then s
  else
    match s.tenantFace i with
    | none => s
    | some f =>
      let byMgr := s.endVal i true = 2
      if !byMgr && !(s.fwWrites && s.answererHolds i) then s
      else
        s.answer i 6 (fun t =>
          let t := t.reply i 5 []
          if byMgr then t.access (.pf f) (ivmCmdAddr f) 4 (ivmCmdWord 3 i) (State.ivmCommand (.pf f) f 3 i)
          else t.fwIvm f 3 i [])

/-- UPGRADE_STATUS (spec/21 R646): DENIED on a face that is not the primary one. -/
def State.upgradeStatus (s : State) (f : Nat) : State :=
  let c := 2048 + f
  s.answer c 0x40 (fun t =>
    if f = t.glb.primary then
      t.reply c 0 [t.glb.dtFirmware.getD 0 0, t.tap.ckWritten + b2n t.tap.confirmed * 256, t.fuses.minSvn]
    else t.reply c 3 [])

/-! ### Block reset (spec/04 R673) -/

/-- A block reset of IVM: a running reset sequence starts again from step 1. -/
def State.resetIvm (s : State) : State :=
  let live := (s.ivm.insts.filter (fun p => p.2.resetting)).map (fun p => p.1)
  let s := live.foldl (fun t i =>
    let x := t.inst i
    t.resetStep i x.state) s
  let s := s.clearChansOf live
  { s with ivm := { s.ivm with cmd := s.ivm.cmd.map (fun v => if v.busy then { v with busy := false, result := 1 } else v) } }

end Sys2Proof.Machine
end

