-- ==== Sys2Proof/Machine/NvtOps.lean ====
section
/-! DEFINITION. NVMe/TCP offload (spec/15 R468-R476): the receive tracker, direct data placement, digests and
protection information, and the packets the transport engine takes.  PDU layout: PRESUMED (log 22). -/

namespace Sys2Proof.Machine

/-! ### Context fields (spec/15 R451) -/

/-- hdgst. -/
def Ctx.hdgst (x : Ctx) : Bool := bitOf (x.word 10) 0
/-- ddgst. -/
def Ctx.ddgst (x : Ctx) : Bool := bitOf (x.word 10) 1
/-- pi_type. -/
def Ctx.piType (x : Ctx) : Nat := bitsOf (x.word 10) 2 2
/-- Data bytes of a block. -/
def Ctx.blkData (x : Ctx) : Nat := if bitOf (x.word 10) 4 then 4096 else 512
/-- Bytes of a block on the wire. -/
def Ctx.blkWire (x : Ctx) : Nat := x.blkData + 8
/-- The host buffer holds no protection information. -/
def Ctx.strips (x : Ctx) : Bool := decide (x.piType ≠ 0) && !bitOf (x.word 10) 5

/-- The buffer offset of a wire offset (spec/15 R475). -/
def Ctx.bufferAt (x : Ctx) (w : Nat) : Nat :=
  if x.strips then w / x.blkWire * x.blkData + min (w % x.blkWire) x.blkData else w

/-! ### PDU headers -/

/-- hlen of a PDU header; the common header has 8 bytes. -/
def pduHlen (h : List Byte) : Nat := max 8 (beAt h 2 1)
/-- plen. -/
def pduPlen (h : List Byte) : Nat := leAt h 4 4
/-- A header digest follows the header. -/
def pduHd (h : List Byte) : Bool := bitOf (beAt h 1 1) 0
/-- A data digest ends the PDU. -/
def pduDd (h : List Byte) : Bool := bitOf (beAt h 1 1) 1
/-- First byte after the header and its digest. -/
def pduHeadEnd (h : List Byte) : Nat := pduHlen h + (if pduHd h then 4 else 0)
/-- First data byte; the PDU's end where it has none. -/
def pduData (h : List Byte) : Nat := if beAt h 3 1 = 0 then pduPlen h else max (pduHeadEnd h) (beAt h 3 1)
/-- End of the data bytes. -/
def pduDataEnd (h : List Byte) : Nat := pduPlen h - (if pduDd h && beAt h 3 1 ≠ 0 then 4 else 0)

/-! ### Receive (spec/15 R471-R476) -/

/-- A frame's payload under the tracker. -/
structure NvtRx where
  /-- The PDU under way. -/
  pdu : PduSt
  /-- DDP entries. -/
  ddp : List DdpEntry
  /-- Payload bytes delivered. -/
  keep : List Byte := []
  /-- Runs to place: CID, buffer offset and bytes. -/
  runs : List (Nat × Nat × List Byte) := []
  /-- Data bytes were placed. -/
  placed : Bool := false
  /-- PDUs that fail the range check. -/
  overrun : Nat := 0
  /-- Digests that failed. -/
  digests : Nat := 0
  /-- The data digest failed. -/
  ddBad : Bool := false
  /-- Blocks whose protection information failed. -/
  piBad : Nat := 0
  /-- A guard failed. -/
  guard : Bool := false
  /-- An application tag failed. -/
  app : Bool := false
  /-- A reference tag failed. -/
  ref : Bool := false
  /-- Tracking stops: 1 RESYNC, 2 FAILED. -/
  stop : Nat := 0
  deriving DecidableEq, Repr

/-- The checks of one whole block: guard, application tag, reference tag (spec/15 R476). -/
def piChecks (x : Ctx) (ref : Nat) (n : Nat) (blk : List Byte) : Bool × Bool × Bool :=
  let pi := blk.drop x.blkData
  let app := beAt pi 2 2
  let tag := beAt pi 4 4
  if app = 0xFFFF && (x.piType ≠ 3 || decide (tag = 0xFFFFFFFF)) then (false, false, false)
  else
    let mask := bitsOf (x.word 11) 0 16
    (decide (crcT10 (blk.take x.blkData) ≠ beAt pi 0 2),
     bitOf (x.word 10) 6 && decide (Nat.land app mask ≠ Nat.land (bitsOf (x.word 10) 16 16) mask),
     bitOf (x.word 10) 7 && decide (x.piType ≠ 3) && decide (tag ≠ (ref + n) % 2 ^ 32))

/-- A run gains one byte: it extends the last run or starts one. -/
def addRun (cid off : Nat) (b : Byte) : List (Nat × Nat × List Byte) → List (Nat × Nat × List Byte)
  | [] => [(cid, off, [b])]
  | [(c, o, bs)] => if c = cid ∧ o + bs.length = off then [(c, o, bs ++ [b])] else [(c, o, bs), (cid, off, [b])]
  | r :: rs => r :: addRun cid off b rs

/-- The entry of a CID. -/
def ddpFind (l : List DdpEntry) (cid : Nat) : Option DdpEntry := l.find? (fun e => decide (e.cid = cid))

/-- A header byte has been seen (spec/15 R471, R472, R474). -/
def nvtHead (x : Ctx) (r : NvtRx) : NvtRx :=
  let h := r.pdu.hdr
  if h.length = 8 && (pduPlen h < beAt h 2 1 || 2 ^ 24 < pduPlen h) then { r with stop := 1 }
  else
    let r :=
      if 8 ≤ h.length && h.length = pduHlen h && beAt h 0 1 = 7 && 20 ≤ h.length then
        match ddpFind r.ddp (leAt h 8 2) with
        | none => r
        | some e =>
          if x.bufferAt (leAt h 12 4 + leAt h 16 4) ≤ (e.segs.map (fun g => g.2)).sum then
            { r with pdu := { r.pdu with cid := some e.cid } }
          else { r with overrun := r.overrun + 1 }
      else r
    if x.hdgst && pduHd h && 8 ≤ h.length && h.length = pduHlen h + 4
        && decide (crc32c (h.take (pduHlen h)) ≠ leAt h (pduHlen h) 4) then
      { r with stop := 2, digests := r.digests + 1 }
    else r

/-- A data byte at wire offset w goes to a CID's buffer, and its block is checked (spec/15 R472, R475, R476). -/
def nvtPlace (x : Ctx) (cid w : Nat) (b : Byte) (r : NvtRx) : NvtRx :=
  let r := { r with placed := true }
  let r :=
    if x.strips && x.blkData ≤ w % x.blkWire then r else { r with runs := addRun cid (x.bufferAt w) b r.runs }
  if x.piType = 0 then r
  else
    match ddpFind r.ddp cid with
    | none => r
    | some e =>
      let e := if w % x.blkWire ≠ 0 && w = e.blkAt + e.blk.length then { e with blk := e.blk ++ [b] }
        else { e with blkAt := w, blk := [b] }
      let whole := e.blk.length = x.blkWire && e.blkAt % x.blkWire = 0
      let c := if whole then piChecks x e.refTag (e.blkAt / x.blkWire) e.blk else (false, false, false)
      let e := if whole then { e with blk := [] } else e
      { r with ddp := r.ddp.map (fun d => if d.cid = cid then e else d), guard := r.guard || c.1, app := r.app || c.2.1
               ref := r.ref || c.2.2, piBad := r.piBad + (if c.1 || c.2.1 || c.2.2 then 1 else 0) }

/-- One payload byte under the tracker (spec/15 R468, R472, R474). -/
def nvtByte (x : Ctx) (r : NvtRx) (b : Byte) : NvtRx :=
  if r.stop ≠ 0 then { r with keep := r.keep ++ [b] }
  else
    let p := r.pdu
    let h := p.hdr
    let next := { p with pos := p.pos + 1 }
    let r :=
      if p.pos < 8 || p.pos < pduHeadEnd h then
        nvtHead x { r with pdu := { next with hdr := h ++ [b] }, keep := r.keep ++ [b] }
      else
        let isData : Bool := decide (pduData h ≤ p.pos) && decide (p.pos < pduDataEnd h)
        let next :=
          if x.ddgst && pduDd h && pduData h ≤ p.pos then { next with data := p.data ++ [b] } else next
        let k := p.pos - pduData h
        match p.cid with
        | some cid =>
          if isData && k < leAt h 16 4 then nvtPlace x cid (leAt h 12 4 + k) b { r with pdu := next }
          else { r with pdu := next, keep := r.keep ++ [b] }
        | none => { r with pdu := next, keep := r.keep ++ [b] }
    let h := r.pdu.hdr
    if r.stop = 0 && 8 ≤ r.pdu.pos && pduPlen h ≤ r.pdu.pos then
      let d := r.pdu.data
      let bad := decide (4 ≤ d.length) && decide (crc32c (d.take (d.length - 4)) ≠ leAt d (d.length - 4) 4)
      { r with pdu := {}, ddBad := r.ddBad || bad, digests := r.digests + (if bad then 1 else 0) }
    else r

/-- The status that a frame's completion carries (spec/15 R473). -/
def NvtRx.status (r : NvtRx) : Nat :=
  if r.stop = 2 then 0x29 else if r.ddBad then 0x2A else if r.guard then 0x2B else if r.app then 0x2C
  else if r.ref then 0x2D else if r.placed then 0x28 else 0

/-- The context that a flow handle names (spec/15 R468). -/
def State.nvtOf (s : State) (flow : Nat) : Option Nat :=
  (s.sto.ctxs.find? (fun c => c.2.valid && decide (c.2.kind = .nvt) && decide (c.2.word 8 = flow))).map (fun c => c.1)

/-- A tracker enters RESYNC (spec/15 R471). -/
def State.nvtResync (s : State) (c : Nat) : State :=
  (s.setCtx c { s.ctx c with nvt := .resync, resync := none, pdu := {} }).raise 293 c (some (s.ctx c).owner)

/-- A connection becomes FAILED (spec/15 R470, R474). -/
def State.nvtFailed (s : State) (c : Nat) : State :=
  (s.setCtx c { s.ctx c with nvt := .failed, resync := none, pdu := {} }).raise 292 c (some (s.ctx c).owner)

/-- Place the runs of a frame (spec/15 R472). -/
def State.placeRuns (s : State) (c : Nat) (ddp : List DdpEntry) (runs : List (Nat × Nat × List Byte)) : State :=
  runs.foldl (fun t r =>
    match ddpFind ddp r.1 with
    | none => t
    | some e =>
      let a := t.sqAts (t.ctx c)
      let link := match (t.ctx c).sq with | some q => (t.queue q).ctx.link | none => 0
      t.putSto c (writeParts (segRange r.2.1 r.2.2.length e.segs) r.2.2) a.1 a.2 link
        { num := 0, bytes := r.2.2.length, cid := some r.1 }) s

/-- The tracker follows or passes a frame of a connection (spec/15 R471-R474). -/
def State.track (s : State) (c p : Nat) (x : Packet) : State :=
  let pass (t : State) : State := t.setPkt p { x with stage := .atBuffer }
  match tcpPayload x.mark x.bytes with
  | none => pass s
  | some (o, from_, end_) =>
    let seq := beAt x.bytes (o + 4) 4
    let y0 := s.ctx c
    let y :=
      if y0.nvt = .resync && y0.resync = some seq && from_ < end_ then
        { y0 with nvt := .track, tcpSeq := seq, resync := none, pdu := {} }
      else y0
    let d := (seq + 2 ^ 32 - y.tcpSeq % 2 ^ 32) % 2 ^ 32
    if y.nvt ≠ .track then pass s
    else if d = 0 then
      let pay := bytesAt x.bytes from_ (end_ - from_)
      let r := pay.foldl (nvtByte y) { pdu := y.pdu, ddp := y.ddp }
      let s := s.setCtx c { y with tcpSeq := (seq + pay.length) % 2 ^ 32, pdu := r.pdu, ddp := r.ddp }
      let s := s.placeRuns c r.ddp r.runs
      let s := if r.overrun = 0 then s else s.count (stoCounter 9) r.overrun
      let s := if r.digests = 0 then s else s.count (stoCounter 10) r.digests
      let s := if r.piBad = 0 then s else s.count (stoCounter 11) r.piBad
      let bs := x.bytes.take from_ ++ r.keep ++ x.bytes.drop end_
      let s := s.setPkt p { x with stage := .atBuffer, bytes := bs, rxStatus := r.status
                                   mark := { x.mark with len := bs.length } }
      if r.stop = 1 then s.nvtResync c else if r.stop = 2 then s.nvtFailed c else s
    else if d < 2 ^ 31 then pass (s.nvtResync c)
    else pass s

/-- STO_RX_PACKET: the transport engine takes, follows or passes a packet (spec/15 R446, R459, R468).  A frame whose
end has not arrived waits where the engine reads its payload. -/
def State.stoRx (s : State) (p : Nat) : State :=
  s.onPkt p .atStorage (fun x =>
    let pass (t : State) : State := t.setPkt p { x with stage := .atBuffer }
    let prof := s.word Reg.stoClassProf [x.mark.cls]
    let hs := x.mark.heads
    let last := hs.getLastD (0, 0)
    if !s.ready 13 then s
    else if x.passBy || x.mark.flags.drop || x.mark.flags.exception then pass s
    else if bitOf prof 0 && last.1 = 21 then
      if !x.ended then s
      else
        match s.takeRoce p x last.2 prof with
        | some t => t
        | none => pass s
    else if bitOf prof 1 then
      match s.nvtOf x.mark.flow with
      | none => pass s
      | some c =>
        if !x.ended then s
        else
          let s := s.touchCtx c
          let y := s.ctx c
          if s.genOk y.owner y.ownerGen then s.track c p x else s.stoDrop p Reason.staleGen
    else pass s)

/-! ### Transmit (spec/15 R468, R469, R474, R475) -/

/-- The TCP payload of an unsegmented frame: past the Ethernet, VLAN, IP and TCP headers. -/
def ethTcpPayload (bs : List Byte) : Nat :=
  let o := if beAt bs 12 2 = 0x8100 || beAt bs 12 2 = 0x88A8 then (if beAt bs 16 2 = 0x8100 then 22 else 18) else 14
  let t := if beAt bs (o - 2) 2 = 0x86DD then o + 40 else o + 4 * (beAt bs o 1 % 16)
  t + 4 * (beAt bs (t + 12) 1 / 16)

/-- What the fill carries from byte to byte. -/
structure NvtTx where
  /-- Bytes of the PDU's header seen. -/
  hdr : List Byte := []
  /-- Bytes of the PDU passed. -/
  pos : Nat := 0
  /-- Data of the PDU as sent. -/
  data : List Byte := []
  /-- Data bytes of the block under way. -/
  blk : List Byte := []
  /-- Bytes of the block passed. -/
  blkPos : Nat := 0
  /-- Blocks completed. -/
  blocks : Nat := 0
  /-- What is sent. -/
  out : List Byte := []
  deriving DecidableEq, Repr

/-- The 8 bytes of protection information of a block (spec/15 R475). -/
def piBytes (x : Ctx) (ref n : Nat) (blk : List Byte) : List Byte :=
  toBe 2 (crcT10 blk) ++ toBe 2 (bitsOf (x.word 10) 16 16) ++ toBe 4 ((if x.piType = 3 then ref else ref + n) % 2 ^ 32)

/-- One payload byte on transmit: digests and protection information are put into the host's space. -/
def nvtFillByte (x : Ctx) (ref : Nat) (r : NvtTx) (b : Byte) : NvtTx :=
  let h := r.hdr
  let r :=
    if r.pos < 8 || r.pos < pduHlen h then { r with hdr := h ++ [b], out := r.out ++ [b] }
    else if r.pos < pduHeadEnd h then
      let b' := if x.hdgst then (toLe 4 (crc32c h)).getD (r.pos - pduHlen h) 0 else b
      { r with out := r.out ++ [b'] }
    else if pduData h ≤ r.pos && r.pos < pduDataEnd h then
      let fill := decide (x.piType ≠ 0) && bitOf (x.word 10) 8
      let b' := if fill && x.blkData ≤ r.blkPos then (piBytes x ref r.blocks r.blk).getD (r.blkPos - x.blkData) 0 else b
      let blk := if r.blkPos < x.blkData then r.blk ++ [b] else r.blk
      let r := { r with out := r.out ++ [b'], data := r.data ++ [b'] }
      if !fill then r
      else if r.blkPos + 1 = x.blkWire then { r with blk := [], blkPos := 0, blocks := r.blocks + 1 }
      else { r with blk, blkPos := r.blkPos + 1 }
    else if pduDataEnd h ≤ r.pos && pduDd h && x.ddgst then
      { r with out := r.out ++ [(toLe 4 (crc32c r.data)).getD (r.pos - pduDataEnd h) 0] }
    else { r with out := r.out ++ [b] }
  let r := { r with pos := r.pos + 1 }
  if 8 ≤ r.pos && pduPlen r.hdr ≤ r.pos then { r with hdr := [], pos := 0, data := [] } else r

/-- The data of a DATA item with its digests and protection information filled (spec/15 R474, R475). -/
def nvtFill (x : Ctx) (d : List Byte) (bs : List Byte) : List Byte :=
  let n := if dSeg d then dHdrLen d else min bs.length (ethTcpPayload bs)
  bs.take n ++ ((bs.drop n).foldl (nvtFillByte x (leAt d 28 4)) {}).out

/-- TX_ITEM_HANDOFF (spec/07 R207, spec/15 R454, R468): the next item of a queue is handed in.  A bound queue of a
connection hands in its DATA items; other items of a bound queue are the engine's. -/
def State.itemHandoff (s : State) (k : Nat) : State :=
  let x := s.queue k
  match s.boundCtx k with
  | some c =>
    let s := s.flushBound k
    match (s.queue k).nextItem with
    | none => s
    | some i =>
      let y := s.ctx c
      if y.kind ≠ .nvt || descOp i.head ≠ 0 || !s.ctxLive y then s
      else s.handFrames k i (nvtFill y i.head)
  | none =>
    match x.nextItem with
    | some i => s.handFrames k i id
    | none => s

/-- TX_ITEM_COMPLETE (spec/07 R208, spec/15 R465). -/
def State.itemComplete (s : State) (k : Nat) : State :=
  match s.boundCtx k with
  | some _ => (s.flushBound k).completeBound k
  | none => s.completeItem k

/-- The next item of a connection's bound queue, if its op is `op`. -/
def State.ddpItem (s : State) (c op : Nat) : Option (Nat × TxItem) :=
  let y := s.ctx c
  if y.kind ≠ .nvt || !s.ctxLive y || !s.ready 13 then none
  else
    match y.sq with
    | none => none
    | some q =>
      match (s.queue q).nextItem with
      | some i => if descOp i.head = op then some (q, i) else none
      | none => none

/-- End a DDP item with a status: it sends no frame. -/
def State.endDdp (s : State) (q : Nat) (i : TxItem) (status : Nat) : State :=
  s.setItem q { i with phase := .ended, status, toAdmit := 0 }

/-- DDP_SETUP (spec/15 R469): the list becomes the buffer of a CID; a CID already recorded is replaced (log 22). -/
def State.ddpSetup (s : State) (c : Nat) : State :=
  match s.ddpItem c 1 with
  | none => s
  | some (q, i) =>
    let s := s.touchCtx c
    let y := s.ctx c
    let cid := bitsOf (leAt i.head 16 4) 0 16
    let rest := y.ddp.filter (fun e => decide (e.cid ≠ cid))
    if 256 ≤ rest.length then s.endDdp q i 0x2E
    else
      (s.setCtx c { y with ddp := rest ++ [{ cid, segs := i.segs.map (fun g => (g.1, g.2.1)), refTag := leAt i.head 20 4 }] }).endDdp
        q i 0

/-- DDP_TEARDOWN (spec/15 R469, R480): the entry goes once no placement for the CID is in flight. -/
def State.ddpTeardown (s : State) (c : Nat) : State :=
  match s.ddpItem c 2 with
  | none => s
  | some (q, i) =>
    let s := s.touchCtx c
    let y := s.ctx c
    let cid := bitsOf (leAt i.head 16 4) 0 16
    if y.pdu.cid = some cid || y.placing.any (fun p => decide (p.cid = some cid)) then s
    else (s.setCtx c { y with ddp := y.ddp.filter (fun e => decide (e.cid ≠ cid)) }).endDdp q i 0

end Sys2Proof.Machine
end

