-- ==== Sys2Proof/Machine/HostOps.lean ====
section
/-! DEFINITION. Host faces (spec/06): the ends of host reads and writes by requester, links, functions, face
set-up, power states, and management over MCTP. -/

namespace Sys2Proof.Machine

/-! ### Ends of reads and writes by requester (spec/09 R257) -/

/-- A write channel's work has ended (spec/09 R273, R274, spec/15 R463). -/
def State.writeEnded (s : State) (w : HostWrite) (e : WriteEnd) : State :=
  match w.work with
  | .packet p =>
    match e with
    | .done => s.rxDone p
    | _ =>
      let r := match e with | .stale => Reason.staleGen | .bmeOff => 0xA7 | .xlate => 0xA6 | _ => 0xA8
      match s.pkt p with
      | none => s
      | some x => (s.setMark p x (x.mark.dropLate r)).rxStopped p
  | .job slot => s.jobWrite ((s.fnFace w.fn).getD 0) slot e
  | .sto c num => s.stoWrite c num e

/-- A read other than a Translation Request has ended. -/
def State.workRead (s : State) (r : HostRead) (e : ReadEnd) : State :=
  match r.req with
  | .poll l =>
    match e with
    | .ok bs => s.pollDone l bs
    | .gone =>
      if (s.dmaFace r.face).out.any (fun o => decide (o.rd.req = .poll l) && !o.rd.withdrawn)
          || (s.dmaFace r.face).waiting.any (fun q => decide (q.req = .poll l)) then s
      else s.pollGone l
    | _ => s.pollFailed l
  | .desc k first n =>
    match e with
    | .ok bs => s.descArrived k first n bs
    | _ => s.descFailed k first n e
  | .list k item addr =>
    match e with
    | .ok bs => s.listArrived k item addr bs
    | _ => s.itemFailed k item e
  | .data k item seg off =>
    match e with
    | .ok bs => s.dataArrived k item seg off r.stage bs
    | _ => s.itemFailed k item e
  | .job slot => s.jobRead r slot e
  | .sto c num off =>
    match e with
    | .ok bs => s.stoRead c num off bs
    | _ => s.stoReadFailed c num e
  | .xlate _ => s
  | .flush _ _ _ => s

/-- What waited for a translation fails (spec/09 R279). -/
def State.xlateEnded (s : State) : XlateFailed → State
  | .read r => s.workRead r .xlate
  | .write w => s.writeEnded w .xlate
  | .ring r => s.ringXlateFail r
  | .poll l => s.pollFailed l

/-- A read has ended. -/
def State.readEnded (s : State) (r : HostRead × ReadEnd) : State :=
  match r.1.req with
  | .xlate id =>
    let q := s.xlateFailed r.1.face id
    match q.2 with
    | some x => q.1.xlateEnded x
    | none => q.1
  | _ => s.workRead r.1 r.2

/-- A step that may end one read. -/
def endOne (r : State × Option (HostRead × ReadEnd)) : State :=
  match r.2 with
  | some e => r.1.readEnded e
  | none => r.1

/-- A step that may end several reads. -/
def endAll (r : State × List (HostRead × ReadEnd)) : State := r.2.foldl (fun t e => t.readEnded e) r.1

/-- READ_ISSUE (spec/09 R261). -/
def State.doReadIssue (s : State) (f : Nat) : State := if s.ready 5 then endOne (s.readIssue f) else s

/-- READ_COMPLETION and POLL_RETURN: a completion with a tag arrives on an active link (spec/09 R268-R270). -/
def State.doCompletion (s : State) (f tag : Nat) (st : CplStatus) (bytes : List Byte) : State :=
  if (s.link f (tag / 4096)).active then endOne (s.completion f tag st bytes) else s

/-- The outstanding read under a tag is a poll. -/
def State.isPollTag (s : State) (f tag : Nat) : Bool :=
  match s.outRead f tag with
  | some o => o.rd.req.isPoll
  | none => false

/-- READ_TIMEOUT (spec/09 R268). -/
def State.doReadTimeout (s : State) (f tag : Nat) : State := endOne (s.readTimeout f tag)

/-- WRITE_TLP (spec/09 R272). -/
def State.doWriteTlp (s : State) (f l a : Nat) : State :=
  if !s.ready 5 then s
  else
    let r := s.writeTlp f l a
    match r.2 with
    | some (w, e) => r.1.writeEnded w e
    | none => r.1

/-- ATS_TRANSLATION (spec/09 R279). -/
def State.doTranslation (s : State) (f id : Nat) (r : XlateResult) : State :=
  let q := s.translation f id r
  match q.2 with
  | some x => q.1.xlateEnded x
  | none => q.1

/-- INVALIDATE_DEADLINE (spec/09 R280). -/
def State.doInvalDeadline (s : State) (f k page : Nat) : State := (endAll (s.invalDeadline f k page)).settleInvals f

/-! ### Links (spec/04 R110, R111, R114, spec/06 R154-R156, R185-R187) -/

/-- The functions of a link that exist: the PF and the VFs on link 0, the companion on link 1. -/
def State.linkFns (s : State) (f l : Nat) : List Nat :=
  if l = 0 then
    (2048 + f) :: (if (s.fn (2048 + f)).vfEnable then
      (List.range (s.fn (2048 + f)).numVfs).map (fun k => (s.face f).firstInst + k) else [])
  else if (s.face f).mode = 1 then [2052 + f] else []

/-- A function exists (spec/06 R158, R163). -/
def State.fnExists (s : State) (k : Nat) : Bool :=
  match s.fnFace k with
  | none => false
  | some n => (s.linkFns n (fnLink k)).contains k

/-- Configuration requests reach a function and are not answered with retry status. -/
def State.cfgOpen (s : State) (k : Nat) : Bool :=
  match s.fnFace k with
  | none => false
  | some n => s.fnExists k && bitOf s.bring.readyFace n && !(s.face n).inReset && (s.link n (fnLink k)).active

/-- A link's layers are reset: outstanding reads end as timed out (spec/04 R111, spec/09 R271). -/
def State.linkReset (s : State) (f l : Nat) (st : LinkState) : State :=
  let s := s.setLink f l { state := st }
  (endAll (s.linkReadsEnd f l)).settleInvals f

/-- PCIE_LINK_RESET: hot reset or link-down (spec/04 R111, R114). -/
def State.pcieLinkReset (s : State) (f l : Nat) (hot : Bool) : State :=
  if (s.face f).inReset || 3 < f || 1 < l || (s.link f l).state = .down then s
  else (s.linkReset f l .training).raise (if hot then 68 else 69) f (some (2048 + f))

/-- Device Readiness Status, once the endpoint is ready and its link is active (spec/04 R110). -/
def State.sendDrs (s : State) (f l : Nat) : State :=
  let x := s.link f l
  if x.active && bitOf s.bring.readyFace f && !x.drsSent then
    (s.setLink f l { x with drsSent := true }).send (.pcie f l .readinessStatus)
  else s

/-- A PM_PME message held until the link is active is sent (spec/06 R185). -/
def State.releasePme (s : State) (k : Nat) : State :=
  let x := s.fn k
  if !x.pmeHeld then s
  else
    (s.setFn k { x with pmeHeld := false, pmeResendAt := some (s.now + 100000000) }).send
      (.pcie ((s.fnFace k).getD 0) (fnLink k) (.pmPme k))

/-- A function can write again: its rings drain, pending messages go out and polling resumes (spec/08 R250). -/
def State.fnResume (s : State) (k : Nat) : State := ((s.drainFn k).flushVectors k).evalLines

/-- PCIE_DL_ACTIVE: a link of a face out of reset trains (spec/06 R155, R185, R187). -/
def State.pcieDlActive (s : State) (f l rate width : Nat) (flit : Bool) : State :=
  let x := s.face f
  let widths := if l = 0 && x.mode = 0 then [16, 8, 4, 2, 1] else [8, 4, 2, 1]
  if !s.released || x.inReset || 3 < f || (l ≠ 0 && (l ≠ 1 || x.mode ≠ 1)) || (s.link f l).active || !s.clocks.pcie.getD f false
      || 5 < rate || rate < x.maxRate || (!flit && rate = 0) || !widths.contains width then s
  else
    let s := s.setLink f l { state := .l0, rate, width, flit }
    let s := s.setFace f { s.face f with d3cold := false }
    let s := { s with supply := { s.supply with wakeN := setNth s.supply.wakeN f false } }
    let ks := (s.host.fns.map (fun p => p.1)).filter (fun k => decide (s.fnFace k = some f) && decide (fnLink k = l))
    let s := ks.foldl (fun t k => t.releasePme k) (s.sendDrs f l)
    ks.foldl (fun t k => t.fnResume k) s

/-- FACE_READY: the endpoint has finished initialising (spec/04 R110); the primary manager's message that waited
is handed over (spec/06 R171). -/
def State.faceReady (s : State) (f : Nat) : State :=
  if !s.released || 3 < f || (s.face f).inReset || bitOf s.bring.readyFace f || !s.ready 0 then s
  else
    let s := { s with bring := { s.bring with readyFace := putBit s.bring.readyFace f true } }
    let s := (s.sendDrs f 0).sendDrs f 1
    if f = s.glb.primary && s.flt.mgrHeld then { s with flt := { s.flt with mgrHeld := false } }.toManager else s

/-- The L1 substate that the enables select, at most the one asked for (spec/06 R186). -/
def l1Substate (en asked : Nat) : Nat :=
  if asked = 2 && (bitOf en 0 || bitOf en 2) then 2 else if asked ≠ 0 && (bitOf en 1 || bitOf en 3) then 1 else 0

/-- L1_ENTRY (spec/06 R186): ASPM L1, or every function of the link is in D3hot. -/
def State.l1Entry (s : State) (f l substate : Nat) : State :=
  let x := s.link f l
  let k := linkFn f l
  if x.state ≠ .l0 || !(bitOf (s.fn k).aspm 1 || (s.linkFns f l).all (fun j => (s.fn j).d3hot)) then s
  else s.setLink f l { x with state := .l1, substate := l1Substate (s.fn k).l1ss substate }

/-- L1_EXIT (spec/06 R186). -/
def State.l1Exit (s : State) (f l : Nat) : State :=
  let x := s.link f l
  if x.state = .l1 then s.setLink f l { x with state := .l0, substate := 0 } else s

/-- PME_TURN_OFF (spec/06 R187). -/
def State.pmeTurnOff (s : State) (f l : Nat) : State :=
  if !(s.link f l).active then s
  else
    let s := s.send (.pcie f l .pmeToAck)
    if (s.linkFns f l).all (fun k => (s.fn k).d3hot) then
      let s := s.setFace f { s.face f with d3cold := true }
      (s.linkReset f l .l2).raise 69 f (some (2048 + f))
    else s

/-- PME_RESEND (spec/06 R185). -/
def State.pmeResend (s : State) (k : Nat) : State :=
  let x := s.fn k
  match x.pmeResendAt with
  | none => s
  | some t =>
    if !x.pmeStatus || s.now < t then s
    else
      match s.fnFace k with
      | none => s
      | some n =>
        if (s.link n (fnLink k)).active then
          (s.setFn k { x with pmeResendAt := some (t + 100000000) }).send (.pcie n (fnLink k) (.pmPme k))
        else s.setFn k { x with pmeResendAt := none, pmeHeld := true }

/-! ### Functions (spec/06 R163, R183, R184, R188-R191) -/

/-- A function's configuration space at its reset values; PME_En and PME_Status stay (spec/06 R183, R190). -/
def PciFn.resetCfg (x : PciFn) : PciFn :=
  { pmeEn := x.pmeEn, pmeStatus := x.pmeStatus, pmeResendAt := x.pmeResendAt, pmeHeld := x.pmeHeld, flrBusy := x.flrBusy }

/-- VFs are reset: configuration space, instance, event (spec/06 R190). -/
def State.resetVfs (s : State) (is : List Nat) : State :=
  let s := is.foldl (fun t i => t.setFn i (t.fn i).resetCfg) s
  let s := s.resetInsts is
  let s := is.foldl (fun t i => t.setFn i { t.fn i with flrBusy := (t.inst i).resetting }) s
  (is.foldl (fun t i => t.raise 73 i (some i)) s).evalLines

/-- VF_FLR (spec/06 R190). -/
def State.vfFlr (s : State) (i : Nat) : State := if i < 2048 && s.cfgOpen i then s.resetVfs [i] else s

/-- VF_ENABLE: VFs 1 to NumVFs exist, if NumVFs does not exceed TotalVFs (spec/06 R163). -/
def State.vfEnableSet (s : State) (f n : Nat) : State :=
  let k := 2048 + f
  if 3 < f || !s.cfgOpen k || (s.fn k).vfEnable then s
  else (s.setFn k { s.fn k with numVfs := n, vfEnable := decide (n ≤ (s.face f).totalVfs) }).evalLines

/-- VF_DISABLE: every VF that existed is reset (spec/06 R163). -/
def State.vfDisableSet (s : State) (f : Nat) : State :=
  let k := 2048 + f
  if 3 < f || !s.cfgOpen k || !(s.fn k).vfEnable then s
  else
    let is := (s.linkFns f 0).filter (fun j => decide (j < 2048))
    (s.setFn k { s.fn k with vfEnable := false }).resetVfs is

/-- Reads of a function are withdrawn; polls that had not been issued are over (spec/09 R272, spec/06 R188). -/
def State.withdrawFn (s : State) (f k : Nat) : State :=
  let s := s.withdrawReads f (fun r => decide (r.fn = k) && !r.req.isFlush)
  let x := s.dmaFace f
  let s := s.setDmaFace f { x with waiting := x.waiting.filter (fun r => !(decide (r.fn = k) && r.req.isFlush)) }
  s.qmg.lines.foldl (fun t p =>
    if p.2.outstanding && decide (p.2.fn = k) && !(t.dmaFace f).out.any (fun o => decide (o.rd.req = .poll p.1)) then t.pollGone p.1
    else t) s

/-- BME_CLEAR (spec/06 R188). -/
def State.bmeClear (s : State) (k : Nat) : State :=
  match s.fnFace k with
  | none => s
  | some f =>
    if !s.cfgOpen k || !(s.fn k).bme then s
    else
      let s := s.setFn k { s.fn k with bme := false }
      let s := (s.withdrawFn f k).jobsOver f k 5
      (s.queuesOff k).raise 72 (fnInst k) (some (fnInst k))

/-- BME_SET (spec/06 R189): rings drain and pending messages go out; queues in MASTER_OFF stay. -/
def State.bmeSet (s : State) (k : Nat) : State :=
  if !s.cfgOpen k || (s.fn k).bme then s else (s.setFn k { s.fn k with bme := true }).fnResume k

/-- D3HOT_ENTRY (spec/06 R184). -/
def State.d3hotEntry (s : State) (k : Nat) : State :=
  if !s.cfgOpen k then s else (s.setFn k { s.fn k with d3hot := true }).evalLines

/-- D0_RETURN (spec/08 R250). -/
def State.d0Return (s : State) (k : Nat) : State :=
  if !s.cfgOpen k || !(s.fn k).d3hot then s else (s.setFn k { s.fn k with d3hot := false }).fnResume k

/-- MSIX_UNMASK: the mask of a vector or of the function is cleared (spec/08 R249). -/
def State.msixUnmask (s : State) (k vec : Nat) (whole : Bool) : State :=
  if whole then
    if s.cfgOpen k then (s.setFn k { s.fn k with msixMask := false }).flushVectors k else s
  else if vec < fnVectors k && s.fnReachable k then
    (s.setFn k { s.fn k with msix := mapUpd {} (s.fn k).msix vec (fun v => { v with masked := false }) }).flushVectors k
  else s

/-- A power state write: 0 is D0, 3 is D3hot (spec/06 R183). -/
def State.setPower (s : State) (k v : Nat) : State :=
  if v % 4 = 0 then s.d0Return k else if v % 4 = 3 then s.d3hotEntry k else s

/-- A field of a function's configuration space is written (spec/06 R160, R163, R183). -/
def State.cfgWrite (s : State) (k : Nat) (f : CfgField) (v : Nat) : State :=
  let x := s.fn k
  let on : Bool := decide (v % 2 = 1)
  let n := (s.fnFace k).getD 0
  let isPf : Bool := decide (2048 ≤ k) && decide (k < 2052)
  match f with
  | .bme => if on then s.bmeSet k else s.bmeClear k
  | .mse => s.setFn k { x with mse := on }
  | .pmeEn => s.setFn k { x with pmeEn := on }
  | .pmeStatus => if on then s.setFn k { x with pmeStatus := false, pmeResendAt := none, pmeHeld := false } else s
  | .powerState => s.setPower k v
  | .numVfs => if isPf && !x.vfEnable then s.setFn k { x with numVfs := v % 65536 } else s
  | .vfEnable => if !isPf then s else if on then s.vfEnableSet n x.numVfs else s.vfDisableSet n
  | .vfMse => if isPf then s.setFn k { x with vfMse := on } else s
  | .mps => if k < 2048 then s else s.setFn k { x with mps := v % 8 }
  | .mrrs => if k < 2048 then s else s.setFn k { x with mrrs := v % 8 }
  | .cto => s.setFn k { x with cto := v % 16 }
  | .tag10 => s.setFn k { x with tag10 := on }
  | .extTag => s.setFn k { x with extTag := on }
  | .relaxed => s.setFn k { x with relaxed := on }
  | .msixEn => (s.setFn k { x with msixEn := on }).flushVectors k
  | .msixMask => (s.setFn k { x with msixMask := on }).flushVectors k
  | .atsEn => s.setFn k { x with atsEn := on }
  | .pasidEn => if k < 2048 then s else s.setFn k { x with pasidEn := on }
  | .aspm => if k < 2048 then s else s.setFn k { x with aspm := v % 4 }
  | .l1ss => if k < 2048 then s else s.setFn k { x with l1ss := v % 16 }
  | .bar0 => if k < 2048 then s else s.setFn k { x with bar0 := v % 2 ^ 64 }
  | .bar2 => if isPf then s.setFn k { x with bar2 := v % 2 ^ 64 } else s
  | .flr => if on && k < 2048 then s.vfFlr k else s

/-- A field of a function's configuration space as read. -/
def PciFn.cfgRead (x : PciFn) : CfgField → Nat
  | .bme => b2n x.bme
  | .mse => b2n x.mse
  | .pmeEn => b2n x.pmeEn
  | .pmeStatus => b2n x.pmeStatus
  | .powerState => if x.d3hot then 3 else 0
  | .numVfs => x.numVfs
  | .vfEnable => b2n x.vfEnable
  | .vfMse => b2n x.vfMse
  | .mps => x.mps
  | .mrrs => x.mrrs
  | .cto => x.cto
  | .tag10 => b2n x.tag10
  | .extTag => b2n x.extTag
  | .relaxed => b2n x.relaxed
  | .msixEn => b2n x.msixEn
  | .msixMask => b2n x.msixMask
  | .atsEn => b2n x.atsEn
  | .pasidEn => b2n x.pasidEn
  | .aspm => x.aspm
  | .l1ss => x.l1ss
  | .bar0 => x.bar0
  | .bar2 => x.bar2
  | .flr => 0

/-- CONFIG_REQUEST (spec/04 R110, spec/06 R159, R160, spec/19 R583): retry status until the face is ready; a write
captures the function's bus and device number (log 4); a register that the configuration space lacks reads 0. -/
def State.configRequest (s : State) (k bus dev : Nat) (r : CfgReq) : State :=
  match s.fnFace k with
  | none => s
  | some n =>
    if !s.released || (s.face n).inReset || !(s.link n (fnLink k)).active then s
    else if !bitOf s.bring.readyFace n then s.send (.cfg k none)
    else if !s.fnExists k then s.send (.cfg k (some 0xFFFFFFFF))
    else
      match r with
      | .read f => s.send (.cfg k (some ((s.fn k).cfgRead f)))
      | .write f v =>
        let s := if k < 2048 then s else s.setFn k { s.fn k with bus := bus % 256, dev := dev % 32 }
        (s.cfgWrite k f v).send (.cfg k (some 0))
      | .other => s.send (.cfg k (some 0))

/-! ### Face set-up and face reset (spec/06 R157, R162, spec/04 R111) -/

/-- The FACE entry of the applied set-up (spec/06 R175, R177). -/
def State.faceEntry (s : State) (n : Nat) : List Nat :=
  let x := s.face n
  [0x02 + 6 * 256 + 65536, n + x.mode * 4 + x.clk * 8 + x.maxRate * 32 + (2048 + n) * 256, x.firstInst + x.totalVfs * 65536,
   256 + 8 * 65536, (if x.mode = 1 then 256 else 0) + 4096 * 65536, 512 + 4096 * 65536]

/-- The applied pair is valid against the other faces' applied ranges (spec/06 R162). -/
def State.vfRangeOk (s : State) (n first total : Nat) : Bool :=
  decide (first + total ≤ 2048) && (List.range 4).all (fun m =>
    let y := s.face m
    m = n || total = 0 || y.totalVfs = 0 || decide (first + total ≤ y.firstInst) || decide (y.firstInst + y.totalVfs ≤ first))

/-- Face n applies its set-up registers and its FACE entry is rewritten (spec/06 R157, R162, R172, R173). -/
def State.applySetup (s : State) (n : Nat) : State :=
  let old := s.face n
  let w := s.word Reg.hfcFaceSetup [n]
  let v := s.word Reg.hfcFaceVf [n]
  let b := s.word Reg.hfcFaceSubsys [n]
  let first := bitsOf v 0 12
  let total := bitsOf v 16 12
  let ok := s.vfRangeOk n first total
  let x : Face := { old with
    mode := bitsOf w 0 1, clk := if bitsOf w 1 2 = 3 then 0 else bitsOf w 1 2
    maxRate := if 6 ≤ bitsOf w 3 3 then 0 else bitsOf w 3 3
    firstInst := first, totalVfs := if ok then total else 0, ssvid := bitsOf b 0 16, ssid := bitsOf b 16 16
    vfCfgInvalid := !ok }
  let s := s.setFace n x
  let s := if ok then s else s.raise 70 n (some (2048 + n))
  let s := { s with glb := { s.glb with dtFaces := setNth s.glb.dtFaces n (s.faceEntry n), dtGen := (s.glb.dtGen + 2) % 2 ^ 32 } }
  (((List.range old.totalVfs).map (fun k => old.firstInst + k)).filter (fun i =>
    !(decide (x.firstInst ≤ i) && decide (i < x.firstInst + x.totalVfs)))).foldl (fun t i => t.moveOff i n) s

/-- The instances of a face: the tenants of its applied range and its manager. -/
def State.faceInsts (s : State) (n : Nat) : List Nat :=
  (List.range (s.face n).totalVfs).map (fun k => (s.face n).firstInst + k) ++ [2048 + n]

/-- Face reset (spec/04 R111): the endpoint, its links and its functions are reset, its reads retired, and every
instance of the face is reset. -/
def State.faceReset (s : State) (n : Nat) : State :=
  let s := { s with bring := { s.bring with readyFace := putBit s.bring.readyFace n false } }
  let s := s.setFace n { s.face n with inReset := true, d3cold := false }
  let s := (s.setLink n 0 {}).setLink n 1 {}
  let is := s.faceInsts n
  let s := ((2052 + n) :: is).foldl (fun t k => t.setFn k (t.fn k).resetCfg) s
  let s := (s.retireReads n).jobsOver n (2048 + n) 4
  let s := is.foldl (fun t i => t.jobsOver n i 4) (s.jobsOver n (2052 + n) 4)
  let s := s.qmg.lines.foldl (fun t p => if p.2.outstanding && t.lineFace p.2 = n then t.pollGone p.1 else t) s
  (s.resetInsts is).evalLines

/-- PERST_N_FALL (spec/04 R111). -/
def State.perstFall (s : State) (n : Nat) : State :=
  if 3 < n || !s.supply.perstN.getD n false then s
  else
    let s := { s with supply := { s.supply with perstN := setNth s.supply.perstN n false } }
    if s.released then s.faceReset n else s

/-- PERST_N_RISE (spec/06 R157, spec/04 R114). -/
def State.perstRise (s : State) (n : Nat) : State :=
  if 3 < n || s.supply.perstN.getD n false then s
  else
    let s := { s with supply := { s.supply with perstN := setNth s.supply.perstN n true } }
    if !s.released then s
    else
      let s := s.setFace n { s.face n with inReset := false }
      let s := s.applySetup n
      let s := s.setLink n 0 { state := .training }
      let s := if (s.face n).mode = 1 then s.setLink n 1 { state := .training } else s
      (s.raise 67 n (some (2048 + n))).evalLines

/-- PCIE_REF_LOSS (spec/22 R659): a link reset of the face while PERST_N is high. -/
def State.pcieRefLoss (s : State) (n : Nat) : State :=
  let s := { s with clocks := { s.clocks with pcie := setNth s.clocks.pcie n false } }
  if 3 < n || !s.released || (s.face n).inReset then s
  else (s.pcieLinkReset n 0 false).pcieLinkReset n 1 false

/-- Links in L1 over which the block has sent return to L0 (spec/06 R186). -/
def State.wakeLinks (s : State) : State :=
  s.out.foldl (fun t o =>
    match o with
    | .hostRead f l .. => t.l1Exit f l
    | .hostWrite f l .. => t.l1Exit f l
    | .pcie f l _ => t.l1Exit f l
    | _ => t) s

/-! ### MCTP (spec/06 R192; message formats of DMTF: PRESUMED, log 23) -/

/-- The answer to an MCTP control message: completion code and data. -/
def State.mctpAnswer (s : State) (cmd : Nat) (body : List Byte) : List Byte × State :=
  let free (n : Nat) : List Byte := (List.range n).map (fun i => Config.freeByte (s.freeCount + i))
  match cmd with
  | 1 =>
    let eid := beAt body 1 1
    if eid = 0 || eid = 255 then (toBe 1 2, s)
    else (toBe 1 0 ++ toBe 1 0 ++ toBe 1 eid ++ toBe 1 0, { s with glb := { s.glb with mctpEid := eid } })
  | 2 => (toBe 1 0 ++ toBe 1 s.glb.mctpEid ++ toBe 1 0 ++ toBe 1 0, s)
  | 3 => (toBe 1 0 ++ toBe 16 (Config.uuid s.fuses.serial), s)
  | 4 => (toBe 1 0 ++ toBe 1 1 ++ free 4, { s with freeCount := s.freeCount + 4 })
  | 5 => (toBe 1 0 ++ toBe 1 1 ++ toBe 1 1, s)
  | _ => (toBe 1 5, s)

/-- The face carries the MCTP endpoint: link 0 of the primary face, ready and active. -/
def State.mctpOn (s : State) (f : Nat) : Bool :=
  decide (f = s.glb.primary) && bitOf s.fuses.features 11 && bitOf s.bring.readyFace f && (s.link f 0).active

/-- MCTP_CONTROL: a control request (message type 0) is answered in hardware. -/
def State.mctpControl (s : State) (f : Nat) (msg : List Byte) : State :=
  if !s.mctpOn f || beAt msg 0 1 % 128 ≠ 0 || beAt msg 1 1 < 128 then s
  else
    let r := s.mctpAnswer (beAt msg 2 1) (msg.drop 3)
    r.2.send (.pcie f 0 (.mctp (toBe 1 0 ++ toBe 1 (beAt msg 1 1 % 32) ++ toBe 1 (beAt msg 2 1) ++ r.1)))

/-- PLDM_REQUEST: message type 1 goes to firmware, or is answered ERROR_NOT_READY. -/
def State.pldmRequest (s : State) (f : Nat) (msg : List Byte) : State :=
  if !s.mctpOn f || beAt msg 0 1 % 128 ≠ 1 then s
  else if s.ready 18 then s.send (.pldm f msg)
  else s.send (.pcie f 0 (.mctp (toBe 1 1 ++ toBe 1 (beAt msg 1 1 % 32) ++ bytesAt msg 2 2 ++ toBe 1 4)))

/-! ### Block reset (spec/04 R673) -/

/-- A block reset of HFC: every link of every face undergoes a link reset. -/
def State.resetHfc (s : State) : State :=
  (List.range 8).foldl (fun t i =>
    let f := i / 2
    let l := i % 2
    if (t.face f).inReset || (t.link f l).state = .down then t
    else
      let was := (t.link f l).active
      let t := t.linkReset f l .training
      if was then t.raise 69 f (some (2048 + f)) else t) s

/-- A block reset of DMA: outstanding reads end as timed out, staging empties, write channels drop what they held,
started jobs end with ERROR. -/
def State.resetDma (s : State) : State :=
  (List.range 4).foldl (fun t f =>
    let t := endAll ((t.linkReadsEnd f 0).1, (t.linkReadsEnd f 0).2)
    let t := endAll ((t.linkReadsEnd f 1).1, (t.linkReadsEnd f 1).2)
    let ws := (t.dmaFace f).chans.flatMap (fun c => c.2)
    let t := t.setDmaFace f { t.dmaFace f with chans := [] }
    let t := ws.foldl (fun u w => if w.withdrawn then u else u.writeEnded w .dmaReset) t
    (t.dmaFace f).jobs.foldl (fun u j => if !j.done && j.status = 0 then u.jobOver f (j.count % 32) 3 else u) t) s

/-- A block reset of QMG. -/
def State.resetQmg (s : State) : State :=
  let polls (r : HostRead) : Bool := r.req.isPoll
  let s := (List.range 4).foldl (fun t f => t.withdrawReads f polls) s
  let s := s.qmg.lines.foldl (fun t p =>
    t.setLine p.1 { p.2 with shift := 0, fails := 0, outstanding := false, due := t.now }) s
  let s := s.qmg.queues.foldl (fun t p =>
    let x := t.queue p.1
    if x.state = .running || x.state = .stopping || x.state = .stopped then t.queueError p.1 5 else t) s
  let s := s.qmg.rings.foldl (fun t p =>
    if p.2.timerEnd.isSome then t.setRing p.1 { t.ring p.1 with timerEnd := some (t.now + 125 * (t.ring p.1).ctx.coalTime) } else t) s
  let off (v : CmdStat) : CmdStat := if v.busy then { v with busy := false, result := 1 } else v
  { s with qmg := { s.qmg with cmd := s.qmg.cmd.map off, cqCmd := s.qmg.cqCmd.map off, cmdQueue := [none, none, none, none] } }

/-- A block reset of PRS: the Marks inside course admission or the parser are discarded. -/
def State.resetPrs (s : State) : State :=
  s.packets.foldl (fun t q =>
    match t.pkt q.1 with
    | none => t
    | some x =>
      if !x.inside .atParser then t
      else if x.stage = .leaving then
        t.setPkt q.1 { x with mark := { x.mark with flags := { x.mark.flags with stomp := true } } }
      else (t.setMark q.1 x (x.mark.dropLate 0x19)).dropPkt q.1) s

end Sys2Proof.Machine
end

