-- ==== Sys2Proof/Machine/KeystoneOps.lean ====
section
/-! DEFINITION. The Keystone complexes, the lease, takeover and handover, checkpoints (spec/18 R546-R563), and the
boot from flash (spec/04 R103-R109). -/

namespace Sys2Proof.Machine

/-- Address of KSC counter k (spec/18 R563). -/
def kscCounter (k : Nat) : Nat := blockBase 18 + 0x100 + 8 * k

/-- Complex x. -/
def State.cplx (s : State) (x : Nat) : Complex := s.ksc.cplx.getD x {}

/-- The state with a complex replaced. -/
def State.setCplx (s : State) (x : Nat) (c : Complex) : State :=
  { s with ksc := { s.ksc with cplx := setNth s.ksc.cplx x c } }

/-- The readiness bit of a block set or cleared (spec/04 R101, R102). -/
def State.setReady (s : State) (b : Nat) (v : Bool) : State :=
  { s with bring := { s.bring with readySub := putBit s.bring.readySub b v } }

/-! ### Images (spec/04 R104, R105, spec/18 R552) -/

/-- The header checks of R105 that need no cryptography. -/
def State.imageFieldsOk (s : State) (hdrVer key svn codeLen : Nat) : Bool :=
  decide (hdrVer = 1) && decide (4096 ≤ codeLen) && decide (codeLen ≤ 0x800000) && !bitOf s.fuses.revoked key
    && decide (s.fuses.minSvn ≤ svn)

/-- Local address of image slot k (spec/18 R552). -/
def imageBase (k : Nat) : Nat := 0x80000000 + 0x1000000 * k

/-- A little-endian field of the header in an image slot; HBM reads 0 until MEM is ready (spec/18 R548). -/
def State.imageField (s : State) (k off n : Nat) : Nat :=
  if s.ready 16 then leBytes (memReadBytes s.ksc.hbm (imageBase k + off) n) else 0

/-- The image in a slot verifies (spec/04 R105); `sig` says that signature and digest do. -/
def State.imageOk (s : State) (k : Nat) (sig : Bool) : Bool :=
  sig && decide (s.imageField k 0 4 = 0x56484452)
    && s.imageFieldsOk (s.imageField k 4 2) (s.imageField k 4 4 / 65536 % 4) (s.imageField k 0xC 2) (s.imageField k 0x10 4)

/-- A complex's SRAM with code placed from address 0 (spec/04 R104, log 15). -/
def codeMem (code : List Byte) : Mem := memWriteBytes [] 0 code

/-- The code of an image slot as SRAM contents, read byte by byte from the listed bytes of the HBM. -/
def State.imageCode (s : State) (k : Nat) : Mem :=
  let lo := imageBase k + 256
  let n := s.imageField k 0x10 4
  (s.ksc.hbm.filter (fun p => decide (lo ≤ p.1) && decide (p.1 < lo + n))).map (fun p => (p.1 - lo, p.2))

/-! ### The grant (spec/18 R549, R555, R558) -/

/-- Firmware rewrites the FIRMWARE entry (spec/06 R173, R182). -/
def State.writeFirmwareEntry (s : State) (fwVer : Nat) : State :=
  { s with glb := { s.glb with dtFirmware := [fwVer, 1 + 256], dtGen := (s.glb.dtGen + 2) % 2 ^ 32 } }

/-- The lease is granted to a complex with the next epoch (spec/18 R549, R555 step 6). -/
def State.grantLease (s : State) (x : Nat) : State :=
  let c := s.cplx x
  let s := s.setCplx x { c with state := .active, forTakeover := false }
  let s := { s with ksc := { s.ksc with
    active := x, held := true, epoch := (s.ksc.epoch + 1) % 65536, leaseEnd := s.now + 100000
    takeover := false, takeoverAt := none, handover := false, handoverReq := none } }
  let f := s.takeFree
  let s := { f.2 with tap := { f.2.tap with imgSvn := c.svn, imgKey := c.key, ckVer := Config.freeNat f.1 % 256 } }
  ((s.setReady 18 true).writeFirmwareEntry c.fwVer).deliverWaiting

/-- The TAKEOVER notices of the new holder's firmware (spec/18 R555 step 6, spec/10 R311). -/
def State.takeoverNotices (s : State) : State :=
  [0, 1, 2, 3].foldl (fun t n => t.postNotice (2048 + n) { kind := 3, inst := 0, data := t.ksc.active }) s

/-- Events held for the ends that name a complex are delivered once it runs (spec/10 R303). -/
def State.deliverNamed (s : State) (x : Nat) : State :=
  s.ivm.chans.foldl (fun t p =>
    let go (t : State) (e : Bool) : State :=
      if t.endVal p.1 e = 4 + x && ((t.chan p.1).fin e).held then t.mbxEvent p.1 e else t
    go (go t false) true) s

/-! ### The end of a lease (spec/18 R549, R550, R555, R556) -/

/-- The holder's firmware jobs end with ERROR (spec/18 R556). -/
def State.endJobs (s : State) : State :=
  [0, 1, 2, 3].foldl (fun t f =>
    let t := (t.dmaFace f).jobs.foldl (fun (u : State) (j : Job) => u.jobOver f (j.count % 32) 3) t
    (t.suppress f (fun w => match w.work with | .job _ => true | _ => false)).1) s

/-- Writes that waited for journal space reach their target with no lease held: each is stale (spec/18 R550, R553). -/
def State.refuseWaiting (s : State) : State :=
  let ws := s.ksc.jrnlWait
  ws.foldl (fun (t : State) (w : JrnlWait) => t.staleWrite w.cplx w.epoch w.off) { s with ksc := { s.ksc with jrnlWait := [] } }

/-- The standby complex fails while no complex holds the lease: no grant until the next release point (spec/18 R555). -/
def State.standbyFail (s : State) (x : Nat) : State :=
  let s := s.setCplx x { s.cplx x with state := .failed, forTakeover := false }
  ({ s with ksc := { s.ksc with dead := true } }).raise 455 x

/-- A start of a complex begins (spec/18 R555 steps 1-4, R557). -/
def State.startComplex (s : State) (x slot : Nat) (takeover : Bool) : State :=
  s.setCplx x { s.cplx x with state := .starting, loadSlot := slot, forTakeover := takeover }

/-- The lease ends by a failure of its holder: step 1 of the takeover (spec/18 R555). -/
def State.failLease (s : State) : State :=
  let x := s.ksc.active
  let o := 1 - x
  let s := (s.setCplx x { s.cplx x with state := .failed }).setReady 18 false
  let s := { s with ksc := { s.ksc with
    held := false, takeover := true, takeoverAt := some s.now, handover := false, handoverReq := none } }
  let s := ((s.count (kscCounter 0) 1).raise 453 x).endJobs.refuseWaiting
  match (s.cplx o).state with
  | .sync => s
  | .off => s.startComplex o (s.cplx o).imgSlot true
  | .starting => s.setCplx o { s.cplx o with forTakeover := true }
  | .testing => s.startComplex o (s.cplx o).imgSlot true
  | _ => s.standbyFail o

/-- LEASE_END: the lease end passes (spec/18 R549). -/
def State.leaseEnds (s : State) : State := if s.ksc.held && decide (s.ksc.leaseEnd ≤ s.now) then s.failLease else s

/-- LOCKSTEP_MISMATCH of a complex that runs (spec/18 R547, R555, R560). -/
def State.mismatch (s : State) (x : Nat) : State :=
  if 1 < x || !s.complexRuns x then s
  else
    let s := (s.setCplx x { s.cplx x with state := .failed }).count (kscCounter 4) 1
    let holder := s.ksc.held && x = s.ksc.active
    let s := s.raise 451 x none { master := masterWord 2 x 0 }
    if holder then s.failLease else if !s.ksc.held then (s.standbyFail x).setReady 18 false else s

/-- A block-reset reaction for KSC (spec/04 R113, spec/18 R549, R560). -/
def State.resetKsc (s : State) : State := if s.ksc.held then s.failLease else s

/-! ### Lease registers (spec/18 R549, R555, R558) -/

/-- Count a refused renewal or request. -/
def State.refuseLease (s : State) : State := s.count (kscCounter 3) 1

/-- A write to KSC_LEASE_RENEW that reaches the register. -/
def State.renew (m : Master) (epoch : Nat) : Eff := fun s =>
  if m.isFw && s.ksc.held && epoch % 65536 = s.ksc.epoch && s.now ≤ s.ksc.leaseEnd then
    ({ s with ksc := { s.ksc with leaseEnd := s.now + 100000 } }, true)
  else (s.refuseLease, false)

/-- LEASE_RENEW: one by a complex that does not hold the lease is a stale write, and is counted as a renewal refused. -/
def State.leaseRenew (s : State) (m : Master) (epoch : Nat) : State :=
  let t := s.access m (blockBase 18 + 8) 4 epoch (State.renew m epoch)
  match m with
  | .fw _ ep => if s.freshEpoch ep then t else t.refuseLease
  | _ => t

/-- A write to KSC_LEASE_RELEASE that reaches the register. -/
def State.release (m : Master) (epoch : Nat) : Eff := fun s =>
  if m.isFw && s.ksc.held && epoch % 65536 = s.ksc.epoch then
    let x := s.ksc.active
    let s := s.setCplx x { s.cplx x with state := .off }
    (({ s with ksc := { s.ksc with held := false } }).endJobs.refuseWaiting, true)
  else (s, false)

/-- LEASE_RELEASE. -/
def State.leaseRelease (s : State) (m : Master) (epoch : Nat) : State :=
  s.access m (blockBase 18 + 0xC) 4 epoch (State.release m epoch)

/-- A complex's write to KSC_LEASE_REQ (spec/18 R551, R555, R558). -/
def State.request (x jpos : Nat) : Eff := fun s =>
  let c := s.cplx x
  if c.state ≠ .sync then (s.refuseLease, false)
  else if s.ksc.held then
    if s.bit Reg.kscReturnCtl [] 0 then
      (({ s with ksc := { s.ksc with handover := true, handoverReq := some (x, s.now) } }).raise 459 s.ksc.active, true)
    else ((s.setCplx x { c with state := .off }).raise 458 x, true)
  else if s.ksc.dead || jpos % 2 ^ 32 ≠ s.ksc.j % 2 ^ 32 then (s.refuseLease, false)
  else if s.ksc.takeover then ((s.grantLease x).takeoverNotices, true)
  else
    let s := (s.grantLease x).count (kscCounter 1) 1
    (({ s with tap := { s.tap with confirmed := false } }).raise 460 x, true)

/-- LEASE_REQ: exempt from the check of stale writes. -/
def State.leaseReq (s : State) (m : Master) (jpos : Nat) : State :=
  match m with
  | .fw x _ => s.access m (blockBase 18 + 0x10) 4 jpos (State.request x jpos) true
  | _ => s.access m (blockBase 18 + 0x10) 4 jpos noEff

/-- TAKEOVER_DEADLINE (spec/18 R555). -/
def State.takeoverLate (s : State) : State :=
  match s.ksc.takeoverAt with
  | some t =>
    if s.ksc.takeover && decide (t + 2000000 ≤ s.now) then
      ({ s with ksc := { s.ksc with takeoverAt := none } }).raise 454 0
    else s
  | none => s

/-- HANDOVER_LAPSE (spec/18 R558). -/
def State.handoverLapses (s : State) : State :=
  match s.ksc.handoverReq with
  | some (x, t) =>
    if s.ksc.held && decide (t + 2000000 ≤ s.now) then
      ({ s with ksc := { s.ksc with handover := false, handoverReq := none } }).raise 461 x
    else s
  | none => s

/-! ### Checkpoints (spec/18 R554) -/

/-- A write to KSC_CKPT_COMMIT that reaches the register. -/
def State.commitCkpt (m : Master) (slot jpos : Nat) : Eff := fun s =>
  let jpos := jpos % 2 ^ 48
  if m.isFw && s.ksc.held && jpos ≤ s.ksc.j && s.ksc.ckptJpos ≤ jpos then
    (({ s with ksc := { s.ksc with ckptSlot := slot % 2, ckptJpos := jpos, ckptTick := s.now, ckptFrom := s.now } }).count
      (kscCounter 5) 1, true)
  else (s, false)

/-- CKPT_DEADLINE. -/
def State.ckptLate (s : State) : State :=
  if s.bring.btlState = 4 && s.ksc.ckptFrom + 1100000 ≤ s.now then
    ({ s with ksc := { s.ksc with ckptFrom := s.now } }).raise 457 0
  else s

/-! ### Complex commands (spec/18 R557) -/

/-- A write to KSC_CMPLX_CMD: 1 START, 2 STOP, 3 TEST. -/
def State.complexCommand (m : Master) (op x slot : Nat) : Eff := fun s =>
  if !m.isFw || s.ksc.cmd.busy then (s, false)
  else
    let fin (t : State) (r : Nat) : State := { t with ksc := { t.ksc with cmd := { result := r } } }
    let c := s.cplx x
    let idle : Bool := c.state = .off || c.state = .failed
    if op = 0 || 3 < op || 1 < x || (s.ksc.held && x = s.ksc.active) then (fin s 2, true)
    else if op = 1 && idle then (fin (s.startComplex x (slot % 2) false) 0, true)
    else if op = 2 && c.state = .sync then (fin (s.setCplx x { c with state := .off }) 0, true)
    else if op = 3 && idle then (fin (s.setCplx x { c with state := .testing }) 0, true)
    else (fin s 1, true)

/-- The word of a write to KSC_CMPLX_CMD. -/
def complexWord (op x slot : Nat) : Nat := op + x % 2 * 8 + slot % 2 * 16

/-- COMPLEX_STARTED: a starting complex ends steps 2-4 of R555. -/
def State.complexStarted (s : State) (x : Nat) (testOk verifyOk : Bool) : State :=
  let c := s.cplx x
  if 1 < x || c.state ≠ .starting then s
  else
    let k := c.loadSlot
    let ok := s.imageOk k verifyOk
    if testOk && ok then
      (s.setCplx x { c with state := .sync, imgSlot := k, verifyFail := false, forTakeover := false
                            fwVer := s.imageField k 0x18 4, svn := s.imageField k 0xC 2
                            key := s.imageField k 4 4 / 65536 % 4, sram := s.imageCode k }).deliverNamed x
    else
      let c' : Complex := { c with imgSlot := if testOk then k else c.imgSlot, verifyFail := if testOk then true else c.verifyFail }
      if c.forTakeover then (s.setCplx x c').standbyFail x
      else (s.setCplx x { c' with state := .failed }).raise 455 x

/-- COMPLEX_TEST_END. -/
def State.complexTested (s : State) (x : Nat) (pass : Bool) : State :=
  let c := s.cplx x
  if 1 < x || c.state ≠ .testing then s
  else s.setCplx x { c with state := if pass then .off else .failed, testPass := pass }

/-! ### Boot (spec/04 R103-R109) -/

/-- The slots that the BTL tries, in order (spec/04 R106). -/
def bootOrder (bootSel : Bool) (i : BootIn) : List Nat :=
  if bootSel then [2]
  else if (i.slots.getD 0 {}).seq < (i.slots.getD 1 {}).seq then [1, 0, 2] else [0, 1, 2]

/-- A slot of the flash verifies (spec/04 R105). -/
def State.slotOk (s : State) (x : SlotIn) : Bool :=
  x.magicOk && x.sigOk && x.digestOk && s.imageFieldsOk x.hdrVer (x.key % 4) x.svn x.codeLen

/-- The boot fails (spec/04 R108). -/
def State.bootFails (s : State) : State :=
  ({ s with bring := { s.bring with btlState := 5 } }).raise 6 0

/-- The image of a slot is started on a complex (spec/04 R106, spec/18 R546). -/
def State.bootStart (s : State) (x k : Nat) (v : SlotIn) : State :=
  let s := s.setCplx x { s.cplx x with fwVer := v.fwVer, svn := v.svn, key := v.key % 4, sram := codeMem v.code }
  let s := s.setCplx (1 - x) { s.cplx (1 - x) with state := if x = 1 then .failed else .off }
  let s := { s with bring := { s.bring with
    btlState := 4, btlSlot := k, btlComplex := x, btlFwVer := v.fwVer, btlStartTick := s.now } }
  let s := { s with ksc := { s.ksc with ckptFrom := s.now } }
  let s := s.grantLease x
  { s with tap := { s.tap with ckWritten := s.tap.ckVer, confirmed := true } }

/-- Try the slots that are left. -/
def State.bootTry (s : State) (x : Nat) (i : BootIn) : List Nat → State
  | [] => s.bootFails
  | k :: ks =>
    let v := i.slots.getD k {}
    if s.slotOk v then s.bootStart x k v
    else
      let s := { s with bring := { s.bring with btlSlotBad := putBit s.bring.btlSlotBad k true } }
      (if ks = [] then s else s.raise 5 k).bootTry x i ks

/-- BOOT_COMPLETE: the BTL ends (spec/04 R103, R106, R108). -/
def State.bootComplete (s : State) (i : BootIn) : State :=
  if !s.released || !s.ready 0 || s.bring.btlState = 0 || 4 ≤ s.bring.btlState then s
  else
    let s := { s with bring := { s.bring with btlDirBackup := i.dir = 1 } }
    if 2 ≤ i.dir then s.bootFails
    else if !i.okA && !i.okB then
      let s := (s.setCplx 0 { s.cplx 0 with state := .failed }).setCplx 1 { s.cplx 1 with state := .failed }
      ({ s with bring := { s.bring with btlSelftestFail := true } }).bootFails
    else s.bootTry (if i.okA then 0 else 1) i (bootOrder s.supply.bootSel i)

end Sys2Proof.Machine
end

