-- ==== Sys2Proof/Machine/MasonOps.lean ====
section
/-! DEFINITION. The Mason clusters: delivery, the queue registers, returns, and the clusters' service states
(spec/01 R36, spec/18 R564-R575). -/

namespace Sys2Proof.Machine

/-- Address of XPE counter k of cluster c (spec/18 R575). -/
def xpeCounter (c k : Nat) : Nat := blockBase 17 + 0x2000 + 0x100 * c + 8 * k

/-- Address of XPE_REASON_COUNT_r (spec/18 R575). -/
def xpeReason (r : Nat) : Nat := blockBase 17 + 0x3000 + 8 * r

/-- Cluster c. -/
def State.cluster (s : State) (c : Nat) : Cluster := s.xpe.clusters.getD c {}

/-- The state with a cluster replaced. -/
def State.setCluster (s : State) (c : Nat) (x : Cluster) : State :=
  { s with xpe := { s.xpe with clusters := setNth s.xpe.clusters c x } }

/-- Slot k of a cluster. -/
def Cluster.slot (x : Cluster) (k : Nat) : MSlot := mapGet {} x.slots k

/-- The cluster with a slot replaced. -/
def Cluster.setSlot (x : Cluster) (k : Nat) (v : MSlot) : Cluster := { x with slots := mapSet {} x.slots k v }

/-- Mason code runs on the cluster's cores (spec/18 R572). -/
def Cluster.runs (x : Cluster) : Bool := x.state = .inService || x.state = .draining

/-- The IN clusters in cluster order (spec/18 R567). -/
def State.inClusters (s : State) : List Nat := (List.range 4).filter (fun c => (s.cluster c).state = .inService)

/-- The readiness bit of XPE: at least one cluster is IN (spec/18 R572). -/
def State.xpeReady (s : State) : State := s.setReady 17 (s.inClusters ≠ [] && !s.inReset 17)

/-- Free slots of a cluster, lowest first. -/
def Cluster.freeSlots (x : Cluster) : List Nat := (List.range 128).filter (fun k => (x.slot k).st = .free)

/-- One of a cluster's free slots; the spec does not say which (log 12, log 27). -/
def State.pickSlot (s : State) (c : Nat) : Option Nat × State :=
  match (s.cluster c).freeSlots with
  | [] => (none, s)
  | k :: ks =>
    let f := s.takeFree
    (some ((k :: ks).getD (Config.freeNat f.1 % (ks.length + 1)) k), f.2)

/-- Mason local address of a slot (spec/18 R565). -/
def slotBase (k : Nat) : Nat := 0x800000 + 0x4000 * k

/-- The Mark that lies in a slot (spec/18 R566). -/
def Cluster.slotMark (x : Cluster) (k : Nat) : Mark := Mark.ofBits (leBytes (memReadBytes x.mem (slotBase k) 64))

/-- The frame that lies in a slot. -/
def Cluster.slotFrame (x : Cluster) (k len : Nat) : List Byte := memReadBytes x.mem (slotBase k + 0x40) len

/-! ### Delivery (spec/18 R567) -/

/-- The cluster a packet of this hash goes to. -/
def State.masonOf (s : State) (hash : Nat) : Option Nat :=
  match s.inClusters with
  | [] => none
  | c :: cs => (c :: cs)[hash % (cs.length + 1)]?

/-- Place a packet's Mark and frame in a slot and make it visible. -/
def State.masonPlace (s : State) (c k : Nat) (x : Packet) : State :=
  let cl := s.cluster c
  let mem := memWriteBytes (memWriteBytes cl.mem (slotBase k) x.mark.toBytes) (slotBase k + 0x40) (x.bytes.take 10240)
  let cl := { cl with mem, xq := cl.xq ++ [k] }
  s.setCluster c (cl.setSlot k { st := .waiting, inst := x.mark.inst, pass := x.mark.pass, mark := x.mark })

/-- MASON_DELIVERY: the oldest whole packet at the Masons exit goes to a free slot of its hash's cluster. -/
def State.masonDelivery (s : State) : State :=
  match s.oldestAt .exc with
  | none => s
  | some (p, x) =>
    if x.prov || !s.ready 14 || !s.ready 17 then s
    else
      match s.masonOf x.mark.hash with
      | none => s
      | some c =>
        if (s.cluster c).freeSlots = [] then s
        else
          let d := s.dequeueCheck 45 p x
          if d.1 then d.2
          else
            let r := d.2.pickSlot c
            match r.1 with
            | none => s
            | some k =>
              let s := (r.2.itemTagGone x).masonPlace c k x
              let s := (s.count (tmsCounter 45 0) 1).count (tmsCounter 45 1) x.mark.len
              (s.count (xpeCounter c 0) 1).removePkt p

/-! ### The queue registers (spec/18 R568) -/

/-- A cluster's queue registers can be reached by its cores. -/
def State.coresUp (s : State) (c : Nat) : Bool := decide (c < 4) && (s.cluster c).runs && !s.inReset 17

/-- XQ_POP: the oldest delivered slot is taken; the word is 0 when none was waiting. -/
def State.xqPop (s : State) (c : Nat) : State :=
  if !s.coresUp c then s
  else
    let cl := s.cluster c
    match cl.xq with
    | [] => s.send (.pop c 0)
    | k :: rest =>
      let v := { cl.slot k with st := .popped, since := s.now, raised := false }
      (s.setCluster c ({ cl with xq := rest }.setSlot k v)).send (.pop c (k + 2 ^ 31))

/-- XQ_FREE_POP: a free slot is taken for a new packet. -/
def State.xqFreePop (s : State) (c : Nat) : State :=
  if !s.coresUp c then s
  else
    let r := s.pickSlot c
    match r.1 with
    | none => s.send (.pop c 0)
    | some k =>
      (r.2.setCluster c ((r.2.cluster c).setSlot k { st := .fresh, isFree := true, since := s.now })).send (.pop c (k + 2 ^ 31))

/-- The fields of a word written to XQ_RET. -/
def retEntryOf (w : Nat) : RetEntry :=
  { slot := bitsOf w 0 7, action := if bitsOf w 8 2 = 3 then 1 else bitsOf w 8 2, course := bitsOf w 10 2
    courseSel := bitOf w 12, len := bitsOf w 16 14 }

/-- Bytes that Mason code has stored: to its cluster's SRAM and slots, or to the Mason HBM area (spec/18 R565). -/
def State.masonStore (s : State) (c : Nat) (a : Nat) (b : Byte) : State :=
  if a < 0x200000 || (0x800000 ≤ a && a < 0xA00000) then
    let cl := s.cluster c
    s.setCluster c { cl with mem := memWrite cl.mem a b }
  else if 0x40000000 ≤ a && a < 0x80000000 && s.ready 16 then { s with ksc := { s.ksc with hbm := memWrite s.ksc.hbm a b } }
  else s

/-- XQ_RET: a slot the cluster's code holds goes to the return FIFO of 64 entries, or its core stalls. -/
def State.xqRet (s : State) (c w : Nat) (stores : List (Nat × Byte)) : State :=
  if !s.coresUp c then s
  else
    let s := stores.foldl (fun (t : State) (p : Nat × Byte) => t.masonStore c p.1 p.2) s
    let e := retEntryOf w
    let cl := s.cluster c
    let v := cl.slot e.slot
    if v.st ≠ .popped && v.st ≠ .fresh then s.count (xpeCounter c 5) 1
    else
      let cl := cl.setSlot e.slot { v with st := .returned }
      s.setCluster c (if cl.ret.length < 64 && cl.stalled = [] then { cl with ret := cl.ret ++ [e] }
        else { cl with stalled := cl.stalled ++ [e] })

/-! ### Returns (spec/01 R36, spec/18 R568-R570) -/

/-- What an entry asks for in the end: 0 RETURN, 1 DISCARD, 2 NEW; the flag tells an action that does not fit the
slot's origin. -/
def actionOf (v : MSlot) (e : RetEntry) : Nat × Bool :=
  if e.action = 1 || e.len < 14 || 10240 < e.len then (1, false)
  else if (e.action = 0 && v.isFree) || (e.action = 2 && !v.isFree) then (1, true)
  else (e.action, false)

/-- The head entry of a return FIFO has been taken: its slot is free, and a stalled write moves in. -/
def State.retTaken (s : State) (c : Nat) (e : RetEntry) : State :=
  let cl := (s.cluster c).setSlot e.slot {}
  let cl := { cl with ret := cl.ret.tail }
  s.setCluster c (match cl.stalled with
    | [] => cl
    | n :: rest => { cl with ret := cl.ret ++ [n], stalled := rest })

/-- The fields that Mason code may change, taken from `m` into `k` (spec/01 R36). -/
def masonFields (k m : Mark) : Mark :=
  { k with
    cls := m.cls, colour := m.colour, queue := m.queue, dstPort := m.dstPort, user := m.user, reason := m.reason
    flags := { k.flags with
      drop := m.flags.drop, mirror := m.flags.mirror, tsReq := m.flags.tsReq, recirc := m.flags.recirc
      exception := m.flags.exception, noLearn := m.flags.noLearn } }

/-- The Mark of a RETURN before course admission (spec/01 R36). -/
def State.returnMark (s : State) (kept given : Mark) (e : RetEntry) : Mark :=
  let m := { masonFields kept given with
    act := .exc, entAct := .exc, course := if e.courseSel then e.course else kept.course, len := e.len }
  if given.inst = kept.inst then m else s.writeInst m given.inst

/-- The Mark of a NEW (spec/18 R569). -/
def State.newMark (s : State) (given : Mark) (e : RetEntry) : Mark :=
  let m := { masonFields {} given with
    act := .exc, entAct := .exc, pass := 0, srcPort := globalPort s.moduleId 45, len := e.len
    course := if e.courseSel then e.course else given.course, ts := s.now % 2 ^ 32 }
  s.writeInst m given.inst

/-- Hand a Mark and a frame to course admission; nothing happens while no EXC slot can be taken (spec/01 R28). -/
def State.masonAdmit (s : State) (c : Nat) (e : RetEntry) (m : Mark) (bs : List Byte) (fresh : Bool) (k : Nat) : State :=
  let r := s.newPkt { mark := m, bytes := bs, stage := .waitSlot, fresh, since := s.now }
  let t := r.2.createMark r.1
  match t.pkt r.1 with
  | some y => if y.stage = .atParser then (t.count (xpeCounter c k) 1).retTaken c e else s
  | none => s

/-- Act on the head of a cluster's return FIFO where it asks for `act`. -/
def State.onReturn (s : State) (c act : Nat) (f : RetEntry → MSlot → Bool → State) : State :=
  if 3 < c || s.inReset 17 then s
  else
    match (s.cluster c).ret with
    | [] => s
    | e :: _ =>
      let v := (s.cluster c).slot e.slot
      let a := actionOf v e
      if a.1 = act then f e v a.2 else s

/-- MASON_RETURN: readmission under R36, after the stale-slot and epoch checks (spec/18 R569, R570, spec/12 R367). -/
def State.masonReturn (s : State) (c : Nat) : State :=
  s.onReturn c 0 (fun e v _ =>
    let given := (s.cluster c).slotMark e.slot
    let m := s.returnMark v.mark given e
    if v.stale && given.inst = v.inst then ((s.count (xpeCounter c 1) 1).count (xpeReason Reason.staleGen) 1).retTaken c e
    else if m.epoch ≠ s.rules.epoch then ((s.count (xpeCounter c 1) 1).count (clsCounter m.course 9) 1).retTaken c e
    else s.masonAdmit c e m ((s.cluster c).slotFrame e.slot e.len) false 1)

/-- MASON_NEW: admission with a fresh EXC Mark (spec/18 R569). -/
def State.masonNew (s : State) (c : Nat) : State :=
  s.onReturn c 2 (fun e _ _ =>
    s.masonAdmit c e (s.newMark ((s.cluster c).slotMark e.slot) e) ((s.cluster c).slotFrame e.slot e.len) true 3)

/-- MASON_DISCARD: the packet is discarded with the reason in its slot's Mark (spec/18 R569). -/
def State.masonDiscard (s : State) (c : Nat) : State :=
  s.onReturn c 1 (fun e _ misfit =>
    let s := (s.count (xpeCounter c 2) 1).count (xpeReason ((s.cluster c).slotMark e.slot).reason) 1
    (if misfit then s.count (xpeCounter c 6) 1 else s).retTaken c e)

/-- SLOT_HOLD_EXPIRY: Mason code holds a slot longer than hold_us (spec/18 R571). -/
def State.slotHold (s : State) (c k : Nat) : State :=
  let cl := s.cluster c
  let v := cl.slot k
  let us := s.fld Reg.xpeClusterCfg [c] 0 16
  if 3 < c || (v.st ≠ .popped && v.st ≠ .fresh) || v.raised || us = 0 || s.now ≤ v.since + 1000 * us then s
  else ((s.setCluster c (cl.setSlot k { v with raised := true })).count (xpeCounter c 4) 1).raise 419 c

/-! ### Clusters in and out of service (spec/18 R572, R573) -/

/-- End a cluster command. -/
def State.endXpe (s : State) (result : Nat) : State := { s with xpe := { s.xpe with cmd := { busy := false, result } } }

/-- The state of a cluster changed. -/
def State.setClusterSt (s : State) (c : Nat) (st : UnitSt) : State := (s.setCluster c { s.cluster c with state := st }).xpeReady

/-- A write to XPE_CMD: 1 DRAIN, 2 TEST, 3 RETURN. -/
def State.clusterCommand (m : Master) (op c : Nat) : Eff := fun s =>
  if !m.isFw || s.xpe.cmd.busy || 3 < c then (s, false)
  else
    let st := (s.cluster c).state
    (match op with
     | 1 =>
       if st ≠ .inService then s.endXpe 1
       else if s.inClusters.length ≤ 1 then s.endXpe 2
       else (s.setClusterSt c .draining).endXpe 0
     | 2 => if st = .out || st = .failed then (s.setClusterSt c .testing).endXpe 0 else s.endXpe 1
     | 3 =>
       if st ≠ .out then s.endXpe 1
       else
         let s := s.setCluster c { s.cluster c with entry := s.word Reg.xpeClusterCtl [c] }
         (s.setClusterSt c .inService).endXpe 0
     | _ => s.endXpe 2, true)

/-- The word of a write to XPE_CMD (spec/18 R574). -/
def clusterWord (op c : Nat) : Nat := op + c % 4 * 4

/-- CLUSTER_OUT: a draining cluster holds no slot and its return FIFO is empty. -/
def State.clusterOut (s : State) (c : Nat) : State :=
  let cl := s.cluster c
  if 3 < c || cl.state ≠ .draining || cl.slots ≠ [] || cl.ret ≠ [] || cl.stalled ≠ [] then s
  else (s.setClusterSt c .out).raise 420 c

/-- CLUSTER_TEST_END: the test clears the SRAM and sets test_pass; a failure raises xpe.cluster_fail. -/
def State.clusterTestEnd (s : State) (c : Nat) (pass : Bool) : State :=
  let cl := s.cluster c
  if 3 < c || cl.state ≠ .testing then s
  else
    let cl := { cl with testPass := pass, mem := cl.mem.filter (fun (p : Nat × Byte) => decide (0x200000 ≤ p.1)) }
    let s := (s.setCluster c cl).setClusterSt c (if pass then .out else .failed)
    if pass then s else s.raise 421 c

/-- A block reset of XPE: packets in slots and return FIFOs are discarded with the reasons their Marks carry (spec/18
R573). -/
def State.resetXpe (s : State) : State :=
  (List.range 4).foldl (fun (t : State) c =>
    let cl := t.cluster c
    let t := cl.slots.foldl (fun (u : State) (p : Nat × MSlot) => u.count (xpeReason (cl.slotMark p.1).reason) 1) t
    t.setCluster c { cl with slots := [], xq := [], ret := [], stalled := [] }) s

end Sys2Proof.Machine
end

