-- ==== Sys2Proof/Machine/PlumbOps.lean ====
section
/-! DEFINITION. The Plumb's own registers, memory errors, injection, and factory test mode (spec/19 R577-R596). -/

namespace Sys2Proof.Machine

/-! ### Memory errors (spec/19 R578, R579) -/

/-- An error in an on-die memory of a block; the number of the memory, its detail, is not in the spec (log 12). -/
def State.memError (s : State) (b uncorr : Nat) : State :=
  if 20 < b || !s.released then s
  else
    let f := s.takeFree
    f.2.raise (blockSrc b + uncorr) (Config.freeNat f.1) none { master := masterWord 4 b 0 }

/-- MEM_CORR. -/
def State.memCorr (s : State) (b : Nat) : State := s.memError b 0

/-- MEM_UNCORR. -/
def State.memUncorr (s : State) (b : Nat) : State := s.memError b 1

/-- An error in an HBM read at an address; the reader acts as its own command says. -/
def State.hbmError (s : State) (src addr : Nat) : State :=
  if s.released then s.raise src 0 none { addr, master := masterWord 4 16 0, access := 1 } else s

/-! ### Acknowledgement and the error pin (spec/19 R582, R585, R593) -/

/-- A write to FLT_PEND_g: each 1 clears its pending bit. -/
def State.pendClear (g data : Nat) : Eff := fun s =>
  ({ s with flt := { s.flt with pend := mapUpd 0 s.flt.pend g (fun w =>
      (List.range 32).foldl (fun v i => if bitOf data i then putBit v i false else v) w) } }, true)

/-- A write to FLT_CAP_SRC_x: a 1 in valid acknowledges the class. -/
def State.captureAck (x data : Nat) : Eff := fun s =>
  if bitOf data 10 then
    let c := s.flt.caps.getD x {}
    ({ s with flt := { s.flt with caps := setNth s.flt.caps x { c with valid := false, count := 0 } } }, true)
  else (s, true)

/-- A write to FLT_ERRPIN: a 1 in asserted releases the pin. -/
def State.errpinRelease (data : Nat) : Eff := fun s =>
  (if bitOf data 0 then { s with flt := { s.flt with errpin := false } } else s, true)

/-- ERR_N is driven low (spec/03 R73, spec/19 R585). -/
def State.errN (s : State) : Bool := s.flt.errpin || s.supply.tripLatch

/-- A write to FLT_INJECT (spec/19 R590). -/
def State.faultInject (data : Nat) : Eff := fun s =>
  let src := bitsOf data 0 10
  if s.tap.ftMode && Reg.srcDefined src then
    ((s.count (fltCounter 5) 1).raise src (s.word Reg.fltInjectDetail []) none { master := masterWord 6 0 0 }, true)
  else ((s.count (fltCounter 6) 1).raise 483 0, false)

/-! ### The TAP (spec/03 R96, spec/19 R589, R596) -/

/-- TAP_INSTRUCTION: an instruction is loaded; the TAP needs VIN.  The code of IDCODE is not in the spec (log 12). -/
def State.tapInstruction (s : State) (ir : Nat) : State :=
  if s.supply.phase = .off then s
  else
    let s := { s with tap := { s.tap with ir := ir % 256 } }
    if ir % 256 = Config.tapIdcode % 256 then s.send (.tap 0x08128A63) else s

/-- FT_CHALLENGE: the challenge is shifted out while TEST_MODE was sampled as 1; the instruction acts as BYPASS
otherwise. -/
def State.ftChallenge (s : State) : State :=
  if !s.released || s.tap.ir ≠ 0x30 || !s.supply.testMode then s
  else s.send (.tap (Config.challenge s.tap.draw % 2 ^ 64))

/-- FT_UNLOCK at Update-DR: the signature is verified. -/
def State.ftUnlock (s : State) (sig : Nat) : State :=
  if !s.released || s.tap.ir ≠ 0x31 || !s.supply.testMode || 8 ≤ s.tap.fails then s
  else if Config.ftVerify (Config.challenge s.tap.draw % 2 ^ 64) s.fuses.serial (sig % 2 ^ 768) then
    let s := s.eraseKeys
    ({ s with tap := { s.tap with ftMode := true } }).raise 9 0
  else ({ s with tap := { s.tap with fails := s.tap.fails + 1, draw := s.tap.draw + 1 } }).raise 8 0

end Sys2Proof.Machine
end

