-- ==== Sys2Proof/Machine/CourseOps.lean ====
section
/-! DEFINITION. Courses in and out of service (spec/21 R627-R630), the confirmation of an upgrade (R646) and the
minimum security version (R648). -/

namespace Sys2Proof.Machine

/-! ### Courses (spec/21 R628) -/

/-- The readiness bit of a course set or cleared (spec/04 R101, R102). -/
def State.setCourseReady (s : State) (c : Nat) (v : Bool) : State :=
  { s with bring := { s.bring with readyCourse := putBit s.bring.readyCourse c v } }

/-- The state with a course replaced. -/
def State.setCourse (s : State) (c : Nat) (x : Course) : State :=
  { s with courses := { s.courses with list := setNth s.courses.list c x } }

/-- Course c. -/
def State.course (s : State) (c : Nat) : Course := s.courses.list.getD c {}

/-- End a course command. -/
def State.endCourse (s : State) (result : Nat) : State :=
  { s with courses := { s.courses with cmd := { busy := false, result } } }

/-- An enabled line port maps to the course. -/
def State.courseMapped (s : State) (c : Nat) : Bool :=
  (List.range 32).any (fun n => (s.port n).running && decide (s.fld Reg.prsPortCourse [n] 0 2 = c))

/-- DRAIN. -/
def State.courseDrain (s : State) (c : Nat) : State :=
  if s.courseSt c ≠ .inService then s.endCourse 1
  else if s.courseMapped c || (List.range 4).all (fun d => d = c || s.courseSt d ≠ .inService) then s.endCourse 2
  else ((s.setCourse c { s.course c with state := .draining }).setCourseReady c false).endCourse 0

/-- TEST. -/
def State.courseTest (s : State) (c : Nat) : State :=
  if s.courseSt c = .out || s.courseSt c = .failed then (s.setCourse c { s.course c with state := .testing }).endCourse 0
  else s.endCourse 1

/-- RETURN: the slots are allocated, the course admits again and its readiness bit rises. -/
def State.courseReturn (s : State) (c : Nat) : State :=
  if s.courseSt c ≠ .out then s.endCourse 1
  else (((s.setCourse c { s.course c with state := .inService }).allocateSlots c).setCourseReady c true).endCourse 0

/-- A write to PRS_COURSE_CMD: 1 DRAIN, 2 TEST, 3 RETURN (spec/21 R630). -/
def State.courseCommand (m : Master) (op c : Nat) : Eff := fun s =>
  if !m.isFw || s.courses.cmd.busy || 3 < c then (s, false)
  else
    (match op with
     | 1 => s.courseDrain c
     | 2 => s.courseTest c
     | 3 => s.courseReturn c
     | _ => s.endCourse 2, true)

/-- Address of PRS_COURSE_CMD. -/
def courseCmdAddr : Nat := blockBase 8 + 0x8100

/-- The word of a write to PRS_COURSE_CMD. -/
def courseWord (op c : Nat) : Nat := op + c % 4 * 4

/-- COURSE_OUT: a draining course holds no admission slot and no packet at the recirculation port names it. -/
def State.courseOut (s : State) (c : Nat) : State :=
  let empty := (List.range 8).all (fun a => (s.rules.slots.getD (c * 8 + a) {}).inUse = 0)
  let named := s.packets.any (fun (p : Nat × Packet) => decide (p.2.mark.course = c)
    && ((p.2.stage = .queued && decide (p.2.eg = .act .recirc)) || (p.2.stage = .waitSlot && decide (p.2.mark.entAct = .recirc))))
  if 3 < c || s.courseSt c ≠ .draining || !empty || named then s
  else s.setCourse c { s.course c with state := .out }

/-- COURSE_TEST_END: no Plumb event is raised. -/
def State.courseTestEnd (s : State) (c : Nat) (pass : Bool) : State :=
  if 3 < c || s.courseSt c ≠ .testing then s
  else s.setCourse c { state := if pass then .out else .failed, testPass := pass }

/-- A write to PRS_ADMIT_SLOTS_c_a: the reserves and the shared pool are allocated again (spec/01 R28, R30). -/
def State.admitSlots (m : Master) (c a data : Nat) : Eff := fun s =>
  let r := State.writeReg m Reg.prsAdmitSlots [c, a] data s
  if bitOf s.glb.lock 8 || !r.2 then r else (r.1.allocateSlots c, true)

/-! ### The minimum security version (spec/21 R648) -/

/-- Address of BTL_SVN_RAISE. -/
def svnRaiseAddr : Nat := 0x20014

/-- Whether a write of svn and revoke may be fused. -/
def State.svnAllowed (s : State) (svn revoke : Nat) : Bool :=
  !(svn ≤ s.fuses.minSvn && revoke = 0) && decide (svn ≤ s.tap.imgSvn) && !bitOf revoke s.tap.imgKey && revoke ≠ 15

/-- A write to BTL_SVN_RAISE: checked, then fused. -/
def State.svnRaise (m : Master) (data : Nat) : Eff := fun s =>
  if !m.isFw || s.tap.svnBusy then (s, false)
  else
    let svn := bitsOf data 0 16
    let revoke := bitsOf data 16 4
    if s.svnAllowed svn revoke then ({ s with tap := { s.tap with svnBusy := true, svnNew := some (svn, revoke) } }, true)
    else ({ s with tap := { s.tap with svnResult := 2 } }, true)

/-- The UPGRADE_DONE notice to the primary manager (spec/21 R646). -/
def State.upgradeDone (s : State) : State :=
  ({ s with tap := { s.tap with upgradeWait := false } }).postNotice (2048 + s.glb.primary)
    { kind := 0x41, inst := 0, data := s.tap.svnResult }

/-- SVN_FUSE_END: the minimum and the revocations are fused. -/
def State.svnFuseEnd (s : State) : State :=
  match s.tap.svnNew with
  | none => s
  | some (svn, revoke) =>
    let s := { s with
      fuses := { s.fuses with minSvn := max s.fuses.minSvn svn, revoked := Nat.lor s.fuses.revoked revoke }
      tap := { s.tap with svnBusy := false, svnNew := none, svnResult := 0 } }
    if s.tap.upgradeWait then s.upgradeDone else s

/-- UPGRADE_CONFIRM (spec/21 R646): firmware switches to its own ck_ver, raises the minimum if asked, and posts
UPGRADE_DONE. -/
def State.upgradeConfirm (s : State) (f : Nat) : State :=
  let c := 2048 + f
  if !s.fwWrites || !s.answererHolds c then s
  else
    s.answer c 0x41 (fun t =>
      if f ≠ t.glb.primary then t.reply c 3 []
      else
        let raise := bitOf (t.msgWord c 1) 0
        let t := t.reply c 5 []
        let t := { t with tap := { t.tap with ckWritten := t.tap.ckVer, confirmed := true, upgradeWait := true } }
        let t :=
          if raise then t.fwAccess svnRaiseAddr t.tap.imgSvn (State.svnRaise (.fw t.ksc.active t.ksc.epoch) t.tap.imgSvn) else t
        if t.tap.svnBusy then t else t.upgradeDone)

end Sys2Proof.Machine
end

