-- ==== Sys2Proof/Machine/QuoinOps.lean ====
section
/-! DEFINITION. The Quoin link and the stack (spec/20): flits, sequence numbers, credits, control messages,
negotiation, cascade entries, the reach set, the stack lease, the configuration epoch, TIME, and the Quoin mailbox
channels (spec/10 R308). -/

namespace Sys2Proof.Machine

/-- The number of Quoin port p in an event's detail (spec/19 R579). -/
def State.quoinId (s : State) (p : Nat) : Nat := globalPort s.moduleId (40 + p)

/-- This module's CSC_CFG.prio (spec/20 R621). -/
def State.ownPrio (s : State) : Nat := s.fld Reg.cscCfg [] 2 4

/-! ### The reach set (spec/20 R606, R611) -/

/-- Modules with a non-empty route set, as bits. -/
def State.reachNow (s : State) : Nat :=
  natOfBits ((List.range 4).map (fun m => decide (m ≠ s.moduleId) && decide (s.routeSet m false ≠ [])))

/-- The reach set follows the route sets; a module that leaves it is timed. -/
def State.settleReach (s : State) : State :=
  let new := s.reachNow
  let old := s.csc.reach
  { s with csc := { s.csc with
    reach := new
    lostSince := (List.range 4).map (fun m =>
      if bitOf new m then none else if bitOf old m then some s.now else s.csc.lostSince.getD m none) } }

/-- MODULE_LOST_EXPIRY (spec/20 R611). -/
def State.moduleLost (s : State) (m : Nat) : State :=
  match s.csc.lostSince.getD m none with
  | some t =>
    if t + 1000000 ≤ s.now then
      ({ s with csc := { s.csc with lostSince := setNth s.csc.lostSince m none } }).raise 521 m
    else s
  | none => s

/-! ### Sending flits (spec/20 R601-R603) -/

/-- Bytes as the flits of one packet or message. -/
def flitsOf (typ ch : Nat) (bs : List Byte) : List Flit :=
  let cs := chunks 200 (bs.length + 1) bs
  cs.mapIdx (fun i c => { typ, ch, sop := decide (i = 0), eop := decide (i + 1 = cs.length), payload := c })

/-- Send one flit under the next sequence number, for one credit. -/
def State.sendFlit (s : State) (p : Nat) (f : Flit) : State :=
  let x := s.quoin p
  let y := { x with
    txSeq := (x.txSeq + 1) % 4096, unacked := x.unacked ++ [{ seq := x.txSeq, sends := 1, flit := f }]
    ackAt := if x.unacked = [] then s.now else x.ackAt
    credits := setNth x.credits f.ch (x.credits.getD f.ch 0 - 1) }
  let s := (s.setQuoin p y).send (.flit p f.typ f.ch f.sop f.eop x.txSeq f.payload)
  if f.typ = 1 then s.count (cscCounter p 0) 1 else s

/-- Send what a channel may: each flit needs credit and room in the window of 512. -/
def State.pumpChan (s : State) (p ch : Nat) : Nat → State
  | 0 => s
  | n + 1 =>
    let x := s.quoin p
    match x.waiting.getD ch [] with
    | [] => s.setQuoin p { x with creditWait := setNth x.creditWait ch none }
    | f :: fs =>
      if x.state ≠ .up || 512 ≤ x.unacked.length then s
      else if x.credits.getD ch 0 = 0 then
        (if (x.creditWait.getD ch none).isSome then s else s.setQuoin p { x with creditWait := setNth x.creditWait ch (some s.now) })
      else
        ((s.setQuoin p { x with waiting := setNth x.waiting ch fs, creditWait := setNth x.creditWait ch none }).sendFlit
          p f).pumpChan p ch n

/-- Send what a port may, channel by channel (log 26). -/
def State.pump (s : State) (p : Nat) : State :=
  (List.range 9).foldl (fun t ch => t.pumpChan p ch (((t.quoin p).waiting.getD ch []).length + 1)) s

/-- Queue flits on a channel and send what may be sent. -/
def State.sendFlits (s : State) (p ch : Nat) (fs : List Flit) : State :=
  let x := s.quoin p
  (s.setQuoin p { x with waiting := setNth x.waiting ch (x.waiting.getD ch [] ++ fs) }).pump p

/-- Send a control message on channel 8. -/
def State.sendCtl (s : State) (p : Nat) (bs : List Byte) : State := s.sendFlits p 8 (flitsOf 2 8 bs)

/-- Send a control message on every UP link but one. -/
def State.sendAll (s : State) (but : Option Nat) (bs : State → Nat → List Byte) : State :=
  (List.range 4).foldl (fun t p => if t.quoinUp p && some p ≠ but then t.sendCtl p (bs t p) else t) s

/-! ### Messages (spec/20 R604) -/

/-- The first word of a message. -/
def msgHead (k : Nat) : List Byte := toLe 4 (k + 256)

/-- HELLO. -/
def State.helloBytes (s : State) (p : Nat) (seen : Bool) : List Byte :=
  msgHead 1 ++ toLe 4 (s.moduleId + p * 4 + 16 + s.fld Reg.cscCfg [] 6 2 * 256 + b2n seen * 4096)
    ++ toLe 8 s.fuses.serial ++ (s.quoin p).alloc.flatMap (fun a => toLe 4 a)

/-- TOPO; a retired port does not count in direct (spec/21 R636). -/
def State.topoBytes (s : State) (_p : Nat) : List Byte :=
  let direct := natOfBits ((List.range 4).map (fun m => decide (s.directSet m ≠ [])))
  msgHead 2
    ++ toLe 4 (s.moduleId + direct * 4 + s.ownPrio * 64 + b2n (s.bit Reg.cscCfg [] 1) * 1024 + b2n (s.ready 18) * 2048
        + b2n s.csc.masterValid * 4096 + s.csc.masterId * 8192)
    ++ toLe 4 (s.csc.leaseEpoch + s.csc.cfgEpoch * 65536)

/-- LEASE. -/
def leaseBytes (e id prio seq : Nat) : List Byte := msgHead 3 ++ toLe 4 (e + id * 65536 + prio * 2 ^ 18) ++ toLe 4 seq

/-- EPOCH. -/
def epochBytes (le ce tod id : Nat) : List Byte := msgHead 4 ++ toLe 4 (le + ce * 65536) ++ toLe 8 tod ++ toLe 4 id

/-- TIME. -/
def State.timeBytes (s : State) (p : Nat) : List Byte :=
  let e := (s.quoin p).echo.getD (0, 0)
  msgHead 5 ++ toLe 8 s.tsu.todNs ++ toLe 8 e.1 ++ toLe 8 e.2

/-- MBOX. -/
def mboxBytes (action word data : Nat) : List Byte := msgHead 6 ++ toLe 4 (action + word * 8) ++ toLe 4 data

/-- A DOWN message goes out without a sequence number. -/
def State.sendDown (s : State) (p cause : Nat) : State :=
  s.send (.flit p 2 8 true true 0 (msgHead 7 ++ toLe 4 cause))

/-! ### Link up and down (spec/20 R605, R617) -/

/-- The link of a port reaches UP. -/
def State.linkGoesUp (s : State) (p : Nat) : State :=
  let x := s.quoin p
  let y := { x with
    state := .up, peerId := x.helloFrom.1, peerPort := x.helloFrom.2.1, linkVer := x.helloFrom.2.2
    txSeq := 0, rxSeq := 0, unacked := [], ackVld := false, nakSent := false, credits := x.peerAlloc
    creditWait := List.replicate 9 none, rx := List.replicate 9 none, rxPkt := List.replicate 9 none
    owed := [], downSince := none, topo := none, echo := none }
  let s := s.setQuoin p y
  let a := if s.moduleId < y.peerId then 3 else 6
  let s := { s with ivm := { s.ivm with
    quoinEndA := setNth s.ivm.quoinEndA p a, quoinDownSince := setNth s.ivm.quoinDownSince p none } }
  let s := s.holdEvent (2052 + p) (decide (a = 3)) false
  let s := (s.raise 518 (s.quoinId p)).raise 516 (s.quoinId p)
  s.settleReach.pump p

/-- A port in NEGOTIATE enters UP once both HELLOs with seen = 1 have passed. -/
def State.tryUp (s : State) (p : Nat) : State :=
  let x := s.quoin p
  if x.state = .negotiate && x.heard && x.sentSeen && x.gotSeen then s.linkGoesUp p else s

/-- Packets whose flits are lost with the link: DATA packets not acknowledged, and one of which flits still wait. -/
def QuoinPort.lostPackets (x : QuoinPort) : Nat :=
  (x.unacked.filter (fun u => decide (u.flit.typ = 1) && u.flit.eop)).length
    + (x.waiting.filter (fun w => match w with | f :: _ => decide (f.typ = 1) && !f.sop | [] => false)).length

/-- What still waits after the link is lost: packets not begun, and mailbox messages (spec/20 R617, R620). -/
def keepWaiting (w : List Flit) : List Flit :=
  match w with
  | [] => []
  | f :: _ =>
    if f.typ = 1 then (if f.sop then w else [])
    else w.filter (fun g => decide (leAt g.payload 0 1 = 6))

/-- A port leaves UP, or stops training or negotiating: `down` is a DOWN message's cause, `reset` a block reset. -/
def State.quoinDown (s : State) (p : Nat) (st : QPort) (down : Option Nat) (reset : Bool) : State :=
  let x := s.quoin p
  if x.state ≠ .up then s.setQuoin p { x with state := st, heard := false, sentSeen := false, gotSeen := false }
  else
    let s := match down with | some c => s.sendDown p c | none => s
    let partly := x.rxPkt.filterMap id
    let s := partly.foldl (fun t k => t.badEnd k [] 0 0) s
    let s := if reset then s else s.count (cscCounter p 8) (x.lostPackets + partly.length)
    let x := s.quoin p
    let s := s.setQuoin p { x with
      state := st, linkVer := 0, heard := false, sentSeen := false, gotSeen := false, unacked := [], ackVld := false
      nakSent := false, credits := List.replicate 9 0, creditWait := List.replicate 9 none
      waiting := x.waiting.map keepWaiting, rx := List.replicate 9 none, rxPkt := List.replicate 9 none, owed := []
      topo := none, downSince := some s.now }
    let s := { s with ivm := { s.ivm with quoinDownSince := setNth s.ivm.quoinDownSince p (some s.now) } }
    (s.raise 517 (s.quoinId p)).settleReach

/-- A write to CSC_PORT_CFG (spec/20 R599, R622); without the feature port_en ignores writes (spec/22 R672). -/
def State.quoinPortCfg (m : Master) (p data : Nat) : Eff := fun s =>
  let data := if s.feature 6 then data else putBits data 0 1 0
  let r := State.writeReg m Reg.cscPortCfg [p] data s
  if !r.2 then r
  else
    let st := (r.1.quoin p).state
    if bitOf data 0 then
      (if st = .disabled then r.1.setQuoin p { r.1.quoin p with state := .training } else r.1, true)
    else if st = .disabled then r else (r.1.quoinDown p .disabled (some 1) false, true)

/-- LANE_ALIGN: the lanes align; the port negotiates once bit 20 of GLB_LOCK is set (spec/20 R599). -/
def State.laneAlign (s : State) (p : Nat) (rev : Bool) (inv : Nat) : State :=
  let x := s.quoin p
  if x.state ≠ .training || !bitOf s.bring.readyQuoin p || !s.clocks.lrefa || !bitOf s.glb.lock 20 then s
  else s.setQuoin p { x with state := .negotiate, laneRev := rev, rxInvert := inv % 256, heard := false, sentSeen := false
                             gotSeen := false }

/-- QUOIN_LINK_LOSS: a lane loses lock, and the port trains again (spec/20 R602, R617). -/
def State.quoinLoss (s : State) (p : Nat) : State :=
  let x := s.quoin p
  if x.state = .disabled || x.state = .training then s else s.quoinDown p .training none false

/-- DOWN: a DOWN message arrives (spec/20 R602). -/
def State.rxDown (s : State) (p : Nat) : State := if s.quoinUp p then s.quoinDown p .training none false else s

/-- HELLO_TIMER: a port in NEGOTIATE sends HELLO (spec/20 R605). -/
def State.helloTimer (s : State) (p : Nat) : State :=
  let x := s.quoin p
  if x.state ≠ .negotiate then s
  else
    let s := s.send (.flit p 2 8 true true 0 (s.helloBytes p x.heard))
    ((s.setQuoin p { x with sentSeen := x.sentSeen || x.heard })).tryUp p

/-- HELLO: a HELLO message is judged (spec/20 R605). -/
def State.rxHello (s : State) (p : Nat) (h : HelloMsg) : State :=
  let x := s.quoin p
  if x.state ≠ .negotiate && x.state ≠ .idConflict then s
  else if h.id % 4 = s.moduleId then s.setQuoin p { x with state := .idConflict }
  else
    let v := min (s.fld Reg.cscCfg [] 6 2) (h.verMax % 16)
    if v < h.verMin % 16 then s.setQuoin p { x with state := .verMismatch }
    else
      (s.setQuoin p { x with
        state := .negotiate, heard := true, gotSeen := x.gotSeen || h.seen, helloFrom := (h.id % 4, h.port % 4, v)
        peerAlloc := (List.range 9).map (fun k => h.alloc.getD k 0 % 8192) }).tryUp p

/-! ### The stack lease and the epoch (spec/20 R611-R616) -/

/-- a is newer than b as 16-bit numbers (spec/20 R613, R615). -/
def newer16 (a b : Nat) : Bool :=
  let d := (a % 65536 + 65536 - b % 65536) % 65536
  decide (1 ≤ d) && decide (d ≤ 32767)

/-- a is newer than b as 32-bit numbers (spec/20 R613; log 26). -/
def newer32 (a b : Nat) : Bool :=
  let d := (a % 2 ^ 32 + 2 ^ 32 - b % 2 ^ 32) % 2 ^ 32
  decide (1 ≤ d) && decide (d < 2 ^ 31)

/-- The stack state replaced. -/
def State.withCsc (s : State) (f : Csc → Csc) : State := { s with csc := f s.csc }

/-- Send this module's LEASE on every UP link. -/
def State.sendLease (s : State) : State :=
  s.sendAll none (fun t _ => leaseBytes t.csc.leaseEpoch t.moduleId t.ownPrio t.csc.renewSeq)

/-- Count a refused LEASE or renewal, or a refused EPOCH or command. -/
def State.refuseStack (s : State) (k : Nat) : State := s.count (cscModCounter k) 1

/-- A master change (spec/20 R613, R614). -/
def State.masterChange (s : State) : State := (s.count (cscModCounter 1) 1).raise 519 0

/-- A write to CSC_STACK_RENEW (spec/20 R612). -/
def State.stackRenew (m : Master) (epoch : Nat) : Eff := fun s =>
  if !m.isFw then (s, false)
  else if s.csc.isMaster && epoch % 65536 = s.csc.leaseEpoch then
    ((s.withCsc (fun c => { c with leaseEnd := s.now + 1000000, renewSeq := (c.renewSeq + 1) % 2 ^ 32 })).sendLease, true)
  else (s.refuseStack 2, false)

/-- LEASE: judged against this module's epoch and master (spec/20 R613). -/
def State.rxLease (s : State) (p e m prio seq : Nat) : State :=
  if !s.quoinUp p then s
  else
    let c := s.csc
    let e := e % 65536
    let m := m % 4
    let own := if c.isMaster then s.ownPrio else c.masterPrio
    let ok := newer16 e c.leaseEpoch
      || (e = c.leaseEpoch && m = c.masterId && newer32 seq c.renewSeq)
      || (e = c.leaseEpoch && m ≠ c.masterId && (own < prio % 16 || (prio % 16 = own && m < c.masterId)))
    if !ok then s.refuseStack 2
    else
      let changed : Bool := m ≠ c.masterId || e ≠ c.leaseEpoch
      let s := s.withCsc (fun c => { c with
        leaseEpoch := e, masterId := m, masterValid := true, leaseEnd := s.now + 1000000, renewSeq := seq % 2 ^ 32
        masterPrio := prio % 16, isMaster := c.isMaster && decide (m = s.moduleId) })
      let s := s.sendAll (some p) (fun _ _ => leaseBytes e m (prio % 16) (seq % 2 ^ 32))
      if changed then s.masterChange else s

/-- STACK_LEASE_EXPIRY (spec/20 R613). -/
def State.stackLeaseEnds (s : State) : State :=
  if s.csc.masterValid && decide (s.csc.leaseEnd ≤ s.now) then
    (s.withCsc (fun c => { c with masterValid := false, isMaster := false, invalidSince := s.now })).raise 520 0
  else s

/-- The latest TOPO of a module across an UP link. -/
def State.topoOf (s : State) (m : Nat) : Option TopoRec :=
  ((List.range 4).filterMap (fun p =>
    if s.quoinUp p && (s.quoin p).peerId = m then
      (s.quoin p).topo.filter (fun t => decide (s.now < t.at_ + 300000))
    else none)).foldl
      (fun (b : Option TopoRec) t => match b with | some u => if u.at_ < t.at_ then some t else some u | none => some t) none

/-- Candidates as (prio, module). -/
def State.candidates (s : State) : List (Nat × Nat) :=
  (if s.bit Reg.cscCfg [] 1 && s.ready 18 then [(s.ownPrio, s.moduleId)] else [])
    ++ (List.range 4).filterMap (fun m =>
      if bitOf s.csc.reach m then
        match s.topoOf m with
        | some t => if t.capable && t.kscReady then some (t.prio, m) else none
        | none => none
      else none)

/-- ELECTION (spec/20 R614). -/
def State.elect (s : State) : State :=
  if s.csc.masterValid || s.now < s.csc.invalidSince + 200000 || !(List.range 4).any (fun p => s.quoinUp p) then s
  else
    match s.candidates.foldl
        (fun (b : Option (Nat × Nat)) c =>
          match b with | some u => if u.1 < c.1 || (u.1 = c.1 && c.2 < u.2) then some c else some u | none => some c) none with
    | some c =>
      if c.2 ≠ s.moduleId then s
      else
        let s := s.withCsc (fun c => { c with
          leaseEpoch := (c.leaseEpoch + 1) % 65536, masterValid := true, isMaster := true, masterId := s.moduleId
          leaseEnd := s.now + 1000000, masterPrio := s.ownPrio })
        s.sendLease.masterChange
    | none => s

/-- The pending epoch becomes current once its time has come (spec/20 R615). -/
def State.activateEpoch (s : State) : State :=
  match s.csc.pending with
  | some (e, t) =>
    if t ≤ s.tsu.todNs then s.withCsc (fun c => { c with cfgEpoch := e, bank := 1 - c.bank, pending := none }) else s
  | none => s

/-- A write to CSC_EPOCH_CMD (spec/20 R615). -/
def State.epochCommand (m : Master) (epoch : Nat) : Eff := fun s =>
  let e := epoch % 65536
  if !m.isFw then (s, false)
  else if s.csc.isMaster && newer16 e s.csc.cfgEpoch then
    let t := s.word Reg.cscEpochAt [0] + 2 ^ 32 * s.word Reg.cscEpochAt [1]
    let s := s.sendAll none (fun u _ => epochBytes u.csc.leaseEpoch e t u.moduleId)
    ((s.withCsc (fun c => { c with pending := some (e, t) })).activateEpoch, true)
  else (s.refuseStack 3, false)

/-- EPOCH (spec/20 R615). -/
def State.rxEpoch (s : State) (p le ce tod m : Nat) : State :=
  if !s.quoinUp p then s
  else
    let ce := ce % 65536
    let ok := le % 65536 = s.csc.leaseEpoch && m % 4 = s.csc.masterId && newer16 ce s.csc.cfgEpoch
      && (match s.csc.pending with | some (e, _) => newer16 ce e | none => true)
    if !ok then s.refuseStack 3
    else
      let s := s.sendAll (some p) (fun _ _ => epochBytes (le % 65536) ce (tod % 2 ^ 64) (m % 4))
      (s.withCsc (fun c => { c with pending := some (ce, tod % 2 ^ 64) })).activateEpoch

/-- TOPO_TIMER (spec/20 R611). -/
def State.topoTimer (s : State) : State :=
  if s.now < s.csc.topoAt + 100000 then s
  else (s.withCsc (fun c => { c with topoAt := s.now })).sendAll none (fun t p => t.topoBytes p)

/-- TOPO (spec/20 R606). -/
def State.rxTopo (s : State) (p : Nat) (m : TopoMsg) : State :=
  if !s.quoinUp p then s
  else
    (s.setQuoin p { s.quoin p with
      topo := some { at_ := s.now, id := m.id % 4, direct := m.direct % 16, prio := m.prio % 16, capable := m.capable
                     kscReady := m.kscReady } }).settleReach

/-- TOPO_EXPIRY (spec/20 R606). -/
def State.topoExpiry (s : State) (p : Nat) : State :=
  match (s.quoin p).topo with
  | some t => if t.at_ + 300000 ≤ s.now then (s.setQuoin p { s.quoin p with topo := none }).settleReach else s
  | none => s

/-- TIME_TIMER (spec/20 R616). -/
def State.timeTimer (s : State) : State :=
  if s.now < s.csc.timeAt + 125000 then s
  else (s.withCsc (fun c => { c with timeAt := s.now })).sendAll none (fun t p => t.timeBytes p)

/-- TIME: offset and delay of the link (spec/20 R616). -/
def State.rxTime (s : State) (p tTx echoTx echoRx : Nat) : State :=
  if !s.quoinUp p then s
  else
    let r := s.tsu.todNs
    let off : Int := (((echoRx : Int) - echoTx) + ((tTx : Int) - r)) / 2
    let delay : Int := (((r : Int) - echoTx) - ((tTx : Int) - echoRx)) / 2
    s.setQuoin p { s.quoin p with
      offsetNs := signedOf 64 (unsignedOf 64 off), delayNs := unsignedOf 16 delay, echo := some (tTx % 2 ^ 64, r) }

/-- A write to CSC_RETIRE (spec/21 R636). -/
def State.retirePorts (m : Master) (data : Nat) : Eff := fun s =>
  let r := State.writeReg m Reg.cscRetire [] data s
  if r.2 then (r.1.settleReach, true) else r

/-- A write to CSC_CFG: relay_en may change a route set (spec/20 R606). -/
def State.cscCfgWrite (m : Master) (data : Nat) : Eff := fun s =>
  let r := State.writeReg m Reg.cscCfg [] data s
  (r.1.settleReach, r.2)

/-- Read the allocation in the instant bit 20 of GLB_LOCK is set (spec/20 R603). -/
def State.lockCsc (s : State) : State :=
  let al (p : Nat) : List Nat := (List.range 9).map (fun k => s.fld Reg.cscRxAlloc [p, k] 0 13)
  if (List.range 4).all (fun p => decide ((al p).sum ≤ 4096)) then
    s.withCsc (fun c => { c with cfgRead := true, ports := c.ports.mapIdx (fun p x => { x with alloc := al p }) })
  else s.withCsc (fun c => { c with cfgRead := true, cfgInvalid := true })

/-! ### Quoin mailbox channels (spec/10 R303, R304, R308, spec/20 R617) -/

/-- The MBOX message of an action. -/
def mbxMessage : MbxAct → List Byte
  | .data w v => mboxBytes 0 (w % 16) (v % 2 ^ 32)
  | .go => mboxBytes 1 0 0
  | .done => mboxBytes 2 0 0
  | .notify => mboxBytes 3 0 0
  | .cancel => mboxBytes 4 0 0

/-- An end's action on a channel: taken where its state allows it, refused otherwise; on a Quoin channel the link carries
an accepted one to the other copy. -/
def State.mbxAct (a : MbxAct) (c : Nat) : State → Bool → State := fun s endB =>
  if s.mbxAccepts c endB a then
    let s := s.mbxEffect c a
    if 2052 ≤ c then s.sendCtl (c - 2052) (mbxMessage a) else s
  else s.mbxRefuse c endB

/-- MBOX: the far end's action reaches this copy; the copy on end A's module decides (spec/10 R308). -/
def State.rxMbox (s : State) (p : Nat) (a : MbxAct) : State :=
  let c := 2052 + p
  if !s.quoinUp p then s
  else if s.endVal c false = 6 then s.mbxEffect c a
  else if s.mbxAccepts c true a then s.mbxEffect c a else s.mbxRefuse c true

/-- The action that an MBOX message names. -/
def mbxActOf (action word data : Nat) : Option MbxAct :=
  match action with
  | 0 => some (.data (word % 16) data)
  | 1 => some .go
  | 2 => some .done
  | 3 => some .notify
  | 4 => some .cancel
  | _ => none

/-- MBX_LINK_TIMEOUT: after 1,000,000 ticks with the link down the far end counts as reset. -/
def State.mbxLinkTimeout (s : State) (p : Nat) : State :=
  match s.ivm.quoinDownSince.getD p none with
  | some t =>
    if s.quoinUp p || s.now < t + 1000000 then s
    else
      let c := 2052 + p
      let farA : Bool := s.endVal c false = 6
      let s := { s with ivm := { s.ivm with quoinDownSince := setNth s.ivm.quoinDownSince p none } }
      let x := s.quoin p
      let s := s.setQuoin p { x with waiting := setNth x.waiting 8 [] }
      s.clearChan c farA (!farA)
  | none => s

/-! ### Cascade entries (spec/01 R34, R35, spec/20 R601) -/

/-- The low half of the time-of-day of a Mark's ts. -/
def State.tsOut (s : State) (ts : Nat) : Nat := s.tickToTod (tsExtend s.now ts) % 2 ^ 32

/-- The ts of this module for the low half of a time-of-day: the time lies within 2^31 ns of now (log 26). -/
def State.tsIn (s : State) (v : Nat) : Nat :=
  let back := signedOf 32 ((s.tsu.todNs + 2 ^ 32 - v % 2 ^ 32) % 2 ^ 32)
  let adj := signedOf 32 (s.fld Reg.tsuTodAdj [] 0 32)
  let ticks := (back * 2 ^ 32 + (2 ^ 32 + adj) / 2) / (2 ^ 32 + adj)
  unsignedOf 32 ((s.now : Int) - ticks)

/-- The Mark as a link sends it. -/
def State.markOut (s : State) (linkVer : Nat) (m : Mark) : Mark :=
  let m := { m with ver := 3, ts := s.tsOut m.ts }
  if linkVer = 1 then
    { m with ver := 2, entAct := .lrx, flags := { m.flags with translated := false, spill := false, noLearn := false } }
  else m

/-- The Mark of a cascade entry at its fresh admission (spec/01 R35). -/
def State.markIn (s : State) (p : Nat) (m : Mark) : Mark :=
  { entAct := .cas, act := .cas, course := s.fld Reg.cscPortCfg [p] 1 2, colour := m.colour, cls := m.cls, srcPort := m.srcPort
    dstPort := m.dstPort, queue := m.queue, inst := m.inst, gen := if m.inst = noInst then m.gen else (s.inst m.inst).gen
    hash := m.hash, ts := s.tsIn m.ts, len := m.len, user := m.user
    flags := { m.flags with
      drop := false, recirc := false, exception := false, translated := decide ((s.quoin p).linkVer = 1), spill := false
      noLearn := false, flood := false } }

/-- EXIT_SELECT on a Quoin port: the next packet becomes DATA flits (spec/17 R513, spec/20 R601). -/
def State.selectQuoin (s : State) (q : Nat) : State :=
  if !s.quoinUp q then s
  else
    let r := s.select (40 + q) (s.packets.length + 1)
    match r.1 with
    | none => r.2
    | some (p, x) =>
      let s := (r.2.itemTagGone x).startLeave (40 + q) p x
      let ch := if x.mark.act = .mgt then 8 else (match x.eg with | .quoin _ pri => pri | _ => 0)
      let bs := (s.markOut (s.quoin q).linkVer x.mark).toBytes ++ x.bytes
      ((s.count (cscCounter q 2) 1).removePkt p).sendFlits q ch (flitsOf 1 ch bs)

/-- QUOIN_DOWN_FLUSH: packets queued on a port that has been down for down_flush_us are discarded (spec/20 R617). -/
def State.quoinFlush (s : State) (p : Nat) : State :=
  if !s.quoinShut p then s
  else
    let ks := s.packets.filter (fun q =>
      decide (q.2.stage = .queued) && (match q.2.eg with | .quoin n _ => decide (n = p) | _ => false))
    let s := ks.foldl (fun (t : State) k =>
      match t.pkt k.1 with
      | some y => ((t.setPkt k.1 { y with mark := y.mark.dropLate 0xB1 }).count (cscCounter p 8) 1).dropPkt k.1
      | none => t) s
    let x := s.quoin p
    let held := (x.waiting.filter (fun w => match w with | f :: _ => decide (f.typ = 1) | [] => false)).length
    let s := s.count (cscCounter p 8) held
    let x := s.quoin p
    s.setQuoin p { x with waiting := x.waiting.map (fun w => match w with | f :: _ => if f.typ = 1 then [] else w | [] => []) }

/-! ### Receiving flits (spec/20 R600-R605) -/

/-- Return credits of a channel at once. -/
def State.credit (s : State) (p ch n : Nat) : State := s.send (.credit p ch n)

/-- The channel's reception replaced. -/
def State.setRx (s : State) (p ch : Nat) (bytes : Option (List Byte)) (pkt : Option Nat) : State :=
  let x := s.quoin p
  s.setQuoin p { x with rx := setNth x.rx ch bytes, rxPkt := setNth x.rxPkt ch pkt }

/-- A flit's credit, once its bytes have entered a course: kept back while the packet waits for its slot. -/
def State.owe (s : State) (p ch k : Nat) : State :=
  match s.pkt k with
  | some y =>
    if y.stage = .waitSlot then
      let x := s.quoin p
      s.setQuoin p { x with owed := mapPut x.owed k (ch, (mapGet (0, 0) x.owed k).2 + 1) }
    else s.credit p ch 1
  | none => s.credit p ch 1

/-- A packet partly received is abandoned, with its copies (spec/01 R11). -/
def State.abandonRx (s : State) (p ch : Nat) : State :=
  match (s.quoin p).rxPkt.getD ch none with
  | some k => (s.badEnd k [] 0 0).setRx p ch none none
  | none => s.setRx p ch none none

/-- More bytes of a received packet join it or a copy of it, which `eop` makes whole (spec/20 R601, spec/01 R11). -/
def Packet.more (x : Packet) (bs : List Byte) (eop : Bool) : Packet :=
  let b := x.bytes ++ bs
  let b := if x.copy && x.trunc ≠ 0 then b.take x.trunc else b
  { x with
    bytes := b, raw := if x.raw = [] then [] else x.raw ++ bs, ended := eop
    mark := if eop then { x.mark with len := b.length } else x.mark }

/-- The first flit of a packet: its Mark is checked and the packet waits for a slot (spec/01 R34, spec/20 R601). -/
def State.rxFirst (s : State) (p ch : Nat) (eop : Bool) (bs : List Byte) : State :=
  let s := s.abandonRx p ch
  let m := Mark.ofBits (leBytes (bs.take 64))
  let want := if (s.quoin p).linkVer = 1 then 2 else 3
  let skip (t : State) : State := (t.setRx p ch (if eop then none else some []) none).credit p ch 1
  if bs.length < 64 then skip s
  else if m.ver ≠ want then skip (s.raise 515 (s.quoinId p))
  else
    let b := bs.drop 64
    let mk := s.markIn p m
    let r := s.newPkt { mark := if eop then { mk with len := b.length } else mk, bytes := b, ended := eop, since := s.now }
    let t := r.2.setRx p ch none (if eop then none else some r.1)
    let t := if eop then t.count (cscCounter p 3) 1 else t
    t.owe p ch r.1

/-- A DATA flit in sequence. -/
def State.rxData (s : State) (p ch : Nat) (sop eop : Bool) (bs : List Byte) : State :=
  let s := s.count (cscCounter p 1) 1
  if sop then s.rxFirst p ch eop bs
  else
    match (s.quoin p).rxPkt.getD ch none with
    | some k =>
      let s := (s.ofFrame k).foldl (fun (t : State) q =>
        match t.pkt q with
        | some y => if y.ended then t else t.setPkt q (y.more bs eop)
        | none => t) s
      let s := s.owe p ch k
      if eop then (s.setRx p ch none none).count (cscCounter p 3) 1 else s
    | none => (if eop then s.setRx p ch none none else s).credit p ch 1

/-- A whole control message: an unknown one is discarded and counted (spec/20 R604). -/
def State.rxMessage (s : State) (p : Nat) (b : List Byte) : State :=
  let w := leAt b 4 4
  match leAt b 0 1 with
  | 1 =>
    s.rxHello p
      { id := bitsOf w 0 2, port := bitsOf w 2 2, verMin := bitsOf w 4 4, verMax := bitsOf w 8 4, seen := bitOf w 12
        serial := leAt b 8 8, alloc := (List.range 9).map (fun k => leAt b (16 + 4 * k) 4 % 8192) }
  | 2 =>
    s.rxTopo p
      { id := bitsOf w 0 2, direct := bitsOf w 2 4, prio := bitsOf w 6 4, capable := bitOf w 10, kscReady := bitOf w 11
        masterValid := bitOf w 12, masterId := bitsOf w 13 2, leaseEpoch := leAt b 8 2, cfgEpoch := leAt b 10 2 }
  | 3 => s.rxLease p (bitsOf w 0 16) (bitsOf w 16 2) (bitsOf w 18 4) (leAt b 8 4)
  | 4 => s.rxEpoch p (bitsOf w 0 16) (bitsOf w 16 16) (leAt b 8 8) (bitsOf (leAt b 16 4) 0 2)
  | 5 => s.rxTime p (leAt b 4 8) (leAt b 12 8) (leAt b 20 8)
  | 6 =>
    match mbxActOf (bitsOf w 0 3) (bitsOf w 3 4) (leAt b 8 4) with
    | some a => s.rxMbox p a
    | none => s
  | 7 => s.rxDown p
  | _ => s.count (cscModCounter 4) 1

/-- A CONTROL flit in sequence. -/
def State.rxControlFlit (s : State) (p : Nat) (sop eop : Bool) (bs : List Byte) : State :=
  let s := s.credit p 8 1
  let b := if sop then bs else ((s.quoin p).rx.getD 8 none).getD [] ++ bs
  if eop then (s.setRx p 8 none none).rxMessage p b else s.setRx p 8 (some b) none

/-- Send again from the first flit not acknowledged; the link goes down when a flit has been sent 9 times (spec/20
R602). -/
def State.resend (s : State) (p : Nat) : State :=
  let x := s.quoin p
  let us := x.unacked.map (fun (u : SentFlit) => { u with sends := u.sends + 1 })
  let s := s.setQuoin p { x with unacked := us, ackAt := s.now }
  let s := us.foldl (fun (t : State) u =>
    (t.send (.flit p u.flit.typ u.flit.ch u.flit.sop u.flit.eop u.seq u.flit.payload)).count (cscCounter p 6) 1) s
  if us.any (fun u => decide (9 ≤ u.sends)) then s.quoinDown p .training (some 2) false else s

/-- RESEND_TIMER: ack_seq has not advanced for 1 µs. -/
def State.resendTimer (s : State) (p : Nat) : State :=
  let x := s.quoin p
  if x.state = .up && x.unacked ≠ [] && x.ackAt + 1000 ≤ s.now then s.resend p else s

/-- The acknowledgement and the credits in a header. -/
def State.rxHeader (s : State) (p : Nat) (f : FlitIn) : State :=
  let x := s.quoin p
  if x.state ≠ .up then s
  else
    let left := if f.ackVld then x.unacked.filter (fun u => decide (2048 ≤ (f.ackSeq % 4096 + 4096 - u.seq) % 4096)) else x.unacked
    let y := { x with
      unacked := left, ackAt := if left.length < x.unacked.length then s.now else x.ackAt
      credits := if f.crCh ≤ 8 then setNth x.credits f.crCh (x.credits.getD f.crCh 0 + f.crCount) else x.credits }
    let s := s.setQuoin p y
    let s := if f.nak && left ≠ [] then s.resend p else s
    s.pump p

/-- Send nak once for a gap. -/
def State.nakGap (s : State) (p : Nat) : State :=
  let x := s.quoin p
  if x.state ≠ .up || x.nakSent then s
  else (s.setQuoin p { x with nakSent := true }).send (.ack p ((x.rxSeq + 4095) % 4096) true)

/-- FLIT_RX (spec/20 R600, R602, R603). -/
def State.flitRx (s : State) (p : Nat) (f : FlitIn) : State :=
  let st := (s.quoin p).state
  if st = .disabled || st = .training then s
  else if 2 ≤ f.fec then (s.count (cscCounter p 5) 1).nakGap p
  else
    let s := if f.fec = 1 then s.count (cscCounter p 4) 1 else s
    let s := s.rxHeader p f
    let msg := leAt f.payload 0 1
    if f.typ = 0 then s
    else if f.typ = 2 && f.ch = 8 && f.sop && (msg = 1 || msg = 7) then s.rxMessage p f.payload
    else if !s.quoinUp p then s
    else
      let x := s.quoin p
      if f.seq % 4096 ≠ x.rxSeq then s.nakGap p
      else
        let s := (s.setQuoin p { x with rxSeq := (x.rxSeq + 1) % 4096, ackVld := true, nakSent := false }).send
          (.ack p x.rxSeq false)
        if f.typ = 3 || 8 < f.ch || (f.typ = 2 && f.ch ≠ 8) then s.count (cscCounter p 9) 1
        else if f.typ = 1 then s.rxData p f.ch f.sop f.eop f.payload
        else s.rxControlFlit p f.sop f.eop f.payload

/-- CREDIT_WAIT_EXPIRY: a flit has waited credit_timeout_us without credit (spec/20 R603). -/
def State.creditExpiry (s : State) (p ch : Nat) : State :=
  let x := s.quoin p
  match x.creditWait.getD ch none with
  | some t =>
    if t = 0 || s.now < t + 1000 * s.fld Reg.cscPortCredit [p] 0 16 then s
    else
      ((s.setQuoin p { x with creditWait := setNth x.creditWait ch (some 0) }).count (cscCounter p 7) 1).raise 522 (s.quoinId p)
  | none => s

/-! ### Resets and references -/

/-- A block reset of CSC (spec/20 R619). -/
def State.resetCsc (s : State) : State :=
  let ks := (s.packets.filter (fun q => decide (q.2.stage = .waitSlot) && decide (q.2.mark.entAct = .cas))).map (fun q => q.1)
  let s := ks.foldl (fun t k => t.dropPkt k) s
  (List.range 4).foldl (fun t p =>
    if (t.quoin p).state = .disabled then t else t.quoinDown p .training (some 3) true) s

end Sys2Proof.Machine
end

