-- ==== Sys2Proof/Machine/ExitOps.lean ====
section
/-! DEFINITION. EXIT_SELECT: each exit takes its next packet (spec/17 R513-R528). -/

namespace Sys2Proof.Machine

/-- The recirculation port takes its oldest packet (spec/12 R355, spec/17 R518). -/
def State.selectRecirc (s : State) : State :=
  match s.oldestAt .recirc with
  | none => s
  | some (p, _) => s.recircTake p

/-- EXIT_SELECT on an exit by its local port number: line ports 0-31, host links 32-39, Quoin ports 40-43, the
recirculation port 44, the Masons 45 and the Keystone 46 (spec/00, naming; spec/17 R513). -/
def State.exitSelect (s : State) (e : Nat) : State :=
  if !s.ready 14 then s
  else if e < 32 then s.selectLine e
  else if e < 40 then s.selectHost (e - 32)
  else if e < 44 then s.selectQuoin (e - 40)
  else if e = 44 then s.selectRecirc
  else if e = 45 then s.masonDelivery
  else if e = 46 then s.selectKeystone
  else s

end Sys2Proof.Machine
end

