-- ==== Sys2Proof/Machine/PowerOps.lean ====
section
/-! DEFINITION. Supply, module reset, the release point, clocks, pacing, the time base and SMBus (spec/02, spec/03,
spec/04 R98-R115, spec/22 R656-R660). -/

namespace Sys2Proof.Machine

/-! ### Resets of the whole main domain (spec/04 R111, R112) -/

/-- The state with its supply changed. -/
def State.withSupply (s : State) (f : Supply → Supply) : State := { s with supply := f s.supply }

/-- Everything in the main domain at its reset value; the standby domain, the fuses and the queue of commands stay, and
so do the model's counts of draws. -/
def State.mainReset (s : State) : State :=
  { State.reset with
    supply := { s.supply with wakeN := [false, false, false, false] }
    clocks := { s.clocks with lrefaAtRelease := false, lrefbAtRelease := false }
    bring := { cause := s.bring.cause, causeSrc := s.bring.causeSrc, nextCause := s.bring.nextCause, nextSrc := s.bring.nextSrc
               everReleased := s.bring.everReleased }
    fuses := s.fuses, tap := { draw := s.tap.draw }
    freeCount := s.freeCount, out := s.out, pending := s.pending }

/-- The main rails go off (spec/03 R70). -/
def State.mainOff (s : State) : State :=
  let s := s.mainReset
  { s with
    supply := { s.supply with phase := .off }
    clocks := { s.clocks with hkInternal := false }
    bring := { s.bring with nextCause := 0, nextSrc := 0, everReleased := false } }

/-- The FLT counters, which chip reset keeps (spec/19 R595). -/
def isFltCounter (a : Nat) : Bool := decide (fltCounter 0 ≤ a) && decide (a ≤ fltCounter 6)

/-- CHIP_RESET: the main domain is held in reset; the Plumb's captures, counts, pending bits, histories, counters and
error pin stay (spec/04 R111, R112, spec/19 R593-R595). -/
def State.chipReset (s : State) (src : Nat) : State :=
  let s := s.count (fltCounter 3) 1
  let t := s.mainReset
  { t with
    bring := { t.bring with phase := .chip, nextCause := 2, nextSrc := src }
    flt := { pend := s.flt.pend, caps := s.flt.caps, hist := s.flt.hist, errpin := s.flt.errpin, errSrc := s.flt.errSrc }
    counters := s.counters.filter (fun (p : Nat × Nat) => isFltCounter p.1) }

/-! ### Power-up (spec/03 R65, R68) -/

/-- Power-good follows once HKCLK is present (R68 steps 5 and 6). -/
def State.lockPlls (s : State) : State :=
  if s.supply.phase = .waitClock && s.clocks.hkclk then s.withSupply (fun x => { x with phase := .good }) else s

/-- The power-up sequence starts where VIN is at or above 4.4 V, no trip is latched and the input switch is closed. -/
def State.powerUp (s : State) : State :=
  let x := s.supply
  if x.standby && x.phase = .off && 440 ≤ x.vinCv && !x.tripLatch && !x.ovpOpen then
    (s.withSupply (fun x => { x with phase := .waitClock })).lockPlls
  else s

/-- VIN is outside 4.5-18 V (spec/03 R75). -/
def vinOut (v : Nat) : Bool := decide (v < 450) || decide (1800 < v)

/-- A new reading of VIN: vin_range_err follows; as it becomes 1 the event is raised and SMB_ALERT_N falls (spec/03 R65,
R75, R95). -/
def State.setVin (s : State) (v : Nat) : State :=
  let v := v % 4096
  let was := s.supply.vinRangeErr
  let s := s.withSupply (fun x => { x with vinCv := v, vinRangeErr := vinOut v, smbAlert := x.smbAlert || (vinOut v && !was) })
  if vinOut v && !was then s.raise 20 0 else s

/-- VIN_RISE through 4.4 V. -/
def State.vinRise (s : State) (v : Nat) : State :=
  if !s.supply.standby || 440 ≤ s.supply.vinCv || v < 440 || 1950 ≤ v then s else (s.setVin v).powerUp

/-- The standby domain goes down: pins and clocks are the board's and stay (spec/03 R64, R73). -/
def State.standbyOff (s : State) : State :=
  let s := s.mainOff
  { s with
    supply := { mrstN := s.supply.mrstN, perstN := s.supply.perstN, thermN := s.supply.thermN, pwrAlertN := s.supply.pwrAlertN }
    bring := { s.bring with cause := 0, causeSrc := 0 } }

/-- VIN_UNDERVOLTAGE: VIN falls through 4.1 V (spec/03 R65, R70). -/
def State.vinUnder (s : State) (v : Nat) : State :=
  if !s.supply.standby || s.supply.vinCv < 410 || 410 ≤ v then s
  else
    let s := (s.setVin v).mainOff
    if s.supply.vstbyCv = 0 then s.standbyOff else s.withSupply (fun x => { x with uvloSeen := true, ovpOpen := false })

/-- VIN_OVERVOLTAGE: VIN rises through 19.5 V (spec/03 R65). -/
def State.vinOver (s : State) (v : Nat) : State :=
  if !s.supply.standby || 1950 ≤ s.supply.vinCv || v < 1950 then s
  else ((s.setVin v).mainOff).withSupply (fun x => { x with ovpOpen := true, ovpSeen := true })

/-- VIN_OVP_RECOVERY: after an overvoltage VIN falls below 19.0 V (spec/03 R65). -/
def State.vinOvpRecovery (s : State) (v : Nat) : State :=
  if !s.supply.ovpOpen || 1900 ≤ v then s
  else ((s.setVin v).withSupply (fun x => { x with ovpOpen := false })).powerUp

/-- VIN_RANGE_ENTRY: 4.1-4.5 V or 18-19.5 V (spec/03 R65). -/
def State.vinRangeEntry (s : State) (v : Nat) : State :=
  if s.supply.standby && ((410 ≤ v && v < 450) || (1800 < v && v < 1950)) then s.setVin v else s

/-- VIN_RANGE_EXIT: back into 4.5-18 V. -/
def State.vinRangeExit (s : State) (v : Nat) : State :=
  if s.supply.standby && s.supply.vinRangeErr && !vinOut v && 410 ≤ s.supply.vinCv then s.setVin v else s

/-- STANDBY_POWER_ON: an input reaches 4.5 V; sticky flags are clear and SMBus answers (spec/03 R64, R68, R76). -/
def State.standbyOn (s : State) (vstby vin : Nat) : State :=
  if s.supply.standby || (vstby < 450 && vin < 450) then s
  else
    let v := vin % 4096
    (s.withSupply (fun x => { x with standby := true, vstbyCv := vstby % 4096, vinCv := v, vinRangeErr := vinOut v })).powerUp

/-- STANDBY_POWER_LOSS: both inputs are gone. -/
def State.standbyLoss (s : State) : State := if s.supply.standby then s.standbyOff else s

/-! ### Temperatures, THERM_N, rails (spec/03 R72, R73, R79, R95) -/

/-- New readings of the temperatures. -/
def State.setTemps (s : State) (tj h0 h1 : Int) : State :=
  s.withSupply (fun x => { x with tjMax := clampInt (-128) 127 tj, hbm0T := clampInt (-128) 127 h0, hbm1T := clampInt (-128) 127 h1 })

/-- THERMAL_TRIP at 115 °C or 105 °C: the latch is set, ERR_N falls and the main rails go off. -/
def State.thermalTrip (s : State) (tj h0 h1 : Int) : State :=
  let s := if s.supply.standby then s.setTemps tj h0 h1 else s
  if s.supply.phase = .off || (tj < 115 && h0 < 105 && h1 < 105) then s
  else s.mainOff.withSupply (fun x => { x with tripLatch := true, tripSeen := true, tripMrstLow := false, smbAlert := true })

/-- TEMP_WARN_CROSSING: a threshold is crossed upwards. -/
def State.tempWarn (s : State) (tj h0 h1 : Int) : State :=
  if s.supply.phase ≠ .good then s
  else
    let s := s.setTemps tj h0 h1
    let die := !s.supply.tjWarn && decide (signedOf 8 (s.fld Reg.pwrThermCtl [] 0 8) ≤ tj)
    let hbm := !s.supply.hbmWarn && decide (signedOf 8 (s.fld Reg.pwrThermCtl [] 8 8) ≤ max h0 h1)
    let s := s.withSupply (fun x => { x with
      tjWarn := x.tjWarn || die, hbmWarn := x.hbmWarn || hbm, smbAlert := x.smbAlert || die || hbm })
    let s := if die then s.raise 21 0 else s
    if hbm then s.raise 22 0 else s

/-- TEMP_WARN_CLEAR: 3 °C below the threshold. -/
def State.tempWarnClear (s : State) (tj h0 h1 : Int) : State :=
  if s.supply.phase ≠ .good then s
  else
    let s := s.setTemps tj h0 h1
    s.withSupply (fun x => { x with
      tjWarn := x.tjWarn && !decide (tj ≤ signedOf 8 (s.fld Reg.pwrThermCtl [] 0 8) - 3)
      hbmWarn := x.hbmWarn && !decide (max h0 h1 ≤ signedOf 8 (s.fld Reg.pwrThermCtl [] 8 8) - 3) })

/-- THERM_N_FALL. -/
def State.thermFall (s : State) : State :=
  if !s.supply.standby then s
  else
    let s := s.withSupply (fun x => { x with thermN := false })
    if s.released && s.bit Reg.pwrThermCtl [] 16 then s.raise 23 0 else s

/-- PWR_RAIL_FAULT: a rail leaves its held range while VIN is within range (spec/19 R579). -/
def State.railFault (s : State) : State :=
  if s.supply.phase = .good && !vinOut s.supply.vinCv then s.raise 25 0 else s

/-! ### HKCLK and the other references (spec/03 R68, R90, spec/22 R658, R659) -/

/-- HKCLK_ARRIVAL: HKCLK becomes present; power-good follows where power-up waits for it. -/
def State.hkclkArrival (s : State) : State :=
  if s.clocks.hkclk || s.clocks.hkInternal then s
  else ({ s with clocks := { s.clocks with hkclk := true } }).lockPlls

/-- HKCLK_LOSS. -/
def State.hkclkLoss (s : State) : State :=
  if !s.clocks.hkclk then s
  else
    let s := { s with clocks := { s.clocks with hkclk := false } }
    if s.supply.phase = .good then
      (({ s with clocks := { s.clocks with hkInternal := true } }).withSupply (fun x => { x with hkclkLost := true })).raise 24 0
    else s

/-- HKCLK_RETURN. -/
def State.hkclkReturn (s : State) : State :=
  if s.clocks.hkclk then s else ({ s with clocks := { s.clocks with hkclk := true, hkInternal := false } }).lockPlls

/-- LINE_REF_LOSS: `b` is LREFB. -/
def State.lineRefLoss (s : State) (b : Bool) : State :=
  if !(if b then s.clocks.lrefb else s.clocks.lrefa) then s
  else
    let s := { s with clocks := if b then { s.clocks with lrefb := false } else { s.clocks with lrefa := false } }
    if !s.released then s
    else
      let s := (List.range 32).foldl (fun (t : State) n =>
        if t.bit Reg.lsdOctetCfg [n / 8] 8 = b then t.lineLinkDown n else t) s
      if b then s else (List.range 4).foldl (fun (t : State) p => t.quoinLoss p) s

/-- REF_RETURN: a reference is judged present again. -/
def State.refReturn (s : State) (r : RefClock) : State :=
  match r with
  | .lrefa => { s with clocks := { s.clocks with lrefa := true } }
  | .lrefb => { s with clocks := { s.clocks with lrefb := true } }
  | .pcie f => { s with clocks := { s.clocks with pcie := setNth s.clocks.pcie f true } }

/-! ### The release point (spec/03 R69, R93, spec/04 R102, spec/06 R157, R170, R172) -/

/-- A strap is 1 where at least 5 of 8 samples read 1 (spec/03 R93). -/
def strapOf (n : Nat) : Bool := decide (5 ≤ n)

/-- The selected reference of the time base is present (spec/02 R58). -/
def State.tsuRefHere (s : State) : Bool := if s.bit Reg.tsuCtl [] 0 then s.clocks.lrefa else s.clocks.hkclk

/-- The time base judges its selected reference: lost where it is absent (spec/02 R58). -/
def State.tsuJudge (s : State) : State :=
  if s.tsuRefHere then
    let was := s.tsu.fallback
    let s := { s with tsu := { s.tsu with refOk := true, fallback := false } }
    if was then s.raise 4 0 else s
  else
    let was := s.tsu.fallback
    let s := { s with tsu := { s.tsu with refOk := false, fallback := true } }
    if was then s else s.raise 3 0

/-- A face at the release point: held in reset while its PERST_N is low, its set-up applied. -/
def State.releaseFace (s : State) (n : Nat) : State :=
  if !s.supply.perstN.getD n false then s
  else (s.setFace n { s.face n with inReset := false }).setLink n 0 { state := .training }

/-- RELEASE: the straps are sampled, the cause is written, the discovery table is built and the boot starts. -/
def State.releaseChip (s : State) (i : ReleaseIn) : State :=
  let b (k : Nat) : Bool := strapOf (ix i.straps k)
  let prim := b2n (b 2) + 2 * b2n (b 3)
  let s := s.withSupply (fun x => { x with
    stackId := b2n (b 0) + 2 * b2n (b 1), primaryFace := prim, bootSel := b 4, testMode := b 5 })
  let s := { s with
    bring := { s.bring with
      phase := .released, everReleased := true, cause := s.bring.nextCause
      causeSrc := if s.bring.nextCause = 2 then s.bring.nextSrc else 0, btlState := 1 }
    clocks := { s.clocks with lrefaAtRelease := s.clocks.lrefa, lrefbAtRelease := s.clocks.lrefb }
    glb := { s.glb with
      primary := prim, faceWr := (List.range 4).map (fun n => if n = prim then 0x1FFFFF else 0)
      dtFaces := (List.range 4).map (fun n => s.faceEntry n) }
    tap := { s.tap with draw := s.tap.draw + 1 } }
  let s := (List.range 4).foldl (fun (t : State) n => t.releaseFace n) s
  s.tsuJudge

/-- RELEASE_POINT: MRST_N is recognised high; a latched trip clears where the die is cool (spec/03 R69, R73). -/
def State.releasePoint (s : State) (i : ReleaseIn) : State :=
  if !s.supply.standby then s
  else
    let x := s.supply
    let cool := x.tripMrstLow && decide (x.tjMax < 95)
    let s := s.withSupply (fun x => { x with mrstN := true, tripMrstLow := false, tripLatch := x.tripLatch && !cool })
    let s := if x.tripLatch && cool then s.powerUp else s
    if s.supply.phase = .good && s.bring.phase = .module then s.releaseChip i else s

/-- MRST_N_LOW: module reset; the cause of the next release is MRST_N (spec/04 R102, R111, R115). -/
def State.mrstLow (s : State) : State :=
  if !s.supply.standby || !s.supply.mrstN then s
  else
    let s := s.withSupply (fun x => { x with mrstN := false, tripMrstLow := x.tripLatch })
    if s.supply.tripLatch then { s with bring := { s.bring with nextCause := 1 } }
    else if s.bring.phase = .module then s
    else
      let s := s.mainReset
      { s with bring := { s.bring with nextCause := 1, nextSrc := 0 } }

/-- CHIP_RESET_END: the 1 ms has passed, which is a release point (spec/04 R112). -/
def State.chipResetEnd (s : State) (i : ReleaseIn) : State :=
  if s.bring.phase = .chip && s.supply.phase = .good then s.releaseChip i else s

/-! ### Readiness (spec/04 R98-R101, R113) -/

/-- UNIT_READY: a unit, port or course completes its own initialisation; `ok` is false where an HBM stack fails
training. -/
def State.unitReady (s : State) (u : ReadyUnit) (ok : Bool) : State :=
  if !s.released then s
  else
    match u with
    | .block n =>
      if 20 < n || n = 17 || n = 18 || s.ready n || s.inReset n then s
      else if ok then s.setReady n true
      else if n = 16 then s.raise 390 0 else s
    | .port n =>
      if 31 < n || s.portLanes n = 0 || !ok then s
      else { s with bring := { s.bring with readyPort := putBit s.bring.readyPort n true } }
    | .quoin n =>
      if 3 < n || !s.clocks.lrefaAtRelease || !ok then s
      else { s with bring := { s.bring with readyQuoin := putBit s.bring.readyQuoin n true } }
    | .course c =>
      if 3 < c || s.courseSt c ≠ .inService || !ok || bitOf s.bring.readyCourse c then s
      else (s.allocateSlots c).setCourseReady c true

/-- BLOCK_RESET_DONE: the block runs again. -/
def State.blockResetDone (s : State) (b : Nat) : State :=
  if !s.released || 20 < b || !s.inReset b then s
  else
    let s := { s with bring := { s.bring with blockReset := putBit s.bring.blockReset b false } }
    if b = 17 then s.xpeReady else s.setReady b true

/-! ### The Pace Governor (spec/02 R46-R55) -/

/-- The state with the governor changed. -/
def State.withPace (s : State) (f : Pace → Pace) : State := { s with pace := f s.pace }

/-- The sources that are true and enabled: VIN, core, estimator, alert. -/
def State.paceTrue (s : State) : List Bool :=
  [s.pace.condVin && s.bit Reg.pwrPaceCtl [] 0, s.pace.condCore && s.bit Reg.pwrPaceCtl [] 1
  , s.pace.condEst && s.bit Reg.pwrPaceCtl [] 2, s.pace.condAlert && s.bit Reg.pwrPaceCtl [] 3]

/-- A trigger is true. -/
def State.paceAny (s : State) : Bool := s.paceTrue.any id

/-- The step the governor runs at (spec/02 R49). -/
def State.paceStep (s : State) : Nat := max s.pace.natural (min 2 (s.fld Reg.pwrPaceCtl [] 16 2))

/-- Record a step down: the event, the count and the causes (spec/02 R50). -/
def State.noteStepDown (s : State) : State :=
  let t := s.paceTrue
  let s := s.withPace (fun p => { p with
    causeVin := p.causeVin || t.getD 0 false, causeCore := p.causeCore || t.getD 1 false
    causeEst := p.causeEst || t.getD 2 false, causeAlert := p.causeAlert || t.getD 3 false })
  (s.count (blockBase 1 + 0x110) 1).raise 19 0

/-- Apply `f`, and record a step down where the step that the governor runs at has risen. -/
def State.paceMove (s : State) (f : State → State) : State :=
  let t := f s
  if s.paceStep < t.paceStep then t.noteStepDown else t

/-- One step down, followed by a settle window (spec/02 R48). -/
def State.paceDown (s : State) : State :=
  s.paceMove (fun t => t.withPace (fun p => { p with
    natural := min 2 (p.natural + 1), settleEnd := some (t.now + 100), holdEnd := none }))

/-- The sources have changed: a trigger at step 0 steps down, a trigger ends a hold, and the hold starts where every
trigger is false (spec/02 R48). -/
def State.paceEval (s : State) : State :=
  if s.paceAny then (if s.pace.natural = 0 then s.paceDown else s.withPace (fun p => { p with holdEnd := none }))
  else if s.pace.natural ≠ 0 && s.pace.holdEnd.isNone then s.withPace (fun p => { p with holdEnd := some (s.now + 10000) })
  else s

/-- The condition of a source set or cleared; the board alert is the level of its pin. -/
def State.setCond (s : State) (v : Bool) : PaceSource → State
  | .vin => s.withPace (fun p => { p with condVin := v })
  | .core => s.withPace (fun p => { p with condCore := v })
  | .est => s.withPace (fun p => { p with condEst := v })
  | .alert => (s.withPace (fun p => { p with condAlert := v })).withSupply (fun x => { x with pwrAlertN := !v })

/-- PACE_TRIGGER. -/
def State.paceTrigger (s : State) (src : PaceSource) : State := (s.setCond true src).paceEval

/-- ESTIMATE_COMPARE: the estimate against cap_w (spec/02 R46). -/
def State.estimate (s : State) (w : Nat) : State :=
  let s := s.withPace (fun p => { p with estW := min 127 w })
  (s.setCond (decide (s.fld Reg.pwrPaceCtl [] 8 7 < w)) .est).paceEval

/-- PACE_SETTLE_END: a trigger that is still true steps down again. -/
def State.paceSettle (s : State) : State :=
  match s.pace.settleEnd with
  | none => s
  | some e =>
    if s.now < e then s
    else
      let s := s.withPace (fun p => { p with settleEnd := none })
      if s.paceAny && s.pace.natural < 2 then s.paceDown else s.paceEval

/-- PACE_TRIGGERS_CLEAR. -/
def State.paceClear (s : State) (srcs : List PaceSource) : State := (srcs.foldl (fun (t : State) x => t.setCond false x) s).paceEval

/-- PACE_HOLD_END: one step up. -/
def State.paceHold (s : State) : State :=
  match s.pace.holdEnd with
  | none => s
  | some e =>
    if s.now < e || s.paceAny then s
    else (s.withPace (fun p => { p with natural := p.natural - 1, holdEnd := none })).paceEval

/-- A write to PWR_PACE_CTL: FORCE_STEP_WRITE, the enables and the cap (spec/02 R49, R52). -/
def State.paceCtl (m : Master) (data : Nat) : Eff := fun s =>
  let r := State.writeReg m Reg.pwrPaceCtl [] data s
  ((s.paceMove (fun _ => r.1)).paceEval, r.2)

/-! ### The time base (spec/02 R56-R62) -/

/-- The state with the time base changed. -/
def State.withTsu (s : State) (f : Tsu → Tsu) : State := { s with tsu := f s.tsu }

/-- TSU_TICK: one tick, and the time-of-day advances by 1 + adj × 2^-32 ns (spec/02 R59, R55). -/
def State.tsuTick (s : State) : State :=
  let adj := signedOf 32 (s.word Reg.tsuTodAdj [])
  let sum := ((s.tsu.todNs * 2 ^ 32 + s.tsu.todFrac + 2 ^ 32 : Nat) : Int) + adj
  let d := (sum % (2 ^ 96 : Int)).toNat
  let step := s.paceStep
  let s := s.withTsu (fun x => { x with tick := (x.tick + 1) % 2 ^ 64, todNs := d / 2 ^ 32, todFrac := d % 2 ^ 32 })
  if step = 0 then s else s.count (blockBase 1 + 0x118) 1

/-- TSU_REFERENCE_LOSS. -/
def State.tsuLoss (s : State) : State :=
  if s.tsu.fallback then s else (s.withTsu (fun x => { x with fallback := true, refOk := false })).raise 3 0

/-- TSU_REFERENCE_RETURN. -/
def State.tsuReturn (s : State) : State :=
  if !s.tsu.fallback then s else (s.withTsu (fun x => { x with fallback := false, refOk := true })).raise 4 0

/-- A write to TSU_CTL: a newly selected reference that is absent is lost at that moment (spec/02 R58). -/
def State.tsuCtl (m : Master) (data : Nat) : Eff := fun s =>
  let r := State.writeReg m Reg.tsuCtl [] data s
  if r.1.bit Reg.tsuCtl [] 0 = s.bit Reg.tsuCtl [] 0 then r else (r.1.tsuJudge, r.2)

/-- A write to TSU_TOD_SET. -/
def State.todSet (ns : Nat) : Eff :=
  eff (fun s => s.withTsu (fun x => { x with todNs := ns % 2 ^ 64, todFrac := 0, todSet := true }))

/-- A write to TSU_TOD_STEP: signed nanoseconds. -/
def State.todStep (ns : Nat) : Eff := eff (fun s => s.withTsu (fun x => { x with todNs := (x.todNs + ns) % 2 ^ 64 }))

/-- A write to TSU_SNAP. -/
def State.tsuSnap (data : Nat) : Eff :=
  eff (fun s => if bitOf data 0 then s.withTsu (fun x => { x with snapTick := x.tick, snapTod := x.todNs }) else s)

/-! ### SMBus (spec/03 R94, R95, spec/22 R660) -/

/-- PWR_SUPPLY_EVT [3:0] (spec/03 R76). -/
def Supply.events (x : Supply) : Nat := b2n x.uvloSeen + 2 * b2n x.tripSeen + 4 * b2n x.ovpSeen + 8 * b2n x.hkclkLost

/-- The word an SMBus command returns (spec/03 R94). -/
def State.smbWord (s : State) (c : Nat) : Nat :=
  let x := s.supply
  let good := decide (x.phase = .good)
  match c with
  | 0 => 0xCA31
  | 1 => x.stackId + 4 * x.primaryFace + 16 * b2n x.bootSel + 32 * b2n x.testMode
  | 2 => b2n (450 ≤ x.vstbyCv) + 2 * b2n (440 ≤ x.vinCv) + 4 * b2n good + 8 * b2n x.tripLatch + 16 * b2n s.errN
      + 32 * b2n x.vinRangeErr + 64 * b2n x.tjWarn + 128 * b2n x.hbmWarn
  | 3 => if good then unsignedOf 8 x.tjMax else 0x80
  | 4 => if good then unsignedOf 8 (max x.hbm0T x.hbm1T) else 0x80
  | 5 => x.vinCv
  | 6 => x.pin100mw
  | 7 => x.vstbyCv
  | 8 => x.events
  | _ => 0xFFFF

/-- SMBUS_READ. -/
def State.smbRead (s : State) (c : Nat) : State :=
  if !s.supply.standby then s
  else (s.withSupply (fun x => { x with smbCmd := c % 256, smbIdle := true })).send (.smbus (toLe 2 (s.smbWord (c % 256))))

/-- SMBUS_WRITE: the command byte is acknowledged and every data byte refused. -/
def State.smbWrite (s : State) (c : Nat) (data : List Byte) : State :=
  if !s.supply.standby then s
  else (s.withSupply (fun x => { x with smbCmd := c % 256, smbIdle := true })).send (.smbusNak data.length)

/-- ALERT_RESPONSE: the device answers with its own address and releases SMB_ALERT_N (spec/03 R95). -/
def State.alertResponse (s : State) : State :=
  if !s.supply.standby || !s.supply.smbAlert then s
  else (s.withSupply (fun x => { x with smbAlert := false })).send (.smbus (toLe 1 (2 * (0x60 + s.supply.stackId))))

/-- SMBUS_TIMEOUT: the interface is reset; the transaction has no other effect. -/
def State.smbTimeout (s : State) : State := if s.supply.standby then s.withSupply (fun x => { x with smbIdle := true }) else s

/-! ### Locks and the primary face (spec/06 R169, R171) -/

/-- A write to GLB_LOCK: as bit 5, 15 or 20 sets, the block reads and checks its configuration. -/
def State.lockSet (m : Master) (data : Nat) : Eff := fun s =>
  if !m.isFw then (s, false)
  else
    let old := s.glb.lock
    let s := { s with glb := { s.glb with lock := Nat.lor old (data % 2 ^ 21) } }
    let new (b : Nat) : Bool := bitOf data b && !bitOf old b
    let s := if new 5 then s.lockDma else s
    let s := if new 15 then s.lockBuf else s
    (if new 20 then s.lockCsc else s, true)

/-- A write to GLB_PRIMARY: the role moves at once, and a message that waited goes to the new primary manager. -/
def State.primaryFaceWrite (m : Master) (data : Nat) : Eff := fun s =>
  if !m.isFw then (s, false)
  else
    let s := { s with glb := { s.glb with primary := data % 4 } }
    (if s.flt.mgrHeld && !(s.face (data % 4)).inReset then ({ s with flt := { s.flt with mgrHeld := false } }).toManager else s,
     true)

end Sys2Proof.Machine
end

