-- ==== Sys2Proof/Machine/SettleOps.lean ====
section
/-! DEFINITION. What follows from a command at its end: banks that have drained, the resets that events have asked for
(spec/04 R111-R115, R673, spec/19 R580), and the links that wake; and the two ways a command is carried out. -/

namespace Sys2Proof.Machine

/-- The working state of a block is reset (spec/04 R113, R673, and each block's own chapter). -/
def State.resetBlock (s : State) (b : Nat) : State :=
  match b with
  | 2 => s.resetLsd
  | 3 => s.resetMac
  | 4 => s.resetHfc
  | 5 => s.resetDma
  | 6 => s.resetQmg.settleSto
  | 7 => s.resetIvm
  | 8 => s.resetPrs
  | 9 => s.resetCls
  | 10 => s.resetFwd
  | 11 => s.resetTun
  | 12 => s.resetCry
  | 13 => s.resetSto
  | 14 => s.resetTms
  | 17 => s.resetXpe
  | 20 => s.resetCsc
  | _ => s

/-- A block-reset reaction: merged into a running reset of the block; for KSC the start of a takeover (spec/04 R113,
R115, spec/19 R580, R595). -/
def State.blockReact (s : State) (b : Nat) : State :=
  if b = 18 then (if s.ksc.held then (s.count (fltCounter 2) 1).resetKsc else s)
  else if s.inReset b then s
  else
    let s := s.count (fltCounter 2) 1
    let s := { s with bring := { s.bring with blockReset := putBit s.bring.blockReset b true } }
    (s.setReady b false).resetBlock b

/-- The resets that one command's events ask for: a chip reset governs (spec/04 R115). -/
def State.react (s : State) (ds : List (Nat × Nat)) : State :=
  match ds.find? (fun (d : Nat × Nat) => d.1 = 21) with
  | some d => s.chipReset d.2
  | none => ds.foldl (fun (t : State) (d : Nat × Nat) => t.blockReact d.1) s

/-- Carry out what is due; `fuel` bounds the resets that resets ask for (a block in reset is not reset again, so it is
never used up); a rule bank with nothing left in flight is freed last. -/
def State.settleF : Nat → State → State
  | 0, s => s.drainBanks
  | n + 1, s =>
    let s := s.drainBanks
    if s.due = [] then s else State.settleF n (({ s with due := [] }).react s.due)

/-- The end of a command. -/
def State.settle (s : State) : State := s.settleF 64

/-- The state at the start of a command: what the command before it sent is forgotten (log 2). -/
def State.begun (s : State) : State := { s with out := [], due := [] }

/-- The end of a command that began in `s` and whose effect left `u`: the resets asked for (spec/04 R111-R115), the links
that wake (spec/06 R186); the queue of commands is as it was, nothing is due any more, and no reset touches a fuse. -/
def State.ended (s u : State) : State := { u.settle.wakeLinks with pending := s.pending, due := [], fuses := u.fuses }

/-- As `ended`, for a command that leaves the fuses as they were. -/
def State.close (s u : State) : State := { s.ended u with fuses := s.fuses }

/-- Carry out the fusing of the minimum security version (spec/21 R648), the one command that changes fuses. -/
def runFuse (f : State → State) (s : State) : Host.Outcome State Fault Refusal := .next (s.ended (f s.begun))

/-- Carry out a command's effect. -/
def run (f : State → State) (s : State) : Host.Outcome State Fault Refusal := .next (s.close (f s.begun))

/-- A command of the main domain: nothing happens before the release point or while a reset is held (spec/04 R111). -/
def runMain (f : State → State) (s : State) : Host.Outcome State Fault Refusal :=
  run (fun t => if t.released then f t else t) s

/-- A command that block b carries out: nothing happens while the block is not ready (spec/04 R99, R113). -/
def runBlock (b : Nat) (f : State → State) (s : State) : Host.Outcome State Fault Refusal :=
  runMain (fun t => if t.ready b then f t else t) s

/-- A command that may change a host queue's state: transport contexts whose queues have failed are torn down (spec/15
R470). -/
def runHost (f : State → State) (s : State) : Host.Outcome State Fault Refusal :=
  runMain (fun t => (f t).settleSto) s

/-- As `runHost`, for a command that block b carries out. -/
def runHostBlock (b : Nat) (f : State → State) (s : State) : Host.Outcome State Fault Refusal :=
  runHost (fun t => if t.ready b then f t else t) s

end Sys2Proof.Machine
end

