-- ==== Sys2Proof/Machine/RegisterOps.lean ====
section
/-! DEFINITION. Register accesses by address: which effect a write to a place in register space has (spec/00 R1, R2, R6-R9,
spec/06 R164-R166, R170), the small windows, and the Keystone local address space (spec/18 R548). -/

namespace Sys2Proof.Machine

/-! ### Words of register space -/

/-- A W1C field: bits written 1 are cleared. -/
def clearBits (old data w : Nat) : Nat :=
  (List.range w).foldl (fun v i => if bitOf data i then putBit v i false else v) old

/-- Two effects of one access, in address order. -/
def both (e f : Eff) : Eff := fun s =>
  let r := e s
  let q := f r.1
  (q.1, r.2 || q.2)

/-- A write of a doorbell line's registers: a face may write an OFF line for an instance of its own, and another only where
it holds the line's instance (spec/06 R170). -/
def State.mayWriteLine (s : State) (m : Master) (l : Nat) (carried : Option Nat) : Bool :=
  let x := s.dbLine l
  m.isFw || ((!x.enabled || s.onFace m x.inst) && (match carried with | some i => s.onFace m i | none => true))

/-- An effect allowed only where a test holds. -/
def guarded (p : State → Bool) (e : Eff) : Eff := fun s => if p s then e s else (s, false)

/-- What a write to a stored register does: the registers with an effect of their own are named by block and offset. -/
def storedEff (m : Master) (r : RegDef) (idx : List Nat) (data : Nat) : Eff :=
  let plain := State.writeReg m r idx data
  let a := ix idx 0
  match r.block, r.off with
  | 0, 0x10000 => State.tsuCtl m data
  | 1, 0x100 => State.paceCtl m data
  | 2, 0 => State.splitWrite m a data
  | 2, 0x200 => State.portCtl m a data
  | 6, 0 => guarded (fun s => s.mayWriteQueue m a) plain
  | 6, 0x80000 => guarded (fun s => s.mayWriteQueue m (16384 + a)) plain
  | 6, 0x100000 => guarded (fun s => s.mayWriteLine m a (some (bitsOf data 0 12))) plain
  | 6, 0x100004 => guarded (fun s => s.mayWriteLine m a none) plain
  | 6, 0x100008 => guarded (fun s => s.mayWriteLine m a none) plain
  | 6, 0x10000C => guarded (fun s => s.mayWriteLine m a none) plain
  | 6, 0x140000 => guarded (fun s => s.mayWriteRing m a) plain
  | 6, 0x140008 => guarded (fun s => s.mayWriteRing m a) plain
  | 6, 0x14000C => guarded (fun s => s.mayWriteRing m a) plain
  | 6, 0x140010 => guarded (fun s => s.mayWriteRing m a) plain
  | 6, 0x140014 => guarded (fun s => s.mayWriteRing m a) plain
  | 7, 0x190000 => State.mbxBind m a data
  | 8, 0x200 => State.admitSlots m a (ix idx 1) data
  | 10, 0x5040 => guarded (fun _ => a ≠ 4 || m.isFw) plain
  | 12, 0x5040 => guarded (fun _ => a ≠ 4 || m.isFw) plain
  | 13, 0x5040 => guarded (fun _ => a ≠ 4 || m.isFw) plain
  | 14, 0x10000 => State.groupWrite m a data
  | 14, 0x20000 => guarded (fun s => s.onFace m a) plain
  | 14, 0x20004 => guarded (fun s => s.onFace m a) plain
  | 14, 0x20008 => guarded (fun s => s.onFace m a) plain
  | 14, 0x40000 => State.leafWrite m r idx a data
  | 14, 0x80000 => guarded (fun s => s.mayWriteQueue m (16384 + a)) (State.leafWrite m r idx (4096 + a) data)
  | 14, 0xC0000 => guarded (fun s => 2052 ≤ a || s.onFace m a) (State.policerWrite m r idx data)
  | 14, 0xC0004 => guarded (fun s => 2052 ≤ a || s.onFace m a) (State.policerWrite m r idx data)
  | 14, 0xC000C => guarded (fun s => 2052 ≤ a || s.onFace m a) (State.policerWrite m r idx data)
  | 14, 0x100000 => State.gateArm m a data
  | 14, 0x100100 => State.gateWrite m r idx data
  | 14, 0x100108 => State.gateWrite m r idx data
  | 14, 0x100400 => State.gateWrite m r idx data
  | 15, 0x10000 => guarded (fun s => s.mayWriteQueue m (16384 + a)) plain
  | 20, 0 => State.cscCfgWrite m data
  | 20, 0x100 => State.quoinPortCfg m a data
  | 20, 0x1200 => State.retirePorts m data
  | _, _ => plain

/-- A write to PWR_SUPPLY_EVT (spec/03 R76). -/
def supplyEvtWrite (data : Nat) : Eff :=
  eff (fun s => s.withSupply (fun x => { x with
    uvloSeen := x.uvloSeen && !bitOf data 0, tripSeen := x.tripSeen && !bitOf data 1
    ovpSeen := x.ovpSeen && !bitOf data 2, hkclkLost := x.hkclkLost && !bitOf data 3 }))

/-- A write to PWR_PACE_STAT (spec/02 R54). -/
def paceStatWrite (data : Nat) : Eff :=
  eff (fun s => s.withPace (fun p => { p with
    causeVin := p.causeVin && !bitOf data 4, causeCore := p.causeCore && !bitOf data 5
    causeEst := p.causeEst && !bitOf data 6, causeAlert := p.causeAlert && !bitOf data 7 }))

/-- A write to block 0 outside the stored registers. -/
def glbEff (m : Master) (o data : Nat) : Eff :=
  if o = 0x1018 then eff (fun s => { s with bring := { s.bring with earlyAccess := clearBits s.bring.earlyAccess data 21 } })
  else if o = 0x2000 then State.lockSet m data
  else if o = 0x2008 then eff (fun s => { s with glb := { s.glb with lockViol := clearBits s.glb.lockViol data 21 } })
  else if 0x2010 ≤ o && o < 0x2030 && o % 8 = 0 then
    guarded (fun _ => m.isFw) (eff (fun s => { s with glb := { s.glb with
      faceWr := setNth s.glb.faceWr ((o - 0x2010) / 8) (data % 2 ^ 21) } }))
  else if o = 0x2040 then State.primaryFaceWrite m data
  else if o = 0x2044 then eff (fun s => { s with glb := { s.glb with wrDenied := clearBits s.glb.wrDenied data 4 } })
  else if o = 0x10030 then State.tsuSnap data
  else if o = svnRaiseAddr then State.svnRaise m data
  else noEff

/-- A write to a command set of a table engine: its command register, or a key word (spec/13 R407, spec/14 R446, spec/15
R482). -/
def setEff (m : Master) (b o data : Nat) : Eff :=
  let f := (o - 0x5000) / 0x100
  let k := (o - 0x5000) % 0x100
  if k = 0 then
    if b = 10 then State.fwdCommand m f (bitsOf data 0 4) (bitOf data 4) (bitsOf data 5 12)
    else if b = 12 then State.saCommand m f (bitsOf data 0 3) (bitsOf data 3 22)
    else State.stoCommand m f (bitsOf data 0 4) (bitsOf data 4 21)
  else if b = 12 && 0x80 ≤ k && k < 0xAC && k % 4 = 0 then State.keyArgWrite m f ((k - 0x80) / 4) data
  else noEff

/-- A write to the commands of QMG and IVM (spec/07 R229, spec/08 R255, spec/10 R289) and to DMA_JOB_PROD (spec/09 R284). -/
def perFaceEff (m : Master) (b o data : Nat) : Eff :=
  if b = 5 then (if o % 0x1000 = 0x180 && o < 0x4000 then State.jobProd m (o / 0x1000) data else noEff)
  else if b = 6 then
    if 0x130000 ≤ o && o < 0x134000 && o % 0x1000 = 0x80 then
      State.qmgCommand m ((o - 0x130000) / 0x1000) (bitsOf data 0 3) (bitsOf data 3 2) (bitsOf data 5 14)
    else if 0x1A0000 ≤ o && o < 0x1A4000 && o % 0x1000 = 0 then
      State.cqCommand m ((o - 0x1A0000) / 0x1000) (bitsOf data 0 3) (bitsOf data 3 13)
    else noEff
  else if o % 0x1000 = 0 && o < 0x4000 then State.ivmCommand m (o / 0x1000) (bitsOf data 0 4) (bitsOf data 4 12)
  else noEff

/-- A write to the Plumb outside the stored registers (spec/19 R593). -/
def fltEff (o data : Nat) : Eff :=
  if 0x1000 ≤ o && o < 0x1044 && o % 4 = 0 then State.pendClear ((o - 0x1000) / 4) data
  else if 0x2000 ≤ o && o < 0x2100 && o % 0x40 = 0 then State.captureAck ((o - 0x2000) / 0x40) data
  else if o = 0x3000 then State.errpinRelease data
  else if o = 0x3010 then State.faultInject data
  else noEff

/-- A 32-bit write to the KSC registers outside the stored ones (spec/18 R562). -/
def kscEff (m : Master) (o data : Nat) : Eff :=
  if o = 8 then State.renew m data
  else if o = 0xC then State.release m data
  else if o = 0x10 then (match m with | .fw x _ => State.request x data | _ => noEff)
  else if o = 0x18 then State.complexCommand m (bitsOf data 0 3) (bitsOf data 3 1) (bitsOf data 4 1)
  else if o = 0x4C then
    eff (fun s => { s with ksc := { s.ksc with stale := { s.ksc.stale with valid := s.ksc.stale.valid && !bitOf data 31 } } })
  else noEff

/-- A 32-bit write to a word that no stored register fills: commands and W1C registers. -/
def commandEff (m : Master) (b o data : Nat) : Eff :=
  match b with
  | 0 => glbEff m o data
  | 1 => if o = 4 then supplyEvtWrite data else if o = 0x108 then paceStatWrite data else noEff
  | 2 =>
    if o = 0x3000 then State.statClear true data
    else if o = 0x3008 then eff (fun s => { s with line := { s.line with lsdHalf := clearBits s.line.lsdHalf data 32 } })
    else noEff
  | 3 =>
    if o = 0x3000 then State.statClear false data
    else if o = 0x3008 then eff (fun s => { s with line := { s.line with macHalf := clearBits s.line.macHalf data 32 } })
    else if 0x2000 ≤ o && o < 0x2400 && (o - 0x2000) % 0x20 = 0x10 then State.txtsPop ((o - 0x2000) / 0x20) data
    else noEff
  | 5 => perFaceEff m 5 o data
  | 6 => perFaceEff m 6 o data
  | 7 => perFaceEff m 7 o data
  | 8 => if o = 0x8100 then State.courseCommand m (bitsOf data 0 2) (bitsOf data 2 2) else noEff
  | 9 => if o = 0 then State.bankCommand m (bitsOf data 0 2) (bitsOf data 2 1) else noEff
  | 10 => if 0x5000 ≤ o && o < 0x5500 then setEff m 10 o data else noEff
  | 12 =>
    if o = 0x1100 then State.laneCommand m (bitsOf data 0 2) (bitsOf data 2 3)
    else if 0x5000 ≤ o && o < 0x5500 then setEff m 12 o data else noEff
  | 13 => if 0x5000 ≤ o && o < 0x5500 then setEff m 13 o data else noEff
  | 15 => if o = 4 then State.peakClear data else noEff
  | 17 => if o = 0x1000 then State.clusterCommand m (bitsOf data 0 2) (bitsOf data 2 2) else noEff
  | 18 => kscEff m o data
  | 19 => fltEff o data
  | 20 =>
    if o = 0x1008 then State.stackRenew m (bitsOf data 0 16)
    else if o = 0x1018 then State.epochCommand m (bitsOf data 0 16)
    else noEff
  | _ => noEff

/-- The effect of a 32-bit write at a PF BAR0 offset. -/
def wordEff (m : Master) (a data : Nat) : Eff :=
  match regAt a with
  | some (r, idx) => storedEff m r idx (data % 2 ^ 32)
  | none => commandEff m (a / 0x200000) (a % 0x200000) (data % 2 ^ 32)

/-- A 64-bit write-only register, with the word that an access leaves out an open value (log 29). -/
def halfEff (high : Bool) (data : Nat) (f : Nat → Eff) : Eff := fun s =>
  let d := s.takeFree
  let v := Config.freeNat d.1 % 2 ^ 32
  f (if high then v + data % 2 ^ 32 * 2 ^ 32 else data % 2 ^ 32 + v * 2 ^ 32) d.2

/-- Every write but one to KSC_CKPT_COMMIT: the 64-bit registers of block 0 whose write is an action, and words. -/
def plainEff (m : Master) (a bytes data : Nat) : Eff :=
  if bytes = 8 then
    if a = 0x10020 then State.todSet data
    else if a = 0x10028 then State.todStep data
    else both (wordEff m a data) (wordEff m (a + 4) (data / 2 ^ 32))
  else if a = 0x10020 then halfEff false data State.todSet
  else if a = 0x10024 then halfEff true data State.todSet
  else if a = 0x10028 then halfEff false data State.todStep
  else if a = 0x1002C then halfEff true data State.todStep
  else wordEff m a data

/-- One waiting write reaches its target (spec/01 R37, spec/18 R553). -/
def State.replayOne (s : State) (w : JrnlWait) : State :=
  let n := if w.wide then 8 else 4
  s.access (.fw w.cplx w.epoch) w.off n w.data (plainEff (.fw w.cplx w.epoch) w.off n w.data)

/-- The waiting writes reach their targets in order while the journal has room; `fuel` is their number. -/
def State.replayWaits : Nat → State → State
  | 0, s => s
  | n + 1, s =>
    match s.ksc.jrnlWait with
    | [] => s
    | w :: ws =>
      if s.ksc.ckptJpos + 65536 ≤ s.ksc.j then s
      else
        let t := { s with ksc := { s.ksc with jrnlWait := [] } }.replayOne w
        State.replayWaits n { t with ksc := { t.ksc with jrnlWait := ws } }

/-- CKPT_COMMIT: the commit, then the writes that waited for journal space (spec/18 R553, R554). -/
def ckptEff (m : Master) (data : Nat) : Eff := fun s =>
  let r := State.commitCkpt m (data % 2) (data / 2 ^ 16) s
  if r.2 then (r.1.replayWaits r.1.ksc.jrnlWait.length, true) else r

/-- The effect of an aligned write of 4 or 8 bytes at a PF BAR0 offset. -/
def regEff (m : Master) (a bytes data : Nat) : Eff :=
  let c := blockBase 18 + 0x28
  if a = c && bytes = 8 then ckptEff m data
  else if a = c then halfEff false data (ckptEff m)
  else if a = c + 4 then halfEff true data (ckptEff m)
  else plainEff m a bytes data

/-! ### Mailbox channel blocks and MSI-X tables (spec/06 R165, spec/10 R300-R302) -/

/-- The channel and the offset in its block at an IVM offset. -/
def chanAt (a : Nat) : Option (Nat × Nat) :=
  let o := a - blockBase 7
  if a < blockBase 7 + 0x100000 then none
  else if o < 0x180000 then some ((o - 0x100000) / 0x100, o % 0x100)
  else if o < 0x180400 then some (2048 + (o - 0x180000) / 0x100, o % 0x100)
  else if 0x181000 ≤ o && o < 0x181400 then some (2052 + (o - 0x181000) / 0x100, o % 0x100)
  else none

/-- A write to MBX_CTL: each action is judged in the state before the write (spec/00 R8, spec/10 R302). -/
def mbxCtlWrite (c data : Nat) (s : State) (endB : Bool) : State :=
  [((0 : Nat), MbxAct.go), (1, MbxAct.done), (2, MbxAct.notify), (3, MbxAct.cancel)].foldl
    (fun (t : State) (a : Nat × MbxAct) =>
      if !bitOf data a.1 then t
      else if s.mbxAccepts c endB a.2 then
        let t := t.mbxEffect c a.2
        if 2052 ≤ c then t.sendCtl (c - 2052) (mbxMessage a.2) else t
      else t.mbxRefuse c endB) s

/-- An end's 32-bit write to its channel's block. -/
def mbxWordWrite (c o data : Nat) (s : State) (endB : Bool) : State :=
  if o < 0x40 then State.mbxAct (.data (o / 4) data) c s endB
  else if o = 0x40 then mbxCtlWrite c data s endB
  else if o = 0x44 then
    let x := s.chan c
    let e := x.fin endB
    s.setChan c (x.setFin endB { e with
      notice := e.notice && !bitOf data 3, aborted := e.aborted && !bitOf data 4, refused := e.refused && !bitOf data 5 })
  else if o = 0x48 then
    let x := s.chan c
    s.setChan c (x.setFin endB { x.fin endB with vector := bitsOf data 0 8, en := bitOf data 8 })
  else s

/-- The effect of a write to a channel's block; one that fills no word is only judged. -/
def mbxEff (m : Master) (c o bytes data : Nat) (full : Bool) : Eff :=
  State.mbxAsEnd m c (fun s e =>
    if !full then s
    else if bytes = 8 then mbxWordWrite c (o + 4) (data / 2 ^ 32 % 2 ^ 32) (mbxWordWrite c o (data % 2 ^ 32) s e) e
    else mbxWordWrite c o (data % 2 ^ 32) s e)

/-- A word of an MSI-X table entry written (PCIe MSI-X). -/
def MsixVec.write (v : MsixVec) (w data : Nat) : MsixVec :=
  match w with
  | 0 => { v with addr := putBits v.addr 0 32 (data / 4 * 4) }
  | 1 => { v with addr := putBits v.addr 32 32 data }
  | 2 => { v with data }
  | _ => { v with masked := bitOf data 0 }

/-- A 32-bit write to the MSI-X table of function k; a pending vector that becomes open is sent (spec/06 R165). -/
def State.msixWord (s : State) (k o data : Nat) : State :=
  if o / 16 < fnVectors k then
    (s.setFn k { s.fn k with msix := mapUpd {} (s.fn k).msix (o / 16) (fun v => v.write (o % 16 / 4) data) }).flushVectors k
  else s

/-- A write of full words to the MSI-X table of function k, whose window is reachable. -/
def State.msixWrite (s : State) (k o bytes data : Nat) : State :=
  if !s.fnReachable k then s
  else
    let s := s.msixWord k o (data % 2 ^ 32)
    if bytes = 8 then s.msixWord k (o + 4) (data / 2 ^ 32 % 2 ^ 32) else s

/-! ### Accesses (spec/00 R7, spec/06 R164-R166, spec/18 R548-R551) -/

/-- The aligned words that an access touches, with the mark that it fills the word. -/
def spanWords (addr bytes : Nat) : List (Nat × Bool) :=
  (List.range ((addr % 4 + bytes + 3) / 4)).map (fun i =>
    let w := addr / 4 * 4 + 4 * i
    (w, decide (addr ≤ w) && decide (w + 4 ≤ addr + bytes)))

/-- An access is carried out whole where it is an aligned one of 4 or 8 bytes, word by word otherwise. -/
def State.bySpan (s : State) (addr bytes data : Nat) (one : State → Nat → Nat → Bool → Nat → State) : State :=
  if (bytes = 4 && addr % 4 = 0) || (bytes = 8 && addr % 8 = 0) then one s addr bytes true data
  else (spanWords addr bytes).foldl (fun (t : State) (w : Nat × Bool) =>
    one t w.1 4 w.2 (data / 2 ^ (8 * (w.1 - addr)) % 2 ^ 32)) s

/-- An access to register space at a PF BAR0 offset; KSC_LEASE_RENEW and KSC_LEASE_REQ are judged as their own rows say. -/
def State.regAccess (m : Master) (s : State) (a bytes : Nat) (full : Bool) (data : Nat) : State :=
  match chanAt a with
  | some (c, o) => s.mbxAccess m c o data (mbxEff m c o bytes data full)
  | none =>
    if full && bytes = 4 && a = blockBase 18 + 8 then s.leaseRenew m data
    else if full && bytes = 4 && a = blockBase 18 + 0x10 then s.leaseReq m data
    else s.access m a bytes data (if full then regEff m a bytes data else noEff)

/-- An access to a function's small window (spec/06 R165): the mailbox channel c at 0x1000 where it has one, and the MSI-X
table at `t`. -/
def State.windowAccess (m : Master) (k : Nat) (c : Option Nat) (t : Nat)
    (s : State) (o bytes : Nat) (full : Bool) (data : Nat) : State :=
  if 0x1000 ≤ o && o < 0x1100 then
    match c with
    | some c => s.mbxAccess m c (o - 0x1000) data (mbxEff m c (o - 0x1000) bytes data full)
    | none => s
  else if full && t ≤ o && o < t + 0x1000 then s.msixWrite k (o - t) bytes data
  else s

/-- A complex's write to a byte of its local space outside register space (spec/18 R548). -/
def State.localByte (s : State) (x a : Nat) (b : Byte) : State :=
  if a < 0x800000 then
    let c := s.cplx x
    s.setCplx x { c with sram := memWrite c.sram a b }
  else if 0x10000000 ≤ a && a < 0x14000000 then
    let k := (a - 0x10000000) / 0x1000000
    let o := a % 0x1000000
    if o < 0xA00000 then
      let cl := s.cluster k
      s.setCluster k { cl with mem := memWrite cl.mem o b }
    else s
  else if 0x40000000 ≤ a && a < 0x100000000 && s.ready 16 then
    { s with ksc := { s.ksc with hbm := memWrite s.ksc.hbm a b } }
  else s

/-- A complex's write to memory: a stale one, outside its own SRAM, changes nothing; the offset that it logs is not in the
spec (log 29). -/
def State.localAccess (s : State) (x ep a bytes data : Nat) : State :=
  if !s.complexRuns x then s
  else if 0x800000 ≤ a && !s.freshEpoch ep then
    let d := s.takeFree
    d.2.staleWrite x ep (Config.freeNat d.1 % 2 ^ 26)
  else (List.range bytes).foldl (fun (t : State) i => t.localByte x (a + i) (BitVec.ofNat 8 (data / 2 ^ (8 * i)))) s

/-- REGISTER_WRITE at the address its master uses: PF BAR0, then the BAR2 window from 64 MiB and the companion's window
after it; the VF window; Keystone local addresses (log 29). -/
def State.registerWrite (s : State) (m : Master) (addr bytes data : Nat) : State :=
  match m with
  | .pf f =>
    if addr < 0x4000000 then s.bySpan addr bytes data (State.regAccess m)
    else if addr < 0x4010000 then
      s.bySpan (addr - 0x4000000) bytes data (State.windowAccess m (2048 + f) (some (2048 + f)) 0x4000)
    else if addr < 0x4020000 then
      s.bySpan (addr - 0x4010000) bytes data (State.windowAccess m (2052 + f) none 0x2000)
    else s
  | .vf i => s.bySpan addr bytes data (State.windowAccess m i (some i) 0x2000)
  | .fw x ep =>
    if 0x4000000 ≤ addr && addr < 0x8000000 then s.bySpan (addr - 0x4000000) bytes data (State.regAccess m)
    else s.localAccess x ep addr bytes data

end Sys2Proof.Machine
end

