-- ==== Sys2Proof/Machine/BufferCmds.lean ====
section
/-! DEFINITION. Commands of the packet buffer and the scheduler (spec/12 R355-R357, spec/16, spec/17). -/

namespace Sys2Proof.Machine

/-! ### The packet buffer (spec/16) -/

/-- BUFFER_ADMISSION (R492): Buffer admission rewrites act, replicates floods and mirrors, routes to the egress unit,
and runs the admission tests, drops and ECN marking. -/
def execBufferAdmission (pkt : Nat) (s : State) : Host.Outcome State Fault Refusal :=
  runHostBlock 15 (fun t => t.bufferAdmission pkt) s

/-- CHARGE_CORRECTION (R485): The end marker passes buffer admission and the provisional LRX charge is corrected to
the true length. -/
def execChargeCorrection (pkt : Nat) (s : State) : Host.Outcome State Fault Refusal :=
  runBlock 15 (fun t => t.chargeCorrection pkt) s

/-- ADMISSION_RETRY (R493): Cells are released and a packet waiting at admission is tested again. -/
def execAdmissionRetry (pkt : Nat) (s : State) : Host.Outcome State Fault Refusal :=
  runBlock 15 (fun t => t.admissionRetry pkt) s

/-- BUF_WAIT_EXPIRY (R493): A packet has waited max_wait at admission and is discarded with BUF_WAIT_EXPIRED. -/
def execBufWaitExpiry (pkt : Nat) (s : State) : Host.Outcome State Fault Refusal :=
  runBlock 15 (fun t => t.bufWaitExpiry pkt) s

/-- XOFF_EVALUATION (R495): The periodic 64-tick evaluation of a lossless group asserts or releases XOFF. -/
def execXoffEvaluation (port pri : Nat) (s : State) : Host.Outcome State Fault Refusal :=
  runBlock 15 (fun t => if 31 < port || 7 < pri then t else t.evalXoff port pri) s

/-- MARK_AGE_SCAN (R17): The periodic age check discards held packets whose age is 2^31 ticks or more with AGED. -/
def execMarkAgeScan (s : State) : Host.Outcome State Fault Refusal :=
  runHostBlock 15 (fun t => t.ageScan) s

/-- HRX_HOLD_EXPIRY (R500): An HRX packet has not begun delivery within hold_ms and is discarded with BUF_HRX_HOLD. -/
def execHrxHoldExpiry (pkt : Nat) (s : State) : Host.Outcome State Fault Refusal :=
  runBlock 15 (fun t => t.hrxHoldExpiry pkt) s

/-- SPILL_MOVE (R501): A spill-eligible packet is moved to HBM after its end marker, and its on-die cells are freed.
-/
def execSpillMove (pkt : Nat) (s : State) : Host.Outcome State Fault Refusal :=
  runBlock 15 (fun t => t.spillMove pkt) s

/-- SPILL_READBACK (R502): A spilled packet is read back from HBM ahead of its delivery. -/
def execSpillReadback (pkt : Nat) (uncorr : Bool) (s : State) : Host.Outcome State Fault Refusal :=
  runBlock 15 (fun t => t.spillReadback pkt uncorr) s

/-- PORT_DOWN_FLUSH (R503): A line link has been down for down_flush_us and the port's packets are discarded with
BUF_PORT_DOWN. -/
def execPortDownFlush (port : Nat) (s : State) : Host.Outcome State Fault Refusal :=
  runHostBlock 15 (fun t => if 31 < port then t else t.portDownFlush port) s

/-- PEAK_CLEAR (R506): Writing BUF_PEAK.clr sets peak to cells_used. -/
def execPeakClear (m : Master) (data : Nat) (s : State) : Host.Outcome State Fault Refusal :=
  runMain (fun t => t.access m (blockBase 15 + 4) 4 (data % 2 ^ 32) (State.peakClear data)) s

/-- RECIRC_TAKE (R355): The recirculation port takes a whole packet and returns it to its course for another pass. -/
def execRecircTake (pkt : Nat) (s : State) : Host.Outcome State Fault Refusal :=
  runBlock 14 (fun t => t.recircTake pkt) s

/-- RECIRC_HOLD_EXPIRY (R357): A recirculating packet has waited 4,000 ticks without a REC slot and is discarded with
RECIRC_HOLD. -/
def execRecircHoldExpiry (pkt : Nat) (s : State) : Host.Outcome State Fault Refusal :=
  runMain (fun t => t.recircHold pkt) s

/-! ### The scheduler (spec/17) -/

/-- EXIT_SELECT (R518): An exit's transmit input is free; the scheduler chooses the next packet by priority and WRR,
applies shapers, gates and the generation check, and starts transmission or host delivery. -/
def execExitSelect (exit : Nat) (s : State) : Host.Outcome State Fault Refusal :=
  runHostBlock 14 (fun t => t.exitSelect exit) s

/-- CUT_THROUGH_CORRECTION (R522): The end marker of a cut-through packet passes the scheduler and the shaper charge
is corrected. -/
def execCutThroughCorrection (pkt : Nat) (s : State) : Host.Outcome State Fault Refusal :=
  runBlock 14 (fun t => t.cutCorrection pkt) s

/-- SHAPER_REFILL (R523): A shaper's refill period expires and its credit is updated. -/
def execShaperRefill (shaper : Nat) (s : State) : Host.Outcome State Fault Refusal :=
  runBlock 14 (fun t => t.refill shaper) s

/-- GATE_ARM (R533): TMS_GATE_CTL.arm checks a gate list and sets it pending, or refuses it. -/
def execGateArm (m : Master) (port data : Nat) (s : State) : Host.Outcome State Fault Refusal :=
  runMain (fun t => if 31 < port then t else t.access m (Reg.tmsGateCtl.addr [port]) 4 (data % 2 ^ 32) (State.gateArm m port (data % 2 ^ 32))) s

/-- GATE_SWITCH (R533): A pending gate list becomes operative at the start of one of its cycles. -/
def execGateSwitch (port : Nat) (s : State) : Host.Outcome State Fault Refusal :=
  runBlock 14 (fun t => t.gateSwitch port) s

end Sys2Proof.Machine
end

