-- ==== Sys2Proof/Machine/CourseCmds.lean ====
section
/-! DEFINITION. Commands of a packet on its course: admission, parser, rules, forwarding, tunnels and crypto (spec/01, spec/11-spec/14). -/

namespace Sys2Proof.Machine

/-! ### Admission and parser (spec/01 R11, spec/11) -/

/-- MARK_CREATION (R11): Course admission grants a slot to a waiting source and creates the Mark for its entry
activity. -/
def execMarkCreation (pkt : Nat) (s : State) : Host.Outcome State Fault Refusal :=
  runBlock 8 (fun t => t.createMark pkt) s

/-- PARSE (R318): The parser walks the protocol graph once the bytes it needs have arrived, then writes the headers,
findings, hash, pattern bits and reason. -/
def execParse (pkt : Nat) (s : State) : Host.Outcome State Fault Refusal :=
  runBlock 8 (fun t => t.parseMark pkt) s

/-- LATE_FINDINGS (R327): The end marker passes the parser and the findings that need F are set as late flags. -/
def execLateFindings (pkt : Nat) (s : State) : Host.Outcome State Fault Refusal :=
  runBlock 8 (fun t => t.lateParse pkt) s

/-! ### Rules (spec/12) -/

/-- RULE_PASS (R342): The rule engine runs the stages, edits, policer and resolution on a Mark. -/
def execRulePass (pkt : Nat) (s : State) : Host.Outcome State Fault Refusal :=
  runBlock 9 (fun t => t.rulePass pkt) s

/-- LATE_VERDICT (R358): The end marker passes the rule engine and the default-action verdict is applied to the late
findings. -/
def execLateVerdict (pkt : Nat) (s : State) : Host.Outcome State Fault Refusal :=
  runBlock 9 (fun t => t.lateVerdict pkt) s

/-- LIMITER_REFILL (R353): Every 1,000 ticks each exception limiter adds rate tokens, capped at its burst. -/
def execLimiterRefill (s : State) : Host.Outcome State Fault Refusal :=
  runMain (fun t => t.refillLimiters) s

/-! ### Forwarding (spec/13) -/

/-- FORWARDING_LOOKUP (R377): Forwarding runs its lookup steps, resolves the destination and makes the source lookup
for learning. -/
def execForwardingLookup (pkt : Nat) (s : State) : Host.Outcome State Fault Refusal :=
  runBlock 10 (fun t => t.forward pkt) s

/-- LEARN_RECORD_EXPIRY (R395): A learn filter record reaches the end of its window_us life and expires. -/
def execLearnRecordExpiry (domain addr : Nat) (s : State) : Host.Outcome State Fault Refusal :=
  runBlock 10 (fun t => t.learnExpiry domain addr) s

/-- AGING_VISIT (R397): The aging scan visits an entry: it clears hit, or reports the entry as AGED and optionally
removes it. -/
def execAgingVisit (flow : Bool) (index : Nat) (s : State) : Host.Outcome State Fault Refusal :=
  runBlock 10 (fun t => if flow then t.ageFlow index else t.ageEm index) s

/-! ### Tunnels and crypto (spec/14) -/

/-- TUNNEL_STAGE (R409): The tunnel engine decapsulates, encapsulates and checks the MTU of a Mark. -/
def execTunnelStage (pkt : Nat) (s : State) : Host.Outcome State Fault Refusal :=
  runBlock 11 (fun t => t.tunnel pkt) s

/-- CRYPTO_STAGE (R430): A crypto lane checks the SA, then encrypts or decrypts, applies the replay window, and
advances seq or the TLS state. -/
def execCryptoStage (pkt : Nat) (s : State) : Host.Outcome State Fault Refusal :=
  runBlock 12 (fun t => t.crypto pkt) s

/-- SA_CACHE_FILL (R434): An SA fetched from HBM arrives, its wrap is checked, and the packets waiting in the miss
queue proceed. -/
def execSaCacheFill (sa : Nat) (wrapOk : Bool) (s : State) : Host.Outcome State Fault Refusal :=
  runBlock 12 (fun t => t.fillSa sa wrapOk) s

end Sys2Proof.Machine
end

