-- ==== Sys2Proof/Machine/CryptoCmds.lean ====
section
/-! DEFINITION. Commands of the security associations and the crypto lanes (spec/14 R436-R438). -/

namespace Sys2Proof.Machine

/-! ### Security associations (spec/14 R436) -/

/-- A write to CRY_SA_CMD of a set. -/
def State.saRow (s : State) (m : Master) (set op index : Nat) : State :=
  if 4 < set then s
  else s.access m (blockBase 12 + 0x5000 + 0x100 * set) 4 (op + index % 2 ^ 22 * 8) (State.saCommand m set op (index % 2 ^ 22))

/-- SA_WRITE (R436): Installs an SA with its key wrapped and its state cleared. -/
def execSaWrite (m : Master) (set index : Nat) (s : State) : Host.Outcome State Fault Refusal :=
  runMain (fun t => t.saRow m set 1 index) s

/-- SA_READ (R436): Returns an SA's live bytes 0x00–0x3F. -/
def execSaRead (m : Master) (set index : Nat) (s : State) : Host.Outcome State Fault Refusal :=
  runMain (fun t => t.saRow m set 2 index) s

/-- SA_DELETE (R436): Clears an SA's valid bit. -/
def execSaDelete (m : Master) (set index : Nat) (s : State) : Host.Outcome State Fault Refusal :=
  runMain (fun t => t.saRow m set 3 index) s

/-- SA_LIMIT (R436): Replaces soft_limit and clears soft_hit. -/
def execSaLimit (m : Master) (set index : Nat) (s : State) : Host.Outcome State Fault Refusal :=
  runMain (fun t => t.saRow m set 4 index) s

/-- TLS_RESYNC (R427): Sets the resync point of a TLS decrypt SA in RESYNC. -/
def execTlsResync (m : Master) (set index : Nat) (s : State) : Host.Outcome State Fault Refusal :=
  runMain (fun t => t.saRow m set 5 index) s

/-! ### Lanes (spec/14 R438) -/

/-- A write to CRY_LANE_CMD. -/
def State.laneRow (s : State) (m : Master) (op lane : Nat) : State :=
  if 7 < lane then s else s.access m (blockBase 12 + 0x1100) 4 (op + lane * 4) (State.laneCommand m op lane)

/-- LANE_DRAIN (R438): Removes a crypto lane from the map; the lane goes DRAINING. -/
def execLaneDrain (m : Master) (lane : Nat) (s : State) : Host.Outcome State Fault Refusal :=
  runMain (fun t => t.laneRow m 1 lane) s

/-- LANE_OUT (R438): A draining lane holds no packet and goes OUT. -/
def execLaneOut (lane : Nat) (s : State) : Host.Outcome State Fault Refusal :=
  runBlock 12 (fun t => t.laneGoesOut lane) s

/-- LANE_TEST (R438): Starts the known-answer tests of a lane. -/
def execLaneTest (m : Master) (lane : Nat) (s : State) : Host.Outcome State Fault Refusal :=
  runMain (fun t => t.laneRow m 2 lane) s

/-- LANE_TEST_END (R438): A lane test ends with OUT and test_pass, or with FAILED. -/
def execLaneTestEnd (lane : Nat) (pass : Bool) (s : State) : Host.Outcome State Fault Refusal :=
  runBlock 12 (fun t => t.endLaneTest lane pass) s

/-- LANE_RETURN (R438): Applies dir and returns an OUT lane to the map. -/
def execLaneReturn (m : Master) (lane : Nat) (s : State) : Host.Outcome State Fault Refusal :=
  runMain (fun t => t.laneRow m 3 lane) s

end Sys2Proof.Machine
end

