-- ==== Sys2Proof/Machine/DmaCmds.lean ====
section
/-! DEFINITION. Commands of the host DMA engines (spec/09). -/

namespace Sys2Proof.Machine

/-! ### Reads and writes (spec/09 R261-R273) -/

/-- READ_ISSUE (R261): A read request obtains a tag and staging space and is issued. -/
def execReadIssue (face : Nat) (s : State) : Host.Outcome State Fault Refusal :=
  runHostBlock 5 (fun t => t.doReadIssue face) s

/-- READ_COMPLETION (R268): A completion arrives and is recorded, checked for errors, or handled as late or
unexpected. -/
def execReadCompletion (face tag : Nat) (st : CplStatus) (bytes : List Byte) (s : State) : Host.Outcome State Fault Refusal :=
  runHost (fun t => t.doCompletion face tag st bytes) s

/-- READ_TIMEOUT (R268): A read's timer wins its entry; the read times out and its tag is quarantined. -/
def execReadTimeout (face tag : Nat) (s : State) : Host.Outcome State Fault Refusal :=
  runHost (fun t => t.doReadTimeout face tag) s

/-- QUARANTINE_END (R269): 2 × T after a timeout, the tag returns to its pool. -/
def execQuarantineEnd (face tag : Nat) (s : State) : Host.Outcome State Fault Refusal :=
  runHost (fun t => t.quarantineEnd face tag) s

/-- WRITE_TLP (R272): A write channel issues or suppresses a TLP at a boundary after the generation and withdrawal
check. -/
def execWriteTlp (face link chan : Nat) (s : State) : Host.Outcome State Fault Refusal :=
  runHostBlock 5 (fun t => t.doWriteTlp face link chan) s

/-! ### Firmware jobs (spec/09 R274) -/

/-- JOB_SUBMIT (R274): A write to DMA_JOB_PROD makes firmware job records available; each is checked and started. -/
def execJobSubmit (m : Master) (face count : Nat) (s : State) : Host.Outcome State Fault Refusal :=
  runHost (fun t => if 3 < face then t else t.access m (blockBase 5 + 0x1000 * face + 0x180) 4 (count % 2 ^ 32) (State.jobProd m face (count % 2 ^ 32))) s

/-- JOB_FINISH (R274): A firmware job finishes: its status is written and DMA_JOB_DONE advances. -/
def execJobFinish (face : Nat) (s : State) : Host.Outcome State Fault Refusal :=
  runHostBlock 5 (fun t => t.jobFinish face) s

/-! ### Flush reads (spec/09 R281) -/

/-- FLUSH_COMPLETION (R281): A flush read's completion shows that the channel's writes for the instance are visible.
-/
def execFlushCompletion (face tag : Nat) (s : State) : Host.Outcome State Fault Refusal :=
  runHost (fun t => t.flushEnd face tag false) s

/-- FLUSH_TIMEOUT (R281): A flush read times out, which counts as done. -/
def execFlushTimeout (face tag : Nat) (s : State) : Host.Outcome State Fault Refusal :=
  runHost (fun t => t.flushEnd face tag true) s

end Sys2Proof.Machine
end

