-- ==== Sys2Proof/Machine/FaceCmds.lean ====
section
/-! DEFINITION. Commands of the host faces (spec/04 R110, R111, spec/06, spec/08 R249-R251, spec/09 R279, R280). -/

namespace Sys2Proof.Machine

/-! ### Links and functions (spec/04 R110, R111, spec/06) -/

/-- CONFIG_REQUEST (R110): A PCIe configuration request, answered with retry status until the face is ready. -/
def execConfigRequest (fn bus dev : Nat) (r : CfgReq) (s : State) : Host.Outcome State Fault Refusal :=
  runHost (fun t => t.configRequest fn bus dev r) s

/-- PCIE_DL_ACTIVE (R110): A face link reaches DL_Active: Device Readiness Status is sent and WAKE_N is released. -/
def execPcieDlActive (face link rate width : Nat) (flit : Bool) (s : State) : Host.Outcome State Fault Refusal :=
  runHost (fun t => t.pcieDlActive face link rate width flit) s

/-- PCIE_LINK_RESET (R111): A hot reset or link-down resets a face link's layers and times out its outstanding
requests. -/
def execPcieLinkReset (face link : Nat) (hot : Bool) (s : State) : Host.Outcome State Fault Refusal :=
  runHost (fun t => t.pcieLinkReset face link hot) s

/-- VF_ENABLE (R163): Setting VF Enable makes VFs 1 to NumVFs exist. -/
def execVfEnable (face numVfs : Nat) (s : State) : Host.Outcome State Fault Refusal :=
  runHost (fun t => t.vfEnableSet face numVfs) s

/-- VF_DISABLE (R163): Clearing VF Enable, or resetting the PF's configuration, resets every VF that existed. -/
def execVfDisable (face : Nat) (s : State) : Host.Outcome State Fault Refusal :=
  runHost (fun t => t.vfDisableSet face) s

/-- BME_CLEAR (R188): Bus Master Enable is cleared: requests stop and the function's queues move to MASTER_OFF. -/
def execBmeClear (fn : Nat) (s : State) : Host.Outcome State Fault Refusal :=
  runHost (fun t => t.bmeClear fn) s

/-- BME_SET (R189): Bus Master Enable is set again; the corbel drains and pending messages go out, but MASTER_OFF
queues stay stopped. -/
def execBmeSet (fn : Nat) (s : State) : Host.Outcome State Fault Refusal :=
  runHost (fun t => t.bmeSet fn) s

/-- VF_FLR (R190): A VF FLR resets the VF's configuration space and starts an instance reset. -/
def execVfFlr (inst : Nat) (s : State) : Host.Outcome State Fault Refusal :=
  runHost (fun t => t.vfFlr inst) s

/-- D3HOT_ENTRY (R184): A function leaves D0: its polling, delivery and memory requests stop. -/
def execD3hotEntry (fn : Nat) (s : State) : Host.Outcome State Fault Refusal :=
  runHost (fun t => t.d3hotEntry fn) s

/-- D0_RETURN (R250): A function returns to D0: its rings drain, pending messages are sent, and polling resumes. -/
def execD0Return (fn : Nat) (s : State) : Host.Outcome State Fault Refusal :=
  runHost (fun t => t.d0Return fn) s

/-- PME_RESEND (R185): PME_Status is still set after 100,000,000 ticks and PM_PME is sent again. -/
def execPmeResend (fn : Nat) (s : State) : Host.Outcome State Fault Refusal :=
  runMain (fun t => t.pmeResend fn) s

/-- PME_TURN_OFF (R187): PME_Turn_Off with every function in D3hot is answered PME_TO_Ack and the link enters L2. -/
def execPmeTurnOff (face link : Nat) (s : State) : Host.Outcome State Fault Refusal :=
  runHost (fun t => t.pmeTurnOff face link) s

/-- MSIX_UNMASK (R249): A vector or function mask is cleared and the pending message is sent. -/
def execMsixUnmask (fn vec : Nat) (whole : Bool) (s : State) : Host.Outcome State Fault Refusal :=
  runMain (fun t => t.msixUnmask fn vec whole) s

/-- L1_ENTRY (R186): A face link enters ASPM L1, or an L1 substate, when both sides negotiate it. -/
def execL1Entry (face link substate : Nat) (s : State) : Host.Outcome State Fault Refusal :=
  runMain (fun t => t.l1Entry face link substate) s

/-- L1_EXIT (R186): The host side starts L1 exit and the face link returns to L0. -/
def execL1Exit (face link : Nat) (s : State) : Host.Outcome State Fault Refusal :=
  runMain (fun t => t.l1Exit face link) s

/-! ### Management over MCTP (spec/06 R192) -/

/-- MCTP_CONTROL (R192): An MCTP control message on the primary face is answered in hardware. -/
def execMctpControl (face : Nat) (msg : List Byte) (s : State) : Host.Outcome State Fault Refusal :=
  runMain (fun t => t.mctpControl face msg) s

/-- PLDM_REQUEST (R192): A PLDM request is passed to firmware, or answered ERROR_NOT_READY. -/
def execPldmRequest (face : Nat) (msg : List Byte) (s : State) : Host.Outcome State Fault Refusal :=
  runMain (fun t => t.pldmRequest face msg) s

/-! ### Address translation (spec/09 R279, R280) -/

/-- ATS_INVALIDATE (R280): An Invalidate Request stops the use of the entries and waits for their reads. -/
def execAtsInvalidate (face fn page pages : Nat) (s : State) : Host.Outcome State Fault Refusal :=
  runHost (fun t => t.invalidate face fn page pages) s

/-- INVALIDATE_DEADLINE (R280): 50 µs after an invalidation, reads still outstanding end as timed out and the
Invalidate Completion is sent. -/
def execInvalidateDeadline (face fn page : Nat) (s : State) : Host.Outcome State Fault Refusal :=
  runHost (fun t => t.doInvalDeadline face fn page) s

/-- ATS_TRANSLATION (R279): A Translation Completion arrives; the waiting request proceeds or fails. -/
def execAtsTranslation (face id : Nat) (r : XlateResult) (s : State) : Host.Outcome State Fault Refusal :=
  runHost (fun t => t.doTranslation face id r) s

end Sys2Proof.Machine
end

