-- ==== Sys2Proof/Machine/InstanceCmds.lean ====
section
/-! DEFINITION. Commands of virtual instances and mailboxes (spec/10, spec/21 R646). -/

namespace Sys2Proof.Machine

/-! ### Instance commands (spec/10 R287-R298) -/

/-- A write to IVM_CMD of a face. -/
def State.ivmRow (s : State) (m : Master) (face op inst : Nat) : State :=
  if 3 < face then s else s.access m (ivmCmdAddr face) 4 (ivmCmdWord op inst) (State.ivmCommand m face op (inst % 4096))

/-- CREATE (R288): The IVM CREATE command checks and reserves the grants, and the instance becomes CREATED. -/
def execCreate (m : Master) (face inst : Nat) (s : State) : Host.Outcome State Fault Refusal :=
  runHost (fun t => t.ivmRow m face 1 inst) s

/-- START (R288): The IVM START command moves a CREATED instance to STARTED. -/
def execStart (m : Master) (face inst : Nat) (s : State) : Host.Outcome State Fault Refusal :=
  runHost (fun t => t.ivmRow m face 2 inst) s

/-- RESET (R296): The IVM RESET command raises the generation and starts the reset sequence. -/
def execReset (m : Master) (face inst : Nat) (s : State) : Host.Outcome State Fault Refusal :=
  runHost (fun t => t.ivmRow m face 3 inst) s

/-- REMOVE (R288): The IVM REMOVE command runs the reset sequence and then releases the grants. -/
def execRemove (m : Master) (face inst : Nat) (s : State) : Host.Outcome State Fault Refusal :=
  runHost (fun t => t.ivmRow m face 4 inst) s

/-- SET_SHARE (R293): The IVM SET_SHARE command changes an instance's grant, or ends BUSY. -/
def execSetShare (m : Master) (face inst : Nat) (s : State) : Host.Outcome State Fault Refusal :=
  runHost (fun t => t.ivmRow m face 5 inst) s

/-- RESET_SEQUENCE_DONE (R296): The flushes, and any wrap wait, end; the instance leaves RESETTING or REMOVING. -/
def execResetSequenceDone (inst : Nat) (s : State) : Host.Outcome State Fault Refusal :=
  runHostBlock 7 (fun t => t.resetDone inst) s

/-! ### Mailbox channels (spec/10 R300-R308) -/

/-- An action of an end of a channel, at an offset of the channel's block. -/
def State.mbxRow (s : State) (m : Master) (c off data : Nat) (a : MbxAct) : State :=
  if 2055 < c then s else s.mbxAccess m c off data (State.mbxAsEnd m c (State.mbxAct a c))

/-- MBX_DATA_WRITE (R302): A bound end writes a message word, or is refused. -/
def execMbxDataWrite (m : Master) (chan word data : Nat) (s : State) : Host.Outcome State Fault Refusal :=
  runMain (fun t => if 15 < word then t else t.mbxRow m chan (4 * word) (data % 2 ^ 32) (.data word (data % 2 ^ 32))) s

/-- GO (R302): End A posts a request: the channel becomes POSTED and an event goes to end B. -/
def execGo (m : Master) (chan : Nat) (s : State) : Host.Outcome State Fault Refusal :=
  runMain (fun t => t.mbxRow m chan 0x40 1 .go) s

/-- DONE (R302): End B posts the reply: the channel becomes REPLIED and an event goes to end A. -/
def execDone (m : Master) (chan : Nat) (s : State) : Host.Outcome State Fault Refusal :=
  runMain (fun t => t.mbxRow m chan 0x40 2 .done) s

/-- NOTIFY (R302): End B flags news for end A. -/
def execNotify (m : Master) (chan : Nat) (s : State) : Host.Outcome State Fault Refusal :=
  runMain (fun t => t.mbxRow m chan 0x40 4 .notify) s

/-- CANCEL (R302): End A withdraws a posted request, which sets aborted at end B. -/
def execCancel (m : Master) (chan : Nat) (s : State) : Host.Outcome State Fault Refusal :=
  runMain (fun t => t.mbxRow m chan 0x40 8 .cancel) s

/-- MBX_EVENT_DELIVERY (R303): An event held while its end was busy is delivered once the end can take it. -/
def execMbxEventDelivery (chan : Nat) (endB : Bool) (s : State) : Host.Outcome State Fault Refusal :=
  runMain (fun t => t.mbxDeliver chan endB) s

/-- MBX_BIND_WRITE (R307): Firmware writes a binding entry, which clears the channel. -/
def execMbxBindWrite (m : Master) (chan data : Nat) (s : State) : Host.Outcome State Fault Refusal :=
  runMain (fun t => if 2051 < chan then t else t.access m (Reg.ivmMbxBind.addr [chan]) 4 (data % 2 ^ 32) (State.mbxBind m chan (data % 2 ^ 32))) s

/-! ### Messages (spec/10 R309-R312, spec/21 R646) -/

/-- MGR_HELLO (R310): Firmware answers HELLO on a manager channel with its version and face. -/
def execMgrHello (face : Nat) (s : State) : Host.Outcome State Fault Refusal :=
  runHost (fun t => t.mgrHello face) s

/-- MBOX_CREATE (R310): Firmware carries out a manager's CREATE request with IVM_CMD. -/
def execMboxCreate (face : Nat) (s : State) : Host.Outcome State Fault Refusal :=
  runHost (fun t => t.mboxCreate face) s

/-- MBOX_REMOVE (R310): Firmware answers REMOVE with PENDING and posts INST_GONE when it is done. -/
def execMboxRemove (face : Nat) (s : State) : Host.Outcome State Fault Refusal :=
  runHost (fun t => t.mboxRemove face) s

/-- MBOX_SET_SHARE (R310): Firmware carries out a manager's SET_SHARE request. -/
def execMboxSetShare (face : Nat) (s : State) : Host.Outcome State Fault Refusal :=
  runHost (fun t => t.mboxShare face) s

/-- GET_NOTICE (R311): The holder returns and removes up to 7 notices, oldest first. -/
def execGetNotice (chan : Nat) (s : State) : Host.Outcome State Fault Refusal :=
  runHost (fun t => t.getNotice chan) s

/-- TENANT_HELLO (R312): The manager answers a tenant's HELLO with its inst, generation and grants. -/
def execTenantHello (inst : Nat) (s : State) : Host.Outcome State Fault Refusal :=
  runHost (fun t => t.tenantHello inst) s

/-- RESET_REQUEST (R312): A tenant asks to be reset; the manager answers PENDING and issues RESET. -/
def execResetRequest (inst : Nat) (s : State) : Host.Outcome State Fault Refusal :=
  runHost (fun t => t.resetRequest inst) s

/-- UPGRADE_STATUS (R646): Firmware reports fw_ver, the checkpoint version and min_svn on the primary face. -/
def execUpgradeStatus (face : Nat) (s : State) : Host.Outcome State Fault Refusal :=
  runMain (fun t => t.upgradeStatus face) s

/-- UPGRADE_CONFIRM (R646): Firmware switches to its own ck_ver, optionally raises the svn, and posts UPGRADE_DONE. -/
def execUpgradeConfirm (face : Nat) (s : State) : Host.Outcome State Fault Refusal :=
  runMain (fun t => t.upgradeConfirm face) s

end Sys2Proof.Machine
end

