-- ==== Sys2Proof/Machine/KeystoneCmds.lean ====
section
/-! DEFINITION. Commands of the Keystone and the Masons (spec/18). -/

namespace Sys2Proof.Machine

/-! ### The lease, checkpoints and complexes (spec/18 R546-R558) -/

/-- LEASE_RENEW (R549): The holder renews the Keystone lease with its epoch, or the renewal is refused. -/
def execLeaseRenew (m : Master) (epoch : Nat) (s : State) : Host.Outcome State Fault Refusal :=
  runHost (fun t => t.leaseRenew m (epoch % 65536)) s

/-- LEASE_RELEASE (R549): The holder releases the lease. -/
def execLeaseRelease (m : Master) (epoch : Nat) (s : State) : Host.Outcome State Fault Refusal :=
  runHost (fun t => t.leaseRelease m (epoch % 65536)) s

/-- LEASE_END (R555): The lease end passes: the holder goes FAILED and the takeover starts, starting the other complex
if needed. -/
def execLeaseEnd (s : State) : Host.Outcome State Fault Refusal :=
  runHost (fun t => t.leaseEnds) s

/-- LOCKSTEP_MISMATCH (R547): The two cores of a complex differ: the complex goes FAILED and any lease it held ends.
-/
def execLockstepMismatch (cplx : Nat) (s : State) : Host.Outcome State Fault Refusal :=
  runHost (fun t => t.mismatch cplx) s

/-- LEASE_REQ (R555): A SYNC complex requests the lease with jpos; it is granted, refused, sent to standby, or starts
a handover request. -/
def execLeaseReq (m : Master) (jpos : Nat) (s : State) : Host.Outcome State Fault Refusal :=
  runHost (fun t => t.leaseReq m (jpos % 2 ^ 32)) s

/-- TAKEOVER_DEADLINE (R555): 2,000,000 ticks pass without a grant. -/
def execTakeoverDeadline (s : State) : Host.Outcome State Fault Refusal :=
  runMain (fun t => t.takeoverLate) s

/-- HANDOVER_LAPSE (R558): The holder has not released within 2,000,000 ticks and the request lapses. -/
def execHandoverLapse (s : State) : Host.Outcome State Fault Refusal :=
  runMain (fun t => t.handoverLapses) s

/-- CKPT_COMMIT (R554): The holder commits a checkpoint slot and jpos, which frees waiting journal writes. -/
def execCkptCommit (m : Master) (slot jpos : Nat) (s : State) : Host.Outcome State Fault Refusal :=
  runHost (fun t => t.access m (blockBase 18 + 0x28) 8 (slot % 2 + jpos % 2 ^ 48 * 2 ^ 16) (ckptEff m (slot % 2 + jpos % 2 ^ 48 * 2 ^ 16))) s

/-- CKPT_DEADLINE (R554): 1,100,000 ticks pass without a commit. -/
def execCkptDeadline (s : State) : Host.Outcome State Fault Refusal :=
  runMain (fun t => t.ckptLate) s

/-- COMPLEX_START (R557): The START command powers up, tests, loads and verifies a complex. -/
def execComplexStart (m : Master) (cplx slot : Nat) (s : State) : Host.Outcome State Fault Refusal :=
  runMain (fun t => t.access m (blockBase 18 + 0x18) 4 (complexWord 1 cplx slot) (State.complexCommand m 1 (cplx % 2) (slot % 2))) s

/-- COMPLEX_STARTED (R555): A starting complex finishes its power-up, self-test and verification, and reaches SYNC or
FAILED. -/
def execComplexStarted (cplx : Nat) (testOk verifyOk : Bool) (s : State) : Host.Outcome State Fault Refusal :=
  runHost (fun t => t.complexStarted cplx testOk verifyOk) s

/-- COMPLEX_STOP (R557): The STOP command powers a SYNC complex down. -/
def execComplexStop (m : Master) (cplx : Nat) (s : State) : Host.Outcome State Fault Refusal :=
  runMain (fun t => t.access m (blockBase 18 + 0x18) 4 (complexWord 2 cplx 0) (State.complexCommand m 2 (cplx % 2) 0)) s

/-- COMPLEX_TEST (R557): The TEST command starts the standby complex's self-tests. -/
def execComplexTest (m : Master) (cplx : Nat) (s : State) : Host.Outcome State Fault Refusal :=
  runMain (fun t => t.access m (blockBase 18 + 0x18) 4 (complexWord 3 cplx 0) (State.complexCommand m 3 (cplx % 2) 0)) s

/-- COMPLEX_TEST_END (R557): A complex test ends with OFF and test_pass, or with FAILED. -/
def execComplexTestEnd (cplx : Nat) (pass : Bool) (s : State) : Host.Outcome State Fault Refusal :=
  runMain (fun t => t.complexTested cplx pass) s

/-! ### The Masons (spec/18 R565-R572) -/

/-- MASON_DELIVERY (R567): The Masons exit delivers a packet into a free slot of its hash's cluster. -/
def execMasonDelivery (s : State) : Host.Outcome State Fault Refusal :=
  runMain (fun t => t.masonDelivery) s

/-- XQ_POP (R568): A read of XQ_POP takes the oldest delivered slot. -/
def execXqPop (cluster : Nat) (s : State) : Host.Outcome State Fault Refusal :=
  runMain (fun t => t.xqPop cluster) s

/-- XQ_FREE_POP (R568): A read of XQ_FREE_POP takes a free slot for a new packet. -/
def execXqFreePop (cluster : Nat) (s : State) : Host.Outcome State Fault Refusal :=
  runMain (fun t => t.xqFreePop cluster) s

/-- XQ_RET (R568): A write to XQ_RET puts a slot into the return FIFO, stalling the core while the FIFO is full. -/
def execXqRet (cluster : Nat) (data : Nat) (stores : List (Nat × Byte)) (s : State) : Host.Outcome State Fault Refusal :=
  runMain (fun t => t.xqRet cluster (data % 2 ^ 32) stores) s

/-- MASON_RETURN (R569): A RETURN entry is readmitted under R36 with an EXC slot, subject to the epoch and stale-slot
checks. -/
def execMasonReturn (cluster : Nat) (s : State) : Host.Outcome State Fault Refusal :=
  runMain (fun t => t.masonReturn cluster) s

/-- MASON_NEW (R569): A NEW entry is admitted with a fresh EXC Mark. -/
def execMasonNew (cluster : Nat) (s : State) : Host.Outcome State Fault Refusal :=
  runMain (fun t => t.masonNew cluster) s

/-- MASON_DISCARD (R569): A DISCARD entry discards the slot's packet with its reason. -/
def execMasonDiscard (cluster : Nat) (s : State) : Host.Outcome State Fault Refusal :=
  runMain (fun t => t.masonDiscard cluster) s

/-- SLOT_HOLD_EXPIRY (R571): A slot is held longer than hold_us. -/
def execSlotHoldExpiry (cluster slot : Nat) (s : State) : Host.Outcome State Fault Refusal :=
  runMain (fun t => t.slotHold cluster slot) s

/-- A write to XPE_CMD. -/
def State.clusterRow (s : State) (m : Master) (op cluster : Nat) : State :=
  if 3 < cluster then s else s.access m (blockBase 17 + 0x1000) 4 (clusterWord op cluster) (State.clusterCommand m op cluster)

/-- CLUSTER_DRAIN (R572): The DRAIN command removes a cluster from the map. -/
def execClusterDrain (m : Master) (cluster : Nat) (s : State) : Host.Outcome State Fault Refusal :=
  runMain (fun t => t.clusterRow m 1 cluster) s

/-- CLUSTER_OUT (R572): A draining cluster holds no slot and an empty FIFO, so it goes OUT. -/
def execClusterOut (cluster : Nat) (s : State) : Host.Outcome State Fault Refusal :=
  runMain (fun t => t.clusterOut cluster) s

/-- CLUSTER_TEST (R572): The TEST command starts testing a cluster. -/
def execClusterTest (m : Master) (cluster : Nat) (s : State) : Host.Outcome State Fault Refusal :=
  runMain (fun t => t.clusterRow m 2 cluster) s

/-- CLUSTER_TEST_END (R572): A cluster test ends with OUT or FAILED. -/
def execClusterTestEnd (cluster : Nat) (pass : Bool) (s : State) : Host.Outcome State Fault Refusal :=
  runMain (fun t => t.clusterTestEnd cluster pass) s

/-- CLUSTER_RETURN (R572): The RETURN command releases the cores at entry and maps the cluster. -/
def execClusterReturn (m : Master) (cluster : Nat) (s : State) : Host.Outcome State Fault Refusal :=
  runMain (fun t => t.clusterRow m 3 cluster) s

end Sys2Proof.Machine
end

