-- ==== Sys2Proof/Machine/LineCmds.lean ====
section
/-! DEFINITION. Commands of the line ports and frame MACs (spec/05). -/

namespace Sys2Proof.Machine

/-! ### Set-up and links (spec/05 R120-R124) -/

/-- ADMIT_SLOTS_WRITE (R28): A write to the admission slot registers re-allocates the reserves and the shared pool of
a course. -/
def execAdmitSlotsWrite (m : Master) (course act data : Nat) (s : State) : Host.Outcome State Fault Refusal :=
  runMain (fun t => if 3 < course || 7 < act then t else t.access m (Reg.prsAdmitSlots.addr [course, act]) 4 (data % 2 ^ 32) (State.admitSlots m course act (data % 2 ^ 32))) s

/-- SPLIT_WRITE (R124): W1S split bits are set in LSD_OCTET_CFG and applied at once if the port they divide is
disabled. -/
def execSplitWrite (m : Master) (octet data : Nat) (s : State) : Host.Outcome State Fault Refusal :=
  runMain (fun t => if 3 < octet then t else t.access m (Reg.lsdOctetCfg.addr [octet]) 4 (data % 2 ^ 32) (State.splitWrite m octet (data % 2 ^ 32))) s

/-- PORT_ENABLE (R120): port_en is set: lane rate, FEC, auto-negotiation and loopback are applied and checked, and the
port starts. -/
def execPortEnable (m : Master) (port data : Nat) (s : State) : Host.Outcome State Fault Refusal :=
  runMain (fun t => if 31 < port then t else t.access m (Reg.lsdPortCtl.addr [port]) 4 (putBit (data % 2 ^ 32) 0 true) (State.portCtl m port (putBit (data % 2 ^ 32) 0 true))) s

/-- PORT_DISABLE (R124): port_en is cleared: pending splits are applied and the queued packets are flushed. -/
def execPortDisable (m : Master) (port data : Nat) (s : State) : Host.Outcome State Fault Refusal :=
  runMain (fun t => if 31 < port then t else t.access m (Reg.lsdPortCtl.addr [port]) 4 (putBit (data % 2 ^ 32) 0 false) (State.portCtl m port (putBit (data % 2 ^ 32) 0 false))) s

/-- LINE_LINK_UP (R122): The receive side aligns and shows no fault, so the line link is up. -/
def execLineLinkUp (port : Nat) (anDone : Bool) (s : State) : Host.Outcome State Fault Refusal :=
  runBlock 2 (fun t => t.lineLinkUp port anDone) s

/-- LINE_LINK_DOWN (R122): The line link goes down and the frame being sent is cut off. -/
def execLineLinkDown (port : Nat) (s : State) : Host.Outcome State Fault Refusal :=
  runBlock 2 (fun t => t.lineLinkDown port) s

/-- RS_FAULT_CHANGE (R122): A line port's receive side begins or stops seeing local or remote fault, or gains or loses
alignment, changing what the Reconciliation Sublayer transmits without the link coming up. -/
def execRsFaultChange (port : Nat) (align localFault remoteFault : Bool) (s : State) : Host.Outcome State Fault Refusal :=
  runBlock 2 (fun t => t.lineSees port align localFault remoteFault) s

/-! ### Frames (spec/05 R126-R138) -/

/-- RX_FRAME_START (R126): The receive MAC holds the first 128 bytes of a frame, or the whole of a shorter one: it
runs the early checks, stamps ts and hands the frame to its course. -/
def execRxFrameStart (port : Nat) (bytes : List Byte) (pcsError : Bool) (s : State) : Host.Outcome State Fault Refusal :=
  runBlock 3 (fun t => t.rxStart port bytes pcsError) s

/-- RX_FRAME_END (R127): The end marker passes the receive MAC: len is written and the end checks mark the frame good
or bad. -/
def execRxFrameEnd (port : Nat) (rest : List Byte) (pcsError : Bool) (s : State) : Host.Outcome State Fault Refusal :=
  runBlock 3 (fun t => t.rxEnd port rest pcsError) s

/-- RX_CONTROL_FRAME (R134): A MAC control frame is received; a valid PAUSE or PFC frame sets or releases pause
timers. -/
def execRxControlFrame (port : Nat) (bytes : List Byte) (s : State) : Host.Outcome State Fault Refusal :=
  runBlock 3 (fun t => t.rxControlFrame port bytes) s

/-- PAUSE_TIMER_EXPIRY (R135): A priority's pause timer expires and the priority may send again. -/
def execPauseTimerExpiry (port pri : Nat) (s : State) : Host.Outcome State Fault Refusal :=
  runBlock 3 (fun t => t.pauseExpiry port pri) s

/-- PFC_FRAME_SEND (R136): The transmit MAC sends a PAUSE or PFC frame after a buffer XOFF decision, once the frame in
progress ends. -/
def execPfcFrameSend (port : Nat) (s : State) : Host.Outcome State Fault Refusal :=
  runBlock 3 (fun t => t.pfcSend port) s

/-- PFC_REPEAT (R136): The refresh interval of an asserted priority expires and the frame is sent again. -/
def execPfcRepeat (port : Nat) (s : State) : Host.Outcome State Fault Refusal :=
  runBlock 3 (fun t => t.pfcRepeat port) s

/-- TX_FRAME (R129): The transmit MAC sends a frame: it inserts tags, pads, computes or complements the FCS, and takes
the timestamp for ts_req. -/
def execTxFrame (port : Nat) (s : State) : Host.Outcome State Fault Refusal :=
  runHostBlock 3 (fun t => t.txFrame port) s

/-! ### Counters and timestamps (spec/05 R143, R152) -/

/-- STAT_CLEAR (R143): A write to MAC_STAT_CLR or LSD_STAT_CLR zeroes every counter of the named ports. -/
def execStatClear (m : Master) (lsd : Bool) (mask : Nat) (s : State) : Host.Outcome State Fault Refusal :=
  runMain (fun t => t.access m (blockBase (if lsd then 2 else 3) + 0x3000) 4 (mask % 2 ^ 32) (State.statClear lsd mask)) s

/-- TXTS_POP (R152): A write to MAC_TXTS_POP removes the oldest transmit timestamp entry. -/
def execTxtsPop (m : Master) (port data : Nat) (s : State) : Host.Outcome State Fault Refusal :=
  runMain (fun t => if 31 < port then t else t.access m (blockBase 3 + 0x2010 + 0x20 * port) 4 (data % 2 ^ 32) (State.txtsPop port data)) s

end Sys2Proof.Machine
end

