-- ==== Sys2Proof/Machine/QueueCmds.lean ====
section
/-! DEFINITION. Commands of the queue manager: queues, doorbell lines, completion rings (spec/07, spec/08). -/

namespace Sys2Proof.Machine

/-! ### Queue and line commands (spec/07 R221-R229) -/

/-- A write to QMG_CMD of a face. -/
def State.qmgRow (s : State) (m : Master) (face op typ idx : Nat) : State :=
  if 3 < face then s
  else s.access m (blockBase 6 + 0x130080 + 0x1000 * face) 4 (op + typ * 8 + idx % 2 ^ 14 * 32)
    (State.qmgCommand m face op typ (idx % 2 ^ 14))

/-- QUEUE_ENABLE (R221): The QMG ENABLE command checks a queue context and moves the queue to RUNNING. -/
def execQueueEnable (m : Master) (face : Nat) (rx : Bool) (q : Nat) (s : State) : Host.Outcome State Fault Refusal :=
  runHost (fun t => t.qmgRow m face 1 (b2n rx) q) s

/-- QUEUE_STOP (R222): The STOP command ends fetch and begins completing the outstanding entries with ABORTED. -/
def execQueueStop (m : Master) (face : Nat) (rx : Bool) (q : Nat) (s : State) : Host.Outcome State Fault Refusal :=
  runHost (fun t => t.qmgRow m face 2 (b2n rx) q) s

/-- QUEUE_STOPPED (R222): Every ABORTED completion of a stopping queue is placed, so the queue reports STOPPED. -/
def execQueueStopped (rx : Bool) (q : Nat) (s : State) : Host.Outcome State Fault Refusal :=
  runHostBlock 6 (fun t => t.queueStopped (queueKey rx q)) s

/-- QUEUE_RESUME (R221): The RESUME command returns a STOPPED queue to RUNNING. -/
def execQueueResume (m : Master) (face : Nat) (rx : Bool) (q : Nat) (s : State) : Host.Outcome State Fault Refusal :=
  runHost (fun t => t.qmgRow m face 3 (b2n rx) q) s

/-- QUEUE_RESET (R223): The RESET command proceeds as STOP and then clears the queue's counts. -/
def execQueueReset (m : Master) (face : Nat) (rx : Bool) (q : Nat) (s : State) : Host.Outcome State Fault Refusal :=
  runHost (fun t => t.qmgRow m face 4 (b2n rx) q) s

/-- QUEUE_RESET_DONE (R223): A resetting queue finishes and enters DISABLED. -/
def execQueueResetDone (rx : Bool) (q : Nat) (s : State) : Host.Outcome State Fault Refusal :=
  runHostBlock 6 (fun t => t.queueResetDone (queueKey rx q)) s

/-- LINE_ENABLE (R229): The line ENABLE command reads the line entry and makes the line ACTIVE or IDLE. -/
def execLineEnable (m : Master) (face line : Nat) (s : State) : Host.Outcome State Fault Refusal :=
  runHost (fun t => t.qmgRow m face 1 2 line) s

/-- LINE_DISABLE (R229): The line DISABLE command takes a line to OFF, or ends BUSY. -/
def execLineDisable (m : Master) (face line : Nat) (s : State) : Host.Outcome State Fault Refusal :=
  runHost (fun t => t.qmgRow m face 5 2 line) s

/-! ### Polling and work (spec/07) -/

/-- POLL_ISSUE (R216): A line's poll is due and the poller issues a 64-byte read. -/
def execPollIssue (line : Nat) (s : State) : Host.Outcome State Fault Refusal :=
  runHostBlock 6 (fun t => t.pollIssue line) s

/-- POLL_RETURN (R217): A poll returns: each doorbell record is examined, counts and heads are accepted, and the shift
is adjusted; failures count toward FAILED. -/
def execPollReturn (face tag : Nat) (st : CplStatus) (bytes : List Byte) (s : State) : Host.Outcome State Fault Refusal :=
  runHost (fun t => if t.isPollTag face tag then t.doCompletion face tag st bytes else t) s

/-- DESCRIPTOR_FETCH (R219): The fetch scheduler runs a round that reads descriptors for the eligible queues. -/
def execDescriptorFetch (face : Nat) (s : State) : Host.Outcome State Fault Refusal :=
  runHostBlock 6 (fun t => (t.fetchRound face false).fetchRound face true) s

/-- TX_ITEM_HANDOFF (R207): A transmit item whose chain is walked and whose data has arrived is checked, segmented and
handed into its course as HTX frames. -/
def execTxItemHandoff (q : Nat) (s : State) : Host.Outcome State Fault Refusal :=
  runHostBlock 6 (fun t => t.itemHandoff q) s

/-- TX_ITEM_COMPLETE (R208): A transmit item meets its conditions and its completion entry becomes ready. -/
def execTxItemComplete (q : Nat) (s : State) : Host.Outcome State Fault Refusal :=
  runHostBlock 6 (fun t => t.itemComplete q) s

/-- REGION_CLOSE (R211): Every packet of a closed stream region is complete and REGION_CLOSED is made ready. -/
def execRegionClose (q : Nat) (s : State) : Host.Outcome State Fault Refusal :=
  runHostBlock 6 (fun t => t.regionClose q) s

/-! ### Completion rings (spec/08) -/

/-- A write to QMG_CQ_CMD of a face. -/
def State.cqRow (s : State) (m : Master) (face op ring : Nat) : State :=
  if 3 < face then s
  else s.access m (blockBase 6 + 0x1A0000 + 0x1000 * face) 4 (op + ring % 2 ^ 13 * 8) (State.cqCommand m face op (ring % 2 ^ 13))

/-- CQ_ENTRY_READY (R241): A ready completion entry is written to its ring, placed in the corbel, or left waiting, and
the fetch pause is set. -/
def execCqEntryReady (ring : Nat) (s : State) : Host.Outcome State Fault Refusal :=
  runHostBlock 6 (fun t => t.placeEntry ring) s

/-- CORBEL_DRAIN (R243): Space opens in a ring and the held entries are written oldest first; fetch resumes once the
share is empty. -/
def execCorbelDrain (ring : Nat) (s : State) : Host.Outcome State Fault Refusal :=
  runHostBlock 6 (fun t => t.drainRing ring) s

/-- CQ_ENABLE (R245): The ring ENABLE command checks the context and moves the ring to RUNNING. -/
def execCqEnable (m : Master) (face ring : Nat) (s : State) : Host.Outcome State Fault Refusal :=
  runHost (fun t => t.cqRow m face 1 ring) s

/-- CQ_DISABLE (R245): The ring DISABLE command discards the held entries and moves the ring to DISABLED, or ends
BUSY. -/
def execCqDisable (m : Master) (face ring : Nat) (s : State) : Host.Outcome State Fault Refusal :=
  runHost (fun t => t.cqRow m face 5 ring) s

/-- COALESCE_TIMER_EXPIRY (R248): A ring's moderation timer expires and the ring fires if it is due. -/
def execCoalesceTimerExpiry (ring : Nat) (s : State) : Host.Outcome State Fault Refusal :=
  runHostBlock 6 (fun t => t.coalesceExpiry ring) s

end Sys2Proof.Machine
end

