-- ==== Sys2Proof/Machine/QuoinCmds.lean ====
section
/-! DEFINITION. Commands of the Quoin link and the stack (spec/20, spec/21 R636). -/

namespace Sys2Proof.Machine

/-! ### Links (spec/20 R599-R605, R617) -/

/-- QUOIN_PORT_ENABLE (R599): CSC port_en starts lane training. -/
def execQuoinPortEnable (m : Master) (port data : Nat) (s : State) : Host.Outcome State Fault Refusal :=
  runMain (fun t => if 3 < port then t else t.access m (Reg.cscPortCfg.addr [port]) 4 (data % 2 ^ 32) (State.quoinPortCfg m port (data % 2 ^ 32))) s

/-- LANE_ALIGN (R599): A Quoin port's lanes align, with polarity and reversal detected, and the port enters NEGOTIATE.
-/
def execLaneAlign (port : Nat) (reversed : Bool) (invert : Nat) (s : State) : Host.Outcome State Fault Refusal :=
  runBlock 20 (fun t => t.laneAlign port reversed invert) s

/-- HELLO_TIMER (R605): In NEGOTIATE, a HELLO is sent every 1 µs. -/
def execHelloTimer (port : Nat) (s : State) : Host.Outcome State Fault Refusal :=
  runBlock 20 (fun t => t.helloTimer port) s

/-- HELLO (R605): A received HELLO is judged and the port enters UP, VER_MISMATCH or ID_CONFLICT. -/
def execHello (port : Nat) (msg : HelloMsg) (s : State) : Host.Outcome State Fault Refusal :=
  runBlock 20 (fun t => t.rxHello port msg) s

/-- FLIT_RX (R602): A flit is received: its sequence is checked, it is acknowledged or NAKed, credits are applied, and
its data is handed to admission. -/
def execFlitRx (port : Nat) (f : FlitIn) (s : State) : Host.Outcome State Fault Refusal :=
  runBlock 20 (fun t => t.flitRx port f) s

/-- RESEND_TIMER (R602): ack_seq has not advanced for 1 µs, so the sender resends. -/
def execResendTimer (port : Nat) (s : State) : Host.Outcome State Fault Refusal :=
  runBlock 20 (fun t => t.resendTimer port) s

/-- DOWN (R602): A DOWN message takes the link down. -/
def execDown (port _cause : Nat) (s : State) : Host.Outcome State Fault Refusal :=
  runBlock 20 (fun t => t.rxDown port) s

/-- QUOIN_LINK_LOSS (R617): A Quoin link leaves UP: the port leaves the route sets and its in-flight flits and packets
are discarded. -/
def execQuoinLinkLoss (port : Nat) (s : State) : Host.Outcome State Fault Refusal :=
  runBlock 20 (fun t => t.quoinLoss port) s

/-- CREDIT_WAIT_EXPIRY (R603): A flit has waited credit_timeout_us for credit. -/
def execCreditWaitExpiry (port ch : Nat) (s : State) : Host.Outcome State Fault Refusal :=
  runBlock 20 (fun t => t.creditExpiry port ch) s

/-- QUOIN_DOWN_FLUSH (R617): A Quoin link has been down for down_flush_us and its queued packets are discarded. -/
def execQuoinDownFlush (port : Nat) (s : State) : Host.Outcome State Fault Refusal :=
  runBlock 20 (fun t => t.quoinFlush port) s

/-! ### The stack (spec/20 R606-R616) -/

/-- TOPO_TIMER (R611): TOPO is sent on every UP link every 100 µs. -/
def execTopoTimer (s : State) : Host.Outcome State Fault Refusal :=
  runBlock 20 (fun t => t.topoTimer) s

/-- TOPO (R606): A received TOPO updates the relay route sets and the reach set. -/
def execTopo (port : Nat) (msg : TopoMsg) (s : State) : Host.Outcome State Fault Refusal :=
  runBlock 20 (fun t => t.rxTopo port msg) s

/-- TOPO_EXPIRY (R606): A TOPO ages past 300,000 ticks and stops counting for relay. -/
def execTopoExpiry (port : Nat) (s : State) : Host.Outcome State Fault Refusal :=
  runBlock 20 (fun t => t.topoExpiry port) s

/-- MODULE_LOST_EXPIRY (R611): A module has been out of the reach set for 1,000,000 ticks. -/
def execModuleLostExpiry (module_ : Nat) (s : State) : Host.Outcome State Fault Refusal :=
  runBlock 20 (fun t => t.moduleLost module_) s

/-- STACK_RENEW (R612): The master's firmware renews the stack lease and LEASE is sent. -/
def execStackRenew (m : Master) (epoch : Nat) (s : State) : Host.Outcome State Fault Refusal :=
  runMain (fun t => t.access m (blockBase 20 + 0x1008) 4 (epoch % 65536) (State.stackRenew m (epoch % 65536))) s

/-- LEASE (R613): A received LEASE message is accepted and forwarded, or refused. -/
def execLease (port epoch masterId prio renewSeq : Nat) (s : State) : Host.Outcome State Fault Refusal :=
  runBlock 20 (fun t => t.rxLease port epoch masterId prio renewSeq) s

/-- STACK_LEASE_EXPIRY (R613): The stack lease end passes, so master_valid and is_master are cleared. -/
def execStackLeaseExpiry (s : State) : Host.Outcome State Fault Refusal :=
  runBlock 20 (fun t => t.stackLeaseEnds) s

/-- ELECTION (R614): master_valid has been 0 for 200,000 ticks; the candidate grants itself the lease. -/
def execElection (s : State) : Host.Outcome State Fault Refusal :=
  runBlock 20 (fun t => t.elect) s

/-- EPOCH_CMD (R615): The master's firmware starts a configuration epoch change and EPOCH is sent. -/
def execEpochCmd (m : Master) (epoch : Nat) (s : State) : Host.Outcome State Fault Refusal :=
  runMain (fun t => t.access m (blockBase 20 + 0x1018) 4 (epoch % 65536) (State.epochCommand m (epoch % 65536))) s

/-- EPOCH (R615): A received EPOCH message is accepted as pending and forwarded, or refused. -/
def execEpoch (port leaseEpoch cfgEpoch todNs masterId : Nat) (s : State) : Host.Outcome State Fault Refusal :=
  runBlock 20 (fun t => t.rxEpoch port leaseEpoch cfgEpoch todNs masterId) s

/-- EPOCH_ACTIVATION (R615): The time-of-day reaches tod_ns: the epoch becomes current and the shard bank switches. -/
def execEpochActivation (s : State) : Host.Outcome State Fault Refusal :=
  runBlock 20 (fun t => t.activateEpoch) s

/-- TIME_TIMER (R616): TIME is sent on each link every 125,000 ticks. -/
def execTimeTimer (s : State) : Host.Outcome State Fault Refusal :=
  runBlock 20 (fun t => t.timeTimer) s

/-- TIME (R616): A received TIME message updates the link offset and delay. -/
def execTime (port tTx echoTx echoRx : Nat) (s : State) : Host.Outcome State Fault Refusal :=
  runBlock 20 (fun t => t.rxTime port tTx echoTx echoRx) s

/-! ### Mailbox messages and retirement (spec/10 R308, spec/20 R617, spec/21 R636) -/

/-- MBOX (R308): A received MBOX message applies a mailbox action to the local copy of a Quoin channel. -/
def execMbox (port action word data : Nat) (s : State) : Host.Outcome State Fault Refusal :=
  runBlock 20 (fun t => match mbxActOf action word data with | some a => t.rxMbox port a | none => t) s

/-- MBX_LINK_TIMEOUT (R617): A Quoin mailbox link has been down for 1,000,000 ticks and the far end counts as reset.
-/
def execMbxLinkTimeout (port : Nat) (s : State) : Host.Outcome State Fault Refusal :=
  runMain (fun t => t.mbxLinkTimeout port) s

/-- RETIRE (R636): A write to CSC_RETIRE removes ports from, or returns them to, the route sets. -/
def execRetire (m : Master) (data : Nat) (s : State) : Host.Outcome State Fault Refusal :=
  runMain (fun t => t.access m (Reg.cscRetire.addr []) 4 (data % 2 ^ 32) (State.retirePorts m (data % 2 ^ 32))) s

end Sys2Proof.Machine
end

