-- ==== Sys2Proof/Machine/RegisterCmds.lean ====
section
/-! DEFINITION. Register writes: the general one, block 0, and the Plumb (spec/00 R6-R9, spec/06 R169-R171, spec/19). -/

namespace Sys2Proof.Machine

/-! ### Registers (spec/00 R6, spec/06 R169-R171) -/

/-- REGISTER_WRITE (R6): A register write with no row of its own, applied under its access code and under the lock,
face-permission, epoch-stamp and readiness checks; the holder's write is also journalled. -/
def execRegisterWrite (m : Master) (addr bytes data : Nat) (s : State) : Host.Outcome State Fault Refusal :=
  runHost (fun t => t.registerWrite m addr bytes data) s

/-- LOCK_SET (R169): Firmware sets GLB_LOCK bits; setting bits 5, 15 or 20 reads and checks the DMA, BUF or CSC
configuration. -/
def execLockSet (m : Master) (data : Nat) (s : State) : Host.Outcome State Fault Refusal :=
  runMain (fun t => t.access m 0x2000 4 (data % 2 ^ 32) (State.lockSet m (data % 2 ^ 32))) s

/-- PRIMARY_FACE_WRITE (R171): Firmware writes GLB_PRIMARY.face and the primary role moves at once. -/
def execPrimaryFaceWrite (m : Master) (data : Nat) (s : State) : Host.Outcome State Fault Refusal :=
  runMain (fun t => t.access m 0x2040 4 (data % 2 ^ 32) (State.primaryFaceWrite m (data % 2 ^ 32))) s

/-! ### The Plumb (spec/19 R578-R590) -/

/-- MEM_CORR (R578): A corrected error in a block's on-die memory. -/
def execMemCorr (block : Nat) (s : State) : Host.Outcome State Fault Refusal :=
  runMain (fun t => t.memCorr block) s

/-- MEM_UNCORR (R578): An uncorrectable error in a block's on-die memory. -/
def execMemUncorr (block : Nat) (s : State) : Host.Outcome State Fault Refusal :=
  runMain (fun t => t.memUncorr block) s

/-- MEM_HBM_CORR (R579): A corrected error in an HBM read. -/
def execMemHbmCorr (s : State) : Host.Outcome State Fault Refusal :=
  runMain (fun t => t.hbmError 387 0) s

/-- MEM_HBM_UNCORR (R579): An uncorrectable error in an HBM read outside the protected region. -/
def execMemHbmUncorr (addr : Nat) (s : State) : Host.Outcome State Fault Refusal :=
  runMain (fun t => t.hbmError 388 addr) s

/-- MEM_PROT_UNCORR (R579): An uncorrectable error in a read of the protected region. -/
def execMemProtUncorr (addr : Nat) (s : State) : Host.Outcome State Fault Refusal :=
  runMain (fun t => t.hbmError 389 addr) s

/-- CAPTURE_ACK (R582): A write of 1 to FLT_CAP_SRC valid acknowledges a class and clears its count. -/
def execCaptureAck (m : Master) (cls data : Nat) (s : State) : Host.Outcome State Fault Refusal :=
  runMain (fun t => if 3 < cls then t else t.access m (blockBase 19 + 0x2000 + 0x40 * cls) 4 (data % 2 ^ 32) (State.captureAck cls data)) s

/-- ERRPIN_RELEASE (R585): A write of 1 to FLT_ERRPIN.asserted releases ERR_N. -/
def execErrpinRelease (m : Master) (data : Nat) (s : State) : Host.Outcome State Fault Refusal :=
  runMain (fun t => t.access m (blockBase 19 + 0x3000) 4 (data % 2 ^ 32) (State.errpinRelease data)) s

/-- FAULT_INJECT (R590): A write to FLT_INJECT raises the named source in factory test mode, or is refused. -/
def execFaultInject (m : Master) (data : Nat) (s : State) : Host.Outcome State Fault Refusal :=
  runMain (fun t => t.access m (blockBase 19 + 0x3010) 4 (data % 2 ^ 32) (State.faultInject data)) s

/-! ### Courses in service and the security version (spec/21 R628, R646, R648) -/

/-- COURSE_DRAIN (R628): The DRAIN command stops a course admitting non-REC work. -/
def execCourseDrain (m : Master) (course : Nat) (s : State) : Host.Outcome State Fault Refusal :=
  runMain (fun t => if 3 < course then t else t.access m courseCmdAddr 4 (courseWord 1 course) (State.courseCommand m 1 course)) s

/-- COURSE_OUT (R628): A draining course holds no slot or recirculating packet and goes OUT. -/
def execCourseOut (course : Nat) (s : State) : Host.Outcome State Fault Refusal :=
  runMain (fun t => t.courseOut course) s

/-- COURSE_TEST (R628): The TEST command starts testing an OUT course. -/
def execCourseTest (m : Master) (course : Nat) (s : State) : Host.Outcome State Fault Refusal :=
  runMain (fun t => if 3 < course then t else t.access m courseCmdAddr 4 (courseWord 2 course) (State.courseCommand m 2 course)) s

/-- COURSE_TEST_END (R628): A course test ends with OUT and test_pass, or with FAILED. -/
def execCourseTestEnd (course : Nat) (pass : Bool) (s : State) : Host.Outcome State Fault Refusal :=
  runMain (fun t => t.courseTestEnd course pass) s

/-- COURSE_RETURN (R628): The RETURN command allocates the slots and returns a course to IN. -/
def execCourseReturn (m : Master) (course : Nat) (s : State) : Host.Outcome State Fault Refusal :=
  runMain (fun t => if 3 < course then t else t.access m courseCmdAddr 4 (courseWord 3 course) (State.courseCommand m 3 course)) s

/-- SVN_RAISE (R648): A write to BTL_SVN_RAISE checks and starts fusing a new minimum svn or a key revocation. -/
def execSvnRaise (m : Master) (data : Nat) (s : State) : Host.Outcome State Fault Refusal :=
  runMain (fun t => t.access m svnRaiseAddr 4 (data % 2 ^ 32) (State.svnRaise m data)) s

/-- SVN_FUSE_END (R648): Fusing completes and BTL_SVN_STAT shows the result. -/
def execSvnFuseEnd (s : State) : Host.Outcome State Fault Refusal :=
  runFuse (fun t => if t.released then t.svnFuseEnd else t) s

end Sys2Proof.Machine
end

