-- ==== Sys2Proof/Machine/SupplyCmds.lean ====
section
/-! DEFINITION. Commands of the module supply, the clocks, the resets and readiness (spec/03, spec/04). -/

namespace Sys2Proof.Machine

/-! ### Supply (spec/03 R64-R79) -/

/-- STANDBY_POWER_ON (R64): VSTBY (or VIN) first reaches 4.5 V with the standby domain unpowered, so the standby
domain comes up, its sticky flags clear and SMBus begins to answer. -/
def execStandbyPowerOn (vstbyCv vinCv : Nat) (s : State) : Host.Outcome State Fault Refusal :=
  run (fun t => t.standbyOn vstbyCv vinCv) s

/-- STANDBY_POWER_LOSS (R73): Both VIN and VSTBY are gone, so the standby domain goes down and the thermal-trip latch
and sticky flags are lost. -/
def execStandbyPowerLoss (s : State) : Host.Outcome State Fault Refusal :=
  run (fun t => t.standbyLoss) s

/-- VIN_RISE (R68): VIN rising through 4.4 V starts the power-up sequence: input charging and rails brought up in
order. -/
def execVinRise (vinCv : Nat) (s : State) : Host.Outcome State Fault Refusal :=
  run (fun t => t.vinRise vinCv) s

/-- VIN_UNDERVOLTAGE (R70): VIN falls through 4.1 V: the main rails turn off in reverse order, state is lost and
uvlo_seen is set. -/
def execVinUndervoltage (vinCv : Nat) (s : State) : Host.Outcome State Fault Refusal :=
  run (fun t => t.vinUnder vinCv) s

/-- VIN_OVERVOLTAGE (R65): VIN rises through 19.5 V: the input switch opens, the main rails turn off and ovp_seen is
set. -/
def execVinOvervoltage (vinCv : Nat) (s : State) : Host.Outcome State Fault Refusal :=
  run (fun t => t.vinOver vinCv) s

/-- VIN_OVP_RECOVERY (R65): After an overvoltage, VIN falls below 19.0 V and power-up restarts from its first step. -/
def execVinOvpRecovery (vinCv : Nat) (s : State) : Host.Outcome State Fault Refusal :=
  run (fun t => t.vinOvpRecovery vinCv) s

/-- VIN_RANGE_ENTRY (R65): VIN enters 4.1–4.5 V or 18–19.5 V: the device keeps running, sets vin_range_err and raises
pwr.vin_range. -/
def execVinRangeEntry (vinCv : Nat) (s : State) : Host.Outcome State Fault Refusal :=
  run (fun t => t.vinRangeEntry vinCv) s

/-- VIN_RANGE_EXIT (R65): VIN returns from 4.1–4.5 V or 18–19.5 V into 4.5–18 V and vin_range_err clears. -/
def execVinRangeExit (vinCv : Nat) (s : State) : Host.Outcome State Fault Refusal :=
  run (fun t => t.vinRangeExit vinCv) s

/-- THERMAL_TRIP (R73): The junction reaches 115 °C or an HBM stack reaches 105 °C: the trip latch is set, ERR_N is
pulled low and the main rails turn off. -/
def execThermalTrip (tj hbm0 hbm1 : Int) (s : State) : Host.Outcome State Fault Refusal :=
  run (fun t => t.thermalTrip tj hbm0 hbm1) s

/-- TEMP_WARN_CROSSING (R72): A die or HBM temperature crosses its warning threshold upwards: the status bit is set,
the warning event is raised and SMB_ALERT_N is pulled low. -/
def execTempWarnCrossing (tj hbm0 hbm1 : Int) (s : State) : Host.Outcome State Fault Refusal :=
  run (fun t => t.tempWarn tj hbm0 hbm1) s

/-- TEMP_WARN_CLEAR (R72): A die or HBM temperature falls 3 °C below its warning threshold, so the warning status bit
clears and a later crossing can raise the event again. -/
def execTempWarnClear (tj hbm0 hbm1 : Int) (s : State) : Host.Outcome State Fault Refusal :=
  run (fun t => t.tempWarnClear tj hbm0 hbm1) s

/-- THERM_N_FALL (R79): A falling edge on THERM_N raises pwr.therm_in when therm_n_evt_en is 1. -/
def execThermNFall (s : State) : Host.Outcome State Fault Refusal :=
  run (fun t => t.thermFall) s

/-- PWR_RAIL_FAULT (R579): An internal rail leaves its held range while VIN is in range; class F, chip reset by
default. -/
def execPwrRailFault (s : State) : Host.Outcome State Fault Refusal :=
  run (fun t => t.railFault) s

/-! ### Clocks (spec/03 R68, R90, spec/22 R658, R659) -/

/-- HKCLK_ARRIVAL (R68): HKCLK becomes present during power-up; the housekeeping PLLs lock and power-good follows. -/
def execHkclkArrival (s : State) : Host.Outcome State Fault Refusal :=
  run (fun t => t.hkclkArrival) s

/-- HKCLK_LOSS (R90): HKCLK is lost after power-good: the PLLs switch to the internal oscillator, hkclk_lost is set
and an event is raised. -/
def execHkclkLoss (s : State) : Host.Outcome State Fault Refusal :=
  run (fun t => t.hkclkLoss) s

/-- HKCLK_RETURN (R90): HKCLK returns and each island switches back at a cycle boundary. -/
def execHkclkReturn (s : State) : Host.Outcome State Fault Refusal :=
  run (fun t => t.hkclkReturn) s

/-- LINE_REF_LOSS (R659): LREFA or LREFB is judged lost; the line and Quoin links that use it go down. -/
def execLineRefLoss (b : Bool) (s : State) : Host.Outcome State Fault Refusal :=
  run (fun t => t.lineRefLoss b) s

/-- PCIE_REF_LOSS (R659): A face's PCIe reference is lost while PERST_N is high, which causes a link reset. -/
def execPcieRefLoss (face : Nat) (s : State) : Host.Outcome State Fault Refusal :=
  run (fun t => (t.pcieRefLoss face).settleSto) s

/-- REF_RETURN (R658): A reference has stayed within 500 ppm for 100 µs and is judged present again. -/
def execRefReturn (r : RefClock) (s : State) : Host.Outcome State Fault Refusal :=
  run (fun t => t.refReturn r) s

/-! ### Resets and readiness (spec/03 R69, spec/04) -/

/-- RELEASE_POINT (R69): At the later of power-good and MRST_N high, module reset ends: straps are sampled,
GLB_RESET_CAUSE is written, the face set-up is applied, the discovery table is built, the boot starts and every unit
begins to initialise. -/
def execReleasePoint (i : ReleaseIn) (s : State) : Host.Outcome State Fault Refusal :=
  run (fun t => t.releasePoint i) s

/-- MRST_N_LOW (R111): A recognised low on MRST_N starts module reset, which clears the main domain and abandons any
boot. -/
def execMrstNLow (s : State) : Host.Outcome State Fault Refusal :=
  run (fun t => t.mrstLow) s

/-- CHIP_RESET_END (R112): The 1 ms chip reset ends by itself, which forms a release point. -/
def execChipResetEnd (i : ReleaseIn) (s : State) : Host.Outcome State Fault Refusal :=
  run (fun t => t.chipResetEnd i) s

/-- PERST_N_FALL (R111): A recognised low on PERST_Nn starts a face reset: the endpoint is reset, every instance of
the face is reset and its DMA tags are retired. -/
def execPerstNFall (face : Nat) (s : State) : Host.Outcome State Fault Refusal :=
  run (fun t => (t.perstFall face).settleSto) s

/-- PERST_N_RISE (R157): PERST_Nn rises: the face applies its set-up registers, checks the VF range, rewrites the FACE
entry, raises hfc.perst and starts its readiness wait. -/
def execPerstNRise (face : Nat) (s : State) : Host.Outcome State Fault Refusal :=
  run (fun t => (t.perstRise face).settleSto) s

/-- FACE_READY (R110): The face endpoint finishes initialising and stops answering configuration requests with retry
status. -/
def execFaceReady (face : Nat) (s : State) : Host.Outcome State Fault Refusal :=
  runHost (fun t => t.faceReady face) s

/-- UNIT_READY (R100): A unit, port or course completes its own initialisation and its readiness bit rises. -/
def execUnitReady (u : ReadyUnit) (ok : Bool) (s : State) : Host.Outcome State Fault Refusal :=
  runMain (fun t => t.unitReady u ok) s

/-- BLOCK_RESET_DONE (R113): A block reset completes and the block runs again. -/
def execBlockResetDone (block : Nat) (s : State) : Host.Outcome State Fault Refusal :=
  runMain (fun t => t.blockResetDone block) s

/-- BOOT_COMPLETE (R106): The BTL finishes verifying an image: it starts the complex at entry, falls back to the next
slot, or sets FAILED. -/
def execBootComplete (i : BootIn) (s : State) : Host.Outcome State Fault Refusal :=
  runMain (fun t => t.bootComplete i) s

end Sys2Proof.Machine
end

