-- ==== Sys2Proof/Machine/TableCmds.lean ====
section
/-! DEFINITION. Commands of the rule banks and the forwarding tables (spec/12 R362-R364, spec/13 R384-R399). -/

namespace Sys2Proof.Machine

/-! ### Rule banks (spec/12 R363, R364) -/

/-- A write to CLS_BANK_CMD. -/
def State.bankRow (s : State) (m : Master) (op bank : Nat) : State :=
  if 1 < bank then s else s.access m (blockBase 9) 4 (op + bank * 4) (State.bankCommand m op bank)

/-- LOAD (R363): The CLS LOAD command starts copying an image into a bank. -/
def execLoad (m : Master) (bank : Nat) (s : State) : Host.Outcome State Fault Refusal :=
  runMain (fun t => t.bankRow m 1 bank) s

/-- LOAD_COMPLETE (R363): A load ends: the image is checked and the bank becomes READY or EMPTY. -/
def execLoadComplete (bank : Nat) (uncorr : Bool) (s : State) : Host.Outcome State Fault Refusal :=
  runMain (fun t => t.loadComplete bank uncorr) s

/-- COMMIT (R364): A READY bank becomes ACTIVE under the next epoch and the old bank begins DRAINING. -/
def execCommit (m : Master) (bank : Nat) (s : State) : Host.Outcome State Fault Refusal :=
  runMain (fun t => t.bankRow m 2 bank) s

/-- CLEAR (R363): A READY bank becomes EMPTY. -/
def execClear (m : Master) (bank : Nat) (s : State) : Host.Outcome State Fault Refusal :=
  runMain (fun t => t.bankRow m 3 bank) s

/-! ### Forwarding tables (spec/13 R399) -/

/-- A write to FWD_CMD of a set. -/
def State.fwdRow (s : State) (m : Master) (set op : Nat) (replace : Bool) (index : Nat) : State :=
  if 4 < set then s
  else s.access m (blockBase 10 + 0x5000 + 0x100 * set) 4 (op + b2n replace * 16 + index % 4096 * 32)
    (State.fwdCommand m set op replace (index % 4096))

/-- EM_INSERT (R385): Inserts or replaces an exact-match entry, moving other entries or evicting as configured. -/
def execEmInsert (m : Master) (set : Nat) (replace : Bool) (s : State) : Host.Outcome State Fault Refusal :=
  runMain (fun t => t.fwdRow m set 1 replace 0) s

/-- EM_DELETE (R386): Deletes an exact-match entry and promotes a stash entry into the freed slot. -/
def execEmDelete (m : Master) (set : Nat) (s : State) : Host.Outcome State Fault Refusal :=
  runMain (fun t => t.fwdRow m set 2 false 0) s

/-- EM_READ (R399): Returns an exact-match entry image. -/
def execEmRead (m : Master) (set : Nat) (s : State) : Host.Outcome State Fault Refusal :=
  runMain (fun t => t.fwdRow m set 3 false 0) s

/-- EXP_WRITE (R399): Writes or clears an express entry by index. -/
def execExpWrite (m : Master) (set index : Nat) (s : State) : Host.Outcome State Fault Refusal :=
  runMain (fun t => t.fwdRow m set 4 false index) s

/-- EXP_READ (R399): Returns an express entry image. -/
def execExpRead (m : Master) (set index : Nat) (s : State) : Host.Outcome State Fault Refusal :=
  runMain (fun t => t.fwdRow m set 5 false index) s

/-- FLOW_INSERT (R391): Places a flow entry in a region and returns its handle. -/
def execFlowInsert (m : Master) (set : Nat) (replace : Bool) (region : Nat) (s : State) : Host.Outcome State Fault Refusal :=
  runMain (fun t => t.fwdRow m set 6 replace region) s

/-- FLOW_DELETE (R399): Deletes a flow entry. -/
def execFlowDelete (m : Master) (set region : Nat) (s : State) : Host.Outcome State Fault Refusal :=
  runMain (fun t => t.fwdRow m set 7 false region) s

/-- FLOW_READ (R399): Returns a flow entry. -/
def execFlowRead (m : Master) (set region : Nat) (s : State) : Host.Outcome State Fault Refusal :=
  runMain (fun t => t.fwdRow m set 8 false region) s

/-- LPM_ADD (R393): Adds or replaces a route. -/
def execLpmAdd (m : Master) (set : Nat) (s : State) : Host.Outcome State Fault Refusal :=
  runMain (fun t => t.fwdRow m set 9 false 0) s

/-- LPM_DEL (R399): Deletes a route. -/
def execLpmDel (m : Master) (set : Nat) (s : State) : Host.Outcome State Fault Refusal :=
  runMain (fun t => t.fwdRow m set 10 false 0) s

/-- REHASH (R389): Starts re-placing every exact-match entry under the next seeds. -/
def execRehash (m : Master) (set : Nat) (s : State) : Host.Outcome State Fault Refusal :=
  runMain (fun t => t.fwdRow m set 11 false 0) s

/-- REHASH_END (R389): A rehash finishes, and the seeds are swapped; or it fails and rehash_failed is set. -/
def execRehashEnd (s : State) : Host.Outcome State Fault Refusal :=
  runBlock 10 (fun t => t.endRehash) s

end Sys2Proof.Machine
end

