-- ==== Sys2Proof/Machine/TimeCmds.lean ====
section
/-! DEFINITION. Commands of the Pace Governor, the time base, SMBus and the TAP (spec/02, spec/03 R94-R96, spec/19 R589). -/

namespace Sys2Proof.Machine

/-! ### The Pace Governor (spec/02 R46-R50) -/

/-- PACE_TRIGGER (R48): A governor trigger becomes true at step 0: the governor moves to step 1, records the cause and
counts the step. -/
def execPaceTrigger (src : PaceSource) (s : State) : Host.Outcome State Fault Refusal :=
  runBlock 1 (fun t => t.paceTrigger src) s

/-- ESTIMATE_COMPARE (R46): Every 64 ns the power estimate is compared against cap_w. -/
def execEstimateCompare (w : Nat) (s : State) : Host.Outcome State Fault Refusal :=
  runBlock 1 (fun t => t.estimate w) s

/-- PACE_SETTLE_END (R48): The 100 ns settle window ends; if any trigger is true, the governor steps down again. -/
def execPaceSettleEnd (s : State) : Host.Outcome State Fault Refusal :=
  runBlock 1 (fun t => t.paceSettle) s

/-- PACE_TRIGGERS_CLEAR (R48): Every trigger becomes false and the 10 µs hold starts. -/
def execPaceTriggersClear (srcs : List PaceSource) (s : State) : Host.Outcome State Fault Refusal :=
  runBlock 1 (fun t => t.paceClear srcs) s

/-- PACE_HOLD_END (R48): The hold expires and the governor moves up one step. -/
def execPaceHoldEnd (s : State) : Host.Outcome State Fault Refusal :=
  runBlock 1 (fun t => t.paceHold) s

/-- FORCE_STEP_WRITE (R49): A write to force_step sets a floor on the step, or returns the governor to the step that
R48 gives. -/
def execForceStepWrite (m : Master) (data : Nat) (s : State) : Host.Outcome State Fault Refusal :=
  runMain (fun t => t.access m (Reg.pwrPaceCtl.addr []) 4 (data % 2 ^ 32) (State.paceCtl m (data % 2 ^ 32))) s

/-! ### The time base (spec/02 R56-R61) -/

/-- TSU_TICK (R59): The tick count advances and the time-of-day advances by 1 + adj × 2^-32 ns. -/
def execTsuTick (s : State) : Host.Outcome State Fault Refusal :=
  runMain (fun t => t.tsuTick) s

/-- TSU_REFERENCE_LOSS (R58): The selected TSU reference is lost: the tick runs from the internal oscillator and
fallback is set. -/
def execTsuReferenceLoss (s : State) : Host.Outcome State Fault Refusal :=
  runMain (fun t => t.tsuLoss) s

/-- TSU_REFERENCE_RETURN (R58): The TSU reference returns and the tick switches back at a tick boundary. -/
def execTsuReferenceReturn (s : State) : Host.Outcome State Fault Refusal :=
  runMain (fun t => t.tsuReturn) s

/-- TOD_SET (R59): A write to TSU_TOD_SET replaces the time-of-day at a tick boundary. -/
def execTodSet (m : Master) (ns : Nat) (s : State) : Host.Outcome State Fault Refusal :=
  runMain (fun t => t.access m 0x10020 8 (ns % 2 ^ 64) (State.todSet ns)) s

/-- TOD_STEP (R59): A write to TSU_TOD_STEP adds signed nanoseconds to the time-of-day at a tick boundary. -/
def execTodStep (m : Master) (ns : Nat) (s : State) : Host.Outcome State Fault Refusal :=
  runMain (fun t => t.access m 0x10028 8 (ns % 2 ^ 64) (State.todStep ns)) s

/-- TOD_ADJ_WRITE (R59): A write to TSU_TOD_ADJ sets the clamped advance correction. -/
def execTodAdjWrite (m : Master) (data : Nat) (s : State) : Host.Outcome State Fault Refusal :=
  runMain (fun t => t.access m (Reg.tsuTodAdj.addr []) 4 (data % 2 ^ 32) (State.writeReg m Reg.tsuTodAdj [] (data % 2 ^ 32))) s

/-- TSU_SNAP (R61): Writing snap captures the tick count and the time-of-day from the same tick. -/
def execTsuSnap (m : Master) (data : Nat) (s : State) : Host.Outcome State Fault Refusal :=
  runMain (fun t => t.access m 0x10030 4 (data % 2 ^ 32) (State.tsuSnap data)) s

/-! ### SMBus (spec/03 R94, R95, spec/22 R660) -/

/-- SMBUS_READ (R94): A Read Byte or Read Word to the SMBus target returns the word for its command code. -/
def execSmbusRead (cmd : Nat) (s : State) : Host.Outcome State Fault Refusal :=
  run (fun t => t.smbRead cmd) s

/-- SMBUS_WRITE (R94): An SMBus write: the command byte is acknowledged and every data byte is refused. -/
def execSmbusWrite (cmd : Nat) (data : List Byte) (s : State) : Host.Outcome State Fault Refusal :=
  run (fun t => t.smbWrite cmd data) s

/-- ALERT_RESPONSE (R95): A read at the Alert Response Address that the device answers with its own address releases
SMB_ALERT_N. -/
def execAlertResponse (s : State) : Host.Outcome State Fault Refusal :=
  run (fun t => t.alertResponse) s

/-- SMBUS_TIMEOUT (R660): SCL stays low for 25–35 ms; the target releases the bus and resets its interface. -/
def execSmbusTimeout (s : State) : Host.Outcome State Fault Refusal :=
  run (fun t => t.smbTimeout) s

/-! ### The TAP (spec/03 R96, spec/19 R589) -/

/-- TAP_INSTRUCTION (R96): A standard IEEE 1149.1 or 1149.6 TAP instruction is run. -/
def execTapInstruction (ir : Nat) (s : State) : Host.Outcome State Fault Refusal :=
  run (fun t => t.tapInstruction ir) s

/-- FT_CHALLENGE (R589): The factory challenge is shifted out when TEST_MODE was sampled as 1. -/
def execFtChallenge (s : State) : Host.Outcome State Fault Refusal :=
  run (fun t => t.ftChallenge) s

/-- FT_UNLOCK (R589): The unlock signature is verified at Update-DR: on success the key store is erased and ft_mode is
set; on failure a new challenge is drawn and the failure is counted. -/
def execFtUnlock (sig : Nat) (s : State) : Host.Outcome State Fault Refusal :=
  run (fun t => t.ftUnlock sig) s

end Sys2Proof.Machine
end

