-- ==== Sys2Proof/Machine/TransportCmds.lean ====
section
/-! DEFINITION. Commands of storage and reliable transport (spec/15). -/

namespace Sys2Proof.Machine

/-! ### Packets and timers (spec/15 R458-R471) -/

/-- STO_RX_PACKET (R459): The transport engine takes a received RoCEv2 or NVMe/TCP packet: it checks it, acts on the
PSN, ACK or NAK, places the data and tracks the PDUs. -/
def execStoRxPacket (pkt : Nat) (s : State) : Host.Outcome State Fault Refusal :=
  runHostBlock 13 (fun t => t.stoRx pkt) s

/-- STO_SEND (R458): The requester segments a work item of a bound queue into packets and hands them in, as the rate
Rc allows. -/
def execStoSend (ctx : Nat) (s : State) : Host.Outcome State Fault Refusal :=
  runHostBlock 13 (fun t => t.stoSend ctx) s

/-- DELAYED_ACK (R460): 2 µs after the last unacknowledged packet, the responder sends an ACK. -/
def execDelayedAck (ctx : Nat) (s : State) : Host.Outcome State Fault Refusal :=
  runHostBlock 13 (fun t => t.delayExpiry ctx) s

/-- ACK_TIMER_EXPIRY (R461): The requester's timer expires: it resends from the oldest unacknowledged PSN, or tears
down with RETRY_EXCEEDED. -/
def execAckTimerExpiry (ctx : Nat) (s : State) : Host.Outcome State Fault Refusal :=
  runHostBlock 13 (fun t => t.ackExpiry ctx) s

/-- RNR_WAIT_END (R461): The wait that an RNR NAK ordered ends and the requester resends from the NAKed PSN. -/
def execRnrWaitEnd (ctx : Nat) (s : State) : Host.Outcome State Fault Refusal :=
  runHostBlock 13 (fun t => t.rnrExpiry ctx) s

/-- ALPHA_TIMER (R467): alpha_us passes without a CNP and alpha decays. -/
def execAlphaTimer (ctx : Nat) (s : State) : Host.Outcome State Fault Refusal :=
  runBlock 13 (fun t => t.alphaExpiry ctx) s

/-- INCREASE_EVENT (R467): incr_us passes, or incr_kib KiB are sent, and the rate increase step runs. -/
def execIncreaseEvent (ctx : Nat) (s : State) : Host.Outcome State Fault Refusal :=
  runBlock 13 (fun t => t.increase ctx) s

/-- DDP_SETUP (R469): A DDP_SETUP item records a placement buffer for a CID, or completes with DDP_FULL. -/
def execDdpSetup (ctx : Nat) (s : State) : Host.Outcome State Fault Refusal :=
  runHostBlock 13 (fun t => t.ddpSetup ctx) s

/-- DDP_TEARDOWN (R469): A DDP_TEARDOWN item removes a CID's entry once no placement for it is in flight. -/
def execDdpTeardown (ctx : Nat) (s : State) : Host.Outcome State Fault Refusal :=
  runHostBlock 13 (fun t => t.ddpTeardown ctx) s

/-! ### The command set (spec/15 R482) -/

/-- A write to STO_CMD of a set. -/
def State.stoRow (s : State) (m : Master) (set op index : Nat) : State :=
  if 4 < set then s
  else s.access m (blockBase 13 + 0x5000 + 0x100 * set) 4 (op + index % 2 ^ 21 * 16) (State.stoCommand m set op (index % 2 ^ 21))

/-- CTX_WRITE (R452): Writes a transport context after its checks; RC and UD contexts go to INIT. -/
def execCtxWrite (m : Master) (set index : Nat) (s : State) : Host.Outcome State Fault Refusal :=
  runHost (fun t => t.stoRow m set 1 index) s

/-- CTX_READ (R482): Returns context bytes 0x00–0x3F. -/
def execCtxRead (m : Master) (set index : Nat) (s : State) : Host.Outcome State Fault Refusal :=
  runHost (fun t => t.stoRow m set 2 index) s

/-- CTX_MODIFY (R453): Moves a context to a target state, or ends INVALID or BUSY. -/
def execCtxModify (m : Master) (set index : Nat) (s : State) : Host.Outcome State Fault Refusal :=
  runHost (fun t => t.stoRow m set 3 index) s

/-- CTX_DESTROY (R453): Destroys a context in RESET or ERROR that has no outstanding item. -/
def execCtxDestroy (m : Master) (set index : Nat) (s : State) : Host.Outcome State Fault Refusal :=
  runHost (fun t => t.stoRow m set 4 index) s

/-- KEY_WRITE (R462): Writes a memory key. -/
def execKeyWrite (m : Master) (set index : Nat) (s : State) : Host.Outcome State Fault Refusal :=
  runHost (fun t => t.stoRow m set 5 index) s

/-- KEY_DELETE (R482): Deletes a memory key. -/
def execKeyDelete (m : Master) (set index : Nat) (s : State) : Host.Outcome State Fault Refusal :=
  runHost (fun t => t.stoRow m set 6 index) s

/-- PATH_WRITE (R456): Writes a path entry. -/
def execPathWrite (m : Master) (set index : Nat) (s : State) : Host.Outcome State Fault Refusal :=
  runHost (fun t => t.stoRow m set 7 index) s

/-- CONN_RESYNC (R471): Sets the resync point of an NVMe/TCP context in RESYNC. -/
def execConnResync (m : Master) (set index : Nat) (s : State) : Host.Outcome State Fault Refusal :=
  runHost (fun t => t.stoRow m set 8 index) s

end Sys2Proof.Machine
end

