-- ==== Sys2Proof/Machine/Dispatch.lean ====
section
/-! DEFINITION. The meaning of each command, one arm per constructor. -/

namespace Sys2Proof.Machine

open Sys2Proof

def exec (i : Instr) (s : State) : Host.Outcome State Fault Refusal :=
  match i with
  | .vinRise vinCv => Sys2Proof.Machine.execVinRise vinCv s
  | .hkclkArrival => Sys2Proof.Machine.execHkclkArrival s
  | .releasePoint x => Sys2Proof.Machine.execReleasePoint x s
  | .vinUndervoltage vinCv => Sys2Proof.Machine.execVinUndervoltage vinCv s
  | .vinOvervoltage vinCv => Sys2Proof.Machine.execVinOvervoltage vinCv s
  | .vinOvpRecovery vinCv => Sys2Proof.Machine.execVinOvpRecovery vinCv s
  | .vinRangeEntry vinCv => Sys2Proof.Machine.execVinRangeEntry vinCv s
  | .thermalTrip tj hbm0 hbm1 => Sys2Proof.Machine.execThermalTrip tj hbm0 hbm1 s
  | .tempWarnCrossing tj hbm0 hbm1 => Sys2Proof.Machine.execTempWarnCrossing tj hbm0 hbm1 s
  | .thermNFall => Sys2Proof.Machine.execThermNFall s
  | .hkclkLoss => Sys2Proof.Machine.execHkclkLoss s
  | .hkclkReturn => Sys2Proof.Machine.execHkclkReturn s
  | .pwrRailFault => Sys2Proof.Machine.execPwrRailFault s
  | .mrstNLow => Sys2Proof.Machine.execMrstNLow s
  | .perstNFall face => Sys2Proof.Machine.execPerstNFall face s
  | .perstNRise face => Sys2Proof.Machine.execPerstNRise face s
  | .faceReady face => Sys2Proof.Machine.execFaceReady face s
  | .unitReady u ok => Sys2Proof.Machine.execUnitReady u ok s
  | .bootComplete x => Sys2Proof.Machine.execBootComplete x s
  | .chipResetEnd x => Sys2Proof.Machine.execChipResetEnd x s
  | .blockResetDone block => Sys2Proof.Machine.execBlockResetDone block s
  | .paceTrigger src => Sys2Proof.Machine.execPaceTrigger src s
  | .estimateCompare w => Sys2Proof.Machine.execEstimateCompare w s
  | .paceSettleEnd => Sys2Proof.Machine.execPaceSettleEnd s
  | .paceTriggersClear srcs => Sys2Proof.Machine.execPaceTriggersClear srcs s
  | .paceHoldEnd => Sys2Proof.Machine.execPaceHoldEnd s
  | .forceStepWrite m data => Sys2Proof.Machine.execForceStepWrite m data s
  | .tsuTick => Sys2Proof.Machine.execTsuTick s
  | .tsuReferenceLoss => Sys2Proof.Machine.execTsuReferenceLoss s
  | .tsuReferenceReturn => Sys2Proof.Machine.execTsuReferenceReturn s
  | .todSet m ns => Sys2Proof.Machine.execTodSet m ns s
  | .todStep m ns => Sys2Proof.Machine.execTodStep m ns s
  | .todAdjWrite m data => Sys2Proof.Machine.execTodAdjWrite m data s
  | .tsuSnap m data => Sys2Proof.Machine.execTsuSnap m data s
  | .lineRefLoss b => Sys2Proof.Machine.execLineRefLoss b s
  | .pcieRefLoss face => Sys2Proof.Machine.execPcieRefLoss face s
  | .refReturn r => Sys2Proof.Machine.execRefReturn r s
  | .smbusRead cmd => Sys2Proof.Machine.execSmbusRead cmd s
  | .smbusWrite cmd data => Sys2Proof.Machine.execSmbusWrite cmd data s
  | .alertResponse => Sys2Proof.Machine.execAlertResponse s
  | .smbusTimeout => Sys2Proof.Machine.execSmbusTimeout s
  | .tapInstruction ir => Sys2Proof.Machine.execTapInstruction ir s
  | .ftChallenge => Sys2Proof.Machine.execFtChallenge s
  | .ftUnlock sig => Sys2Proof.Machine.execFtUnlock sig s
  | .registerWrite m addr bytes data => Sys2Proof.Machine.execRegisterWrite m addr bytes data s
  | .lockSet m data => Sys2Proof.Machine.execLockSet m data s
  | .primaryFaceWrite m data => Sys2Proof.Machine.execPrimaryFaceWrite m data s
  | .admitSlotsWrite m course act data => Sys2Proof.Machine.execAdmitSlotsWrite m course act data s
  | .splitWrite m octet data => Sys2Proof.Machine.execSplitWrite m octet data s
  | .portEnable m port data => Sys2Proof.Machine.execPortEnable m port data s
  | .portDisable m port data => Sys2Proof.Machine.execPortDisable m port data s
  | .lineLinkUp port anDone => Sys2Proof.Machine.execLineLinkUp port anDone s
  | .lineLinkDown port => Sys2Proof.Machine.execLineLinkDown port s
  | .rxFrameStart port bytes pcsError => Sys2Proof.Machine.execRxFrameStart port bytes pcsError s
  | .rxFrameEnd port rest pcsError => Sys2Proof.Machine.execRxFrameEnd port rest pcsError s
  | .rxControlFrame port bytes => Sys2Proof.Machine.execRxControlFrame port bytes s
  | .pauseTimerExpiry port pri => Sys2Proof.Machine.execPauseTimerExpiry port pri s
  | .pfcFrameSend port => Sys2Proof.Machine.execPfcFrameSend port s
  | .pfcRepeat port => Sys2Proof.Machine.execPfcRepeat port s
  | .txFrame port => Sys2Proof.Machine.execTxFrame port s
  | .statClear m lsd mask => Sys2Proof.Machine.execStatClear m lsd mask s
  | .txtsPop m port data => Sys2Proof.Machine.execTxtsPop m port data s
  | .markCreation pkt => Sys2Proof.Machine.execMarkCreation pkt s
  | .parse pkt => Sys2Proof.Machine.execParse pkt s
  | .lateFindings pkt => Sys2Proof.Machine.execLateFindings pkt s
  | .rulePass pkt => Sys2Proof.Machine.execRulePass pkt s
  | .lateVerdict pkt => Sys2Proof.Machine.execLateVerdict pkt s
  | .limiterRefill => Sys2Proof.Machine.execLimiterRefill s
  | .forwardingLookup pkt => Sys2Proof.Machine.execForwardingLookup pkt s
  | .learnRecordExpiry domain addr => Sys2Proof.Machine.execLearnRecordExpiry domain addr s
  | .agingVisit flow index => Sys2Proof.Machine.execAgingVisit flow index s
  | .tunnelStage pkt => Sys2Proof.Machine.execTunnelStage pkt s
  | .cryptoStage pkt => Sys2Proof.Machine.execCryptoStage pkt s
  | .saCacheFill sa wrapOk => Sys2Proof.Machine.execSaCacheFill sa wrapOk s
  | .stoRxPacket pkt => Sys2Proof.Machine.execStoRxPacket pkt s
  | .stoSend ctx => Sys2Proof.Machine.execStoSend ctx s
  | .delayedAck ctx => Sys2Proof.Machine.execDelayedAck ctx s
  | .ackTimerExpiry ctx => Sys2Proof.Machine.execAckTimerExpiry ctx s
  | .rnrWaitEnd ctx => Sys2Proof.Machine.execRnrWaitEnd ctx s
  | .alphaTimer ctx => Sys2Proof.Machine.execAlphaTimer ctx s
  | .increaseEvent ctx => Sys2Proof.Machine.execIncreaseEvent ctx s
  | .ddpSetup ctx => Sys2Proof.Machine.execDdpSetup ctx s
  | .ddpTeardown ctx => Sys2Proof.Machine.execDdpTeardown ctx s
  | .bufferAdmission pkt => Sys2Proof.Machine.execBufferAdmission pkt s
  | .chargeCorrection pkt => Sys2Proof.Machine.execChargeCorrection pkt s
  | .admissionRetry pkt => Sys2Proof.Machine.execAdmissionRetry pkt s
  | .bufWaitExpiry pkt => Sys2Proof.Machine.execBufWaitExpiry pkt s
  | .xoffEvaluation port pri => Sys2Proof.Machine.execXoffEvaluation port pri s
  | .markAgeScan => Sys2Proof.Machine.execMarkAgeScan s
  | .hrxHoldExpiry pkt => Sys2Proof.Machine.execHrxHoldExpiry pkt s
  | .spillMove pkt => Sys2Proof.Machine.execSpillMove pkt s
  | .spillReadback pkt uncorr => Sys2Proof.Machine.execSpillReadback pkt uncorr s
  | .portDownFlush port => Sys2Proof.Machine.execPortDownFlush port s
  | .peakClear m data => Sys2Proof.Machine.execPeakClear m data s
  | .recircTake pkt => Sys2Proof.Machine.execRecircTake pkt s
  | .recircHoldExpiry pkt => Sys2Proof.Machine.execRecircHoldExpiry pkt s
  | .exitSelect exit => Sys2Proof.Machine.execExitSelect exit s
  | .cutThroughCorrection pkt => Sys2Proof.Machine.execCutThroughCorrection pkt s
  | .shaperRefill shaper => Sys2Proof.Machine.execShaperRefill shaper s
  | .gateArm m port data => Sys2Proof.Machine.execGateArm m port data s
  | .gateSwitch port => Sys2Proof.Machine.execGateSwitch port s
  | .configRequest fn bus dev r => Sys2Proof.Machine.execConfigRequest fn bus dev r s
  | .pcieDlActive face link rate width flit => Sys2Proof.Machine.execPcieDlActive face link rate width flit s
  | .pcieLinkReset face link hot => Sys2Proof.Machine.execPcieLinkReset face link hot s
  | .vfEnable face numVfs => Sys2Proof.Machine.execVfEnable face numVfs s
  | .vfDisable face => Sys2Proof.Machine.execVfDisable face s
  | .bmeClear fn => Sys2Proof.Machine.execBmeClear fn s
  | .bmeSet fn => Sys2Proof.Machine.execBmeSet fn s
  | .vfFlr inst => Sys2Proof.Machine.execVfFlr inst s
  | .d3hotEntry fn => Sys2Proof.Machine.execD3hotEntry fn s
  | .d0Return fn => Sys2Proof.Machine.execD0Return fn s
  | .pmeResend fn => Sys2Proof.Machine.execPmeResend fn s
  | .pmeTurnOff face link => Sys2Proof.Machine.execPmeTurnOff face link s
  | .msixUnmask fn vec whole => Sys2Proof.Machine.execMsixUnmask fn vec whole s
  | .mctpControl face msg => Sys2Proof.Machine.execMctpControl face msg s
  | .pldmRequest face msg => Sys2Proof.Machine.execPldmRequest face msg s
  | .atsInvalidate face fn page pages => Sys2Proof.Machine.execAtsInvalidate face fn page pages s
  | .invalidateDeadline face fn page => Sys2Proof.Machine.execInvalidateDeadline face fn page s
  | .atsTranslation face id r => Sys2Proof.Machine.execAtsTranslation face id r s
  | .queueEnable m face rx q => Sys2Proof.Machine.execQueueEnable m face rx q s
  | .queueStop m face rx q => Sys2Proof.Machine.execQueueStop m face rx q s
  | .queueStopped rx q => Sys2Proof.Machine.execQueueStopped rx q s
  | .queueResume m face rx q => Sys2Proof.Machine.execQueueResume m face rx q s
  | .queueReset m face rx q => Sys2Proof.Machine.execQueueReset m face rx q s
  | .queueResetDone rx q => Sys2Proof.Machine.execQueueResetDone rx q s
  | .lineEnable m face line => Sys2Proof.Machine.execLineEnable m face line s
  | .lineDisable m face line => Sys2Proof.Machine.execLineDisable m face line s
  | .pollIssue line => Sys2Proof.Machine.execPollIssue line s
  | .pollReturn face tag st bytes => Sys2Proof.Machine.execPollReturn face tag st bytes s
  | .descriptorFetch face => Sys2Proof.Machine.execDescriptorFetch face s
  | .txItemHandoff q => Sys2Proof.Machine.execTxItemHandoff q s
  | .txItemComplete q => Sys2Proof.Machine.execTxItemComplete q s
  | .regionClose q => Sys2Proof.Machine.execRegionClose q s
  | .cqEntryReady ring => Sys2Proof.Machine.execCqEntryReady ring s
  | .corbelDrain ring => Sys2Proof.Machine.execCorbelDrain ring s
  | .cqEnable m face ring => Sys2Proof.Machine.execCqEnable m face ring s
  | .cqDisable m face ring => Sys2Proof.Machine.execCqDisable m face ring s
  | .coalesceTimerExpiry ring => Sys2Proof.Machine.execCoalesceTimerExpiry ring s
  | .readIssue face => Sys2Proof.Machine.execReadIssue face s
  | .readCompletion face tag st bytes => Sys2Proof.Machine.execReadCompletion face tag st bytes s
  | .readTimeout face tag => Sys2Proof.Machine.execReadTimeout face tag s
  | .quarantineEnd face tag => Sys2Proof.Machine.execQuarantineEnd face tag s
  | .writeTlp face link chan => Sys2Proof.Machine.execWriteTlp face link chan s
  | .jobSubmit m face count => Sys2Proof.Machine.execJobSubmit m face count s
  | .jobFinish face => Sys2Proof.Machine.execJobFinish face s
  | .flushCompletion face tag => Sys2Proof.Machine.execFlushCompletion face tag s
  | .flushTimeout face tag => Sys2Proof.Machine.execFlushTimeout face tag s
  | .create m face inst => Sys2Proof.Machine.execCreate m face inst s
  | .start m face inst => Sys2Proof.Machine.execStart m face inst s
  | .reset m face inst => Sys2Proof.Machine.execReset m face inst s
  | .remove m face inst => Sys2Proof.Machine.execRemove m face inst s
  | .setShare m face inst => Sys2Proof.Machine.execSetShare m face inst s
  | .resetSequenceDone inst => Sys2Proof.Machine.execResetSequenceDone inst s
  | .mbxDataWrite m chan word data => Sys2Proof.Machine.execMbxDataWrite m chan word data s
  | .go m chan => Sys2Proof.Machine.execGo m chan s
  | .done m chan => Sys2Proof.Machine.execDone m chan s
  | .notify m chan => Sys2Proof.Machine.execNotify m chan s
  | .cancel m chan => Sys2Proof.Machine.execCancel m chan s
  | .mbxEventDelivery chan endB => Sys2Proof.Machine.execMbxEventDelivery chan endB s
  | .mbxBindWrite m chan data => Sys2Proof.Machine.execMbxBindWrite m chan data s
  | .mgrHello face => Sys2Proof.Machine.execMgrHello face s
  | .mboxCreate face => Sys2Proof.Machine.execMboxCreate face s
  | .mboxRemove face => Sys2Proof.Machine.execMboxRemove face s
  | .mboxSetShare face => Sys2Proof.Machine.execMboxSetShare face s
  | .getNotice chan => Sys2Proof.Machine.execGetNotice chan s
  | .tenantHello inst => Sys2Proof.Machine.execTenantHello inst s
  | .resetRequest inst => Sys2Proof.Machine.execResetRequest inst s
  | .upgradeStatus face => Sys2Proof.Machine.execUpgradeStatus face s
  | .upgradeConfirm face => Sys2Proof.Machine.execUpgradeConfirm face s
  | .load m bank => Sys2Proof.Machine.execLoad m bank s
  | .loadComplete bank uncorr => Sys2Proof.Machine.execLoadComplete bank uncorr s
  | .commit m bank => Sys2Proof.Machine.execCommit m bank s
  | .clear m bank => Sys2Proof.Machine.execClear m bank s
  | .emInsert m set replace => Sys2Proof.Machine.execEmInsert m set replace s
  | .emDelete m set => Sys2Proof.Machine.execEmDelete m set s
  | .emRead m set => Sys2Proof.Machine.execEmRead m set s
  | .expWrite m set index => Sys2Proof.Machine.execExpWrite m set index s
  | .expRead m set index => Sys2Proof.Machine.execExpRead m set index s
  | .flowInsert m set replace region => Sys2Proof.Machine.execFlowInsert m set replace region s
  | .flowDelete m set region => Sys2Proof.Machine.execFlowDelete m set region s
  | .flowRead m set region => Sys2Proof.Machine.execFlowRead m set region s
  | .lpmAdd m set => Sys2Proof.Machine.execLpmAdd m set s
  | .lpmDel m set => Sys2Proof.Machine.execLpmDel m set s
  | .rehash m set => Sys2Proof.Machine.execRehash m set s
  | .rehashEnd => Sys2Proof.Machine.execRehashEnd s
  | .saWrite m set index => Sys2Proof.Machine.execSaWrite m set index s
  | .saRead m set index => Sys2Proof.Machine.execSaRead m set index s
  | .saDelete m set index => Sys2Proof.Machine.execSaDelete m set index s
  | .saLimit m set index => Sys2Proof.Machine.execSaLimit m set index s
  | .tlsResync m set index => Sys2Proof.Machine.execTlsResync m set index s
  | .laneDrain m lane => Sys2Proof.Machine.execLaneDrain m lane s
  | .laneOut lane => Sys2Proof.Machine.execLaneOut lane s
  | .laneTest m lane => Sys2Proof.Machine.execLaneTest m lane s
  | .laneTestEnd lane pass => Sys2Proof.Machine.execLaneTestEnd lane pass s
  | .laneReturn m lane => Sys2Proof.Machine.execLaneReturn m lane s
  | .ctxWrite m set index => Sys2Proof.Machine.execCtxWrite m set index s
  | .ctxRead m set index => Sys2Proof.Machine.execCtxRead m set index s
  | .ctxModify m set index => Sys2Proof.Machine.execCtxModify m set index s
  | .ctxDestroy m set index => Sys2Proof.Machine.execCtxDestroy m set index s
  | .keyWrite m set index => Sys2Proof.Machine.execKeyWrite m set index s
  | .keyDelete m set index => Sys2Proof.Machine.execKeyDelete m set index s
  | .pathWrite m set index => Sys2Proof.Machine.execPathWrite m set index s
  | .connResync m set index => Sys2Proof.Machine.execConnResync m set index s
  | .leaseRenew m epoch => Sys2Proof.Machine.execLeaseRenew m epoch s
  | .leaseRelease m epoch => Sys2Proof.Machine.execLeaseRelease m epoch s
  | .leaseEnd => Sys2Proof.Machine.execLeaseEnd s
  | .lockstepMismatch cplx => Sys2Proof.Machine.execLockstepMismatch cplx s
  | .leaseReq m jpos => Sys2Proof.Machine.execLeaseReq m jpos s
  | .takeoverDeadline => Sys2Proof.Machine.execTakeoverDeadline s
  | .handoverLapse => Sys2Proof.Machine.execHandoverLapse s
  | .ckptCommit m slot jpos => Sys2Proof.Machine.execCkptCommit m slot jpos s
  | .ckptDeadline => Sys2Proof.Machine.execCkptDeadline s
  | .complexStart m cplx slot => Sys2Proof.Machine.execComplexStart m cplx slot s
  | .complexStarted cplx testOk verifyOk => Sys2Proof.Machine.execComplexStarted cplx testOk verifyOk s
  | .complexStop m cplx => Sys2Proof.Machine.execComplexStop m cplx s
  | .complexTest m cplx => Sys2Proof.Machine.execComplexTest m cplx s
  | .complexTestEnd cplx pass => Sys2Proof.Machine.execComplexTestEnd cplx pass s
  | .masonDelivery => Sys2Proof.Machine.execMasonDelivery s
  | .xqPop cluster => Sys2Proof.Machine.execXqPop cluster s
  | .xqFreePop cluster => Sys2Proof.Machine.execXqFreePop cluster s
  | .xqRet cluster data stores => Sys2Proof.Machine.execXqRet cluster data stores s
  | .masonReturn cluster => Sys2Proof.Machine.execMasonReturn cluster s
  | .masonNew cluster => Sys2Proof.Machine.execMasonNew cluster s
  | .masonDiscard cluster => Sys2Proof.Machine.execMasonDiscard cluster s
  | .slotHoldExpiry cluster slot => Sys2Proof.Machine.execSlotHoldExpiry cluster slot s
  | .clusterDrain m cluster => Sys2Proof.Machine.execClusterDrain m cluster s
  | .clusterOut cluster => Sys2Proof.Machine.execClusterOut cluster s
  | .clusterTest m cluster => Sys2Proof.Machine.execClusterTest m cluster s
  | .clusterTestEnd cluster pass => Sys2Proof.Machine.execClusterTestEnd cluster pass s
  | .clusterReturn m cluster => Sys2Proof.Machine.execClusterReturn m cluster s
  | .memCorr block => Sys2Proof.Machine.execMemCorr block s
  | .memUncorr block => Sys2Proof.Machine.execMemUncorr block s
  | .memHbmCorr => Sys2Proof.Machine.execMemHbmCorr s
  | .memHbmUncorr addr => Sys2Proof.Machine.execMemHbmUncorr addr s
  | .memProtUncorr addr => Sys2Proof.Machine.execMemProtUncorr addr s
  | .captureAck m cls data => Sys2Proof.Machine.execCaptureAck m cls data s
  | .errpinRelease m data => Sys2Proof.Machine.execErrpinRelease m data s
  | .faultInject m data => Sys2Proof.Machine.execFaultInject m data s
  | .quoinPortEnable m port data => Sys2Proof.Machine.execQuoinPortEnable m port data s
  | .laneAlign port reversed invert => Sys2Proof.Machine.execLaneAlign port reversed invert s
  | .helloTimer port => Sys2Proof.Machine.execHelloTimer port s
  | .hello port msg => Sys2Proof.Machine.execHello port msg s
  | .flitRx port f => Sys2Proof.Machine.execFlitRx port f s
  | .resendTimer port => Sys2Proof.Machine.execResendTimer port s
  | .down port cause => Sys2Proof.Machine.execDown port cause s
  | .quoinLinkLoss port => Sys2Proof.Machine.execQuoinLinkLoss port s
  | .creditWaitExpiry port ch => Sys2Proof.Machine.execCreditWaitExpiry port ch s
  | .quoinDownFlush port => Sys2Proof.Machine.execQuoinDownFlush port s
  | .topoTimer => Sys2Proof.Machine.execTopoTimer s
  | .topo port msg => Sys2Proof.Machine.execTopo port msg s
  | .topoExpiry port => Sys2Proof.Machine.execTopoExpiry port s
  | .moduleLostExpiry module_ => Sys2Proof.Machine.execModuleLostExpiry module_ s
  | .stackRenew m epoch => Sys2Proof.Machine.execStackRenew m epoch s
  | .lease port epoch masterId prio renewSeq => Sys2Proof.Machine.execLease port epoch masterId prio renewSeq s
  | .stackLeaseExpiry => Sys2Proof.Machine.execStackLeaseExpiry s
  | .election => Sys2Proof.Machine.execElection s
  | .epochCmd m epoch => Sys2Proof.Machine.execEpochCmd m epoch s
  | .epoch port leaseEpoch cfgEpoch todNs masterId => Sys2Proof.Machine.execEpoch port leaseEpoch cfgEpoch todNs masterId s
  | .epochActivation => Sys2Proof.Machine.execEpochActivation s
  | .timeTimer => Sys2Proof.Machine.execTimeTimer s
  | .time port tTx echoTx echoRx => Sys2Proof.Machine.execTime port tTx echoTx echoRx s
  | .mbox port action word data => Sys2Proof.Machine.execMbox port action word data s
  | .mbxLinkTimeout port => Sys2Proof.Machine.execMbxLinkTimeout port s
  | .retire m data => Sys2Proof.Machine.execRetire m data s
  | .courseDrain m course => Sys2Proof.Machine.execCourseDrain m course s
  | .courseOut course => Sys2Proof.Machine.execCourseOut course s
  | .courseTest m course => Sys2Proof.Machine.execCourseTest m course s
  | .courseTestEnd course pass => Sys2Proof.Machine.execCourseTestEnd course pass s
  | .courseReturn m course => Sys2Proof.Machine.execCourseReturn m course s
  | .svnRaise m data => Sys2Proof.Machine.execSvnRaise m data s
  | .svnFuseEnd => Sys2Proof.Machine.execSvnFuseEnd s
  | .standbyPowerOn vstbyCv vinCv => Sys2Proof.Machine.execStandbyPowerOn vstbyCv vinCv s
  | .standbyPowerLoss => Sys2Proof.Machine.execStandbyPowerLoss s
  | .vinRangeExit vinCv => Sys2Proof.Machine.execVinRangeExit vinCv s
  | .tempWarnClear tj hbm0 hbm1 => Sys2Proof.Machine.execTempWarnClear tj hbm0 hbm1 s
  | .rsFaultChange port align localFault remoteFault => Sys2Proof.Machine.execRsFaultChange port align localFault remoteFault s
  | .l1Entry face link substate => Sys2Proof.Machine.execL1Entry face link substate s
  | .l1Exit face link => Sys2Proof.Machine.execL1Exit face link s

end Sys2Proof.Machine
end

