-- ==== Sys2Proof/Safety.lean ====
section
/-! DEFINITION. What claims about the block are said in: when an access meets its register, when the end of a command
changes nothing more, and what no run may do. -/

namespace Sys2Proof.Machine

open Sys2Proof

/-- No rule bank stands DRAINING with nothing in flight, so the end of a command frees none (spec/12 R365). -/
def State.banksHeld (s : State) : Prop :=
  ∀ b, b < 2 → (s.bank b).state = .draining → s.inflight (s.bank b).epoch ≠ 0

/-- A register write by `m` at a PF BAR0 offset reaches its register: the function takes requests, the block is ready and
the face may write it; or the stamp is fresh and the journal takes the write at once (spec/04 R99, spec/06 R166, R170, spec/18
R550, R553). -/
def State.reaches (s : State) (m : Master) (off : Nat) : Prop :=
  s.released = true ∧
  (match addrBlock off, m with
    | some b, .pf f => s.fnReachable (2048 + f) && s.ready b && (inMailboxBlocks off || bitOf (s.glb.faceWr.getD f 0) b)
    | some b, .fw _ ep =>
      s.freshEpoch ep && (s.ready b || decide (b = 17) || decide (b = 18)) && decide (s.ksc.jrnlWait = [])
        && decide (s.ksc.j < s.ksc.ckptJpos + 65536)
    | _, _ => false) = true

/-- A write by `m` reaches its register and the count of journal entries does not stand at its warning level, so the write
raises nothing by being journalled (spec/18 R553). -/
def State.writes (s : State) (m : Master) (off : Nat) : Prop :=
  s.reaches m off ∧ (m.isFw = true → (s.ksc.j + 1) % 2 ^ 48 ≠ s.ksc.ckptJpos + 49152)

/-- An access at an offset of a mailbox channel's block reaches the channel: a tenant's through its own VF BAR0 (spec/06 R167,
spec/10 R300, R302). -/
def State.mbxReaches (s : State) (m : Master) (c off : Nat) : Prop :=
  match m with
  | .vf i => i = c ∧ c < 2048 ∧ s.fnReachable c = true ∧ s.ready 7 = true
  | m => s.reaches m (blockBase 7 + chanOffset c + off)

/-- The state after a write that took effect and left `u`: journalled where firmware made it (spec/18 R553). -/
def Master.logged (m : Master) (off bytes data : Nat) (u : State) : State :=
  match m with
  | .fw _ ep => if journalled off then u.journal off bytes data ep else u
  | _ => u

/-- `s` with everything that raising an event, counting or the waking of a link may touch taken from `t`: the Plumb, the
counters, the port half-range bits, what is sent, what is due, WAKE_N, the functions' interrupt and PME state, the mailbox
channels and notices, the power-up of a complex and the links (spec/19 R580-R588, spec/06 R185, R186, spec/10 R303-R311). -/
def State.eventOn (s t : State) : State :=
  { s with
    supply := { s.supply with wakeN := t.supply.wakeN }
    line := { s.line with lsdHalf := t.line.lsdHalf, macHalf := t.line.macHalf }
    host := { s.host with fns := t.host.fns, links := t.host.links }
    ivm := { s.ivm with chans := t.ivm.chans, notices := t.ivm.notices }
    ksc := { s.ksc with cplx := t.ksc.cplx }
    flt := t.flt, counters := t.counters, out := t.out, due := t.due }

/-- `t` differs from `s` only in what an event may touch. -/
def EventFrame (s t : State) : Prop := t = s.eventOn t

/-- An event of the source asks for no reset now: its level is below BLOCK_RESET, and no counter of the Plumb is about to
turn to its upper half (spec/19 R579-R581, R587, R588). -/
def State.mild (s : State) (src : Nat) : Prop :=
  s.eventLevel src < 3 ∧ ∀ k, k < 5 → mapGet 0 s.counters (fltCounter k) + 8 < 2 ^ 47

/-- The pending bit of a source (spec/19 R582). -/
def State.eventPending (s : State) (src : Nat) : Bool := bitOf (mapGet 0 s.flt.pend (src / 32)) (src % 32)

/-- `t` is `v` after the event of a source: it differs from `v` only in what an event may touch, and the source is pending. -/
def Reported (src : Nat) (v t : State) : Prop := EventFrame v t ∧ t.eventPending src = true

/-- The governor one step further down, at step `n`: a settle window of 100 ns begins, a hold ends, and the sources that are
true leave their causes (spec/02 R48, R50). -/
def State.steppedDown (u : State) (n : Nat) : State :=
  { u with pace := { u.pace with
    natural := n, settleEnd := some (u.now + 100), holdEnd := none
    causeVin := u.pace.causeVin || u.paceTrue.getD 0 false, causeCore := u.pace.causeCore || u.paceTrue.getD 1 false
    causeEst := u.pace.causeEst || u.paceTrue.getD 2 false, causeAlert := u.pace.causeAlert || u.paceTrue.getD 3 false } }

/-- No live RC or UD context is bound to a failed queue: the command that fails a queue tears them down (spec/15 R470). -/
def State.stoHeld (s : State) : Prop :=
  ∀ p ∈ s.sto.ctxs, (s.ctx p.1).kind ≠ .nvt →
    ((s.ctx p.1).state = .init ∨ (s.ctx p.1).state = .rtr ∨ (s.ctx p.1).state = .rts) → s.boundFailed p.1 = false

/-- Nothing that the block has sent wakes a link (spec/06 R186). -/
def Out.wakes : Out → Bool
  | .hostRead .. | .hostWrite .. | .pcie .. => true
  | _ => false

/-- The fuses of `t` are at least those of `s`: the minimum security version has not fallen and no key slot that was revoked
is usable again (spec/21 R648); nothing else fused has changed. -/
def State.fusesKept (s t : State) : Prop :=
  s.fuses.minSvn ≤ t.fuses.minSvn ∧ (∀ i, bitOf s.fuses.revoked i = true → bitOf t.fuses.revoked i = true)
    ∧ t.fuses = { s.fuses with minSvn := t.fuses.minSvn, revoked := t.fuses.revoked }

end Sys2Proof.Machine
end

