-- ==== Sys2Proof/WellFormed.lean ====
section
/-! DEFINITION. Well-formed commands: the operands lie in the ranges that the spec gives to faces, ports, channels, queues
and the other numbered things (spec/00 R1, spec/01 R10, spec/05, spec/06 R158, spec/07, spec/08, spec/10 R300, spec/20).  A
command outside them changes nothing but what the block sends (`Sys2Proof.Machine.exec` is total on both). -/

namespace Sys2Proof

open Sys2Proof.Machine

/-- A number below a bound. -/
def below (n k : Nat) : Bool := decide (n < k)

/-- The master of an access names a face, a tenant instance, or a complex with a 16-bit epoch. -/
def masterOk : Master → Bool
  | .pf f => below f 4
  | .vf i => below i 2048
  | .fw c e => below c 2 && below e 65536

/-- A PCIe function: a VF, the PF of a face or its companion. -/
def fnOk (k : Nat) : Bool := below k 2056

/-- A unit with a readiness bit. -/
def unitOk : ReadyUnit → Bool
  | .block n => below n 21
  | .port n => below n 32
  | .quoin n => below n 4
  | .course n => below n 4

/-- The operands of a command are in range. -/
def Instr.wf : Instr → Bool
  | .perstNFall f | .perstNRise f | .faceReady f | .pcieRefLoss f | .vfDisable f => below f 4
  | .unitReady u _ => unitOk u
  | .blockResetDone b | .memCorr b | .memUncorr b => below b 21
  | .forceStepWrite m d | .todAdjWrite m d | .tsuSnap m d | .lockSet m d | .primaryFaceWrite m d | .peakClear m d
  | .errpinRelease m d | .faultInject m d | .retire m d | .svnRaise m d => masterOk m && below d (2 ^ 32)
  | .todSet m d | .todStep m d => masterOk m && below d (2 ^ 64)
  | .smbusRead c | .smbusWrite c _ | .tapInstruction c => below c 256
  | .registerWrite m _ n d => masterOk m && below d (256 ^ n)
  | .admitSlotsWrite m c a d => masterOk m && below c 4 && below a 8 && below d (2 ^ 32)
  | .splitWrite m o d => masterOk m && below o 4 && below d (2 ^ 32)
  | .portEnable m p d | .portDisable m p d | .txtsPop m p d | .gateArm m p d => masterOk m && below p 32 && below d (2 ^ 32)
  | .lineLinkUp p _ | .lineLinkDown p | .rxFrameStart p _ _ | .rxFrameEnd p _ _ | .rxControlFrame p _ | .pfcFrameSend p
  | .pfcRepeat p | .txFrame p | .portDownFlush p | .gateSwitch p | .rsFaultChange p _ _ _ => below p 32
  | .pauseTimerExpiry p q | .xoffEvaluation p q => below p 32 && below q 8
  | .statClear m _ d => masterOk m && below d (2 ^ 32)
  | .saCacheFill i _ => below i 4194304
  | .stoSend c | .delayedAck c | .ackTimerExpiry c | .rnrWaitEnd c | .alphaTimer c | .increaseEvent c | .ddpSetup c
  | .ddpTeardown c => below c 1048576
  | .exitSelect e => below e 64
  | .configRequest k b d _ => fnOk k && below b 256 && below d 32
  | .pcieDlActive f l _ _ _ | .pcieLinkReset f l _ | .pmeTurnOff f l | .l1Entry f l _ | .l1Exit f l => below f 4 && below l 2
  | .vfEnable f n => below f 4 && below n 65536
  | .bmeClear k | .bmeSet k | .d3hotEntry k | .d0Return k | .pmeResend k => fnOk k
  | .vfFlr i | .tenantHello i | .resetRequest i => below i 2048
  | .resetSequenceDone i => below i 2052
  | .msixUnmask k v _ => fnOk k && below v 256
  | .mctpControl f _ | .pldmRequest f _ | .mgrHello f | .mboxCreate f | .mboxRemove f | .mboxSetShare f | .upgradeStatus f
  | .upgradeConfirm f | .descriptorFetch f | .readIssue f | .jobFinish f => below f 4
  | .atsInvalidate f k _ _ | .invalidateDeadline f k _ => below f 4 && fnOk k
  | .atsTranslation f _ _ => below f 4
  | .queueEnable m f _ q | .queueStop m f _ q | .queueResume m f _ q | .queueReset m f _ q =>
    masterOk m && below f 4 && below q 16384
  | .queueStopped _ q | .queueResetDone _ q | .txItemHandoff q | .txItemComplete q | .regionClose q => below q 16384
  | .lineEnable m f l | .lineDisable m f l => masterOk m && below f 4 && below l 8192
  | .pollIssue l => below l 8192
  | .pollReturn f t _ _ | .readCompletion f t _ _ => below f 4 && below t 32768
  | .readTimeout f t | .quarantineEnd f t | .flushCompletion f t | .flushTimeout f t => below f 4 && below t 32768
  | .cqEntryReady r | .corbelDrain r | .coalesceTimerExpiry r => below r 8192
  | .cqEnable m f r | .cqDisable m f r => masterOk m && below f 4 && below r 8192
  | .writeTlp f l a => below f 4 && below l 2 && below a 8
  | .jobSubmit m f c => masterOk m && below f 4 && below c (2 ^ 32)
  | .create m f i | .start m f i | .reset m f i | .remove m f i | .setShare m f i => masterOk m && below f 4 && below i 4096
  | .mbxDataWrite m c w d => masterOk m && below c 2056 && below w 16 && below d (2 ^ 32)
  | .go m c | .done m c | .notify m c | .cancel m c => masterOk m && below c 2056
  | .mbxEventDelivery c _ | .getNotice c => below c 2056
  | .mbxBindWrite m c d => masterOk m && below c 2052 && below d (2 ^ 32)
  | .load m b | .commit m b | .clear m b => masterOk m && below b 2
  | .loadComplete b _ => below b 2
  | .emInsert m k _ | .emDelete m k | .emRead m k | .lpmAdd m k | .lpmDel m k | .rehash m k => masterOk m && below k 5
  | .expWrite m k i | .expRead m k i => masterOk m && below k 5 && below i 4096
  | .flowInsert m k _ r | .flowDelete m k r | .flowRead m k r => masterOk m && below k 5 && below r 2112
  | .saWrite m k i | .saRead m k i | .saDelete m k i | .saLimit m k i | .tlsResync m k i =>
    masterOk m && below k 5 && below i 4194304
  | .laneDrain m l | .laneTest m l | .laneReturn m l => masterOk m && below l 8
  | .laneOut l | .laneTestEnd l _ => below l 8
  | .ctxWrite m k i | .ctxRead m k i | .ctxModify m k i | .ctxDestroy m k i | .keyWrite m k i | .keyDelete m k i
  | .pathWrite m k i | .connResync m k i => masterOk m && below k 5 && below i 2097152
  | .leaseRenew m e | .leaseRelease m e | .stackRenew m e | .epochCmd m e => masterOk m && below e 65536
  | .lockstepMismatch c | .complexStarted c _ _ | .complexTestEnd c _ => below c 2
  | .leaseReq m j => masterOk m && below j (2 ^ 32)
  | .ckptCommit m k j => masterOk m && below k 2 && below j (2 ^ 48)
  | .complexStart m c k => masterOk m && below c 2 && below k 2
  | .complexStop m c | .complexTest m c => masterOk m && below c 2
  | .xqPop c | .xqFreePop c | .masonReturn c | .masonNew c | .masonDiscard c | .clusterOut c | .clusterTestEnd c _ => below c 4
  | .xqRet c d _ => below c 4 && below d (2 ^ 32)
  | .slotHoldExpiry c k => below c 4 && below k 128
  | .clusterDrain m c | .clusterTest m c | .clusterReturn m c => masterOk m && below c 4
  | .captureAck m x d => masterOk m && below x 4 && below d (2 ^ 32)
  | .quoinPortEnable m p d => masterOk m && below p 4 && below d (2 ^ 32)
  | .laneAlign p _ _ | .helloTimer p | .hello p _ | .flitRx p _ | .resendTimer p | .down p _ | .quoinLinkLoss p
  | .quoinDownFlush p | .topo p _ | .topoExpiry p | .lease p _ _ _ _ | .epoch p _ _ _ _ | .time p _ _ _ | .mbox p _ _ _
  | .mbxLinkTimeout p => below p 4
  | .creditWaitExpiry p c => below p 4 && below c 9
  | .moduleLostExpiry k => below k 4
  | .courseDrain m c | .courseTest m c | .courseReturn m c => masterOk m && below c 4
  | .courseOut c | .courseTestEnd c _ => below c 4
  | .vinRise v | .vinUndervoltage v | .vinOvervoltage v | .vinOvpRecovery v | .vinRangeEntry v | .vinRangeExit v =>
    below v 4096
  | .standbyPowerOn a b => below a 4096 && below b 4096
  | .thermalTrip a b c | .tempWarnCrossing a b c | .tempWarnClear a b c => tempOk a && tempOk b && tempOk c
  | .hkclkArrival | .releasePoint _ | .thermNFall | .hkclkLoss | .hkclkReturn | .pwrRailFault | .mrstNLow
  | .bootComplete _ | .chipResetEnd _ | .paceTrigger _ | .estimateCompare _ | .paceSettleEnd | .paceTriggersClear _
  | .paceHoldEnd | .tsuTick | .tsuReferenceLoss | .tsuReferenceReturn | .lineRefLoss _ | .refReturn _ | .alertResponse
  | .smbusTimeout | .ftChallenge | .ftUnlock _ | .markCreation _ | .parse _ | .lateFindings _ | .rulePass _
  | .lateVerdict _ | .limiterRefill | .forwardingLookup _ | .learnRecordExpiry _ _ | .agingVisit _ _ | .tunnelStage _
  | .cryptoStage _ | .stoRxPacket _ | .bufferAdmission _ | .chargeCorrection _ | .admissionRetry _ | .bufWaitExpiry _
  | .markAgeScan | .hrxHoldExpiry _ | .spillMove _ | .spillReadback _ _ | .recircTake _ | .recircHoldExpiry _
  | .cutThroughCorrection _ | .shaperRefill _ | .rehashEnd | .leaseEnd | .takeoverDeadline | .handoverLapse
  | .ckptDeadline | .masonDelivery | .memHbmCorr | .memHbmUncorr _ | .memProtUncorr _ | .topoTimer | .stackLeaseExpiry
  | .election | .epochActivation | .timeTimer | .svnFuseEnd | .standbyPowerLoss => true
where
  /-- A temperature of the range that the sensors report (spec/03 R79). -/
  tempOk (t : Int) : Bool := decide (-128 ≤ t) && decide (t ≤ 127)

end Sys2Proof
end

