-- ==== Sys2Proof/Certificates/Slice0/Obligations.lean ====
section
/-! DEFINITION. The statements for the provers, in the order of the opcode table's families.  A statement of a command's own
effect names the whole next state where it can: `s.begun` is the state as the command starts, with what was sent before
forgotten.  `s.banksHeld` says that no rule bank is about to be freed (spec/12 R365; `DrainedBanksAreFreed` says that every
step leaves it so); `Reported src v t` says that `t` is `v` after the event of `src`, and `s.mild src` that this event asks for
no reset (spec/19 R580); `s.writes m off` says that a register write by `m` reaches its register, and `m.logged` adds the
journal entry of a write by firmware (spec/18 R553). -/

open Sys2Proof Sys2Proof.Machine


/-! ### The machine (spec/00, spec/04 R111-R115, spec/19, spec/21 R648) -/

/-- A step carries out the command at the front of the queue, with the rest of the queue as the new queue; on an empty queue
the block idles (the model's choice, log 14). Every command ends in a next state, with the queue it found and nothing left due:
no command faults or is refused. -/
def Obligations.StepTakesTheFront : Prop :=
  (∀ (c : Instr) (s : State), step { s with pending := c :: s.pending } = exec c s)
    ∧ (∀ s : State, s.pending = [] → step s = .next s)
    ∧ (∀ (c : Instr) (s : State), ∃ t, exec c s = .next t ∧ t.pending = s.pending ∧ t.due = [])

/-- Every step keeps the fuses: the minimum security version never falls, a revoked key slot stays revoked, and nothing else
that is fused changes (spec/21 R648). -/
def Obligations.FusesNeverGoBack : Prop :=
  ∀ (v : Nat) (k : Nat) (s t : State), v ≤ s.fuses.minSvn → bitOf s.fuses.revoked k = true → step s = .next t →
    v ≤ t.fuses.minSvn ∧ bitOf t.fuses.revoked k = true ∧ s.fusesKept t

/-- Every step leaves no rule bank DRAINING with nothing in flight: such a bank is freed by the command that empties it
(spec/12 R365). -/
def Obligations.DrainedBanksAreFreed : Prop :=
  ∀ s t : State, s.banksHeld → step s = .next t → t.banksHeld

/-- The machine right after reset meets both invariants. -/
def Obligations.ResetMeetsTheInvariants : Prop :=
  State.reset.banksHeld ∧ State.reset.fusesKept State.reset ∧ State.reset.pending = [] ∧ State.reset.due = []

/-- Raising an event touches nothing but what an event may touch, leaves the source pending, keeps every pending bit, and asks
for no reset where the event's level is below BLOCK_RESET (spec/19 R580-R582). -/
def Obligations.EventsStayInside : Prop :=
  ∀ (s : State) (src d : Nat) (who : Option Nat) (acc : Acc),
    EventFrame s (s.raise src d who acc)
    ∧ (s.released = true → (s.raise src d who acc).eventPending src = true
        ∧ ∀ x, s.eventPending x = true → (s.raise src d who acc).eventPending x = true)
    ∧ (s.mild src → (s.raise src d who acc).due = s.due)

/-! ### Supply (spec/03 R64-R79) -/

/-- Power comes up: STANDBY_POWER_ON brings up the standby domain, VIN_RISE starts the power-up sequence, and HKCLK_ARRIVAL
ends its wait for the clock with power-good; after an overvoltage, VIN below 19.0 V closes the input switch and restarts
power-up.
References come and go: HKCLK_RETURN switches the PLLs back; a reference that is present again is judged so; the loss of a
line reference that serves no port and no Quoin link, or of the reference of a face in reset, changes its presence alone. -/
def Obligations.PowerAndReferences : Prop :=
  (∀ s : State, s.banksHeld → s.released = false → s.supply.tripLatch = false →
      (∀ a v, a < 4096 → v < 4096 → s.supply.phase = .off → s.supply.ovpOpen = false → s.supply.standby = false →
        (450 ≤ a ∨ 450 ≤ v) →
        exec (.standbyPowerOn a v) s = .next { s.begun with supply := { s.supply with
          standby := true, vstbyCv := a, vinCv := v, vinRangeErr := decide (v < 450) || decide (1800 < v)
          phase := if v < 440 then .off else if s.clocks.hkclk then .good else .waitClock } })
      ∧ (∀ v, s.supply.phase = .off → s.supply.ovpOpen = false → s.supply.standby = true → s.supply.vinCv < 440 → 440 ≤ v →
        v < 1950 →
        exec (.vinRise v) s = .next { s.begun with supply := { s.supply with
          vinCv := v, vinRangeErr := decide (v < 450) || decide (1800 < v)
          smbAlert := s.supply.smbAlert || ((decide (v < 450) || decide (1800 < v)) && !s.supply.vinRangeErr)
          phase := if s.clocks.hkclk then .good else .waitClock } })
      ∧ (s.supply.phase = .waitClock → s.clocks.hkclk = false → s.clocks.hkInternal = false →
        exec .hkclkArrival s = .next { s.begun with
          clocks := { s.clocks with hkclk := true }, supply := { s.supply with phase := .good } })
      ∧ (∀ v, s.supply.phase = .off → s.supply.standby = true → s.supply.ovpOpen = true → 440 ≤ v → v < 1900 →
        exec (.vinOvpRecovery v) s = .next { s.begun with supply := { s.supply with
          ovpOpen := false, vinCv := v, vinRangeErr := decide (v < 450) || decide (1800 < v)
          smbAlert := s.supply.smbAlert || ((decide (v < 450) || decide (1800 < v)) && !s.supply.vinRangeErr)
          phase := if s.clocks.hkclk then .good else .waitClock } }))
  ∧ (∀ s : State, s.banksHeld →
      (s.supply.phase = .good → s.clocks.hkclk = false →
        exec .hkclkReturn s = .next { s.begun with clocks := { s.clocks with hkclk := true, hkInternal := false } })
      ∧ (exec (.refReturn .lrefa) s = .next { s.begun with clocks := { s.clocks with lrefa := true } })
      ∧ (exec (.refReturn .lrefb) s = .next { s.begun with clocks := { s.clocks with lrefb := true } })
      ∧ (∀ f, f < 4 →
        exec (.refReturn (.pcie f)) s = .next { s.begun with clocks := { s.clocks with pcie := s.clocks.pcie.set f true } })
      ∧ (s.clocks.lrefa = true → (s.released = false ∨ (s.line.ports = [] ∧ s.csc.ports = [])) →
        exec (.lineRefLoss false) s = .next { s.begun with clocks := { s.clocks with lrefa := false } })
      ∧ (s.clocks.lrefb = true → (s.released = false ∨ s.line.ports = []) →
        exec (.lineRefLoss true) s = .next { s.begun with clocks := { s.clocks with lrefb := false } })
      ∧ (∀ f, f < 4 → s.stoHeld → (s.released = false ∨ (s.face f).inReset = true) →
        exec (.pcieRefLoss f) s = .next { s.begun with clocks := { s.clocks with pcie := s.clocks.pcie.set f false } }))

/-- The main rails turn off and everything in the main domain is at its reset value again (`State.mainOff`):
VIN_UNDERVOLTAGE, VIN_OVERVOLTAGE, THERMAL_TRIP and STANDBY_POWER_LOSS; each leaves its own sticky flag (R65, R70, R73).
MRST_N_LOW: everything in the main domain goes to its reset value; the standby domain stays, and the next release will
record MRST_N as its cause (R102, R111). -/
def Obligations.RailsAndModuleReset : Prop :=
  (∀ s : State, s.supply.standby = true →
      (∀ v, v < 410 → 410 ≤ s.supply.vinCv → s.supply.vstbyCv ≠ 0 →
        ∃ t, exec (.vinUndervoltage v) s = .next t ∧ t = { s.mainOff with
          out := t.out, host := { s.mainOff.host with links := t.host.links }
          supply := { s.supply with
            wakeN := [false, false, false, false], vinCv := v, vinRangeErr := true, phase := .off, uvloSeen := true
            ovpOpen := false, smbAlert := s.supply.smbAlert || !s.supply.vinRangeErr } })
      ∧ (∀ v, 1950 ≤ v → v < 4096 → s.supply.vinCv < 1950 →
        ∃ t, exec (.vinOvervoltage v) s = .next t ∧ t = { s.mainOff with
          out := t.out, host := { s.mainOff.host with links := t.host.links }
          supply := { s.supply with
            wakeN := [false, false, false, false], vinCv := v, vinRangeErr := true, phase := .off, ovpSeen := true
            ovpOpen := true, smbAlert := s.supply.smbAlert || !s.supply.vinRangeErr } })
      ∧ (∀ tj h0 h1 : Int, -128 ≤ tj → tj ≤ 127 → -128 ≤ h0 → h0 ≤ 127 → -128 ≤ h1 → h1 ≤ 127 → s.supply.phase ≠ .off →
        (115 ≤ tj ∨ 105 ≤ h0 ∨ 105 ≤ h1) →
        ∃ t, exec (.thermalTrip tj h0 h1) s = .next t ∧ t.errN = true ∧ t = { s.mainOff with
          out := []
          supply := { s.supply with
            wakeN := [false, false, false, false], tjMax := tj, hbm0T := h0, hbm1T := h1, phase := .off, tripLatch := true
            tripSeen := true, tripMrstLow := false, smbAlert := true } })
      ∧ (exec .standbyPowerLoss s = .next { s.mainOff with
          out := []
          bring := { s.mainOff.bring with cause := 0, causeSrc := 0 }
          supply := { mrstN := s.supply.mrstN, perstN := s.supply.perstN, thermN := s.supply.thermN
                      pwrAlertN := s.supply.pwrAlertN } }))
  ∧ (∀ s : State, s.supply.standby = true → s.supply.mrstN = true → s.supply.tripLatch = false → s.bring.phase ≠ .module →
      exec .mrstNLow s = .next { s.mainReset with
        out := []
        supply := { s.supply with wakeN := [false, false, false, false], mrstN := false, tripMrstLow := false }
        bring := { s.mainReset.bring with nextCause := 1, nextSrc := 0 } })

/-- What the supply reports while the block runs on: VIN_RANGE_ENTRY sets vin_range_err, pulls SMB_ALERT_N low and raises
pwr.vin_range; VIN_RANGE_EXIT clears the bit; THERM_N_FALL and PWR_RAIL_FAULT raise their events; HKCLK_LOSS sets hkclk_lost,
raises its event and the PLLs run from the internal oscillator (R65, R75, R79, R90, spec/19 R579).
Temperatures cross their warning thresholds: upwards, the bit is set, SMB_ALERT_N falls and the event is raised; 3 °C
below, the bit clears (R72). -/
def Obligations.SupplyReports : Prop :=
  (∀ s : State, s.banksHeld → s.released = true → s.supply.standby = true →
      (∀ v, (410 ≤ v ∧ v < 450) ∨ (1800 < v ∧ v < 1950) → s.supply.vinRangeErr = false → s.mild 20 →
        ∃ t, exec (.vinRangeEntry v) s = .next t
          ∧ Reported 20 { s.begun with supply := { s.supply with vinCv := v, vinRangeErr := true, smbAlert := true } } t)
      ∧ (∀ v, 450 ≤ v → v ≤ 1800 → s.supply.vinRangeErr = true → 410 ≤ s.supply.vinCv →
        exec (.vinRangeExit v) s = .next { s.begun with supply := { s.supply with vinCv := v, vinRangeErr := false } })
      ∧ (s.bit Reg.pwrThermCtl [] 16 = true → s.mild 23 →
        ∃ t, exec .thermNFall s = .next t ∧ Reported 23 { s.begun with supply := { s.supply with thermN := false } } t)
      ∧ (s.bit Reg.pwrThermCtl [] 16 = false →
        exec .thermNFall s = .next { s.begun with supply := { s.supply with thermN := false } })
      ∧ (s.supply.phase = .good → 450 ≤ s.supply.vinCv → s.supply.vinCv ≤ 1800 → s.mild 25 →
        ∃ t, exec .pwrRailFault s = .next t ∧ Reported 25 s.begun t)
      ∧ (s.supply.phase = .good → s.clocks.hkclk = true → s.mild 24 →
        ∃ t, exec .hkclkLoss s = .next t ∧ Reported 24 { s.begun with
          clocks := { s.clocks with hkclk := false, hkInternal := true }, supply := { s.supply with hkclkLost := true } } t))
  ∧ (∀ (s : State) (tj h0 h1 : Int), s.banksHeld → s.released = true → s.supply.phase = .good → -128 ≤ tj → tj ≤ 127 →
      -128 ≤ h0 → h0 ≤ 127 → -128 ≤ h1 → h1 ≤ 127 →
      (signedOf 8 (s.fld Reg.pwrThermCtl [] 0 8) ≤ tj → s.supply.tjWarn = false →
        max h0 h1 < signedOf 8 (s.fld Reg.pwrThermCtl [] 8 8) → s.mild 21 →
        ∃ t, exec (.tempWarnCrossing tj h0 h1) s = .next t ∧ Reported 21 { s.begun with supply := { s.supply with
          tjMax := tj, hbm0T := h0, hbm1T := h1, tjWarn := true, smbAlert := true } } t)
      ∧ (signedOf 8 (s.fld Reg.pwrThermCtl [] 8 8) ≤ max h0 h1 → s.supply.hbmWarn = false →
        tj < signedOf 8 (s.fld Reg.pwrThermCtl [] 0 8) → s.mild 22 →
        ∃ t, exec (.tempWarnCrossing tj h0 h1) s = .next t ∧ Reported 22 { s.begun with supply := { s.supply with
          tjMax := tj, hbm0T := h0, hbm1T := h1, hbmWarn := true, smbAlert := true } } t)
      ∧ (tj ≤ signedOf 8 (s.fld Reg.pwrThermCtl [] 0 8) - 3 → max h0 h1 ≤ signedOf 8 (s.fld Reg.pwrThermCtl [] 8 8) - 3 →
        exec (.tempWarnClear tj h0 h1) s = .next { s.begun with supply := { s.supply with
          tjMax := tj, hbm0T := h0, hbm1T := h1, tjWarn := false, hbmWarn := false } }))

/-! ### Clocks and the time base (spec/02 R46-R61, spec/03 R90, spec/22 R658, R659) -/

/-- The governor steps down: a trigger at step 0 leads to step 1 with a settle window of 100 ns; a trigger still true at the
window's end leads to step 2; the estimate above the cap is a trigger.  Each step down is counted, reported, and leaves its
causes (spec/02 R46, R48, R50).
The governor holds and steps up: with no trigger true the hold of 10 µs starts, and at its end the governor moves up one
step; the estimate is recorded (spec/02 R46, R48, R54).
A write to PWR_PACE_CTL with no trigger true and the governor at step 0 by itself: the word is stored; where force_step
takes the governor down the step is counted, reported and has no cause; where it does not, nothing else happens (spec/02 R49,
R50, R52). -/
def Obligations.PaceGoverns : Prop :=
  (∀ s : State, s.banksHeld → s.released = true → s.ready 1 = true → s.fld Reg.pwrPaceCtl [] 16 2 = 0 → s.mild 19 →
      mapGet 0 s.counters (blockBase 1 + 0x110) + 1 < 2 ^ 47 →
      (∀ src, (s.begun.setCond true src).paceAny = true → s.pace.natural = 0 →
        ∃ t, exec (.paceTrigger src) s = .next t ∧ Reported 19 ((s.begun.setCond true src).steppedDown 1) t)
      ∧ (∀ w, s.fld Reg.pwrPaceCtl [] 8 7 < w → s.bit Reg.pwrPaceCtl [] 2 = true → s.pace.natural = 0 →
        ∃ t, exec (.estimateCompare w) s = .next t
          ∧ Reported 19 (State.steppedDown
              { s.begun with pace := { s.pace with estW := min 127 w, condEst := true } } 1) t)
      ∧ (∀ e, s.pace.settleEnd = some e → e ≤ s.now → s.paceAny = true → s.pace.natural = 1 →
        ∃ t, exec .paceSettleEnd s = .next t ∧ Reported 19 (s.begun.steppedDown 2) t))
  ∧ (∀ s : State, s.banksHeld → s.released = true → s.ready 1 = true →
      (∀ w, w ≤ s.fld Reg.pwrPaceCtl [] 8 7 → s.pace.natural = 0 →
        s.pace.condVin = false → s.pace.condCore = false → s.pace.condAlert = false →
        exec (.estimateCompare w) s = .next { s.begun with pace := { s.pace with estW := min 127 w, condEst := false } })
      ∧ (∀ e, s.pace.settleEnd = some e → e ≤ s.now → s.paceAny = false → s.pace.natural = 1 → s.pace.holdEnd = none →
        exec .paceSettleEnd s = .next { s.begun with pace := { s.pace with
          settleEnd := none, holdEnd := some (s.now + 10000) } })
      ∧ (s.pace.natural ≠ 0 → s.pace.holdEnd = none →
        exec (.paceTriggersClear [.vin, .core, .est]) { s with pace := { s.pace with condAlert := false } } =
          .next { s.begun with pace := { s.pace with
            condVin := false, condCore := false, condEst := false, condAlert := false, holdEnd := some (s.now + 10000) } })
      ∧ (∀ e, s.pace.holdEnd = some e → e ≤ s.now → s.paceAny = false → s.pace.natural = 1 →
        exec .paceHoldEnd s = .next { s.begun with pace := { s.pace with natural := 0, holdEnd := none } })
      ∧ (∀ e, s.pace.holdEnd = some e → e ≤ s.now → s.paceAny = false → s.pace.natural = 2 →
        exec .paceHoldEnd s = .next { s.begun with pace := { s.pace with natural := 1, holdEnd := some (s.now + 10000) } }))
  ∧ (∀ (s : State) (m : Master) (data : Nat), s.banksHeld → s.writes m (Reg.pwrPaceCtl.addr []) → data < 2 ^ 32 →
      bitOf s.glb.lock 1 = false → s.pace.natural = 0 → s.pace.condVin = false → s.pace.condCore = false →
      s.pace.condEst = false → s.pace.condAlert = false →
      let w := storeFields false (s.word Reg.pwrPaceCtl []) data Reg.pwrPaceCtl.fields
      (s.paceStep < min 2 (bitsOf w 16 2) → s.mild 19 → mapGet 0 s.counters (blockBase 1 + 0x110) + 1 < 2 ^ 47 →
        ∃ t, exec (.forceStepWrite m data) s = .next t
          ∧ Reported 19 (m.logged (Reg.pwrPaceCtl.addr []) 4 data (s.begun.setWord Reg.pwrPaceCtl [] w)) t)
      ∧ (min 2 (bitsOf w 16 2) ≤ s.paceStep →
        exec (.forceStepWrite m data) s =
          .next (m.logged (Reg.pwrPaceCtl.addr []) 4 data (s.begun.setWord Reg.pwrPaceCtl [] w))))

/-- A tick: the tick count advances by one and the time-of-day by 1 + adj × 2^-32 ns; the loss and the return of the
reference set and clear fallback and report it, and lose no tick (spec/02 R56, R58, R59).
Writes to the time base: TSU_TOD_SET replaces the nanoseconds and clears the fraction, TSU_TOD_STEP adds to them,
TSU_TOD_ADJ is stored clamped. -/
def Obligations.TimeAdvances : Prop :=
  (∀ s : State, s.banksHeld → s.released = true →
      (∃ x : Nat, (x : Int) = ((s.tsu.todNs * 2 ^ 32 + s.tsu.todFrac + 2 ^ 32 : Nat) + signedOf 32 (s.word Reg.tsuTodAdj [])) % 2 ^ 96
        ∧ let u := { s.begun with tsu := { s.tsu with
            tick := (s.tsu.tick + 1) % 2 ^ 64, todNs := x / 2 ^ 32, todFrac := x % 2 ^ 32 } }
          (s.paceStep = 0 → exec .tsuTick s = .next u)
          ∧ (s.paceStep ≠ 0 → mapGet 0 s.counters (blockBase 1 + 0x118) + 1 < 2 ^ 47 →
            exec .tsuTick s = .next { u with
              counters := mapUpd 0 s.counters (blockBase 1 + 0x118) (fun k => k + 1) }))
      ∧ (s.tsu.fallback = false → s.mild 3 → ∃ t, exec .tsuReferenceLoss s = .next t
        ∧ Reported 3 { s.begun with tsu := { s.tsu with fallback := true, refOk := false } } t)
      ∧ (s.tsu.fallback = true → s.mild 4 → ∃ t, exec .tsuReferenceReturn s = .next t
        ∧ Reported 4 { s.begun with tsu := { s.tsu with fallback := false, refOk := true } } t))
  ∧ (∀ (s : State) (m : Master) (d : Nat), s.banksHeld →
      (d < 2 ^ 64 → s.writes m 0x10020 →
        exec (.todSet m d) s =
          .next (m.logged 0x10020 8 d { s.begun with tsu := { s.tsu with todNs := d, todFrac := 0, todSet := true } }))
      ∧ (d < 2 ^ 64 → s.writes m 0x10028 →
        exec (.todStep m d) s =
          .next (m.logged 0x10028 8 d { s.begun with tsu := { s.tsu with todNs := (s.tsu.todNs + d) % 2 ^ 64 } }))
      ∧ (d < 2 ^ 32 → s.writes m (Reg.tsuTodAdj.addr []) →
        exec (.todAdjWrite m d) s = .next (m.logged (Reg.tsuTodAdj.addr []) 4 d
          (s.begun.setWord Reg.tsuTodAdj [] (unsignedOf 32 (clampInt (-2097152) 2097152 (signedOf 32 d)))))))

/-! ### SMBus and the TAP (spec/03 R94, R95, R96, spec/19 R589, spec/22 R660) -/

/-- The SMBus: a read answers the command's word, a write is acknowledged in its command byte and refused in its data, the
alert response gives the device's address and releases SMB_ALERT_N, and a timeout leaves the interface idle.
The TAP: an instruction is loaded; FT_CHALLENGE shifts out the challenge in force; a right signature enters factory test
mode and erases the keys; a wrong one is counted, draws a new challenge and is reported, up to 8 times (spec/19 R589). -/
def Obligations.SmbusAndTap : Prop :=
  (∀ (s : State) (c : Nat) (bs : List Byte), s.banksHeld → s.supply.standby = true → c < 256 →
      exec (.smbusRead c) s = .next { s.begun with
          supply := { s.supply with smbCmd := c, smbIdle := true }, out := [.smbus (toLe 2 (s.smbWord c))] }
      ∧ exec (.smbusWrite c bs) s = .next { s.begun with
          supply := { s.supply with smbCmd := c, smbIdle := true }, out := [.smbusNak bs.length] }
      ∧ (s.supply.smbAlert = true → exec .alertResponse s = .next { s.begun with
          supply := { s.supply with smbAlert := false }, out := [.smbus (toLe 1 (2 * (0x60 + s.supply.stackId)))] })
      ∧ exec .smbusTimeout s = .next { s.begun with supply := { s.supply with smbIdle := true } })
  ∧ (∀ s : State, s.banksHeld → s.released = true →
      (∀ ir, ir < 256 → s.supply.phase ≠ .off → exec (.tapInstruction ir) s = .next { s.begun with
        tap := { s.tap with ir := ir }, out := if ir = Config.tapIdcode % 256 then [.tap 0x08128A63] else [] })
      ∧ (s.tap.ir = 0x30 → s.supply.testMode = true →
        exec .ftChallenge s = .next { s.begun with out := [.tap (Config.challenge s.tap.draw % 2 ^ 64)] })
      ∧ (∀ sig, s.tap.ir = 0x31 → s.supply.testMode = true → s.tap.fails < 8 → s.begun.eraseKeys.mild 9 →
        s.begun.eraseKeys.due = [] → s.begun.eraseKeys.banksHeld → s.mild 8 →
        ∃ t, exec (.ftUnlock sig) s = .next t
          ∧ if Config.ftVerify (Config.challenge s.tap.draw % 2 ^ 64) s.fuses.serial (sig % 2 ^ 768) = true then
              Reported 9 { s.begun.eraseKeys with tap := { s.begun.eraseKeys.tap with ftMode := true } } t
            else Reported 8 { s.begun with tap := { s.tap with fails := s.tap.fails + 1, draw := s.tap.draw + 1 } } t)
      ∧ (∀ sig, s.tap.ir = 0x31 → 8 ≤ s.tap.fails → exec (.ftUnlock sig) s = .next s.begun))

/-! ### Resets and readiness (spec/03 R69, spec/04 R98-R115, spec/06 R157) -/

/-- RELEASE_POINT and CHIP_RESET_END: the straps are sampled by majority, the cause is recorded, faces whose PERST_N is high
leave reset and train, the boot starts, and the time base runs from the housekeeping clock; nothing else changes. -/
def Obligations.ReleasePointRuns : Prop :=
  ∀ (s : State) (i : ReleaseIn), s.banksHeld → s.supply.standby = true → s.supply.phase = .good → s.clocks.hkclk = true →
    s.supply.tripLatch = false → s.supply.tripMrstLow = false → s.tsu.fallback = false → s.regs = [] →
    s.host.faces.length = 4 →
    let b := fun k => strapOf (ix i.straps k)
    let prim := b2n (b 2) + 2 * b2n (b 3)
    let v := { s.begun with
      supply := { s.supply with
        stackId := b2n (b 0) + 2 * b2n (b 1), primaryFace := prim, bootSel := b 4, testMode := b 5 }
      bring := { s.bring with
        phase := .released, everReleased := true, cause := s.bring.nextCause
        causeSrc := if s.bring.nextCause = 2 then s.bring.nextSrc else 0, btlState := 1 }
      clocks := { s.clocks with lrefaAtRelease := s.clocks.lrefa, lrefbAtRelease := s.clocks.lrefb }
      glb := { s.glb with
        primary := prim, faceWr := (List.range 4).map (fun n => if n = prim then 0x1FFFFF else 0)
        dtFaces := (List.range 4).map (fun n => s.faceEntry n) }
      tap := { s.tap with draw := s.tap.draw + 1 }, tsu := { s.tsu with refOk := true, fallback := false } }
    let faces := fun t : State => t.host.fns = s.host.fns ∧ ∀ n, n < 4 →
      if s.supply.perstN.getD n false = true then
        t.face n = { s.face n with inReset := false } ∧ t.link n 0 = { state := .training }
      else t.face n = s.face n ∧ t.link n 0 = s.link n 0
    (s.bring.phase = .module → ∃ t, exec (.releasePoint i) s = .next t ∧ faces t
      ∧ t = { v with supply := { v.supply with mrstN := true }, host := t.host })
    ∧ (s.bring.phase = .chip → ∃ t, exec (.chipResetEnd i) s = .next t ∧ faces t ∧ t = { v with host := t.host })

/-- A unit, port, Quoin port or course becomes ready: its readiness bit rises, and a course takes its admission slots; an HBM
stack that fails training is reported; a block that has been reset runs again (R98-R102, R113).
The boot ends: the newest image that verifies runs on complex A, which holds the lease with a new epoch, KSC is ready and
the FIRMWARE entry names the image; with no directory the boot fails and says so (spec/04 R103-R108, spec/18 R546, R549). -/
def Obligations.UnitsReadyAndBoot : Prop :=
  (∀ s : State, s.banksHeld → s.released = true →
      (∀ n, n ≤ 20 → n ≠ 17 → n ≠ 18 → s.ready n = false → s.inReset n = false →
        exec (.unitReady (.block n) true) s = .next { s.begun with
          bring := { s.bring with readySub := putBit s.bring.readySub n true } })
      ∧ (s.ready 16 = false → s.inReset 16 = false → s.mild 390 →
        ∃ t, exec (.unitReady (.block 16) false) s = .next t ∧ Reported 390 s.begun t)
      ∧ (∀ n, n < 32 → s.portLanes n ≠ 0 → exec (.unitReady (.port n) true) s = .next { s.begun with
          bring := { s.bring with readyPort := putBit s.bring.readyPort n true } })
      ∧ (∀ n, n < 4 → s.clocks.lrefaAtRelease = true → exec (.unitReady (.quoin n) true) s = .next { s.begun with
          bring := { s.bring with readyQuoin := putBit s.bring.readyQuoin n true } })
      ∧ (∀ c, c < 4 → s.courseSt c = .inService → bitOf s.bring.readyCourse c = false →
        ∃ t, exec (.unitReady (.course c) true) s = .next t
          ∧ t = { s.begun with
              bring := { s.bring with readyCourse := putBit s.bring.readyCourse c true }
              rules := { s.rules with slots := t.rules.slots } }
          ∧ t.rules.slots = (s.allocateSlots c).rules.slots)
      ∧ (∀ n, n ≤ 20 → n ≠ 17 → s.inReset n = true → exec (.blockResetDone n) s = .next { s.begun with
          bring := { s.bring with
            blockReset := putBit s.bring.blockReset n false, readySub := putBit s.bring.readySub n true } }))
  ∧ (∀ (s : State) (i : BootIn), s.banksHeld → s.stoHeld → s.released = true → s.ready 0 = true → s.bring.btlState = 1 →
      (i.dir < 2 → i.okA = true → s.supply.bootSel = false → (i.slots.getD 1 {}).seq ≤ (i.slots.getD 0 {}).seq →
        s.slotOk (i.slots.getD 0 {}) = true → s.flt.waiting = [] → s.ivm.chans = [] → s.ivm.notices = [] →
        s.ksc.cplx.length = 2 →
        ∃ t, exec (.bootComplete i) s = .next t
          ∧ t = { s.begun with bring := t.bring, ksc := t.ksc, glb := t.glb, tap := t.tap, flt := t.flt
                               freeCount := s.freeCount + 1 }
          ∧ t.bring = { s.bring with
              btlDirBackup := decide (i.dir = 1), btlState := 4, btlSlot := 0, btlComplex := 0
              btlFwVer := (i.slots.getD 0 {}).fwVer, btlStartTick := s.now, readySub := putBit s.bring.readySub 18 true }
          ∧ t.ksc.held = true ∧ t.ksc.active = 0 ∧ t.ksc.epoch = (s.ksc.epoch + 1) % 65536
          ∧ t.ksc.leaseEnd = s.now + 100000 ∧ (t.cplx 0).state = .active ∧ (t.cplx 1).state = .off
          ∧ t.glb.dtFirmware = [(i.slots.getD 0 {}).fwVer, 1 + 256] ∧ t.tap.imgSvn = (i.slots.getD 0 {}).svn
          ∧ t.flt = s.flt)
      ∧ (2 ≤ i.dir → s.mild 6 → ∃ t, exec (.bootComplete i) s = .next t
          ∧ Reported 6 { s.begun with bring := { s.bring with btlDirBackup := false, btlState := 5 } } t))

/-- A face comes up: while the main domain is held, PERST_N changes its pin alone; a face whose endpoint is ready sends Device
Readiness Status on its active link and its readiness bit rises; and PERST_N low in operation starts the face reset (R110,
R111). -/
def Obligations.FacesComeUp : Prop :=
  ∀ (s : State) (n : Nat), s.banksHeld → s.stoHeld → n < 4 →
    (s.released = false → s.supply.perstN.getD n false = true →
      exec (.perstNFall n) s = .next { s.begun with supply := { s.supply with perstN := s.supply.perstN.set n false } })
    ∧ (s.released = false → s.supply.perstN.getD n false = false →
      exec (.perstNRise n) s = .next { s.begun with supply := { s.supply with perstN := s.supply.perstN.set n true } })
    ∧ (s.released = true → (s.face n).inReset = false → bitOf s.bring.readyFace n = false → s.ready 0 = true →
      s.flt.mgrHeld = false → (s.link n 1).active = false →
      ((s.link n 0).active = false → exec (.faceReady n) s = .next { s.begun with
          bring := { s.bring with readyFace := putBit s.bring.readyFace n true } })
      ∧ ((s.link n 0).state = .l0 → (s.link n 0).drsSent = false → exec (.faceReady n) s = .next { s.begun with
          bring := { s.bring with readyFace := putBit s.bring.readyFace n true }
          host := { s.host with links := mapSet {} s.host.links (2 * n) { s.link n 0 with drsSent := true } }
          out := [.pcie n 0 .readinessStatus] }))
    ∧ (s.released = true → s.supply.perstN.getD n false = true →
      exec (.perstNFall n) s = .next (s.close (State.settleSto (State.faceReset
        { s.begun with supply := { s.supply with perstN := s.supply.perstN.set n false } } n))))
/-! ### Registers (spec/00 R6, spec/04 R99, spec/06 R166-R171, spec/18 R550) -/

/-- What a register write meets on its way: a tenant reaches no register of PF BAR0; a face that takes no requests changes
nothing; a block that is not ready records the access; a face without permission has its write refused and reported; firmware
with a stale stamp has it refused, counted, logged and reported; and a plain register, PWR_DROOP_THR, takes its two fields
clamped.
Locks are set by firmware alone and never cleared by a write, and firmware alone moves the primary role; the same write
through a face is ignored (spec/06 R169, R171). -/
def Obligations.RegisterWritesAreJudged : Prop :=
  (∀ (s : State) (d : Nat), s.banksHeld → s.stoHeld → s.released = true → d < 2 ^ 32 →
      let a := Reg.pwrDroopThr.addr []
      (∀ f, s.fnReachable (2048 + f) = false → exec (.registerWrite (.pf f) a 4 d) s = .next s.begun)
      ∧ (∀ f, s.fnReachable (2048 + f) = true → s.ready 1 = false →
        exec (.registerWrite (.pf f) a 4 d) s = .next { s.begun with
          bring := { s.bring with earlyAccess := putBit s.bring.earlyAccess 1 true } })
      ∧ (∀ f, s.fnReachable (2048 + f) = true → s.ready 1 = true → bitOf (s.glb.faceWr.getD f 0) 1 = false → s.mild 71 →
        ∃ t, exec (.registerWrite (.pf f) a 4 d) s = .next t
          ∧ Reported 71 { s.begun with glb := { s.glb with wrDenied := putBit s.glb.wrDenied f true } } t)
      ∧ (∀ x ep, s.freshEpoch ep = false → s.ksc.stale.valid = false → s.mild 452 →
        mapGet 0 s.counters (blockBase 18 + 0x110) + 1 < 2 ^ 47 →
        ∃ t, exec (.registerWrite (.fw x ep) (0x4000000 + a) 4 d) s = .next t
          ∧ Reported 452 { s.begun with ksc := { s.ksc with
              stale := { valid := true, off := a, noLease := !s.ksc.held, epoch := ep % 65536, cplx := x } } } t)
      ∧ (∀ f, s.writes (.pf f) a → exec (.registerWrite (.pf f) a 4 d) s = .next (s.begun.setWord Reg.pwrDroopThr []
          (clampNat 2 20 (bitsOf d 0 5) + clampNat 10 60 (bitsOf d 8 6) * 256)))
      ∧ (∀ x ep, s.writes (.fw x ep) a → exec (.registerWrite (.fw x ep) (0x4000000 + a) 4 d) s =
          .next (Master.logged (.fw x ep) a 4 d (s.begun.setWord Reg.pwrDroopThr []
            (clampNat 2 20 (bitsOf d 0 5) + clampNat 10 60 (bitsOf d 8 6) * 256)))))
  ∧ (∀ (s : State) (m : Master) (d : Nat), s.banksHeld → d < 2 ^ 32 →
      (s.writes m 0x2000 → m.isFw = true →
        (∀ b ∈ ([5, 15, 20] : List Nat), bitOf d b = true → bitOf s.glb.lock b = true) →
        exec (.lockSet m d) s = .next (m.logged 0x2000 4 d { s.begun with
          glb := { s.glb with lock := Nat.lor s.glb.lock (d % 2 ^ 21) } }))
      ∧ (s.reaches m 0x2000 → m.isFw = false → exec (.lockSet m d) s = .next s.begun)
      ∧ (s.writes m 0x2040 → m.isFw = true → s.flt.mgrHeld = false →
        exec (.primaryFaceWrite m d) s = .next (m.logged 0x2040 4 d { s.begun with glb := { s.glb with primary := d % 4 } }))
      ∧ (s.reaches m 0x2040 → m.isFw = false → exec (.primaryFaceWrite m d) s = .next s.begun))

/-! ### The Plumb (spec/19 R578-R590) -/

/-- Errors in memories raise their events, and nothing else changes but the count of open values for the number of an on-die
memory, which the spec does not give.
Acknowledging a class clears its capture's valid bit and count; writing 1 to asserted releases ERR_N; an injection in
factory test mode raises its source with the detail word, and outside it raises flt.inject_denied (R582, R585, R590).
Writes that clear counts: STAT_CLEAR sets every counter of the named ports of its block to 0 and touches no other; a pop
removes the oldest transmit timestamp; the buffer's peak follows its use (spec/05 R143, R152, spec/16 R512). -/
def Obligations.ErrorsAndCounts : Prop :=
  (∀ s : State, s.banksHeld → s.released = true →
      (∀ b, b ≤ 20 → s.mild (blockSrc b) → ∃ t, exec (.memCorr b) s = .next t
        ∧ Reported (blockSrc b) { s.begun with freeCount := s.freeCount + 1 } t)
      ∧ (∀ b, b ≤ 20 → s.mild (blockSrc b + 1) → ∃ t, exec (.memUncorr b) s = .next t
        ∧ Reported (blockSrc b + 1) { s.begun with freeCount := s.freeCount + 1 } t)
      ∧ (s.mild 387 → ∃ t, exec .memHbmCorr s = .next t ∧ Reported 387 s.begun t)
      ∧ (∀ a, s.mild 388 → ∃ t, exec (.memHbmUncorr a) s = .next t ∧ Reported 388 s.begun t)
      ∧ (∀ a, s.mild 389 → ∃ t, exec (.memProtUncorr a) s = .next t ∧ Reported 389 s.begun t))
  ∧ (∀ (s : State) (m : Master) (d : Nat), s.banksHeld → d < 2 ^ 32 →
      (∀ c, c < 4 → s.writes m (blockBase 19 + 0x2000 + 0x40 * c) →
        exec (.captureAck m c d) s = .next (m.logged (blockBase 19 + 0x2000 + 0x40 * c) 4 d
          (if bitOf d 10 then { s.begun with flt := { s.flt with
            caps := s.flt.caps.set c { s.flt.caps.getD c {} with valid := false, count := 0 } } } else s.begun)))
      ∧ (s.writes m (blockBase 19 + 0x3000) →
        exec (.errpinRelease m d) s = .next (m.logged (blockBase 19 + 0x3000) 4 d
          (if bitOf d 0 then { s.begun with flt := { s.flt with errpin := false } } else s.begun)))
      ∧ (s.writes m (blockBase 19 + 0x3010) → s.tap.ftMode = true → Reg.srcDefined (bitsOf d 0 10) = true →
        s.mild (bitsOf d 0 10) → mapGet 0 s.counters (fltCounter 5) + 1 < 2 ^ 47 →
        ∃ t, exec (.faultInject m d) s = .next t
          ∧ Reported (bitsOf d 0 10) (m.logged (blockBase 19 + 0x3010) 4 d s.begun) t)
      ∧ (s.writes m (blockBase 19 + 0x3010) → s.tap.ftMode = false → s.mild 483 →
        mapGet 0 s.counters (fltCounter 6) + 1 < 2 ^ 47 →
        ∃ t, exec (.faultInject m d) s = .next t ∧ Reported 483 s.begun t))
  ∧ (∀ (s : State) (m : Master) (d : Nat), s.banksHeld → d < 2 ^ 32 →
      (∀ lsd : Bool, s.writes m (blockBase (if lsd then 2 else 3) + 0x3000) →
        ∃ t, exec (.statClear m lsd d) s = .next t
          ∧ t = m.logged (blockBase (if lsd then 2 else 3) + 0x3000) 4 d { s.begun with counters := t.counters }
          ∧ (∀ n k, n < 32 → k < (if lsd then 8 else 256) →
            mapGet 0 t.counters (if lsd then lsdCounter n k else macCounter n k) =
              if bitOf d n then 0 else mapGet 0 s.counters (if lsd then lsdCounter n k else macCounter n k))
          ∧ (∀ a, (if lsd then a < lsdCounter 0 0 ∨ lsdCounter 32 0 ≤ a else a < macCounter 0 0 ∨ macCounter 32 0 ≤ a) →
            mapGet 0 t.counters a = mapGet 0 s.counters a))
      ∧ (∀ n, n < 32 → s.writes m (blockBase 3 + 0x2010 + 0x20 * n) →
        exec (.txtsPop m n d) s = .next (m.logged (blockBase 3 + 0x2010 + 0x20 * n) 4 d
          (if bitOf d 0 then s.begun.setPort n { s.port n with txts := (s.port n).txts.drop 1 } else s.begun)))
      ∧ (s.writes m (blockBase 15 + 4) → bitOf d 31 = true →
        exec (.peakClear m d) s = .next (m.logged (blockBase 15 + 4) 4 d { s.begun with
          buf := { s.buf with peak := s.buf.used } })))

/-! ### Courses and the security version (spec/01 R28, spec/21 R628, R648) -/

/-- Firmware takes courses out of service and back: each command ends at once with its result; a draining course goes OUT once
nothing in it is left; a test ends OUT or FAILED; RETURN takes its slots and raises its readiness bit. -/
def Obligations.CoursesInService : Prop :=
  ∀ (s : State) (x ep c : Nat), s.banksHeld → c < 4 →
    let m := Master.fw x ep
    let ended := fun (u : State) (r : Nat) => { u with courses := { u.courses with cmd := { busy := false, result := r } } }
    (s.writes m courseCmdAddr → s.courses.cmd.busy = false →
      (s.courseSt c = .inService → s.courseMapped c = false → (∃ d, d < 4 ∧ d ≠ c ∧ s.courseSt d = .inService) →
        exec (.courseDrain m c) s = .next (m.logged courseCmdAddr 4 (courseWord 1 c)
          (ended ((s.begun.setCourse c { s.course c with state := .draining }).setCourseReady c false) 0)))
      ∧ (s.courseSt c = .inService → s.courseMapped c = true →
        exec (.courseDrain m c) s = .next (m.logged courseCmdAddr 4 (courseWord 1 c) (ended s.begun 2)))
      ∧ (s.courseSt c ≠ .inService →
        exec (.courseDrain m c) s = .next (m.logged courseCmdAddr 4 (courseWord 1 c) (ended s.begun 1)))
      ∧ (s.courseSt c = .out ∨ s.courseSt c = .failed →
        exec (.courseTest m c) s = .next (m.logged courseCmdAddr 4 (courseWord 2 c)
          (ended (s.begun.setCourse c { s.course c with state := .testing }) 0)))
      ∧ (s.courseSt c = .out →
        exec (.courseReturn m c) s = .next (m.logged courseCmdAddr 4 (courseWord 3 c)
          (ended (((s.begun.setCourse c { s.course c with state := .inService }).allocateSlots c).setCourseReady c true) 0)))
      ∧ (s.courseSt c ≠ .out →
        exec (.courseReturn m c) s = .next (m.logged courseCmdAddr 4 (courseWord 3 c) (ended s.begun 1))))
    ∧ (s.released = true → s.courseSt c = .draining → (∀ a, a < 8 → (s.rules.slots.getD (c * 8 + a) {}).inUse = 0) →
      (∀ p ∈ s.packets, p.2.mark.course ≠ c) →
      exec (.courseOut c) s = .next (s.begun.setCourse c { s.course c with state := .out }))
    ∧ (∀ ok : Bool, s.released = true → s.courseSt c = .testing → exec (.courseTestEnd c ok) s =
        .next (s.begun.setCourse c { state := if ok then .out else .failed, testPass := ok }))

/-- The security version: BTL_SVN_RAISE is taken from firmware alone and refused where svn does not rise with nothing to
revoke, where it exceeds the running image's, or where the slots to revoke take in the image's own or are all; at the end of
the fusing the minimum is the larger of the two and the named slots are revoked (R648). -/
def Obligations.SecurityVersionRises : Prop :=
  ∀ (s : State) (m : Master) (svn rv : Nat), s.banksHeld → svn < 65536 → rv < 16 →
    let d := svn + 65536 * rv
    (s.writes m svnRaiseAddr → m.isFw = true → s.tap.svnBusy = false →
      ((s.fuses.minSvn < svn ∨ rv ≠ 0) → svn ≤ s.tap.imgSvn → bitOf rv s.tap.imgKey = false → rv ≠ 15 →
        exec (.svnRaise m d) s = .next (m.logged svnRaiseAddr 4 d { s.begun with
          tap := { s.tap with svnBusy := true, svnNew := some (svn, rv) } }))
      ∧ ((svn ≤ s.fuses.minSvn ∧ rv = 0) ∨ s.tap.imgSvn < svn ∨ bitOf rv s.tap.imgKey = true ∨ rv = 15 →
        exec (.svnRaise m d) s = .next (m.logged svnRaiseAddr 4 d { s.begun with tap := { s.tap with svnResult := 2 } })))
    ∧ (s.reaches m svnRaiseAddr → m.isFw = false ∨ s.tap.svnBusy = true → exec (.svnRaise m d) s = .next s.begun)
    ∧ (s.released = true → s.tap.svnNew = some (svn, rv) → s.tap.upgradeWait = false →
      exec .svnFuseEnd s = .next { s.begun with
        fuses := { s.fuses with minSvn := max s.fuses.minSvn svn, revoked := Nat.lor s.fuses.revoked rv }
        tap := { s.tap with svnBusy := false, svnNew := none, svnResult := 0 } })

/-! ### Line ports (spec/05 R120-R138) -/

/-- A line port is set up: SPLIT_WRITE stores its bits and applies what it can; PORT_ENABLE starts a port whose format is
known and whose reference was present at the release point, and reports any other; PORT_DISABLE stops it and applies pending
splits; ADMIT_SLOTS_WRITE allocates the course's slots again. -/
def Obligations.LinePortsAreSetUp : Prop :=
  ∀ (s : State) (m : Master) (n d : Nat), s.banksHeld → n < 32 → d < 2 ^ 32 →
    let a := Reg.lsdPortCtl.addr [n]
    let on := putBit d 0 true
    let off := putBit d 0 false
    let stored := fun v => s.begun.setWord Reg.lsdPortCtl [n] (storeFields false (s.word Reg.lsdPortCtl [n]) v Reg.lsdPortCtl.fields)
    (bitOf s.glb.lock 2 = false →
      (s.writes m a → (s.port n).running = false → s.portLanes n ≠ 0 →
        (lineFormat (s.portLanes n) (bitsOf d 1 2) (bitsOf d 3 2)).isSome = true → s.refPresent (n / 8) = true →
        exec (.portEnable m n d) s = .next (m.logged a 4 on ((stored on).setPort n { s.port n with
          running := true, lanes := s.portLanes n, laneRate := bitsOf d 1 2, fec := bitsOf d 3 2, anEn := bitOf d 5
          loopback := bitsOf d 6 2, cfgInvalid := false, txEq := s.fld Reg.lsdLaneCtl [n] 4 4, align := false
          localFault := false, remoteFault := false, anDone := false, downSince := some s.now })))
      ∧ (s.writes m a → (s.port n).running = false → s.portLanes n ≠ 0 →
        (lineFormat (s.portLanes n) (bitsOf d 1 2) (bitsOf d 3 2) = none ∨ s.refPresent (n / 8) = false) → s.mild 37 →
        ∃ t, exec (.portEnable m n d) s = .next t
          ∧ Reported 37 (m.logged a 4 on ((stored on).setPort n { s.port n with cfgInvalid := true })) t)
      ∧ (s.writes m a → (s.port n).running = true → (s.port n).linkUp = false → s.packets = [] →
        exec (.portDisable m n d) s = .next (m.logged a 4 off (((stored off).setPort n { s.port n with
          running := false, align := false, localFault := false, remoteFault := false, anDone := false
          downSince := none }).applySplits (n / 8))))
      ∧ (∀ o, o < 4 → s.writes m (Reg.lsdOctetCfg.addr [o]) →
        exec (.splitWrite m o d) s = .next (m.logged (Reg.lsdOctetCfg.addr [o]) 4 d
          ((s.begun.setWord Reg.lsdOctetCfg [o]
            (storeFields false (s.word Reg.lsdOctetCfg [o]) d Reg.lsdOctetCfg.fields)).applySplits o))))
    ∧ (∀ c k, c < 4 → k < 8 → k ≠ 1 → k ≠ 3 → bitOf s.glb.lock 8 = false → s.writes m (Reg.prsAdmitSlots.addr [c, k]) →
      exec (.admitSlotsWrite m c k d) s = .next (m.logged (Reg.prsAdmitSlots.addr [c, k]) 4 d
        ((s.begun.setWord Reg.prsAdmitSlots [c, k]
          (storeFields false (s.word Reg.prsAdmitSlots [c, k]) d Reg.prsAdmitSlots.fields)).allocateSlots c)))

/-- The line link follows what the receive side sees: alignment without fault brings it up and is reported, its loss takes it
down, is counted and reported, and cuts what was being sent; what does not change the link changes the port's view alone
(R122). -/
def Obligations.LineLinksFollow : Prop :=
  ∀ (s : State) (n : Nat), s.banksHeld → s.released = true → s.ready 2 = true → (s.port n).running = true →
    (∀ an : Bool, (s.port n).linkUp = false → ((s.port n).anEn = true → an = true) → bitOf s.bring.readyPort n = true →
      (if s.bit Reg.lsdOctetCfg [n / 8] 8 then s.clocks.lrefb else s.clocks.lrefa) = true → s.mild 35 →
      ∃ t, exec (.lineLinkUp n an) s = .next t ∧ Reported 35 (s.begun.setPort n { s.port n with
        anDone := (s.port n).anEn && an, align := true, localFault := false, remoteFault := false, linkUp := true
        downSince := none, fcPending := (s.port n).fcPending || decide ((s.port n).xoff ≠ 0) }) t)
    ∧ ((s.port n).linkUp = true → (s.port n).rxNow = none → (s.port n).txNow = none → s.mild 36 →
      mapGet 0 s.counters (lsdCounter n 4) + 1 < 2 ^ 47 → n < 32 →
      ∃ t, exec (.lineLinkDown n) s = .next t ∧ Reported 36 (s.begun.setPort n { s.port n with
        align := false, localFault := false, remoteFault := false, linkUp := false, downSince := some s.now
        refreshAt := none }) t)
    ∧ (∀ al lf rf : Bool, ((s.port n).linkUp = (al && !lf && !rf)) →
      (al && !lf && !rf) = false ∨ (bitOf s.bring.readyPort n = true ∧
        (if s.bit Reg.lsdOctetCfg [n / 8] 8 then s.clocks.lrefb else s.clocks.lrefa) = true) →
      exec (.rsFaultChange n al lf rf) s = .next (s.begun.setPort n { s.port n with
        align := al, localFault := al && lf, remoteFault := rf }))

/-- Frames arrive: the first 128 bytes of a frame that passes the early checks are handed to its course while the rest is
awaited; the end of a good frame completes its packet; a PAUSE frame sets every priority's timer.  Beyond that, only counters
and their events change (R126, R127, R134, R135). -/
def Obligations.FramesArrive : Prop :=
  ∀ (s : State) (n : Nat) (bs : List Byte) (code : Bool), s.released = true → s.ready 3 = true → (s.port n).takes = true →
    let cfg := s.word Reg.macPortCfg [n]
    ((s.port n).rxNow = none → 128 ≤ bs.length → isControl bs = false → fabCheck cfg bs = (0, 0) → (s.port n).loopback ≠ 3 →
      s.line.storeLevel.getD (n / 8) 0 + bs.length ≤ 65536 →
      exec (.rxFrameStart n bs code) s = .next (s.close ((s.begun.handOff n cfg bs false).2.setPort n
        { (s.begun.handOff n cfg bs false).2.port n with
          rxNow := some { head := bs, cfg, pkt := some (s.begun.handOff n cfg bs false).1, code } })))
    ∧ (∀ fr p x, (s.port n).rxNow = some fr → fr.pkt = some p → s.pkt p = some x → x.inStore = 0 →
      isControl fr.head = false →
      rxError fr.cfg (fr.head ++ bs).length (fcsGood (fr.head ++ bs)) (decide (fr.err = 36)) (code || fr.code)
        (if fr.err = 36 then 0 else fr.err) = 0 →
      ∃ u, exec (.rxFrameEnd n bs code) s = .next (s.close u)
        ∧ EventFrame ((s.begun.setPort n { s.port n with rxNow := none }).goodEnd p bs (fr.head ++ bs).length) u)
    ∧ ((s.port n).rxNow = none → bs.length = 64 → beAt bs 0 6 = 0x0180C2000001 → beAt bs 12 2 = 0x8808 → beAt bs 14 2 = 1 →
      fcsGood bs = true → s.fcMode n = 1 → 64 ≤ bitsOf cfg 0 14 →
      ∃ u, exec (.rxControlFrame n bs) s = .next (s.close u)
        ∧ EventFrame ((List.range 8).foldl (fun t p => t.setPause n p (beAt bs 16 2)) s.begun) u)

/-- Flow control and transmission: a pause that has run out is released; a flow control frame is sent while the port can
send, and its refresh is planned; one that cannot be sent now waits; a frame whose end has arrived is sent whole with a good FCS
(R129, R135, R136). -/
def Obligations.FramesLeave : Prop :=
  ∀ (s : State) (n : Nat), s.released = true → s.ready 3 = true →
    (∀ p, (s.port n).pauseEnd.getD p 0 ≤ s.now → exec (.pauseTimerExpiry n p) s = .next (s.close (s.begun.setPort n
      { s.port n with pauseEnd := (s.port n).pauseEnd.set p 0 })))
    ∧ ((s.port n).fcPending = true → s.fcCan n = true →
      ∃ u, exec (.pfcFrameSend n) s = .next (s.close u) ∧ .frame n (withFcs (s.fcFrame n) true) ∈ u.out
        ∧ EventFrame (s.begun.setPort n { s.port n with
            fcPending := false
            refreshAt := if (s.port n).xoff = 0 then none else
              some (s.now + s.fld Reg.macPfcCfg [n] 0 16 * 512 / (2 * max 1 (s.port n).format.1)) }) u)
    ∧ (∀ e, (s.port n).refreshAt = some e → e ≤ s.now → (s.port n).xoff ≠ 0 → s.fcCan n = false →
      exec (.pfcRepeat n) s = .next (s.close (s.begun.setPort n { s.port n with fcPending := true, refreshAt := none })))
    ∧ (∀ e, (s.port n).refreshAt = some e → e ≤ s.now → (s.port n).xoff ≠ 0 → s.fcCan n = true →
      ∃ u, exec (.pfcRepeat n) s = .next (s.close u) ∧ .frame n (withFcs (s.fcFrame n) true) ∈ u.out
        ∧ EventFrame (s.begun.setPort n { s.port n with
            fcPending := false
            refreshAt := some (s.now + s.fld Reg.macPfcCfg [n] 0 16 * 512 / (2 * max 1 (s.port n).format.1)) }) u)
    ∧ (∀ p x, (s.port n).txNow = some p → s.pkt p = some x → (s.port n).takes = true → x.settled = true → x.ended = true →
      x.mark.flags.stomp = false → x.mark.flags.tsReq = false →
      ∃ u, exec (.txFrame n) s = .next (s.close (u.removePkt p).settleSto)
        ∧ EventFrame (s.begun.setPort n { s.port n with txNow := none }) u
        ∧ .frame n (withFcs (s.txBytes n x) true) ∈ u.out)
/-! ### Packets on their courses (spec/01 R11, R28, spec/11-spec/14) -/

/-- MARK_CREATION and the parser: a waiting packet that may enter takes a slot of its course and stands at the parser with its
new Mark; one that finds no slot waits on; parsing writes the headers, the hash, the user bits, the flags and the first reason
of R334 and nothing else of the packet, and only counters change beside it; at the end marker, late findings set their flags
and are kept for the end actions (R28, R315-R334). -/
def Obligations.MarksAreMadeAndParsed : Prop :=
  ∀ (s : State) (p : Nat) (x : Packet), s.released = true → s.ready 8 = true → s.pkt p = some x →
    (∀ c, x.stage = .waitSlot → s.entryCourse x.mark = some c → bitOf s.bring.readyCourse c = true →
      s.slotFree c x.mark.entAct = true → x.inStore = 0 → x.item = none → s.csc.ports = [] →
      exec (.markCreation p) s = .next (s.close ((s.begun.takeSlot c x.mark.entAct).setPkt p { x with
        stage := .atParser, slot := true
        mark := { x.mark with ver := 3, act := x.mark.entAct, course := c
                              epoch := if x.fresh then s.rules.epoch else x.mark.epoch } })))
    ∧ (∀ c, x.stage = .waitSlot → s.entryCourse x.mark = some c → s.slotFree c x.mark.entAct = false →
      exec (.markCreation p) s = .next (s.close s.begun))
    ∧ (let f := if x.ended then some x.bytes.length else none
       let w := s.walkFrame x.mark.act x.bytes f
       let cfg := s.word Reg.prsActCfg [x.mark.act.val]
       let fi := findings cfg x.bytes f w
       x.stage = .atParser → w.wait = false → (x.ended = true ∨ x.mark.act = .lrx) →
       (∀ k, k < 64 → s.patMatch k x.mark.act x.bytes f w ≠ none) →
       ∃ u user, exec (.parse p) s = .next (s.close u)
         ∧ EventFrame (s.begun.setPkt p { x with
             stage := .atRules, raw := if x.ended then [] else x.bytes, late := [], bound := w.bound
             mark := { x.mark with
               hdrs := w.hdrs.map (fun h => { typ := h.1, off := h.2 / 2 })
               flags := { x.mark.flags with
                 parseIncomplete := fi.incomplete, malformed := fi.malformed, trailer := fi.trailer
                 csumBad := fi.csumIp4 || fi.csumL4 }
               hash := Nat.xor (crc32cRaw (s.word Reg.prsHashSeed [x.mark.act.val]) (hashKey cfg x.bytes w.hdrs)) 0xFFFFFFFF
               user := user, reason := fi.reason.getD x.mark.reason } }) u)
    ∧ (let fi := findings (s.word Reg.prsActCfg [0]) x.raw (some x.raw.length)
         (s.walkFrame .lrx x.raw (some x.raw.length))
       x.stage = .atRules → x.ended = true → x.raw ≠ [] →
       ∃ u late, exec (.lateFindings p) s = .next (s.close u)
         ∧ EventFrame (s.begun.setPkt p { x with
             raw := [], late := late
             mark := { x.mark with flags := { x.mark.flags with
               malformed := x.mark.flags.malformed || fi.malformed, trailer := x.mark.flags.trailer || fi.trailer
               csumBad := x.mark.flags.csumBad || fi.csumIp4 || fi.csumL4 } } }) u
         ∧ (0x15 ∈ late ↔ fi.malformed = true ∧ x.mark.flags.malformed = false)
         ∧ (0x18 ∈ late ↔ fi.trailer = true ∧ x.mark.flags.trailer = false))

/-- RULE_PASS without a policer: the stages' action words and edits make the Mark, which is resolved and handed to forwarding:
a dropped one keeps its reason or takes 0x20, one to be recirculated goes to port 44, one with an exception while XPE is not
ready is dropped.  LATE_VERDICT with no verdict forgets the findings.  LIMITER_REFILL adds each limiter's rate, capped at its
burst (R342-R353, R358, R359). -/
def Obligations.RulesAreApplied : Prop :=
  ∀ s : State, s.released = true → s.ready 9 = true →
    (∀ p x, s.pkt p = some x → x.stage = .atRules →
      let img := s.imageOf x.mark.epoch
      let o := stages img x 9 (bitsOf img.start (4 * x.mark.act.val) 4) 0 { mark := x.mark }
      let e : Edited := o.edits.foldl s.begun.applyEdit { mark := o.mark, bytes := x.bytes, bound := x.bound }
      let done := fun m : Mark => s.begun.setPkt p { x with mark := m, bytes := e.bytes, bound := e.bound, stage := .atForward }
      o.wait = false → s.policerOf e.mark o.meter = none →
      ∃ u, exec (.rulePass p) s = .next (s.close u)
        ∧ (e.mark.flags.drop = true → EventFrame (done { e.mark with
            reason := if e.mark.reason = 0 then 0x20 else e.mark.reason
            flags := { e.mark.flags with exception := false, recirc := false } }) u)
        ∧ (e.mark.flags.drop = false → e.mark.flags.exception = false → e.mark.flags.recirc = false →
          EventFrame (done e.mark) u)
        ∧ (e.mark.flags.drop = false → e.mark.flags.exception = false → e.mark.flags.recirc = true →
          EventFrame (done { e.mark with dstPort := globalPort s.moduleId 44 }) u)
        ∧ (e.mark.flags.drop = false → e.mark.flags.exception = true → s.ready 17 = false →
          EventFrame (done { e.mark with
            reason := if e.mark.reason = 0 then 0x21 else e.mark.reason
            flags := { e.mark.flags with drop := true } }) u))
    ∧ (∀ p x, s.pkt p = some x → x.late ≠ [] → x.stage ≠ .atRules →
      (x.mark.flags.drop = true ∨ ∀ c ∈ x.late, lateVerdictOf (s.imageOf x.mark.epoch).defaults c = 0) →
      exec (.lateVerdict p) s = .next (s.close (s.begun.setPkt p { x with late := [] })))
    ∧ (s.now % 1000 = 0 →
      ∃ u, exec .limiterRefill s = .next (s.close u)
        ∧ u = { s.begun with rules := { s.rules with limiters := u.rules.limiters } }
        ∧ ∀ l, l < 32 → mapGet {} u.rules.limiters l = { mapGet {} s.rules.limiters l with
            tokens := min ((mapGet ({} : ExcLimiter) s.rules.limiters l).tokens + s.fld Reg.clsExcLim [l] 0 16)
              (s.fld Reg.clsExcLim [l] 16 12 * 1000) })
    ∧ (s.now % 1000 ≠ 0 → exec .limiterRefill s = .next (s.close s.begun))

/-- FORWARDING_LOOKUP with learning off: a Mark already discarded, excepted or recirculated passes on unchanged; one that no
table of its class's profile is asked for and whose miss action is discard is dropped with 0x40.  A learn record that has lived
its window goes; an aging visit clears a hit, and with no hit gives notice and removes the entry where the table's bit says so
(R377, R395, R397). -/
def Obligations.ForwardingAndAging : Prop :=
  ∀ s : State, s.released = true → s.ready 10 = true →
    (∀ p x, s.pkt p = some x → x.stage = .atForward → bitOf (s.word Reg.fwdClassProf [x.mark.cls]) 8 = false →
      (x.mark.flags.drop = true ∨ x.mark.flags.exception = true ∨ x.mark.flags.recirc = true →
        exec (.forwardingLookup p) s = .next (s.close (s.begun.setPkt p { x with stage := .atTunnel, passBy := false })))
      ∧ (x.mark.flags.drop = false → x.mark.flags.exception = false → x.mark.flags.recirc = false →
        x.mark.entAct ≠ .cas → s.bit Reg.cscShardClass [x.mark.cls] 0 = false →
        bitsOf (s.word Reg.fwdClassProf [x.mark.cls]) 0 5 = 0 → s.ready 16 = false →
        bitsOf (s.word Reg.fwdClassProf [x.mark.cls]) 10 2 = 1 →
        ∃ u, exec (.forwardingLookup p) s = .next (s.close u)
          ∧ EventFrame (s.begun.setPkt p { x with
              stage := .atTunnel, passBy := false, mark := x.mark.dropLate 0x40 }) u))
    ∧ (∀ d a, exec (.learnRecordExpiry d a) s = .next (s.close { s.begun with fwd := { s.fwd with
        filter := s.fwd.filter.filter (fun r =>
          !(decide (r.domain = d) && decide (r.addr = a) && decide (r.expires ≤ s.now))) } }))
    ∧ (∀ i e, mapFind s.fwd.flows i = some e → e.ageEn = true → s.fld Reg.fwdAgeCfg [] 16 16 ≠ 0 →
      (e.hit = true → exec (.agingVisit true i) s = .next (s.close (s.begun.setFlow i { e with hit := false })))
      ∧ (e.hit = false → s.bit Reg.fwdTblCfg [] 1 = false → exec (.agingVisit true i) s =
          .next (s.close (s.begun.fwdNotice 4 (regionOfFlow i) 7 (flowHandle i) (destPort e.dest) 0))))
    ∧ (∀ i e, i < 2097152 → s.fwd.emAt (.slot i) = some e → e.ageEn = true → s.fld Reg.fwdAgeCfg [] 0 16 ≠ 0 →
      e.static = false → e.hit = true → exec (.agingVisit false i) s =
        .next (s.close { s.begun with fwd := s.fwd.emWrite (.slot i) { e with hit := false } }))

/-- TUNNEL_STAGE and CRYPTO_STAGE: a Mark that is discarded, excepted or passed by, or whose class asks for neither
decapsulation nor encapsulation, is handed on as it is, in order; a packet without an SA passes crypto; one whose SA is in the
cache, with nothing of that SA ahead, is worked on in its lane; and an SA that arrives from HBM goes into the cache and its
waiting packet is worked on, or, where its wrap fails, discarded with 0x67 and reported (R409, R411, R425-R434). -/
def Obligations.TunnelAndCrypto : Prop :=
  ∀ (s : State) (p : Nat) (x : Packet), s.released = true → s.ready 11 = true → s.ready 12 = true → s.pkt p = some x →
    (x.stage = .atTunnel →
      (x.mark.flags.drop = true ∨ x.mark.flags.exception = true ∨ x.passBy = true
        ∨ (bitOf (s.word Reg.tunClassProf [x.mark.cls]) 0 = false
            ∧ encapEntry (s.word Reg.tunClassProf [x.mark.cls]) x.mark = none)) →
      exec (.tunnelStage p) s = .next (s.close { s.begun.setPkt p { x with stage := .atCrypto, order := s.nextPkt } with
        nextPkt := s.nextPkt + 1 }))
    ∧ (x.stage = .atCrypto →
      (x.mark.flags.drop = true ∨ x.mark.flags.exception = true ∨ x.passBy = true ∨ (s.effSa x).1 = 0) →
      exec (.cryptoStage p) s = .next (s.close (s.begun.setPkt p { x with stage := .atStorage })))
    ∧ (∀ l, let i := (s.effSa x).1
        let y := { x with mark := { x.mark with sa := i }, spiHit := (s.effSa x).2 }
        x.stage = .atCrypto → x.ended = true → x.mark.flags.drop = false → x.mark.flags.exception = false →
        x.passBy = false → i ≠ 0 → i < 4194304 → s.laneOf i = some l → s.cry.cache.contains i = true →
        (∀ k, k < 8 → (s.lane k).miss = []) → (∀ q ∈ s.packets, q.1 ≠ p → q.2.stage ≠ .atCrypto) →
        exec (.cryptoStage p) s = .next (s.close
          ((((s.begun.setPkt p y).count (cryCounter l 5) 1).touchSa i).laneWork l p i (s.effSa x).2 y)))
    ∧ (∀ l i, l < 8 → x.stage = .atCrypto → x.mark.sa = i → s.cry.lanes.length = 8 → (s.lane l).miss = [p] →
        (∀ k, k < 8 → k ≠ l → (s.lane k).miss = []) →
        ((s.sa i).wrapDead = false → s.cry.cache.length < 65536 → exec (.saCacheFill i true) s = .next (s.close
          (((s.begun.setLane l { s.lane l with miss := [] }).touchSa i).laneWork l p i x.spiHit x)))
        ∧ exec (.saCacheFill i false) s = .next (s.close
          (((s.begun.setLane l { s.lane l with miss := [] }).cryDrop l p 0x67).raise 278 i (some
            (((s.begun.setLane l { s.lane l with miss := [] }).cryDrop l p 0x67).sa i).owner))))
/-! ### Storage and transport (spec/15 R448-R483) -/

/-- The command set of STO: CTX_WRITE of a new UD context with no bound queue stores it in INIT with its PSNs and its owner's
generation; CTX_READ returns the image; CTX_MODIFY moves RTR to RTS and RESET to INIT with the PSNs set again, and ends with
INVALID for a state that the table does not list; CTX_DESTROY of a context with nothing bound removes it, and is BUSY in RTS;
KEY_WRITE, KEY_DELETE, PATH_WRITE and CONN_RESYNC change their entries; every one ends with BUSY until MEM is ready (spec/15
R453, R477, R482). -/
def Obligations.TransportCommands : Prop :=
  ∀ (s : State) (m : Master) (set c : Nat), set < 5 → (set = 4 → m.isFw = true) →
    let a := blockBase 13 + 0x5000 + 0x100 * set
    let w := fun op => op + c % 2 ^ 21 * 16
    let fin := fun (op r : Nat) (u : State) => Host.Outcome.next (φ := Fault) (ρ := Refusal) (s.close (m.logged a 4 (w op)
      { u with sto := { u.sto with sets := setNth u.sto.sets set { busy := false, result := r } } }).settleSto)
    s.writes m a → (s.sto.sets.getD set {}).busy = false → c < 2097152 →
    (s.ready 16 = false →
      exec (.ctxWrite m set c) s = fin 1 1 s.begun ∧ exec (.ctxRead m set c) s = fin 2 1 s.begun
      ∧ exec (.ctxModify m set c) s = fin 3 1 s.begun ∧ exec (.ctxDestroy m set c) s = fin 4 1 s.begun
      ∧ exec (.keyWrite m set c) s = fin 5 1 s.begun ∧ exec (.keyDelete m set c) s = fin 6 1 s.begun
      ∧ exec (.pathWrite m set c) s = fin 7 1 s.begun ∧ exec (.connResync m set c) s = fin 8 1 s.begun)
    ∧ (s.ready 16 = true →
      let ws := (List.range 16).map (fun k => s.word Reg.stoCmdArg [set, k])
      let own := bitsOf (ws.getD 0 0) 8 12
      let new : Ctx :=
        { kind := .ud, valid := true, state := .init, ownerGen := (s.inst own).gen, words := ws
          sPsn := bitsOf (ws.getD 4 0) 0 24, sendAt := bitsOf (ws.getD 4 0) 0 24, unack := bitsOf (ws.getD 4 0) 0 24
          ePsn := bitsOf (ws.getD 5 0) 0 24, rc := (s.word Reg.stoCc2 [] : Nat), rt := (s.word Reg.stoCc2 [] : Nat)
          alphaAt := s.now, incrAt := s.now, tcpSeq := ws.getD 9 0 }
      let x := s.ctx c
      let mine := c < 1048576 ∧ x.valid = true ∧ s.stoOnFace m set x.owner = true
      (2 ≤ c → c < 1048576 → s.stoOnFace m set own = true → own ≤ 2051 → x.valid = false →
        bitsOf (ws.getD 0 0) 0 2 = 2 → bitsOf (ws.getD 1 0) 14 2 = 0 →
        (1 ≤ bitsOf (ws.getD 2 0) 16 3 ∧ bitsOf (ws.getD 2 0) 16 3 ≤ 5) → bitOf s.fuses.features 3 = true →
        bitsOf (ws.getD 10 0) 2 2 = 0 → s.ctxsOf own c < 1024 * (s.inst own).grant.qpUnits →
        exec (.ctxWrite m set c) s = fin 1 0 ((s.begun.withdrawCtx c).setCtx c new))
      ∧ (c < 2 → exec (.ctxWrite m set c) s = fin 1 2 s.begun)
      ∧ (mine → exec (.ctxRead m set c) s = fin 2 0
          ((List.range 16).foldl (fun t k => t.setWord Reg.stoCmdArg [set, k] (x.image.getD k 0)) s.begun))
      ∧ (mine → s.ctxLive x = true → x.kind ≠ .nvt → x.state = .rtr → bitsOf (ws.getD 0 0) 0 3 = 3 →
          exec (.ctxModify m set c) s = fin 3 0 (s.begun.setCtx c { x with state := .rts }))
      ∧ (mine → s.ctxLive x = true → x.kind ≠ .nvt → x.state = .reset → bitsOf (ws.getD 0 0) 0 3 = 1 →
          exec (.ctxModify m set c) s = fin 3 0 (s.begun.setCtx c { x with
            state := .init, sPsn := bitsOf (x.words.getD 4 0) 0 24, sendAt := bitsOf (x.words.getD 4 0) 0 24
            unack := bitsOf (x.words.getD 4 0) 0 24, ePsn := bitsOf (x.words.getD 5 0) 0 24, msn := 0, retries := 0, rnrs := 0
            nakSent := false }))
      ∧ (mine → s.ctxLive x = true → x.kind ≠ .nvt → x.state = .init → bitsOf (ws.getD 0 0) 0 3 = 3 →
          exec (.ctxModify m set c) s = fin 3 2 s.begun)
      ∧ (mine → s.ctxLive x = true → x.kind ≠ .nvt → x.state = .rts → exec (.ctxDestroy m set c) s = fin 4 1 s.begun)
      ∧ (mine → (x.kind = .nvt ∨ x.state = .reset ∨ x.state = .error) → x.sq = none →
          let u := s.begun.withdrawCtx c
          exec (.ctxDestroy m set c) s = fin 4 0 { u with sto := { u.sto with
            ctxs := mapErase u.sto.ctxs c, cache := u.sto.cache.filter (· ≠ c) } })
      ∧ (let k := s.keyArg set
        k.owner ≤ 2051 → s.stoOnFace m set k.owner = true → (mapGet ({} : MemKey) s.sto.keys c).valid = false →
        k.len ≠ 0 → s.keysOf k.owner c < 2048 * (s.inst k.owner).grant.qpUnits →
        exec (.keyWrite m set c) s = fin 5 0 { s.begun with sto := { s.sto with keys := mapSet {} s.sto.keys c k } })
      ∧ (let k := mapGet ({} : MemKey) s.sto.keys c
        (k.valid = true → s.stoOnFace m set k.owner = true →
          exec (.keyDelete m set c) s = fin 6 0 { s.begun with sto := { s.sto with keys := mapErase s.sto.keys c } })
        ∧ (k.valid = false → exec (.keyDelete m set c) s = fin 6 5 s.begun))
      ∧ (let po := bitsOf (ws.getD 12 0) 0 12
        (c < 65536 → po ≤ 2051 → s.stoOnFace m set po = true → (s.path c).valid = false →
          exec (.pathWrite m set c) s = fin 7 0 { s.begun with sto := { s.sto with
            paths := mapSet {} s.sto.paths c { words := ws, ownerGen := (s.inst po).gen, valid := true } } })
        ∧ (65536 ≤ c → exec (.pathWrite m set c) s = fin 7 2 s.begun))
      ∧ (mine → s.ctxLive x = true →
          (x.kind = .nvt → x.nvt = .resync →
            exec (.connResync m set c) s = fin 8 0 (s.begun.setCtx c { x with resync := some (ws.getD 0 0) }))
          ∧ (x.nvt = .track → exec (.connResync m set c) s = fin 8 2 s.begun)))

/-- The timers of a context: a delayed ACK acknowledges the PSN before the expected one; the acknowledgement timer resends from
the oldest unacknowledged PSN and counts a retry, or tears the context down with RETRY_EXCEEDED once retry_cnt are spent; an RNR
wait ends; alpha decays by 1 - g_q8/256; an increase event moves Rc half way to Rt (spec/15 R460, R461, R467). -/
def Obligations.TransportTimers : Prop :=
  ∀ (s : State) (c : Nat), s.released = true → s.ready 13 = true →
    let x := s.ctx c
    (∀ e, x.delayEnd = some e → e ≤ s.now → s.ctxLive x = true →
      exec (.delayedAck c) s = .next (s.close
        ((s.begun.setCtx c { x with delayEnd := none }).sendAck c 0x1F ((x.ePsn + 2 ^ 24 - 1) % 2 ^ 24)).settleSto))
    ∧ (∀ e, x.ackEnd = some e → e ≤ s.now → s.ctxLive x = true → x.unack ≠ x.sPsn →
      (x.retries < bitsOf (x.words.getD 2 0) 24 3 →
        exec (.ackTimerExpiry c) s = .next (s.close
          ((s.begun.dropOuts c).setCtx c { (s.begun.dropOuts c).ctx c with
            sendAt := x.unack, retries := ((s.begun.dropOuts c).ctx c).retries + 1, ackEnd := none }).settleSto))
      ∧ (bitsOf (x.words.getD 2 0) 24 3 ≤ x.retries →
        exec (.ackTimerExpiry c) s = .next (s.close
          (s.begun.teardown c ((x.msgAt x.unack).map (fun g => (g.first, 0x21)))).settleSto)))
    ∧ (∀ e, x.rnrEnd = some e →
      (e ≤ s.now → exec (.rnrWaitEnd c) s = .next (s.close (s.begun.setCtx c { x with rnrEnd := none }).settleSto))
      ∧ (s.now < e → exec (.rnrWaitEnd c) s = .next (s.close s.begun.settleSto)))
    ∧ (x.valid = true → x.alphaAt + 1000 * s.fld Reg.stoCc1 [] 0 16 ≤ s.now →
      exec (.alphaTimer c) s = .next (s.close (s.begun.setCtx c { x with
        alpha := (1 - (s.fld Reg.stoCc0 [] 0 8 : Rat) / 256) * x.alpha, alphaAt := s.now })))
    ∧ (x.valid = true → x.incrAt + 1000 * s.fld Reg.stoCc1 [] 16 16 ≤ s.now → x.stage < s.fld Reg.stoCc0 [] 8 8 →
      x.incrBytes < 1024 * s.word Reg.stoCc5 [] →
      exec (.increaseEvent c) s = .next (s.close (s.begun.setCtx c { x with
        rc := (x.rt + x.rc) / 2, stage := x.stage + 1, incrAt := s.now })))

/-- Packets of the engine: STO_RX_PACKET passes on what its class leaves alone, discards a packet for a context that is not
valid with STO_NO_CTX, answers a PSN ahead with one NAK and discards it with STO_PSN, and acknowledges a duplicate; STO_SEND
hands in a packet whose payload is there and that Rc allows; DDP_SETUP records a command's buffer, or completes with DDP_FULL;
DDP_TEARDOWN removes it once no placement is in flight (spec/15 R448, R457-R460, R467-R469). -/
def Obligations.TransportPackets : Prop :=
  ∀ s : State, s.released = true → s.ready 13 = true →
    (∀ p x, s.pkt p = some x → x.stage = .atStorage →
      let prof := s.word Reg.stoClassProf [x.mark.cls]
      let o := (x.mark.heads.getLastD (0, 0)).2
      let r := roceParts x.mark x.bytes o
      let t := s.begun.touchCtx r.dest
      let y := t.ctx r.dest
      let roce := bitOf prof 0 = true ∧ (x.mark.heads.getLastD (0, 0)).1 = 21 ∧ x.passBy = false
        ∧ x.mark.flags.drop = false ∧ x.mark.flags.exception = false ∧ x.ended = true
      let mine := roce ∧ 2 ≤ r.dest ∧ r.dest < 1048576 ∧ (bitOf prof 2 = true → icrcGood x.mark x.bytes o = true)
        ∧ (s.ctx r.dest).valid = true ∧ (s.ctx r.dest).kind = .rc ∧ t.genOk y.owner y.ownerGen = true
        ∧ (x.mark.inst = noInst ∨ x.mark.inst = y.owner) ∧ (y.state = .rtr ∨ y.state = .rts) ∧ r.ce = false ∧ r.op ≤ 0x0B
      (x.passBy = true ∨ x.mark.flags.drop = true ∨ x.mark.flags.exception = true
          ∨ (bitOf prof 0 = false ∧ bitOf prof 1 = false) ∨ (roce ∧ (r.dest < 2 ∨ 1048576 ≤ r.dest)) →
        exec (.stoRxPacket p) s = .next (s.close (s.begun.setPkt p { x with stage := .atBuffer }).settleSto))
      ∧ (roce → 2 ≤ r.dest → r.dest < 1048576 → (bitOf prof 2 = true → icrcGood x.mark x.bytes o = true) →
        (s.ctx r.dest).valid = false →
        exec (.stoRxPacket p) s = .next (s.close (t.stoDrop p 0x70).settleSto))
      ∧ (roce → 2 ≤ r.dest → r.dest < 1048576 → bitOf prof 2 = true → icrcGood x.mark x.bytes o = false →
        exec (.stoRxPacket p) s = .next (s.close (t.stoDrop p 0x71).settleSto))
      ∧ (mine → 0 < sub24 r.psn y.ePsn → sub24 r.psn y.ePsn < 2 ^ 23 → y.nakSent = true →
        exec (.stoRxPacket p) s = .next (s.close (t.stoDrop p 0x72).settleSto))
      ∧ (mine → 2 ^ 23 ≤ sub24 r.psn y.ePsn →
        exec (.stoRxPacket p) s = .next (s.close
          ((t.sendAck r.dest 0x1F ((y.ePsn + 2 ^ 24 - 1) % 2 ^ 24)).stoTaken p).settleSto)))
    ∧ (∀ c, let t := s.begun.touchCtx c
      let y := t.ctx c
      s.ctxLive (s.ctx c) = true → (s.ctx c).kind ≠ .nvt → ((s.ctx c).state = .rtr ∨ (s.ctx c).state = .rts) →
      (∀ o os, y.outs = o :: os → o.reads = 0 → (y.ccEn = false ∨ y.nextSend ≤ (s.now : Rat)) →
        exec (.stoSend c) s = .next (s.close (t.handOut c o).settleSto))
      ∧ (y.outs = [] → y.reads ≠ [] → exec (.stoSend c) s = .next (s.close (t.prepareResp c).settleSto))
      ∧ (y.outs = [] → y.reads = [] → (s.ctx c).state = .rtr → exec (.stoSend c) s = .next (s.close t.settleSto)))
    ∧ (∀ c q i, s.ddpItem c 1 = some (q, i) →
      let t := s.begun.touchCtx c
      let y := t.ctx c
      let cid := bitsOf (leAt i.head 16 4) 0 16
      let rest := y.ddp.filter (fun e => decide (e.cid ≠ cid))
      (256 ≤ rest.length → exec (.ddpSetup c) s =
        .next (s.close (t.setItem q { i with phase := .ended, status := 0x2E, toAdmit := 0 }).settleSto))
      ∧ (rest.length < 256 → exec (.ddpSetup c) s = .next (s.close
        ((t.setCtx c { y with ddp := rest ++ [{ cid, segs := i.segs.map (fun g => (g.1, g.2.1)), refTag := leAt i.head 20 4 }] }).setItem
          q { i with phase := .ended, status := 0, toAdmit := 0 }).settleSto)))
    ∧ (∀ c q i, s.ddpItem c 2 = some (q, i) →
      let t := s.begun.touchCtx c
      let y := t.ctx c
      let cid := bitsOf (leAt i.head 16 4) 0 16
      y.pdu.cid ≠ some cid → (∀ g ∈ y.placing, g.cid ≠ some cid) →
      exec (.ddpTeardown c) s = .next (s.close
        ((t.setCtx c { y with ddp := y.ddp.filter (fun e => decide (e.cid ≠ cid)) }).setItem
          q { i with phase := .ended, status := 0, toAdmit := 0 }).settleSto))
/-! ### The packet buffer and the scheduler (spec/16, spec/17, spec/12 R355-R357) -/

/-- BUFFER_ADMISSION and ADMISSION_RETRY of a whole packet for a line port, not mirrored: where R492's ingress and egress tests
pass it is charged ceil(len / 256) cells on both sides and queued in its port's default queue; a lossy line packet over its
ingress threshold is discarded and counted as BUF_INGRESS_FULL; any other refused original waits, is tested again, and is
discarded once max_wait has passed; one whose class discards it ends.  CHARGE_CORRECTION returns the cells that the true length
does not need (R484-R493, R512, R514). -/
def Obligations.PacketsAreAdmitted : Prop :=
  ∀ (s : State) (p : Nat) (x : Packet), s.released = true → s.ready 15 = true → s.pkt p = some x → x.ended = true →
    (let n := portLocal x.mark.dstPort
      let pri := s.fld Reg.bufClassMap [x.mark.cls] 0 3
      let c := (x.mark.len + 255) / 256
      let i : IngUnit := if x.mark.entAct = .lrx then .pg (portLocal x.mark.srcPort) pri else .act x.mark.entAct
      let e : EgUnit := .line n pri
      let q := s.fld Reg.tmsExitCfg [n] 8 12 + pri
      let fs := s.sharedFree
      let ing := s.ingUsed i + c ≤ s.ingRsv i + thr (s.ingAlpha i) fs ∧ c ≤ fs + (s.ingRsv i - s.ingUsed i)
      let eg := s.egUsed e + c ≤ max (bitsOf (s.egCfg e) 0 16) (thr (bitsOf (s.egCfg e) 16 4) (262144 - s.buf.used))
      let lossless := match i with | .pg k g => s.lossless k g | .act _ => false
      let queued := fun (u : State) (m : Mark) =>
        (∃ y, u.pkt p = some y ∧ y.stage = .queued ∧ y.eg = e ∧ y.ing = i ∧ y.txq = q ∧ y.egCells = c ∧ y.ingCells = c
          ∧ y.hdrmCells = 0 ∧ y.bytes = x.bytes ∧ y.mark = m ∧ y.admitted = s.now)
        ∧ u.buf.used = s.buf.used + c ∧ u.egUsed e = s.egUsed e + c ∧ u.ingUsed i = s.ingUsed i + c
        ∧ ∀ r, r ≠ p → u.pkt r = s.pkt r
      let plain := portModule x.mark.dstPort = s.moduleId ∧ n < 32 ∧ s.lineShut n = false ∧ x.mark.flags.mirror = false
        ∧ x.mark.flags.drop = false ∧ x.mark.queue = 0 ∧ x.ingCells = 0 ∧ x.hdrmCells = 0 ∧ x.egCells = 0 ∧ x.copy = false
        ∧ s.familyHolds p x = false ∧ s.tms.groupKept = [] ∧ s.tms.exitKept = [] ∧ q ≤ 4095 ∧ s.groupExit (s.tqGroup q) = n
        ∧ bitsOf (s.egCfg e) 20 3 = 0
      (plain → x.stage = .atBuffer → ing → (lossless = true ∨ eg) →
        ∃ u : State, exec (.bufferAdmission p) s = .next (s.close u.settleSto) ∧ queued u { x.mark with act := .ltx })
      ∧ (plain → x.stage = .atBuffer → x.mark.entAct = .lrx → lossless = false → ¬ ing →
        ∃ u : State, exec (.bufferAdmission p) s = .next (s.close u.settleSto) ∧ u.pkt p = none
          ∧ mapGet 0 u.counters (bufCounter 2) = (mapGet 0 s.counters (bufCounter 2) + 1) % 2 ^ 48
          ∧ ∀ r, r ≠ p → u.pkt r = s.pkt r)
      ∧ (plain → x.stage = .atBuffer → ∀ a, i = .act a → a ≠ .recirc → ¬ (ing ∧ eg) →
        ∃ u : State, exec (.bufferAdmission p) s = .next (s.close u.settleSto)
          ∧ u.pkt p = some { x with stage := .bufWait, eg := e, ing := i, txq := q, since := s.now
                                    mark := { x.mark with act := .ltx } }
          ∧ mapGet 0 u.counters (bufCounter 16) = (mapGet 0 s.counters (bufCounter 16) + 1) % 2 ^ 48)
      ∧ (plain → x.stage = .bufWait → x.eg = e → x.txq = q → ing → (lossless = true ∨ eg) →
        ∃ u : State, exec (.admissionRetry p) s = .next (s.close u) ∧ queued u x.mark)
      ∧ (plain → x.stage = .bufWait → x.eg = e → ∀ a, i = .act a → a ≠ .recirc → ¬ (ing ∧ eg) →
        exec (.admissionRetry p) s = .next (s.close s.begun)))
    ∧ (x.stage = .atBuffer → x.mark.flags.mirror = false → x.mark.flags.drop = true →
      exec (.bufferAdmission p) s = .next (s.close ((s.begun.setPkt p x).dropPkt p).settleSto))
    ∧ (x.stage = .bufWait →
      (s.now < x.since + s.fld Reg.bufIngWait [x.mark.entAct.val] 0 12 →
        exec (.bufWaitExpiry p) s = .next (s.close s.begun))
      ∧ (x.since + s.fld Reg.bufIngWait [x.mark.entAct.val] 0 12 ≤ s.now →
        ∃ u : State, exec (.bufWaitExpiry p) s = .next (s.close u) ∧ u.pkt p = none
          ∧ mapGet 0 u.counters (bufCounter 5) = (mapGet 0 s.counters (bufCounter 5) + 1) % 2 ^ 48))
    ∧ (let c := (x.mark.len + 255) / 256
      x.stage = .queued → x.prov = true → x.raw = [] → x.late = [] → s.family p x = [] → x.hdrmCells = 0 → c ≤ x.ingCells →
      c ≤ x.egCells → x.egCells ≤ s.egUsed x.eg → x.ingCells ≤ s.buf.used →
        ∃ u : State, exec (.chargeCorrection p) s = .next (s.close u)
          ∧ u.pkt p = some { x with prov := false, egCells := c, ingCells := c, since := s.now }
          ∧ u.buf.used + (x.ingCells - c) = s.buf.used ∧ u.egUsed x.eg + (x.egCells - c) = s.egUsed x.eg)

/-- What becomes of packets that the buffer holds: XOFF follows R495; MARK_AGE_SCAN discards the queued packets whose age has
reached 2^31 ticks and no other; a host packet is discarded when its hold time has passed; a spilled packet moves to HBM, frees
its cells, and is read back or discarded with BUF_SPILL_ERROR; a shut port's queued packets are discarded; PEAK_CLEAR sets the
peak to the cells in use (R17, R495, R500-R503, R506). -/
def Obligations.PacketsAreHeld : Prop :=
  ∀ s : State, s.released = true → s.ready 15 = true →
    (∀ n p, n < 32 → p < 8 →
      let g := s.pg n p
      let lim := g.rsv + thr (s.fld Reg.bufPgCtl [n, p] 0 4) s.sharedFree
      ∃ u : State, exec (.xoffEvaluation n p) s = .next (s.close u)
        ∧ (s.lossless n p = false → u.pg n p = { g with xoff := false })
        ∧ (s.lossless n p = true → 0 < g.hdrmUsed ∨ lim ≤ g.used → u.pg n p = { g with xoff := true })
        ∧ (s.lossless n p = true → g.hdrmUsed = 0 → g.used < lim → g.used + s.fld Reg.bufPgCtl [n, p] 8 16 ≤ lim →
            u.pg n p = { g with xoff := false })
        ∧ (s.lossless n p = true → g.hdrmUsed = 0 → g.used < lim → lim < g.used + s.fld Reg.bufPgCtl [n, p] 8 16 →
            u.pg n p = g)
        ∧ (u.port n).xoff = u.portXoff n ∧ u.packets = s.packets)
    ∧ (keysRise s.packets = true → ∃ u : State, exec .markAgeScan s = .next (s.close u.settleSto)
      ∧ ∀ p x, s.pkt p = some x →
        (x.stage = .queued ∧ 2 ^ 31 ≤ markAge s.now x.mark.ts → u.pkt p = none)
        ∧ (¬ (x.stage = .queued ∧ 2 ^ 31 ≤ markAge s.now x.mark.ts) →
            ∃ y, u.pkt p = some y ∧ y.mark = x.mark ∧ y.bytes = x.bytes ∧ y.stage = x.stage))
    ∧ (∀ p x q, s.pkt p = some x → x.stage = .queued → x.eg = .rxq q →
      let ms := s.fld Reg.bufHrxProf1 [s.fld Reg.bufHrxQprof [q] 0 4] 0 16
      (ms = 0 ∨ s.now < x.admitted + 1000000 * ms → exec (.hrxHoldExpiry p) s = .next (s.close s.begun))
      ∧ (ms ≠ 0 → x.admitted + 1000000 * ms ≤ s.now →
        (s.buf.holdAt = none → exec (.hrxHoldExpiry p) s = .next (s.close
          (({ s.begun with buf := { s.buf with holdAt := some s.now } }.raise 359 q (some x.mark.inst)).dropBuf p 0x85)))
        ∧ (∀ t, s.buf.holdAt = some t → s.now < t + 1000000 →
          exec (.hrxHoldExpiry p) s = .next (s.close (s.begun.dropBuf p 0x85)))))
    ∧ (∀ p x q, s.pkt p = some x → x.stage = .queued → x.eg = .rxq q →
      (x.spill = true → x.inHbm = false → x.prov = false → s.buf.spillEn = true → bitOf s.fuses.features 7 = true →
        s.ready 16 = true →
        ∃ u : State, exec (.spillMove p) s = .next (s.close u)
          ∧ u.pkt p = some { x with inHbm := true, egCells := 0, ingCells := 0, hdrmCells := 0 }
          ∧ mapGet 0 u.buf.spilled q = mapGet 0 s.buf.spilled q + (x.mark.len + 255) / 256
          ∧ u.egUsed (.rxq q) = s.egUsed (.rxq q) - x.egCells)
      ∧ (x.inHbm = true → (s.queue (queueKey true q)).state = .running → s.genOk x.mark.inst x.mark.gen = true →
        exec (.spillReadback p true) s = .next (s.close ((s.begun.raise 358 q (some x.mark.inst)).dropBuf p 0x87))
        ∧ ∃ u : State, exec (.spillReadback p false) s = .next (s.close u)
          ∧ u.pkt p = some { x with inHbm := false, spill := false }
          ∧ mapGet 0 u.buf.spilled q = mapGet 0 s.buf.spilled q - (x.mark.len + 255) / 256))
    ∧ (∀ n, n < 32 → keysRise s.packets = true →
      (s.lineShut n = false → exec (.portDownFlush n) s = .next (s.close s.begun.settleSto))
      ∧ (s.lineShut n = true → ∃ u : State, exec (.portDownFlush n) s = .next (s.close u.settleSto)
        ∧ ∀ p x, s.pkt p = some x →
          (x.stage = .queued ∧ (∃ g, x.eg = .line n g) → u.pkt p = none)
          ∧ (¬ (x.stage = .queued ∧ ∃ g, x.eg = .line n g) → ∃ y, u.pkt p = some y ∧ y.mark = x.mark ∧ y.bytes = x.bytes)))
    ∧ (∀ m d, s.banksHeld → s.writes m (blockBase 15 + 4) → d < 2 ^ 32 →
      (bitOf d 31 = true → exec (.peakClear m d) s =
        .next (m.logged (blockBase 15 + 4) 4 d { s.begun with buf := { s.buf with peak := s.buf.used } }))
      ∧ (bitOf d 31 = false → exec (.peakClear m d) s = .next (m.logged (blockBase 15 + 4) 4 d s.begun)))

/-- The scheduler: the recirculation port takes its oldest whole packet, whose next pass begins; a packet that has waited 4,000
ticks for a REC slot ends; EXIT_SELECT starts the one eligible head of a line port, and takes none where nothing waits; a
cut-through correction returns the difference; a refill follows R523; arming a valid list that is not operative makes it pending,
any other list is refused and reported, and the pending list becomes operative where its cycle starts (spec/12 R355, R357,
spec/17 R518, R520-R524, R533). -/
def Obligations.ExitsAreServed : Prop :=
  ∀ s : State, s.released = true → s.ready 14 = true →
    (∀ p x, s.oldestAt .recirc = some (p, x) → s.pkt p = some x → x.prov = false → x.ended = true →
      (s.genOk x.mark.inst x.mark.gen = true → markAge s.now x.mark.ts < 2 ^ 31 →
        ∃ (u : State) (y : Packet), exec (.recircTake p) s = .next (s.close u) ∧ u.pkt p = some y ∧ y.stage = .waitSlot ∧ y.egCells = 0
          ∧ y.ingCells = 0 ∧ y.fresh = false ∧ y.bytes = x.bytes
          ∧ y.mark = { x.mark with act := .recirc, entAct := .recirc, pass := x.mark.pass + 1
                                   flags := { x.mark.flags with recirc := false } })
      ∧ (s.genOk x.mark.inst x.mark.gen = false →
        exec (.recircTake p) s = .next (s.close ((s.begun.count (tmsCounter 44 4) 1).dropPkt p))))
    ∧ (∀ p x, s.pkt p = some x → x.prov = false → x.stage = .waitSlot → x.mark.entAct = .recirc →
      (x.since + 4000 ≤ s.now → exec (.recircHoldExpiry p) s =
        .next (s.close ((s.begun.count (clsCounter x.mark.course 8) 1).dropPkt p)))
      ∧ (s.now < x.since + 4000 → exec (.recircHoldExpiry p) s = .next (s.close s.begun)))
    ∧ (∀ n, n < 32 → (s.port n).takes = true → (s.port n).txNow = none → (s.port n).loopback ≠ 3 →
      (∀ p x, s.heads n = [(p, x)] → s.pkt p = some x → s.eligible n (p, x) = true → x.prov = false →
        s.genOk x.mark.inst x.mark.gen = true → markAge s.now x.mark.ts < 2 ^ 31 →
        ∃ u : State, exec (.exitSelect n) s = .next (s.close u.settleSto)
          ∧ u.pkt p = some { x with stage := .leaving, charged := none } ∧ (u.port n).txNow = some p
          ∧ mapGet 0 u.counters (tmsCounter n 0) = (mapGet 0 s.counters (tmsCounter n 0) + 1) % 2 ^ 48
          ∧ ∀ q, q ≠ p → u.pkt q = s.pkt q)
      ∧ (s.heads n = [] → exec (.exitSelect n) s = .next (s.close s.begun.settleSto)))
    ∧ (∀ n p, (s.port n).txNow = some p → n < 32 → exec (.exitSelect n) s = .next (s.close s.begun.settleSto))
    ∧ (∀ p x c, s.pkt p = some x → x.charged = some c → x.ended = true → x.prov = false →
      let e := s.exitOf x
      let len := s.counted e x.mark.len
      exec (.cutThroughCorrection p) s = .next (s.close
        (((s.begun.shapersAdd e x ((c : Int) - (len : Int))).count (tmsCounter e 1) len).setPkt p { x with charged := none })))
    ∧ (∀ k, let x := s.shaper k
      let w := s.shaperWords k
      let y : Shaper := { x with en := bitOf w.1 31, rate := bitsOf w.1 0 20, k := bitsOf w.1 20 3, cbs := w.2
                                 refilled := some s.now }
      let inc : Int := (bitsOf w.1 0 20 * (32 * 2 ^ bitsOf w.1 20 3) * 2 ^ 24 / 8000 : Nat)
      let cap : Int := (w.2 * 2 ^ 24 : Nat)
      let refilled := fun (c : Int) => exec (.shaperRefill k) s =
        .next (s.close (s.begun.setShaper k { y with credit := min c cap }))
      (s.now % (32 * 2 ^ x.k) ≠ 0 → exec (.shaperRefill k) s = .next (s.close s.begun))
      ∧ (s.now % (32 * 2 ^ x.k) = 0 → x.refilled ≠ some s.now → bitOf w.1 31 = true →
        (s.shaperBusy k = true → refilled (min (x.credit + inc) cap))
        ∧ (s.shaperBusy k = false → 0 < x.credit → refilled 0)
        ∧ (s.shaperBusy k = false → x.credit ≤ 0 → refilled (min (x.credit + inc) 0))))
    ∧ (∀ m n d, n < 32 → d < 2 ^ 32 → bitOf d 1 = true → bitOf d 6 = false → s.writes m (Reg.tmsGateCtl.addr [n]) →
      let l := bitsOf d 2 1
      let v := (State.writeReg m Reg.tmsGateCtl [n] d s.begun).1
      let es := s.gateEntries n l
      let valid := 1 ≤ es.length ∧ es.length ≤ 64 ∧ (∀ e ∈ es, 0 < e.1) ∧ gateCycle es < 2 ^ 32
      ((s.gate n).oper ≠ some l → bitOf s.fuses.features 9 = true → valid →
        exec (.gateArm m n d) s = .next (s.close (m.logged (Reg.tmsGateCtl.addr [n]) 4 d
          (v.setGate n { s.gate n with pending := some l }))))
      ∧ (¬ valid ∨ (s.gate n).oper = some l ∨ bitOf s.fuses.features 9 = false →
        exec (.gateArm m n d) s = .next (s.close (m.logged (Reg.tmsGateCtl.addr [n]) 4 d
          ((v.setGate n { s.gate n with cfgInvalid := true }).raise 325 (globalPort s.moduleId n))))))
    ∧ (∀ n l, (s.gate n).pending = some l →
      (s.gatePos n l s.now = 0 → exec (.gateSwitch n) s = .next (s.close
        ((s.begun.setGate n { s.gate n with
          oper := some l, pending := none
          longest := (List.range 8).map (fun p => longestWindow p (s.gateEntries n l)) }).raise 324 (globalPort s.moduleId n))))
      ∧ (s.gatePos n l s.now ≠ 0 → exec (.gateSwitch n) s = .next (s.close s.begun)))
/-! ### Host faces (spec/06, spec/04 R110, R111, spec/08 R249, R250) -/

/-- Links of a face: DL_Active brings a link up at its rate and width, ends D3cold and WAKE_N, and lets the link's functions go
on; a link reset ends its reads and is reported; L1 is entered under ASPM or with every function in D3hot, and left; PME_Turn_Off
is acknowledged and leads to L2 only where every function is in D3hot; PM_PME goes out again every 100,000,000 ticks while
PME_Status stays set (R155, R185-R187, spec/04 R111, R114). -/
def Obligations.FaceLinksTrainAndSleep : Prop :=
  ∀ (s : State) (f l : Nat), s.released = true → f < 4 → l < 2 →
    let x := s.face f
    let y := s.link f l
    let ks := (s.host.fns.map (fun p => p.1)).filter (fun k => decide (s.fnFace k = some f) && decide (fnLink k = l))
    (∀ rate width flit, x.inReset = false → (l = 0 ∨ x.mode = 1) → y.active = false → s.clocks.pcie.getD f false = true →
      x.maxRate ≤ rate → rate ≤ 5 → (flit = true ∨ 1 ≤ rate) →
      width ∈ (if l = 0 ∧ x.mode = 0 then [16, 8, 4, 2, 1] else [8, 4, 2, 1]) →
      let v := s.begun.setLink f l { state := .l0, rate, width, flit }
      let w := v.setFace f { v.face f with d3cold := false }
      let t := { w with supply := { w.supply with wakeN := setNth w.supply.wakeN f false } }
      exec (.pcieDlActive f l rate width flit) s = .next (s.close
        (ks.foldl (fun u k => u.fnResume k) (ks.foldl (fun u k => u.releasePme k) (t.sendDrs f l))).settleSto))
    ∧ (∀ rate width flit, x.inReset = true ∨ rate < x.maxRate ∨ 5 < rate ∨ (flit = false ∧ rate = 0) ∨ y.active = true →
      exec (.pcieDlActive f l rate width flit) s = .next (s.close s.begun.settleSto))
    ∧ (∀ hot, x.inReset = false → y.state ≠ .down →
      exec (.pcieLinkReset f l hot) s = .next (s.close
        ((s.begun.linkReset f l .training).raise (if hot = true then 68 else 69) f (some (2048 + f))).settleSto))
    ∧ (∀ sub, y.state = .l0 →
      (bitOf (s.fn (linkFn f l)).aspm 1 = true ∨ (∀ k ∈ s.linkFns f l, (s.fn k).d3hot = true) →
        exec (.l1Entry f l sub) s = .next (s.close (s.begun.setLink f l { y with
          state := .l1, substate := l1Substate (s.fn (linkFn f l)).l1ss sub })))
      ∧ (bitOf (s.fn (linkFn f l)).aspm 1 = false → (∃ k ∈ s.linkFns f l, (s.fn k).d3hot = false) →
        exec (.l1Entry f l sub) s = .next (s.close s.begun)))
    ∧ (y.state = .l1 → exec (.l1Exit f l) s = .next (s.close (s.begun.setLink f l { y with state := .l0, substate := 0 })))
    ∧ (y.active = true →
      ((∃ k ∈ s.linkFns f l, (s.fn k).d3hot = false) →
        exec (.pmeTurnOff f l) s = .next (s.close (s.begun.send (.pcie f l .pmeToAck)).settleSto))
      ∧ ((∀ k ∈ s.linkFns f l, (s.fn k).d3hot = true) →
        exec (.pmeTurnOff f l) s = .next (s.close ((((s.begun.send (.pcie f l .pmeToAck)).setFace f
          { x with d3cold := true }).linkReset f l .l2).raise 69 f (some (2048 + f))).settleSto)))
    ∧ (∀ k t, s.fnFace k = some f → fnLink k = l → (s.fn k).pmeStatus = true → (s.fn k).pmeResendAt = some t → t ≤ s.now →
      (y.active = true → exec (.pmeResend k) s = .next (s.close
        ((s.begun.setFn k { s.fn k with pmeResendAt := some (t + 100000000) }).send (.pcie f l (.pmPme k)))))
      ∧ (y.active = false → exec (.pmeResend k) s = .next (s.close
        (s.begun.setFn k { s.fn k with pmeResendAt := none, pmeHeld := true }))))

/-- Functions of a face: a configuration request is answered with retry status until the face is ready, a read returns the
field, and a write to a PF or companion captures its bus and device number; VF Enable is set only where NumVFs is at most
TotalVFs, and clearing it or a VF FLR resets the VFs; clearing Bus Master Enable withdraws the function's reads, ends its jobs,
takes its queues to MASTER_OFF and is reported; setting it, D0 and unmasking let what waits go out (R110, R160, R163, R184,
R188-R190, spec/08 R249, R250). -/
def Obligations.FunctionsAreManaged : Prop :=
  ∀ (s : State) (k f : Nat), s.released = true → s.fnFace k = some f →
    let x := s.fn k
    let answering := (s.face f).inReset = false ∧ (s.link f (fnLink k)).active = true
    (∀ bus dev r, answering →
      (bitOf s.bring.readyFace f = false →
        exec (.configRequest k bus dev r) s = .next (s.close (s.begun.send (.cfg k none)).settleSto))
      ∧ (bitOf s.bring.readyFace f = true → s.fnExists k = true →
        (∀ g, r = .read g → exec (.configRequest k bus dev r) s =
          .next (s.close (s.begun.send (.cfg k (some (x.cfgRead g)))).settleSto))
        ∧ (∀ v, r = .write .mse v → 2048 ≤ k → exec (.configRequest k bus dev r) s = .next (s.close
          ((((s.begun.setFn k { x with bus := bus % 256, dev := dev % 32 }).setFn k
            { x with bus := bus % 256, dev := dev % 32, mse := decide (v % 2 = 1) })).send (.cfg k (some 0))).settleSto))
        ∧ (∀ v, r = .write .mrrs v → k < 2048 → exec (.configRequest k bus dev r) s =
          .next (s.close (s.begun.send (.cfg k (some 0))).settleSto))))
    ∧ (s.cfgOpen k = true →
      (∀ n, k = 2048 + f → x.vfEnable = false →
        exec (.vfEnable f n) s = .next (s.close
          ((s.begun.setFn k { x with numVfs := n, vfEnable := decide (n ≤ (s.face f).totalVfs) }).evalLines).settleSto))
      ∧ (k = 2048 + f → x.vfEnable = true →
        exec (.vfDisable f) s = .next (s.close
          ((s.begun.setFn k { x with vfEnable := false }).resetVfs
            ((s.linkFns f 0).filter (fun j => decide (j < 2048)))).settleSto))
      ∧ (k < 2048 → exec (.vfFlr k) s = .next (s.close (s.begun.resetVfs [k]).settleSto))
      ∧ (x.bme = true → exec (.bmeClear k) s = .next (s.close
        (((((s.begun.setFn k { x with bme := false }).withdrawFn f k).jobsOver f k 5).queuesOff k).raise 72 (fnInst k)
          (some (fnInst k))).settleSto))
      ∧ (x.bme = false →
        exec (.bmeClear k) s = .next (s.close s.begun.settleSto)
        ∧ exec (.bmeSet k) s = .next (s.close ((s.begun.setFn k { x with bme := true }).fnResume k).settleSto))
      ∧ (exec (.d3hotEntry k) s = .next (s.close ((s.begun.setFn k { x with d3hot := true }).evalLines).settleSto))
      ∧ (x.d3hot = true →
        exec (.d0Return k) s = .next (s.close ((s.begun.setFn k { x with d3hot := false }).fnResume k).settleSto))
      ∧ (x.d3hot = false → exec (.d0Return k) s = .next (s.close s.begun.settleSto))
      ∧ (∀ v, exec (.msixUnmask k v true) s =
          .next (s.close ((s.begun.setFn k { x with msixMask := false }).flushVectors k))))
    ∧ (∀ v, v < fnVectors k → s.fnReachable k = true → exec (.msixUnmask k v false) s = .next (s.close
        ((s.begun.setFn k { x with msix := mapUpd {} x.msix v (fun m => { m with masked := false }) }).flushVectors k)))

/-- Management over MCTP on the primary face: Set and Get Endpoint ID are answered in hardware; a PLDM request goes to firmware,
or is answered ERROR_NOT_READY while KSC is not ready; on another face nothing is answered (R192; message formats: log 23). -/
def Obligations.ManagementIsAnswered : Prop :=
  ∀ (s : State) (f : Nat) (msg : List Byte), s.released = true →
    let reply := fun (u : State) (cmd : Nat) (bs : List Byte) =>
      Host.Outcome.next (φ := Fault) (ρ := Refusal) (s.close (u.send (.pcie f 0 (.mctp
        (toBe 1 0 ++ toBe 1 (beAt msg 1 1 % 32) ++ toBe 1 cmd ++ bs)))))
    (s.mctpOn f = true →
      (beAt msg 0 1 % 128 = 0 → 128 ≤ beAt msg 1 1 →
        (∀ e, beAt msg 2 1 = 1 → beAt (msg.drop 3) 1 1 = e → e ≠ 0 → e ≠ 255 →
          exec (.mctpControl f msg) s = reply { s.begun with glb := { s.glb with mctpEid := e } } 1
            (toBe 1 0 ++ toBe 1 0 ++ toBe 1 e ++ toBe 1 0))
        ∧ (beAt msg 2 1 = 2 →
          exec (.mctpControl f msg) s = reply s.begun 2 (toBe 1 0 ++ toBe 1 s.glb.mctpEid ++ toBe 1 0 ++ toBe 1 0)))
      ∧ (beAt msg 0 1 % 128 = 1 →
        (s.ready 18 = true → exec (.pldmRequest f msg) s = .next (s.close (s.begun.send (.pldm f msg))))
        ∧ (s.ready 18 = false → exec (.pldmRequest f msg) s = .next (s.close (s.begun.send (.pcie f 0 (.mctp
          (toBe 1 1 ++ toBe 1 (beAt msg 1 1 % 32) ++ bytesAt msg 2 2 ++ toBe 1 4))))))))
    ∧ (f ≠ s.glb.primary →
      exec (.mctpControl f msg) s = .next (s.close s.begun) ∧ exec (.pldmRequest f msg) s = .next (s.close s.begun))
/-! ### Host DMA (spec/09) -/

/-- Reads and writes of the host DMA engines: the one waiting read goes out with a tag; a completion's last piece ends its read;
a timer that has run out ends the read as timed out and quarantines its tag; a completion for a quarantined tag is late, one for
no read is unexpected; a quarantine ends after 2T; a write channel sends one TLP up to the next payload boundary, or suppresses
work of a stale generation; a flush read ends (R261, R265, R268-R272, R281). -/
def Obligations.HostReadsAndWritesEnd : Prop :=
  ∀ (s : State) (f : Nat), f < 4 → s.released = true → s.ready 5 = true →
    let d := s.dmaFace f
    (∀ r, d.waiting = [r] → s.genOk r.inst r.gen = true → s.fnOpen r.fn = true → r.ats = false → r.req.isFlush = false →
      let sp := s.readSpan r
      let t := s.begun.setDmaFace f { d with waiting := [r] }
      t.roomFor r.face r.link r.pool r.req.isPoll ((sp.2 + sp.1 % 64 + 63) / 64 * 64) = true →
      exec (.readIssue f) s = .next (s.close ((t.dropWaiting f r.id).issueRead r r.addr).settleSto))
    ∧ (∀ tag o bs, s.outRead f tag = some o → (s.link f (tag / 4096)).active = true → o.rd.req.isXlate = false →
      o.rd.req.isFlush = false → bs ≠ [] →
      (o.rd.got.length + bs.length = o.total →
        exec (.readCompletion f tag .ok bs) s = .next (s.close (endOne ((s.begun.closeRead f tag).endRead o.rd
          (.ok (((o.rd.got ++ bs).drop o.lead).take o.rd.len)))).settleSto))
      ∧ (o.rd.got.length + bs.length < o.total →
        exec (.readCompletion f tag .ok bs) s = .next (s.close (s.begun.setDmaFace f { d with
          out := d.out.map (fun r => if r.tag = tag then { r with rd := { r.rd with got := r.rd.got ++ bs } } else r) }).settleSto))
      ∧ exec (.readCompletion f tag .error bs) s = .next (s.close (endOne ((((s.begun.closeRead f tag).count (dmaCounter f 6)
          1).raise 102 0 (some o.rd.inst) { addr := o.rd.addr, master := s.fnMaster o.rd.fn, access := 1 }).endRead o.rd
          .error)).settleSto))
    ∧ (∀ tag st bs, s.outRead f tag = none → (s.link f (tag / 4096)).active = true →
      (∀ q, d.quarantine.find? (fun q => decide (q.tag = tag)) = some q →
        let u := s.begun.count (dmaCounter f 5) 1
        exec (.readCompletion f tag st bs) s =
          .next (s.close (u.raise 100 0 none { master := s.fnMaster q.fn, access := 1 }).settleSto))
      ∧ (d.quarantine.find? (fun q => decide (q.tag = tag)) = none →
        let u := (s.begun.count (dmaCounter f 8) 1).aerLog (linkFn f (tag / 4096)) 16
        exec (.readCompletion f tag st bs) s =
          .next (s.close (u.raise 101 0 none { master := s.fnMaster (linkFn f (tag / 4096)), access := 1 }).settleSto)))
    ∧ (∀ tag o, s.outRead f tag = some o → o.rd.req.isFlush = false →
      (s.now < o.issued + o.t → exec (.readTimeout f tag) s = .next (s.close s.begun.settleSto))
      ∧ (o.issued + o.t ≤ s.now →
        exec (.readTimeout f tag) s = .next (s.close (endOne (s.begun.timeOutRead f o)).settleSto)))
    ∧ (∀ tag, exec (.quarantineEnd f tag) s = .next (s.close (s.begun.setDmaFace f { d with
        quarantine := d.quarantine.filter (fun q => !(decide (q.tag = tag) && decide (q.endAt ≤ s.now))) }).settleSto))
    ∧ (∀ l a w ws, s.chanWork f l a = w :: ws → w.withdrawn = false →
      (s.genOk w.inst w.gen = false → exec (.writeTlp f l a) s = .next (s.close
        (((s.begun.setChanWork f l a ws).count (dmaCounter f 15) (s.tlpsLeft w)).writeEnded w .stale).settleSto))
      ∧ (∀ addr bs ps, s.genOk w.inst w.gen = true → s.fnOpen w.fn = true → w.ats = false → w.parts = (addr, bs) :: ps →
        let n := min bs.length (s.mps w.fn - addr % s.mps w.fn)
        let rest := (advanceParts n ((addr, bs) :: ps)).filter (fun q => q.2 ≠ [])
        let t := s.begun.emitWrite f l a w.fn w.inst addr { pasid := w.pasid, relaxed := s.relaxedData f w.fn } (bs.take n)
        (rest ≠ [] → exec (.writeTlp f l a) s = .next (s.close
          (t.setChanWork f l a ({ w with parts := rest, started := true } :: ws)).settleSto))
        ∧ (rest = [] → exec (.writeTlp f l a) s = .next (s.close ((t.setChanWork f l a ws).writeEnded w .done).settleSto))))
    ∧ (∀ tag o, s.outRead f tag = some o → o.rd.req.isFlush = true →
      exec (.flushCompletion f tag) s = .next (s.close (s.begun.closeRead f tag).settleSto)
      ∧ (s.now < o.issued + o.t → exec (.flushTimeout f tag) s = .next (s.close s.begun.settleSto))
      ∧ (o.issued + o.t ≤ s.now →
        let u := (s.begun.closeRead f tag).count (dmaCounter f 10) 1
        exec (.flushTimeout f tag) s = .next (s.close (u.raise 105 o.rd.inst (some o.rd.inst)
          { addr := o.rd.addr, master := (s.begun.closeRead f tag).fnMaster o.rd.fn, access := 1 }).settleSto)))

/-- Firmware jobs and address translation: firmware's producer count starts the jobs up to it, at most 32 ahead, and another
master's write is ignored; a job that is over gets its status and DMA_JOB_DONE passes it; a translation enters the cache, or
fails what waited; an invalidation drops the entries of its range, and is completed at its deadline (R274, R279, R280). -/
def Obligations.JobsAndTranslations : Prop :=
  ∀ (s : State) (f : Nat), f < 4 → s.released = true → s.dma.faces.length = 4 →
    let d := s.dmaFace f
    let a := blockBase 5 + 0x1000 * f + 0x180
    (∀ m c, c < 2 ^ 32 →
      (s.writes m a → m.isFw = true → c = (d.jobProd + 1) % 2 ^ 32 → (c + 2 ^ 32 - d.jobDone) % 2 ^ 32 ≤ 32 →
        (∀ j ∈ d.jobs, j.count ≠ d.jobProd) → d.jobProd < 2 ^ 32 →
        exec (.jobSubmit m f c) s = .next (s.close (m.logged a 4 c
          ((s.begun.setDmaFace f { d with jobProd := c }).startJob f d.jobProd)).settleSto))
      ∧ (s.reaches m a → m.isFw = false ∨ 32 < (c + 2 ^ 32 - d.jobDone) % 2 ^ 32 →
        exec (.jobSubmit m f c) s = .next (s.close s.begun.settleSto)))
    ∧ (∀ j, s.ready 5 = true → d.jobs = [j] → j.done = false → j.status ≠ 0 → j.status < 256 → j.count = d.jobDone →
      ∃ u : State, exec (.jobFinish f) s = .next (s.close u.settleSto) ∧ (u.dmaFace f).jobs = []
        ∧ (u.dmaFace f).jobDone = (d.jobDone + 1) % 2 ^ 32 ∧ (u.dmaFace f).jobProd = d.jobProd
        ∧ bitsOf (u.jobWord f (j.count % 32) 7) 0 8 = j.status)
    ∧ (∀ id o, d.out.find? (fun o => decide (o.rd.req = .xlate id)) = some o →
      let t := s.begun.closeRead f o.tag
      let e := fun (page : Nat) (r w : Bool) => (t.dmaFace f).ats ++
        [{ fn := o.rd.fn, pasid := o.rd.pasid, page := o.rd.addr / 4096, target := page, r := r, w := w }]
      (∀ page r w, exec (.atsTranslation f id (.ok page r w)) s = .next (s.close (t.setDmaFace f { t.dmaFace f with
        ats := (e page r w).drop ((e page r w).length - 4096) }).settleSto))
      ∧ (∀ r, id < 2 ^ 40 → d.waiting.find? (fun r => decide (r.id = id)) = some r →
        exec (.atsTranslation f id .fail) s = .next (s.close
          (((t.xlateFail f o.rd.fn o.rd.addr).dropWaiting f id).workRead r .xlate).settleSto)))
    ∧ (∀ id r, d.out.find? (fun o => decide (o.rd.req = .xlate id)) = none →
      exec (.atsTranslation f id r) s = .next (s.close s.begun.settleSto))
    ∧ (∀ k page pages,
      let hit := fun (p : Nat) => decide (page ≤ p) && decide (p < page + pages)
      let used := (d.out.filter (fun r => r.rd.ats && decide (r.rd.fn = k) && hit (r.rd.addr / 4096))).map (fun r => r.rd.id)
      exec (.atsInvalidate f k page pages) s = .next (s.close ((s.begun.setDmaFace f { d with
        ats := d.ats.filter (fun e => !(decide (e.fn = k) && hit e.page))
        invals := d.invals ++ [{ fn := k, page, pages, deadline := s.now + 50000, reads := used }] }).settleInvals f).settleSto))
    ∧ (∀ k page,
      (d.invals.find? (fun v => decide (v.fn = k) && decide (v.page = page) && decide (v.deadline ≤ s.now)) = none →
        exec (.invalidateDeadline f k page) s = .next (s.close (s.begun.settleInvals f).settleSto))
      ∧ (∀ v o, d.invals.find? (fun v => decide (v.fn = k) && decide (v.page = page) && decide (v.deadline ≤ s.now)) = some v →
        d.out.filter (fun o => v.reads.contains o.rd.id && !o.rd.req.isXlate) = [o] → o.rd.req.isFlush = false →
        exec (.invalidateDeadline f k page) s = .next (s.close ((endAll ((s.begun.timeOutRead f o).1,
          (s.begun.timeOutRead f o).2.toList)).settleInvals f).settleSto)))

/-! ### Queues, lines and completion rings (spec/07, spec/08) -/

/-- Queue and line commands: ENABLE starts a DISABLED queue with its context where no check fails, and says why where one does;
STOP and RESET abort what is outstanding and end once every completion is placed; RESUME takes course, weight and burst again; a
state that the table does not list answers BUSY; a line is enabled unless its hot set is full, and is not disabled while a queue
or ring uses it (R214, R215, R221-R223, R229). -/
def Obligations.QueuesAreCommanded : Prop :=
  ∀ (s : State) (m : Master) (f q : Nat) (rx : Bool), f < 4 → q < 16384 → s.released = true → s.ready 6 = true →
    let k := queueKey rx q
    let x := s.queue k
    let c := s.readQCtx k
    let a := blockBase 6 + 0x130080 + 0x1000 * f
    let fin := fun (op typ idx : Nat) (u : State) => Host.Outcome.next (φ := Fault) (ρ := Refusal)
      (s.close (m.logged a 4 (op + typ * 8 + idx * 32) u).settleSto)
    let judge := (s.queueOwner (decide (16384 ≤ k)) (queueNo k)).getD c.inst
    (s.writes m a → (s.qmg.cmd.getD f {}).busy = false →
      (s.cmdDenied m f judge = true → c.inst ≤ 2051 →
        exec (.queueEnable m f rx q) s = fin 1 (b2n rx) q (s.begun.endQmg f 3 0)
        ∧ exec (.queueStop m f rx q) s = fin 2 (b2n rx) q (s.begun.endQmg f 3 0))
      ∧ (s.cmdDenied m f judge = false →
        (x.state = .disabled → c.inst ≤ 2051 →
          (s.queueWhy k c = 0 → exec (.queueEnable m f rx q) s = fin 1 (b2n rx) q
            (((s.begun.setQueue k { state := .running, ctx := c }).endQmg f 0 0).evalLine c.dbLine))
          ∧ (s.queueWhy k c ≠ 0 → exec (.queueEnable m f rx q) s = fin 1 (b2n rx) q (s.begun.endQmg f 2 (s.queueWhy k c)))
          ∧ (10 < bitsOf (s.ctxWord k 2) 12 4 → s.queueWhy k c = 1))
        ∧ (x.state = .running → s.boundStops k = true → exec (.queueStop m f rx q) s = fin 2 (b2n rx) q
          ((((s.begun.setQueue k { x with state := .stopping, stopTo := some x.p }).abortQueue k 5).runQmg f k).evalLine
            x.ctx.dbLine))
        ∧ (x.state ≠ .running → exec (.queueStop m f rx q) s = fin 2 (b2n rx) q (s.begun.endQmg f 1 0))
        ∧ (x.state = .stopped → exec (.queueResume m f rx q) s = fin 3 (b2n rx) q
          (((s.begun.setQueue k { x with
              state := .running, ctx := { x.ctx with course := c.course, weight := c.weight, burst := c.burst } }).endQmg f 0 0).evalLine
            x.ctx.dbLine))
        ∧ (x.state = .error ∨ (x.state = .masterOff ∧ (s.fn x.ctx.fn).bme = true) → s.boundStops k = true →
          exec (.queueReset m f rx q) s = fin 4 (b2n rx) q
            (((((s.begun.endQmgOn k 1).setQueue k { x with state := .resetting, stopTo := some x.p }).abortQueue k 5).runQmg
              f k).evalLine x.ctx.dbLine))
        ∧ (x.state = .masterOff → (s.fn x.ctx.fn).bme = false →
          exec (.queueReset m f rx q) s = fin 4 (b2n rx) q (s.begun.endQmg f 1 0)))
      ∧ (q < 8192 → let y := s.dbLine q
        let r := s.readLine q
        let owner := if y.enabled = true then y.inst else r.inst
        owner ≤ 2051 → s.cmdDenied m f owner = false →
        (y.enabled = false → r.addr % 64 = 0 → s.linkAllowed r.inst r.link = true → (s.inst r.inst).state = .started →
          (r.cls ≠ 0 ∨ (s.hotLines (fun y => decide (s.lineFace y = f)) < 512
            ∧ s.hotLines (fun y => decide (y.inst = r.inst)) < (s.inst r.inst).grant.hotSlots)) →
          exec (.lineEnable m f q) s = fin 1 2 q (((s.begun.setLine q { r with state := .idle }).evalLine q).endQmg f 0 0))
        ∧ (y.enabled = false → r.addr % 64 = 0 → s.linkAllowed r.inst r.link = true → (s.inst r.inst).state = .started →
          r.cls = 0 → 512 ≤ s.hotLines (fun y => decide (s.lineFace y = f)) →
          exec (.lineEnable m f q) s = fin 1 2 q (s.begun.endQmg f 2 9))
        ∧ ((∀ p ∈ s.qmg.queues, p.2.state ≠ .disabled → p.2.ctx.dbLine ≠ q) →
          (∀ p ∈ s.qmg.rings, p.2.state ≠ .disabled → p.2.ctx.dbLine ≠ q) →
          exec (.lineDisable m f q) s = fin 5 2 q ((s.begun.setLine q {}).endQmg f 0 0))
        ∧ ((∃ p ∈ s.qmg.queues, p.2.state ≠ .disabled ∧ p.2.ctx.dbLine = q) →
          exec (.lineDisable m f q) s = fin 5 2 q (s.begun.endQmg f 1 0))))
    ∧ (x.state = .stopping →
      (s.queueQuiet k = true → exec (.queueStopped rx q) s = .next (s.close
        (((s.begun.setQueue k { x with state := .stopped, stopTo := none }).endQmgOn k 0).evalLine x.ctx.dbLine).settleSto))
      ∧ (s.queueQuiet k = false → exec (.queueStopped rx q) s = .next (s.close s.begun.settleSto)))
    ∧ (x.state = .resetting → s.queueQuiet k = true → exec (.queueResetDone rx q) s = .next (s.close
        (((s.begun.setQueue k { ctx := x.ctx }).endQmgOn k 0).evalLine x.ctx.dbLine).settleSto))

/-- The work of queues: a due poll that may go out takes a tag and its line waits for it; a poll's bytes end it; the one queue
that has posted work has descriptors fetched up to its burst, its room and its ring's wrap; the next ready item's frames are
handed in; an item that has ended makes its entry ready, and so does a closed region (R200, R207, R208, R211, R213, R216-R219). -/
def Obligations.QueuesWork : Prop :=
  ∀ s : State, s.released = true → s.ready 6 = true →
    (∀ l, let x := s.dbLine l
      let f := s.lineFace x
      let recent := (s.qmg.pollTicks.getD f []).filter (fun t => decide (s.now < t + 1000))
      (s.pollDue l x = false → exec (.pollIssue l) s = .next (s.close s.begun.settleSto))
      ∧ (s.pollDue l x = true → f < 4 → s.dma.faces.length = 4 → x.ats = false → x.addr % 64 = 0 → x.addr < 2 ^ 64 →
        (∀ p ∈ s.qmg.lines, p.1 ≠ l → s.lineFace p.2 = f → s.pollDue p.1 p.2 = true → pollBefore p (l, x) = false) →
        s.pollsOut f < 512 → recent.length < s.fld Reg.qmgPollFace [f] 0 9 → (∀ t ∈ recent.head?, t + 2 ≤ s.now) →
        s.roomFor f x.link .htx true 64 = true →
        ∃ (u : State) (o : OutRead), exec (.pollIssue l) s = .next (s.close u.settleSto)
          ∧ (u.dmaFace f).out = (s.dmaFace f).out ++ [o] ∧ o.rd.req = .poll l ∧ o.tag = s.freeTag f x.link ∧ o.rd.len = 64
          ∧ o.rd.addr = x.addr ∧ o.issued = s.now
          ∧ .hostRead f x.link (s.freeTag f x.link) x.fn x.addr 64 15 15 { pasid := x.pasid } ∈ u.out
          ∧ u.dbLine l = { x with issued := s.now, outstanding := true }))
    ∧ (∀ f tag o bs, s.outRead f tag = some o → (s.link f (tag / 4096)).active = true →
      (o.rd.req.isPoll = true → bs ≠ [] → o.rd.got.length + bs.length = o.total →
        exec (.pollReturn f tag .ok bs) s = .next (s.close (endOne ((s.begun.closeRead f tag).endRead o.rd
          (.ok (((o.rd.got ++ bs).drop o.lead).take o.rd.len)))).settleSto))
      ∧ (o.rd.req.isPoll = false → exec (.pollReturn f tag .ok bs) s = .next (s.close s.begun.settleSto)))
    ∧ (∀ f k x, s.qmg.queues = [(k, x)] → s.instFace x.ctx.inst = some f → x.ctx.weight = 1 →
      (s.fetchable x = true → exec (.descriptorFetch f) s = .next (s.close (s.begun.fetchDescs k
        (min (min x.ctx.burst (sub32 x.p x.c)) (min (64 - x.heldCount) (x.ctx.n - x.c % x.ctx.n)))).settleSto))
      ∧ (s.fetchable x = false → exec (.descriptorFetch f) s = .next (s.close s.begun.settleSto)))
    ∧ (∀ k, let x := s.queue k
      s.boundCtx k = none →
      (∀ i, x.nextItem = some i → exec (.txItemHandoff k) s = .next (s.close (s.begun.handFrames k i id).settleSto))
      ∧ (x.nextItem = none → exec (.txItemHandoff k) s = .next (s.close s.begun.settleSto))
      ∧ (∀ i is, x.items = i :: is → i.phase = .ended ∨ (i.phase = .handed ∧ i.toAdmit = 0 ∧ i.tsWait = false) →
        exec (.txItemComplete k) s = .next (s.close
          ((s.begun.setQueue k { x with items := x.items.filter (fun j => decide (j.first ≠ i.first)) }).entryReady x.ctx.cq
            (txEntry k x i)).settleSto)))
    ∧ (∀ q, let k := 16384 + q
      let x := s.queue k
      (∀ r, x.regions.find? (fun r => r.closed && decide (r.open_ = 0)) = some r →
        exec (.regionClose q) s = .next (s.close
          ((s.begun.setQueue k { x with regions := x.regions.filter (fun t => decide (t.count ≠ r.count)) }).entryReady
            x.ctx.cq { cookie := r.cookie, count := r.count, queue := q, rx := true, status := 6, bytes := r.next
                       inst := x.ctx.inst, gen := (s.inst x.ctx.inst).gen }).settleSto))
      ∧ (x.regions.find? (fun r => r.closed && decide (r.open_ = 0)) = none →
        exec (.regionClose q) s = .next (s.close s.begun.settleSto)))

/-- Completion rings: the oldest ready entry is written to an open ring that is not full, with its phase bit, goes to the corbel
of a full one, is discarded by a DISABLED one, and is suppressed where its generation is stale; the corbel drains in order; the
moderation timer fires the ring; ENABLE starts a ring, DISABLE is BUSY while a queue uses it (spec/08 R231-R233, R241-R245,
R248, R251, R255). -/
def Obligations.CompletionRingsWork : Prop :=
  ∀ (s : State) (r : Nat), s.released = true → s.ready 6 = true →
    let x := s.ring r
    let f := s.ringFace x
    (∀ e rest, x.ready = e :: rest →
      let t := s.begun.setRing r { x with ready := rest }
      (s.entryStale x e = true → exec (.cqEntryReady r) s =
        .next (s.close ((t.count (cqCounter f 6) 1).cqCheck r).settleSto))
      ∧ (s.entryStale x e = false → x.state = .disabled → exec (.cqEntryReady r) s =
        .next (s.close ((t.discardEntry r 1).cqCheck r).settleSto))
      ∧ (s.entryStale x e = false → x.state = .running → s.fnOpen x.fn = true → x.corbel = [] → x.waiting = [] →
        sub32 x.w x.l < x.ctx.m → x.ctx.ats = false →
        let u := t.emitWrite f x.ctx.link e.chan x.fn x.ctx.inst (x.ctx.ring + 32 * (x.w % x.ctx.m)) { pasid := x.ctx.pasid }
          (entryBytes e x.w x.ctx.m)
        exec (.cqEntryReady r) s = .next (s.close (((u.setRing r { x with
          ready := rest, w := (x.w + 1) % 2 ^ 32 }).count (cqCounter f 0) 1).cqCheck r).settleSto))
      ∧ (s.entryStale x e = false → x.state = .running → x.corbel = [] → x.waiting = [] → x.ctx.m ≤ sub32 x.w x.l →
        0 < x.ctx.corbelCap →
        exec (.cqEntryReady r) s = .next (s.close ((t.toCorbel r e).cqCheck r).settleSto)))
    ∧ (x.ready = [] → exec (.cqEntryReady r) s = .next (s.close s.begun.settleSto))
    ∧ ((∀ p ∈ s.qmg.rings, p.2.waiting = []) → x.state = .running → x.waiting = [] →
      (x.corbel = [] → exec (.corbelDrain r) s = .next (s.close (s.begun.updExhausted.cqCheck r).settleSto))
      ∧ (∀ e, x.corbel = [e] → s.entryStale x e = false → s.fnOpen x.fn = true → sub32 x.w x.l < x.ctx.m → x.ctx.ats = false →
        let t := (s.begun.writeEntry r e).1
        exec (.corbelDrain r) s = .next (s.close
          ((t.setRing r { t.ring r with corbel := [] }).updExhausted.cqCheck r).settleSto)))
    ∧ (∀ e, x.timerEnd = some e →
      (s.now < e → exec (.coalesceTimerExpiry r) s = .next (s.close s.begun.settleSto))
      ∧ (e ≤ s.now → x.state = .running → x.armed = true → x.w ≠ x.l →
        exec (.coalesceTimerExpiry r) s = .next (s.close ((s.begun.setRing r { x with
          armed := false, u := 0, timerEnd := none, f := x.l }).fireRing x).settleSto)))
    ∧ (∀ m g, g < 4 → r < 8192 →
      let a := blockBase 6 + 0x1A0000 + 0x1000 * g
      s.writes m a → (s.qmg.cqCmd.getD g {}).busy = false → s.ringJudge r ≤ 2051 → s.cmdDenied m g (s.ringJudge r) = false →
      let c := s.readCqCtx r
      let fin := fun (op : Nat) (u : State) => Host.Outcome.next (φ := Fault) (ρ := Refusal)
        (s.close (m.logged a 4 (op + r * 8) u).settleSto)
      (x.state = .disabled →
        (s.cqWhy r c = 0 → exec (.cqEnable m g r) s = fin 1 ((s.begun.setRing r { state := .running, ctx := c }).endCq g 0 0))
        ∧ (s.cqWhy r c ≠ 0 → exec (.cqEnable m g r) s = fin 1 (s.begun.endCq g 2 (s.cqWhy r c)))
        ∧ exec (.cqDisable m g r) s = fin 5 (s.begun.endCq g 1 0))
      ∧ (x.state = .running →
        ((∃ p ∈ s.qmg.queues, p.2.state ≠ .disabled ∧ p.2.ctx.cq = r) →
          exec (.cqDisable m g r) s = fin 5 (s.begun.endCq g 1 0))
        ∧ ((∀ p ∈ s.qmg.queues, p.2.state ≠ .disabled → p.2.ctx.cq ≠ r) → x.waiting = [] →
          let t := s.begun.discardEntry r (x.ready.length + x.corbel.length)
          exec (.cqDisable m g r) s = fin 5 (((t.setRing r { x with
            ready := [], corbel := [], waiting := [], armed := false, u := 0, timerEnd := none, state := .disabled
            errCause := 0 }).updExhausted).endCq g 0 0))))
/-! ### Instances and mailboxes (spec/10, spec/21 R646) -/

/-- Instance commands: CREATE of an ABSENT instance takes the grant of the argument words where no check fails, START and
REMOVE need their states, RESET runs the reset sequence, SET_SHARE replaces a grant or is refused where it takes something in
use; a master that may not give the command gets DENIED; and the end of a reset sequence leaves the state it is to leave
(R288-R298). -/
def Obligations.InstancesAreManaged : Prop :=
  ∀ (s : State) (m : Master) (f i : Nat), f < 4 → i < 2052 → s.released = true → s.ready 7 = true →
    let a := ivmCmdAddr f
    let x := s.inst i
    let g := s.ivmArg f
    let fin := fun (op : Nat) (u : State) =>
      Host.Outcome.next (φ := Fault) (ρ := Refusal) (s.close (m.logged a 4 (ivmCmdWord op i) u).settleSto)
    (s.writes m a → (s.ivm.cmd.getD f {}).busy = false →
      (∀ h, m = .pf h → h ≠ f → exec (.start m f i) s = fin 2 (s.begun.endIvm f 3 0)
        ∧ exec (.reset m f i) s = fin 3 (s.begun.endIvm f 3 0))
      ∧ (m.isFw = false → exec (.create m f i) s = fin 1 (s.begun.endIvm f 3 0)
        ∧ exec (.remove m f i) s = fin 4 (s.begun.endIvm f 3 0) ∧ exec (.setShare m f i) s = fin 5 (s.begun.endIvm f 3 0))
      ∧ (m.isFw = true → s.instFace i = some f →
        (i < 2048 → x.state = .absent →
          (s.grantWhy i g = 0 → exec (.create m f i) s = fin 1
            ((s.begun.setInst i { x with state := .created, prior := .created, grant := g }).endIvm f 0 0).evalLines)
          ∧ (s.grantWhy i g ≠ 0 → exec (.create m f i) s = fin 1 (s.begun.endIvm f 2 (s.grantWhy i g))))
        ∧ (i < 2048 → x.state ≠ .absent → exec (.create m f i) s = fin 1 (s.begun.endIvm f 1 0))
        ∧ (i < 2048 → x.state = .created ∨ x.state = .started →
          exec (.remove m f i) s = fin 4 ((s.begun.startRemoval i).endIvm f 0 0))
        ∧ (i < 2048 → x.state = .resetting →
          exec (.remove m f i) s = fin 4 ((s.begun.setInst i { x with removeNext := true }).endIvm f 0 0))
        ∧ (2048 ≤ i → exec (.create m f i) s = fin 1 (s.begun.endIvm f 2 6)
          ∧ exec (.remove m f i) s = fin 4 (s.begun.endIvm f 2 6))
        ∧ (x.state = .created ∨ x.state = .started →
          (s.grantWhy i g ≠ 0 → exec (.setShare m f i) s = fin 5 (s.begun.endIvm f 2 (s.grantWhy i g)))
          ∧ (s.grantWhy i g = 0 → s.shareWhy i x.grant g ≠ 0 →
            exec (.setShare m f i) s = fin 5 (s.begun.endIvm f 1 (s.shareWhy i x.grant g)))
          ∧ (s.grantWhy i g = 0 → s.shareWhy i x.grant g = 0 → s.queuesLost x.grant g = [] →
            exec (.setShare m f i) s = fin 5 ((s.begun.setInst i { x with grant := g }).endIvm f 0 0).evalLines)))
      ∧ ((m.isFw = true ∨ m = .pf f) → s.instFace i = some f →
        (x.state = .created → exec (.start m f i) s = fin 2
          ((s.begun.setInst i { x with state := .started, prior := .started }).endIvm f 0 0).evalLines)
        ∧ (x.state ≠ .created → exec (.start m f i) s = fin 2 (s.begun.endIvm f 1 0))
        ∧ exec (.reset m f i) s = fin 3 ((s.begun.resetInsts [i]).endIvm f 0 0)))
    ∧ (s.writes m a → (s.ivm.cmd.getD f {}).busy = true → m.isFw = false →
      exec (.start m f i) s = .next (s.close s.begun.settleSto))
    ∧ (x.resetting = false ∨ s.flushing i = true → exec (.resetSequenceDone i) s = .next (s.close s.begun.settleSto))
    ∧ (x.resetting = true → s.flushing i = false →
      (x.wrapped = true → s.namesInst i = true →
        exec (.resetSequenceDone i) s = .next (s.close (s.begun.wrapWait i).settleSto))
      ∧ (x.wrapped = false → x.state = .resetting → x.removeNext = false →
        let t := s.begun.setInst i
          { state := x.prior, prior := x.prior, gen := x.gen, grant := x.grant, resets := (x.resets + 1) % 2 ^ 48 }
        let u := (t.setFn i { t.fn i with flrBusy := false }).count (ivmCounter 0) 1
        exec (.resetSequenceDone i) s = .next (s.close (((u.raise 163 i (some i)).deliverHeld i).evalLines).settleSto))
      ∧ (x.wrapped = false → x.state = .removing → x.moved = none → x.gone = true → s.instFace i = some f →
        let t := s.begun.setInst i { gen := x.gen, resets := (x.resets + 1) % 2 ^ 48 }
        let u := ((t.setFn i { t.fn i with flrBusy := false }).clearBits i).count (ivmCounter 0) 1
        let v := u.raise 163 i (some i)
        (v.instFace i = some f → exec (.resetSequenceDone i) s = .next (s.close
          (((v.postNotice (2048 + f) { kind := 0x01, inst := i, data := x.gen }).deliverHeld i).evalLines).settleSto))))

/-- Mailbox channels: end A writes words and posts while the channel is not POSTED, cancels while it is; end B writes words and
replies while it is POSTED, and notifies at any time; an action that the state does not accept sets the writer's refused bit and
is counted; a master that is no end is counted and reported; a held event is delivered to an end that can take it; firmware's
write to a binding clears the channel (R300-R308). -/
def Obligations.MailboxesCarryMessages : Prop :=
  ∀ (s : State) (m : Master) (c : Nat), c < 2056 → s.released = true → s.ready 7 = true →
    let x := s.chan c
    let refused := fun (e : Bool) => (s.begun.setChan c (x.setFin e { x.fin e with refused := true })).count (ivmCounter 5) 1
    let shut := c < 2048 ∧ ((s.inst c).state = .absent ∨ (s.inst c).resetting = true)
    let post := (s.begun.setChan c { x with state := .posted, seq := (x.seq + 1) % 256 }).count (ivmCounter 2) 1
    (s.mbxEnd m c = some false →
      (∀ w v, w < 16 → v < 2 ^ 32 → s.mbxReaches m c (4 * w) →
        (x.state ≠ .posted → ¬shut →
          exec (.mbxDataWrite m c w v) s = .next (s.close (s.begun.setChan c { x with data := mapSet 0 x.data w v })))
        ∧ (x.state = .posted ∨ shut → exec (.mbxDataWrite m c w v) s = .next (s.close (refused false))))
      ∧ (s.mbxReaches m c 0x40 →
        (x.state ≠ .posted → ¬shut → exec (.go m c) s = .next (s.close (post.mbxEvent c true)))
        ∧ (x.state = .posted ∨ shut → exec (.go m c) s = .next (s.close (refused false)))
        ∧ (x.state = .posted → ¬shut → exec (.cancel m c) s = .next (s.close
          ((s.begun.setChan c { x with state := .idle, b := { x.b with aborted := true } }).mbxEvent c true)))
        ∧ (x.state ≠ .posted ∨ shut → exec (.cancel m c) s = .next (s.close (refused false)))
        ∧ exec (.done m c) s = .next (s.close (refused false)) ∧ exec (.notify m c) s = .next (s.close (refused false))))
    ∧ (s.mbxEnd m c = some true →
      (∀ w v, w < 16 → v < 2 ^ 32 → s.mbxReaches m c (4 * w) →
        (x.state = .posted →
          exec (.mbxDataWrite m c w v) s = .next (s.close (s.begun.setChan c { x with data := mapSet 0 x.data w v })))
        ∧ (x.state ≠ .posted → exec (.mbxDataWrite m c w v) s = .next (s.close (refused true))))
      ∧ (s.mbxReaches m c 0x40 →
        (x.state = .posted →
          exec (.done m c) s = .next (s.close ((s.begun.setChan c { x with state := .replied }).mbxEvent c false)))
        ∧ (x.state ≠ .posted → exec (.done m c) s = .next (s.close (refused true)))
        ∧ (x.a.notice = false → exec (.notify m c) s = .next (s.close
          ((s.begun.setChan c { x with a := { x.a with notice := true } }).mbxEvent c false)))
        ∧ (x.a.notice = true → exec (.notify m c) s = .next (s.close s.begun))
        ∧ exec (.go m c) s = .next (s.close (refused true)) ∧ exec (.cancel m c) s = .next (s.close (refused true))))
    ∧ (s.mbxEnd m c = none → s.mbxReaches m c 0x40 →
      exec (.go m c) s = .next (s.close ((s.begun.count (ivmCounter 4) 1).raise 166 c none
        { addr := blockBase 7 + chanOffset c, master := s.masterId m, access := 2 })))
    ∧ (∀ e k, (x.fin e).held = true → s.endVal c e = 1 ∨ s.endVal c e = 2 → s.endFn c e = some k →
      ((s.inst (fnInst k)).state = .resetting → ∃ u : State,
        exec (.mbxEventDelivery c e) s = .next (s.close u) ∧ ((u.chan c).fin e).held = true)
      ∧ ((s.inst (fnInst k)).state ≠ .resetting →
        let t := s.begun.setChan c (x.setFin e { x.fin e with held := false })
        ((x.fin e).en = true → exec (.mbxEventDelivery c e) s = .next (s.close (t.fire k (x.fin e).vector)))
        ∧ ((x.fin e).en = false → exec (.mbxEventDelivery c e) s = .next (s.close t))))
    ∧ (∀ e, (x.fin e).held = false → exec (.mbxEventDelivery c e) s = .next (s.close s.begun))
    ∧ (∀ d, c < 2052 → d < 2 ^ 32 → s.writes m (Reg.ivmMbxBind.addr [c]) →
      (m.isFw = true → bitOf s.glb.lock 7 = false → exec (.mbxBindWrite m c d) s =
        .next (s.close (m.logged (Reg.ivmMbxBind.addr [c]) 4 d ((s.begun.setWord Reg.ivmMbxBind [c]
          (putBits (putBits (s.word Reg.ivmMbxBind [c]) 0 3 (d % 8)) 4 3 (d / 16 % 8))).clearChan c true true))))
      ∧ (m.isFw = false → exec (.mbxBindWrite m c d) s = .next (s.close s.begun)))

/-- Messages: the answerer of a waiting request that it knows places the result in bits [31:24] of word 0 and the reply's words
after it, and the channel is REPLIED; an op or a version it does not know is answered UNSUPPORTED with the range of versions;
GET_NOTICE removes what it returns; HELLO agrees the version; RESET and the upgrade are answered PENDING
(R309-R312, spec/21 R646). -/
def Obligations.MessagesAreAnswered : Prop :=
  ∀ (s : State) (f : Nat), f < 4 → s.released = true →
    let c := 2048 + f
    let answered := fun (n result : Nat) (ws : List Nat) (u : State) =>
      (u.chan n).state = .replied ∧ u.msgWord n 0 = s.msgWord n 0 % 2 ^ 24 + result * 2 ^ 24
        ∧ (∀ k, k < 15 → u.msgWord n (k + 1) = ws.getD k 0 % 2 ^ 32)
        ∧ (u.chan n).seq = (s.chan n).seq
    (s.asked c 1 = true → s.verOk c = true → s.ivm.helloVer.length = 4 → ∃ u : State,
      exec (.mgrHello f) s = .next (s.close u.settleSto) ∧ u.ivm.helloVer.getD f 0 = 1 ∧ answered c 0 (s.helloWords f) u)
    ∧ (∀ op, s.asked c op = true → knownMgrOp op = false → ∃ u : State,
      exec (.mgrHello f) s = .next (s.close u.settleSto) ∧ answered c 4 [0x101] u)
    ∧ (s.asked c 1 = false → (∀ op, op < 256 → s.asked c op = true → knownMgrOp op = true) →
      exec (.mgrHello f) s = .next (s.close s.begun.settleSto))
    ∧ (s.fwWrites = true → s.answererHolds c = true →
      let i := s.msgWord c 1 % 4096
      let ws := [s.msgWord c 2, s.msgWord c 3, s.msgWord c 4, s.msgWord c 5]
      (i < 2048 → s.tenantFace i = some f →
        (s.asked c 2 = true → s.verOk c = true → let v := s.begun.fwIvm f 1 i ws
          exec (.mboxCreate f) s = .next (s.close (v.reply c (v.ivm.cmd.getD f {}).result [(v.ivm.cmd.getD f {}).why]).settleSto))
        ∧ (s.asked c 4 = true → s.verOk c = true → let v := s.begun.fwIvm f 5 i ws
          exec (.mboxSetShare f) s =
            .next (s.close (v.reply c (v.ivm.cmd.getD f {}).result [(v.ivm.cmd.getD f {}).why]).settleSto))
        ∧ (s.asked c 3 = true → s.verOk c = true → let v := s.begun.fwIvm f 4 i []
          ((v.ivm.cmd.getD f {}).result = 0 → exec (.mboxRemove f) s =
            .next (s.close ((v.setInst i { v.inst i with gone := true }).reply c 5 []).settleSto))
          ∧ ((v.ivm.cmd.getD f {}).result ≠ 0 → exec (.mboxRemove f) s =
            .next (s.close (v.reply c (v.ivm.cmd.getD f {}).result [(v.ivm.cmd.getD f {}).why]).settleSto))))
      ∧ (s.tenantFace i ≠ some f → s.verOk c = true →
        (s.asked c 2 = true → ∃ u : State, exec (.mboxCreate f) s = .next (s.close u.settleSto) ∧ answered c 3 [] u)
        ∧ (s.asked c 4 = true → ∃ u : State, exec (.mboxSetShare f) s = .next (s.close u.settleSto) ∧ answered c 3 [] u)
        ∧ (s.asked c 3 = true → ∃ u : State, exec (.mboxRemove f) s = .next (s.close u.settleSto) ∧ answered c 3 [] u)))
    ∧ (∀ n, s.asked n 5 = true → s.verOk n = true →
      let h := mapGet {} s.ivm.notices n
      (h.lost = 0 ∨ 7 ≤ h.list.length → ∃ u : State, exec (.getNotice n) s = .next (s.close u.settleSto)
        ∧ answered n 0 (min 7 h.list.length :: (h.list.take 7).flatMap Notice.words) u
        ∧ mapGet {} u.ivm.notices n = { h with list := h.list.drop 7 })
      ∧ (h.lost ≠ 0 → h.list.length < 7 → ∃ u : State, exec (.getNotice n) s = .next (s.close u.settleSto)
        ∧ answered n 0 ((h.list.length + 1) :: (h.list ++ [({ kind := 0xFF, inst := 0, data := h.lost } : Notice)]).flatMap Notice.words) u
        ∧ mapGet {} u.ivm.notices n = {}))
    ∧ (∀ i, i < 2048 → s.verOk i = true →
      (s.asked i 1 = true → ∃ u : State, exec (.tenantHello i) s = .next (s.close u.settleSto)
        ∧ answered i 0 ((i + (s.inst i).gen * 4096) :: (s.inst i).grant.words) u)
      ∧ (s.asked i 6 = true → s.tenantFace i = some f → s.endVal i true = 2 →
        exec (.resetRequest i) s = .next (s.close ((s.begun.reply i 5 []).access (.pf f) (ivmCmdAddr f) 4 (ivmCmdWord 3 i)
          (State.ivmCommand (.pf f) f 3 i)).settleSto)))
    ∧ (s.asked c 0x40 = true → s.verOk c = true →
      (f = s.glb.primary → ∃ u : State, exec (.upgradeStatus f) s = .next (s.close u)
        ∧ answered c 0 [s.glb.dtFirmware.getD 0 0, s.tap.ckWritten + b2n s.tap.confirmed * 256, s.fuses.minSvn] u)
      ∧ (f ≠ s.glb.primary → ∃ u : State, exec (.upgradeStatus f) s = .next (s.close u) ∧ answered c 3 [] u))
    ∧ (s.asked c 0x41 = true → s.verOk c = true → s.fwWrites = true → s.answererHolds c = true →
      (f ≠ s.glb.primary → ∃ u : State, exec (.upgradeConfirm f) s = .next (s.close u) ∧ answered c 3 [] u)
      ∧ (f = s.glb.primary → bitOf (s.msgWord c 1) 0 = false → s.tap.svnBusy = false →
        let t := s.begun.reply c 5 []
        exec (.upgradeConfirm f) s = .next (s.close ({ t with
          tap := { t.tap with ckWritten := t.tap.ckVer, confirmed := true, upgradeWait := true } }).upgradeDone)))
/-! ### Rule banks, forwarding tables and security associations (spec/12, spec/13, spec/14) -/

/-- The rule banks: LOAD starts in EMPTY and READY, COMMIT makes a READY bank ACTIVE under the next epoch and the ACTIVE bank
DRAINING, CLEAR empties a READY bank; another state answers BUSY and COMMIT of the ACTIVE bank INVALID with why 12; a load ends
READY with the image parsed, or EMPTY with the why of the check that failed; a master other than firmware is ignored
(R362-R364, R375). -/
def Obligations.RuleBanksAreDriven : Prop :=
  ∀ (s : State) (m : Master) (b : Nat), b < 2 → s.released = true →
    let a := blockBase 9
    let x := s.bank b
    let fin := fun (op : Nat) (u : State) =>
      Host.Outcome.next (φ := Fault) (ρ := Refusal) (s.close (m.logged a 4 (op + b * 4) u))
    (s.writes m a → m.isFw = true → s.rules.cmdBusy = false →
      (x.state = .empty ∨ x.state = .ready →
        let t := s.begun.setBank b { x with state := .loading }
        exec (.load m b) s = fin 1 { t with rules := { t.rules with cmdBusy := true } })
      ∧ (x.state = .loading ∨ x.state = .active ∨ x.state = .draining → exec (.load m b) s = fin 1 (s.begun.endBank 1 0))
      ∧ (x.state = .ready → (s.bank (1 - b)).state = .active →
        let e := (s.rules.epoch + 1) % 256
        let t := (s.begun.setBank (1 - b) { s.bank (1 - b) with state := .draining }).setBank b { x with state := .active, epoch := e }
        let u := { t with rules := { t.rules with epoch := e, swapTick := s.now } }
        exec (.commit m b) s = fin 2 ((u.endBank 0 0).raise 195 b).drainBanks)
      ∧ (x.state = .active → exec (.commit m b) s = fin 2 (s.begun.endBank 2 12))
      ∧ (x.state = .empty ∨ x.state = .loading ∨ x.state = .draining → exec (.commit m b) s = fin 2 (s.begun.endBank 1 0))
      ∧ (x.state = .ready →
        exec (.clear m b) s = fin 3 ((s.begun.setBank b { x with state := .empty, image := {} }).endBank 0 0))
      ∧ (x.state ≠ .ready → exec (.clear m b) s = fin 3 (s.begun.endBank 1 0)))
    ∧ (s.reaches m a → m.isFw = false ∨ s.rules.cmdBusy = true →
      exec (.load m b) s = .next (s.close s.begun) ∧ exec (.commit m b) s = .next (s.close s.begun)
      ∧ exec (.clear m b) s = .next (s.close s.begun))
    ∧ (x.state = .loading →
      let src := s.word Reg.clsLoadSrc []
      let n := s.word Reg.clsLoadLen []
      let bs := s.localBytes src n
      let bad := fun why => ((s.begun.setBank b { x with state := .empty, image := {} }).endBank 2 why).raise 197 b
      (src % 64 = 0 → inKeystoneLocal src n = true →
        (imageWhy bs = 0 → exec (.loadComplete b false) s =
          .next (s.close ((s.begun.setBank b { x with state := .ready, image := parseImage bs }).endBank 0 0)))
        ∧ (imageWhy bs ≠ 0 → exec (.loadComplete b false) s = .next (s.close (bad (imageWhy bs))))
        ∧ exec (.loadComplete b true) s = .next (s.close (bad 2)))
      ∧ (src % 64 ≠ 0 ∨ inKeystoneLocal src n = false → ∀ e, exec (.loadComplete b e) s = .next (s.close (bad 8))))
    ∧ (x.state ≠ .loading → ∀ e, exec (.loadComplete b e) s = .next (s.close s.begun))

/-- The exact-match and express tables: EM_INSERT of a key that is there replaces its destination or answers EXISTS, of a new one
places it, or answers LIMIT, or, where no place is found and nothing may be evicted, writes the notice, reports and answers FULL;
after a failed rehash every EM_INSERT answers BUSY;
EM_DELETE and EM_READ find the key or answer NOT_FOUND; EXP_WRITE and EXP_READ go by index; REHASH is firmware's and its end
takes the next seeds or leaves rehash_failed; a field out of range answers INVALID (R382-R389, R399). -/
def Obligations.AddressesAreKept : Prop :=
  ∀ (s : State) (m : Master) (set : Nat), set < 5 → (set = 4 → m.isFw = true) → s.released = true →
    let a := blockBase 10 + 0x5000 + 0x100 * set
    let e := emOfArgs (s.fwdArg set 0) (s.fwdArg set 1) (s.fwdArg set 2)
    let fin := fun (op : Nat) (rep : Bool) (idx r : Nat) (u : State) => Host.Outcome.next (φ := Fault) (ρ := Refusal)
      (s.close (m.logged a 4 (op + b2n rep * 16 + idx * 32) (u.endFwd set r 0)))
    (s.writes m a → (s.fwd.sets.getD set {}).busy = false →
      (e.keyOk = true → destOk e.dest false = true →
        (∀ p o, s.fwd.emFind s.emSeeds e.key = some p → s.fwd.emAt p = some o → s.fwd.rehashFailed = false →
          exec (.emInsert m set false) s = fin 1 false 0 4 s.begun
          ∧ exec (.emInsert m set true) s = fin 1 true 0 0 { s.begun with
              fwd := s.fwd.emWrite p { o with dest := e.dest, static := e.static, ageEn := e.ageEn } })
        ∧ (∀ rep, s.fwd.rehashFailed = true → s.fwd.rehash = false →
          exec (.emInsert m set rep) s = fin 1 rep 0 1 s.begun)
        ∧ (∀ rep, s.fwd.emFind s.emSeeds e.key = none → s.fwd.rehashFailed = false →
          let n := { e with hit := false, born := s.bornNow, stamp := 0 }
          let full := s.word Reg.fwdEmLimit [e.ktype] ≤ s.fwd.ktUsed e.ktype
          let place := s.fwd.emPlace s.placeSeeds (s.fld Reg.fwdTblCfg [] 6 4) n
          (full → exec (.emInsert m set rep) s = fin 1 rep 0 7 s.begun)
          ∧ (¬full → ∀ f, place = some f → exec (.emInsert m set rep) s = fin 1 rep 0 0 { s.begun with fwd := f })
          ∧ (¬full → place = none → s.fld Reg.fwdTblCfg [] 2 2 = 0 →
            exec (.emInsert m set rep) s = fin 1 rep 0 6
              ((s.begun.fwdNotice 5 e.domain e.ktype e.value (destPort e.dest) 0).raise 227 0))))
      ∧ (e.keyOk = true →
        (∀ p, s.fwd.emFind s.emSeeds e.key = some p →
          exec (.emDelete m set) s = fin 2 false 0 0 { s.begun with fwd := s.fwd.emRemove s.emSeeds p }
          ∧ (∀ o, s.fwd.emAt p = some o → exec (.emRead m set) s = fin 3 false 0 0 (s.begun.putFwdArgs set o.words)))
        ∧ (s.fwd.emFind s.emSeeds e.key = none → exec (.emDelete m set) s = fin 2 false 0 5 s.begun
          ∧ exec (.emRead m set) s = fin 3 false 0 5 s.begun))
      ∧ (e.keyOk = false → exec (.emDelete m set) s = fin 2 false 0 2 s.begun ∧ exec (.emRead m set) s = fin 3 false 0 2 s.begun
        ∧ ∀ rep, exec (.emInsert m set rep) s = fin 1 rep 0 2 s.begun)
      ∧ (∀ i, i < 4096 →
        (bitOf (s.fwdArg set 2) 30 = false →
          exec (.expWrite m set i) s = fin 4 false i 0 { s.begun with fwd := { s.fwd with express := mapErase s.fwd.express i } })
        ∧ (bitOf (s.fwdArg set 2) 30 = true →
          (e.keyOk = true → destOk e.dest false = true → exec (.expWrite m set i) s = fin 4 false i 0 { s.begun with
              fwd := { s.fwd with express := mapPut s.fwd.express i { e with born := s.bornNow } } })
          ∧ (e.keyOk = false ∨ destOk e.dest false = false → exec (.expWrite m set i) s = fin 4 false i 2 s.begun))
        ∧ exec (.expRead m set i) s =
          fin 5 false i 0 (s.begun.putFwdArgs set (((mapFind s.fwd.express i).map EmEntry.words).getD [0, 0, 0, 0])))
      ∧ (set ≠ 4 → exec (.rehash m set) s = fin 11 false 0 2 s.begun)
      ∧ (set = 4 → s.fwd.rehash = true → exec (.rehash m set) s = fin 11 false 0 1 s.begun)
      ∧ (set = 4 → s.fwd.rehash = false → exec (.rehash m set) s = fin 11 false 0 0 { s.begun with fwd := { s.fwd with
          rehash := true, rehashFailed := false
          probe := s.fwd.probe ++ [(List.range 4).map (fun k => s.word Reg.fwdSeedNext [k])] } }))
    ∧ (s.reaches m a → (s.fwd.sets.getD set {}).busy = true → exec (.emDelete m set) s = .next (s.close s.begun))
    ∧ (s.ready 10 = true →
      (s.fwd.rehash = false → exec .rehashEnd s = .next (s.close s.begun))
      ∧ (s.fwd.rehash = true → ∃ u : State, exec .rehashEnd s = .next (s.close u) ∧ u.fwd.rehash = false
        ∧ ((u.fwd.probe = [] ∧ ∀ k, k < 4 → u.word Reg.fwdSeed [k] = s.placeSeeds.getD k 0)
          ∨ (u.fwd.rehashFailed = true ∧ u.fwd.probe = s.fwd.probe ∧ u.regs = s.regs))))

/-- The flow and route tables: FLOW_INSERT replaces an entry or answers EXISTS, places a new one in the candidate bucket with
more free slots, the first on a tie, and returns its handle; FLOW_DELETE and FLOW_READ find the key or answer NOT_FOUND; a region
of another face's owner answers DENIED; LPM_ADD adds or replaces a route or answers FULL and LPM_DEL removes it; every one
answers BUSY until MEM is ready, and INVALID for a field out of range (R390-R393, R399). -/
def Obligations.FlowsAndRoutesAreKept : Prop :=
  ∀ (s : State) (m : Master) (set r : Nat), set < 5 → (set = 4 → m.isFw = true) → r < 4096 → s.released = true →
    let a := blockBase 10 + 0x5000 + 0x100 * set
    let key := s.flowKeyArg set
    let w := s.fwdArg set 12
    let e : FlowEntry := { key, dest := bitsOf (s.fwdArg set 11) 0 27, sa := bitsOf w 0 24, saEn := bitOf w 24, ageEn := bitOf w 27
                           cookie := s.fwdArg set 13 }
    let fin := fun (op : Nat) (rep : Bool) (idx res out : Nat) (u : State) => Host.Outcome.next (φ := Fault) (ρ := Refusal)
      (s.close (m.logged a 4 (op + b2n rep * 16 + idx * 32) (u.endFwd set res out)))
    s.writes m a → (s.fwd.sets.getD set {}).busy = false →
      (s.ready 16 = false → exec (.flowInsert m set false r) s = fin 6 false r 1 0 s.begun
        ∧ exec (.flowDelete m set r) s = fin 7 false r 1 0 s.begun ∧ exec (.flowRead m set r) s = fin 8 false r 1 0 s.begun
        ∧ exec (.lpmAdd m set) s = fin 9 false 0 1 0 s.begun ∧ exec (.lpmDel m set) s = fin 10 false 0 1 0 s.begun)
      ∧ (s.ready 16 = true →
        (2112 ≤ r ∨ flowKeyOk key = false → exec (.flowDelete m set r) s = fin 7 false r 2 0 s.begun
          ∧ exec (.flowRead m set r) s = fin 8 false r 2 0 s.begun
          ∧ ∀ rep, exec (.flowInsert m set rep r) s = fin 6 rep r 2 0 s.begun)
        ∧ (r < 2112 → flowKeyOk key = true →
          (s.regionAllowed m set r = false → exec (.flowDelete m set r) s = fin 7 false r 3 0 s.begun
            ∧ exec (.flowRead m set r) s = fin 8 false r 3 0 s.begun
            ∧ (destOk e.dest true = true → ∀ rep, exec (.flowInsert m set rep r) s = fin 6 rep r 3 0 s.begun))
          ∧ (s.regionAllowed m set r = true →
            (∀ i o, s.flowFind r key = some i → mapFind s.fwd.flows i = some o →
              exec (.flowDelete m set r) s =
                fin 7 false r 0 0 { s.begun with fwd := { s.fwd with flows := mapErase s.fwd.flows i } }
              ∧ exec (.flowRead m set r) s = fin 8 false r 0 0 (s.begun.putFwdArgs set o.words)
              ∧ (destOk e.dest true = true → exec (.flowInsert m set false r) s = fin 6 false r 4 0 s.begun
                ∧ exec (.flowInsert m set true r) s = fin 6 true r 0 (2 ^ 31 + i) (s.begun.setFlow i { e with hit := o.hit })))
            ∧ (s.flowFind r key = none → exec (.flowDelete m set r) s = fin 7 false r 5 0 s.begun
              ∧ exec (.flowRead m set r) s = fin 8 false r 5 0 s.begun
              ∧ (destOk e.dest true = true →
                let bs := s.flowBuckets r key
                let free := fun (b : Nat) => ((List.range 8).map (b + ·)).filter (fun i => (mapFind s.fwd.flows i).isNone)
                let fa := free (bs.getD 0 0)
                let fb := free (bs.getD 1 0)
                ∀ rep i is, (if fa.length < fb.length then fb else fa) = i :: is →
                  exec (.flowInsert m set rep r) s = fin 6 rep r 0 (2 ^ 31 + i) (s.begun.setFlow i { e with hit := false })))))
        ∧ (s.routeArg set = none → exec (.lpmAdd m set) s = fin 9 false 0 2 0 s.begun
          ∧ exec (.lpmDel m set) s = fin 10 false 0 2 0 s.begun)
        ∧ (∀ q, s.routeArg set = some q →
          let dest := bitsOf (s.fwdArg set 5) 0 27
          let old := s.fwd.routes.any (fun p => p.same q)
          let put := fun (l : List Route) => { s.begun with fwd := { s.fwd with routes := l } }
          (destOk dest false = false → exec (.lpmAdd m set) s = fin 9 false 0 2 0 s.begun)
          ∧ (destOk dest false = true → old = true → exec (.lpmAdd m set) s =
            fin 9 false 0 0 0 (put (s.fwd.routes.map (fun (p : Route) => if p.same q then { p with dest } else p))))
          ∧ (destOk dest false = true → old = false →
            (s.routesHeld q.v6 < (if q.v6 then 2097152 else 4194304) →
              exec (.lpmAdd m set) s = fin 9 false 0 0 0 (put (s.fwd.routes ++ [{ q with dest }])))
            ∧ ((if q.v6 then 2097152 else 4194304) ≤ s.routesHeld q.v6 →
              exec (.lpmAdd m set) s = fin 9 false 0 6 0 s.begun))
          ∧ (old = true →
            exec (.lpmDel m set) s = fin 10 false 0 0 0 (put (s.fwd.routes.filter (fun p => !p.same q))))
          ∧ (old = false → exec (.lpmDel m set) s = fin 10 false 0 5 0 s.begun)))

/-- Security associations and lanes: SA_WRITE stores the words and key with the owner's generation and starts the window, the
counts and the soft limit afresh; SA_READ returns the entry, SA_DELETE invalidates it, SA_LIMIT replaces the limit, TLS_RESYNC
arms a TLS decrypt SA in RESYNC; an SA whose owner may not be named answers DENIED; every one answers BUSY until MEM is ready; a
lane drains only while another serves its direction, goes OUT when it holds nothing, is tested, and returns with its direction
applied (R436, R438). -/
def Obligations.CryptoIsManaged : Prop :=
  ∀ (s : State) (m : Master), s.released = true →
    (∀ set i, set < 5 → (set = 4 → m.isFw = true) → i < 4194304 →
      let a := blockBase 12 + 0x5000 + 0x100 * set
      let fin := fun (op r : Nat) (u : State) => Host.Outcome.next (φ := Fault) (ρ := Refusal)
        (s.close (m.logged a 4 (op + i * 8) (u.endSa set r)))
      let n := s.saOfArgs set
      let kw := if n.alg % 2 = 0 then 7 else 11
      let x := s.sa i
      s.writes m a → (s.cry.sets.getD set {}).busy = false →
      (s.ready 16 = false → exec (.saWrite m set i) s = fin 1 1 s.begun ∧ exec (.saRead m set i) s = fin 2 1 s.begun
        ∧ exec (.saDelete m set i) s = fin 3 1 s.begun ∧ exec (.saLimit m set i) s = fin 4 1 s.begun
        ∧ exec (.tlsResync m set i) s = fin 5 1 s.begun)
      ∧ (s.ready 16 = true → i = 0 → exec (.saWrite m set i) s = fin 1 2 s.begun ∧ exec (.saRead m set i) s = fin 2 2 s.begun)
      ∧ (s.ready 16 = true → 0 < i →
        (n.proto ≠ 0 → n.confOff ≠ 3 → n.owner ≤ 2051 → (n.winLog2 = 0 ∨ 6 ≤ n.winLog2 ∧ n.winLog2 ≤ 10) →
          (n.proto = 3 → n.alg < 2) → s.keyWords set = List.range kw →
          bitOf s.fuses.features (if n.proto = 2 then 0 else if n.proto = 1 then 1 else 2) = true →
          (s.saAllowed m set n.owner = false → exec (.saWrite m set i) s = fin 1 3 s.begun)
          ∧ (s.saAllowed m set n.owner = true → s.saLive x = true → x.owner ≠ n.owner →
            exec (.saWrite m set i) s = fin 1 6 s.begun)
          ∧ (s.saAllowed m set n.owner = true → s.saLive x = false ∨ x.owner = n.owner →
            (s.saShare n.owner ≤ s.saInUse n.owner i → exec (.saWrite m set i) s = fin 1 4 s.begun)
            ∧ (s.saInUse n.owner i < s.saShare n.owner → exec (.saWrite m set i) s = fin 1 0 (s.begun.setSa i { n with
              valid := true, ownerGen := (s.inst n.owner).gen, key := (s.keyBytes set kw).take (4 * kw - 12)
              salt := (s.keyBytes set kw).drop (4 * kw - 12), stored := n.seq
              window := if n.decrypt = true ∧ n.winLog2 ≠ 0 then 2 ^ (n.seq % 2 ^ n.winLog2) else 0 }))))
        ∧ (n.proto = 0 → exec (.saWrite m set i) s = fin 1 2 s.begun)
        ∧ (x.valid = true → s.saAllowed m set x.owner = false → exec (.saRead m set i) s = fin 2 3 s.begun
          ∧ exec (.saDelete m set i) s = fin 3 3 s.begun ∧ exec (.saLimit m set i) s = fin 4 3 s.begun
          ∧ exec (.tlsResync m set i) s = fin 5 3 s.begun)
        ∧ (x.valid = true → s.saAllowed m set x.owner = true →
          exec (.saRead m set i) s = fin 2 0 (s.begun.putSaArgs set x.words)
          ∧ exec (.saDelete m set i) s = fin 3 0 (s.begun.setSa i { x with valid := false })
          ∧ exec (.saLimit m set i) s = fin 4 0 (s.begun.setSa i { x with
              softLimit := s.saArg set 8 + 2 ^ 32 * s.saArg set 9, softHit := false })
          ∧ (x.proto = 3 → x.decrypt = true → x.tlsState = 2 → exec (.tlsResync m set i) s = fin 5 0 (s.begun.setSa i { x with
              resync := some (s.saArg set 0, s.saArg set 1 + 2 ^ 32 * s.saArg set 2) }))
          ∧ (x.tlsState ≠ 2 → exec (.tlsResync m set i) s = fin 5 2 s.begun))
        ∧ (x.valid = false → exec (.saDelete m set i) s = fin 3 5 s.begun ∧ exec (.saLimit m set i) s = fin 4 5 s.begun)))
    ∧ (∀ l, l < 8 →
      let a := blockBase 12 + 0x1100
      let fin := fun (op r : Nat) (u : State) => Host.Outcome.next (φ := Fault) (ρ := Refusal)
        (s.close (m.logged a 4 (op + l * 4) (u.endLane r)))
      let x := s.lane l
      (s.writes m a → m.isFw = true → s.cry.laneCmd.busy = false →
        (x.state = .inService → 1 < (s.inLanes x.decrypt).length →
          exec (.laneDrain m l) s = fin 1 0 (s.begun.setLane l { x with state := .draining }))
        ∧ (x.state = .inService → (s.inLanes x.decrypt).length ≤ 1 → exec (.laneDrain m l) s = fin 1 2 s.begun)
        ∧ (x.state ≠ .inService → exec (.laneDrain m l) s = fin 1 1 s.begun)
        ∧ (x.state = .out ∨ x.state = .failed →
          let t := s.begun.setLane l { x with state := .testing }
          exec (.laneTest m l) s = .next (s.close (m.logged a 4 (2 + l * 4)
            { t with cry := { t.cry with laneCmd := { t.cry.laneCmd with busy := true } } })))
        ∧ (x.state ≠ .out → x.state ≠ .failed → exec (.laneTest m l) s = fin 2 1 s.begun)
        ∧ (x.state = .out → exec (.laneReturn m l) s = fin 3 0 (s.begun.setLane l { x with
            state := .inService, decrypt := s.bit Reg.cryLaneCtl [l] 0 }))
        ∧ (x.state ≠ .out → exec (.laneReturn m l) s = fin 3 1 s.begun))
      ∧ (s.ready 12 = true →
        (x.state = .draining → s.missHeld l = [] →
          exec (.laneOut l) s = .next (s.close ((s.begun.setLane l { x with state := .out, miss := [] }).raise 279 l)))
        ∧ (x.state ≠ .draining ∨ s.missHeld l ≠ [] → exec (.laneOut l) s = .next (s.close s.begun))
        ∧ (x.state = .testing →
          exec (.laneTestEnd l true) s =
            .next (s.close ((s.begun.setLane l { x with state := .out, testPass := true }).endLane 0))
          ∧ exec (.laneTestEnd l false) s = .next (s.close
            (((s.begun.setLane l { x with state := .failed, testPass := false }).endLane 0).raise 280 l)))
        ∧ (x.state ≠ .testing → ∀ p, exec (.laneTestEnd l p) s = .next (s.close s.begun))))
/-! ### The Keystone and the Masons (spec/18) -/

/-- The lease: a renewal by the holder with its epoch moves the lease end, any other is refused and counted; a release ends the
lease; a lease end that passes, and a lockstep mismatch of the holder, fail the holder and start the takeover; a request of a
complex in SYNC is granted, refused, sent to standby, or starts a handover; a takeover that is late and a handover that lapses
are reported (R547, R549, R555, R558). -/
def Obligations.LeaseIsHeld : Prop :=
  ∀ s : State, s.released = true → s.ksc.cplx.length = 2 → s.ksc.active < 2 →
    let k := s.ksc
    let failed := fun (u : State) => u.ksc.held = false ∧ u.ksc.takeover = true ∧ u.ksc.takeoverAt = some s.now
      ∧ bitOf u.bring.readySub 18 = false
    let granted := fun (x : Nat) (u : State) => u.ksc.held = true ∧ u.ksc.active = x ∧ u.ksc.epoch = (k.epoch + 1) % 65536
      ∧ u.ksc.leaseEnd = s.now + 100000 ∧ u.ksc.takeover = false ∧ bitOf u.bring.readySub 18 = true
    (∀ x ep e, e < 65536 →
      (s.reaches (.fw x ep) (blockBase 18 + 8) →
        (e = k.epoch → s.now ≤ k.leaseEnd → exec (.leaseRenew (.fw x ep) e) s =
          .next (s.close { s.begun with ksc := { k with leaseEnd := s.now + 100000 } }.settleSto))
        ∧ (e ≠ k.epoch ∨ k.leaseEnd < s.now → exec (.leaseRenew (.fw x ep) e) s =
          .next (s.close (s.begun.count (kscCounter 3) 1).settleSto)))
      ∧ (s.freshEpoch ep = false → exec (.leaseRenew (.fw x ep) e) s =
          .next (s.close ((s.begun.staleWrite x ep (blockBase 18 + 8)).count (kscCounter 3) 1).settleSto))
      ∧ (s.reaches (.fw x ep) (blockBase 18 + 0xC) →
        (e = k.epoch → let t := s.begun.setCplx k.active { s.cplx k.active with state := .off }
          exec (.leaseRelease (.fw x ep) e) s = .next (s.close ({ t with ksc := { t.ksc with held := false } }.endJobs.refuseWaiting).settleSto))
        ∧ (e ≠ k.epoch → exec (.leaseRelease (.fw x ep) e) s = .next (s.close s.begun.settleSto))))
    ∧ (k.held = true → k.leaseEnd ≤ s.now → ∃ u : State, exec .leaseEnd s = .next (s.close u.settleSto) ∧ failed u)
    ∧ (k.held = false ∨ s.now < k.leaseEnd → exec .leaseEnd s = .next (s.close s.begun.settleSto))
    ∧ (∀ x, x < 2 →
      (s.complexRuns x = true → k.held = true →
        (x = k.active → ∃ u : State, exec (.lockstepMismatch x) s = .next (s.close u.settleSto) ∧ failed u)
        ∧ (x ≠ k.active → exec (.lockstepMismatch x) s = .next (s.close
          (((s.begun.setCplx x { s.cplx x with state := .failed }).count (kscCounter 4) 1).raise 451 x none
            { master := masterWord 2 x 0 }).settleSto)))
      ∧ (s.complexRuns x = false → exec (.lockstepMismatch x) s = .next (s.close s.begun.settleSto)))
    ∧ (∀ x ep j, x < 2 → j < 2 ^ 32 →
      ((s.cplx x).state ≠ .sync → exec (.leaseReq (.fw x ep) j) s =
        .next (s.close (s.begun.count (kscCounter 3) 1).settleSto))
      ∧ ((s.cplx x).state = .sync →
        (k.held = true → s.bit Reg.kscReturnCtl [] 0 = false → exec (.leaseReq (.fw x ep) j) s =
          .next (s.close ((s.begun.setCplx x { s.cplx x with state := .off }).raise 458 x).settleSto))
        ∧ (k.held = true → s.bit Reg.kscReturnCtl [] 0 = true →
          let t := { s.begun with ksc := { k with handover := true, handoverReq := some (x, s.now) } }
          exec (.leaseReq (.fw x ep) j) s = .next (s.close (t.raise 459 k.active).settleSto))
        ∧ (k.held = false → k.dead = true ∨ j ≠ k.j % 2 ^ 32 → exec (.leaseReq (.fw x ep) j) s =
          .next (s.close (s.begun.count (kscCounter 3) 1).settleSto))
        ∧ (k.held = false → k.dead = false → j = k.j % 2 ^ 32 →
          ∃ u : State, exec (.leaseReq (.fw x ep) j) s = .next (s.close u.settleSto) ∧ granted x u)))
    ∧ (∀ t, k.takeoverAt = some t →
      (k.takeover = true → t + 2000000 ≤ s.now → let u := { s.begun with ksc := { k with takeoverAt := none } }
        exec .takeoverDeadline s = .next (s.close (u.raise 454 0)))
      ∧ (k.takeover = false ∨ s.now < t + 2000000 → exec .takeoverDeadline s = .next (s.close s.begun)))
    ∧ (∀ x t, k.handoverReq = some (x, t) →
      (k.held = true → t + 2000000 ≤ s.now → let u := { s.begun with ksc := { k with handover := false, handoverReq := none } }
        exec .handoverLapse s = .next (s.close (u.raise 461 x)))
      ∧ (k.held = false ∨ s.now < t + 2000000 → exec .handoverLapse s = .next (s.close s.begun)))

/-- Checkpoints and complexes: a commit with a jpos no greater than J and no less than the one before is recorded with its tick;
a late one is reported; START and TEST need an OFF or FAILED complex that is not the holder and STOP one in SYNC; a start ends
in SYNC with its image, or in FAILED and is reported; a test ends in OFF with test_pass, or in FAILED (R554, R555, R557). -/
def Obligations.ComplexesAreManaged : Prop :=
  ∀ (s : State) (m : Master), s.released = true → s.ksc.cplx.length = 2 →
    let k := s.ksc
    (∀ slot j, slot < 2 → j < 2 ^ 48 → s.reaches m (blockBase 18 + 0x28) →
      (m.isFw = true → j ≤ k.j → k.ckptJpos ≤ j → exec (.ckptCommit m slot j) s = .next (s.close
        (({ s.begun with ksc := { k with ckptSlot := slot, ckptJpos := j, ckptTick := s.now, ckptFrom := s.now } }.count
          (kscCounter 5) 1)).settleSto))
      ∧ (m.isFw = false ∨ k.j < j ∨ j < k.ckptJpos → exec (.ckptCommit m slot j) s = .next (s.close s.begun.settleSto)))
    ∧ (s.bring.btlState = 4 → k.ckptFrom + 1100000 ≤ s.now → let u := { s.begun with ksc := { k with ckptFrom := s.now } }
      exec .ckptDeadline s = .next (s.close (u.raise 457 0)))
    ∧ (s.bring.btlState ≠ 4 ∨ s.now < k.ckptFrom + 1100000 → exec .ckptDeadline s = .next (s.close s.begun))
    ∧ (∀ x slot, x < 2 → slot < 2 → s.reaches m (blockBase 18 + 0x18) → m.isFw = true → k.cmd.busy = false →
      let c := s.cplx x
      let fin := fun (r : Nat) (u : State) => Host.Outcome.next (φ := Fault) (ρ := Refusal)
        (s.close { u with ksc := { u.ksc with cmd := { result := r } } })
      (k.held = true → x = k.active → exec (.complexStart m x slot) s = fin 2 s.begun ∧ exec (.complexStop m x) s = fin 2 s.begun
        ∧ exec (.complexTest m x) s = fin 2 s.begun)
      ∧ (k.held = false ∨ x ≠ k.active →
        (c.state = .off ∨ c.state = .failed →
          exec (.complexStart m x slot) s =
            fin 0 (s.begun.setCplx x { c with state := .starting, loadSlot := slot, forTakeover := false })
          ∧ exec (.complexStop m x) s = fin 1 s.begun
          ∧ exec (.complexTest m x) s = fin 0 (s.begun.setCplx x { c with state := .testing }))
        ∧ (c.state = .sync → exec (.complexStop m x) s = fin 0 (s.begun.setCplx x { c with state := .off }))
        ∧ (c.state = .sync ∨ c.state = .starting ∨ c.state = .testing →
          exec (.complexStart m x slot) s = fin 1 s.begun ∧ exec (.complexTest m x) s = fin 1 s.begun)))
    ∧ (∀ x, x < 2 → let c := s.cplx x
      (c.state = .starting → let i := c.loadSlot
        (s.imageOk i true = true → ∃ u : State, exec (.complexStarted x true true) s = .next (s.close u.settleSto)
          ∧ u.cplx x = { c with
              state := .sync, imgSlot := i, verifyFail := false, forTakeover := false, fwVer := s.imageField i 0x18 4
              svn := s.imageField i 0xC 2, key := s.imageField i 4 4 / 65536 % 4, sram := s.imageCode i })
        ∧ (c.forTakeover = false → ∀ v, exec (.complexStarted x false v) s =
          .next (s.close ((s.begun.setCplx x { c with state := .failed }).raise 455 x).settleSto))
        ∧ (c.forTakeover = false → exec (.complexStarted x true false) s = .next (s.close
          ((s.begun.setCplx x { c with state := .failed, imgSlot := i, verifyFail := true }).raise 455 x).settleSto))
        ∧ (c.forTakeover = true → ∀ v, ∃ u : State, exec (.complexStarted x false v) s = .next (s.close u.settleSto)
          ∧ u.ksc.dead = true))
      ∧ (c.state ≠ .starting → ∀ t v, exec (.complexStarted x t v) s = .next (s.close s.begun.settleSto))
      ∧ (c.state = .testing →
        exec (.complexTestEnd x true) s = .next (s.close (s.begun.setCplx x { c with state := .off, testPass := true }))
        ∧ exec (.complexTestEnd x false) s = .next (s.close (s.begun.setCplx x { c with state := .failed, testPass := false })))
      ∧ (c.state ≠ .testing → ∀ p, exec (.complexTestEnd x p) s = .next (s.close s.begun)))

/-- Packets at the Masons: a packet is delivered to a free slot of its hash's cluster; the queue registers hand out the oldest
delivered slot and a free one; a slot handed back goes to the return FIFO, and one that the code does not hold is counted; a
RETURN of a stale slot or of a retired epoch is discarded, and otherwise admitted with the fields that Mason code may change; a
NEW is admitted afresh; a DISCARD is counted under the Mark's reason (spec/01 R36, R567-R571). -/
def Obligations.MasonsHoldPackets : Prop :=
  ∀ (s : State) (c : Nat), c < 4 → s.released = true → s.xpe.clusters.length = 4 → s.inReset 17 = false →
    let cl := s.cluster c
    (∀ p x, s.oldestAt .exc = some (p, x) → x.prov = false → s.ready 14 = true → s.ready 17 = true → x.item = none →
      s.masonOf x.mark.hash = some c → s.genOk x.mark.inst x.mark.gen = true → markAge s.now x.mark.ts < 2 ^ 31 →
      (cl.freeSlots = [] → exec .masonDelivery s = .next (s.close s.begun))
      ∧ (cl.freeSlots ≠ [] → ∃ k, k ∈ cl.freeSlots ∧
        let t := { s.begun with freeCount := s.freeCount + 1 }.masonPlace c k x
        exec .masonDelivery s = .next (s.close
          (((((t.count (tmsCounter 45 0) 1).count (tmsCounter 45 1) x.mark.len)).count (xpeCounter c 0) 1).removePkt p))))
    ∧ (s.coresUp c = true →
      (cl.xq = [] → exec (.xqPop c) s = .next (s.close { s.begun with out := [.pop c 0] }))
      ∧ (∀ k q, cl.xq = k :: q → exec (.xqPop c) s = .next (s.close
        ((s.begun.setCluster c ({ cl with xq := q }.setSlot k { cl.slot k with
          st := .popped, since := s.now, raised := false })).send (.pop c (k + 2 ^ 31)))))
      ∧ (cl.freeSlots = [] → exec (.xqFreePop c) s = .next (s.close { s.begun with out := [.pop c 0] }))
      ∧ (cl.freeSlots ≠ [] → ∃ k, k ∈ cl.freeSlots ∧
        let t := { s.begun with freeCount := s.freeCount + 1 }
        exec (.xqFreePop c) s = .next (s.close
          ((t.setCluster c (cl.setSlot k { st := .fresh, isFree := true, since := s.now })).send (.pop c (k + 2 ^ 31)))))
      ∧ (∀ w, w < 2 ^ 32 → let e := retEntryOf w
        let v := cl.slot e.slot
        let y := cl.setSlot e.slot { v with st := .returned }
        (v.st = .popped ∨ v.st = .fresh →
          (cl.ret.length < 64 → cl.stalled = [] → exec (.xqRet c w []) s =
            .next (s.close (s.begun.setCluster c { y with ret := cl.ret ++ [e] })))
          ∧ (64 ≤ cl.ret.length → exec (.xqRet c w []) s =
            .next (s.close (s.begun.setCluster c { y with stalled := cl.stalled ++ [e] }))))
        ∧ (v.st ≠ .popped → v.st ≠ .fresh → exec (.xqRet c w []) s = .next (s.close (s.begun.count (xpeCounter c 5) 1)))))
    ∧ (∀ e q, cl.ret = e :: q →
      let v := cl.slot e.slot
      let given := cl.slotMark e.slot
      let frame := cl.slotFrame e.slot e.len
      let back := s.returnMark v.mark given e
      let new := s.newMark given e
      let lenOk := 14 ≤ e.len ∧ e.len ≤ 10240
      (e.action = 0 → v.isFree = false → lenOk →
        (v.stale = true → given.inst = v.inst → exec (.masonReturn c) s = .next (s.close
          (((s.begun.count (xpeCounter c 1) 1).count (xpeReason Reason.staleGen) 1).retTaken c e)))
        ∧ (v.stale = false → back.epoch ≠ s.rules.epoch → exec (.masonReturn c) s = .next (s.close
          (((s.begun.count (xpeCounter c 1) 1).count (clsCounter back.course 9) 1).retTaken c e)))
        ∧ (v.stale = false → back.epoch = s.rules.epoch →
          let r := s.begun.newPkt { mark := back, bytes := frame, stage := .waitSlot, fresh := false, since := s.now }
          let t := r.2.createMark r.1
          ∀ y, t.pkt r.1 = some y → y.stage = .atParser →
            exec (.masonReturn c) s = .next (s.close ((t.count (xpeCounter c 1) 1).retTaken c e))))
      ∧ (e.action = 2 → v.isFree = true → lenOk →
        let r := s.begun.newPkt { mark := new, bytes := frame, stage := .waitSlot, fresh := true, since := s.now }
        let t := r.2.createMark r.1
        ∀ y, t.pkt r.1 = some y →
          (y.stage = .atParser → exec (.masonNew c) s = .next (s.close ((t.count (xpeCounter c 3) 1).retTaken c e)))
          ∧ (y.stage ≠ .atParser → exec (.masonNew c) s = .next (s.close s.begun)))
      ∧ (e.action = 1 ∨ ¬lenOk → exec (.masonDiscard c) s = .next (s.close
          (((s.begun.count (xpeCounter c 2) 1).count (xpeReason given.reason) 1).retTaken c e)))
      ∧ (e.action = 0 → v.isFree = true → lenOk → exec (.masonDiscard c) s = .next (s.close
          ((((s.begun.count (xpeCounter c 2) 1).count (xpeReason given.reason) 1).count (xpeCounter c 6) 1).retTaken c e))))

/-- Mason clusters: a held slot is reported once past hold_us; DRAIN needs an IN cluster beside another, TEST an OUT or FAILED
one, RETURN an OUT one, whose cores take the entry; a draining cluster goes OUT when it holds nothing; a test clears the SRAM
and ends OUT with test_pass, or FAILED (R571, R572). -/
def Obligations.ClustersAreManaged : Prop :=
  ∀ (s : State) (m : Master) (c : Nat), c < 4 → s.released = true →
    let a := blockBase 17 + 0x1000
    let cl := s.cluster c
    let fin := fun (op r : Nat) (u : State) => Host.Outcome.next (φ := Fault) (ρ := Refusal)
      (s.close (m.logged a 4 (op + c * 4) (u.endXpe r)))
    (s.writes m a → m.isFw = true → s.xpe.cmd.busy = false →
      (cl.state = .inService → 1 < s.inClusters.length →
        exec (.clusterDrain m c) s = fin 1 0 (s.begun.setCluster c { cl with state := .draining }).xpeReady)
      ∧ (cl.state = .inService → s.inClusters.length ≤ 1 → exec (.clusterDrain m c) s = fin 1 2 s.begun)
      ∧ (cl.state ≠ .inService → exec (.clusterDrain m c) s = fin 1 1 s.begun)
      ∧ (cl.state = .out ∨ cl.state = .failed →
        exec (.clusterTest m c) s = fin 2 0 (s.begun.setCluster c { cl with state := .testing }).xpeReady)
      ∧ (cl.state ≠ .out → cl.state ≠ .failed → exec (.clusterTest m c) s = fin 2 1 s.begun)
      ∧ (cl.state = .out → s.xpe.clusters.length = 4 → exec (.clusterReturn m c) s = fin 3 0
          (s.begun.setCluster c { cl with state := .inService, entry := s.word Reg.xpeClusterCtl [c] }).xpeReady)
      ∧ (cl.state ≠ .out → exec (.clusterReturn m c) s = fin 3 1 s.begun))
    ∧ (cl.state = .draining → cl.slots = [] → cl.ret = [] → cl.stalled = [] → exec (.clusterOut c) s =
        .next (s.close ((s.begun.setCluster c { cl with state := .out }).xpeReady.raise 420 c)))
    ∧ (cl.state ≠ .draining ∨ cl.slots ≠ [] ∨ cl.ret ≠ [] → exec (.clusterOut c) s = .next (s.close s.begun))
    ∧ (cl.state = .testing → s.xpe.clusters.length = 4 →
      let mem := cl.mem.filter (fun (p : Nat × Byte) => decide (0x200000 ≤ p.1))
      exec (.clusterTestEnd c true) s =
        .next (s.close (s.begun.setCluster c { cl with testPass := true, mem := mem, state := .out }).xpeReady)
      ∧ exec (.clusterTestEnd c false) s =
        .next (s.close ((s.begun.setCluster c { cl with testPass := false, mem := mem, state := .failed }).xpeReady.raise 421 c)))
    ∧ (cl.state ≠ .testing → ∀ p, exec (.clusterTestEnd c p) s = .next (s.close s.begun))
    ∧ (∀ k, let v := cl.slot k
      let us := s.fld Reg.xpeClusterCfg [c] 0 16
      (v.st = .popped ∨ v.st = .fresh → v.raised = false → us ≠ 0 → v.since + 1000 * us < s.now →
        exec (.slotHoldExpiry c k) s = .next (s.close
          (((s.begun.setCluster c (cl.setSlot k { v with raised := true })).count (xpeCounter c 4) 1).raise 419 c)))
      ∧ (v.raised = true ∨ us = 0 ∨ s.now ≤ v.since + 1000 * us →
        exec (.slotHoldExpiry c k) s = .next (s.close s.begun)))
/-! ### The Quoin link and the stack (spec/20, spec/10 R308, spec/21 R636) -/

/-- Quoin links: port_en starts training, and clearing it takes the link down; aligned lanes negotiate once the configuration is
locked; HELLO is sent in NEGOTIATE and a received one is judged by module ID and version; the port is UP once both ends have
seen each other; a lost lane, or a DOWN message on an UP link, trains it again (R599, R602, R605, R617). -/
def Obligations.QuoinLinksNegotiate : Prop :=
  ∀ (s : State) (m : Master) (p : Nat), p < 4 → s.released = true → s.ready 20 = true → s.csc.ports.length = 4 →
    let x := s.quoin p
    let a := Reg.cscPortCfg.addr [p]
    (∀ d, d < 2 ^ 32 → s.writes m a → s.feature 6 = true →
      let t := s.begun.setWord Reg.cscPortCfg [p] (putBits (putBits (putBits (s.word Reg.cscPortCfg [p]) 0 1 (d % 2)) 1 2 (d / 2 % 4))
        3 16 (d / 8 % 65536))
      (bitOf d 0 = true → x.state = .disabled → exec (.quoinPortEnable m p d) s =
        .next (s.close (m.logged a 4 d (t.setQuoin p { x with state := .training }))))
      ∧ (bitOf d 0 = true → x.state ≠ .disabled → exec (.quoinPortEnable m p d) s = .next (s.close (m.logged a 4 d t)))
      ∧ (bitOf d 0 = false → x.state ≠ .disabled → exec (.quoinPortEnable m p d) s =
        .next (s.close (m.logged a 4 d (t.quoinDown p .disabled (some 1) false)))))
    ∧ (∀ r i, i < 256 →
      (x.state = .training → bitOf s.bring.readyQuoin p = true → s.clocks.lrefa = true → bitOf s.glb.lock 20 = true →
        exec (.laneAlign p r i) s = .next (s.close (s.begun.setQuoin p { x with
          state := .negotiate, laneRev := r, rxInvert := i, heard := false, sentSeen := false, gotSeen := false })))
      ∧ (x.state ≠ .training ∨ bitOf s.glb.lock 20 = false → exec (.laneAlign p r i) s = .next (s.close s.begun)))
    ∧ (let hello := fun (seen : Bool) => s.begun.send (.flit p 2 8 true true 0 (s.helloBytes p seen))
      (x.state = .negotiate → x.heard = false → x.sentSeen = false → exec (.helloTimer p) s = .next (s.close (hello false)))
      ∧ (x.state = .negotiate → x.heard = true → x.gotSeen = false → exec (.helloTimer p) s =
        .next (s.close ((hello true).setQuoin p { x with sentSeen := true })))
      ∧ (x.state = .negotiate → x.heard = true → x.gotSeen = true → exec (.helloTimer p) s =
        .next (s.close (((hello true).setQuoin p { x with sentSeen := true }).linkGoesUp p)))
      ∧ (x.state ≠ .negotiate → exec (.helloTimer p) s = .next (s.close s.begun)))
    ∧ (∀ h : HelloMsg, h.id < 4 → h.port < 4 → h.verMin < 16 → h.verMax < 16 →
      let v := min (s.fld Reg.cscCfg [] 6 2) h.verMax
      let y := { x with
        state := .negotiate, heard := true, gotSeen := x.gotSeen || h.seen, helloFrom := (h.id, h.port, v)
        peerAlloc := (List.range 9).map (fun k => h.alloc.getD k 0 % 8192) }
      (x.state = .negotiate ∨ x.state = .idConflict →
        (h.id = s.moduleId → exec (.hello p h) s = .next (s.close (s.begun.setQuoin p { x with state := .idConflict })))
        ∧ (h.id ≠ s.moduleId → v < h.verMin →
          exec (.hello p h) s = .next (s.close (s.begun.setQuoin p { x with state := .verMismatch })))
        ∧ (h.id ≠ s.moduleId → h.verMin ≤ v →
          (x.sentSeen = true → (x.gotSeen || h.seen) = true →
            exec (.hello p h) s = .next (s.close ((s.begun.setQuoin p y).linkGoesUp p)))
          ∧ (x.sentSeen = false ∨ (x.gotSeen || h.seen) = false →
            exec (.hello p h) s = .next (s.close (s.begun.setQuoin p y)))))
      ∧ (x.state ≠ .negotiate → x.state ≠ .idConflict → exec (.hello p h) s = .next (s.close s.begun)))
    ∧ (x.state = .up →
      exec (.quoinLinkLoss p) s = .next (s.close (s.begun.quoinDown p .training none false))
      ∧ ∀ c, exec (.down p c) s = .next (s.close (s.begun.quoinDown p .training none false)))
    ∧ (x.state = .negotiate → exec (.quoinLinkLoss p) s = .next (s.close (s.begun.setQuoin p { x with
        state := .training, heard := false, sentSeen := false, gotSeen := false })))
    ∧ (x.state = .disabled ∨ x.state = .training → exec (.quoinLinkLoss p) s = .next (s.close s.begun))
    ∧ (x.state ≠ .up → ∀ c, exec (.down p c) s = .next (s.close s.begun))

/-- Flits: one that cannot be corrected, and one out of sequence, is discarded and nak goes out once; a header's credits are
added; a control flit in sequence is acknowledged, its credit returned and its message acted on; an invalid one is acknowledged
and counted, and an unknown message counted; flits not acknowledged for 1 µs are sent again, and the ninth sending takes the link
down; a wait for credit is reported once; a port down too long loses what it holds (R600-R604, R617). -/
def Obligations.FlitsAreExchanged : Prop :=
  ∀ (s : State) (p : Nat), p < 4 → s.released = true → s.ready 20 = true → s.csc.ports.length = 4 →
    let x := s.quoin p
    let nak := fun (t : State) (n : Nat) =>
      (t.setQuoin p { t.quoin p with nakSent := true }).send (.ack p ((n + 4095) % 4096) true)
    (x.state = .disabled ∨ x.state = .training → ∀ f, exec (.flitRx p f) s = .next (s.close s.begun))
    ∧ (∀ f : FlitIn, x.state = .up →
      (2 ≤ f.fec → let t := s.begun.count (cscCounter p 5) 1
        (x.nakSent = false → exec (.flitRx p f) s = .next (s.close (nak t x.rxSeq)))
        ∧ (x.nakSent = true → exec (.flitRx p f) s = .next (s.close t)))
      ∧ (f.fec = 0 → f.typ = 0 → f.ackVld = false → f.nak = false → x.waiting = List.replicate 9 [] →
          x.creditWait = List.replicate 9 none → x.credits.length = 9 → f.crCh ≤ 8 →
        exec (.flitRx p f) s = .next (s.close (s.begun.setQuoin p { x with
          credits := setNth x.credits f.crCh (x.credits.getD f.crCh 0 + f.crCount) })))
      ∧ (f.fec = 0 → f.seq < 4096 → ((f.typ = 2 ∧ f.ch = 8 ∧ leAt f.payload 0 1 ≠ 1 ∧ leAt f.payload 0 1 ≠ 7) ∨ f.typ = 1) →
        let t := s.begun.rxHeader p f
        (t.quoin p).state = .up →
        (f.seq ≠ (t.quoin p).rxSeq → exec (.flitRx p f) s = .next (s.close (t.nakGap p)))
        ∧ (f.seq = (t.quoin p).rxSeq →
          let u := (t.setQuoin p { t.quoin p with
            rxSeq := ((t.quoin p).rxSeq + 1) % 4096, ackVld := true, nakSent := false }).send (.ack p f.seq false)
          (f.typ = 1 → 8 < f.ch → exec (.flitRx p f) s = .next (s.close (u.count (cscCounter p 9) 1)))
          ∧ (f.typ = 1 → f.ch ≤ 8 → exec (.flitRx p f) s = .next (s.close (u.rxData p f.ch f.sop f.eop f.payload)))
          ∧ (f.typ = 2 → f.sop = true → f.eop = true → let v := (u.credit p 8 1).setRx p 8 none none
            (8 ≤ leAt f.payload 0 1 ∨ leAt f.payload 0 1 = 0 →
              exec (.flitRx p f) s = .next (s.close (v.count (cscModCounter 4) 1)))
            ∧ (leAt f.payload 0 1 = 5 → exec (.flitRx p f) s = .next (s.close
              (v.rxTime p (leAt f.payload 4 8) (leAt f.payload 12 8) (leAt f.payload 20 8))))))))
    ∧ (let us := x.unacked.map (fun (u : SentFlit) => { u with sends := u.sends + 1 })
      let sent := us.foldl (fun (t : State) u =>
        (t.send (.flit p u.flit.typ u.flit.ch u.flit.sop u.flit.eop u.seq u.flit.payload)).count (cscCounter p 6) 1)
          (s.begun.setQuoin p { x with unacked := us, ackAt := s.now })
      (x.state = .up → x.unacked ≠ [] → x.ackAt + 1000 ≤ s.now →
        ((∀ u ∈ x.unacked, u.sends < 8) → exec (.resendTimer p) s = .next (s.close sent))
        ∧ ((∃ u ∈ x.unacked, 8 ≤ u.sends) → exec (.resendTimer p) s =
          .next (s.close (sent.quoinDown p .training (some 2) false))))
      ∧ (x.state ≠ .up ∨ x.unacked = [] ∨ s.now < x.ackAt + 1000 → exec (.resendTimer p) s = .next (s.close s.begun)))
    ∧ (∀ ch t, x.creditWait.getD ch none = some t → let lim := 1000 * s.fld Reg.cscPortCredit [p] 0 16
      (t ≠ 0 → t + lim ≤ s.now → exec (.creditWaitExpiry p ch) s = .next (s.close
        (((s.begun.setQuoin p { x with creditWait := setNth x.creditWait ch (some 0) }).count (cscCounter p 7) 1).raise 522
          (globalPort s.moduleId (40 + p)))))
      ∧ (t = 0 ∨ s.now < t + lim → exec (.creditWaitExpiry p ch) s = .next (s.close s.begun)))
    ∧ (s.quoinShut p = false → exec (.quoinDownFlush p) s = .next (s.close s.begun))
    ∧ (s.quoinShut p = true → ∃ u : State, exec (.quoinDownFlush p) s = .next (s.close u)
      ∧ ∀ w ∈ (u.quoin p).waiting, ∀ f fs, w = f :: fs → f.typ ≠ 1)

/-- The stack: a renewal by the master with its epoch moves the lease end and is sent; a LEASE is accepted by epoch, sequence or
priority and passed on, or refused and counted; a lease that ends is reported; the best candidate takes an ownerless lease under
the next epoch; a configuration epoch is sent, accepted when newer, and becomes current with the other shard bank at its time;
TOPO and TIME are sent and taken; a module lost is reported (R606, R611-R616). -/
def Obligations.StackIsLed : Prop :=
  ∀ (s : State) (p : Nat), p < 4 → s.released = true → s.ready 20 = true → s.csc.ports.length = 4 →
    let c := s.csc
    let x := s.quoin p
    let refused := fun k => s.begun.count (cscModCounter k) 1
    (∀ m e, e < 65536 →
      (let a := blockBase 20 + 0x1008;
        (s.writes m a → m.isFw = true → c.isMaster = true → e = c.leaseEpoch → exec (.stackRenew m e) s =
          .next (s.close (m.logged a 4 e ({ s.begun with csc := { c with
            leaseEnd := s.now + 1000000, renewSeq := (c.renewSeq + 1) % 2 ^ 32 } }.sendLease))))
        ∧ (s.reaches m a → m.isFw = true → c.isMaster = false ∨ e ≠ c.leaseEpoch →
          exec (.stackRenew m e) s = .next (s.close (refused 2)))
        ∧ (s.reaches m a → m.isFw = false → exec (.stackRenew m e) s = .next (s.close s.begun)))
      ∧ (let a := blockBase 20 + 0x1018
        let at_ := s.word Reg.cscEpochAt [0] + 2 ^ 32 * s.word Reg.cscEpochAt [1];
        (s.writes m a → m.isFw = true → c.isMaster = true → newer16 e c.cfgEpoch = true → s.tsu.todNs < at_ →
          let t := s.begun.sendAll none (fun u _ => epochBytes u.csc.leaseEpoch e at_ u.moduleId)
          exec (.epochCmd m e) s = .next (s.close (m.logged a 4 e { t with csc := { t.csc with pending := some (e, at_) } })))
        ∧ (s.reaches m a → m.isFw = true → c.isMaster = false ∨ newer16 e c.cfgEpoch = false →
          exec (.epochCmd m e) s = .next (s.close (refused 3)))))
    ∧ (∀ e i prio n, e < 65536 → i < 4 → prio < 16 → n < 2 ^ 32 → x.state = .up →
      let own := if c.isMaster = true then s.ownPrio else c.masterPrio
      let good := newer16 e c.leaseEpoch = true ∨ (e = c.leaseEpoch ∧ i = c.masterId ∧ newer32 n c.renewSeq = true)
        ∨ (e = c.leaseEpoch ∧ i ≠ c.masterId ∧ (own < prio ∨ (prio = own ∧ i < c.masterId)))
      let t := { s.begun with csc := { c with
        leaseEpoch := e, masterId := i, masterValid := true, leaseEnd := s.now + 1000000, renewSeq := n, masterPrio := prio
        isMaster := c.isMaster && decide (i = s.moduleId) } }.sendAll (some p) (fun _ _ => leaseBytes e i prio n)
      (good → i = c.masterId → e = c.leaseEpoch → exec (.lease p e i prio n) s = .next (s.close t))
      ∧ (good → (i ≠ c.masterId ∨ e ≠ c.leaseEpoch) → exec (.lease p e i prio n) s =
        .next (s.close ((t.count (cscModCounter 1) 1).raise 519 0)))
      ∧ (¬good → exec (.lease p e i prio n) s = .next (s.close (refused 2))))
    ∧ (x.state ≠ .up → ∀ e i prio n, exec (.lease p e i prio n) s = .next (s.close s.begun))
    ∧ (c.masterValid = true → c.leaseEnd ≤ s.now →
      let t := { s.begun with csc := { c with masterValid := false, isMaster := false, invalidSince := s.now } }
      exec .stackLeaseExpiry s = .next (s.close (t.raise 520 0)))
    ∧ (c.masterValid = false ∨ s.now < c.leaseEnd → exec .stackLeaseExpiry s = .next (s.close s.begun))
    ∧ (c.masterValid = true ∨ s.now < c.invalidSince + 200000 → exec .election s = .next (s.close s.begun))
    ∧ (c.masterValid = false → c.invalidSince + 200000 ≤ s.now → x.state = .up → s.candidates = [(s.ownPrio, s.moduleId)] →
      let t := { s.begun with csc := { c with
        leaseEpoch := (c.leaseEpoch + 1) % 65536, masterValid := true, isMaster := true, masterId := s.moduleId
        leaseEnd := s.now + 1000000, masterPrio := s.ownPrio } }
      exec .election s = .next (s.close ((t.sendLease.count (cscModCounter 1) 1).raise 519 0)))
    ∧ (∀ le ce tod i, le < 65536 → ce < 65536 → tod < 2 ^ 64 → i < 4 → x.state = .up →
      let good := le = c.leaseEpoch ∧ i = c.masterId ∧ newer16 ce c.cfgEpoch = true ∧
        (∀ q ∈ c.pending, newer16 ce q.1 = true)
      let t := s.begun.sendAll (some p) (fun _ _ => epochBytes le ce tod i)
      (good → s.tsu.todNs < tod →
        exec (.epoch p le ce tod i) s = .next (s.close { t with csc := { t.csc with pending := some (ce, tod) } }))
      ∧ (good → tod ≤ s.tsu.todNs → exec (.epoch p le ce tod i) s = .next (s.close { t with csc := { t.csc with
          cfgEpoch := ce, bank := 1 - t.csc.bank, pending := none } }))
      ∧ (¬good → exec (.epoch p le ce tod i) s = .next (s.close (refused 3))))
    ∧ (∀ e t, c.pending = some (e, t) →
      (t ≤ s.tsu.todNs → exec .epochActivation s =
        .next (s.close { s.begun with csc := { c with cfgEpoch := e, bank := 1 - c.bank, pending := none } }))
      ∧ (s.tsu.todNs < t → exec .epochActivation s = .next (s.close s.begun)))
    ∧ (c.topoAt + 100000 ≤ s.now → exec .topoTimer s = .next (s.close
        ({ s.begun with csc := { c with topoAt := s.now } }.sendAll none (fun t q => t.topoBytes q))))
    ∧ (c.timeAt + 125000 ≤ s.now → exec .timeTimer s = .next (s.close
        ({ s.begun with csc := { c with timeAt := s.now } }.sendAll none (fun t q => t.timeBytes q))))
    ∧ (s.now < c.topoAt + 100000 → exec .topoTimer s = .next (s.close s.begun))
    ∧ (s.now < c.timeAt + 125000 → exec .timeTimer s = .next (s.close s.begun))
    ∧ (∀ k : TopoMsg, x.state = .up → k.id < 4 → k.direct < 16 → k.prio < 16 →
      exec (.topo p k) s = .next (s.close ((s.begun.setQuoin p { x with topo := some {
        at_ := s.now, id := k.id, direct := k.direct, prio := k.prio, capable := k.capable, kscReady := k.kscReady } }).settleReach)))
    ∧ (∀ r : TopoRec, x.topo = some r →
      (r.at_ + 300000 ≤ s.now → exec (.topoExpiry p) s = .next (s.close (s.begun.setQuoin p { x with topo := none }).settleReach))
      ∧ (s.now < r.at_ + 300000 → exec (.topoExpiry p) s = .next (s.close s.begun)))
    ∧ (∀ tx et er, x.state = .up → tx < 2 ^ 64 → et < 2 ^ 64 → er < 2 ^ 64 → let r := s.tsu.todNs
      exec (.time p tx et er) s = .next (s.close (s.begun.setQuoin p { x with
        offsetNs := signedOf 64 (unsignedOf 64 (((er : Int) - et + (tx - r)) / 2))
        delayNs := unsignedOf 16 (((r : Int) - et - (tx - er)) / 2), echo := some (tx, r) })))
    ∧ (∀ i t, c.lostSince.getD i none = some t →
      (t + 1000000 ≤ s.now → let u := { s.begun with csc := { c with lostSince := setNth c.lostSince i none } }
        exec (.moduleLostExpiry i) s = .next (s.close (u.raise 521 i)))
      ∧ (s.now < t + 1000000 → exec (.moduleLostExpiry i) s = .next (s.close s.begun)))

/-- Quoin mailboxes and retirement: an action that arrives on an UP link acts on this copy, judged where this copy is end B's; a
link down for 1,000,000 ticks counts as the far end's reset; a write to CSC_RETIRE takes ports out of the route sets or back
(spec/10 R303, R304, R308, spec/21 R636). -/
def Obligations.QuoinMailboxesAndRetirement : Prop :=
  ∀ (s : State) (p : Nat), p < 4 → s.released = true → s.csc.ports.length = 4 →
    let x := s.quoin p
    let y := s.chan (2052 + p)
    let c := 2052 + p
    (s.ready 20 = true →
      (x.state = .up → s.ivm.quoinEndA.getD p 0 = 6 →
        (∀ w v, w < 16 → v < 2 ^ 32 → exec (.mbox p 0 w v) s =
          .next (s.close (s.begun.setChan c { y with data := mapSet 0 y.data w v })))
        ∧ (∀ w v, exec (.mbox p 1 w v) s = .next (s.close
          (((s.begun.setChan c { y with state := .posted, seq := (y.seq + 1) % 256 }).count (ivmCounter 2) 1).mbxEvent c true))))
      ∧ (x.state = .up → s.ivm.quoinEndA.getD p 0 = 3 →
        (y.state = .posted → ∀ w v, exec (.mbox p 2 w v) s =
          .next (s.close ((s.begun.setChan c { y with state := .replied }).mbxEvent c false)))
        ∧ (y.state ≠ .posted → ∀ w v, exec (.mbox p 2 w v) s = .next (s.close
          ((s.begun.setChan c { y with b := { y.b with refused := true } }).count (ivmCounter 5) 1))))
      ∧ (x.state ≠ .up → ∀ a w v, exec (.mbox p a w v) s = .next (s.close s.begun)))
    ∧ (∀ t, s.ivm.quoinDownSince.getD p none = some t →
      (x.state = .up ∨ s.now < t + 1000000 → exec (.mbxLinkTimeout p) s = .next (s.close s.begun))
      ∧ (x.state ≠ .up → t + 1000000 ≤ s.now →
        let u := { s.begun with ivm := { s.ivm with quoinDownSince := setNth s.ivm.quoinDownSince p none } }
        let far := decide (s.endVal c false = 6)
        exec (.mbxLinkTimeout p) s = .next (s.close
          ((u.setQuoin p { x with waiting := setNth x.waiting 8 [] }).clearChan c far (!far)))))
    ∧ (∀ m d, d < 2 ^ 32 → let a := Reg.cscRetire.addr []
      (s.writes m a → m.isFw = true → exec (.retire m d) s = .next (s.close (m.logged a 4 d
        (s.begun.setWord Reg.cscRetire [] (putBits (s.word Reg.cscRetire []) 0 4 (d % 16))).settleReach)))
      ∧ (s.reaches m a → m.isFw = false → exec (.retire m d) s = .next (s.close s.begun)))

/-! ### Rules stated whole (spec/01 R13, spec/02 R61, spec/19 R581, R590) and the block's memories -/

/-- A 1 written to TSU_SNAP.snap captures the tick count and the nanoseconds of the time-of-day at the same tick into
TSU_SNAP_TICK and TSU_SNAP_TOD; a 0 captures nothing; nothing else happens but the journal entry of firmware's write (R61). -/
def Obligations.SnapshotsAreOneTick : Prop :=
  ∀ (s : State) (m : Master) (d : Nat), s.banksHeld → d < 2 ^ 32 → s.writes m 0x10030 →
    (bitOf d 0 = true → exec (.tsuSnap m d) s =
      .next (m.logged 0x10030 4 d { s.begun with tsu := { s.tsu with snapTick := s.tsu.tick, snapTod := s.tsu.todNs } }))
    ∧ (bitOf d 0 = false → exec (.tsuSnap m d) s = .next (m.logged 0x10030 4 d s.begun))

/-- A write to FLT_INJECT in factory test mode raises the source that it names, with the detail of FLT_INJECT_DETAIL and
master kind 6, as a real event does; outside factory test mode, or for a reserved source, it is ignored, counted, and raises
flt.inject_denied (R590). -/
def Obligations.InjectionsAreEvents : Prop :=
  ∀ (s : State) (m : Master) (d : Nat), d < 2 ^ 32 → s.writes m (blockBase 19 + 0x3010) →
    (s.tap.ftMode = true → Reg.srcDefined (bitsOf d 0 10) = true →
      exec (.faultInject m d) s = .next (s.close (m.logged (blockBase 19 + 0x3010) 4 d
        ((s.begun.count (fltCounter 5) 1).raise (bitsOf d 0 10) (s.word Reg.fltInjectDetail []) none { master := 6 * 65536 }))))
    ∧ (s.tap.ftMode = false ∨ Reg.srcDefined (bitsOf d 0 10) = false →
      exec (.faultInject m d) s = .next (s.close ((s.begun.count (fltCounter 6) 1).raise 483 0)))

/-- The Plumb handles an event as R581 says: with n the unacknowledged events of its class before it, the level is the
source's, plus n where the class is not C, and 5 at most; the first event of a class is captured with its level, address,
master, access, tick and detail; the count rises up to 7; the source is pending, as every source that was; the event stands
in its block's history; and from level 3, 4 and 5 a reset is due, ERR_N is pulled low and a chip reset is due (R580).  A
counter of the Plumb that turns to its upper half is an event of its own and is left out here (R588). -/
def Obligations.EventsAreRecorded : Prop :=
  ∀ (s : State) (src d : Nat) (who : Option Nat) (acc : Acc), s.released = true → Reg.srcDefined src = true →
    s.flt.caps.length = 4 → (∀ k, k < 5 → mapGet 0 s.counters (fltCounter k) + 8 < 2 ^ 47) →
    let t := s.raise src d who acc
    let k := Reg.srcClass src
    let cap := s.flt.caps.getD k {}
    let n := if cap.valid then cap.count else 0
    let cfg := s.fld Reg.fltSrcCfg [src] 0 3
    let lvl := if k = 0 then cfg else min (cfg + n) 5
    (t.flt.caps.getD k {} =
        if cap.valid then { cap with count := if cap.count < 7 then cap.count + 1 else cap.count }
        else { valid := true, src := src, level := lvl, count := 1, addr := acc.addr, master := acc.master
               access := acc.access, tick := s.now, detail := d % 2 ^ 32 })
      ∧ (∀ j, j ≠ k → t.flt.caps.getD j {} = s.flt.caps.getD j {})
      ∧ t.eventPending src = true
      ∧ (∀ x, x ≠ src → t.eventPending x = s.eventPending x)
      ∧ (let h := mapGet {} s.flt.hist (srcBlock src)
        let h' := mapGet {} t.flt.hist (srcBlock src)
        h'.pushes = h.pushes + 1 ∧ mapGet none h'.entries (h.pushes % 8) =
          some { src, cls := k, level := lvl, escalated := decide (lvl ≠ cfg), seq := (h.pushes + 1) % 65536
                 detail := d % 2 ^ 32, tick := s.now })
      ∧ t.due = s.due ++ (if 3 ≤ lvl then [(if chipBlock (srcBlock src) then 21 else srcBlock src, src)] else [])
          ++ (if 5 ≤ lvl then [(21, src)] else [])
      ∧ t.flt.errpin = (s.flt.errpin || decide (4 ≤ lvl))

/-- A Mark whose fields fit their widths is read back from its 512 bits field by field, and from its 64 bytes (R12, R13). -/
def Obligations.MarksAreReadBack : Prop :=
  ∀ m : Mark, m.wf = true → Mark.ofBits m.toBits = m ∧ Mark.ofBits (leBytes m.toBytes) = m

/-- The block's byte-addressed memories (HBM, Keystone SRAM, Mason memory): bytes written are read back, every byte outside
them is as it was, and the canonical form is kept. -/
def Obligations.MemoriesHoldWhatIsWritten : Prop :=
  ∀ (m : Mem) (a : Nat) (bs : List Byte), mapWf 0 m = true →
    memReadBytes (memWriteBytes m a bs) a bs.length = bs
      ∧ (∀ x, x < a ∨ a + bs.length ≤ x → memRead (memWriteBytes m a bs) x = memRead m x)
      ∧ mapWf 0 (memWriteBytes m a bs) = true
end

