-- ==== Sys2Proof/Laws/Maps.lean ====
section
/-! SUPPORT. Sparse maps: what reading after writing gives, and that writing keeps the canonical form. -/

set_option Elab.async false

namespace Sys2Proof.Machine

variable {α : Type} [DecidableEq α]

/-- Every key of a map lies above `b`. -/
def keysAbove (b : Nat) (m : AMap α) : Prop := ∀ p ∈ m, b < p.1

omit [DecidableEq α] in
theorem keysRise_cons (k : Nat) (v : α) (m : AMap α) : keysRise ((k, v) :: m) = true ↔ keysAbove k m ∧ keysRise m = true := by
  induction m generalizing k v with
  | nil => simp [keysRise, keysAbove]
  | cons p m ih =>
    obtain ⟨k', v'⟩ := p
    rw [keysRise, Bool.and_eq_true, decide_eq_true_eq]
    constructor
    · intro ⟨h1, h2⟩
      refine ⟨?_, h2⟩
      have h3 := ((ih k' v').1 h2).1
      intro q hq
      rcases List.mem_cons.1 hq with h | h
      · subst h; exact h1
      · exact Nat.lt_trans h1 (h3 q h)
    · intro ⟨h1, h2⟩
      exact ⟨h1 _ (List.mem_cons_self ..), h2⟩

theorem mapWf_cons (d : α) (k : Nat) (v : α) (m : AMap α) :
    mapWf d ((k, v) :: m) = true ↔ keysAbove k m ∧ v ≠ d ∧ mapWf d m = true := by
  unfold mapWf
  simp only [Bool.and_eq_true, List.all_cons, decide_eq_true_eq, keysRise_cons]
  tauto

omit [DecidableEq α] in
theorem keysAbove_mapErase {b : Nat} {m : AMap α} (h : keysAbove b m) (q : Nat) : keysAbove b (mapErase m q) :=
  fun p hp => h p (List.mem_of_mem_filter hp)

omit [DecidableEq α] in
theorem mem_mapPut {m : AMap α} {q : Nat} {v : α} {p : Nat × α} (h : p ∈ mapPut m q v) : p = (q, v) ∨ p ∈ m := by
  induction m with
  | nil => simpa [mapPut] using h
  | cons x m ih =>
    obtain ⟨k, w⟩ := x
    unfold mapPut at h
    split at h
    · simpa using h
    · split at h
      · rcases List.mem_cons.1 h with h | h
        · exact .inl h
        · exact .inr (List.mem_cons_of_mem _ h)
      · rcases List.mem_cons.1 h with h | h
        · exact .inr (h ▸ List.mem_cons_self ..)
        · exact (ih h).imp id (List.mem_cons_of_mem _)

/-- Erasing keeps the canonical form. -/
theorem mapWf_mapErase {d : α} {m : AMap α} (h : mapWf d m = true) (q : Nat) : mapWf d (mapErase m q) = true := by
  induction m with
  | nil => exact h
  | cons x m ih =>
    obtain ⟨k, v⟩ := x
    obtain ⟨h1, h2, h3⟩ := (mapWf_cons ..).1 h
    unfold mapErase
    rw [List.filter_cons]
    split
    · exact (mapWf_cons ..).2 ⟨keysAbove_mapErase h1 q, h2, ih h3⟩
    · exact ih h3

/-- Placing a value that is not the default keeps the canonical form. -/
theorem mapWf_mapPut {d : α} {m : AMap α} (h : mapWf d m = true) (q : Nat) {v : α} (hv : v ≠ d) :
    mapWf d (mapPut m q v) = true := by
  induction m with
  | nil => exact (mapWf_cons ..).2 ⟨fun p hp => absurd hp (List.not_mem_nil), hv, h⟩
  | cons x m ih =>
    obtain ⟨k, w⟩ := x
    obtain ⟨h1, h2, h3⟩ := (mapWf_cons ..).1 h
    unfold mapPut
    split
    · rename_i hlt
      refine (mapWf_cons ..).2 ⟨?_, hv, h⟩
      intro p hp
      rcases List.mem_cons.1 hp with e | e
      · subst e; exact hlt
      · exact Nat.lt_trans hlt (h1 p e)
    · split
      · rename_i he
        subst he
        exact (mapWf_cons ..).2 ⟨h1, hv, h3⟩
      · rename_i h4 h5
        refine (mapWf_cons ..).2 ⟨?_, h2, ih h3⟩
        intro p hp
        rcases mem_mapPut hp with e | e
        · subst e; exact Nat.lt_of_le_of_ne (Nat.le_of_not_lt h4) (Ne.symm h5)
        · exact h1 p e

/-- Every write to a map keeps its canonical form. -/
theorem mapWf_mapSet {d : α} {m : AMap α} (h : mapWf d m = true) (q : Nat) (v : α) : mapWf d (mapSet d m q v) = true := by
  unfold mapSet
  split
  · exact mapWf_mapErase h q
  · exact mapWf_mapPut h q (by assumption)

omit [DecidableEq α] in
theorem mapGet_mapErase_ne (d : α) (m : AMap α) {q r : Nat} (h : r ≠ q) : mapGet d (mapErase m q) r = mapGet d m r := by
  induction m with
  | nil => rfl
  | cons x m ih =>
    obtain ⟨k, v⟩ := x
    unfold mapErase
    rw [List.filter_cons]
    split
    · simp only [mapGet]
      split
      · rfl
      · exact ih
    · rename_i hk
      have hk : k = q := by simpa using hk
      simp only [mapGet]
      rw [if_neg (by rw [hk]; exact fun e => h e.symm)]
      exact ih

omit [DecidableEq α] in
theorem mapGet_mapErase_self (d : α) (m : AMap α) (q : Nat) : mapGet d (mapErase m q) q = d := by
  induction m with
  | nil => rfl
  | cons x m ih =>
    obtain ⟨k, v⟩ := x
    unfold mapErase
    rw [List.filter_cons]
    split
    · rename_i hk
      have hk : k ≠ q := by simpa using hk
      simp only [mapGet]
      rw [if_neg hk]
      exact ih
    · exact ih

omit [DecidableEq α] in
theorem mapGet_mapPut_self (d : α) (m : AMap α) (q : Nat) (v : α) : mapGet d (mapPut m q v) q = v := by
  induction m with
  | nil => simp [mapPut, mapGet]
  | cons x m ih =>
    obtain ⟨k, w⟩ := x
    unfold mapPut
    split
    · simp [mapGet]
    · split
      · simp [mapGet]
      · rename_i h
        simp only [mapGet]
        rw [if_neg (fun e => h e.symm)]
        exact ih

omit [DecidableEq α] in
theorem mapGet_mapPut_ne (d : α) (m : AMap α) {q r : Nat} (v : α) (h : r ≠ q) : mapGet d (mapPut m q v) r = mapGet d m r := by
  have h' : ¬ q = r := fun e => h e.symm
  induction m with
  | nil => simp [mapPut, mapGet, h']
  | cons x m ih =>
    obtain ⟨k, w⟩ := x
    unfold mapPut
    split
    · simp [mapGet, h']
    · split
      · rename_i e; subst e; simp [mapGet, h']
      · simp only [mapGet]
        split
        · rfl
        · exact ih

/-- Reading the place just written. -/
@[simp] theorem mapGet_mapSet_self (d : α) (m : AMap α) (q : Nat) (v : α) : mapGet d (mapSet d m q v) q = v := by
  unfold mapSet
  split
  · rename_i h; rw [mapGet_mapErase_self, h]
  · exact mapGet_mapPut_self ..

/-- Reading any other place. -/
theorem mapGet_mapSet_ne (d : α) (m : AMap α) {q r : Nat} (v : α) (h : r ≠ q) : mapGet d (mapSet d m q v) r = mapGet d m r := by
  unfold mapSet
  split
  · exact mapGet_mapErase_ne d m h
  · exact mapGet_mapPut_ne d m v h

end Sys2Proof.Machine
end

