-- ==== Sys2Proof/Laws/Events.lean ====
section
/-! SUPPORT. Everything that raising an event or counting can do: `State.raise` and `State.count` change the Plumb, the
counters, the port half-range bits, what is sent, what is due, WAKE_N, the functions' pending vectors, the mailbox channels and
notices, and the power-up of a complex; nothing else. -/

set_option Elab.async false

namespace Sys2Proof.Machine

theorem EventFrame.refl (s : State) : EventFrame s s := rfl

theorem EventFrame.trans {s u t : State} (h : EventFrame s u) (k : EventFrame u t) : EventFrame s t :=
  calc t = u.eventOn t := k
    _ = (s.eventOn u).eventOn t := congrArg (fun x => State.eventOn x t) h
    _ = s.eventOn t := rfl

/-- A condition on which step is taken. -/
theorem EventFrame.ite {s a b : State} (c : Prop) [Decidable c] (ha : EventFrame s a) (hb : EventFrame s b) :
    EventFrame s (if c then a else b) := by
  split
  · exact ha
  · exact hb

theorem EventFrame.pace {s t : State} (h : EventFrame s t) : t.pace = s.pace :=
  show t.pace = (s.eventOn t).pace from congrArg State.pace h
theorem EventFrame.clocks {s t : State} (h : EventFrame s t) : t.clocks = s.clocks :=
  show t.clocks = (s.eventOn t).clocks from congrArg State.clocks h
theorem EventFrame.tsu {s t : State} (h : EventFrame s t) : t.tsu = s.tsu :=
  show t.tsu = (s.eventOn t).tsu from congrArg State.tsu h
theorem EventFrame.bring {s t : State} (h : EventFrame s t) : t.bring = s.bring :=
  show t.bring = (s.eventOn t).bring from congrArg State.bring h
theorem EventFrame.fuses {s t : State} (h : EventFrame s t) : t.fuses = s.fuses :=
  show t.fuses = (s.eventOn t).fuses from congrArg State.fuses h
theorem EventFrame.glb {s t : State} (h : EventFrame s t) : t.glb = s.glb :=
  show t.glb = (s.eventOn t).glb from congrArg State.glb h
theorem EventFrame.qmg {s t : State} (h : EventFrame s t) : t.qmg = s.qmg :=
  show t.qmg = (s.eventOn t).qmg from congrArg State.qmg h
theorem EventFrame.dma {s t : State} (h : EventFrame s t) : t.dma = s.dma :=
  show t.dma = (s.eventOn t).dma from congrArg State.dma h
theorem EventFrame.rules {s t : State} (h : EventFrame s t) : t.rules = s.rules :=
  show t.rules = (s.eventOn t).rules from congrArg State.rules h
theorem EventFrame.fwd {s t : State} (h : EventFrame s t) : t.fwd = s.fwd :=
  show t.fwd = (s.eventOn t).fwd from congrArg State.fwd h
theorem EventFrame.cry {s t : State} (h : EventFrame s t) : t.cry = s.cry :=
  show t.cry = (s.eventOn t).cry from congrArg State.cry h
theorem EventFrame.sto {s t : State} (h : EventFrame s t) : t.sto = s.sto :=
  show t.sto = (s.eventOn t).sto from congrArg State.sto h
theorem EventFrame.buf {s t : State} (h : EventFrame s t) : t.buf = s.buf :=
  show t.buf = (s.eventOn t).buf from congrArg State.buf h
theorem EventFrame.packets {s t : State} (h : EventFrame s t) : t.packets = s.packets :=
  show t.packets = (s.eventOn t).packets from congrArg State.packets h
theorem EventFrame.nextPkt {s t : State} (h : EventFrame s t) : t.nextPkt = s.nextPkt :=
  show t.nextPkt = (s.eventOn t).nextPkt from congrArg State.nextPkt h
theorem EventFrame.tms {s t : State} (h : EventFrame s t) : t.tms = s.tms :=
  show t.tms = (s.eventOn t).tms from congrArg State.tms h
theorem EventFrame.xpe {s t : State} (h : EventFrame s t) : t.xpe = s.xpe :=
  show t.xpe = (s.eventOn t).xpe from congrArg State.xpe h
theorem EventFrame.tap {s t : State} (h : EventFrame s t) : t.tap = s.tap :=
  show t.tap = (s.eventOn t).tap from congrArg State.tap h
theorem EventFrame.csc {s t : State} (h : EventFrame s t) : t.csc = s.csc :=
  show t.csc = (s.eventOn t).csc from congrArg State.csc h
theorem EventFrame.courses {s t : State} (h : EventFrame s t) : t.courses = s.courses :=
  show t.courses = (s.eventOn t).courses from congrArg State.courses h
theorem EventFrame.regs {s t : State} (h : EventFrame s t) : t.regs = s.regs :=
  show t.regs = (s.eventOn t).regs from congrArg State.regs h
theorem EventFrame.freeCount {s t : State} (h : EventFrame s t) : t.freeCount = s.freeCount :=
  show t.freeCount = (s.eventOn t).freeCount from congrArg State.freeCount h
theorem EventFrame.pending {s t : State} (h : EventFrame s t) : t.pending = s.pending :=
  show t.pending = (s.eventOn t).pending from congrArg State.pending h
theorem EventFrame.ports {s t : State} (h : EventFrame s t) : t.line.ports = s.line.ports :=
  show t.line.ports = (s.eventOn t).line.ports from congrArg (fun x => x.line.ports) h
theorem EventFrame.applied {s t : State} (h : EventFrame s t) : t.line.applied = s.line.applied :=
  show t.line.applied = (s.eventOn t).line.applied from congrArg (fun x => x.line.applied) h
theorem EventFrame.faces {s t : State} (h : EventFrame s t) : t.host.faces = s.host.faces :=
  show t.host.faces = (s.eventOn t).host.faces from congrArg (fun x => x.host.faces) h
theorem EventFrame.insts {s t : State} (h : EventFrame s t) : t.ivm.insts = s.ivm.insts :=
  show t.ivm.insts = (s.eventOn t).ivm.insts from congrArg (fun x => x.ivm.insts) h

theorem EventFrame.pme (s : State) (k : Nat) : EventFrame s (s.pme k) := by
  unfold State.pme
  split
  · rfl
  · dsimp only
    repeat' split
    all_goals rfl

theorem EventFrame.fire (s : State) (k vec : Nat) : EventFrame s (s.fire k vec) := by
  unfold State.fire
  split
  · rfl
  · split
    · rfl
    · exact EventFrame.trans (u := s.setPba k vec true) rfl (EventFrame.pme _ _)

theorem EventFrame.powerUpComplex (s : State) (x : Nat) : EventFrame s (s.powerUpComplex x) := by
  unfold State.powerUpComplex
  dsimp only
  split <;> rfl

theorem EventFrame.holdEvent (s : State) (c : Nat) (e h : Bool) : EventFrame s (s.holdEvent c e h) := rfl

theorem EventFrame.mbxEvent (s : State) (c : Nat) (e : Bool) : EventFrame s (s.mbxEvent c e) := by
  unfold State.mbxEvent
  split
  · split <;> rfl
  · split
    · rfl
    · exact EventFrame.trans (EventFrame.holdEvent s c e true) (EventFrame.powerUpComplex _ _)
  · split
    · rfl
    · exact EventFrame.trans (EventFrame.holdEvent s c e true) (EventFrame.powerUpComplex _ _)
  · split <;> rfl
  · split
    · rfl
    · split
      · rfl
      · dsimp only
        split
        · exact EventFrame.trans (EventFrame.holdEvent s c e false) (EventFrame.fire _ _ _)
        · rfl

theorem EventFrame.mbxNotify (s : State) (c : Nat) : EventFrame s (s.mbxNotify c) := by
  unfold State.mbxNotify
  dsimp only
  split
  · rfl
  · exact EventFrame.trans (u := s.setChan c _) rfl (EventFrame.mbxEvent _ _ _)

theorem EventFrame.postNotice (s : State) (c : Nat) (n : Notice) : EventFrame s (s.postNotice c n) := by
  have key : ∀ t : State, EventFrame s t →
      EventFrame s (if (decide (c < 2048) || t.keystoneUp) = true then t.mbxNotify c else t) :=
    fun t h => EventFrame.ite _ (h.trans (EventFrame.mbxNotify _ _)) h
  exact key { s with ivm := { s.ivm with notices := _ } } rfl

theorem EventFrame.faultNotice (s : State) (src : Nat) (who : Option Nat) : EventFrame s (s.faultNotice src who) := by
  unfold State.faultNotice
  split
  · split
    · rfl
    · exact EventFrame.postNotice _ _ _
  · rfl

theorem EventFrame.toManager (s : State) : EventFrame s s.toManager := by
  unfold State.toManager
  split
  · rfl
  · exact EventFrame.fire _ _ _

theorem EventFrame.toKeystone (cnt : State → Nat → State) (h : ∀ s a, EventFrame s (cnt s a)) (s : State) (src : Nat)
    (trap : Bool) : EventFrame s (s.toKeystone cnt src trap) := by
  unfold State.toKeystone
  split
  · split
    · exact EventFrame.trans (h s _) rfl
    · rfl
  · split <;> rfl

theorem EventFrame.halfMark (s : State) (a : Nat) : EventFrame s (s.halfMark a) := by
  unfold State.halfMark
  dsimp only
  split
  · rfl
  · split <;> rfl

theorem EventFrame.countWith (r : State → Nat → Nat → State) (h : ∀ s x d, EventFrame s (r s x d)) (s : State) (a n : Nat) :
    EventFrame s (s.countWith r a n) := by
  unfold State.countWith
  dsimp only
  split
  · exact EventFrame.trans (EventFrame.trans (u := (s.addCount a n).1) rfl (EventFrame.halfMark _ _)) (h _ _ _)
  · rfl

theorem EventFrame.countEvent (cnt : State → Nat → State) (h : ∀ s a, EventFrame s (cnt s a)) (s : State) (e : Bool) :
    EventFrame s (State.countEvent cnt s e) := EventFrame.ite _ ((h s _).trans (h _ _)) (h s _)

theorem EventFrame.tellEvent (cnt : State → Nat → State) (h : ∀ s a, EventFrame s (cnt s a)) (s : State) (src lvl : Nat)
    (was : Bool) : EventFrame s (State.tellEvent cnt s src lvl was) := by
  have hk := EventFrame.toKeystone cnt h
  have h1 := EventFrame.ite (s.bit Reg.fltSrcCfg [src] 3 = true) (hk s src false) (EventFrame.refl s)
  have h2 := fun u : State =>
    EventFrame.ite ((u.bit Reg.fltSrcCfg [src] 4 && !was && u.bit Reg.fltMgrCfg [] 8) = true) (EventFrame.toManager u)
      (EventFrame.refl u)
  have h3 := fun u : State => EventFrame.ite (2 ≤ lvl) (hk u src true) (EventFrame.refl u)
  exact (h1.trans (h2 _)).trans (h3 _)

theorem EventFrame.askEvent (s : State) (src lvl : Nat) : EventFrame s (s.askEvent src lvl) := by
  have h1 := fun u : State => EventFrame.ite (s := u) (4 ≤ lvl)
    (b := u) (a := { u with flt := { u.flt with errpin := true, errSrc := src } }) rfl rfl
  have h2 := fun u : State => EventFrame.ite (s := u) (3 ≤ lvl)
    (b := u) (a := { u with due := u.due ++ [(if chipBlock (srcBlock src) then 21 else srcBlock src, src)] }) rfl rfl
  have h3 := fun u : State => EventFrame.ite (s := u) (5 ≤ lvl) (b := u) (a := { u with due := u.due ++ [(21, src)] }) rfl rfl
  exact ((h1 s).trans (h2 _)).trans (h3 _)

theorem EventFrame.raiseF (fuel : Nat) : ∀ (s : State) (src d : Nat) (who : Option Nat) (acc : Acc),
    EventFrame s (State.raiseF fuel s src d who acc) := by
  induction fuel with
  | zero => intro s src d who acc; rfl
  | succ n ih =>
    intro s src d who acc
    have hc : ∀ (t : State) (a : Nat),
        EventFrame t (t.countWith (fun u x d => State.raiseF n u x d none {}) a 1) :=
      fun t a => EventFrame.countWith _ (fun u x d => ih u x d none {}) t a 1
    unfold State.raiseF
    refine EventFrame.ite _ rfl ?_
    have h1 := EventFrame.trans (u := s.noteEvent src d acc) rfl
      (EventFrame.countEvent _ hc (s.noteEvent src d acc) (decide (s.eventLevel src ≠ s.fld Reg.fltSrcCfg [src] 0 3)))
    have h2 := h1.trans (t := State.pushHistory _ src (s.eventLevel src)
      (decide (s.eventLevel src ≠ s.fld Reg.fltSrcCfg [src] 0 3)) d) rfl
    exact ((h2.trans (EventFrame.tellEvent _ hc _ _ _ _)).trans (EventFrame.askEvent _ _ _)).trans
      (EventFrame.faultNotice _ _ _)

/-- Everything an event can do. -/
theorem EventFrame.raise (s : State) (src d : Nat) (who : Option Nat) (acc : Acc) : EventFrame s (s.raise src d who acc) :=
  EventFrame.raiseF 4 s src d who acc

/-- Everything counting can do. -/
theorem EventFrame.count (s : State) (a n : Nat) : EventFrame s (s.count a n) :=
  EventFrame.countWith _ (fun t x d => EventFrame.raise t x d none {}) s a n

/-! ### Events that ask for nothing -/

/-- Counting below the middle of a counter's range adds to it and does nothing else. -/
theorem countWith_quiet {r : State → Nat → Nat → State} {s : State} {a n : Nat}
    (h : mapGet 0 s.counters a + n < 2 ^ 47) :
    s.countWith r a n = { s with counters := mapSet 0 s.counters a (mapGet 0 s.counters a + n) } := by
  have hm : (mapGet 0 s.counters a + n) % 2 ^ 48 = mapGet 0 s.counters a + n := Nat.mod_eq_of_lt (by omega)
  have h2 : ¬ (2 ^ 47 ≤ mapGet 0 s.counters a + n) := by omega
  unfold State.countWith State.addCount
  dsimp only
  rw [hm, decide_eq_false h2, Bool.and_false]
  rfl

/-- The Plumb's first five counters lie at least `k` below the middle of their range. -/
def State.roomy (s : State) (k : Nat) : Prop := ∀ j, j < 5 → mapGet 0 s.counters (fltCounter j) + k < 2 ^ 47

theorem roomy_count {r : State → Nat → Nat → State} {s : State} {k j : Nat} (h : s.roomy (k + 1)) (hj : j < 5) :
    (s.countWith r (fltCounter j) 1).roomy k ∧ (s.countWith r (fltCounter j) 1).due = s.due := by
  have h1 := h j hj
  rw [countWith_quiet (by omega)]
  refine ⟨?_, rfl⟩
  intro i hi
  by_cases e : fltCounter i = fltCounter j
  · dsimp only
    rw [e, mapGet_mapSet_self]
    omega
  · dsimp only
    rw [mapGet_mapSet_ne _ _ _ e]
    have := h i hi
    omega

theorem roomy_toKeystone {r : State → Nat → Nat → State} {s : State} {k : Nat} (h : s.roomy (k + 1)) (src : Nat)
    (trap : Bool) :
    (s.toKeystone (fun t a => t.countWith r a 1) src trap).roomy k
      ∧ (s.toKeystone (fun t a => t.countWith r a 1) src trap).due = s.due := by
  have h0 : s.roomy k := fun j hj => by have := h j hj; omega
  unfold State.toKeystone
  split
  · split
    · have h1 := roomy_count (r := r) h (show 4 < 5 by omega)
      exact ⟨h1.1, h1.2⟩
    · exact ⟨h0, rfl⟩
  · split
    · exact ⟨h0, rfl⟩
    · exact ⟨h0, rfl⟩

theorem pme_due (s : State) (k : Nat) : (s.pme k).due = s.due ∧ (s.pme k).counters = s.counters := by
  unfold State.pme
  split
  · exact ⟨rfl, rfl⟩
  · dsimp only
    repeat' split
    all_goals exact ⟨rfl, rfl⟩

theorem fire_due (s : State) (k vec : Nat) : (s.fire k vec).due = s.due ∧ (s.fire k vec).counters = s.counters := by
  unfold State.fire
  split
  · exact ⟨rfl, rfl⟩
  · split
    · exact ⟨rfl, rfl⟩
    · exact pme_due _ _

theorem toManager_due (s : State) : s.toManager.due = s.due ∧ s.toManager.counters = s.counters := by
  unfold State.toManager
  split
  · exact ⟨rfl, rfl⟩
  · exact fire_due _ _ _

theorem powerUpComplex_due (s : State) (x : Nat) : (s.powerUpComplex x).due = s.due := by
  unfold State.powerUpComplex
  dsimp only
  split <;> rfl

theorem mbxEvent_due (s : State) (c : Nat) (e : Bool) : (s.mbxEvent c e).due = s.due := by
  unfold State.mbxEvent
  split
  · split <;> rfl
  · split
    · rfl
    · exact powerUpComplex_due _ _
  · split
    · rfl
    · exact powerUpComplex_due _ _
  · split <;> rfl
  · split
    · rfl
    · split
      · rfl
      · dsimp only
        split
        · exact (fire_due _ _ _).1
        · rfl

theorem mbxNotify_due (s : State) (c : Nat) : (s.mbxNotify c).due = s.due := by
  unfold State.mbxNotify
  dsimp only
  split
  · rfl
  · exact mbxEvent_due _ _ _

theorem postNotice_due (s : State) (c : Nat) (n : Notice) : (s.postNotice c n).due = s.due := by
  have key : ∀ t : State, t.due = s.due →
      (if (decide (c < 2048) || t.keystoneUp) = true then t.mbxNotify c else t).due = s.due := by
    intro t h
    split
    · exact (mbxNotify_due _ _).trans h
    · exact h
  exact key { s with ivm := { s.ivm with notices := _ } } rfl

theorem faultNotice_due (s : State) (src : Nat) (who : Option Nat) : (s.faultNotice src who).due = s.due := by
  unfold State.faultNotice
  split
  · split
    · rfl
    · exact postNotice_due _ _ _
  · rfl

theorem tellEvent_due {r : State → Nat → Nat → State} {s : State} (h : s.roomy 3) (src lvl : Nat) (was : Bool) :
    (State.tellEvent (fun t a => t.countWith r a 1) s src lvl was).due = s.due := by
  have key1 : ∀ b : Prop, [Decidable b] →
      (if b then s.toKeystone (fun t a => t.countWith r a 1) src false else s).roomy 2
        ∧ (if b then s.toKeystone (fun t a => t.countWith r a 1) src false else s).due = s.due := by
    intro b _
    split
    · exact roomy_toKeystone h src false
    · exact ⟨fun j hj => by have := h j hj; omega, rfl⟩
  have key2 : ∀ (u : State) (b : Bool), u.roomy 2 → u.due = s.due →
      (if b = true then u.toManager else u).roomy 2 ∧ (if b = true then u.toManager else u).due = s.due := by
    intro u b h1 h2
    split
    · refine ⟨?_, (toManager_due u).1.trans h2⟩
      intro j hj
      rw [(toManager_due u).2]
      exact h1 j hj
    · exact ⟨h1, h2⟩
  have key3 : ∀ (u : State), u.roomy 2 → u.due = s.due →
      (if 2 ≤ lvl then u.toKeystone (fun t a => t.countWith r a 1) src true else u).due = s.due := by
    intro u h1 h2
    split
    · exact (roomy_toKeystone h1 src true).2.trans h2
    · exact h2
  unfold State.tellEvent
  dsimp only
  obtain ⟨a1, a2⟩ := key1 (s.bit Reg.fltSrcCfg [src] 3 = true)
  obtain ⟨b1, b2⟩ := key2 _ _ a1 a2
  exact key3 _ b1 b2

/-- An event below BLOCK_RESET asks for no reset (spec/19 R580). -/
theorem raise_due {s : State} {src : Nat} (h : s.mild src) (d : Nat) (who : Option Nat) (acc : Acc) :
    (s.raise src d who acc).due = s.due := by
  unfold State.raise State.raiseF
  split
  · rfl
  · dsimp only
    rw [faultNotice_due]
    have h3 : ¬ (3 ≤ s.eventLevel src) := by have := h.1; omega
    have h5 : ¬ (5 ≤ s.eventLevel src) := by omega
    have h4 : ¬ (4 ≤ s.eventLevel src) := by omega
    unfold State.askEvent
    simp only [h3, h4, h5, if_false]
    have hr : (s.noteEvent src d acc).roomy 5 := fun j hj => by
      have := h.2 j hj
      show mapGet 0 s.counters (fltCounter j) + 5 < 2 ^ 47
      omega
    have hc : ∀ (r : State → Nat → Nat → State) (b : Bool),
        (State.countEvent (fun t a => t.countWith r a 1) (s.noteEvent src d acc) b).roomy 3
          ∧ (State.countEvent (fun t a => t.countWith r a 1) (s.noteEvent src d acc) b).due = s.due := by
      intro r b
      have h1 := roomy_count (r := r) hr (show 0 < 5 by omega)
      unfold State.countEvent
      dsimp only
      split
      · have h2 := roomy_count (r := r) h1.1 (show 1 < 5 by omega)
        exact ⟨h2.1, h2.2.trans h1.2⟩
      · exact ⟨fun j hj => by have := h1.1 j hj; omega, h1.2⟩
    rw [tellEvent_due]
    · exact (hc _ _).2
    · exact (hc _ _).1

/-! ### The pending bit of an event -/

theorem pme_pend (s : State) (k : Nat) : (s.pme k).flt = s.flt := by
  unfold State.pme
  split
  · rfl
  · dsimp only
    repeat' split
    all_goals rfl

theorem fire_pend (s : State) (k vec : Nat) : (s.fire k vec).flt = s.flt := by
  unfold State.fire
  split
  · rfl
  · split
    · rfl
    · exact pme_pend _ _

theorem toManager_pend (s : State) : s.toManager.flt.pend = s.flt.pend := by
  unfold State.toManager
  split
  · rfl
  · exact congrArg Flt.pend (fire_pend _ _ _)

theorem powerUpComplex_pend (s : State) (x : Nat) : (s.powerUpComplex x).flt = s.flt := by
  unfold State.powerUpComplex
  dsimp only
  split <;> rfl

theorem mbxEvent_pend (s : State) (c : Nat) (e : Bool) : (s.mbxEvent c e).flt = s.flt := by
  unfold State.mbxEvent
  split
  · split <;> rfl
  · split
    · rfl
    · exact powerUpComplex_pend _ _
  · split
    · rfl
    · exact powerUpComplex_pend _ _
  · split <;> rfl
  · split
    · rfl
    · split
      · rfl
      · dsimp only
        split
        · exact fire_pend _ _ _
        · rfl

theorem postNotice_pend (s : State) (c : Nat) (n : Notice) : (s.postNotice c n).flt = s.flt := by
  have key : ∀ t : State, t.flt = s.flt →
      (if (decide (c < 2048) || t.keystoneUp) = true then t.mbxNotify c else t).flt = s.flt := by
    intro t h
    split
    · unfold State.mbxNotify
      dsimp only
      split
      · exact h
      · exact (mbxEvent_pend _ _ _).trans h
    · exact h
  exact key { s with ivm := { s.ivm with notices := _ } } rfl

theorem faultNotice_pend (s : State) (src : Nat) (who : Option Nat) : (s.faultNotice src who).flt = s.flt := by
  unfold State.faultNotice
  split
  · split
    · rfl
    · exact postNotice_pend _ _ _
  · rfl

theorem askEvent_pend (s : State) (src lvl : Nat) : (s.askEvent src lvl).flt.pend = s.flt.pend := by
  unfold State.askEvent
  dsimp only
  repeat' split
  all_goals rfl

/-- Every pending bit of `s` is pending in `t` (spec/19 R582). -/
def PendKept (s t : State) : Prop := ∀ x, s.eventPending x = true → t.eventPending x = true

theorem PendKept.of_eq {s t : State} (h : t.flt.pend = s.flt.pend) : PendKept s t := by
  intro x hx
  unfold State.eventPending
  rw [h]
  exact hx

theorem PendKept.trans {s u t : State} (h : PendKept s u) (k : PendKept u t) : PendKept s t := fun x hx => k x (h x hx)

theorem putBit_self (v i : Nat) : bitOf (putBit v i true) i = true := by
  unfold bitOf putBit putBits b2n
  simp only [if_true, Nat.one_mod, Nat.one_mul, pow_one]
  have h1 : v % 2 ^ i < 2 ^ i := Nat.mod_lt _ (Nat.two_pow_pos i)
  have h2 : v / 2 ^ (i + 1) * 2 ^ (i + 1) + 2 ^ i + v % 2 ^ i = 2 ^ i * (2 * (v / 2 ^ (i + 1)) + 1) + v % 2 ^ i := by
    rw [pow_succ]; ring
  rw [h2, Nat.testBit_two_pow_mul_add _ h1]
  simp

theorem putBit_ne (v : Nat) {i j : Nat} (h : j ≠ i) (hv : bitOf v j = true) : bitOf (putBit v i true) j = true := by
  unfold bitOf at hv ⊢
  unfold putBit putBits b2n
  simp only [if_true, Nat.one_mod, Nat.one_mul, pow_one]
  have h1 : v % 2 ^ i < 2 ^ i := Nat.mod_lt _ (Nat.two_pow_pos i)
  have h2 : v / 2 ^ (i + 1) * 2 ^ (i + 1) + 2 ^ i + v % 2 ^ i = 2 ^ i * (2 * (v / 2 ^ (i + 1)) + 1) + v % 2 ^ i := by
    rw [pow_succ]; ring
  rw [h2, Nat.testBit_two_pow_mul_add _ h1]
  split
  · rename_i hj
    rw [Nat.testBit_mod_two_pow]
    simp [hj, hv]
  · rename_i hj
    obtain ⟨n, hn⟩ : ∃ n, j - i = n + 1 := ⟨j - i - 1, by omega⟩
    rw [hn, Nat.testBit_succ]
    have : (2 * (v / 2 ^ (i + 1)) + 1) / 2 = v / 2 ^ (i + 1) := by omega
    rw [this, Nat.testBit_div_two_pow]
    rw [show n + (i + 1) = j by omega]
    exact hv

theorem noteEvent_pending (s : State) (src d : Nat) (acc : Acc) :
    PendKept s (s.noteEvent src d acc) ∧ (s.noteEvent src d acc).eventPending src = true := by
  have e : ∀ x, (s.noteEvent src d acc).eventPending x = bitOf (mapGet 0 (mapSet 0 s.flt.pend (src / 32)
      (putBit (mapGet 0 s.flt.pend (src / 32)) (src % 32) true)) (x / 32)) (x % 32) := fun x => rfl
  constructor
  · intro x hx
    rw [e]
    by_cases h : x / 32 = src / 32
    · rw [h, mapGet_mapSet_self]
      unfold State.eventPending at hx
      rw [h] at hx
      by_cases h2 : x % 32 = src % 32
      · rw [h2]; exact putBit_self _ _
      · exact putBit_ne _ h2 hx
    · rw [mapGet_mapSet_ne _ _ _ h]
      exact hx
  · rw [e, mapGet_mapSet_self]
    exact putBit_self _ _

theorem PendKept.ite {s a b : State} (c : Prop) [Decidable c] (ha : PendKept s a) (hb : PendKept s b) :
    PendKept s (if c then a else b) := by
  split
  · exact ha
  · exact hb

theorem PendKept.countWith {r : State → Nat → Nat → State} (h : ∀ s a d, PendKept s (r s a d)) (s : State) (a n : Nat) :
    PendKept s (s.countWith r a n) := by
  unfold State.countWith
  refine PendKept.ite _ ?_ (PendKept.of_eq rfl)
  refine PendKept.trans (PendKept.of_eq ?_) (h _ _ _)
  unfold State.halfMark
  dsimp only
  split
  · rfl
  · split <;> rfl

theorem PendKept.toKeystone {cnt : State → Nat → State} (h : ∀ s a, PendKept s (cnt s a)) (s : State) (src : Nat)
    (trap : Bool) : PendKept s (s.toKeystone cnt src trap) := by
  unfold State.toKeystone
  split
  · split
    · exact PendKept.trans (h s _) (PendKept.of_eq rfl)
    · exact PendKept.of_eq rfl
  · split <;> exact PendKept.of_eq rfl

theorem PendKept.tellEvent {cnt : State → Nat → State} (h : ∀ s a, PendKept s (cnt s a)) (s : State) (src lvl : Nat)
    (was : Bool) : PendKept s (State.tellEvent cnt s src lvl was) := by
  have h1 := PendKept.ite (s.bit Reg.fltSrcCfg [src] 3 = true) (PendKept.toKeystone h s src false) (fun _ hx => hx)
  have h2 := fun u : State =>
    PendKept.ite ((u.bit Reg.fltSrcCfg [src] 4 && !was && u.bit Reg.fltMgrCfg [] 8) = true)
      (PendKept.of_eq (toManager_pend u)) (fun _ hx => hx)
  have h3 := fun u : State => PendKept.ite (2 ≤ lvl) (PendKept.toKeystone h u src true) (fun _ hx => hx)
  exact (h1.trans (h2 _)).trans (h3 _)

theorem PendKept.raiseF (fuel : Nat) : ∀ (s : State) (src d : Nat) (who : Option Nat) (acc : Acc),
    PendKept s (State.raiseF fuel s src d who acc)
      ∧ (0 < fuel → s.released = true → (State.raiseF fuel s src d who acc).eventPending src = true) := by
  induction fuel with
  | zero => intro s src d who acc; exact ⟨fun _ hx => hx, fun h => absurd h (Nat.lt_irrefl 0)⟩
  | succ n ih =>
    intro s src d who acc
    have hc : ∀ (t : State) (a : Nat),
        PendKept t (t.countWith (fun u x d => State.raiseF n u x d none {}) a 1) :=
      fun t a => PendKept.countWith (fun u x d => (ih u x d none {}).1) t a 1
    have h0 := noteEvent_pending s src d acc
    have h1 : PendKept (s.noteEvent src d acc) (State.countEvent
        (fun (t : State) (a : Nat) => t.countWith (fun u x d => State.raiseF n u x d none {}) a 1) (s.noteEvent src d acc)
        (decide (s.eventLevel src ≠ s.fld Reg.fltSrcCfg [src] 0 3))) := by
      unfold State.countEvent
      exact PendKept.ite _ ((hc _ _).trans (hc _ _)) (hc _ _)
    have h2 := h1.trans (t := State.pushHistory _ src (s.eventLevel src)
      (decide (s.eventLevel src ≠ s.fld Reg.fltSrcCfg [src] 0 3)) d) (PendKept.of_eq rfl)
    have h3 := h2.trans (PendKept.tellEvent hc _ src (s.eventLevel src) (bitOf (mapGet 0 s.flt.pend (src / 32)) (src % 32)))
    have h4 := (h3.trans (PendKept.of_eq (askEvent_pend _ src (s.eventLevel src)))).trans
      (PendKept.of_eq (congrArg Flt.pend (faultNotice_pend _ src who)))
    unfold State.raiseF
    constructor
    · exact PendKept.ite _ (fun _ hx => hx) (h0.1.trans h4)
    · intro _ hr
      rw [if_neg (by rw [hr]; simp)]
      exact h4 src h0.2

/-- An event leaves its pending bit set, and every other that was (spec/19 R582). -/
theorem raise_pending {s : State} (h : s.released = true) (src d : Nat) (who : Option Nat) (acc : Acc) :
    (s.raise src d who acc).eventPending src = true := (PendKept.raiseF 4 s src d who acc).2 (by omega) h

theorem raise_pendKept (s : State) (src d : Nat) (who : Option Nat) (acc : Acc) : PendKept s (s.raise src d who acc) :=
  (PendKept.raiseF 4 s src d who acc).1

theorem count_pendKept (s : State) (a n : Nat) : PendKept s (s.count a n) :=
  PendKept.countWith (fun t x d => raise_pendKept t x d none {}) s a n

end Sys2Proof.Machine
end

