-- ==== Sys2Proof/Laws/State.lean ====
section
/-! SUPPORT. Each named update of the state, field by field: what it leaves alone. -/

set_option Elab.async false

namespace Sys2Proof.Machine


@[simp] theorem setWord_supply (s : State) (r : RegDef) (idx : List Nat) (v : Nat) : (s.setWord r idx v).supply = s.supply := rfl
@[simp] theorem setWord_clocks (s : State) (r : RegDef) (idx : List Nat) (v : Nat) : (s.setWord r idx v).clocks = s.clocks := rfl
@[simp] theorem setWord_pace (s : State) (r : RegDef) (idx : List Nat) (v : Nat) : (s.setWord r idx v).pace = s.pace := rfl
@[simp] theorem setWord_tsu (s : State) (r : RegDef) (idx : List Nat) (v : Nat) : (s.setWord r idx v).tsu = s.tsu := rfl
@[simp] theorem setWord_bring (s : State) (r : RegDef) (idx : List Nat) (v : Nat) : (s.setWord r idx v).bring = s.bring := rfl
@[simp] theorem setWord_line (s : State) (r : RegDef) (idx : List Nat) (v : Nat) : (s.setWord r idx v).line = s.line := rfl
@[simp] theorem setWord_host (s : State) (r : RegDef) (idx : List Nat) (v : Nat) : (s.setWord r idx v).host = s.host := rfl
@[simp] theorem setWord_fuses (s : State) (r : RegDef) (idx : List Nat) (v : Nat) : (s.setWord r idx v).fuses = s.fuses := rfl
@[simp] theorem setWord_glb (s : State) (r : RegDef) (idx : List Nat) (v : Nat) : (s.setWord r idx v).glb = s.glb := rfl
@[simp] theorem setWord_qmg (s : State) (r : RegDef) (idx : List Nat) (v : Nat) : (s.setWord r idx v).qmg = s.qmg := rfl
@[simp] theorem setWord_dma (s : State) (r : RegDef) (idx : List Nat) (v : Nat) : (s.setWord r idx v).dma = s.dma := rfl
@[simp] theorem setWord_ivm (s : State) (r : RegDef) (idx : List Nat) (v : Nat) : (s.setWord r idx v).ivm = s.ivm := rfl
@[simp] theorem setWord_rules (s : State) (r : RegDef) (idx : List Nat) (v : Nat) : (s.setWord r idx v).rules = s.rules := rfl
@[simp] theorem setWord_fwd (s : State) (r : RegDef) (idx : List Nat) (v : Nat) : (s.setWord r idx v).fwd = s.fwd := rfl
@[simp] theorem setWord_cry (s : State) (r : RegDef) (idx : List Nat) (v : Nat) : (s.setWord r idx v).cry = s.cry := rfl
@[simp] theorem setWord_sto (s : State) (r : RegDef) (idx : List Nat) (v : Nat) : (s.setWord r idx v).sto = s.sto := rfl
@[simp] theorem setWord_buf (s : State) (r : RegDef) (idx : List Nat) (v : Nat) : (s.setWord r idx v).buf = s.buf := rfl
@[simp] theorem setWord_packets (s : State) (r : RegDef) (idx : List Nat) (v : Nat) : (s.setWord r idx v).packets = s.packets := rfl
@[simp] theorem setWord_nextPkt (s : State) (r : RegDef) (idx : List Nat) (v : Nat) : (s.setWord r idx v).nextPkt = s.nextPkt := rfl
@[simp] theorem setWord_tms (s : State) (r : RegDef) (idx : List Nat) (v : Nat) : (s.setWord r idx v).tms = s.tms := rfl
@[simp] theorem setWord_ksc (s : State) (r : RegDef) (idx : List Nat) (v : Nat) : (s.setWord r idx v).ksc = s.ksc := rfl
@[simp] theorem setWord_xpe (s : State) (r : RegDef) (idx : List Nat) (v : Nat) : (s.setWord r idx v).xpe = s.xpe := rfl
@[simp] theorem setWord_flt (s : State) (r : RegDef) (idx : List Nat) (v : Nat) : (s.setWord r idx v).flt = s.flt := rfl
@[simp] theorem setWord_tap (s : State) (r : RegDef) (idx : List Nat) (v : Nat) : (s.setWord r idx v).tap = s.tap := rfl
@[simp] theorem setWord_csc (s : State) (r : RegDef) (idx : List Nat) (v : Nat) : (s.setWord r idx v).csc = s.csc := rfl
@[simp] theorem setWord_courses (s : State) (r : RegDef) (idx : List Nat) (v : Nat) : (s.setWord r idx v).courses = s.courses := rfl
@[simp] theorem setWord_counters (s : State) (r : RegDef) (idx : List Nat) (v : Nat) : (s.setWord r idx v).counters = s.counters := rfl
@[simp] theorem setWord_freeCount (s : State) (r : RegDef) (idx : List Nat) (v : Nat) : (s.setWord r idx v).freeCount = s.freeCount := rfl
@[simp] theorem setWord_due (s : State) (r : RegDef) (idx : List Nat) (v : Nat) : (s.setWord r idx v).due = s.due := rfl
@[simp] theorem setWord_out (s : State) (r : RegDef) (idx : List Nat) (v : Nat) : (s.setWord r idx v).out = s.out := rfl
@[simp] theorem setWord_pending (s : State) (r : RegDef) (idx : List Nat) (v : Nat) : (s.setWord r idx v).pending = s.pending := rfl

@[simp] theorem send_supply (s : State) (o : Out) : (s.send o).supply = s.supply := rfl
@[simp] theorem send_clocks (s : State) (o : Out) : (s.send o).clocks = s.clocks := rfl
@[simp] theorem send_pace (s : State) (o : Out) : (s.send o).pace = s.pace := rfl
@[simp] theorem send_tsu (s : State) (o : Out) : (s.send o).tsu = s.tsu := rfl
@[simp] theorem send_bring (s : State) (o : Out) : (s.send o).bring = s.bring := rfl
@[simp] theorem send_line (s : State) (o : Out) : (s.send o).line = s.line := rfl
@[simp] theorem send_host (s : State) (o : Out) : (s.send o).host = s.host := rfl
@[simp] theorem send_fuses (s : State) (o : Out) : (s.send o).fuses = s.fuses := rfl
@[simp] theorem send_glb (s : State) (o : Out) : (s.send o).glb = s.glb := rfl
@[simp] theorem send_qmg (s : State) (o : Out) : (s.send o).qmg = s.qmg := rfl
@[simp] theorem send_dma (s : State) (o : Out) : (s.send o).dma = s.dma := rfl
@[simp] theorem send_ivm (s : State) (o : Out) : (s.send o).ivm = s.ivm := rfl
@[simp] theorem send_rules (s : State) (o : Out) : (s.send o).rules = s.rules := rfl
@[simp] theorem send_fwd (s : State) (o : Out) : (s.send o).fwd = s.fwd := rfl
@[simp] theorem send_cry (s : State) (o : Out) : (s.send o).cry = s.cry := rfl
@[simp] theorem send_sto (s : State) (o : Out) : (s.send o).sto = s.sto := rfl
@[simp] theorem send_buf (s : State) (o : Out) : (s.send o).buf = s.buf := rfl
@[simp] theorem send_packets (s : State) (o : Out) : (s.send o).packets = s.packets := rfl
@[simp] theorem send_nextPkt (s : State) (o : Out) : (s.send o).nextPkt = s.nextPkt := rfl
@[simp] theorem send_tms (s : State) (o : Out) : (s.send o).tms = s.tms := rfl
@[simp] theorem send_ksc (s : State) (o : Out) : (s.send o).ksc = s.ksc := rfl
@[simp] theorem send_xpe (s : State) (o : Out) : (s.send o).xpe = s.xpe := rfl
@[simp] theorem send_flt (s : State) (o : Out) : (s.send o).flt = s.flt := rfl
@[simp] theorem send_tap (s : State) (o : Out) : (s.send o).tap = s.tap := rfl
@[simp] theorem send_csc (s : State) (o : Out) : (s.send o).csc = s.csc := rfl
@[simp] theorem send_courses (s : State) (o : Out) : (s.send o).courses = s.courses := rfl
@[simp] theorem send_regs (s : State) (o : Out) : (s.send o).regs = s.regs := rfl
@[simp] theorem send_counters (s : State) (o : Out) : (s.send o).counters = s.counters := rfl
@[simp] theorem send_freeCount (s : State) (o : Out) : (s.send o).freeCount = s.freeCount := rfl
@[simp] theorem send_due (s : State) (o : Out) : (s.send o).due = s.due := rfl
@[simp] theorem send_pending (s : State) (o : Out) : (s.send o).pending = s.pending := rfl

@[simp] theorem setFace_supply (s : State) (n : Nat) (x : Face) : (s.setFace n x).supply = s.supply := rfl
@[simp] theorem setFace_clocks (s : State) (n : Nat) (x : Face) : (s.setFace n x).clocks = s.clocks := rfl
@[simp] theorem setFace_pace (s : State) (n : Nat) (x : Face) : (s.setFace n x).pace = s.pace := rfl
@[simp] theorem setFace_tsu (s : State) (n : Nat) (x : Face) : (s.setFace n x).tsu = s.tsu := rfl
@[simp] theorem setFace_bring (s : State) (n : Nat) (x : Face) : (s.setFace n x).bring = s.bring := rfl
@[simp] theorem setFace_line (s : State) (n : Nat) (x : Face) : (s.setFace n x).line = s.line := rfl
@[simp] theorem setFace_fuses (s : State) (n : Nat) (x : Face) : (s.setFace n x).fuses = s.fuses := rfl
@[simp] theorem setFace_glb (s : State) (n : Nat) (x : Face) : (s.setFace n x).glb = s.glb := rfl
@[simp] theorem setFace_qmg (s : State) (n : Nat) (x : Face) : (s.setFace n x).qmg = s.qmg := rfl
@[simp] theorem setFace_dma (s : State) (n : Nat) (x : Face) : (s.setFace n x).dma = s.dma := rfl
@[simp] theorem setFace_ivm (s : State) (n : Nat) (x : Face) : (s.setFace n x).ivm = s.ivm := rfl
@[simp] theorem setFace_rules (s : State) (n : Nat) (x : Face) : (s.setFace n x).rules = s.rules := rfl
@[simp] theorem setFace_fwd (s : State) (n : Nat) (x : Face) : (s.setFace n x).fwd = s.fwd := rfl
@[simp] theorem setFace_cry (s : State) (n : Nat) (x : Face) : (s.setFace n x).cry = s.cry := rfl
@[simp] theorem setFace_sto (s : State) (n : Nat) (x : Face) : (s.setFace n x).sto = s.sto := rfl
@[simp] theorem setFace_buf (s : State) (n : Nat) (x : Face) : (s.setFace n x).buf = s.buf := rfl
@[simp] theorem setFace_packets (s : State) (n : Nat) (x : Face) : (s.setFace n x).packets = s.packets := rfl
@[simp] theorem setFace_nextPkt (s : State) (n : Nat) (x : Face) : (s.setFace n x).nextPkt = s.nextPkt := rfl
@[simp] theorem setFace_tms (s : State) (n : Nat) (x : Face) : (s.setFace n x).tms = s.tms := rfl
@[simp] theorem setFace_ksc (s : State) (n : Nat) (x : Face) : (s.setFace n x).ksc = s.ksc := rfl
@[simp] theorem setFace_xpe (s : State) (n : Nat) (x : Face) : (s.setFace n x).xpe = s.xpe := rfl
@[simp] theorem setFace_flt (s : State) (n : Nat) (x : Face) : (s.setFace n x).flt = s.flt := rfl
@[simp] theorem setFace_tap (s : State) (n : Nat) (x : Face) : (s.setFace n x).tap = s.tap := rfl
@[simp] theorem setFace_csc (s : State) (n : Nat) (x : Face) : (s.setFace n x).csc = s.csc := rfl
@[simp] theorem setFace_courses (s : State) (n : Nat) (x : Face) : (s.setFace n x).courses = s.courses := rfl
@[simp] theorem setFace_regs (s : State) (n : Nat) (x : Face) : (s.setFace n x).regs = s.regs := rfl
@[simp] theorem setFace_counters (s : State) (n : Nat) (x : Face) : (s.setFace n x).counters = s.counters := rfl
@[simp] theorem setFace_freeCount (s : State) (n : Nat) (x : Face) : (s.setFace n x).freeCount = s.freeCount := rfl
@[simp] theorem setFace_due (s : State) (n : Nat) (x : Face) : (s.setFace n x).due = s.due := rfl
@[simp] theorem setFace_out (s : State) (n : Nat) (x : Face) : (s.setFace n x).out = s.out := rfl
@[simp] theorem setFace_pending (s : State) (n : Nat) (x : Face) : (s.setFace n x).pending = s.pending := rfl

@[simp] theorem setLink_supply (s : State) (n l : Nat) (x : PciLink) : (s.setLink n l x).supply = s.supply := rfl
@[simp] theorem setLink_clocks (s : State) (n l : Nat) (x : PciLink) : (s.setLink n l x).clocks = s.clocks := rfl
@[simp] theorem setLink_pace (s : State) (n l : Nat) (x : PciLink) : (s.setLink n l x).pace = s.pace := rfl
@[simp] theorem setLink_tsu (s : State) (n l : Nat) (x : PciLink) : (s.setLink n l x).tsu = s.tsu := rfl
@[simp] theorem setLink_bring (s : State) (n l : Nat) (x : PciLink) : (s.setLink n l x).bring = s.bring := rfl
@[simp] theorem setLink_line (s : State) (n l : Nat) (x : PciLink) : (s.setLink n l x).line = s.line := rfl
@[simp] theorem setLink_fuses (s : State) (n l : Nat) (x : PciLink) : (s.setLink n l x).fuses = s.fuses := rfl
@[simp] theorem setLink_glb (s : State) (n l : Nat) (x : PciLink) : (s.setLink n l x).glb = s.glb := rfl
@[simp] theorem setLink_qmg (s : State) (n l : Nat) (x : PciLink) : (s.setLink n l x).qmg = s.qmg := rfl
@[simp] theorem setLink_dma (s : State) (n l : Nat) (x : PciLink) : (s.setLink n l x).dma = s.dma := rfl
@[simp] theorem setLink_ivm (s : State) (n l : Nat) (x : PciLink) : (s.setLink n l x).ivm = s.ivm := rfl
@[simp] theorem setLink_rules (s : State) (n l : Nat) (x : PciLink) : (s.setLink n l x).rules = s.rules := rfl
@[simp] theorem setLink_fwd (s : State) (n l : Nat) (x : PciLink) : (s.setLink n l x).fwd = s.fwd := rfl
@[simp] theorem setLink_cry (s : State) (n l : Nat) (x : PciLink) : (s.setLink n l x).cry = s.cry := rfl
@[simp] theorem setLink_sto (s : State) (n l : Nat) (x : PciLink) : (s.setLink n l x).sto = s.sto := rfl
@[simp] theorem setLink_buf (s : State) (n l : Nat) (x : PciLink) : (s.setLink n l x).buf = s.buf := rfl
@[simp] theorem setLink_packets (s : State) (n l : Nat) (x : PciLink) : (s.setLink n l x).packets = s.packets := rfl
@[simp] theorem setLink_nextPkt (s : State) (n l : Nat) (x : PciLink) : (s.setLink n l x).nextPkt = s.nextPkt := rfl
@[simp] theorem setLink_tms (s : State) (n l : Nat) (x : PciLink) : (s.setLink n l x).tms = s.tms := rfl
@[simp] theorem setLink_ksc (s : State) (n l : Nat) (x : PciLink) : (s.setLink n l x).ksc = s.ksc := rfl
@[simp] theorem setLink_xpe (s : State) (n l : Nat) (x : PciLink) : (s.setLink n l x).xpe = s.xpe := rfl
@[simp] theorem setLink_flt (s : State) (n l : Nat) (x : PciLink) : (s.setLink n l x).flt = s.flt := rfl
@[simp] theorem setLink_tap (s : State) (n l : Nat) (x : PciLink) : (s.setLink n l x).tap = s.tap := rfl
@[simp] theorem setLink_csc (s : State) (n l : Nat) (x : PciLink) : (s.setLink n l x).csc = s.csc := rfl
@[simp] theorem setLink_courses (s : State) (n l : Nat) (x : PciLink) : (s.setLink n l x).courses = s.courses := rfl
@[simp] theorem setLink_regs (s : State) (n l : Nat) (x : PciLink) : (s.setLink n l x).regs = s.regs := rfl
@[simp] theorem setLink_counters (s : State) (n l : Nat) (x : PciLink) : (s.setLink n l x).counters = s.counters := rfl
@[simp] theorem setLink_freeCount (s : State) (n l : Nat) (x : PciLink) : (s.setLink n l x).freeCount = s.freeCount := rfl
@[simp] theorem setLink_due (s : State) (n l : Nat) (x : PciLink) : (s.setLink n l x).due = s.due := rfl
@[simp] theorem setLink_out (s : State) (n l : Nat) (x : PciLink) : (s.setLink n l x).out = s.out := rfl
@[simp] theorem setLink_pending (s : State) (n l : Nat) (x : PciLink) : (s.setLink n l x).pending = s.pending := rfl

@[simp] theorem setFn_supply (s : State) (k : Nat) (x : PciFn) : (s.setFn k x).supply = s.supply := rfl
@[simp] theorem setFn_clocks (s : State) (k : Nat) (x : PciFn) : (s.setFn k x).clocks = s.clocks := rfl
@[simp] theorem setFn_pace (s : State) (k : Nat) (x : PciFn) : (s.setFn k x).pace = s.pace := rfl
@[simp] theorem setFn_tsu (s : State) (k : Nat) (x : PciFn) : (s.setFn k x).tsu = s.tsu := rfl
@[simp] theorem setFn_bring (s : State) (k : Nat) (x : PciFn) : (s.setFn k x).bring = s.bring := rfl
@[simp] theorem setFn_line (s : State) (k : Nat) (x : PciFn) : (s.setFn k x).line = s.line := rfl
@[simp] theorem setFn_fuses (s : State) (k : Nat) (x : PciFn) : (s.setFn k x).fuses = s.fuses := rfl
@[simp] theorem setFn_glb (s : State) (k : Nat) (x : PciFn) : (s.setFn k x).glb = s.glb := rfl
@[simp] theorem setFn_qmg (s : State) (k : Nat) (x : PciFn) : (s.setFn k x).qmg = s.qmg := rfl
@[simp] theorem setFn_dma (s : State) (k : Nat) (x : PciFn) : (s.setFn k x).dma = s.dma := rfl
@[simp] theorem setFn_ivm (s : State) (k : Nat) (x : PciFn) : (s.setFn k x).ivm = s.ivm := rfl
@[simp] theorem setFn_rules (s : State) (k : Nat) (x : PciFn) : (s.setFn k x).rules = s.rules := rfl
@[simp] theorem setFn_fwd (s : State) (k : Nat) (x : PciFn) : (s.setFn k x).fwd = s.fwd := rfl
@[simp] theorem setFn_cry (s : State) (k : Nat) (x : PciFn) : (s.setFn k x).cry = s.cry := rfl
@[simp] theorem setFn_sto (s : State) (k : Nat) (x : PciFn) : (s.setFn k x).sto = s.sto := rfl
@[simp] theorem setFn_buf (s : State) (k : Nat) (x : PciFn) : (s.setFn k x).buf = s.buf := rfl
@[simp] theorem setFn_packets (s : State) (k : Nat) (x : PciFn) : (s.setFn k x).packets = s.packets := rfl
@[simp] theorem setFn_nextPkt (s : State) (k : Nat) (x : PciFn) : (s.setFn k x).nextPkt = s.nextPkt := rfl
@[simp] theorem setFn_tms (s : State) (k : Nat) (x : PciFn) : (s.setFn k x).tms = s.tms := rfl
@[simp] theorem setFn_ksc (s : State) (k : Nat) (x : PciFn) : (s.setFn k x).ksc = s.ksc := rfl
@[simp] theorem setFn_xpe (s : State) (k : Nat) (x : PciFn) : (s.setFn k x).xpe = s.xpe := rfl
@[simp] theorem setFn_flt (s : State) (k : Nat) (x : PciFn) : (s.setFn k x).flt = s.flt := rfl
@[simp] theorem setFn_tap (s : State) (k : Nat) (x : PciFn) : (s.setFn k x).tap = s.tap := rfl
@[simp] theorem setFn_csc (s : State) (k : Nat) (x : PciFn) : (s.setFn k x).csc = s.csc := rfl
@[simp] theorem setFn_courses (s : State) (k : Nat) (x : PciFn) : (s.setFn k x).courses = s.courses := rfl
@[simp] theorem setFn_regs (s : State) (k : Nat) (x : PciFn) : (s.setFn k x).regs = s.regs := rfl
@[simp] theorem setFn_counters (s : State) (k : Nat) (x : PciFn) : (s.setFn k x).counters = s.counters := rfl
@[simp] theorem setFn_freeCount (s : State) (k : Nat) (x : PciFn) : (s.setFn k x).freeCount = s.freeCount := rfl
@[simp] theorem setFn_due (s : State) (k : Nat) (x : PciFn) : (s.setFn k x).due = s.due := rfl
@[simp] theorem setFn_out (s : State) (k : Nat) (x : PciFn) : (s.setFn k x).out = s.out := rfl
@[simp] theorem setFn_pending (s : State) (k : Nat) (x : PciFn) : (s.setFn k x).pending = s.pending := rfl

@[simp] theorem setInst_supply (s : State) (i : Nat) (x : Inst) : (s.setInst i x).supply = s.supply := rfl
@[simp] theorem setInst_clocks (s : State) (i : Nat) (x : Inst) : (s.setInst i x).clocks = s.clocks := rfl
@[simp] theorem setInst_pace (s : State) (i : Nat) (x : Inst) : (s.setInst i x).pace = s.pace := rfl
@[simp] theorem setInst_tsu (s : State) (i : Nat) (x : Inst) : (s.setInst i x).tsu = s.tsu := rfl
@[simp] theorem setInst_bring (s : State) (i : Nat) (x : Inst) : (s.setInst i x).bring = s.bring := rfl
@[simp] theorem setInst_line (s : State) (i : Nat) (x : Inst) : (s.setInst i x).line = s.line := rfl
@[simp] theorem setInst_host (s : State) (i : Nat) (x : Inst) : (s.setInst i x).host = s.host := rfl
@[simp] theorem setInst_fuses (s : State) (i : Nat) (x : Inst) : (s.setInst i x).fuses = s.fuses := rfl
@[simp] theorem setInst_glb (s : State) (i : Nat) (x : Inst) : (s.setInst i x).glb = s.glb := rfl
@[simp] theorem setInst_qmg (s : State) (i : Nat) (x : Inst) : (s.setInst i x).qmg = s.qmg := rfl
@[simp] theorem setInst_dma (s : State) (i : Nat) (x : Inst) : (s.setInst i x).dma = s.dma := rfl
@[simp] theorem setInst_rules (s : State) (i : Nat) (x : Inst) : (s.setInst i x).rules = s.rules := rfl
@[simp] theorem setInst_fwd (s : State) (i : Nat) (x : Inst) : (s.setInst i x).fwd = s.fwd := rfl
@[simp] theorem setInst_cry (s : State) (i : Nat) (x : Inst) : (s.setInst i x).cry = s.cry := rfl
@[simp] theorem setInst_sto (s : State) (i : Nat) (x : Inst) : (s.setInst i x).sto = s.sto := rfl
@[simp] theorem setInst_buf (s : State) (i : Nat) (x : Inst) : (s.setInst i x).buf = s.buf := rfl
@[simp] theorem setInst_packets (s : State) (i : Nat) (x : Inst) : (s.setInst i x).packets = s.packets := rfl
@[simp] theorem setInst_nextPkt (s : State) (i : Nat) (x : Inst) : (s.setInst i x).nextPkt = s.nextPkt := rfl
@[simp] theorem setInst_tms (s : State) (i : Nat) (x : Inst) : (s.setInst i x).tms = s.tms := rfl
@[simp] theorem setInst_ksc (s : State) (i : Nat) (x : Inst) : (s.setInst i x).ksc = s.ksc := rfl
@[simp] theorem setInst_xpe (s : State) (i : Nat) (x : Inst) : (s.setInst i x).xpe = s.xpe := rfl
@[simp] theorem setInst_flt (s : State) (i : Nat) (x : Inst) : (s.setInst i x).flt = s.flt := rfl
@[simp] theorem setInst_tap (s : State) (i : Nat) (x : Inst) : (s.setInst i x).tap = s.tap := rfl
@[simp] theorem setInst_csc (s : State) (i : Nat) (x : Inst) : (s.setInst i x).csc = s.csc := rfl
@[simp] theorem setInst_courses (s : State) (i : Nat) (x : Inst) : (s.setInst i x).courses = s.courses := rfl
@[simp] theorem setInst_regs (s : State) (i : Nat) (x : Inst) : (s.setInst i x).regs = s.regs := rfl
@[simp] theorem setInst_counters (s : State) (i : Nat) (x : Inst) : (s.setInst i x).counters = s.counters := rfl
@[simp] theorem setInst_freeCount (s : State) (i : Nat) (x : Inst) : (s.setInst i x).freeCount = s.freeCount := rfl
@[simp] theorem setInst_due (s : State) (i : Nat) (x : Inst) : (s.setInst i x).due = s.due := rfl
@[simp] theorem setInst_out (s : State) (i : Nat) (x : Inst) : (s.setInst i x).out = s.out := rfl
@[simp] theorem setInst_pending (s : State) (i : Nat) (x : Inst) : (s.setInst i x).pending = s.pending := rfl

@[simp] theorem setChan_supply (s : State) (c : Nat) (x : Channel) : (s.setChan c x).supply = s.supply := rfl
@[simp] theorem setChan_clocks (s : State) (c : Nat) (x : Channel) : (s.setChan c x).clocks = s.clocks := rfl
@[simp] theorem setChan_pace (s : State) (c : Nat) (x : Channel) : (s.setChan c x).pace = s.pace := rfl
@[simp] theorem setChan_tsu (s : State) (c : Nat) (x : Channel) : (s.setChan c x).tsu = s.tsu := rfl
@[simp] theorem setChan_bring (s : State) (c : Nat) (x : Channel) : (s.setChan c x).bring = s.bring := rfl
@[simp] theorem setChan_line (s : State) (c : Nat) (x : Channel) : (s.setChan c x).line = s.line := rfl
@[simp] theorem setChan_host (s : State) (c : Nat) (x : Channel) : (s.setChan c x).host = s.host := rfl
@[simp] theorem setChan_fuses (s : State) (c : Nat) (x : Channel) : (s.setChan c x).fuses = s.fuses := rfl
@[simp] theorem setChan_glb (s : State) (c : Nat) (x : Channel) : (s.setChan c x).glb = s.glb := rfl
@[simp] theorem setChan_qmg (s : State) (c : Nat) (x : Channel) : (s.setChan c x).qmg = s.qmg := rfl
@[simp] theorem setChan_dma (s : State) (c : Nat) (x : Channel) : (s.setChan c x).dma = s.dma := rfl
@[simp] theorem setChan_rules (s : State) (c : Nat) (x : Channel) : (s.setChan c x).rules = s.rules := rfl
@[simp] theorem setChan_fwd (s : State) (c : Nat) (x : Channel) : (s.setChan c x).fwd = s.fwd := rfl
@[simp] theorem setChan_cry (s : State) (c : Nat) (x : Channel) : (s.setChan c x).cry = s.cry := rfl
@[simp] theorem setChan_sto (s : State) (c : Nat) (x : Channel) : (s.setChan c x).sto = s.sto := rfl
@[simp] theorem setChan_buf (s : State) (c : Nat) (x : Channel) : (s.setChan c x).buf = s.buf := rfl
@[simp] theorem setChan_packets (s : State) (c : Nat) (x : Channel) : (s.setChan c x).packets = s.packets := rfl
@[simp] theorem setChan_nextPkt (s : State) (c : Nat) (x : Channel) : (s.setChan c x).nextPkt = s.nextPkt := rfl
@[simp] theorem setChan_tms (s : State) (c : Nat) (x : Channel) : (s.setChan c x).tms = s.tms := rfl
@[simp] theorem setChan_ksc (s : State) (c : Nat) (x : Channel) : (s.setChan c x).ksc = s.ksc := rfl
@[simp] theorem setChan_xpe (s : State) (c : Nat) (x : Channel) : (s.setChan c x).xpe = s.xpe := rfl
@[simp] theorem setChan_flt (s : State) (c : Nat) (x : Channel) : (s.setChan c x).flt = s.flt := rfl
@[simp] theorem setChan_tap (s : State) (c : Nat) (x : Channel) : (s.setChan c x).tap = s.tap := rfl
@[simp] theorem setChan_csc (s : State) (c : Nat) (x : Channel) : (s.setChan c x).csc = s.csc := rfl
@[simp] theorem setChan_courses (s : State) (c : Nat) (x : Channel) : (s.setChan c x).courses = s.courses := rfl
@[simp] theorem setChan_regs (s : State) (c : Nat) (x : Channel) : (s.setChan c x).regs = s.regs := rfl
@[simp] theorem setChan_counters (s : State) (c : Nat) (x : Channel) : (s.setChan c x).counters = s.counters := rfl
@[simp] theorem setChan_freeCount (s : State) (c : Nat) (x : Channel) : (s.setChan c x).freeCount = s.freeCount := rfl
@[simp] theorem setChan_due (s : State) (c : Nat) (x : Channel) : (s.setChan c x).due = s.due := rfl
@[simp] theorem setChan_out (s : State) (c : Nat) (x : Channel) : (s.setChan c x).out = s.out := rfl
@[simp] theorem setChan_pending (s : State) (c : Nat) (x : Channel) : (s.setChan c x).pending = s.pending := rfl

@[simp] theorem setPkt_supply (s : State) (p : Nat) (x : Packet) : (s.setPkt p x).supply = s.supply := rfl
@[simp] theorem setPkt_clocks (s : State) (p : Nat) (x : Packet) : (s.setPkt p x).clocks = s.clocks := rfl
@[simp] theorem setPkt_pace (s : State) (p : Nat) (x : Packet) : (s.setPkt p x).pace = s.pace := rfl
@[simp] theorem setPkt_tsu (s : State) (p : Nat) (x : Packet) : (s.setPkt p x).tsu = s.tsu := rfl
@[simp] theorem setPkt_bring (s : State) (p : Nat) (x : Packet) : (s.setPkt p x).bring = s.bring := rfl
@[simp] theorem setPkt_line (s : State) (p : Nat) (x : Packet) : (s.setPkt p x).line = s.line := rfl
@[simp] theorem setPkt_host (s : State) (p : Nat) (x : Packet) : (s.setPkt p x).host = s.host := rfl
@[simp] theorem setPkt_fuses (s : State) (p : Nat) (x : Packet) : (s.setPkt p x).fuses = s.fuses := rfl
@[simp] theorem setPkt_glb (s : State) (p : Nat) (x : Packet) : (s.setPkt p x).glb = s.glb := rfl
@[simp] theorem setPkt_qmg (s : State) (p : Nat) (x : Packet) : (s.setPkt p x).qmg = s.qmg := rfl
@[simp] theorem setPkt_dma (s : State) (p : Nat) (x : Packet) : (s.setPkt p x).dma = s.dma := rfl
@[simp] theorem setPkt_ivm (s : State) (p : Nat) (x : Packet) : (s.setPkt p x).ivm = s.ivm := rfl
@[simp] theorem setPkt_rules (s : State) (p : Nat) (x : Packet) : (s.setPkt p x).rules = s.rules := rfl
@[simp] theorem setPkt_fwd (s : State) (p : Nat) (x : Packet) : (s.setPkt p x).fwd = s.fwd := rfl
@[simp] theorem setPkt_cry (s : State) (p : Nat) (x : Packet) : (s.setPkt p x).cry = s.cry := rfl
@[simp] theorem setPkt_sto (s : State) (p : Nat) (x : Packet) : (s.setPkt p x).sto = s.sto := rfl
@[simp] theorem setPkt_buf (s : State) (p : Nat) (x : Packet) : (s.setPkt p x).buf = s.buf := rfl
@[simp] theorem setPkt_nextPkt (s : State) (p : Nat) (x : Packet) : (s.setPkt p x).nextPkt = s.nextPkt := rfl
@[simp] theorem setPkt_tms (s : State) (p : Nat) (x : Packet) : (s.setPkt p x).tms = s.tms := rfl
@[simp] theorem setPkt_ksc (s : State) (p : Nat) (x : Packet) : (s.setPkt p x).ksc = s.ksc := rfl
@[simp] theorem setPkt_xpe (s : State) (p : Nat) (x : Packet) : (s.setPkt p x).xpe = s.xpe := rfl
@[simp] theorem setPkt_flt (s : State) (p : Nat) (x : Packet) : (s.setPkt p x).flt = s.flt := rfl
@[simp] theorem setPkt_tap (s : State) (p : Nat) (x : Packet) : (s.setPkt p x).tap = s.tap := rfl
@[simp] theorem setPkt_csc (s : State) (p : Nat) (x : Packet) : (s.setPkt p x).csc = s.csc := rfl
@[simp] theorem setPkt_courses (s : State) (p : Nat) (x : Packet) : (s.setPkt p x).courses = s.courses := rfl
@[simp] theorem setPkt_regs (s : State) (p : Nat) (x : Packet) : (s.setPkt p x).regs = s.regs := rfl
@[simp] theorem setPkt_counters (s : State) (p : Nat) (x : Packet) : (s.setPkt p x).counters = s.counters := rfl
@[simp] theorem setPkt_freeCount (s : State) (p : Nat) (x : Packet) : (s.setPkt p x).freeCount = s.freeCount := rfl
@[simp] theorem setPkt_due (s : State) (p : Nat) (x : Packet) : (s.setPkt p x).due = s.due := rfl
@[simp] theorem setPkt_out (s : State) (p : Nat) (x : Packet) : (s.setPkt p x).out = s.out := rfl
@[simp] theorem setPkt_pending (s : State) (p : Nat) (x : Packet) : (s.setPkt p x).pending = s.pending := rfl

@[simp] theorem setPort_supply (s : State) (n : Nat) (x : LinePort) : (s.setPort n x).supply = s.supply := rfl
@[simp] theorem setPort_clocks (s : State) (n : Nat) (x : LinePort) : (s.setPort n x).clocks = s.clocks := rfl
@[simp] theorem setPort_pace (s : State) (n : Nat) (x : LinePort) : (s.setPort n x).pace = s.pace := rfl
@[simp] theorem setPort_tsu (s : State) (n : Nat) (x : LinePort) : (s.setPort n x).tsu = s.tsu := rfl
@[simp] theorem setPort_bring (s : State) (n : Nat) (x : LinePort) : (s.setPort n x).bring = s.bring := rfl
@[simp] theorem setPort_host (s : State) (n : Nat) (x : LinePort) : (s.setPort n x).host = s.host := rfl
@[simp] theorem setPort_fuses (s : State) (n : Nat) (x : LinePort) : (s.setPort n x).fuses = s.fuses := rfl
@[simp] theorem setPort_glb (s : State) (n : Nat) (x : LinePort) : (s.setPort n x).glb = s.glb := rfl
@[simp] theorem setPort_qmg (s : State) (n : Nat) (x : LinePort) : (s.setPort n x).qmg = s.qmg := rfl
@[simp] theorem setPort_dma (s : State) (n : Nat) (x : LinePort) : (s.setPort n x).dma = s.dma := rfl
@[simp] theorem setPort_ivm (s : State) (n : Nat) (x : LinePort) : (s.setPort n x).ivm = s.ivm := rfl
@[simp] theorem setPort_rules (s : State) (n : Nat) (x : LinePort) : (s.setPort n x).rules = s.rules := rfl
@[simp] theorem setPort_fwd (s : State) (n : Nat) (x : LinePort) : (s.setPort n x).fwd = s.fwd := rfl
@[simp] theorem setPort_cry (s : State) (n : Nat) (x : LinePort) : (s.setPort n x).cry = s.cry := rfl
@[simp] theorem setPort_sto (s : State) (n : Nat) (x : LinePort) : (s.setPort n x).sto = s.sto := rfl
@[simp] theorem setPort_buf (s : State) (n : Nat) (x : LinePort) : (s.setPort n x).buf = s.buf := rfl
@[simp] theorem setPort_packets (s : State) (n : Nat) (x : LinePort) : (s.setPort n x).packets = s.packets := rfl
@[simp] theorem setPort_nextPkt (s : State) (n : Nat) (x : LinePort) : (s.setPort n x).nextPkt = s.nextPkt := rfl
@[simp] theorem setPort_tms (s : State) (n : Nat) (x : LinePort) : (s.setPort n x).tms = s.tms := rfl
@[simp] theorem setPort_ksc (s : State) (n : Nat) (x : LinePort) : (s.setPort n x).ksc = s.ksc := rfl
@[simp] theorem setPort_xpe (s : State) (n : Nat) (x : LinePort) : (s.setPort n x).xpe = s.xpe := rfl
@[simp] theorem setPort_flt (s : State) (n : Nat) (x : LinePort) : (s.setPort n x).flt = s.flt := rfl
@[simp] theorem setPort_tap (s : State) (n : Nat) (x : LinePort) : (s.setPort n x).tap = s.tap := rfl
@[simp] theorem setPort_csc (s : State) (n : Nat) (x : LinePort) : (s.setPort n x).csc = s.csc := rfl
@[simp] theorem setPort_courses (s : State) (n : Nat) (x : LinePort) : (s.setPort n x).courses = s.courses := rfl
@[simp] theorem setPort_regs (s : State) (n : Nat) (x : LinePort) : (s.setPort n x).regs = s.regs := rfl
@[simp] theorem setPort_counters (s : State) (n : Nat) (x : LinePort) : (s.setPort n x).counters = s.counters := rfl
@[simp] theorem setPort_freeCount (s : State) (n : Nat) (x : LinePort) : (s.setPort n x).freeCount = s.freeCount := rfl
@[simp] theorem setPort_due (s : State) (n : Nat) (x : LinePort) : (s.setPort n x).due = s.due := rfl
@[simp] theorem setPort_out (s : State) (n : Nat) (x : LinePort) : (s.setPort n x).out = s.out := rfl
@[simp] theorem setPort_pending (s : State) (n : Nat) (x : LinePort) : (s.setPort n x).pending = s.pending := rfl

@[simp] theorem setQueue_supply (s : State) (k : Nat) (x : Queue) : (s.setQueue k x).supply = s.supply := rfl
@[simp] theorem setQueue_clocks (s : State) (k : Nat) (x : Queue) : (s.setQueue k x).clocks = s.clocks := rfl
@[simp] theorem setQueue_pace (s : State) (k : Nat) (x : Queue) : (s.setQueue k x).pace = s.pace := rfl
@[simp] theorem setQueue_tsu (s : State) (k : Nat) (x : Queue) : (s.setQueue k x).tsu = s.tsu := rfl
@[simp] theorem setQueue_bring (s : State) (k : Nat) (x : Queue) : (s.setQueue k x).bring = s.bring := rfl
@[simp] theorem setQueue_line (s : State) (k : Nat) (x : Queue) : (s.setQueue k x).line = s.line := rfl
@[simp] theorem setQueue_host (s : State) (k : Nat) (x : Queue) : (s.setQueue k x).host = s.host := rfl
@[simp] theorem setQueue_fuses (s : State) (k : Nat) (x : Queue) : (s.setQueue k x).fuses = s.fuses := rfl
@[simp] theorem setQueue_glb (s : State) (k : Nat) (x : Queue) : (s.setQueue k x).glb = s.glb := rfl
@[simp] theorem setQueue_dma (s : State) (k : Nat) (x : Queue) : (s.setQueue k x).dma = s.dma := rfl
@[simp] theorem setQueue_ivm (s : State) (k : Nat) (x : Queue) : (s.setQueue k x).ivm = s.ivm := rfl
@[simp] theorem setQueue_rules (s : State) (k : Nat) (x : Queue) : (s.setQueue k x).rules = s.rules := rfl
@[simp] theorem setQueue_fwd (s : State) (k : Nat) (x : Queue) : (s.setQueue k x).fwd = s.fwd := rfl
@[simp] theorem setQueue_cry (s : State) (k : Nat) (x : Queue) : (s.setQueue k x).cry = s.cry := rfl
@[simp] theorem setQueue_sto (s : State) (k : Nat) (x : Queue) : (s.setQueue k x).sto = s.sto := rfl
@[simp] theorem setQueue_buf (s : State) (k : Nat) (x : Queue) : (s.setQueue k x).buf = s.buf := rfl
@[simp] theorem setQueue_packets (s : State) (k : Nat) (x : Queue) : (s.setQueue k x).packets = s.packets := rfl
@[simp] theorem setQueue_nextPkt (s : State) (k : Nat) (x : Queue) : (s.setQueue k x).nextPkt = s.nextPkt := rfl
@[simp] theorem setQueue_tms (s : State) (k : Nat) (x : Queue) : (s.setQueue k x).tms = s.tms := rfl
@[simp] theorem setQueue_ksc (s : State) (k : Nat) (x : Queue) : (s.setQueue k x).ksc = s.ksc := rfl
@[simp] theorem setQueue_xpe (s : State) (k : Nat) (x : Queue) : (s.setQueue k x).xpe = s.xpe := rfl
@[simp] theorem setQueue_flt (s : State) (k : Nat) (x : Queue) : (s.setQueue k x).flt = s.flt := rfl
@[simp] theorem setQueue_tap (s : State) (k : Nat) (x : Queue) : (s.setQueue k x).tap = s.tap := rfl
@[simp] theorem setQueue_csc (s : State) (k : Nat) (x : Queue) : (s.setQueue k x).csc = s.csc := rfl
@[simp] theorem setQueue_courses (s : State) (k : Nat) (x : Queue) : (s.setQueue k x).courses = s.courses := rfl
@[simp] theorem setQueue_regs (s : State) (k : Nat) (x : Queue) : (s.setQueue k x).regs = s.regs := rfl
@[simp] theorem setQueue_counters (s : State) (k : Nat) (x : Queue) : (s.setQueue k x).counters = s.counters := rfl
@[simp] theorem setQueue_freeCount (s : State) (k : Nat) (x : Queue) : (s.setQueue k x).freeCount = s.freeCount := rfl
@[simp] theorem setQueue_due (s : State) (k : Nat) (x : Queue) : (s.setQueue k x).due = s.due := rfl
@[simp] theorem setQueue_out (s : State) (k : Nat) (x : Queue) : (s.setQueue k x).out = s.out := rfl
@[simp] theorem setQueue_pending (s : State) (k : Nat) (x : Queue) : (s.setQueue k x).pending = s.pending := rfl

@[simp] theorem setRing_supply (s : State) (r : Nat) (x : CompRing) : (s.setRing r x).supply = s.supply := rfl
@[simp] theorem setRing_clocks (s : State) (r : Nat) (x : CompRing) : (s.setRing r x).clocks = s.clocks := rfl
@[simp] theorem setRing_pace (s : State) (r : Nat) (x : CompRing) : (s.setRing r x).pace = s.pace := rfl
@[simp] theorem setRing_tsu (s : State) (r : Nat) (x : CompRing) : (s.setRing r x).tsu = s.tsu := rfl
@[simp] theorem setRing_bring (s : State) (r : Nat) (x : CompRing) : (s.setRing r x).bring = s.bring := rfl
@[simp] theorem setRing_line (s : State) (r : Nat) (x : CompRing) : (s.setRing r x).line = s.line := rfl
@[simp] theorem setRing_host (s : State) (r : Nat) (x : CompRing) : (s.setRing r x).host = s.host := rfl
@[simp] theorem setRing_fuses (s : State) (r : Nat) (x : CompRing) : (s.setRing r x).fuses = s.fuses := rfl
@[simp] theorem setRing_glb (s : State) (r : Nat) (x : CompRing) : (s.setRing r x).glb = s.glb := rfl
@[simp] theorem setRing_dma (s : State) (r : Nat) (x : CompRing) : (s.setRing r x).dma = s.dma := rfl
@[simp] theorem setRing_ivm (s : State) (r : Nat) (x : CompRing) : (s.setRing r x).ivm = s.ivm := rfl
@[simp] theorem setRing_rules (s : State) (r : Nat) (x : CompRing) : (s.setRing r x).rules = s.rules := rfl
@[simp] theorem setRing_fwd (s : State) (r : Nat) (x : CompRing) : (s.setRing r x).fwd = s.fwd := rfl
@[simp] theorem setRing_cry (s : State) (r : Nat) (x : CompRing) : (s.setRing r x).cry = s.cry := rfl
@[simp] theorem setRing_sto (s : State) (r : Nat) (x : CompRing) : (s.setRing r x).sto = s.sto := rfl
@[simp] theorem setRing_buf (s : State) (r : Nat) (x : CompRing) : (s.setRing r x).buf = s.buf := rfl
@[simp] theorem setRing_packets (s : State) (r : Nat) (x : CompRing) : (s.setRing r x).packets = s.packets := rfl
@[simp] theorem setRing_nextPkt (s : State) (r : Nat) (x : CompRing) : (s.setRing r x).nextPkt = s.nextPkt := rfl
@[simp] theorem setRing_tms (s : State) (r : Nat) (x : CompRing) : (s.setRing r x).tms = s.tms := rfl
@[simp] theorem setRing_ksc (s : State) (r : Nat) (x : CompRing) : (s.setRing r x).ksc = s.ksc := rfl
@[simp] theorem setRing_xpe (s : State) (r : Nat) (x : CompRing) : (s.setRing r x).xpe = s.xpe := rfl
@[simp] theorem setRing_flt (s : State) (r : Nat) (x : CompRing) : (s.setRing r x).flt = s.flt := rfl
@[simp] theorem setRing_tap (s : State) (r : Nat) (x : CompRing) : (s.setRing r x).tap = s.tap := rfl
@[simp] theorem setRing_csc (s : State) (r : Nat) (x : CompRing) : (s.setRing r x).csc = s.csc := rfl
@[simp] theorem setRing_courses (s : State) (r : Nat) (x : CompRing) : (s.setRing r x).courses = s.courses := rfl
@[simp] theorem setRing_regs (s : State) (r : Nat) (x : CompRing) : (s.setRing r x).regs = s.regs := rfl
@[simp] theorem setRing_counters (s : State) (r : Nat) (x : CompRing) : (s.setRing r x).counters = s.counters := rfl
@[simp] theorem setRing_freeCount (s : State) (r : Nat) (x : CompRing) : (s.setRing r x).freeCount = s.freeCount := rfl
@[simp] theorem setRing_due (s : State) (r : Nat) (x : CompRing) : (s.setRing r x).due = s.due := rfl
@[simp] theorem setRing_out (s : State) (r : Nat) (x : CompRing) : (s.setRing r x).out = s.out := rfl
@[simp] theorem setRing_pending (s : State) (r : Nat) (x : CompRing) : (s.setRing r x).pending = s.pending := rfl

@[simp] theorem setLine_supply (s : State) (l : Nat) (x : DbLine) : (s.setLine l x).supply = s.supply := rfl
@[simp] theorem setLine_clocks (s : State) (l : Nat) (x : DbLine) : (s.setLine l x).clocks = s.clocks := rfl
@[simp] theorem setLine_pace (s : State) (l : Nat) (x : DbLine) : (s.setLine l x).pace = s.pace := rfl
@[simp] theorem setLine_tsu (s : State) (l : Nat) (x : DbLine) : (s.setLine l x).tsu = s.tsu := rfl
@[simp] theorem setLine_bring (s : State) (l : Nat) (x : DbLine) : (s.setLine l x).bring = s.bring := rfl
@[simp] theorem setLine_line (s : State) (l : Nat) (x : DbLine) : (s.setLine l x).line = s.line := rfl
@[simp] theorem setLine_host (s : State) (l : Nat) (x : DbLine) : (s.setLine l x).host = s.host := rfl
@[simp] theorem setLine_fuses (s : State) (l : Nat) (x : DbLine) : (s.setLine l x).fuses = s.fuses := rfl
@[simp] theorem setLine_glb (s : State) (l : Nat) (x : DbLine) : (s.setLine l x).glb = s.glb := rfl
@[simp] theorem setLine_dma (s : State) (l : Nat) (x : DbLine) : (s.setLine l x).dma = s.dma := rfl
@[simp] theorem setLine_ivm (s : State) (l : Nat) (x : DbLine) : (s.setLine l x).ivm = s.ivm := rfl
@[simp] theorem setLine_rules (s : State) (l : Nat) (x : DbLine) : (s.setLine l x).rules = s.rules := rfl
@[simp] theorem setLine_fwd (s : State) (l : Nat) (x : DbLine) : (s.setLine l x).fwd = s.fwd := rfl
@[simp] theorem setLine_cry (s : State) (l : Nat) (x : DbLine) : (s.setLine l x).cry = s.cry := rfl
@[simp] theorem setLine_sto (s : State) (l : Nat) (x : DbLine) : (s.setLine l x).sto = s.sto := rfl
@[simp] theorem setLine_buf (s : State) (l : Nat) (x : DbLine) : (s.setLine l x).buf = s.buf := rfl
@[simp] theorem setLine_packets (s : State) (l : Nat) (x : DbLine) : (s.setLine l x).packets = s.packets := rfl
@[simp] theorem setLine_nextPkt (s : State) (l : Nat) (x : DbLine) : (s.setLine l x).nextPkt = s.nextPkt := rfl
@[simp] theorem setLine_tms (s : State) (l : Nat) (x : DbLine) : (s.setLine l x).tms = s.tms := rfl
@[simp] theorem setLine_ksc (s : State) (l : Nat) (x : DbLine) : (s.setLine l x).ksc = s.ksc := rfl
@[simp] theorem setLine_xpe (s : State) (l : Nat) (x : DbLine) : (s.setLine l x).xpe = s.xpe := rfl
@[simp] theorem setLine_flt (s : State) (l : Nat) (x : DbLine) : (s.setLine l x).flt = s.flt := rfl
@[simp] theorem setLine_tap (s : State) (l : Nat) (x : DbLine) : (s.setLine l x).tap = s.tap := rfl
@[simp] theorem setLine_csc (s : State) (l : Nat) (x : DbLine) : (s.setLine l x).csc = s.csc := rfl
@[simp] theorem setLine_courses (s : State) (l : Nat) (x : DbLine) : (s.setLine l x).courses = s.courses := rfl
@[simp] theorem setLine_regs (s : State) (l : Nat) (x : DbLine) : (s.setLine l x).regs = s.regs := rfl
@[simp] theorem setLine_counters (s : State) (l : Nat) (x : DbLine) : (s.setLine l x).counters = s.counters := rfl
@[simp] theorem setLine_freeCount (s : State) (l : Nat) (x : DbLine) : (s.setLine l x).freeCount = s.freeCount := rfl
@[simp] theorem setLine_due (s : State) (l : Nat) (x : DbLine) : (s.setLine l x).due = s.due := rfl
@[simp] theorem setLine_out (s : State) (l : Nat) (x : DbLine) : (s.setLine l x).out = s.out := rfl
@[simp] theorem setLine_pending (s : State) (l : Nat) (x : DbLine) : (s.setLine l x).pending = s.pending := rfl

@[simp] theorem setDmaFace_supply (s : State) (f : Nat) (x : DmaFace) : (s.setDmaFace f x).supply = s.supply := rfl
@[simp] theorem setDmaFace_clocks (s : State) (f : Nat) (x : DmaFace) : (s.setDmaFace f x).clocks = s.clocks := rfl
@[simp] theorem setDmaFace_pace (s : State) (f : Nat) (x : DmaFace) : (s.setDmaFace f x).pace = s.pace := rfl
@[simp] theorem setDmaFace_tsu (s : State) (f : Nat) (x : DmaFace) : (s.setDmaFace f x).tsu = s.tsu := rfl
@[simp] theorem setDmaFace_bring (s : State) (f : Nat) (x : DmaFace) : (s.setDmaFace f x).bring = s.bring := rfl
@[simp] theorem setDmaFace_line (s : State) (f : Nat) (x : DmaFace) : (s.setDmaFace f x).line = s.line := rfl
@[simp] theorem setDmaFace_host (s : State) (f : Nat) (x : DmaFace) : (s.setDmaFace f x).host = s.host := rfl
@[simp] theorem setDmaFace_fuses (s : State) (f : Nat) (x : DmaFace) : (s.setDmaFace f x).fuses = s.fuses := rfl
@[simp] theorem setDmaFace_glb (s : State) (f : Nat) (x : DmaFace) : (s.setDmaFace f x).glb = s.glb := rfl
@[simp] theorem setDmaFace_qmg (s : State) (f : Nat) (x : DmaFace) : (s.setDmaFace f x).qmg = s.qmg := rfl
@[simp] theorem setDmaFace_ivm (s : State) (f : Nat) (x : DmaFace) : (s.setDmaFace f x).ivm = s.ivm := rfl
@[simp] theorem setDmaFace_rules (s : State) (f : Nat) (x : DmaFace) : (s.setDmaFace f x).rules = s.rules := rfl
@[simp] theorem setDmaFace_fwd (s : State) (f : Nat) (x : DmaFace) : (s.setDmaFace f x).fwd = s.fwd := rfl
@[simp] theorem setDmaFace_cry (s : State) (f : Nat) (x : DmaFace) : (s.setDmaFace f x).cry = s.cry := rfl
@[simp] theorem setDmaFace_sto (s : State) (f : Nat) (x : DmaFace) : (s.setDmaFace f x).sto = s.sto := rfl
@[simp] theorem setDmaFace_buf (s : State) (f : Nat) (x : DmaFace) : (s.setDmaFace f x).buf = s.buf := rfl
@[simp] theorem setDmaFace_packets (s : State) (f : Nat) (x : DmaFace) : (s.setDmaFace f x).packets = s.packets := rfl
@[simp] theorem setDmaFace_nextPkt (s : State) (f : Nat) (x : DmaFace) : (s.setDmaFace f x).nextPkt = s.nextPkt := rfl
@[simp] theorem setDmaFace_tms (s : State) (f : Nat) (x : DmaFace) : (s.setDmaFace f x).tms = s.tms := rfl
@[simp] theorem setDmaFace_ksc (s : State) (f : Nat) (x : DmaFace) : (s.setDmaFace f x).ksc = s.ksc := rfl
@[simp] theorem setDmaFace_xpe (s : State) (f : Nat) (x : DmaFace) : (s.setDmaFace f x).xpe = s.xpe := rfl
@[simp] theorem setDmaFace_flt (s : State) (f : Nat) (x : DmaFace) : (s.setDmaFace f x).flt = s.flt := rfl
@[simp] theorem setDmaFace_tap (s : State) (f : Nat) (x : DmaFace) : (s.setDmaFace f x).tap = s.tap := rfl
@[simp] theorem setDmaFace_csc (s : State) (f : Nat) (x : DmaFace) : (s.setDmaFace f x).csc = s.csc := rfl
@[simp] theorem setDmaFace_courses (s : State) (f : Nat) (x : DmaFace) : (s.setDmaFace f x).courses = s.courses := rfl
@[simp] theorem setDmaFace_regs (s : State) (f : Nat) (x : DmaFace) : (s.setDmaFace f x).regs = s.regs := rfl
@[simp] theorem setDmaFace_counters (s : State) (f : Nat) (x : DmaFace) : (s.setDmaFace f x).counters = s.counters := rfl
@[simp] theorem setDmaFace_freeCount (s : State) (f : Nat) (x : DmaFace) : (s.setDmaFace f x).freeCount = s.freeCount := rfl
@[simp] theorem setDmaFace_due (s : State) (f : Nat) (x : DmaFace) : (s.setDmaFace f x).due = s.due := rfl
@[simp] theorem setDmaFace_out (s : State) (f : Nat) (x : DmaFace) : (s.setDmaFace f x).out = s.out := rfl
@[simp] theorem setDmaFace_pending (s : State) (f : Nat) (x : DmaFace) : (s.setDmaFace f x).pending = s.pending := rfl

@[simp] theorem setCtx_supply (s : State) (c : Nat) (x : Ctx) : (s.setCtx c x).supply = s.supply := rfl
@[simp] theorem setCtx_clocks (s : State) (c : Nat) (x : Ctx) : (s.setCtx c x).clocks = s.clocks := rfl
@[simp] theorem setCtx_pace (s : State) (c : Nat) (x : Ctx) : (s.setCtx c x).pace = s.pace := rfl
@[simp] theorem setCtx_tsu (s : State) (c : Nat) (x : Ctx) : (s.setCtx c x).tsu = s.tsu := rfl
@[simp] theorem setCtx_bring (s : State) (c : Nat) (x : Ctx) : (s.setCtx c x).bring = s.bring := rfl
@[simp] theorem setCtx_line (s : State) (c : Nat) (x : Ctx) : (s.setCtx c x).line = s.line := rfl
@[simp] theorem setCtx_host (s : State) (c : Nat) (x : Ctx) : (s.setCtx c x).host = s.host := rfl
@[simp] theorem setCtx_fuses (s : State) (c : Nat) (x : Ctx) : (s.setCtx c x).fuses = s.fuses := rfl
@[simp] theorem setCtx_glb (s : State) (c : Nat) (x : Ctx) : (s.setCtx c x).glb = s.glb := rfl
@[simp] theorem setCtx_qmg (s : State) (c : Nat) (x : Ctx) : (s.setCtx c x).qmg = s.qmg := rfl
@[simp] theorem setCtx_dma (s : State) (c : Nat) (x : Ctx) : (s.setCtx c x).dma = s.dma := rfl
@[simp] theorem setCtx_ivm (s : State) (c : Nat) (x : Ctx) : (s.setCtx c x).ivm = s.ivm := rfl
@[simp] theorem setCtx_rules (s : State) (c : Nat) (x : Ctx) : (s.setCtx c x).rules = s.rules := rfl
@[simp] theorem setCtx_fwd (s : State) (c : Nat) (x : Ctx) : (s.setCtx c x).fwd = s.fwd := rfl
@[simp] theorem setCtx_cry (s : State) (c : Nat) (x : Ctx) : (s.setCtx c x).cry = s.cry := rfl
@[simp] theorem setCtx_buf (s : State) (c : Nat) (x : Ctx) : (s.setCtx c x).buf = s.buf := rfl
@[simp] theorem setCtx_packets (s : State) (c : Nat) (x : Ctx) : (s.setCtx c x).packets = s.packets := rfl
@[simp] theorem setCtx_nextPkt (s : State) (c : Nat) (x : Ctx) : (s.setCtx c x).nextPkt = s.nextPkt := rfl
@[simp] theorem setCtx_tms (s : State) (c : Nat) (x : Ctx) : (s.setCtx c x).tms = s.tms := rfl
@[simp] theorem setCtx_ksc (s : State) (c : Nat) (x : Ctx) : (s.setCtx c x).ksc = s.ksc := rfl
@[simp] theorem setCtx_xpe (s : State) (c : Nat) (x : Ctx) : (s.setCtx c x).xpe = s.xpe := rfl
@[simp] theorem setCtx_flt (s : State) (c : Nat) (x : Ctx) : (s.setCtx c x).flt = s.flt := rfl
@[simp] theorem setCtx_tap (s : State) (c : Nat) (x : Ctx) : (s.setCtx c x).tap = s.tap := rfl
@[simp] theorem setCtx_csc (s : State) (c : Nat) (x : Ctx) : (s.setCtx c x).csc = s.csc := rfl
@[simp] theorem setCtx_courses (s : State) (c : Nat) (x : Ctx) : (s.setCtx c x).courses = s.courses := rfl
@[simp] theorem setCtx_regs (s : State) (c : Nat) (x : Ctx) : (s.setCtx c x).regs = s.regs := rfl
@[simp] theorem setCtx_counters (s : State) (c : Nat) (x : Ctx) : (s.setCtx c x).counters = s.counters := rfl
@[simp] theorem setCtx_freeCount (s : State) (c : Nat) (x : Ctx) : (s.setCtx c x).freeCount = s.freeCount := rfl
@[simp] theorem setCtx_due (s : State) (c : Nat) (x : Ctx) : (s.setCtx c x).due = s.due := rfl
@[simp] theorem setCtx_out (s : State) (c : Nat) (x : Ctx) : (s.setCtx c x).out = s.out := rfl
@[simp] theorem setCtx_pending (s : State) (c : Nat) (x : Ctx) : (s.setCtx c x).pending = s.pending := rfl

@[simp] theorem setSa_supply (s : State) (i : Nat) (x : SaEntry) : (s.setSa i x).supply = s.supply := rfl
@[simp] theorem setSa_clocks (s : State) (i : Nat) (x : SaEntry) : (s.setSa i x).clocks = s.clocks := rfl
@[simp] theorem setSa_pace (s : State) (i : Nat) (x : SaEntry) : (s.setSa i x).pace = s.pace := rfl
@[simp] theorem setSa_tsu (s : State) (i : Nat) (x : SaEntry) : (s.setSa i x).tsu = s.tsu := rfl
@[simp] theorem setSa_bring (s : State) (i : Nat) (x : SaEntry) : (s.setSa i x).bring = s.bring := rfl
@[simp] theorem setSa_line (s : State) (i : Nat) (x : SaEntry) : (s.setSa i x).line = s.line := rfl
@[simp] theorem setSa_host (s : State) (i : Nat) (x : SaEntry) : (s.setSa i x).host = s.host := rfl
@[simp] theorem setSa_fuses (s : State) (i : Nat) (x : SaEntry) : (s.setSa i x).fuses = s.fuses := rfl
@[simp] theorem setSa_glb (s : State) (i : Nat) (x : SaEntry) : (s.setSa i x).glb = s.glb := rfl
@[simp] theorem setSa_qmg (s : State) (i : Nat) (x : SaEntry) : (s.setSa i x).qmg = s.qmg := rfl
@[simp] theorem setSa_dma (s : State) (i : Nat) (x : SaEntry) : (s.setSa i x).dma = s.dma := rfl
@[simp] theorem setSa_ivm (s : State) (i : Nat) (x : SaEntry) : (s.setSa i x).ivm = s.ivm := rfl
@[simp] theorem setSa_rules (s : State) (i : Nat) (x : SaEntry) : (s.setSa i x).rules = s.rules := rfl
@[simp] theorem setSa_fwd (s : State) (i : Nat) (x : SaEntry) : (s.setSa i x).fwd = s.fwd := rfl
@[simp] theorem setSa_sto (s : State) (i : Nat) (x : SaEntry) : (s.setSa i x).sto = s.sto := rfl
@[simp] theorem setSa_buf (s : State) (i : Nat) (x : SaEntry) : (s.setSa i x).buf = s.buf := rfl
@[simp] theorem setSa_packets (s : State) (i : Nat) (x : SaEntry) : (s.setSa i x).packets = s.packets := rfl
@[simp] theorem setSa_nextPkt (s : State) (i : Nat) (x : SaEntry) : (s.setSa i x).nextPkt = s.nextPkt := rfl
@[simp] theorem setSa_tms (s : State) (i : Nat) (x : SaEntry) : (s.setSa i x).tms = s.tms := rfl
@[simp] theorem setSa_ksc (s : State) (i : Nat) (x : SaEntry) : (s.setSa i x).ksc = s.ksc := rfl
@[simp] theorem setSa_xpe (s : State) (i : Nat) (x : SaEntry) : (s.setSa i x).xpe = s.xpe := rfl
@[simp] theorem setSa_flt (s : State) (i : Nat) (x : SaEntry) : (s.setSa i x).flt = s.flt := rfl
@[simp] theorem setSa_tap (s : State) (i : Nat) (x : SaEntry) : (s.setSa i x).tap = s.tap := rfl
@[simp] theorem setSa_csc (s : State) (i : Nat) (x : SaEntry) : (s.setSa i x).csc = s.csc := rfl
@[simp] theorem setSa_courses (s : State) (i : Nat) (x : SaEntry) : (s.setSa i x).courses = s.courses := rfl
@[simp] theorem setSa_regs (s : State) (i : Nat) (x : SaEntry) : (s.setSa i x).regs = s.regs := rfl
@[simp] theorem setSa_counters (s : State) (i : Nat) (x : SaEntry) : (s.setSa i x).counters = s.counters := rfl
@[simp] theorem setSa_freeCount (s : State) (i : Nat) (x : SaEntry) : (s.setSa i x).freeCount = s.freeCount := rfl
@[simp] theorem setSa_due (s : State) (i : Nat) (x : SaEntry) : (s.setSa i x).due = s.due := rfl
@[simp] theorem setSa_out (s : State) (i : Nat) (x : SaEntry) : (s.setSa i x).out = s.out := rfl
@[simp] theorem setSa_pending (s : State) (i : Nat) (x : SaEntry) : (s.setSa i x).pending = s.pending := rfl

@[simp] theorem setLane_supply (s : State) (l : Nat) (x : Lane) : (s.setLane l x).supply = s.supply := rfl
@[simp] theorem setLane_clocks (s : State) (l : Nat) (x : Lane) : (s.setLane l x).clocks = s.clocks := rfl
@[simp] theorem setLane_pace (s : State) (l : Nat) (x : Lane) : (s.setLane l x).pace = s.pace := rfl
@[simp] theorem setLane_tsu (s : State) (l : Nat) (x : Lane) : (s.setLane l x).tsu = s.tsu := rfl
@[simp] theorem setLane_bring (s : State) (l : Nat) (x : Lane) : (s.setLane l x).bring = s.bring := rfl
@[simp] theorem setLane_line (s : State) (l : Nat) (x : Lane) : (s.setLane l x).line = s.line := rfl
@[simp] theorem setLane_host (s : State) (l : Nat) (x : Lane) : (s.setLane l x).host = s.host := rfl
@[simp] theorem setLane_fuses (s : State) (l : Nat) (x : Lane) : (s.setLane l x).fuses = s.fuses := rfl
@[simp] theorem setLane_glb (s : State) (l : Nat) (x : Lane) : (s.setLane l x).glb = s.glb := rfl
@[simp] theorem setLane_qmg (s : State) (l : Nat) (x : Lane) : (s.setLane l x).qmg = s.qmg := rfl
@[simp] theorem setLane_dma (s : State) (l : Nat) (x : Lane) : (s.setLane l x).dma = s.dma := rfl
@[simp] theorem setLane_ivm (s : State) (l : Nat) (x : Lane) : (s.setLane l x).ivm = s.ivm := rfl
@[simp] theorem setLane_rules (s : State) (l : Nat) (x : Lane) : (s.setLane l x).rules = s.rules := rfl
@[simp] theorem setLane_fwd (s : State) (l : Nat) (x : Lane) : (s.setLane l x).fwd = s.fwd := rfl
@[simp] theorem setLane_sto (s : State) (l : Nat) (x : Lane) : (s.setLane l x).sto = s.sto := rfl
@[simp] theorem setLane_buf (s : State) (l : Nat) (x : Lane) : (s.setLane l x).buf = s.buf := rfl
@[simp] theorem setLane_packets (s : State) (l : Nat) (x : Lane) : (s.setLane l x).packets = s.packets := rfl
@[simp] theorem setLane_nextPkt (s : State) (l : Nat) (x : Lane) : (s.setLane l x).nextPkt = s.nextPkt := rfl
@[simp] theorem setLane_tms (s : State) (l : Nat) (x : Lane) : (s.setLane l x).tms = s.tms := rfl
@[simp] theorem setLane_ksc (s : State) (l : Nat) (x : Lane) : (s.setLane l x).ksc = s.ksc := rfl
@[simp] theorem setLane_xpe (s : State) (l : Nat) (x : Lane) : (s.setLane l x).xpe = s.xpe := rfl
@[simp] theorem setLane_flt (s : State) (l : Nat) (x : Lane) : (s.setLane l x).flt = s.flt := rfl
@[simp] theorem setLane_tap (s : State) (l : Nat) (x : Lane) : (s.setLane l x).tap = s.tap := rfl
@[simp] theorem setLane_csc (s : State) (l : Nat) (x : Lane) : (s.setLane l x).csc = s.csc := rfl
@[simp] theorem setLane_courses (s : State) (l : Nat) (x : Lane) : (s.setLane l x).courses = s.courses := rfl
@[simp] theorem setLane_regs (s : State) (l : Nat) (x : Lane) : (s.setLane l x).regs = s.regs := rfl
@[simp] theorem setLane_counters (s : State) (l : Nat) (x : Lane) : (s.setLane l x).counters = s.counters := rfl
@[simp] theorem setLane_freeCount (s : State) (l : Nat) (x : Lane) : (s.setLane l x).freeCount = s.freeCount := rfl
@[simp] theorem setLane_due (s : State) (l : Nat) (x : Lane) : (s.setLane l x).due = s.due := rfl
@[simp] theorem setLane_out (s : State) (l : Nat) (x : Lane) : (s.setLane l x).out = s.out := rfl
@[simp] theorem setLane_pending (s : State) (l : Nat) (x : Lane) : (s.setLane l x).pending = s.pending := rfl

@[simp] theorem setBank_supply (s : State) (b : Nat) (x : Bank) : (s.setBank b x).supply = s.supply := rfl
@[simp] theorem setBank_clocks (s : State) (b : Nat) (x : Bank) : (s.setBank b x).clocks = s.clocks := rfl
@[simp] theorem setBank_pace (s : State) (b : Nat) (x : Bank) : (s.setBank b x).pace = s.pace := rfl
@[simp] theorem setBank_tsu (s : State) (b : Nat) (x : Bank) : (s.setBank b x).tsu = s.tsu := rfl
@[simp] theorem setBank_bring (s : State) (b : Nat) (x : Bank) : (s.setBank b x).bring = s.bring := rfl
@[simp] theorem setBank_line (s : State) (b : Nat) (x : Bank) : (s.setBank b x).line = s.line := rfl
@[simp] theorem setBank_host (s : State) (b : Nat) (x : Bank) : (s.setBank b x).host = s.host := rfl
@[simp] theorem setBank_fuses (s : State) (b : Nat) (x : Bank) : (s.setBank b x).fuses = s.fuses := rfl
@[simp] theorem setBank_glb (s : State) (b : Nat) (x : Bank) : (s.setBank b x).glb = s.glb := rfl
@[simp] theorem setBank_qmg (s : State) (b : Nat) (x : Bank) : (s.setBank b x).qmg = s.qmg := rfl
@[simp] theorem setBank_dma (s : State) (b : Nat) (x : Bank) : (s.setBank b x).dma = s.dma := rfl
@[simp] theorem setBank_ivm (s : State) (b : Nat) (x : Bank) : (s.setBank b x).ivm = s.ivm := rfl
@[simp] theorem setBank_fwd (s : State) (b : Nat) (x : Bank) : (s.setBank b x).fwd = s.fwd := rfl
@[simp] theorem setBank_cry (s : State) (b : Nat) (x : Bank) : (s.setBank b x).cry = s.cry := rfl
@[simp] theorem setBank_sto (s : State) (b : Nat) (x : Bank) : (s.setBank b x).sto = s.sto := rfl
@[simp] theorem setBank_buf (s : State) (b : Nat) (x : Bank) : (s.setBank b x).buf = s.buf := rfl
@[simp] theorem setBank_packets (s : State) (b : Nat) (x : Bank) : (s.setBank b x).packets = s.packets := rfl
@[simp] theorem setBank_nextPkt (s : State) (b : Nat) (x : Bank) : (s.setBank b x).nextPkt = s.nextPkt := rfl
@[simp] theorem setBank_tms (s : State) (b : Nat) (x : Bank) : (s.setBank b x).tms = s.tms := rfl
@[simp] theorem setBank_ksc (s : State) (b : Nat) (x : Bank) : (s.setBank b x).ksc = s.ksc := rfl
@[simp] theorem setBank_xpe (s : State) (b : Nat) (x : Bank) : (s.setBank b x).xpe = s.xpe := rfl
@[simp] theorem setBank_flt (s : State) (b : Nat) (x : Bank) : (s.setBank b x).flt = s.flt := rfl
@[simp] theorem setBank_tap (s : State) (b : Nat) (x : Bank) : (s.setBank b x).tap = s.tap := rfl
@[simp] theorem setBank_csc (s : State) (b : Nat) (x : Bank) : (s.setBank b x).csc = s.csc := rfl
@[simp] theorem setBank_courses (s : State) (b : Nat) (x : Bank) : (s.setBank b x).courses = s.courses := rfl
@[simp] theorem setBank_regs (s : State) (b : Nat) (x : Bank) : (s.setBank b x).regs = s.regs := rfl
@[simp] theorem setBank_counters (s : State) (b : Nat) (x : Bank) : (s.setBank b x).counters = s.counters := rfl
@[simp] theorem setBank_freeCount (s : State) (b : Nat) (x : Bank) : (s.setBank b x).freeCount = s.freeCount := rfl
@[simp] theorem setBank_due (s : State) (b : Nat) (x : Bank) : (s.setBank b x).due = s.due := rfl
@[simp] theorem setBank_out (s : State) (b : Nat) (x : Bank) : (s.setBank b x).out = s.out := rfl
@[simp] theorem setBank_pending (s : State) (b : Nat) (x : Bank) : (s.setBank b x).pending = s.pending := rfl

@[simp] theorem setSlots_supply (s : State) (c : Nat) (a : Act) (x : Slots) : (s.setSlots c a x).supply = s.supply := rfl
@[simp] theorem setSlots_clocks (s : State) (c : Nat) (a : Act) (x : Slots) : (s.setSlots c a x).clocks = s.clocks := rfl
@[simp] theorem setSlots_pace (s : State) (c : Nat) (a : Act) (x : Slots) : (s.setSlots c a x).pace = s.pace := rfl
@[simp] theorem setSlots_tsu (s : State) (c : Nat) (a : Act) (x : Slots) : (s.setSlots c a x).tsu = s.tsu := rfl
@[simp] theorem setSlots_bring (s : State) (c : Nat) (a : Act) (x : Slots) : (s.setSlots c a x).bring = s.bring := rfl
@[simp] theorem setSlots_line (s : State) (c : Nat) (a : Act) (x : Slots) : (s.setSlots c a x).line = s.line := rfl
@[simp] theorem setSlots_host (s : State) (c : Nat) (a : Act) (x : Slots) : (s.setSlots c a x).host = s.host := rfl
@[simp] theorem setSlots_fuses (s : State) (c : Nat) (a : Act) (x : Slots) : (s.setSlots c a x).fuses = s.fuses := rfl
@[simp] theorem setSlots_glb (s : State) (c : Nat) (a : Act) (x : Slots) : (s.setSlots c a x).glb = s.glb := rfl
@[simp] theorem setSlots_qmg (s : State) (c : Nat) (a : Act) (x : Slots) : (s.setSlots c a x).qmg = s.qmg := rfl
@[simp] theorem setSlots_dma (s : State) (c : Nat) (a : Act) (x : Slots) : (s.setSlots c a x).dma = s.dma := rfl
@[simp] theorem setSlots_ivm (s : State) (c : Nat) (a : Act) (x : Slots) : (s.setSlots c a x).ivm = s.ivm := rfl
@[simp] theorem setSlots_fwd (s : State) (c : Nat) (a : Act) (x : Slots) : (s.setSlots c a x).fwd = s.fwd := rfl
@[simp] theorem setSlots_cry (s : State) (c : Nat) (a : Act) (x : Slots) : (s.setSlots c a x).cry = s.cry := rfl
@[simp] theorem setSlots_sto (s : State) (c : Nat) (a : Act) (x : Slots) : (s.setSlots c a x).sto = s.sto := rfl
@[simp] theorem setSlots_buf (s : State) (c : Nat) (a : Act) (x : Slots) : (s.setSlots c a x).buf = s.buf := rfl
@[simp] theorem setSlots_packets (s : State) (c : Nat) (a : Act) (x : Slots) : (s.setSlots c a x).packets = s.packets := rfl
@[simp] theorem setSlots_nextPkt (s : State) (c : Nat) (a : Act) (x : Slots) : (s.setSlots c a x).nextPkt = s.nextPkt := rfl
@[simp] theorem setSlots_tms (s : State) (c : Nat) (a : Act) (x : Slots) : (s.setSlots c a x).tms = s.tms := rfl
@[simp] theorem setSlots_ksc (s : State) (c : Nat) (a : Act) (x : Slots) : (s.setSlots c a x).ksc = s.ksc := rfl
@[simp] theorem setSlots_xpe (s : State) (c : Nat) (a : Act) (x : Slots) : (s.setSlots c a x).xpe = s.xpe := rfl
@[simp] theorem setSlots_flt (s : State) (c : Nat) (a : Act) (x : Slots) : (s.setSlots c a x).flt = s.flt := rfl
@[simp] theorem setSlots_tap (s : State) (c : Nat) (a : Act) (x : Slots) : (s.setSlots c a x).tap = s.tap := rfl
@[simp] theorem setSlots_csc (s : State) (c : Nat) (a : Act) (x : Slots) : (s.setSlots c a x).csc = s.csc := rfl
@[simp] theorem setSlots_courses (s : State) (c : Nat) (a : Act) (x : Slots) : (s.setSlots c a x).courses = s.courses := rfl
@[simp] theorem setSlots_regs (s : State) (c : Nat) (a : Act) (x : Slots) : (s.setSlots c a x).regs = s.regs := rfl
@[simp] theorem setSlots_counters (s : State) (c : Nat) (a : Act) (x : Slots) : (s.setSlots c a x).counters = s.counters := rfl
@[simp] theorem setSlots_freeCount (s : State) (c : Nat) (a : Act) (x : Slots) : (s.setSlots c a x).freeCount = s.freeCount := rfl
@[simp] theorem setSlots_due (s : State) (c : Nat) (a : Act) (x : Slots) : (s.setSlots c a x).due = s.due := rfl
@[simp] theorem setSlots_out (s : State) (c : Nat) (a : Act) (x : Slots) : (s.setSlots c a x).out = s.out := rfl
@[simp] theorem setSlots_pending (s : State) (c : Nat) (a : Act) (x : Slots) : (s.setSlots c a x).pending = s.pending := rfl

@[simp] theorem setPg_supply (s : State) (n p : Nat) (x : PgUse) : (s.setPg n p x).supply = s.supply := rfl
@[simp] theorem setPg_clocks (s : State) (n p : Nat) (x : PgUse) : (s.setPg n p x).clocks = s.clocks := rfl
@[simp] theorem setPg_pace (s : State) (n p : Nat) (x : PgUse) : (s.setPg n p x).pace = s.pace := rfl
@[simp] theorem setPg_tsu (s : State) (n p : Nat) (x : PgUse) : (s.setPg n p x).tsu = s.tsu := rfl
@[simp] theorem setPg_bring (s : State) (n p : Nat) (x : PgUse) : (s.setPg n p x).bring = s.bring := rfl
@[simp] theorem setPg_line (s : State) (n p : Nat) (x : PgUse) : (s.setPg n p x).line = s.line := rfl
@[simp] theorem setPg_host (s : State) (n p : Nat) (x : PgUse) : (s.setPg n p x).host = s.host := rfl
@[simp] theorem setPg_fuses (s : State) (n p : Nat) (x : PgUse) : (s.setPg n p x).fuses = s.fuses := rfl
@[simp] theorem setPg_glb (s : State) (n p : Nat) (x : PgUse) : (s.setPg n p x).glb = s.glb := rfl
@[simp] theorem setPg_qmg (s : State) (n p : Nat) (x : PgUse) : (s.setPg n p x).qmg = s.qmg := rfl
@[simp] theorem setPg_dma (s : State) (n p : Nat) (x : PgUse) : (s.setPg n p x).dma = s.dma := rfl
@[simp] theorem setPg_ivm (s : State) (n p : Nat) (x : PgUse) : (s.setPg n p x).ivm = s.ivm := rfl
@[simp] theorem setPg_rules (s : State) (n p : Nat) (x : PgUse) : (s.setPg n p x).rules = s.rules := rfl
@[simp] theorem setPg_fwd (s : State) (n p : Nat) (x : PgUse) : (s.setPg n p x).fwd = s.fwd := rfl
@[simp] theorem setPg_cry (s : State) (n p : Nat) (x : PgUse) : (s.setPg n p x).cry = s.cry := rfl
@[simp] theorem setPg_sto (s : State) (n p : Nat) (x : PgUse) : (s.setPg n p x).sto = s.sto := rfl
@[simp] theorem setPg_packets (s : State) (n p : Nat) (x : PgUse) : (s.setPg n p x).packets = s.packets := rfl
@[simp] theorem setPg_nextPkt (s : State) (n p : Nat) (x : PgUse) : (s.setPg n p x).nextPkt = s.nextPkt := rfl
@[simp] theorem setPg_tms (s : State) (n p : Nat) (x : PgUse) : (s.setPg n p x).tms = s.tms := rfl
@[simp] theorem setPg_ksc (s : State) (n p : Nat) (x : PgUse) : (s.setPg n p x).ksc = s.ksc := rfl
@[simp] theorem setPg_xpe (s : State) (n p : Nat) (x : PgUse) : (s.setPg n p x).xpe = s.xpe := rfl
@[simp] theorem setPg_flt (s : State) (n p : Nat) (x : PgUse) : (s.setPg n p x).flt = s.flt := rfl
@[simp] theorem setPg_tap (s : State) (n p : Nat) (x : PgUse) : (s.setPg n p x).tap = s.tap := rfl
@[simp] theorem setPg_csc (s : State) (n p : Nat) (x : PgUse) : (s.setPg n p x).csc = s.csc := rfl
@[simp] theorem setPg_courses (s : State) (n p : Nat) (x : PgUse) : (s.setPg n p x).courses = s.courses := rfl
@[simp] theorem setPg_regs (s : State) (n p : Nat) (x : PgUse) : (s.setPg n p x).regs = s.regs := rfl
@[simp] theorem setPg_counters (s : State) (n p : Nat) (x : PgUse) : (s.setPg n p x).counters = s.counters := rfl
@[simp] theorem setPg_freeCount (s : State) (n p : Nat) (x : PgUse) : (s.setPg n p x).freeCount = s.freeCount := rfl
@[simp] theorem setPg_due (s : State) (n p : Nat) (x : PgUse) : (s.setPg n p x).due = s.due := rfl
@[simp] theorem setPg_out (s : State) (n p : Nat) (x : PgUse) : (s.setPg n p x).out = s.out := rfl
@[simp] theorem setPg_pending (s : State) (n p : Nat) (x : PgUse) : (s.setPg n p x).pending = s.pending := rfl

@[simp] theorem setGate_supply (s : State) (n : Nat) (x : GatePort) : (s.setGate n x).supply = s.supply := rfl
@[simp] theorem setGate_clocks (s : State) (n : Nat) (x : GatePort) : (s.setGate n x).clocks = s.clocks := rfl
@[simp] theorem setGate_pace (s : State) (n : Nat) (x : GatePort) : (s.setGate n x).pace = s.pace := rfl
@[simp] theorem setGate_tsu (s : State) (n : Nat) (x : GatePort) : (s.setGate n x).tsu = s.tsu := rfl
@[simp] theorem setGate_bring (s : State) (n : Nat) (x : GatePort) : (s.setGate n x).bring = s.bring := rfl
@[simp] theorem setGate_line (s : State) (n : Nat) (x : GatePort) : (s.setGate n x).line = s.line := rfl
@[simp] theorem setGate_host (s : State) (n : Nat) (x : GatePort) : (s.setGate n x).host = s.host := rfl
@[simp] theorem setGate_fuses (s : State) (n : Nat) (x : GatePort) : (s.setGate n x).fuses = s.fuses := rfl
@[simp] theorem setGate_glb (s : State) (n : Nat) (x : GatePort) : (s.setGate n x).glb = s.glb := rfl
@[simp] theorem setGate_qmg (s : State) (n : Nat) (x : GatePort) : (s.setGate n x).qmg = s.qmg := rfl
@[simp] theorem setGate_dma (s : State) (n : Nat) (x : GatePort) : (s.setGate n x).dma = s.dma := rfl
@[simp] theorem setGate_ivm (s : State) (n : Nat) (x : GatePort) : (s.setGate n x).ivm = s.ivm := rfl
@[simp] theorem setGate_rules (s : State) (n : Nat) (x : GatePort) : (s.setGate n x).rules = s.rules := rfl
@[simp] theorem setGate_fwd (s : State) (n : Nat) (x : GatePort) : (s.setGate n x).fwd = s.fwd := rfl
@[simp] theorem setGate_cry (s : State) (n : Nat) (x : GatePort) : (s.setGate n x).cry = s.cry := rfl
@[simp] theorem setGate_sto (s : State) (n : Nat) (x : GatePort) : (s.setGate n x).sto = s.sto := rfl
@[simp] theorem setGate_buf (s : State) (n : Nat) (x : GatePort) : (s.setGate n x).buf = s.buf := rfl
@[simp] theorem setGate_packets (s : State) (n : Nat) (x : GatePort) : (s.setGate n x).packets = s.packets := rfl
@[simp] theorem setGate_nextPkt (s : State) (n : Nat) (x : GatePort) : (s.setGate n x).nextPkt = s.nextPkt := rfl
@[simp] theorem setGate_ksc (s : State) (n : Nat) (x : GatePort) : (s.setGate n x).ksc = s.ksc := rfl
@[simp] theorem setGate_xpe (s : State) (n : Nat) (x : GatePort) : (s.setGate n x).xpe = s.xpe := rfl
@[simp] theorem setGate_flt (s : State) (n : Nat) (x : GatePort) : (s.setGate n x).flt = s.flt := rfl
@[simp] theorem setGate_tap (s : State) (n : Nat) (x : GatePort) : (s.setGate n x).tap = s.tap := rfl
@[simp] theorem setGate_csc (s : State) (n : Nat) (x : GatePort) : (s.setGate n x).csc = s.csc := rfl
@[simp] theorem setGate_courses (s : State) (n : Nat) (x : GatePort) : (s.setGate n x).courses = s.courses := rfl
@[simp] theorem setGate_regs (s : State) (n : Nat) (x : GatePort) : (s.setGate n x).regs = s.regs := rfl
@[simp] theorem setGate_counters (s : State) (n : Nat) (x : GatePort) : (s.setGate n x).counters = s.counters := rfl
@[simp] theorem setGate_freeCount (s : State) (n : Nat) (x : GatePort) : (s.setGate n x).freeCount = s.freeCount := rfl
@[simp] theorem setGate_due (s : State) (n : Nat) (x : GatePort) : (s.setGate n x).due = s.due := rfl
@[simp] theorem setGate_out (s : State) (n : Nat) (x : GatePort) : (s.setGate n x).out = s.out := rfl
@[simp] theorem setGate_pending (s : State) (n : Nat) (x : GatePort) : (s.setGate n x).pending = s.pending := rfl

@[simp] theorem setShaper_supply (s : State) (k : Nat) (x : Shaper) : (s.setShaper k x).supply = s.supply := rfl
@[simp] theorem setShaper_clocks (s : State) (k : Nat) (x : Shaper) : (s.setShaper k x).clocks = s.clocks := rfl
@[simp] theorem setShaper_pace (s : State) (k : Nat) (x : Shaper) : (s.setShaper k x).pace = s.pace := rfl
@[simp] theorem setShaper_tsu (s : State) (k : Nat) (x : Shaper) : (s.setShaper k x).tsu = s.tsu := rfl
@[simp] theorem setShaper_bring (s : State) (k : Nat) (x : Shaper) : (s.setShaper k x).bring = s.bring := rfl
@[simp] theorem setShaper_line (s : State) (k : Nat) (x : Shaper) : (s.setShaper k x).line = s.line := rfl
@[simp] theorem setShaper_host (s : State) (k : Nat) (x : Shaper) : (s.setShaper k x).host = s.host := rfl
@[simp] theorem setShaper_fuses (s : State) (k : Nat) (x : Shaper) : (s.setShaper k x).fuses = s.fuses := rfl
@[simp] theorem setShaper_glb (s : State) (k : Nat) (x : Shaper) : (s.setShaper k x).glb = s.glb := rfl
@[simp] theorem setShaper_qmg (s : State) (k : Nat) (x : Shaper) : (s.setShaper k x).qmg = s.qmg := rfl
@[simp] theorem setShaper_dma (s : State) (k : Nat) (x : Shaper) : (s.setShaper k x).dma = s.dma := rfl
@[simp] theorem setShaper_ivm (s : State) (k : Nat) (x : Shaper) : (s.setShaper k x).ivm = s.ivm := rfl
@[simp] theorem setShaper_rules (s : State) (k : Nat) (x : Shaper) : (s.setShaper k x).rules = s.rules := rfl
@[simp] theorem setShaper_fwd (s : State) (k : Nat) (x : Shaper) : (s.setShaper k x).fwd = s.fwd := rfl
@[simp] theorem setShaper_cry (s : State) (k : Nat) (x : Shaper) : (s.setShaper k x).cry = s.cry := rfl
@[simp] theorem setShaper_sto (s : State) (k : Nat) (x : Shaper) : (s.setShaper k x).sto = s.sto := rfl
@[simp] theorem setShaper_buf (s : State) (k : Nat) (x : Shaper) : (s.setShaper k x).buf = s.buf := rfl
@[simp] theorem setShaper_packets (s : State) (k : Nat) (x : Shaper) : (s.setShaper k x).packets = s.packets := rfl
@[simp] theorem setShaper_nextPkt (s : State) (k : Nat) (x : Shaper) : (s.setShaper k x).nextPkt = s.nextPkt := rfl
@[simp] theorem setShaper_ksc (s : State) (k : Nat) (x : Shaper) : (s.setShaper k x).ksc = s.ksc := rfl
@[simp] theorem setShaper_xpe (s : State) (k : Nat) (x : Shaper) : (s.setShaper k x).xpe = s.xpe := rfl
@[simp] theorem setShaper_flt (s : State) (k : Nat) (x : Shaper) : (s.setShaper k x).flt = s.flt := rfl
@[simp] theorem setShaper_tap (s : State) (k : Nat) (x : Shaper) : (s.setShaper k x).tap = s.tap := rfl
@[simp] theorem setShaper_csc (s : State) (k : Nat) (x : Shaper) : (s.setShaper k x).csc = s.csc := rfl
@[simp] theorem setShaper_courses (s : State) (k : Nat) (x : Shaper) : (s.setShaper k x).courses = s.courses := rfl
@[simp] theorem setShaper_regs (s : State) (k : Nat) (x : Shaper) : (s.setShaper k x).regs = s.regs := rfl
@[simp] theorem setShaper_counters (s : State) (k : Nat) (x : Shaper) : (s.setShaper k x).counters = s.counters := rfl
@[simp] theorem setShaper_freeCount (s : State) (k : Nat) (x : Shaper) : (s.setShaper k x).freeCount = s.freeCount := rfl
@[simp] theorem setShaper_due (s : State) (k : Nat) (x : Shaper) : (s.setShaper k x).due = s.due := rfl
@[simp] theorem setShaper_out (s : State) (k : Nat) (x : Shaper) : (s.setShaper k x).out = s.out := rfl
@[simp] theorem setShaper_pending (s : State) (k : Nat) (x : Shaper) : (s.setShaper k x).pending = s.pending := rfl

@[simp] theorem setCplx_supply (s : State) (k : Nat) (x : Complex) : (s.setCplx k x).supply = s.supply := rfl
@[simp] theorem setCplx_clocks (s : State) (k : Nat) (x : Complex) : (s.setCplx k x).clocks = s.clocks := rfl
@[simp] theorem setCplx_pace (s : State) (k : Nat) (x : Complex) : (s.setCplx k x).pace = s.pace := rfl
@[simp] theorem setCplx_tsu (s : State) (k : Nat) (x : Complex) : (s.setCplx k x).tsu = s.tsu := rfl
@[simp] theorem setCplx_bring (s : State) (k : Nat) (x : Complex) : (s.setCplx k x).bring = s.bring := rfl
@[simp] theorem setCplx_line (s : State) (k : Nat) (x : Complex) : (s.setCplx k x).line = s.line := rfl
@[simp] theorem setCplx_host (s : State) (k : Nat) (x : Complex) : (s.setCplx k x).host = s.host := rfl
@[simp] theorem setCplx_fuses (s : State) (k : Nat) (x : Complex) : (s.setCplx k x).fuses = s.fuses := rfl
@[simp] theorem setCplx_glb (s : State) (k : Nat) (x : Complex) : (s.setCplx k x).glb = s.glb := rfl
@[simp] theorem setCplx_qmg (s : State) (k : Nat) (x : Complex) : (s.setCplx k x).qmg = s.qmg := rfl
@[simp] theorem setCplx_dma (s : State) (k : Nat) (x : Complex) : (s.setCplx k x).dma = s.dma := rfl
@[simp] theorem setCplx_ivm (s : State) (k : Nat) (x : Complex) : (s.setCplx k x).ivm = s.ivm := rfl
@[simp] theorem setCplx_rules (s : State) (k : Nat) (x : Complex) : (s.setCplx k x).rules = s.rules := rfl
@[simp] theorem setCplx_fwd (s : State) (k : Nat) (x : Complex) : (s.setCplx k x).fwd = s.fwd := rfl
@[simp] theorem setCplx_cry (s : State) (k : Nat) (x : Complex) : (s.setCplx k x).cry = s.cry := rfl
@[simp] theorem setCplx_sto (s : State) (k : Nat) (x : Complex) : (s.setCplx k x).sto = s.sto := rfl
@[simp] theorem setCplx_buf (s : State) (k : Nat) (x : Complex) : (s.setCplx k x).buf = s.buf := rfl
@[simp] theorem setCplx_packets (s : State) (k : Nat) (x : Complex) : (s.setCplx k x).packets = s.packets := rfl
@[simp] theorem setCplx_nextPkt (s : State) (k : Nat) (x : Complex) : (s.setCplx k x).nextPkt = s.nextPkt := rfl
@[simp] theorem setCplx_tms (s : State) (k : Nat) (x : Complex) : (s.setCplx k x).tms = s.tms := rfl
@[simp] theorem setCplx_xpe (s : State) (k : Nat) (x : Complex) : (s.setCplx k x).xpe = s.xpe := rfl
@[simp] theorem setCplx_flt (s : State) (k : Nat) (x : Complex) : (s.setCplx k x).flt = s.flt := rfl
@[simp] theorem setCplx_tap (s : State) (k : Nat) (x : Complex) : (s.setCplx k x).tap = s.tap := rfl
@[simp] theorem setCplx_csc (s : State) (k : Nat) (x : Complex) : (s.setCplx k x).csc = s.csc := rfl
@[simp] theorem setCplx_courses (s : State) (k : Nat) (x : Complex) : (s.setCplx k x).courses = s.courses := rfl
@[simp] theorem setCplx_regs (s : State) (k : Nat) (x : Complex) : (s.setCplx k x).regs = s.regs := rfl
@[simp] theorem setCplx_counters (s : State) (k : Nat) (x : Complex) : (s.setCplx k x).counters = s.counters := rfl
@[simp] theorem setCplx_freeCount (s : State) (k : Nat) (x : Complex) : (s.setCplx k x).freeCount = s.freeCount := rfl
@[simp] theorem setCplx_due (s : State) (k : Nat) (x : Complex) : (s.setCplx k x).due = s.due := rfl
@[simp] theorem setCplx_out (s : State) (k : Nat) (x : Complex) : (s.setCplx k x).out = s.out := rfl
@[simp] theorem setCplx_pending (s : State) (k : Nat) (x : Complex) : (s.setCplx k x).pending = s.pending := rfl

@[simp] theorem setCluster_supply (s : State) (c : Nat) (x : Cluster) : (s.setCluster c x).supply = s.supply := rfl
@[simp] theorem setCluster_clocks (s : State) (c : Nat) (x : Cluster) : (s.setCluster c x).clocks = s.clocks := rfl
@[simp] theorem setCluster_pace (s : State) (c : Nat) (x : Cluster) : (s.setCluster c x).pace = s.pace := rfl
@[simp] theorem setCluster_tsu (s : State) (c : Nat) (x : Cluster) : (s.setCluster c x).tsu = s.tsu := rfl
@[simp] theorem setCluster_bring (s : State) (c : Nat) (x : Cluster) : (s.setCluster c x).bring = s.bring := rfl
@[simp] theorem setCluster_line (s : State) (c : Nat) (x : Cluster) : (s.setCluster c x).line = s.line := rfl
@[simp] theorem setCluster_host (s : State) (c : Nat) (x : Cluster) : (s.setCluster c x).host = s.host := rfl
@[simp] theorem setCluster_fuses (s : State) (c : Nat) (x : Cluster) : (s.setCluster c x).fuses = s.fuses := rfl
@[simp] theorem setCluster_glb (s : State) (c : Nat) (x : Cluster) : (s.setCluster c x).glb = s.glb := rfl
@[simp] theorem setCluster_qmg (s : State) (c : Nat) (x : Cluster) : (s.setCluster c x).qmg = s.qmg := rfl
@[simp] theorem setCluster_dma (s : State) (c : Nat) (x : Cluster) : (s.setCluster c x).dma = s.dma := rfl
@[simp] theorem setCluster_ivm (s : State) (c : Nat) (x : Cluster) : (s.setCluster c x).ivm = s.ivm := rfl
@[simp] theorem setCluster_rules (s : State) (c : Nat) (x : Cluster) : (s.setCluster c x).rules = s.rules := rfl
@[simp] theorem setCluster_fwd (s : State) (c : Nat) (x : Cluster) : (s.setCluster c x).fwd = s.fwd := rfl
@[simp] theorem setCluster_cry (s : State) (c : Nat) (x : Cluster) : (s.setCluster c x).cry = s.cry := rfl
@[simp] theorem setCluster_sto (s : State) (c : Nat) (x : Cluster) : (s.setCluster c x).sto = s.sto := rfl
@[simp] theorem setCluster_buf (s : State) (c : Nat) (x : Cluster) : (s.setCluster c x).buf = s.buf := rfl
@[simp] theorem setCluster_packets (s : State) (c : Nat) (x : Cluster) : (s.setCluster c x).packets = s.packets := rfl
@[simp] theorem setCluster_nextPkt (s : State) (c : Nat) (x : Cluster) : (s.setCluster c x).nextPkt = s.nextPkt := rfl
@[simp] theorem setCluster_tms (s : State) (c : Nat) (x : Cluster) : (s.setCluster c x).tms = s.tms := rfl
@[simp] theorem setCluster_ksc (s : State) (c : Nat) (x : Cluster) : (s.setCluster c x).ksc = s.ksc := rfl
@[simp] theorem setCluster_flt (s : State) (c : Nat) (x : Cluster) : (s.setCluster c x).flt = s.flt := rfl
@[simp] theorem setCluster_tap (s : State) (c : Nat) (x : Cluster) : (s.setCluster c x).tap = s.tap := rfl
@[simp] theorem setCluster_csc (s : State) (c : Nat) (x : Cluster) : (s.setCluster c x).csc = s.csc := rfl
@[simp] theorem setCluster_courses (s : State) (c : Nat) (x : Cluster) : (s.setCluster c x).courses = s.courses := rfl
@[simp] theorem setCluster_regs (s : State) (c : Nat) (x : Cluster) : (s.setCluster c x).regs = s.regs := rfl
@[simp] theorem setCluster_counters (s : State) (c : Nat) (x : Cluster) : (s.setCluster c x).counters = s.counters := rfl
@[simp] theorem setCluster_freeCount (s : State) (c : Nat) (x : Cluster) : (s.setCluster c x).freeCount = s.freeCount := rfl
@[simp] theorem setCluster_due (s : State) (c : Nat) (x : Cluster) : (s.setCluster c x).due = s.due := rfl
@[simp] theorem setCluster_out (s : State) (c : Nat) (x : Cluster) : (s.setCluster c x).out = s.out := rfl
@[simp] theorem setCluster_pending (s : State) (c : Nat) (x : Cluster) : (s.setCluster c x).pending = s.pending := rfl

@[simp] theorem setQuoin_supply (s : State) (p : Nat) (x : QuoinPort) : (s.setQuoin p x).supply = s.supply := rfl
@[simp] theorem setQuoin_clocks (s : State) (p : Nat) (x : QuoinPort) : (s.setQuoin p x).clocks = s.clocks := rfl
@[simp] theorem setQuoin_pace (s : State) (p : Nat) (x : QuoinPort) : (s.setQuoin p x).pace = s.pace := rfl
@[simp] theorem setQuoin_tsu (s : State) (p : Nat) (x : QuoinPort) : (s.setQuoin p x).tsu = s.tsu := rfl
@[simp] theorem setQuoin_bring (s : State) (p : Nat) (x : QuoinPort) : (s.setQuoin p x).bring = s.bring := rfl
@[simp] theorem setQuoin_line (s : State) (p : Nat) (x : QuoinPort) : (s.setQuoin p x).line = s.line := rfl
@[simp] theorem setQuoin_host (s : State) (p : Nat) (x : QuoinPort) : (s.setQuoin p x).host = s.host := rfl
@[simp] theorem setQuoin_fuses (s : State) (p : Nat) (x : QuoinPort) : (s.setQuoin p x).fuses = s.fuses := rfl
@[simp] theorem setQuoin_glb (s : State) (p : Nat) (x : QuoinPort) : (s.setQuoin p x).glb = s.glb := rfl
@[simp] theorem setQuoin_qmg (s : State) (p : Nat) (x : QuoinPort) : (s.setQuoin p x).qmg = s.qmg := rfl
@[simp] theorem setQuoin_dma (s : State) (p : Nat) (x : QuoinPort) : (s.setQuoin p x).dma = s.dma := rfl
@[simp] theorem setQuoin_ivm (s : State) (p : Nat) (x : QuoinPort) : (s.setQuoin p x).ivm = s.ivm := rfl
@[simp] theorem setQuoin_rules (s : State) (p : Nat) (x : QuoinPort) : (s.setQuoin p x).rules = s.rules := rfl
@[simp] theorem setQuoin_fwd (s : State) (p : Nat) (x : QuoinPort) : (s.setQuoin p x).fwd = s.fwd := rfl
@[simp] theorem setQuoin_cry (s : State) (p : Nat) (x : QuoinPort) : (s.setQuoin p x).cry = s.cry := rfl
@[simp] theorem setQuoin_sto (s : State) (p : Nat) (x : QuoinPort) : (s.setQuoin p x).sto = s.sto := rfl
@[simp] theorem setQuoin_buf (s : State) (p : Nat) (x : QuoinPort) : (s.setQuoin p x).buf = s.buf := rfl
@[simp] theorem setQuoin_packets (s : State) (p : Nat) (x : QuoinPort) : (s.setQuoin p x).packets = s.packets := rfl
@[simp] theorem setQuoin_nextPkt (s : State) (p : Nat) (x : QuoinPort) : (s.setQuoin p x).nextPkt = s.nextPkt := rfl
@[simp] theorem setQuoin_tms (s : State) (p : Nat) (x : QuoinPort) : (s.setQuoin p x).tms = s.tms := rfl
@[simp] theorem setQuoin_ksc (s : State) (p : Nat) (x : QuoinPort) : (s.setQuoin p x).ksc = s.ksc := rfl
@[simp] theorem setQuoin_xpe (s : State) (p : Nat) (x : QuoinPort) : (s.setQuoin p x).xpe = s.xpe := rfl
@[simp] theorem setQuoin_flt (s : State) (p : Nat) (x : QuoinPort) : (s.setQuoin p x).flt = s.flt := rfl
@[simp] theorem setQuoin_tap (s : State) (p : Nat) (x : QuoinPort) : (s.setQuoin p x).tap = s.tap := rfl
@[simp] theorem setQuoin_courses (s : State) (p : Nat) (x : QuoinPort) : (s.setQuoin p x).courses = s.courses := rfl
@[simp] theorem setQuoin_regs (s : State) (p : Nat) (x : QuoinPort) : (s.setQuoin p x).regs = s.regs := rfl
@[simp] theorem setQuoin_counters (s : State) (p : Nat) (x : QuoinPort) : (s.setQuoin p x).counters = s.counters := rfl
@[simp] theorem setQuoin_freeCount (s : State) (p : Nat) (x : QuoinPort) : (s.setQuoin p x).freeCount = s.freeCount := rfl
@[simp] theorem setQuoin_due (s : State) (p : Nat) (x : QuoinPort) : (s.setQuoin p x).due = s.due := rfl
@[simp] theorem setQuoin_out (s : State) (p : Nat) (x : QuoinPort) : (s.setQuoin p x).out = s.out := rfl
@[simp] theorem setQuoin_pending (s : State) (p : Nat) (x : QuoinPort) : (s.setQuoin p x).pending = s.pending := rfl

@[simp] theorem setReady_supply (s : State) (b : Nat) (v : Bool) : (s.setReady b v).supply = s.supply := rfl
@[simp] theorem setReady_clocks (s : State) (b : Nat) (v : Bool) : (s.setReady b v).clocks = s.clocks := rfl
@[simp] theorem setReady_pace (s : State) (b : Nat) (v : Bool) : (s.setReady b v).pace = s.pace := rfl
@[simp] theorem setReady_tsu (s : State) (b : Nat) (v : Bool) : (s.setReady b v).tsu = s.tsu := rfl
@[simp] theorem setReady_line (s : State) (b : Nat) (v : Bool) : (s.setReady b v).line = s.line := rfl
@[simp] theorem setReady_host (s : State) (b : Nat) (v : Bool) : (s.setReady b v).host = s.host := rfl
@[simp] theorem setReady_fuses (s : State) (b : Nat) (v : Bool) : (s.setReady b v).fuses = s.fuses := rfl
@[simp] theorem setReady_glb (s : State) (b : Nat) (v : Bool) : (s.setReady b v).glb = s.glb := rfl
@[simp] theorem setReady_qmg (s : State) (b : Nat) (v : Bool) : (s.setReady b v).qmg = s.qmg := rfl
@[simp] theorem setReady_dma (s : State) (b : Nat) (v : Bool) : (s.setReady b v).dma = s.dma := rfl
@[simp] theorem setReady_ivm (s : State) (b : Nat) (v : Bool) : (s.setReady b v).ivm = s.ivm := rfl
@[simp] theorem setReady_rules (s : State) (b : Nat) (v : Bool) : (s.setReady b v).rules = s.rules := rfl
@[simp] theorem setReady_fwd (s : State) (b : Nat) (v : Bool) : (s.setReady b v).fwd = s.fwd := rfl
@[simp] theorem setReady_cry (s : State) (b : Nat) (v : Bool) : (s.setReady b v).cry = s.cry := rfl
@[simp] theorem setReady_sto (s : State) (b : Nat) (v : Bool) : (s.setReady b v).sto = s.sto := rfl
@[simp] theorem setReady_buf (s : State) (b : Nat) (v : Bool) : (s.setReady b v).buf = s.buf := rfl
@[simp] theorem setReady_packets (s : State) (b : Nat) (v : Bool) : (s.setReady b v).packets = s.packets := rfl
@[simp] theorem setReady_nextPkt (s : State) (b : Nat) (v : Bool) : (s.setReady b v).nextPkt = s.nextPkt := rfl
@[simp] theorem setReady_tms (s : State) (b : Nat) (v : Bool) : (s.setReady b v).tms = s.tms := rfl
@[simp] theorem setReady_ksc (s : State) (b : Nat) (v : Bool) : (s.setReady b v).ksc = s.ksc := rfl
@[simp] theorem setReady_xpe (s : State) (b : Nat) (v : Bool) : (s.setReady b v).xpe = s.xpe := rfl
@[simp] theorem setReady_flt (s : State) (b : Nat) (v : Bool) : (s.setReady b v).flt = s.flt := rfl
@[simp] theorem setReady_tap (s : State) (b : Nat) (v : Bool) : (s.setReady b v).tap = s.tap := rfl
@[simp] theorem setReady_csc (s : State) (b : Nat) (v : Bool) : (s.setReady b v).csc = s.csc := rfl
@[simp] theorem setReady_courses (s : State) (b : Nat) (v : Bool) : (s.setReady b v).courses = s.courses := rfl
@[simp] theorem setReady_regs (s : State) (b : Nat) (v : Bool) : (s.setReady b v).regs = s.regs := rfl
@[simp] theorem setReady_counters (s : State) (b : Nat) (v : Bool) : (s.setReady b v).counters = s.counters := rfl
@[simp] theorem setReady_freeCount (s : State) (b : Nat) (v : Bool) : (s.setReady b v).freeCount = s.freeCount := rfl
@[simp] theorem setReady_due (s : State) (b : Nat) (v : Bool) : (s.setReady b v).due = s.due := rfl
@[simp] theorem setReady_out (s : State) (b : Nat) (v : Bool) : (s.setReady b v).out = s.out := rfl
@[simp] theorem setReady_pending (s : State) (b : Nat) (v : Bool) : (s.setReady b v).pending = s.pending := rfl

@[simp] theorem setCourse_supply (s : State) (c : Nat) (x : Course) : (s.setCourse c x).supply = s.supply := rfl
@[simp] theorem setCourse_clocks (s : State) (c : Nat) (x : Course) : (s.setCourse c x).clocks = s.clocks := rfl
@[simp] theorem setCourse_pace (s : State) (c : Nat) (x : Course) : (s.setCourse c x).pace = s.pace := rfl
@[simp] theorem setCourse_tsu (s : State) (c : Nat) (x : Course) : (s.setCourse c x).tsu = s.tsu := rfl
@[simp] theorem setCourse_bring (s : State) (c : Nat) (x : Course) : (s.setCourse c x).bring = s.bring := rfl
@[simp] theorem setCourse_line (s : State) (c : Nat) (x : Course) : (s.setCourse c x).line = s.line := rfl
@[simp] theorem setCourse_host (s : State) (c : Nat) (x : Course) : (s.setCourse c x).host = s.host := rfl
@[simp] theorem setCourse_fuses (s : State) (c : Nat) (x : Course) : (s.setCourse c x).fuses = s.fuses := rfl
@[simp] theorem setCourse_glb (s : State) (c : Nat) (x : Course) : (s.setCourse c x).glb = s.glb := rfl
@[simp] theorem setCourse_qmg (s : State) (c : Nat) (x : Course) : (s.setCourse c x).qmg = s.qmg := rfl
@[simp] theorem setCourse_dma (s : State) (c : Nat) (x : Course) : (s.setCourse c x).dma = s.dma := rfl
@[simp] theorem setCourse_ivm (s : State) (c : Nat) (x : Course) : (s.setCourse c x).ivm = s.ivm := rfl
@[simp] theorem setCourse_rules (s : State) (c : Nat) (x : Course) : (s.setCourse c x).rules = s.rules := rfl
@[simp] theorem setCourse_fwd (s : State) (c : Nat) (x : Course) : (s.setCourse c x).fwd = s.fwd := rfl
@[simp] theorem setCourse_cry (s : State) (c : Nat) (x : Course) : (s.setCourse c x).cry = s.cry := rfl
@[simp] theorem setCourse_sto (s : State) (c : Nat) (x : Course) : (s.setCourse c x).sto = s.sto := rfl
@[simp] theorem setCourse_buf (s : State) (c : Nat) (x : Course) : (s.setCourse c x).buf = s.buf := rfl
@[simp] theorem setCourse_packets (s : State) (c : Nat) (x : Course) : (s.setCourse c x).packets = s.packets := rfl
@[simp] theorem setCourse_nextPkt (s : State) (c : Nat) (x : Course) : (s.setCourse c x).nextPkt = s.nextPkt := rfl
@[simp] theorem setCourse_tms (s : State) (c : Nat) (x : Course) : (s.setCourse c x).tms = s.tms := rfl
@[simp] theorem setCourse_ksc (s : State) (c : Nat) (x : Course) : (s.setCourse c x).ksc = s.ksc := rfl
@[simp] theorem setCourse_xpe (s : State) (c : Nat) (x : Course) : (s.setCourse c x).xpe = s.xpe := rfl
@[simp] theorem setCourse_flt (s : State) (c : Nat) (x : Course) : (s.setCourse c x).flt = s.flt := rfl
@[simp] theorem setCourse_tap (s : State) (c : Nat) (x : Course) : (s.setCourse c x).tap = s.tap := rfl
@[simp] theorem setCourse_csc (s : State) (c : Nat) (x : Course) : (s.setCourse c x).csc = s.csc := rfl
@[simp] theorem setCourse_regs (s : State) (c : Nat) (x : Course) : (s.setCourse c x).regs = s.regs := rfl
@[simp] theorem setCourse_counters (s : State) (c : Nat) (x : Course) : (s.setCourse c x).counters = s.counters := rfl
@[simp] theorem setCourse_freeCount (s : State) (c : Nat) (x : Course) : (s.setCourse c x).freeCount = s.freeCount := rfl
@[simp] theorem setCourse_due (s : State) (c : Nat) (x : Course) : (s.setCourse c x).due = s.due := rfl
@[simp] theorem setCourse_out (s : State) (c : Nat) (x : Course) : (s.setCourse c x).out = s.out := rfl
@[simp] theorem setCourse_pending (s : State) (c : Nat) (x : Course) : (s.setCourse c x).pending = s.pending := rfl

@[simp] theorem withSupply_clocks (s : State) (f : Supply → Supply) : (s.withSupply f).clocks = s.clocks := rfl
@[simp] theorem withSupply_pace (s : State) (f : Supply → Supply) : (s.withSupply f).pace = s.pace := rfl
@[simp] theorem withSupply_tsu (s : State) (f : Supply → Supply) : (s.withSupply f).tsu = s.tsu := rfl
@[simp] theorem withSupply_bring (s : State) (f : Supply → Supply) : (s.withSupply f).bring = s.bring := rfl
@[simp] theorem withSupply_line (s : State) (f : Supply → Supply) : (s.withSupply f).line = s.line := rfl
@[simp] theorem withSupply_host (s : State) (f : Supply → Supply) : (s.withSupply f).host = s.host := rfl
@[simp] theorem withSupply_fuses (s : State) (f : Supply → Supply) : (s.withSupply f).fuses = s.fuses := rfl
@[simp] theorem withSupply_glb (s : State) (f : Supply → Supply) : (s.withSupply f).glb = s.glb := rfl
@[simp] theorem withSupply_qmg (s : State) (f : Supply → Supply) : (s.withSupply f).qmg = s.qmg := rfl
@[simp] theorem withSupply_dma (s : State) (f : Supply → Supply) : (s.withSupply f).dma = s.dma := rfl
@[simp] theorem withSupply_ivm (s : State) (f : Supply → Supply) : (s.withSupply f).ivm = s.ivm := rfl
@[simp] theorem withSupply_rules (s : State) (f : Supply → Supply) : (s.withSupply f).rules = s.rules := rfl
@[simp] theorem withSupply_fwd (s : State) (f : Supply → Supply) : (s.withSupply f).fwd = s.fwd := rfl
@[simp] theorem withSupply_cry (s : State) (f : Supply → Supply) : (s.withSupply f).cry = s.cry := rfl
@[simp] theorem withSupply_sto (s : State) (f : Supply → Supply) : (s.withSupply f).sto = s.sto := rfl
@[simp] theorem withSupply_buf (s : State) (f : Supply → Supply) : (s.withSupply f).buf = s.buf := rfl
@[simp] theorem withSupply_packets (s : State) (f : Supply → Supply) : (s.withSupply f).packets = s.packets := rfl
@[simp] theorem withSupply_nextPkt (s : State) (f : Supply → Supply) : (s.withSupply f).nextPkt = s.nextPkt := rfl
@[simp] theorem withSupply_tms (s : State) (f : Supply → Supply) : (s.withSupply f).tms = s.tms := rfl
@[simp] theorem withSupply_ksc (s : State) (f : Supply → Supply) : (s.withSupply f).ksc = s.ksc := rfl
@[simp] theorem withSupply_xpe (s : State) (f : Supply → Supply) : (s.withSupply f).xpe = s.xpe := rfl
@[simp] theorem withSupply_flt (s : State) (f : Supply → Supply) : (s.withSupply f).flt = s.flt := rfl
@[simp] theorem withSupply_tap (s : State) (f : Supply → Supply) : (s.withSupply f).tap = s.tap := rfl
@[simp] theorem withSupply_csc (s : State) (f : Supply → Supply) : (s.withSupply f).csc = s.csc := rfl
@[simp] theorem withSupply_courses (s : State) (f : Supply → Supply) : (s.withSupply f).courses = s.courses := rfl
@[simp] theorem withSupply_regs (s : State) (f : Supply → Supply) : (s.withSupply f).regs = s.regs := rfl
@[simp] theorem withSupply_counters (s : State) (f : Supply → Supply) : (s.withSupply f).counters = s.counters := rfl
@[simp] theorem withSupply_freeCount (s : State) (f : Supply → Supply) : (s.withSupply f).freeCount = s.freeCount := rfl
@[simp] theorem withSupply_due (s : State) (f : Supply → Supply) : (s.withSupply f).due = s.due := rfl
@[simp] theorem withSupply_out (s : State) (f : Supply → Supply) : (s.withSupply f).out = s.out := rfl
@[simp] theorem withSupply_pending (s : State) (f : Supply → Supply) : (s.withSupply f).pending = s.pending := rfl

@[simp] theorem withPace_supply (s : State) (f : Pace → Pace) : (s.withPace f).supply = s.supply := rfl
@[simp] theorem withPace_clocks (s : State) (f : Pace → Pace) : (s.withPace f).clocks = s.clocks := rfl
@[simp] theorem withPace_tsu (s : State) (f : Pace → Pace) : (s.withPace f).tsu = s.tsu := rfl
@[simp] theorem withPace_bring (s : State) (f : Pace → Pace) : (s.withPace f).bring = s.bring := rfl
@[simp] theorem withPace_line (s : State) (f : Pace → Pace) : (s.withPace f).line = s.line := rfl
@[simp] theorem withPace_host (s : State) (f : Pace → Pace) : (s.withPace f).host = s.host := rfl
@[simp] theorem withPace_fuses (s : State) (f : Pace → Pace) : (s.withPace f).fuses = s.fuses := rfl
@[simp] theorem withPace_glb (s : State) (f : Pace → Pace) : (s.withPace f).glb = s.glb := rfl
@[simp] theorem withPace_qmg (s : State) (f : Pace → Pace) : (s.withPace f).qmg = s.qmg := rfl
@[simp] theorem withPace_dma (s : State) (f : Pace → Pace) : (s.withPace f).dma = s.dma := rfl
@[simp] theorem withPace_ivm (s : State) (f : Pace → Pace) : (s.withPace f).ivm = s.ivm := rfl
@[simp] theorem withPace_rules (s : State) (f : Pace → Pace) : (s.withPace f).rules = s.rules := rfl
@[simp] theorem withPace_fwd (s : State) (f : Pace → Pace) : (s.withPace f).fwd = s.fwd := rfl
@[simp] theorem withPace_cry (s : State) (f : Pace → Pace) : (s.withPace f).cry = s.cry := rfl
@[simp] theorem withPace_sto (s : State) (f : Pace → Pace) : (s.withPace f).sto = s.sto := rfl
@[simp] theorem withPace_buf (s : State) (f : Pace → Pace) : (s.withPace f).buf = s.buf := rfl
@[simp] theorem withPace_packets (s : State) (f : Pace → Pace) : (s.withPace f).packets = s.packets := rfl
@[simp] theorem withPace_nextPkt (s : State) (f : Pace → Pace) : (s.withPace f).nextPkt = s.nextPkt := rfl
@[simp] theorem withPace_tms (s : State) (f : Pace → Pace) : (s.withPace f).tms = s.tms := rfl
@[simp] theorem withPace_ksc (s : State) (f : Pace → Pace) : (s.withPace f).ksc = s.ksc := rfl
@[simp] theorem withPace_xpe (s : State) (f : Pace → Pace) : (s.withPace f).xpe = s.xpe := rfl
@[simp] theorem withPace_flt (s : State) (f : Pace → Pace) : (s.withPace f).flt = s.flt := rfl
@[simp] theorem withPace_tap (s : State) (f : Pace → Pace) : (s.withPace f).tap = s.tap := rfl
@[simp] theorem withPace_csc (s : State) (f : Pace → Pace) : (s.withPace f).csc = s.csc := rfl
@[simp] theorem withPace_courses (s : State) (f : Pace → Pace) : (s.withPace f).courses = s.courses := rfl
@[simp] theorem withPace_regs (s : State) (f : Pace → Pace) : (s.withPace f).regs = s.regs := rfl
@[simp] theorem withPace_counters (s : State) (f : Pace → Pace) : (s.withPace f).counters = s.counters := rfl
@[simp] theorem withPace_freeCount (s : State) (f : Pace → Pace) : (s.withPace f).freeCount = s.freeCount := rfl
@[simp] theorem withPace_due (s : State) (f : Pace → Pace) : (s.withPace f).due = s.due := rfl
@[simp] theorem withPace_out (s : State) (f : Pace → Pace) : (s.withPace f).out = s.out := rfl
@[simp] theorem withPace_pending (s : State) (f : Pace → Pace) : (s.withPace f).pending = s.pending := rfl

@[simp] theorem withTsu_supply (s : State) (f : Tsu → Tsu) : (s.withTsu f).supply = s.supply := rfl
@[simp] theorem withTsu_clocks (s : State) (f : Tsu → Tsu) : (s.withTsu f).clocks = s.clocks := rfl
@[simp] theorem withTsu_pace (s : State) (f : Tsu → Tsu) : (s.withTsu f).pace = s.pace := rfl
@[simp] theorem withTsu_bring (s : State) (f : Tsu → Tsu) : (s.withTsu f).bring = s.bring := rfl
@[simp] theorem withTsu_line (s : State) (f : Tsu → Tsu) : (s.withTsu f).line = s.line := rfl
@[simp] theorem withTsu_host (s : State) (f : Tsu → Tsu) : (s.withTsu f).host = s.host := rfl
@[simp] theorem withTsu_fuses (s : State) (f : Tsu → Tsu) : (s.withTsu f).fuses = s.fuses := rfl
@[simp] theorem withTsu_glb (s : State) (f : Tsu → Tsu) : (s.withTsu f).glb = s.glb := rfl
@[simp] theorem withTsu_qmg (s : State) (f : Tsu → Tsu) : (s.withTsu f).qmg = s.qmg := rfl
@[simp] theorem withTsu_dma (s : State) (f : Tsu → Tsu) : (s.withTsu f).dma = s.dma := rfl
@[simp] theorem withTsu_ivm (s : State) (f : Tsu → Tsu) : (s.withTsu f).ivm = s.ivm := rfl
@[simp] theorem withTsu_rules (s : State) (f : Tsu → Tsu) : (s.withTsu f).rules = s.rules := rfl
@[simp] theorem withTsu_fwd (s : State) (f : Tsu → Tsu) : (s.withTsu f).fwd = s.fwd := rfl
@[simp] theorem withTsu_cry (s : State) (f : Tsu → Tsu) : (s.withTsu f).cry = s.cry := rfl
@[simp] theorem withTsu_sto (s : State) (f : Tsu → Tsu) : (s.withTsu f).sto = s.sto := rfl
@[simp] theorem withTsu_buf (s : State) (f : Tsu → Tsu) : (s.withTsu f).buf = s.buf := rfl
@[simp] theorem withTsu_packets (s : State) (f : Tsu → Tsu) : (s.withTsu f).packets = s.packets := rfl
@[simp] theorem withTsu_nextPkt (s : State) (f : Tsu → Tsu) : (s.withTsu f).nextPkt = s.nextPkt := rfl
@[simp] theorem withTsu_tms (s : State) (f : Tsu → Tsu) : (s.withTsu f).tms = s.tms := rfl
@[simp] theorem withTsu_ksc (s : State) (f : Tsu → Tsu) : (s.withTsu f).ksc = s.ksc := rfl
@[simp] theorem withTsu_xpe (s : State) (f : Tsu → Tsu) : (s.withTsu f).xpe = s.xpe := rfl
@[simp] theorem withTsu_flt (s : State) (f : Tsu → Tsu) : (s.withTsu f).flt = s.flt := rfl
@[simp] theorem withTsu_tap (s : State) (f : Tsu → Tsu) : (s.withTsu f).tap = s.tap := rfl
@[simp] theorem withTsu_csc (s : State) (f : Tsu → Tsu) : (s.withTsu f).csc = s.csc := rfl
@[simp] theorem withTsu_courses (s : State) (f : Tsu → Tsu) : (s.withTsu f).courses = s.courses := rfl
@[simp] theorem withTsu_regs (s : State) (f : Tsu → Tsu) : (s.withTsu f).regs = s.regs := rfl
@[simp] theorem withTsu_counters (s : State) (f : Tsu → Tsu) : (s.withTsu f).counters = s.counters := rfl
@[simp] theorem withTsu_freeCount (s : State) (f : Tsu → Tsu) : (s.withTsu f).freeCount = s.freeCount := rfl
@[simp] theorem withTsu_due (s : State) (f : Tsu → Tsu) : (s.withTsu f).due = s.due := rfl
@[simp] theorem withTsu_out (s : State) (f : Tsu → Tsu) : (s.withTsu f).out = s.out := rfl
@[simp] theorem withTsu_pending (s : State) (f : Tsu → Tsu) : (s.withTsu f).pending = s.pending := rfl

@[simp] theorem withCsc_supply (s : State) (f : Csc → Csc) : (s.withCsc f).supply = s.supply := rfl
@[simp] theorem withCsc_clocks (s : State) (f : Csc → Csc) : (s.withCsc f).clocks = s.clocks := rfl
@[simp] theorem withCsc_pace (s : State) (f : Csc → Csc) : (s.withCsc f).pace = s.pace := rfl
@[simp] theorem withCsc_tsu (s : State) (f : Csc → Csc) : (s.withCsc f).tsu = s.tsu := rfl
@[simp] theorem withCsc_bring (s : State) (f : Csc → Csc) : (s.withCsc f).bring = s.bring := rfl
@[simp] theorem withCsc_line (s : State) (f : Csc → Csc) : (s.withCsc f).line = s.line := rfl
@[simp] theorem withCsc_host (s : State) (f : Csc → Csc) : (s.withCsc f).host = s.host := rfl
@[simp] theorem withCsc_fuses (s : State) (f : Csc → Csc) : (s.withCsc f).fuses = s.fuses := rfl
@[simp] theorem withCsc_glb (s : State) (f : Csc → Csc) : (s.withCsc f).glb = s.glb := rfl
@[simp] theorem withCsc_qmg (s : State) (f : Csc → Csc) : (s.withCsc f).qmg = s.qmg := rfl
@[simp] theorem withCsc_dma (s : State) (f : Csc → Csc) : (s.withCsc f).dma = s.dma := rfl
@[simp] theorem withCsc_ivm (s : State) (f : Csc → Csc) : (s.withCsc f).ivm = s.ivm := rfl
@[simp] theorem withCsc_rules (s : State) (f : Csc → Csc) : (s.withCsc f).rules = s.rules := rfl
@[simp] theorem withCsc_fwd (s : State) (f : Csc → Csc) : (s.withCsc f).fwd = s.fwd := rfl
@[simp] theorem withCsc_cry (s : State) (f : Csc → Csc) : (s.withCsc f).cry = s.cry := rfl
@[simp] theorem withCsc_sto (s : State) (f : Csc → Csc) : (s.withCsc f).sto = s.sto := rfl
@[simp] theorem withCsc_buf (s : State) (f : Csc → Csc) : (s.withCsc f).buf = s.buf := rfl
@[simp] theorem withCsc_packets (s : State) (f : Csc → Csc) : (s.withCsc f).packets = s.packets := rfl
@[simp] theorem withCsc_nextPkt (s : State) (f : Csc → Csc) : (s.withCsc f).nextPkt = s.nextPkt := rfl
@[simp] theorem withCsc_tms (s : State) (f : Csc → Csc) : (s.withCsc f).tms = s.tms := rfl
@[simp] theorem withCsc_ksc (s : State) (f : Csc → Csc) : (s.withCsc f).ksc = s.ksc := rfl
@[simp] theorem withCsc_xpe (s : State) (f : Csc → Csc) : (s.withCsc f).xpe = s.xpe := rfl
@[simp] theorem withCsc_flt (s : State) (f : Csc → Csc) : (s.withCsc f).flt = s.flt := rfl
@[simp] theorem withCsc_tap (s : State) (f : Csc → Csc) : (s.withCsc f).tap = s.tap := rfl
@[simp] theorem withCsc_courses (s : State) (f : Csc → Csc) : (s.withCsc f).courses = s.courses := rfl
@[simp] theorem withCsc_regs (s : State) (f : Csc → Csc) : (s.withCsc f).regs = s.regs := rfl
@[simp] theorem withCsc_counters (s : State) (f : Csc → Csc) : (s.withCsc f).counters = s.counters := rfl
@[simp] theorem withCsc_freeCount (s : State) (f : Csc → Csc) : (s.withCsc f).freeCount = s.freeCount := rfl
@[simp] theorem withCsc_due (s : State) (f : Csc → Csc) : (s.withCsc f).due = s.due := rfl
@[simp] theorem withCsc_out (s : State) (f : Csc → Csc) : (s.withCsc f).out = s.out := rfl
@[simp] theorem withCsc_pending (s : State) (f : Csc → Csc) : (s.withCsc f).pending = s.pending := rfl

@[simp] theorem begun_supply (s : State) : (s.begun).supply = s.supply := rfl
@[simp] theorem begun_clocks (s : State) : (s.begun).clocks = s.clocks := rfl
@[simp] theorem begun_pace (s : State) : (s.begun).pace = s.pace := rfl
@[simp] theorem begun_tsu (s : State) : (s.begun).tsu = s.tsu := rfl
@[simp] theorem begun_bring (s : State) : (s.begun).bring = s.bring := rfl
@[simp] theorem begun_line (s : State) : (s.begun).line = s.line := rfl
@[simp] theorem begun_host (s : State) : (s.begun).host = s.host := rfl
@[simp] theorem begun_fuses (s : State) : (s.begun).fuses = s.fuses := rfl
@[simp] theorem begun_glb (s : State) : (s.begun).glb = s.glb := rfl
@[simp] theorem begun_qmg (s : State) : (s.begun).qmg = s.qmg := rfl
@[simp] theorem begun_dma (s : State) : (s.begun).dma = s.dma := rfl
@[simp] theorem begun_ivm (s : State) : (s.begun).ivm = s.ivm := rfl
@[simp] theorem begun_rules (s : State) : (s.begun).rules = s.rules := rfl
@[simp] theorem begun_fwd (s : State) : (s.begun).fwd = s.fwd := rfl
@[simp] theorem begun_cry (s : State) : (s.begun).cry = s.cry := rfl
@[simp] theorem begun_sto (s : State) : (s.begun).sto = s.sto := rfl
@[simp] theorem begun_buf (s : State) : (s.begun).buf = s.buf := rfl
@[simp] theorem begun_packets (s : State) : (s.begun).packets = s.packets := rfl
@[simp] theorem begun_nextPkt (s : State) : (s.begun).nextPkt = s.nextPkt := rfl
@[simp] theorem begun_tms (s : State) : (s.begun).tms = s.tms := rfl
@[simp] theorem begun_ksc (s : State) : (s.begun).ksc = s.ksc := rfl
@[simp] theorem begun_xpe (s : State) : (s.begun).xpe = s.xpe := rfl
@[simp] theorem begun_flt (s : State) : (s.begun).flt = s.flt := rfl
@[simp] theorem begun_tap (s : State) : (s.begun).tap = s.tap := rfl
@[simp] theorem begun_csc (s : State) : (s.begun).csc = s.csc := rfl
@[simp] theorem begun_courses (s : State) : (s.begun).courses = s.courses := rfl
@[simp] theorem begun_regs (s : State) : (s.begun).regs = s.regs := rfl
@[simp] theorem begun_counters (s : State) : (s.begun).counters = s.counters := rfl
@[simp] theorem begun_freeCount (s : State) : (s.begun).freeCount = s.freeCount := rfl
@[simp] theorem begun_pending (s : State) : (s.begun).pending = s.pending := rfl

end Sys2Proof.Machine
end

