-- ==== Sys2Proof/Laws/Close.lean ====
section
/-! SUPPORT. The end of a command and the way of a register write to its register, each said once. -/

set_option Elab.async false

namespace Sys2Proof.Machine

/-! ### The end of a command -/

theorem drainBank_of_held {s : State} (b : Nat) (h : (s.bank b).state = .draining → s.inflight (s.bank b).epoch ≠ 0) :
    s.drainBank b = s := by
  unfold State.drainBank
  dsimp only
  split
  · rename_i hc
    simp only [Bool.and_eq_true, decide_eq_true_eq] at hc
    exact absurd hc.2 (h hc.1)
  · rfl

theorem drainBanks_of_held {s : State} (h : s.banksHeld) : s.drainBanks = s := by
  unfold State.drainBanks
  rw [drainBank_of_held 0 (h 0 (by omega)), drainBank_of_held 1 (h 1 (by omega))]

/-- Where nothing is due and no bank is free to go, the end of a command changes nothing. -/
theorem settle_quiet {u : State} (hb : u.banksHeld) (hd : u.due = []) : u.settle = u := by
  unfold State.settle State.settleF
  rw [drainBanks_of_held hb]
  simp [hd]

theorem wakeLinks_fold (os : List Out) (h : os.all (fun o => !o.wakes) = true) (u : State) :
    os.foldl (fun (t : State) (o : Out) =>
      match o with
      | .hostRead f l .. => t.l1Exit f l
      | .hostWrite f l .. => t.l1Exit f l
      | .pcie f l _ => t.l1Exit f l
      | _ => t) u = u := by
  induction os generalizing u with
  | nil => rfl
  | cons o os ih =>
    simp only [List.all_cons, Bool.and_eq_true] at h
    have ho := h.1
    rw [List.foldl_cons]
    cases o <;> first | exact ih h.2 u | simp [Out.wakes] at ho

/-- No link wakes where nothing was sent to a host. -/
theorem wakeLinks_quiet {u : State} (h : u.out.all (fun o => !o.wakes) = true) : u.wakeLinks = u := by
  unfold State.wakeLinks
  exact wakeLinks_fold u.out h u

/-- The end of a command that asks for nothing and sends nothing to a host: the state is as its effect left it. -/
theorem close_quiet {s u : State} (hb : u.banksHeld) (hd : u.due = []) (ho : u.out.all (fun o => !o.wakes) = true) :
    s.close u = { u with pending := s.pending, fuses := s.fuses } := by
  unfold State.close State.ended
  rw [settle_quiet hb hd, wakeLinks_quiet ho, ← hd]

/-- As `close_quiet`, for an effect that leaves the queue and the fuses. -/
theorem close_eq {s u : State} (hb : u.banksHeld) (hd : u.due = []) (ho : u.out.all (fun o => !o.wakes) = true)
    (hp : u.pending = s.pending) (hf : u.fuses = s.fuses) : s.close u = u := by
  rw [close_quiet hb hd ho, ← hp, ← hf]

/-- Banks held depends on the banks and the packets alone. -/
theorem banksHeld_of {s u : State} (h : s.banksHeld) (hr : u.rules = s.rules) (hp : u.packets = s.packets) :
    u.banksHeld := by
  intro b hb
  have := h b hb
  simp only [State.bank, State.inflight, hr, hp] at this ⊢
  exact this

/-- What the start of a command leaves. -/
@[simp] theorem begun_banksHeld (s : State) : s.begun.banksHeld ↔ s.banksHeld := Iff.rfl
@[simp] theorem begun_released (s : State) : s.begun.released = s.released := rfl
@[simp] theorem begun_ready (s : State) (b : Nat) : s.begun.ready b = s.ready b := rfl
@[simp] theorem begun_now (s : State) : s.begun.now = s.now := rfl
@[simp] theorem begun_due (s : State) : s.begun.due = [] := rfl
@[simp] theorem begun_out (s : State) : s.begun.out = [] := rfl

/-! ### Links that wake -/

/-- `s` with the links of `t`. -/
def State.linksOn (s t : State) : State := { s with host := { s.host with links := t.host.links } }

/-- `t` differs from `s` only in its links. -/
def LinkFrame (s t : State) : Prop := t = s.linksOn t

theorem LinkFrame.trans {s u t : State} (h : LinkFrame s u) (k : LinkFrame u t) : LinkFrame s t :=
  calc t = u.linksOn t := k
    _ = (s.linksOn u).linksOn t := congrArg (fun x => State.linksOn x t) h
    _ = s.linksOn t := rfl

theorem LinkFrame.l1Exit (s : State) (f l : Nat) : LinkFrame s (s.l1Exit f l) := by
  unfold State.l1Exit
  dsimp only
  split <;> rfl

theorem LinkFrame.fold (os : List Out) (u : State) : LinkFrame u (os.foldl (fun (t : State) (o : Out) =>
    match o with
    | .hostRead f l .. => t.l1Exit f l
    | .hostWrite f l .. => t.l1Exit f l
    | .pcie f l _ => t.l1Exit f l
    | _ => t) u) := by
  induction os generalizing u with
  | nil => rfl
  | cons o os ih =>
    simp only [List.foldl_cons]
    cases o <;> first | exact ih u | exact (LinkFrame.l1Exit u _ _).trans (ih _)

/-- Everything that waking links does. -/
theorem LinkFrame.wakeLinks (u : State) : LinkFrame u u.wakeLinks := LinkFrame.fold u.out u

/-- The end of a command that asks for no reset and frees no bank: only links that sleep in L1 can change. -/
theorem close_due {s u : State} (hb : u.banksHeld) (hd : u.due = []) :
    s.close u = { u with pending := s.pending, fuses := s.fuses, host := { u.host with links := (s.close u).host.links } } := by
  have h1 : s.close u = { u.wakeLinks with pending := s.pending, due := [], fuses := s.fuses } := by
    unfold State.close State.ended
    rw [settle_quiet hb hd]
  have h2 : u.wakeLinks = u.linksOn u.wakeLinks := LinkFrame.wakeLinks u
  have h3 : (s.close u).host.links = u.wakeLinks.host.links := by rw [h1]
  rw [h3, h1]
  generalize u.wakeLinks = w at h2
  rw [h2, ← hd]
  rfl

/-- The end of a command whose events ask for no reset. -/
theorem close_event {s v u : State} (h : EventFrame v u) (hb : v.banksHeld) (hd : u.due = []) (hp : v.pending = s.pending)
    (hf : v.fuses = s.fuses) : EventFrame v (s.close u) := by
  have hu : u.banksHeld := banksHeld_of hb h.rules h.packets
  have hp' : u.pending = s.pending := h.pending.trans hp
  have hf' : u.fuses = s.fuses := h.fuses.trans hf
  refine h.trans ?_
  have h1 := close_due (s := s) hu hd
  generalize (s.close u) = t at h1
  rw [h1, ← hp', ← hf']
  rfl

/-! ### The ways to carry out a command -/

/-- A teardown of a context that is not live, or is an NVMe/TCP one, does nothing. -/
theorem teardown_off {s : State} {c : Nat} (item : Option (Nat × Nat))
    (h : ¬ ((s.ctx c).kind ≠ .nvt ∧ ((s.ctx c).state = .init ∨ (s.ctx c).state = .rtr ∨ (s.ctx c).state = .rts))) :
    s.teardown c item = s := by
  unfold State.teardown
  dsimp only
  rw [if_pos]
  by_cases hk : (s.ctx c).kind = .nvt
  · rw [decide_eq_true hk, Bool.true_or]
  · have h1 : ¬ ((s.ctx c).state = .init) := fun e => h ⟨hk, .inl e⟩
    have h2 : ¬ ((s.ctx c).state = .rtr) := fun e => h ⟨hk, .inr (.inl e)⟩
    have h3 : ¬ ((s.ctx c).state = .rts) := fun e => h ⟨hk, .inr (.inr e)⟩
    rw [decide_eq_false h1, decide_eq_false h2, decide_eq_false h3, Bool.or_false, Bool.or_false, Bool.not_false, Bool.or_true]

theorem fold_id {α β : Type} (f : β → α → β) (b : β) (l : List α) (h : ∀ a ∈ l, f b a = b) : l.foldl f b = b := by
  induction l with
  | nil => rfl
  | cons a l ih =>
    rw [List.foldl_cons, h a (List.mem_cons_self ..)]
    exact ih (fun x hx => h x (List.mem_cons_of_mem _ hx))

/-- Where no live context is bound to a failed queue, none is torn down. -/
theorem settleSto_held {s : State} (h : s.stoHeld) : s.settleSto = s := by
  unfold State.settleSto
  apply fold_id
  intro p hp
  by_cases hl : (s.ctx p.1).kind ≠ .nvt ∧ ((s.ctx p.1).state = .init ∨ (s.ctx p.1).state = .rtr ∨ (s.ctx p.1).state = .rts)
  · rw [h p hp hl.1 hl.2, Bool.and_false]
    rfl
  · rw [teardown_off none hl, ite_self]

/-- A condition that holds as the command starts. -/
theorem run_cond {f : State → State} {s : State} (c : State → Bool) (h : c s.begun = true) :
    run (fun t => if c t then f t else t) s = run f s := by
  unfold run
  show Host.Outcome.next (s.close (if c s.begun = true then f s.begun else s.begun)) = _
  rw [if_pos h]

theorem runMain_on {f : State → State} {s : State} (h : s.released = true) : runMain f s = run f s :=
  run_cond State.released h

theorem runBlock_on {f : State → State} {s : State} {b : Nat} (h : s.released = true) (hb : s.ready b = true) :
    runBlock b f s = run f s := (runMain_on h).trans (run_cond (fun t => t.ready b) hb)

theorem runHost_on {f : State → State} {s : State} (h : s.released = true) (hs : (f s.begun).stoHeld) :
    runHost f s = run f s := by
  unfold runHost
  rw [runMain_on h]
  unfold run
  show Host.Outcome.next (s.close (f s.begun).settleSto) = _
  rw [settleSto_held hs]

theorem runHostBlock_on {f : State → State} {s : State} {b : Nat} (h : s.released = true) (hb : s.ready b = true)
    (hs : (f s.begun).stoHeld) : runHostBlock b f s = run f s := by
  have e : (if s.begun.ready b = true then f s.begun else s.begun) = f s.begun := if_pos hb
  have hs' : ((fun t : State => if t.ready b = true then f t else t) s.begun).stoHeld := by
    show (if s.begun.ready b = true then f s.begun else s.begun).stoHeld
    rw [e]
    exact hs
  exact (runHost_on h hs').trans (run_cond (fun t => t.ready b) hb)

/-- A command whose effect is `u`, which asks for nothing and sends nothing to a host. -/
theorem run_quiet {f : State → State} {s u : State} (h : f s.begun = u) (hb : u.banksHeld) (hd : u.due = [])
    (ho : u.out.all (fun o => !o.wakes) = true) (hp : u.pending = s.pending) (hf : u.fuses = s.fuses) :
    run f s = .next u := by
  unfold run
  rw [h, close_eq hb hd ho hp hf]

/-- A command whose effect is `v` and the event of a source. -/
theorem run_event {f : State → State} {s v : State} {src d : Nat} {who : Option Nat} {acc : Acc}
    (h : f s.begun = v.raise src d who acc) (hb : v.banksHeld) (hm : v.mild src) (hd : v.due = [])
    (hp : v.pending = s.pending) (hf : v.fuses = s.fuses) :
    ∃ t, run f s = .next t ∧ EventFrame v t ∧ (v.released = true → t.eventPending src = true) := by
  refine ⟨_, rfl, ?_, ?_⟩
  · rw [h]
    exact close_event (EventFrame.raise v src d who acc) hb (by rw [raise_due hm, hd]) hp hf
  · intro hr
    have hdu : (v.raise src d who acc).due = [] := by rw [raise_due hm, hd]
    have hbu : (v.raise src d who acc).banksHeld :=
      banksHeld_of hb (EventFrame.raise v src d who acc).rules (EventFrame.raise v src d who acc).packets
    rw [h, close_due hbu hdu]
    exact raise_pending hr src d who acc

theorem mild_of {s u : State} {src : Nat} (h : s.mild src) (hr : u.regs = s.regs) (hc : u.flt.caps = s.flt.caps)
    (hk : u.counters = s.counters) : u.mild src := by
  have e : u.eventLevel src = s.eventLevel src := by
    simp only [State.eventLevel, State.fld, State.word, hr, hc]
  refine ⟨e ▸ h.1, ?_⟩
  rw [hk]
  exact h.2

/-! ### Register writes -/

/-- A journalled write that raises no warning changes the journal alone (spec/18 R553). -/
theorem journal_quiet {s : State} (off n d ep : Nat) (h : (s.ksc.j + 1) % 2 ^ 48 ≠ s.ksc.ckptJpos + 49152) :
    s.journal off n d ep = { s with ksc := { s.ksc with
      hbm := memWriteBytes s.ksc.hbm (0x84000000 + 16 * (s.ksc.j % 262144)) (journalEntry off n d ep s.ksc.j)
      j := (s.ksc.j + 1) % 2 ^ 48 } } := by
  unfold State.journal
  dsimp only
  rw [if_neg h]

/-- A write that reaches its register has its effect, and is journalled where it is firmware's and takes effect. -/
theorem access_reaches {s : State} {m : Master} {off : Nat} (h : s.reaches m off) (n d : Nat) (e : Eff) (x : Bool) :
    s.access m off n d e x = if (e s).2 then m.logged off n d (e s).1 else (e s).1 := by
  obtain ⟨hr, h⟩ := h
  unfold State.access
  cases hb : addrBlock off with
  | none => rw [hb] at h; exact absurd h (by simp)
  | some b =>
    rw [hb] at h
    cases m with
    | vf i => exact absurd h (by simp)
    | pf f =>
      simp only [Bool.and_eq_true] at h
      obtain ⟨⟨h1, h2⟩, h3⟩ := h
      have h3' : (!inMailboxBlocks off && !bitOf (s.glb.faceWr.getD f 0) b) = false := by
        rw [← Bool.not_or, h3]; rfl
      simp only [h1, h2, h3', Bool.not_true, Bool.false_eq_true, if_false, Master.logged]
      cases (e s).2 <;> simp
    | fw c ep =>
      simp only [Bool.and_eq_true, Bool.or_eq_true, decide_eq_true_eq, or_assoc] at h
      obtain ⟨⟨⟨h1, h2⟩, h3⟩, h4⟩ := h
      have h2' : (!s.ready b && decide (b ≠ 17) && decide (b ≠ 18)) = false := by
        rcases h2 with h2 | h2 | h2 <;> simp [h2]
      have h4' : ¬ (s.ksc.ckptJpos + 65536 ≤ s.ksc.j) := by omega
      simp only [h1, hr, Bool.not_true, Bool.and_false, Bool.false_eq_true, if_false, h2', h3, ne_eq, not_true_eq_false,
        h4', Master.logged]
      cases (e s).2 <;> cases journalled off <;> simp

/-- An effect that is never ignored. -/
theorem access_eff {s : State} {m : Master} {off : Nat} (h : s.reaches m off) (n d : Nat) (e : Eff) (x : Bool)
    (he : (e s).2 = true) : s.access m off n d e x = m.logged off n d (e s).1 := by
  rw [access_reaches h, he]
  rfl

@[simp] theorem begun_reaches (s : State) (m : Master) (off : Nat) : s.begun.reaches m off ↔ s.reaches m off := Iff.rfl
@[simp] theorem begun_writes (s : State) (m : Master) (off : Nat) : s.begun.writes m off ↔ s.writes m off := Iff.rfl

/-! ### Commands that are register writes -/

/-- Journalling a write without a warning changes the journal alone. -/
theorem logged_cases (m : Master) (off n d : Nat) (u : State)
    (h : m.isFw = true → (u.ksc.j + 1) % 2 ^ 48 ≠ u.ksc.ckptJpos + 49152) :
    m.logged off n d u = u ∨ ∃ hbm j, m.logged off n d u = { u with ksc := { u.ksc with hbm := hbm, j := j } }
      ∧ ∀ w : State, w.ksc.hbm = u.ksc.hbm → w.ksc.j = u.ksc.j → w.ksc.ckptJpos = u.ksc.ckptJpos →
        m.logged off n d w = { w with ksc := { w.ksc with hbm := hbm, j := j } } := by
  unfold Master.logged
  cases m with
  | pf f => exact .inl rfl
  | vf i => exact .inl rfl
  | fw c ep =>
    have h' : (u.ksc.j + 1) % 2 ^ 48 ≠ u.ksc.ckptJpos + 49152 := h rfl
    dsimp only
    split
    · refine .inr ⟨_, _, journal_quiet off n d ep h', ?_⟩
      intro w h1 h2 h3
      rw [journal_quiet off n d ep (by rw [h2, h3]; exact h'), h1, h2]
    · exact .inl rfl

/-- A register write that reaches its register and whose effect asks for nothing. -/
theorem run_write {s v : State} {m : Master} {off n d : Nat} {e : Eff} {x : Bool} (hw : s.writes m off)
    (hb : v.banksHeld) (he : e s.begun = (v, true)) (hd : v.due = []) (ho : v.out.all (fun o => !o.wakes) = true)
    (hp : v.pending = s.pending) (hf : v.fuses = s.fuses) (hj : v.ksc.j = s.ksc.j) (hc : v.ksc.ckptJpos = s.ksc.ckptJpos) :
    runMain (fun t => t.access m off n d e x) s = .next (m.logged off n d v) := by
  have ha : s.begun.access m off n d e x = m.logged off n d v := by
    rw [access_eff ((begun_reaches s m off).2 hw.1) n d e x (by rw [he]), he]
  rw [runMain_on hw.1.1]
  have hq := logged_cases m off n d v (by rw [hj, hc]; exact hw.2)
  rcases hq with hq | ⟨hbm, j, hq, -⟩
  · rw [hq] at ha ⊢
    exact run_quiet ha hb hd ho hp hf
  · rw [hq] at ha ⊢
    exact run_quiet ha (banksHeld_of hb rfl rfl) hd ho hp hf

/-- An event and the journal do not meet. -/
theorem EventFrame.logged {v u : State} (h : EventFrame v u) (m : Master) (off n d : Nat)
    (hq : m.isFw = true → (v.ksc.j + 1) % 2 ^ 48 ≠ v.ksc.ckptJpos + 49152) :
    EventFrame (m.logged off n d v) (m.logged off n d u) := by
  have e1 : u.ksc.hbm = v.ksc.hbm := by rw [show u.ksc = (v.eventOn u).ksc from congrArg State.ksc h]; rfl
  have e2 : u.ksc.j = v.ksc.j := by rw [show u.ksc = (v.eventOn u).ksc from congrArg State.ksc h]; rfl
  have e3 : u.ksc.ckptJpos = v.ksc.ckptJpos := by rw [show u.ksc = (v.eventOn u).ksc from congrArg State.ksc h]; rfl
  rcases logged_cases m off n d v hq with hl | ⟨hbm, j, hl, hall⟩
  · have hu : m.logged off n d u = u := by
      unfold Master.logged at hl ⊢
      cases m with
      | pf f => rfl
      | vf i => rfl
      | fw c ep =>
        dsimp only at hl ⊢
        split
        · rename_i hjn
          rw [if_pos hjn, journal_quiet off n d ep (hq rfl)] at hl
          exfalso
          have hj : (v.ksc.j + 1) % 2 ^ 48 = v.ksc.j := congrArg (fun t : State => t.ksc.j) hl
          omega
        · rfl
    rw [hl, hu]
    exact h
  · rw [hl, hall u e1 e2 e3]
    have hk : u.ksc = { v.ksc with cplx := u.ksc.cplx } := congrArg State.ksc h
    have hs : u = v.eventOn u := h
    unfold EventFrame State.eventOn at hs ⊢
    rw [hk]
    conv_lhs => rw [hs]

/-- A register write whose effect is `v` and the event of a source. -/
theorem run_write_event {s v : State} {m : Master} {off n d : Nat} {e : Eff} {x : Bool} {src a : Nat} {who : Option Nat}
    {acc : Acc} (hw : s.writes m off) (hb : v.banksHeld) (he : e s.begun = (v.raise src a who acc, true)) (hm : v.mild src)
    (hd : v.due = []) (hr : v.released = true) (hp : v.pending = s.pending) (hf : v.fuses = s.fuses)
    (hj : v.ksc.j = s.ksc.j) (hc : v.ksc.ckptJpos = s.ksc.ckptJpos) :
    ∃ t, runMain (fun t => t.access m off n d e x) s = .next t ∧ Reported src (m.logged off n d v) t := by
  have hq : m.isFw = true → (v.ksc.j + 1) % 2 ^ 48 ≠ v.ksc.ckptJpos + 49152 := by rw [hj, hc]; exact hw.2
  have ha : s.begun.access m off n d e x = m.logged off n d (v.raise src a who acc) := by
    rw [access_eff ((begun_reaches s m off).2 hw.1) n d e x (by rw [he]), he]
  have hev := EventFrame.raise v src a who acc
  have hfr := hev.logged m off n d hq
  have hdv : (v.raise src a who acc).due = [] := by rw [raise_due hm, hd]
  have hqu : m.isFw = true →
      ((v.raise src a who acc).ksc.j + 1) % 2 ^ 48 ≠ (v.raise src a who acc).ksc.ckptJpos + 49152 := by
    rw [show (v.raise src a who acc).ksc = (v.eventOn (v.raise src a who acc)).ksc from congrArg State.ksc hev]
    exact hq
  have same : ∀ w : State, (m.isFw = true → (w.ksc.j + 1) % 2 ^ 48 ≠ w.ksc.ckptJpos + 49152) →
      (m.logged off n d w).due = w.due ∧ (m.logged off n d w).flt = w.flt ∧ (m.logged off n d w).rules = w.rules
        ∧ (m.logged off n d w).packets = w.packets ∧ (m.logged off n d w).pending = w.pending
        ∧ (m.logged off n d w).fuses = w.fuses := by
    intro w hw'
    rcases logged_cases m off n d w hw' with h | ⟨_, _, h, -⟩ <;> rw [h] <;> exact ⟨rfl, rfl, rfl, rfl, rfl, rfl⟩
  have sv := same v hq
  have su := same _ hqu
  rw [runMain_on hw.1.1]
  refine ⟨_, rfl, ?_, ?_⟩
  · show EventFrame (m.logged off n d v) (s.close (s.begun.access m off n d e x))
    rw [ha]
    refine close_event hfr ?_ ?_ ?_ ?_
    · exact banksHeld_of hb sv.2.2.1 sv.2.2.2.1
    · exact su.1.trans hdv
    · exact sv.2.2.2.2.1.trans hp
    · exact sv.2.2.2.2.2.trans hf
  · have hb1 : (m.logged off n d (v.raise src a who acc)).banksHeld :=
      banksHeld_of hb (su.2.2.1.trans hev.rules) (su.2.2.2.1.trans hev.packets)
    show (s.close (s.begun.access m off n d e x)).eventPending src = true
    rw [ha, close_due hb1 (su.1.trans hdv)]
    show (m.logged off n d (v.raise src a who acc)).eventPending src = true
    unfold State.eventPending
    rw [su.2.1]
    exact raise_pending hr src a who acc

end Sys2Proof.Machine
end

