-- ==== Sys2Proof/Laws/Meanings.lean ====
section
/-! SUPPORT. What every command has in common: it is an effect on the state as the command begins, followed by the end of a
command (`run`), or, for the fusing of the security version alone, by the end that lets the effect change fuses (`runFuse`). -/

set_option Elab.async false

namespace Sys2Proof.Machine

/-- The outcome is that of an effect and the end of a command. -/
def Ends (s : State) (o : Host.Outcome State Fault Refusal) : Prop :=
  (∃ f : State → State, o = run f s) ∨ o = runFuse (fun t => if t.released then t.svnFuseEnd else t) s

theorem execVinRise_ends (vinCv : Nat) (s : State) : Ends s (execVinRise vinCv s) := .inl ⟨_, rfl⟩
theorem execHkclkArrival_ends (s : State) : Ends s (execHkclkArrival s) := .inl ⟨_, rfl⟩
theorem execReleasePoint_ends (i : ReleaseIn) (s : State) : Ends s (execReleasePoint i s) := .inl ⟨_, rfl⟩
theorem execVinUndervoltage_ends (vinCv : Nat) (s : State) : Ends s (execVinUndervoltage vinCv s) := .inl ⟨_, rfl⟩
theorem execVinOvervoltage_ends (vinCv : Nat) (s : State) : Ends s (execVinOvervoltage vinCv s) := .inl ⟨_, rfl⟩
theorem execVinOvpRecovery_ends (vinCv : Nat) (s : State) : Ends s (execVinOvpRecovery vinCv s) := .inl ⟨_, rfl⟩
theorem execVinRangeEntry_ends (vinCv : Nat) (s : State) : Ends s (execVinRangeEntry vinCv s) := .inl ⟨_, rfl⟩
theorem execThermalTrip_ends (tj hbm0 hbm1 : Int) (s : State) : Ends s (execThermalTrip tj hbm0 hbm1 s) := .inl ⟨_, rfl⟩
theorem execTempWarnCrossing_ends (tj hbm0 hbm1 : Int) (s : State) :
    Ends s (execTempWarnCrossing tj hbm0 hbm1 s) := .inl ⟨_, rfl⟩
theorem execThermNFall_ends (s : State) : Ends s (execThermNFall s) := .inl ⟨_, rfl⟩
theorem execHkclkLoss_ends (s : State) : Ends s (execHkclkLoss s) := .inl ⟨_, rfl⟩
theorem execHkclkReturn_ends (s : State) : Ends s (execHkclkReturn s) := .inl ⟨_, rfl⟩
theorem execPwrRailFault_ends (s : State) : Ends s (execPwrRailFault s) := .inl ⟨_, rfl⟩
theorem execMrstNLow_ends (s : State) : Ends s (execMrstNLow s) := .inl ⟨_, rfl⟩
theorem execPerstNFall_ends (face : Nat) (s : State) : Ends s (execPerstNFall face s) := .inl ⟨_, rfl⟩
theorem execPerstNRise_ends (face : Nat) (s : State) : Ends s (execPerstNRise face s) := .inl ⟨_, rfl⟩
theorem execFaceReady_ends (face : Nat) (s : State) : Ends s (execFaceReady face s) := .inl ⟨_, rfl⟩
theorem execUnitReady_ends (u : ReadyUnit) (ok : Bool) (s : State) : Ends s (execUnitReady u ok s) := .inl ⟨_, rfl⟩
theorem execBootComplete_ends (i : BootIn) (s : State) : Ends s (execBootComplete i s) := .inl ⟨_, rfl⟩
theorem execChipResetEnd_ends (i : ReleaseIn) (s : State) : Ends s (execChipResetEnd i s) := .inl ⟨_, rfl⟩
theorem execBlockResetDone_ends (block : Nat) (s : State) : Ends s (execBlockResetDone block s) := .inl ⟨_, rfl⟩
theorem execPaceTrigger_ends (src : PaceSource) (s : State) : Ends s (execPaceTrigger src s) := .inl ⟨_, rfl⟩
theorem execEstimateCompare_ends (w : Nat) (s : State) : Ends s (execEstimateCompare w s) := .inl ⟨_, rfl⟩
theorem execPaceSettleEnd_ends (s : State) : Ends s (execPaceSettleEnd s) := .inl ⟨_, rfl⟩
theorem execPaceTriggersClear_ends (srcs : List PaceSource) (s : State) :
    Ends s (execPaceTriggersClear srcs s) := .inl ⟨_, rfl⟩
theorem execPaceHoldEnd_ends (s : State) : Ends s (execPaceHoldEnd s) := .inl ⟨_, rfl⟩
theorem execForceStepWrite_ends (m : Master) (data : Nat) (s : State) :
    Ends s (execForceStepWrite m data s) := .inl ⟨_, rfl⟩
theorem execTsuTick_ends (s : State) : Ends s (execTsuTick s) := .inl ⟨_, rfl⟩
theorem execTsuReferenceLoss_ends (s : State) : Ends s (execTsuReferenceLoss s) := .inl ⟨_, rfl⟩
theorem execTsuReferenceReturn_ends (s : State) : Ends s (execTsuReferenceReturn s) := .inl ⟨_, rfl⟩
theorem execTodSet_ends (m : Master) (ns : Nat) (s : State) : Ends s (execTodSet m ns s) := .inl ⟨_, rfl⟩
theorem execTodStep_ends (m : Master) (ns : Nat) (s : State) : Ends s (execTodStep m ns s) := .inl ⟨_, rfl⟩
theorem execTodAdjWrite_ends (m : Master) (data : Nat) (s : State) : Ends s (execTodAdjWrite m data s) := .inl ⟨_, rfl⟩
theorem execTsuSnap_ends (m : Master) (data : Nat) (s : State) : Ends s (execTsuSnap m data s) := .inl ⟨_, rfl⟩
theorem execLineRefLoss_ends (b : Bool) (s : State) : Ends s (execLineRefLoss b s) := .inl ⟨_, rfl⟩
theorem execPcieRefLoss_ends (face : Nat) (s : State) : Ends s (execPcieRefLoss face s) := .inl ⟨_, rfl⟩
theorem execRefReturn_ends (r : RefClock) (s : State) : Ends s (execRefReturn r s) := .inl ⟨_, rfl⟩
theorem execSmbusRead_ends (cmd : Nat) (s : State) : Ends s (execSmbusRead cmd s) := .inl ⟨_, rfl⟩
theorem execSmbusWrite_ends (cmd : Nat) (data : List Byte) (s : State) :
    Ends s (execSmbusWrite cmd data s) := .inl ⟨_, rfl⟩
theorem execAlertResponse_ends (s : State) : Ends s (execAlertResponse s) := .inl ⟨_, rfl⟩
theorem execSmbusTimeout_ends (s : State) : Ends s (execSmbusTimeout s) := .inl ⟨_, rfl⟩
theorem execTapInstruction_ends (ir : Nat) (s : State) : Ends s (execTapInstruction ir s) := .inl ⟨_, rfl⟩
theorem execFtChallenge_ends (s : State) : Ends s (execFtChallenge s) := .inl ⟨_, rfl⟩
theorem execFtUnlock_ends (sig : Nat) (s : State) : Ends s (execFtUnlock sig s) := .inl ⟨_, rfl⟩
theorem execRegisterWrite_ends (m : Master) (addr bytes data : Nat) (s : State) :
    Ends s (execRegisterWrite m addr bytes data s) := .inl ⟨_, rfl⟩
theorem execLockSet_ends (m : Master) (data : Nat) (s : State) : Ends s (execLockSet m data s) := .inl ⟨_, rfl⟩
theorem execPrimaryFaceWrite_ends (m : Master) (data : Nat) (s : State) :
    Ends s (execPrimaryFaceWrite m data s) := .inl ⟨_, rfl⟩
theorem execAdmitSlotsWrite_ends (m : Master) (course act data : Nat) (s : State) :
    Ends s (execAdmitSlotsWrite m course act data s) := .inl ⟨_, rfl⟩
theorem execSplitWrite_ends (m : Master) (octet data : Nat) (s : State) :
    Ends s (execSplitWrite m octet data s) := .inl ⟨_, rfl⟩
theorem execPortEnable_ends (m : Master) (port data : Nat) (s : State) :
    Ends s (execPortEnable m port data s) := .inl ⟨_, rfl⟩
theorem execPortDisable_ends (m : Master) (port data : Nat) (s : State) :
    Ends s (execPortDisable m port data s) := .inl ⟨_, rfl⟩
theorem execLineLinkUp_ends (port : Nat) (anDone : Bool) (s : State) :
    Ends s (execLineLinkUp port anDone s) := .inl ⟨_, rfl⟩
theorem execLineLinkDown_ends (port : Nat) (s : State) : Ends s (execLineLinkDown port s) := .inl ⟨_, rfl⟩
theorem execRxFrameStart_ends (port : Nat) (bytes : List Byte) (pcsError : Bool) (s : State) :
    Ends s (execRxFrameStart port bytes pcsError s) := .inl ⟨_, rfl⟩
theorem execRxFrameEnd_ends (port : Nat) (rest : List Byte) (pcsError : Bool) (s : State) :
    Ends s (execRxFrameEnd port rest pcsError s) := .inl ⟨_, rfl⟩
theorem execRxControlFrame_ends (port : Nat) (bytes : List Byte) (s : State) :
    Ends s (execRxControlFrame port bytes s) := .inl ⟨_, rfl⟩
theorem execPauseTimerExpiry_ends (port pri : Nat) (s : State) :
    Ends s (execPauseTimerExpiry port pri s) := .inl ⟨_, rfl⟩
theorem execPfcFrameSend_ends (port : Nat) (s : State) : Ends s (execPfcFrameSend port s) := .inl ⟨_, rfl⟩
theorem execPfcRepeat_ends (port : Nat) (s : State) : Ends s (execPfcRepeat port s) := .inl ⟨_, rfl⟩
theorem execTxFrame_ends (port : Nat) (s : State) : Ends s (execTxFrame port s) := .inl ⟨_, rfl⟩
theorem execStatClear_ends (m : Master) (lsd : Bool) (mask : Nat) (s : State) :
    Ends s (execStatClear m lsd mask s) := .inl ⟨_, rfl⟩
theorem execTxtsPop_ends (m : Master) (port data : Nat) (s : State) :
    Ends s (execTxtsPop m port data s) := .inl ⟨_, rfl⟩
theorem execMarkCreation_ends (pkt : Nat) (s : State) : Ends s (execMarkCreation pkt s) := .inl ⟨_, rfl⟩
theorem execParse_ends (pkt : Nat) (s : State) : Ends s (execParse pkt s) := .inl ⟨_, rfl⟩
theorem execLateFindings_ends (pkt : Nat) (s : State) : Ends s (execLateFindings pkt s) := .inl ⟨_, rfl⟩
theorem execRulePass_ends (pkt : Nat) (s : State) : Ends s (execRulePass pkt s) := .inl ⟨_, rfl⟩
theorem execLateVerdict_ends (pkt : Nat) (s : State) : Ends s (execLateVerdict pkt s) := .inl ⟨_, rfl⟩
theorem execLimiterRefill_ends (s : State) : Ends s (execLimiterRefill s) := .inl ⟨_, rfl⟩
theorem execForwardingLookup_ends (pkt : Nat) (s : State) : Ends s (execForwardingLookup pkt s) := .inl ⟨_, rfl⟩
theorem execLearnRecordExpiry_ends (domain addr : Nat) (s : State) :
    Ends s (execLearnRecordExpiry domain addr s) := .inl ⟨_, rfl⟩
theorem execAgingVisit_ends (flow : Bool) (index : Nat) (s : State) :
    Ends s (execAgingVisit flow index s) := .inl ⟨_, rfl⟩
theorem execTunnelStage_ends (pkt : Nat) (s : State) : Ends s (execTunnelStage pkt s) := .inl ⟨_, rfl⟩
theorem execCryptoStage_ends (pkt : Nat) (s : State) : Ends s (execCryptoStage pkt s) := .inl ⟨_, rfl⟩
theorem execSaCacheFill_ends (sa : Nat) (wrapOk : Bool) (s : State) :
    Ends s (execSaCacheFill sa wrapOk s) := .inl ⟨_, rfl⟩
theorem execStoRxPacket_ends (pkt : Nat) (s : State) : Ends s (execStoRxPacket pkt s) := .inl ⟨_, rfl⟩
theorem execStoSend_ends (ctx : Nat) (s : State) : Ends s (execStoSend ctx s) := .inl ⟨_, rfl⟩
theorem execDelayedAck_ends (ctx : Nat) (s : State) : Ends s (execDelayedAck ctx s) := .inl ⟨_, rfl⟩
theorem execAckTimerExpiry_ends (ctx : Nat) (s : State) : Ends s (execAckTimerExpiry ctx s) := .inl ⟨_, rfl⟩
theorem execRnrWaitEnd_ends (ctx : Nat) (s : State) : Ends s (execRnrWaitEnd ctx s) := .inl ⟨_, rfl⟩
theorem execAlphaTimer_ends (ctx : Nat) (s : State) : Ends s (execAlphaTimer ctx s) := .inl ⟨_, rfl⟩
theorem execIncreaseEvent_ends (ctx : Nat) (s : State) : Ends s (execIncreaseEvent ctx s) := .inl ⟨_, rfl⟩
theorem execDdpSetup_ends (ctx : Nat) (s : State) : Ends s (execDdpSetup ctx s) := .inl ⟨_, rfl⟩
theorem execDdpTeardown_ends (ctx : Nat) (s : State) : Ends s (execDdpTeardown ctx s) := .inl ⟨_, rfl⟩
theorem execBufferAdmission_ends (pkt : Nat) (s : State) : Ends s (execBufferAdmission pkt s) := .inl ⟨_, rfl⟩
theorem execChargeCorrection_ends (pkt : Nat) (s : State) : Ends s (execChargeCorrection pkt s) := .inl ⟨_, rfl⟩
theorem execAdmissionRetry_ends (pkt : Nat) (s : State) : Ends s (execAdmissionRetry pkt s) := .inl ⟨_, rfl⟩
theorem execBufWaitExpiry_ends (pkt : Nat) (s : State) : Ends s (execBufWaitExpiry pkt s) := .inl ⟨_, rfl⟩
theorem execXoffEvaluation_ends (port pri : Nat) (s : State) : Ends s (execXoffEvaluation port pri s) := .inl ⟨_, rfl⟩
theorem execMarkAgeScan_ends (s : State) : Ends s (execMarkAgeScan s) := .inl ⟨_, rfl⟩
theorem execHrxHoldExpiry_ends (pkt : Nat) (s : State) : Ends s (execHrxHoldExpiry pkt s) := .inl ⟨_, rfl⟩
theorem execSpillMove_ends (pkt : Nat) (s : State) : Ends s (execSpillMove pkt s) := .inl ⟨_, rfl⟩
theorem execSpillReadback_ends (pkt : Nat) (uncorr : Bool) (s : State) :
    Ends s (execSpillReadback pkt uncorr s) := .inl ⟨_, rfl⟩
theorem execPortDownFlush_ends (port : Nat) (s : State) : Ends s (execPortDownFlush port s) := .inl ⟨_, rfl⟩
theorem execPeakClear_ends (m : Master) (data : Nat) (s : State) : Ends s (execPeakClear m data s) := .inl ⟨_, rfl⟩
theorem execRecircTake_ends (pkt : Nat) (s : State) : Ends s (execRecircTake pkt s) := .inl ⟨_, rfl⟩
theorem execRecircHoldExpiry_ends (pkt : Nat) (s : State) : Ends s (execRecircHoldExpiry pkt s) := .inl ⟨_, rfl⟩
theorem execExitSelect_ends (exit : Nat) (s : State) : Ends s (execExitSelect exit s) := .inl ⟨_, rfl⟩
theorem execCutThroughCorrection_ends (pkt : Nat) (s : State) : Ends s (execCutThroughCorrection pkt s) := .inl ⟨_, rfl⟩
theorem execShaperRefill_ends (shaper : Nat) (s : State) : Ends s (execShaperRefill shaper s) := .inl ⟨_, rfl⟩
theorem execGateArm_ends (m : Master) (port data : Nat) (s : State) :
    Ends s (execGateArm m port data s) := .inl ⟨_, rfl⟩
theorem execGateSwitch_ends (port : Nat) (s : State) : Ends s (execGateSwitch port s) := .inl ⟨_, rfl⟩
theorem execConfigRequest_ends (fn bus dev : Nat) (r : CfgReq) (s : State) :
    Ends s (execConfigRequest fn bus dev r s) := .inl ⟨_, rfl⟩
theorem execPcieDlActive_ends (face link rate width : Nat) (flit : Bool) (s : State) :
    Ends s (execPcieDlActive face link rate width flit s) := .inl ⟨_, rfl⟩
theorem execPcieLinkReset_ends (face link : Nat) (hot : Bool) (s : State) :
    Ends s (execPcieLinkReset face link hot s) := .inl ⟨_, rfl⟩
theorem execVfEnable_ends (face numVfs : Nat) (s : State) : Ends s (execVfEnable face numVfs s) := .inl ⟨_, rfl⟩
theorem execVfDisable_ends (face : Nat) (s : State) : Ends s (execVfDisable face s) := .inl ⟨_, rfl⟩
theorem execBmeClear_ends (fn : Nat) (s : State) : Ends s (execBmeClear fn s) := .inl ⟨_, rfl⟩
theorem execBmeSet_ends (fn : Nat) (s : State) : Ends s (execBmeSet fn s) := .inl ⟨_, rfl⟩
theorem execVfFlr_ends (inst : Nat) (s : State) : Ends s (execVfFlr inst s) := .inl ⟨_, rfl⟩
theorem execD3hotEntry_ends (fn : Nat) (s : State) : Ends s (execD3hotEntry fn s) := .inl ⟨_, rfl⟩
theorem execD0Return_ends (fn : Nat) (s : State) : Ends s (execD0Return fn s) := .inl ⟨_, rfl⟩
theorem execPmeResend_ends (fn : Nat) (s : State) : Ends s (execPmeResend fn s) := .inl ⟨_, rfl⟩
theorem execPmeTurnOff_ends (face link : Nat) (s : State) : Ends s (execPmeTurnOff face link s) := .inl ⟨_, rfl⟩
theorem execMsixUnmask_ends (fn vec : Nat) (whole : Bool) (s : State) :
    Ends s (execMsixUnmask fn vec whole s) := .inl ⟨_, rfl⟩
theorem execMctpControl_ends (face : Nat) (msg : List Byte) (s : State) :
    Ends s (execMctpControl face msg s) := .inl ⟨_, rfl⟩
theorem execPldmRequest_ends (face : Nat) (msg : List Byte) (s : State) :
    Ends s (execPldmRequest face msg s) := .inl ⟨_, rfl⟩
theorem execAtsInvalidate_ends (face fn page pages : Nat) (s : State) :
    Ends s (execAtsInvalidate face fn page pages s) := .inl ⟨_, rfl⟩
theorem execInvalidateDeadline_ends (face fn page : Nat) (s : State) :
    Ends s (execInvalidateDeadline face fn page s) := .inl ⟨_, rfl⟩
theorem execAtsTranslation_ends (face id : Nat) (r : XlateResult) (s : State) :
    Ends s (execAtsTranslation face id r s) := .inl ⟨_, rfl⟩
theorem execQueueEnable_ends (m : Master) (face : Nat) (rx : Bool) (q : Nat) (s : State) :
    Ends s (execQueueEnable m face rx q s) := .inl ⟨_, rfl⟩
theorem execQueueStop_ends (m : Master) (face : Nat) (rx : Bool) (q : Nat) (s : State) :
    Ends s (execQueueStop m face rx q s) := .inl ⟨_, rfl⟩
theorem execQueueStopped_ends (rx : Bool) (q : Nat) (s : State) : Ends s (execQueueStopped rx q s) := .inl ⟨_, rfl⟩
theorem execQueueResume_ends (m : Master) (face : Nat) (rx : Bool) (q : Nat) (s : State) :
    Ends s (execQueueResume m face rx q s) := .inl ⟨_, rfl⟩
theorem execQueueReset_ends (m : Master) (face : Nat) (rx : Bool) (q : Nat) (s : State) :
    Ends s (execQueueReset m face rx q s) := .inl ⟨_, rfl⟩
theorem execQueueResetDone_ends (rx : Bool) (q : Nat) (s : State) : Ends s (execQueueResetDone rx q s) := .inl ⟨_, rfl⟩
theorem execLineEnable_ends (m : Master) (face line : Nat) (s : State) :
    Ends s (execLineEnable m face line s) := .inl ⟨_, rfl⟩
theorem execLineDisable_ends (m : Master) (face line : Nat) (s : State) :
    Ends s (execLineDisable m face line s) := .inl ⟨_, rfl⟩
theorem execPollIssue_ends (line : Nat) (s : State) : Ends s (execPollIssue line s) := .inl ⟨_, rfl⟩
theorem execPollReturn_ends (face tag : Nat) (st : CplStatus) (bytes : List Byte) (s : State) :
    Ends s (execPollReturn face tag st bytes s) := .inl ⟨_, rfl⟩
theorem execDescriptorFetch_ends (face : Nat) (s : State) : Ends s (execDescriptorFetch face s) := .inl ⟨_, rfl⟩
theorem execTxItemHandoff_ends (q : Nat) (s : State) : Ends s (execTxItemHandoff q s) := .inl ⟨_, rfl⟩
theorem execTxItemComplete_ends (q : Nat) (s : State) : Ends s (execTxItemComplete q s) := .inl ⟨_, rfl⟩
theorem execRegionClose_ends (q : Nat) (s : State) : Ends s (execRegionClose q s) := .inl ⟨_, rfl⟩
theorem execCqEntryReady_ends (ring : Nat) (s : State) : Ends s (execCqEntryReady ring s) := .inl ⟨_, rfl⟩
theorem execCorbelDrain_ends (ring : Nat) (s : State) : Ends s (execCorbelDrain ring s) := .inl ⟨_, rfl⟩
theorem execCqEnable_ends (m : Master) (face ring : Nat) (s : State) :
    Ends s (execCqEnable m face ring s) := .inl ⟨_, rfl⟩
theorem execCqDisable_ends (m : Master) (face ring : Nat) (s : State) :
    Ends s (execCqDisable m face ring s) := .inl ⟨_, rfl⟩
theorem execCoalesceTimerExpiry_ends (ring : Nat) (s : State) : Ends s (execCoalesceTimerExpiry ring s) := .inl ⟨_, rfl⟩
theorem execReadIssue_ends (face : Nat) (s : State) : Ends s (execReadIssue face s) := .inl ⟨_, rfl⟩
theorem execReadCompletion_ends (face tag : Nat) (st : CplStatus) (bytes : List Byte) (s : State) :
    Ends s (execReadCompletion face tag st bytes s) := .inl ⟨_, rfl⟩
theorem execReadTimeout_ends (face tag : Nat) (s : State) : Ends s (execReadTimeout face tag s) := .inl ⟨_, rfl⟩
theorem execQuarantineEnd_ends (face tag : Nat) (s : State) : Ends s (execQuarantineEnd face tag s) := .inl ⟨_, rfl⟩
theorem execWriteTlp_ends (face link chan : Nat) (s : State) : Ends s (execWriteTlp face link chan s) := .inl ⟨_, rfl⟩
theorem execJobSubmit_ends (m : Master) (face count : Nat) (s : State) :
    Ends s (execJobSubmit m face count s) := .inl ⟨_, rfl⟩
theorem execJobFinish_ends (face : Nat) (s : State) : Ends s (execJobFinish face s) := .inl ⟨_, rfl⟩
theorem execFlushCompletion_ends (face tag : Nat) (s : State) : Ends s (execFlushCompletion face tag s) := .inl ⟨_, rfl⟩
theorem execFlushTimeout_ends (face tag : Nat) (s : State) : Ends s (execFlushTimeout face tag s) := .inl ⟨_, rfl⟩
theorem execCreate_ends (m : Master) (face inst : Nat) (s : State) : Ends s (execCreate m face inst s) := .inl ⟨_, rfl⟩
theorem execStart_ends (m : Master) (face inst : Nat) (s : State) : Ends s (execStart m face inst s) := .inl ⟨_, rfl⟩
theorem execReset_ends (m : Master) (face inst : Nat) (s : State) : Ends s (execReset m face inst s) := .inl ⟨_, rfl⟩
theorem execRemove_ends (m : Master) (face inst : Nat) (s : State) : Ends s (execRemove m face inst s) := .inl ⟨_, rfl⟩
theorem execSetShare_ends (m : Master) (face inst : Nat) (s : State) :
    Ends s (execSetShare m face inst s) := .inl ⟨_, rfl⟩
theorem execResetSequenceDone_ends (inst : Nat) (s : State) : Ends s (execResetSequenceDone inst s) := .inl ⟨_, rfl⟩
theorem execMbxDataWrite_ends (m : Master) (chan word data : Nat) (s : State) :
    Ends s (execMbxDataWrite m chan word data s) := .inl ⟨_, rfl⟩
theorem execGo_ends (m : Master) (chan : Nat) (s : State) : Ends s (execGo m chan s) := .inl ⟨_, rfl⟩
theorem execDone_ends (m : Master) (chan : Nat) (s : State) : Ends s (execDone m chan s) := .inl ⟨_, rfl⟩
theorem execNotify_ends (m : Master) (chan : Nat) (s : State) : Ends s (execNotify m chan s) := .inl ⟨_, rfl⟩
theorem execCancel_ends (m : Master) (chan : Nat) (s : State) : Ends s (execCancel m chan s) := .inl ⟨_, rfl⟩
theorem execMbxEventDelivery_ends (chan : Nat) (endB : Bool) (s : State) :
    Ends s (execMbxEventDelivery chan endB s) := .inl ⟨_, rfl⟩
theorem execMbxBindWrite_ends (m : Master) (chan data : Nat) (s : State) :
    Ends s (execMbxBindWrite m chan data s) := .inl ⟨_, rfl⟩
theorem execMgrHello_ends (face : Nat) (s : State) : Ends s (execMgrHello face s) := .inl ⟨_, rfl⟩
theorem execMboxCreate_ends (face : Nat) (s : State) : Ends s (execMboxCreate face s) := .inl ⟨_, rfl⟩
theorem execMboxRemove_ends (face : Nat) (s : State) : Ends s (execMboxRemove face s) := .inl ⟨_, rfl⟩
theorem execMboxSetShare_ends (face : Nat) (s : State) : Ends s (execMboxSetShare face s) := .inl ⟨_, rfl⟩
theorem execGetNotice_ends (chan : Nat) (s : State) : Ends s (execGetNotice chan s) := .inl ⟨_, rfl⟩
theorem execTenantHello_ends (inst : Nat) (s : State) : Ends s (execTenantHello inst s) := .inl ⟨_, rfl⟩
theorem execResetRequest_ends (inst : Nat) (s : State) : Ends s (execResetRequest inst s) := .inl ⟨_, rfl⟩
theorem execUpgradeStatus_ends (face : Nat) (s : State) : Ends s (execUpgradeStatus face s) := .inl ⟨_, rfl⟩
theorem execUpgradeConfirm_ends (face : Nat) (s : State) : Ends s (execUpgradeConfirm face s) := .inl ⟨_, rfl⟩
theorem execLoad_ends (m : Master) (bank : Nat) (s : State) : Ends s (execLoad m bank s) := .inl ⟨_, rfl⟩
theorem execLoadComplete_ends (bank : Nat) (uncorr : Bool) (s : State) :
    Ends s (execLoadComplete bank uncorr s) := .inl ⟨_, rfl⟩
theorem execCommit_ends (m : Master) (bank : Nat) (s : State) : Ends s (execCommit m bank s) := .inl ⟨_, rfl⟩
theorem execClear_ends (m : Master) (bank : Nat) (s : State) : Ends s (execClear m bank s) := .inl ⟨_, rfl⟩
theorem execEmInsert_ends (m : Master) (set : Nat) (replace : Bool) (s : State) :
    Ends s (execEmInsert m set replace s) := .inl ⟨_, rfl⟩
theorem execEmDelete_ends (m : Master) (set : Nat) (s : State) : Ends s (execEmDelete m set s) := .inl ⟨_, rfl⟩
theorem execEmRead_ends (m : Master) (set : Nat) (s : State) : Ends s (execEmRead m set s) := .inl ⟨_, rfl⟩
theorem execExpWrite_ends (m : Master) (set index : Nat) (s : State) :
    Ends s (execExpWrite m set index s) := .inl ⟨_, rfl⟩
theorem execExpRead_ends (m : Master) (set index : Nat) (s : State) :
    Ends s (execExpRead m set index s) := .inl ⟨_, rfl⟩
theorem execFlowInsert_ends (m : Master) (set : Nat) (replace : Bool) (region : Nat) (s : State) :
    Ends s (execFlowInsert m set replace region s) := .inl ⟨_, rfl⟩
theorem execFlowDelete_ends (m : Master) (set region : Nat) (s : State) :
    Ends s (execFlowDelete m set region s) := .inl ⟨_, rfl⟩
theorem execFlowRead_ends (m : Master) (set region : Nat) (s : State) :
    Ends s (execFlowRead m set region s) := .inl ⟨_, rfl⟩
theorem execLpmAdd_ends (m : Master) (set : Nat) (s : State) : Ends s (execLpmAdd m set s) := .inl ⟨_, rfl⟩
theorem execLpmDel_ends (m : Master) (set : Nat) (s : State) : Ends s (execLpmDel m set s) := .inl ⟨_, rfl⟩
theorem execRehash_ends (m : Master) (set : Nat) (s : State) : Ends s (execRehash m set s) := .inl ⟨_, rfl⟩
theorem execRehashEnd_ends (s : State) : Ends s (execRehashEnd s) := .inl ⟨_, rfl⟩
theorem execSaWrite_ends (m : Master) (set index : Nat) (s : State) :
    Ends s (execSaWrite m set index s) := .inl ⟨_, rfl⟩
theorem execSaRead_ends (m : Master) (set index : Nat) (s : State) : Ends s (execSaRead m set index s) := .inl ⟨_, rfl⟩
theorem execSaDelete_ends (m : Master) (set index : Nat) (s : State) :
    Ends s (execSaDelete m set index s) := .inl ⟨_, rfl⟩
theorem execSaLimit_ends (m : Master) (set index : Nat) (s : State) :
    Ends s (execSaLimit m set index s) := .inl ⟨_, rfl⟩
theorem execTlsResync_ends (m : Master) (set index : Nat) (s : State) :
    Ends s (execTlsResync m set index s) := .inl ⟨_, rfl⟩
theorem execLaneDrain_ends (m : Master) (lane : Nat) (s : State) : Ends s (execLaneDrain m lane s) := .inl ⟨_, rfl⟩
theorem execLaneOut_ends (lane : Nat) (s : State) : Ends s (execLaneOut lane s) := .inl ⟨_, rfl⟩
theorem execLaneTest_ends (m : Master) (lane : Nat) (s : State) : Ends s (execLaneTest m lane s) := .inl ⟨_, rfl⟩
theorem execLaneTestEnd_ends (lane : Nat) (pass : Bool) (s : State) :
    Ends s (execLaneTestEnd lane pass s) := .inl ⟨_, rfl⟩
theorem execLaneReturn_ends (m : Master) (lane : Nat) (s : State) : Ends s (execLaneReturn m lane s) := .inl ⟨_, rfl⟩
theorem execCtxWrite_ends (m : Master) (set index : Nat) (s : State) :
    Ends s (execCtxWrite m set index s) := .inl ⟨_, rfl⟩
theorem execCtxRead_ends (m : Master) (set index : Nat) (s : State) :
    Ends s (execCtxRead m set index s) := .inl ⟨_, rfl⟩
theorem execCtxModify_ends (m : Master) (set index : Nat) (s : State) :
    Ends s (execCtxModify m set index s) := .inl ⟨_, rfl⟩
theorem execCtxDestroy_ends (m : Master) (set index : Nat) (s : State) :
    Ends s (execCtxDestroy m set index s) := .inl ⟨_, rfl⟩
theorem execKeyWrite_ends (m : Master) (set index : Nat) (s : State) :
    Ends s (execKeyWrite m set index s) := .inl ⟨_, rfl⟩
theorem execKeyDelete_ends (m : Master) (set index : Nat) (s : State) :
    Ends s (execKeyDelete m set index s) := .inl ⟨_, rfl⟩
theorem execPathWrite_ends (m : Master) (set index : Nat) (s : State) :
    Ends s (execPathWrite m set index s) := .inl ⟨_, rfl⟩
theorem execConnResync_ends (m : Master) (set index : Nat) (s : State) :
    Ends s (execConnResync m set index s) := .inl ⟨_, rfl⟩
theorem execLeaseRenew_ends (m : Master) (epoch : Nat) (s : State) : Ends s (execLeaseRenew m epoch s) := .inl ⟨_, rfl⟩
theorem execLeaseRelease_ends (m : Master) (epoch : Nat) (s : State) :
    Ends s (execLeaseRelease m epoch s) := .inl ⟨_, rfl⟩
theorem execLeaseEnd_ends (s : State) : Ends s (execLeaseEnd s) := .inl ⟨_, rfl⟩
theorem execLockstepMismatch_ends (cplx : Nat) (s : State) : Ends s (execLockstepMismatch cplx s) := .inl ⟨_, rfl⟩
theorem execLeaseReq_ends (m : Master) (jpos : Nat) (s : State) : Ends s (execLeaseReq m jpos s) := .inl ⟨_, rfl⟩
theorem execTakeoverDeadline_ends (s : State) : Ends s (execTakeoverDeadline s) := .inl ⟨_, rfl⟩
theorem execHandoverLapse_ends (s : State) : Ends s (execHandoverLapse s) := .inl ⟨_, rfl⟩
theorem execCkptCommit_ends (m : Master) (slot jpos : Nat) (s : State) :
    Ends s (execCkptCommit m slot jpos s) := .inl ⟨_, rfl⟩
theorem execCkptDeadline_ends (s : State) : Ends s (execCkptDeadline s) := .inl ⟨_, rfl⟩
theorem execComplexStart_ends (m : Master) (cplx slot : Nat) (s : State) :
    Ends s (execComplexStart m cplx slot s) := .inl ⟨_, rfl⟩
theorem execComplexStarted_ends (cplx : Nat) (testOk verifyOk : Bool) (s : State) :
    Ends s (execComplexStarted cplx testOk verifyOk s) := .inl ⟨_, rfl⟩
theorem execComplexStop_ends (m : Master) (cplx : Nat) (s : State) : Ends s (execComplexStop m cplx s) := .inl ⟨_, rfl⟩
theorem execComplexTest_ends (m : Master) (cplx : Nat) (s : State) : Ends s (execComplexTest m cplx s) := .inl ⟨_, rfl⟩
theorem execComplexTestEnd_ends (cplx : Nat) (pass : Bool) (s : State) :
    Ends s (execComplexTestEnd cplx pass s) := .inl ⟨_, rfl⟩
theorem execMasonDelivery_ends (s : State) : Ends s (execMasonDelivery s) := .inl ⟨_, rfl⟩
theorem execXqPop_ends (cluster : Nat) (s : State) : Ends s (execXqPop cluster s) := .inl ⟨_, rfl⟩
theorem execXqFreePop_ends (cluster : Nat) (s : State) : Ends s (execXqFreePop cluster s) := .inl ⟨_, rfl⟩
theorem execXqRet_ends (cluster : Nat) (data : Nat) (stores : List (Nat × Byte)) (s : State) :
    Ends s (execXqRet cluster data stores s) := .inl ⟨_, rfl⟩
theorem execMasonReturn_ends (cluster : Nat) (s : State) : Ends s (execMasonReturn cluster s) := .inl ⟨_, rfl⟩
theorem execMasonNew_ends (cluster : Nat) (s : State) : Ends s (execMasonNew cluster s) := .inl ⟨_, rfl⟩
theorem execMasonDiscard_ends (cluster : Nat) (s : State) : Ends s (execMasonDiscard cluster s) := .inl ⟨_, rfl⟩
theorem execSlotHoldExpiry_ends (cluster slot : Nat) (s : State) :
    Ends s (execSlotHoldExpiry cluster slot s) := .inl ⟨_, rfl⟩
theorem execClusterDrain_ends (m : Master) (cluster : Nat) (s : State) :
    Ends s (execClusterDrain m cluster s) := .inl ⟨_, rfl⟩
theorem execClusterOut_ends (cluster : Nat) (s : State) : Ends s (execClusterOut cluster s) := .inl ⟨_, rfl⟩
theorem execClusterTest_ends (m : Master) (cluster : Nat) (s : State) :
    Ends s (execClusterTest m cluster s) := .inl ⟨_, rfl⟩
theorem execClusterTestEnd_ends (cluster : Nat) (pass : Bool) (s : State) :
    Ends s (execClusterTestEnd cluster pass s) := .inl ⟨_, rfl⟩
theorem execClusterReturn_ends (m : Master) (cluster : Nat) (s : State) :
    Ends s (execClusterReturn m cluster s) := .inl ⟨_, rfl⟩
theorem execMemCorr_ends (block : Nat) (s : State) : Ends s (execMemCorr block s) := .inl ⟨_, rfl⟩
theorem execMemUncorr_ends (block : Nat) (s : State) : Ends s (execMemUncorr block s) := .inl ⟨_, rfl⟩
theorem execMemHbmCorr_ends (s : State) : Ends s (execMemHbmCorr s) := .inl ⟨_, rfl⟩
theorem execMemHbmUncorr_ends (addr : Nat) (s : State) : Ends s (execMemHbmUncorr addr s) := .inl ⟨_, rfl⟩
theorem execMemProtUncorr_ends (addr : Nat) (s : State) : Ends s (execMemProtUncorr addr s) := .inl ⟨_, rfl⟩
theorem execCaptureAck_ends (m : Master) (cls data : Nat) (s : State) :
    Ends s (execCaptureAck m cls data s) := .inl ⟨_, rfl⟩
theorem execErrpinRelease_ends (m : Master) (data : Nat) (s : State) :
    Ends s (execErrpinRelease m data s) := .inl ⟨_, rfl⟩
theorem execFaultInject_ends (m : Master) (data : Nat) (s : State) : Ends s (execFaultInject m data s) := .inl ⟨_, rfl⟩
theorem execQuoinPortEnable_ends (m : Master) (port data : Nat) (s : State) :
    Ends s (execQuoinPortEnable m port data s) := .inl ⟨_, rfl⟩
theorem execLaneAlign_ends (port : Nat) (reversed : Bool) (invert : Nat) (s : State) :
    Ends s (execLaneAlign port reversed invert s) := .inl ⟨_, rfl⟩
theorem execHelloTimer_ends (port : Nat) (s : State) : Ends s (execHelloTimer port s) := .inl ⟨_, rfl⟩
theorem execHello_ends (port : Nat) (msg : HelloMsg) (s : State) : Ends s (execHello port msg s) := .inl ⟨_, rfl⟩
theorem execFlitRx_ends (port : Nat) (f : FlitIn) (s : State) : Ends s (execFlitRx port f s) := .inl ⟨_, rfl⟩
theorem execResendTimer_ends (port : Nat) (s : State) : Ends s (execResendTimer port s) := .inl ⟨_, rfl⟩
theorem execDown_ends (port cause : Nat) (s : State) : Ends s (execDown port cause s) := .inl ⟨_, rfl⟩
theorem execQuoinLinkLoss_ends (port : Nat) (s : State) : Ends s (execQuoinLinkLoss port s) := .inl ⟨_, rfl⟩
theorem execCreditWaitExpiry_ends (port ch : Nat) (s : State) : Ends s (execCreditWaitExpiry port ch s) := .inl ⟨_, rfl⟩
theorem execQuoinDownFlush_ends (port : Nat) (s : State) : Ends s (execQuoinDownFlush port s) := .inl ⟨_, rfl⟩
theorem execTopoTimer_ends (s : State) : Ends s (execTopoTimer s) := .inl ⟨_, rfl⟩
theorem execTopo_ends (port : Nat) (msg : TopoMsg) (s : State) : Ends s (execTopo port msg s) := .inl ⟨_, rfl⟩
theorem execTopoExpiry_ends (port : Nat) (s : State) : Ends s (execTopoExpiry port s) := .inl ⟨_, rfl⟩
theorem execModuleLostExpiry_ends (module_ : Nat) (s : State) : Ends s (execModuleLostExpiry module_ s) := .inl ⟨_, rfl⟩
theorem execStackRenew_ends (m : Master) (epoch : Nat) (s : State) : Ends s (execStackRenew m epoch s) := .inl ⟨_, rfl⟩
theorem execLease_ends (port epoch masterId prio renewSeq : Nat) (s : State) :
    Ends s (execLease port epoch masterId prio renewSeq s) := .inl ⟨_, rfl⟩
theorem execStackLeaseExpiry_ends (s : State) : Ends s (execStackLeaseExpiry s) := .inl ⟨_, rfl⟩
theorem execElection_ends (s : State) : Ends s (execElection s) := .inl ⟨_, rfl⟩
theorem execEpochCmd_ends (m : Master) (epoch : Nat) (s : State) : Ends s (execEpochCmd m epoch s) := .inl ⟨_, rfl⟩
theorem execEpoch_ends (port leaseEpoch cfgEpoch todNs masterId : Nat) (s : State) :
    Ends s (execEpoch port leaseEpoch cfgEpoch todNs masterId s) := .inl ⟨_, rfl⟩
theorem execEpochActivation_ends (s : State) : Ends s (execEpochActivation s) := .inl ⟨_, rfl⟩
theorem execTimeTimer_ends (s : State) : Ends s (execTimeTimer s) := .inl ⟨_, rfl⟩
theorem execTime_ends (port tTx echoTx echoRx : Nat) (s : State) :
    Ends s (execTime port tTx echoTx echoRx s) := .inl ⟨_, rfl⟩
theorem execMbox_ends (port action word data : Nat) (s : State) :
    Ends s (execMbox port action word data s) := .inl ⟨_, rfl⟩
theorem execMbxLinkTimeout_ends (port : Nat) (s : State) : Ends s (execMbxLinkTimeout port s) := .inl ⟨_, rfl⟩
theorem execRetire_ends (m : Master) (data : Nat) (s : State) : Ends s (execRetire m data s) := .inl ⟨_, rfl⟩
theorem execCourseDrain_ends (m : Master) (course : Nat) (s : State) :
    Ends s (execCourseDrain m course s) := .inl ⟨_, rfl⟩
theorem execCourseOut_ends (course : Nat) (s : State) : Ends s (execCourseOut course s) := .inl ⟨_, rfl⟩
theorem execCourseTest_ends (m : Master) (course : Nat) (s : State) :
    Ends s (execCourseTest m course s) := .inl ⟨_, rfl⟩
theorem execCourseTestEnd_ends (course : Nat) (pass : Bool) (s : State) :
    Ends s (execCourseTestEnd course pass s) := .inl ⟨_, rfl⟩
theorem execCourseReturn_ends (m : Master) (course : Nat) (s : State) :
    Ends s (execCourseReturn m course s) := .inl ⟨_, rfl⟩
theorem execSvnRaise_ends (m : Master) (data : Nat) (s : State) : Ends s (execSvnRaise m data s) := .inl ⟨_, rfl⟩
theorem execSvnFuseEnd_ends (s : State) : Ends s (execSvnFuseEnd s) := .inr rfl
theorem execStandbyPowerOn_ends (vstbyCv vinCv : Nat) (s : State) :
    Ends s (execStandbyPowerOn vstbyCv vinCv s) := .inl ⟨_, rfl⟩
theorem execStandbyPowerLoss_ends (s : State) : Ends s (execStandbyPowerLoss s) := .inl ⟨_, rfl⟩
theorem execVinRangeExit_ends (vinCv : Nat) (s : State) : Ends s (execVinRangeExit vinCv s) := .inl ⟨_, rfl⟩
theorem execTempWarnClear_ends (tj hbm0 hbm1 : Int) (s : State) :
    Ends s (execTempWarnClear tj hbm0 hbm1 s) := .inl ⟨_, rfl⟩
theorem execRsFaultChange_ends (port : Nat) (align localFault remoteFault : Bool) (s : State) :
    Ends s (execRsFaultChange port align localFault remoteFault s) := .inl ⟨_, rfl⟩
theorem execL1Entry_ends (face link substate : Nat) (s : State) :
    Ends s (execL1Entry face link substate s) := .inl ⟨_, rfl⟩
theorem execL1Exit_ends (face link : Nat) (s : State) : Ends s (execL1Exit face link s) := .inl ⟨_, rfl⟩

/-- Every command ends so. -/
theorem exec_ends (c : Instr) (s : State) : Ends s (exec c s) :=
  match c with
  | .vinRise vinCv => execVinRise_ends vinCv s
  | .hkclkArrival => execHkclkArrival_ends s
  | .releasePoint i => execReleasePoint_ends i s
  | .vinUndervoltage vinCv => execVinUndervoltage_ends vinCv s
  | .vinOvervoltage vinCv => execVinOvervoltage_ends vinCv s
  | .vinOvpRecovery vinCv => execVinOvpRecovery_ends vinCv s
  | .vinRangeEntry vinCv => execVinRangeEntry_ends vinCv s
  | .thermalTrip tj hbm0 hbm1 => execThermalTrip_ends tj hbm0 hbm1 s
  | .tempWarnCrossing tj hbm0 hbm1 => execTempWarnCrossing_ends tj hbm0 hbm1 s
  | .thermNFall => execThermNFall_ends s
  | .hkclkLoss => execHkclkLoss_ends s
  | .hkclkReturn => execHkclkReturn_ends s
  | .pwrRailFault => execPwrRailFault_ends s
  | .mrstNLow => execMrstNLow_ends s
  | .perstNFall face => execPerstNFall_ends face s
  | .perstNRise face => execPerstNRise_ends face s
  | .faceReady face => execFaceReady_ends face s
  | .unitReady u ok => execUnitReady_ends u ok s
  | .bootComplete i => execBootComplete_ends i s
  | .chipResetEnd i => execChipResetEnd_ends i s
  | .blockResetDone block => execBlockResetDone_ends block s
  | .paceTrigger src => execPaceTrigger_ends src s
  | .estimateCompare w => execEstimateCompare_ends w s
  | .paceSettleEnd => execPaceSettleEnd_ends s
  | .paceTriggersClear srcs => execPaceTriggersClear_ends srcs s
  | .paceHoldEnd => execPaceHoldEnd_ends s
  | .forceStepWrite m data => execForceStepWrite_ends m data s
  | .tsuTick => execTsuTick_ends s
  | .tsuReferenceLoss => execTsuReferenceLoss_ends s
  | .tsuReferenceReturn => execTsuReferenceReturn_ends s
  | .todSet m ns => execTodSet_ends m ns s
  | .todStep m ns => execTodStep_ends m ns s
  | .todAdjWrite m data => execTodAdjWrite_ends m data s
  | .tsuSnap m data => execTsuSnap_ends m data s
  | .lineRefLoss b => execLineRefLoss_ends b s
  | .pcieRefLoss face => execPcieRefLoss_ends face s
  | .refReturn r => execRefReturn_ends r s
  | .smbusRead cmd => execSmbusRead_ends cmd s
  | .smbusWrite cmd data => execSmbusWrite_ends cmd data s
  | .alertResponse => execAlertResponse_ends s
  | .smbusTimeout => execSmbusTimeout_ends s
  | .tapInstruction ir => execTapInstruction_ends ir s
  | .ftChallenge => execFtChallenge_ends s
  | .ftUnlock sig => execFtUnlock_ends sig s
  | .registerWrite m addr bytes data => execRegisterWrite_ends m addr bytes data s
  | .lockSet m data => execLockSet_ends m data s
  | .primaryFaceWrite m data => execPrimaryFaceWrite_ends m data s
  | .admitSlotsWrite m course act data => execAdmitSlotsWrite_ends m course act data s
  | .splitWrite m octet data => execSplitWrite_ends m octet data s
  | .portEnable m port data => execPortEnable_ends m port data s
  | .portDisable m port data => execPortDisable_ends m port data s
  | .lineLinkUp port anDone => execLineLinkUp_ends port anDone s
  | .lineLinkDown port => execLineLinkDown_ends port s
  | .rxFrameStart port bytes pcsError => execRxFrameStart_ends port bytes pcsError s
  | .rxFrameEnd port rest pcsError => execRxFrameEnd_ends port rest pcsError s
  | .rxControlFrame port bytes => execRxControlFrame_ends port bytes s
  | .pauseTimerExpiry port pri => execPauseTimerExpiry_ends port pri s
  | .pfcFrameSend port => execPfcFrameSend_ends port s
  | .pfcRepeat port => execPfcRepeat_ends port s
  | .txFrame port => execTxFrame_ends port s
  | .statClear m lsd mask => execStatClear_ends m lsd mask s
  | .txtsPop m port data => execTxtsPop_ends m port data s
  | .markCreation pkt => execMarkCreation_ends pkt s
  | .parse pkt => execParse_ends pkt s
  | .lateFindings pkt => execLateFindings_ends pkt s
  | .rulePass pkt => execRulePass_ends pkt s
  | .lateVerdict pkt => execLateVerdict_ends pkt s
  | .limiterRefill => execLimiterRefill_ends s
  | .forwardingLookup pkt => execForwardingLookup_ends pkt s
  | .learnRecordExpiry domain addr => execLearnRecordExpiry_ends domain addr s
  | .agingVisit flow index => execAgingVisit_ends flow index s
  | .tunnelStage pkt => execTunnelStage_ends pkt s
  | .cryptoStage pkt => execCryptoStage_ends pkt s
  | .saCacheFill sa wrapOk => execSaCacheFill_ends sa wrapOk s
  | .stoRxPacket pkt => execStoRxPacket_ends pkt s
  | .stoSend ctx => execStoSend_ends ctx s
  | .delayedAck ctx => execDelayedAck_ends ctx s
  | .ackTimerExpiry ctx => execAckTimerExpiry_ends ctx s
  | .rnrWaitEnd ctx => execRnrWaitEnd_ends ctx s
  | .alphaTimer ctx => execAlphaTimer_ends ctx s
  | .increaseEvent ctx => execIncreaseEvent_ends ctx s
  | .ddpSetup ctx => execDdpSetup_ends ctx s
  | .ddpTeardown ctx => execDdpTeardown_ends ctx s
  | .bufferAdmission pkt => execBufferAdmission_ends pkt s
  | .chargeCorrection pkt => execChargeCorrection_ends pkt s
  | .admissionRetry pkt => execAdmissionRetry_ends pkt s
  | .bufWaitExpiry pkt => execBufWaitExpiry_ends pkt s
  | .xoffEvaluation port pri => execXoffEvaluation_ends port pri s
  | .markAgeScan => execMarkAgeScan_ends s
  | .hrxHoldExpiry pkt => execHrxHoldExpiry_ends pkt s
  | .spillMove pkt => execSpillMove_ends pkt s
  | .spillReadback pkt uncorr => execSpillReadback_ends pkt uncorr s
  | .portDownFlush port => execPortDownFlush_ends port s
  | .peakClear m data => execPeakClear_ends m data s
  | .recircTake pkt => execRecircTake_ends pkt s
  | .recircHoldExpiry pkt => execRecircHoldExpiry_ends pkt s
  | .exitSelect exit => execExitSelect_ends exit s
  | .cutThroughCorrection pkt => execCutThroughCorrection_ends pkt s
  | .shaperRefill shaper => execShaperRefill_ends shaper s
  | .gateArm m port data => execGateArm_ends m port data s
  | .gateSwitch port => execGateSwitch_ends port s
  | .configRequest fn bus dev r => execConfigRequest_ends fn bus dev r s
  | .pcieDlActive face link rate width flit => execPcieDlActive_ends face link rate width flit s
  | .pcieLinkReset face link hot => execPcieLinkReset_ends face link hot s
  | .vfEnable face numVfs => execVfEnable_ends face numVfs s
  | .vfDisable face => execVfDisable_ends face s
  | .bmeClear fn => execBmeClear_ends fn s
  | .bmeSet fn => execBmeSet_ends fn s
  | .vfFlr inst => execVfFlr_ends inst s
  | .d3hotEntry fn => execD3hotEntry_ends fn s
  | .d0Return fn => execD0Return_ends fn s
  | .pmeResend fn => execPmeResend_ends fn s
  | .pmeTurnOff face link => execPmeTurnOff_ends face link s
  | .msixUnmask fn vec whole => execMsixUnmask_ends fn vec whole s
  | .mctpControl face msg => execMctpControl_ends face msg s
  | .pldmRequest face msg => execPldmRequest_ends face msg s
  | .atsInvalidate face fn page pages => execAtsInvalidate_ends face fn page pages s
  | .invalidateDeadline face fn page => execInvalidateDeadline_ends face fn page s
  | .atsTranslation face id r => execAtsTranslation_ends face id r s
  | .queueEnable m face rx q => execQueueEnable_ends m face rx q s
  | .queueStop m face rx q => execQueueStop_ends m face rx q s
  | .queueStopped rx q => execQueueStopped_ends rx q s
  | .queueResume m face rx q => execQueueResume_ends m face rx q s
  | .queueReset m face rx q => execQueueReset_ends m face rx q s
  | .queueResetDone rx q => execQueueResetDone_ends rx q s
  | .lineEnable m face line => execLineEnable_ends m face line s
  | .lineDisable m face line => execLineDisable_ends m face line s
  | .pollIssue line => execPollIssue_ends line s
  | .pollReturn face tag st bytes => execPollReturn_ends face tag st bytes s
  | .descriptorFetch face => execDescriptorFetch_ends face s
  | .txItemHandoff q => execTxItemHandoff_ends q s
  | .txItemComplete q => execTxItemComplete_ends q s
  | .regionClose q => execRegionClose_ends q s
  | .cqEntryReady ring => execCqEntryReady_ends ring s
  | .corbelDrain ring => execCorbelDrain_ends ring s
  | .cqEnable m face ring => execCqEnable_ends m face ring s
  | .cqDisable m face ring => execCqDisable_ends m face ring s
  | .coalesceTimerExpiry ring => execCoalesceTimerExpiry_ends ring s
  | .readIssue face => execReadIssue_ends face s
  | .readCompletion face tag st bytes => execReadCompletion_ends face tag st bytes s
  | .readTimeout face tag => execReadTimeout_ends face tag s
  | .quarantineEnd face tag => execQuarantineEnd_ends face tag s
  | .writeTlp face link chan => execWriteTlp_ends face link chan s
  | .jobSubmit m face count => execJobSubmit_ends m face count s
  | .jobFinish face => execJobFinish_ends face s
  | .flushCompletion face tag => execFlushCompletion_ends face tag s
  | .flushTimeout face tag => execFlushTimeout_ends face tag s
  | .create m face inst => execCreate_ends m face inst s
  | .start m face inst => execStart_ends m face inst s
  | .reset m face inst => execReset_ends m face inst s
  | .remove m face inst => execRemove_ends m face inst s
  | .setShare m face inst => execSetShare_ends m face inst s
  | .resetSequenceDone inst => execResetSequenceDone_ends inst s
  | .mbxDataWrite m chan word data => execMbxDataWrite_ends m chan word data s
  | .go m chan => execGo_ends m chan s
  | .done m chan => execDone_ends m chan s
  | .notify m chan => execNotify_ends m chan s
  | .cancel m chan => execCancel_ends m chan s
  | .mbxEventDelivery chan endB => execMbxEventDelivery_ends chan endB s
  | .mbxBindWrite m chan data => execMbxBindWrite_ends m chan data s
  | .mgrHello face => execMgrHello_ends face s
  | .mboxCreate face => execMboxCreate_ends face s
  | .mboxRemove face => execMboxRemove_ends face s
  | .mboxSetShare face => execMboxSetShare_ends face s
  | .getNotice chan => execGetNotice_ends chan s
  | .tenantHello inst => execTenantHello_ends inst s
  | .resetRequest inst => execResetRequest_ends inst s
  | .upgradeStatus face => execUpgradeStatus_ends face s
  | .upgradeConfirm face => execUpgradeConfirm_ends face s
  | .load m bank => execLoad_ends m bank s
  | .loadComplete bank uncorr => execLoadComplete_ends bank uncorr s
  | .commit m bank => execCommit_ends m bank s
  | .clear m bank => execClear_ends m bank s
  | .emInsert m set replace => execEmInsert_ends m set replace s
  | .emDelete m set => execEmDelete_ends m set s
  | .emRead m set => execEmRead_ends m set s
  | .expWrite m set index => execExpWrite_ends m set index s
  | .expRead m set index => execExpRead_ends m set index s
  | .flowInsert m set replace region => execFlowInsert_ends m set replace region s
  | .flowDelete m set region => execFlowDelete_ends m set region s
  | .flowRead m set region => execFlowRead_ends m set region s
  | .lpmAdd m set => execLpmAdd_ends m set s
  | .lpmDel m set => execLpmDel_ends m set s
  | .rehash m set => execRehash_ends m set s
  | .rehashEnd => execRehashEnd_ends s
  | .saWrite m set index => execSaWrite_ends m set index s
  | .saRead m set index => execSaRead_ends m set index s
  | .saDelete m set index => execSaDelete_ends m set index s
  | .saLimit m set index => execSaLimit_ends m set index s
  | .tlsResync m set index => execTlsResync_ends m set index s
  | .laneDrain m lane => execLaneDrain_ends m lane s
  | .laneOut lane => execLaneOut_ends lane s
  | .laneTest m lane => execLaneTest_ends m lane s
  | .laneTestEnd lane pass => execLaneTestEnd_ends lane pass s
  | .laneReturn m lane => execLaneReturn_ends m lane s
  | .ctxWrite m set index => execCtxWrite_ends m set index s
  | .ctxRead m set index => execCtxRead_ends m set index s
  | .ctxModify m set index => execCtxModify_ends m set index s
  | .ctxDestroy m set index => execCtxDestroy_ends m set index s
  | .keyWrite m set index => execKeyWrite_ends m set index s
  | .keyDelete m set index => execKeyDelete_ends m set index s
  | .pathWrite m set index => execPathWrite_ends m set index s
  | .connResync m set index => execConnResync_ends m set index s
  | .leaseRenew m epoch => execLeaseRenew_ends m epoch s
  | .leaseRelease m epoch => execLeaseRelease_ends m epoch s
  | .leaseEnd => execLeaseEnd_ends s
  | .lockstepMismatch cplx => execLockstepMismatch_ends cplx s
  | .leaseReq m jpos => execLeaseReq_ends m jpos s
  | .takeoverDeadline => execTakeoverDeadline_ends s
  | .handoverLapse => execHandoverLapse_ends s
  | .ckptCommit m slot jpos => execCkptCommit_ends m slot jpos s
  | .ckptDeadline => execCkptDeadline_ends s
  | .complexStart m cplx slot => execComplexStart_ends m cplx slot s
  | .complexStarted cplx testOk verifyOk => execComplexStarted_ends cplx testOk verifyOk s
  | .complexStop m cplx => execComplexStop_ends m cplx s
  | .complexTest m cplx => execComplexTest_ends m cplx s
  | .complexTestEnd cplx pass => execComplexTestEnd_ends cplx pass s
  | .masonDelivery => execMasonDelivery_ends s
  | .xqPop cluster => execXqPop_ends cluster s
  | .xqFreePop cluster => execXqFreePop_ends cluster s
  | .xqRet cluster data stores => execXqRet_ends cluster data stores s
  | .masonReturn cluster => execMasonReturn_ends cluster s
  | .masonNew cluster => execMasonNew_ends cluster s
  | .masonDiscard cluster => execMasonDiscard_ends cluster s
  | .slotHoldExpiry cluster slot => execSlotHoldExpiry_ends cluster slot s
  | .clusterDrain m cluster => execClusterDrain_ends m cluster s
  | .clusterOut cluster => execClusterOut_ends cluster s
  | .clusterTest m cluster => execClusterTest_ends m cluster s
  | .clusterTestEnd cluster pass => execClusterTestEnd_ends cluster pass s
  | .clusterReturn m cluster => execClusterReturn_ends m cluster s
  | .memCorr block => execMemCorr_ends block s
  | .memUncorr block => execMemUncorr_ends block s
  | .memHbmCorr => execMemHbmCorr_ends s
  | .memHbmUncorr addr => execMemHbmUncorr_ends addr s
  | .memProtUncorr addr => execMemProtUncorr_ends addr s
  | .captureAck m cls data => execCaptureAck_ends m cls data s
  | .errpinRelease m data => execErrpinRelease_ends m data s
  | .faultInject m data => execFaultInject_ends m data s
  | .quoinPortEnable m port data => execQuoinPortEnable_ends m port data s
  | .laneAlign port reversed invert => execLaneAlign_ends port reversed invert s
  | .helloTimer port => execHelloTimer_ends port s
  | .hello port msg => execHello_ends port msg s
  | .flitRx port f => execFlitRx_ends port f s
  | .resendTimer port => execResendTimer_ends port s
  | .down port cause => execDown_ends port cause s
  | .quoinLinkLoss port => execQuoinLinkLoss_ends port s
  | .creditWaitExpiry port ch => execCreditWaitExpiry_ends port ch s
  | .quoinDownFlush port => execQuoinDownFlush_ends port s
  | .topoTimer => execTopoTimer_ends s
  | .topo port msg => execTopo_ends port msg s
  | .topoExpiry port => execTopoExpiry_ends port s
  | .moduleLostExpiry module_ => execModuleLostExpiry_ends module_ s
  | .stackRenew m epoch => execStackRenew_ends m epoch s
  | .lease port epoch masterId prio renewSeq => execLease_ends port epoch masterId prio renewSeq s
  | .stackLeaseExpiry => execStackLeaseExpiry_ends s
  | .election => execElection_ends s
  | .epochCmd m epoch => execEpochCmd_ends m epoch s
  | .epoch port leaseEpoch cfgEpoch todNs masterId => execEpoch_ends port leaseEpoch cfgEpoch todNs masterId s
  | .epochActivation => execEpochActivation_ends s
  | .timeTimer => execTimeTimer_ends s
  | .time port tTx echoTx echoRx => execTime_ends port tTx echoTx echoRx s
  | .mbox port action word data => execMbox_ends port action word data s
  | .mbxLinkTimeout port => execMbxLinkTimeout_ends port s
  | .retire m data => execRetire_ends m data s
  | .courseDrain m course => execCourseDrain_ends m course s
  | .courseOut course => execCourseOut_ends course s
  | .courseTest m course => execCourseTest_ends m course s
  | .courseTestEnd course pass => execCourseTestEnd_ends course pass s
  | .courseReturn m course => execCourseReturn_ends m course s
  | .svnRaise m data => execSvnRaise_ends m data s
  | .svnFuseEnd => execSvnFuseEnd_ends s
  | .standbyPowerOn vstbyCv vinCv => execStandbyPowerOn_ends vstbyCv vinCv s
  | .standbyPowerLoss => execStandbyPowerLoss_ends s
  | .vinRangeExit vinCv => execVinRangeExit_ends vinCv s
  | .tempWarnClear tj hbm0 hbm1 => execTempWarnClear_ends tj hbm0 hbm1 s
  | .rsFaultChange port align localFault remoteFault => execRsFaultChange_ends port align localFault remoteFault s
  | .l1Entry face link substate => execL1Entry_ends face link substate s
  | .l1Exit face link => execL1Exit_ends face link s

end Sys2Proof.Machine
end

