-- ==== Sys2Proof/Laws/Memory.lean ====
section
/-! SUPPORT. The byte-addressed memories: every write keeps the canonical form, and reset's memories have it. -/

set_option Elab.async false

namespace Sys2Proof.Machine

theorem memWrite_wf {m : Mem} (h : mapWf 0 m = true) (a : Nat) (b : Byte) : mapWf 0 (memWrite m a b) = true :=
  mapWf_mapSet h a b

theorem memWriteBytes_wf {m : Mem} (h : mapWf 0 m = true) (a : Nat) (bs : List Byte) :
    mapWf 0 (memWriteBytes m a bs) = true := by
  induction bs generalizing m a with
  | nil => exact h
  | cons b bs ih => exact ih (memWrite_wf h a b) (a + 1)

@[simp] theorem memRead_memWrite_self (m : Mem) (a : Nat) (b : Byte) : memRead (memWrite m a b) a = b :=
  mapGet_mapSet_self 0 m a b

theorem memRead_memWrite_ne (m : Mem) {a x : Nat} (b : Byte) (h : x ≠ a) : memRead (memWrite m a b) x = memRead m x :=
  mapGet_mapSet_ne 0 m b h

theorem reset_hbm_wf : mapWf 0 State.reset.ksc.hbm = true := rfl

theorem reset_sram_wf : ∀ c ∈ State.reset.ksc.cplx, mapWf 0 c.sram = true := by decide

theorem reset_mason_wf : ∀ c ∈ State.reset.xpe.clusters, mapWf 0 c.mem = true := by decide

end Sys2Proof.Machine
end

