-- ==== Sys2Proof/Tests/Slice0.lean ====
section
/-! SUPPORT. Tests: small worked examples of the spec and check values; ill-formed commands; the state after reset; and for
every statement, clause by clause, a concrete state and operands that meet its premises (`premises_<statement>`). -/

set_option maxRecDepth 100000
set_option Elab.async false

namespace Sys2Proof

open Machine

/-! ### A running module -/

/-- A PCIe function that takes requests, with one MSI-X vector. -/
def W.nic : PciFn := { bme := true, mse := true, msixEn := true, pmeEn := true, aspm := 2
                       msix := [(0, { addr := 0x1000, data := 5, masked := false })] }
/-- A released module with every unit ready, its links in L0, instance 0 STARTED and instance 1 CREATED, and complex A
holding the lease. -/
def W.up : State := { State.reset with
  supply := { standby := true, phase := .good, vinCv := 1200, vstbyCv := 500, perstN := [true, true, true, true] }
  clocks := { hkclk := true, lrefa := true, lrefb := true, pcie := [true, true, true, true]
              lrefaAtRelease := true, lrefbAtRelease := true }
  tsu := { tick := 3000000, todNs := 7000000000, refOk := true }
  bring := { phase := .released, everReleased := true, readySub := 0x1FFFFF, readyPort := 0xFFFFFFFF, readyFace := 15
             readyQuoin := 15, readyCourse := 15, btlState := 4, btlSlot := 0 }
  host := { faces := [{ inReset := false }, { firstInst := 512, inReset := false }, { firstInst := 1024, inReset := false },
                      { firstInst := 1536, inReset := false }]
            links := [(0, { state := .l0, rate := 4, width := 16 }), (2, { state := .l0, rate := 4, width := 16 }),
                      (4, { state := .l0, rate := 4, width := 16 }), (6, { state := .l0, rate := 4, width := 16 })]
            fns := [(0, W.nic), (1, W.nic), (2048, { W.nic with vfEnable := true, numVfs := 8, vfMse := true }), (2049, W.nic)] }
  glb := { faceWr := [0x1FFFFF, 0, 0, 0] }
  ivm := { insts := [(0, { state := .started, prior := .started, gen := 3
                           grant := { txUnits := 1, txBase := 20, rxUnits := 1, rxBase := 20, cqUnits := 1, cqBase := 20
                                      saUnits := 1, qpUnits := 1, flowParts := 1, hotSlots := 4 } }),
                     (1, { state := .created, prior := .created })], helloVer := [1, 1, 1, 1] }
  ksc := { cplx := [{ state := .active }, {}], held := true, epoch := 1, leaseEnd := 3050000 }
  xpe := { clusters := [{ state := .inService }, { state := .inService }, {}, {}] } }

/-- The first bytes of an IPv4 UDP frame. -/
def W.ipp : List Byte :=
  List.replicate 12 0x22 ++ [8, 0] ++ [0x45, 0, 0, 60, 0, 1, 0, 0, 64, 17, 0, 0, 10, 0, 0, 1, 10, 0, 0, 2]
  ++ [0, 53, 0, 80, 0, 40, 0, 0] ++ List.replicate 60 0x11

/-! ### Well-formedness -/

/-- Each command has one operand out of its range (1). -/
theorem test_wf_refuses1 : ∀ i ∈ (
  [.perstNFall 4, .unitReady (.course 4) false, .blockResetDone 21, .forceStepWrite (.pf 4) 0,
   .forceStepWrite (.fw 0 1) (2 ^ 32), .todSet (.pf 4) 0, .todSet (.fw 0 1) (2 ^ 64), .smbusRead 256,
   .registerWrite (.pf 4) 0 4 0, .registerWrite (.fw 0 1) 0 4 4294967296, .admitSlotsWrite (.pf 4) 0 0 0,
   .admitSlotsWrite (.fw 0 1) 4 0 0, .admitSlotsWrite (.fw 0 1) 0 8 0, .admitSlotsWrite (.fw 0 1) 0 0 (2 ^ 32),
   .splitWrite (.pf 4) 0 0, .splitWrite (.fw 0 1) 4 0, .splitWrite (.fw 0 1) 0 (2 ^ 32), .portEnable (.pf 4) 0 0,
   .portEnable (.fw 0 1) 32 0, .portEnable (.fw 0 1) 0 (2 ^ 32), .lineLinkUp 32 false, .pauseTimerExpiry 32 0,
   .pauseTimerExpiry 0 8, .statClear (.pf 4) false 0, .statClear (.fw 0 1) false (2 ^ 32),
   .saCacheFill 4194304 false, .stoSend 1048576, .exitSelect 64, .configRequest 2056 0 0 .other,
   .configRequest 0 256 0 .other, .configRequest 0 0 32 .other, .pcieDlActive 4 0 0 0 false,
   .pcieDlActive 0 2 0 0 false, .vfEnable 4 0, .vfEnable 0 65536, .bmeClear 2056, .vfFlr 2048,
   .resetSequenceDone 2052, .msixUnmask 2056 0 false, .msixUnmask 0 256 false, .mctpControl 4 [],
   .atsInvalidate 4 0 0 0, .atsInvalidate 0 2056 0 0, .atsTranslation 4 0 .fail, .queueEnable (.pf 4) 0 false 0,
   .queueEnable (.fw 0 1) 4 false 0, .queueEnable (.fw 0 1) 0 false 16384, .queueStopped false 16384,
   .lineEnable (.pf 4) 0 0, .lineEnable (.fw 0 1) 4 0, .lineEnable (.fw 0 1) 0 8192, .pollIssue 8192,
   .pollReturn 4 0 .ok [], .pollReturn 0 32768 .ok [], .readTimeout 4 0, .readTimeout 0 32768, .cqEntryReady 8192,
   .cqEnable (.pf 4) 0 0, .cqEnable (.fw 0 1) 4 0, .cqEnable (.fw 0 1) 0 8192] : List Instr), i.wf = false := by
  decide +kernel

/-- Each command has one operand out of its range (2). -/
theorem test_wf_refuses2 : ∀ i ∈ (
  [.writeTlp 4 0 0, .writeTlp 0 2 0, .writeTlp 0 0 8, .jobSubmit (.pf 4) 0 0, .jobSubmit (.fw 0 1) 4 0,
   .jobSubmit (.fw 0 1) 0 (2 ^ 32), .create (.pf 4) 0 0, .create (.fw 0 1) 4 0, .create (.fw 0 1) 0 4096,
   .mbxDataWrite (.pf 4) 0 0 0, .mbxDataWrite (.fw 0 1) 2056 0 0, .mbxDataWrite (.fw 0 1) 0 16 0,
   .mbxDataWrite (.fw 0 1) 0 0 (2 ^ 32), .go (.pf 4) 0, .go (.fw 0 1) 2056, .mbxEventDelivery 2056 false,
   .mbxBindWrite (.pf 4) 0 0, .mbxBindWrite (.fw 0 1) 2052 0, .mbxBindWrite (.fw 0 1) 0 (2 ^ 32), .load (.pf 4) 0,
   .load (.fw 0 1) 2, .loadComplete 2 false, .emInsert (.pf 4) 0 false, .emInsert (.fw 0 1) 5 false,
   .expWrite (.pf 4) 0 0, .expWrite (.fw 0 1) 5 0, .expWrite (.fw 0 1) 0 4096, .flowInsert (.pf 4) 0 false 0,
   .flowInsert (.fw 0 1) 5 false 0, .flowInsert (.fw 0 1) 0 false 2112, .saWrite (.pf 4) 0 0, .saWrite (.fw 0 1) 5 0,
   .saWrite (.fw 0 1) 0 4194304, .laneDrain (.pf 4) 0, .laneDrain (.fw 0 1) 8, .laneOut 8, .ctxWrite (.pf 4) 0 0,
   .ctxWrite (.fw 0 1) 5 0, .ctxWrite (.fw 0 1) 0 2097152, .leaseRenew (.pf 4) 0, .leaseRenew (.fw 0 1) 65536,
   .lockstepMismatch 2, .leaseReq (.pf 4) 0, .leaseReq (.fw 0 1) (2 ^ 32), .ckptCommit (.pf 4) 0 0,
   .ckptCommit (.fw 0 1) 2 0, .ckptCommit (.fw 0 1) 0 (2 ^ 48), .complexStart (.pf 4) 0 0,
   .complexStart (.fw 0 1) 2 0, .complexStart (.fw 0 1) 0 2, .complexStop (.pf 4) 0, .complexStop (.fw 0 1) 2,
   .xqPop 4, .xqRet 4 0 [], .xqRet 0 (2 ^ 32) [], .slotHoldExpiry 4 0, .slotHoldExpiry 0 128,
   .clusterDrain (.pf 4) 0, .clusterDrain (.fw 0 1) 4, .captureAck (.pf 4) 0 0] : List Instr), i.wf = false := by
  decide +kernel

/-- Each command has one operand out of its range (3). -/
theorem test_wf_refuses3 : ∀ i ∈ (
  [.captureAck (.fw 0 1) 4 0, .captureAck (.fw 0 1) 0 (2 ^ 32), .quoinPortEnable (.pf 4) 0 0,
   .quoinPortEnable (.fw 0 1) 4 0, .quoinPortEnable (.fw 0 1) 0 (2 ^ 32), .laneAlign 4 false 0,
   .creditWaitExpiry 4 0, .creditWaitExpiry 0 9, .moduleLostExpiry 4, .courseDrain (.pf 4) 0,
   .courseDrain (.fw 0 1) 4, .courseOut 4, .vinRise 4096, .standbyPowerOn 4096 0, .standbyPowerOn 0 4096,
   .thermalTrip (-129) 25 25, .thermalTrip 25 (-129) 25, .thermalTrip 25 25 (-129), .portEnable (.vf 2048) 0 0,
   .portEnable (.fw 2 0) 0 0, .portEnable (.fw 0 65536) 0 0, .unitReady (.block 21) true, .unitReady (.port 32) true,
   .unitReady (.quoin 4) true, .thermalTrip 25 25 128] : List Instr), i.wf = false := by
  decide +kernel

/-- The same commands in range. -/
theorem test_wf_accepts : ∀ i ∈ (
  [.perstNFall 0, .unitReady (.course 3) false, .blockResetDone 0, .forceStepWrite (.fw 0 1) 0, .todSet (.fw 0 1) 0,
   .smbusRead 0, .registerWrite (.fw 0 1) 0 4 0, .admitSlotsWrite (.fw 0 1) 0 0 0, .splitWrite (.fw 0 1) 0 0,
   .portEnable (.fw 0 1) 0 0, .lineLinkUp 0 false, .pauseTimerExpiry 0 0, .statClear (.fw 0 1) false 0,
   .saCacheFill 0 false, .stoSend 0, .exitSelect 0, .configRequest 0 0 0 .other, .pcieDlActive 0 0 0 0 false,
   .vfEnable 0 0, .bmeClear 0, .vfFlr 0, .resetSequenceDone 0, .msixUnmask 0 0 false, .mctpControl 0 [],
   .atsInvalidate 0 0 0 0, .atsTranslation 0 0 .fail, .queueEnable (.fw 0 1) 0 false 0, .queueStopped false 0,
   .lineEnable (.fw 0 1) 0 0, .pollIssue 0, .pollReturn 0 0 .ok [], .readTimeout 0 0, .cqEntryReady 0,
   .cqEnable (.fw 0 1) 0 0, .writeTlp 0 0 0, .jobSubmit (.fw 0 1) 0 0, .create (.fw 0 1) 0 0,
   .mbxDataWrite (.fw 0 1) 0 0 0, .go (.fw 0 1) 0, .mbxEventDelivery 0 false, .mbxBindWrite (.fw 0 1) 0 0,
   .load (.fw 0 1) 0, .loadComplete 0 false, .emInsert (.fw 0 1) 0 false, .expWrite (.fw 0 1) 0 0,
   .flowInsert (.fw 0 1) 0 false 0, .saWrite (.fw 0 1) 0 0, .laneDrain (.fw 0 1) 0, .laneOut 0,
   .ctxWrite (.fw 0 1) 0 0, .leaseRenew (.fw 0 1) 0, .lockstepMismatch 0, .leaseReq (.fw 0 1) 0,
   .ckptCommit (.fw 0 1) 0 0, .complexStart (.fw 0 1) 0 0, .complexStop (.fw 0 1) 0, .xqPop 0, .xqRet 0 0 [],
   .slotHoldExpiry 0 0, .clusterDrain (.fw 0 1) 0, .captureAck (.fw 0 1) 0 0, .quoinPortEnable (.fw 0 1) 0 0,
   .laneAlign 0 false 0, .creditWaitExpiry 0 0, .moduleLostExpiry 0, .courseDrain (.fw 0 1) 0, .courseOut 0,
   .vinRise 0, .standbyPowerOn 0 0, .thermalTrip 25 25 25] : List Instr), i.wf = true := by
  decide +kernel

/-! ### Statements about every step -/

theorem premises_StepTakesTheFront : W.up.pending = [] := by decide +kernel

/-- A released module with a revoked key slot whose queue holds a register write and a supply event. -/
def W.revoked : State := { W.up with
  fuses := { W.up.fuses with minSvn := 3, revoked := 2 }
  pending := [.thermNFall, .registerWrite (.pf 0) 0 4 0] }

theorem premises_FusesNeverGoBack :
    3 ≤ W.revoked.fuses.minSvn ∧ bitOf W.revoked.fuses.revoked 1 = true ∧ ∃ t, step W.revoked = .next t :=
  ⟨by decide +kernel, by decide +kernel, _, rfl⟩

theorem premises_DrainedBanksAreFreed : W.revoked.banksHeld ∧ ∃ t, step W.revoked = .next t := by
  refine ⟨?_, _, rfl⟩
  unfold State.banksHeld
  decide +kernel

theorem premises_EventsStayInside :
    let s := W.up.raise 26 0
    s.released = true ∧ s.eventPending 26 = true ∧ s.mild 23 := by
  unfold State.mild
  decide +kernel

/-- A route of another VRF. -/
def W.otherRoute : Route := { vrf := 9, v6 := false, pfx := 0, len := 0, dest := 3 }

/-- A full IPv4 route table (spec/13 R393). -/
def W.routesFull : State := { W.up with fwd := { W.up.fwd with routes := List.replicate 4194304 W.otherRoute } }

theorem W.replicate_any {α : Type} (n : Nat) (a : α) (f : α → Bool) (h : f a = false) : (List.replicate n a).any f = false := by
  simp [List.any_replicate, h]

theorem W.replicate_filter {α : Type} (n : Nat) (a : α) (f : α → Bool) (h : f a = true) :
    ((List.replicate n a).filter f).length = n := by
  simp [h]

theorem premises_FlowsAndRoutesAreKept_full :
    let set : Nat := 0; let m : Master := .pf 0; let s : State := W.routesFull
    (set = 4 → m.isFw = true) ∧ s.released = true ∧ s.writes m (blockBase 10 + 0x5000 + 0x100 * set)
      ∧ (s.fwd.sets.getD set {}).busy = false ∧ s.ready 16 = true ∧
      ∃ q ∈ s.routeArg set, destOk (bitsOf (s.fwdArg set 5) 0 27) false = true
        ∧ s.fwd.routes.any (fun p => p.same q) = false
        ∧ (if q.v6 then 2097152 else 4194304) ≤ s.routesHeld q.v6 := by
  refine ⟨by decide, by decide +kernel, by unfold State.writes State.reaches; decide +kernel, by decide +kernel,
    by decide +kernel, { vrf := 0, v6 := false, pfx := 0, len := 0, dest := 0 }, by decide +kernel, by decide +kernel, ?_, ?_⟩
  · exact W.replicate_any _ W.otherRoute _ (by decide +kernel)
  · exact le_of_eq (W.replicate_filter 4194304 W.otherRoute _ (by decide +kernel)).symm

/-! ### Reset (spec/03, spec/04 R111) -/

/-- Nothing is powered, nothing is ready, no packet, no command waits. -/
theorem test_reset :
    State.reset.supply.standby = false ∧ State.reset.supply.phase = .off ∧ State.reset.released = false
      ∧ (∀ b, b < 21 → State.reset.ready b = false) ∧ State.reset.packets = [] ∧ State.reset.pending = []
      ∧ State.reset.now = 0 := by decide +kernel

/-- Register resets: TSU_TOD_ADJ 0 (spec/02 R62), FWD_LEARN_CFG 10 (spec/13), the start type of LRX is Ethernet
(spec/11 R317), and the hash seed is all ones (spec/11 R336). -/
theorem test_reset_registers :
    State.reset.word Reg.tsuTodAdj [] = 0 ∧ State.reset.word Reg.fwdLearnCfg [] = 10
      ∧ State.reset.fld Reg.prsActCfg [0] 0 6 = 1 ∧ State.reset.word Reg.prsHashSeed [0] = 0xFFFFFFFF := by decide +kernel

/-- The memories that spec/18 gives Keystone hold nothing and are canonical. -/
theorem test_reset_memory : mapWf 0 State.reset.ksc.hbm = true ∧ memRead State.reset.ksc.hbm 5 = 0 := by decide +kernel

/-! ### One step -/

/-- The way from power to a running block begins: standby power, then VIN, then the housekeeping clock (log 1). -/
theorem test_power_on :
    ∃ t, exec (.standbyPowerOn 500 0) State.reset = .next t ∧ t.supply.standby = true ∧ t.supply.phase = .off := by
  refine ⟨_, rfl, ?_⟩
  decide +kernel

/-- VIN_RISE before the standby supply is up: the precondition does not hold, and the supply state stays. -/
theorem test_vin_rise : ∃ t, exec (.vinRise 1200) State.reset = .next t ∧ t.supply = State.reset.supply := by
  refine ⟨_, rfl, ?_⟩
  decide +kernel

/-- A step on an empty queue idles (log 14); one with two commands takes the first. -/
theorem test_queue :
    step W.up = .next W.up ∧ ∃ t, step W.revoked = .next t ∧ t.supply.thermN = false ∧ t.pending.length = 1 := by
  refine ⟨rfl, _, rfl, ?_⟩
  decide +kernel

/-- The example of spec/02: the VIN droop trigger takes the governor to step 1 and sets cause_vin. -/
theorem test_pace_trigger :
    ∃ t, exec (.paceTrigger .vin) W.up = .next t ∧ t.pace.natural = 1 ∧ t.pace.causeVin = true
      ∧ t.pace.settleEnd = some (W.up.now + 100) := by
  refine ⟨_, rfl, ?_⟩
  decide +kernel

/-- The manager of face 1 may not write block 0: its write of TSU_CTL changes nothing there (spec/06 R170). -/
theorem test_write_denied :
    ∃ t, exec (.registerWrite (.pf 1) 0x10000 4 1) W.up = .next t ∧ t.word Reg.tsuCtl [] = W.up.word Reg.tsuCtl [] := by
  refine ⟨_, rfl, ?_⟩
  decide +kernel

/-- A write by the lease holder stamped with an older epoch is refused and logged (spec/18 R550). -/
theorem test_stale_write :
    ∃ t, exec (.todAdjWrite (.fw 0 7) 5) W.up = .next t ∧ t.word Reg.tsuTodAdj [] = 0 := by
  refine ⟨_, rfl, ?_⟩
  decide +kernel

/-- The lease ends: the active complex fails and the other starts (spec/18 R554, R555). -/
theorem test_lease_end :
    ∃ t, exec .leaseEnd { W.up with tsu := { W.up.tsu with tick := 3050000 } } = .next t
      ∧ (t.ksc.cplx.map (·.state)).headD .off = .failed ∧ t.ksc.held = false := by
  refine ⟨_, rfl, ?_⟩
  decide +kernel

/-- TSU_SNAP takes the tick count and the time-of-day (spec/02 R61). -/
theorem test_snapshot :
    ∃ t, exec (.tsuSnap (.fw 0 1) 1) W.up = .next t ∧ t.tsu.snapTick = 3000000 ∧ t.tsu.snapTod = 7000000000 := by
  refine ⟨_, rfl, ?_⟩
  decide +kernel

/-! ### Worked examples and check values -/

/-- The bytes of the check string "123456789" of the catalogue of CRC algorithms. -/
def W.check : List Byte := [0x31, 0x32, 0x33, 0x34, 0x35, 0x36, 0x37, 0x38, 0x39]

/-- The FCS: CRC-32/ISO-HDLC of the check string is 0xCBF43926. -/
theorem test_crc32_check : crc32 W.check = 0xCBF43926 := by decide +kernel

/-- CRC-32C of the check string is 0xE3069283. -/
theorem test_crc32c_check : crc32c W.check = 0xE3069283 := by decide +kernel

/-- CRC-16/T10-DIF of the check string is 0xD0DB. -/
theorem test_crcT10_check : crcT10 W.check = 0xD0DB := by decide +kernel

/-- The example of spec/01: the ports of module 1, the age at step 8, and ts extended at step 10. -/
theorem test_mark_example :
    globalPort 1 5 = 0x45 ∧ globalPort 1 32 = 0x60 ∧ markAge (0x312A05F200 + 310) 0x2A05F200 = 310
      ∧ tsExtend 0x000000312A05F463 0x2A05F200 = 0x000000312A05F200 := by decide +kernel

/-- The example of spec/02: tick 4,999,000,000 against a snapshot at tick 5,000,000,000 with adj 429,497. -/
theorem test_tick_to_tod :
    ({ (W.up.setWord Reg.tsuTodAdj [] 429497) with
        tsu := { W.up.tsu with tick := 5000000000, todNs := 1700000000000000000 } } : State).tickToTod 4999000000
      = 1699999999998999900 := by decide +kernel

/-- The example of spec/05: 0x25 in LSD_OCTET_CFG_2 forms P16 (4 lanes), P20 and P21 (1 lane) and P22 (2 lanes). -/
theorem test_octet_split :
    let t := (State.splitWrite (.fw 0 1) 2 0x25 W.up).1
    t.line.applied.getD 2 0 = 0x25 ∧ t.portLanes 16 = 4 ∧ t.portLanes 20 = 1 ∧ t.portLanes 21 = 1 ∧ t.portLanes 22 = 2 := by
  decide +kernel

/-- The example of spec/09: 1,500 bytes at 0x7A30_0FF3 with MRRS 512 take four requests. -/
theorem test_read_requests :
    pieces 512 0x7A300FF3 1500 = [(0x7A300FF3, 13), (0x7A301000, 512), (0x7A301200, 512), (0x7A301400, 463)] := by
  decide +kernel

/-- Completion Timeout Value 0001b is 80,000 ticks, 0000b 16 ms (spec/09 R267). -/
theorem test_completion_timeout : ctoTicks 1 = 80000 ∧ ctoTicks 0 = 16000000 ∧ ctoTicks 2 = 8000000 := by decide +kernel

/-- The example of spec/11: IPv6 carrying Geneve carrying an IPv4 TCP segment, its first 256 bytes, with the edges and nodes
of module reset. -/
def W.geneve : List Byte :=
  List.replicate 12 0x22 ++ [0x86, 0xDD] ++ [0x60, 0, 0, 0] ++ toBe 2 1130 ++ [17, 64] ++ List.replicate 32 1
  ++ [0x30, 0x39] ++ toBe 2 6081 ++ toBe 2 1130 ++ [0, 0] ++ [30, 0, 0x65, 0x58] ++ List.replicate 124 0
  ++ List.replicate 12 0x33 ++ [0x08, 0x00] ++ [0x45, 0] ++ toBe 2 980 ++ [0, 0, 0, 0, 64, 6, 0, 0] ++ List.replicate 8 9
  ++ List.replicate 12 0 ++ [0x50, 0] ++ List.replicate 18 0

theorem test_parser_example :
    let w := W.up.walkFrame .lrx W.geneve none
    w.hdrs = [(1, 0), (7, 14), (12, 54), (18, 62), (1, 190), (6, 204), (13, 224)] ∧ w.bound = some 1184
      ∧ w.ended = none ∧ w.badLen = false ∧ w.wait = false := by decide +kernel

/-- The example of spec/12: a refill of limiter 2 adds 2,000 milli-packets and never passes the burst. -/
theorem test_limiter_refill :
    let s := W.up.setWord Reg.clsExcLim [2] (2000 + 100 * 65536)
    let held := fun (v : Nat) => ({ s with
      tsu := { s.tsu with tick := 3001000 }, rules := { s.rules with limiters := [(2, { tokens := v })] } } : State)
    (mapGet {} (held 40000).refillLimiters.rules.limiters 2).tokens = 42000
      ∧ (mapGet {} (held 99000).refillLimiters.rules.limiters 2).tokens = 100000 := by decide +kernel

/-- The example of spec/13: the sightings at ticks 6,000 and 8,000 of a station that moved between P3 and P9. -/
theorem test_learn_example :
    let s := { W.up with fwd := { W.up.fwd with filter :=
      [{ domain := 20, addr := 7, port := 0x43, expires := 3004000 }] } }
    let t := s.sighting 1 20 7 0x49 0
    t.2 = true ∧ (t.1.sighting 1 20 7 0x43 0).2 = false ∧ (s.sighting 1 20 7 0x43 0).2 = false := by decide +kernel

/-- The example of spec/17: a refill at 10 Gb/s with k = 3 adds 320 bytes while a frame waits; without one the credit of an
idle shaper rises no further than 0. -/
theorem test_shaper_refill :
    let y : Shaper := { en := true, rate := 10000, k := 3, cbs := 3200, credit := -1538 * 2 ^ 24 }
    let s := { ((W.up.setWord Reg.tmsNodeShp0 [1323] (2 ^ 31 + 3 * 2 ^ 20 + 10000)).setWord Reg.tmsNodeShp1 [1323] 3200) with
      tsu := { W.up.tsu with tick := 3000064 }, tms := { W.up.tms with shapers := [(2347, y)] } }
    ((s.refill 2347).shaper 2347).credit = -1218 * 2 ^ 24 := by decide +kernel


/-! ### The premises of the statements -/

def W.cold : State := {}
def W.sb : State := { supply := { standby := true, vstbyCv := 500, vinCv := 100 } }
def W.ovp : State :=
  { supply := { standby := true, vstbyCv := 500, vinCv := 2000, ovpOpen := true, ovpSeen := true }, clocks := { hkclk := true } }
def W.wc : State := { supply := { standby := true, phase := .waitClock, vinCv := 1200 } }
def W.uploss : State := { W.up with clocks := { W.up.clocks with hkclk := false } }
def W.powerAndReferencesNop : State := { W.up with csc := { W.up.csc with ports := [] } }

/-- Premises of PowerAndReferences, clause by clause. -/
theorem premises_PowerAndReferences :
  (let s : State := W.cold; s.banksHeld ∧ s.released = false ∧ s.supply.tripLatch = false ∧ let a : Nat := 0; a < 4096 ∧
    let v : Nat := 450; v < 4096 ∧ s.supply.phase = .off ∧ s.supply.ovpOpen = false ∧ s.supply.standby = false ∧
    (450 ≤ a ∨ 450 ≤ v)) ∧
  (let s : State := W.sb; s.banksHeld ∧ s.released = false ∧ s.supply.tripLatch = false ∧ s.supply.phase = .off ∧
    s.supply.ovpOpen = false ∧ s.supply.standby = true ∧ s.supply.vinCv < 440 ∧ let v : Nat := 440; 440 ≤ v ∧
    v < 1950) ∧
  (let s : State := W.wc; s.banksHeld ∧ s.released = false ∧ s.supply.tripLatch = false ∧ s.supply.phase = .waitClock ∧
    s.clocks.hkclk = false ∧ s.clocks.hkInternal = false) ∧
  (let s : State := W.ovp; s.banksHeld ∧ s.released = false ∧ s.supply.tripLatch = false ∧ s.supply.phase = .off ∧
    s.supply.standby = true ∧ s.supply.ovpOpen = true ∧ let v : Nat := 440; 440 ≤ v ∧ v < 1900) ∧
  (let s : State := W.uploss; s.banksHeld ∧ s.supply.phase = .good ∧ s.clocks.hkclk = false) ∧
  (let s : State := W.cold; s.banksHeld) ∧
  (let s : State := W.cold; s.banksHeld ∧ let f : Nat := 0; f < 4) ∧
  (let s : State := W.powerAndReferencesNop; s.banksHeld ∧ s.clocks.lrefa = true ∧
    (s.released = false ∨ (s.line.ports = [] ∧ s.csc.ports = []))) ∧
  (let s : State := W.up; s.banksHeld ∧ s.clocks.lrefb = true ∧ (s.released = false ∨ s.line.ports = [])) ∧
  (let s : State := W.cold; s.banksHeld ∧ let f : Nat := 0; f < 4 ∧ s.stoHeld ∧
    (s.released = false ∨ (s.face f).inReset = true)) := by
  refine ⟨?_, ?_, ?_, ?_, ?_, ?_, ?_, ?_, ?_, ?_⟩
  all_goals (try unfold State.stoHeld)
  all_goals (try unfold State.banksHeld)
  all_goals decide +kernel


/-- Premises of RailsAndModuleReset, clause by clause. -/
theorem premises_RailsAndModuleReset :
  (let s : State := W.up; s.supply.standby = true ∧ let v : Nat := 0; v < 410 ∧ 410 ≤ s.supply.vinCv ∧
    s.supply.vstbyCv ≠ 0) ∧
  (let s : State := W.up; s.supply.standby = true ∧ let v : Nat := 1950; 1950 ≤ v ∧ v < 4096 ∧ s.supply.vinCv < 1950) ∧
  (let s : State := W.up; s.supply.standby = true ∧ let tj : Int := -128; -128 ≤ tj ∧ tj ≤ 127 ∧ let h0 : Int := -128;
    -128 ≤ h0 ∧ h0 ≤ 127 ∧ let h1 : Int := 105; -128 ≤ h1 ∧ h1 ≤ 127 ∧ s.supply.phase ≠ .off ∧
    (115 ≤ tj ∨ 105 ≤ h0 ∨ 105 ≤ h1)) ∧
  (let s : State := W.up; s.supply.standby = true) ∧
  (let s : State := W.up; s.supply.standby = true ∧ s.supply.mrstN = true ∧ s.supply.tripLatch = false ∧
    s.bring.phase ≠ .module) := by
  refine ⟨?_, ?_, ?_, ?_, ?_⟩
  all_goals decide +kernel

def W.supplyReportsBad : State := { W.up with supply := { W.up.supply with vinRangeErr := true } }
def W.supplyReportsTh : State := W.up.setWord Reg.pwrThermCtl [] (W.up.word Reg.pwrThermCtl [] + 2^16)
def W.supplyReportsRf : State := {(W.up.setWord Reg.fltSrcCfg [25] 2) with flt := {}}

/-- Premises of SupplyReports, clause by clause. -/
theorem premises_SupplyReports :
  (let s : State := W.up; s.banksHeld ∧ s.released = true ∧ s.supply.standby = true ∧ let v : Nat := 410;
    ((410 ≤ v ∧ v < 450) ∨ (1800 < v ∧ v < 1950)) ∧ s.supply.vinRangeErr = false ∧ s.mild 20) ∧
  (let s : State := W.supplyReportsBad; s.banksHeld ∧ s.released = true ∧ s.supply.standby = true ∧ let v : Nat := 450;
    450 ≤ v ∧ v ≤ 1800 ∧ s.supply.vinRangeErr = true ∧ 410 ≤ s.supply.vinCv) ∧
  (let s : State := W.up; s.banksHeld ∧ s.released = true ∧ s.supply.standby = true ∧
    s.bit Reg.pwrThermCtl [] 16 = true ∧ s.mild 23) ∧
  (let s : State := W.supplyReportsTh; s.banksHeld ∧ s.released = true ∧ s.supply.standby = true ∧
    s.bit Reg.pwrThermCtl [] 16 = false) ∧
  (let s : State := W.supplyReportsRf; s.banksHeld ∧ s.released = true ∧ s.supply.standby = true ∧
    s.supply.phase = .good ∧ 450 ≤ s.supply.vinCv ∧ s.supply.vinCv ≤ 1800 ∧ s.mild 25) ∧
  (let s : State := W.up; s.banksHeld ∧ s.released = true ∧ s.supply.standby = true ∧ s.supply.phase = .good ∧
    s.clocks.hkclk = true ∧ s.mild 24) ∧
  (let s : State := W.up; s.banksHeld ∧ s.released = true ∧ s.supply.phase = .good ∧ let tj : Int := 127; -128 ≤ tj ∧
    tj ≤ 127 ∧ let h0 : Int := -128; -128 ≤ h0 ∧ h0 ≤ 127 ∧ let h1 : Int := -128; -128 ≤ h1 ∧ h1 ≤ 127 ∧
    signedOf 8 (s.fld Reg.pwrThermCtl [] 0 8) ≤ tj ∧ s.supply.tjWarn = false ∧
    max h0 h1 < signedOf 8 (s.fld Reg.pwrThermCtl [] 8 8) ∧ s.mild 21) ∧
  (let s : State := W.up; s.banksHeld ∧ s.released = true ∧ s.supply.phase = .good ∧ let tj : Int := -128; -128 ≤ tj ∧
    tj ≤ 127 ∧ let h0 : Int := -128; -128 ≤ h0 ∧ h0 ≤ 127 ∧ let h1 : Int := 90; -128 ≤ h1 ∧ h1 ≤ 127 ∧
    signedOf 8 (s.fld Reg.pwrThermCtl [] 8 8) ≤ max h0 h1 ∧ s.supply.hbmWarn = false ∧
    tj < signedOf 8 (s.fld Reg.pwrThermCtl [] 0 8) ∧ s.mild 22) ∧
  (let s : State := W.up; s.banksHeld ∧ s.released = true ∧ s.supply.phase = .good ∧ let tj : Int := -128; -128 ≤ tj ∧
    tj ≤ 127 ∧ let h0 : Int := -128; -128 ≤ h0 ∧ h0 ≤ 127 ∧ let h1 : Int := -128; -128 ≤ h1 ∧ h1 ≤ 127 ∧
    tj ≤ signedOf 8 (s.fld Reg.pwrThermCtl [] 0 8) - 3 ∧
    max h0 h1 ≤ signedOf 8 (s.fld Reg.pwrThermCtl [] 8 8) - 3) := by
  refine ⟨?_, ?_, ?_, ?_, ?_, ?_, ?_, ?_, ?_⟩
  all_goals (try unfold State.banksHeld)
  all_goals (try unfold State.mild)
  all_goals decide +kernel

def W.paceGovernsN1 : State := { W.up with pace := { natural := 1, settleEnd := some 3000000, condEst := true } }
def W.paceGovernsN1c : State := { W.up with pace := { natural := 1, settleEnd := some 2999999 } }
def W.paceGovernsH1 : State := { W.up with pace := { natural := 1, holdEnd := some 3000000 } }
def W.paceGovernsH2 : State := { W.up with pace := { natural := 2, holdEnd := some 2900000 } }

/-- Premises of PaceGoverns, clause by clause. -/
theorem premises_PaceGoverns :
  (let s : State := W.up; s.banksHeld ∧ s.released = true ∧ s.ready 1 = true ∧ s.fld Reg.pwrPaceCtl [] 16 2 = 0 ∧
    s.mild 19 ∧ mapGet 0 s.counters (blockBase 1 + 0x110) + 1 < 2 ^ 47 ∧ let src : PaceSource := .vin;
    (s.begun.setCond true src).paceAny = true ∧ s.pace.natural = 0) ∧
  (let s : State := W.up; s.banksHeld ∧ s.released = true ∧ s.ready 1 = true ∧ s.fld Reg.pwrPaceCtl [] 16 2 = 0 ∧
    s.mild 19 ∧ mapGet 0 s.counters (blockBase 1 + 0x110) + 1 < 2 ^ 47 ∧ let w : Nat := 121;
    s.fld Reg.pwrPaceCtl [] 8 7 < w ∧ s.bit Reg.pwrPaceCtl [] 2 = true ∧ s.pace.natural = 0) ∧
  (let s : State := W.paceGovernsN1; s.banksHeld ∧ s.released = true ∧ s.ready 1 = true ∧
    s.fld Reg.pwrPaceCtl [] 16 2 = 0 ∧ s.mild 19 ∧ mapGet 0 s.counters (blockBase 1 + 0x110) + 1 < 2 ^ 47 ∧
    ∃ e ∈ s.pace.settleEnd, e ≤ s.now ∧ s.paceAny = true ∧ s.pace.natural = 1) ∧
  (let s : State := W.up; s.banksHeld ∧ s.released = true ∧ s.ready 1 = true ∧ let w : Nat := 0;
    w ≤ s.fld Reg.pwrPaceCtl [] 8 7 ∧ s.pace.natural = 0 ∧ s.pace.condVin = false ∧ s.pace.condCore = false ∧
    s.pace.condAlert = false) ∧
  (let s : State := W.paceGovernsN1c; s.banksHeld ∧ s.released = true ∧ s.ready 1 = true ∧
    ∃ e ∈ s.pace.settleEnd, e ≤ s.now ∧ s.paceAny = false ∧ s.pace.natural = 1 ∧ s.pace.holdEnd = none) ∧
  (let s : State := W.paceGovernsN1; s.banksHeld ∧ s.released = true ∧ s.ready 1 = true ∧ s.pace.natural ≠ 0 ∧
    s.pace.holdEnd = none) ∧
  (let s : State := W.paceGovernsH1; s.banksHeld ∧ s.released = true ∧ s.ready 1 = true ∧
    ∃ e ∈ s.pace.holdEnd, e ≤ s.now ∧ s.paceAny = false ∧ s.pace.natural = 1) ∧
  (let s : State := W.paceGovernsH2; s.banksHeld ∧ s.released = true ∧ s.ready 1 = true ∧
    ∃ e ∈ s.pace.holdEnd, e ≤ s.now ∧ s.paceAny = false ∧ s.pace.natural = 2) ∧
  (let s : State := W.up; s.banksHeld ∧ let m : Master := .pf 0; s.writes m (Reg.pwrPaceCtl.addr []) ∧
    let data : Nat := 4294967295; data < 2 ^ 32 ∧ bitOf s.glb.lock 1 = false ∧ s.pace.natural = 0 ∧
    s.pace.condVin = false ∧ s.pace.condCore = false ∧ s.pace.condEst = false ∧ s.pace.condAlert = false ∧
    let w := storeFields false (s.word Reg.pwrPaceCtl []) data Reg.pwrPaceCtl.fields;
    s.paceStep < min 2 (bitsOf w 16 2) ∧ s.mild 19 ∧ mapGet 0 s.counters (blockBase 1 + 0x110) + 1 < 2 ^ 47) ∧
  (let s : State := W.up; s.banksHeld ∧ let m : Master := .pf 0; s.writes m (Reg.pwrPaceCtl.addr []) ∧
    let data : Nat := 0; data < 2 ^ 32 ∧ bitOf s.glb.lock 1 = false ∧ s.pace.natural = 0 ∧ s.pace.condVin = false ∧
    s.pace.condCore = false ∧ s.pace.condEst = false ∧ s.pace.condAlert = false ∧
    let w := storeFields false (s.word Reg.pwrPaceCtl []) data Reg.pwrPaceCtl.fields;
    min 2 (bitsOf w 16 2) ≤ s.paceStep) := by
  refine ⟨?_, ?_, ?_, ?_, ?_, ?_, ?_, ?_, ?_, ?_⟩
  all_goals (try unfold State.writes)
  all_goals (try unfold State.reaches)
  all_goals (try unfold State.banksHeld)
  all_goals (try unfold State.mild)
  all_goals decide +kernel

def W.timeAdvancesFb : State :=
  { W.up with tsu := { W.up.tsu with fallback := true, refOk := false, tick := 2^64-1, todNs := 2^64-1, todFrac := 2^32-1 } }

/-- Premises of TimeAdvances, clause by clause. -/
theorem premises_TimeAdvances :
  (let s : State := W.up; s.banksHeld ∧ s.released = true) ∧
  (let s : State := W.up; s.banksHeld ∧ s.released = true ∧ s.tsu.fallback = false ∧ s.mild 3) ∧
  (let s : State := W.timeAdvancesFb; s.banksHeld ∧ s.released = true ∧ s.tsu.fallback = true ∧ s.mild 4) ∧
  (let s : State := W.up; s.banksHeld ∧ let d : Nat := 0; d < 2 ^ 64 ∧ let m : Master := .pf 0; s.writes m 0x10020) ∧
  (let s : State := W.up; s.banksHeld ∧ let d : Nat := 0; d < 2 ^ 64 ∧ let m : Master := .pf 0; s.writes m 0x10028) ∧
  (let s : State := W.up; s.banksHeld ∧ let d : Nat := 0; d < 2 ^ 32 ∧ let m : Master := .pf 0;
    s.writes m (Reg.tsuTodAdj.addr [])) := by
  refine ⟨?_, ?_, ?_, ?_, ?_, ?_⟩
  all_goals (try unfold State.writes)
  all_goals (try unfold State.reaches)
  all_goals (try unfold State.banksHeld)
  all_goals (try unfold State.mild)
  all_goals decide +kernel

def W.smbusAndTapAl : State :=
  { W.up with supply := { W.up.supply with smbAlert := true, testMode := true, stackId := 2 }, tap := { W.up.tap with ir := 0x30 } }
def W.smbusAndTapFt : State :=
  { (W.up.setWord Reg.fltSrcCfg [9] 2) with supply := { W.up.supply with testMode := true }, tap := { W.up.tap with ir := 0x31, fails := 7 }, cry := { W.up.cry with cache := [3], sas := [(3, { valid := true, proto := 2, owner := 0 })] } }
def W.smbusAndTapUn8 : State :=
  { W.up with supply := { W.up.supply with testMode := true }, tap := { W.up.tap with ir := 0x31, fails := 8 } }

/-- Premises of SmbusAndTap, clause by clause. -/
theorem premises_SmbusAndTap :
  (let s : State := W.up; s.banksHeld ∧ s.supply.standby = true ∧ let c : Nat := 0; c < 256) ∧
  (let s : State := W.smbusAndTapAl; s.banksHeld ∧ s.supply.standby = true ∧ let c : Nat := 0; c < 256 ∧
    s.supply.smbAlert = true) ∧
  (let s : State := W.up; s.banksHeld ∧ s.released = true ∧ let ir : Nat := 0; ir < 256 ∧ s.supply.phase ≠ .off) ∧
  (let s : State := W.smbusAndTapAl; s.banksHeld ∧ s.released = true ∧ s.tap.ir = 0x30 ∧ s.supply.testMode = true) ∧
  (let s : State := W.smbusAndTapFt; s.banksHeld ∧ s.released = true ∧ s.tap.ir = 0x31 ∧ s.supply.testMode = true ∧
    s.tap.fails < 8 ∧ s.begun.eraseKeys.mild 9 ∧ s.begun.eraseKeys.due = [] ∧ s.begun.eraseKeys.banksHeld ∧ s.mild 8) ∧
  (let s : State := W.smbusAndTapUn8; s.banksHeld ∧ s.released = true ∧ s.tap.ir = 0x31 ∧ 8 ≤ s.tap.fails) := by
  refine ⟨?_, ?_, ?_, ?_, ?_, ?_⟩
  all_goals (try unfold State.banksHeld)
  all_goals (try unfold State.mild)
  all_goals decide +kernel

def W.rel : State :=
  { supply := { standby := true, phase := .good, vinCv := 1200, mrstN := false, perstN := [true, false, true, true] }, clocks := { hkclk := true, lrefa := true, pcie := [true, true, true, true] } }
def W.releasePointRunsRelc : State :=
  { W.rel with bring := { W.rel.bring with phase := .chip, nextCause := 2, nextSrc := 33 }, supply := { W.rel.supply with mrstN := true } }

/-- Premises of ReleasePointRuns, clause by clause. -/
theorem premises_ReleasePointRuns :
  (let s : State := W.rel; s.banksHeld ∧ s.supply.standby = true ∧ s.supply.phase = .good ∧ s.clocks.hkclk = true ∧
    s.supply.tripLatch = false ∧ s.supply.tripMrstLow = false ∧ s.tsu.fallback = false ∧ s.regs = [] ∧
    s.host.faces.length = 4 ∧ s.bring.phase = .module) ∧
  (let s : State := W.releasePointRunsRelc; s.banksHeld ∧ s.supply.standby = true ∧ s.supply.phase = .good ∧
    s.clocks.hkclk = true ∧ s.supply.tripLatch = false ∧ s.supply.tripMrstLow = false ∧ s.tsu.fallback = false ∧
    s.regs = [] ∧ s.host.faces.length = 4 ∧ s.bring.phase = .chip) := by
  refine ⟨?_, ?_⟩
  all_goals (try unfold State.banksHeld)
  all_goals decide +kernel

def W.unitsReadyAndBootNr : State :=
  { W.up with bring := { W.up.bring with readySub := 0, readyPort := 0, readyQuoin := 0, readyCourse := 0, btlState := 1 }, ksc := {} }
def W.unitsReadyAndBootMf : State :=
  { (W.up.setWord Reg.fltSrcCfg [390] 2) with bring := { W.up.bring with readySub := 0xFFFF } }
def W.unitsReadyAndBootRst : State :=
  { W.up with bring := { W.up.bring with readySub := 0x1FFFFF - 4 - 2^12, blockReset := 4 + 2^12 } }
def W.unitsReadyAndBootBoot : State :=
  { W.up with bring := { W.up.bring with readySub := 0x1FFFF, btlState := 1 }, ksc := {} }
def W.unitsReadyAndBootBf : State :=
  { (W.up.setWord Reg.fltSrcCfg [6] 2) with bring := { W.up.bring with btlState := 1 } }

/-- Premises of UnitsReadyAndBoot, clause by clause. -/
theorem premises_UnitsReadyAndBoot :
  (let s : State := W.unitsReadyAndBootNr; s.banksHeld ∧ s.released = true ∧ let n : Nat := 0; n ≤ 20 ∧ n ≠ 17 ∧
    n ≠ 18 ∧ s.ready n = false ∧ s.inReset n = false) ∧
  (let s : State := W.unitsReadyAndBootMf; s.banksHeld ∧ s.released = true ∧ s.ready 16 = false ∧ s.inReset 16 = false ∧
    s.mild 390) ∧
  (let s : State := W.up; s.banksHeld ∧ s.released = true ∧ let n : Nat := 0; n < 32 ∧ s.portLanes n ≠ 0) ∧
  (let s : State := W.up; s.banksHeld ∧ s.released = true ∧ let n : Nat := 0; n < 4 ∧ s.clocks.lrefaAtRelease = true) ∧
  (let s : State := W.unitsReadyAndBootNr; s.banksHeld ∧ s.released = true ∧ let c : Nat := 0; c < 4 ∧
    s.courseSt c = .inService ∧ bitOf s.bring.readyCourse c = false) ∧
  (let s : State := W.unitsReadyAndBootRst; s.banksHeld ∧ s.released = true ∧ let n : Nat := 2; n ≤ 20 ∧ n ≠ 17 ∧
    s.inReset n = true) ∧
  (let s : State := W.unitsReadyAndBootBoot; s.banksHeld ∧ s.stoHeld ∧ s.released = true ∧ s.ready 0 = true ∧
    s.bring.btlState = 1 ∧ let i : BootIn := {}; i.dir < 2 ∧ i.okA = true ∧ s.supply.bootSel = false ∧
    (i.slots.getD 1 {}).seq ≤ (i.slots.getD 0 {}).seq ∧ s.slotOk (i.slots.getD 0 {}) = true ∧ s.flt.waiting = [] ∧
    s.ivm.chans = [] ∧ s.ivm.notices = [] ∧ s.ksc.cplx.length = 2) ∧
  (let s : State := W.unitsReadyAndBootBf; s.banksHeld ∧ s.stoHeld ∧ s.released = true ∧ s.ready 0 = true ∧
    s.bring.btlState = 1 ∧ let i : BootIn := { dir := 2 }; 2 ≤ i.dir ∧ s.mild 6) := by
  refine ⟨?_, ?_, ?_, ?_, ?_, ?_, ?_, ?_⟩
  all_goals (try unfold State.stoHeld)
  all_goals (try unfold State.banksHeld)
  all_goals (try unfold State.mild)
  all_goals decide +kernel

def W.facesComeUpCold1 : State := { supply := { perstN := [true,true,true,true] } }
def W.facesComeUpCold : State := {}
def W.facesComeUpNfd : State :=
  { W.up with bring := { W.up.bring with readyFace := 0 }, host := { W.up.host with links := [] } }
def W.facesComeUpNf : State := { W.up with bring := { W.up.bring with readyFace := 0 } }

/-- Premises of FacesComeUp, clause by clause. -/
theorem premises_FacesComeUp :
  (let s : State := W.facesComeUpCold1; s.banksHeld ∧ s.stoHeld ∧ let n : Nat := 0; n < 4 ∧ s.released = false ∧
    s.supply.perstN.getD n false = true) ∧
  (let s : State := W.facesComeUpCold; s.banksHeld ∧ s.stoHeld ∧ let n : Nat := 0; n < 4 ∧ s.released = false ∧
    s.supply.perstN.getD n false = false) ∧
  (let s : State := W.facesComeUpNfd; s.banksHeld ∧ s.stoHeld ∧ let n : Nat := 0; n < 4 ∧ s.released = true ∧
    (s.face n).inReset = false ∧ bitOf s.bring.readyFace n = false ∧ s.ready 0 = true ∧ s.flt.mgrHeld = false ∧
    (s.link n 1).active = false ∧ (s.link n 0).active = false) ∧
  (let s : State := W.facesComeUpNf; s.banksHeld ∧ s.stoHeld ∧ let n : Nat := 0; n < 4 ∧ s.released = true ∧
    (s.face n).inReset = false ∧ bitOf s.bring.readyFace n = false ∧ s.ready 0 = true ∧ s.flt.mgrHeld = false ∧
    (s.link n 1).active = false ∧ (s.link n 0).state = .l0 ∧ (s.link n 0).drsSent = false) ∧
  (let s : State := W.up; s.banksHeld ∧ s.stoHeld ∧ let n : Nat := 0; n < 4 ∧ s.released = true ∧
    s.supply.perstN.getD n false = true) := by
  refine ⟨?_, ?_, ?_, ?_, ?_⟩
  all_goals (try unfold State.stoHeld)
  all_goals (try unfold State.banksHeld)
  all_goals decide +kernel

def W.registerWritesAreJudgedNr : State := { W.up with bring := { W.up.bring with readySub := 0x1FFFFF - 2 } }

/-- Premises of RegisterWritesAreJudged, clause by clause. -/
theorem premises_RegisterWritesAreJudged :
  (let s : State := W.up; s.banksHeld ∧ s.stoHeld ∧ s.released = true ∧ let d : Nat := 0; d < 2 ^ 32 ∧ let f : Nat := 4;
    s.fnReachable (2048 + f) = false) ∧
  (let s : State := W.registerWritesAreJudgedNr; s.banksHeld ∧ s.stoHeld ∧ s.released = true ∧ let d : Nat := 0;
    d < 2 ^ 32 ∧ let f : Nat := 0; s.fnReachable (2048 + f) = true ∧ s.ready 1 = false) ∧
  (let s : State := W.up; s.banksHeld ∧ s.stoHeld ∧ s.released = true ∧ let d : Nat := 0; d < 2 ^ 32 ∧ let f : Nat := 1;
    s.fnReachable (2048 + f) = true ∧ s.ready 1 = true ∧ bitOf (s.glb.faceWr.getD f 0) 1 = false ∧ s.mild 71) ∧
  (let s : State := W.up; s.banksHeld ∧ s.stoHeld ∧ s.released = true ∧ let d : Nat := 0; d < 2 ^ 32 ∧
    let ep : Nat := 0; s.freshEpoch ep = false ∧ s.ksc.stale.valid = false ∧ s.mild 452 ∧
    mapGet 0 s.counters (blockBase 18 + 0x110) + 1 < 2 ^ 47) ∧
  (let s : State := W.up; s.banksHeld ∧ s.stoHeld ∧ s.released = true ∧ let d : Nat := 0; d < 2 ^ 32 ∧
    let a := Reg.pwrDroopThr.addr []; let f : Nat := 0; s.writes (.pf f) a) ∧
  (let s : State := W.up; s.banksHeld ∧ s.stoHeld ∧ s.released = true ∧ let d : Nat := 0; d < 2 ^ 32 ∧
    let a := Reg.pwrDroopThr.addr []; let x : Nat := 0; let ep : Nat := 1; s.writes (.fw x ep) a) ∧
  (let s : State := W.up; s.banksHeld ∧ let d : Nat := 0; d < 2 ^ 32 ∧ let m : Master := .fw 0 1; s.writes m 0x2000 ∧
    m.isFw = true ∧ (∀ b ∈ ([5, 15, 20] : List Nat), bitOf d b = true → bitOf s.glb.lock b = true)) ∧
  (let s : State := W.up; s.banksHeld ∧ let d : Nat := 0; d < 2 ^ 32 ∧ let m : Master := .pf 0; s.reaches m 0x2000 ∧
    m.isFw = false) ∧
  (let s : State := W.up; s.banksHeld ∧ let d : Nat := 0; d < 2 ^ 32 ∧ let m : Master := .fw 0 1; s.writes m 0x2040 ∧
    m.isFw = true ∧ s.flt.mgrHeld = false) ∧
  (let s : State := W.up; s.banksHeld ∧ let d : Nat := 0; d < 2 ^ 32 ∧ let m : Master := .pf 0; s.reaches m 0x2040 ∧
    m.isFw = false) := by
  refine ⟨?_, ?_, ?_, ?_, ?_, ?_, ?_, ?_, ?_, ?_⟩
  all_goals (try unfold State.stoHeld)
  all_goals (try unfold State.writes)
  all_goals (try unfold State.reaches)
  all_goals (try unfold State.banksHeld)
  all_goals (try unfold State.mild)
  all_goals decide +kernel

def W.mild : State :=
  (List.range 21).foldl (fun t b => (t.setWord Reg.fltSrcCfg [blockSrc b] 1).setWord Reg.fltSrcCfg [blockSrc b + 1] 1) W.up
def W.errorsAndCountsFt : State := { W.up with tap := { W.up.tap with ftMode := true } }

/-- Premises of ErrorsAndCounts, clause by clause. -/
theorem premises_ErrorsAndCounts :
  (let s : State := W.up; s.banksHeld ∧ s.released = true ∧ let b : Nat := 0; b ≤ 20 ∧ s.mild (blockSrc b)) ∧
  (let s : State := W.up; s.banksHeld ∧ s.released = true ∧ let b : Nat := 4; b ≤ 20 ∧ s.mild (blockSrc b + 1)) ∧
  (let s : State := W.up; s.banksHeld ∧ s.released = true ∧ s.mild 387) ∧
  (let s : State := W.up; s.banksHeld ∧ s.released = true ∧ s.mild 388) ∧
  (let s : State := W.up; s.banksHeld ∧ s.released = true ∧ s.mild 389) ∧
  (let s : State := W.up; s.banksHeld ∧ let d : Nat := 0; d < 2 ^ 32 ∧ let c : Nat := 0; c < 4 ∧
    let m : Master := .pf 0; s.writes m (blockBase 19 + 0x2000 + 0x40 * c)) ∧
  (let s : State := W.up; s.banksHeld ∧ let d : Nat := 0; d < 2 ^ 32 ∧ let m : Master := .pf 0;
    s.writes m (blockBase 19 + 0x3000)) ∧
  (let s : State := W.errorsAndCountsFt; s.banksHeld ∧ let d : Nat := 0; d < 2 ^ 32 ∧ let m : Master := .pf 0;
    s.writes m (blockBase 19 + 0x3010) ∧ s.tap.ftMode = true ∧ Reg.srcDefined (bitsOf d 0 10) = true ∧
    s.mild (bitsOf d 0 10) ∧ mapGet 0 s.counters (fltCounter 5) + 1 < 2 ^ 47) ∧
  (let s : State := W.up; s.banksHeld ∧ let d : Nat := 0; d < 2 ^ 32 ∧ let m : Master := .pf 0;
    s.writes m (blockBase 19 + 0x3010) ∧ s.tap.ftMode = false ∧ s.mild 483 ∧
    mapGet 0 s.counters (fltCounter 6) + 1 < 2 ^ 47) ∧
  (let s : State := W.up; s.banksHeld ∧ let d : Nat := 0; d < 2 ^ 32 ∧ let m : Master := .pf 0; let lsd : Bool := false;
    s.writes m (blockBase (if lsd then 2 else 3) + 0x3000)) ∧
  (let s : State := W.up; s.banksHeld ∧ let d : Nat := 0; d < 2 ^ 32 ∧ let n : Nat := 0; n < 32 ∧
    let m : Master := .pf 0; s.writes m (blockBase 3 + 0x2010 + 0x20 * n)) ∧
  (let s : State := W.up; s.banksHeld ∧ let d : Nat := 2147483648; d < 2 ^ 32 ∧ let m : Master := .pf 0;
    s.writes m (blockBase 15 + 4) ∧ bitOf d 31 = true) := by
  refine ⟨?_, ?_, ?_, ?_, ?_, ?_, ?_, ?_, ?_, ?_, ?_, ?_⟩
  all_goals (try unfold State.writes)
  all_goals (try unfold State.reaches)
  all_goals (try unfold State.banksHeld)
  all_goals (try unfold State.mild)
  all_goals decide +kernel

def W.coursesInServiceMap : State := { W.up with line := { W.up.line with ports := [(0, { running := true })] } }
def W.coursesInServiceDr : State :=
  { W.up with courses := { list := [{ state := .draining }, { state := .out }, { state := .failed }, { state := .testing }] } }

/-- Premises of CoursesInService, clause by clause. -/
theorem premises_CoursesInService :
  (let s : State := W.up; s.banksHeld ∧ let c : Nat := 0; c < 4 ∧ let x : Nat := 0; let ep : Nat := 1;
    let m := Master.fw x ep; s.writes m courseCmdAddr ∧ s.courses.cmd.busy = false ∧ s.courseSt c = .inService ∧
    s.courseMapped c = false ∧ (∃ (d : Nat), d < 4 ∧ d ≠ c ∧ s.courseSt d = .inService)) ∧
  (let s : State := W.coursesInServiceMap; s.banksHeld ∧ let c : Nat := 0; c < 4 ∧ let x : Nat := 0; let ep : Nat := 1;
    let m := Master.fw x ep; s.writes m courseCmdAddr ∧ s.courses.cmd.busy = false ∧ s.courseSt c = .inService ∧
    s.courseMapped c = true) ∧
  (let s : State := W.coursesInServiceDr; s.banksHeld ∧ let c : Nat := 0; c < 4 ∧ let x : Nat := 0; let ep : Nat := 1;
    let m := Master.fw x ep; s.writes m courseCmdAddr ∧ s.courses.cmd.busy = false ∧ s.courseSt c ≠ .inService) ∧
  (let s : State := W.coursesInServiceDr; s.banksHeld ∧ let c : Nat := 1; c < 4 ∧ let x : Nat := 0; let ep : Nat := 1;
    let m := Master.fw x ep; s.writes m courseCmdAddr ∧ s.courses.cmd.busy = false ∧
    (s.courseSt c = .out ∨ s.courseSt c = .failed)) ∧
  (let s : State := W.coursesInServiceDr; s.banksHeld ∧ let c : Nat := 1; c < 4 ∧ let x : Nat := 0; let ep : Nat := 1;
    let m := Master.fw x ep; s.writes m courseCmdAddr ∧ s.courses.cmd.busy = false ∧ s.courseSt c = .out) ∧
  (let s : State := W.up; s.banksHeld ∧ let c : Nat := 0; c < 4 ∧ let x : Nat := 0; let ep : Nat := 1;
    let m := Master.fw x ep; s.writes m courseCmdAddr ∧ s.courses.cmd.busy = false ∧ s.courseSt c ≠ .out) ∧
  (let s : State := W.coursesInServiceDr; s.banksHeld ∧ let c : Nat := 0; c < 4 ∧ s.released = true ∧
    s.courseSt c = .draining ∧ (∀ (a : Nat), a < 8 → (s.rules.slots.getD (c * 8 + a) {}).inUse = 0) ∧
    (∀ p ∈ s.packets, p.2.mark.course ≠ c)) ∧
  (let s : State := W.coursesInServiceDr; s.banksHeld ∧ let c : Nat := 3; c < 4 ∧ s.released = true ∧
    s.courseSt c = .testing) := by
  refine ⟨?_, ?_, ?_, ?_, ?_, ?_, ?_, ?_⟩
  all_goals (try unfold State.writes)
  all_goals (try unfold State.reaches)
  all_goals (try unfold State.banksHeld)
  all_goals decide +kernel

def W.securityVersionRisesUp : State :=
  { W.up with tap := { W.up.tap with imgSvn := 9, imgKey := 1 }, fuses := { W.up.fuses with minSvn := 4, revoked := 1 } }
def W.securityVersionRisesBusy : State :=
  { W.up with tap := { W.up.tap with svnBusy := true, svnNew := some (7, 4) }, fuses := { W.up.fuses with minSvn := 4, revoked := 1 } }

/-- Premises of SecurityVersionRises, clause by clause. -/
theorem premises_SecurityVersionRises :
  (let s : State := W.securityVersionRisesUp; s.banksHeld ∧ let svn : Nat := 0; svn < 65536 ∧ let rv : Nat := 1;
    rv < 16 ∧ let m : Master := .fw 0 1; s.writes m svnRaiseAddr ∧ m.isFw = true ∧ s.tap.svnBusy = false ∧
    (s.fuses.minSvn < svn ∨ rv ≠ 0) ∧ svn ≤ s.tap.imgSvn ∧ bitOf rv s.tap.imgKey = false ∧ rv ≠ 15) ∧
  (let s : State := W.securityVersionRisesUp; s.banksHeld ∧ let svn : Nat := 0; svn < 65536 ∧ let rv : Nat := 0;
    rv < 16 ∧ let m : Master := .fw 0 1; s.writes m svnRaiseAddr ∧ m.isFw = true ∧ s.tap.svnBusy = false ∧
    ((svn ≤ s.fuses.minSvn ∧ rv = 0) ∨ s.tap.imgSvn < svn ∨ bitOf rv s.tap.imgKey = true ∨ rv = 15)) ∧
  (let s : State := W.securityVersionRisesUp; s.banksHeld ∧ let svn : Nat := 0; svn < 65536 ∧ let rv : Nat := 0;
    rv < 16 ∧ let m : Master := .pf 0; s.reaches m svnRaiseAddr ∧ (m.isFw = false ∨ s.tap.svnBusy = true)) ∧
  (let s : State := W.securityVersionRisesBusy; s.banksHeld ∧ let svn : Nat := 7; svn < 65536 ∧ let rv : Nat := 4;
    rv < 16 ∧ s.released = true ∧ s.tap.svnNew = some (svn, rv) ∧ s.tap.upgradeWait = false) := by
  refine ⟨?_, ?_, ?_, ?_⟩
  all_goals (try unfold State.writes)
  all_goals (try unfold State.reaches)
  all_goals (try unfold State.banksHeld)
  all_goals decide +kernel

def W.linePortsAreSetUpRun : State :=
  { W.up with line := { W.up.line with ports := [(0, { running := true, lanes := 8 }), (31, { running := true, lanes := 1 })] } }

/-- Premises of LinePortsAreSetUp, clause by clause. -/
theorem premises_LinePortsAreSetUp :
  (let s : State := W.up; s.banksHeld ∧ let n : Nat := 0; n < 32 ∧ let d : Nat := 19; d < 2 ^ 32 ∧
    let a := Reg.lsdPortCtl.addr [n]; bitOf s.glb.lock 2 = false ∧ let m : Master := .pf 0; s.writes m a ∧
    (s.port n).running = false ∧ s.portLanes n ≠ 0 ∧
    (lineFormat (s.portLanes n) (bitsOf d 1 2) (bitsOf d 3 2)).isSome = true ∧ s.refPresent (n / 8) = true) ∧
  (let s : State := W.up; s.banksHeld ∧ let n : Nat := 0; n < 32 ∧ let d : Nat := 0; d < 2 ^ 32 ∧
    let a := Reg.lsdPortCtl.addr [n]; bitOf s.glb.lock 2 = false ∧ let m : Master := .pf 0; s.writes m a ∧
    (s.port n).running = false ∧ s.portLanes n ≠ 0 ∧
    (lineFormat (s.portLanes n) (bitsOf d 1 2) (bitsOf d 3 2) = none ∨ s.refPresent (n / 8) = false) ∧ s.mild 37) ∧
  (let s : State := W.linePortsAreSetUpRun; s.banksHeld ∧ let n : Nat := 0; n < 32 ∧ let d : Nat := 0; d < 2 ^ 32 ∧
    let a := Reg.lsdPortCtl.addr [n]; bitOf s.glb.lock 2 = false ∧ let m : Master := .pf 0; s.writes m a ∧
    (s.port n).running = true ∧ (s.port n).linkUp = false ∧ s.packets = []) ∧
  (let s : State := W.up; s.banksHeld ∧ let n : Nat := 0; n < 32 ∧ let d : Nat := 0; d < 2 ^ 32 ∧
    bitOf s.glb.lock 2 = false ∧ let o : Nat := 0; o < 4 ∧ let m : Master := .pf 0;
    s.writes m (Reg.lsdOctetCfg.addr [o])) ∧
  (let s : State := W.up; s.banksHeld ∧ let n : Nat := 0; n < 32 ∧ let d : Nat := 0; d < 2 ^ 32 ∧ let c : Nat := 0;
    c < 4 ∧ let k : Nat := 0; k < 8 ∧ k ≠ 1 ∧ k ≠ 3 ∧ bitOf s.glb.lock 8 = false ∧ let m : Master := .pf 0;
    s.writes m (Reg.prsAdmitSlots.addr [c, k])) := by
  refine ⟨?_, ?_, ?_, ?_, ?_⟩
  all_goals (try unfold State.writes)
  all_goals (try unfold State.reaches)
  all_goals (try unfold State.banksHeld)
  all_goals (try unfold State.mild)
  all_goals decide +kernel

def W.lineLinksFollowP0 : State :=
  { (W.up.setWord Reg.fltSrcCfg [36] 1) with line := { W.up.line with ports := [(0, { running := true, downSince := some 5 }), (31, { running := true, downSince := some 5 })] } }
def W.lineLinksFollowP2 : State :=
  { (W.up.setWord Reg.fltSrcCfg [36] 1) with line := { W.up.line with ports := [(0, { running := true, align := true, linkUp := true, refreshAt := some 9 }), (31, { running := true, align := true, linkUp := true, refreshAt := some 9 })] } }

/-- Premises of LineLinksFollow, clause by clause. -/
theorem premises_LineLinksFollow :
  (let s : State := W.lineLinksFollowP0; s.banksHeld ∧ s.released = true ∧ s.ready 2 = true ∧ let n : Nat := 0;
    (s.port n).running = true ∧ (s.port n).linkUp = false ∧ let an : Bool := false;
    ((s.port n).anEn = true → an = true) ∧ bitOf s.bring.readyPort n = true ∧
    (if s.bit Reg.lsdOctetCfg [n / 8] 8 then s.clocks.lrefb else s.clocks.lrefa) = true ∧ s.mild 35) ∧
  (let s : State := W.lineLinksFollowP2; s.banksHeld ∧ s.released = true ∧ s.ready 2 = true ∧ let n : Nat := 0;
    (s.port n).running = true ∧ (s.port n).linkUp = true ∧ (s.port n).rxNow = none ∧ (s.port n).txNow = none ∧
    s.mild 36 ∧ mapGet 0 s.counters (lsdCounter n 4) + 1 < 2 ^ 47 ∧ n < 32) ∧
  (let s : State := W.lineLinksFollowP0; s.banksHeld ∧ s.released = true ∧ s.ready 2 = true ∧ let n : Nat := 0;
    (s.port n).running = true ∧ let al : Bool := false; let lf : Bool := false; let rf : Bool := false;
    ((s.port n).linkUp = (al && !lf && !rf)) ∧ ((al && !lf && !rf) = false ∨ (bitOf s.bring.readyPort n = true ∧
        (if s.bit Reg.lsdOctetCfg [n / 8] 8 then s.clocks.lrefb else s.clocks.lrefa) = true))) := by
  refine ⟨?_, ?_, ?_⟩
  all_goals (try unfold State.banksHeld)
  all_goals (try unfold State.mild)
  all_goals decide +kernel

def W.framesArriveUp : State :=
  { W.up with line := { W.up.line with ports := [(0, { running := true, lanes := 8, laneRate := 1, fec := 2, align := true, linkUp := true, anEn := false }), (31, { running := true, lanes := 8, laneRate := 1, fec := 2, align := true, linkUp := true, anEn := false })] } }
def W.framesArriveRx : State :=
  { W.up with line := { W.up.line with ports := [(0, { running := true, lanes := 8, laneRate := 1, fec := 2, align := true, linkUp := true, rxNow := some { head := List.replicate 12 0x22 ++ [8, 0] ++ List.replicate 200 0x11, cfg := 10000, pkt := some 1, code := false } })] }, packets := [(1, { ended := false, stage := .atParser, mark := { entAct := .lrx, srcPort := 0 }, bytes := List.replicate 128 0x11 })], nextPkt := 2 }
def W.framesArriveFc : State :=
  ({ W.up with line := { W.up.line with ports := [(0, { running := true, lanes := 8, laneRate := 1, fec := 2, align := true, linkUp := true, anEn := false })] } }).setWord Reg.macPortCfg [0] (putBits (W.up.word Reg.macPortCfg [0]) 14 2 1)

/-- Premises of FramesArrive, clause by clause. -/
theorem premises_FramesArrive :
  (let s : State := W.framesArriveUp; s.released = true ∧ s.ready 3 = true ∧ let n : Nat := 0; (s.port n).takes = true ∧
    let cfg := s.word Reg.macPortCfg [n]; (s.port n).rxNow = none ∧
    let bs : List Byte := List.replicate 12 0x22 ++ [8, 0] ++ List.replicate 200 0x11; 128 ≤ bs.length ∧
    isControl bs = false ∧ fabCheck cfg bs = (0, 0) ∧ (s.port n).loopback ≠ 3 ∧
    s.line.storeLevel.getD (n / 8) 0 + bs.length ≤ 65536) ∧
  (let s : State := W.framesArriveRx; s.released = true ∧ s.ready 3 = true ∧ let n : Nat := 0; (s.port n).takes = true ∧
    ∃ fr ∈ (s.port n).rxNow, ∃ p ∈ fr.pkt, ∃ x ∈ s.pkt p, x.inStore = 0 ∧ isControl fr.head = false ∧
    let bs : List Byte := ((withFcs (List.replicate 12 0x22 ++ [0x08, 0x00] ++ List.replicate 200 0x11) true)).drop 214;
    let code : Bool := false;
    rxError fr.cfg (fr.head ++ bs).length (fcsGood (fr.head ++ bs)) (decide (fr.err = 36)) (code || fr.code)
        (if fr.err = 36 then 0 else fr.err) = 0) ∧
  (let s : State := W.framesArriveFc; s.released = true ∧ s.ready 3 = true ∧ let n : Nat := 0; (s.port n).takes = true ∧
    let cfg := s.word Reg.macPortCfg [n]; (s.port n).rxNow = none ∧
    let bs : List Byte := withFcs ([1,0x80,0xC2,0,0,1] ++ List.replicate 6 0x22 ++ [0x88,8,0,1,0,5] ++ List.replicate 42 0) true;
    bs.length = 64 ∧ beAt bs 0 6 = 0x0180C2000001 ∧ beAt bs 12 2 = 0x8808 ∧ beAt bs 14 2 = 1 ∧ fcsGood bs = true ∧
    s.fcMode n = 1 ∧ 64 ≤ bitsOf cfg 0 14) := by
  refine ⟨?_, ?_, ?_⟩
  all_goals decide +kernel

def W.framesLeaveUp : State :=
  { W.up with line := { W.up.line with ports := [(0, { running := true, lanes := 8, laneRate := 1, fec := 2, align := true, linkUp := true, pauseEnd := [3000000,5000000,0,0,0,0,0,0] }), (31, { running := true, lanes := 8, laneRate := 1, fec := 2, align := true, linkUp := true, pauseEnd := [3000000,5000000,0,0,0,0,0,0] })] } }
def W.framesLeaveFc : State :=
  ({ W.up with line := { W.up.line with ports := [(0, { running := true, lanes := 8, laneRate := 1, fec := 2, align := true, linkUp := true, fcPending := true, xoff := 1 })] } }).setWord Reg.macPortCfg [0] (putBits (W.up.word Reg.macPortCfg [0]) 14 2 1)
def W.framesLeaveRp0 : State :=
  { W.up with line := { W.up.line with ports := [(0, { running := true, lanes := 8, laneRate := 1, fec := 2, align := true, linkUp := true, refreshAt := some 3000000, xoff := 5 })] } }
def W.framesLeaveRp : State :=
  ({ W.up with line := { W.up.line with ports := [(0, { running := true, lanes := 8, laneRate := 1, fec := 2, align := true, linkUp := true, refreshAt := some 3000000, xoff := 5 })] } }).setWord Reg.macPortCfg [0] (putBits (W.up.word Reg.macPortCfg [0]) 14 2 1)
def W.framesLeaveTx : State :=
  { W.up with line := { W.up.line with ports := [(0, { running := true, lanes := 8, laneRate := 1, fec := 2, align := true, linkUp := true, txNow := some 1 })] }, packets := [(1, { ended := true, stage := .leaving, eg := .line 0 0, bytes := List.replicate 12 0x22 ++ [8, 0] ++ List.replicate 200 0x11, mark := { entAct := .htx, act := .ltx, len := 214 } })], nextPkt := 2 }

/-- Premises of FramesLeave, clause by clause. -/
theorem premises_FramesLeave :
  (let s : State := W.framesLeaveUp; s.released = true ∧ s.ready 3 = true ∧ let n : Nat := 0; let p : Nat := 0;
    (s.port n).pauseEnd.getD p 0 ≤ s.now) ∧
  (let s : State := W.framesLeaveFc; s.released = true ∧ s.ready 3 = true ∧ let n : Nat := 0;
    (s.port n).fcPending = true ∧ s.fcCan n = true) ∧
  (let s : State := W.framesLeaveRp0; s.released = true ∧ s.ready 3 = true ∧ let n : Nat := 0;
    ∃ e ∈ (s.port n).refreshAt, e ≤ s.now ∧ (s.port n).xoff ≠ 0 ∧ s.fcCan n = false) ∧
  (let s : State := W.framesLeaveRp; s.released = true ∧ s.ready 3 = true ∧ let n : Nat := 0;
    ∃ e ∈ (s.port n).refreshAt, e ≤ s.now ∧ (s.port n).xoff ≠ 0 ∧ s.fcCan n = true) ∧
  (let s : State := W.framesLeaveTx; s.released = true ∧ s.ready 3 = true ∧ let n : Nat := 0;
    ∃ p ∈ (s.port n).txNow, ∃ x ∈ s.pkt p, (s.port n).takes = true ∧ x.settled = true ∧ x.ended = true ∧
    x.mark.flags.stomp = false ∧ x.mark.flags.tsReq = false) := by
  refine ⟨?_, ?_, ?_, ?_, ?_⟩
  all_goals decide +kernel

def W.marksAreMadeAndParsedW : State :=
  { { W.up with csc := { W.up.csc with ports := [] } } with packets := [(1, { stage := .waitSlot, bytes := W.ipp, mark := { entAct := .lrx, course := 2 } }), (2, { stage := .waitSlot, fresh := false, bytes := W.ipp, mark := { entAct := .recirc, course := 1, epoch := 7 } })], nextPkt := 100 }
def W.marksAreMadeAndParsedFull : State :=
  { { W.up with rules := { W.up.rules with slots := List.replicate 32 { inUse := 9999 } } } with packets := [(1, { stage := .waitSlot, bytes := W.ipp, mark := { entAct := .lrx, course := 2 } })], nextPkt := 100 }
def W.marksAreMadeAndParsedP : State :=
  { W.up with packets := [(1, { stage := .atParser, bytes := W.ipp, mark := { entAct := .lrx, act := .lrx, course := 2, len := 94 } }), (2, { stage := .atParser, ended := false, bytes := List.replicate 128 0x33, mark := { } }), (3, { stage := .atParser, bytes := [1,2,3], mark := { act := .htx } }), (4, { stage := .atParser, bytes := List.replicate 12 0x22 ++ [0x86, 0xDD] ++ [0x60,0,0,0,0,80,17,64] ++ List.replicate 100 0x22, mark := { act := .hrx } })], nextPkt := 100 }
def W.marksAreMadeAndParsedL : State :=
  { W.up with packets := [(1, { stage := .atRules, ended := true, raw := W.ipp ++ List.replicate 100 0, bytes := W.ipp, mark := { } }), (2, { stage := .atRules, ended := true, raw := (W.ipp).take 40, bytes := W.ipp, mark := { } })], nextPkt := 100 }

/-- Premises of MarksAreMadeAndParsed, clause by clause. -/
theorem premises_MarksAreMadeAndParsed :
  (let s : State := W.marksAreMadeAndParsedW; s.released = true ∧ s.ready 8 = true ∧ let p : Nat := 1;
    ∃ x ∈ s.pkt p, x.stage = .waitSlot ∧ ∃ c ∈ s.entryCourse x.mark, bitOf s.bring.readyCourse c = true ∧
    s.slotFree c x.mark.entAct = true ∧ x.inStore = 0 ∧ x.item = none ∧ s.csc.ports = []) ∧
  (let s : State := W.marksAreMadeAndParsedFull; s.released = true ∧ s.ready 8 = true ∧ let p : Nat := 1;
    ∃ x ∈ s.pkt p, x.stage = .waitSlot ∧ ∃ c ∈ s.entryCourse x.mark, s.slotFree c x.mark.entAct = false) ∧
  (let s : State := W.marksAreMadeAndParsedP; s.released = true ∧ s.ready 8 = true ∧ let p : Nat := 1;
    ∃ x ∈ s.pkt p, let f := if x.ended then some x.bytes.length else none; let w := s.walkFrame x.mark.act x.bytes f;
    x.stage = .atParser ∧ w.wait = false ∧ (x.ended = true ∨ x.mark.act = .lrx) ∧
    (∀ (k : Nat), k < 64 → s.patMatch k x.mark.act x.bytes f w ≠ none)) ∧
  (let s : State := W.marksAreMadeAndParsedL; s.released = true ∧ s.ready 8 = true ∧ let p : Nat := 1;
    ∃ x ∈ s.pkt p, x.stage = .atRules ∧ x.ended = true ∧ x.raw ≠ []) := by
  refine ⟨?_, ?_, ?_, ?_⟩
  all_goals decide +kernel

def W.rulesAreAppliedR : State :=
  { W.up with packets := [(1, { stage := .atRules, bytes := W.ipp, mark := { len := 94, flags := {  } } }), (2, { stage := .atRules, bytes := W.ipp, mark := { len := 94, flags := { drop := true } } }), (3, { stage := .atRules, bytes := W.ipp, mark := { len := 94, flags := { exception := true } } }), (4, { stage := .atRules, bytes := W.ipp, mark := { len := 94, flags := { malformed := true } } })], nextPkt := 100 }
def W.rulesAreAppliedLate : State :=
  { W.up with packets := [(1, { stage := .atForward, late := [0x15], mark := { flags := { drop := true } } }), (2, { stage := .queued, late := [0x18] })], nextPkt := 100 }
def W.rulesAreAppliedT1 : State :=
  { W.up with tsu := { W.up.tsu with tick := 3000001 }, rules := { W.up.rules with limiters := [(3, { tokens := 5 })] } }

/-- Premises of RulesAreApplied, clause by clause. -/
theorem premises_RulesAreApplied :
  (let s : State := W.rulesAreAppliedR; s.released = true ∧ s.ready 9 = true ∧ let p : Nat := 1;
    ∃ x ∈ s.pkt p, x.stage = .atRules ∧ let img := s.imageOf x.mark.epoch;
    let o := stages img x 9 (bitsOf img.start (4 * x.mark.act.val) 4) 0 { mark := x.mark };
    let e : Edited := o.edits.foldl s.begun.applyEdit { mark := o.mark, bytes := x.bytes, bound := x.bound };
    o.wait = false ∧ s.policerOf e.mark o.meter = none) ∧
  (let s : State := W.rulesAreAppliedLate; s.released = true ∧ s.ready 9 = true ∧ let p : Nat := 1;
    ∃ x ∈ s.pkt p, x.late ≠ [] ∧ x.stage ≠ .atRules ∧
    (x.mark.flags.drop = true ∨ ∀ c ∈ x.late, lateVerdictOf (s.imageOf x.mark.epoch).defaults c = 0)) ∧
  (let s : State := W.rulesAreAppliedR; s.released = true ∧ s.ready 9 = true ∧ s.now % 1000 = 0) ∧
  (let s : State := W.rulesAreAppliedT1; s.released = true ∧ s.ready 9 = true ∧ s.now % 1000 ≠ 0) := by
  refine ⟨?_, ?_, ?_, ?_⟩
  all_goals decide +kernel

def W.forwardingAndAgingF : State :=
  { { ((W.up.setWord Reg.fwdClassProf [0] 0x400)) with bring := { W.up.bring with readySub := 0x1FFFFF - 2^16 } } with packets := [(1, { stage := .atForward, bytes := W.ipp, mark := { flags := { drop := true } } }), (2, { stage := .atForward, bytes := W.ipp }), (3, { stage := .atForward, bytes := W.ipp, mark := { flags := { recirc := true } } })], nextPkt := 100 }
def W.forwardingAndAgingA : State :=
  { ((W.up.setWord Reg.fwdAgeCfg [] 0x50005).setWord Reg.fwdTblCfg [] 0) with fwd := { W.up.fwd with filter := [{ domain := 1, addr := 2, port := 3, expires := 3000000 }, { domain := 1, addr := 3, port := 3, expires := 3000001 }], flows := [(5, { key := 1, ageEn := true, hit := true }), (6, { key := 1, ageEn := true, dest := 4 })], buckets := [(7, { value := 5, ageEn := true, hit := true })] } }

/-- Premises of ForwardingAndAging, clause by clause. -/
theorem premises_ForwardingAndAging :
  (let s : State := W.forwardingAndAgingF; s.released = true ∧ s.ready 10 = true ∧ let p : Nat := 1;
    ∃ x ∈ s.pkt p, x.stage = .atForward ∧ bitOf (s.word Reg.fwdClassProf [x.mark.cls]) 8 = false ∧
    (x.mark.flags.drop = true ∨ x.mark.flags.exception = true ∨ x.mark.flags.recirc = true)) ∧
  (let s : State := W.forwardingAndAgingF; s.released = true ∧ s.ready 10 = true ∧ let p : Nat := 2;
    ∃ x ∈ s.pkt p, x.stage = .atForward ∧ bitOf (s.word Reg.fwdClassProf [x.mark.cls]) 8 = false ∧
    x.mark.flags.drop = false ∧ x.mark.flags.exception = false ∧ x.mark.flags.recirc = false ∧ x.mark.entAct ≠ .cas ∧
    s.bit Reg.cscShardClass [x.mark.cls] 0 = false ∧ bitsOf (s.word Reg.fwdClassProf [x.mark.cls]) 0 5 = 0 ∧
    s.ready 16 = false ∧ bitsOf (s.word Reg.fwdClassProf [x.mark.cls]) 10 2 = 1) ∧
  (let s : State := W.forwardingAndAgingF; s.released = true ∧ s.ready 10 = true) ∧
  (let s : State := W.forwardingAndAgingA; s.released = true ∧ s.ready 10 = true ∧ let i : Nat := 5;
    ∃ e ∈ mapFind s.fwd.flows i, e.ageEn = true ∧ s.fld Reg.fwdAgeCfg [] 16 16 ≠ 0 ∧ e.hit = true) ∧
  (let s : State := W.forwardingAndAgingA; s.released = true ∧ s.ready 10 = true ∧ let i : Nat := 6;
    ∃ e ∈ mapFind s.fwd.flows i, e.ageEn = true ∧ s.fld Reg.fwdAgeCfg [] 16 16 ≠ 0 ∧ e.hit = false ∧
    s.bit Reg.fwdTblCfg [] 1 = false) ∧
  (let s : State := W.forwardingAndAgingA; s.released = true ∧ s.ready 10 = true ∧ let i : Nat := 7; i < 2097152 ∧
    ∃ e ∈ s.fwd.emAt (.slot i), e.ageEn = true ∧ s.fld Reg.fwdAgeCfg [] 0 16 ≠ 0 ∧ e.static = false ∧
    e.hit = true) := by
  refine ⟨?_, ?_, ?_, ?_, ?_, ?_⟩
  all_goals decide +kernel

def W.tunnelAndCryptoT : State :=
  { W.up with packets := [(1, { stage := .atTunnel, mark := { flags := { drop := true } } }), (2, { stage := .atTunnel, bytes := W.ipp }), (3, { stage := .atCrypto, bytes := W.ipp }), (4, { stage := .atCrypto, bytes := W.ipp, passBy := true, mark := { sa := 9 } })], nextPkt := 100 }
def W.tunnelAndCryptoC : State :=
  { { W.up with cry := { W.up.cry with cache := [9], sas := [(9, { valid := true, proto := 2, owner := 0, ownerGen := 3, key := List.replicate 16 1, salt := [1,2,3,4] })] } } with packets := [(1, { stage := .atCrypto, bytes := W.ipp, mark := { sa := 9, len := 94, hdrs := [{ typ := 1, off := 0 }] } })], nextPkt := 100 }
def W.tunnelAndCryptoM : State :=
  { { (W.up.setWord Reg.fltSrcCfg [278] 1) with cry := { W.up.cry with lanes := W.up.cry.lanes.set 3 { miss := [1] }, sas := [(9, { valid := true, proto := 2, owner := 0, ownerGen := 3, key := List.replicate 16 1, salt := [1,2,3,4] })] } } with packets := [(1, { stage := .atCrypto, bytes := W.ipp, mark := { sa := 9, len := 94 } })], nextPkt := 100 }

/-- Premises of TunnelAndCrypto, clause by clause. -/
theorem premises_TunnelAndCrypto :
  (let s : State := W.tunnelAndCryptoT; s.released = true ∧ s.ready 11 = true ∧ s.ready 12 = true ∧ let p : Nat := 1;
    ∃ x ∈ s.pkt p, x.stage = .atTunnel ∧ (x.mark.flags.drop = true ∨ x.mark.flags.exception = true ∨ x.passBy = true
        ∨ (bitOf (s.word Reg.tunClassProf [x.mark.cls]) 0 = false
            ∧ encapEntry (s.word Reg.tunClassProf [x.mark.cls]) x.mark = none))) ∧
  (let s : State := W.tunnelAndCryptoT; s.released = true ∧ s.ready 11 = true ∧ s.ready 12 = true ∧ let p : Nat := 3;
    ∃ x ∈ s.pkt p, x.stage = .atCrypto ∧
    (x.mark.flags.drop = true ∨ x.mark.flags.exception = true ∨ x.passBy = true ∨ (s.effSa x).1 = 0)) ∧
  (let s : State := W.tunnelAndCryptoC; s.released = true ∧ s.ready 11 = true ∧ s.ready 12 = true ∧ let p : Nat := 1;
    ∃ x ∈ s.pkt p, let i := (s.effSa x).1; x.stage = .atCrypto ∧ x.ended = true ∧ x.mark.flags.drop = false ∧
    x.mark.flags.exception = false ∧ x.passBy = false ∧ i ≠ 0 ∧ i < 4194304 ∧
    ∃ l ∈ s.laneOf i, s.cry.cache.contains i = true ∧ (∀ (k : Nat), k < 8 → (s.lane k).miss = []) ∧
    (∀ q ∈ s.packets, q.1 ≠ p → q.2.stage ≠ .atCrypto)) ∧
  (let s : State := W.tunnelAndCryptoM; s.released = true ∧ s.ready 11 = true ∧ s.ready 12 = true ∧ let p : Nat := 1;
    ∃ x ∈ s.pkt p, let l : Nat := 3; l < 8 ∧ x.stage = .atCrypto ∧ let i := x.mark.sa; s.cry.lanes.length = 8 ∧
    (s.lane l).miss = [p] ∧ (∀ (k : Nat), k < 8 → k ≠ l → (s.lane k).miss = []) ∧ (s.sa i).wrapDead = false ∧
    s.cry.cache.length < 65536) ∧
  (let s : State := W.tunnelAndCryptoM; s.released = true ∧ s.ready 11 = true ∧ s.ready 12 = true ∧ let p : Nat := 1;
    ∃ x ∈ s.pkt p, let l : Nat := 3; l < 8 ∧ x.stage = .atCrypto ∧ s.cry.lanes.length = 8 ∧ (s.lane l).miss = [p] ∧
    (∀ (k : Nat), k < 8 → k ≠ l → (s.lane k).miss = [])) := by
  refine ⟨?_, ?_, ?_, ?_, ?_⟩
  all_goals decide +kernel

def W.transportCommandsNm : State := { W.up with bring := { W.up.bring with readySub := 0x1FFFFF - 2^16 } }
def W.transportCommandsNew : State :=
  [(0, 2), (2, 65536), (4, 77), (5, 88)].foldl (fun (t : State) (p : Nat × Nat) => t.setWord Reg.stoCmdArg [0, p.1] p.2) (W.up)
def W.transportCommandsM3 : State :=
  [(0, 3)].foldl (fun (t : State) (p : Nat × Nat) => t.setWord Reg.stoCmdArg [0, p.1] p.2) ({ W.up with sto := { W.up.sto with ctxs := [(2, { kind := .rc, valid := true, state := .rtr, ownerGen := 3, words := [1, 0, 0x7030000, 0, 0, 0, 0, 0, 0, 0, 0, 0, 0, 0, 0, 0] }), (3, { kind := .rc, valid := true, state := .reset, ownerGen := 3, words := [1, 0, 0x7030000, 0, 0, 0, 0, 0, 0, 0, 0, 0, 0, 0, 0, 0] }), (4, { kind := .rc, valid := true, state := .init, ownerGen := 3, words := [1, 0, 0x7030000, 0, 0, 0, 0, 0, 0, 0, 0, 0, 0, 0, 0, 0] }), (5, { kind := .rc, valid := true, state := .rts, ownerGen := 3, words := [1, 0, 0x7030000, 0, 0, 0, 0, 0, 0, 0, 0, 0, 0, 0, 0, 0] }), (6, { kind := .nvt, valid := true, state := .rts, ownerGen := 3, words := [1, 0, 0x7030000, 0, 0, 0, 0, 0, 0, 0, 0, 0, 0, 0, 0, 0], nvt := .resync }), (7, { kind := .rc, valid := true, state := .error, ownerGen := 3, words := [1, 0, 0x7030000, 0, 0, 0, 0, 0, 0, 0, 0, 0, 0, 0, 0, 0] })], keys := [(2, { valid := true, owner := 0, ownerGen := 3, len := 5 })] } })
def W.transportCommandsM1 : State :=
  [(0, 1)].foldl (fun (t : State) (p : Nat × Nat) => t.setWord Reg.stoCmdArg [0, p.1] p.2) ({ W.up with sto := { W.up.sto with ctxs := [(2, { kind := .rc, valid := true, state := .rtr, ownerGen := 3, words := [1, 0, 0x7030000, 0, 0, 0, 0, 0, 0, 0, 0, 0, 0, 0, 0, 0] }), (3, { kind := .rc, valid := true, state := .reset, ownerGen := 3, words := [1, 0, 0x7030000, 0, 0, 0, 0, 0, 0, 0, 0, 0, 0, 0, 0, 0] }), (4, { kind := .rc, valid := true, state := .init, ownerGen := 3, words := [1, 0, 0x7030000, 0, 0, 0, 0, 0, 0, 0, 0, 0, 0, 0, 0, 0] }), (5, { kind := .rc, valid := true, state := .rts, ownerGen := 3, words := [1, 0, 0x7030000, 0, 0, 0, 0, 0, 0, 0, 0, 0, 0, 0, 0, 0] }), (6, { kind := .nvt, valid := true, state := .rts, ownerGen := 3, words := [1, 0, 0x7030000, 0, 0, 0, 0, 0, 0, 0, 0, 0, 0, 0, 0, 0], nvt := .resync }), (7, { kind := .rc, valid := true, state := .error, ownerGen := 3, words := [1, 0, 0x7030000, 0, 0, 0, 0, 0, 0, 0, 0, 0, 0, 0, 0, 0] })], keys := [(2, { valid := true, owner := 0, ownerGen := 3, len := 5 })] } })
def W.transportCommandsKey : State :=
  [(0, 5), (1, 0), (2, 100), (3, 0), (4, 0), (5, 0)].foldl (fun (t : State) (p : Nat × Nat) => t.setWord Reg.stoCmdArg [0, p.1] p.2) (W.up)

/-- Premises of TransportCommands, clause by clause. -/
theorem premises_TransportCommands :
  (let set : Nat := 0; set < 5 ∧ let m : Master := .pf 0; (set = 4 → m.isFw = true) ∧
    let a := blockBase 13 + 0x5000 + 0x100 * set; let s : State := W.transportCommandsNm; s.writes m a ∧
    (s.sto.sets.getD set {}).busy = false ∧ let c : Nat := 0; c < 2097152 ∧ s.ready 16 = false) ∧
  (let set : Nat := 0; set < 5 ∧ let m : Master := .pf 0; (set = 4 → m.isFw = true) ∧
    let a := blockBase 13 + 0x5000 + 0x100 * set; let s : State := W.transportCommandsNew; s.writes m a ∧
    (s.sto.sets.getD set {}).busy = false ∧ let c : Nat := 2; c < 2097152 ∧ s.ready 16 = true ∧
    let ws := (List.range 16).map (fun k => s.word Reg.stoCmdArg [set, k]); let own := bitsOf (ws.getD 0 0) 8 12;
    let x := s.ctx c; 2 ≤ c ∧ c < 1048576 ∧ s.stoOnFace m set own = true ∧ own ≤ 2051 ∧ x.valid = false ∧
    bitsOf (ws.getD 0 0) 0 2 = 2 ∧ bitsOf (ws.getD 1 0) 14 2 = 0 ∧
    (1 ≤ bitsOf (ws.getD 2 0) 16 3 ∧ bitsOf (ws.getD 2 0) 16 3 ≤ 5) ∧ bitOf s.fuses.features 3 = true ∧
    bitsOf (ws.getD 10 0) 2 2 = 0 ∧ s.ctxsOf own c < 1024 * (s.inst own).grant.qpUnits) ∧
  (let set : Nat := 0; set < 5 ∧ let m : Master := .pf 0; (set = 4 → m.isFw = true) ∧
    let a := blockBase 13 + 0x5000 + 0x100 * set; let s : State := W.up; s.writes m a ∧
    (s.sto.sets.getD set {}).busy = false ∧ let c : Nat := 0; c < 2097152 ∧ s.ready 16 = true ∧ c < 2) ∧
  (let set : Nat := 0; set < 5 ∧ let m : Master := .pf 0; (set = 4 → m.isFw = true) ∧
    let a := blockBase 13 + 0x5000 + 0x100 * set; let s : State := W.transportCommandsM3; s.writes m a ∧
    (s.sto.sets.getD set {}).busy = false ∧ let c : Nat := 2; c < 2097152 ∧ s.ready 16 = true ∧ let x := s.ctx c;
    let mine := c < 1048576 ∧ x.valid = true ∧ s.stoOnFace m set x.owner = true; mine) ∧
  (let set : Nat := 0; set < 5 ∧ let m : Master := .pf 0; (set = 4 → m.isFw = true) ∧
    let a := blockBase 13 + 0x5000 + 0x100 * set; let s : State := W.transportCommandsM3; s.writes m a ∧
    (s.sto.sets.getD set {}).busy = false ∧ let c : Nat := 2; c < 2097152 ∧ s.ready 16 = true ∧
    let ws := (List.range 16).map (fun k => s.word Reg.stoCmdArg [set, k]); let x := s.ctx c;
    let mine := c < 1048576 ∧ x.valid = true ∧ s.stoOnFace m set x.owner = true; mine ∧ s.ctxLive x = true ∧
    x.kind ≠ .nvt ∧ x.state = .rtr ∧ bitsOf (ws.getD 0 0) 0 3 = 3) ∧
  (let set : Nat := 0; set < 5 ∧ let m : Master := .pf 0; (set = 4 → m.isFw = true) ∧
    let a := blockBase 13 + 0x5000 + 0x100 * set; let s : State := W.transportCommandsM1; s.writes m a ∧
    (s.sto.sets.getD set {}).busy = false ∧ let c : Nat := 3; c < 2097152 ∧ s.ready 16 = true ∧
    let ws := (List.range 16).map (fun k => s.word Reg.stoCmdArg [set, k]); let x := s.ctx c;
    let mine := c < 1048576 ∧ x.valid = true ∧ s.stoOnFace m set x.owner = true; mine ∧ s.ctxLive x = true ∧
    x.kind ≠ .nvt ∧ x.state = .reset ∧ bitsOf (ws.getD 0 0) 0 3 = 1) ∧
  (let set : Nat := 0; set < 5 ∧ let m : Master := .pf 0; (set = 4 → m.isFw = true) ∧
    let a := blockBase 13 + 0x5000 + 0x100 * set; let s : State := W.transportCommandsM3; s.writes m a ∧
    (s.sto.sets.getD set {}).busy = false ∧ let c : Nat := 4; c < 2097152 ∧ s.ready 16 = true ∧
    let ws := (List.range 16).map (fun k => s.word Reg.stoCmdArg [set, k]); let x := s.ctx c;
    let mine := c < 1048576 ∧ x.valid = true ∧ s.stoOnFace m set x.owner = true; mine ∧ s.ctxLive x = true ∧
    x.kind ≠ .nvt ∧ x.state = .init ∧ bitsOf (ws.getD 0 0) 0 3 = 3) ∧
  (let set : Nat := 0; set < 5 ∧ let m : Master := .pf 0; (set = 4 → m.isFw = true) ∧
    let a := blockBase 13 + 0x5000 + 0x100 * set; let s : State := W.transportCommandsM3; s.writes m a ∧
    (s.sto.sets.getD set {}).busy = false ∧ let c : Nat := 5; c < 2097152 ∧ s.ready 16 = true ∧ let x := s.ctx c;
    let mine := c < 1048576 ∧ x.valid = true ∧ s.stoOnFace m set x.owner = true; mine ∧ s.ctxLive x = true ∧
    x.kind ≠ .nvt ∧ x.state = .rts) ∧
  (let set : Nat := 0; set < 5 ∧ let m : Master := .pf 0; (set = 4 → m.isFw = true) ∧
    let a := blockBase 13 + 0x5000 + 0x100 * set; let s : State := W.transportCommandsM3; s.writes m a ∧
    (s.sto.sets.getD set {}).busy = false ∧ let c : Nat := 3; c < 2097152 ∧ s.ready 16 = true ∧ let x := s.ctx c;
    let mine := c < 1048576 ∧ x.valid = true ∧ s.stoOnFace m set x.owner = true; mine ∧
    (x.kind = .nvt ∨ x.state = .reset ∨ x.state = .error) ∧ x.sq = none) ∧
  (let set : Nat := 0; set < 5 ∧ let m : Master := .pf 0; (set = 4 → m.isFw = true) ∧
    let a := blockBase 13 + 0x5000 + 0x100 * set; let s : State := W.transportCommandsKey; s.writes m a ∧
    (s.sto.sets.getD set {}).busy = false ∧ let c : Nat := 0; c < 2097152 ∧ s.ready 16 = true ∧ let k := s.keyArg set;
    k.owner ≤ 2051 ∧ s.stoOnFace m set k.owner = true ∧ (mapGet ({} : MemKey) s.sto.keys c).valid = false ∧ k.len ≠ 0 ∧
    s.keysOf k.owner c < 2048 * (s.inst k.owner).grant.qpUnits) ∧
  (let set : Nat := 0; set < 5 ∧ let m : Master := .pf 0; (set = 4 → m.isFw = true) ∧
    let a := blockBase 13 + 0x5000 + 0x100 * set; let s : State := W.transportCommandsM3; s.writes m a ∧
    (s.sto.sets.getD set {}).busy = false ∧ let c : Nat := 2; c < 2097152 ∧ s.ready 16 = true ∧
    let k := mapGet ({} : MemKey) s.sto.keys c; k.valid = true ∧ s.stoOnFace m set k.owner = true) ∧
  (let set : Nat := 0; set < 5 ∧ let m : Master := .pf 0; (set = 4 → m.isFw = true) ∧
    let a := blockBase 13 + 0x5000 + 0x100 * set; let s : State := W.up; s.writes m a ∧
    (s.sto.sets.getD set {}).busy = false ∧ let c : Nat := 0; c < 2097152 ∧ s.ready 16 = true ∧
    let k := mapGet ({} : MemKey) s.sto.keys c; k.valid = false) ∧
  (let set : Nat := 0; set < 5 ∧ let m : Master := .pf 0; (set = 4 → m.isFw = true) ∧
    let a := blockBase 13 + 0x5000 + 0x100 * set; let s : State := W.up; s.writes m a ∧
    (s.sto.sets.getD set {}).busy = false ∧ let c : Nat := 0; c < 2097152 ∧ s.ready 16 = true ∧
    let ws := (List.range 16).map (fun k => s.word Reg.stoCmdArg [set, k]); let po := bitsOf (ws.getD 12 0) 0 12;
    c < 65536 ∧ po ≤ 2051 ∧ s.stoOnFace m set po = true ∧ (s.path c).valid = false) ∧
  (let set : Nat := 0; set < 5 ∧ let m : Master := .pf 0; (set = 4 → m.isFw = true) ∧
    let a := blockBase 13 + 0x5000 + 0x100 * set; let s : State := W.up; s.writes m a ∧
    (s.sto.sets.getD set {}).busy = false ∧ let c : Nat := 65536; c < 2097152 ∧ s.ready 16 = true ∧ 65536 ≤ c) ∧
  (let set : Nat := 0; set < 5 ∧ let m : Master := .pf 0; (set = 4 → m.isFw = true) ∧
    let a := blockBase 13 + 0x5000 + 0x100 * set; let s : State := W.transportCommandsM3; s.writes m a ∧
    (s.sto.sets.getD set {}).busy = false ∧ let c : Nat := 6; c < 2097152 ∧ s.ready 16 = true ∧ let x := s.ctx c;
    let mine := c < 1048576 ∧ x.valid = true ∧ s.stoOnFace m set x.owner = true; mine ∧ s.ctxLive x = true ∧
    x.kind = .nvt ∧ x.nvt = .resync) ∧
  (let set : Nat := 0; set < 5 ∧ let m : Master := .pf 0; (set = 4 → m.isFw = true) ∧
    let a := blockBase 13 + 0x5000 + 0x100 * set; let s : State := W.transportCommandsM3; s.writes m a ∧
    (s.sto.sets.getD set {}).busy = false ∧ let c : Nat := 2; c < 2097152 ∧ s.ready 16 = true ∧ let x := s.ctx c;
    let mine := c < 1048576 ∧ x.valid = true ∧ s.stoOnFace m set x.owner = true; mine ∧ s.ctxLive x = true ∧
    x.nvt = .track) := by
  refine ⟨?_, ?_, ?_, ?_, ?_, ?_, ?_, ?_, ?_, ?_, ?_, ?_, ?_, ?_, ?_, ?_⟩
  all_goals (try unfold State.writes)
  all_goals (try unfold State.reaches)
  all_goals decide +kernel

def W.transportTimersA : State :=
  { W.up with sto := { W.up.sto with ctxs := [(2, { kind := .rc, valid := true, state := .rts, ownerGen := 3, words := [1, 0, 0x7030000, 0, 0, 0, 0, 0, 0, 0, 0, 0, 0, 0, 0, 0], delayEnd := some 3000000, ePsn := 0, ackEnd := some 5, unack := 4, sPsn := 9, sendAt := 9, rnrEnd := some 3000000, rc := 100, rt := 200 }), (3, { kind := .rc, valid := true, state := .rts, ownerGen := 3, words := [1, 0, 0x7030000, 0, 0, 0, 0, 0, 0, 0, 0, 0, 0, 0, 0, 0], rnrEnd := some 3000001, ackEnd := some 3000000, unack := 4, sPsn := 9, retries := 7, msgs := [{ first := 3, op := 1, psn := some 4, pkts := 5 }] })] } }

/-- Premises of TransportTimers, clause by clause. -/
theorem premises_TransportTimers :
  (let s : State := W.transportTimersA; s.released = true ∧ s.ready 13 = true ∧ let c : Nat := 2; let x := s.ctx c;
    ∃ e ∈ x.delayEnd, e ≤ s.now ∧ s.ctxLive x = true) ∧
  (let s : State := W.transportTimersA; s.released = true ∧ s.ready 13 = true ∧ let c : Nat := 2; let x := s.ctx c;
    ∃ e ∈ x.ackEnd, e ≤ s.now ∧ s.ctxLive x = true ∧ x.unack ≠ x.sPsn ∧ x.retries < bitsOf (x.words.getD 2 0) 24 3) ∧
  (let s : State := W.transportTimersA; s.released = true ∧ s.ready 13 = true ∧ let c : Nat := 3; let x := s.ctx c;
    ∃ e ∈ x.ackEnd, e ≤ s.now ∧ s.ctxLive x = true ∧ x.unack ≠ x.sPsn ∧ bitsOf (x.words.getD 2 0) 24 3 ≤ x.retries) ∧
  (let s : State := W.transportTimersA; s.released = true ∧ s.ready 13 = true ∧ let c : Nat := 2; let x := s.ctx c;
    ∃ e ∈ x.rnrEnd, e ≤ s.now) ∧
  (let s : State := W.transportTimersA; s.released = true ∧ s.ready 13 = true ∧ let c : Nat := 3; let x := s.ctx c;
    ∃ e ∈ x.rnrEnd, s.now < e) ∧
  (let s : State := W.transportTimersA; s.released = true ∧ s.ready 13 = true ∧ let c : Nat := 2; let x := s.ctx c;
    x.valid = true ∧ x.alphaAt + 1000 * s.fld Reg.stoCc1 [] 0 16 ≤ s.now) ∧
  (let s : State := W.transportTimersA; s.released = true ∧ s.ready 13 = true ∧ let c : Nat := 2; let x := s.ctx c;
    x.valid = true ∧ x.incrAt + 1000 * s.fld Reg.stoCc1 [] 16 16 ≤ s.now ∧ x.stage < s.fld Reg.stoCc0 [] 8 8 ∧
    x.incrBytes < 1024 * s.word Reg.stoCc5 []) := by
  refine ⟨?_, ?_, ?_, ?_, ?_, ?_, ?_⟩
  all_goals decide +kernel

def W.roce (op dest psn : Nat) : List Byte :=
  List.replicate 12 0x22 ++ [8, 0] ++ [0x45,0,0,60, 0,1,0,0, 64,17,0,0, 10,0,0,1, 10,0,0,2] ++ [0x12,0xB7,0x12,0xB7,0,40,0,0]
  ++ toBe 1 op ++ toBe 1 0 ++ toBe 2 0xFFFF ++ toBe 1 0 ++ toBe 3 dest ++ toBe 1 0x80 ++ toBe 3 psn ++ List.replicate 16 7 ++ [1,2,3,4]
def W.rp (op dest psn : Nat) : Packet :=
  { stage := .atStorage, bytes := W.roce op dest psn, mark := { len := (W.roce op dest psn).length, hdrs := [{ typ := 1 }, { typ := 5, off := 7 }, { typ := 10, off := 17 }, { typ := 21, off := 21 }] } }
def W.cx (k : CtxKind) (t : CtxSt) : Ctx :=
  { kind := k, valid := true, state := t, ownerGen := 3, words := [1, 0, 0x7030000, 0, 0, 0, 0, 0, 0, 0, 0, 0, 0, 0, 0, 0] }
def W.rx : State := { (W.up.setWord Reg.stoClassProf [0] 1).setWord Reg.stoClassProf [1] 5 with
  packets := [(1, W.rp 4 9 0), (2, W.rp 4 2 5), (3, { W.rp 4 2 5 with mark := { (W.rp 4 2 5).mark with cls := 1 } }), (4, W.rp 4 2 0x900000), (5, W.rp 4 1 5), (6, { W.rp 4 2 5 with passBy := true }), (7, W.rp 4 2 0)], nextPkt := 9
  sto := { W.up.sto with ctxs := [(2, { W.cx .rc .rts with nakSent := true })] } }
def W.snd : State :=
  { W.up with sto := { W.up.sto with ctxs := [(2, { W.cx .rc .rts with outs := [{ num := 0, psn := 1, op := 4, data := [1,2,3,4] }] }), (3, { W.cx .rc .rts with reads := [{ psn := 4, addr := 0x1000, len := 64 }] }), (4, W.cx .rc .rtr)] } }
def W.ddp : State :=
  { W.up with sto := { W.up.sto with ctxs := [(2, { W.cx .nvt .rts with words := [3, 0x4000] }), (3, { W.cx .nvt .rts with words := [3, 0x4001] }), (4, { W.cx .nvt .rts with words := [3, 0x4002], ddp := (List.range 256).map (fun k => { cid := k + 300, segs := [], refTag := 0 }) })] }, qmg := { W.up.qmg with queues := [(0, { state := .running, items := [{ first := 0, phase := .ready, segs := [(0x1000, 64, [])], descs := [List.replicate 8 0 ++ toLe 4 (2 ^ 19) ++ List.replicate 20 1] }] }), (1, { state := .running, items := [{ first := 0, phase := .ready, descs := [List.replicate 8 0 ++ toLe 4 (2 * 2 ^ 19) ++ List.replicate 20 1] }] }), (2, { state := .running, items := [{ first := 0, phase := .ready, segs := [(0x1000, 64, [])], descs := [List.replicate 8 0 ++ toLe 4 (2 ^ 19) ++ List.replicate 20 1] }] })] } }

/-- Premises of TransportPackets, clause by clause. -/
theorem premises_TransportPackets :
  (let s : State := W.rx; s.released = true ∧ s.ready 13 = true ∧ let p : Nat := 5;
    ∃ x ∈ s.pkt p, x.stage = .atStorage ∧ let prof := s.word Reg.stoClassProf [x.mark.cls];
    let o := (x.mark.heads.getLastD (0, 0)).2; let r := roceParts x.mark x.bytes o; let roce := (
                  bitOf prof 0 = true ∧ (x.mark.heads.getLastD (0, 0)).1 = 21 ∧ x.passBy = false
        ∧ x.mark.flags.drop = false ∧ x.mark.flags.exception = false ∧ x.ended = true);
    (x.passBy = true ∨ x.mark.flags.drop = true ∨ x.mark.flags.exception = true
        ∨ (bitOf prof 0 = false ∧ bitOf prof 1 = false) ∨ (roce ∧ (r.dest < 2 ∨ 1048576 ≤ r.dest)))) ∧
  (let s : State := W.rx; s.released = true ∧ s.ready 13 = true ∧ let p : Nat := 1;
    ∃ x ∈ s.pkt p, x.stage = .atStorage ∧ let prof := s.word Reg.stoClassProf [x.mark.cls];
    let o := (x.mark.heads.getLastD (0, 0)).2; let r := roceParts x.mark x.bytes o; let roce := (
                  bitOf prof 0 = true ∧ (x.mark.heads.getLastD (0, 0)).1 = 21 ∧ x.passBy = false
        ∧ x.mark.flags.drop = false ∧ x.mark.flags.exception = false ∧ x.ended = true); roce ∧ 2 ≤ r.dest ∧
    r.dest < 1048576 ∧ (bitOf prof 2 = true → icrcGood x.mark x.bytes o = true) ∧ (s.ctx r.dest).valid = false) ∧
  (let s : State := W.rx; s.released = true ∧ s.ready 13 = true ∧ let p : Nat := 3;
    ∃ x ∈ s.pkt p, x.stage = .atStorage ∧ let prof := s.word Reg.stoClassProf [x.mark.cls];
    let o := (x.mark.heads.getLastD (0, 0)).2; let r := roceParts x.mark x.bytes o; let roce := (
                  bitOf prof 0 = true ∧ (x.mark.heads.getLastD (0, 0)).1 = 21 ∧ x.passBy = false
        ∧ x.mark.flags.drop = false ∧ x.mark.flags.exception = false ∧ x.ended = true); roce ∧ 2 ≤ r.dest ∧
    r.dest < 1048576 ∧ bitOf prof 2 = true ∧ icrcGood x.mark x.bytes o = false) ∧
  (let s : State := W.rx; s.released = true ∧ s.ready 13 = true ∧ let p : Nat := 2;
    ∃ x ∈ s.pkt p, x.stage = .atStorage ∧ let prof := s.word Reg.stoClassProf [x.mark.cls];
    let o := (x.mark.heads.getLastD (0, 0)).2; let r := roceParts x.mark x.bytes o; let t := s.begun.touchCtx r.dest;
    let y := t.ctx r.dest; let roce := (
                  bitOf prof 0 = true ∧ (x.mark.heads.getLastD (0, 0)).1 = 21 ∧ x.passBy = false
        ∧ x.mark.flags.drop = false ∧ x.mark.flags.exception = false ∧ x.ended = true); let mine := (
                  roce ∧ 2 ≤ r.dest ∧ r.dest < 1048576 ∧ (bitOf prof 2 = true → icrcGood x.mark x.bytes o = true)
        ∧ (s.ctx r.dest).valid = true ∧ (s.ctx r.dest).kind = .rc ∧ t.genOk y.owner y.ownerGen = true
        ∧ (x.mark.inst = noInst ∨ x.mark.inst = y.owner) ∧ (y.state = .rtr ∨ y.state = .rts) ∧ r.ce = false ∧
    r.op ≤ 0x0B); mine ∧ 0 < sub24 r.psn y.ePsn ∧ sub24 r.psn y.ePsn < 2 ^ 23 ∧ y.nakSent = true) ∧
  (let s : State := W.rx; s.released = true ∧ s.ready 13 = true ∧ let p : Nat := 4;
    ∃ x ∈ s.pkt p, x.stage = .atStorage ∧ let prof := s.word Reg.stoClassProf [x.mark.cls];
    let o := (x.mark.heads.getLastD (0, 0)).2; let r := roceParts x.mark x.bytes o; let t := s.begun.touchCtx r.dest;
    let y := t.ctx r.dest; let roce := (
                  bitOf prof 0 = true ∧ (x.mark.heads.getLastD (0, 0)).1 = 21 ∧ x.passBy = false
        ∧ x.mark.flags.drop = false ∧ x.mark.flags.exception = false ∧ x.ended = true); let mine := (
                  roce ∧ 2 ≤ r.dest ∧ r.dest < 1048576 ∧ (bitOf prof 2 = true → icrcGood x.mark x.bytes o = true)
        ∧ (s.ctx r.dest).valid = true ∧ (s.ctx r.dest).kind = .rc ∧ t.genOk y.owner y.ownerGen = true
        ∧ (x.mark.inst = noInst ∨ x.mark.inst = y.owner) ∧ (y.state = .rtr ∨ y.state = .rts) ∧ r.ce = false ∧
    r.op ≤ 0x0B); mine ∧ 2 ^ 23 ≤ sub24 r.psn y.ePsn) ∧
  (let s : State := W.snd; s.released = true ∧ s.ready 13 = true ∧ let c : Nat := 2; let t := s.begun.touchCtx c;
    let y := t.ctx c; s.ctxLive (s.ctx c) = true ∧ (s.ctx c).kind ≠ .nvt ∧
    ((s.ctx c).state = .rtr ∨ (s.ctx c).state = .rts) ∧ ∃ o ∈ y.outs.head?, let os := y.outs.tail; y.outs = o :: os ∧
    o.reads = 0 ∧ (y.ccEn = false ∨ y.nextSend ≤ (s.now : Rat))) ∧
  (let s : State := W.snd; s.released = true ∧ s.ready 13 = true ∧ let c : Nat := 3; let t := s.begun.touchCtx c;
    let y := t.ctx c; s.ctxLive (s.ctx c) = true ∧ (s.ctx c).kind ≠ .nvt ∧
    ((s.ctx c).state = .rtr ∨ (s.ctx c).state = .rts) ∧ y.outs = [] ∧ y.reads ≠ []) ∧
  (let s : State := W.snd; s.released = true ∧ s.ready 13 = true ∧ let c : Nat := 4; let t := s.begun.touchCtx c;
    let y := t.ctx c; s.ctxLive (s.ctx c) = true ∧ (s.ctx c).kind ≠ .nvt ∧
    ((s.ctx c).state = .rtr ∨ (s.ctx c).state = .rts) ∧ y.outs = [] ∧ y.reads = [] ∧ (s.ctx c).state = .rtr) ∧
  (let s : State := W.ddp; s.released = true ∧ s.ready 13 = true ∧ let c : Nat := 4;
    ∃ w0 ∈ s.ddpItem c 1, let i := w0.2; let t := s.begun.touchCtx c; let y := t.ctx c;
    let cid := bitsOf (leAt i.head 16 4) 0 16; let rest := y.ddp.filter (fun e => decide (e.cid ≠ cid));
    256 ≤ rest.length) ∧
  (let s : State := W.ddp; s.released = true ∧ s.ready 13 = true ∧ let c : Nat := 2;
    ∃ w0 ∈ s.ddpItem c 1, let i := w0.2; let t := s.begun.touchCtx c; let y := t.ctx c;
    let cid := bitsOf (leAt i.head 16 4) 0 16; let rest := y.ddp.filter (fun e => decide (e.cid ≠ cid));
    rest.length < 256) ∧
  (let s : State := W.ddp; s.released = true ∧ s.ready 13 = true ∧ let c : Nat := 3;
    ∃ w0 ∈ s.ddpItem c 2, let i := w0.2; let t := s.begun.touchCtx c; let y := t.ctx c;
    let cid := bitsOf (leAt i.head 16 4) 0 16; y.pdu.cid ≠ some cid ∧ (∀ g ∈ y.placing, g.cid ≠ some cid)) := by
  refine ⟨?_, ?_, ?_, ?_, ?_, ?_, ?_, ?_, ?_, ?_, ?_⟩
  all_goals decide +kernel

def W.packetsAreAdmittedA1 : State :=
  { W.up with packets := [(1, { stage := .atBuffer, bytes := List.replicate 300 1, mark := { entAct := .htx, act := .htx, inst := 0, gen := 3, dstPort := 3, len := 300, ts := 3000000 } })], nextPkt := 100, line := { W.up.line with ports := [(3, { running := true, lanes := 8, laneRate := 1, align := true, linkUp := true }), (5, { running := true, lanes := 8, laneRate := 1, align := true, linkUp := true })] } }
def W.packetsAreAdmittedFull : State :=
  { { W.up with buf := { W.up.buf with used := 262143, pgs := [(40, { used := 262143 })], egs := [(24, 262143)], acts := [(2, { used := 262143 })] } } with packets := [(1, { stage := .atBuffer, bytes := List.replicate 300 1, mark := { entAct := .htx, act := .htx, inst := 0, gen := 3, dstPort := 3, len := 300, ts := 3000000 } }), (3, { stage := .bufWait, bytes := List.replicate 300 1, mark := { entAct := .htx, act := .htx, inst := 0, gen := 3, dstPort := 3, len := 300, ts := 3000000 }, eg := .line 3 0, ing := .act .htx, txq := (W.up.fld Reg.tmsExitCfg [3] 8 12), since := 2999999 }), (6, { stage := .atBuffer, bytes := List.replicate 300 1, mark := { entAct := .lrx, srcPort := 5, inst := 0, gen := 3, dstPort := 3, len := 300, ts := 3000000 } })], nextPkt := 100, line := { W.up.line with ports := [(3, { running := true, lanes := 8, laneRate := 1, align := true, linkUp := true }), (5, { running := true, lanes := 8, laneRate := 1, align := true, linkUp := true })] } }
def W.packetsAreAdmittedA3 : State :=
  { W.up with packets := [(3, { stage := .bufWait, bytes := List.replicate 300 1, mark := { entAct := .htx, act := .htx, inst := 0, gen := 3, dstPort := 3, len := 300, ts := 3000000 }, eg := .line 3 0, ing := .act .htx, txq := (W.up.fld Reg.tmsExitCfg [3] 8 12), since := 2999999 })], nextPkt := 100, line := { W.up.line with ports := [(3, { running := true, lanes := 8, laneRate := 1, align := true, linkUp := true }), (5, { running := true, lanes := 8, laneRate := 1, align := true, linkUp := true })] } }
def W.packetsAreAdmittedA : State :=
  { { W.up with buf := { W.up.buf with used := 11, egs := [(24, 6)], acts := [(2, { used := 5 })] } } with packets := [(1, { stage := .atBuffer, bytes := List.replicate 300 1, mark := { entAct := .htx, act := .htx, inst := 0, gen := 3, dstPort := 3, len := 300, ts := 3000000 } }), (2, { stage := .atBuffer, bytes := List.replicate 300 1, mark := { entAct := .htx, act := .htx, inst := 0, gen := 3, dstPort := 3, len := 300, ts := 3000000, flags := { drop := true } } }), (3, { stage := .bufWait, bytes := List.replicate 300 1, mark := { entAct := .htx, act := .htx, inst := 0, gen := 3, dstPort := 3, len := 300, ts := 3000000 }, eg := .line 3 0, ing := .act .htx, txq := (W.up.fld Reg.tmsExitCfg [3] 8 12), since := 2999999 }), (4, { stage := .bufWait, bytes := List.replicate 300 1, mark := { entAct := .htx, act := .htx, inst := 0, gen := 3, dstPort := 3, len := 300, ts := 3000000 }, since := 0 }), (5, { stage := .queued, bytes := List.replicate 300 1, mark := { entAct := .htx, act := .htx, inst := 0, gen := 3, dstPort := 3, len := 300, ts := 3000000 }, prov := true, ingCells := 5, egCells := 6, eg := .line 3 0, ing := .act .htx }), (6, { stage := .atBuffer, bytes := List.replicate 300 1, mark := { entAct := .lrx, srcPort := 5, inst := 0, gen := 3, dstPort := 3, len := 300, ts := 3000000 } })], nextPkt := 100, line := { W.up.line with ports := [(3, { running := true, lanes := 8, laneRate := 1, align := true, linkUp := true }), (5, { running := true, lanes := 8, laneRate := 1, align := true, linkUp := true })] } }
def W.packetsAreAdmittedA5 : State :=
  { { W.up with buf := { W.up.buf with used := 11, egs := [(24, 6)], acts := [(2, { used := 5 })] } } with packets := [(5, { stage := .queued, bytes := List.replicate 300 1, mark := { entAct := .htx, act := .htx, inst := 0, gen := 3, dstPort := 3, len := 300, ts := 3000000 }, prov := true, ingCells := 5, egCells := 6, eg := .line 3 0, ing := .act .htx })], nextPkt := 100, line := { W.up.line with ports := [(3, { running := true, lanes := 8, laneRate := 1, align := true, linkUp := true }), (5, { running := true, lanes := 8, laneRate := 1, align := true, linkUp := true })] } }

/-- Premises of PacketsAreAdmitted, clause by clause. -/
theorem premises_PacketsAreAdmitted :
  (let s : State := W.packetsAreAdmittedA1; s.released = true ∧ s.ready 15 = true ∧ let p : Nat := 1;
    ∃ x ∈ s.pkt p, x.ended = true ∧ let n := portLocal x.mark.dstPort;
    let pri := s.fld Reg.bufClassMap [x.mark.cls] 0 3; let c := (x.mark.len + 255) / 256;
    let i : IngUnit := if x.mark.entAct = .lrx then .pg (portLocal x.mark.srcPort) pri else .act x.mark.entAct;
    let e : EgUnit := .line n pri; let q := s.fld Reg.tmsExitCfg [n] 8 12 + pri; let fs := s.sharedFree;
    let ing := s.ingUsed i + c ≤ s.ingRsv i + thr (s.ingAlpha i) fs ∧ c ≤ fs + (s.ingRsv i - s.ingUsed i);
    let eg := s.egUsed e + c ≤ max (bitsOf (s.egCfg e) 0 16) (thr (bitsOf (s.egCfg e) 16 4) (262144 - s.buf.used));
    let lossless := match i with | .pg k g => s.lossless k g | .act _ => false; let plain := (
                   portModule x.mark.dstPort = s.moduleId ∧ n < 32 ∧ s.lineShut n = false ∧ x.mark.flags.mirror = false
        ∧ x.mark.flags.drop = false ∧ x.mark.queue = 0 ∧ x.ingCells = 0 ∧ x.hdrmCells = 0 ∧ x.egCells = 0 ∧
    x.copy = false
        ∧ s.familyHolds p x = false ∧ s.tms.groupKept = [] ∧ s.tms.exitKept = [] ∧ q ≤ 4095 ∧
    s.groupExit (s.tqGroup q) = n
        ∧ bitsOf (s.egCfg e) 20 3 = 0); plain ∧ x.stage = .atBuffer ∧ ing ∧ (lossless = true ∨ eg)) ∧
  (let s : State := W.packetsAreAdmittedFull; s.released = true ∧ s.ready 15 = true ∧ let p : Nat := 6;
    ∃ x ∈ s.pkt p, x.ended = true ∧ let n := portLocal x.mark.dstPort;
    let pri := s.fld Reg.bufClassMap [x.mark.cls] 0 3; let c := (x.mark.len + 255) / 256;
    let i : IngUnit := if x.mark.entAct = .lrx then .pg (portLocal x.mark.srcPort) pri else .act x.mark.entAct;
    let e : EgUnit := .line n pri; let q := s.fld Reg.tmsExitCfg [n] 8 12 + pri; let fs := s.sharedFree;
    let ing := s.ingUsed i + c ≤ s.ingRsv i + thr (s.ingAlpha i) fs ∧ c ≤ fs + (s.ingRsv i - s.ingUsed i);
    let lossless := match i with | .pg k g => s.lossless k g | .act _ => false; let plain := (
                   portModule x.mark.dstPort = s.moduleId ∧ n < 32 ∧ s.lineShut n = false ∧ x.mark.flags.mirror = false
        ∧ x.mark.flags.drop = false ∧ x.mark.queue = 0 ∧ x.ingCells = 0 ∧ x.hdrmCells = 0 ∧ x.egCells = 0 ∧
    x.copy = false
        ∧ s.familyHolds p x = false ∧ s.tms.groupKept = [] ∧ s.tms.exitKept = [] ∧ q ≤ 4095 ∧
    s.groupExit (s.tqGroup q) = n
        ∧ bitsOf (s.egCfg e) 20 3 = 0); plain ∧ x.stage = .atBuffer ∧ x.mark.entAct = .lrx ∧ lossless = false ∧ ¬ ing) ∧
  (let s : State := W.packetsAreAdmittedFull; s.released = true ∧ s.ready 15 = true ∧ let p : Nat := 1;
    ∃ x ∈ s.pkt p, x.ended = true ∧ let n := portLocal x.mark.dstPort;
    let pri := s.fld Reg.bufClassMap [x.mark.cls] 0 3; let c := (x.mark.len + 255) / 256;
    let i : IngUnit := if x.mark.entAct = .lrx then .pg (portLocal x.mark.srcPort) pri else .act x.mark.entAct;
    let e : EgUnit := .line n pri; let q := s.fld Reg.tmsExitCfg [n] 8 12 + pri; let fs := s.sharedFree;
    let ing := s.ingUsed i + c ≤ s.ingRsv i + thr (s.ingAlpha i) fs ∧ c ≤ fs + (s.ingRsv i - s.ingUsed i);
    let eg := s.egUsed e + c ≤ max (bitsOf (s.egCfg e) 0 16) (thr (bitsOf (s.egCfg e) 16 4) (262144 - s.buf.used));
    let plain := (
                   portModule x.mark.dstPort = s.moduleId ∧ n < 32 ∧ s.lineShut n = false ∧ x.mark.flags.mirror = false
        ∧ x.mark.flags.drop = false ∧ x.mark.queue = 0 ∧ x.ingCells = 0 ∧ x.hdrmCells = 0 ∧ x.egCells = 0 ∧
    x.copy = false
        ∧ s.familyHolds p x = false ∧ s.tms.groupKept = [] ∧ s.tms.exitKept = [] ∧ q ≤ 4095 ∧
    s.groupExit (s.tqGroup q) = n
        ∧ bitsOf (s.egCfg e) 20 3 = 0); plain ∧ x.stage = .atBuffer ∧
    let a := match i with | .act a => a | _ => .recirc; i = .act a ∧ a ≠ .recirc ∧ ¬ (ing ∧ eg)) ∧
  (let s : State := W.packetsAreAdmittedA3; s.released = true ∧ s.ready 15 = true ∧ let p : Nat := 3;
    ∃ x ∈ s.pkt p, x.ended = true ∧ let n := portLocal x.mark.dstPort;
    let pri := s.fld Reg.bufClassMap [x.mark.cls] 0 3; let c := (x.mark.len + 255) / 256;
    let i : IngUnit := if x.mark.entAct = .lrx then .pg (portLocal x.mark.srcPort) pri else .act x.mark.entAct;
    let e : EgUnit := .line n pri; let q := s.fld Reg.tmsExitCfg [n] 8 12 + pri; let fs := s.sharedFree;
    let ing := s.ingUsed i + c ≤ s.ingRsv i + thr (s.ingAlpha i) fs ∧ c ≤ fs + (s.ingRsv i - s.ingUsed i);
    let eg := s.egUsed e + c ≤ max (bitsOf (s.egCfg e) 0 16) (thr (bitsOf (s.egCfg e) 16 4) (262144 - s.buf.used));
    let lossless := match i with | .pg k g => s.lossless k g | .act _ => false; let plain := (
                   portModule x.mark.dstPort = s.moduleId ∧ n < 32 ∧ s.lineShut n = false ∧ x.mark.flags.mirror = false
        ∧ x.mark.flags.drop = false ∧ x.mark.queue = 0 ∧ x.ingCells = 0 ∧ x.hdrmCells = 0 ∧ x.egCells = 0 ∧
    x.copy = false
        ∧ s.familyHolds p x = false ∧ s.tms.groupKept = [] ∧ s.tms.exitKept = [] ∧ q ≤ 4095 ∧
    s.groupExit (s.tqGroup q) = n
        ∧ bitsOf (s.egCfg e) 20 3 = 0); plain ∧ x.stage = .bufWait ∧ x.eg = e ∧ x.txq = q ∧ ing ∧
    (lossless = true ∨ eg)) ∧
  (let s : State := W.packetsAreAdmittedFull; s.released = true ∧ s.ready 15 = true ∧ let p : Nat := 3;
    ∃ x ∈ s.pkt p, x.ended = true ∧ let n := portLocal x.mark.dstPort;
    let pri := s.fld Reg.bufClassMap [x.mark.cls] 0 3; let c := (x.mark.len + 255) / 256;
    let i : IngUnit := if x.mark.entAct = .lrx then .pg (portLocal x.mark.srcPort) pri else .act x.mark.entAct;
    let e : EgUnit := .line n pri; let q := s.fld Reg.tmsExitCfg [n] 8 12 + pri; let fs := s.sharedFree;
    let ing := s.ingUsed i + c ≤ s.ingRsv i + thr (s.ingAlpha i) fs ∧ c ≤ fs + (s.ingRsv i - s.ingUsed i);
    let eg := s.egUsed e + c ≤ max (bitsOf (s.egCfg e) 0 16) (thr (bitsOf (s.egCfg e) 16 4) (262144 - s.buf.used));
    let plain := (
                   portModule x.mark.dstPort = s.moduleId ∧ n < 32 ∧ s.lineShut n = false ∧ x.mark.flags.mirror = false
        ∧ x.mark.flags.drop = false ∧ x.mark.queue = 0 ∧ x.ingCells = 0 ∧ x.hdrmCells = 0 ∧ x.egCells = 0 ∧
    x.copy = false
        ∧ s.familyHolds p x = false ∧ s.tms.groupKept = [] ∧ s.tms.exitKept = [] ∧ q ≤ 4095 ∧
    s.groupExit (s.tqGroup q) = n
        ∧ bitsOf (s.egCfg e) 20 3 = 0); plain ∧ x.stage = .bufWait ∧ x.eg = e ∧
    let a := match i with | .act a => a | _ => .recirc; i = .act a ∧ a ≠ .recirc ∧ ¬ (ing ∧ eg)) ∧
  (let s : State := W.packetsAreAdmittedA; s.released = true ∧ s.ready 15 = true ∧ let p : Nat := 2;
    ∃ x ∈ s.pkt p, x.ended = true ∧ x.stage = .atBuffer ∧ x.mark.flags.mirror = false ∧ x.mark.flags.drop = true) ∧
  (let s : State := W.packetsAreAdmittedA; s.released = true ∧ s.ready 15 = true ∧ let p : Nat := 3;
    ∃ x ∈ s.pkt p, x.ended = true ∧ x.stage = .bufWait ∧
    s.now < x.since + s.fld Reg.bufIngWait [x.mark.entAct.val] 0 12) ∧
  (let s : State := W.packetsAreAdmittedA; s.released = true ∧ s.ready 15 = true ∧ let p : Nat := 4;
    ∃ x ∈ s.pkt p, x.ended = true ∧ x.stage = .bufWait ∧
    x.since + s.fld Reg.bufIngWait [x.mark.entAct.val] 0 12 ≤ s.now) ∧
  (let s : State := W.packetsAreAdmittedA5; s.released = true ∧ s.ready 15 = true ∧ let p : Nat := 5;
    ∃ x ∈ s.pkt p, x.ended = true ∧ let c := (x.mark.len + 255) / 256; x.stage = .queued ∧ x.prov = true ∧ x.raw = [] ∧
    x.late = [] ∧ s.family p x = [] ∧ x.hdrmCells = 0 ∧ c ≤ x.ingCells ∧ c ≤ x.egCells ∧ x.egCells ≤ s.egUsed x.eg ∧
    x.ingCells ≤ s.buf.used) := by
  refine ⟨?_, ?_, ?_, ?_, ?_, ?_, ?_, ?_, ?_⟩
  all_goals decide +kernel

def W.packetsAreHeldA : State :=
  { { ((W.up.setWord Reg.bufHrxQprof [7] 1).setWord Reg.bufHrxProf1 [1] 2) with buf := { W.up.buf with spillEn := true, spillMib := 64, used := 50, peak := 70, rxqs := [(7, 6)], spilled := [(7, 9)], pgs := [(40, { used := 100, hdrmUsed := 0, xoff := true }), (41, { hdrmUsed := 3 })] }, qmg := { W.up.qmg with queues := [(16391, { state := .running, ctx := { inst := 0 } })] } } with packets := [(1, { stage := .queued, eg := .rxq 7, bytes := List.replicate 300 1, mark := { entAct := .lrx, inst := 0, gen := 3, len := 300, ts := 3000000 }, egCells := 2, ingCells := 2 }), (2, { stage := .queued, eg := .rxq 7, bytes := List.replicate 300 1, mark := { entAct := .lrx, inst := 0, gen := 3, len := 300, ts := 3000000 }, egCells := 2, ingCells := 2, spill := true }), (3, { stage := .queued, eg := .rxq 7, bytes := List.replicate 300 1, mark := { entAct := .lrx, inst := 0, gen := 3, len := 300, ts := 3000000 }, egCells := 2, ingCells := 2, spill := true, inHbm := true }), (4, { stage := .queued, eg := .line 3 0, mark := { ts := 3000001 } }), (5, { stage := .queued, eg := .line 3 0, mark := { ts := 2999999 } }), (6, { stage := .leaving, eg := .line 4 0, mark := { ts := 3000001 } })], nextPkt := 100, line := { W.up.line with ports := [(3, { running := true, lanes := 8, laneRate := 1, align := true, linkUp := true }), (5, { running := true, lanes := 8, laneRate := 1, align := true, linkUp := true })] } }
def W.packetsAreHeldB4 : State :=
  { { ((W.up.setWord Reg.bufHrxQprof [7] 1).setWord Reg.bufHrxProf1 [1] 4) with buf := { W.up.buf with holdAt := some 2500000 } } with packets := [(1, { stage := .queued, eg := .rxq 7, bytes := List.replicate 300 1, mark := { entAct := .lrx, inst := 0, gen := 3, len := 300, ts := 3000000 }, egCells := 2, ingCells := 2 })], nextPkt := 100, line := { W.up.line with ports := [(3, { running := true, lanes := 8, laneRate := 1, align := true, linkUp := true }), (5, { running := true, lanes := 8, laneRate := 1, align := true, linkUp := true })] } }
def W.packetsAreHeldB : State :=
  { { ((W.up.setWord Reg.bufHrxQprof [7] 1).setWord Reg.bufHrxProf1 [1] 3) with tsu := { W.up.tsu with tick := 3000000 }, buf := { W.up.buf with holdAt := some 2500000 } } with packets := [(1, { stage := .queued, eg := .rxq 7, bytes := List.replicate 300 1, mark := { entAct := .lrx, inst := 0, gen := 3, len := 300, ts := 3000000 }, egCells := 2, ingCells := 2 })], nextPkt := 100, line := { W.up.line with ports := [(3, { running := true, lanes := 8, laneRate := 1, align := true, linkUp := true }), (5, { running := true, lanes := 8, laneRate := 1, align := true, linkUp := true })] } }

/-- Premises of PacketsAreHeld, clause by clause. -/
theorem premises_PacketsAreHeld :
  (let s : State := W.packetsAreHeldA; s.released = true ∧ s.ready 15 = true ∧ let n : Nat := 3; n < 32 ∧
    let p : Nat := 0; p < 8) ∧
  (let s : State := W.packetsAreHeldA; s.released = true ∧ s.ready 15 = true ∧ keysRise s.packets = true) ∧
  (let s : State := W.packetsAreHeldB4; s.released = true ∧ s.ready 15 = true ∧ let p : Nat := 1;
    ∃ x ∈ s.pkt p, x.stage = .queued ∧ let q := match x.eg with | .rxq q => q | _ => 0; x.eg = .rxq q ∧
    let ms := s.fld Reg.bufHrxProf1 [s.fld Reg.bufHrxQprof [q] 0 4] 0 16;
    (ms = 0 ∨ s.now < x.admitted + 1000000 * ms)) ∧
  (let s : State := W.packetsAreHeldA; s.released = true ∧ s.ready 15 = true ∧ let p : Nat := 1;
    ∃ x ∈ s.pkt p, x.stage = .queued ∧ let q := match x.eg with | .rxq q => q | _ => 0; x.eg = .rxq q ∧
    let ms := s.fld Reg.bufHrxProf1 [s.fld Reg.bufHrxQprof [q] 0 4] 0 16; ms ≠ 0 ∧ x.admitted + 1000000 * ms ≤ s.now ∧
    s.buf.holdAt = none) ∧
  (let s : State := W.packetsAreHeldB; s.released = true ∧ s.ready 15 = true ∧ let p : Nat := 1;
    ∃ x ∈ s.pkt p, x.stage = .queued ∧ let q := match x.eg with | .rxq q => q | _ => 0; x.eg = .rxq q ∧
    let ms := s.fld Reg.bufHrxProf1 [s.fld Reg.bufHrxQprof [q] 0 4] 0 16; ms ≠ 0 ∧ x.admitted + 1000000 * ms ≤ s.now ∧
    ∃ t ∈ s.buf.holdAt, s.now < t + 1000000) ∧
  (let s : State := W.packetsAreHeldA; s.released = true ∧ s.ready 15 = true ∧ let p : Nat := 2;
    ∃ x ∈ s.pkt p, x.stage = .queued ∧ let q := match x.eg with | .rxq q => q | _ => 0; x.eg = .rxq q ∧ x.spill = true ∧
    x.inHbm = false ∧ x.prov = false ∧ s.buf.spillEn = true ∧ bitOf s.fuses.features 7 = true ∧ s.ready 16 = true) ∧
  (let s : State := W.packetsAreHeldA; s.released = true ∧ s.ready 15 = true ∧ let p : Nat := 3;
    ∃ x ∈ s.pkt p, x.stage = .queued ∧ let q := match x.eg with | .rxq q => q | _ => 0; x.eg = .rxq q ∧ x.inHbm = true ∧
    (s.queue (queueKey true q)).state = .running ∧ s.genOk x.mark.inst x.mark.gen = true) ∧
  (let s : State := W.packetsAreHeldA; s.released = true ∧ s.ready 15 = true ∧ let n : Nat := 3; n < 32 ∧
    keysRise s.packets = true ∧ s.lineShut n = false) ∧
  (let s : State := W.packetsAreHeldA; s.released = true ∧ s.ready 15 = true ∧ let n : Nat := 4; n < 32 ∧
    keysRise s.packets = true ∧ s.lineShut n = true) ∧
  (let s : State := W.packetsAreHeldA; s.released = true ∧ s.ready 15 = true ∧ s.banksHeld ∧ let m : Master := .pf 0;
    s.writes m (blockBase 15 + 4) ∧ let d : Nat := 2147483648; d < 2 ^ 32 ∧ bitOf d 31 = true) ∧
  (let s : State := W.packetsAreHeldA; s.released = true ∧ s.ready 15 = true ∧ s.banksHeld ∧ let m : Master := .pf 0;
    s.writes m (blockBase 15 + 4) ∧ let d : Nat := 0; d < 2 ^ 32 ∧ bitOf d 31 = false) := by
  refine ⟨?_, ?_, ?_, ?_, ?_, ?_, ?_, ?_, ?_, ?_, ?_⟩
  all_goals (try unfold State.writes)
  all_goals (try unfold State.reaches)
  all_goals (try unfold State.banksHeld)
  all_goals decide +kernel

def W.exitsAreServedR : State :=
  { W.up with packets := [(1, { stage := .queued, eg := .act .recirc, bytes := List.replicate 300 1, mark := { entAct := .lrx, inst := 0, gen := 3, pass := 1, len := 300, ts := 3000000, flags := { recirc := true } }, egCells := 2, ingCells := 2 }), (2, { stage := .waitSlot, since := 2996000, mark := { entAct := .recirc, course := 1 } }), (3, { stage := .waitSlot, since := 2996001, mark := { entAct := .recirc, course := 1 } })], nextPkt := 100, line := { W.up.line with ports := [(3, { running := true, lanes := 8, laneRate := 1, align := true, linkUp := true }), (5, { running := true, lanes := 8, laneRate := 1, align := true, linkUp := true })] } }
def W.exitsAreServedR2 : State :=
  { W.up with packets := [(1, { stage := .queued, eg := .act .recirc, bytes := List.replicate 300 1, mark := { entAct := .lrx, inst := 0, gen := 4, pass := 1, len := 300, ts := 3000000, flags := { recirc := true } }, egCells := 2, ingCells := 2 })], nextPkt := 100, line := { W.up.line with ports := [(3, { running := true, lanes := 8, laneRate := 1, align := true, linkUp := true }), (5, { running := true, lanes := 8, laneRate := 1, align := true, linkUp := true })] } }
def W.exitsAreServedH : State :=
  { W.up with packets := [(1, { stage := .queued, eg := .line 3 0, txq := (W.up.fld Reg.tmsExitCfg [3] 8 12), bytes := List.replicate 300 1, mark := { entAct := .htx, act := .ltx, inst := 0, gen := 3, dstPort := 3, len := 300, ts := 3000000 } })], nextPkt := 100, line := { W.up.line with ports := [(3, { running := true, lanes := 8, laneRate := 1, align := true, linkUp := true }), (5, { running := true, lanes := 8, laneRate := 1, align := true, linkUp := true })] } }
def W.exitsAreServedTx : State :=
  { W.up with packets := [(1, { stage := .queued, eg := .line 3 0, txq := (W.up.fld Reg.tmsExitCfg [3] 8 12), bytes := List.replicate 300 1, mark := { entAct := .htx, act := .ltx, inst := 0, gen := 3, dstPort := 3, len := 300, ts := 3000000 }, charged := some 400 })], nextPkt := 100, line := { W.up.line with ports := [(3, { running := true, lanes := 8, laneRate := 1, align := true, linkUp := true, txNow := some 1 }), (5, { running := true, lanes := 8, laneRate := 1, align := true, linkUp := true, txNow := some 1 })] } }
def W.exitsAreServedOdd : State :=
  { ((((W.up.setWord Reg.tmsGateList [3, 0] 2).setWord Reg.tmsGateEnt [3,0,0] 0x01000010).setWord Reg.tmsGateEnt [3,0,1] 0x03000020)) with tms := { W.up.tms with gates := [(3, { pending := some 0 })] }, tsu := { W.up.tsu with tick := 3000001 } }
def W.exitsAreServedShb : State :=
  { ({ W.up with packets := [(1, { stage := .queued, eg := .line 3 0, txq := (W.up.fld Reg.tmsExitCfg [3] 8 12), bytes := List.replicate 300 1, mark := { entAct := .htx, act := .ltx, inst := 0, gen := 3, dstPort := 3, len := 300, ts := 3000000 } })], nextPkt := 100, line := { W.up.line with ports := [(3, { running := true, lanes := 8, laneRate := 1, align := true, linkUp := true }), (5, { running := true, lanes := 8, laneRate := 1, align := true, linkUp := true })] } }) with regs := (((W.up.setWord Reg.tmsExitShp0 [3] 0x80001000).setWord Reg.tmsExitShp1 [3] 5000)).regs, tsu := { W.up.tsu with tick := 3200000 } }
def W.exitsAreServedSh : State :=
  { W.up with regs := (((W.up.setWord Reg.tmsExitShp0 [3] 0x80001000).setWord Reg.tmsExitShp1 [3] 5000).setWord Reg.tmsGroupShp0 [0] 0x80300001).regs, tsu := { W.up.tsu with tick := 3200000 }, tms := { W.up.tms with shapers := [(3, { credit := 100 }), (64, { credit := -100000000000000 })] } }
def W.exitsAreServedG : State :=
  ((W.up.setWord Reg.tmsGateList [3, 0] 2).setWord Reg.tmsGateEnt [3,0,0] 0x01000010).setWord Reg.tmsGateEnt [3,0,1] 0x03000020
def W.exitsAreServedGs : State :=
  { (((W.up.setWord Reg.tmsGateList [3, 0] 2).setWord Reg.tmsGateEnt [3,0,0] 0x01000010).setWord Reg.tmsGateEnt [3,0,1] 0x03000020) with tms := { W.up.tms with gates := [(3, { pending := some 0 })] } }

/-- Premises of ExitsAreServed, clause by clause. -/
theorem premises_ExitsAreServed :
  (let s : State := W.exitsAreServedR; s.released = true ∧ s.ready 14 = true ∧ ∃ w0 ∈ s.oldestAt .recirc, let p := w0.1;
    let x := w0.2; s.pkt p = some x ∧ x.prov = false ∧ x.ended = true ∧ s.genOk x.mark.inst x.mark.gen = true ∧
    markAge s.now x.mark.ts < 2 ^ 31) ∧
  (let s : State := W.exitsAreServedR2; s.released = true ∧ s.ready 14 = true ∧
    ∃ w0 ∈ s.oldestAt .recirc, let p := w0.1; let x := w0.2; s.pkt p = some x ∧ x.prov = false ∧ x.ended = true ∧
    s.genOk x.mark.inst x.mark.gen = false) ∧
  (let s : State := W.exitsAreServedR; s.released = true ∧ s.ready 14 = true ∧ let p : Nat := 2;
    ∃ x ∈ s.pkt p, x.prov = false ∧ x.stage = .waitSlot ∧ x.mark.entAct = .recirc ∧ x.since + 4000 ≤ s.now) ∧
  (let s : State := W.exitsAreServedR; s.released = true ∧ s.ready 14 = true ∧ let p : Nat := 3;
    ∃ x ∈ s.pkt p, x.prov = false ∧ x.stage = .waitSlot ∧ x.mark.entAct = .recirc ∧ s.now < x.since + 4000) ∧
  (let s : State := W.exitsAreServedH; s.released = true ∧ s.ready 14 = true ∧ let n : Nat := 3; n < 32 ∧
    (s.port n).takes = true ∧ (s.port n).txNow = none ∧ (s.port n).loopback ≠ 3 ∧
    ∃ w0 ∈ (s.heads n).head?, let p := w0.1; let x := w0.2; s.heads n = [(p, x)] ∧ s.pkt p = some x ∧
    s.eligible n (p, x) = true ∧ x.prov = false ∧ s.genOk x.mark.inst x.mark.gen = true ∧
    markAge s.now x.mark.ts < 2 ^ 31) ∧
  (let s : State := W.exitsAreServedR; s.released = true ∧ s.ready 14 = true ∧ let n : Nat := 3; n < 32 ∧
    (s.port n).takes = true ∧ (s.port n).txNow = none ∧ (s.port n).loopback ≠ 3 ∧ s.heads n = []) ∧
  (let s : State := W.exitsAreServedTx; s.released = true ∧ s.ready 14 = true ∧ let n : Nat := 3;
    ∃ p ∈ (s.port n).txNow, n < 32) ∧
  (let s : State := W.exitsAreServedTx; s.released = true ∧ s.ready 14 = true ∧ let p : Nat := 1;
    ∃ x ∈ s.pkt p, ∃ c ∈ x.charged, x.ended = true ∧ x.prov = false) ∧
  (let s : State := W.exitsAreServedOdd; s.released = true ∧ s.ready 14 = true ∧ let k : Nat := 0; let x := s.shaper k;
    s.now % (32 * 2 ^ x.k) ≠ 0) ∧
  (let s : State := W.exitsAreServedShb; s.released = true ∧ s.ready 14 = true ∧ let k : Nat := 3; let x := s.shaper k;
    let w := s.shaperWords k; s.now % (32 * 2 ^ x.k) = 0 ∧ x.refilled ≠ some s.now ∧ bitOf w.1 31 = true ∧
    s.shaperBusy k = true) ∧
  (let s : State := W.exitsAreServedSh; s.released = true ∧ s.ready 14 = true ∧ let k : Nat := 3; let x := s.shaper k;
    let w := s.shaperWords k; s.now % (32 * 2 ^ x.k) = 0 ∧ x.refilled ≠ some s.now ∧ bitOf w.1 31 = true ∧
    s.shaperBusy k = false ∧ 0 < x.credit) ∧
  (let s : State := W.exitsAreServedSh; s.released = true ∧ s.ready 14 = true ∧ let k : Nat := 64; let x := s.shaper k;
    let w := s.shaperWords k; s.now % (32 * 2 ^ x.k) = 0 ∧ x.refilled ≠ some s.now ∧ bitOf w.1 31 = true ∧
    s.shaperBusy k = false ∧ x.credit ≤ 0) ∧
  (let s : State := W.exitsAreServedG; s.released = true ∧ s.ready 14 = true ∧ let n : Nat := 3; n < 32 ∧
    let d : Nat := 2; d < 2 ^ 32 ∧ bitOf d 1 = true ∧ bitOf d 6 = false ∧ let m : Master := .pf 0;
    s.writes m (Reg.tmsGateCtl.addr [n]) ∧ let l := bitsOf d 2 1; let es := s.gateEntries n l;
    let valid := 1 ≤ es.length ∧ es.length ≤ 64 ∧ (∀ e ∈ es, 0 < e.1) ∧ gateCycle es < 2 ^ 32;
    (s.gate n).oper ≠ some l ∧ bitOf s.fuses.features 9 = true ∧ valid) ∧
  (let s : State := W.exitsAreServedR; s.released = true ∧ s.ready 14 = true ∧ let n : Nat := 3; n < 32 ∧
    let d : Nat := 2; d < 2 ^ 32 ∧ bitOf d 1 = true ∧ bitOf d 6 = false ∧ let m : Master := .pf 0;
    s.writes m (Reg.tmsGateCtl.addr [n]) ∧ let l := bitsOf d 2 1; let es := s.gateEntries n l;
    let valid := 1 ≤ es.length ∧ es.length ≤ 64 ∧ (∀ e ∈ es, 0 < e.1) ∧ gateCycle es < 2 ^ 32;
    (¬ valid ∨ (s.gate n).oper = some l ∨ bitOf s.fuses.features 9 = false)) ∧
  (let s : State := W.exitsAreServedGs; s.released = true ∧ s.ready 14 = true ∧ let n : Nat := 3;
    ∃ l ∈ (s.gate n).pending, s.gatePos n l s.now = 0) ∧
  (let s : State := W.exitsAreServedOdd; s.released = true ∧ s.ready 14 = true ∧ let n : Nat := 3;
    ∃ l ∈ (s.gate n).pending, s.gatePos n l s.now ≠ 0) := by
  refine ⟨?_, ?_, ?_, ?_, ?_, ?_, ?_, ?_, ?_, ?_, ?_, ?_, ?_, ?_, ?_, ?_⟩
  all_goals (try unfold State.writes)
  all_goals (try unfold State.reaches)
  all_goals decide +kernel

def W.faceLinksTrainAndSleepDn : State := { W.up with host := { W.up.host with links := [] } }
def W.faceLinksTrainAndSleepAs0 : State :=
  { W.up with host := { W.up.host with fns := [(2048, { W.nic with aspm := 0 })] } }
def W.faceLinksTrainAndSleepD3 : State :=
  { W.up with host := { W.up.host with fns := [(0, { W.nic with d3hot := true, pmeStatus := true, pmeResendAt := some 3000000 }), (2048, { W.nic with d3hot := true }), (2049, { W.nic with d3hot := true, pmeStatus := true, pmeResendAt := some 3000000 })], links := [(0, { state := .l0 }), (2, { state := .l1 })] } }
def W.faceLinksTrainAndSleepPmd : State :=
  { W.up with host := { W.up.host with fns := [(0, { W.nic with d3hot := true, pmeStatus := true, pmeResendAt := some 3000000 })], links := [] } }

/-- Premises of FaceLinksTrainAndSleep, clause by clause. -/
theorem premises_FaceLinksTrainAndSleep :
  (let s : State := W.faceLinksTrainAndSleepDn; s.released = true ∧ let f : Nat := 0; f < 4 ∧ let l : Nat := 0; l < 2 ∧
    let x := s.face f; let y := s.link f l; x.inReset = false ∧ (l = 0 ∨ x.mode = 1) ∧ y.active = false ∧
    s.clocks.pcie.getD f false = true ∧ let rate : Nat := 0; x.maxRate ≤ rate ∧ rate ≤ 5 ∧ let flit := true;
    (flit = true ∨ 1 ≤ rate) ∧ let width : Nat := 16;
    width ∈ (if l = 0 ∧ x.mode = 0 then [16, 8, 4, 2, 1] else [8, 4, 2, 1])) ∧
  (let s : State := W.up; s.released = true ∧ let f : Nat := 0; f < 4 ∧ let l : Nat := 0; l < 2 ∧ let x := s.face f;
    let y := s.link f l; let rate : Nat := 0; let flit := false;
    (x.inReset = true ∨ rate < x.maxRate ∨ 5 < rate ∨ (flit = false ∧ rate = 0) ∨ y.active = true)) ∧
  (let s : State := W.up; s.released = true ∧ let f : Nat := 0; f < 4 ∧ let l : Nat := 0; l < 2 ∧ let x := s.face f;
    let y := s.link f l; x.inReset = false ∧ y.state ≠ .down) ∧
  (let s : State := W.up; s.released = true ∧ let f : Nat := 0; f < 4 ∧ let l : Nat := 0; l < 2 ∧ let y := s.link f l;
    y.state = .l0 ∧ (bitOf (s.fn (linkFn f l)).aspm 1 = true ∨ (∀ k ∈ s.linkFns f l, (s.fn k).d3hot = true))) ∧
  (let s : State := W.faceLinksTrainAndSleepAs0; s.released = true ∧ let f : Nat := 0; f < 4 ∧ let l : Nat := 0; l < 2 ∧
    let y := s.link f l; y.state = .l0 ∧ bitOf (s.fn (linkFn f l)).aspm 1 = false ∧
    (∃ k ∈ s.linkFns f l, (s.fn k).d3hot = false)) ∧
  (let s : State := W.faceLinksTrainAndSleepD3; s.released = true ∧ let f : Nat := 1; f < 4 ∧ let l : Nat := 0; l < 2 ∧
    let y := s.link f l; y.state = .l1) ∧
  (let s : State := W.up; s.released = true ∧ let f : Nat := 0; f < 4 ∧ let l : Nat := 0; l < 2 ∧ let y := s.link f l;
    y.active = true ∧ (∃ k ∈ s.linkFns f l, (s.fn k).d3hot = false)) ∧
  (let s : State := W.faceLinksTrainAndSleepD3; s.released = true ∧ let f : Nat := 0; f < 4 ∧ let l : Nat := 0; l < 2 ∧
    let y := s.link f l; y.active = true ∧ (∀ k ∈ s.linkFns f l, (s.fn k).d3hot = true)) ∧
  (let s : State := W.faceLinksTrainAndSleepD3; s.released = true ∧ let f : Nat := 0; f < 4 ∧ let l : Nat := 0; l < 2 ∧
    let y := s.link f l; let k : Nat := 0; s.fnFace k = some f ∧ fnLink k = l ∧ (s.fn k).pmeStatus = true ∧
    ∃ t ∈ (s.fn k).pmeResendAt, t ≤ s.now ∧ y.active = true) ∧
  (let s : State := W.faceLinksTrainAndSleepPmd; s.released = true ∧ let f : Nat := 0; f < 4 ∧ let l : Nat := 0; l < 2 ∧
    let y := s.link f l; let k : Nat := 0; s.fnFace k = some f ∧ fnLink k = l ∧ (s.fn k).pmeStatus = true ∧
    ∃ t ∈ (s.fn k).pmeResendAt, t ≤ s.now ∧ y.active = false) := by
  refine ⟨?_, ?_, ?_, ?_, ?_, ?_, ?_, ?_, ?_, ?_⟩
  all_goals decide +kernel

def W.functionsAreManagedD3 : State :=
  { W.up with host := { W.up.host with fns := [(0, { W.nic with d3hot := true, bme := false }), (2048, { W.nic with d3hot := true, vfEnable := false, bme := false }), (2049, { W.nic with d3hot := true, bme := false })] } }

/-- Premises of FunctionsAreManaged, clause by clause. -/
theorem premises_FunctionsAreManaged :
  (let s : State := W.facesComeUpNf; s.released = true ∧ let k : Nat := 0;
    ∃ f ∈ s.fnFace k, let answering := (s.face f).inReset = false ∧ (s.link f (fnLink k)).active = true; answering ∧
    bitOf s.bring.readyFace f = false) ∧
  (let s : State := W.up; s.released = true ∧ let k : Nat := 0;
    ∃ f ∈ s.fnFace k, let answering := (s.face f).inReset = false ∧ (s.link f (fnLink k)).active = true; answering ∧
    bitOf s.bring.readyFace f = true ∧ s.fnExists k = true ∧ let r : CfgReq := .read .bme;
    let g := match r with | .read g => g | _ => .bme; r = .read g) ∧
  (let s : State := W.up; s.released = true ∧ let k : Nat := 2048;
    ∃ f ∈ s.fnFace k, let answering := (s.face f).inReset = false ∧ (s.link f (fnLink k)).active = true; answering ∧
    bitOf s.bring.readyFace f = true ∧ s.fnExists k = true ∧ let r : CfgReq := .write .mse 1;
    let v := match r with | .write .mse v => v | _ => 0; r = .write .mse v ∧ 2048 ≤ k) ∧
  (let s : State := W.up; s.released = true ∧ let k : Nat := 0;
    ∃ f ∈ s.fnFace k, let answering := (s.face f).inReset = false ∧ (s.link f (fnLink k)).active = true; answering ∧
    bitOf s.bring.readyFace f = true ∧ s.fnExists k = true ∧ let r : CfgReq := .write .mrrs 3;
    let v := match r with | .write .mrrs v => v | _ => 0; r = .write .mrrs v ∧ k < 2048) ∧
  (let s : State := W.up; s.released = true ∧ let k : Nat := 2049; ∃ f ∈ s.fnFace k, let x := s.fn k;
    s.cfgOpen k = true ∧ k = 2048 + f ∧ x.vfEnable = false) ∧
  (let s : State := W.up; s.released = true ∧ let k : Nat := 2048; ∃ f ∈ s.fnFace k, let x := s.fn k;
    s.cfgOpen k = true ∧ k = 2048 + f ∧ x.vfEnable = true) ∧
  (let s : State := W.up; s.released = true ∧ let k : Nat := 0; ∃ f ∈ s.fnFace k, s.cfgOpen k = true ∧ k < 2048) ∧
  (let s : State := W.up; s.released = true ∧ let k : Nat := 0; ∃ f ∈ s.fnFace k, let x := s.fn k; s.cfgOpen k = true ∧
    x.bme = true) ∧
  (let s : State := W.functionsAreManagedD3; s.released = true ∧ let k : Nat := 2048; ∃ f ∈ s.fnFace k, let x := s.fn k;
    s.cfgOpen k = true ∧ x.bme = false) ∧
  (let s : State := W.up; s.released = true ∧ let k : Nat := 0; ∃ f ∈ s.fnFace k, s.cfgOpen k = true) ∧
  (let s : State := W.functionsAreManagedD3; s.released = true ∧ let k : Nat := 2048; ∃ f ∈ s.fnFace k, let x := s.fn k;
    s.cfgOpen k = true ∧ x.d3hot = true) ∧
  (let s : State := W.up; s.released = true ∧ let k : Nat := 0; ∃ f ∈ s.fnFace k, let x := s.fn k; s.cfgOpen k = true ∧
    x.d3hot = false) ∧
  (let s : State := W.up; s.released = true ∧ let k : Nat := 0; ∃ f ∈ s.fnFace k, let v : Nat := 0; v < fnVectors k ∧
    s.fnReachable k = true) := by
  refine ⟨?_, ?_, ?_, ?_, ?_, ?_, ?_, ?_, ?_, ?_, ?_, ?_, ?_⟩
  all_goals decide +kernel

def W.managementIsAnsweredNk : State := { W.up with bring := { W.up.bring with readySub := 0x1FFFFF - 2^18 } }

/-- Premises of ManagementIsAnswered, clause by clause. -/
theorem premises_ManagementIsAnswered :
  (let s : State := W.up; s.released = true ∧ let f : Nat := 0; s.mctpOn f = true ∧
    let msg : List Byte := [0, 0x81, 1, 0, 9]; beAt msg 0 1 % 128 = 0 ∧ 128 ≤ beAt msg 1 1 ∧ beAt msg 2 1 = 1 ∧
    let e := beAt (msg.drop 3) 1 1; e ≠ 0 ∧ e ≠ 255) ∧
  (let s : State := W.up; s.released = true ∧ let f : Nat := 0; s.mctpOn f = true ∧ let msg : List Byte := [0, 0x82, 2];
    beAt msg 0 1 % 128 = 0 ∧ 128 ≤ beAt msg 1 1 ∧ beAt msg 2 1 = 2) ∧
  (let s : State := W.up; s.released = true ∧ let f : Nat := 0; s.mctpOn f = true ∧
    let msg : List Byte := [1, 0x83, 2, 5]; beAt msg 0 1 % 128 = 1 ∧ s.ready 18 = true) ∧
  (let s : State := W.managementIsAnsweredNk; s.released = true ∧ let f : Nat := 0; s.mctpOn f = true ∧
    let msg : List Byte := [1, 0x83, 2, 5]; beAt msg 0 1 % 128 = 1 ∧ s.ready 18 = false) ∧
  (let s : State := W.up; s.released = true ∧ let f : Nat := 1; f ≠ s.glb.primary) := by
  refine ⟨?_, ?_, ?_, ?_, ?_⟩
  all_goals decide +kernel

def W.hostReadsAndWritesEndW : State :=
  { W.up with dma := { W.up.dma with faces := [{ waiting := [{ id := 1, req := .data 0 0 0 0, face := 0, link := 0, pool := .htx, fn := 0, inst := 0, gen := 3, addr := 0x1010, len := 32 }] }, {}, {}, {}] } }
def W.hostReadsAndWritesEndO : State :=
  { W.up with dma := { W.up.dma with faces := [{ out := [{ tag := 3, rd := { id := 1, req := .data 0 0 0 0, face := 0, link := 0, pool := .htx, fn := 0, inst := 0, gen := 3, addr := 0x1010, len := 32 }, issued := 2999000, t := 1000, lead := 16, total := 64 }, { tag := 4, rd := { id := 1, req := .job 2, face := 0, link := 0, pool := .htx, fn := 0, inst := 0, gen := 3, addr := 0x1010, len := 32 }, issued := 2999001, t := 1000, lead := 16, total := 64 }, { tag := 5, rd := { id := 1, req := .flush 0 0 1, face := 0, link := 0, pool := .htx, fn := 0, inst := 0, gen := 3, addr := 0x1010, len := 32 }, issued := 2999000, t := 1000, lead := 16, total := 64 }, { tag := 6, rd := { id := 1, req := .flush 0 0 1, face := 0, link := 0, pool := .htx, fn := 0, inst := 0, gen := 3, addr := 0x1010, len := 32 }, issued := 2999001, t := 1000, lead := 16, total := 64 }, { tag := 7, rd := { id := 1, req := .sto 3 0 0, face := 0, link := 0, pool := .htx, fn := 0, inst := 0, gen := 3, addr := 0x1010, len := 32, got := [1,2,3] }, issued := 2999000, t := 1000, lead := 16, total := 64 }], quarantine := [{ face := 0, link := 0, pool := .htx, tag := 9, fn := 0, endAt := 3000000 }, { face := 0, link := 0, pool := .htx, tag := 10, fn := 0, endAt := 3000001 }] }, {}, {}, {}] } }
def W.hostReadsAndWritesEndC : State :=
  { W.up with dma := { W.up.dma with faces := [{ chans := [(1, [{ work := .packet 5, fn := 0, inst := 0, gen := 3, parts := [(0x10F0, List.replicate 300 1)] }, { work := .job 1, fn := 0, inst := 0, gen := 3, parts := [] }]), (2, [{ work := .packet 5, fn := 0, inst := 0, gen := 2, parts := [(0x10F0, List.replicate 300 1)] }]), (3, [{ work := .job 5, fn := 0, inst := 0, gen := 3, parts := [(0x10F0, List.replicate 8 1)] }])] }, {}, {}, {}] } }

/-- Premises of HostReadsAndWritesEnd, clause by clause. -/
theorem premises_HostReadsAndWritesEnd :
  (let f : Nat := 0; f < 4 ∧ let s : State := W.hostReadsAndWritesEndW; s.released = true ∧ s.ready 5 = true ∧
    let d := s.dmaFace f; ∃ r ∈ d.waiting.head?, d.waiting = [r] ∧ s.genOk r.inst r.gen = true ∧ s.fnOpen r.fn = true ∧
    r.ats = false ∧ r.req.isFlush = false ∧ let sp := s.readSpan r;
    let t := s.begun.setDmaFace f { d with waiting := [r] };
    t.roomFor r.face r.link r.pool r.req.isPoll ((sp.2 + sp.1 % 64 + 63) / 64 * 64) = true) ∧
  (let f : Nat := 0; f < 4 ∧ let s : State := W.hostReadsAndWritesEndO; s.released = true ∧ s.ready 5 = true ∧
    let tag : Nat := 3; ∃ o ∈ s.outRead f tag, (s.link f (tag / 4096)).active = true ∧ o.rd.req.isXlate = false ∧
    o.rd.req.isFlush = false ∧ let bs : (List Byte) := List.replicate 64 1; bs ≠ [] ∧
    o.rd.got.length + bs.length = o.total) ∧
  (let f : Nat := 0; f < 4 ∧ let s : State := W.hostReadsAndWritesEndO; s.released = true ∧ s.ready 5 = true ∧
    let tag : Nat := 3; ∃ o ∈ s.outRead f tag, (s.link f (tag / 4096)).active = true ∧ o.rd.req.isXlate = false ∧
    o.rd.req.isFlush = false ∧ let bs : (List Byte) := [1]; bs ≠ [] ∧ o.rd.got.length + bs.length < o.total) ∧
  (let f : Nat := 0; f < 4 ∧ let s : State := W.hostReadsAndWritesEndO; s.released = true ∧ s.ready 5 = true ∧
    let tag : Nat := 3; ∃ o ∈ s.outRead f tag, (s.link f (tag / 4096)).active = true ∧ o.rd.req.isXlate = false ∧
    o.rd.req.isFlush = false ∧ let bs : (List Byte) := [1]; bs ≠ []) ∧
  (let f : Nat := 0; f < 4 ∧ let s : State := W.hostReadsAndWritesEndO; s.released = true ∧ s.ready 5 = true ∧
    let d := s.dmaFace f; let tag : Nat := 9; s.outRead f tag = none ∧ (s.link f (tag / 4096)).active = true ∧
    ∃ q ∈ d.quarantine.find? (fun q => decide (q.tag = tag)), True) ∧
  (let f : Nat := 0; f < 4 ∧ let s : State := W.hostReadsAndWritesEndW; s.released = true ∧ s.ready 5 = true ∧
    let d := s.dmaFace f; let tag : Nat := 3; s.outRead f tag = none ∧ (s.link f (tag / 4096)).active = true ∧
    (d.quarantine.find? (fun q => decide (q.tag = tag)) = none)) ∧
  (let f : Nat := 0; f < 4 ∧ let s : State := W.hostReadsAndWritesEndO; s.released = true ∧ s.ready 5 = true ∧
    let tag : Nat := 4; ∃ o ∈ s.outRead f tag, o.rd.req.isFlush = false ∧ s.now < o.issued + o.t) ∧
  (let f : Nat := 0; f < 4 ∧ let s : State := W.hostReadsAndWritesEndO; s.released = true ∧ s.ready 5 = true ∧
    let tag : Nat := 3; ∃ o ∈ s.outRead f tag, o.rd.req.isFlush = false ∧ o.issued + o.t ≤ s.now) ∧
  (let f : Nat := 0; f < 4 ∧ let s : State := W.hostReadsAndWritesEndW; s.released = true ∧ s.ready 5 = true) ∧
  (let f : Nat := 0; f < 4 ∧ let s : State := W.hostReadsAndWritesEndC; s.released = true ∧ s.ready 5 = true ∧
    let l : Nat := 0; let a : Nat := 2; ∃ w ∈ (s.chanWork f l a).head?, let ws := (s.chanWork f l a).tail;
    s.chanWork f l a = w :: ws ∧ w.withdrawn = false ∧ s.genOk w.inst w.gen = false) ∧
  (let f : Nat := 0; f < 4 ∧ let s : State := W.hostReadsAndWritesEndC; s.released = true ∧ s.ready 5 = true ∧
    let l : Nat := 0; let a : Nat := 1; ∃ w ∈ (s.chanWork f l a).head?, let ws := (s.chanWork f l a).tail;
    s.chanWork f l a = w :: ws ∧ w.withdrawn = false ∧ s.genOk w.inst w.gen = true ∧ s.fnOpen w.fn = true ∧
    w.ats = false ∧ ∃ w1 ∈ w.parts.head?, let addr := w1.1; let bs := w1.2; let ps := w.parts.tail;
    w.parts = (addr, bs) :: ps ∧ let n := min bs.length (s.mps w.fn - addr % s.mps w.fn);
    let rest := (advanceParts n ((addr, bs) :: ps)).filter (fun q => q.2 ≠ []); rest ≠ []) ∧
  (let f : Nat := 0; f < 4 ∧ let s : State := W.hostReadsAndWritesEndC; s.released = true ∧ s.ready 5 = true ∧
    let l : Nat := 0; let a : Nat := 3; ∃ w ∈ (s.chanWork f l a).head?, let ws := (s.chanWork f l a).tail;
    s.chanWork f l a = w :: ws ∧ w.withdrawn = false ∧ s.genOk w.inst w.gen = true ∧ s.fnOpen w.fn = true ∧
    w.ats = false ∧ ∃ w1 ∈ w.parts.head?, let addr := w1.1; let bs := w1.2; let ps := w.parts.tail;
    w.parts = (addr, bs) :: ps ∧ let n := min bs.length (s.mps w.fn - addr % s.mps w.fn);
    let rest := (advanceParts n ((addr, bs) :: ps)).filter (fun q => q.2 ≠ []); rest = []) ∧
  (let f : Nat := 0; f < 4 ∧ let s : State := W.hostReadsAndWritesEndO; s.released = true ∧ s.ready 5 = true ∧
    let tag : Nat := 5; ∃ o ∈ s.outRead f tag, o.rd.req.isFlush = true) ∧
  (let f : Nat := 0; f < 4 ∧ let s : State := W.hostReadsAndWritesEndO; s.released = true ∧ s.ready 5 = true ∧
    let tag : Nat := 6; ∃ o ∈ s.outRead f tag, o.rd.req.isFlush = true ∧ s.now < o.issued + o.t) ∧
  (let f : Nat := 0; f < 4 ∧ let s : State := W.hostReadsAndWritesEndO; s.released = true ∧ s.ready 5 = true ∧
    let tag : Nat := 5; ∃ o ∈ s.outRead f tag, o.rd.req.isFlush = true ∧ o.issued + o.t ≤ s.now) := by
  refine ⟨?_, ?_, ?_, ?_, ?_, ?_, ?_, ?_, ?_, ?_, ?_, ?_, ?_, ?_, ?_⟩
  all_goals decide +kernel

def W.jobsAndTranslationsJf : State :=
  { W.up with dma := { W.up.dma with faces := [{ jobProd := 5, jobDone := 4, jobs := [{ count := 4, gen := 3, left := 0, status := 3 }] }, {}, {}, {}] } }
def W.jobsAndTranslationsX : State :=
  { W.up with dma := { W.up.dma with faces := [{ out := [{ tag := 3, rd := { id := 1, req := .xlate 1, face := 0, link := 0, pool := .htx, fn := 0, inst := 0, gen := 3, addr := 0x1010, len := 32, ats := false }, issued := 2999000, t := 1000, lead := 16, total := 64 }, { tag := 4, rd := { id := 2, req := .data 0 0 0 0, face := 0, link := 0, pool := .htx, fn := 0, inst := 0, gen := 3, addr := 0x1010, len := 32, ats := true }, issued := 2999500, t := 1000, lead := 16, total := 64 }], waiting := [{ id := 1, req := .data 0 0 0 0, face := 0, link := 0, pool := .htx, fn := 0, inst := 0, gen := 3, addr := 0x1010, len := 32, ats := true }], ats := [{ fn := 0, pasid := none, page := 1, target := 9, r := true, w := true }] }, {}, {}, {}] } }
def W.jobsAndTranslationsIv : State :=
  { W.up with dma := { W.up.dma with faces := [{ out := [{ tag := 4, rd := { id := 2, req := .data 0 0 0 0, face := 0, link := 0, pool := .htx, fn := 0, inst := 0, gen := 3, addr := 0x1010, len := 32, ats := true }, issued := 2999500, t := 1000, lead := 16, total := 64 }], invals := [{ fn := 0, page := 1, pages := 2, deadline := 2999999, reads := [2] }, { fn := 0, page := 7, pages := 1, deadline := 3000001, reads := [2] }] }, {}, {}, {}] } }

/-- Premises of JobsAndTranslations, clause by clause. -/
theorem premises_JobsAndTranslations :
  (let f : Nat := 0; f < 4 ∧ let s : State := W.up; s.released = true ∧ s.dma.faces.length = 4 ∧ let d := s.dmaFace f;
    let a := blockBase 5 + 0x1000 * f + 0x180; let c : Nat := 1; c < 2 ^ 32 ∧ let m : Master := .fw 0 1; s.writes m a ∧
    m.isFw = true ∧ c = (d.jobProd + 1) % 2 ^ 32 ∧ (c + 2 ^ 32 - d.jobDone) % 2 ^ 32 ≤ 32 ∧
    (∀ j ∈ d.jobs, j.count ≠ d.jobProd) ∧ d.jobProd < 2 ^ 32) ∧
  (let f : Nat := 0; f < 4 ∧ let s : State := W.up; s.released = true ∧ s.dma.faces.length = 4 ∧ let d := s.dmaFace f;
    let a := blockBase 5 + 0x1000 * f + 0x180; let c : Nat := 0; c < 2 ^ 32 ∧ let m : Master := .pf 0; s.reaches m a ∧
    (m.isFw = false ∨ 32 < (c + 2 ^ 32 - d.jobDone) % 2 ^ 32)) ∧
  (let f : Nat := 0; f < 4 ∧ let s : State := W.jobsAndTranslationsJf; s.released = true ∧ s.dma.faces.length = 4 ∧
    let d := s.dmaFace f; s.ready 5 = true ∧ ∃ j ∈ d.jobs.head?, d.jobs = [j] ∧ j.done = false ∧ j.status ≠ 0 ∧
    j.status < 256 ∧ j.count = d.jobDone) ∧
  (let f : Nat := 0; f < 4 ∧ let s : State := W.jobsAndTranslationsX; s.released = true ∧ s.dma.faces.length = 4 ∧
    let d := s.dmaFace f; let id : Nat := 1; ∃ o ∈ d.out.find? (fun o => decide (o.rd.req = .xlate id)), True) ∧
  (let f : Nat := 0; f < 4 ∧ let s : State := W.jobsAndTranslationsX; s.released = true ∧ s.dma.faces.length = 4 ∧
    let d := s.dmaFace f; let id : Nat := 1; ∃ o ∈ d.out.find? (fun o => decide (o.rd.req = .xlate id)), id < 2 ^ 40 ∧
    ∃ r ∈ d.waiting.find? (fun r => decide (r.id = id)), True) ∧
  (let f : Nat := 0; f < 4 ∧ let s : State := W.up; s.released = true ∧ s.dma.faces.length = 4 ∧ let d := s.dmaFace f;
    let id : Nat := 1; (d.out.find? (fun o => decide (o.rd.req = .xlate id)) = none)) ∧
  (let f : Nat := 0; f < 4 ∧ let s : State := W.up; s.released = true ∧ s.dma.faces.length = 4) ∧
  (let f : Nat := 0; f < 4 ∧ let s : State := W.up; s.released = true ∧ s.dma.faces.length = 4 ∧ let d := s.dmaFace f;
    let k : Nat := 0; let page : Nat := 0;
    (d.invals.find? (fun v => decide (v.fn = k) && decide (v.page = page) && decide (v.deadline ≤ s.now)) = none)) ∧
  (let f : Nat := 0; f < 4 ∧ let s : State := W.jobsAndTranslationsIv; s.released = true ∧ s.dma.faces.length = 4 ∧
    let d := s.dmaFace f; let k : Nat := 0; let page : Nat := 1;
    ∃ v ∈ d.invals.find? (fun v => decide (v.fn = k) && decide (v.page = page) && decide (v.deadline ≤ s.now)), ∃ o ∈ (d.out.filter (fun o => v.reads.contains o.rd.id && !o.rd.req.isXlate)).head?, (d.out.filter (fun o => v.reads.contains o.rd.id && !o.rd.req.isXlate) = [o]) ∧
    o.rd.req.isFlush = false) := by
  refine ⟨?_, ?_, ?_, ?_, ?_, ?_, ?_, ?_, ?_⟩
  all_goals (try unfold State.writes)
  all_goals (try unfold State.reaches)
  all_goals decide +kernel

def W.queuesAreCommandedEn : State :=
  ((({ W.up with qmg := { W.up.qmg with lines := [(0, { state := .idle, inst := 0 }), (5, { state := .idle, inst := 0 })], rings := [(0, { state := .running, ctx := { inst := 0, dbSlot := 3 } })] } }).setWord Reg.qmgTxq [0, 2] 0).setWord Reg.qmgTxq [0, 3] 0).setWord Reg.qmgTxq [0, 4] 64
def W.queuesAreCommandedBad : State :=
  (({ W.up with qmg := { W.up.qmg with lines := [(0, { state := .idle, inst := 0 }), (5, { state := .idle, inst := 0 })], rings := [(0, { state := .running, ctx := { inst := 0, dbSlot := 3 } })] } }).setWord Reg.qmgTxq [0, 2] 0xB000).setWord Reg.qmgTxq [0, 4] 64
def W.queuesAreCommandedRun : State :=
  { W.up with qmg := { W.up.qmg with lines := [(0, { state := .idle, inst := 0 }), (5, { state := .idle, inst := 0 })], rings := [(0, { state := .running, ctx := { inst := 0, dbSlot := 3 } })], queues := [(0, { state := .running, ctx := { inst := 0, dbLine := 5 }, p := 4 }), (1, { state := .stopped, ctx := { inst := 0 } }), (2, { state := .error, ctx := { inst := 0 } }), (3, { state := .masterOff, ctx := { inst := 0 } }), (16384, { state := .resetting, ctx := { inst := 0 } }), (16385, { state := .stopping, stopTo := some 3, ctx := { inst := 0 } }), (16386, { state := .stopping, stopTo := some 3, ctx := { inst := 0 }, regions := [{ count := 0 }] })] } }
def W.queuesAreCommandedOff : State :=
  { W.up with qmg := { W.up.qmg with lines := [(0, { state := .idle, inst := 0 }), (5, { state := .idle, inst := 0 })], rings := [(0, { state := .running, ctx := { inst := 0, dbSlot := 3 } })], queues := [(3, { state := .masterOff, ctx := { inst := 0 } })] }, host := { W.up.host with fns := [] } }
def W.queuesAreCommandedHot : State :=
  { ((W.up).setWord Reg.qmgDbLine [7] 0) with qmg := { W.up.qmg with lines := (List.range 512).map (fun k => (k + 10, { state := .idle, inst := 3 })) } }

/-- Premises of QueuesAreCommanded, clause by clause. -/
theorem premises_QueuesAreCommanded :
  (let f : Nat := 0; f < 4 ∧ let q : Nat := 8191; q < 16384 ∧ let s : State := W.up; s.released = true ∧
    s.ready 6 = true ∧ let rx : Bool := false; let k := queueKey rx q; let c := s.readQCtx k;
    let a := blockBase 6 + 0x130080 + 0x1000 * f;
    let judge := (s.queueOwner (decide (16384 ≤ k)) (queueNo k)).getD c.inst; let m : Master := .pf 0; s.writes m a ∧
    (s.qmg.cmd.getD f {}).busy = false ∧ s.cmdDenied m f judge = true ∧ c.inst ≤ 2051) ∧
  (let f : Nat := 0; f < 4 ∧ let q : Nat := 0; q < 16384 ∧ let s : State := W.queuesAreCommandedEn; s.released = true ∧
    s.ready 6 = true ∧ let rx : Bool := false; let k := queueKey rx q; let x := s.queue k; let c := s.readQCtx k;
    let a := blockBase 6 + 0x130080 + 0x1000 * f;
    let judge := (s.queueOwner (decide (16384 ≤ k)) (queueNo k)).getD c.inst; let m : Master := .pf 0; s.writes m a ∧
    (s.qmg.cmd.getD f {}).busy = false ∧ s.cmdDenied m f judge = false ∧ x.state = .disabled ∧ c.inst ≤ 2051 ∧
    s.queueWhy k c = 0) ∧
  (let f : Nat := 0; f < 4 ∧ let q : Nat := 0; q < 16384 ∧ let s : State := W.up; s.released = true ∧ s.ready 6 = true ∧
    let rx : Bool := false; let k := queueKey rx q; let x := s.queue k; let c := s.readQCtx k;
    let a := blockBase 6 + 0x130080 + 0x1000 * f;
    let judge := (s.queueOwner (decide (16384 ≤ k)) (queueNo k)).getD c.inst; let m : Master := .pf 0; s.writes m a ∧
    (s.qmg.cmd.getD f {}).busy = false ∧ s.cmdDenied m f judge = false ∧ x.state = .disabled ∧ c.inst ≤ 2051 ∧
    s.queueWhy k c ≠ 0) ∧
  (let f : Nat := 0; f < 4 ∧ let q : Nat := 0; q < 16384 ∧ let s : State := W.queuesAreCommandedBad; s.released = true ∧
    s.ready 6 = true ∧ let rx : Bool := false; let k := queueKey rx q; let x := s.queue k; let c := s.readQCtx k;
    let a := blockBase 6 + 0x130080 + 0x1000 * f;
    let judge := (s.queueOwner (decide (16384 ≤ k)) (queueNo k)).getD c.inst; let m : Master := .pf 0; s.writes m a ∧
    (s.qmg.cmd.getD f {}).busy = false ∧ s.cmdDenied m f judge = false ∧ x.state = .disabled ∧ c.inst ≤ 2051 ∧
    10 < bitsOf (s.ctxWord k 2) 12 4) ∧
  (let f : Nat := 0; f < 4 ∧ let q : Nat := 0; q < 16384 ∧ let s : State := W.queuesAreCommandedRun; s.released = true ∧
    s.ready 6 = true ∧ let rx : Bool := false; let k := queueKey rx q; let x := s.queue k; let c := s.readQCtx k;
    let a := blockBase 6 + 0x130080 + 0x1000 * f;
    let judge := (s.queueOwner (decide (16384 ≤ k)) (queueNo k)).getD c.inst; let m : Master := .pf 0; s.writes m a ∧
    (s.qmg.cmd.getD f {}).busy = false ∧ s.cmdDenied m f judge = false ∧ x.state = .running ∧ s.boundStops k = true) ∧
  (let f : Nat := 0; f < 4 ∧ let q : Nat := 0; q < 16384 ∧ let s : State := W.up; s.released = true ∧ s.ready 6 = true ∧
    let rx : Bool := false; let k := queueKey rx q; let x := s.queue k; let c := s.readQCtx k;
    let a := blockBase 6 + 0x130080 + 0x1000 * f;
    let judge := (s.queueOwner (decide (16384 ≤ k)) (queueNo k)).getD c.inst; let m : Master := .pf 0; s.writes m a ∧
    (s.qmg.cmd.getD f {}).busy = false ∧ s.cmdDenied m f judge = false ∧ x.state ≠ .running) ∧
  (let f : Nat := 0; f < 4 ∧ let q : Nat := 1; q < 16384 ∧ let s : State := W.queuesAreCommandedRun; s.released = true ∧
    s.ready 6 = true ∧ let rx : Bool := false; let k := queueKey rx q; let x := s.queue k; let c := s.readQCtx k;
    let a := blockBase 6 + 0x130080 + 0x1000 * f;
    let judge := (s.queueOwner (decide (16384 ≤ k)) (queueNo k)).getD c.inst; let m : Master := .pf 0; s.writes m a ∧
    (s.qmg.cmd.getD f {}).busy = false ∧ s.cmdDenied m f judge = false ∧ x.state = .stopped) ∧
  (let f : Nat := 0; f < 4 ∧ let q : Nat := 2; q < 16384 ∧ let s : State := W.queuesAreCommandedRun; s.released = true ∧
    s.ready 6 = true ∧ let rx : Bool := false; let k := queueKey rx q; let x := s.queue k; let c := s.readQCtx k;
    let a := blockBase 6 + 0x130080 + 0x1000 * f;
    let judge := (s.queueOwner (decide (16384 ≤ k)) (queueNo k)).getD c.inst; let m : Master := .pf 0; s.writes m a ∧
    (s.qmg.cmd.getD f {}).busy = false ∧ s.cmdDenied m f judge = false ∧
    (x.state = .error ∨ (x.state = .masterOff ∧ (s.fn x.ctx.fn).bme = true)) ∧ s.boundStops k = true) ∧
  (let f : Nat := 0; f < 4 ∧ let q : Nat := 3; q < 16384 ∧ let s : State := W.queuesAreCommandedOff; s.released = true ∧
    s.ready 6 = true ∧ let rx : Bool := false; let k := queueKey rx q; let x := s.queue k; let c := s.readQCtx k;
    let a := blockBase 6 + 0x130080 + 0x1000 * f;
    let judge := (s.queueOwner (decide (16384 ≤ k)) (queueNo k)).getD c.inst; let m : Master := .fw 0 1; s.writes m a ∧
    (s.qmg.cmd.getD f {}).busy = false ∧ s.cmdDenied m f judge = false ∧ x.state = .masterOff ∧
    (s.fn x.ctx.fn).bme = false) ∧
  (let f : Nat := 0; f < 4 ∧ let q : Nat := 0; q < 16384 ∧ let s : State := W.up; s.released = true ∧ s.ready 6 = true ∧
    let a := blockBase 6 + 0x130080 + 0x1000 * f; let m : Master := .pf 0; s.writes m a ∧
    (s.qmg.cmd.getD f {}).busy = false ∧ q < 8192 ∧ let y := s.dbLine q; let r := s.readLine q;
    let owner := if y.enabled = true then y.inst else r.inst; owner ≤ 2051 ∧ s.cmdDenied m f owner = false ∧
    y.enabled = false ∧ r.addr % 64 = 0 ∧ s.linkAllowed r.inst r.link = true ∧ (s.inst r.inst).state = .started ∧
    (r.cls ≠ 0 ∨ (s.hotLines (fun y => decide (s.lineFace y = f)) < 512
        ∧ s.hotLines (fun y => decide (y.inst = r.inst)) < (s.inst r.inst).grant.hotSlots))) ∧
  (let f : Nat := 0; f < 4 ∧ let q : Nat := 7; q < 16384 ∧ let s : State := W.queuesAreCommandedHot; s.released = true ∧
    s.ready 6 = true ∧ let a := blockBase 6 + 0x130080 + 0x1000 * f; let m : Master := .pf 0; s.writes m a ∧
    (s.qmg.cmd.getD f {}).busy = false ∧ q < 8192 ∧ let y := s.dbLine q; let r := s.readLine q;
    let owner := if y.enabled = true then y.inst else r.inst; owner ≤ 2051 ∧ s.cmdDenied m f owner = false ∧
    y.enabled = false ∧ r.addr % 64 = 0 ∧ s.linkAllowed r.inst r.link = true ∧ (s.inst r.inst).state = .started ∧
    r.cls = 0 ∧ (512 ≤ s.hotLines (fun y => decide (s.lineFace y = f)))) ∧
  (let f : Nat := 0; f < 4 ∧ let q : Nat := 0; q < 16384 ∧ let s : State := W.up; s.released = true ∧ s.ready 6 = true ∧
    let a := blockBase 6 + 0x130080 + 0x1000 * f; let m : Master := .pf 0; s.writes m a ∧
    (s.qmg.cmd.getD f {}).busy = false ∧ q < 8192 ∧ let y := s.dbLine q; let r := s.readLine q;
    let owner := if y.enabled = true then y.inst else r.inst; owner ≤ 2051 ∧ s.cmdDenied m f owner = false ∧
    (∀ p ∈ s.qmg.queues, p.2.state ≠ .disabled → p.2.ctx.dbLine ≠ q) ∧
    (∀ p ∈ s.qmg.rings, p.2.state ≠ .disabled → p.2.ctx.dbLine ≠ q)) ∧
  (let f : Nat := 0; f < 4 ∧ let q : Nat := 0; q < 16384 ∧ let s : State := W.queuesAreCommandedRun; s.released = true ∧
    s.ready 6 = true ∧ let a := blockBase 6 + 0x130080 + 0x1000 * f; let m : Master := .pf 0; s.writes m a ∧
    (s.qmg.cmd.getD f {}).busy = false ∧ q < 8192 ∧ let y := s.dbLine q; let r := s.readLine q;
    let owner := if y.enabled = true then y.inst else r.inst; owner ≤ 2051 ∧ s.cmdDenied m f owner = false ∧
    (∃ p ∈ s.qmg.queues, p.2.state ≠ .disabled ∧ p.2.ctx.dbLine = q)) ∧
  (let f : Nat := 0; f < 4 ∧ let q : Nat := 1; q < 16384 ∧ let s : State := W.queuesAreCommandedRun; s.released = true ∧
    s.ready 6 = true ∧ let rx : Bool := true; let k := queueKey rx q; let x := s.queue k; x.state = .stopping ∧
    s.queueQuiet k = true) ∧
  (let f : Nat := 0; f < 4 ∧ let q : Nat := 2; q < 16384 ∧ let s : State := W.queuesAreCommandedRun; s.released = true ∧
    s.ready 6 = true ∧ let rx : Bool := true; let k := queueKey rx q; let x := s.queue k; x.state = .stopping ∧
    s.queueQuiet k = false) ∧
  (let f : Nat := 0; f < 4 ∧ let q : Nat := 0; q < 16384 ∧ let s : State := W.queuesAreCommandedRun; s.released = true ∧
    s.ready 6 = true ∧ let rx : Bool := true; let k := queueKey rx q; let x := s.queue k; x.state = .resetting ∧
    s.queueQuiet k = true) := by
  refine ⟨?_, ?_, ?_, ?_, ?_, ?_, ?_, ?_, ?_, ?_, ?_, ?_, ?_, ?_, ?_, ?_⟩
  all_goals (try unfold State.writes)
  all_goals (try unfold State.reaches)
  all_goals decide +kernel

def W.queuesWorkPl : State :=
  { W.up with qmg := { W.up.qmg with lines := [(3, { state := .active, inst := 0, addr := 0x1000, due := 3000000 })], queues := [(0, { state := .running, ctx := { inst := 0, dbLine := 3 } })] } }
def W.queuesWorkPo : State :=
  { W.up with dma := { W.up.dma with faces := [{ out := [{ tag := 3, rd := { id := 1, req := .poll 3, face := 0, link := 0, pool := .htx, fn := 0, inst := 0, gen := 3, addr := 0x1010, len := 32 }, issued := 2999000, t := 1000, lead := 16, total := 64 }, { tag := 4, rd := { id := 1, req := .data 0 0 0 0, face := 0, link := 0, pool := .htx, fn := 0, inst := 0, gen := 3, addr := 0x1010, len := 32 }, issued := 2999000, t := 1000, lead := 16, total := 64 }] }, {}, {}, {}] } }
def W.queuesWorkFe : State :=
  { W.up with qmg := { W.up.qmg with queues := [(0, { state := .running, ctx := { inst := 0 }, p := 5, c := 2 })], rings := [(0, { state := .running, ctx := { inst := 0 } })] } }
def W.queuesWorkIt : State :=
  { W.up with qmg := { W.up.qmg with queues := [(0, { state := .running, ctx := { inst := 0 }, items := [{ first := 0, phase := .ended, status := 3, descs := [List.replicate 32 0] }, { first := 1, phase := .ready, segs := [(0x1000, 4, [1,2,3,4])], descs := [List.replicate 32 0] }] }), (16389, { state := .running, ctx := { inst := 0 }, regions := [{ count := 4, cookie := 7, next := 9, closed := true }] })], rings := [(0, { state := .running, ctx := { inst := 0 } })] } }

/-- Premises of QueuesWork, clause by clause. -/
theorem premises_QueuesWork :
  (let s : State := W.up; s.released = true ∧ s.ready 6 = true ∧ let l : Nat := 0; let x := s.dbLine l;
    s.pollDue l x = false) ∧
  (let s : State := W.queuesWorkPl; s.released = true ∧ s.ready 6 = true ∧ let l : Nat := 3; let x := s.dbLine l;
    let f := s.lineFace x; let recent := (s.qmg.pollTicks.getD f []).filter (fun t => decide (s.now < t + 1000));
    s.pollDue l x = true ∧ f < 4 ∧ s.dma.faces.length = 4 ∧ x.ats = false ∧ x.addr % 64 = 0 ∧ x.addr < 2 ^ 64 ∧
    (∀ p ∈ s.qmg.lines, p.1 ≠ l → s.lineFace p.2 = f → s.pollDue p.1 p.2 = true → pollBefore p (l, x) = false) ∧
    s.pollsOut f < 512 ∧ recent.length < s.fld Reg.qmgPollFace [f] 0 9 ∧ (∀ t ∈ recent.head?, t + 2 ≤ s.now) ∧
    s.roomFor f x.link .htx true 64 = true) ∧
  (let s : State := W.queuesWorkPo; s.released = true ∧ s.ready 6 = true ∧ let f : Nat := 0; let tag : Nat := 3;
    ∃ o ∈ s.outRead f tag, (s.link f (tag / 4096)).active = true ∧ o.rd.req.isPoll = true ∧
    let bs : (List Byte) := List.replicate 64 1; bs ≠ [] ∧ o.rd.got.length + bs.length = o.total) ∧
  (let s : State := W.queuesWorkPo; s.released = true ∧ s.ready 6 = true ∧ let f : Nat := 0; let tag : Nat := 4;
    ∃ o ∈ s.outRead f tag, (s.link f (tag / 4096)).active = true ∧ o.rd.req.isPoll = false) ∧
  (let s : State := W.queuesWorkFe; s.released = true ∧ s.ready 6 = true ∧ ∃ w0 ∈ s.qmg.queues.head?, let k := w0.1;
    let x := w0.2; s.qmg.queues = [(k, x)] ∧ ∃ f ∈ s.instFace x.ctx.inst, x.ctx.weight = 1 ∧ s.fetchable x = true) ∧
  (let s : State := W.queuesWorkPl; s.released = true ∧ s.ready 6 = true ∧ ∃ w0 ∈ s.qmg.queues.head?, let k := w0.1;
    let x := w0.2; s.qmg.queues = [(k, x)] ∧ ∃ f ∈ s.instFace x.ctx.inst, x.ctx.weight = 1 ∧ s.fetchable x = false) ∧
  (let s : State := W.queuesWorkIt; s.released = true ∧ s.ready 6 = true ∧ let k : Nat := 0; let x := s.queue k;
    s.boundCtx k = none ∧ ∃ i ∈ x.nextItem, True) ∧
  (let s : State := W.up; s.released = true ∧ s.ready 6 = true ∧ let k : Nat := 0; let x := s.queue k;
    s.boundCtx k = none ∧ x.nextItem = none) ∧
  (let s : State := W.queuesWorkIt; s.released = true ∧ s.ready 6 = true ∧ let k : Nat := 0; let x := s.queue k;
    s.boundCtx k = none ∧ ∃ i ∈ x.items.head?, let is := x.items.tail; x.items = i :: is ∧
    (i.phase = .ended ∨ (i.phase = .handed ∧ i.toAdmit = 0 ∧ i.tsWait = false))) ∧
  (let s : State := W.queuesWorkIt; s.released = true ∧ s.ready 6 = true ∧ let q : Nat := 5; let k := 16384 + q;
    let x := s.queue k; ∃ r ∈ x.regions.find? (fun r => r.closed && decide (r.open_ = 0)), True) ∧
  (let s : State := W.up; s.released = true ∧ s.ready 6 = true ∧ let q : Nat := 0; let k := 16384 + q;
    let x := s.queue k; (x.regions.find? (fun r => r.closed && decide (r.open_ = 0)) = none)) := by
  refine ⟨?_, ?_, ?_, ?_, ?_, ?_, ?_, ?_, ?_, ?_, ?_⟩
  all_goals decide +kernel

def W.completionRingsWorkSt : State :=
  { W.up with qmg := { W.up.qmg with rings := [(2, { state := .running, ctx := { inst := 0, m := 64, ring := 0x4000 }, ready := [{ cookie := 5, inst := 0, gen := 2 }, { cookie := 5, queue := 0, inst := 0, gen := 3, bytes := 9 }] })] } }
def W.completionRingsWorkDis : State :=
  { W.up with qmg := { W.up.qmg with rings := [(2, { state := .disabled, ctx := { inst := 0 }, ready := [{ cookie := 5, queue := 0, inst := 0, gen := 3, bytes := 9 }] })] } }
def W.completionRingsWorkOk : State :=
  { W.up with qmg := { W.up.qmg with rings := [(2, { state := .running, ctx := { inst := 0, m := 64, ring := 0x4000 }, ready := [{ cookie := 5, queue := 0, inst := 0, gen := 3, bytes := 9 }], w := 2^32-1, l := 2^32-3, armed := true })] } }
def W.completionRingsWorkFull : State :=
  { W.up with qmg := { W.up.qmg with rings := [(2, { state := .running, ctx := { inst := 0, m := 64, ring := 0x4000 }, ready := [{ cookie := 5, queue := 0, inst := 0, gen := 3, bytes := 9 }], w := 64 })] } }
def W.completionRingsWorkCb : State :=
  { W.up with qmg := { W.up.qmg with rings := [(2, { state := .running, ctx := { inst := 0, m := 64, ring := 0x4000 }, corbel := [{ cookie := 5, queue := 0, inst := 0, gen := 3, bytes := 9 }], w := 3, l := 1 })] } }
def W.completionRingsWorkTm2 : State :=
  { W.up with qmg := { W.up.qmg with rings := [(2, { state := .running, ctx := { inst := 0, m := 64, ring := 0x4000 }, timerEnd := some 3000001 })] } }
def W.completionRingsWorkTm : State :=
  { W.up with qmg := { W.up.qmg with rings := [(2, { state := .running, ctx := { inst := 0, m := 64, ring := 0x4000 }, w := 3, l := 1, timerEnd := some 3000000, armed := true })] } }
def W.completionRingsWorkEn : State :=
  { ((((W.up).setWord Reg.qmgCq2 [0] 0x00050000).setWord Reg.qmgCq2 [1] 0x00050000).setWord Reg.qmgCq2 [2] 0x00050000) with qmg := { W.up.qmg with lines := [(5, { state := .idle, inst := 0 })] } }
def W.completionRingsWorkUse : State :=
  { W.up with qmg := { W.up.qmg with rings := [(2, { state := .running, ctx := { inst := 0, m := 64, ring := 0x4000 }, w := 3, l := 1, ready := [{ cookie := 5, queue := 0, inst := 0, gen := 3, bytes := 9 }] })], queues := [(0, { state := .stopped, ctx := { inst := 0, cq := 2 } })] } }

/-- Premises of CompletionRingsWork, clause by clause. -/
theorem premises_CompletionRingsWork :
  (let s : State := W.completionRingsWorkSt; s.released = true ∧ s.ready 6 = true ∧ let r : Nat := 2; let x := s.ring r;
    ∃ e ∈ x.ready.head?, let rest := x.ready.tail; x.ready = e :: rest ∧ s.entryStale x e = true) ∧
  (let s : State := W.completionRingsWorkDis; s.released = true ∧ s.ready 6 = true ∧ let r : Nat := 2;
    let x := s.ring r; ∃ e ∈ x.ready.head?, let rest := x.ready.tail; x.ready = e :: rest ∧ s.entryStale x e = false ∧
    x.state = .disabled) ∧
  (let s : State := W.completionRingsWorkOk; s.released = true ∧ s.ready 6 = true ∧ let r : Nat := 2; let x := s.ring r;
    ∃ e ∈ x.ready.head?, let rest := x.ready.tail; x.ready = e :: rest ∧ s.entryStale x e = false ∧ x.state = .running ∧
    s.fnOpen x.fn = true ∧ x.corbel = [] ∧ x.waiting = [] ∧ sub32 x.w x.l < x.ctx.m ∧ x.ctx.ats = false) ∧
  (let s : State := W.completionRingsWorkFull; s.released = true ∧ s.ready 6 = true ∧ let r : Nat := 2;
    let x := s.ring r; ∃ e ∈ x.ready.head?, let rest := x.ready.tail; x.ready = e :: rest ∧ s.entryStale x e = false ∧
    x.state = .running ∧ x.corbel = [] ∧ x.waiting = [] ∧ x.ctx.m ≤ sub32 x.w x.l ∧ 0 < x.ctx.corbelCap) ∧
  (let s : State := W.up; s.released = true ∧ s.ready 6 = true ∧ let r : Nat := 0; let x := s.ring r; x.ready = []) ∧
  (let s : State := W.completionRingsWorkSt; s.released = true ∧ s.ready 6 = true ∧ let r : Nat := 2; let x := s.ring r;
    (∀ p ∈ s.qmg.rings, p.2.waiting = []) ∧ x.state = .running ∧ x.waiting = [] ∧ x.corbel = []) ∧
  (let s : State := W.completionRingsWorkCb; s.released = true ∧ s.ready 6 = true ∧ let r : Nat := 2; let x := s.ring r;
    (∀ p ∈ s.qmg.rings, p.2.waiting = []) ∧ x.state = .running ∧ x.waiting = [] ∧ ∃ e ∈ x.corbel.head?, x.corbel = [e] ∧
    s.entryStale x e = false ∧ s.fnOpen x.fn = true ∧ sub32 x.w x.l < x.ctx.m ∧ x.ctx.ats = false) ∧
  (let s : State := W.completionRingsWorkTm2; s.released = true ∧ s.ready 6 = true ∧ let r : Nat := 2;
    let x := s.ring r; ∃ e ∈ x.timerEnd, s.now < e) ∧
  (let s : State := W.completionRingsWorkTm; s.released = true ∧ s.ready 6 = true ∧ let r : Nat := 2; let x := s.ring r;
    ∃ e ∈ x.timerEnd, e ≤ s.now ∧ x.state = .running ∧ x.armed = true ∧ x.w ≠ x.l) ∧
  (let s : State := W.completionRingsWorkEn; s.released = true ∧ s.ready 6 = true ∧ let r : Nat := 0; let x := s.ring r;
    let g : Nat := 0; g < 4 ∧ r < 8192 ∧ let a := blockBase 6 + 0x1A0000 + 0x1000 * g; let m : Master := .pf 0;
    s.writes m a ∧ (s.qmg.cqCmd.getD g {}).busy = false ∧ s.ringJudge r ≤ 2051 ∧
    s.cmdDenied m g (s.ringJudge r) = false ∧ let c := s.readCqCtx r; x.state = .disabled ∧ s.cqWhy r c = 0) ∧
  (let s : State := W.up; s.released = true ∧ s.ready 6 = true ∧ let r : Nat := 0; let x := s.ring r; let g : Nat := 0;
    g < 4 ∧ r < 8192 ∧ let a := blockBase 6 + 0x1A0000 + 0x1000 * g; let m : Master := .pf 0; s.writes m a ∧
    (s.qmg.cqCmd.getD g {}).busy = false ∧ s.ringJudge r ≤ 2051 ∧ s.cmdDenied m g (s.ringJudge r) = false ∧
    let c := s.readCqCtx r; x.state = .disabled ∧ s.cqWhy r c ≠ 0) ∧
  (let s : State := W.up; s.released = true ∧ s.ready 6 = true ∧ let r : Nat := 0; let x := s.ring r; let g : Nat := 0;
    g < 4 ∧ r < 8192 ∧ let a := blockBase 6 + 0x1A0000 + 0x1000 * g; let m : Master := .pf 0; s.writes m a ∧
    (s.qmg.cqCmd.getD g {}).busy = false ∧ s.ringJudge r ≤ 2051 ∧ s.cmdDenied m g (s.ringJudge r) = false ∧
    x.state = .disabled) ∧
  (let s : State := W.completionRingsWorkUse; s.released = true ∧ s.ready 6 = true ∧ let r : Nat := 2;
    let x := s.ring r; let g : Nat := 0; g < 4 ∧ r < 8192 ∧ let a := blockBase 6 + 0x1A0000 + 0x1000 * g;
    let m : Master := .pf 0; s.writes m a ∧ (s.qmg.cqCmd.getD g {}).busy = false ∧ s.ringJudge r ≤ 2051 ∧
    s.cmdDenied m g (s.ringJudge r) = false ∧ x.state = .running ∧
    (∃ p ∈ s.qmg.queues, p.2.state ≠ .disabled ∧ p.2.ctx.cq = r)) ∧
  (let s : State := W.completionRingsWorkSt; s.released = true ∧ s.ready 6 = true ∧ let r : Nat := 2; let x := s.ring r;
    let g : Nat := 0; g < 4 ∧ r < 8192 ∧ let a := blockBase 6 + 0x1A0000 + 0x1000 * g; let m : Master := .pf 0;
    s.writes m a ∧ (s.qmg.cqCmd.getD g {}).busy = false ∧ s.ringJudge r ≤ 2051 ∧
    s.cmdDenied m g (s.ringJudge r) = false ∧ x.state = .running ∧
    (∀ p ∈ s.qmg.queues, p.2.state ≠ .disabled → p.2.ctx.cq ≠ r) ∧ x.waiting = []) := by
  refine ⟨?_, ?_, ?_, ?_, ?_, ?_, ?_, ?_, ?_, ?_, ?_, ?_, ?_, ?_⟩
  all_goals (try unfold State.writes)
  all_goals (try unfold State.reaches)
  all_goals decide +kernel

def W.instancesAreManagedAb : State := { W.up with ivm := { W.up.ivm with insts := [] } }
def W.instancesAreManagedBigg : State := (W.up).setWord Reg.ivmCmdArg [0, 0] 4294967295
def W.instancesAreManagedRs : State :=
  { W.up with ivm := { W.up.ivm with insts := [(0, { state := .resetting, prior := .started, gen := 3 }), (1, { state := .removing, gone := true, gen := 7 }), (2, { state := .resetting, wrapped := true, gen := 0 })] }, packets := [(1, { mark := { inst := 2, gen := 4095 }, stage := .queued })] }
def W.instancesAreManagedSh2 : State :=
  { W.up with ivm := { W.up.ivm with insts := [(0, { state := .started, prior := .started, gen := 3, grant := { txUnits := 1, txBase := 20 } })] }, qmg := { W.up.qmg with queues := [(8192 + 64 * 20, { state := .running })] } }
def W.instancesAreManagedBusy : State := { W.up with ivm := { W.up.ivm with cmd := [{ busy := true }, {}, {}, {}] } }

/-- Premises of InstancesAreManaged, clause by clause. -/
theorem premises_InstancesAreManaged :
  (let f : Nat := 1; f < 4 ∧ let i : Nat := 0; i < 2052 ∧ let s : State := W.up; s.released = true ∧ s.ready 7 = true ∧
    let a := ivmCmdAddr f; let m : Master := .pf 0; s.writes m a ∧ (s.ivm.cmd.getD f {}).busy = false ∧
    let h := match m with | .pf h => h | _ => 0; m = .pf h ∧ h ≠ f) ∧
  (let f : Nat := 0; f < 4 ∧ let i : Nat := 0; i < 2052 ∧ let s : State := W.up; s.released = true ∧ s.ready 7 = true ∧
    let a := ivmCmdAddr f; let m : Master := .pf 0; s.writes m a ∧ (s.ivm.cmd.getD f {}).busy = false ∧
    m.isFw = false) ∧
  (let f : Nat := 0; f < 4 ∧ let i : Nat := 0; i < 2052 ∧ let s : State := W.instancesAreManagedAb; s.released = true ∧
    s.ready 7 = true ∧ let a := ivmCmdAddr f; let x := s.inst i; let g := s.ivmArg f; let m : Master := .fw 0 1;
    s.writes m a ∧ (s.ivm.cmd.getD f {}).busy = false ∧ m.isFw = true ∧ s.instFace i = some f ∧ i < 2048 ∧
    x.state = .absent ∧ s.grantWhy i g = 0) ∧
  (let f : Nat := 0; f < 4 ∧ let i : Nat := 2; i < 2052 ∧ let s : State := W.instancesAreManagedBigg;
    s.released = true ∧ s.ready 7 = true ∧ let a := ivmCmdAddr f; let x := s.inst i; let g := s.ivmArg f;
    let m : Master := .fw 0 1; s.writes m a ∧ (s.ivm.cmd.getD f {}).busy = false ∧ m.isFw = true ∧
    s.instFace i = some f ∧ i < 2048 ∧ x.state = .absent ∧ s.grantWhy i g ≠ 0) ∧
  (let f : Nat := 0; f < 4 ∧ let i : Nat := 0; i < 2052 ∧ let s : State := W.up; s.released = true ∧ s.ready 7 = true ∧
    let a := ivmCmdAddr f; let x := s.inst i; let m : Master := .fw 0 1; s.writes m a ∧
    (s.ivm.cmd.getD f {}).busy = false ∧ m.isFw = true ∧ s.instFace i = some f ∧ i < 2048 ∧ x.state ≠ .absent) ∧
  (let f : Nat := 0; f < 4 ∧ let i : Nat := 0; i < 2052 ∧ let s : State := W.up; s.released = true ∧ s.ready 7 = true ∧
    let a := ivmCmdAddr f; let x := s.inst i; let m : Master := .fw 0 1; s.writes m a ∧
    (s.ivm.cmd.getD f {}).busy = false ∧ m.isFw = true ∧ s.instFace i = some f ∧ i < 2048 ∧
    (x.state = .created ∨ x.state = .started)) ∧
  (let f : Nat := 0; f < 4 ∧ let i : Nat := 0; i < 2052 ∧ let s : State := W.instancesAreManagedRs; s.released = true ∧
    s.ready 7 = true ∧ let a := ivmCmdAddr f; let x := s.inst i; let m : Master := .fw 0 1; s.writes m a ∧
    (s.ivm.cmd.getD f {}).busy = false ∧ m.isFw = true ∧ s.instFace i = some f ∧ i < 2048 ∧ x.state = .resetting) ∧
  (let f : Nat := 0; f < 4 ∧ let i : Nat := 2048; i < 2052 ∧ let s : State := W.up; s.released = true ∧
    s.ready 7 = true ∧ let a := ivmCmdAddr f; let m : Master := .fw 0 1; s.writes m a ∧
    (s.ivm.cmd.getD f {}).busy = false ∧ m.isFw = true ∧ s.instFace i = some f ∧ 2048 ≤ i) ∧
  (let f : Nat := 0; f < 4 ∧ let i : Nat := 0; i < 2052 ∧ let s : State := W.instancesAreManagedBigg;
    s.released = true ∧ s.ready 7 = true ∧ let a := ivmCmdAddr f; let x := s.inst i; let g := s.ivmArg f;
    let m : Master := .fw 0 1; s.writes m a ∧ (s.ivm.cmd.getD f {}).busy = false ∧ m.isFw = true ∧
    s.instFace i = some f ∧ (x.state = .created ∨ x.state = .started) ∧ s.grantWhy i g ≠ 0) ∧
  (let f : Nat := 0; f < 4 ∧ let i : Nat := 0; i < 2052 ∧ let s : State := W.instancesAreManagedSh2; s.released = true ∧
    s.ready 7 = true ∧ let a := ivmCmdAddr f; let x := s.inst i; let g := s.ivmArg f; let m : Master := .fw 0 1;
    s.writes m a ∧ (s.ivm.cmd.getD f {}).busy = false ∧ m.isFw = true ∧ s.instFace i = some f ∧
    (x.state = .created ∨ x.state = .started) ∧ s.grantWhy i g = 0 ∧ s.shareWhy i x.grant g ≠ 0) ∧
  (let f : Nat := 0; f < 4 ∧ let i : Nat := 0; i < 2052 ∧ let s : State := W.up; s.released = true ∧ s.ready 7 = true ∧
    let a := ivmCmdAddr f; let x := s.inst i; let g := s.ivmArg f; let m : Master := .fw 0 1; s.writes m a ∧
    (s.ivm.cmd.getD f {}).busy = false ∧ m.isFw = true ∧ s.instFace i = some f ∧
    (x.state = .created ∨ x.state = .started) ∧ s.grantWhy i g = 0 ∧ s.shareWhy i x.grant g = 0 ∧
    s.queuesLost x.grant g = []) ∧
  (let f : Nat := 0; f < 4 ∧ let i : Nat := 1; i < 2052 ∧ let s : State := W.up; s.released = true ∧ s.ready 7 = true ∧
    let a := ivmCmdAddr f; let x := s.inst i; let m : Master := .pf 0; s.writes m a ∧
    (s.ivm.cmd.getD f {}).busy = false ∧ (m.isFw = true ∨ m = .pf f) ∧ s.instFace i = some f ∧ x.state = .created) ∧
  (let f : Nat := 0; f < 4 ∧ let i : Nat := 0; i < 2052 ∧ let s : State := W.up; s.released = true ∧ s.ready 7 = true ∧
    let a := ivmCmdAddr f; let x := s.inst i; let m : Master := .pf 0; s.writes m a ∧
    (s.ivm.cmd.getD f {}).busy = false ∧ (m.isFw = true ∨ m = .pf f) ∧ s.instFace i = some f ∧ x.state ≠ .created) ∧
  (let f : Nat := 0; f < 4 ∧ let i : Nat := 0; i < 2052 ∧ let s : State := W.up; s.released = true ∧ s.ready 7 = true ∧
    let a := ivmCmdAddr f; let m : Master := .pf 0; s.writes m a ∧ (s.ivm.cmd.getD f {}).busy = false ∧
    (m.isFw = true ∨ m = .pf f) ∧ s.instFace i = some f) ∧
  (let f : Nat := 0; f < 4 ∧ let i : Nat := 0; i < 2052 ∧ let s : State := W.instancesAreManagedBusy;
    s.released = true ∧ s.ready 7 = true ∧ let a := ivmCmdAddr f; let m : Master := .pf 0; s.writes m a ∧
    (s.ivm.cmd.getD f {}).busy = true ∧ m.isFw = false) ∧
  (let f : Nat := 0; f < 4 ∧ let i : Nat := 0; i < 2052 ∧ let s : State := W.up; s.released = true ∧ s.ready 7 = true ∧
    let x := s.inst i; (x.resetting = false ∨ s.flushing i = true)) ∧
  (let f : Nat := 0; f < 4 ∧ let i : Nat := 2; i < 2052 ∧ let s : State := W.instancesAreManagedRs; s.released = true ∧
    s.ready 7 = true ∧ let x := s.inst i; x.resetting = true ∧ s.flushing i = false ∧ x.wrapped = true ∧
    s.namesInst i = true) ∧
  (let f : Nat := 0; f < 4 ∧ let i : Nat := 0; i < 2052 ∧ let s : State := W.instancesAreManagedRs; s.released = true ∧
    s.ready 7 = true ∧ let x := s.inst i; x.resetting = true ∧ s.flushing i = false ∧ x.wrapped = false ∧
    x.state = .resetting ∧ x.removeNext = false) ∧
  (let f : Nat := 0; f < 4 ∧ let i : Nat := 1; i < 2052 ∧ let s : State := W.instancesAreManagedRs; s.released = true ∧
    s.ready 7 = true ∧ let x := s.inst i; x.resetting = true ∧ s.flushing i = false ∧ x.wrapped = false ∧
    x.state = .removing ∧ x.moved = none ∧ x.gone = true ∧ s.instFace i = some f ∧
    let t := s.begun.setInst i { gen := x.gen, resets := (x.resets + 1) % 2 ^ 48 };
    let u := ((t.setFn i { t.fn i with flrBusy := false }).clearBits i).count (ivmCounter 0) 1;
    let v := u.raise 163 i (some i); v.instFace i = some f) := by
  refine ⟨?_, ?_, ?_, ?_, ?_, ?_, ?_, ?_, ?_, ?_, ?_, ?_, ?_, ?_, ?_, ?_, ?_, ?_, ?_⟩
  all_goals (try unfold State.writes)
  all_goals (try unfold State.reaches)
  all_goals decide +kernel

def W.mailboxesCarryMessages0i : State := { W.up with ivm := { W.up.ivm with chans := [(0, {  })] } }
def W.mailboxesCarryMessages0p : State :=
  { W.up with ivm := { W.up.ivm with chans := [(0, { state := .posted, seq := 255, b := { en := true, vector := 3, held := true } })] } }
def W.mailboxesCarryMessages0n : State :=
  { W.up with ivm := { W.up.ivm with chans := [(0, { state := .idle, a := { notice := true, held := true, en := true, vector := 0 } })] } }
def W.mailboxesCarryMessagesRes : State :=
  { W.up with ivm := { W.up.ivm with insts := [(0, { state := .resetting, prior := .started })], chans := [(0, { a := { held := true } })] } }
def W.mailboxesCarryMessages0h : State :=
  { W.up with ivm := { W.up.ivm with chans := [(0, { a := { held := true, en := false } })] } }

/-- Premises of MailboxesCarryMessages, clause by clause. -/
theorem premises_MailboxesCarryMessages :
  (let c : Nat := 0; c < 2056 ∧ let s : State := W.mailboxesCarryMessages0i; s.released = true ∧ s.ready 7 = true ∧
    let x := s.chan c; let shut := c < 2048 ∧ ((s.inst c).state = .absent ∨ (s.inst c).resetting = true);
    let m : Master := .vf 0; s.mbxEnd m c = some false ∧ let w : Nat := 0; w < 16 ∧ let v : Nat := 0; v < 2 ^ 32 ∧
    s.mbxReaches m c (4 * w) ∧ x.state ≠ .posted ∧ ¬shut) ∧
  (let c : Nat := 0; c < 2056 ∧ let s : State := W.mailboxesCarryMessages0p; s.released = true ∧ s.ready 7 = true ∧
    let x := s.chan c; let shut := c < 2048 ∧ ((s.inst c).state = .absent ∨ (s.inst c).resetting = true);
    let m : Master := .vf 0; s.mbxEnd m c = some false ∧ let w : Nat := 0; w < 16 ∧ let v : Nat := 0; v < 2 ^ 32 ∧
    s.mbxReaches m c (4 * w) ∧ (x.state = .posted ∨ shut)) ∧
  (let c : Nat := 0; c < 2056 ∧ let s : State := W.mailboxesCarryMessages0i; s.released = true ∧ s.ready 7 = true ∧
    let x := s.chan c; let shut := c < 2048 ∧ ((s.inst c).state = .absent ∨ (s.inst c).resetting = true);
    let m : Master := .vf 0; s.mbxEnd m c = some false ∧ s.mbxReaches m c 0x40 ∧ x.state ≠ .posted ∧ ¬shut) ∧
  (let c : Nat := 0; c < 2056 ∧ let s : State := W.mailboxesCarryMessages0p; s.released = true ∧ s.ready 7 = true ∧
    let x := s.chan c; let shut := c < 2048 ∧ ((s.inst c).state = .absent ∨ (s.inst c).resetting = true);
    let m : Master := .vf 0; s.mbxEnd m c = some false ∧ s.mbxReaches m c 0x40 ∧ (x.state = .posted ∨ shut)) ∧
  (let c : Nat := 0; c < 2056 ∧ let s : State := W.mailboxesCarryMessages0p; s.released = true ∧ s.ready 7 = true ∧
    let x := s.chan c; let shut := c < 2048 ∧ ((s.inst c).state = .absent ∨ (s.inst c).resetting = true);
    let m : Master := .vf 0; s.mbxEnd m c = some false ∧ s.mbxReaches m c 0x40 ∧ x.state = .posted ∧ ¬shut) ∧
  (let c : Nat := 0; c < 2056 ∧ let s : State := W.mailboxesCarryMessages0i; s.released = true ∧ s.ready 7 = true ∧
    let x := s.chan c; let shut := c < 2048 ∧ ((s.inst c).state = .absent ∨ (s.inst c).resetting = true);
    let m : Master := .vf 0; s.mbxEnd m c = some false ∧ s.mbxReaches m c 0x40 ∧ (x.state ≠ .posted ∨ shut)) ∧
  (let c : Nat := 0; c < 2056 ∧ let s : State := W.mailboxesCarryMessages0i; s.released = true ∧ s.ready 7 = true ∧
    let m : Master := .vf 0; s.mbxEnd m c = some false ∧ s.mbxReaches m c 0x40) ∧
  (let c : Nat := 0; c < 2056 ∧ let s : State := W.mailboxesCarryMessages0p; s.released = true ∧ s.ready 7 = true ∧
    let x := s.chan c; let m : Master := .pf 0; s.mbxEnd m c = some true ∧ let w : Nat := 0; w < 16 ∧ let v : Nat := 0;
    v < 2 ^ 32 ∧ s.mbxReaches m c (4 * w) ∧ x.state = .posted) ∧
  (let c : Nat := 0; c < 2056 ∧ let s : State := W.mailboxesCarryMessages0i; s.released = true ∧ s.ready 7 = true ∧
    let x := s.chan c; let m : Master := .pf 0; s.mbxEnd m c = some true ∧ let w : Nat := 0; w < 16 ∧ let v : Nat := 0;
    v < 2 ^ 32 ∧ s.mbxReaches m c (4 * w) ∧ x.state ≠ .posted) ∧
  (let c : Nat := 0; c < 2056 ∧ let s : State := W.mailboxesCarryMessages0p; s.released = true ∧ s.ready 7 = true ∧
    let x := s.chan c; let m : Master := .pf 0; s.mbxEnd m c = some true ∧ s.mbxReaches m c 0x40 ∧ x.state = .posted) ∧
  (let c : Nat := 0; c < 2056 ∧ let s : State := W.mailboxesCarryMessages0i; s.released = true ∧ s.ready 7 = true ∧
    let x := s.chan c; let m : Master := .pf 0; s.mbxEnd m c = some true ∧ s.mbxReaches m c 0x40 ∧ x.state ≠ .posted) ∧
  (let c : Nat := 0; c < 2056 ∧ let s : State := W.mailboxesCarryMessages0i; s.released = true ∧ s.ready 7 = true ∧
    let x := s.chan c; let m : Master := .pf 0; s.mbxEnd m c = some true ∧ s.mbxReaches m c 0x40 ∧ x.a.notice = false) ∧
  (let c : Nat := 0; c < 2056 ∧ let s : State := W.mailboxesCarryMessages0n; s.released = true ∧ s.ready 7 = true ∧
    let x := s.chan c; let m : Master := .pf 0; s.mbxEnd m c = some true ∧ s.mbxReaches m c 0x40 ∧ x.a.notice = true) ∧
  (let c : Nat := 0; c < 2056 ∧ let s : State := W.mailboxesCarryMessages0i; s.released = true ∧ s.ready 7 = true ∧
    let m : Master := .pf 0; s.mbxEnd m c = some true ∧ s.mbxReaches m c 0x40) ∧
  (let c : Nat := 0; c < 2056 ∧ let s : State := W.mailboxesCarryMessages0i; s.released = true ∧ s.ready 7 = true ∧
    let m : Master := .fw 0 1; s.mbxEnd m c = none ∧ s.mbxReaches m c 0x40) ∧
  (let c : Nat := 0; c < 2056 ∧ let s : State := W.mailboxesCarryMessagesRes; s.released = true ∧ s.ready 7 = true ∧
    let x := s.chan c; let e := false; (x.fin e).held = true ∧ (s.endVal c e = 1 ∨ s.endVal c e = 2) ∧
    ∃ k ∈ s.endFn c e, (s.inst (fnInst k)).state = .resetting) ∧
  (let c : Nat := 0; c < 2056 ∧ let s : State := W.mailboxesCarryMessages0p; s.released = true ∧ s.ready 7 = true ∧
    let x := s.chan c; let e := true; (x.fin e).held = true ∧ (s.endVal c e = 1 ∨ s.endVal c e = 2) ∧
    ∃ k ∈ s.endFn c e, (s.inst (fnInst k)).state ≠ .resetting ∧ (x.fin e).en = true) ∧
  (let c : Nat := 0; c < 2056 ∧ let s : State := W.mailboxesCarryMessages0h; s.released = true ∧ s.ready 7 = true ∧
    let x := s.chan c; let e := false; (x.fin e).held = true ∧ (s.endVal c e = 1 ∨ s.endVal c e = 2) ∧
    ∃ k ∈ s.endFn c e, (s.inst (fnInst k)).state ≠ .resetting ∧ (x.fin e).en = false) ∧
  (let c : Nat := 0; c < 2056 ∧ let s : State := W.mailboxesCarryMessages0i; s.released = true ∧ s.ready 7 = true ∧
    let x := s.chan c; let e := false; (x.fin e).held = false) ∧
  (let c : Nat := 0; c < 2056 ∧ let s : State := W.mailboxesCarryMessages0i; s.released = true ∧ s.ready 7 = true ∧
    c < 2052 ∧ let d : Nat := 0; d < 2 ^ 32 ∧ let m : Master := .fw 0 1; s.writes m (Reg.ivmMbxBind.addr [c]) ∧
    m.isFw = true ∧ bitOf s.glb.lock 7 = false) ∧
  (let c : Nat := 0; c < 2056 ∧ let s : State := W.mailboxesCarryMessages0i; s.released = true ∧ s.ready 7 = true ∧
    c < 2052 ∧ let d : Nat := 0; d < 2 ^ 32 ∧ let m : Master := .pf 0; s.writes m (Reg.ivmMbxBind.addr [c]) ∧
    m.isFw = false) := by
  refine ⟨?_, ?_, ?_, ?_, ?_, ?_, ?_, ?_, ?_, ?_, ?_, ?_, ?_, ?_, ?_, ?_, ?_, ?_, ?_, ?_, ?_⟩
  all_goals (try unfold State.mbxReaches)
  all_goals (try unfold State.writes)
  all_goals (try unfold State.reaches)
  all_goals decide +kernel

def W.messagesAreAnsweredH : State :=
  { W.up with ivm := { W.up.ivm with chans := [(2048, { state := .posted, seq := 4, data := [(0, 11206913)] })] } }
def W.messagesAreAnsweredBad : State :=
  { W.up with ivm := { W.up.ivm with chans := [(2048, { state := .posted, seq := 4, data := [(0, 11206975)] })] } }
def W.messagesAreAnsweredCr : State :=
  { W.up with ivm := { W.up.ivm with chans := [(2048, { state := .posted, seq := 4, data := [(0, 11206914), (1, 5), (2, 1)] })] } }
def W.messagesAreAnsweredSs : State :=
  { W.up with ivm := { W.up.ivm with chans := [(2048, { state := .posted, seq := 4, data := [(0, 11206916), (1, 1)] })] } }
def W.messagesAreAnsweredRm : State :=
  { W.up with ivm := { W.up.ivm with chans := [(2048, { state := .posted, seq := 4, data := [(0, 11206915), (1, 1)] })] } }
def W.messagesAreAnsweredRm0 : State :=
  { W.up with ivm := { W.up.ivm with chans := [(2048, { state := .posted, seq := 4, data := [(0, 11206915), (1, 7)] })] } }
def W.messagesAreAnsweredCro : State :=
  { W.up with ivm := { W.up.ivm with chans := [(2048, { state := .posted, seq := 4, data := [(0, 11206914), (1, 600)] })] } }
def W.messagesAreAnsweredSso : State :=
  { W.up with ivm := { W.up.ivm with chans := [(2048, { state := .posted, seq := 4, data := [(0, 11206916), (1, 600)] })] } }
def W.messagesAreAnsweredRmo : State :=
  { W.up with ivm := { W.up.ivm with chans := [(2048, { state := .posted, seq := 4, data := [(0, 11206915), (1, 600)] })] } }
def W.messagesAreAnsweredGn : State :=
  { W.up with ivm := { W.up.ivm with chans := [(2048, { state := .posted, seq := 4, data := [(0, 11206917)] })], notices := [(2048, { list := (List.range 9).map (fun k => { kind := 1, inst := k, data := 3 }), lost := 2 })] } }
def W.messagesAreAnsweredGn2 : State :=
  { W.up with ivm := { W.up.ivm with chans := [(2048, { state := .posted, seq := 4, data := [(0, 11206917)] })], notices := [(2048, { list := [{ kind := 1, inst := 4, data := 3 }], lost := 2 })] } }
def W.messagesAreAnsweredTh : State :=
  { W.up with ivm := { W.up.ivm with chans := [(0, { state := .posted, seq := 4, data := [(0, 11206913)] })] } }
def W.messagesAreAnsweredTrs : State :=
  { W.up with ivm := { W.up.ivm with chans := [(0, { state := .posted, seq := 4, data := [(0, 11206918)] })] } }
def W.messagesAreAnsweredUs : State :=
  { W.up with ivm := { W.up.ivm with chans := [(2048, { state := .posted, seq := 4, data := [(0, 11206976)] })] } }
def W.messagesAreAnsweredUs1 : State :=
  { W.up with ivm := { W.up.ivm with chans := [(2049, { state := .posted, seq := 4, data := [(0, 11206976)] })] } }
def W.messagesAreAnsweredUc1 : State :=
  { W.up with ivm := { W.up.ivm with chans := [(2049, { state := .posted, seq := 4, data := [(0, 11206977)] })] } }
def W.messagesAreAnsweredUc : State :=
  { W.up with ivm := { W.up.ivm with chans := [(2048, { state := .posted, seq := 4, data := [(0, 11206977), (1, 2)] })] } }

/-- Premises of MessagesAreAnswered, clause by clause. -/
theorem premises_MessagesAreAnswered :
  (let f : Nat := 0; f < 4 ∧ let s : State := W.messagesAreAnsweredH; s.released = true ∧ let c := 2048 + f;
    s.asked c 1 = true ∧ s.verOk c = true ∧ s.ivm.helloVer.length = 4) ∧
  (let f : Nat := 0; f < 4 ∧ let s : State := W.messagesAreAnsweredBad; s.released = true ∧ let c := 2048 + f;
    let op : Nat := 63; s.asked c op = true ∧ knownMgrOp op = false) ∧
  (let f : Nat := 0; f < 4 ∧ let s : State := W.up; s.released = true ∧ let c := 2048 + f; s.asked c 1 = false ∧
    (∀ (op : Nat), op < 256 → s.asked c op = true → knownMgrOp op = true)) ∧
  (let f : Nat := 0; f < 4 ∧ let s : State := W.messagesAreAnsweredCr; s.released = true ∧ let c := 2048 + f;
    s.fwWrites = true ∧ s.answererHolds c = true ∧ let i := s.msgWord c 1 % 4096; i < 2048 ∧ s.tenantFace i = some f ∧
    s.asked c 2 = true ∧ s.verOk c = true) ∧
  (let f : Nat := 0; f < 4 ∧ let s : State := W.messagesAreAnsweredSs; s.released = true ∧ let c := 2048 + f;
    s.fwWrites = true ∧ s.answererHolds c = true ∧ let i := s.msgWord c 1 % 4096; i < 2048 ∧ s.tenantFace i = some f ∧
    s.asked c 4 = true ∧ s.verOk c = true) ∧
  (let f : Nat := 0; f < 4 ∧ let s : State := W.messagesAreAnsweredRm; s.released = true ∧ let c := 2048 + f;
    s.fwWrites = true ∧ s.answererHolds c = true ∧ let i := s.msgWord c 1 % 4096; i < 2048 ∧ s.tenantFace i = some f ∧
    s.asked c 3 = true ∧ s.verOk c = true ∧ let v := s.begun.fwIvm f 4 i []; (v.ivm.cmd.getD f {}).result = 0) ∧
  (let f : Nat := 0; f < 4 ∧ let s : State := W.messagesAreAnsweredRm0; s.released = true ∧ let c := 2048 + f;
    s.fwWrites = true ∧ s.answererHolds c = true ∧ let i := s.msgWord c 1 % 4096; i < 2048 ∧ s.tenantFace i = some f ∧
    s.asked c 3 = true ∧ s.verOk c = true ∧ let v := s.begun.fwIvm f 4 i []; (v.ivm.cmd.getD f {}).result ≠ 0) ∧
  (let f : Nat := 0; f < 4 ∧ let s : State := W.messagesAreAnsweredCro; s.released = true ∧ let c := 2048 + f;
    s.fwWrites = true ∧ s.answererHolds c = true ∧ let i := s.msgWord c 1 % 4096; s.tenantFace i ≠ some f ∧
    s.verOk c = true ∧ s.asked c 2 = true) ∧
  (let f : Nat := 0; f < 4 ∧ let s : State := W.messagesAreAnsweredSso; s.released = true ∧ let c := 2048 + f;
    s.fwWrites = true ∧ s.answererHolds c = true ∧ let i := s.msgWord c 1 % 4096; s.tenantFace i ≠ some f ∧
    s.verOk c = true ∧ s.asked c 4 = true) ∧
  (let f : Nat := 0; f < 4 ∧ let s : State := W.messagesAreAnsweredRmo; s.released = true ∧ let c := 2048 + f;
    s.fwWrites = true ∧ s.answererHolds c = true ∧ let i := s.msgWord c 1 % 4096; s.tenantFace i ≠ some f ∧
    s.verOk c = true ∧ s.asked c 3 = true) ∧
  (let f : Nat := 0; f < 4 ∧ let s : State := W.messagesAreAnsweredGn; s.released = true ∧ let n : Nat := 2048;
    s.asked n 5 = true ∧ s.verOk n = true ∧ let h := mapGet {} s.ivm.notices n; (h.lost = 0 ∨ 7 ≤ h.list.length)) ∧
  (let f : Nat := 0; f < 4 ∧ let s : State := W.messagesAreAnsweredGn2; s.released = true ∧ let n : Nat := 2048;
    s.asked n 5 = true ∧ s.verOk n = true ∧ let h := mapGet {} s.ivm.notices n; h.lost ≠ 0 ∧ h.list.length < 7) ∧
  (let f : Nat := 0; f < 4 ∧ let s : State := W.messagesAreAnsweredTh; s.released = true ∧ let i : Nat := 0; i < 2048 ∧
    s.verOk i = true ∧ s.asked i 1 = true) ∧
  (let f : Nat := 0; f < 4 ∧ let s : State := W.messagesAreAnsweredTrs; s.released = true ∧ let i : Nat := 0; i < 2048 ∧
    s.verOk i = true ∧ s.asked i 6 = true ∧ s.tenantFace i = some f ∧ s.endVal i true = 2) ∧
  (let f : Nat := 0; f < 4 ∧ let s : State := W.messagesAreAnsweredUs; s.released = true ∧ let c := 2048 + f;
    s.asked c 0x40 = true ∧ s.verOk c = true ∧ f = s.glb.primary) ∧
  (let f : Nat := 1; f < 4 ∧ let s : State := W.messagesAreAnsweredUs1; s.released = true ∧ let c := 2048 + f;
    s.asked c 0x40 = true ∧ s.verOk c = true ∧ f ≠ s.glb.primary) ∧
  (let f : Nat := 1; f < 4 ∧ let s : State := W.messagesAreAnsweredUc1; s.released = true ∧ let c := 2048 + f;
    s.asked c 0x41 = true ∧ s.verOk c = true ∧ s.fwWrites = true ∧ s.answererHolds c = true ∧ f ≠ s.glb.primary) ∧
  (let f : Nat := 0; f < 4 ∧ let s : State := W.messagesAreAnsweredUc; s.released = true ∧ let c := 2048 + f;
    s.asked c 0x41 = true ∧ s.verOk c = true ∧ s.fwWrites = true ∧ s.answererHolds c = true ∧ f = s.glb.primary ∧
    bitOf (s.msgWord c 1) 0 = false ∧ s.tap.svnBusy = false) := by
  refine ⟨?_, ?_, ?_, ?_, ?_, ?_, ?_, ?_, ?_, ?_, ?_, ?_, ?_, ?_, ?_, ?_, ?_, ?_⟩
  all_goals decide +kernel

def W.imgBytes : List Byte :=
  let b := toLe 4 0x56525349 ++ toLe 4 1 ++ toLe 4 0x10000 ++ List.replicate (1888-12) 0; patchAt b 0x3C (toLe 4 (crc32 b))
def W.im : State := { ((W.up.setWord Reg.clsLoadSrc [] 64).setWord Reg.clsLoadLen [] 1888) with
  rules := { W.up.rules with banks := [{ state := .active, image := builtinImage }, { state := .loading }] }
  ksc := { W.up.ksc with cplx := [{ state := .active, sram := memWriteBytes [] 64 W.imgBytes }, {}] } }
def W.ruleBanksAreDrivenRd : State :=
  { W.up with rules := { W.up.rules with banks := [{ state := .active, image := builtinImage }, { state := .ready, image := builtinImage }], epoch := 255 } }
def W.ruleBanksAreDrivenLd : State :=
  { W.up with rules := { W.up.rules with banks := [{ state := .active, image := builtinImage }, { state := .loading }] } }
def W.ruleBanksAreDrivenLdb : State :=
  (({ W.up with rules := { W.up.rules with banks := [{ state := .active, image := builtinImage }, { state := .loading }] } }).setWord Reg.clsLoadSrc [] 63).setWord Reg.clsLoadLen [] 640

/-- Premises of RuleBanksAreDriven, clause by clause. -/
theorem premises_RuleBanksAreDriven :
  (let b : Nat := 1; b < 2 ∧ let s : State := W.up; s.released = true ∧ let a := blockBase 9; let x := s.bank b;
    let m : Master := .fw 0 1; s.writes m a ∧ m.isFw = true ∧ s.rules.cmdBusy = false ∧
    (x.state = .empty ∨ x.state = .ready)) ∧
  (let b : Nat := 0; b < 2 ∧ let s : State := W.up; s.released = true ∧ let a := blockBase 9; let x := s.bank b;
    let m : Master := .fw 0 1; s.writes m a ∧ m.isFw = true ∧ s.rules.cmdBusy = false ∧
    (x.state = .loading ∨ x.state = .active ∨ x.state = .draining)) ∧
  (let b : Nat := 1; b < 2 ∧ let s : State := W.ruleBanksAreDrivenRd; s.released = true ∧ let a := blockBase 9;
    let x := s.bank b; let m : Master := .fw 0 1; s.writes m a ∧ m.isFw = true ∧ s.rules.cmdBusy = false ∧
    x.state = .ready ∧ (s.bank (1 - b)).state = .active) ∧
  (let b : Nat := 0; b < 2 ∧ let s : State := W.up; s.released = true ∧ let a := blockBase 9; let x := s.bank b;
    let m : Master := .fw 0 1; s.writes m a ∧ m.isFw = true ∧ s.rules.cmdBusy = false ∧ x.state = .active) ∧
  (let b : Nat := 1; b < 2 ∧ let s : State := W.up; s.released = true ∧ let a := blockBase 9; let x := s.bank b;
    let m : Master := .fw 0 1; s.writes m a ∧ m.isFw = true ∧ s.rules.cmdBusy = false ∧
    (x.state = .empty ∨ x.state = .loading ∨ x.state = .draining)) ∧
  (let b : Nat := 1; b < 2 ∧ let s : State := W.ruleBanksAreDrivenRd; s.released = true ∧ let a := blockBase 9;
    let x := s.bank b; let m : Master := .fw 0 1; s.writes m a ∧ m.isFw = true ∧ s.rules.cmdBusy = false ∧
    x.state = .ready) ∧
  (let b : Nat := 0; b < 2 ∧ let s : State := W.up; s.released = true ∧ let a := blockBase 9; let x := s.bank b;
    let m : Master := .fw 0 1; s.writes m a ∧ m.isFw = true ∧ s.rules.cmdBusy = false ∧ x.state ≠ .ready) ∧
  (let b : Nat := 0; b < 2 ∧ let s : State := W.up; s.released = true ∧ let a := blockBase 9; let m : Master := .pf 0;
    s.reaches m a ∧ (m.isFw = false ∨ s.rules.cmdBusy = true)) ∧
  (let b : Nat := 1; b < 2 ∧ let s : State := W.im; s.released = true ∧ let x := s.bank b; x.state = .loading ∧
    let src := s.word Reg.clsLoadSrc []; let n := s.word Reg.clsLoadLen []; let bs := s.localBytes src n; src % 64 = 0 ∧
    inKeystoneLocal src n = true ∧ imageWhy bs = 0) ∧
  (let b : Nat := 1; b < 2 ∧ let s : State := W.ruleBanksAreDrivenLd; s.released = true ∧ let x := s.bank b;
    x.state = .loading ∧ let src := s.word Reg.clsLoadSrc []; let n := s.word Reg.clsLoadLen [];
    let bs := s.localBytes src n; src % 64 = 0 ∧ inKeystoneLocal src n = true ∧ imageWhy bs ≠ 0) ∧
  (let b : Nat := 1; b < 2 ∧ let s : State := W.ruleBanksAreDrivenLd; s.released = true ∧ let x := s.bank b;
    x.state = .loading ∧ let src := s.word Reg.clsLoadSrc []; let n := s.word Reg.clsLoadLen []; src % 64 = 0 ∧
    inKeystoneLocal src n = true) ∧
  (let b : Nat := 1; b < 2 ∧ let s : State := W.ruleBanksAreDrivenLdb; s.released = true ∧ let x := s.bank b;
    x.state = .loading ∧ let src := s.word Reg.clsLoadSrc []; let n := s.word Reg.clsLoadLen [];
    (src % 64 ≠ 0 ∨ inKeystoneLocal src n = false)) ∧
  (let b : Nat := 0; b < 2 ∧ let s : State := W.up; s.released = true ∧ let x := s.bank b; x.state ≠ .loading) := by
  refine ⟨?_, ?_, ?_, ?_, ?_, ?_, ?_, ?_, ?_, ?_, ?_, ?_, ?_⟩
  all_goals (try unfold State.writes)
  all_goals (try unfold State.reaches)
  all_goals decide +kernel

def W.ask : State := (W.up.setWord Reg.fwdCmdArg [0, 0] 0x1234).setWord Reg.fwdCmdArg [4, 0] 0x1234
def W.emin : State := match Machine.execEmInsert (.pf 0) 0 false W.ask with | .next t => t | _ => W.up
def W.emfull : State := { (W.ask.setWord Reg.fwdTblCfg [] 0) with fwd := { W.up.fwd with
  stash := (List.range 256).map (fun k => (k, ({ value := k + 100000, domain := 5 } : EmEntry)))
  buckets := ((emBuckets W.ask.placeSeeds (emOfArgs 0x1234 0 0).key).flatMap (fun b => (List.range 4).map (fun i => emSlot b i))).foldl
    (fun (m : AMap EmEntry) n => mapPut m n ({ value := n + 7, domain := 9 } : EmEntry)) [] } }
def W.addressesAreKeptFail : State :=
  { (((W.up).setWord Reg.fwdCmdArg [0, 0] 4660).setWord Reg.fwdCmdArg [0, 2] 0) with fwd := { W.up.fwd with rehashFailed := true } }
def W.addressesAreKeptLim : State :=
  ((((W.up).setWord Reg.fwdCmdArg [0, 0] 4660)).setWord Reg.fwdEmLimit [0] 0).setWord Reg.fwdEmLimit [1] 0
def W.addressesAreKeptBadk : State :=
  (((W.up).setWord Reg.fwdCmdArg [0, 0] 4294967295).setWord Reg.fwdCmdArg [0, 1] 4294967295).setWord Reg.fwdCmdArg [0, 2] 4294967295
def W.addressesAreKeptBit30 : State :=
  ((W.up).setWord Reg.fwdCmdArg [0, 0] 4660).setWord Reg.fwdCmdArg [0, 2] 1073741824
def W.addressesAreKeptReh : State := { W.up with fwd := { W.up.fwd with rehash := true, probe := [[1,2,3,4]] } }
def W.addressesAreKeptBusy : State := { W.up with fwd := { W.up.fwd with sets := [{ busy := true }, {}, {}, {}, {}] } }

/-- Premises of AddressesAreKept, clause by clause. -/
theorem premises_AddressesAreKept :
  (let set : Nat := 0; set < 5 ∧ let m : Master := .pf 0; (set = 4 → m.isFw = true) ∧ let s : State := W.emin;
    s.released = true ∧ let a := blockBase 10 + 0x5000 + 0x100 * set;
    let e := emOfArgs (s.fwdArg set 0) (s.fwdArg set 1) (s.fwdArg set 2); s.writes m a ∧
    (s.fwd.sets.getD set {}).busy = false ∧ e.keyOk = true ∧ destOk e.dest false = true ∧
    ∃ p ∈ s.fwd.emFind s.emSeeds e.key, ∃ o ∈ s.fwd.emAt p, s.fwd.rehashFailed = false) ∧
  (let set : Nat := 0; set < 5 ∧ let m : Master := .pf 0; (set = 4 → m.isFw = true) ∧
    let s : State := W.addressesAreKeptFail; s.released = true ∧ let a := blockBase 10 + 0x5000 + 0x100 * set;
    let e := emOfArgs (s.fwdArg set 0) (s.fwdArg set 1) (s.fwdArg set 2); s.writes m a ∧
    (s.fwd.sets.getD set {}).busy = false ∧ e.keyOk = true ∧ destOk e.dest false = true ∧
    s.fwd.rehashFailed = true ∧ s.fwd.rehash = false) ∧
  (let set : Nat := 0; set < 5 ∧ let m : Master := .pf 0; (set = 4 → m.isFw = true) ∧
    let s : State := W.addressesAreKeptLim; s.released = true ∧ let a := blockBase 10 + 0x5000 + 0x100 * set;
    let e := emOfArgs (s.fwdArg set 0) (s.fwdArg set 1) (s.fwdArg set 2); s.writes m a ∧
    (s.fwd.sets.getD set {}).busy = false ∧ e.keyOk = true ∧ destOk e.dest false = true ∧
    s.fwd.emFind s.emSeeds e.key = none ∧ s.fwd.rehashFailed = false ∧
    let full := s.word Reg.fwdEmLimit [e.ktype] ≤ s.fwd.ktUsed e.ktype; full) ∧
  (let set : Nat := 0; set < 5 ∧ let m : Master := .pf 0; (set = 4 → m.isFw = true) ∧ let s : State := W.up;
    s.released = true ∧ let a := blockBase 10 + 0x5000 + 0x100 * set;
    let e := emOfArgs (s.fwdArg set 0) (s.fwdArg set 1) (s.fwdArg set 2); s.writes m a ∧
    (s.fwd.sets.getD set {}).busy = false ∧ e.keyOk = true ∧ destOk e.dest false = true ∧
    s.fwd.emFind s.emSeeds e.key = none ∧ s.fwd.rehashFailed = false ∧
    let n := { e with hit := false, born := s.bornNow, stamp := 0 };
    let full := s.word Reg.fwdEmLimit [e.ktype] ≤ s.fwd.ktUsed e.ktype;
    let place := s.fwd.emPlace s.placeSeeds (s.fld Reg.fwdTblCfg [] 6 4) n; ¬full ∧ ∃ f ∈ place, True) ∧
  (let set : Nat := 0; set < 5 ∧ let m : Master := .pf 0; (set = 4 → m.isFw = true) ∧ let s : State := W.emfull;
    s.released = true ∧ let a := blockBase 10 + 0x5000 + 0x100 * set;
    let e := emOfArgs (s.fwdArg set 0) (s.fwdArg set 1) (s.fwdArg set 2); s.writes m a ∧
    (s.fwd.sets.getD set {}).busy = false ∧ e.keyOk = true ∧ destOk e.dest false = true ∧
    s.fwd.emFind s.emSeeds e.key = none ∧ s.fwd.rehashFailed = false ∧
    let n := { e with hit := false, born := s.bornNow, stamp := 0 };
    let full := s.word Reg.fwdEmLimit [e.ktype] ≤ s.fwd.ktUsed e.ktype;
    let place := s.fwd.emPlace s.placeSeeds (s.fld Reg.fwdTblCfg [] 6 4) n; ¬full ∧ place = none ∧
    s.fld Reg.fwdTblCfg [] 2 2 = 0) ∧
  (let set : Nat := 0; set < 5 ∧ let m : Master := .pf 0; (set = 4 → m.isFw = true) ∧ let s : State := W.emin;
    s.released = true ∧ let a := blockBase 10 + 0x5000 + 0x100 * set;
    let e := emOfArgs (s.fwdArg set 0) (s.fwdArg set 1) (s.fwdArg set 2); s.writes m a ∧
    (s.fwd.sets.getD set {}).busy = false ∧ e.keyOk = true ∧ ∃ p ∈ s.fwd.emFind s.emSeeds e.key, True) ∧
  (let set : Nat := 0; set < 5 ∧ let m : Master := .pf 0; (set = 4 → m.isFw = true) ∧ let s : State := W.emin;
    s.released = true ∧ let a := blockBase 10 + 0x5000 + 0x100 * set;
    let e := emOfArgs (s.fwdArg set 0) (s.fwdArg set 1) (s.fwdArg set 2); s.writes m a ∧
    (s.fwd.sets.getD set {}).busy = false ∧ e.keyOk = true ∧
    ∃ p ∈ s.fwd.emFind s.emSeeds e.key, ∃ o ∈ s.fwd.emAt p, True) ∧
  (let set : Nat := 0; set < 5 ∧ let m : Master := .pf 0; (set = 4 → m.isFw = true) ∧ let s : State := W.up;
    s.released = true ∧ let a := blockBase 10 + 0x5000 + 0x100 * set;
    let e := emOfArgs (s.fwdArg set 0) (s.fwdArg set 1) (s.fwdArg set 2); s.writes m a ∧
    (s.fwd.sets.getD set {}).busy = false ∧ e.keyOk = true ∧ s.fwd.emFind s.emSeeds e.key = none) ∧
  (let set : Nat := 0; set < 5 ∧ let m : Master := .pf 0; (set = 4 → m.isFw = true) ∧
    let s : State := W.addressesAreKeptBadk; s.released = true ∧ let a := blockBase 10 + 0x5000 + 0x100 * set;
    let e := emOfArgs (s.fwdArg set 0) (s.fwdArg set 1) (s.fwdArg set 2); s.writes m a ∧
    (s.fwd.sets.getD set {}).busy = false ∧ e.keyOk = false) ∧
  (let set : Nat := 0; set < 5 ∧ let m : Master := .pf 0; (set = 4 → m.isFw = true) ∧ let s : State := W.up;
    s.released = true ∧ let a := blockBase 10 + 0x5000 + 0x100 * set; s.writes m a ∧
    (s.fwd.sets.getD set {}).busy = false ∧ let i : Nat := 0; i < 4096 ∧ bitOf (s.fwdArg set 2) 30 = false) ∧
  (let set : Nat := 0; set < 5 ∧ let m : Master := .pf 0; (set = 4 → m.isFw = true) ∧
    let s : State := W.addressesAreKeptBit30; s.released = true ∧ let a := blockBase 10 + 0x5000 + 0x100 * set;
    let e := emOfArgs (s.fwdArg set 0) (s.fwdArg set 1) (s.fwdArg set 2); s.writes m a ∧
    (s.fwd.sets.getD set {}).busy = false ∧ let i : Nat := 0; i < 4096 ∧ bitOf (s.fwdArg set 2) 30 = true ∧
    e.keyOk = true ∧ destOk e.dest false = true) ∧
  (let set : Nat := 0; set < 5 ∧ let m : Master := .pf 0; (set = 4 → m.isFw = true) ∧
    let s : State := W.addressesAreKeptBadk; s.released = true ∧ let a := blockBase 10 + 0x5000 + 0x100 * set;
    let e := emOfArgs (s.fwdArg set 0) (s.fwdArg set 1) (s.fwdArg set 2); s.writes m a ∧
    (s.fwd.sets.getD set {}).busy = false ∧ let i : Nat := 0; i < 4096 ∧ bitOf (s.fwdArg set 2) 30 = true ∧
    (e.keyOk = false ∨ destOk e.dest false = false)) ∧
  (let set : Nat := 0; set < 5 ∧ let m : Master := .pf 0; (set = 4 → m.isFw = true) ∧ let s : State := W.up;
    s.released = true ∧ let a := blockBase 10 + 0x5000 + 0x100 * set; s.writes m a ∧
    (s.fwd.sets.getD set {}).busy = false ∧ let i : Nat := 0; i < 4096) ∧
  (let set : Nat := 0; set < 5 ∧ let m : Master := .pf 0; (set = 4 → m.isFw = true) ∧ let s : State := W.up;
    s.released = true ∧ let a := blockBase 10 + 0x5000 + 0x100 * set; s.writes m a ∧
    (s.fwd.sets.getD set {}).busy = false ∧ set ≠ 4) ∧
  (let set : Nat := 4; set < 5 ∧ let m : Master := .fw 0 1; (set = 4 → m.isFw = true) ∧
    let s : State := W.addressesAreKeptReh; s.released = true ∧ let a := blockBase 10 + 0x5000 + 0x100 * set;
    s.writes m a ∧ (s.fwd.sets.getD set {}).busy = false ∧ set = 4 ∧ s.fwd.rehash = true) ∧
  (let set : Nat := 4; set < 5 ∧ let m : Master := .fw 0 1; (set = 4 → m.isFw = true) ∧ let s : State := W.up;
    s.released = true ∧ let a := blockBase 10 + 0x5000 + 0x100 * set; s.writes m a ∧
    (s.fwd.sets.getD set {}).busy = false ∧ set = 4 ∧ s.fwd.rehash = false) ∧
  (let set : Nat := 0; set < 5 ∧ let m : Master := .pf 0; (set = 4 → m.isFw = true) ∧
    let s : State := W.addressesAreKeptBusy; s.released = true ∧ let a := blockBase 10 + 0x5000 + 0x100 * set;
    s.reaches m a ∧ (s.fwd.sets.getD set {}).busy = true) ∧
  (let set : Nat := 0; set < 5 ∧ let m : Master := .pf 0; (set = 4 → m.isFw = true) ∧ let s : State := W.up;
    s.released = true ∧ s.ready 10 = true ∧ s.fwd.rehash = false) ∧
  (let set : Nat := 0; set < 5 ∧ let m : Master := .pf 0; (set = 4 → m.isFw = true) ∧
    let s : State := W.addressesAreKeptReh; s.released = true ∧ s.ready 10 = true ∧ s.fwd.rehash = true) := by
  refine ⟨?_, ?_, ?_, ?_, ?_, ?_, ?_, ?_, ?_, ?_, ?_, ?_, ?_, ?_, ?_, ?_, ?_, ?_, ?_⟩
  all_goals (try unfold State.writes)
  all_goals (try unfold State.reaches)
  all_goals decide +kernel

def W.fl : State :=
  (((W.up.setWord Reg.fwdCmdArg [0, 0] 0x0A000001).setWord Reg.fwdCmdArg [0, 4] 0x0A000002).setWord Reg.fwdCmdArg [0, 11] 3)
def W.fin : State := match Machine.execFlowInsert (.pf 0) 0 false 0 W.fl with | .next t => t | _ => W.up
def W.l2 : State := match Machine.execLpmAdd (.pf 0) 0 W.up with | .next t => t | _ => W.up
def W.flowsAndRoutesAreKeptBk : State := ((W.up).setWord Reg.fwdCmdArg [0, 0] 1).setWord Reg.fwdCmdArg [0, 1] 5
def W.flowsAndRoutesAreKeptK : State :=
  ((((W.up).setWord Reg.fwdCmdArg [0, 0] 167772161).setWord Reg.fwdCmdArg [0, 4] 167772162).setWord Reg.fwdCmdArg [0, 11] 3).setWord Reg.fwdCmdArg [0, 12] 5
def W.flowsAndRoutesAreKeptBadd : State :=
  ((W.up).setWord Reg.fwdCmdArg [0, 5] 134217727).setWord Reg.fwdCmdArg [0, 0] 0

/-- Premises of FlowsAndRoutesAreKept, clause by clause. -/
theorem premises_FlowsAndRoutesAreKept :
  (let set : Nat := 0; set < 5 ∧ let m : Master := .pf 0; (set = 4 → m.isFw = true) ∧ let r : Nat := 0; r < 4096 ∧
    let s : State := W.transportCommandsNm; s.released = true ∧ let a := blockBase 10 + 0x5000 + 0x100 * set;
    s.writes m a ∧ (s.fwd.sets.getD set {}).busy = false ∧ s.ready 16 = false) ∧
  (let set : Nat := 0; set < 5 ∧ let m : Master := .pf 0; (set = 4 → m.isFw = true) ∧ let r : Nat := 0; r < 4096 ∧
    let s : State := W.flowsAndRoutesAreKeptBk; s.released = true ∧ let a := blockBase 10 + 0x5000 + 0x100 * set;
    let key := s.flowKeyArg set; s.writes m a ∧ (s.fwd.sets.getD set {}).busy = false ∧ s.ready 16 = true ∧
    (2112 ≤ r ∨ flowKeyOk key = false)) ∧
  (let set : Nat := 0; set < 5 ∧ let m : Master := .pf 0; (set = 4 → m.isFw = true) ∧ let r : Nat := 2048; r < 4096 ∧
    let s : State := W.up; s.released = true ∧ let a := blockBase 10 + 0x5000 + 0x100 * set;
    let key := s.flowKeyArg set; s.writes m a ∧ (s.fwd.sets.getD set {}).busy = false ∧ s.ready 16 = true ∧ r < 2112 ∧
    flowKeyOk key = true ∧ s.regionAllowed m set r = false) ∧
  (let set : Nat := 0; set < 5 ∧ let m : Master := .pf 0; (set = 4 → m.isFw = true) ∧ let r : Nat := 2048; r < 4096 ∧
    let s : State := W.up; s.released = true ∧ let a := blockBase 10 + 0x5000 + 0x100 * set;
    let key := s.flowKeyArg set; let w := s.fwdArg set 12; let e : FlowEntry := (
                         { key, dest := bitsOf (s.fwdArg set 11) 0 27, sa := bitsOf w 0 24, saEn := bitOf w 24, ageEn := bitOf w 27
                           cookie := s.fwdArg set 13 }); s.writes m a ∧ (s.fwd.sets.getD set {}).busy = false ∧ s.ready 16 = true ∧ r < 2112 ∧ flowKeyOk key = true ∧ s.regionAllowed m set r = false ∧ destOk e.dest true = true) ∧
  (let set : Nat := 0; set < 5 ∧ let m : Master := .pf 0; (set = 4 → m.isFw = true) ∧ let r : Nat := 0; r < 4096 ∧
    let s : State := W.fin; s.released = true ∧ let a := blockBase 10 + 0x5000 + 0x100 * set;
    let key := s.flowKeyArg set; s.writes m a ∧ (s.fwd.sets.getD set {}).busy = false ∧ s.ready 16 = true ∧ r < 2112 ∧
    flowKeyOk key = true ∧ s.regionAllowed m set r = true ∧ ∃ i ∈ s.flowFind r key, ∃ o ∈ mapFind s.fwd.flows i, True) ∧
  (let set : Nat := 0; set < 5 ∧ let m : Master := .pf 0; (set = 4 → m.isFw = true) ∧ let r : Nat := 0; r < 4096 ∧
    let s : State := W.fin; s.released = true ∧ let a := blockBase 10 + 0x5000 + 0x100 * set;
    let key := s.flowKeyArg set; let w := s.fwdArg set 12; let e : FlowEntry := (
                         { key, dest := bitsOf (s.fwdArg set 11) 0 27, sa := bitsOf w 0 24, saEn := bitOf w 24, ageEn := bitOf w 27
                           cookie := s.fwdArg set 13 }); s.writes m a ∧ (s.fwd.sets.getD set {}).busy = false ∧ s.ready 16 = true ∧ r < 2112 ∧ flowKeyOk key = true ∧ s.regionAllowed m set r = true ∧ ∃ i ∈ s.flowFind r key, ∃ o ∈ mapFind s.fwd.flows i, destOk e.dest true = true) ∧
  (let set : Nat := 0; set < 5 ∧ let m : Master := .pf 0; (set = 4 → m.isFw = true) ∧ let r : Nat := 0; r < 4096 ∧
    let s : State := W.up; s.released = true ∧ let a := blockBase 10 + 0x5000 + 0x100 * set;
    let key := s.flowKeyArg set; s.writes m a ∧ (s.fwd.sets.getD set {}).busy = false ∧ s.ready 16 = true ∧ r < 2112 ∧
    flowKeyOk key = true ∧ s.regionAllowed m set r = true ∧ s.flowFind r key = none) ∧
  (let set : Nat := 0; set < 5 ∧ let m : Master := .pf 0; (set = 4 → m.isFw = true) ∧ let r : Nat := 0; r < 4096 ∧
    let s : State := W.up; s.released = true ∧ let a := blockBase 10 + 0x5000 + 0x100 * set;
    let key := s.flowKeyArg set; let w := s.fwdArg set 12; let e : FlowEntry := (
                         { key, dest := bitsOf (s.fwdArg set 11) 0 27, sa := bitsOf w 0 24, saEn := bitOf w 24, ageEn := bitOf w 27
                           cookie := s.fwdArg set 13 }); s.writes m a ∧ (s.fwd.sets.getD set {}).busy = false ∧
    s.ready 16 = true ∧ r < 2112 ∧ flowKeyOk key = true ∧ s.regionAllowed m set r = true ∧ s.flowFind r key = none ∧
    destOk e.dest true = true ∧ let bs := s.flowBuckets r key;
    let free := fun (b : Nat) => ((List.range 8).map (b + ·)).filter (fun i => (mapFind s.fwd.flows i).isNone);
    let fa := free (bs.getD 0 0); let fb := free (bs.getD 1 0);
    ∃ i ∈ ((if fa.length < fb.length then fb else fa)).head?, let is := ((if fa.length < fb.length then fb else fa)).tail;
    (if fa.length < fb.length then fb else fa) = i :: is) ∧
  (let set : Nat := 0; set < 5 ∧ let m : Master := .pf 0; (set = 4 → m.isFw = true) ∧ let r : Nat := 0; r < 4096 ∧
    let s : State := W.flowsAndRoutesAreKeptK; s.released = true ∧ let a := blockBase 10 + 0x5000 + 0x100 * set;
    s.writes m a ∧ (s.fwd.sets.getD set {}).busy = false ∧ s.ready 16 = true ∧ s.routeArg set = none) ∧
  (let set : Nat := 0; set < 5 ∧ let m : Master := .pf 0; (set = 4 → m.isFw = true) ∧ let r : Nat := 0; r < 4096 ∧
    let s : State := W.flowsAndRoutesAreKeptBadd; s.released = true ∧ let a := blockBase 10 + 0x5000 + 0x100 * set;
    s.writes m a ∧ (s.fwd.sets.getD set {}).busy = false ∧ s.ready 16 = true ∧
    ∃ q ∈ s.routeArg set, let dest := bitsOf (s.fwdArg set 5) 0 27; destOk dest false = false) ∧
  (let set : Nat := 0; set < 5 ∧ let m : Master := .pf 0; (set = 4 → m.isFw = true) ∧ let r : Nat := 0; r < 4096 ∧
    let s : State := W.l2; s.released = true ∧ let a := blockBase 10 + 0x5000 + 0x100 * set; s.writes m a ∧
    (s.fwd.sets.getD set {}).busy = false ∧ s.ready 16 = true ∧
    ∃ q ∈ s.routeArg set, let dest := bitsOf (s.fwdArg set 5) 0 27; let old := s.fwd.routes.any (fun p => p.same q);
    destOk dest false = true ∧ old = true) ∧
  (let set : Nat := 0; set < 5 ∧ let m : Master := .pf 0; (set = 4 → m.isFw = true) ∧ let r : Nat := 0; r < 4096 ∧
    let s : State := W.up; s.released = true ∧ let a := blockBase 10 + 0x5000 + 0x100 * set; s.writes m a ∧
    (s.fwd.sets.getD set {}).busy = false ∧ s.ready 16 = true ∧
    ∃ q ∈ s.routeArg set, let dest := bitsOf (s.fwdArg set 5) 0 27; let old := s.fwd.routes.any (fun p => p.same q);
    destOk dest false = true ∧ old = false ∧ s.routesHeld q.v6 < (if q.v6 then 2097152 else 4194304)) ∧
  (let set : Nat := 0; set < 5 ∧ let m : Master := .pf 0; (set = 4 → m.isFw = true) ∧ let r : Nat := 0; r < 4096 ∧
    let s : State := W.l2; s.released = true ∧ let a := blockBase 10 + 0x5000 + 0x100 * set; s.writes m a ∧
    (s.fwd.sets.getD set {}).busy = false ∧ s.ready 16 = true ∧
    ∃ q ∈ s.routeArg set, let old := s.fwd.routes.any (fun p => p.same q); old = true) ∧
  (let set : Nat := 0; set < 5 ∧ let m : Master := .pf 0; (set = 4 → m.isFw = true) ∧ let r : Nat := 0; r < 4096 ∧
    let s : State := W.up; s.released = true ∧ let a := blockBase 10 + 0x5000 + 0x100 * set; s.writes m a ∧
    (s.fwd.sets.getD set {}).busy = false ∧ s.ready 16 = true ∧
    ∃ q ∈ s.routeArg set, let old := s.fwd.routes.any (fun p => p.same q); old = false) := by
  refine ⟨?_, ?_, ?_, ?_, ?_, ?_, ?_, ?_, ?_, ?_, ?_, ?_, ?_, ?_⟩
  all_goals (try unfold State.writes)
  all_goals (try unfold State.reaches)
  all_goals decide +kernel

def W.swb (owner : Nat) : State :=
  let t := [(0, 2 + 4 * 0), (1, owner)].foldl (fun (t : State) (q : Nat × Nat) => t.setWord Reg.crySaArg [0, q.1] q.2) W.up
  (List.range 7).foldl (fun (t : State) k => match Machine.execRegisterWrite (.pf 0) (blockBase 12 + 0x5080 + 4 * k) 4 (k + 1) t with | .next u => u | _ => t) t
def W.sw : State := W.swb 0
def W.swd : State := W.swb 2049
def W.swl : State :=
  { W.swb 0 with ivm := { W.up.ivm with insts := [(0, { state := .started, prior := .started, gen := 3 })] } }
def W.cryptoIsManagedN2 : State :=
  { W.sw with cry := { W.sw.cry with sas := [(9, { valid := true, proto := 2, owner := 0, ownerGen := 3, key := List.replicate 16 1, salt := [1,2,3,4] }), (10, { valid := true, proto := 2, owner := 2048, ownerGen := 0, key := List.replicate 16 1, salt := [1,2,3,4] })] } }
def W.cryptoIsManagedMg : State := W.swb 2048
def W.cryptoIsManagedX : State :=
  { W.up with cry := { W.up.cry with sas := [(9, { valid := true, proto := 2, owner := 0, ownerGen := 3, key := List.replicate 16 1, salt := [1,2,3,4] }), (10, { valid := true, proto := 2, owner := 2049, ownerGen := 0, key := List.replicate 16 1, salt := [1,2,3,4] }), (11, { valid := true, proto := 3, decrypt := true, tlsState := 2, owner := 0, ownerGen := 3 })] } }
def W.cryptoIsManagedLn : State :=
  { W.up with cry := { W.up.cry with lanes := [{ state := .draining }, { state := .out }, { state := .testing }, {}, { decrypt := true, state := .failed }, { decrypt := true, state := .draining, miss := [1] }, {decrypt := true, state := .out}, { decrypt := true }] }, packets := [(1, { stage := .atCrypto })] }

/-- Premises of CryptoIsManaged, clause by clause. -/
theorem premises_CryptoIsManaged :
  (let s : State := W.transportCommandsNm; s.released = true ∧ let set : Nat := 0; set < 5 ∧ let m : Master := .pf 0;
    (set = 4 → m.isFw = true) ∧ let i : Nat := 0; i < 4194304 ∧ let a := blockBase 12 + 0x5000 + 0x100 * set;
    s.writes m a ∧ (s.cry.sets.getD set {}).busy = false ∧ s.ready 16 = false) ∧
  (let s : State := W.up; s.released = true ∧ let set : Nat := 0; set < 5 ∧ let m : Master := .pf 0;
    (set = 4 → m.isFw = true) ∧ let i : Nat := 0; i < 4194304 ∧ let a := blockBase 12 + 0x5000 + 0x100 * set;
    s.writes m a ∧ (s.cry.sets.getD set {}).busy = false ∧ s.ready 16 = true ∧ i = 0) ∧
  (let s : State := W.swd; s.released = true ∧ let set : Nat := 0; set < 5 ∧ let m : Master := .pf 0;
    (set = 4 → m.isFw = true) ∧ let i : Nat := 9; i < 4194304 ∧ let a := blockBase 12 + 0x5000 + 0x100 * set;
    let n := s.saOfArgs set; let kw := if n.alg % 2 = 0 then 7 else 11; s.writes m a ∧
    (s.cry.sets.getD set {}).busy = false ∧ s.ready 16 = true ∧ 0 < i ∧ n.proto ≠ 0 ∧ n.confOff ≠ 3 ∧ n.owner ≤ 2051 ∧
    (n.winLog2 = 0 ∨ 6 ≤ n.winLog2 ∧ n.winLog2 ≤ 10) ∧ (n.proto = 3 → n.alg < 2) ∧ s.keyWords set = List.range kw ∧
    bitOf s.fuses.features (if n.proto = 2 then 0 else if n.proto = 1 then 1 else 2) = true ∧
    s.saAllowed m set n.owner = false) ∧
  (let s : State := W.cryptoIsManagedN2; s.released = true ∧ let set : Nat := 0; set < 5 ∧ let m : Master := .pf 0;
    (set = 4 → m.isFw = true) ∧ let i : Nat := 10; i < 4194304 ∧ let a := blockBase 12 + 0x5000 + 0x100 * set;
    let n := s.saOfArgs set; let kw := if n.alg % 2 = 0 then 7 else 11; let x := s.sa i; s.writes m a ∧
    (s.cry.sets.getD set {}).busy = false ∧ s.ready 16 = true ∧ 0 < i ∧ n.proto ≠ 0 ∧ n.confOff ≠ 3 ∧ n.owner ≤ 2051 ∧
    (n.winLog2 = 0 ∨ 6 ≤ n.winLog2 ∧ n.winLog2 ≤ 10) ∧ (n.proto = 3 → n.alg < 2) ∧ s.keyWords set = List.range kw ∧
    bitOf s.fuses.features (if n.proto = 2 then 0 else if n.proto = 1 then 1 else 2) = true ∧
    s.saAllowed m set n.owner = true ∧ s.saLive x = true ∧ x.owner ≠ n.owner) ∧
  (let s : State := W.cryptoIsManagedMg; s.released = true ∧ let set : Nat := 0; set < 5 ∧ let m : Master := .pf 0;
    (set = 4 → m.isFw = true) ∧ let i : Nat := 9; i < 4194304 ∧ let a := blockBase 12 + 0x5000 + 0x100 * set;
    let n := s.saOfArgs set; let kw := if n.alg % 2 = 0 then 7 else 11; let x := s.sa i; s.writes m a ∧
    (s.cry.sets.getD set {}).busy = false ∧ s.ready 16 = true ∧ 0 < i ∧ n.proto ≠ 0 ∧ n.confOff ≠ 3 ∧ n.owner ≤ 2051 ∧
    (n.winLog2 = 0 ∨ 6 ≤ n.winLog2 ∧ n.winLog2 ≤ 10) ∧ (n.proto = 3 → n.alg < 2) ∧ s.keyWords set = List.range kw ∧
    bitOf s.fuses.features (if n.proto = 2 then 0 else if n.proto = 1 then 1 else 2) = true ∧
    s.saAllowed m set n.owner = true ∧ (s.saLive x = false ∨ x.owner = n.owner) ∧
    s.saShare n.owner ≤ s.saInUse n.owner i) ∧
  (let s : State := W.sw; s.released = true ∧ let set : Nat := 0; set < 5 ∧ let m : Master := .pf 0;
    (set = 4 → m.isFw = true) ∧ let i : Nat := 9; i < 4194304 ∧ let a := blockBase 12 + 0x5000 + 0x100 * set;
    let n := s.saOfArgs set; let kw := if n.alg % 2 = 0 then 7 else 11; let x := s.sa i; s.writes m a ∧
    (s.cry.sets.getD set {}).busy = false ∧ s.ready 16 = true ∧ 0 < i ∧ n.proto ≠ 0 ∧ n.confOff ≠ 3 ∧ n.owner ≤ 2051 ∧
    (n.winLog2 = 0 ∨ 6 ≤ n.winLog2 ∧ n.winLog2 ≤ 10) ∧ (n.proto = 3 → n.alg < 2) ∧ s.keyWords set = List.range kw ∧
    bitOf s.fuses.features (if n.proto = 2 then 0 else if n.proto = 1 then 1 else 2) = true ∧
    s.saAllowed m set n.owner = true ∧ (s.saLive x = false ∨ x.owner = n.owner) ∧
    s.saInUse n.owner i < s.saShare n.owner) ∧
  (let s : State := W.up; s.released = true ∧ let set : Nat := 0; set < 5 ∧ let m : Master := .pf 0;
    (set = 4 → m.isFw = true) ∧ let i : Nat := 9; i < 4194304 ∧ let a := blockBase 12 + 0x5000 + 0x100 * set;
    let n := s.saOfArgs set; s.writes m a ∧ (s.cry.sets.getD set {}).busy = false ∧ s.ready 16 = true ∧ 0 < i ∧
    n.proto = 0) ∧
  (let s : State := W.cryptoIsManagedX; s.released = true ∧ let set : Nat := 0; set < 5 ∧ let m : Master := .pf 0;
    (set = 4 → m.isFw = true) ∧ let i : Nat := 10; i < 4194304 ∧ let a := blockBase 12 + 0x5000 + 0x100 * set;
    let x := s.sa i; s.writes m a ∧ (s.cry.sets.getD set {}).busy = false ∧ s.ready 16 = true ∧ 0 < i ∧ x.valid = true ∧
    s.saAllowed m set x.owner = false) ∧
  (let s : State := W.cryptoIsManagedN2; s.released = true ∧ let set : Nat := 0; set < 5 ∧ let m : Master := .pf 0;
    (set = 4 → m.isFw = true) ∧ let i : Nat := 9; i < 4194304 ∧ let a := blockBase 12 + 0x5000 + 0x100 * set;
    let x := s.sa i; s.writes m a ∧ (s.cry.sets.getD set {}).busy = false ∧ s.ready 16 = true ∧ 0 < i ∧ x.valid = true ∧
    s.saAllowed m set x.owner = true) ∧
  (let s : State := W.cryptoIsManagedX; s.released = true ∧ let set : Nat := 0; set < 5 ∧ let m : Master := .pf 0;
    (set = 4 → m.isFw = true) ∧ let i : Nat := 11; i < 4194304 ∧ let a := blockBase 12 + 0x5000 + 0x100 * set;
    let x := s.sa i; s.writes m a ∧ (s.cry.sets.getD set {}).busy = false ∧ s.ready 16 = true ∧ 0 < i ∧ x.valid = true ∧
    s.saAllowed m set x.owner = true ∧ x.proto = 3 ∧ x.decrypt = true ∧ x.tlsState = 2) ∧
  (let s : State := W.cryptoIsManagedN2; s.released = true ∧ let set : Nat := 0; set < 5 ∧ let m : Master := .pf 0;
    (set = 4 → m.isFw = true) ∧ let i : Nat := 9; i < 4194304 ∧ let a := blockBase 12 + 0x5000 + 0x100 * set;
    let x := s.sa i; s.writes m a ∧ (s.cry.sets.getD set {}).busy = false ∧ s.ready 16 = true ∧ 0 < i ∧ x.valid = true ∧
    s.saAllowed m set x.owner = true ∧ x.tlsState ≠ 2) ∧
  (let s : State := W.up; s.released = true ∧ let set : Nat := 0; set < 5 ∧ let m : Master := .pf 0;
    (set = 4 → m.isFw = true) ∧ let i : Nat := 9; i < 4194304 ∧ let a := blockBase 12 + 0x5000 + 0x100 * set;
    let x := s.sa i; s.writes m a ∧ (s.cry.sets.getD set {}).busy = false ∧ s.ready 16 = true ∧ 0 < i ∧
    x.valid = false) ∧
  (let s : State := W.transportCommandsNm; s.released = true ∧ let l : Nat := 0; l < 8 ∧ let a := blockBase 12 + 0x1100;
    let x := s.lane l; let m : Master := .fw 0 1; s.writes m a ∧ m.isFw = true ∧ s.cry.laneCmd.busy = false ∧
    x.state = .inService ∧ 1 < (s.inLanes x.decrypt).length) ∧
  (let s : State := W.cryptoIsManagedLn; s.released = true ∧ let l : Nat := 3; l < 8 ∧ let a := blockBase 12 + 0x1100;
    let x := s.lane l; let m : Master := .fw 0 1; s.writes m a ∧ m.isFw = true ∧ s.cry.laneCmd.busy = false ∧
    x.state = .inService ∧ (s.inLanes x.decrypt).length ≤ 1) ∧
  (let s : State := W.cryptoIsManagedLn; s.released = true ∧ let l : Nat := 0; l < 8 ∧ let a := blockBase 12 + 0x1100;
    let x := s.lane l; let m : Master := .fw 0 1; s.writes m a ∧ m.isFw = true ∧ s.cry.laneCmd.busy = false ∧
    x.state ≠ .inService) ∧
  (let s : State := W.cryptoIsManagedLn; s.released = true ∧ let l : Nat := 1; l < 8 ∧ let a := blockBase 12 + 0x1100;
    let x := s.lane l; let m : Master := .fw 0 1; s.writes m a ∧ m.isFw = true ∧ s.cry.laneCmd.busy = false ∧
    (x.state = .out ∨ x.state = .failed)) ∧
  (let s : State := W.transportCommandsNm; s.released = true ∧ let l : Nat := 0; l < 8 ∧ let a := blockBase 12 + 0x1100;
    let x := s.lane l; let m : Master := .fw 0 1; s.writes m a ∧ m.isFw = true ∧ s.cry.laneCmd.busy = false ∧
    x.state ≠ .out ∧ x.state ≠ .failed) ∧
  (let s : State := W.cryptoIsManagedLn; s.released = true ∧ let l : Nat := 1; l < 8 ∧ let a := blockBase 12 + 0x1100;
    let x := s.lane l; let m : Master := .fw 0 1; s.writes m a ∧ m.isFw = true ∧ s.cry.laneCmd.busy = false ∧
    x.state = .out) ∧
  (let s : State := W.transportCommandsNm; s.released = true ∧ let l : Nat := 0; l < 8 ∧ let a := blockBase 12 + 0x1100;
    let x := s.lane l; let m : Master := .fw 0 1; s.writes m a ∧ m.isFw = true ∧ s.cry.laneCmd.busy = false ∧
    x.state ≠ .out) ∧
  (let s : State := W.cryptoIsManagedLn; s.released = true ∧ let l : Nat := 0; l < 8 ∧ let x := s.lane l;
    s.ready 12 = true ∧ x.state = .draining ∧ s.missHeld l = []) ∧
  (let s : State := W.transportCommandsNm; s.released = true ∧ let l : Nat := 0; l < 8 ∧ let x := s.lane l;
    s.ready 12 = true ∧ (x.state ≠ .draining ∨ s.missHeld l ≠ [])) ∧
  (let s : State := W.cryptoIsManagedLn; s.released = true ∧ let l : Nat := 2; l < 8 ∧ let x := s.lane l;
    s.ready 12 = true ∧ x.state = .testing) ∧
  (let s : State := W.transportCommandsNm; s.released = true ∧ let l : Nat := 0; l < 8 ∧ let x := s.lane l;
    s.ready 12 = true ∧ x.state ≠ .testing) := by
  refine ⟨?_, ?_, ?_, ?_, ?_, ?_, ?_, ?_, ?_, ?_, ?_, ?_, ?_, ?_, ?_, ?_, ?_, ?_, ?_, ?_, ?_, ?_, ?_⟩
  all_goals (try unfold State.writes)
  all_goals (try unfold State.reaches)
  all_goals decide +kernel

def W.leaseIsHeldLate : State := { W.up with ksc := { W.up.ksc with leaseEnd := 3000000 } }
def W.leaseIsHeldSy : State := { W.up with ksc := { W.up.ksc with cplx := [{ state := .active }, { state := .sync }] } }
def W.leaseIsHeldSyr : State :=
  ({ W.up with ksc := { W.up.ksc with cplx := [{ state := .active }, { state := .sync }] } }).setWord Reg.kscReturnCtl [] 1
def W.leaseIsHeldNh : State :=
  { W.up with ksc := { W.up.ksc with held := false, j := 2^32 + 5, cplx := [{ state := .off }, { state := .sync }] } }
def W.leaseIsHeldTk : State :=
  { W.up with ksc := { W.up.ksc with takeover := true, takeoverAt := some 1000000, held := false } }
def W.leaseIsHeldTk1 : State :=
  { W.up with ksc := { W.up.ksc with takeover := true, takeoverAt := some 1000001, held := false } }
def W.leaseIsHeldHo : State := { W.up with ksc := { W.up.ksc with handover := true, handoverReq := some (1, 1000000) } }
def W.leaseIsHeldHo1 : State :=
  { W.up with ksc := { W.up.ksc with handover := true, handoverReq := some (1, 1000001) } }

/-- Premises of LeaseIsHeld, clause by clause. -/
theorem premises_LeaseIsHeld :
  (let s : State := W.up; s.released = true ∧ s.ksc.cplx.length = 2 ∧ s.ksc.active < 2 ∧ let k := s.ksc;
    let e : Nat := 1; e < 65536 ∧ let x : Nat := 0; let ep : Nat := 1; s.reaches (.fw x ep) (blockBase 18 + 8) ∧
    e = k.epoch ∧ s.now ≤ k.leaseEnd) ∧
  (let s : State := W.up; s.released = true ∧ s.ksc.cplx.length = 2 ∧ s.ksc.active < 2 ∧ let k := s.ksc;
    let e : Nat := 0; e < 65536 ∧ let x : Nat := 0; let ep : Nat := 1; s.reaches (.fw x ep) (blockBase 18 + 8) ∧
    (e ≠ k.epoch ∨ k.leaseEnd < s.now)) ∧
  (let s : State := W.up; s.released = true ∧ s.ksc.cplx.length = 2 ∧ s.ksc.active < 2 ∧ let e : Nat := 0; e < 65536 ∧
    let ep : Nat := 0; s.freshEpoch ep = false) ∧
  (let s : State := W.up; s.released = true ∧ s.ksc.cplx.length = 2 ∧ s.ksc.active < 2 ∧ let k := s.ksc;
    let e : Nat := 1; e < 65536 ∧ let x : Nat := 0; let ep : Nat := 1; s.reaches (.fw x ep) (blockBase 18 + 0xC) ∧
    e = k.epoch) ∧
  (let s : State := W.up; s.released = true ∧ s.ksc.cplx.length = 2 ∧ s.ksc.active < 2 ∧ let k := s.ksc;
    let e : Nat := 0; e < 65536 ∧ let x : Nat := 0; let ep : Nat := 1; s.reaches (.fw x ep) (blockBase 18 + 0xC) ∧
    e ≠ k.epoch) ∧
  (let s : State := W.leaseIsHeldLate; s.released = true ∧ s.ksc.cplx.length = 2 ∧ s.ksc.active < 2 ∧ let k := s.ksc;
    k.held = true ∧ k.leaseEnd ≤ s.now) ∧
  (let s : State := W.up; s.released = true ∧ s.ksc.cplx.length = 2 ∧ s.ksc.active < 2 ∧ let k := s.ksc;
    (k.held = false ∨ s.now < k.leaseEnd)) ∧
  (let s : State := W.up; s.released = true ∧ s.ksc.cplx.length = 2 ∧ s.ksc.active < 2 ∧ let k := s.ksc;
    let x : Nat := 0; x < 2 ∧ s.complexRuns x = true ∧ k.held = true ∧ x = k.active) ∧
  (let s : State := W.leaseIsHeldSy; s.released = true ∧ s.ksc.cplx.length = 2 ∧ s.ksc.active < 2 ∧ let k := s.ksc;
    let x : Nat := 1; x < 2 ∧ s.complexRuns x = true ∧ k.held = true ∧ x ≠ k.active) ∧
  (let s : State := W.up; s.released = true ∧ s.ksc.cplx.length = 2 ∧ s.ksc.active < 2 ∧ let x : Nat := 1; x < 2 ∧
    s.complexRuns x = false) ∧
  (let s : State := W.up; s.released = true ∧ s.ksc.cplx.length = 2 ∧ s.ksc.active < 2 ∧ let x : Nat := 0; x < 2 ∧
    let j : Nat := 0; j < 2 ^ 32 ∧ (s.cplx x).state ≠ .sync) ∧
  (let s : State := W.leaseIsHeldSy; s.released = true ∧ s.ksc.cplx.length = 2 ∧ s.ksc.active < 2 ∧ let k := s.ksc;
    let x : Nat := 1; x < 2 ∧ let j : Nat := 0; j < 2 ^ 32 ∧ (s.cplx x).state = .sync ∧ k.held = true ∧
    s.bit Reg.kscReturnCtl [] 0 = false) ∧
  (let s : State := W.leaseIsHeldSyr; s.released = true ∧ s.ksc.cplx.length = 2 ∧ s.ksc.active < 2 ∧ let k := s.ksc;
    let x : Nat := 1; x < 2 ∧ let j : Nat := 0; j < 2 ^ 32 ∧ (s.cplx x).state = .sync ∧ k.held = true ∧
    s.bit Reg.kscReturnCtl [] 0 = true) ∧
  (let s : State := W.leaseIsHeldNh; s.released = true ∧ s.ksc.cplx.length = 2 ∧ s.ksc.active < 2 ∧ let k := s.ksc;
    let x : Nat := 1; x < 2 ∧ let j : Nat := 0; j < 2 ^ 32 ∧ (s.cplx x).state = .sync ∧ k.held = false ∧
    (k.dead = true ∨ j ≠ k.j % 2 ^ 32)) ∧
  (let s : State := W.leaseIsHeldNh; s.released = true ∧ s.ksc.cplx.length = 2 ∧ s.ksc.active < 2 ∧ let k := s.ksc;
    let x : Nat := 1; x < 2 ∧ let j : Nat := 5; j < 2 ^ 32 ∧ (s.cplx x).state = .sync ∧ k.held = false ∧
    k.dead = false ∧ j = k.j % 2 ^ 32) ∧
  (let s : State := W.leaseIsHeldTk; s.released = true ∧ s.ksc.cplx.length = 2 ∧ s.ksc.active < 2 ∧ let k := s.ksc;
    ∃ t ∈ k.takeoverAt, k.takeover = true ∧ t + 2000000 ≤ s.now) ∧
  (let s : State := W.leaseIsHeldTk1; s.released = true ∧ s.ksc.cplx.length = 2 ∧ s.ksc.active < 2 ∧ let k := s.ksc;
    ∃ t ∈ k.takeoverAt, (k.takeover = false ∨ s.now < t + 2000000)) ∧
  (let s : State := W.leaseIsHeldHo; s.released = true ∧ s.ksc.cplx.length = 2 ∧ s.ksc.active < 2 ∧ let k := s.ksc;
    ∃ w0 ∈ k.handoverReq, let t := w0.2; k.held = true ∧ t + 2000000 ≤ s.now) ∧
  (let s : State := W.leaseIsHeldHo1; s.released = true ∧ s.ksc.cplx.length = 2 ∧ s.ksc.active < 2 ∧ let k := s.ksc;
    ∃ w0 ∈ k.handoverReq, let t := w0.2; (k.held = false ∨ s.now < t + 2000000)) := by
  refine ⟨?_, ?_, ?_, ?_, ?_, ?_, ?_, ?_, ?_, ?_, ?_, ?_, ?_, ?_, ?_, ?_, ?_, ?_, ?_⟩
  all_goals (try unfold State.reaches)
  all_goals decide +kernel

def W.img : State :=
  { W.up with ksc := { W.up.ksc with cplx := [{ state := .active }, { state := .starting, loadSlot := 1 }], hbm := (memWriteBytes [] 0x81000000 (toLe 4 0x56484452 ++ toLe 4 1 ++ toLe 4 0 ++ toLe 4 0 ++ toLe 4 4096 ++ toLe 4 0)) } }
def W.complexesAreManagedUp : State := { W.up with ksc := { W.up.ksc with j := 9, ckptJpos := 5 } }
def W.complexesAreManagedNb : State := { W.up with bring := { W.up.bring with btlState := 1 } }
def W.complexesAreManagedStt : State :=
  { W.up with ksc := { W.up.ksc with cplx := [{ state := .active }, { state := .starting, loadSlot := 1 }] } }
def W.complexesAreManagedSttf : State :=
  { W.up with ksc := { W.up.ksc with cplx := [{ state := .failed }, { state := .starting, forTakeover := true }], held := false, takeover := true } }
def W.complexesAreManagedTs : State :=
  { W.up with ksc := { W.up.ksc with cplx := [{ state := .active }, { state := .testing }] } }

/-- Premises of ComplexesAreManaged, clause by clause. -/
theorem premises_ComplexesAreManaged :
  (let s : State := W.complexesAreManagedUp; s.released = true ∧ s.ksc.cplx.length = 2 ∧ let k := s.ksc;
    let slot : Nat := 0; slot < 2 ∧ let j : Nat := 5; j < 2 ^ 48 ∧ let m : Master := .fw 0 1;
    s.reaches m (blockBase 18 + 0x28) ∧ m.isFw = true ∧ j ≤ k.j ∧ k.ckptJpos ≤ j) ∧
  (let s : State := W.complexesAreManagedUp; s.released = true ∧ s.ksc.cplx.length = 2 ∧ let k := s.ksc;
    let slot : Nat := 0; slot < 2 ∧ let j : Nat := 0; j < 2 ^ 48 ∧ let m : Master := .pf 0;
    s.reaches m (blockBase 18 + 0x28) ∧ (m.isFw = false ∨ k.j < j ∨ j < k.ckptJpos)) ∧
  (let s : State := W.complexesAreManagedUp; s.released = true ∧ s.ksc.cplx.length = 2 ∧ let k := s.ksc;
    s.bring.btlState = 4 ∧ k.ckptFrom + 1100000 ≤ s.now) ∧
  (let s : State := W.complexesAreManagedNb; s.released = true ∧ s.ksc.cplx.length = 2 ∧ let k := s.ksc;
    (s.bring.btlState ≠ 4 ∨ s.now < k.ckptFrom + 1100000)) ∧
  (let s : State := W.complexesAreManagedUp; s.released = true ∧ s.ksc.cplx.length = 2 ∧ let k := s.ksc;
    let x : Nat := 0; x < 2 ∧ let slot : Nat := 0; slot < 2 ∧ let m : Master := .fw 0 1;
    s.reaches m (blockBase 18 + 0x18) ∧ m.isFw = true ∧ k.cmd.busy = false ∧ k.held = true ∧ x = k.active) ∧
  (let s : State := W.complexesAreManagedUp; s.released = true ∧ s.ksc.cplx.length = 2 ∧ let k := s.ksc;
    let x : Nat := 1; x < 2 ∧ let slot : Nat := 0; slot < 2 ∧ let m : Master := .fw 0 1;
    s.reaches m (blockBase 18 + 0x18) ∧ m.isFw = true ∧ k.cmd.busy = false ∧ let c := s.cplx x;
    (k.held = false ∨ x ≠ k.active) ∧ (c.state = .off ∨ c.state = .failed)) ∧
  (let s : State := W.leaseIsHeldSy; s.released = true ∧ s.ksc.cplx.length = 2 ∧ let k := s.ksc; let x : Nat := 1;
    x < 2 ∧ let slot : Nat := 0; slot < 2 ∧ let m : Master := .fw 0 1; s.reaches m (blockBase 18 + 0x18) ∧
    m.isFw = true ∧ k.cmd.busy = false ∧ let c := s.cplx x; (k.held = false ∨ x ≠ k.active) ∧ c.state = .sync) ∧
  (let s : State := W.leaseIsHeldSy; s.released = true ∧ s.ksc.cplx.length = 2 ∧ let k := s.ksc; let x : Nat := 1;
    x < 2 ∧ let slot : Nat := 0; slot < 2 ∧ let m : Master := .fw 0 1; s.reaches m (blockBase 18 + 0x18) ∧
    m.isFw = true ∧ k.cmd.busy = false ∧ let c := s.cplx x; (k.held = false ∨ x ≠ k.active) ∧
    (c.state = .sync ∨ c.state = .starting ∨ c.state = .testing)) ∧
  (let s : State := W.img; s.released = true ∧ s.ksc.cplx.length = 2 ∧ let x : Nat := 1; x < 2 ∧ let c := s.cplx x;
    c.state = .starting ∧ let i := c.loadSlot; s.imageOk i true = true) ∧
  (let s : State := W.complexesAreManagedStt; s.released = true ∧ s.ksc.cplx.length = 2 ∧ let x : Nat := 1; x < 2 ∧
    let c := s.cplx x; c.state = .starting ∧ c.forTakeover = false) ∧
  (let s : State := W.complexesAreManagedSttf; s.released = true ∧ s.ksc.cplx.length = 2 ∧ let x : Nat := 1; x < 2 ∧
    let c := s.cplx x; c.state = .starting ∧ c.forTakeover = true) ∧
  (let s : State := W.complexesAreManagedUp; s.released = true ∧ s.ksc.cplx.length = 2 ∧ let x : Nat := 0; x < 2 ∧
    let c := s.cplx x; c.state ≠ .starting) ∧
  (let s : State := W.complexesAreManagedTs; s.released = true ∧ s.ksc.cplx.length = 2 ∧ let x : Nat := 1; x < 2 ∧
    let c := s.cplx x; c.state = .testing) ∧
  (let s : State := W.complexesAreManagedUp; s.released = true ∧ s.ksc.cplx.length = 2 ∧ let x : Nat := 0; x < 2 ∧
    let c := s.cplx x; c.state ≠ .testing) := by
  refine ⟨?_, ?_, ?_, ?_, ?_, ?_, ?_, ?_, ?_, ?_, ?_, ?_, ?_, ?_⟩
  all_goals (try unfold State.reaches)
  all_goals decide +kernel

def W.masonsHoldPacketsF : State :=
  { { W.up with xpe := { W.up.xpe with clusters := [{ state := .inService, slots := (List.range 128).map (fun k => (k, { st := .waiting })) }, { state := .inService }, {}, {}] } } with packets := [(1, { stage := .queued, eg := .act .exc, bytes := List.replicate 100 3, mark := { entAct := .lrx, inst := 0, gen := 3, len := 100, ts := 3000000, flags := { exception := true }, reason := 5, hash := 0 }, egCells := 1, ingCells := 1 })], nextPkt := 100 }
def W.masonsHoldPacketsD : State :=
  { W.up with packets := [(1, { stage := .queued, eg := .act .exc, bytes := List.replicate 100 3, mark := { entAct := .lrx, inst := 0, gen := 3, len := 100, ts := 3000000, flags := { exception := true }, reason := 5, hash := 0 }, egCells := 1, ingCells := 1 })], nextPkt := 100 }
def W.masonsHoldPacketsQ : State :=
  { W.up with xpe := { W.up.xpe with clusters := [{ state := .inService, slots := [(3, { st := .waiting, mark := {} }), (4, { st := .popped }), (5, { st := .fresh, isFree := true }), (6, { st := .popped, since := 5 })], xq := [3] }, { state := .inService }, {}, {}] } }
def W.masonsHoldPacketsFu : State :=
  { W.up with xpe := { W.up.xpe with clusters := [{ state := .inService, slots := [(4, { st := .popped })], ret := List.replicate 64 { slot := 9, action := 1, course := 0, courseSel := false, len := 60 } }, { state := .inService }, {}, {}] } }
def W.masonsHoldPacketsRs : State :=
  { W.up with xpe := { W.up.xpe with clusters := [{ state := .inService, slots := [(4, { st := .returned, stale := true, inst := 0 })], ret := [{ slot := 4, action := 0, course := 0, courseSel := false, len := 60 }] }, { state := .inService }, {}, {}] } }
def W.masonsHoldPacketsRe : State :=
  { W.up with xpe := { W.up.xpe with clusters := [{ state := .inService, slots := [(4, { st := .returned, mark := { epoch := 3 } })], ret := [{ slot := 4, action := 0, course := 0, courseSel := false, len := 60 }] }, { state := .inService }, {}, {}] } }
def W.masonsHoldPacketsR0 : State :=
  { W.up with xpe := { W.up.xpe with clusters := [{ state := .inService, slots := [(4, { st := .returned })], ret := [{ slot := 4, action := 0, course := 0, courseSel := false, len := 60 }] }, { state := .inService }, {}, {}] } }
def W.masonsHoldPacketsRn : State :=
  { W.up with xpe := { W.up.xpe with clusters := [{ state := .inService, slots := [(5, { st := .returned, isFree := true })], ret := [{ slot := 5, action := 2, course := 0, courseSel := false, len := 60 }] }, { state := .inService }, {}, {}] } }
def W.masonsHoldPacketsRnb : State :=
  { W.up with xpe := { W.up.xpe with clusters := [{ state := .inService, slots := [(5, { st := .returned, isFree := true })], ret := [{ slot := 5, action := 2, course := 0, courseSel := false, len := 60 }] }, { state := .inService }, {}, {}] }, rules := { W.up.rules with slots := List.replicate 32 { inUse := 9999 } } }
def W.masonsHoldPacketsMf : State :=
  { W.up with xpe := { W.up.xpe with clusters := [{ state := .inService, slots := [(5, { st := .returned, isFree := true })], ret := [{ slot := 5, action := 0, course := 0, courseSel := false, len := 60 }] }, { state := .inService }, {}, {}] } }

/-- Premises of MasonsHoldPackets, clause by clause. -/
theorem premises_MasonsHoldPackets :
  (let c : Nat := 0; c < 4 ∧ let s : State := W.masonsHoldPacketsF; s.released = true ∧ s.xpe.clusters.length = 4 ∧
    s.inReset 17 = false ∧ let cl := s.cluster c; ∃ w0 ∈ s.oldestAt .exc, let x := w0.2; x.prov = false ∧
    s.ready 14 = true ∧ s.ready 17 = true ∧ x.item = none ∧ s.masonOf x.mark.hash = some c ∧
    s.genOk x.mark.inst x.mark.gen = true ∧ markAge s.now x.mark.ts < 2 ^ 31 ∧ cl.freeSlots = []) ∧
  (let c : Nat := 0; c < 4 ∧ let s : State := W.masonsHoldPacketsD; s.released = true ∧ s.xpe.clusters.length = 4 ∧
    s.inReset 17 = false ∧ let cl := s.cluster c; ∃ w0 ∈ s.oldestAt .exc, let x := w0.2; x.prov = false ∧
    s.ready 14 = true ∧ s.ready 17 = true ∧ x.item = none ∧ s.masonOf x.mark.hash = some c ∧
    s.genOk x.mark.inst x.mark.gen = true ∧ markAge s.now x.mark.ts < 2 ^ 31 ∧ cl.freeSlots ≠ []) ∧
  (let c : Nat := 0; c < 4 ∧ let s : State := W.masonsHoldPacketsD; s.released = true ∧ s.xpe.clusters.length = 4 ∧
    s.inReset 17 = false ∧ let cl := s.cluster c; s.coresUp c = true ∧ cl.xq = []) ∧
  (let c : Nat := 0; c < 4 ∧ let s : State := W.masonsHoldPacketsQ; s.released = true ∧ s.xpe.clusters.length = 4 ∧
    s.inReset 17 = false ∧ let cl := s.cluster c; s.coresUp c = true ∧ ∃ k ∈ cl.xq.head?, let q := cl.xq.tail;
    cl.xq = k :: q) ∧
  (let c : Nat := 0; c < 4 ∧ let s : State := W.masonsHoldPacketsF; s.released = true ∧ s.xpe.clusters.length = 4 ∧
    s.inReset 17 = false ∧ let cl := s.cluster c; s.coresUp c = true ∧ cl.freeSlots = []) ∧
  (let c : Nat := 0; c < 4 ∧ let s : State := W.masonsHoldPacketsD; s.released = true ∧ s.xpe.clusters.length = 4 ∧
    s.inReset 17 = false ∧ let cl := s.cluster c; s.coresUp c = true ∧ cl.freeSlots ≠ []) ∧
  (let c : Nat := 0; c < 4 ∧ let s : State := W.masonsHoldPacketsQ; s.released = true ∧ s.xpe.clusters.length = 4 ∧
    s.inReset 17 = false ∧ let cl := s.cluster c; s.coresUp c = true ∧ let w : Nat := 4; w < 2 ^ 32 ∧
    let e := retEntryOf w; let v := cl.slot e.slot; (v.st = .popped ∨ v.st = .fresh) ∧ cl.ret.length < 64 ∧
    cl.stalled = []) ∧
  (let c : Nat := 0; c < 4 ∧ let s : State := W.masonsHoldPacketsFu; s.released = true ∧ s.xpe.clusters.length = 4 ∧
    s.inReset 17 = false ∧ let cl := s.cluster c; s.coresUp c = true ∧ let w : Nat := 4; w < 2 ^ 32 ∧
    let e := retEntryOf w; let v := cl.slot e.slot; (v.st = .popped ∨ v.st = .fresh) ∧ 64 ≤ cl.ret.length) ∧
  (let c : Nat := 0; c < 4 ∧ let s : State := W.masonsHoldPacketsD; s.released = true ∧ s.xpe.clusters.length = 4 ∧
    s.inReset 17 = false ∧ let cl := s.cluster c; s.coresUp c = true ∧ let w : Nat := 3; w < 2 ^ 32 ∧
    let e := retEntryOf w; let v := cl.slot e.slot; v.st ≠ .popped ∧ v.st ≠ .fresh) ∧
  (let c : Nat := 0; c < 4 ∧ let s : State := W.masonsHoldPacketsRs; s.released = true ∧ s.xpe.clusters.length = 4 ∧
    s.inReset 17 = false ∧ let cl := s.cluster c; ∃ e ∈ cl.ret.head?, let q := cl.ret.tail; cl.ret = e :: q ∧
    let v := cl.slot e.slot; let given := cl.slotMark e.slot; let lenOk := 14 ≤ e.len ∧ e.len ≤ 10240; e.action = 0 ∧
    v.isFree = false ∧ lenOk ∧ v.stale = true ∧ given.inst = v.inst) ∧
  (let c : Nat := 0; c < 4 ∧ let s : State := W.masonsHoldPacketsRe; s.released = true ∧ s.xpe.clusters.length = 4 ∧
    s.inReset 17 = false ∧ let cl := s.cluster c; ∃ e ∈ cl.ret.head?, let q := cl.ret.tail; cl.ret = e :: q ∧
    let v := cl.slot e.slot; let given := cl.slotMark e.slot; let back := s.returnMark v.mark given e;
    let lenOk := 14 ≤ e.len ∧ e.len ≤ 10240; e.action = 0 ∧ v.isFree = false ∧ lenOk ∧ v.stale = false ∧
    back.epoch ≠ s.rules.epoch) ∧
  (let c : Nat := 0; c < 4 ∧ let s : State := W.masonsHoldPacketsR0; s.released = true ∧ s.xpe.clusters.length = 4 ∧
    s.inReset 17 = false ∧ let cl := s.cluster c; ∃ e ∈ cl.ret.head?, let q := cl.ret.tail; cl.ret = e :: q ∧
    let v := cl.slot e.slot; let given := cl.slotMark e.slot; let frame := cl.slotFrame e.slot e.len;
    let back := s.returnMark v.mark given e; let lenOk := 14 ≤ e.len ∧ e.len ≤ 10240; e.action = 0 ∧ v.isFree = false ∧
    lenOk ∧ v.stale = false ∧ back.epoch = s.rules.epoch ∧
    let r := s.begun.newPkt { mark := back, bytes := frame, stage := .waitSlot, fresh := false, since := s.now };
    let t := r.2.createMark r.1; ∃ y ∈ t.pkt r.1, y.stage = .atParser) ∧
  (let c : Nat := 0; c < 4 ∧ let s : State := W.masonsHoldPacketsRn; s.released = true ∧ s.xpe.clusters.length = 4 ∧
    s.inReset 17 = false ∧ let cl := s.cluster c; ∃ e ∈ cl.ret.head?, let q := cl.ret.tail; cl.ret = e :: q ∧
    let v := cl.slot e.slot; let given := cl.slotMark e.slot; let frame := cl.slotFrame e.slot e.len;
    let new := s.newMark given e; let lenOk := 14 ≤ e.len ∧ e.len ≤ 10240; e.action = 2 ∧ v.isFree = true ∧ lenOk ∧
    let r := s.begun.newPkt { mark := new, bytes := frame, stage := .waitSlot, fresh := true, since := s.now };
    let t := r.2.createMark r.1; ∃ y ∈ t.pkt r.1, y.stage = .atParser) ∧
  (let c : Nat := 0; c < 4 ∧ let s : State := W.masonsHoldPacketsRnb; s.released = true ∧ s.xpe.clusters.length = 4 ∧
    s.inReset 17 = false ∧ let cl := s.cluster c; ∃ e ∈ cl.ret.head?, let q := cl.ret.tail; cl.ret = e :: q ∧
    let v := cl.slot e.slot; let given := cl.slotMark e.slot; let frame := cl.slotFrame e.slot e.len;
    let new := s.newMark given e; let lenOk := 14 ≤ e.len ∧ e.len ≤ 10240; e.action = 2 ∧ v.isFree = true ∧ lenOk ∧
    let r := s.begun.newPkt { mark := new, bytes := frame, stage := .waitSlot, fresh := true, since := s.now };
    let t := r.2.createMark r.1; ∃ y ∈ t.pkt r.1, y.stage ≠ .atParser) ∧
  (let c : Nat := 0; c < 4 ∧ let s : State := W.masonsHoldPacketsFu; s.released = true ∧ s.xpe.clusters.length = 4 ∧
    s.inReset 17 = false ∧ let cl := s.cluster c; ∃ e ∈ cl.ret.head?, let q := cl.ret.tail; cl.ret = e :: q ∧
    let lenOk := 14 ≤ e.len ∧ e.len ≤ 10240; (e.action = 1 ∨ ¬lenOk)) ∧
  (let c : Nat := 0; c < 4 ∧ let s : State := W.masonsHoldPacketsMf; s.released = true ∧ s.xpe.clusters.length = 4 ∧
    s.inReset 17 = false ∧ let cl := s.cluster c; ∃ e ∈ cl.ret.head?, let q := cl.ret.tail; cl.ret = e :: q ∧
    let v := cl.slot e.slot; let lenOk := 14 ≤ e.len ∧ e.len ≤ 10240; e.action = 0 ∧ v.isFree = true ∧ lenOk) := by
  refine ⟨?_, ?_, ?_, ?_, ?_, ?_, ?_, ?_, ?_, ?_, ?_, ?_, ?_, ?_, ?_, ?_⟩
  all_goals decide +kernel

def W.clustersAreManagedOne : State :=
  { W.up with xpe := { W.up.xpe with clusters := [{ state := .inService }, {}, { state := .failed }, { state := .testing, mem := [(5, 3), (0x200000, 4)] }] } }
def W.clustersAreManagedDr : State :=
  { W.up with xpe := { W.up.xpe with clusters := [{ state := .draining }, { state := .inService }, {}, {}] } }
def W.clustersAreManagedDrb : State :=
  { W.up with xpe := { W.up.xpe with clusters := [{ state := .draining, slots := [(1, { st := .popped, since := 0 })] }, { state := .inService }, {}, {}] } }
def W.clustersAreManagedHo : State :=
  ({ W.up with xpe := { W.up.xpe with clusters := [{ state := .inService, slots := [(1, { st := .popped, since := 0 }), (2, { st := .fresh, since := 2999999 })] }, { state := .inService }, {}, {}] } }).setWord Reg.xpeClusterCfg [0] 100

/-- Premises of ClustersAreManaged, clause by clause. -/
theorem premises_ClustersAreManaged :
  (let c : Nat := 0; c < 4 ∧ let s : State := W.up; s.released = true ∧ let a := blockBase 17 + 0x1000;
    let cl := s.cluster c; let m : Master := .fw 0 1; s.writes m a ∧ m.isFw = true ∧ s.xpe.cmd.busy = false ∧
    cl.state = .inService ∧ 1 < s.inClusters.length) ∧
  (let c : Nat := 0; c < 4 ∧ let s : State := W.clustersAreManagedOne; s.released = true ∧
    let a := blockBase 17 + 0x1000; let cl := s.cluster c; let m : Master := .fw 0 1; s.writes m a ∧ m.isFw = true ∧
    s.xpe.cmd.busy = false ∧ cl.state = .inService ∧ s.inClusters.length ≤ 1) ∧
  (let c : Nat := 0; c < 4 ∧ let s : State := W.clustersAreManagedDr; s.released = true ∧
    let a := blockBase 17 + 0x1000; let cl := s.cluster c; let m : Master := .fw 0 1; s.writes m a ∧ m.isFw = true ∧
    s.xpe.cmd.busy = false ∧ cl.state ≠ .inService) ∧
  (let c : Nat := 1; c < 4 ∧ let s : State := W.clustersAreManagedOne; s.released = true ∧
    let a := blockBase 17 + 0x1000; let cl := s.cluster c; let m : Master := .fw 0 1; s.writes m a ∧ m.isFw = true ∧
    s.xpe.cmd.busy = false ∧ (cl.state = .out ∨ cl.state = .failed)) ∧
  (let c : Nat := 0; c < 4 ∧ let s : State := W.up; s.released = true ∧ let a := blockBase 17 + 0x1000;
    let cl := s.cluster c; let m : Master := .fw 0 1; s.writes m a ∧ m.isFw = true ∧ s.xpe.cmd.busy = false ∧
    cl.state ≠ .out ∧ cl.state ≠ .failed) ∧
  (let c : Nat := 1; c < 4 ∧ let s : State := W.clustersAreManagedOne; s.released = true ∧
    let a := blockBase 17 + 0x1000; let cl := s.cluster c; let m : Master := .fw 0 1; s.writes m a ∧ m.isFw = true ∧
    s.xpe.cmd.busy = false ∧ cl.state = .out ∧ s.xpe.clusters.length = 4) ∧
  (let c : Nat := 0; c < 4 ∧ let s : State := W.up; s.released = true ∧ let a := blockBase 17 + 0x1000;
    let cl := s.cluster c; let m : Master := .fw 0 1; s.writes m a ∧ m.isFw = true ∧ s.xpe.cmd.busy = false ∧
    cl.state ≠ .out) ∧
  (let c : Nat := 0; c < 4 ∧ let s : State := W.clustersAreManagedDr; s.released = true ∧ let cl := s.cluster c;
    cl.state = .draining ∧ cl.slots = [] ∧ cl.ret = [] ∧ cl.stalled = []) ∧
  (let c : Nat := 0; c < 4 ∧ let s : State := W.up; s.released = true ∧ let cl := s.cluster c;
    (cl.state ≠ .draining ∨ cl.slots ≠ [] ∨ cl.ret ≠ [])) ∧
  (let c : Nat := 3; c < 4 ∧ let s : State := W.clustersAreManagedOne; s.released = true ∧ let cl := s.cluster c;
    cl.state = .testing ∧ s.xpe.clusters.length = 4) ∧
  (let c : Nat := 0; c < 4 ∧ let s : State := W.up; s.released = true ∧ let cl := s.cluster c; cl.state ≠ .testing) ∧
  (let c : Nat := 0; c < 4 ∧ let s : State := W.clustersAreManagedDrb; s.released = true ∧ let cl := s.cluster c;
    let k : Nat := 1; let v := cl.slot k; let us := s.fld Reg.xpeClusterCfg [c] 0 16; (v.st = .popped ∨ v.st = .fresh) ∧
    v.raised = false ∧ us ≠ 0 ∧ v.since + 1000 * us < s.now) ∧
  (let c : Nat := 0; c < 4 ∧ let s : State := W.clustersAreManagedHo; s.released = true ∧ let cl := s.cluster c;
    let k : Nat := 2; let v := cl.slot k; let us := s.fld Reg.xpeClusterCfg [c] 0 16;
    (v.raised = true ∨ us = 0 ∨ s.now ≤ v.since + 1000 * us)) := by
  refine ⟨?_, ?_, ?_, ?_, ?_, ?_, ?_, ?_, ?_, ?_, ?_, ?_, ?_⟩
  all_goals (try unfold State.writes)
  all_goals (try unfold State.reaches)
  all_goals decide +kernel

def W.quoinLinksNegotiateTr : State :=
  { W.up with csc := { W.up.csc with ports := [{ state := .training }, {}, {}, {}] } }
def W.quoinLinksNegotiateTrl : State :=
  { W.up with csc := { W.up.csc with ports := [{ state := .training }, {}, {}, {}] }, glb := { W.up.glb with lock := 0x1FFFFF } }
def W.quoinLinksNegotiateNg : State :=
  { W.up with csc := { W.up.csc with ports := [{ state := .negotiate }, {}, {}, {}] } }
def W.quoinLinksNegotiateNgh : State :=
  { W.up with csc := { W.up.csc with ports := [{ state := .negotiate, heard := true }, {}, {}, {}] } }
def W.quoinLinksNegotiateNgs : State :=
  { W.up with csc := { W.up.csc with ports := [{ state := .negotiate, heard := true, gotSeen := true, sentSeen := true, helloFrom := (2,1,3) }, {}, {}, {}] } }
def W.quoinLinksNegotiateU : State :=
  { W.up with csc := { W.up.csc with ports := [{ state := .up, peerId := 2, linkVer := 3 }, {}, {}, {}] } }

/-- Premises of QuoinLinksNegotiate, clause by clause. -/
theorem premises_QuoinLinksNegotiate :
  (let p : Nat := 0; p < 4 ∧ let s : State := W.up; s.released = true ∧ s.ready 20 = true ∧ s.csc.ports.length = 4 ∧
    let x := s.quoin p; let a := Reg.cscPortCfg.addr [p]; let d : Nat := 1; d < 2 ^ 32 ∧ let m : Master := .pf 0;
    s.writes m a ∧ s.feature 6 = true ∧ bitOf d 0 = true ∧ x.state = .disabled) ∧
  (let p : Nat := 0; p < 4 ∧ let s : State := W.quoinLinksNegotiateTr; s.released = true ∧ s.ready 20 = true ∧
    s.csc.ports.length = 4 ∧ let x := s.quoin p; let a := Reg.cscPortCfg.addr [p]; let d : Nat := 1; d < 2 ^ 32 ∧
    let m : Master := .pf 0; s.writes m a ∧ s.feature 6 = true ∧ bitOf d 0 = true ∧ x.state ≠ .disabled) ∧
  (let p : Nat := 0; p < 4 ∧ let s : State := W.quoinLinksNegotiateTr; s.released = true ∧ s.ready 20 = true ∧
    s.csc.ports.length = 4 ∧ let x := s.quoin p; let a := Reg.cscPortCfg.addr [p]; let d : Nat := 0; d < 2 ^ 32 ∧
    let m : Master := .pf 0; s.writes m a ∧ s.feature 6 = true ∧ bitOf d 0 = false ∧ x.state ≠ .disabled) ∧
  (let p : Nat := 0; p < 4 ∧ let s : State := W.quoinLinksNegotiateTrl; s.released = true ∧ s.ready 20 = true ∧
    s.csc.ports.length = 4 ∧ let x := s.quoin p; let i : Nat := 0; i < 256 ∧ x.state = .training ∧
    bitOf s.bring.readyQuoin p = true ∧ s.clocks.lrefa = true ∧ bitOf s.glb.lock 20 = true) ∧
  (let p : Nat := 0; p < 4 ∧ let s : State := W.up; s.released = true ∧ s.ready 20 = true ∧ s.csc.ports.length = 4 ∧
    let x := s.quoin p; let i : Nat := 0; i < 256 ∧ (x.state ≠ .training ∨ bitOf s.glb.lock 20 = false)) ∧
  (let p : Nat := 0; p < 4 ∧ let s : State := W.quoinLinksNegotiateNg; s.released = true ∧ s.ready 20 = true ∧
    s.csc.ports.length = 4 ∧ let x := s.quoin p; x.state = .negotiate ∧ x.heard = false ∧ x.sentSeen = false) ∧
  (let p : Nat := 0; p < 4 ∧ let s : State := W.quoinLinksNegotiateNgh; s.released = true ∧ s.ready 20 = true ∧
    s.csc.ports.length = 4 ∧ let x := s.quoin p; x.state = .negotiate ∧ x.heard = true ∧ x.gotSeen = false) ∧
  (let p : Nat := 0; p < 4 ∧ let s : State := W.quoinLinksNegotiateNgs; s.released = true ∧ s.ready 20 = true ∧
    s.csc.ports.length = 4 ∧ let x := s.quoin p; x.state = .negotiate ∧ x.heard = true ∧ x.gotSeen = true) ∧
  (let p : Nat := 0; p < 4 ∧ let s : State := W.up; s.released = true ∧ s.ready 20 = true ∧ s.csc.ports.length = 4 ∧
    let x := s.quoin p; x.state ≠ .negotiate) ∧
  (let p : Nat := 0; p < 4 ∧ let s : State := W.quoinLinksNegotiateNg; s.released = true ∧ s.ready 20 = true ∧
    s.csc.ports.length = 4 ∧ let x := s.quoin p;
    let h : HelloMsg := { id := 0, port := 1, verMin := 1, verMax := 3, seen := true, serial := 5, alloc := [480,480] };
    h.id < 4 ∧ h.port < 4 ∧ h.verMin < 16 ∧ h.verMax < 16 ∧ (x.state = .negotiate ∨ x.state = .idConflict) ∧
    h.id = s.moduleId) ∧
  (let p : Nat := 0; p < 4 ∧ let s : State := W.quoinLinksNegotiateNg; s.released = true ∧ s.ready 20 = true ∧
    s.csc.ports.length = 4 ∧ let x := s.quoin p;
    let h : HelloMsg := { id := 2, port := 1, verMin := 4, verMax := 3, seen := true, serial := 5, alloc := [480,480] };
    h.id < 4 ∧ h.port < 4 ∧ h.verMin < 16 ∧ h.verMax < 16 ∧ let v := min (s.fld Reg.cscCfg [] 6 2) h.verMax;
    (x.state = .negotiate ∨ x.state = .idConflict) ∧ h.id ≠ s.moduleId ∧ v < h.verMin) ∧
  (let p : Nat := 0; p < 4 ∧ let s : State := W.quoinLinksNegotiateNgs; s.released = true ∧ s.ready 20 = true ∧
    s.csc.ports.length = 4 ∧ let x := s.quoin p;
    let h : HelloMsg := { id := 2, port := 1, verMin := 1, verMax := 3, seen := true, serial := 5, alloc := [480,480] };
    h.id < 4 ∧ h.port < 4 ∧ h.verMin < 16 ∧ h.verMax < 16 ∧ let v := min (s.fld Reg.cscCfg [] 6 2) h.verMax;
    (x.state = .negotiate ∨ x.state = .idConflict) ∧ h.id ≠ s.moduleId ∧ h.verMin ≤ v ∧ x.sentSeen = true ∧
    (x.gotSeen || h.seen) = true) ∧
  (let p : Nat := 0; p < 4 ∧ let s : State := W.quoinLinksNegotiateNg; s.released = true ∧ s.ready 20 = true ∧
    s.csc.ports.length = 4 ∧ let x := s.quoin p;
    let h : HelloMsg := { id := 2, port := 1, verMin := 1, verMax := 3, seen := true, serial := 5, alloc := [480,480] };
    h.id < 4 ∧ h.port < 4 ∧ h.verMin < 16 ∧ h.verMax < 16 ∧ let v := min (s.fld Reg.cscCfg [] 6 2) h.verMax;
    (x.state = .negotiate ∨ x.state = .idConflict) ∧ h.id ≠ s.moduleId ∧ h.verMin ≤ v ∧
    (x.sentSeen = false ∨ (x.gotSeen || h.seen) = false)) ∧
  (let p : Nat := 0; p < 4 ∧ let s : State := W.up; s.released = true ∧ s.ready 20 = true ∧ s.csc.ports.length = 4 ∧
    let x := s.quoin p;
    let h : HelloMsg := { id := 0, port := 1, verMin := 1, verMax := 3, seen := true, serial := 5, alloc := [480,480] };
    h.id < 4 ∧ h.port < 4 ∧ h.verMin < 16 ∧ h.verMax < 16 ∧ x.state ≠ .negotiate ∧ x.state ≠ .idConflict) ∧
  (let p : Nat := 0; p < 4 ∧ let s : State := W.quoinLinksNegotiateU; s.released = true ∧ s.ready 20 = true ∧
    s.csc.ports.length = 4 ∧ let x := s.quoin p; x.state = .up) ∧
  (let p : Nat := 0; p < 4 ∧ let s : State := W.quoinLinksNegotiateNg; s.released = true ∧ s.ready 20 = true ∧
    s.csc.ports.length = 4 ∧ let x := s.quoin p; x.state = .negotiate) ∧
  (let p : Nat := 0; p < 4 ∧ let s : State := W.up; s.released = true ∧ s.ready 20 = true ∧ s.csc.ports.length = 4 ∧
    let x := s.quoin p; (x.state = .disabled ∨ x.state = .training)) ∧
  (let p : Nat := 0; p < 4 ∧ let s : State := W.up; s.released = true ∧ s.ready 20 = true ∧ s.csc.ports.length = 4 ∧
    let x := s.quoin p; x.state ≠ .up) := by
  refine ⟨?_, ?_, ?_, ?_, ?_, ?_, ?_, ?_, ?_, ?_, ?_, ?_, ?_, ?_, ?_, ?_, ?_, ?_⟩
  all_goals (try unfold State.writes)
  all_goals (try unfold State.reaches)
  all_goals decide +kernel

def W.flitsAreExchangedUn : State :=
  { W.up with csc := { W.up.csc with ports := [{ state := .up, nakSent := true }, {}, {}, {}] } }
def W.flitsAreExchangedUa : State :=
  { W.up with csc := { W.up.csc with ports := [{ state := .up, ackAt := 2999000, unacked := [{ seq := 4, sends := 1, flit := { typ := 1, ch := 2, sop := true, eop := true, payload := [1] } }] }, {}, {}, {}] } }
def W.flitsAreExchangedU8 : State :=
  { W.up with csc := { W.up.csc with ports := [{ state := .up, ackAt := 2999000, unacked := [{ seq := 4, sends := 8, flit := { typ := 1, ch := 2, sop := true, eop := true, payload := [1] } }] }, {}, {}, {}] } }
def W.flitsAreExchangedCw : State :=
  ({ W.up with csc := { W.up.csc with ports := [{ state := .up, creditWait := [some 1000000, some 0, none, none, none, none, none, none, some 2999999] }, {}, {}, {}] } }).setWord Reg.cscPortCredit [0] 5
def W.flitsAreExchangedSh : State :=
  { W.up with csc := { W.up.csc with ports := [{ state := .training, downSince := some 0, waiting := [[{ typ := 1, ch := 0, sop := true, eop := true, payload := [1] }], [], [], [], [], [], [], [], [{ typ := 2, ch := 8, sop := true, eop := true, payload := [1] }]] }, {}, {}, {}] } }

/-- Premises of FlitsAreExchanged, clause by clause. -/
theorem premises_FlitsAreExchanged :
  (let p : Nat := 0; p < 4 ∧ let s : State := W.up; s.released = true ∧ s.ready 20 = true ∧ s.csc.ports.length = 4 ∧
    let x := s.quoin p; (x.state = .disabled ∨ x.state = .training)) ∧
  (let p : Nat := 0; p < 4 ∧ let s : State := W.quoinLinksNegotiateU; s.released = true ∧ s.ready 20 = true ∧
    s.csc.ports.length = 4 ∧ let x := s.quoin p; x.state = .up ∧ let f : FlitIn := { fec := 2 }; 2 ≤ f.fec ∧
    x.nakSent = false) ∧
  (let p : Nat := 0; p < 4 ∧ let s : State := W.flitsAreExchangedUn; s.released = true ∧ s.ready 20 = true ∧
    s.csc.ports.length = 4 ∧ let x := s.quoin p; x.state = .up ∧ let f : FlitIn := { fec := 2 }; 2 ≤ f.fec ∧
    x.nakSent = true) ∧
  (let p : Nat := 0; p < 4 ∧ let s : State := W.quoinLinksNegotiateU; s.released = true ∧ s.ready 20 = true ∧
    s.csc.ports.length = 4 ∧ let x := s.quoin p; x.state = .up ∧
    let f : FlitIn := { typ := 0, crCh := 3, crCount := 7 }; f.fec = 0 ∧ f.typ = 0 ∧ f.ackVld = false ∧ f.nak = false ∧
    x.waiting = List.replicate 9 [] ∧ x.creditWait = List.replicate 9 none ∧ x.credits.length = 9 ∧ f.crCh ≤ 8) ∧
  (let p : Nat := 0; p < 4 ∧ let s : State := W.quoinLinksNegotiateU; s.released = true ∧ s.ready 20 = true ∧
    s.csc.ports.length = 4 ∧ let x := s.quoin p; x.state = .up ∧ let f : FlitIn := { typ := 1, ch := 2, seq := 5 };
    f.fec = 0 ∧ f.seq < 4096 ∧ ((f.typ = 2 ∧ f.ch = 8 ∧ leAt f.payload 0 1 ≠ 1 ∧ leAt f.payload 0 1 ≠ 7) ∨ f.typ = 1) ∧
    let t := s.begun.rxHeader p f; (t.quoin p).state = .up ∧ f.seq ≠ (t.quoin p).rxSeq) ∧
  (let p : Nat := 0; p < 4 ∧ let s : State := W.quoinLinksNegotiateU; s.released = true ∧ s.ready 20 = true ∧
    s.csc.ports.length = 4 ∧ let x := s.quoin p; x.state = .up ∧ let f : FlitIn := { typ := 1, ch := 9, seq := 0 };
    f.fec = 0 ∧ f.seq < 4096 ∧ ((f.typ = 2 ∧ f.ch = 8 ∧ leAt f.payload 0 1 ≠ 1 ∧ leAt f.payload 0 1 ≠ 7) ∨ f.typ = 1) ∧
    let t := s.begun.rxHeader p f; (t.quoin p).state = .up ∧ f.seq = (t.quoin p).rxSeq ∧ f.typ = 1 ∧ 8 < f.ch) ∧
  (let p : Nat := 0; p < 4 ∧ let s : State := W.quoinLinksNegotiateU; s.released = true ∧ s.ready 20 = true ∧
    s.csc.ports.length = 4 ∧ let x := s.quoin p; x.state = .up ∧
    let f : FlitIn := { typ := 1, ch := 2, seq := 0, sop := true, eop := true, payload := List.replicate 64 0 };
    f.fec = 0 ∧ f.seq < 4096 ∧ ((f.typ = 2 ∧ f.ch = 8 ∧ leAt f.payload 0 1 ≠ 1 ∧ leAt f.payload 0 1 ≠ 7) ∨ f.typ = 1) ∧
    let t := s.begun.rxHeader p f; (t.quoin p).state = .up ∧ f.seq = (t.quoin p).rxSeq ∧ f.typ = 1 ∧ f.ch ≤ 8) ∧
  (let p : Nat := 0; p < 4 ∧ let s : State := W.quoinLinksNegotiateU; s.released = true ∧ s.ready 20 = true ∧
    s.csc.ports.length = 4 ∧ let x := s.quoin p; x.state = .up ∧
    let f : FlitIn := { typ := 2, ch := 8, sop := true, eop := true, payload := [9] }; f.fec = 0 ∧ f.seq < 4096 ∧
    ((f.typ = 2 ∧ f.ch = 8 ∧ leAt f.payload 0 1 ≠ 1 ∧ leAt f.payload 0 1 ≠ 7) ∨ f.typ = 1) ∧
    let t := s.begun.rxHeader p f; (t.quoin p).state = .up ∧ f.seq = (t.quoin p).rxSeq ∧ f.typ = 2 ∧ f.sop = true ∧
    f.eop = true ∧ (8 ≤ leAt f.payload 0 1 ∨ leAt f.payload 0 1 = 0)) ∧
  (let p : Nat := 0; p < 4 ∧ let s : State := W.quoinLinksNegotiateU; s.released = true ∧ s.ready 20 = true ∧
    s.csc.ports.length = 4 ∧ let x := s.quoin p; x.state = .up ∧
    let f : FlitIn := { typ := 2, ch := 8, sop := true, eop := true, payload := 5 :: List.replicate 40 1 }; f.fec = 0 ∧
    f.seq < 4096 ∧ ((f.typ = 2 ∧ f.ch = 8 ∧ leAt f.payload 0 1 ≠ 1 ∧ leAt f.payload 0 1 ≠ 7) ∨ f.typ = 1) ∧
    let t := s.begun.rxHeader p f; (t.quoin p).state = .up ∧ f.seq = (t.quoin p).rxSeq ∧ f.typ = 2 ∧ f.sop = true ∧
    f.eop = true ∧ leAt f.payload 0 1 = 5) ∧
  (let p : Nat := 0; p < 4 ∧ let s : State := W.flitsAreExchangedUa; s.released = true ∧ s.ready 20 = true ∧
    s.csc.ports.length = 4 ∧ let x := s.quoin p; x.state = .up ∧ x.unacked ≠ [] ∧ x.ackAt + 1000 ≤ s.now ∧
    (∀ u ∈ x.unacked, u.sends < 8)) ∧
  (let p : Nat := 0; p < 4 ∧ let s : State := W.flitsAreExchangedU8; s.released = true ∧ s.ready 20 = true ∧
    s.csc.ports.length = 4 ∧ let x := s.quoin p; x.state = .up ∧ x.unacked ≠ [] ∧ x.ackAt + 1000 ≤ s.now ∧
    (∃ u ∈ x.unacked, 8 ≤ u.sends)) ∧
  (let p : Nat := 0; p < 4 ∧ let s : State := W.up; s.released = true ∧ s.ready 20 = true ∧ s.csc.ports.length = 4 ∧
    let x := s.quoin p; (x.state ≠ .up ∨ x.unacked = [] ∨ s.now < x.ackAt + 1000)) ∧
  (let p : Nat := 0; p < 4 ∧ let s : State := W.flitsAreExchangedCw; s.released = true ∧ s.ready 20 = true ∧
    s.csc.ports.length = 4 ∧ let x := s.quoin p; let ch : Nat := 0;
    ∃ t ∈ x.creditWait.getD ch none, let lim := 1000 * s.fld Reg.cscPortCredit [p] 0 16; t ≠ 0 ∧ t + lim ≤ s.now) ∧
  (let p : Nat := 0; p < 4 ∧ let s : State := W.flitsAreExchangedCw; s.released = true ∧ s.ready 20 = true ∧
    s.csc.ports.length = 4 ∧ let x := s.quoin p; let ch : Nat := 1;
    ∃ t ∈ x.creditWait.getD ch none, let lim := 1000 * s.fld Reg.cscPortCredit [p] 0 16; (t = 0 ∨ s.now < t + lim)) ∧
  (let p : Nat := 0; p < 4 ∧ let s : State := W.up; s.released = true ∧ s.ready 20 = true ∧ s.csc.ports.length = 4 ∧
    s.quoinShut p = false) ∧
  (let p : Nat := 0; p < 4 ∧ let s : State := W.flitsAreExchangedSh; s.released = true ∧ s.ready 20 = true ∧
    s.csc.ports.length = 4 ∧ s.quoinShut p = true) := by
  refine ⟨?_, ?_, ?_, ?_, ?_, ?_, ?_, ?_, ?_, ?_, ?_, ?_, ?_, ?_, ?_, ?_⟩
  all_goals decide +kernel

def W.el : State :=
  { W.up with csc := { W.up.csc with ports := [{ state := .up }, {}, {}, {}], masterValid := false, invalidSince := 2800000, leaseEpoch := 65535 } }
def W.stackIsLedM : State :=
  { W.up with csc := { W.up.csc with ports := [{ state := .up, peerId := 2, linkVer := 3 }, {}, {}, {}], isMaster := true, masterValid := true, leaseEpoch := 4, leaseEnd := 3000000, cfgEpoch := 9, masterPrio := 3 } }
def W.stackIsLedMa : State :=
  ({ W.up with csc := { W.up.csc with ports := [{ state := .up, peerId := 2, linkVer := 3 }, {}, {}, {}], isMaster := true, masterValid := true, leaseEpoch := 4, cfgEpoch := 9 } }).setWord Reg.cscEpochAt [1] 9
def W.stackIsLedPe : State :=
  { W.up with csc := { W.up.csc with ports := [{ state := .up, peerId := 2, linkVer := 3 }, {}, {}, {}], pending := some (12, 7000000000), cfgEpoch := 9, masterId := 2, leaseEpoch := 4 } }
def W.stackIsLedPe1 : State :=
  { W.up with csc := { W.up.csc with ports := [{ state := .up, peerId := 2, linkVer := 3 }, {}, {}, {}], pending := some (12, 7000000001), cfgEpoch := 9 } }
def W.stackIsLedTm : State :=
  { W.up with csc := { W.up.csc with ports := [{ state := .up, peerId := 2, linkVer := 3 }, {}, {}, {}], topoAt := 2950000, timeAt := 2900000, masterValid := true } }
def W.stackIsLedTp : State :=
  { W.up with csc := { W.up.csc with ports := [{ state := .up, peerId := 2, linkVer := 3, topo := some { at_ := 2700000, id := 2, direct := 1, prio := 3, capable := true, kscReady := true } }, {}, {}, {}] } }
def W.stackIsLedTp1 : State :=
  { W.up with csc := { W.up.csc with ports := [{ state := .up, peerId := 2, linkVer := 3, topo := some { at_ := 2700001, id := 2, direct := 1, prio := 3, capable := true, kscReady := true } }, {}, {}, {}] } }
def W.stackIsLedLo : State :=
  { W.up with csc := { W.up.csc with ports := [{ state := .up, peerId := 2, linkVer := 3 }, {}, {}, {}], lostSince := [none, some 2000000, some 2000001, none] } }

/-- Premises of StackIsLed, clause by clause. -/
theorem premises_StackIsLed :
  (let p : Nat := 0; p < 4 ∧ let s : State := W.stackIsLedM; s.released = true ∧ s.ready 20 = true ∧
    s.csc.ports.length = 4 ∧ let c := s.csc; let e : Nat := 4; e < 65536 ∧ let a := blockBase 20 + 0x1008;
    let m : Master := .fw 0 1; s.writes m a ∧ m.isFw = true ∧ c.isMaster = true ∧ e = c.leaseEpoch) ∧
  (let p : Nat := 0; p < 4 ∧ let s : State := W.up; s.released = true ∧ s.ready 20 = true ∧ s.csc.ports.length = 4 ∧
    let c := s.csc; let e : Nat := 0; e < 65536 ∧ let a := blockBase 20 + 0x1008; let m : Master := .fw 0 1;
    s.reaches m a ∧ m.isFw = true ∧ (c.isMaster = false ∨ e ≠ c.leaseEpoch)) ∧
  (let p : Nat := 0; p < 4 ∧ let s : State := W.up; s.released = true ∧ s.ready 20 = true ∧ s.csc.ports.length = 4 ∧
    let e : Nat := 0; e < 65536 ∧ let a := blockBase 20 + 0x1008; let m : Master := .pf 0; s.reaches m a ∧
    m.isFw = false) ∧
  (let p : Nat := 0; p < 4 ∧ let s : State := W.stackIsLedMa; s.released = true ∧ s.ready 20 = true ∧
    s.csc.ports.length = 4 ∧ let c := s.csc; let e : Nat := 10; e < 65536 ∧ let a := blockBase 20 + 0x1018;
    let at_ := s.word Reg.cscEpochAt [0] + 2 ^ 32 * s.word Reg.cscEpochAt [1]; let m : Master := .fw 0 1; s.writes m a ∧
    m.isFw = true ∧ c.isMaster = true ∧ newer16 e c.cfgEpoch = true ∧ s.tsu.todNs < at_) ∧
  (let p : Nat := 0; p < 4 ∧ let s : State := W.up; s.released = true ∧ s.ready 20 = true ∧ s.csc.ports.length = 4 ∧
    let c := s.csc; let e : Nat := 0; e < 65536 ∧ let a := blockBase 20 + 0x1018; let m : Master := .fw 0 1;
    s.reaches m a ∧ m.isFw = true ∧ (c.isMaster = false ∨ newer16 e c.cfgEpoch = false)) ∧
  (let p : Nat := 0; p < 4 ∧ let s : State := W.stackIsLedM; s.released = true ∧ s.ready 20 = true ∧
    s.csc.ports.length = 4 ∧ let c := s.csc; let x := s.quoin p; let e : Nat := 4; e < 65536 ∧ let i : Nat := 0; i < 4 ∧
    let prio : Nat := 0; prio < 16 ∧ let n : Nat := 10; n < 2 ^ 32 ∧ x.state = .up ∧
    let own := if c.isMaster = true then s.ownPrio else c.masterPrio; let good := (
                  newer16 e c.leaseEpoch = true ∨ (e = c.leaseEpoch ∧ i = c.masterId ∧ newer32 n c.renewSeq = true)
        ∨ (e = c.leaseEpoch ∧ i ≠ c.masterId ∧ (own < prio ∨ (prio = own ∧ i < c.masterId)))); good ∧ i = c.masterId ∧ e = c.leaseEpoch) ∧
  (let p : Nat := 0; p < 4 ∧ let s : State := W.stackIsLedM; s.released = true ∧ s.ready 20 = true ∧
    s.csc.ports.length = 4 ∧ let c := s.csc; let x := s.quoin p; let e : Nat := 4; e < 65536 ∧ let i : Nat := 1; i < 4 ∧
    let prio : Nat := 15; prio < 16 ∧ let n : Nat := 0; n < 2 ^ 32 ∧ x.state = .up ∧
    let own := if c.isMaster = true then s.ownPrio else c.masterPrio; let good := (
                  newer16 e c.leaseEpoch = true ∨ (e = c.leaseEpoch ∧ i = c.masterId ∧ newer32 n c.renewSeq = true)
        ∨ (e = c.leaseEpoch ∧ i ≠ c.masterId ∧ (own < prio ∨ (prio = own ∧ i < c.masterId)))); good ∧ (i ≠ c.masterId ∨ e ≠ c.leaseEpoch)) ∧
  (let p : Nat := 0; p < 4 ∧ let s : State := W.stackIsLedM; s.released = true ∧ s.ready 20 = true ∧
    s.csc.ports.length = 4 ∧ let c := s.csc; let x := s.quoin p; let e : Nat := 0; e < 65536 ∧ let i : Nat := 0; i < 4 ∧
    let prio : Nat := 0; prio < 16 ∧ let n : Nat := 0; n < 2 ^ 32 ∧ x.state = .up ∧
    let own := if c.isMaster = true then s.ownPrio else c.masterPrio; let good := (
                  newer16 e c.leaseEpoch = true ∨ (e = c.leaseEpoch ∧ i = c.masterId ∧ newer32 n c.renewSeq = true)
        ∨ (e = c.leaseEpoch ∧ i ≠ c.masterId ∧ (own < prio ∨ (prio = own ∧ i < c.masterId)))); ¬good) ∧
  (let p : Nat := 0; p < 4 ∧ let s : State := W.up; s.released = true ∧ s.ready 20 = true ∧ s.csc.ports.length = 4 ∧
    let x := s.quoin p; x.state ≠ .up) ∧
  (let p : Nat := 0; p < 4 ∧ let s : State := W.stackIsLedM; s.released = true ∧ s.ready 20 = true ∧
    s.csc.ports.length = 4 ∧ let c := s.csc; c.masterValid = true ∧ c.leaseEnd ≤ s.now) ∧
  (let p : Nat := 0; p < 4 ∧ let s : State := W.up; s.released = true ∧ s.ready 20 = true ∧ s.csc.ports.length = 4 ∧
    let c := s.csc; (c.masterValid = false ∨ s.now < c.leaseEnd)) ∧
  (let p : Nat := 0; p < 4 ∧ let s : State := W.stackIsLedM; s.released = true ∧ s.ready 20 = true ∧
    s.csc.ports.length = 4 ∧ let c := s.csc; (c.masterValid = true ∨ s.now < c.invalidSince + 200000)) ∧
  (let p : Nat := 0; p < 4 ∧ let s : State := W.el; s.released = true ∧ s.ready 20 = true ∧ s.csc.ports.length = 4 ∧
    let c := s.csc; let x := s.quoin p; c.masterValid = false ∧ c.invalidSince + 200000 ≤ s.now ∧ x.state = .up ∧
    s.candidates = [(s.ownPrio, s.moduleId)]) ∧
  (let p : Nat := 0; p < 4 ∧ let s : State := W.stackIsLedM; s.released = true ∧ s.ready 20 = true ∧
    s.csc.ports.length = 4 ∧ let c := s.csc; let x := s.quoin p; let le : Nat := 4; le < 65536 ∧ let ce : Nat := 10;
    ce < 65536 ∧ let tod : Nat := 18446744073709551615; tod < 2 ^ 64 ∧ let i : Nat := 0; i < 4 ∧ x.state = .up ∧
    let good := (
                  le = c.leaseEpoch ∧ i = c.masterId ∧ newer16 ce c.cfgEpoch = true ∧
        (∀ q ∈ c.pending, newer16 ce q.1 = true)); good ∧ s.tsu.todNs < tod) ∧
  (let p : Nat := 0; p < 4 ∧ let s : State := W.stackIsLedM; s.released = true ∧ s.ready 20 = true ∧
    s.csc.ports.length = 4 ∧ let c := s.csc; let x := s.quoin p; let le : Nat := 4; le < 65536 ∧ let ce : Nat := 10;
    ce < 65536 ∧ let tod : Nat := 0; tod < 2 ^ 64 ∧ let i : Nat := 0; i < 4 ∧ x.state = .up ∧ let good := (
                  le = c.leaseEpoch ∧ i = c.masterId ∧ newer16 ce c.cfgEpoch = true ∧
        (∀ q ∈ c.pending, newer16 ce q.1 = true)); good ∧ tod ≤ s.tsu.todNs) ∧
  (let p : Nat := 0; p < 4 ∧ let s : State := W.stackIsLedM; s.released = true ∧ s.ready 20 = true ∧
    s.csc.ports.length = 4 ∧ let c := s.csc; let x := s.quoin p; let le : Nat := 4; le < 65536 ∧ let ce : Nat := 9;
    ce < 65536 ∧ let tod : Nat := 0; tod < 2 ^ 64 ∧ let i : Nat := 0; i < 4 ∧ x.state = .up ∧ let good := (
                  le = c.leaseEpoch ∧ i = c.masterId ∧ newer16 ce c.cfgEpoch = true ∧
        (∀ q ∈ c.pending, newer16 ce q.1 = true)); ¬good) ∧
  (let p : Nat := 0; p < 4 ∧ let s : State := W.stackIsLedPe; s.released = true ∧ s.ready 20 = true ∧
    s.csc.ports.length = 4 ∧ let c := s.csc; ∃ w0 ∈ c.pending, let t := w0.2; t ≤ s.tsu.todNs) ∧
  (let p : Nat := 0; p < 4 ∧ let s : State := W.stackIsLedPe1; s.released = true ∧ s.ready 20 = true ∧
    s.csc.ports.length = 4 ∧ let c := s.csc; ∃ w0 ∈ c.pending, let t := w0.2; s.tsu.todNs < t) ∧
  (let p : Nat := 0; p < 4 ∧ let s : State := W.up; s.released = true ∧ s.ready 20 = true ∧ s.csc.ports.length = 4 ∧
    let c := s.csc; c.topoAt + 100000 ≤ s.now) ∧
  (let p : Nat := 0; p < 4 ∧ let s : State := W.up; s.released = true ∧ s.ready 20 = true ∧ s.csc.ports.length = 4 ∧
    let c := s.csc; c.timeAt + 125000 ≤ s.now) ∧
  (let p : Nat := 0; p < 4 ∧ let s : State := W.stackIsLedTm; s.released = true ∧ s.ready 20 = true ∧
    s.csc.ports.length = 4 ∧ let c := s.csc; s.now < c.topoAt + 100000) ∧
  (let p : Nat := 0; p < 4 ∧ let s : State := W.stackIsLedTm; s.released = true ∧ s.ready 20 = true ∧
    s.csc.ports.length = 4 ∧ let c := s.csc; s.now < c.timeAt + 125000) ∧
  (let p : Nat := 0; p < 4 ∧ let s : State := W.stackIsLedM; s.released = true ∧ s.ready 20 = true ∧
    s.csc.ports.length = 4 ∧ let x := s.quoin p; x.state = .up ∧
    let k : TopoMsg := { id := 2, direct := 1, prio := 3, capable := true, kscReady := true, masterValid := false, masterId := 0, leaseEpoch := 0, cfgEpoch := 0 };
    k.id < 4 ∧ k.direct < 16 ∧ k.prio < 16) ∧
  (let p : Nat := 0; p < 4 ∧ let s : State := W.stackIsLedTp; s.released = true ∧ s.ready 20 = true ∧
    s.csc.ports.length = 4 ∧ let x := s.quoin p; ∃ r ∈ x.topo, r.at_ + 300000 ≤ s.now) ∧
  (let p : Nat := 0; p < 4 ∧ let s : State := W.stackIsLedTp1; s.released = true ∧ s.ready 20 = true ∧
    s.csc.ports.length = 4 ∧ let x := s.quoin p; ∃ r ∈ x.topo, s.now < r.at_ + 300000) ∧
  (let p : Nat := 0; p < 4 ∧ let s : State := W.stackIsLedM; s.released = true ∧ s.ready 20 = true ∧
    s.csc.ports.length = 4 ∧ let x := s.quoin p; x.state = .up ∧ let tx : Nat := 0; tx < 2 ^ 64 ∧ let et : Nat := 0;
    et < 2 ^ 64 ∧ let er : Nat := 0; er < 2 ^ 64) ∧
  (let p : Nat := 0; p < 4 ∧ let s : State := W.stackIsLedLo; s.released = true ∧ s.ready 20 = true ∧
    s.csc.ports.length = 4 ∧ let c := s.csc; let i : Nat := 1; ∃ t ∈ c.lostSince.getD i none, t + 1000000 ≤ s.now) ∧
  (let p : Nat := 0; p < 4 ∧ let s : State := W.stackIsLedLo; s.released = true ∧ s.ready 20 = true ∧
    s.csc.ports.length = 4 ∧ let c := s.csc; let i : Nat := 2; ∃ t ∈ c.lostSince.getD i none, s.now < t + 1000000) := by
  refine ⟨?_, ?_, ?_, ?_, ?_, ?_, ?_, ?_, ?_, ?_, ?_, ?_, ?_, ?_, ?_, ?_, ?_, ?_, ?_, ?_, ?_, ?_, ?_, ?_, ?_, ?_, ?_, ?_⟩
  all_goals (try unfold State.writes)
  all_goals (try unfold State.reaches)
  all_goals decide +kernel

def W.quoinMailboxesAndRetirementA6 : State :=
  { W.up with csc := { W.up.csc with ports := [{ state := .up, peerId := 2, linkVer := 3 }, {}, {}, {}] }, ivm := { W.up.ivm with quoinEndA := [6,0,0,0] } }
def W.quoinMailboxesAndRetirementA3 : State :=
  { W.up with csc := { W.up.csc with ports := [{ state := .up, peerId := 2, linkVer := 3 }, {}, {}, {}] }, ivm := { W.up.ivm with quoinEndA := [3,0,0,0], chans := [(2052, { state := .posted })] } }
def W.quoinMailboxesAndRetirementA3i : State :=
  { W.up with csc := { W.up.csc with ports := [{ state := .up, peerId := 2, linkVer := 3 }, {}, {}, {}] }, ivm := { W.up.ivm with quoinEndA := [3,0,0,0] } }
def W.quoinMailboxesAndRetirementDn : State :=
  { W.up with ivm := { W.up.ivm with quoinEndA := [3,6,0,0], quoinDownSince := [some 2000000, some 2000001, none, some 0], chans := [(2052, { state := .posted })] } }

/-- Premises of QuoinMailboxesAndRetirement, clause by clause. -/
theorem premises_QuoinMailboxesAndRetirement :
  (let p : Nat := 0; p < 4 ∧ let s : State := W.quoinMailboxesAndRetirementA6; s.released = true ∧
    s.csc.ports.length = 4 ∧ let x := s.quoin p; s.ready 20 = true ∧ x.state = .up ∧ s.ivm.quoinEndA.getD p 0 = 6 ∧
    let w : Nat := 0; w < 16 ∧ let v : Nat := 0; v < 2 ^ 32) ∧
  (let p : Nat := 0; p < 4 ∧ let s : State := W.quoinMailboxesAndRetirementA6; s.released = true ∧
    s.csc.ports.length = 4 ∧ let x := s.quoin p; s.ready 20 = true ∧ x.state = .up ∧ s.ivm.quoinEndA.getD p 0 = 6) ∧
  (let p : Nat := 0; p < 4 ∧ let s : State := W.quoinMailboxesAndRetirementA3; s.released = true ∧
    s.csc.ports.length = 4 ∧ let x := s.quoin p; let y := s.chan (2052 + p); s.ready 20 = true ∧ x.state = .up ∧
    s.ivm.quoinEndA.getD p 0 = 3 ∧ y.state = .posted) ∧
  (let p : Nat := 0; p < 4 ∧ let s : State := W.quoinMailboxesAndRetirementA3i; s.released = true ∧
    s.csc.ports.length = 4 ∧ let x := s.quoin p; let y := s.chan (2052 + p); s.ready 20 = true ∧ x.state = .up ∧
    s.ivm.quoinEndA.getD p 0 = 3 ∧ y.state ≠ .posted) ∧
  (let p : Nat := 0; p < 4 ∧ let s : State := W.quoinMailboxesAndRetirementDn; s.released = true ∧
    s.csc.ports.length = 4 ∧ let x := s.quoin p; s.ready 20 = true ∧ x.state ≠ .up) ∧
  (let p : Nat := 1; p < 4 ∧ let s : State := W.quoinMailboxesAndRetirementDn; s.released = true ∧
    s.csc.ports.length = 4 ∧ let x := s.quoin p;
    ∃ t ∈ s.ivm.quoinDownSince.getD p none, (x.state = .up ∨ s.now < t + 1000000)) ∧
  (let p : Nat := 0; p < 4 ∧ let s : State := W.quoinMailboxesAndRetirementDn; s.released = true ∧
    s.csc.ports.length = 4 ∧ let x := s.quoin p; ∃ t ∈ s.ivm.quoinDownSince.getD p none, x.state ≠ .up ∧
    t + 1000000 ≤ s.now) ∧
  (let p : Nat := 0; p < 4 ∧ let s : State := W.quoinMailboxesAndRetirementA6; s.released = true ∧
    s.csc.ports.length = 4 ∧ let d : Nat := 0; d < 2 ^ 32 ∧ let a := Reg.cscRetire.addr []; let m : Master := .fw 0 1;
    s.writes m a ∧ m.isFw = true) ∧
  (let p : Nat := 0; p < 4 ∧ let s : State := W.quoinMailboxesAndRetirementA6; s.released = true ∧
    s.csc.ports.length = 4 ∧ let d : Nat := 0; d < 2 ^ 32 ∧ let a := Reg.cscRetire.addr []; let m : Master := .pf 0;
    s.reaches m a ∧ m.isFw = false) := by
  refine ⟨?_, ?_, ?_, ?_, ?_, ?_, ?_, ?_, ?_⟩
  all_goals (try unfold State.writes)
  all_goals (try unfold State.reaches)
  all_goals decide +kernel


/-- Premises of SnapshotsAreOneTick, clause by clause. -/
theorem premises_SnapshotsAreOneTick :
  (let s : State := W.up; s.banksHeld ∧ let d : Nat := 1; d < 2 ^ 32 ∧ let m : Master := .pf 0; s.writes m 0x10030 ∧
    bitOf d 0 = true) ∧
  (let s : State := W.up; s.banksHeld ∧ let d : Nat := 0; d < 2 ^ 32 ∧ let m : Master := .pf 0; s.writes m 0x10030 ∧
    bitOf d 0 = false) := by
  refine ⟨?_, ?_⟩
  all_goals (try unfold State.writes)
  all_goals (try unfold State.reaches)
  all_goals (try unfold State.banksHeld)
  all_goals decide +kernel


/-- Premises of InjectionsAreEvents, clause by clause. -/
theorem premises_InjectionsAreEvents :
  (let d : Nat := 0; d < 2 ^ 32 ∧ let s : State := W.errorsAndCountsFt; let m : Master := .pf 0;
    s.writes m (blockBase 19 + 0x3010) ∧ s.tap.ftMode = true ∧ Reg.srcDefined (bitsOf d 0 10) = true) ∧
  (let d : Nat := 0; d < 2 ^ 32 ∧ let s : State := W.up; let m : Master := .pf 0; s.writes m (blockBase 19 + 0x3010) ∧
    (s.tap.ftMode = false ∨ Reg.srcDefined (bitsOf d 0 10) = false)) := by
  refine ⟨?_, ?_⟩
  all_goals (try unfold State.writes)
  all_goals (try unfold State.reaches)
  all_goals decide +kernel


/-- Premises of EventsAreRecorded, clause by clause. -/
theorem premises_EventsAreRecorded :
  (let s : State := W.up; s.released = true ∧ let src : Nat := 0; Reg.srcDefined src = true ∧ s.flt.caps.length = 4 ∧
    (∀ (k : Nat), k < 5 → mapGet 0 s.counters (fltCounter k) + 8 < 2 ^ 47)) ∧
  (let s : State := W.up; s.released = true ∧ let src : Nat := 0; Reg.srcDefined src = true ∧ s.flt.caps.length = 4 ∧
    (∀ (k : Nat), k < 5 → mapGet 0 s.counters (fltCounter k) + 8 < 2 ^ 47) ∧ let k := Reg.srcClass src;
    let j : Nat := 1; j ≠ k) ∧
  (let s : State := W.up; s.released = true ∧ let src : Nat := 0; Reg.srcDefined src = true ∧ s.flt.caps.length = 4 ∧
    (∀ (k : Nat), k < 5 → mapGet 0 s.counters (fltCounter k) + 8 < 2 ^ 47) ∧ let x : Nat := 2; x ≠ src) := by
  refine ⟨?_, ?_, ?_⟩
  all_goals decide +kernel


/-- Premises of MarksAreReadBack, clause by clause. -/
theorem premises_MarksAreReadBack :
  (let m : Mark := {}; m.wf = true)   := by
  decide +kernel


/-- Premises of MemoriesHoldWhatIsWritten, clause by clause. -/
theorem premises_MemoriesHoldWhatIsWritten :
  (let m : Mem := []; mapWf 0 m = true) ∧
  (let m : Mem := []; mapWf 0 m = true ∧ let a : Nat := 0; let bs : List Byte := []; let x : Nat := 0;
    (x < a ∨ a + bs.length ≤ x)) := by
  refine ⟨?_, ?_⟩
  all_goals decide +kernel

end Sys2Proof
end

