-- ==== Sys2Proof/Proofs/Snapshot.lean ====
section
/-! TSU_SNAP (spec/02 R61): what its write does for each value of the snap bit, and the command that makes it. -/

namespace Sys2Proof.Machine

/-- Both snapshot registers are taken from the one state that the write meets. -/
theorem tsuSnap_of_set {d : Nat} (h : bitOf d 0 = true) (s : State) :
    State.tsuSnap d s = ({ s with tsu := { s.tsu with snapTick := s.tsu.tick, snapTod := s.tsu.todNs } }, true) := by
  simp only [State.tsuSnap, eff, h, if_true, State.withTsu]

theorem tsuSnap_of_clear {d : Nat} (h : bitOf d 0 = false) (s : State) : State.tsuSnap d s = (s, true) := by
  simp only [State.tsuSnap, eff, h, Bool.false_eq_true, if_false]

/-- A word that fits in 32 bits is written to TSU_SNAP as it is. -/
theorem exec_tsuSnap (m : Master) {d : Nat} (hd : d < 2 ^ 32) (s : State) :
    exec (.tsuSnap m d) s = runMain (fun t => t.access m 0x10030 4 d (State.tsuSnap d)) s := by
  show execTsuSnap m d s = _
  rw [execTsuSnap, Nat.mod_eq_of_lt hd]

/-- Settles O56: the write reaches TSU_SNAP and asks for nothing further, so the command ends in what its effect leaves,
journalled where firmware made it (`run_write`), for either value of the snap bit. -/
theorem snapshotsAreOneTick : Obligations.SnapshotsAreOneTick := by
  intro s m d hheld hd hw
  rw [exec_tsuSnap m hd]
  refine ⟨fun hsnap => ?_, fun hsnap => ?_⟩
  · have hheld' : State.banksHeld
        { s.begun with tsu := { s.tsu with snapTick := s.tsu.tick, snapTod := s.tsu.todNs } } :=
      banksHeld_of hheld rfl rfl
    exact run_write hw hheld' (tsuSnap_of_set hsnap s.begun) rfl rfl rfl rfl rfl rfl
  · have hheld' : s.begun.banksHeld := (begun_banksHeld s).2 hheld
    exact run_write hw hheld' (tsuSnap_of_clear hsnap s.begun) rfl rfl rfl rfl rfl rfl

end Sys2Proof.Machine
end

section
/-! What the Plumb keeps of an event (spec/19 R580, R581, R584): its captures, its pending bits, its histories, the error
pin and the resets asked for, each as one equation; and the write to FLT_INJECT (spec/19 R590), which raises one. -/

namespace Sys2Proof.Machine

/-! ### The write to FLT_INJECT -/

theorem faultInject_of_open {d : Nat} {s : State} (hft : s.tap.ftMode = true) (hsrc : Reg.srcDefined (bitsOf d 0 10) = true) :
    State.faultInject d s = ((s.count (fltCounter 5) 1).raise (bitsOf d 0 10) (s.word Reg.fltInjectDetail []) none
      { master := 6 * 65536 }, true) := by
  simp only [State.faultInject, hft, hsrc, Bool.and_self, if_true]
  rfl

theorem faultInject_of_refused {d : Nat} {s : State} (h : s.tap.ftMode = false ∨ Reg.srcDefined (bitsOf d 0 10) = false) :
    State.faultInject d s = ((s.count (fltCounter 6) 1).raise 483 0, false) := by
  have hno : (s.tap.ftMode && Reg.srcDefined (bitsOf d 0 10)) = false := by
    rcases h with h | h
    · rw [h, Bool.false_and]
    · rw [h, Bool.and_false]
  simp only [State.faultInject, hno, Bool.false_eq_true, if_false]

/-- A 32-bit write that reaches FLT_INJECT ends in the effect of the injection, journalled where the effect is not an ignored
write. -/
theorem exec_faultInject {s : State} {m : Master} {d : Nat} (hd : d < 2 ^ 32) (hw : s.reaches m (blockBase 19 + 0x3010)) :
    exec (.faultInject m d) s = .next (s.close
      (if (State.faultInject d s.begun).2 then m.logged (blockBase 19 + 0x3010) 4 d (State.faultInject d s.begun).1
        else (State.faultInject d s.begun).1)) := by
  show execFaultInject m d s = _
  rw [execFaultInject, Nat.mod_eq_of_lt hd, runMain_on hw.1, run, access_reaches ((begun_reaches s m _).2 hw)]

/-- Settles O57: the write reaches FLT_INJECT (`exec_faultInject`), and what it does there turns on factory test mode and on
the source alone. -/
theorem injectionsAreEvents : Obligations.InjectionsAreEvents := by
  intro s m d hd hw
  refine ⟨fun hft hsrc => ?_, fun hno => ?_⟩
  · have hinj := faultInject_of_open (s := s.begun) hft hsrc
    rw [exec_faultInject hd hw.1, hinj]
    rfl
  · have hinj := faultInject_of_refused (s := s.begun) hno
    rw [exec_faultInject hd hw.1, hinj]
    rfl

/-! ### Who is told of an event -/

/-- The Plumb of `t` is that of `s` but for what waits to be told: the holder's interrupts and traps, and the manager's
message (spec/19 R585). -/
def ToldFrame (s t : State) : Prop := t.flt = { s.flt with waiting := t.flt.waiting, mgrHeld := t.flt.mgrHeld }

theorem ToldFrame.of_eq {s t : State} (h : t.flt = s.flt) : ToldFrame s t := by
  rw [ToldFrame, h]

theorem ToldFrame.trans {s u t : State} (h : ToldFrame s u) (k : ToldFrame u t) : ToldFrame s t :=
  calc t.flt = { u.flt with waiting := t.flt.waiting, mgrHeld := t.flt.mgrHeld } := k
    _ = { s.flt with waiting := t.flt.waiting, mgrHeld := t.flt.mgrHeld } := by rw [h]

theorem ToldFrame.ite {s a b : State} (c : Prop) [Decidable c] (ha : ToldFrame s a) (hb : ToldFrame s b) :
    ToldFrame s (if c then a else b) := by
  split
  · exact ha
  · exact hb

theorem ToldFrame.toKeystone {r : State → Nat → Nat → State} {s : State} (h : s.roomy 1) (src : Nat) (trap : Bool) :
    ToldFrame s (s.toKeystone (fun t a => t.countWith r a 1) src trap) := by
  have hcount : ToldFrame s (s.countWith r (fltCounter 4) 1) := by
    rw [countWith_quiet (h 4 (by omega))]
    exact .of_eq rfl
  have htrap : ToldFrame s ((s.countWith r (fltCounter 4) 1).send (.ksTrap src)) := hcount.trans (.of_eq rfl)
  have hsent : ToldFrame s (s.send (.ksInterrupt src)) := .of_eq rfl
  exact .ite _ (.ite _ htrap hsent) (.ite _ rfl rfl)

theorem ToldFrame.toManager (s : State) : ToldFrame s s.toManager :=
  .ite _ rfl (.of_eq (fire_pend s _ _))

theorem roomy_of_le {s : State} {j k : Nat} (h : s.roomy k) (hjk : j ≤ k) : s.roomy j := fun i hi => by
  have := h i hi
  omega

theorem roomy_of_counters {s t : State} {k : Nat} (h : s.roomy k) (hc : t.counters = s.counters) : t.roomy k := by
  rw [State.roomy, hc]
  exact h

/-- The interrupt and the trap of one event each count at most once. -/
theorem ToldFrame.tellEvent {r : State → Nat → Nat → State} {s : State} (h : s.roomy 2) (src lvl : Nat) (was : Bool) :
    ToldFrame s (State.tellEvent (fun t a => t.countWith r a 1) s src lvl was) := by
  have interrupt : ∀ c : Prop, [Decidable c] →
      ToldFrame s (if c then s.toKeystone (fun t a => t.countWith r a 1) src false else s)
        ∧ (if c then s.toKeystone (fun t a => t.countWith r a 1) src false else s).roomy 1 := by
    intro c _
    split
    · exact ⟨.toKeystone (roomy_of_le h (by omega)) src false, (roomy_toKeystone h src false).1⟩
    · exact ⟨.of_eq rfl, roomy_of_le h (by omega)⟩
  have message : ∀ (u : State) (c : Bool), u.roomy 1 →
      ToldFrame u (if c then u.toManager else u) ∧ (if c then u.toManager else u).roomy 1 := by
    intro u c hu
    split
    · exact ⟨.toManager u, roomy_of_counters hu (toManager_due u).2⟩
    · exact ⟨.of_eq rfl, hu⟩
  have trap : ∀ u : State, u.roomy 1 →
      ToldFrame u (if 2 ≤ lvl then u.toKeystone (fun t a => t.countWith r a 1) src true else u) :=
    fun u hu => .ite _ (.toKeystone hu src true) (.of_eq rfl)
  obtain ⟨frame1, room1⟩ := interrupt (s.bit Reg.fltSrcCfg [src] 3 = true)
  exact (frame1.trans (message _ _ room1).1).trans (trap _ (message _ _ room1).2)

/-! ### What an event asks for -/

theorem askEvent_flt (s : State) (src lvl : Nat) :
    (s.askEvent src lvl).flt = if 4 ≤ lvl then { s.flt with errpin := true, errSrc := src } else s.flt := by
  simp only [State.askEvent, apply_ite State.flt, ite_self]

theorem askEvent_due (s : State) (src lvl : Nat) :
    (s.askEvent src lvl).due = s.due
      ++ (if 3 ≤ lvl then [(if chipBlock (srcBlock src) then 21 else srcBlock src, src)] else [])
      ++ (if 5 ≤ lvl then [(21, src)] else []) := by
  simp only [State.askEvent, apply_ite State.due, ite_self]
  by_cases h3 : 3 ≤ lvl <;> by_cases h5 : 5 ≤ lvl <;> simp only [h3, h5, if_true, if_false, List.append_nil]

theorem ToldFrame.askEvent {s t : State} (h : ToldFrame s t) (src lvl : Nat) :
    ToldFrame (s.askEvent src lvl) (t.askEvent src lvl) := by
  rw [ToldFrame] at h ⊢
  rw [askEvent_flt, askEvent_flt, h]
  split <;> rfl

/-! ### The record of an event -/

/-- A counter of the Plumb that lies below the middle of its range counts, and nothing else changes. -/
theorem roomy_count_eq {r : State → Nat → Nat → State} {s : State} {k j : Nat} (h : s.roomy (k + 1)) (hj : j < 5) :
    ∃ c, s.countWith r (fltCounter j) 1 = { s with counters := c } ∧ State.roomy { s with counters := c } k := by
  have heq : s.countWith r (fltCounter j) 1 = _ := countWith_quiet (by have := h j hj; omega)
  exact ⟨_, heq, heq ▸ (roomy_count (r := r) h hj).1⟩

theorem countEvent_quiet {r : State → Nat → Nat → State} {s : State} {k : Nat} (h : s.roomy (k + 2)) (esc : Bool) :
    ∃ c, State.countEvent (fun t a => t.countWith r a 1) s esc = { s with counters := c }
      ∧ State.roomy { s with counters := c } k := by
  obtain ⟨c, hc, hroom⟩ := roomy_count_eq (r := r) (k := k + 1) h (show 0 < 5 by decide)
  rw [State.countEvent, hc]
  cases esc with
  | false => exact ⟨c, rfl, roomy_of_le hroom (by omega)⟩
  | true =>
    obtain ⟨c', hc', hroom'⟩ := roomy_count_eq (r := r) hroom (show 1 < 5 by decide)
    exact ⟨c', hc', hroom'⟩

/-- An event's level is above the one that its source is set to (spec/19 R584). -/
def State.eventEscalated (s : State) (src : Nat) : Bool := decide (s.eventLevel src ≠ s.fld Reg.fltSrcCfg [src] 0 3)

/-- `s` with the record of an event and what it asks for, and with nobody told of it (spec/19 R581). -/
def State.recorded (s : State) (src d : Nat) (acc : Acc) : State :=
  ((s.noteEvent src d acc).pushHistory src (s.eventLevel src) (s.eventEscalated src) d).askEvent src (s.eventLevel src)

/-- Counting an event and telling of it leave its record as it is, where no counter of the Plumb turns (spec/19 R588). -/
theorem raise_recorded {s : State} (hr : s.released = true) (hroom : s.roomy 8) (src d : Nat) (who : Option Nat) (acc : Acc) :
    ToldFrame (s.recorded src d acc) (s.raise src d who acc)
      ∧ (s.raise src d who acc).due = (s.recorded src d acc).due := by
  have hnote : (s.noteEvent src d acc).roomy (3 + 2) := roomy_of_le (roomy_of_counters hroom rfl) (by omega)
  unfold State.raise State.raiseF
  rw [if_neg (by rw [hr]; decide)]
  dsimp only
  obtain ⟨c, hc, hk⟩ := countEvent_quiet (r := fun u x d => State.raiseF 3 u x d none {}) hnote (s.eventEscalated src)
  unfold State.eventEscalated at hc
  rw [hc]
  generalize hu : State.pushHistory _ src (s.eventLevel src) _ d = u
  have huroom : u.roomy 3 := by rw [← hu]; exact hk
  have hpushed : ToldFrame ((s.noteEvent src d acc).pushHistory src (s.eventLevel src) (s.eventEscalated src) d) u := by
    rw [← hu]; exact .of_eq rfl
  have hudue : u.due = s.due := by rw [← hu]; rfl
  refine ⟨?_, ?_⟩
  · have htold := ToldFrame.tellEvent (r := fun u x d => State.raiseF 3 u x d none {}) (roomy_of_le huroom (by omega : 2 ≤ 3))
      src (s.eventLevel src) (bitOf (mapGet 0 s.flt.pend (src / 32)) (src % 32))
    exact ((hpushed.trans htold).askEvent src (s.eventLevel src)).trans (.of_eq (faultNotice_pend _ src who))
  · rw [faultNotice_due, askEvent_due, tellEvent_due huroom, hudue, State.recorded, askEvent_due]
    rfl

theorem recorded_flt (s : State) (src d : Nat) (acc : Acc) :
    (s.recorded src d acc).flt.caps = s.flt.caps.set (Reg.srcClass src) (s.captureAfter src d acc)
      ∧ (s.recorded src d acc).flt.pend = (s.noteEvent src d acc).flt.pend
      ∧ (s.recorded src d acc).flt.hist =
          (s.pushHistory src (s.eventLevel src) (s.eventEscalated src) d).flt.hist
      ∧ (s.recorded src d acc).flt.errpin = (s.flt.errpin || decide (4 ≤ s.eventLevel src)) := by
  unfold State.recorded
  rw [askEvent_flt]
  by_cases h : 4 ≤ s.eventLevel src
  · rw [if_pos h, decide_eq_true h, Bool.or_true]
    exact ⟨rfl, rfl, rfl, rfl⟩
  · rw [if_neg h, decide_eq_false h, Bool.or_false]
    exact ⟨rfl, rfl, rfl, rfl⟩

theorem raise_flt {s : State} (hr : s.released = true) (hroom : s.roomy 8) (src d : Nat) (who : Option Nat) (acc : Acc) :
    (s.raise src d who acc).flt.caps = s.flt.caps.set (Reg.srcClass src) (s.captureAfter src d acc)
      ∧ (s.raise src d who acc).flt.pend = (s.noteEvent src d acc).flt.pend
      ∧ (s.raise src d who acc).flt.hist =
          (s.pushHistory src (s.eventLevel src) (s.eventEscalated src) d).flt.hist
      ∧ (s.raise src d who acc).flt.errpin = (s.flt.errpin || decide (4 ≤ s.eventLevel src)) := by
  have hflt := (raise_recorded hr hroom src d who acc).1
  obtain ⟨hcaps, hpend, hhist, hpin⟩ := recorded_flt s src d acc
  exact ⟨(congrArg Flt.caps hflt).trans hcaps, (congrArg Flt.pend hflt).trans hpend, (congrArg Flt.hist hflt).trans hhist,
    (congrArg Flt.errpin hflt).trans hpin⟩

/-! ### The fields of the record -/

theorem srcClass_lt (src : Nat) : Reg.srcClass src < 4 := by
  unfold Reg.srcClass
  split
  · decide
  · split
    · decide
    · split <;> decide

/-- The first event of a class is captured with a count of 1, and a later one only counts, up to 7 (spec/19 R581). -/
theorem captureAfter_eq (s : State) (src d : Nat) (acc : Acc) :
    let c := s.flt.caps.getD (Reg.srcClass src) {}
    s.captureAfter src d acc =
      if c.valid then { c with count := if c.count < 7 then c.count + 1 else c.count }
      else { valid := true, src := src, level := s.eventLevel src, count := 1, addr := acc.addr, master := acc.master
             access := acc.access, tick := s.now, detail := d % 2 ^ 32 } := by
  unfold State.captureAfter
  generalize s.flt.caps.getD (Reg.srcClass src) {} = c
  dsimp only
  by_cases hv : c.valid = true
  · rw [if_pos hv, if_pos hv]
    split <;> rfl
  · rw [if_neg hv, if_neg hv]
    rfl

/-- Setting a bit leaves every other bit. -/
theorem bitOf_putBit_ne (v : Nat) {i j : Nat} (h : j ≠ i) (b : Bool) : bitOf (putBit v i b) j = bitOf v j := by
  have hsplit : putBit v i b = 2 ^ i * (2 * (v / 2 ^ (i + 1)) + b2n b % 2) + v % 2 ^ i := by
    unfold putBit putBits
    rw [pow_one, pow_succ]
    ring
  have hlow : v % 2 ^ i < 2 ^ i := Nat.mod_lt _ (Nat.two_pow_pos i)
  unfold bitOf
  rw [hsplit, Nat.testBit_two_pow_mul_add _ hlow]
  split
  · rename_i hji
    rw [Nat.testBit_mod_two_pow, decide_eq_true hji, Bool.true_and]
  · obtain ⟨n, hn⟩ : ∃ n, j - i = n + 1 := ⟨j - i - 1, by omega⟩
    have hhalf : (2 * (v / 2 ^ (i + 1)) + b2n b % 2) / 2 = v / 2 ^ (i + 1) := by omega
    rw [hn, Nat.testBit_succ, hhalf, Nat.testBit_div_two_pow, show n + (i + 1) = j by omega]

theorem noteEvent_pending_ne (s : State) {src x : Nat} (h : x ≠ src) (d : Nat) (acc : Acc) :
    (s.noteEvent src d acc).eventPending x = s.eventPending x := by
  show bitOf (mapGet 0 (mapSet 0 s.flt.pend (src / 32) (putBit (mapGet 0 s.flt.pend (src / 32)) (src % 32) true)) (x / 32))
    (x % 32) = bitOf (mapGet 0 s.flt.pend (x / 32)) (x % 32)
  by_cases hg : x / 32 = src / 32
  · rw [hg, mapGet_mapSet_self, bitOf_putBit_ne _ (by omega)]
  · rw [mapGet_mapSet_ne _ _ _ hg]

theorem eventPending_of_pend {s t : State} (h : t.flt.pend = s.flt.pend) (x : Nat) : t.eventPending x = s.eventPending x := by
  rw [State.eventPending, h]
  rfl

/-- The queue of the source's block takes the event as its newest entry (spec/19 R584). -/
theorem pushHistory_hist (s : State) (src lvl : Nat) (esc : Bool) (d : Nat) :
    let h := mapGet {} s.flt.hist (srcBlock src)
    let h' := mapGet {} (s.pushHistory src lvl esc d).flt.hist (srcBlock src)
    h'.pushes = h.pushes + 1 ∧ mapGet none h'.entries (h.pushes % 8) =
      some { src, cls := Reg.srcClass src, level := lvl, escalated := esc, seq := (h.pushes + 1) % 65536
             detail := d % 2 ^ 32, tick := s.now } := by
  simp only [State.pushHistory, mapGet_mapSet_self]
  exact ⟨trivial, trivial⟩

/-- Settles O58: the Plumb's record is the one that `noteEvent`, `pushHistory` and `askEvent` make (`raise_flt`,
`raise_recorded`), since counting the event and telling of it touch no part of it. -/
theorem eventsAreRecorded : Obligations.EventsAreRecorded := by
  intro s src d who acc hr _ hlen hroom t k cap n cfg lvl
  obtain ⟨hcaps, hpend, hhist, hpin⟩ := raise_flt hr hroom src d who acc
  have hdue := (raise_recorded hr hroom src d who acc).2
  refine ⟨?capture, ?otherCaptures, raise_pending hr src d who acc, ?otherPending, ?history, ?resets, hpin⟩
  case capture =>
    have hk : Reg.srcClass src < s.flt.caps.length := hlen ▸ srcClass_lt src
    have hset : t.flt.caps.getD k {} = s.captureAfter src d acc := by
      rw [hcaps, List.getD_eq_getElem?_getD, List.getElem?_set_self hk, Option.getD_some]
    exact hset.trans (captureAfter_eq s src d acc)
  case otherCaptures =>
    intro j hj
    rw [hcaps, List.getD_eq_getElem?_getD, List.getElem?_set_ne (Ne.symm hj), ← List.getD_eq_getElem?_getD]
  case otherPending =>
    intro x hx
    exact (eventPending_of_pend hpend x).trans (noteEvent_pending_ne s hx d acc)
  case history =>
    show let h := mapGet {} s.flt.hist (srcBlock src); let h' := mapGet {} (s.raise src d who acc).flt.hist (srcBlock src); _
    rw [hhist]
    exact pushHistory_hist s src lvl (s.eventEscalated src) d
  case resets => exact hdue.trans (askEvent_due _ src lvl)

end Sys2Proof.Machine
end

