-- ==== Sys2Proof/Proofs/EveryStep.lean ====
section
/-! What every step and every event keeps (spec/00, spec/12 R365, spec/19 R580-R582). -/

namespace Sys2Proof.Machine

/-! ### Rule banks that have drained -/

/-- Bank `b` does not stand DRAINING with nothing in flight. -/
def State.bankHeld (s : State) (b : Nat) : Prop := (s.bank b).state = .draining → s.inflight (s.bank b).epoch ≠ 0

theorem State.bankHeld_congr {s t : State} (hr : t.rules = s.rules) (hp : t.packets = s.packets) (b : Nat) :
    t.bankHeld b ↔ s.bankHeld b := by
  unfold State.bankHeld State.bank State.inflight
  rw [hr, hp]

/-- A bank written READY reads as a bank that is not DRAINING, also where the list of banks does not reach it. -/
theorem bank_of_setNth_ready (bs : List Bank) (b : Nat) (x : Bank) :
    ((setNth bs b { x with state := .ready }).getD b {}).state ≠ .draining := by
  rw [setNth, List.getD_eq_getElem?_getD, List.getElem?_set_self']
  cases bs[b]? <;> simp

theorem drainBank_packets (s : State) (b : Nat) : (s.drainBank b).packets = s.packets := by
  unfold State.drainBank
  dsimp only
  split
  · exact (EventFrame.raise _ _ _ _ _).packets
  · rfl

/-- Draining a bank leaves it held: either it is free now, or it was not DRAINING, or Marks are bound to its epoch. -/
theorem drainBank_held (s : State) (b : Nat) : (s.drainBank b).bankHeld b := by
  unfold State.drainBank
  dsimp only
  split
  · have hframe := EventFrame.raise { s.setBank b { s.bank b with state := .ready } with
      rules := { (s.setBank b { s.bank b with state := .ready }).rules with freeTick := s.now } } 196 b none {}
    rw [State.bankHeld_congr hframe.rules hframe.packets]
    exact fun hdraining => absurd hdraining (bank_of_setNth_ready s.rules.banks b (s.bank b))
  · rename_i hkept
    intro hdraining hnone
    exact hkept (by rw [hdraining, hnone]; rfl)

/-- Draining one bank leaves the other as it was. -/
theorem drainBank_held_ne {s : State} {b c : Nat} (hne : b ≠ c) (h : s.bankHeld c) : (s.drainBank b).bankHeld c := by
  unfold State.drainBank
  dsimp only
  split
  · have hframe := EventFrame.raise { s.setBank b { s.bank b with state := .ready } with
      rules := { (s.setBank b { s.bank b with state := .ready }).rules with freeTick := s.now } } 196 b none {}
    rw [State.bankHeld_congr hframe.rules hframe.packets]
    have hbank : (s.setBank b { s.bank b with state := .ready }).bank c = s.bank c := by
      simp only [State.bank, State.setBank, setNth, List.getD_eq_getElem?_getD, List.getElem?_set_ne hne]
    show ((s.setBank b { s.bank b with state := .ready }).bank c).state = .draining →
      s.inflight ((s.setBank b { s.bank b with state := .ready }).bank c).epoch ≠ 0
    rw [hbank]
    exact h
  · exact h

theorem drainBanks_held (s : State) : s.drainBanks.banksHeld := by
  intro b hb
  obtain rfl | rfl : b = 0 ∨ b = 1 := by omega
  · exact drainBank_held_ne (by omega) (drainBank_held s 0)
  · exact drainBank_held (s.drainBank 0) 1

/-- However many rounds of resets the end of a command takes, its last act is to free the banks that have drained. -/
theorem settleF_held (n : Nat) (s : State) : (s.settleF n).banksHeld := by
  induction n generalizing s with
  | zero => exact drainBanks_held s
  | succ n ih =>
    unfold State.settleF
    dsimp only
    split
    · exact drainBanks_held s
    · exact ih _

theorem ended_held (s u : State) : (s.ended u).banksHeld := by
  have hlinks : u.settle.wakeLinks = u.settle.linksOn u.settle.wakeLinks := LinkFrame.wakeLinks u.settle
  have hsettled : u.settle.banksHeld := settleF_held 64 u
  have hrules : u.settle.wakeLinks.rules = u.settle.rules := hlinks ▸ rfl
  have hpackets : u.settle.wakeLinks.packets = u.settle.packets := hlinks ▸ rfl
  exact banksHeld_of hsettled hrules hpackets

theorem close_held (s u : State) : (s.close u).banksHeld := banksHeld_of (ended_held s u) rfl rfl

/-- The end of every command leaves the banks held, whatever its effect. -/
theorem ends_held {s t : State} {o : Host.Outcome State Fault Refusal} (h : Ends s o) (ht : o = .next t) : t.banksHeld := by
  subst ht
  rcases h with ⟨f, hrun⟩ | hfuse
  · obtain rfl : t = s.close (f s.begun) := Host.Outcome.next.inj hrun
    exact close_held _ _
  · obtain rfl := Host.Outcome.next.inj hfuse
    exact ended_held _ _

theorem step_of_pending {s : State} {c : Instr} {cs : List Instr} (h : s.pending = c :: cs) :
    step s = exec c { s with pending := cs } := by
  rw [step, h]

theorem step_of_idle {s : State} (h : s.pending = []) : step s = .next s := by
  rw [step, h]

/-- Settles O3: every command ends in a round of freeing the banks that have drained (`ends_held`); an idle step changes
nothing. -/
theorem drainedBanksAreFreed : Obligations.DrainedBanksAreFreed := by
  intro s t hheld hstep
  cases hp : s.pending with
  | nil =>
    obtain rfl : s = t := Host.Outcome.next.inj ((step_of_idle hp).symm.trans hstep)
    exact hheld
  | cons c cs => exact ends_held (exec_ends c _) ((step_of_pending hp).symm.trans hstep)

/-! ### One step -/

/-- Every command ends in a next state, with the queue it found and nothing left due. -/
theorem ends_next {s : State} {o : Host.Outcome State Fault Refusal} (h : Ends s o) :
    ∃ t, o = .next t ∧ t.pending = s.pending ∧ t.due = [] := by
  rcases h with ⟨f, rfl⟩ | rfl
  · exact ⟨_, rfl, rfl, rfl⟩
  · exact ⟨_, rfl, rfl, rfl⟩

/-- Settles O1: by the two cases of the queue, and by what every command has in common (`exec_ends`). -/
theorem stepTakesTheFront : Obligations.StepTakesTheFront :=
  ⟨fun _ _ => step_of_pending rfl, fun _ hp => step_of_idle hp, fun c s => ends_next (exec_ends c s)⟩

/-- Settles O4: both rule banks are EMPTY at reset, and the fuses are compared with themselves. -/
theorem resetMeetsTheInvariants : Obligations.ResetMeetsTheInvariants := by
  have hbanks : State.reset.banksHeld := by
    intro b hb hdraining
    obtain rfl | rfl : b = 0 ∨ b = 1 := by omega
    · exact absurd hdraining (by decide)
    · exact absurd hdraining (by decide)
  exact ⟨hbanks, ⟨Nat.le_refl _, fun _ hi => hi, rfl⟩, rfl, rfl⟩

/-! ### Events -/

/-- Settles O5: an event changes only what `EventFrame` names, leaves its pending bit and every other set, and below
BLOCK_RESET asks for nothing. -/
theorem eventsStayInside : Obligations.EventsStayInside := by
  intro s src d who acc
  exact ⟨EventFrame.raise s src d who acc,
    fun hreleased => ⟨raise_pending hreleased src d who acc, raise_pendKept s src d who acc⟩,
    fun hmild => raise_due hmild d who acc⟩

end Sys2Proof.Machine
end

