-- ==== Sys2Proof/Proofs/Encodings.lean ====
section
/-! A Mark read back from its bits and bytes (spec/01 R12, R13), and the byte-addressed memories. -/

namespace Sys2Proof.Machine

/-! ### Packed fields -/

/-- The width of a list of packed fields. -/
def fieldsWidth (fs : List (Nat × Nat)) : Nat := (fs.map Prod.fst).sum

theorem packFields_lt (fs : List (Nat × Nat)) : packFields fs < 2 ^ fieldsWidth fs := by
  induction fs with
  | nil => exact Nat.one_pos
  | cons p fs ih =>
    obtain ⟨w, v⟩ := p
    have hv : v % 2 ^ w < 2 ^ w := Nat.mod_lt _ (Nat.two_pow_pos w)
    have hw : fieldsWidth ((w, v) :: fs) = w + fieldsWidth fs := List.sum_cons
    rw [hw, pow_add]
    calc packFields ((w, v) :: fs) = v % 2 ^ w + 2 ^ w * packFields fs := rfl
      _ < 2 ^ w * (packFields fs + 1) := by rw [Nat.mul_succ]; omega
      _ ≤ 2 ^ w * 2 ^ fieldsWidth fs := Nat.mul_le_mul_left _ ih

/-- The fields above the first are found its width further up. -/
theorem packFields_div (w v : Nat) (fs : List (Nat × Nat)) : packFields ((w, v) :: fs) / 2 ^ w = packFields fs := by
  have hv : v % 2 ^ w < 2 ^ w := Nat.mod_lt _ (Nat.two_pow_pos w)
  rw [packFields, Nat.add_mul_div_left _ _ (Nat.two_pow_pos w), Nat.div_eq_of_lt hv, Nat.zero_add]

/-- Field `k` is read back at the width of the fields below it, cut to its own width. -/
theorem bitsOf_packFields {fs : List (Nat × Nat)} {k w v : Nat} (h : fs[k]? = some (w, v)) :
    bitsOf (packFields fs) (fieldsWidth (fs.take k)) w = v % 2 ^ w := by
  induction fs generalizing k with
  | nil => simp at h
  | cons p fs ih =>
    cases k with
    | zero =>
      obtain rfl : p = (w, v) := by simpa using h
      show packFields ((w, v) :: fs) / 2 ^ 0 % 2 ^ w = v % 2 ^ w
      rw [pow_zero, Nat.div_one, packFields, Nat.add_mul_mod_self_left, Nat.mod_mod]
    | succ k =>
      obtain ⟨w', v'⟩ := p
      have hbelow : fieldsWidth (((w', v') :: fs).take (k + 1)) = w' + fieldsWidth (fs.take k) := List.sum_cons
      rw [hbelow, bitsOf, pow_add, ← Nat.div_div_eq_div_mul, packFields_div]
      exact ih (by simpa using h)

/-- Fields that follow a list of fields are found its width further up. -/
theorem bitsOf_packFields_append (fs gs : List (Nat × Nat)) (lo w : Nat) :
    bitsOf (packFields (fs ++ gs)) (fieldsWidth fs + lo) w = bitsOf (packFields gs) lo w := by
  induction fs with
  | nil => rw [List.nil_append, show fieldsWidth [] = 0 from rfl, Nat.zero_add]
  | cons p fs ih =>
    obtain ⟨w', v'⟩ := p
    have hwidth : fieldsWidth ((w', v') :: fs) = w' + fieldsWidth fs := List.sum_cons
    rw [hwidth, Nat.add_assoc, bitsOf, pow_add, ← Nat.div_div_eq_div_mul, List.cons_append, packFields_div]
    exact ih

/-- Entry `i` of `n` equal fields lies at `i` times their width. -/
theorem bitsOf_packFields_range {n i : Nat} (hi : i < n) (w : Nat) (f : Nat → Nat) (gs : List (Nat × Nat)) :
    bitsOf (packFields ((List.range n).map (fun k => (w, f k)) ++ gs)) (w * i) w = f i % 2 ^ w := by
  have hentry : ((List.range n).map (fun k => (w, f k)) ++ gs)[i]? = some (w, f i) := by
    rw [List.getElem?_append_left (by simpa using hi)]
    simp [hi]
  have hbelow : fieldsWidth (((List.range n).map (fun k => (w, f k)) ++ gs).take i) = w * i := by
    rw [List.take_append_of_le_length (by simpa using hi.le), ← List.map_take, List.take_range, Nat.min_eq_left hi.le]
    simp [fieldsWidth, Function.comp_def, Nat.mul_comm]
  exact hbelow ▸ bitsOf_packFields hentry

theorem leBytes_toLe (n v : Nat) : leBytes (toLe n v) = v % 256 ^ n := by
  induction n generalizing v with
  | zero => simp [toLe, leBytes, Nat.mod_one]
  | succ n ih =>
    have hlow : (BitVec.ofNat 8 v).toNat = v % 256 := BitVec.toNat_ofNat v 8
    rw [toLe, leBytes, ih, hlow, pow_succ', Nat.mod_mul]

/-! ### Flags and activities -/

theorem bitOf_natOfBits (bs : List Bool) (i : Nat) : bitOf (natOfBits bs) i = bs.getD i false := by
  induction bs generalizing i with
  | nil => simp [natOfBits, bitOf]
  | cons b bs ih =>
    have hlow : natOfBits (b :: bs) = Nat.bit b (natOfBits bs) := by
      cases b <;> simp [natOfBits, b2n, Nat.bit_val, Nat.add_comm]
    cases i with
    | zero => rw [hlow, bitOf, Nat.testBit_bit_zero]; rfl
    | succ i => rw [hlow, bitOf, Nat.testBit_bit_succ]; exact ih i

theorem natOfBits_lt (bs : List Bool) : natOfBits bs < 2 ^ bs.length := by
  induction bs with
  | nil => exact Nat.one_pos
  | cons b bs ih =>
    have hb : b2n b ≤ 1 := by cases b <;> decide
    rw [natOfBits, List.length_cons, pow_succ]
    omega

theorem Flags.ofNat_toNat (f : Flags) : Flags.ofNat (f.toNat % 2 ^ 32) = f := by
  have hfit : f.toNat < 2 ^ 32 := (natOfBits_lt f.bits).trans (by decide : 2 ^ 21 < 2 ^ 32)
  rw [Nat.mod_eq_of_lt hfit]
  simp only [Flags.ofNat, Flags.toNat, bitOf_natOfBits]
  rfl

theorem Act.ofVal_val (a : Act) : Act.ofVal (a.val % 2 ^ 3) = a := by cases a <;> rfl

/-! ### Headers -/

/-- The fixed fields of a Mark's layout, from bit 0 upwards (spec/01 R13). -/
def Mark.fixedFields (m : Mark) : List (Nat × Nat) :=
  [(4, m.ver), (3, m.act.val), (2, m.course), (2, m.pass), (2, m.colour), (3, m.entAct.val),
    (8, m.epoch), (8, m.cls), (8, m.srcPort), (8, m.dstPort), (16, m.queue), (32, m.flags.toNat),
    (12, m.inst), (12, m.gen), (8, m.reason), (32, m.hash), (32, m.flow), (32, m.ts), (16, m.len),
    (24, m.sa), (24, m.user)]

/-- The widths of the fixed fields (spec/01 R13). -/
def fixedWidths : List Nat := [4, 3, 2, 2, 2, 3, 8, 8, 8, 8, 16, 32, 12, 12, 8, 32, 32, 32, 16, 24, 24]

theorem Mark.fixedFields_widths (m : Mark) (k : Nat) :
    fieldsWidth (m.fixedFields.take k) = (fixedWidths.take k).sum := by
  rw [fieldsWidth, List.map_take]
  rfl

theorem Mark.fixedFields_width (m : Mark) : fieldsWidth m.fixedFields = 288 :=
  (m.fixedFields_widths 21).trans (by decide)

/-- The places of a Mark's headers in its layout (spec/01 R13). -/
def Mark.hdrFields (m : Mark) : List (Nat × Nat) :=
  (List.range 16).map (fun i => (8, (m.hdr i).off)) ++ ((List.range 16).map (fun i => (6, (m.hdr i).typ)) ++ [])

theorem Mark.toBits_eq (m : Mark) : m.toBits = packFields (m.fixedFields ++ m.hdrFields) := by
  rw [Mark.hdrFields, List.append_nil, ← List.append_assoc]
  rfl

/-- Fixed field `k`, which begins at bit `lo`. -/
theorem Mark.field {m : Mark} (k : Nat) {lo w v : Nat} (h : m.fixedFields[k]? = some (w, v))
    (hlo : (fixedWidths.take k).sum = lo) : bitsOf m.toBits lo w = v % 2 ^ w := by
  have hk : k < m.fixedFields.length := (List.getElem?_eq_some_iff.1 h).1
  rw [m.toBits_eq, ← hlo, ← m.fixedFields_widths k, ← List.take_append_of_le_length (l₂ := m.hdrFields) hk.le]
  exact bitsOf_packFields ((List.getElem?_append_left hk).trans h)

/-- As `Mark.field`, for a value that fits. -/
theorem Mark.field_fits {m : Mark} (k : Nat) {lo w v : Nat} (h : m.fixedFields[k]? = some (w, v))
    (hlo : (fixedWidths.take k).sum = lo) (hv : v < 2 ^ w) : bitsOf m.toBits lo w = v :=
  (Mark.field k h hlo).trans (Nat.mod_eq_of_lt hv)

theorem Mark.hdrOff_toBits (m : Mark) {i : Nat} (hi : i < 16) :
    bitsOf m.toBits (288 + 8 * i) 8 = (m.hdr i).off % 2 ^ 8 := by
  rw [m.toBits_eq, ← m.fixedFields_width, bitsOf_packFields_append]
  exact bitsOf_packFields_range hi 8 (fun k => (m.hdr k).off) _

theorem Mark.hdrTyp_toBits (m : Mark) {i : Nat} (hi : i < 16) :
    bitsOf m.toBits (416 + 6 * i) 6 = (m.hdr i).typ % 2 ^ 6 := by
  have hoffs : fieldsWidth ((List.range 16).map (fun i => (8, (m.hdr i).off))) = 128 := by
    simp [fieldsWidth, Function.comp_def]
  rw [m.toBits_eq, show 416 + 6 * i = 288 + (128 + 6 * i) by omega, ← m.fixedFields_width,
    bitsOf_packFields_append, ← hoffs, Mark.hdrFields, bitsOf_packFields_append]
  exact bitsOf_packFields_range hi 6 (fun k => (m.hdr k).typ) []

/-- The headers of a Mark fit their entries (spec/01 R14). -/
def Mark.hdrsFit (m : Mark) : Prop :=
  m.hdrs.length ≤ 16 ∧ ∀ h ∈ m.hdrs, h.off < 2 ^ 8 ∧ 0 < h.typ ∧ h.typ < 2 ^ 6

/-- Read from entry `i`, the headers are those from index `i` on: an entry of type 0 ends them (spec/01 R14). -/
theorem hdrsOf_toBits {m : Mark} (hfit : m.hdrsFit) (n i : Nat) (hn : i + n = 16) :
    hdrsOf m.toBits n i = m.hdrs.drop i := by
  obtain ⟨hlen, hall⟩ := hfit
  induction n generalizing i with
  | zero => rw [hdrsOf, List.drop_of_length_le (by omega)]
  | succ n ih =>
    rw [hdrsOf, m.hdrTyp_toBits (by omega), m.hdrOff_toBits (by omega)]
    by_cases hi : i < m.hdrs.length
    · have hhdr : m.hdr i = m.hdrs[i] := by
        rw [Mark.hdr, List.getD_eq_getElem?_getD, List.getElem?_eq_getElem hi, Option.getD_some]
      obtain ⟨hoff, hpos, htyp⟩ := hall _ (List.getElem_mem hi)
      rw [hhdr, Nat.mod_eq_of_lt hoff, Nat.mod_eq_of_lt htyp, if_neg (by omega), ih (i + 1) (by omega),
        List.drop_eq_getElem_cons hi]
    · have hhdr : m.hdr i = {} := by
        rw [Mark.hdr, List.getD_eq_getElem?_getD, List.getElem?_eq_none (by omega), Option.getD_none]
      rw [hhdr, List.drop_of_length_le (by omega), if_pos (Nat.zero_mod _)]

/-! ### Marks -/

/-- A Mark that fits its widths is the Mark of its bits: each field lies where the layout puts it. -/
theorem Mark.ofBits_toBits {m : Mark} (hwf : m.wf = true) : Mark.ofBits m.toBits = m := by
  simp only [Mark.wf, Bool.and_eq_true, decide_eq_true_eq, List.all_eq_true] at hwf
  obtain ⟨⟨⟨⟨⟨⟨⟨⟨⟨⟨⟨⟨⟨⟨⟨⟨⟨⟨⟨hver, hcourse⟩, hpass⟩, hcolour⟩, hepoch⟩, hcls⟩, hsrc⟩, hdst⟩, hqueue⟩, hinst⟩, hgen⟩,
    hreason⟩, hhash⟩, hflow⟩, hts⟩, hlen⟩, hsa⟩, huser⟩, hcount⟩, hhdrs⟩ := hwf
  have hver' : bitsOf m.toBits 0 4 = m.ver := Mark.field_fits 0 rfl (by decide) hver
  have hact' : bitsOf m.toBits 4 3 = m.act.val % 2 ^ 3 := Mark.field 1 rfl (by decide)
  have hcourse' : bitsOf m.toBits 7 2 = m.course := Mark.field_fits 2 rfl (by decide) hcourse
  have hpass' : bitsOf m.toBits 9 2 = m.pass := Mark.field_fits 3 rfl (by decide) hpass
  have hcolour' : bitsOf m.toBits 11 2 = m.colour := Mark.field_fits 4 rfl (by decide) hcolour
  have hent' : bitsOf m.toBits 13 3 = m.entAct.val % 2 ^ 3 := Mark.field 5 rfl (by decide)
  have hepoch' : bitsOf m.toBits 16 8 = m.epoch := Mark.field_fits 6 rfl (by decide) hepoch
  have hcls' : bitsOf m.toBits 24 8 = m.cls := Mark.field_fits 7 rfl (by decide) hcls
  have hsrc' : bitsOf m.toBits 32 8 = m.srcPort := Mark.field_fits 8 rfl (by decide) hsrc
  have hdst' : bitsOf m.toBits 40 8 = m.dstPort := Mark.field_fits 9 rfl (by decide) hdst
  have hqueue' : bitsOf m.toBits 48 16 = m.queue := Mark.field_fits 10 rfl (by decide) hqueue
  have hflags' : bitsOf m.toBits 64 32 = m.flags.toNat % 2 ^ 32 := Mark.field 11 rfl (by decide)
  have hinst' : bitsOf m.toBits 96 12 = m.inst := Mark.field_fits 12 rfl (by decide) hinst
  have hgen' : bitsOf m.toBits 108 12 = m.gen := Mark.field_fits 13 rfl (by decide) hgen
  have hreason' : bitsOf m.toBits 120 8 = m.reason := Mark.field_fits 14 rfl (by decide) hreason
  have hhash' : bitsOf m.toBits 128 32 = m.hash := Mark.field_fits 15 rfl (by decide) hhash
  have hflow' : bitsOf m.toBits 160 32 = m.flow := Mark.field_fits 16 rfl (by decide) hflow
  have hts' : bitsOf m.toBits 192 32 = m.ts := Mark.field_fits 17 rfl (by decide) hts
  have hlen' : bitsOf m.toBits 224 16 = m.len := Mark.field_fits 18 rfl (by decide) hlen
  have hsa' : bitsOf m.toBits 240 24 = m.sa := Mark.field_fits 19 rfl (by decide) hsa
  have huser' : bitsOf m.toBits 264 24 = m.user := Mark.field_fits 20 rfl (by decide) huser
  have hhdrs' : hdrsOf m.toBits 16 0 = m.hdrs :=
    hdrsOf_toBits ⟨hcount, fun h hh => ⟨(hhdrs h hh).1.1, (hhdrs h hh).1.2, (hhdrs h hh).2⟩⟩ 16 0 rfl
  simp only [Mark.ofBits, hver', hact', hcourse', hpass', hcolour', hent', hepoch', hcls', hsrc', hdst', hqueue', hflags',
    hinst', hgen', hreason', hhash', hflow', hts', hlen', hsa', huser', hhdrs', Act.ofVal_val, Flags.ofNat_toNat]

/-- A Mark is 512 bits (spec/01 R12). -/
theorem Mark.toBits_lt (m : Mark) : m.toBits < 256 ^ 64 := by
  have hwidth : fieldsWidth (m.fixedFields ++ m.hdrFields) = 8 * 64 := by
    simp [fieldsWidth, Mark.fixedFields, Mark.hdrFields, Function.comp_def]
  rw [m.toBits_eq, show (256 : Nat) = 2 ^ 8 from rfl, ← pow_mul, ← hwidth]
  exact packFields_lt _

theorem Mark.leBytes_toBytes (m : Mark) : leBytes m.toBytes = m.toBits := by
  rw [Mark.toBytes, leBytes_toLe, Nat.mod_eq_of_lt m.toBits_lt]

/-- Settles O59: the bits give back every field (`Mark.ofBits_toBits`), and the bytes give back the bits. -/
theorem marksAreReadBack : Obligations.MarksAreReadBack := by
  intro m hwf
  exact ⟨Mark.ofBits_toBits hwf, m.leBytes_toBytes.symm ▸ Mark.ofBits_toBits hwf⟩

/-! ### Memories -/

theorem memRead_memWriteBytes_outside (m : Mem) (a : Nat) (bs : List Byte) {x : Nat} (h : x < a ∨ a + bs.length ≤ x) :
    memRead (memWriteBytes m a bs) x = memRead m x := by
  induction bs generalizing m a with
  | nil => rfl
  | cons b bs ih =>
    rw [List.length_cons] at h
    rw [memWriteBytes, ih _ (a + 1) (by omega), memRead_memWrite_ne m b (by omega)]

theorem memReadBytes_succ (m : Mem) (a n : Nat) : memReadBytes m a (n + 1) = memRead m a :: memReadBytes m (a + 1) n := by
  simp only [memReadBytes, List.range_succ_eq_map, List.map_cons, List.map_map, Nat.add_zero]
  congr 2
  funext i
  simp only [Function.comp, Nat.succ_eq_add_one, Nat.add_assoc, Nat.add_comm 1 i]

theorem memReadBytes_memWriteBytes (m : Mem) (a : Nat) (bs : List Byte) :
    memReadBytes (memWriteBytes m a bs) a bs.length = bs := by
  induction bs generalizing m a with
  | nil => rfl
  | cons b bs ih =>
    rw [List.length_cons, memReadBytes_succ, memWriteBytes, ih,
      memRead_memWriteBytes_outside _ _ _ (.inl (Nat.lt_succ_self a)), memRead_memWrite_self]

/-- Settles O60, by induction on the bytes written: a byte is out of reach of the ones written after it. -/
theorem memoriesHoldWhatIsWritten : Obligations.MemoriesHoldWhatIsWritten := fun m a bs hwf =>
  ⟨memReadBytes_memWriteBytes m a bs, fun _ hx => memRead_memWriteBytes_outside m a bs hx, memWriteBytes_wf hwf a bs⟩

end Sys2Proof.Machine
end

