-- ==== Sys2Proof/Proofs/Supply.lean ====
section
/-! The module supply, the reference clocks and module reset (spec/03 R64-R90, spec/04 R111, spec/22 R658, R659). -/

namespace Sys2Proof.Machine

/-! ### Commands that change neither a rule bank nor a packet -/

/-- A command whose effect `u` leaves the rule banks, the packets, the queue and the fuses, asks for nothing and sends
nothing: its end changes nothing more. -/
theorem run_still {f : State → State} {s u : State} (hheld : s.banksHeld) (h : f s.begun = u) (hr : u.rules = s.rules)
    (hp : u.packets = s.packets) (hd : u.due = []) (ho : u.out = []) (hq : u.pending = s.pending) (hf : u.fuses = s.fuses) :
    run f s = .next u :=
  run_quiet h (banksHeld_of hheld hr hp) hd (by rw [ho]; rfl) hq hf

/-- A command whose effect is such a `v` and a mild event. -/
theorem run_reports {f : State → State} {s v : State} {src d : Nat} (hheld : s.banksHeld)
    (h : f s.begun = v.raise src d) (hm : s.mild src) (hreleased : v.released = true) (hr : v.rules = s.rules)
    (hp : v.packets = s.packets) (hd : v.due = []) (hq : v.pending = s.pending) (hf : v.fuses = s.fuses)
    (hregs : v.regs = s.regs) (hcaps : v.flt.caps = s.flt.caps) (hcount : v.counters = s.counters) :
    ∃ t, run f s = .next t ∧ Reported src v t := by
  obtain ⟨t, hrun, hframe, hpend⟩ :=
    run_event h (banksHeld_of hheld hr hp) (mild_of hm hregs hcaps hcount) hd hq hf
  exact ⟨t, hrun, hframe, hpend hreleased⟩

/-- Nothing is recorded before the release point or while a reset is held (spec/04 R111). -/
theorem raise_of_held {s : State} (h : s.released = false) (src d : Nat) (who : Option Nat) (acc : Acc) :
    s.raise src d who acc = s := by
  rw [State.raise, State.raiseF, h]
  rfl

/-! ### VIN and power-up -/

/-- The supply after a new reading of VIN (spec/03 R65, R75, R95). -/
def Supply.withVin (x : Supply) (v : Nat) : Supply :=
  { x with vinCv := v, vinRangeErr := vinOut v, smbAlert := x.smbAlert || (vinOut v && !x.vinRangeErr) }

/-- A reading that leaves VIN's range unreported: it was out of range before, it is in range, or no event is recorded now. -/
theorem setVin_silent {s : State} {v : Nat} (hv : v < 4096)
    (h : s.released = false ∨ vinOut v = false ∨ s.supply.vinRangeErr = true) :
    s.setVin v = { s with supply := s.supply.withVin v } := by
  simp only [State.setVin, Nat.mod_eq_of_lt hv]
  change (if _ then ({ s with supply := s.supply.withVin v } : State).raise 20 0 else
    { s with supply := s.supply.withVin v }) = _
  rcases h with h | h | h
  · split
    · exact raise_of_held (by exact h) ..
    · rfl
  · exact if_neg (by rw [h]; simp)
  · exact if_neg (by rw [h]; simp)

/-- A reading out of range, after one within, is reported (spec/03 R75). -/
theorem setVin_reports {s : State} {v : Nat} (hv : v < 4096) (hout : vinOut v = true) (hin : s.supply.vinRangeErr = false) :
    s.setVin v = { s with supply := s.supply.withVin v }.raise 20 0 := by
  simp only [State.setVin, Nat.mod_eq_of_lt hv]
  exact if_pos (by rw [hout, hin]; decide)

theorem Supply.withVin_out {x : Supply} {v : Nat} (h : vinOut v = true) :
    x.withVin v = { x with vinCv := v, vinRangeErr := true, smbAlert := x.smbAlert || !x.vinRangeErr } := by
  rw [Supply.withVin, h, Bool.true_and]

theorem Supply.withVin_in {x : Supply} {v : Nat} (h : vinOut v = false) :
    x.withVin v = { x with vinCv := v, vinRangeErr := false } := by
  rw [Supply.withVin, h, Bool.false_and, Bool.or_false]

/-- Power-up goes on to power-good, or waits for the clock (spec/03 R68). -/
theorem powerUp_starts {s : State} (hstandby : s.supply.standby = true) (hoff : s.supply.phase = .off)
    (hvin : 440 ≤ s.supply.vinCv) (htrip : s.supply.tripLatch = false) (hovp : s.supply.ovpOpen = false) :
    s.powerUp = { s with supply := { s.supply with phase := if s.clocks.hkclk then .good else .waitClock } } := by
  unfold State.powerUp
  simp only [hstandby, hoff, hvin, htrip, hovp, decide_true, Bool.not_false, Bool.and_self, if_true]
  unfold State.lockPlls
  cases hclk : s.clocks.hkclk <;> simp [State.withSupply, hclk, hstandby, htrip, hovp]

theorem powerUp_waits {s : State} (hvin : s.supply.vinCv < 440) : s.powerUp = s := by
  unfold State.powerUp
  simp [show ¬ 440 ≤ s.supply.vinCv by omega]

/-- An end of power-up's wait for HKCLK (spec/03 R68). -/
theorem lockPlls_of_ne {s : State} (h : s.supply.phase ≠ .waitClock) : s.lockPlls = s := by
  unfold State.lockPlls
  rw [decide_eq_false h]
  rfl

/-! ### References -/

theorem lineLinkDown_of_noPorts {s : State} (h : s.line.ports = []) (n : Nat) : s.lineLinkDown n = s := by
  have hport : s.port n = {} := by rw [State.port, h]; rfl
  rw [State.lineLinkDown, hport]
  rfl

theorem quoinLoss_of_noPorts {s : State} (h : s.csc.ports = []) (p : Nat) : s.quoinLoss p = s := by
  have hport : s.quoin p = {} := by rw [State.quoin, h]; rfl
  rw [State.quoinLoss, hport]
  rfl

/-- A line reference that serves nothing: no line port, and for LREFA no Quoin port (spec/22 R659). -/
theorem lineRefLoss_unused {s : State} {b : Bool} (hhere : (if b then s.clocks.lrefb else s.clocks.lrefa) = true)
    (hunused : s.released = false ∨ (s.line.ports = [] ∧ (b = false → s.csc.ports = []))) :
    s.lineRefLoss b =
      { s with clocks := if b then { s.clocks with lrefb := false } else { s.clocks with lrefa := false } } := by
  unfold State.lineRefLoss
  rw [hhere]
  dsimp only
  rcases hunused with hheld | ⟨hline, hquoin⟩
  · have hheld' : ∀ c, ({ s with clocks := c } : State).released = false := fun _ => hheld
    rw [hheld']
    rfl
  · have hports : ∀ c, ((List.range 32).foldl (fun (t : State) n =>
        if t.bit Reg.lsdOctetCfg [n / 8] 8 = b then t.lineLinkDown n else t) { s with clocks := c }) =
          { s with clocks := c } := fun c =>
      fold_id _ _ _ (fun n _ => by rw [lineLinkDown_of_noPorts (by exact hline), ite_self])
    rw [hports]
    cases b with
    | true => simp
    | false =>
      have hquoins : ∀ c, ((List.range 4).foldl (fun (t : State) p => t.quoinLoss p) { s with clocks := c }) =
          { s with clocks := c } := fun c => fold_id _ _ _ (fun p _ => quoinLoss_of_noPorts (by exact hquoin rfl) p)
      simp [hquoins]

theorem pcieRefLoss_held {s : State} {f : Nat} (h : s.released = false ∨ (s.face f).inReset = true) :
    s.pcieRefLoss f = { s with clocks := { s.clocks with pcie := s.clocks.pcie.set f false } } := by
  have hcond : (decide (3 < f) || !s.released || (s.face f).inReset) = true := by
    rcases h with h | h <;> simp [h]
  exact if_pos hcond

/-- Settles O6: each command's effect is its unit's equation above, and the supply and the clocks are all that it changes
(`run_still`). -/
theorem powerAndReferences : Obligations.PowerAndReferences := by
  refine ⟨fun s hheld hreleased htrip => ⟨?standbyOn, ?vinRise, ?arrival, ?ovpRecovery⟩,
    fun s hheld => ⟨?hkReturn, ?lrefa, ?lrefb, ?pcie, ?lossA, ?lossB, ?lossPcie⟩⟩
  case standbyOn =>
    intro a v ha hv hoff hovp hdown hup
    refine run_still (f := fun t => t.standbyOn a v) hheld ?_ rfl rfl rfl rfl rfl rfl
    have hcond : (s.begun.supply.standby || (decide (a < 450) && decide (v < 450))) = false := by
      simp only [begun_supply, hdown, Bool.false_or, Bool.and_eq_false_iff, decide_eq_false_iff_not]
      omega
    simp only [State.standbyOn, hcond, Bool.false_eq_true, if_false, Nat.mod_eq_of_lt ha, Nat.mod_eq_of_lt hv]
    by_cases hlow : v < 440
    · rw [powerUp_waits (by exact hlow), if_pos hlow, ← hoff]
      rfl
    · rw [powerUp_starts (by exact rfl) (by exact hoff) (by exact Nat.le_of_not_lt hlow) (by exact htrip) (by exact hovp),
        if_neg hlow]
      rfl
  case vinRise =>
    intro v hoff hovp hstandby hwas h440 h1950
    refine run_still (f := fun t => t.vinRise v) hheld ?_ rfl rfl rfl rfl rfl rfl
    have hcond : (!s.begun.supply.standby || decide (440 ≤ s.begun.supply.vinCv) || decide (v < 440)
        || decide (1950 ≤ v)) = false := by
      simp [hstandby, Nat.not_le.2 hwas, h440, h1950]
    rw [State.vinRise, if_neg (by rw [hcond]; decide), setVin_silent (s := s.begun) (by omega) (.inl hreleased),
      powerUp_starts (by exact hstandby) (by exact hoff) (by exact h440) (by exact htrip) (by exact hovp)]
    rfl
  case arrival =>
    intro hwait hclk hint
    refine run_still (f := fun t => t.hkclkArrival) hheld ?_ rfl rfl rfl rfl rfl rfl
    simp [State.hkclkArrival, State.lockPlls, State.withSupply, hclk, hint, hwait]
  case ovpRecovery =>
    intro v hoff hstandby hopen h440 h1900
    refine run_still (f := fun t => t.vinOvpRecovery v) hheld ?_ rfl rfl rfl rfl rfl rfl
    have hcond : (!s.begun.supply.ovpOpen || decide (1900 ≤ v)) = false := by simp [hopen, h1900]
    rw [State.vinOvpRecovery, if_neg (by rw [hcond]; decide), setVin_silent (s := s.begun) (by omega) (.inl hreleased),
      powerUp_starts (by exact hstandby) (by exact hoff) (by exact h440) (by exact htrip) (by exact rfl)]
    rfl
  case hkReturn =>
    intro hgood hclk
    refine run_still (f := fun t => t.hkclkReturn) hheld ?_ rfl rfl rfl rfl rfl rfl
    have hne : s.supply.phase ≠ .waitClock := by rw [hgood]; decide
    rw [State.hkclkReturn, if_neg (by rw [begun_clocks, hclk]; decide)]
    exact lockPlls_of_ne hne
  case lrefa => exact run_still (f := fun t => t.refReturn .lrefa) hheld rfl rfl rfl rfl rfl rfl rfl
  case lrefb => exact run_still (f := fun t => t.refReturn .lrefb) hheld rfl rfl rfl rfl rfl rfl rfl
  case pcie => exact fun f _ => run_still (f := fun t => t.refReturn (.pcie f)) hheld rfl rfl rfl rfl rfl rfl rfl
  case lossA =>
    intro hhere hunused
    exact run_still (f := fun t => t.lineRefLoss false) hheld (lineRefLoss_unused (b := false) hhere (hunused.imp_right fun h => ⟨h.1, fun _ => h.2⟩))
      rfl rfl rfl rfl rfl rfl
  case lossB =>
    intro hhere hunused
    exact run_still (f := fun t => t.lineRefLoss true) hheld (lineRefLoss_unused (b := true) hhere (hunused.imp_right fun h => ⟨h, nofun⟩))
      rfl rfl rfl rfl rfl rfl
  case lossPcie =>
    intro f _ hsto hunused
    refine run_still (f := fun t => (t.pcieRefLoss f).settleSto) hheld ?_ rfl rfl rfl rfl rfl rfl
    have hloss := pcieRefLoss_held (s := s.begun) hunused
    rw [hloss]
    exact settleSto_held hsto

/-! ### The main rails off, and module reset -/

/-- A reading of VIN changes the supply as it says and beside it only what an event may touch. -/
theorem setVin_frame (s : State) {v : Nat} (hv : v < 4096) :
    EventFrame { s with supply := s.supply.withVin v } (s.setVin v) := by
  simp only [State.setVin, Nat.mod_eq_of_lt hv]
  exact EventFrame.ite _ (EventFrame.raise { s with supply := s.supply.withVin v } 20 0 none {}) rfl

/-- Module reset leaves the rule banks EMPTY and no packet. -/
theorem mainReset_banksHeld (s : State) : s.mainReset.banksHeld := banksHeld_of resetMeetsTheInvariants.1 rfl rfl

/-- As the main rails go off, nothing of an event is left but WAKE_N, which is released, and what was sent. -/
theorem mainOff_of_frame {v u : State} (h : EventFrame v u) : u.mainOff = { v.mainOff with out := u.out } := by
  have hu : u = v.eventOn u := h
  rw [hu]
  rfl

/-- A command that turns the main rails off: beside the supply and what is sent, only links that wake differ. -/
theorem run_mainOff {f : State → State} {s u : State} {x : Supply} (h : f s.begun = u)
    (hu : u = { s.mainOff with out := u.out, supply := x }) :
    ∃ t, run f s = .next t ∧ t = { s.mainOff with
      out := t.out, host := { s.mainOff.host with links := t.host.links }, supply := x } := by
  have hheld : u.banksHeld := by
    rw [hu]
    exact banksHeld_of (mainReset_banksHeld s) rfl rfl
  have hdue : u.due = [] := by rw [hu]; rfl
  refine ⟨s.close u, by rw [run, h], ?_⟩
  have hclose := close_due (s := s) hheld hdue
  have hout : (s.close u).out = u.out := by rw [hclose]
  rw [hout, hclose]
  generalize (s.close u).host.links = links
  generalize u.out = o at hu
  subst hu
  rfl

/-- As `run_mainOff`, where nothing is sent. -/
theorem run_mainReset {f : State → State} {s u v : State} (h : f s.begun = u) (hr : u.rules = v.mainReset.rules)
    (hp : u.packets = []) (hd : u.due = []) (ho : u.out = []) (hq : u.pending = s.pending) (hf : u.fuses = s.fuses) :
    run f s = .next u :=
  run_quiet h (banksHeld_of (mainReset_banksHeld v) hr hp) hd (by rw [ho]; rfl) hq hf

theorem clampInt_of_mem {lo hi x : Int} (hlo : lo ≤ x) (hhi : x ≤ hi) : clampInt lo hi x = x := by
  rw [clampInt, if_neg (by omega), if_neg (by omega)]

/-- Settles O7: what turns the rails off resets the main domain after its reading of VIN, which an event follows at most
(`mainOff_of_frame`); a trip, the loss of standby power and MRST_N send nothing. -/
theorem railsAndModuleReset : Obligations.RailsAndModuleReset := by
  refine ⟨fun s hstandby => ⟨?under, ?overvolt, ?trip, ?loss⟩, ?mrst⟩
  case under =>
    intro v h410 hwas hvstby
    refine run_mainOff (f := fun t => t.vinUnder v) rfl ?_
    have hout : vinOut v = true := by simp [vinOut, show v < 450 by omega]
    have hcond : (!s.begun.supply.standby || decide (s.begun.supply.vinCv < 410) || decide (410 ≤ v)) = false := by
      simp [hstandby, Nat.not_lt.2 hwas, h410]
    have hoff := mainOff_of_frame (setVin_frame s.begun (show v < 4096 by omega))
    have hsupply : (s.begun.setVin v).mainOff.supply.vstbyCv ≠ 0 := by rw [hoff]; exact hvstby
    rw [State.vinUnder, if_neg (by rw [hcond]; decide)]
    dsimp only
    rw [if_neg hsupply, hoff, Supply.withVin_out hout]
    rfl
  case overvolt =>
    intro v h1950 hv hwas
    refine run_mainOff (f := fun t => t.vinOver v) rfl ?_
    have hout : vinOut v = true := by simp [vinOut, show 1800 < v by omega]
    have hcond : (!s.begun.supply.standby || decide (1950 ≤ s.begun.supply.vinCv) || decide (v < 1950)) = false := by
      simp [hstandby, Nat.not_le.2 hwas, h1950]
    have hoff := mainOff_of_frame (setVin_frame s.begun hv)
    rw [State.vinOver, if_neg (by rw [hcond]; decide), hoff, Supply.withVin_out hout]
    rfl
  case trip =>
    intro tj h0 h1 htj htj' hh0 hh0' hh1 hh1' hphase hhot
    refine ⟨_, ?run, ?errN, rfl⟩
    case run =>
      have hcond : (decide (s.supply.phase = .off) || (decide (tj < 115) && decide (h0 < 105) && decide (h1 < 105)))
          = false := by
        rw [decide_eq_false hphase, Bool.false_or]
        simp only [Bool.and_eq_false_iff, decide_eq_false_iff_not, not_lt]
        omega
      have htemps : s.begun.setTemps tj h0 h1 =
          { s.begun with supply := { s.supply with tjMax := tj, hbm0T := h0, hbm1T := h1 } } := by
        simp only [State.setTemps, clampInt_of_mem htj htj', clampInt_of_mem hh0 hh0', clampInt_of_mem hh1 hh1']
        rfl
      have hstandby' : s.begun.supply.standby = true := hstandby
      refine run_mainReset (f := fun t => t.thermalTrip tj h0 h1) (v := s) ?_ rfl rfl rfl rfl rfl rfl
      simp only [State.thermalTrip, hstandby', if_true, htemps]
      exact if_neg (Bool.eq_false_iff.1 hcond)
    case errN => exact Bool.or_true _
  case loss =>
    refine run_mainReset (f := fun t => t.standbyLoss) (v := s) ?_ rfl rfl rfl rfl rfl rfl
    exact if_pos hstandby
  case mrst =>
    intro s hstandby hhigh htrip hphase
    refine run_mainReset (f := fun t => t.mrstLow) (v := s) ?_ rfl rfl rfl rfl rfl rfl
    have hcond : (!s.begun.supply.standby || !s.begun.supply.mrstN) = false := by simp [hstandby, hhigh]
    rw [State.mrstLow, if_neg (by rw [hcond]; decide)]
    dsimp only
    rw [if_neg (by simp [htrip, State.withSupply]), if_neg (by exact hphase), State.withSupply, begun_supply, htrip]
    rfl

/-! ### What the supply reports -/

/-- The readings of the temperatures, within the sensors' range (spec/03 R79). -/
theorem setTemps_of_mem {s : State} {tj h0 h1 : Int} (htj : -128 ≤ tj ∧ tj ≤ 127) (hh0 : -128 ≤ h0 ∧ h0 ≤ 127)
    (hh1 : -128 ≤ h1 ∧ h1 ≤ 127) :
    s.setTemps tj h0 h1 = { s with supply := { s.supply with tjMax := tj, hbm0T := h0, hbm1T := h1 } } := by
  simp only [State.setTemps, clampInt_of_mem htj.1 htj.2, clampInt_of_mem hh0.1 hh0.2, clampInt_of_mem hh1.1 hh1.2]
  rfl

/-- The supply after readings of the temperatures of which `die` and `hbm` cross their thresholds upwards (spec/03 R72). -/
def Supply.warned (x : Supply) (tj h0 h1 : Int) (die hbm : Bool) : Supply :=
  { x with
    tjMax := tj, hbm0T := h0, hbm1T := h1, tjWarn := x.tjWarn || die, hbmWarn := x.hbmWarn || hbm
    smbAlert := x.smbAlert || die || hbm }

theorem tempWarn_eq {s : State} {tj h0 h1 : Int} {die hbm : Bool} (hgood : s.supply.phase = .good)
    (htemps : s.setTemps tj h0 h1 = { s with supply := { s.supply with tjMax := tj, hbm0T := h0, hbm1T := h1 } })
    (hdie : (!s.supply.tjWarn && decide (signedOf 8 (s.fld Reg.pwrThermCtl [] 0 8) ≤ tj)) = die)
    (hhbm : (!s.supply.hbmWarn && decide (signedOf 8 (s.fld Reg.pwrThermCtl [] 8 8) ≤ max h0 h1)) = hbm) :
    s.tempWarn tj h0 h1 =
      let t := { s with supply := s.supply.warned tj h0 h1 die hbm }
      let t := if die then t.raise 21 0 else t
      if hbm then t.raise 22 0 else t := by
  subst hdie hhbm
  unfold State.tempWarn
  rw [htemps, if_neg (by rw [hgood]; decide)]
  rfl

/-- Settles O8: each report is its reading of the supply and, where the section asks for one, a mild event
(`run_reports`). -/
theorem supplyReports : Obligations.SupplyReports := by
  refine ⟨fun s hheld hreleased hstandby => ⟨?entry, ?exit, ?therm, ?thermOff, ?rail, ?clock⟩,
    fun s tj h0 h1 hheld hreleased hgood htj htj' hh0 hh0' hh1 hh1' => ?temps⟩
  case entry =>
    intro v hv hin hmild
    refine run_reports (f := fun t => t.vinRangeEntry v) (d := 0) hheld ?_ hmild hreleased rfl rfl rfl rfl rfl rfl rfl rfl
    have hout : vinOut v = true := by simp only [vinOut, Bool.or_eq_true, decide_eq_true_eq]; omega
    have hcond : (s.begun.supply.standby && ((decide (410 ≤ v) && decide (v < 450))
        || (decide (1800 < v) && decide (v < 1950)))) = true := by
      simp only [begun_supply, hstandby, Bool.true_and, Bool.or_eq_true, Bool.and_eq_true, decide_eq_true_eq]
      exact hv
    have hset := setVin_reports (s := s.begun) (show v < 4096 by omega) hout hin
    rw [Supply.withVin_out hout, begun_supply, hin, Bool.not_false, Bool.or_true] at hset
    exact (if_pos hcond).trans hset
  case exit =>
    intro v h450 h1800 herr hwas
    refine run_still (f := fun t => t.vinRangeExit v) hheld ?_ rfl rfl rfl rfl rfl rfl
    have hin : vinOut v = false := by simp only [vinOut, Bool.or_eq_false_iff, decide_eq_false_iff_not]; omega
    have hcond : (s.begun.supply.standby && s.begun.supply.vinRangeErr && !vinOut v
        && decide (410 ≤ s.begun.supply.vinCv)) = true := by
      simp [hstandby, herr, hin, hwas]
    have hset := setVin_silent (s := s.begun) (show v < 4096 by omega) (.inr (.inl hin))
    rw [Supply.withVin_in hin] at hset
    exact (if_pos hcond).trans hset
  case therm =>
    intro hon hmild
    refine run_reports (f := fun t => t.thermFall) (d := 0) hheld ?_ hmild hreleased rfl rfl rfl rfl rfl rfl rfl rfl
    have hcond : (s.released && s.bit Reg.pwrThermCtl [] 16) = true := by rw [hreleased, hon]; rfl
    rw [State.thermFall, if_neg (by rw [begun_supply, hstandby]; decide)]
    exact if_pos hcond
  case thermOff =>
    intro hoff
    refine run_still (f := fun t => t.thermFall) hheld ?_ rfl rfl rfl rfl rfl rfl
    have hcond : ¬ (s.released && s.bit Reg.pwrThermCtl [] 16) = true := by rw [hoff, Bool.and_false]; decide
    rw [State.thermFall, if_neg (by rw [begun_supply, hstandby]; decide)]
    exact if_neg hcond
  case rail =>
    intro hgood h450 h1800 hmild
    refine run_reports (f := fun t => t.railFault) (d := 0) hheld ?_ hmild hreleased rfl rfl rfl rfl rfl rfl rfl rfl
    have hin : vinOut s.supply.vinCv = false := by
      simp only [vinOut, Bool.or_eq_false_iff, decide_eq_false_iff_not]; omega
    exact if_pos (by simp [hgood, hin])
  case clock =>
    intro hgood hclk hmild
    refine run_reports (f := fun t => t.hkclkLoss) (d := 0) hheld ?_ hmild hreleased rfl rfl rfl rfl rfl rfl rfl rfl
    rw [State.hkclkLoss, if_neg (by rw [begun_clocks, hclk]; decide)]
    exact if_pos hgood
  case temps =>
    have htemps := setTemps_of_mem (s := s.begun) ⟨htj, htj'⟩ ⟨hh0, hh0'⟩ ⟨hh1, hh1'⟩
    refine ⟨?die, ?hbm, ?clear⟩
    case die =>
      intro hdie hwas hhbm hmild
      refine run_reports (f := fun t => t.tempWarn tj h0 h1) (d := 0) hheld ?_ hmild hreleased rfl rfl rfl rfl rfl rfl rfl rfl
      have hdie' : (!s.supply.tjWarn && decide (signedOf 8 (s.fld Reg.pwrThermCtl [] 0 8) ≤ tj)) = true := by
        simp [hwas, hdie]
      have hhbm' : (!s.supply.hbmWarn && decide (signedOf 8 (s.fld Reg.pwrThermCtl [] 8 8) ≤ max h0 h1)) = false := by
        rw [decide_eq_false (not_le.2 hhbm), Bool.and_false]
      refine (tempWarn_eq (s := s.begun) hgood htemps hdie' hhbm').trans ?_
      simp only [Supply.warned, Bool.or_true, Bool.or_false, if_true, Bool.false_eq_true, if_false]
      rfl
    case hbm =>
      intro hhbm hwas hdie hmild
      refine run_reports (f := fun t => t.tempWarn tj h0 h1) (d := 0) hheld ?_ hmild hreleased rfl rfl rfl rfl rfl rfl rfl rfl
      have hdie' : (!s.supply.tjWarn && decide (signedOf 8 (s.fld Reg.pwrThermCtl [] 0 8) ≤ tj)) = false := by
        rw [decide_eq_false (not_le.2 hdie), Bool.and_false]
      have hhbm' : (!s.supply.hbmWarn && decide (signedOf 8 (s.fld Reg.pwrThermCtl [] 8 8) ≤ max h0 h1)) = true := by
        simp only [hwas, hhbm, Bool.not_false, Bool.true_and, decide_true]
      refine (tempWarn_eq (s := s.begun) hgood htemps hdie' hhbm').trans ?_
      simp only [Supply.warned, Bool.or_true, Bool.or_false, if_true, Bool.false_eq_true, if_false]
      rfl
    case clear =>
      intro hdie hhbm
      refine run_still (f := fun t => t.tempWarnClear tj h0 h1) hheld ?_ rfl rfl rfl rfl rfl rfl
      rw [State.tempWarnClear, if_neg (by rw [begun_supply, hgood]; decide), htemps]
      have hdie' : (!decide (tj ≤ signedOf 8 (s.fld Reg.pwrThermCtl [] 0 8) - 3)) = false := by simp [hdie]
      have hhbm' : (!decide (max h0 h1 ≤ signedOf 8 (s.fld Reg.pwrThermCtl [] 8 8) - 3)) = false := by
        rw [decide_eq_true hhbm]; rfl
      show { s.begun with supply := { s.supply with
        tjMax := tj, hbm0T := h0, hbm1T := h1
        tjWarn := s.supply.tjWarn && !decide (tj ≤ signedOf 8 (s.fld Reg.pwrThermCtl [] 0 8) - 3)
        hbmWarn := s.supply.hbmWarn && !decide (max h0 h1 ≤ signedOf 8 (s.fld Reg.pwrThermCtl [] 8 8) - 3) } } = _
      rw [hdie', hhbm', Bool.and_false, Bool.and_false]

end Sys2Proof.Machine
end

