-- ==== Sys2Proof/Proofs/PaceAndTime.lean ====
section
/-! The Pace Governor (spec/02 R46-R52), writes to the time base (spec/02 R59, R62), the SMBus and the TAP (spec/03 R94-R96,
spec/19 R589). -/

namespace Sys2Proof.Machine

/-! ### Register words -/

@[simp] theorem word_setWord_self (s : State) (r : RegDef) (idx : List Nat) (v : Nat) : (s.setWord r idx v).word r idx = v :=
  mapGet_mapSet_self ..

theorem word_setWord_ne {r q : RegDef} {idx jdx : List Nat} (h : q.addr jdx ≠ r.addr idx) (s : State) (v : Nat) :
    (s.setWord r idx v).word q jdx = s.word q jdx := by
  have hother : ∀ d d', mapGet d (mapSet d' s.regs (r.addr idx) v) (q.addr jdx) = mapGet d s.regs (q.addr jdx) := by
    intro d d'
    unfold mapSet
    split
    · exact mapGet_mapErase_ne d s.regs h
    · exact mapGet_mapPut_ne d s.regs v h
  exact hother _ _

/-- A write elsewhere leaves an event's level as it is. -/
theorem mild_setWord {s : State} {r : RegDef} {idx : List Nat} {src : Nat} (h : s.mild src)
    (hne : Reg.fltSrcCfg.addr [src] ≠ r.addr idx) (v : Nat) : (s.setWord r idx v).mild src := by
  have hlevel : (s.setWord r idx v).eventLevel src = s.eventLevel src := by
    unfold State.eventLevel State.fld
    rw [word_setWord_ne hne, setWord_flt]
  exact ⟨hlevel ▸ h.1, h.2⟩

/-- A write to the one word of a register that is not locked stores its fields (spec/00 R6). -/
theorem writeReg_open {m : Master} {r : RegDef} {idx : List Nat} {d : Nat} {s : State} (hfw : r.fw = false ∨ m.isFw = true)
    (hvalid : r.valid idx = true) (hfields : r.fields ≠ []) (hlock : bitOf s.glb.lock r.block = false) :
    State.writeReg m r idx d s = (s.setWord r idx (storeFields false (s.word r idx) d r.fields), true) := by
  have hfw' : (r.fw && !m.isFw) = false := by rcases hfw with h | h <;> simp [h]
  simp only [State.writeReg, hfw', hvalid, hfields, hlock, Bool.not_true, decide_false, Bool.or_false, Bool.false_and,
    Bool.false_eq_true, if_false]

/-- A register write that stores a word and does nothing else. -/
theorem run_setWord {s : State} {m : Master} {off n d : Nat} {e : Eff} {x : Bool} {r : RegDef} {idx : List Nat} {w : Nat}
    (hw : s.writes m off) (hheld : s.banksHeld) (he : e s.begun = (s.begun.setWord r idx w, true)) :
    runMain (fun t => t.access m off n d e x) s = .next (m.logged off n d (s.begun.setWord r idx w)) :=
  run_write hw (banksHeld_of hheld rfl rfl) he rfl rfl rfl rfl rfl rfl

/-- A register write that stores a word and then counts and reports. -/
theorem run_setWord_event {s : State} {m : Master} {off n d : Nat} {e : Eff} {x : Bool} {r : RegDef} {idx : List Nat}
    {w a src : Nat} (hw : s.writes m off) (hheld : s.banksHeld)
    (he : e s.begun = (((s.begun.setWord r idx w).count a 1).raise src 0, true))
    (hmild : ((s.begun.setWord r idx w).count a 1).mild src)
    (hdue : ((s.begun.setWord r idx w).count a 1).due = (s.begun.setWord r idx w).due) :
    ∃ t, runMain (fun t => t.access m off n d e x) s = .next t
      ∧ Reported src (m.logged off n d (s.begun.setWord r idx w)) t := by
  have hcount := EventFrame.count (s.begun.setWord r idx w) a 1
  have hksc := congrArg State.ksc hcount
  have hheld' : (s.begun.setWord r idx w).banksHeld := banksHeld_of hheld rfl rfl
  have hreleased : ((s.begun.setWord r idx w).count a 1).released = true := by
    rw [State.released, hcount.bring]
    exact hw.1.1
  obtain ⟨t, hrun, hframe, hpend⟩ := run_write_event (n := n) (d := d) (x := x) hw
    (banksHeld_of hheld' hcount.rules hcount.packets) he hmild hdue hreleased hcount.pending hcount.fuses
    (by rw [hksc]; rfl) (by rw [hksc]; rfl)
  exact ⟨t, hrun, (hcount.logged m off n d hw.2).trans hframe, hpend⟩

/-! ### The governor -/

theorem runBlock_still {f : State → State} {s u : State} {b : Nat} (hreleased : s.released = true) (hready : s.ready b = true)
    (hheld : s.banksHeld) (h : f s.begun = u) (hr : u.rules = s.rules) (hp : u.packets = s.packets) (hd : u.due = [])
    (ho : u.out = []) (hq : u.pending = s.pending) (hf : u.fuses = s.fuses) : runBlock b f s = .next u :=
  (runBlock_on hreleased hready).trans (run_still hheld h hr hp hd ho hq hf)

/-- The causes that a step down leaves (spec/02 R50). -/
def State.withCauses (s : State) : State :=
  { s with pace := { s.pace with
    causeVin := s.pace.causeVin || s.paceTrue.getD 0 false, causeCore := s.pace.causeCore || s.paceTrue.getD 1 false
    causeEst := s.pace.causeEst || s.paceTrue.getD 2 false, causeAlert := s.pace.causeAlert || s.paceTrue.getD 3 false } }

theorem noteStepDown_eq (s : State) : s.noteStepDown = (s.withCauses.count (blockBase 1 + 0x110) 1).raise 19 0 := rfl

/-- A step down that is noted in `w`: the count and the report touch only what an event may touch, and the report asks for no
reset. -/
theorem paceCount_mild {w : State} (hmild : w.mild 19) (hroom : mapGet 0 w.counters (blockBase 1 + 0x110) + 1 < 2 ^ 47) :
    (w.count (blockBase 1 + 0x110) 1).mild 19 ∧ (w.count (blockBase 1 + 0x110) 1).due = w.due := by
  have hquiet : w.count (blockBase 1 + 0x110) 1 =
      { w with counters := mapSet 0 w.counters (blockBase 1 + 0x110) (mapGet 0 w.counters (blockBase 1 + 0x110) + 1) } :=
    countWith_quiet hroom
  rw [hquiet]
  refine ⟨⟨hmild.1, fun k hk => ?_⟩, rfl⟩
  have hne : fltCounter k ≠ blockBase 1 + 0x110 := by simp only [fltCounter, blockBase]; omega
  dsimp only
  rw [mapGet_mapSet_ne _ _ _ hne]
  exact hmild.2 k hk

/-- The governor at the step `n` below where it stood, with no step forced. -/
theorem paceDown_noted {s : State} {n : Nat} (hforce : s.fld Reg.pwrPaceCtl [] 16 2 = 0) (hn : min 2 (s.pace.natural + 1) = n)
    (hlt : s.pace.natural < n) :
    s.paceDown = (State.count (s.steppedDown n) (blockBase 1 + 0x110) 1).raise 19 0 := by
  subst hn
  have hstep : ∀ p, State.paceStep { s with pace := p } = p.natural := fun p => by
    have hforce' : State.fld { s with pace := p } Reg.pwrPaceCtl [] 16 2 = 0 := hforce
    rw [State.paceStep, hforce']
    exact Nat.max_zero p.natural
  have hlt' : s.paceStep < State.paceStep { s with pace := { s.pace with
      natural := min 2 (s.pace.natural + 1), settleEnd := some (s.now + 100), holdEnd := none } } := by
    have hwas : s.paceStep = s.pace.natural := hstep s.pace
    have his := hstep { s.pace with natural := min 2 (s.pace.natural + 1), settleEnd := some (s.now + 100), holdEnd := none }
    exact lt_of_eq_of_lt hwas (lt_of_lt_of_eq hlt his.symm)
  exact if_pos hlt'

/-- A command that takes the governor one step down (spec/02 R48, R50). -/
theorem run_paceDown {f : State → State} {s w : State} {n : Nat} (hreleased : s.released = true) (hready : s.ready 1 = true)
    (hheld : s.banksHeld) (hmild : s.mild 19) (hroom : mapGet 0 s.counters (blockBase 1 + 0x110) + 1 < 2 ^ 47)
    (h : f s.begun = (State.count (w.steppedDown n) (blockBase 1 + 0x110) 1).raise 19 0)
    (hw : w = { s.begun with pace := w.pace, supply := w.supply }) :
    ∃ t, runBlock 1 f s = .next t ∧ Reported 19 (w.steppedDown n) t := by
  rw [runBlock_on hreleased hready]
  generalize w.pace = pace at hw
  generalize w.supply = supply at hw
  subst hw
  obtain ⟨hmild', hdue⟩ := paceCount_mild (w := State.steppedDown { s.begun with pace := pace, supply := supply } n)
    (mild_of hmild rfl rfl rfl) hroom
  have hcount := EventFrame.count (State.steppedDown { s.begun with pace := pace, supply := supply } n)
    (blockBase 1 + 0x110) 1
  obtain ⟨t, hrun, hframe, hpend⟩ := run_event (s := s) h
    (banksHeld_of hheld hcount.rules hcount.packets) hmild' hdue hcount.pending hcount.fuses
  refine ⟨t, hrun, hcount.trans hframe, hpend ?_⟩
  rw [State.released, hcount.bring]
  exact hreleased

theorem paceEval_down {s : State} (hany : s.paceAny = true) (hzero : s.pace.natural = 0) : s.paceEval = s.paceDown := by
  rw [State.paceEval, if_pos hany, if_pos hzero]

theorem paceEval_hold {s : State} (hany : s.paceAny = false) (hne : s.pace.natural ≠ 0) (hhold : s.pace.holdEnd = none) :
    s.paceEval = { s with pace := { s.pace with holdEnd := some (s.now + 10000) } } := by
  rw [State.paceEval, hany, hhold]
  simp [hne, State.withPace]

theorem paceEval_rest {s : State} (hany : s.paceAny = false) (hzero : s.pace.natural = 0) : s.paceEval = s := by
  rw [State.paceEval, hany, hzero]
  rfl

/-- No condition is true. -/
def Pace.calm (p : Pace) : Prop :=
  p.condVin = false ∧ p.condCore = false ∧ p.condEst = false ∧ p.condAlert = false

theorem paceAny_of_calm {s : State} (h : s.pace.calm) : s.paceAny = false := by
  obtain ⟨hvin, hcore, hest, halert⟩ := h
  simp [State.paceAny, State.paceTrue, hvin, hcore, hest, halert]

/-- A step down that no source asks for leaves no cause (spec/02 R50). -/
theorem withCauses_of_calm {s : State} (h : s.pace.calm) : s.withCauses = s := by
  obtain ⟨hvin, hcore, hest, halert⟩ := h
  have htrue : s.paceTrue = [false, false, false, false] := by simp [State.paceTrue, hvin, hcore, hest, halert]
  simp [State.withCauses, htrue]

/-- The word is stored, and the governor moves down where force_step asks for a lower step than it runs at. -/
theorem paceCtl_eq {s : State} {m : Master} {d w : Nat} (hlock : bitOf s.glb.lock 1 = false) (hzero : s.pace.natural = 0)
    (hcalm : s.pace.calm)
    (hw : w = storeFields false (s.word Reg.pwrPaceCtl []) d Reg.pwrPaceCtl.fields) :
    State.paceCtl m d s = (if s.paceStep < min 2 (bitsOf w 16 2) then (s.setWord Reg.pwrPaceCtl [] w).noteStepDown
      else s.setWord Reg.pwrPaceCtl [] w, true) := by
  subst hw
  have hwrite : State.writeReg m Reg.pwrPaceCtl [] d s =
      (s.setWord Reg.pwrPaceCtl [] (storeFields false (s.word Reg.pwrPaceCtl []) d Reg.pwrPaceCtl.fields), true) :=
    writeReg_open (.inl rfl) rfl (by decide) hlock
  generalize storeFields false (s.word Reg.pwrPaceCtl []) d Reg.pwrPaceCtl.fields = w at hwrite ⊢
  have hstep : (s.setWord Reg.pwrPaceCtl [] w).paceStep = min 2 (bitsOf w 16 2) := by
    rw [State.paceStep, State.fld, word_setWord_self, setWord_pace, hzero]
    exact Nat.zero_max _
  simp only [State.paceCtl, hwrite, State.paceMove, hstep]
  split
  · have hframe : EventFrame (s.setWord Reg.pwrPaceCtl [] w).withCauses (s.setWord Reg.pwrPaceCtl [] w).noteStepDown :=
      (EventFrame.count _ _ _).trans (EventFrame.raise _ _ _ _ _)
    have hcauses : (s.setWord Reg.pwrPaceCtl [] w).withCauses = s.setWord Reg.pwrPaceCtl [] w :=
      withCauses_of_calm (by rw [setWord_pace]; exact hcalm)
    have hpace : (s.setWord Reg.pwrPaceCtl [] w).noteStepDown.pace = s.pace :=
      by
      rw [hframe.pace, hcauses, setWord_pace]
    rw [paceEval_rest (paceAny_of_calm (hpace ▸ hcalm)) (by rw [hpace]; exact hzero)]
  · have hany : (s.setWord Reg.pwrPaceCtl [] w).paceAny = false :=
      paceAny_of_calm (by rw [setWord_pace]; exact hcalm)
    rw [paceEval_rest hany (by rw [setWord_pace]; exact hzero)]

/-- Settles O9: the sources that a command changes are judged by `paceEval`, whose cases are stated above; a step down is
counted and reported (`run_paceDown`), and a hold or a step up is a change of the governor alone (`runBlock_still`). -/
theorem paceGoverns : Obligations.PaceGoverns := by
  refine ⟨fun s hheld hreleased hready hforce hmild hroom => ⟨?trigger, ?estimate, ?settle⟩,
    fun s hheld hreleased hready => ⟨?under, ?settleEnd, ?clear, ?holdRest, ?holdOn⟩, ?ctl⟩
  case trigger =>
    intro src hany hzero
    have hpace : (s.begun.setCond true src).pace.natural = 0 := by cases src <;> exact hzero
    have hforce' : (s.begun.setCond true src).fld Reg.pwrPaceCtl [] 16 2 = 0 := by cases src <;> exact hforce
    refine run_paceDown (f := fun t => t.paceTrigger src) hreleased hready hheld hmild hroom ?_ (by cases src <;> rfl)
    exact (paceEval_down hany hpace).trans (paceDown_noted hforce' (by rw [hpace]; decide) (by rw [hpace]; decide))
  case estimate =>
    intro w hcap hon hzero
    have hest : (s.begun.withPace (fun p => { p with estW := min 127 w })).setCond (decide (s.fld Reg.pwrPaceCtl [] 8 7 < w)) .est
        = { s.begun with pace := { s.pace with estW := min 127 w, condEst := true } } := by
      rw [decide_eq_true hcap]
      rfl
    have hany : State.paceAny { s.begun with pace := { s.pace with estW := min 127 w, condEst := true } } = true := by
      have hsource : State.paceTrue { s.begun with pace := { s.pace with estW := min 127 w, condEst := true } } =
          [s.pace.condVin && s.bit Reg.pwrPaceCtl [] 0, s.pace.condCore && s.bit Reg.pwrPaceCtl [] 1,
            true && s.bit Reg.pwrPaceCtl [] 2, s.pace.condAlert && s.bit Reg.pwrPaceCtl [] 3] := rfl
      rw [State.paceAny, hsource, hon]
      simp
    refine run_paceDown (f := fun t => t.estimate w) hreleased hready hheld hmild hroom ?_ rfl
    refine (congrArg State.paceEval hest).trans ((paceEval_down hany hzero).trans ?_)
    exact paceDown_noted hforce (show min 2 (s.pace.natural + 1) = 1 by omega)
      (show s.pace.natural < 1 by omega)
  case settle =>
    intro e he hnow hany hone
    refine run_paceDown (f := fun t => t.paceSettle) (w := s.begun) hreleased hready hheld hmild hroom ?_ rfl
    have hcond : (s.paceAny && decide (s.pace.natural < 2)) = true := by rw [hany, hone]; rfl
    simp only [State.paceSettle, begun_pace, he, begun_now, Nat.not_lt.2 hnow, if_false]
    refine (if_pos hcond).trans ?_
    exact paceDown_noted hforce (show min 2 (s.pace.natural + 1) = 2 by omega)
      (show s.pace.natural < 2 by omega)
  case under =>
    intro w hcap hzero hvin hcore halert
    refine runBlock_still (f := fun t => t.estimate w) hreleased hready hheld ?_ rfl rfl rfl rfl rfl rfl
    have hest : (s.begun.withPace (fun p => { p with estW := min 127 w })).setCond (decide (s.fld Reg.pwrPaceCtl [] 8 7 < w)) .est
        = { s.begun with pace := { s.pace with estW := min 127 w, condEst := false } } := by
      rw [decide_eq_false (Nat.not_lt.2 hcap)]
      rfl
    exact (congrArg State.paceEval hest).trans (paceEval_rest (paceAny_of_calm ⟨hvin, hcore, rfl, halert⟩) hzero)
  case settleEnd =>
    intro e he hnow hany hone hhold
    refine runBlock_still (f := fun t => t.paceSettle) hreleased hready hheld ?_ rfl rfl rfl rfl rfl rfl
    have hcond : ¬ (s.paceAny && decide (s.pace.natural < 2)) = true := by simp [hany]
    simp only [State.paceSettle, begun_pace, he, begun_now, Nat.not_lt.2 hnow, if_false]
    exact (if_neg hcond).trans (paceEval_hold hany (by exact hone ▸ Nat.one_ne_zero) hhold)
  case clear =>
    intro hne hhold
    refine runBlock_still (f := fun t => t.paceClear [.vin, .core, .est]) hreleased hready hheld ?_ rfl rfl rfl rfl rfl rfl
    exact paceEval_hold (paceAny_of_calm ⟨rfl, rfl, rfl, rfl⟩) hne hhold
  case holdRest =>
    intro e he hnow hany hone
    refine runBlock_still (f := fun t => t.paceHold) hreleased hready hheld ?_ rfl rfl rfl rfl rfl rfl
    have hcond : ¬ (decide (s.now < e) || s.paceAny) = true := by simp [hany, hnow]
    simp only [State.paceHold, begun_pace, he]
    refine (if_neg hcond).trans ?_
    refine (paceEval_rest (s := s.begun.withPace (fun p => { p with natural := p.natural - 1, holdEnd := none })) hany
      (show s.pace.natural - 1 = 0 by omega)).trans ?_
    rw [State.withPace, begun_pace, hone]
  case holdOn =>
    intro e he hnow hany htwo
    refine runBlock_still (f := fun t => t.paceHold) hreleased hready hheld ?_ rfl rfl rfl rfl rfl rfl
    have hcond : ¬ (decide (s.now < e) || s.paceAny) = true := by simp [hany, hnow]
    simp only [State.paceHold, begun_pace, he]
    refine (if_neg hcond).trans ?_
    refine (paceEval_hold (s := s.begun.withPace (fun p => { p with natural := p.natural - 1, holdEnd := none })) hany
      (show s.pace.natural - 1 ≠ 0 by omega) rfl).trans ?_
    rw [State.withPace, begun_pace, htwo]
    rfl
  case ctl =>
    intro s m d hheld hw hd hlock hzero hvin hcore hest halert w
    have hcalm : s.pace.calm := ⟨hvin, hcore, hest, halert⟩
    have hctl := paceCtl_eq (s := s.begun) (m := m) (d := d) (w := w) hlock hzero hcalm rfl
    have hexec : exec (.forceStepWrite m d) s =
        runMain (fun t => t.access m (Reg.pwrPaceCtl.addr []) 4 d (State.paceCtl m d)) s := by
      show execForceStepWrite m d s = _
      rw [execForceStepWrite, Nat.mod_eq_of_lt hd]
    rw [hexec]
    refine ⟨fun hdown hmild hroom => ?down, fun hstay => ?stay⟩
    case down =>
      have hcauses : (s.begun.setWord Reg.pwrPaceCtl [] w).withCauses = s.begun.setWord Reg.pwrPaceCtl [] w :=
        withCauses_of_calm (by rw [setWord_pace]; exact hcalm)
      have heff : State.paceCtl m d s.begun =
          (((s.begun.setWord Reg.pwrPaceCtl [] w).count (blockBase 1 + 0x110) 1).raise 19 0, true) := by
        have hnoted : (s.begun.setWord Reg.pwrPaceCtl [] w).noteStepDown =
            ((s.begun.setWord Reg.pwrPaceCtl [] w).count (blockBase 1 + 0x110) 1).raise 19 0 := by
          rw [noteStepDown_eq, hcauses]
        exact hctl.trans (congrArg (·, true) ((if_pos hdown).trans hnoted))
      have hmild' : (s.begun.setWord Reg.pwrPaceCtl [] w).mild 19 :=
        mild_setWord (s := s.begun) hmild (by decide) w
      obtain ⟨hcountMild, hdue⟩ := paceCount_mild hmild' (by rw [setWord_counters]; exact hroom)
      exact run_setWord_event hw hheld heff hcountMild hdue
    case stay => exact run_setWord hw hheld (hctl.trans (congrArg (·, true) (if_neg (Nat.not_lt.2 hstay))))

/-! ### The time base -/

/-- A module whose face 0 may write every block and whose word of TSU_TOD_ADJ holds bit 32, above the register's 32 bits. -/
def wideAdj : State :=
  { bring := { phase := .released, readySub := 0x1FFFFF, readyFace := 1 }
    host := { links := [(0, { state := .l0 })], fns := [(2048, { mse := true })] }
    glb := { faceWr := [0x1FFFFF, 0, 0, 0] }
    regs := [(0x10018, 2 ^ 32)] }

theorem wideAdj_writes : wideAdj.writes (.pf 0) (Reg.tsuTodAdj.addr []) := ⟨⟨rfl, by decide⟩, by decide⟩

theorem wideAdj_held : wideAdj.banksHeld := banksHeld_of resetMeetsTheInvariants.1 rfl rfl

/-- Refutes O10: a write to TSU_TOD_ADJ replaces bits 31 to 0 of the stored word, so where the word of a state holds bit 32
(`wideAdj`), writing 0 leaves 2^32 and not the clamped 0 that the statement names. -/
theorem not_timeAdvances : ¬ Obligations.TimeAdvances := by
  intro h
  have hclaim := ((h.2 wideAdj (.pf 0) 0 wideAdj_held).2.2 (by decide) wideAdj_writes)
  have hstore : State.writeReg (.pf 0) Reg.tsuTodAdj [] 0 wideAdj.begun =
      (wideAdj.begun.setWord Reg.tsuTodAdj [] (2 ^ 32), true) :=
    writeReg_open (.inl rfl) rfl (by decide) rfl
  have hrun : exec (.todAdjWrite (.pf 0) 0) wideAdj = .next (wideAdj.begun.setWord Reg.tsuTodAdj [] (2 ^ 32)) :=
    run_setWord wideAdj_writes wideAdj_held hstore
  have hstates := Host.Outcome.next.inj (hrun.symm.trans hclaim)
  have hwords : 2 ^ 32 = unsignedOf 32 (clampInt (-2097152) 2097152 (signedOf 32 0)) := by
    rw [← word_setWord_self wideAdj.begun Reg.tsuTodAdj [] (2 ^ 32), hstates]
    exact word_setWord_self wideAdj.begun Reg.tsuTodAdj [] _
  exact absurd hwords (by decide)

/-! ### The SMBus and the TAP -/

/-- A command that changes neither a rule bank nor a packet and sends nothing to a host. -/
theorem run_sends {f : State → State} {s u : State} (hheld : s.banksHeld) (h : f s.begun = u) (hr : u.rules = s.rules)
    (hp : u.packets = s.packets) (hd : u.due = []) (ho : u.out.all (fun o => !o.wakes) = true)
    (hq : u.pending = s.pending) (hf : u.fuses = s.fuses) : run f s = .next u :=
  run_quiet h (banksHeld_of hheld hr hp) hd ho hq hf

/-- `t` has the bring-up state, the fuses and the queue of `s`. -/
def State.sameCore (s t : State) : Prop := t.bring = s.bring ∧ t.fuses = s.fuses ∧ t.pending = s.pending

theorem State.sameCore.trans {s t u : State} (h : s.sameCore t) (k : t.sameCore u) : s.sameCore u :=
  ⟨k.1.trans h.1, k.2.1.trans h.2.1, k.2.2.trans h.2.2⟩

theorem EventFrame.sameCore {s t : State} (h : EventFrame s t) : s.sameCore t := ⟨h.bring, h.fuses, h.pending⟩

theorem tlsResyncEnter_sameCore (s : State) (l i : Nat) : s.sameCore (s.tlsResyncEnter l i) :=
  State.sameCore.trans (t := s.setSa i _) ⟨rfl, rfl, rfl⟩
    ((EventFrame.count _ _ _).trans (EventFrame.raise _ _ _ _ _)).sameCore

/-- Erasing the keys changes security associations, and raises and counts where a TLS one is lost. -/
theorem eraseKeys_sameCore (s : State) : s.sameCore s.eraseKeys := by
  have hfold : ∀ (l : List Nat) (t : State), s.sameCore t → s.sameCore (l.foldl (fun t i =>
      let a := t.sa i
      if !a.valid then t
      else if !a.decrypt then (if a.proto = 3 then t else t.setSa i { a with seq := a.stored })
      else if a.proto = 3 then (if a.tlsState = 3 then t else t.tlsResyncEnter ((t.laneOf i).getD 0) i)
      else t.setSa i { a with seq := a.stored, window := 2 ^ 1024 - 1 }) t) := by
    intro l
    induction l with
    | nil => exact fun t h => h
    | cons i l ih =>
      intro t h
      refine ih _ (h.trans ?_)
      dsimp only
      split
      · exact ⟨rfl, rfl, rfl⟩
      split
      · split <;> exact ⟨rfl, rfl, rfl⟩
      split
      · split
        · exact ⟨rfl, rfl, rfl⟩
        · exact tlsResyncEnter_sameCore ..
      · exact ⟨rfl, rfl, rfl⟩
  exact hfold s.cry.cache s ⟨rfl, rfl, rfl⟩

/-- Settles O11: the answers and refusals of the SMBus and the shifts of the TAP are what the unit sends (`run_sends`); an
unlock ends in the event of its outcome. -/
theorem smbusAndTap : Obligations.SmbusAndTap := by
  refine ⟨fun s c bs hheld hstandby hc => ⟨?read, ?write, ?alert, ?timeout⟩,
    fun s hheld hreleased => ⟨?instruction, ?challenge, ?unlock, ?spent⟩⟩
  case read =>
    refine run_sends (f := fun t => t.smbRead c) hheld ?_ rfl rfl rfl rfl rfl rfl
    rw [State.smbRead, if_neg (by rw [begun_supply, hstandby]; decide), Nat.mod_eq_of_lt hc]
    rfl
  case write =>
    refine run_sends (f := fun t => t.smbWrite c bs) hheld ?_ rfl rfl rfl rfl rfl rfl
    rw [State.smbWrite, if_neg (by rw [begun_supply, hstandby]; decide), Nat.mod_eq_of_lt hc]
    rfl
  case alert =>
    intro halert
    refine run_sends (f := fun t => t.alertResponse) hheld ?_ rfl rfl rfl rfl rfl rfl
    rw [State.alertResponse, if_neg (by rw [begun_supply, hstandby, halert]; decide)]
    rfl
  case timeout => exact run_sends (f := fun t => t.smbTimeout) hheld (if_pos hstandby) rfl rfl rfl rfl rfl rfl
  case instruction =>
    intro ir hir hon
    refine run_sends (f := fun t => t.tapInstruction ir) hheld ?_ rfl rfl rfl ?_ rfl rfl
    · rw [State.tapInstruction, if_neg (by exact hon), Nat.mod_eq_of_lt hir]
      split <;> rfl
    · split <;> rfl
  case challenge =>
    intro hir htest
    refine run_sends (f := fun t => t.ftChallenge) hheld ?_ rfl rfl rfl rfl rfl rfl
    have hcond : (!s.released || decide (s.tap.ir ≠ 0x30) || !s.supply.testMode) = false := by
      simp [hreleased, hir, htest]
    exact if_neg (Bool.eq_false_iff.1 hcond)
  case unlock =>
    intro sig hir htest hfails hmild hdue hheldE hmild8
    have hcond : (!s.released || decide (s.tap.ir ≠ 0x31) || !s.supply.testMode || decide (8 ≤ s.tap.fails)) = false := by
      simp [hreleased, hir, htest, hfails]
    have hunlock : s.begun.ftUnlock sig =
        if Config.ftVerify (Config.challenge s.tap.draw % 2 ^ 64) s.fuses.serial (sig % 2 ^ 768) then
          { s.begun.eraseKeys with tap := { s.begun.eraseKeys.tap with ftMode := true } }.raise 9 0
        else { s.begun with tap := { s.tap with fails := s.tap.fails + 1, draw := s.tap.draw + 1 } }.raise 8 0 :=
      if_neg (Bool.eq_false_iff.1 hcond)
    obtain ⟨hbring, hfuses, hpending⟩ := eraseKeys_sameCore s.begun
    by_cases hverify : Config.ftVerify (Config.challenge s.tap.draw % 2 ^ 64) s.fuses.serial (sig % 2 ^ 768) = true
    · rw [if_pos hverify] at hunlock
      obtain ⟨t, hrun, hframe, hpend⟩ := run_event (f := fun t => t.ftUnlock sig) hunlock
        (banksHeld_of hheldE rfl rfl) (mild_of hmild rfl rfl rfl) hdue hpending hfuses
      refine ⟨t, hrun, ?_⟩
      rw [if_pos hverify]
      refine ⟨hframe, hpend ?_⟩
      show decide (s.begun.eraseKeys.bring.phase = .released) = true
      rw [hbring]
      exact hreleased
    · rw [if_neg hverify] at hunlock
      obtain ⟨t, hrun, hreport⟩ := run_reports (f := fun t => t.ftUnlock sig) hheld hunlock hmild8 hreleased
        rfl rfl rfl rfl rfl rfl rfl rfl
      refine ⟨t, hrun, ?_⟩
      rw [if_neg hverify]
      exact hreport
  case spent =>
    intro sig hir hfails
    refine run_still (f := fun t => t.ftUnlock sig) hheld ?_ rfl rfl rfl rfl rfl rfl
    have hcond : (!s.released || decide (s.tap.ir ≠ 0x31) || !s.supply.testMode || decide (8 ≤ s.tap.fails)) = true := by
      simp [hfails]
    exact if_pos hcond

end Sys2Proof.Machine
end

