-- ==== Sys2Proof/Proofs/BringUp.lean ====
section
/-! The release point, the readiness of units and faces, and the boot (spec/04 R98-R115, spec/06 R157). -/

namespace Sys2Proof.Machine

/-- Whether a live context is bound to a failed queue is a matter of the contexts and the queues alone. -/
theorem stoHeld_of {s u : State} (h : s.stoHeld) (hs : u.sto = s.sto) (hq : u.qmg = s.qmg) : u.stoHeld := by
  unfold State.stoHeld State.boundFailed State.queueFailed State.queue State.ctx at h ⊢
  rw [hs, hq]
  exact h

/-- A fold keeps every reflexive and transitive relation that its steps keep. -/
theorem foldl_keeps {α β : Type} {R : β → β → Prop} (hrefl : ∀ b, R b b) (htrans : ∀ {a b c}, R a b → R b c → R a c)
    {f : β → α → β} (hf : ∀ b x, R b (f b x)) (l : List α) (b : β) : R b (l.foldl f b) := by
  induction l generalizing b with
  | nil => exact hrefl b
  | cons x l ih => exact htrans (hf b x) (ih (f b x))

/-- `t` differs from `s` only in its host side. -/
def HostFrame (s t : State) : Prop := t = { s with host := t.host }

theorem HostFrame.trans {s t u : State} (h : HostFrame s t) (k : HostFrame t u) : HostFrame s u := by
  generalize hx : u.host = x at k
  unfold HostFrame at *
  rw [hx, k, hx, h]

/-! ### The release point -/

/-- A face at the release point (spec/06 R157). -/
def State.facesReleased (s t : State) (k : Nat) : Prop :=
  t = { s with host := t.host } ∧ t.host.fns = s.host.fns ∧ t.host.faces.length = s.host.faces.length
    ∧ (∀ n, n < k → if s.supply.perstN.getD n false = true then
        t.face n = { s.face n with inReset := false } ∧ t.link n 0 = { state := .training }
      else t.face n = s.face n ∧ t.link n 0 = s.link n 0)
    ∧ ∀ n, k ≤ n → t.face n = s.face n ∧ t.link n 0 = s.link n 0

theorem face_setFace_self {s : State} {n : Nat} (hn : n < s.host.faces.length) (f : Face) : (s.setFace n f).face n = f := by
  rw [State.face, State.setFace, setNth, List.getD_eq_getElem?_getD, List.getElem?_set_self hn, Option.getD_some]

theorem face_setFace_ne {s : State} {n k : Nat} (h : k ≠ n) (f : Face) : (s.setFace n f).face k = s.face k := by
  rw [State.face, State.setFace, setNth, List.getD_eq_getElem?_getD, List.getElem?_set_ne (Ne.symm h),
    ← List.getD_eq_getElem?_getD, State.face]

@[simp] theorem link_setLink_self (s : State) (n l : Nat) (x : PciLink) : (s.setLink n l x).link n l = x :=
  mapGet_mapSet_self ..

theorem link_setLink_ne {s : State} {n l m k : Nat} (h : 2 * m + k ≠ 2 * n + l) (x : PciLink) :
    (s.setLink n l x).link m k = s.link m k := mapGet_mapSet_ne _ _ _ h

/-- Releasing one more face changes that face alone. -/
theorem facesReleased_succ {s t : State} {k : Nat} (hk : k < s.host.faces.length) (h : s.facesReleased t k) :
    s.facesReleased (t.releaseFace k) (k + 1) := by
  obtain ⟨hrest, hfns, hlen, hdone, hleft⟩ := h
  obtain ⟨hface, hlink⟩ := hleft k (Nat.le_refl k)
  have hperst : t.supply.perstN.getD k false = s.supply.perstN.getD k false := by rw [hrest]
  unfold State.releaseFace
  rw [hperst]
  cases hp : s.supply.perstN.getD k false with
  | false =>
    refine ⟨hrest, hfns, hlen, fun n hn => ?_, fun n hn => hleft n (by omega)⟩
    by_cases hnk : n = k
    · subst hnk
      rw [if_neg (by rw [hp]; decide)]
      exact ⟨hface, hlink⟩
    · exact hdone n (by omega)
  | true =>
    have hother : ∀ n, n ≠ k → ((t.setFace k { t.face k with inReset := false }).setLink k 0 { state := .training }).face n
        = t.face n ∧ ((t.setFace k { t.face k with inReset := false }).setLink k 0 { state := .training }).link n 0
        = t.link n 0 := fun n hn =>
      ⟨face_setFace_ne hn _, link_setLink_ne (by omega) _⟩
    refine ⟨?_, hfns, ?_, fun n hn => ?_, fun n hn => ?_⟩
    · simp only [Bool.not_true, Bool.false_eq_true, if_false]
      conv_lhs => rw [hrest]
      rfl
    · exact (List.length_set ..).trans hlen
    · by_cases hnk : n = k
      · subst hnk
        rw [if_pos hp, ← hface]
        exact ⟨face_setFace_self (hlen ▸ hk) _, link_setLink_self ..⟩
      · simp only [Bool.not_true, Bool.false_eq_true, if_false]
        rw [(hother n hnk).1, (hother n hnk).2]
        exact hdone n (by omega)
    · simp only [Bool.not_true, Bool.false_eq_true, if_false]
      rw [(hother n (by omega)).1, (hother n (by omega)).2]
      exact hleft n (by omega)

theorem releaseFaces_released {s : State} (hlen : s.host.faces.length = 4) :
    s.facesReleased ((List.range 4).foldl (fun t n => t.releaseFace n) s) 4 := by
  have h0 : s.facesReleased s 0 := ⟨rfl, rfl, rfl, fun n hn => absurd hn (Nat.not_lt_zero n), fun _ _ => ⟨rfl, rfl⟩⟩
  have hk : ∀ k, k < 4 → k < s.host.faces.length := fun k h => hlen.symm ▸ h
  exact facesReleased_succ (hk 3 (by decide)) (facesReleased_succ (hk 2 (by decide))
    (facesReleased_succ (hk 1 (by decide)) (facesReleased_succ (hk 0 (by decide)) h0)))

/-- The time base judges its reference good (spec/02 R58). -/
theorem tsuJudge_good {s : State} (hhere : s.tsuRefHere = true) (hfallback : s.tsu.fallback = false) :
    s.tsuJudge = { s with tsu := { s.tsu with refOk := true, fallback := false } } := by
  simp only [State.tsuJudge, hhere, hfallback, if_true, Bool.false_eq_true, if_false]

/-- The state at the release point before its faces are released and its time base is judged (spec/04 R102). -/
def State.sampled (s : State) (i : ReleaseIn) : State :=
  let b := fun k => strapOf (ix i.straps k)
  let prim := b2n (b 2) + 2 * b2n (b 3)
  { s with
    supply := { s.supply with
      stackId := b2n (b 0) + 2 * b2n (b 1), primaryFace := prim, bootSel := b 4, testMode := b 5 }
    bring := { s.bring with
      phase := .released, everReleased := true, cause := s.bring.nextCause
      causeSrc := if s.bring.nextCause = 2 then s.bring.nextSrc else 0, btlState := 1 }
    clocks := { s.clocks with lrefaAtRelease := s.clocks.lrefa, lrefbAtRelease := s.clocks.lrefb }
    glb := { s.glb with
      primary := prim, faceWr := (List.range 4).map (fun n => if n = prim then 0x1FFFFF else 0)
      dtFaces := (List.range 4).map (fun n => s.faceEntry n) }
    tap := { s.tap with draw := s.tap.draw + 1 } }

/-- Beside its faces, the release is the sampling and a good time base: HKCLK is present and is the reference selected. -/
theorem releaseChip_good {s : State} {i : ReleaseIn} (hclk : s.clocks.hkclk = true) (hfallback : s.tsu.fallback = false)
    (hregs : s.regs = []) :
    s.releaseChip i = { (List.range 4).foldl (fun (t : State) n => t.releaseFace n) (s.sampled i) with
      tsu := { s.tsu with refOk := true, fallback := false } } := by
  have hface : ∀ (t : State) (n : Nat), HostFrame t (t.releaseFace n) := by
    intro t n
    unfold State.releaseFace
    split <;> rfl
  have hfold : HostFrame (s.sampled i) ((List.range 4).foldl (fun (t : State) n => t.releaseFace n) (s.sampled i)) :=
    foldl_keeps (R := HostFrame) (fun _ => rfl) HostFrame.trans hface _ _
  show State.tsuJudge ((List.range 4).foldl (fun (t : State) n => t.releaseFace n) (s.sampled i)) = _
  rw [hfold]
  generalize ((List.range 4).foldl (fun (t : State) n => t.releaseFace n) (s.sampled i)).host = host
  have hword : State.bit { s.sampled i with host := host } Reg.tsuCtl [] 0 = false := by
    show bitOf (mapGet 0 s.regs (Reg.tsuCtl.addr [])) 0 = false
    rw [hregs]
    rfl
  have hhere : State.tsuRefHere { s.sampled i with host := host } = true := by
    rw [State.tsuRefHere, hword]
    exact hclk
  exact tsuJudge_good hhere hfallback

/-- Settles O12: the release samples, judges the time base and releases the faces one by one (`facesReleased_succ`). -/
theorem releasePointRuns : Obligations.ReleasePointRuns := by
  intro s i hheld hstandby hgood hclk htrip hlow hfallback hregs hlen b prim v faces
  have hrelease : ∀ t : State, t.clocks = s.clocks → t.tsu = s.tsu → t.regs = s.regs → t.host = s.host →
      t.supply.perstN = s.supply.perstN → faces (t.releaseChip i)
        ∧ t.releaseChip i = { t.sampled i with
            tsu := { s.tsu with refOk := true, fallback := false }, host := (t.releaseChip i).host } := by
    intro t hclocks htsu hregs' hhost hperst
    rw [releaseChip_good (hclocks ▸ hclk) (htsu ▸ hfallback) (hregs'.trans hregs), htsu]
    obtain ⟨hrest, hfns, -, hdone, -⟩ := releaseFaces_released (s := t.sampled i) (hhost ▸ hlen)
    generalize (List.range 4).foldl (fun (t : State) n => t.releaseFace n) (t.sampled i) = r at *
    refine ⟨⟨hfns.trans (congrArg HostSide.fns hhost), fun n hn => ?_⟩, ?_⟩
    · have h := hdone n hn
      have hface : (t.sampled i).face n = s.face n := by
        show t.host.faces.getD n {} = _
        rw [hhost]; rfl
      have hlink : (t.sampled i).link n 0 = s.link n 0 := by
        show mapGet {} t.host.links (2 * n + 0) = _
        rw [hhost]; rfl
      have hpin : (t.sampled i).supply.perstN = s.supply.perstN := hperst
      rw [hface, hlink, hpin] at h
      exact h
    · rw [hrest]
  have hrun : ∀ (f : State → State) (t : State), f s.begun = t.releaseChip i →
      t = { s.begun with supply := t.supply } → t.supply.perstN = s.supply.perstN →
      run f s = .next (t.releaseChip i) ∧ faces (t.releaseChip i)
        ∧ t.releaseChip i = { t.sampled i with
            tsu := { s.tsu with refOk := true, fallback := false }, host := (t.releaseChip i).host } := by
    intro f t hf ht hperst
    obtain ⟨hfaces, heq⟩ := hrelease t (by rw [ht]; rfl) (by rw [ht]; rfl) (by rw [ht]; rfl) (by rw [ht]; rfl) hperst
    refine ⟨run_still hheld hf ?_ ?_ ?_ ?_ ?_ ?_, hfaces, heq⟩ <;> rw [heq, ht] <;> rfl
  refine ⟨fun hmodule => ?point, fun hchip => ?chip⟩
  case point =>
    have hpoint : s.begun.releasePoint i =
        State.releaseChip { s.begun with supply := { s.supply with mrstN := true } } i := by
      have hcond : (decide (s.supply.phase = .good) && decide (s.bring.phase = .module)) = true := by simp [hgood, hmodule]
      rw [State.releasePoint, if_neg (by rw [begun_supply, hstandby]; decide)]
      simp only [State.withSupply, begun_supply, htrip, hlow, Bool.false_and, Bool.false_eq_true, if_false]
      exact if_pos hcond
    obtain ⟨hnext, hfaces, heq⟩ := hrun (fun t => t.releasePoint i) _ hpoint rfl rfl
    exact ⟨_, hnext, hfaces, heq⟩
  case chip =>
    have hcond : (decide (s.bring.phase = .chip) && decide (s.supply.phase = .good)) = true := by simp [hchip, hgood]
    obtain ⟨hnext, hfaces, heq⟩ := hrun (fun t => t.chipResetEnd i) s.begun (if_pos hcond) rfl rfl
    exact ⟨_, hnext, hfaces, heq⟩

/-! ### Units and courses -/

theorem runMain_still {f : State → State} {s u : State} (hreleased : s.released = true) (hheld : s.banksHeld)
    (h : f s.begun = u) (hr : u.rules = s.rules) (hp : u.packets = s.packets) (hd : u.due = []) (ho : u.out = [])
    (hq : u.pending = s.pending) (hf : u.fuses = s.fuses) : runMain f s = .next u :=
  (runMain_on hreleased).trans (run_still hheld h hr hp hd ho hq hf)

/-- `t` differs from `s` only in its admission slots. -/
def SlotFrame (s t : State) : Prop := t = { s with rules := { s.rules with slots := t.rules.slots } }

theorem SlotFrame.trans {s t u : State} (h : SlotFrame s t) (k : SlotFrame t u) : SlotFrame s u := by
  unfold SlotFrame at *
  generalize u.rules.slots = x at k ⊢
  rw [k, h]

/-- The reserve of one activity, out of the slots that are left (spec/01 R28 item 1). -/
def State.allocateOne (c : Nat) (p : Nat × State) (a : Nat) : Nat × State :=
  let want := if a = 1 || a = 3 then 0 else p.2.fld Reg.prsAdmitSlots [c, a] 0 9
  let g := min want p.1
  (p.1 - g, p.2.setSlots c (Act.ofVal a) { p.2.slots c (Act.ofVal a) with granted := g })

theorem allocateSlots_eq (s : State) (c : Nat) :
    s.allocateSlots c = ((List.range 8).foldl (State.allocateOne c) (256, s)).2 := rfl

/-- Allocating a course's reserves changes slots alone (spec/01 R28). -/
theorem allocateSlots_frame (s : State) (c : Nat) : SlotFrame s (s.allocateSlots c) := by
  rw [allocateSlots_eq]
  exact foldl_keeps (R := fun p q : Nat × State => SlotFrame p.2 q.2) (fun _ => rfl) SlotFrame.trans
    (fun p a => by rw [State.allocateOne]; rfl) (List.range 8) (256, s)

/-- What an activity is allocated turns on the slots and the registers alone. -/
theorem allocateOne_rules {c n a : Nat} {t u : State} (hr : t.rules = u.rules) (hg : t.regs = u.regs) :
    (State.allocateOne c (n, t) a).1 = (State.allocateOne c (n, u) a).1
      ∧ (State.allocateOne c (n, t) a).2.rules = (State.allocateOne c (n, u) a).2.rules
      ∧ (State.allocateOne c (n, t) a).2.regs = (State.allocateOne c (n, u) a).2.regs := by
  have hfld : t.fld Reg.prsAdmitSlots [c, a] 0 9 = u.fld Reg.prsAdmitSlots [c, a] 0 9 := by
    unfold State.fld State.word
    rw [hg]
  simp only [State.allocateOne, hfld, State.setSlots, State.slots, hr, hg, and_self]

theorem allocateSlots_rules {c : Nat} {t u : State} (hr : t.rules = u.rules) (hg : t.regs = u.regs) :
    (t.allocateSlots c).rules = (u.allocateSlots c).rules := by
  have hfold : ∀ (l : List Nat) (p q : Nat × State), p.1 = q.1 → p.2.rules = q.2.rules → p.2.regs = q.2.regs →
      (l.foldl (State.allocateOne c) p).2.rules = (l.foldl (State.allocateOne c) q).2.rules := by
    intro l
    induction l with
    | nil => exact fun _ _ _ h _ => h
    | cons a l ih =>
      rintro ⟨n, t⟩ ⟨k, u⟩ rfl hr hg
      obtain ⟨hn, hr', hg'⟩ := allocateOne_rules (c := c) (n := n) (a := a) hr hg
      exact ih _ _ hn hr' hg'
  exact hfold (List.range 8) (256, t) (256, u) rfl hr hg

/-- Banks held depends on the banks of the rule engine and on the packets alone. -/
theorem banksHeld_of_banks {s u : State} (h : s.banksHeld) (hr : u.rules.banks = s.rules.banks)
    (hp : u.packets = s.packets) : u.banksHeld := by
  intro b hb
  have hbank := h b hb
  simp only [State.bank, State.inflight, hr, hp] at hbank ⊢
  exact hbank

/-! ### The boot -/

/-- Nothing waits for the holder of the lease. -/
theorem deliverWaiting_none {s : State} (hwait : s.flt.waiting = []) (hchans : s.ivm.chans = [])
    (hnotices : s.ivm.notices = []) : s.deliverWaiting = s := by
  have hflt : { s with flt := { s.flt with waiting := [] } } = s := by rw [← hwait]
  unfold State.deliverWaiting
  simp only [hwait, hflt, List.foldl_nil, hchans, hnotices]

/-- A grant of the lease with nothing waiting for the holder (spec/18 R549). -/
theorem grantLease_quiet {s : State} (x : Nat) (hwait : s.flt.waiting = []) (hchans : s.ivm.chans = [])
    (hnotices : s.ivm.notices = []) :
    s.grantLease x = { s with
      bring := { s.bring with readySub := putBit s.bring.readySub 18 true }
      ksc := { s.ksc with
        cplx := setNth s.ksc.cplx x { s.cplx x with state := .active, forTakeover := false }, active := x, held := true
        epoch := (s.ksc.epoch + 1) % 65536, leaseEnd := s.now + 100000, takeover := false, takeoverAt := none
        handover := false, handoverReq := none }
      glb := { s.glb with dtFirmware := [(s.cplx x).fwVer, 1 + 256], dtGen := (s.glb.dtGen + 2) % 2 ^ 32 }
      tap := { s.tap with imgSvn := (s.cplx x).svn, imgKey := (s.cplx x).key, ckVer := Config.freeNat s.freeCount % 256 }
      freeCount := s.freeCount + 1 } := by
  unfold State.grantLease
  exact deliverWaiting_none (by exact hwait) (by exact hchans) (by exact hnotices)

/-- A complex as an image's start finds it: loaded (spec/04 R106). -/
def Complex.loaded (c : Complex) (v : SlotIn) : Complex :=
  { c with fwVer := v.fwVer, svn := v.svn, key := v.key % 4, sram := codeMem v.code }

theorem bootStart_eq (s : State) (x k : Nat) (v : SlotIn) :
    let u := s.setCplx x ((s.cplx x).loaded v)
    let u := u.setCplx (1 - x) { u.cplx (1 - x) with state := if x = 1 then .failed else .off }
    s.bootStart x k v =
      let t := State.grantLease { u with
        bring := { s.bring with
          btlState := 4, btlSlot := k, btlComplex := x, btlFwVer := v.fwVer, btlStartTick := s.now }
        ksc := { u.ksc with ckptFrom := s.now } } x
      { t with tap := { t.tap with ckWritten := t.tap.ckVer, confirmed := true } } := rfl

/-- What the start of an image on complex A leaves, with nothing waiting for the holder (spec/04 R106, spec/18 R549). -/
theorem bootStart_quiet {s : State} {k : Nat} {v : SlotIn} (hwait : s.flt.waiting = []) (hchans : s.ivm.chans = [])
    (hnotices : s.ivm.notices = []) (hlen : s.ksc.cplx.length = 2) :
    let t := s.bootStart 0 k v
    t = { s with bring := t.bring, ksc := t.ksc, glb := t.glb, tap := t.tap, freeCount := s.freeCount + 1 }
      ∧ t.bring = { s.bring with
          btlState := 4, btlSlot := k, btlComplex := 0, btlFwVer := v.fwVer, btlStartTick := s.now
          readySub := putBit s.bring.readySub 18 true }
      ∧ (t.ksc.held = true ∧ t.ksc.active = 0 ∧ t.ksc.epoch = (s.ksc.epoch + 1) % 65536 ∧ t.ksc.leaseEnd = s.now + 100000)
      ∧ ((t.cplx 0).state = .active ∧ (t.cplx 1).state = .off)
      ∧ t.glb.dtFirmware = [v.fwVer, 1 + 256] ∧ t.tap.imgSvn = v.svn := by
  intro t
  obtain ⟨a, b, hab⟩ := List.length_eq_two.1 hlen
  have hfirst : s.setCplx 0 ((s.cplx 0).loaded v) = { s with ksc := { s.ksc with cplx := [a.loaded v, b] } } := by
    simp only [State.setCplx, State.cplx, hab]
    rfl
  have ht : t = let u := State.grantLease { s with
        bring := { s.bring with
          btlState := 4, btlSlot := k, btlComplex := 0, btlFwVer := v.fwVer, btlStartTick := s.now }
        ksc := { s.ksc with cplx := [a.loaded v, { b with state := .off }], ckptFrom := s.now } } 0
      { u with tap := { u.tap with ckWritten := u.tap.ckVer, confirmed := true } } := by
    show s.bootStart 0 k v = _
    rw [bootStart_eq, hfirst]
    rfl
  rw [grantLease_quiet 0 (by exact hwait) (by exact hchans) (by exact hnotices)] at ht
  rw [ht]
  exact ⟨rfl, rfl, ⟨rfl, rfl, rfl, rfl⟩, ⟨rfl, rfl⟩, rfl, rfl⟩

/-- Settles O13: readiness bits rise one at a time; the boot's outcome is the first slot's image (`bootStart_quiet`) or, with
no directory, the report of its failure. -/
theorem unitsReadyAndBoot : Obligations.UnitsReadyAndBoot := by
  refine ⟨fun s hheld hreleased => ⟨?block, ?hbm, ?port, ?quoin, ?course, ?done⟩,
    fun s i hheld _ hreleased hready hstate => ⟨?boots, ?fails⟩⟩
  case block =>
    intro n hn h17 h18 hnot hnoreset
    refine runMain_still (f := fun t => t.unitReady (.block n) true) hreleased hheld ?_ rfl rfl rfl rfl rfl rfl
    have hcond : (decide (20 < n) || decide (n = 17) || decide (n = 18) || s.ready n || s.inReset n) = false := by
      simp [h17, h18, hnot, hnoreset, hn]
    rw [State.unitReady, if_neg (by rw [begun_released, hreleased]; decide)]
    exact if_neg (Bool.eq_false_iff.1 hcond)
  case hbm =>
    intro hnot hnoreset hmild
    rw [show exec (.unitReady (.block 16) false) s = runMain (fun t => t.unitReady (.block 16) false) s from rfl,
      runMain_on hreleased]
    refine run_reports (d := 0) hheld ?_ hmild hreleased rfl rfl rfl rfl rfl rfl rfl rfl
    have hcond : (decide (20 < 16) || decide (16 = 17) || decide (16 = 18) || s.ready 16 || s.inReset 16) = false := by
      simp [hnot, hnoreset]
    rw [State.unitReady, if_neg (by rw [begun_released, hreleased]; decide)]
    exact if_neg (Bool.eq_false_iff.1 hcond)
  case port =>
    intro n hn hlanes
    refine runMain_still (f := fun t => t.unitReady (.port n) true) hreleased hheld ?_ rfl rfl rfl rfl rfl rfl
    have hcond : (decide (31 < n) || decide (s.portLanes n = 0) || !true) = false := by
      simp [hlanes, show n ≤ 31 by omega]
    rw [State.unitReady, if_neg (by rw [begun_released, hreleased]; decide)]
    exact if_neg (Bool.eq_false_iff.1 hcond)
  case quoin =>
    intro n hn hclk
    refine runMain_still (f := fun t => t.unitReady (.quoin n) true) hreleased hheld ?_ rfl rfl rfl rfl rfl rfl
    have hcond : (decide (3 < n) || !s.clocks.lrefaAtRelease || !true) = false := by
      simp [hclk, show n ≤ 3 by omega]
    rw [State.unitReady, if_neg (by rw [begun_released, hreleased]; decide)]
    exact if_neg (Bool.eq_false_iff.1 hcond)
  case course =>
    intro c hc hst hnot
    have hcond : (decide (3 < c) || decide (s.courseSt c ≠ .inService) || !true || bitOf s.bring.readyCourse c) = false := by
      simp [hst, hnot, show c ≤ 3 by omega]
    have heff : s.begun.unitReady (.course c) true = (s.begun.allocateSlots c).setCourseReady c true := by
      rw [State.unitReady, if_neg (by rw [begun_released, hreleased]; decide)]
      exact if_neg (Bool.eq_false_iff.1 hcond)
    have hframe : s.begun.allocateSlots c = { s.begun with
        rules := { s.rules with slots := (s.begun.allocateSlots c).rules.slots } } := allocateSlots_frame s.begun c
    have hslots : (s.begun.allocateSlots c).rules.slots = (s.allocateSlots c).rules.slots :=
      congrArg Rules.slots (allocateSlots_rules rfl rfl)
    rw [hslots] at hframe
    rw [hframe] at heff
    have hrun := (runMain_on (f := fun t => t.unitReady (.course c) true) hreleased).trans
      (run_quiet heff (banksHeld_of_banks hheld rfl rfl) rfl rfl rfl rfl)
    exact ⟨_, hrun, rfl, rfl⟩
  case done =>
    intro n hn h17 hreset
    refine runMain_still (f := fun t => t.blockResetDone n) hreleased hheld ?_ rfl rfl rfl rfl rfl rfl
    have hcond : (!s.released || decide (20 < n) || !s.inReset n) = false := by simp [hreleased, hreset, hn]
    refine (if_neg (Bool.eq_false_iff.1 hcond)).trans ?_
    exact if_neg h17
  case boots =>
    intro hdir hokA hsel hseq hslot hwait hchans hnotices hlen
    have horder : bootOrder s.supply.bootSel i = [0, 1, 2] := by
      rw [bootOrder, hsel, if_neg (by decide), if_neg (Nat.not_lt.2 hseq)]
    have hcond : (!s.released || !s.ready 0 || decide (s.bring.btlState = 0) || decide (4 ≤ s.bring.btlState)) = false := by
      simp [hreleased, hready, hstate]
    have heff : s.begun.bootComplete i =
        State.bootStart { s.begun with bring := { s.bring with btlDirBackup := decide (i.dir = 1) } } 0 0 (i.slots.getD 0 {}) := by
      refine (if_neg (Bool.eq_false_iff.1 hcond)).trans ((if_neg (by omega)).trans ?_)
      rw [hokA, if_neg (by simp), if_pos rfl]
      refine (congrArg _ horder).trans ?_
      exact if_pos hslot
    obtain ⟨hframe, hbring, ⟨hheldL, hactive, hepoch, hend⟩, ⟨hA, hB⟩, hdt, hsvn⟩ := bootStart_quiet
      (s := { s.begun with bring := { s.bring with btlDirBackup := decide (i.dir = 1) } }) (k := 0)
      (v := i.slots.getD 0 {}) hwait hchans hnotices hlen
    rw [← heff] at hframe hbring hheldL hactive hepoch hend hA hB hdt hsvn
    obtain ⟨t, ht⟩ : ∃ t, s.begun.bootComplete i = t := ⟨_, rfl⟩
    rw [ht] at hframe hbring hheldL hactive hepoch hend hA hB hdt hsvn
    have hflt : t.flt = s.flt := (congrArg State.flt hframe :)
    have hrun : exec (.bootComplete i) s = .next t :=
      runMain_still (f := fun t => t.bootComplete i) hreleased hheld ht (congrArg State.rules hframe :)
        (congrArg State.packets hframe :) (congrArg State.due hframe :) (congrArg State.out hframe :)
        (congrArg State.pending hframe :) (congrArg State.fuses hframe :)
    refine ⟨t, hrun, hframe.trans ?_, hbring, hheldL, hactive, hepoch, hend, hA, hB, hdt, hsvn, hflt⟩
    rw [hflt]
    rfl
  case fails =>
    intro hdir hmild
    rw [show exec (.bootComplete i) s = runMain (fun t => t.bootComplete i) s from rfl, runMain_on hreleased]
    refine run_reports (d := 0) hheld ?_ hmild hreleased rfl rfl rfl rfl rfl rfl rfl rfl
    have hcond : (!s.released || !s.ready 0 || decide (s.bring.btlState = 0) || decide (4 ≤ s.bring.btlState)) = false := by
      simp [hreleased, hready, hstate]
    refine (if_neg (Bool.eq_false_iff.1 hcond)).trans ?_
    refine (if_pos hdir).trans ?_
    rw [State.bootFails, decide_eq_false (show ¬ i.dir = 1 by omega)]
    rfl

/-! ### Faces -/

/-- What wakes no link: nothing that is sent goes out on a link in L1 (spec/06 R186). -/
theorem wakeLinks_awake {u : State} {f l : Nat} {x : PcieMsg} (ho : u.out = [.pcie f l x]) (hl : (u.link f l).state ≠ .l1) :
    u.wakeLinks = u := by
  unfold State.wakeLinks
  rw [ho]
  exact if_neg hl

/-- As `close_eq`, for an effect that sends to a host on links that are awake. -/
theorem close_awake {s u : State} (hb : u.banksHeld) (hd : u.due = []) (hw : u.wakeLinks = u) (hp : u.pending = s.pending)
    (hf : u.fuses = s.fuses) : s.close u = u := by
  unfold State.close State.ended
  rw [settle_quiet hb hd, hw, ← hp, ← hf, ← hd]

theorem runHost_still {f : State → State} {s u : State} (hreleased : s.released = true) (hheld : s.banksHeld)
    (hsto : s.stoHeld) (h : f s.begun = u) (hs : u.sto = s.sto) (hm : u.qmg = s.qmg) (hr : u.rules = s.rules)
    (hp : u.packets = s.packets) (hd : u.due = []) (ho : u.out = []) (hq : u.pending = s.pending) (hf : u.fuses = s.fuses) :
    runHost f s = .next u :=
  (runHost_on hreleased (by rw [h]; exact stoHeld_of hsto hs hm)).trans (run_still hheld h hr hp hd ho hq hf)

theorem sendDrs_inactive {s : State} {f l : Nat} (h : (s.link f l).active = false) : s.sendDrs f l = s := by
  rw [State.sendDrs, h]
  rfl

/-- Device Readiness Status goes out once on an active link of a ready face (spec/04 R110). -/
theorem sendDrs_active {s : State} {f l : Nat} (hactive : (s.link f l).active = true)
    (hready : bitOf s.bring.readyFace f = true) (hunsent : (s.link f l).drsSent = false) :
    s.sendDrs f l = (s.setLink f l { s.link f l with drsSent := true }).send (.pcie f l .readinessStatus) := by
  simp only [State.sendDrs, hactive, hready, hunsent, Bool.not_false, Bool.and_self, if_true]

/-- A face that becomes ready, with no message held for its manager. -/
theorem faceReady_eq {s : State} {n : Nat} (hn : n < 4) (hreleased : s.released = true) (hout : (s.face n).inReset = false)
    (hnot : bitOf s.bring.readyFace n = false) (hready : s.ready 0 = true) (hmgr : s.flt.mgrHeld = false) :
    s.faceReady n =
      (State.sendDrs { s with bring := { s.bring with readyFace := putBit s.bring.readyFace n true } } n 0).sendDrs n 1 := by
  have hcond : (!s.released || decide (3 < n) || (s.face n).inReset || bitOf s.bring.readyFace n || !s.ready 0) = false := by
    simp [hreleased, hout, hnot, hready, show n ≤ 3 by omega]
  have hflt : ∀ (t : State) (l : Nat), (t.sendDrs n l).flt = t.flt := fun t l => by
    unfold State.sendDrs
    dsimp only
    split <;> rfl
  refine (if_neg (Bool.eq_false_iff.1 hcond)).trans (if_neg ?_)
  rw [hflt, hflt]
  simp [hmgr]

/-- Settles O14: before the release PERST_N moves its pin alone; a ready face sets its bit and, on an active link, sends its
readiness once. -/
theorem facesComeUp : Obligations.FacesComeUp := by
  intro s n hheld hsto hn
  refine ⟨fun hheldReset hhigh => ?fall, fun hheldReset hlow => ?rise,
    fun hreleased hout hnot hready hmgr hidle => ⟨fun hdown => ?quiet, fun hl0 hunsent => ?sends⟩, fun hreleased hhigh => ?reset⟩
  case fall =>
    refine run_still (f := fun t => (t.perstFall n).settleSto) hheld ?_ rfl rfl rfl rfl rfl rfl
    have hcond : (decide (3 < n) || !s.supply.perstN.getD n false) = false := by rw [hhigh]; simp; omega
    have heff : s.begun.perstFall n = { s.begun with supply := { s.supply with perstN := s.supply.perstN.set n false } } :=
      (if_neg (Bool.eq_false_iff.1 hcond)).trans (if_neg (Bool.eq_false_iff.1 hheldReset))
    rw [heff]
    exact settleSto_held (stoHeld_of hsto rfl rfl)
  case rise =>
    refine run_still (f := fun t => (t.perstRise n).settleSto) hheld ?_ rfl rfl rfl rfl rfl rfl
    have hcond : (decide (3 < n) || s.supply.perstN.getD n false) = false := by rw [hlow]; simp; omega
    have heff : s.begun.perstRise n = { s.begun with supply := { s.supply with perstN := s.supply.perstN.set n true } } :=
      (if_neg (Bool.eq_false_iff.1 hcond)).trans (if_pos (by
        show (!s.released) = true
        rw [hheldReset]; rfl))
    rw [heff]
    exact settleSto_held (stoHeld_of hsto rfl rfl)
  case quiet =>
    refine runHost_still (f := fun t => t.faceReady n) hreleased hheld hsto ?_ rfl rfl rfl rfl rfl rfl rfl rfl
    rw [faceReady_eq (s := s.begun) hn hreleased hout hnot hready hmgr, sendDrs_inactive (l := 0) (by exact hdown),
      sendDrs_inactive (l := 1) (by exact hidle)]
    rfl
  case sends =>
    have hactive : (s.link n 0).active = true := by rw [PciLink.active, hl0]; rfl
    have heff : s.begun.faceReady n = { s.begun with
        bring := { s.bring with readyFace := putBit s.bring.readyFace n true }
        host := { s.host with links := mapSet {} s.host.links (2 * n) { s.link n 0 with drsSent := true } }
        out := [.pcie n 0 .readinessStatus] } := by
      rw [faceReady_eq (s := s.begun) hn hreleased hout hnot hready hmgr,
        sendDrs_active (l := 0) (by exact hactive) (by exact putBit_self _ _) (by exact hunsent), sendDrs_inactive]
      · rfl
      · show (State.link (State.setLink s n 0 _) n 1).active = false
        rw [link_setLink_ne (by omega)]
        exact hidle
    have hlink : ∀ t : State, t.host.links = mapSet {} s.host.links (2 * n) { s.link n 0 with drsSent := true } →
        (t.link n 0).state ≠ .l1 := by
      intro t ht
      rw [State.link, ht, Nat.add_zero, mapGet_mapSet_self, hl0]
      decide
    refine (runHost_on (f := fun t => t.faceReady n) hreleased (by rw [heff]; exact stoHeld_of hsto rfl rfl)).trans ?_
    rw [run, heff]
    exact congrArg _ (close_awake (banksHeld_of hheld rfl rfl) rfl (wakeLinks_awake rfl (hlink _ rfl)) rfl rfl)
  case reset =>
    have hcond : (decide (3 < n) || !s.supply.perstN.getD n false) = false := by rw [hhigh]; simp; omega
    have heff : s.begun.perstFall n =
        State.faceReset { s.begun with supply := { s.supply with perstN := s.supply.perstN.set n false } } n :=
      (if_neg (Bool.eq_false_iff.1 hcond)).trans (if_pos hreleased)
    show run (fun t => (t.perstFall n).settleSto) s = _
    rw [run, heff]

end Sys2Proof.Machine
end

