-- ==== Sys2Proof/Proofs/RegisterWrites.lean ====
section

/-! O15 and O16: register writes, memory errors and the clearing of counts. -/

namespace Sys2Proof.Machine

/-- A module whose face 0 may write every block and whose word of PWR_DROOP_THR holds bit 32, above the register's 32 bits. -/
def wideDroop : State :=
  { bring := { phase := .released, readySub := 0x1FFFFF, readyFace := 1 }
    host := { links := [(0, { state := .l0 })], fns := [(2048, { mse := true })] }
    glb := { faceWr := [0x1FFFFF, 0, 0, 0] }
    regs := [(0x200104, 2 ^ 32)] }

theorem wideDroop_writes : wideDroop.writes (.pf 0) (Reg.pwrDroopThr.addr []) := ⟨⟨rfl, by decide⟩, by decide⟩

theorem wideDroop_held : wideDroop.banksHeld := banksHeld_of resetMeetsTheInvariants.1 rfl rfl

theorem wideDroop_sto : wideDroop.stoHeld := fun _ hp => nomatch hp

/-- A whole word written through BAR0 to an address that is no mailbox and no lease register goes to the register's effect. -/
theorem registerWrite_word {s : State} {f a d : Nat} (hlow : a < 0x4000000) (hword : a % 4 = 0) (hchan : chanAt a = none)
    (hrenew : a ≠ blockBase 18 + 8) (hreq : a ≠ blockBase 18 + 0x10) :
    s.registerWrite (.pf f) a 4 d = s.access (.pf f) a 4 d (regEff (.pf f) a 4 d) := by
  simp only [State.registerWrite, if_pos hlow, State.bySpan, State.regAccess, hchan, hword, hrenew, hreq, decide_true,
    decide_false, Bool.and_self, Bool.and_false, Bool.true_or, Bool.false_eq_true, if_true, if_false]

/-- A whole write of PWR_DROOP_THR through BAR0 goes to the register's store. -/
theorem registerWrite_droop (s : State) (f d : Nat) : s.registerWrite (.pf f) (Reg.pwrDroopThr.addr []) 4 d =
    s.access (.pf f) (Reg.pwrDroopThr.addr []) 4 d (State.writeReg (.pf f) Reg.pwrDroopThr [] (d % 2 ^ 32)) := by
  have hreg : regAt (Reg.pwrDroopThr.addr []) = some (Reg.pwrDroopThr, []) := by
    have htsu : Reg.tsuCtl.at? (Reg.pwrDroopThr.addr []) = none := by decide
    have hadj : Reg.tsuTodAdj.at? (Reg.pwrDroopThr.addr []) = none := by decide
    have hpace : Reg.pwrPaceCtl.at? (Reg.pwrDroopThr.addr []) = none := by decide
    have hself : Reg.pwrDroopThr.at? (Reg.pwrDroopThr.addr []) = some [] := by decide
    simp only [regAt, allRegs, List.cons_append, List.findSome?_cons, htsu, hadj, hpace, hself, Option.map_none, Option.map_some]
  have heff : regEff (.pf f) (Reg.pwrDroopThr.addr []) 4 d = wordEff (.pf f) (Reg.pwrDroopThr.addr []) d := by
    simp only [regEff, plainEff]
    norm_num [show Reg.pwrDroopThr.addr [] = 0x200104 from rfl, blockBase]
  have hchan : chanAt (Reg.pwrDroopThr.addr []) = none := by
    rw [chanAt]
    exact if_pos (show Reg.pwrDroopThr.addr [] < blockBase 7 + 0x100000 by decide)
  have hstored : storedEff (.pf f) Reg.pwrDroopThr [] (d % 2 ^ 32) = State.writeReg (.pf f) Reg.pwrDroopThr [] (d % 2 ^ 32) := by
    simp only [storedEff, Reg.pwrDroopThr]
  rw [registerWrite_word (by decide) (by decide) hchan (by decide) (by decide), heff, wordEff, hreg]
  dsimp only
  rw [hstored]

/-- Refutes O15: a write to PWR_DROOP_THR replaces its two fields in the stored word, so where the word of a state holds bit 32
(`wideDroop`), that bit stays beside the clamped fields that the statement names. -/
theorem not_registerWritesAreJudged : ¬ Obligations.RegisterWritesAreJudged := by
  intro h
  obtain ⟨-, -, -, -, hpf, -⟩ := h.1 wideDroop 0 wideDroop_held wideDroop_sto rfl (by decide)
  have hclaim := hpf 0 wideDroop_writes
  have hstore : State.writeReg (.pf 0) Reg.pwrDroopThr [] 0 wideDroop.begun =
      (wideDroop.begun.setWord Reg.pwrDroopThr [] (2 ^ 32 + 2 + 10 * 256), true) :=
    writeReg_open (.inl rfl) rfl (by decide) rfl
  have hwrite : wideDroop.begun.registerWrite (.pf 0) (Reg.pwrDroopThr.addr []) 4 0 =
      wideDroop.begun.setWord Reg.pwrDroopThr [] (2 ^ 32 + 2 + 10 * 256) := by
    have heff := access_eff ((begun_reaches wideDroop _ _).2 wideDroop_writes.1) 4 0
      (State.writeReg (.pf 0) Reg.pwrDroopThr [] 0) false (by rw [hstore])
    rw [registerWrite_droop, Nat.zero_mod, heff, hstore]
    rfl
  have hrun : exec (.registerWrite (.pf 0) (Reg.pwrDroopThr.addr []) 4 0) wideDroop =
      .next (wideDroop.begun.setWord Reg.pwrDroopThr [] (2 ^ 32 + 2 + 10 * 256)) :=
    runHost_still (f := fun t => t.registerWrite (.pf 0) (Reg.pwrDroopThr.addr []) 4 0) rfl wideDroop_held wideDroop_sto hwrite
      rfl rfl rfl rfl rfl rfl rfl rfl
  have hstates := Host.Outcome.next.inj (hrun.symm.trans hclaim)
  have hwords : 2 ^ 32 + 2 + 10 * 256 = clampNat 2 20 (bitsOf 0 0 5) + clampNat 10 60 (bitsOf 0 8 6) * 256 := by
    rw [← word_setWord_self wideDroop.begun Reg.pwrDroopThr [] (2 ^ 32 + 2 + 10 * 256), hstates]
    exact word_setWord_self wideDroop.begun Reg.pwrDroopThr [] _
  exact absurd hwords (by decide)

/-! ### Errors in memories and the fault registers -/

/-- A count of a counter that is none of the severity counters leaves an event mild and asks for no reset. -/
theorem count_mild {w : State} {src a n : Nat} (hmild : w.mild src) (hne : ∀ k, k < 5 → fltCounter k ≠ a)
    (hroom : mapGet 0 w.counters a + n < 2 ^ 47) : (w.count a n).mild src ∧ (w.count a n).due = w.due := by
  have hquiet : w.count a n = { w with counters := mapSet 0 w.counters a (mapGet 0 w.counters a + n) } := countWith_quiet hroom
  rw [hquiet]
  refine ⟨⟨hmild.1, fun k hk => ?_⟩, rfl⟩
  dsimp only
  rw [mapGet_mapSet_ne _ _ _ (hne k hk)]
  exact hmild.2 k hk

/-- As `run_event`, with what is true before the command asked of the state before it. -/
theorem run_reportsWith {f : State → State} {s v : State} {src d : Nat} {who : Option Nat} {acc : Acc} (hheld : s.banksHeld)
    (h : f s.begun = v.raise src d who acc) (hm : s.mild src) (hreleased : v.released = true) (hr : v.rules = s.rules)
    (hp : v.packets = s.packets) (hd : v.due = []) (hq : v.pending = s.pending) (hf : v.fuses = s.fuses)
    (hregs : v.regs = s.regs) (hcaps : v.flt.caps = s.flt.caps) (hcount : v.counters = s.counters) :
    ∃ t, run f s = .next t ∧ Reported src v t := by
  obtain ⟨t, hrun, hframe, hpend⟩ :=
    run_event h (banksHeld_of hheld hr hp) (mild_of hm hregs hcaps hcount) hd hq hf
  exact ⟨t, hrun, hframe, hpend hreleased⟩

theorem memError_eq {s : State} {b uncorr : Nat} (hb : b ≤ 20) (hreleased : s.released = true) :
    s.memError b uncorr = State.raise { s with freeCount := s.freeCount + 1 } (blockSrc b + uncorr)
      (Config.freeNat s.freeCount) none { master := masterWord 4 b 0 } := by
  have hcond : (decide (20 < b) || !s.released) = false := by simp [hb, hreleased]
  exact if_neg (Bool.eq_false_iff.1 hcond)

theorem run_memError {s : State} {b uncorr : Nat} (hheld : s.banksHeld) (hreleased : s.released = true) (hb : b ≤ 20)
    (hmild : s.mild (blockSrc b + uncorr)) :
    ∃ t, runMain (fun t => t.memError b uncorr) s = .next t
      ∧ Reported (blockSrc b + uncorr) { s.begun with freeCount := s.freeCount + 1 } t := by
  rw [runMain_on hreleased]
  exact run_reportsWith hheld (memError_eq (s := s.begun) hb hreleased) hmild hreleased rfl rfl rfl rfl rfl rfl rfl rfl

theorem run_hbmError {s : State} {src a : Nat} (hheld : s.banksHeld) (hreleased : s.released = true) (hmild : s.mild src) :
    ∃ t, runMain (fun t => t.hbmError src a) s = .next t ∧ Reported src s.begun t := by
  rw [runMain_on hreleased]
  exact run_reportsWith hheld (if_pos hreleased) hmild hreleased rfl rfl rfl rfl rfl rfl rfl rfl

/-- The counter of the injections that end in an event, or of those refused, is no severity counter. -/
theorem fltCounter_injections {i : Nat} (hi : 5 ≤ i) : ∀ k, k < 5 → fltCounter k ≠ fltCounter i := by
  intro k hk
  simp only [fltCounter]
  omega

theorem exec_captureAck {s : State} {m : Master} {c d : Nat} (hc : c < 4) (hd : d < 2 ^ 32) : exec (.captureAck m c d) s =
    runMain (fun t => t.access m (blockBase 19 + 0x2000 + 0x40 * c) 4 d (State.captureAck c d)) s := by
  show execCaptureAck m c d s = _
  simp only [execCaptureAck, Nat.mod_eq_of_lt hd, if_neg (show ¬ 3 < c by omega)]

theorem exec_txtsPop {s : State} {m : Master} {n d : Nat} (hn : n < 32) (hd : d < 2 ^ 32) : exec (.txtsPop m n d) s =
    runMain (fun t => t.access m (blockBase 3 + 0x2010 + 0x20 * n) 4 d (State.txtsPop n d)) s := by
  show execTxtsPop m n d s = _
  simp only [execTxtsPop, Nat.mod_eq_of_lt hd, if_neg (show ¬ 31 < n by omega)]

/-! ### Counters that are cleared -/

theorem mapGet_filter (m : AMap Nat) (keep : Nat → Bool) (q : Nat) :
    mapGet 0 (m.filter (fun p => keep p.1)) q = if keep q then mapGet 0 m q else 0 := by
  induction m with
  | nil => simp [mapGet]
  | cons p m ih =>
    obtain ⟨k, v⟩ := p
    by_cases hkey : k = q
    · subst hkey
      cases hkeep : keep k <;> simp [hkeep, mapGet, ih]
    · cases hkeep : keep k <;> simp [hkeep, mapGet, ih, hkey]

/-- The counters that STAT_CLEAR names (spec/05 R143). -/
def clearNamed (lsd : Bool) (mask a : Nat) : Bool :=
  if lsd then decide (lsdCounter 0 0 ≤ a) && decide (a < lsdCounter 32 0) && bitOf mask ((a - lsdCounter 0 0) / 0x40)
  else decide (macCounter 0 0 ≤ a) && decide (a < macCounter 32 0) && bitOf mask ((a - macCounter 0 0) / 0x800)

theorem statClear_eq (lsd : Bool) (mask : Nat) (s : State) :
    State.statClear lsd mask s = ({ s with counters := s.counters.filter (fun c => !clearNamed lsd mask c.1) }, true) := rfl

theorem clearNamed_port (lsd : Bool) {mask n k : Nat} (hn : n < 32) (hk : k < if lsd then 8 else 256) :
    clearNamed lsd mask (if lsd then lsdCounter n k else macCounter n k) = bitOf mask n := by
  cases lsd with
  | true =>
    have hport : (lsdCounter n k - lsdCounter 0 0) / 0x40 = n := by simp only [lsdCounter] at *; simp at hk; omega
    have hlow : lsdCounter 0 0 ≤ lsdCounter n k := by simp only [lsdCounter]; omega
    have hhigh : lsdCounter n k < lsdCounter 32 0 := by simp only [lsdCounter]; simp at hk; omega
    simp [clearNamed, hport, hlow, hhigh]
  | false =>
    have hport : (macCounter n k - macCounter 0 0) / 0x800 = n := by simp only [macCounter]; simp at hk; omega
    have hlow : macCounter 0 0 ≤ macCounter n k := by simp only [macCounter]; omega
    have hhigh : macCounter n k < macCounter 32 0 := by simp only [macCounter]; simp at hk; omega
    simp [clearNamed, hport, hlow, hhigh]

theorem clearNamed_outside (lsd : Bool) {mask a : Nat}
    (ha : if lsd then a < lsdCounter 0 0 ∨ lsdCounter 32 0 ≤ a else a < macCounter 0 0 ∨ macCounter 32 0 ≤ a) :
    clearNamed lsd mask a = false := by
  cases lsd with
  | true => rcases ha with h | h <;> simp [clearNamed, Nat.not_le.2, Nat.not_lt.2, h]
  | false => rcases ha with h | h <;> simp [clearNamed, Nat.not_le.2, Nat.not_lt.2, h]

/-- Settles O16: memory errors raise their event over a fresh open value, and the fault and counter registers do what their
effects name. -/
theorem errorsAndCounts : Obligations.ErrorsAndCounts := by
  refine ⟨fun s hheld hreleased => ⟨fun b hb hmild => run_memError (uncorr := 0) hheld hreleased hb hmild,
    fun b hb hmild => run_memError (uncorr := 1) hheld hreleased hb hmild, fun hmild => run_hbmError hheld hreleased hmild,
    fun a hmild => run_hbmError hheld hreleased hmild, fun a hmild => run_hbmError hheld hreleased hmild⟩,
    fun s m d hheld hd => ⟨?ack, ?release, ?inject, ?denied⟩, fun s m d hheld hd => ⟨?clear, ?pop, ?peak⟩⟩
  case ack =>
    intro c hc hw
    rw [exec_captureAck hc hd]
    cases hbit : bitOf d 10 with
    | true => exact run_write hw (banksHeld_of hheld rfl rfl) (if_pos hbit) rfl rfl rfl rfl rfl rfl
    | false => exact run_write hw hheld (if_neg (Bool.eq_false_iff.1 hbit)) rfl rfl rfl rfl rfl rfl
  case release =>
    intro hw
    show execErrpinRelease m d s = _
    rw [execErrpinRelease, Nat.mod_eq_of_lt hd]
    cases hbit : bitOf d 0 with
    | true =>
      exact run_write hw (banksHeld_of hheld rfl rfl) (congrArg (·, true) (if_pos hbit)) rfl rfl rfl rfl rfl rfl
    | false =>
      exact run_write hw hheld (congrArg (·, true) (if_neg (Bool.eq_false_iff.1 hbit))) rfl rfl rfl rfl rfl rfl
  case inject =>
    intro hw hft hsrc hmild hroom
    obtain ⟨hcountMild, hdue⟩ := count_mild (w := s.begun) hmild (fltCounter_injections (by omega)) hroom
    have hcount := EventFrame.count s.begun (fltCounter 5) 1
    have hksc := congrArg State.ksc hcount
    have hreleased : (s.begun.count (fltCounter 5) 1).released = true := by rw [State.released, hcount.bring]; exact hw.1.1
    have heff := faultInject_of_open (s := s.begun) hft hsrc
    show ∃ t, execFaultInject m d s = .next t ∧ _
    rw [execFaultInject, Nat.mod_eq_of_lt hd]
    obtain ⟨t, hrun, hframe, hpend⟩ := run_write_event (n := 4) (d := d) (x := false) hw
      (banksHeld_of hheld hcount.rules hcount.packets) heff hcountMild hdue hreleased hcount.pending hcount.fuses
      (by rw [hksc]; rfl) (by rw [hksc]; rfl)
    exact ⟨t, hrun, (hcount.logged m _ 4 d hw.2).trans hframe, hpend⟩
  case denied =>
    intro hw hft hmild hroom
    obtain ⟨hcountMild, hdue⟩ := count_mild (w := s.begun) hmild (fltCounter_injections (by omega)) hroom
    have hcount := EventFrame.count s.begun (fltCounter 6) 1
    have hreleased : (s.begun.count (fltCounter 6) 1).released = true := by rw [State.released, hcount.bring]; exact hw.1.1
    have heff := faultInject_of_refused (s := s.begun) (d := d) (.inl hft)
    obtain ⟨t, hrun, hframe, hpend⟩ := run_event (s := s)
      (f := fun t => t.access m (blockBase 19 + 0x3010) 4 d (State.faultInject d))
      (by rw [access_reaches ((begun_reaches s m _).2 hw.1), heff]; rfl)
      (banksHeld_of hheld hcount.rules hcount.packets) hcountMild hdue hcount.pending hcount.fuses
    show ∃ t, execFaultInject m d s = .next t ∧ _
    rw [execFaultInject, Nat.mod_eq_of_lt hd, runMain_on hw.1.1]
    exact ⟨t, hrun, hcount.trans hframe, hpend hreleased⟩
  case clear =>
    intro lsd hw
    have hexec : exec (.statClear m lsd d) s =
        runMain (fun t => t.access m (blockBase (if lsd then 2 else 3) + 0x3000) 4 d (State.statClear lsd d)) s := by
      show execStatClear m lsd d s = _
      rw [execStatClear, Nat.mod_eq_of_lt hd]
    have hrun := hexec.trans (run_write (n := 4) (d := d) (x := false) hw
      (v := { s.begun with counters := s.counters.filter (fun c => !clearNamed lsd d c.1) }) (banksHeld_of hheld rfl rfl)
      (statClear_eq lsd d s.begun) rfl rfl rfl rfl rfl rfl)
    have hcounters : (m.logged (blockBase (if lsd then 2 else 3) + 0x3000) 4 d
        { s.begun with counters := s.counters.filter (fun c => !clearNamed lsd d c.1) }).counters =
          s.counters.filter (fun c => !clearNamed lsd d c.1) := by
      rcases logged_cases m (blockBase (if lsd then 2 else 3) + 0x3000) 4 d
        { s.begun with counters := s.counters.filter (fun c => !clearNamed lsd d c.1) } hw.2 with hl | ⟨_, _, hl, -⟩ <;>
        rw [hl]
    refine ⟨_, hrun, ?_, fun n k hn hk => ?_, fun a ha => ?_⟩
    · exact (congrArg (fun x => m.logged (blockBase (if lsd then 2 else 3) + 0x3000) 4 d { s.begun with counters := x })
        hcounters).symm
    · rw [hcounters, mapGet_filter _ (fun a => !clearNamed lsd d a), clearNamed_port lsd hn hk]
      cases bitOf d n <;> rfl
    · rw [hcounters, mapGet_filter _ (fun a => !clearNamed lsd d a), clearNamed_outside lsd ha]
      rfl
  case pop =>
    intro n hn hw
    rw [exec_txtsPop hn hd]
    cases hbit : bitOf d 0 with
    | true => exact run_write hw (banksHeld_of hheld rfl rfl) (if_pos hbit) rfl rfl rfl rfl rfl rfl
    | false => exact run_write hw hheld (if_neg (Bool.eq_false_iff.1 hbit)) rfl rfl rfl rfl rfl rfl
  case peak =>
    intro hw hbit
    show execPeakClear m d s = _
    rw [execPeakClear, Nat.mod_eq_of_lt hd]
    exact run_write hw (banksHeld_of hheld rfl rfl) (congrArg (·, true) (if_pos hbit)) rfl rfl rfl rfl rfl rfl

end Sys2Proof.Machine
end

