-- ==== Sys2Proof/Proofs/CoursesAndVersions.lean ====
section

/-! O17 and O18: courses in service, and the security version. -/

namespace Sys2Proof.Machine

/-! ### Courses -/

theorem SlotFrame.rest {s t : State} (h : SlotFrame s t) : t.rules.banks = s.rules.banks ∧ t.packets = s.packets ∧ t.due = s.due
    ∧ t.out = s.out ∧ t.pending = s.pending ∧ t.fuses = s.fuses ∧ t.ksc = s.ksc := by
  unfold SlotFrame at h
  generalize t.rules.slots = x at h
  subst h
  exact ⟨rfl, rfl, rfl, rfl, rfl, rfl, rfl⟩

theorem exec_courseDrain {s : State} {m : Master} {c : Nat} (hc : c < 4) : exec (.courseDrain m c) s =
    runMain (fun t => t.access m courseCmdAddr 4 (courseWord 1 c) (State.courseCommand m 1 c)) s := by
  show execCourseDrain m c s = _
  simp only [execCourseDrain, if_neg (show ¬ 3 < c by omega)]

theorem exec_courseTest {s : State} {m : Master} {c : Nat} (hc : c < 4) : exec (.courseTest m c) s =
    runMain (fun t => t.access m courseCmdAddr 4 (courseWord 2 c) (State.courseCommand m 2 c)) s := by
  show execCourseTest m c s = _
  simp only [execCourseTest, if_neg (show ¬ 3 < c by omega)]

theorem exec_courseReturn {s : State} {m : Master} {c : Nat} (hc : c < 4) : exec (.courseReturn m c) s =
    runMain (fun t => t.access m courseCmdAddr 4 (courseWord 3 c) (State.courseCommand m 3 c)) s := by
  show execCourseReturn m c s = _
  simp only [execCourseReturn, if_neg (show ¬ 3 < c by omega)]

/-- A command of firmware is taken while the command set is free. -/
theorem courseCommand_free {s : State} {m : Master} {op c : Nat} (hfw : m.isFw = true) (hfree : s.courses.cmd.busy = false)
    (hc : c < 4) : State.courseCommand m op c s =
      (match op with
       | 1 => s.courseDrain c
       | 2 => s.courseTest c
       | 3 => s.courseReturn c
       | _ => s.endCourse 2, true) := by
  have hcond : (!m.isFw || s.courses.cmd.busy || decide (3 < c)) = false := by simp [hfw, hfree]; omega
  exact if_neg (Bool.eq_false_iff.1 hcond)

theorem courseDrain_starts {s : State} {c : Nat} (hin : s.courseSt c = .inService) (hfree : s.courseMapped c = false)
    (hother : ∃ d, d < 4 ∧ d ≠ c ∧ s.courseSt d = .inService) : s.courseDrain c =
      ((s.setCourse c { s.course c with state := .draining }).setCourseReady c false).endCourse 0 := by
  have hnotAll : (List.range 4).all (fun d => decide (d = c) || decide (s.courseSt d ≠ .inService)) = false := by
    obtain ⟨d, hd, hne, hst⟩ := hother
    exact List.all_eq_false.2 ⟨d, List.mem_range.2 hd, by simp [hne, hst]⟩
  refine (if_neg (not_not.2 hin)).trans (if_neg ?_)
  rw [hfree, hnotAll]
  simp

theorem courseDrain_mapped {s : State} {c : Nat} (hin : s.courseSt c = .inService) (hmapped : s.courseMapped c = true) :
    s.courseDrain c = s.endCourse 2 :=
  (if_neg (not_not.2 hin)).trans (if_pos (by rw [hmapped, Bool.true_or]))

theorem courseTest_starts {s : State} {c : Nat} (h : s.courseSt c = .out ∨ s.courseSt c = .failed) :
    s.courseTest c = (s.setCourse c { s.course c with state := .testing }).endCourse 0 :=
  if_pos (by rcases h with h | h <;> simp [h])

/-- A course is empty where none of its slots is in use and no Mark names it. -/
theorem courseOut_empty {s : State} {c : Nat} (hc : c < 4) (hst : s.courseSt c = .draining)
    (hslots : ∀ a, a < 8 → (s.rules.slots.getD (c * 8 + a) {}).inUse = 0) (hmarks : ∀ p ∈ s.packets, p.2.mark.course ≠ c) :
    s.courseOut c = s.setCourse c { s.course c with state := .out } := by
  have hempty : (List.range 8).all (fun a => decide ((s.rules.slots.getD (c * 8 + a) {}).inUse = 0)) = true := by
    simpa using hslots
  have hunnamed : s.packets.any (fun (p : Nat × Packet) => decide (p.2.mark.course = c)
      && ((p.2.stage = .queued && decide (p.2.eg = .act .recirc))
        || (p.2.stage = .waitSlot && decide (p.2.mark.entAct = .recirc)))) = false :=
    List.any_eq_false.2 fun p hp => by simp [hmarks p hp]
  refine if_neg ?_
  rw [hempty, hunnamed, hst]
  simp
  omega

/-- Settles O17: each command ends at once with its result, and a drained, tested or returned course is where it is to be. -/
theorem coursesInService : Obligations.CoursesInService := by
  intro s x ep c hheld hc m ended
  refine ⟨fun hw hfree => ⟨fun hin hmapped hother => ?drain, fun hin hmapped => ?mapped, fun hnot => ?notIn,
    fun hout => ?test, fun hout => ?ret, fun hnot => ?notOut⟩, fun hreleased hst hslots hmarks => ?out,
    fun ok hreleased hst => ?tested⟩
  case drain =>
    rw [exec_courseDrain hc]
    exact run_write hw (banksHeld_of hheld rfl rfl) ((courseCommand_free (s := s.begun) rfl hfree hc).trans
      (congrArg (·, true) (courseDrain_starts (s := s.begun) hin hmapped hother))) rfl rfl rfl rfl rfl rfl
  case mapped =>
    rw [exec_courseDrain hc]
    exact run_write hw (banksHeld_of hheld rfl rfl) ((courseCommand_free (s := s.begun) rfl hfree hc).trans
      (congrArg (·, true) (courseDrain_mapped (s := s.begun) hin hmapped))) rfl rfl rfl rfl rfl rfl
  case notIn =>
    rw [exec_courseDrain hc]
    exact run_write hw (banksHeld_of hheld rfl rfl) ((courseCommand_free (s := s.begun) rfl hfree hc).trans
      (congrArg (·, true) (if_pos hnot))) rfl rfl rfl rfl rfl rfl
  case test =>
    rw [exec_courseTest hc]
    exact run_write hw (banksHeld_of hheld rfl rfl) ((courseCommand_free (s := s.begun) rfl hfree hc).trans
      (congrArg (·, true) (courseTest_starts (s := s.begun) hout))) rfl rfl rfl rfl rfl rfl
  case ret =>
    rw [exec_courseReturn hc]
    have hframe := (allocateSlots_frame (s.begun.setCourse c { s.course c with state := .inService }) c).rest
    have heff := (courseCommand_free (s := s.begun) (m := m) (op := 3) rfl hfree hc).trans
      (congrArg (·, true) (if_neg (not_not.2 hout)))
    have hcourse : s.begun.course c = s.course c := rfl
    rw [hcourse] at heff
    show _ = Host.Outcome.next (m.logged courseCmdAddr 4 (courseWord 3 c) (State.endCourse (State.setCourseReady
      ((s.begun.setCourse c { s.course c with state := .inService }).allocateSlots c) c true) 0))
    generalize (s.begun.setCourse c { s.course c with state := .inService }).allocateSlots c = t at hframe heff
    obtain ⟨hbanks, hpackets, hdue, hout, hpending, hfuses, hksc⟩ := hframe
    exact run_write hw (banksHeld_of_banks hheld hbanks hpackets) heff hdue (by rw [State.endCourse, State.setCourseReady, hout]; rfl)
      hpending hfuses (congrArg Ksc.j hksc) (congrArg Ksc.ckptJpos hksc)
  case notOut =>
    rw [exec_courseReturn hc]
    exact run_write hw (banksHeld_of hheld rfl rfl) ((courseCommand_free (s := s.begun) rfl hfree hc).trans
      (congrArg (·, true) (if_pos hnot))) rfl rfl rfl rfl rfl rfl
  case out =>
    exact runMain_still (f := fun t => t.courseOut c) hreleased hheld (courseOut_empty (s := s.begun) hc hst hslots hmarks)
      rfl rfl rfl rfl rfl rfl
  case tested =>
    refine runMain_still (f := fun t => t.courseTestEnd c ok) hreleased hheld (if_neg ?_) rfl rfl rfl rfl rfl rfl
    have hst' : s.begun.courseSt c = .testing := hst
    rw [hst']
    simp
    omega

/-! ### The security version -/

/-- The end of a command that may change fuses, where nothing is asked for and nothing is sent. -/
theorem ended_quiet {s u : State} (hb : u.banksHeld) (hd : u.due = []) (ho : u.out = []) (hp : u.pending = s.pending) :
    s.ended u = u := by
  have hwake : u.wakeLinks = u := by rw [State.wakeLinks, ho]; rfl
  rw [State.ended, settle_quiet hb hd, hwake, ← hp, ← hd]

/-- What a BTL_SVN_RAISE that is well-formed asks for (spec/21 R648). -/
theorem svnRaise_fields {svn rv : Nat} (hsvn : svn < 65536) (hrv : rv < 16) :
    bitsOf (svn + 65536 * rv) 0 16 = svn ∧ bitsOf (svn + 65536 * rv) 16 4 = rv := by
  simp only [bitsOf]
  omega

theorem svnAllowed_iff {s : State} {svn rv : Nat} : s.svnAllowed svn rv = true ↔
    (s.fuses.minSvn < svn ∨ rv ≠ 0) ∧ svn ≤ s.tap.imgSvn ∧ bitOf rv s.tap.imgKey = false ∧ rv ≠ 15 := by
  simp only [State.svnAllowed, Bool.and_eq_true, Bool.not_eq_true', Bool.and_eq_false_iff, decide_eq_true_eq,
    decide_eq_false_iff_not, Nat.not_le, and_assoc, ne_eq]

theorem svnRaise_taken {s : State} {m : Master} {svn rv : Nat} (hfw : m.isFw = true) (hfree : s.tap.svnBusy = false)
    (hsvn : svn < 65536) (hrv : rv < 16) : State.svnRaise m (svn + 65536 * rv) s =
      if s.svnAllowed svn rv then ({ s with tap := { s.tap with svnBusy := true, svnNew := some (svn, rv) } }, true)
      else ({ s with tap := { s.tap with svnResult := 2 } }, true) := by
  obtain ⟨hlow, hhigh⟩ := svnRaise_fields hsvn hrv
  simp only [State.svnRaise, hfw, hfree, hlow, hhigh, Bool.not_true, Bool.or_self, Bool.false_eq_true, if_false]

theorem exec_svnRaise {s : State} {m : Master} {d : Nat} (hd : d < 2 ^ 32) :
    exec (.svnRaise m d) s = runMain (fun t => t.access m svnRaiseAddr 4 d (State.svnRaise m d)) s := by
  show execSvnRaise m d s = _
  rw [execSvnRaise, Nat.mod_eq_of_lt hd]

/-- Settles O18: the version is raised where `State.svnAllowed` says so, and the fusing takes the larger version and the
revocations. -/
theorem securityVersionRises : Obligations.SecurityVersionRises := by
  intro s m svn rv hheld hsvn hrv d
  have hd : d < 2 ^ 32 := show svn + 65536 * rv < 2 ^ 32 by omega
  refine ⟨fun hw hfw hfree => ⟨fun hrises hle hown hnotAll => ?raise, fun hrefused => ?refuse⟩, fun hw hignored => ?ignore,
    fun hreleased hnew hwait => ?fuse⟩
  case raise =>
    have hallowed : s.begun.svnAllowed svn rv = true := svnAllowed_iff.2 ⟨hrises, hle, hown, hnotAll⟩
    rw [exec_svnRaise hd]
    exact run_write hw (banksHeld_of hheld rfl rfl) ((svnRaise_taken (s := s.begun) hfw hfree hsvn hrv).trans
      (if_pos hallowed)) rfl rfl rfl rfl rfl rfl
  case refuse =>
    have hdenied : ¬ s.begun.svnAllowed svn rv = true := by
      intro hall
      obtain ⟨hrises, hle, hown, hnotAll⟩ := svnAllowed_iff.1 hall
      rcases hrefused with h | h | h | h
      · exact hrises.elim (Nat.not_lt.2 h.1) (fun hne => hne h.2)
      · exact absurd hle (Nat.not_le.2 h)
      · exact Bool.false_ne_true (hown.symm.trans h)
      · exact hnotAll h
    rw [exec_svnRaise hd]
    exact run_write hw (banksHeld_of hheld rfl rfl) ((svnRaise_taken (s := s.begun) hfw hfree hsvn hrv).trans
      (if_neg hdenied)) rfl rfl rfl rfl rfl rfl
  case ignore =>
    have heff : State.svnRaise m d s.begun = (s.begun, false) :=
      if_pos (by
        show (!m.isFw || s.tap.svnBusy) = true
        rcases hignored with h | h <;> simp [h])
    rw [exec_svnRaise hd, runMain_on hw.1]
    refine run_still hheld ?_ rfl rfl rfl rfl rfl rfl
    rw [access_reaches ((begun_reaches s m _).2 hw), heff]
    rfl
  case fuse =>
    have heff : s.begun.svnFuseEnd = { s.begun with
        fuses := { s.fuses with minSvn := max s.fuses.minSvn svn, revoked := Nat.lor s.fuses.revoked rv }
        tap := { s.tap with svnBusy := false, svnNew := none, svnResult := 0 } } := by
      have hnew' : s.begun.tap.svnNew = some (svn, rv) := hnew
      rw [State.svnFuseEnd, hnew']
      exact if_neg (Bool.eq_false_iff.1 hwait)
    show runFuse (fun t => if t.released then t.svnFuseEnd else t) s = _
    have hon : (if s.begun.released then s.begun.svnFuseEnd else s.begun) = s.begun.svnFuseEnd := if_pos hreleased
    rw [runFuse]
    dsimp only
    rw [hon, heff]
    exact congrArg _ (ended_quiet (banksHeld_of hheld rfl rfl) rfl rfl rfl)

end Sys2Proof.Machine
end

