-- ==== Sys2Proof/Proofs/Fields.lean ====
section

/-! Fields of words that are written again, and entries of maps that are written twice. -/

namespace Sys2Proof.Machine

theorem testBit_putBits (v lo w x j : Nat) :
    (putBits v lo w x).testBit j = if lo ≤ j ∧ j < lo + w then x.testBit (j - lo) else v.testBit j := by
  have hsplit : putBits v lo w x = 2 ^ lo * (2 ^ w * (v / 2 ^ (lo + w)) + x % 2 ^ w) + v % 2 ^ lo := by
    unfold putBits
    rw [pow_add]
    ring
  rw [hsplit, Nat.testBit_two_pow_mul_add _ (Nat.mod_lt _ (Nat.two_pow_pos lo)),
    Nat.testBit_two_pow_mul_add _ (Nat.mod_lt _ (Nat.two_pow_pos w)), Nat.testBit_mod_two_pow, Nat.testBit_mod_two_pow,
    Nat.testBit_div_two_pow]
  by_cases hlow : j < lo
  · simp [hlow, Nat.not_le.2 hlow]
  · by_cases hhigh : j < lo + w
    · simp [hlow, Nat.not_lt.1 hlow, hhigh, show j - lo < w by omega]
    · simp only [hlow, hhigh, show ¬ j - lo < w by omega, if_false, and_false]
      congr 1
      omega

theorem testBit_bitsOf (v lo w j : Nat) : (bitsOf v lo w).testBit j = (decide (j < w) && v.testBit (lo + j)) := by
  rw [bitsOf, Nat.testBit_mod_two_pow, Nat.testBit_div_two_pow, Nat.add_comm j lo]

theorem bitsOf_putBits_self (v lo w x : Nat) : bitsOf (putBits v lo w x) lo w = x % 2 ^ w := by
  refine Nat.eq_of_testBit_eq fun j => ?_
  rw [testBit_bitsOf, testBit_putBits, Nat.testBit_mod_two_pow, Nat.add_sub_cancel_left]
  by_cases hj : j < w <;> simp [hj]

theorem bitsOf_putBits_apart {v lo w x lo' w' : Nat} (h : lo' + w' ≤ lo ∨ lo + w ≤ lo') :
    bitsOf (putBits v lo w x) lo' w' = bitsOf v lo' w' := by
  refine Nat.eq_of_testBit_eq fun j => ?_
  rw [testBit_bitsOf, testBit_bitsOf, testBit_putBits]
  by_cases hj : j < w'
  · rw [if_neg (by omega)]
  · simp [hj]

theorem bitOf_eq_bitsOf (v i : Nat) : bitOf v i = decide (bitsOf v i 1 = 1) := by
  rw [bitOf, bitsOf, pow_one, Nat.testBit_eq_decide_div_mod_eq]

theorem bitsOf_mod (v lo w : Nat) : bitsOf v lo w % 2 ^ w = bitsOf v lo w := Nat.mod_mod _ _

/-- Writing bit `i` leaves every field beside it. -/
theorem bitsOf_putBit_apart {v i lo w : Nat} {b : Bool} (h : lo + w ≤ i ∨ i < lo) : bitsOf (putBit v i b) lo w = bitsOf v lo w :=
  bitsOf_putBits_apart (by omega)

theorem bitOf_putBit_self (v i : Nat) (b : Bool) : bitOf (putBit v i b) i = b := by
  rw [bitOf, putBit, testBit_putBits, if_pos (by omega), Nat.sub_self]
  cases b <;> rfl

section
variable {α : Type}

theorem mapPut_mapPut (m : AMap α) (q : Nat) (v w : α) : mapPut (mapPut m q v) q w = mapPut m q w := by
  induction m with
  | nil => simp [mapPut]
  | cons p m ih =>
    obtain ⟨k, x⟩ := p
    by_cases hlt : q < k
    · simp [mapPut, hlt]
    · by_cases heq : q = k
      · simp [mapPut, heq]
      · simp [mapPut, hlt, heq, ih]

theorem mapErase_mapPut (m : AMap α) (q : Nat) (v : α) : mapErase (mapPut m q v) q = mapErase m q := by
  induction m with
  | nil => simp [mapPut, mapErase]
  | cons p m ih =>
    obtain ⟨k, x⟩ := p
    by_cases hlt : q < k
    · simp [mapPut, hlt, mapErase]
    · by_cases heq : q = k
      · simp [mapPut, heq, mapErase]
      · simp only [mapErase] at ih
        simp only [mapPut, hlt, heq, if_false, mapErase, List.filter_cons, ih]

/-- A place that is written twice holds what was written last; the first value must not be the default, which erases. -/
theorem mapSet_mapSet [DecidableEq α] {d v : α} (m : AMap α) (q : Nat) (hv : v ≠ d) (w : α) :
    mapSet d (mapSet d m q v) q w = mapSet d m q w := by
  rw [mapSet, mapSet, mapSet, if_neg hv, mapErase_mapPut, mapPut_mapPut]

end

/-- A command whose effect is a count of a counter that is no severity counter, and a mild event. -/
theorem run_counts_event {f : State → State} {s v : State} {src d a n : Nat} {who : Option Nat} {acc : Acc} (hheld : s.banksHeld)
    (h : f s.begun = (v.count a n).raise src d who acc) (hm : s.mild src) (hne : ∀ k, k < 5 → fltCounter k ≠ a)
    (hroom : mapGet 0 s.counters a + n < 2 ^ 47) (hreleased : v.released = true) (hr : v.rules = s.rules)
    (hp : v.packets = s.packets) (hd : v.due = []) (hq : v.pending = s.pending) (hf : v.fuses = s.fuses)
    (hregs : v.regs = s.regs) (hcaps : v.flt.caps = s.flt.caps) (hcount : v.counters = s.counters) :
    ∃ t, run f s = .next t ∧ Reported src v t := by
  have hcounted := EventFrame.count v a n
  obtain ⟨hmild, hdue⟩ := count_mild (a := a) (n := n) (mild_of hm hregs hcaps hcount) hne (by rw [hcount]; exact hroom)
  obtain ⟨t, hrun, hframe, hpend⟩ := run_event h (banksHeld_of hheld (hcounted.rules.trans hr) (hcounted.packets.trans hp)) hmild
    (hdue.trans hd) (hcounted.pending.trans hq) (hcounted.fuses.trans hf)
  refine ⟨t, hrun, hcounted.trans hframe, hpend ?_⟩
  rw [State.released, hcounted.bring]
  exact hreleased

end Sys2Proof.Machine
end

