-- ==== Sys2Proof/Proofs/LinePorts.lean ====
section

/-! O19 and O20: line ports and their links. -/

namespace Sys2Proof.Machine

@[simp] theorem port_setPort_self (s : State) (n : Nat) (x : LinePort) : (s.setPort n x).port n = x := by
  rw [State.port, State.setPort]
  exact mapGet_mapSet_self _ _ _ _

theorem setPort_setPort {s : State} {n : Nat} {x : LinePort} (hx : x ≠ {}) (y : LinePort) :
    (s.setPort n x).setPort n y = s.setPort n y := by
  simp only [State.setPort, mapSet_mapSet _ _ hx]

/-! ### LSD_PORT_CTL -/

/-- The word of LSD_PORT_CTL that a write leaves: the written fields over the word before. -/
def portWord (old d : Nat) : Nat := storeFields false old d Reg.lsdPortCtl.fields

theorem portWord_eq (old d : Nat) : portWord old d =
    putBits (putBits (putBits (putBits (putBits old 0 1 (bitsOf d 0 1)) 1 2 (bitsOf d 1 2)) 3 2 (bitsOf d 3 2)) 5 1
      (bitsOf d 5 1)) 6 2 (bitsOf d 6 2) := rfl

theorem portWord_rate (old d : Nat) : bitsOf (portWord old d) 1 2 = bitsOf d 1 2 := by
  rw [portWord_eq, bitsOf_putBits_apart (by omega), bitsOf_putBits_apart (by omega), bitsOf_putBits_apart (by omega),
    bitsOf_putBits_self, bitsOf_mod]

theorem portWord_fec (old d : Nat) : bitsOf (portWord old d) 3 2 = bitsOf d 3 2 := by
  rw [portWord_eq, bitsOf_putBits_apart (by omega), bitsOf_putBits_apart (by omega), bitsOf_putBits_self, bitsOf_mod]

theorem portWord_an (old d : Nat) : bitOf (portWord old d) 5 = bitOf d 5 := by
  rw [bitOf_eq_bitsOf, portWord_eq, bitsOf_putBits_apart (by omega), bitsOf_putBits_self, bitsOf_mod, ← bitOf_eq_bitsOf]

theorem portWord_loopback (old d : Nat) : bitsOf (portWord old d) 6 2 = bitsOf d 6 2 := by
  rw [portWord_eq, bitsOf_putBits_self, bitsOf_mod]

/-- The state after the word of LSD_PORT_CTL of a port was written. -/
def State.portStored (s : State) (n d : Nat) : State :=
  s.setWord Reg.lsdPortCtl [n] (portWord (s.word Reg.lsdPortCtl [n]) d)

theorem portCtl_eq {s : State} {m : Master} {n d : Nat} (hlock : bitOf s.glb.lock 2 = false) :
    State.portCtl m n d s =
      if bitOf d 0 then ((s.portStored n d).enablePort n, true)
      else if ((s.portStored n d).port n).running then ((s.portStored n d).disablePort n, true)
      else (s.portStored n d, true) := by
  have hstore : State.writeReg m Reg.lsdPortCtl [n] d s = (s.portStored n d, true) :=
    writeReg_open (.inl rfl) rfl (by decide) hlock
  simp only [State.portCtl, hstore, Bool.not_true, Bool.false_eq_true, if_false]

theorem portCtl_addr_ne_octet (n o : Nat) (hn : n < 32) (ho : o < 4) : Reg.lsdOctetCfg.addr [o] ≠ Reg.lsdPortCtl.addr [n] := by
  simp only [RegDef.addr, Reg.lsdOctetCfg, Reg.lsdPortCtl, blockBase, idxOff]
  omega

theorem portCtl_addr_ne_lane (n : Nat) (hn : n < 32) : Reg.lsdLaneCtl.addr [n] ≠ Reg.lsdPortCtl.addr [n] := by
  simp only [RegDef.addr, Reg.lsdLaneCtl, Reg.lsdPortCtl, blockBase, idxOff]
  omega

theorem portCtl_addr_ne_source (n : Nat) (hn : n < 32) : Reg.fltSrcCfg.addr [37] ≠ Reg.lsdPortCtl.addr [n] := by
  simp only [RegDef.addr, Reg.fltSrcCfg, Reg.lsdPortCtl, blockBase, idxOff]
  omega

theorem portStored_refPresent {s : State} {n : Nat} (hn : n < 32) (d : Nat) :
    (s.portStored n d).refPresent (n / 8) = s.refPresent (n / 8) := by
  simp only [State.refPresent, State.bit, State.portStored, word_setWord_ne (portCtl_addr_ne_octet n (n / 8) hn (by omega))]
  rfl

theorem portStored_txEq {s : State} {n : Nat} (hn : n < 32) (d : Nat) :
    (s.portStored n d).fld Reg.lsdLaneCtl [n] 4 4 = s.fld Reg.lsdLaneCtl [n] 4 4 := by
  simp only [State.fld, State.portStored, word_setWord_ne (portCtl_addr_ne_lane n hn)]

theorem exec_portEnable {s : State} {m : Master} {n d : Nat} (hn : n < 32) (hd : d < 2 ^ 32) : exec (.portEnable m n d) s =
    runMain (fun t => t.access m (Reg.lsdPortCtl.addr [n]) 4 (putBit d 0 true) (State.portCtl m n (putBit d 0 true))) s := by
  show execPortEnable m n d s = _
  simp only [execPortEnable, Nat.mod_eq_of_lt hd, if_neg (show ¬ 31 < n by omega)]

theorem exec_portDisable {s : State} {m : Master} {n d : Nat} (hn : n < 32) (hd : d < 2 ^ 32) : exec (.portDisable m n d) s =
    runMain (fun t => t.access m (Reg.lsdPortCtl.addr [n]) 4 (putBit d 0 false) (State.portCtl m n (putBit d 0 false))) s := by
  show execPortDisable m n d s = _
  simp only [execPortDisable, Nat.mod_eq_of_lt hd, if_neg (show ¬ 31 < n by omega)]

theorem exec_splitWrite {s : State} {m : Master} {o d : Nat} (ho : o < 4) (hd : d < 2 ^ 32) : exec (.splitWrite m o d) s =
    runMain (fun t => t.access m (Reg.lsdOctetCfg.addr [o]) 4 d (State.splitWrite m o d)) s := by
  show execSplitWrite m o d s = _
  simp only [execSplitWrite, Nat.mod_eq_of_lt hd, if_neg (show ¬ 3 < o by omega)]

theorem exec_admitSlotsWrite {s : State} {m : Master} {c k d : Nat} (hc : c < 4) (hk : k < 8) (hd : d < 2 ^ 32) :
    exec (.admitSlotsWrite m c k d) s =
      runMain (fun t => t.access m (Reg.prsAdmitSlots.addr [c, k]) 4 d (State.admitSlots m c k d)) s := by
  show execAdmitSlotsWrite m c k d s = _
  have hcond : (decide (3 < c) || decide (7 < k)) = false := by simp; omega
  simp only [execAdmitSlotsWrite, Nat.mod_eq_of_lt hd, hcond, Bool.false_eq_true, if_false]

/-- What LSD_PORT_CTL of a port names is what the port takes up when it is enabled (spec/05 R122). -/
def State.enabledPort (s : State) (n d : Nat) : LinePort :=
  { s.port n with
    running := true, lanes := s.portLanes n, laneRate := bitsOf d 1 2, fec := bitsOf d 3 2, anEn := bitOf d 5
    loopback := bitsOf d 6 2, cfgInvalid := false, txEq := s.fld Reg.lsdLaneCtl [n] 4 4, align := false
    localFault := false, remoteFault := false, anDone := false, downSince := some s.now }

theorem enablePort_stored {s : State} {n d : Nat} (hn : n < 32) (hoff : (s.port n).running = false) (hlanes : s.portLanes n ≠ 0) :
    (s.portStored n d).enablePort n =
      if (lineFormat (s.portLanes n) (bitsOf d 1 2) (bitsOf d 3 2)).isNone || !s.refPresent (n / 8) then
        ((s.portStored n d).setPort n { s.port n with cfgInvalid := true }).raise 37 (s.linePortId n)
      else (s.portStored n d).setPort n (s.enabledPort n d) := by
  have hword : (s.portStored n d).word Reg.lsdPortCtl [n] = portWord (s.word Reg.lsdPortCtl [n]) d := word_setWord_self _ _ _ _
  have hlanes' : (s.portStored n d).portLanes n = s.portLanes n := rfl
  have hport : (s.portStored n d).port n = s.port n := rfl
  have hnow : (s.portStored n d).now = s.now := rfl
  have hid : State.linePortId ((s.portStored n d).setPort n { s.port n with cfgInvalid := true }) n = s.linePortId n := rfl
  have hid' : (s.portStored n d).linePortId n = s.linePortId n := rfl
  have hcond : (decide (s.portLanes n = 0) || (s.port n).running) = false := by simp [hlanes, hoff]
  simp only [State.enablePort, hword, hlanes', hport, hnow, hid', portWord_rate, portWord_fec, portWord_an, portWord_loopback,
    portStored_refPresent hn, portStored_txEq hn, hcond, Bool.false_eq_true, if_false, State.enabledPort]

/-! ### Splits -/

/-- `t` is `s` but for what applying splits writes: the splits in force and the readiness of ports. -/
def SplitFrame (s t : State) : Prop := t = { s with
  line := { s.line with applied := t.line.applied }, bring := { s.bring with readyPort := t.bring.readyPort } }

theorem SplitFrame.trans {s t u : State} (h : SplitFrame s t) (k : SplitFrame t u) : SplitFrame s u := by
  unfold SplitFrame at *
  generalize u.line.applied = x at k ⊢
  generalize u.bring.readyPort = y at k ⊢
  rw [k, h]

theorem SplitFrame.rest {s t : State} (h : SplitFrame s t) : t.rules = s.rules ∧ t.packets = s.packets ∧ t.due = s.due
    ∧ t.out = s.out ∧ t.pending = s.pending ∧ t.fuses = s.fuses ∧ t.ksc = s.ksc := by
  unfold SplitFrame at h
  generalize t.line.applied = x at h
  generalize t.bring.readyPort = y at h
  subst h
  exact ⟨rfl, rfl, rfl, rfl, rfl, rfl, rfl⟩

theorem applySplit_frame (s : State) (o b : Nat) : SplitFrame s (s.applySplit o b) := by
  unfold State.applySplit
  dsimp only
  split
  · split <;> rfl
  · split <;> rfl

theorem applySplits_frame (s : State) (o : Nat) : SplitFrame s (s.applySplits o) :=
  foldl_keeps (R := SplitFrame) (fun _ => rfl) SplitFrame.trans (fun t b => applySplit_frame t o b) (List.range 7) s

theorem flushLine_empty {s : State} (h : s.packets = []) (n : Nat) : s.flushLine n = s := by
  rw [State.flushLine, h]
  rfl

theorem disablePort_idle {s : State} {n : Nat} (hdown : (s.port n).linkUp = false) (hempty : s.packets = []) :
    s.disablePort n = (s.setPort n { s.port n with
      running := false, align := false, localFault := false, remoteFault := false, anDone := false
      downSince := none }).applySplits (n / 8) := by
  simp only [State.disablePort, hdown, Bool.false_eq_true, if_false]
  rw [flushLine_empty (by exact hempty)]

/-- A register write whose effect ends in splits being applied. -/
theorem run_write_splits {s v : State} {m : Master} {off d o : Nat} {e : Eff} (hw : s.writes m off) (hheld : s.banksHeld)
    (he : e s.begun = (v.applySplits o, true)) (hr : v.rules = s.rules) (hp : v.packets = s.packets) (hd : v.due = [])
    (ho : v.out = []) (hq : v.pending = s.pending) (hf : v.fuses = s.fuses) (hk : v.ksc = s.ksc) :
    runMain (fun t => t.access m off 4 d e) s = .next (m.logged off 4 d (v.applySplits o)) := by
  obtain ⟨hrules, hpackets, hdue, hout, hpending, hfuses, hksc⟩ := (applySplits_frame v o).rest
  refine run_write hw (banksHeld_of hheld (hrules.trans hr) (hpackets.trans hp)) he (hdue.trans hd) ?_ (hpending.trans hq)
    (hfuses.trans hf) ?_ ?_
  · rw [hout, ho]
    rfl
  · rw [hksc, hk]
  · rw [hksc, hk]

/-- Settles O19: LSD_PORT_CTL starts, refuses or stops a port, and the writes of splits and slots apply what they can. -/
theorem linePortsAreSetUp : Obligations.LinePortsAreSetUp := by
  intro s m n d hheld hn hd a on off stored
  have hon : bitOf on 0 = true := bitOf_putBit_self d 0 true
  have hoff : bitOf off 0 = false := bitOf_putBit_self d 0 false
  have hrate : bitsOf on 1 2 = bitsOf d 1 2 := bitsOf_putBit_apart (by omega)
  have hfec : bitsOf on 3 2 = bitsOf d 3 2 := bitsOf_putBit_apart (by omega)
  refine ⟨fun hlock => ⟨fun hw hidle hlanes hformat href => ?starts, fun hw hidle hlanes hbad hmild => ?bad,
    fun hw hrunning hdown hempty => ?stops, fun o ho hw => ?split⟩, fun c k hc hk h1 h3 hlock hw => ?slots⟩
  case starts =>
    have hgood : ((lineFormat (s.portLanes n) (bitsOf on 1 2) (bitsOf on 3 2)).isNone || !s.refPresent (n / 8)) = false := by
      rw [hrate, hfec, href, Option.isNone_eq_false_iff.2 hformat]
      rfl
    have heff : State.portCtl m n on s.begun = ((s.begun.portStored n on).setPort n (s.begun.enabledPort n on), true) :=
      (portCtl_eq (s := s.begun) hlock).trans ((if_pos hon).trans (congrArg (·, true)
        ((enablePort_stored (s := s.begun) hn hidle hlanes).trans (if_neg (Bool.eq_false_iff.1 hgood)))))
    have hport : s.begun.enabledPort n on = s.enabledPort n d := by
      have han : bitOf on 5 = bitOf d 5 := by rw [bitOf_eq_bitsOf, bitOf_eq_bitsOf, bitsOf_putBit_apart (by omega)]
      have hloop : bitsOf on 6 2 = bitsOf d 6 2 := bitsOf_putBit_apart (by omega)
      show State.enabledPort s n on = _
      simp only [State.enabledPort, hrate, hfec, han, hloop]
    rw [hport] at heff
    rw [exec_portEnable hn hd]
    exact run_write hw (banksHeld_of hheld rfl rfl) heff rfl rfl rfl rfl rfl rfl
  case bad =>
    have hbad' : ((lineFormat (s.portLanes n) (bitsOf on 1 2) (bitsOf on 3 2)).isNone || !s.refPresent (n / 8)) = true := by
      rw [hrate, hfec]
      rcases hbad with h | h <;> simp [h]
    have heff : State.portCtl m n on s.begun =
        (((s.begun.portStored n on).setPort n { s.port n with cfgInvalid := true }).raise 37 (s.linePortId n), true) :=
      (portCtl_eq (s := s.begun) hlock).trans ((if_pos hon).trans (congrArg (·, true)
        ((enablePort_stored (s := s.begun) hn hidle hlanes).trans (if_pos hbad'))))
    rw [exec_portEnable hn hd]
    exact run_write_event hw (banksHeld_of hheld rfl rfl) heff
      (mild_of (mild_setWord (s := s.begun) hmild (portCtl_addr_ne_source n hn) _) rfl rfl rfl) rfl hw.1.1 rfl rfl rfl rfl
  case stops =>
    have heff : State.portCtl m n off s.begun = (((s.begun.portStored n off).setPort n { s.port n with
          running := false, align := false, localFault := false, remoteFault := false, anDone := false
          downSince := none }).applySplits (n / 8), true) :=
      (portCtl_eq (s := s.begun) hlock).trans ((if_neg (Bool.eq_false_iff.1 hoff)).trans
        ((if_pos (by exact hrunning)).trans (congrArg (·, true)
          (disablePort_idle (s := s.begun.portStored n off) (by exact hdown) (by exact hempty)))))
    rw [exec_portDisable hn hd]
    exact run_write_splits hw hheld heff rfl rfl rfl rfl rfl rfl rfl
  case split =>
    have hstore : State.writeReg m Reg.lsdOctetCfg [o] d s.begun = (s.begun.setWord Reg.lsdOctetCfg [o]
        (storeFields false (s.word Reg.lsdOctetCfg [o]) d Reg.lsdOctetCfg.fields), true) :=
      writeReg_open (s := s.begun) (.inl rfl) rfl (by decide) hlock
    rw [exec_splitWrite ho hd]
    refine run_write_splits hw hheld ?_ rfl rfl rfl rfl rfl rfl rfl
    rw [State.splitWrite, hstore]
  case slots =>
    have hvalid : Reg.prsAdmitSlots.valid [c, k] = true := by
      show (decide (k ≠ 1) && decide (k ≠ 3)) = true
      simp [h1, h3]
    have hstore : State.writeReg m Reg.prsAdmitSlots [c, k] d s.begun = (s.begun.setWord Reg.prsAdmitSlots [c, k]
        (storeFields false (s.word Reg.prsAdmitSlots [c, k]) d Reg.prsAdmitSlots.fields), true) :=
      writeReg_open (s := s.begun) (.inl rfl) hvalid (by decide) hlock
    have heff : State.admitSlots m c k d s.begun = ((s.begun.setWord Reg.prsAdmitSlots [c, k]
        (storeFields false (s.word Reg.prsAdmitSlots [c, k]) d Reg.prsAdmitSlots.fields)).allocateSlots c, true) := by
      have hlock' : bitOf s.begun.glb.lock 8 = false := hlock
      simp only [State.admitSlots, hstore, hlock', Bool.not_true, Bool.or_self, Bool.false_eq_true, if_false]
    have hframe := (allocateSlots_frame (s.begun.setWord Reg.prsAdmitSlots [c, k]
      (storeFields false (s.word Reg.prsAdmitSlots [c, k]) d Reg.prsAdmitSlots.fields)) c).rest
    rw [exec_admitSlotsWrite hc hk hd]
    rw [setWord_rules, setWord_packets, setWord_due, setWord_out, setWord_pending, setWord_fuses, setWord_ksc] at hframe
    generalize (s.begun.setWord Reg.prsAdmitSlots [c, k]
      (storeFields false (s.word Reg.prsAdmitSlots [c, k]) d Reg.prsAdmitSlots.fields)).allocateSlots c = t at hframe heff ⊢
    obtain ⟨hbanks, hpackets, hdue, hout, hpending, hfuses, hksc⟩ := hframe
    exact run_write hw (banksHeld_of_banks hheld hbanks hpackets) heff hdue (by rw [hout]; rfl) hpending hfuses
      (congrArg Ksc.j hksc) (congrArg Ksc.ckptJpos hksc)

/-! ### The line link -/

/-- What a port's receive side sees (spec/05 R122). -/
def LinePort.seen (x : LinePort) (align lf rf : Bool) : LinePort :=
  { x with align := align, localFault := align && lf, remoteFault := rf }

/-- Whether the link of a port may come up: the port is ready and its reference is there. -/
def State.portCan (s : State) (n : Nat) : Bool :=
  bitOf s.bring.readyPort n && (if s.bit Reg.lsdOctetCfg [n / 8] 8 then s.clocks.lrefb else s.clocks.lrefa)

theorem running_ne_default {x : LinePort} (h : x.running = true) : x ≠ {} := by
  rintro rfl
  exact Bool.false_ne_true h

theorem lineSees_eq {s : State} {n : Nat} (hrunning : (s.port n).running = true) (align lf rf : Bool) :
    s.lineSees n align lf rf =
      if (align && !lf && !rf) && !s.portCan n then s.setPort n ((s.port n).seen align lf rf)
      else if (align && !lf && !rf) && !(s.port n).linkUp then (s.setPort n ((s.port n).seen align lf rf)).lineUp n
      else if !(align && !lf && !rf) && (s.port n).linkUp then (s.setPort n ((s.port n).seen align lf rf)).lineDown n
      else s.setPort n ((s.port n).seen align lf rf) :=
  if_neg (by rw [hrunning]; decide)

theorem lineLinkUp_eq {s : State} {n : Nat} {an : Bool} (hrunning : (s.port n).running = true)
    (hdown : (s.port n).linkUp = false) (han : (s.port n).anEn = true → an = true) (hcan : s.portCan n = true) :
    s.lineLinkUp n an = (s.setPort n { s.port n with
      anDone := (s.port n).anEn && an, align := true, localFault := false, remoteFault := false, linkUp := true
      downSince := none, fcPending := (s.port n).fcPending || decide ((s.port n).xoff ≠ 0) }).raise 35 (s.linePortId n) := by
  have hcond : (!(s.port n).running || (s.port n).linkUp || ((s.port n).anEn && !an)) = false := by
    rw [hrunning, hdown]
    cases hae : (s.port n).anEn
    · rfl
    · rw [han hae]; rfl
  have hsees := lineSees_eq (s := s.setPort n { s.port n with anDone := (s.port n).anEn && an }) (n := n)
    (by rw [port_setPort_self]; exact hrunning) true false false
  have hcan' : State.portCan (s.setPort n { s.port n with anDone := (s.port n).anEn && an }) n = true := hcan
  rw [hcan', port_setPort_self, setPort_setPort (running_ne_default (by exact hrunning))] at hsees
  refine (if_neg (Bool.eq_false_iff.1 hcond)).trans (hsees.trans ?_)
  have hdown' : (!({ s.port n with anDone := (s.port n).anEn && an } : LinePort).linkUp) = true := by
    show (!(s.port n).linkUp) = true
    rw [hdown]; rfl
  refine (if_neg Bool.false_ne_true).trans ((if_pos (by rw [hdown']; rfl)).trans ?_)
  rw [State.lineUp, port_setPort_self]
  dsimp only
  rw [setPort_setPort (running_ne_default (by exact hrunning))]
  rfl

theorem lineLinkDown_eq {s : State} {n : Nat} (hrunning : (s.port n).running = true) (hup : (s.port n).linkUp = true)
    (hrx : (s.port n).rxNow = none) (htx : (s.port n).txNow = none) :
    s.lineLinkDown n = ((s.setPort n { s.port n with
      align := false, localFault := false, remoteFault := false, linkUp := false, downSince := some s.now
      refreshAt := none }).count (lsdCounter n 4) 1).raise 36 (s.linePortId n) := by
  have hsees := lineSees_eq hrunning false false false
  have hgo : (!(false && !false && !false) && (s.port n).linkUp) = true := by rw [hup]; rfl
  refine (if_pos hup).trans (hsees.trans ((if_neg Bool.false_ne_true).trans ((if_neg Bool.false_ne_true).trans
    ((if_pos hgo).trans ?_))))
  have hport : (s.setPort n ((s.port n).seen false false false)).port n = (s.port n).seen false false false :=
    port_setPort_self s n _
  have hrx' : ((s.port n).seen false false false).rxNow = none := hrx
  have htx' : ((s.port n).seen false false false).txNow = none := htx
  unfold State.lineDown
  simp only [hport, hrx', htx']
  rw [setPort_setPort (running_ne_default (by exact hrunning))]
  have hcut : ({ (s.port n).seen false false false with
      linkUp := false, rxNow := none, txNow := none, downSince := some s.now, refreshAt := none } : LinePort) =
        { s.port n with
          align := false, localFault := false, remoteFault := false, linkUp := false, downSince := some s.now
          refreshAt := none } := by
    simp only [LinePort.seen, hrx, htx, Bool.false_and]
  rw [← hcut]
  rfl

/-- Settles O20: the link comes up, goes down, or stays as it is, and the port's view follows. -/
theorem lineLinksFollow : Obligations.LineLinksFollow := by
  intro s n hheld hreleased hready hrunning
  refine ⟨fun an hdown han hport href hmild => ?up, fun hup hrx htx hmild hroom hn => ?down, fun al lf rf hsame hcan => ?stays⟩
  case up =>
    have hcan : s.portCan n = true := by
      rw [State.portCan, hport, href]
      rfl
    show ∃ t, runBlock 2 (fun t => t.lineLinkUp n an) s = .next t ∧ _
    rw [runBlock_on hreleased hready]
    exact run_reports hheld (lineLinkUp_eq (s := s.begun) hrunning hdown han hcan) hmild hreleased rfl rfl rfl rfl rfl rfl rfl rfl
  case down =>
    have hcounted : ∀ k, k < 5 → fltCounter k ≠ lsdCounter n 4 := by
      intro k hk
      simp only [fltCounter, lsdCounter, blockBase]
      omega
    show ∃ t, runBlock 2 (fun t => t.lineLinkDown n) s = .next t ∧ _
    rw [runBlock_on hreleased hready]
    exact run_counts_event (f := fun t => t.lineLinkDown n) hheld (lineLinkDown_eq (s := s.begun) hrunning hup hrx htx) hmild hcounted hroom hreleased
      rfl rfl rfl rfl rfl rfl rfl rfl
  case stays =>
    refine runBlock_still (f := fun t => t.lineSees n al lf rf) hreleased hready hheld ?_ rfl rfl rfl rfl rfl rfl
    have hsees := lineSees_eq (s := s.begun) (n := n) hrunning al lf rf
    have hblocked : (al && !lf && !rf && !s.begun.portCan n) = false := by
      rcases hcan with h | ⟨hport, href⟩
      · rw [h]; rfl
      · have hcan : s.begun.portCan n = true := by
          show s.portCan n = true
          rw [State.portCan, hport, href]
          rfl
        rw [hcan]
        simp
    have hlink : (s.begun.port n).linkUp = (al && !lf && !rf) := hsame
    rw [hlink] at hsees
    have hup : (al && !lf && !rf && !(al && !lf && !rf)) = false := Bool.and_not_self _
    have hdown : (!(al && !lf && !rf) && (al && !lf && !rf)) = false := Bool.not_and_self _
    exact hsees.trans ((if_neg (Bool.eq_false_iff.1 hblocked)).trans ((if_neg (Bool.eq_false_iff.1 hup)).trans
      (if_neg (Bool.eq_false_iff.1 hdown))))

end Sys2Proof.Machine
end

