-- ==== Sys2Proof/Proofs/EventOutput.lean ====
section

/-! Events and counts send, but take back nothing that was sent; and effects on parts of the state that no event touches
commute with events. -/

namespace Sys2Proof.Machine

/-- Everything that `s` has sent stands in what `t` has sent. -/
def OutKept (s t : State) : Prop := s.out <+: t.out

theorem OutKept.of_eq {s t : State} (h : t.out = s.out) : OutKept s t := by
  rw [OutKept, h]

theorem OutKept.trans {s u t : State} (h : OutKept s u) (k : OutKept u t) : OutKept s t := List.IsPrefix.trans h k

theorem OutKept.send (s : State) (o : Out) : OutKept s (s.send o) := List.prefix_append _ _

theorem OutKept.ite {s a b : State} (c : Prop) [Decidable c] (ha : OutKept s a) (hb : OutKept s b) :
    OutKept s (if c then a else b) := by
  split
  · exact ha
  · exact hb

theorem OutKept.mem {s t : State} (h : OutKept s t) {o : Out} (ho : o ∈ s.out) : o ∈ t.out := h.subset ho

theorem mem_send (s : State) (o : Out) : o ∈ (s.send o).out := List.mem_append_right _ (List.mem_singleton_self o)

theorem OutKept.pme (s : State) (k : Nat) : OutKept s (s.pme k) := by
  unfold State.pme
  split
  · exact OutKept.of_eq rfl
  · dsimp only
    refine OutKept.ite _ (OutKept.of_eq rfl) (OutKept.ite _ ?_ (OutKept.ite _ (OutKept.of_eq rfl) (OutKept.of_eq rfl)))
    exact OutKept.send (s.setFn k _) _

theorem OutKept.fire (s : State) (k vec : Nat) : OutKept s (s.fire k vec) :=
  OutKept.ite _ (OutKept.of_eq rfl) (OutKept.ite _ (OutKept.send _ _) (OutKept.pme (s.setPba k vec true) k))

theorem OutKept.toManager (s : State) : OutKept s s.toManager :=
  OutKept.ite _ (OutKept.of_eq rfl) (OutKept.fire _ _ _)

theorem OutKept.powerUpComplex (s : State) (x : Nat) : OutKept s (s.powerUpComplex x) :=
  OutKept.ite _ (OutKept.of_eq rfl) (OutKept.of_eq rfl)

theorem OutKept.holdEvent (s : State) (c : Nat) (e v : Bool) : OutKept s (s.holdEvent c e v) := by
  unfold State.holdEvent
  cases e <;> exact OutKept.of_eq rfl

theorem OutKept.mbxEvent (s : State) (c : Nat) (e : Bool) : OutKept s (s.mbxEvent c e) := by
  have held : ∀ v, OutKept s (s.holdEvent c e v) := OutKept.holdEvent s c e
  unfold State.mbxEvent
  split
  · exact OutKept.ite _ ((held _).trans (OutKept.send _ _)) (held _)
  · exact OutKept.ite _ ((held _).trans (OutKept.send _ _)) ((held _).trans (OutKept.powerUpComplex _ _))
  · exact OutKept.ite _ ((held _).trans (OutKept.send _ _)) ((held _).trans (OutKept.powerUpComplex _ _))
  · exact OutKept.ite _ (held _) (held _)
  · split
    · exact OutKept.of_eq rfl
    · exact OutKept.ite _ (held _) (OutKept.ite _ ((held _).trans (OutKept.fire _ _ _)) (held _))

theorem OutKept.mbxNotify (s : State) (c : Nat) : OutKept s (s.mbxNotify c) :=
  OutKept.ite _ (OutKept.of_eq rfl) (OutKept.mbxEvent (s.setChan c _) c false)

theorem OutKept.postNotice (s : State) (c : Nat) (n : Notice) : OutKept s (s.postNotice c n) := by
  refine OutKept.ite _ (OutKept.trans (OutKept.of_eq ?_) (OutKept.mbxNotify _ c)) (OutKept.of_eq rfl)
  rfl

theorem OutKept.faultNotice (s : State) (src : Nat) (who : Option Nat) : OutKept s (s.faultNotice src who) := by
  unfold State.faultNotice
  split
  · exact OutKept.ite _ (OutKept.of_eq rfl) (OutKept.postNotice _ _ _)
  · exact OutKept.of_eq rfl

theorem OutKept.askEvent (s : State) (src lvl : Nat) : OutKept s (s.askEvent src lvl) := by
  refine OutKept.of_eq ?_
  unfold State.askEvent
  by_cases h4 : 4 ≤ lvl <;> by_cases h3 : 3 ≤ lvl <;> by_cases h5 : 5 ≤ lvl <;> simp only [h4, h3, h5, if_true, if_false]

theorem OutKept.countWith {r : State → Nat → Nat → State} (h : ∀ s a d, OutKept s (r s a d)) (s : State) (a n : Nat) :
    OutKept s (s.countWith r a n) := by
  refine OutKept.ite _ ?_ (OutKept.of_eq rfl)
  refine OutKept.trans (OutKept.of_eq ?_) (h _ _ _)
  unfold State.halfMark
  dsimp only
  split
  · rfl
  · split <;> rfl

theorem OutKept.toKeystone {cnt : State → Nat → State} (h : ∀ s a, OutKept s (cnt s a)) (s : State) (src : Nat) (trap : Bool) :
    OutKept s (s.toKeystone cnt src trap) :=
  OutKept.ite _ (OutKept.ite _ ((h s _).trans (OutKept.send _ _)) (OutKept.send _ _))
    (OutKept.ite _ (OutKept.of_eq rfl) (OutKept.of_eq rfl))

theorem OutKept.tellEvent {cnt : State → Nat → State} (h : ∀ s a, OutKept s (cnt s a)) (s : State) (src lvl : Nat) (was : Bool) :
    OutKept s (State.tellEvent cnt s src lvl was) := by
  have keystone : ∀ (u : State) (c : Prop) [Decidable c] (b : Bool), OutKept u (if c then u.toKeystone cnt src b else u) :=
    fun u c _ b => OutKept.ite c (OutKept.toKeystone h u src b) (OutKept.of_eq rfl)
  have manager : ∀ (u : State) (c : Prop) [Decidable c], OutKept u (if c then u.toManager else u) :=
    fun u c _ => OutKept.ite c (OutKept.toManager u) (OutKept.of_eq rfl)
  exact ((keystone s _ false).trans (manager _ _)).trans (keystone _ _ true)

theorem OutKept.raiseF (fuel : Nat) : ∀ (s : State) (src d : Nat) (who : Option Nat) (acc : Acc),
    OutKept s (State.raiseF fuel s src d who acc) := by
  induction fuel with
  | zero => exact fun s _ _ _ _ => OutKept.of_eq rfl
  | succ n ih =>
    intro s src d who acc
    have hcnt : ∀ (t : State) (a : Nat), OutKept t (t.countWith (fun u x d => State.raiseF n u x d none {}) a 1) :=
      fun t a => OutKept.countWith (fun u x d => ih u x d none {}) t a 1
    have hcounted : ∀ (t : State) (e : Bool), OutKept t
        (State.countEvent (fun t a => t.countWith (fun u x d => State.raiseF n u x d none {}) a 1) t e) :=
      fun t e => OutKept.ite _ ((hcnt _ _).trans (hcnt _ _)) (hcnt _ _)
    have hnoted : OutKept s (s.noteEvent src d acc) := OutKept.of_eq rfl
    refine OutKept.ite _ (OutKept.of_eq rfl) ?_
    refine OutKept.trans ?_ (OutKept.faultNotice _ _ _)
    refine OutKept.trans ?_ (OutKept.askEvent _ _ _)
    refine OutKept.trans ?_ (OutKept.tellEvent hcnt _ _ _ _)
    exact (hnoted.trans (hcounted _ _)).trans (OutKept.of_eq rfl)

theorem OutKept.raise (s : State) (src d : Nat) (who : Option Nat) (acc : Acc) : OutKept s (s.raise src d who acc) :=
  OutKept.raiseF 4 s src d who acc

theorem OutKept.count (s : State) (a n : Nat) : OutKept s (s.count a n) :=
  OutKept.countWith (fun t x d => OutKept.raise t x d none {}) s a n

/-- A command ends in the close of its effect. -/
theorem run_effect {f : State → State} {s u : State} (h : f s.begun = u) : run f s = .next (s.close u) := by
  rw [run, h]

theorem runBlock_effect {f : State → State} {s u : State} {b : Nat} (hreleased : s.released = true) (hready : s.ready b = true)
    (h : f s.begun = u) : runBlock b f s = .next (s.close u) := (runBlock_on hreleased hready).trans (run_effect h)

/-! ### Effects that commute with events -/

theorem EventFrame.send (s : State) (o : Out) : EventFrame s (s.send o) := rfl

theorem EventFrame.eq_eventOn {s t : State} (h : EventFrame s t) : ∃ c, t = s.eventOn c := ⟨t, h⟩

theorem EventFrame.setPort {s t : State} (h : EventFrame s t) (n : Nat) (x : LinePort) :
    EventFrame (s.setPort n x) (t.setPort n x) := by
  obtain ⟨c, rfl⟩ := h.eq_eventOn
  rfl

theorem EventFrame.setPkt {s t : State} (h : EventFrame s t) (p : Nat) (x : Packet) :
    EventFrame (s.setPkt p x) (t.setPkt p x) := by
  obtain ⟨c, rfl⟩ := h.eq_eventOn
  rfl

/-- A fold of steps that each commute with events commutes with events. -/
theorem EventFrame.foldl {β : Type} {f : State → β → State} (hf : ∀ a b x, EventFrame a b → EventFrame (f a x) (f b x))
    {s t : State} (h : EventFrame s t) (l : List β) : EventFrame (l.foldl f s) (l.foldl f t) := by
  induction l generalizing s t with
  | nil => exact h
  | cons x l ih => exact ih (hf s t x h)

/-- A fold of steps that each raise events or count only. -/
theorem EventFrame.foldl_self {β : Type} {f : State → β → State} (hf : ∀ a x, EventFrame a (f a x)) (s : State) (l : List β) :
    EventFrame s (l.foldl f s) := by
  induction l generalizing s with
  | nil => exact EventFrame.refl s
  | cons x l ih => exact (hf s x).trans (ih (f s x))

theorem EventFrame.port {s t : State} (h : EventFrame s t) (n : Nat) : t.port n = s.port n :=
  show t.port n = (s.eventOn t).port n from congrArg (fun u => u.port n) h

theorem EventFrame.pkt {s t : State} (h : EventFrame s t) (p : Nat) : t.pkt p = s.pkt p :=
  show t.pkt p = (s.eventOn t).pkt p from congrArg (fun u => u.pkt p) h

theorem EventFrame.now {s t : State} (h : EventFrame s t) : t.now = s.now :=
  show t.now = (s.eventOn t).now from congrArg State.now h

theorem EventFrame.fld {s t : State} (h : EventFrame s t) (r : RegDef) (idx : List Nat) (lo w : Nat) :
    t.fld r idx lo w = s.fld r idx lo w :=
  show t.fld r idx lo w = (s.eventOn t).fld r idx lo w from congrArg (fun u => u.fld r idx lo w) h

end Sys2Proof.Machine
end

