-- ==== Sys2Proof/Proofs/Frames.lean ====
section

/-! O21 and O22: frames arrive at and leave line ports. -/

namespace Sys2Proof.Machine

/-! ### Counting received frames -/

theorem countRx_frame (s : State) (n cfg : Nat) (bs : List Byte) (err : Nat) (code : Bool) :
    EventFrame s (s.countRx n cfg bs err code) := by
  have counted : ∀ (t : State) (c : Prop) [Decidable c] (a k : Nat), EventFrame t (if c then t.count a k else t) :=
    fun t c _ a k => EventFrame.ite c (EventFrame.count t a k) (EventFrame.refl t)
  unfold State.countRx
  extract_lets size coded octets sized good typed tagged
  have hsized : EventFrame s sized :=
    ((counted s _ _ _).trans (EventFrame.count coded _ _)).trans (counted octets _ _ _)
  refine EventFrame.ite _ (hsized.trans (EventFrame.count _ _ _)) ?_
  have hgood : EventFrame sized good := (EventFrame.count _ _ _).trans (EventFrame.count _ _ _)
  exact (((hsized.trans hgood).trans (EventFrame.count _ _ _)).trans (counted typed _ _ _)).trans (counted tagged _ _ _)

/-- The end of a good frame whose packet holds no store: its packets take the rest. -/
theorem EventFrame.goodEnd {s t : State} (h : EventFrame s t) {p : Nat} {x : Packet} (hp : s.pkt p = some x) (hx : x.inStore = 0)
    (rest : List Byte) (size : Nat) : EventFrame (s.goodEnd p rest size) (t.goodEnd p rest size) := by
  have heq : ∀ u : State, u.pkt p = some x → u.goodEnd p rest size = (u.ofFrame p).foldl (fun t q =>
      match t.pkt q with
      | none => t
      | some y => if y.ended then t else t.setPkt q (y.finish rest 4 size)) u := by
    intro u hu
    simp only [State.goodEnd, hu, hx, if_true] <;> rfl
  have hof : t.ofFrame p = s.ofFrame p := by rw [State.ofFrame, h.packets]; rfl
  rw [heq s hp, heq t ((h.pkt p).trans hp), hof]
  refine EventFrame.foldl (fun a b q hab => ?_) h _
  rw [hab.pkt q]
  cases a.pkt q with
  | none => exact hab
  | some y =>
    cases hended : y.ended with
    | true => simpa only [hended, if_true] using hab
    | false => simpa only [hended, Bool.false_eq_true, if_false] using hab.setPkt q (y.finish rest 4 size)

/-- The fold that an arriving PAUSE frame is (spec/05 R135). -/
def State.setPauses (s : State) (n q : Nat) : State := (List.range 8).foldl (fun t p => t.setPause n p q) s

theorem EventFrame.setPauses {s t : State} (h : EventFrame s t) (n q : Nat) : EventFrame (s.setPauses n q) (t.setPauses n q) := by
  refine EventFrame.foldl (fun a b p hab => ?_) h _
  rw [State.setPause, State.setPause, hab.port n, hab.now]
  exact hab.setPort n _

theorem rxError_good {cfg : Nat} (h : 64 ≤ bitsOf cfg 0 14) : rxError cfg 64 true false false 0 = 0 := by
  simp [rxError, Nat.not_lt.2 h]

/-- The head of a frame that passes the early checks and is handed to its course (spec/05 R126, R127). -/
theorem rxStart_handed {s : State} {n : Nat} {bs : List Byte} {code : Bool} (htakes : (s.port n).takes = true)
    (hidle : (s.port n).rxNow = none) (hlong : 128 ≤ bs.length) (hdata : isControl bs = false)
    (hfab : fabCheck (s.word Reg.macPortCfg [n]) bs = (0, 0)) (hloop : (s.port n).loopback ≠ 3)
    (hroom : s.line.storeLevel.getD (n / 8) 0 + bs.length ≤ 65536) :
    s.rxStart n bs code = (s.handOff n (s.word Reg.macPortCfg [n]) bs false).2.setPort n
      { (s.handOff n (s.word Reg.macPortCfg [n]) bs false).2.port n with
        rxNow := some { head := bs, cfg := s.word Reg.macPortCfg [n]
                        pkt := some (s.handOff n (s.word Reg.macPortCfg [n]) bs false).1, code } } := by
  simp only [State.rxStart, htakes, hidle, hdata, hfab, hloop, Nat.not_lt.2 hlong, Nat.not_lt.2 hroom, Option.isSome_none,
    Bool.not_true, Bool.or_self, Bool.false_eq_true, if_false, ne_eq, not_true_eq_false, decide_false, Bool.false_and]

/-- The end of a frame whose packet holds no store and that no check refuses. -/
theorem rxFinish_good {s : State} {n p : Nat} {fr : RxFrame} {x : Packet} {rest : List Byte} {code : Bool}
    (hpkt : fr.pkt = some p) (hp : s.pkt p = some x) (hx : x.inStore = 0) (hdata : isControl fr.head = false)
    (hgood : rxError fr.cfg (fr.head ++ rest).length (fcsGood (fr.head ++ rest)) (decide (fr.err = 36)) (code || fr.code)
      (if fr.err = 36 then 0 else fr.err) = 0) :
    s.rxFinish n fr rest code = ((s.setPort n { s.port n with rxNow := none }).countRx n fr.cfg (fr.head ++ rest) 0
      (code || fr.code)).goodEnd p rest (fr.head ++ rest).length := by
  simp only [State.rxFinish, hpkt, hp, hx, hdata, ne_eq, not_true_eq_false, decide_false, Bool.false_and, Bool.or_false, hgood,
    Bool.false_eq_true, if_false]

/-- Settles O21: the head of a frame is handed over, its end completes the packet, and a PAUSE frame sets the timers; all else
is counts. -/
theorem framesArrive : Obligations.FramesArrive := by
  intro s n bs code hreleased hready htakes cfg
  refine ⟨fun hidle hlong hdata hfab hloop hroom => ?head, fun fr p x hrx hpkt hp hx hdata hgood => ?tail,
    fun hidle hlen hdest htype hop hfcs hmode hmax => ?pause⟩
  case head =>
    refine (runBlock_on (f := fun t => t.rxStart n bs code) hreleased hready).trans ?_
    rw [run, rxStart_handed (s := s.begun) htakes hidle hlong hdata hfab hloop hroom]
    rfl
  case tail =>
    have heff : s.begun.rxEnd n bs code = s.begun.rxFinish n fr bs code := by
      have hrx' : (s.begun.port n).rxNow = some fr := hrx
      simp only [State.rxEnd, hrx']
      exact if_pos htakes
    refine ⟨_, runBlock_effect (f := fun t => t.rxEnd n bs code) hreleased hready heff,
      ?_⟩
    rw [rxFinish_good (s := s.begun) hpkt hp hx hdata hgood]
    exact EventFrame.goodEnd (countRx_frame _ _ _ _ _ _) (p := p) (x := x) (by exact hp) hx bs _
  case pause =>
    have hcontrol : isControl bs = true := by rw [isControl, htype]; rfl
    have hgood : rxError cfg bs.length (fcsGood bs) false false 0 = 0 := by rw [hlen, hfcs, rxError_good hmax]
    have hcounted := countRx_frame s.begun n cfg bs 0 false
    have heff : s.begun.rxControlFrame n bs =
        ((s.begun.countRx n cfg bs 0 false).count (macCounter n 8) 1).setPauses n (beAt bs 16 2) := by
      have hcond : (!(s.begun.port n).takes || (s.begun.port n).rxNow.isSome || !isControl bs) = false := by
        have hidle' : (s.begun.port n).rxNow = none := hidle
        have htakes' : (s.begun.port n).takes = true := htakes
        rw [hidle', htakes', hcontrol]
        rfl
      have hmode' : (s.begun.countRx n cfg bs 0 false).fcMode n = 1 := by
        rw [State.fcMode, hcounted.fld]
        exact hmode
      have hgood' : rxError (s.begun.word Reg.macPortCfg [n]) bs.length (fcsGood bs) false false 0 = 0 := hgood
      refine (if_neg (Bool.eq_false_iff.1 hcond)).trans ?_
      simp only [hgood']
      show (s.begun.countRx n cfg bs 0 false).rxControl n bs 0 = _
      simp only [State.rxControl, hop, hmode', hlen, hdest]
      rfl
    refine ⟨_, runBlock_effect (f := fun t => t.rxControlFrame n bs) hreleased hready heff, ?_⟩
    exact EventFrame.setPauses (hcounted.trans (EventFrame.count _ _ _)) n _

/-! ### Transmission -/

theorem countTx_frame (s : State) (n : Nat) (bs : List Byte) (how : Nat) : EventFrame s (s.countTx n bs how) := by
  have counted : ∀ (t : State) (c : Prop) [Decidable c] (a k : Nat), EventFrame t (if c then t.count a k else t) :=
    fun t c _ a k => EventFrame.ite c (EventFrame.count t a k) (EventFrame.refl t)
  unfold State.countTx
  extract_lets sized tagged fabric
  have hfabric : EventFrame s fabric :=
    ((EventFrame.count s _ _).trans (counted sized _ _ _)).trans (counted tagged _ _ _)
  refine hfabric.trans (EventFrame.ite _ (EventFrame.count _ _ _) ?_)
  exact ((EventFrame.count _ _ _).trans (EventFrame.count _ _ _)).trans (EventFrame.count _ _ _)

/-- The counts of a flow control frame that was sent (spec/05 R141). -/
def State.countFc (s : State) (n : Nat) (x : LinePort) : State :=
  if s.fcMode n = 1 then s.count (macCounter n 47) 1
  else (List.range 8).foldl (fun t p =>
    if bitOf x.xoff p && bitOf (s.fld Reg.macPfcCfg [n] 16 8) p then t.count (macCounter n (48 + p)) 1 else t) s

theorem countFc_frame (s : State) (n : Nat) (x : LinePort) : EventFrame s (s.countFc n x) :=
  EventFrame.ite _ (EventFrame.count _ _ _)
    (EventFrame.foldl_self (fun t _ => EventFrame.ite _ (EventFrame.count t _ _) (EventFrame.refl t)) s _)

theorem countFc_out (s : State) (n : Nat) (x : LinePort) : OutKept s (s.countFc n x) := by
  refine OutKept.ite _ (OutKept.count _ _ _) ?_
  exact foldl_keeps (R := OutKept) (fun _ => OutKept.of_eq rfl) OutKept.trans
    (fun t _ => OutKept.ite _ (OutKept.count t _ _) (OutKept.of_eq rfl)) (List.range 8) s

/-- A flow control frame goes out, and its refresh is planned while a priority is asserted (spec/05 R136). -/
theorem sendFc_frame (s : State) (n : Nat) :
    .frame n (withFcs (s.fcFrame n) true) ∈ (s.sendFc n).out ∧ EventFrame (s.setPort n { s.port n with
      fcPending := false
      refreshAt := if (s.port n).xoff = 0 then none else
        some (s.now + s.fld Reg.macPfcCfg [n] 0 16 * 512 / (2 * max 1 (s.port n).format.1)) }) (s.sendFc n) := by
  let sent := (s.countTx n (withFcs (s.fcFrame n) true) 0).send (.frame n (withFcs (s.fcFrame n) true))
  let counted := sent.countFc n (sent.port n)
  have hframe : EventFrame s counted :=
    ((countTx_frame _ _ _ _).trans (EventFrame.send _ _)).trans (countFc_frame sent n _)
  have heq : s.sendFc n = counted.setPort n { counted.port n with
      fcPending := false
      refreshAt := if (counted.port n).xoff = 0 then none else
        some (counted.now + counted.fld Reg.macPfcCfg [n] 0 16 * 512 / (2 * max 1 (counted.port n).format.1)) } := rfl
  rw [heq, hframe.port n, hframe.now, hframe.fld]
  exact ⟨(countFc_out sent n _).mem (mem_send _ _), hframe.setPort n _⟩

/-- A frame whose end has arrived goes out whole. -/
theorem txFrame_whole {s : State} {n p : Nat} {x : Packet} (htx : (s.port n).txNow = some p) (hp : s.pkt p = some x)
    (htakes : (s.port n).takes = true) (hsettled : x.settled = true) (hended : x.ended = true)
    (hgood : x.mark.flags.stomp = false) (hts : x.mark.flags.tsReq = false) :
    ∃ u, s.txFrame n = u.removePkt p ∧ EventFrame (s.setPort n { s.port n with txNow := none }) u
      ∧ .frame n (withFcs (s.txBytes n x) true) ∈ u.out := by
  let idle := s.setPort n { s.port n with txNow := none }
  let sent := (idle.countTx n (withFcs (idle.txBytes n x) true) 0).send (.frame n (withFcs (idle.txBytes n x) true))
  let counted := if bitOf (sent.word Reg.macPortCfg [n]) 18 && !bitOf (sent.word Reg.macPortCfg [n]) 19 then
    sent.count (macCounter n 68) 1 else sent
  have hcounted : EventFrame sent counted := EventFrame.ite _ (EventFrame.count _ _ _) (EventFrame.refl _)
  have hout : OutKept sent counted := OutKept.ite _ (OutKept.count _ _ _) (OutKept.of_eq rfl)
  have hnots : ∀ t : State, t.takeTxTs n x = t := fun t => if_pos (by rw [hts]; rfl)
  refine ⟨counted, ?_, ((countTx_frame _ _ _ _).trans (EventFrame.send _ _)).trans hcounted, hout.mem (mem_send _ _)⟩
  have hsend : s.txFrame n = s.sendFrame n false := by
    simp only [State.txFrame, htx, Option.bind_some, hp, htakes, hsettled, Bool.and_self, if_true]
  have hp' : (s.setPort n { s.port n with txNow := none }).pkt p = some x := hp
  rw [hsend]
  simp only [State.sendFrame, htx, hp', hended, hgood, hnots]
  rfl

/-- Settles O22: pauses run out, flow control frames go out or wait, and a whole frame is sent. -/
theorem framesLeave : Obligations.FramesLeave := by
  intro s n hreleased hready
  refine ⟨fun p hover => ?expiry, fun hpending hcan => ?send, fun e hat hdue hasserted hcannot => ?waits,
    fun e hat hdue hasserted hcan => ?refresh, fun p x htx hp htakes hsettled hended hgood hts => ?frame⟩
  case expiry =>
    exact runBlock_effect (f := fun t => t.pauseExpiry n p) hreleased hready (if_pos hover)
  case send =>
    have heff : s.begun.pfcSend n = s.begun.sendFc n := if_pos (by
      show ((s.port n).fcPending && s.fcCan n) = true
      rw [hpending, hcan]
      rfl)
    obtain ⟨hmem, hframe⟩ := sendFc_frame s.begun n
    exact ⟨_, runBlock_effect (f := fun t => t.pfcSend n) hreleased hready heff, hmem,
      hframe⟩
  case waits =>
    have heff : s.begun.pfcRepeat n = s.begun.setPort n { s.port n with fcPending := true, refreshAt := none } := by
      have hat' : (s.begun.port n).refreshAt = some e := hat
      have hgo : (decide (s.now < e) || decide ((s.port n).xoff = 0)) = false := by simp [hdue, hasserted]
      simp only [State.pfcRepeat, hat']
      exact (if_neg (Bool.eq_false_iff.1 hgo)).trans (if_neg (Bool.eq_false_iff.1 hcannot))
    exact runBlock_effect (f := fun t => t.pfcRepeat n) hreleased hready heff
  case refresh =>
    have heff : s.begun.pfcRepeat n = s.begun.sendFc n := by
      have hat' : (s.begun.port n).refreshAt = some e := hat
      have hgo : (decide (s.now < e) || decide ((s.port n).xoff = 0)) = false := by simp [hdue, hasserted]
      simp only [State.pfcRepeat, hat']
      exact (if_neg (Bool.eq_false_iff.1 hgo)).trans (if_pos hcan)
    obtain ⟨hmem, hframe⟩ := sendFc_frame s.begun n
    have hasserted' : ¬ (s.begun.port n).xoff = 0 := hasserted
    rw [if_neg hasserted'] at hframe
    exact ⟨_, runBlock_effect (f := fun t => t.pfcRepeat n) hreleased hready heff,
      hmem, hframe⟩
  case frame =>
    obtain ⟨u, heff, hframe, hmem⟩ := txFrame_whole (s := s.begun) htx hp htakes hsettled hended hgood hts
    have hrun : exec (.txFrame n) s = run (fun t => (t.txFrame n).settleSto) s := by
      show runMain (fun t => (if t.ready 3 then t.txFrame n else t).settleSto) s = _
      rw [runMain_on hreleased]
      have hready' : s.begun.ready 3 = true := hready
      simp only [run, hready', if_true]
    refine ⟨u, hrun.trans ?_, hframe, hmem⟩
    rw [run, heff]

end Sys2Proof.Machine
end

