-- ==== Sys2Proof/Proofs/Parsing.lean ====
section

/-! O23: Marks are made and parsed. -/

namespace Sys2Proof.Machine

theorem mapFind_mapPut_self {α : Type} (m : AMap α) (q : Nat) (v : α) : mapFind (mapPut m q v) q = some v := by
  induction m with
  | nil => simp [mapPut, mapFind]
  | cons p m ih =>
    obtain ⟨k, w⟩ := p
    by_cases hlt : q < k
    · simp [mapPut, hlt, mapFind]
    · by_cases heq : q = k
      · simp [mapPut, heq, mapFind]
      · simp [mapPut, hlt, heq, mapFind, Ne.symm heq, ih]

@[simp] theorem pkt_setPkt_self (s : State) (p : Nat) (x : Packet) : (s.setPkt p x).pkt p = some x :=
  mapFind_mapPut_self s.packets p x

/-- A packet that holds no store leaves none. -/
theorem leaveStore_none {s : State} {p : Nat} {x : Packet} (hp : s.pkt p = some x) (hx : x.inStore = 0) : s.leaveStore p = s := by
  rw [State.leaveStore, hp]
  exact if_pos hx

/-- With no Quoin port no credit is owed. -/
theorem returnOwed_noPorts {s : State} (h : s.csc.ports = []) (p : Nat) : s.returnOwed p = s := by
  refine fold_id _ _ _ fun q _ => ?_
  rw [h]
  rfl

theorem onPkt_at {s : State} {p : Nat} {x : Packet} {st : Stage} {f : Packet → State} (hp : s.pkt p = some x) (hst : x.stage = st) :
    s.onPkt p st f = f x := by
  rw [State.onPkt, hp]
  exact if_pos hst

/-- A waiting packet that may enter takes a slot and its new Mark (spec/01 R28). -/
theorem createMark_enters {s : State} {p c : Nat} {x : Packet} (hp : s.pkt p = some x) (hready : s.ready 8 = true)
    (hst : x.stage = .waitSlot) (hc : s.entryCourse x.mark = some c) (hcourse : bitOf s.bring.readyCourse c = true)
    (hfree : s.slotFree c x.mark.entAct = true) (hstore : x.inStore = 0) (hitem : x.item = none) (hports : s.csc.ports = []) :
    s.createMark p = (s.takeSlot c x.mark.entAct).setPkt p { x with
      stage := .atParser, slot := true
      mark := { x.mark with ver := 3, act := x.mark.entAct, course := c
                            epoch := if x.fresh then s.rules.epoch else x.mark.epoch } } := by
  have hadmitted : s.itemAdmitted x = s := by rw [State.itemAdmitted, hitem]; exact ite_self s
  refine (onPkt_at hp hst).trans ?_
  simp only [hc, hready, hcourse, hfree, hadmitted, Bool.not_true, Bool.false_and, Bool.or_self, Bool.false_eq_true, if_false]
  rw [leaveStore_none (pkt_setPkt_self _ _ _) (by exact hstore), returnOwed_noPorts (by exact hports)]

theorem createMark_waits {s : State} {p c : Nat} {x : Packet} (hp : s.pkt p = some x) (hst : x.stage = .waitSlot)
    (hc : s.entryCourse x.mark = some c) (hfull : s.slotFree c x.mark.entAct = false) : s.createMark p = s := by
  refine (onPkt_at hp hst).trans ?_
  simp only [hc, hfull, Bool.not_false, if_true, ite_self]

theorem begun_walk (s : State) (bs : List Byte) (f : Option Nat) (es : List (Nat × Nat × Nat × Nat)) (n : Nat) :
    ∀ (k o : Nat) (w : Walk), s.begun.walk bs f es n k o w = s.walk bs f es n k o w := by
  have hnode : ∀ k i, s.begun.node k i = s.node k i := fun _ _ => rfl
  have hlen : ∀ fin k o, s.begun.hdrLen bs fin k o = s.hdrLen bs fin k o := fun _ _ _ => rfl
  have hen : ∀ k, s.begun.nodeEn k = s.nodeEn k := fun _ => rfl
  induction n with
  | zero => exact fun _ _ _ => rfl
  | succ n ih =>
    intro k o w
    simp only [State.walk, hnode, hlen, hen, ih]

theorem begun_walkFrame (s : State) (a : Act) (bs : List Byte) (f : Option Nat) :
    s.begun.walkFrame a bs f = s.walkFrame a bs f := by
  have hen : ∀ k, s.begun.nodeEn k = s.nodeEn k := fun _ => rfl
  have hedges : s.begun.edges = s.edges := rfl
  have hfld : s.begun.fld Reg.prsActCfg [a.val] 0 6 = s.fld Reg.prsActCfg [a.val] 0 6 := rfl
  simp only [State.walkFrame, hen, hedges, hfld, begun_walk]

/-- What the parser writes into a packet (spec/11 R315-R334), but for the user bits. -/
def Packet.parsed (x : Packet) (s : State) (user : Nat) : Packet :=
  let f := if x.ended then some x.bytes.length else none
  let w := s.walkFrame x.mark.act x.bytes f
  let cfg := s.word Reg.prsActCfg [x.mark.act.val]
  let fi := findings cfg x.bytes f w
  { x with
    stage := .atRules, raw := if x.ended then [] else x.bytes, late := [], bound := w.bound
    mark := { x.mark with
      hdrs := w.hdrs.map (fun h => { typ := h.1, off := h.2 / 2 })
      flags := { x.mark.flags with
        parseIncomplete := fi.incomplete, malformed := fi.malformed, trailer := fi.trailer, csumBad := fi.csumIp4 || fi.csumL4 }
      hash := Nat.xor (crc32cRaw (s.word Reg.prsHashSeed [x.mark.act.val]) (hashKey cfg x.bytes w.hdrs)) 0xFFFFFFFF
      user := user, reason := fi.reason.getD x.mark.reason } }

/-- The user bits of a parsed Mark: those that the patterns of the activity own say whether one matched (spec/11 R330). -/
def Packet.parsedUser (x : Packet) (s : State) : Nat :=
  let f := if x.ended then some x.bytes.length else none
  let pats := (List.range 64).map (fun k => s.patMatch k x.mark.act x.bytes f (s.walkFrame x.mark.act x.bytes f))
  let mask := s.fld Reg.prsPatUser [x.mark.act.val] 0 24
  let hit (b : Nat) : Bool := (List.range 64).any (fun k =>
    decide (s.fld Reg.prsPat0 [k] 24 5 = b) && decide (pats.getD k none = some true))
  (List.range 24).foldl (fun u b => if bitOf mask b then putBit u b (hit b) else u) x.mark.user

/-- Parsing writes the packet and counts (spec/11 R315-R334). -/
theorem parseMark_parses {s : State} {p : Nat} {x : Packet} (hp : s.pkt p = some x) (hready : s.ready 8 = true)
    (hst : x.stage = .atParser)
    (hwalked : (s.walkFrame x.mark.act x.bytes (if x.ended then some x.bytes.length else none)).wait = false)
    (hwhole : x.ended = true ∨ x.mark.act = .lrx)
    (hpats : ∀ k, k < 64 → s.patMatch k x.mark.act x.bytes (if x.ended then some x.bytes.length else none)
      (s.walkFrame x.mark.act x.bytes (if x.ended then some x.bytes.length else none)) ≠ none) :
    EventFrame (s.setPkt p (x.parsed s (x.parsedUser s))) (s.parseMark p) := by
  have hmatched : ((List.range 64).map (fun k => s.patMatch k x.mark.act x.bytes (if x.ended then some x.bytes.length else none)
      (s.walkFrame x.mark.act x.bytes (if x.ended then some x.bytes.length else none)))).any (fun r => r.isNone) = false := by
    rw [List.any_eq_false]
    intro r hr
    obtain ⟨k, hk, rfl⟩ := List.mem_map.1 hr
    simpa using hpats k (List.mem_range.1 hk)
  have hwhole' : (!x.ended && decide (x.mark.act ≠ .lrx)) = false := by
    rcases hwhole with h | h <;> simp [h]
  have hcond : (!s.ready 8 || (s.walkFrame x.mark.act x.bytes (if x.ended then some x.bytes.length else none)).wait
      || (!x.ended && decide (x.mark.act ≠ .lrx)) || ((List.range 64).map (fun k => s.patMatch k x.mark.act x.bytes
        (if x.ended then some x.bytes.length else none) (s.walkFrame x.mark.act x.bytes
          (if x.ended then some x.bytes.length else none)))).any (fun r => r.isNone)) = false := by
    rw [hready, hwalked, hwhole', hmatched]
    rfl
  have counted : ∀ (t : State) (b : Bool) (a : Nat), EventFrame t (if b then t.count a 1 else t) :=
    fun t b a => EventFrame.ite _ (EventFrame.count t a 1) (EventFrame.refl t)
  rw [State.parseMark, onPkt_at hp hst]
  dsimp only
  rw [if_neg (Bool.eq_false_iff.1 hcond)]
  refine EventFrame.trans ?_ (EventFrame.foldl_self
    (fun t k => EventFrame.ite _ (EventFrame.count t _ _) (EventFrame.refl t)) _ _)
  refine EventFrame.trans ?_ (counted _ _ _)
  refine EventFrame.trans ?_ (counted _ _ _)
  refine EventFrame.trans ?_ (counted _ _ _)
  refine EventFrame.trans ?_ (counted _ _ _)
  refine EventFrame.trans ?_ (counted _ _ _)
  refine EventFrame.trans ?_ (counted _ _ _)
  exact EventFrame.count _ _ _

/-- The reasons of the findings that a whole frame brings anew (spec/11 R334). -/
def lateReasons (fi : Findings) (old : Flags) : List Nat :=
  (if fi.malformed && !old.malformed then [0x15] else [])
    ++ (if (fi.csumIp4 || fi.csumL4) && !old.csumBad then [if fi.csumIp4 then 0x16 else 0x17] else [])
    ++ (if fi.trailer && !old.trailer then [0x18] else [])

theorem mem_lateReasons_malformed (fi : Findings) (old : Flags) :
    0x15 ∈ lateReasons fi old ↔ fi.malformed = true ∧ old.malformed = false := by
  have hmalformed : 0x15 ∈ (if fi.malformed && !old.malformed then [0x15] else []) ↔
      fi.malformed = true ∧ old.malformed = false := by simp
  have hother : 0x15 ∉ (if (fi.csumIp4 || fi.csumL4) && !old.csumBad then [if fi.csumIp4 then 0x16 else 0x17] else []) := by
    split
    · split <;> decide
    · decide
  have htrailer : 0x15 ∉ (if fi.trailer && !old.trailer then [0x18] else []) := by split <;> decide
  simp only [lateReasons, List.mem_append, hmalformed, hother, htrailer, or_false]

theorem mem_lateReasons_trailer (fi : Findings) (old : Flags) :
    0x18 ∈ lateReasons fi old ↔ fi.trailer = true ∧ old.trailer = false := by
  have htrailer : 0x18 ∈ (if fi.trailer && !old.trailer then [0x18] else []) ↔
      fi.trailer = true ∧ old.trailer = false := by simp
  have hother : 0x18 ∉ (if (fi.csumIp4 || fi.csumL4) && !old.csumBad then [if fi.csumIp4 then 0x16 else 0x17] else []) := by
    split
    · split <;> decide
    · decide
  have hmalformed : 0x18 ∉ (if fi.malformed && !old.malformed then [0x15] else []) := by split <;> decide
  simp only [lateReasons, List.mem_append, htrailer, hother, hmalformed, false_or]

/-- The findings that a whole frame brings after the head was parsed set their flags and are counted. -/
theorem lateParse_finds {s : State} {p : Nat} {x : Packet} (hp : s.pkt p = some x) (hst : x.stage = .atRules)
    (hended : x.ended = true) (hraw : x.raw ≠ []) :
    let fi := findings (s.word Reg.prsActCfg [0]) x.raw (some x.raw.length) (s.walkFrame .lrx x.raw (some x.raw.length))
    EventFrame (s.setPkt p { x with
      raw := [], late := lateReasons fi x.mark.flags
      mark := { x.mark with flags := { x.mark.flags with
        malformed := x.mark.flags.malformed || fi.malformed, trailer := x.mark.flags.trailer || fi.trailer
        csumBad := x.mark.flags.csumBad || fi.csumIp4 || fi.csumL4 } } }) (s.lateParse p) := by
  intro fi
  have hcond : (!x.ended || decide (x.raw = []) || decide (x.stage = .waitSlot) || decide (x.stage = .atParser)) = false := by
    simp [hended, hraw, hst]
  have late : ∀ old new : Bool, (old || (new && !old)) = (old || new) := by decide
  have counted : ∀ (t : State) (b : Bool) (a : Nat), EventFrame t (if b then t.count a 1 else t) :=
    fun t b a => EventFrame.ite _ (EventFrame.count t a 1) (EventFrame.refl t)
  rw [State.lateParse, hp]
  dsimp only
  rw [if_neg (Bool.eq_false_iff.1 hcond)]
  refine EventFrame.trans ?_ (counted _ _ _)
  refine EventFrame.trans ?_ (counted _ _ _)
  refine EventFrame.trans ?_ (counted _ _ _)
  simp only [late, Bool.or_assoc]
  exact EventFrame.refl _

/-- Settles O23: a waiting packet enters or waits, the parser writes the Mark, and late findings set their flags. -/
theorem marksAreMadeAndParsed : Obligations.MarksAreMadeAndParsed := by
  intro s p x hreleased hready hp
  refine ⟨fun c hst hc hcourse hfree hstore hitem hports => ?enters, fun c hst hc hfull => ?waits, ?parses, ?late⟩
  case enters =>
    have heff := createMark_enters (s := s.begun) hp hready hst hc hcourse hfree hstore hitem hports
    exact runBlock_effect (f := fun t => t.createMark p) hreleased hready heff
  case waits =>
    exact runBlock_effect (f := fun t => t.createMark p) hreleased hready (createMark_waits (s := s.begun) hp hst hc hfull)
  case parses =>
    intro f w cfg fi hst hwalked hwhole hpats
    have hframe := parseMark_parses (s := s.begun) hp hready hst (by rw [begun_walkFrame]; exact hwalked) hwhole
      (by rw [begun_walkFrame]; exact hpats)
    have hword : ∀ r idx, s.begun.word r idx = s.word r idx := fun _ _ => rfl
    generalize x.parsedUser s.begun = user at hframe
    simp only [Packet.parsed, begun_walkFrame, hword] at hframe
    exact ⟨_, user, runBlock_effect (f := fun t => t.parseMark p) hreleased hready rfl, hframe⟩
  case late =>
    intro fi hst hended hraw
    have hframe := lateParse_finds (s := s.begun) hp hst hended hraw
    have hword : ∀ r idx, s.begun.word r idx = s.word r idx := fun _ _ => rfl
    simp only [begun_walkFrame, hword] at hframe
    exact ⟨_, lateReasons fi x.mark.flags, runBlock_effect (f := fun t => t.lateParse p) hreleased hready rfl, hframe,
      mem_lateReasons_malformed fi _, mem_lateReasons_trailer fi _⟩

end Sys2Proof.Machine
end

