-- ==== Sys2Proof/Proofs/Forwarding.lean ====
section

/-! O25: forwarding with learning off, learn records and aging. -/

namespace Sys2Proof.Machine

/-! ### The lookup -/

/-- With learning off the source of a packet is not looked up (spec/13 R394). -/
theorem sourceLookup_off (s : State) (m : Mark) (bs : List Byte) {prof : Nat} (hoff : bitOf prof 8 = false) :
    s.sourceLookup m bs prof = (s, m) := by
  unfold State.sourceLookup
  dsimp only
  cases l2Key m bs (s.domainOf m prof) true with
  | none => rfl
  | some key => exact if_pos (by rw [hoff]; rfl)

theorem bitOf_of_low_clear {prof : Nat} (h : bitsOf prof 0 5 = 0) {i : Nat} (hi : i < 5) : bitOf prof i = false := by
  have hbit := testBit_bitsOf prof 0 5 i
  rw [h, Nat.zero_testBit, decide_eq_true hi, Bool.true_and, Nat.zero_add] at hbit
  exact hbit.symm

theorem select_of_low_clear {prof : Nat} (h : bitsOf prof 0 5 = 0) : bitsOf prof 2 2 = 0 := by
  simp only [bitsOf] at h ⊢
  omega

/-- A profile that asks for no table finds nothing, and changes nothing (spec/13 R377). -/
theorem lookups_none {s : State} {x : Packet} {prof : Nat} (hnone : bitsOf prof 0 5 = 0) (hmem : s.ready 16 = false) :
    State.lookupSteps x (s.expressStep x x.mark prof) prof = { st := s, mark := x.mark } := by
  have hexpress : s.expressStep x x.mark prof = { st := s, mark := x.mark } := by
    rw [State.expressStep, bitOf_of_low_clear hnone (i := 1) (by omega)]
    rfl
  have hregion : ∀ r : Option Nat, (r.bind fun r => (none : Option (Nat × Nat)).bind (fun _ => (none : Option Nat))) = none := by
    intro r
    cases r <;> rfl
  rw [hexpress]
  simp only [State.lookupSteps, bitOf_of_low_clear hnone (i := 0) (by omega), bitOf_of_low_clear hnone (i := 4) (by omega),
    select_of_low_clear hnone, hmem, Option.isSome_none, Bool.false_and, Bool.false_eq_true, if_false, Option.bind_none,
    Option.bind_fun_none]
  rfl

theorem forward_passes {s : State} {p : Nat} {x : Packet} (hp : s.pkt p = some x) (hst : x.stage = .atForward)
    (hready : s.ready 10 = true) (hoff : bitOf (s.word Reg.fwdClassProf [x.mark.cls]) 8 = false)
    (hover : x.mark.flags.drop = true ∨ x.mark.flags.exception = true ∨ x.mark.flags.recirc = true) :
    s.forward p = s.setPkt p { x with stage := .atTunnel, passBy := false } := by
  have hpass : (x.mark.flags.drop || x.mark.flags.exception || x.mark.flags.recirc) = true := by
    rcases hover with h | h | h <;> simp [h]
  rw [State.forward, onPkt_at hp hst]
  simp only [hready, hpass, sourceLookup_off s x.mark x.bytes hoff, Bool.not_true, Bool.false_eq_true, if_false, if_true]

theorem forward_misses {s : State} {p : Nat} {x : Packet} (hp : s.pkt p = some x) (hst : x.stage = .atForward)
    (hready : s.ready 10 = true) (hoff : bitOf (s.word Reg.fwdClassProf [x.mark.cls]) 8 = false)
    (hdrop : x.mark.flags.drop = false) (hexc : x.mark.flags.exception = false) (hrec : x.mark.flags.recirc = false)
    (hentry : x.mark.entAct ≠ .cas) (hshard : s.bit Reg.cscShardClass [x.mark.cls] 0 = false)
    (hnone : bitsOf (s.word Reg.fwdClassProf [x.mark.cls]) 0 5 = 0) (hmem : s.ready 16 = false)
    (hmiss : bitsOf (s.word Reg.fwdClassProf [x.mark.cls]) 10 2 = 1) :
    s.forward p = (s.count (fwdCounter 5) 1).setPkt p { x with
      stage := .atTunnel, passBy := false, mark := x.mark.dropLate 0x40 } := by
  have hhome : s.shardHome x.mark = none := by
    rw [State.shardHome, hshard]
    rfl
  have hexpress : (s.expressStep x x.mark (s.word Reg.fwdClassProf [x.mark.cls])).dest = none := by
    rw [State.expressStep, bitOf_of_low_clear hnone (i := 1) (by omega)]
    rfl
  rw [State.forward, onPkt_at hp hst]
  simp only [hready, hdrop, hexc, hrec, hentry, hhome, sourceLookup_off s x.mark x.bytes hoff, lookups_none hnone hmem, hmiss,
    bitOf_of_low_clear hnone (i := 0) (by omega), Bool.not_true, Bool.or_self, decide_false, Bool.false_and, Bool.false_eq_true,
    if_false, ite_self]

/-! ### Aging -/

theorem fwdNotice_regs (s : State) (kind domain ktype value portA portB : Nat) :
    (s.fwdNotice kind domain ktype value portA portB).regs = s.regs := by
  unfold State.fwdNotice
  split
  · exact ((EventFrame.count _ _ _).trans (EventFrame.raise _ _ _ _ _)).regs
  · exact (EventFrame.count _ _ _).regs

theorem ageFlow_hit {s : State} {i : Nat} {e : FlowEntry} (he : mapFind s.fwd.flows i = some e) (hage : e.ageEn = true)
    (hperiod : s.fld Reg.fwdAgeCfg [] 16 16 ≠ 0) (hhit : e.hit = true) : s.ageFlow i = s.setFlow i { e with hit := false } := by
  simp only [State.ageFlow, he, hperiod, hage, hhit, decide_false, Bool.not_true, Bool.or_self, Bool.false_eq_true, if_false,
    if_true]

theorem ageFlow_kept {s : State} {i : Nat} {e : FlowEntry} (he : mapFind s.fwd.flows i = some e) (hage : e.ageEn = true)
    (hperiod : s.fld Reg.fwdAgeCfg [] 16 16 ≠ 0) (hhit : e.hit = false) (hkeep : s.bit Reg.fwdTblCfg [] 1 = false) :
    s.ageFlow i = s.fwdNotice 4 (regionOfFlow i) 7 (flowHandle i) (destPort e.dest) 0 := by
  have hkeep' : (s.fwdNotice 4 (regionOfFlow i) 7 (flowHandle i) (destPort e.dest) 0).bit Reg.fwdTblCfg [] 1 = false := by
    rw [State.bit, State.word, fwdNotice_regs]
    exact hkeep
  simp only [State.ageFlow, he, hperiod, hage, hhit, hkeep', decide_false, Bool.not_true, Bool.or_self, Bool.false_eq_true,
    if_false]

theorem ageEm_hit {s : State} {i : Nat} {e : EmEntry} (hi : i < 2097152) (he : s.fwd.emAt (.slot i) = some e)
    (hage : e.ageEn = true) (hperiod : s.fld Reg.fwdAgeCfg [] 0 16 ≠ 0) (hstatic : e.static = false) (hhit : e.hit = true) :
    s.ageEm i = { s with fwd := s.fwd.emWrite (.slot i) { e with hit := false } } := by
  simp only [State.ageEm, if_pos hi, he, hperiod, hage, hstatic, hhit, decide_false, Bool.not_true, Bool.or_self,
    Bool.false_eq_true, if_false, if_true]

/-- Settles O25: what the lookup passes on or drops, and what an aging visit leaves. -/
theorem forwardingAndAging : Obligations.ForwardingAndAging := by
  intro s hreleased hready
  refine ⟨fun p x hp hst hoff => ⟨fun hover => ?passes, fun hdrop hexc hrec hentry hshard hnone hmem hmiss => ?misses⟩,
    fun d a => ?expiry, fun i e he hage hperiod => ⟨fun hhit => ?flowHit, fun hhit hkeep => ?flowKept⟩,
    fun i e hi he hage hperiod hstatic hhit => ?emHit⟩
  case passes =>
    exact runBlock_effect (f := fun t => t.forward p) hreleased hready
      (forward_passes (s := s.begun) hp hst hready hoff hover)
  case misses =>
    exact ⟨_, runBlock_effect (f := fun t => t.forward p) hreleased hready
      (forward_misses (s := s.begun) hp hst hready hoff hdrop hexc hrec hentry hshard hnone hmem hmiss),
      (EventFrame.count s.begun _ _).setPkt p _⟩
  case expiry => exact runBlock_effect (f := fun t => t.learnExpiry d a) hreleased hready rfl
  case flowHit =>
    exact runBlock_effect (f := fun t => t.ageFlow i) hreleased hready (ageFlow_hit (s := s.begun) he hage hperiod hhit)
  case flowKept =>
    exact runBlock_effect (f := fun t => t.ageFlow i) hreleased hready (ageFlow_kept (s := s.begun) he hage hperiod hhit hkeep)
  case emHit =>
    exact runBlock_effect (f := fun t => t.ageEm i) hreleased hready
      (ageEm_hit (s := s.begun) hi he hage hperiod hstatic hhit)

end Sys2Proof.Machine
end

