-- ==== Sys2Proof/Proofs/TunnelAndCrypto.lean ====
section

/-! O26: the tunnel and crypto stages. -/

namespace Sys2Proof.Machine

theorem passes_of {x : Packet} (h : x.mark.flags.drop = true ∨ x.mark.flags.exception = true ∨ x.passBy = true) :
    (x.mark.flags.drop || x.mark.flags.exception || x.passBy) = true := by
  rcases h with h | h | h <;> simp [h]

/-- A packet that the tunnel stage has nothing to do to goes on in order (spec/14 R409). -/
theorem tunnel_passes {s : State} {p : Nat} {x : Packet} (hp : s.pkt p = some x) (hst : x.stage = .atTunnel)
    (hready : s.ready 11 = true)
    (h : x.mark.flags.drop = true ∨ x.mark.flags.exception = true ∨ x.passBy = true
      ∨ (bitOf (s.word Reg.tunClassProf [x.mark.cls]) 0 = false
        ∧ encapEntry (s.word Reg.tunClassProf [x.mark.cls]) x.mark = none)) :
    s.tunnel p = { s.setPkt p { x with stage := .atCrypto, order := s.nextPkt } with nextPkt := s.nextPkt + 1 } := by
  rw [State.tunnel, onPkt_at hp hst]
  by_cases hpass : (x.mark.flags.drop || x.mark.flags.exception || x.passBy) = true
  · simp only [hready, hpass, Bool.not_true, Bool.false_eq_true, if_false, if_true]
  · have hplain : bitOf (s.word Reg.tunClassProf [x.mark.cls]) 0 = false
        ∧ encapEntry (s.word Reg.tunClassProf [x.mark.cls]) x.mark = none := by
      rcases h with h | h | h | h
      · exact absurd (passes_of (.inl h)) hpass
      · exact absurd (passes_of (.inr (.inl h))) hpass
      · exact absurd (passes_of (.inr (.inr h))) hpass
      · exact h
    obtain ⟨hdecap, hencap⟩ := hplain
    simp only [hready, hpass, hdecap, hencap, Option.isSome_none, Bool.false_and, Bool.not_true, Bool.false_eq_true, if_false]

/-! ### Crypto -/

/-- A packet without an SA, or that is done with, passes the crypto stage (spec/14 R425). -/
theorem crypto_passes {s : State} {p : Nat} {x : Packet} (hp : s.pkt p = some x) (hst : x.stage = .atCrypto)
    (hready : s.ready 12 = true)
    (h : x.mark.flags.drop = true ∨ x.mark.flags.exception = true ∨ x.passBy = true ∨ (s.effSa x).1 = 0) :
    s.crypto p = s.setPkt p { x with stage := .atStorage } := by
  have hpass : (x.mark.flags.drop || x.mark.flags.exception || x.passBy || decide ((s.effSa x).1 = 0)) = true := by
    rcases h with h | h | h | h <;> simp [h]
  rw [State.crypto, onPkt_at hp hst]
  simp only [hready, hpass, Bool.not_true, Bool.false_eq_true, if_false, if_true]

theorem missHeld_empty {s : State} {l : Nat} (h : (s.lane l).miss = []) : s.missHeld l = [] := by
  rw [State.missHeld, h]
  rfl

theorem laneOf_lt {s : State} {i l : Nat} (h : s.laneOf i = some l) : l < 8 := by
  unfold State.laneOf at h
  dsimp only at h
  split at h
  · exact absurd h (by simp)
  · have hmem := List.mem_of_getElem? h
    exact List.mem_range.1 (List.mem_filter.1 hmem).1

/-- A packet whose SA is in the cache, with nothing of that SA ahead, is worked on in its lane (spec/14 R434). -/
theorem crypto_works {s : State} {p l : Nat} {x : Packet} (hp : s.pkt p = some x) (hst : x.stage = .atCrypto)
    (hready : s.ready 12 = true) (hended : x.ended = true) (hdrop : x.mark.flags.drop = false)
    (hexc : x.mark.flags.exception = false) (hpass : x.passBy = false) (hsa : (s.effSa x).1 ≠ 0)
    (hlow : (s.effSa x).1 < 4194304) (hlane : s.laneOf (s.effSa x).1 = some l)
    (hcached : s.cry.cache.contains (s.effSa x).1 = true) (hmiss : ∀ k, k < 8 → (s.lane k).miss = [])
    (halone : ∀ q ∈ s.packets, q.1 ≠ p → q.2.stage ≠ .atCrypto) :
    s.crypto p = (((s.setPkt p { x with mark := { x.mark with sa := (s.effSa x).1 }, spiHit := (s.effSa x).2 }).count
      (cryCounter l 5) 1).touchSa (s.effSa x).1).laneWork l p (s.effSa x).1 (s.effSa x).2
        { x with mark := { x.mark with sa := (s.effSa x).1 }, spiHit := (s.effSa x).2 } := by
  have hahead : s.packets.any (fun q => decide (q.1 ≠ p) && decide (q.2.stage = .atCrypto) && decide (q.2.order < x.order)
      && !q.2.mark.flags.drop && !q.2.mark.flags.exception && !q.2.passBy
      && decide ((s.effSa q.2).1 = (s.effSa x).1) && decide (q.2.item ≠ x.item || x.item = none)) = false := by
    refine List.any_eq_false.2 fun q hq => ?_
    by_cases hqp : q.1 = p
    · simp [hqp]
    · simp [halone q hq hqp]
  have hmine : s.missHeld l = [] := missHeld_empty (hmiss l (laneOf_lt hlane))
  have hholders : ∀ named : Nat → Bool, (List.range 8).filter (fun k => (s.missHeld k).any named) = [] := by
    refine fun named => List.filter_eq_nil_iff.2 fun k hk => ?_
    rw [missHeld_empty (hmiss k (List.mem_range.1 hk))]
    simp
  rw [State.crypto, onPkt_at hp hst]
  simp only [hready, hdrop, hexc, hpass, hsa, hended, hlane, Nat.not_le.2 hlow, hmine, hholders, hcached, hahead,
    List.contains_nil, List.any_nil, Bool.not_true, Bool.or_self, decide_false, decide_true, Bool.and_self, Bool.false_eq_true,
    if_false, if_true]

/-! ### The SA cache -/

theorem missHeld_one {s : State} {p l : Nat} {x : Packet} (hp : s.pkt p = some x) (hst : x.stage = .atCrypto)
    (hmiss : (s.lane l).miss = [p]) : s.missHeld l = [p] := by
  rw [State.missHeld, hmiss]
  simp [hp, hst]

/-- The jobs that an SA from HBM lets go where one lane waits for it, with one packet. -/
theorem fillJobs_one {s : State} {p l : Nat} {x : Packet} {named : Nat → Bool} (hl : l < 8) (hp : s.pkt p = some x)
    (hst : x.stage = .atCrypto) (hmiss : (s.lane l).miss = [p]) (hothers : ∀ k, k < 8 → k ≠ l → (s.lane k).miss = [])
    (hnamed : named p = true) :
    (List.range 8).flatMap (fun l => ((s.missHeld l).filter named).map (fun p => (l, p))) = [(l, p)] := by
  have hjobs : ∀ k ∈ List.range 8, ((s.missHeld k).filter named).map (fun p => (k, p)) = if k = l then [(l, p)] else [] := by
    intro k hk
    by_cases hkl : k = l
    · subst hkl
      rw [missHeld_one hp hst hmiss]
      simp [hnamed]
    · rw [missHeld_empty (hothers k (List.mem_range.1 hk) hkl), if_neg hkl]
      rfl
  rw [List.flatMap_congr hjobs]
  interval_cases l <;> rfl

theorem saWaits_of_miss {s : State} {p l i : Nat} {x : Packet} (hl : l < 8) (hp : s.pkt p = some x) (hst : x.stage = .atCrypto)
    (hsa : x.mark.sa = i) (hmiss : (s.lane l).miss = [p]) : s.saWaits i = true := by
  refine List.any_eq_true.2 ⟨l, List.mem_range.2 hl, ?_⟩
  rw [missHeld_one hp hst hmiss]
  simp [hp, hsa]

theorem cryDrop_sa (s : State) (l p r i : Nat) : (s.cryDrop l p r).sa i = s.sa i := by
  unfold State.cryDrop
  split
  · rfl
  · dsimp only
    split
    · rw [State.sa, (EventFrame.count _ _ _).cry]
      rfl
    · rfl

/-- The miss queue of the one lane that waited is emptied. -/
theorem fillMiss_one {s : State} {p l : Nat} {x : Packet} (hp : s.pkt p = some x) (hst : x.stage = .atCrypto)
    (hmiss : (s.lane l).miss = [p]) :
    [(l, p)].foldl (fun (t : State) j => t.setLane j.1 { t.lane j.1 with miss := (t.missHeld j.1).filter (· ≠ j.2) }) s =
      s.setLane l { s.lane l with miss := [] } := by
  simp [missHeld_one hp hst hmiss]

theorem fillSa_works {s : State} {p l i : Nat} {x : Packet} (hl : l < 8) (hready : s.ready 12 = true) (hp : s.pkt p = some x)
    (hst : x.stage = .atCrypto) (hsa : x.mark.sa = i) (hmiss : (s.lane l).miss = [p])
    (hothers : ∀ k, k < 8 → k ≠ l → (s.lane k).miss = []) (hwrap : (s.sa i).wrapDead = false)
    (hroom : s.cry.cache.length < 65536) :
    s.fillSa i true = ((s.setLane l { s.lane l with miss := [] }).touchSa i).laneWork l p i x.spiHit x := by
  have hwrap' : ((s.setLane l { s.lane l with miss := [] }).sa i).wrapDead = false := hwrap
  have hroom' : ¬ 65536 ≤ (s.setLane l { s.lane l with miss := [] }).cry.cache.length := Nat.not_le.2 hroom
  have hp' : ((s.setLane l { s.lane l with miss := [] }).touchSa i).pkt p = some x := hp
  rw [State.fillSa, saWaits_of_miss hl hp hst hsa hmiss, hready, fillJobs_one hl hp hst hmiss hothers (by simp [hp, hsa])]
  simp only [fillMiss_one hp hst hmiss, hwrap', hroom', Bool.not_true, Bool.not_false,
    Bool.or_self, Bool.and_self, Bool.false_eq_true, if_false, if_true, List.foldl_cons, List.foldl_nil, hp', hst]

theorem fillSa_fails {s : State} {p l i : Nat} {x : Packet} (hl : l < 8) (hready : s.ready 12 = true) (hp : s.pkt p = some x)
    (hst : x.stage = .atCrypto) (hsa : x.mark.sa = i) (hmiss : (s.lane l).miss = [p])
    (hothers : ∀ k, k < 8 → k ≠ l → (s.lane k).miss = []) :
    s.fillSa i false = ((s.setLane l { s.lane l with miss := [] }).cryDrop l p 0x67).raise 278 i
      (some (((s.setLane l { s.lane l with miss := [] }).cryDrop l p 0x67).sa i).owner) := by
  rw [State.fillSa, saWaits_of_miss hl hp hst hsa hmiss, hready, cryDrop_sa,
    fillJobs_one hl hp hst hmiss hothers (by simp [hp, hsa])]
  simp only [fillMiss_one hp hst hmiss, Bool.not_true, Bool.or_self, Bool.false_and,
    Bool.false_eq_true, if_false, List.foldl_cons, List.foldl_nil]

/-- Settles O26: what passes the tunnel and crypto stages, what is worked on, and what an SA that arrives lets go. -/
theorem tunnelAndCrypto : Obligations.TunnelAndCrypto := by
  intro s p x hreleased h11 h12 hp
  refine ⟨fun hst h => ?tunnel, fun hst h => ?passes, ?works, fun l i hl hst hsa hlanes hmiss hothers => ⟨fun hwrap hroom => ?fill, ?fail⟩⟩
  case tunnel =>
    exact runBlock_effect (f := fun t => t.tunnel p) hreleased h11 (tunnel_passes (s := s.begun) hp hst h11 h)
  case passes =>
    exact runBlock_effect (f := fun t => t.crypto p) hreleased h12 (crypto_passes (s := s.begun) hp hst h12 h)
  case works =>
    intro l i y hst hended hdrop hexc hpass hi hlow hlane hcached hmiss halone
    exact runBlock_effect (f := fun t => t.crypto p) hreleased h12
      (crypto_works (s := s.begun) hp hst h12 hended hdrop hexc hpass hi hlow hlane hcached hmiss halone)
  case fill =>
    exact runBlock_effect (f := fun t => t.fillSa i true) hreleased h12
      (fillSa_works (s := s.begun) hl h12 hp hst hsa hmiss hothers hwrap hroom)
  case fail =>
    exact runBlock_effect (f := fun t => t.fillSa i false) hreleased h12
      (fillSa_fails (s := s.begun) hl h12 hp hst hsa hmiss hothers)

end Sys2Proof.Machine
end

