-- ==== Sys2Proof/Proofs/TransportCommands.lean ====
section

/-! O27: the command set of the transport engine. -/

namespace Sys2Proof.Machine

/-! ### The way of a command -/

/-- What a write of a command to STO_CMD of a set does, where the effect takes it. -/
theorem run_stoRow {s v : State} {m : Master} {set op c : Nat} (hset : set < 5)
    (hw : s.writes m (blockBase 13 + 0x5000 + 0x100 * set)) (he : State.stoCommand m set op (c % 2 ^ 21) s.begun = (v, true)) :
    runHost (fun t => t.stoRow m set op c) s =
      .next (s.close (m.logged (blockBase 13 + 0x5000 + 0x100 * set) 4 (op + c % 2 ^ 21 * 16) v).settleSto) := by
  have hrow : s.begun.stoRow m set op c = m.logged (blockBase 13 + 0x5000 + 0x100 * set) 4 (op + c % 2 ^ 21 * 16) v := by
    have heff := access_eff ((begun_reaches s m _).2 hw.1) 4 (op + c % 2 ^ 21 * 16) (State.stoCommand m set op (c % 2 ^ 21)) false
      (by rw [he])
    rw [State.stoRow, if_neg (by omega), heff, he]
  rw [runHost, runMain_on hw.1.1, run, hrow]

/-- A set takes a command of a master that may give it while it is free. -/
theorem stoSet_taken {s : State} {m : Master} {f : Nat} (hf : f < 5) (hfw : f = 4 → m.isFw = true)
    (hfree : (s.sto.sets.getD f {}).busy = false) :
    (decide (5 ≤ f) || (decide (f = 4) && !m.isFw) || (s.sto.sets.getD f {}).busy) = false := by
  rw [hfree, decide_eq_false (Nat.not_le.2 hf)]
  by_cases h4 : f = 4
  · simp [hfw h4]
  · simp [h4]

/-- Every command ends with BUSY until MEM is ready (spec/15 R482). -/
theorem stoCommand_notReady {s : State} {m : Master} {f op c : Nat} (hf : f < 5) (hfw : f = 4 → m.isFw = true)
    (hfree : (s.sto.sets.getD f {}).busy = false) (hready : s.ready 16 = false) :
    State.stoCommand m f op c s = (s.endSto f 1, true) := by
  refine (if_neg (Bool.eq_false_iff.1 (stoSet_taken hf hfw hfree))).trans ?_
  simp only [hready, Bool.not_false, if_true]

section
variable {s : State} {m : Master} {f c : Nat} (hf : f < 5) (hfw : f = 4 → m.isFw = true)
  (hfree : (s.sto.sets.getD f {}).busy = false) (hready : s.ready 16 = true)
include hf hfw hfree hready

theorem stoCommand_write (hc : c < 1048576) : State.stoCommand m f 1 c s = (s.ctxWrite m f c, true) := by
  refine (if_neg (Bool.eq_false_iff.1 (stoSet_taken hf hfw hfree))).trans ?_
  simp only [hready, if_neg (Nat.not_le.2 hc), Bool.not_true, Bool.false_eq_true, if_false]

/-- A command of a context that the master may name. -/
theorem stoCommand_onCtx (hc : c < 1048576) (hvalid : (s.ctx c).valid = true) (hface : s.stoOnFace m f (s.ctx c).owner = true) :
    State.stoCommand m f 2 c s =
        (((List.range 16).foldl (fun t w => t.setWord Reg.stoCmdArg [f, w] (ix (s.ctx c).image w)) s).endSto f 0, true)
      ∧ State.stoCommand m f 4 c s = (s.ctxDestroy f c, true)
      ∧ (s.ctxLive (s.ctx c) = true → State.stoCommand m f 3 c s = (s.ctxModify f c, true)
        ∧ State.stoCommand m f 8 c s = (s.connResync f c, true)) := by
  have htaken := Bool.eq_false_iff.1 (stoSet_taken hf hfw hfree)
  refine ⟨(if_neg htaken).trans ?_, (if_neg htaken).trans ?_, fun hlive => ⟨(if_neg htaken).trans ?_, (if_neg htaken).trans ?_⟩⟩
  · simp only [hready, hvalid, hface, if_neg (Nat.not_le.2 hc), Bool.not_true, Bool.false_eq_true, if_false]
  · simp only [hready, hvalid, hface, if_neg (Nat.not_le.2 hc), Bool.not_true, Bool.false_eq_true, if_false]
  · simp only [hready, hvalid, hface, hlive, if_neg (Nat.not_le.2 hc), Bool.not_true, Bool.false_eq_true, if_false, if_true]
  · simp only [hready, hvalid, hface, hlive, if_neg (Nat.not_le.2 hc), Bool.not_true, Bool.false_eq_true, if_false, if_true]

/-- The commands of keys and paths. -/
theorem stoCommand_table (hc : c < 2097152) : State.stoCommand m f 5 c s = (s.keyWrite m f c, true)
    ∧ State.stoCommand m f 6 c s = (s.keyDelete m f c, true) ∧ State.stoCommand m f 7 c s = (s.pathWrite m f c, true) := by
  have htaken := Bool.eq_false_iff.1 (stoSet_taken hf hfw hfree)
  refine ⟨(if_neg htaken).trans ?_, (if_neg htaken).trans ?_, (if_neg htaken).trans ?_⟩ <;>
    simp only [hready, Nat.mod_eq_of_lt hc, Bool.not_true, Bool.false_eq_true, if_false]

end

/-! ### What the commands do -/

theorem ctxWrite_low {s : State} {m : Master} {f c : Nat} (hc : c < 2) : s.ctxWrite m f c = s.endSto f 2 :=
  if_pos (by simp [hc])

/-- The words of a command's argument. -/
def State.stoWords (s : State) (f : Nat) : List Nat := (List.range 16).map (fun w => s.stoArg f w)

/-- The bits of a field that is 0 are clear. -/
theorem bitOf_of_bitsOf_zero {v lo w i : Nat} (h : bitsOf v lo w = 0) (hlo : lo ≤ i) (hi : i < lo + w) : bitOf v i = false := by
  have hbit := testBit_bitsOf v lo w (i - lo)
  rw [h, Nat.zero_testBit, decide_eq_true (show i - lo < w by omega), Bool.true_and, Nat.add_sub_cancel' hlo] at hbit
  exact hbit.symm

/-- A new UD context with no bound queue, as CTX_WRITE stores it (spec/15 R451). -/
def State.newUd (s : State) (f : Nat) : Ctx :=
  { kind := .ud, valid := true, state := .init, ownerGen := (s.inst (bitsOf ((s.stoWords f).getD 0 0) 8 12)).gen
    words := s.stoWords f, sPsn := bitsOf ((s.stoWords f).getD 4 0) 0 24, sendAt := bitsOf ((s.stoWords f).getD 4 0) 0 24
    unack := bitsOf ((s.stoWords f).getD 4 0) 0 24, ePsn := bitsOf ((s.stoWords f).getD 5 0) 0 24
    rc := (s.word Reg.stoCc2 [] : Nat), rt := (s.word Reg.stoCc2 [] : Nat), alphaAt := s.now, incrAt := s.now
    tcpSeq := (s.stoWords f).getD 9 0 }

theorem ctxWrite_ud {s : State} {m : Master} {f c : Nat} (hlow : 2 ≤ c)
    (hface : s.stoOnFace m f (bitsOf ((s.stoWords f).getD 0 0) 8 12) = true) (hown : bitsOf ((s.stoWords f).getD 0 0) 8 12 ≤ 2051)
    (hnew : (s.ctx c).valid = false) (hkind : bitsOf ((s.stoWords f).getD 0 0) 0 2 = 2)
    (hunbound : bitsOf ((s.stoWords f).getD 1 0) 14 2 = 0)
    (hmtu : 1 ≤ bitsOf ((s.stoWords f).getD 2 0) 16 3 ∧ bitsOf ((s.stoWords f).getD 2 0) 16 3 ≤ 5)
    (hfeature : bitOf s.fuses.features 3 = true) (hplain : bitsOf ((s.stoWords f).getD 10 0) 2 2 = 0)
    (hroom : s.ctxsOf (bitsOf ((s.stoWords f).getD 0 0) 8 12) c <
      1024 * (s.inst (bitsOf ((s.stoWords f).getD 0 0) 8 12)).grant.qpUnits) :
    s.ctxWrite m f c = ((s.withdrawCtx c).setCtx c (s.newUd f)).endSto f 0 := by
  have hsq : bitOf ((s.stoWords f).getD 1 0) 14 = false := bitOf_of_bitsOf_zero hunbound (by omega) (by omega)
  have hrq : bitOf ((s.stoWords f).getD 1 0) 15 = false := bitOf_of_bitsOf_zero hunbound (by omega) (by omega)
  have hlive : s.ctxLive (s.ctx c) = false := by rw [State.ctxLive, hnew]; rfl
  have hud : CtxKind.ofCode 2 = .ud := rfl
  obtain ⟨hmtu1, hmtu5⟩ := hmtu
  have hmtu0 : bitsOf ((s.stoWords f).getD 2 0) 16 3 ≠ 0 := by omega
  unfold State.ctxWrite
  rw [show (List.range 16).map (fun w => s.stoArg f w) = s.stoWords f from rfl]
  simp only [ix, hkind, hud, Ctx.sq, Ctx.rq, Ctx.word, hsq, hrq, hlive, hface, hmtu0, Nat.not_lt.2 hmtu5, Nat.not_lt.2 hlow,
    Nat.not_lt.2 hown, hfeature, hplain, Nat.not_lt.2 (Nat.succ_le_of_lt hroom), decide_false, Bool.not_true,
    Bool.or_self, Bool.false_and, Bool.and_false, Bool.false_eq_true, if_false, ne_eq, not_true_eq_false, reduceCtorEq]
  rfl

theorem ctxModify_rts {s : State} {f c : Nat} (hkind : (s.ctx c).kind ≠ .nvt) (hst : (s.ctx c).state = .rtr)
    (hto : bitsOf (s.stoArg f 0) 0 3 = 3) :
    s.ctxModify f c = (s.setCtx c { s.ctx c with state := .rts }).endSto f 0 := by
  simp only [State.ctxModify, hkind, hst, hto, if_false]

theorem ctxModify_init {s : State} {f c : Nat} (hkind : (s.ctx c).kind ≠ .nvt) (hst : (s.ctx c).state = .reset)
    (hto : bitsOf (s.stoArg f 0) 0 3 = 1) :
    s.ctxModify f c = (s.setCtx c { s.ctx c with
      state := .init, sPsn := bitsOf ((s.ctx c).words.getD 4 0) 0 24, sendAt := bitsOf ((s.ctx c).words.getD 4 0) 0 24
      unack := bitsOf ((s.ctx c).words.getD 4 0) 0 24, ePsn := bitsOf ((s.ctx c).words.getD 5 0) 0 24, msn := 0, retries := 0
      rnrs := 0, nakSent := false }).endSto f 0 := by
  simp only [State.ctxModify, hkind, hst, hto, if_false, Ctx.word]

theorem ctxModify_unlisted {s : State} {f c : Nat} (hkind : (s.ctx c).kind ≠ .nvt) (hst : (s.ctx c).state = .init)
    (hto : bitsOf (s.stoArg f 0) 0 3 = 3) : s.ctxModify f c = s.endSto f 2 := by
  simp only [State.ctxModify, hkind, hst, hto, if_false]

theorem ctxDestroy_busy {s : State} {f c : Nat} (hlive : s.ctxLive (s.ctx c) = true) (hkind : (s.ctx c).kind ≠ .nvt)
    (hst : (s.ctx c).state = .rts) : s.ctxDestroy f c = s.endSto f 1 :=
  if_pos (by simp [hlive, hkind, hst])

theorem ctxDestroy_idle {s : State} {f c : Nat}
    (hst : (s.ctx c).kind = .nvt ∨ (s.ctx c).state = .reset ∨ (s.ctx c).state = .error) (hsq : (s.ctx c).sq = none) :
    s.ctxDestroy f c = ({ s.withdrawCtx c with sto := { (s.withdrawCtx c).sto with
      ctxs := mapErase (s.withdrawCtx c).sto.ctxs c
      cache := (s.withdrawCtx c).sto.cache.filter (· ≠ c) } }).endSto f 0 := by
  refine if_neg ?_
  rw [hsq]
  rcases hst with h | h | h <;> simp [h]

theorem keyWrite_new {s : State} {m : Master} {f k : Nat} (hown : (s.keyArg f).owner ≤ 2051)
    (hface : s.stoOnFace m f (s.keyArg f).owner = true) (hnew : (mapGet ({} : MemKey) s.sto.keys k).valid = false)
    (hlen : (s.keyArg f).len ≠ 0) (hroom : s.keysOf (s.keyArg f).owner k < 2048 * (s.inst (s.keyArg f).owner).grant.qpUnits) :
    s.keyWrite m f k = ({ s with sto := { s.sto with keys := mapSet {} s.sto.keys k (s.keyArg f) } }).endSto f 0 := by
  have hlive : s.keyLive (mapGet ({} : MemKey) s.sto.keys k) = false := by rw [State.keyLive, hnew]; rfl
  simp only [State.keyWrite, hlive, hface, hlen, if_neg (Nat.not_lt.2 hown), if_neg (Nat.not_lt.2 (Nat.succ_le_of_lt hroom)),
    Bool.not_true, Bool.false_and, Bool.false_eq_true, if_false]

theorem keyDelete_valid {s : State} {m : Master} {f k : Nat} (hvalid : (mapGet ({} : MemKey) s.sto.keys k).valid = true)
    (hface : s.stoOnFace m f (mapGet ({} : MemKey) s.sto.keys k).owner = true) :
    s.keyDelete m f k = ({ s with sto := { s.sto with keys := mapErase s.sto.keys k } }).endSto f 0 := by
  simp only [State.keyDelete, hvalid, hface, Bool.not_true, Bool.false_eq_true, if_false]

theorem keyDelete_invalid {s : State} {m : Master} {f k : Nat} (hvalid : (mapGet ({} : MemKey) s.sto.keys k).valid = false) :
    s.keyDelete m f k = s.endSto f 5 := if_pos (by rw [hvalid]; rfl)

theorem pathWrite_new {s : State} {m : Master} {f p : Nat} (hp : p < 65536)
    (hown : bitsOf ((s.stoWords f).getD 12 0) 0 12 ≤ 2051)
    (hface : s.stoOnFace m f (bitsOf ((s.stoWords f).getD 12 0) 0 12) = true) (hnew : (s.path p).valid = false) :
    s.pathWrite m f p = ({ s with sto := { s.sto with
      paths := mapSet {} s.sto.paths p
        { words := s.stoWords f, ownerGen := (s.inst (bitsOf ((s.stoWords f).getD 12 0) 0 12)).gen, valid := true } } }).endSto
          f 0 := by
  have hlive : s.pathLive (s.path p) = false := by rw [State.pathLive, hnew]; rfl
  unfold State.pathWrite
  rw [show (List.range 16).map (fun w => s.stoArg f w) = s.stoWords f from rfl]
  simp only [ix, hlive, hface, Nat.not_le.2 hp, Nat.not_lt.2 hown, decide_false, Bool.or_self, Bool.not_true, Bool.false_and,
    Bool.false_eq_true, if_false]

theorem pathWrite_high {s : State} {m : Master} {f p : Nat} (hp : 65536 ≤ p) : s.pathWrite m f p = s.endSto f 2 :=
  if_pos (by simp [hp])

theorem connResync_armed {s : State} {f c : Nat} (hkind : (s.ctx c).kind = .nvt) (hst : (s.ctx c).nvt = .resync) :
    s.connResync f c = (s.setCtx c { s.ctx c with resync := some (s.stoArg f 0) }).endSto f 0 :=
  if_neg (by simp [hkind, hst])

theorem connResync_tracking {s : State} {f c : Nat} (hst : (s.ctx c).nvt = .track) : s.connResync f c = s.endSto f 2 :=
  if_pos (by simp [hst])

theorem stoWords_head (s : State) (f : Nat) : (s.stoWords f).getD 0 0 = s.stoArg f 0 := rfl

/-- Settles O27: every command reaches its set (`run_stoRow`), is taken there, and does what its function says. -/
theorem transportCommands : Obligations.TransportCommands := by
  intro s m set c hset hfw a w fin hw hfree hc
  have hmod : c % 2 ^ 21 = c := Nat.mod_eq_of_lt hc
  have hgo : ∀ {op : Nat} {v : State}, State.stoCommand m set op c s.begun = (v, true) →
      runHost (fun t => t.stoRow m set op c) s = .next (s.close (m.logged a 4 (w op) v).settleSto) := by
    intro op v h
    exact run_stoRow hset hw (by rw [hmod]; exact h)
  refine ⟨fun hready => ?notReady, fun hready => ?ready⟩
  case notReady =>
    have hbusy : ∀ op, runHost (fun t => t.stoRow m set op c) s = fin op 1 s.begun :=
      fun op => hgo (stoCommand_notReady (s := s.begun) hset hfw hfree hready)
    exact ⟨hbusy 1, hbusy 2, hbusy 3, hbusy 4, hbusy 5, hbusy 6, hbusy 7, hbusy 8⟩
  case ready =>
    intro ws own new x mine
    have hctx : mine → _ := fun h => stoCommand_onCtx (s := s.begun) (c := c) hset hfw hfree hready h.1 h.2.1 h.2.2
    obtain ⟨hkeyWrite, hkeyDelete, hpathWrite⟩ := stoCommand_table (s := s.begun) (m := m) (c := c) hset hfw hfree hready hc
    refine ⟨fun hlow hhigh hface hown hnew hkind hunbound hmtu hfeature hplain hroom => ?write, fun hlow => ?low,
      fun hmine => ?read, fun hmine hlive hkind hst hto => ?rts, fun hmine hlive hkind hst hto => ?init,
      fun hmine hlive hkind hst hto => ?unlisted, fun hmine hlive hkind hst => ?busy, fun hmine hst hsq => ?destroy,
      ?keyNew, ⟨fun hvalid hface => ?keyGone, fun hvalid => ?keyNone⟩, ⟨fun hp hown hface hnew => ?pathNew, fun hp => ?pathHigh⟩,
      fun hmine hlive => ⟨fun hkind hst => ?resync, fun hst => ?tracking⟩⟩
    case write =>
      exact hgo ((stoCommand_write (s := s.begun) hset hfw hfree hready hhigh).trans (congrArg (·, true)
        (ctxWrite_ud (s := s.begun) hlow hface hown hnew hkind hunbound hmtu hfeature hplain hroom)))
    case low =>
      exact hgo ((stoCommand_write (s := s.begun) hset hfw hfree hready (by omega)).trans (congrArg (·, true)
        (ctxWrite_low (s := s.begun) hlow)))
    case read => exact hgo (hctx hmine).1
    case rts =>
      exact hgo (((hctx hmine).2.2 hlive).1.trans (congrArg (·, true) (ctxModify_rts (s := s.begun) hkind hst hto)))
    case init =>
      exact hgo (((hctx hmine).2.2 hlive).1.trans (congrArg (·, true) (ctxModify_init (s := s.begun) hkind hst hto)))
    case unlisted =>
      exact hgo (((hctx hmine).2.2 hlive).1.trans (congrArg (·, true) (ctxModify_unlisted (s := s.begun) hkind hst hto)))
    case busy =>
      exact hgo ((hctx hmine).2.1.trans (congrArg (·, true) (ctxDestroy_busy (s := s.begun) hlive hkind hst)))
    case destroy =>
      exact hgo ((hctx hmine).2.1.trans (congrArg (·, true) (ctxDestroy_idle (s := s.begun) hst hsq)))
    case keyNew =>
      intro k hown hface hnew hlen hroom
      exact hgo (hkeyWrite.trans (congrArg (·, true) (keyWrite_new (s := s.begun) hown hface hnew hlen hroom)))
    case keyGone =>
      exact hgo (hkeyDelete.trans (congrArg (·, true) (keyDelete_valid (s := s.begun) hvalid hface)))
    case keyNone => exact hgo (hkeyDelete.trans (congrArg (·, true) (keyDelete_invalid (s := s.begun) hvalid)))
    case pathNew =>
      exact hgo (hpathWrite.trans (congrArg (·, true) (pathWrite_new (s := s.begun) hp hown hface hnew)))
    case pathHigh => exact hgo (hpathWrite.trans (congrArg (·, true) (pathWrite_high (s := s.begun) hp)))
    case resync =>
      exact hgo (((hctx hmine).2.2 hlive).2.trans (congrArg (·, true) (connResync_armed (s := s.begun) hkind hst)))
    case tracking =>
      exact hgo (((hctx hmine).2.2 hlive).2.trans (congrArg (·, true) (connResync_tracking (s := s.begun) hst)))

end Sys2Proof.Machine
end

