-- ==== Sys2Proof/Proofs/TransportTimers.lean ====
section

/-! O28: the timers of transport contexts. -/

namespace Sys2Proof.Machine

theorem runHostBlock_effect {f : State → State} {s u : State} {b : Nat} (hreleased : s.released = true)
    (hready : s.ready b = true) (h : f s.begun = u) : runHostBlock b f s = .next (s.close u.settleSto) := by
  have hready' : s.begun.ready b = true := hready
  show runMain (fun t => (if t.ready b then f t else t).settleSto) s = _
  rw [runMain_on hreleased, run]
  simp only [hready', if_true, h]

@[simp] theorem ctx_setCtx_self (s : State) (c : Nat) (x : Ctx) : (s.setCtx c x).ctx c = x := by
  rw [State.ctx, State.setCtx]
  exact mapGet_mapSet_self _ _ _ _

theorem setCtx_setCtx {s : State} {c : Nat} {x : Ctx} (hx : x ≠ {}) (y : Ctx) : (s.setCtx c x).setCtx c y = s.setCtx c y := by
  simp only [State.setCtx, mapSet_mapSet _ _ hx]

theorem valid_ne_default {x : Ctx} (h : x.valid = true) : x ≠ {} := by
  rintro rfl
  exact Bool.false_ne_true h

theorem ctxLive_valid {s : State} {x : Ctx} (h : s.ctxLive x = true) : x.valid = true := (Bool.and_eq_true_iff.1 h).1

/-- The packets of a context that are dropped leave the rest of it (spec/15 R460). -/
theorem dropOuts_ctx (s : State) (c : Nat) :
    (s.dropOuts c).ctx c = { s.ctx c with outs := (s.ctx c).outs.filter (fun o => o.resp) } := ctx_setCtx_self _ _ _

theorem delayExpiry_due {s : State} {c e : Nat} (hend : (s.ctx c).delayEnd = some e) (hdue : e ≤ s.now)
    (hlive : s.ctxLive (s.ctx c) = true) : s.delayExpiry c =
      (s.setCtx c { s.ctx c with delayEnd := none }).sendAck c 0x1F (((s.ctx c).ePsn + 2 ^ 24 - 1) % 2 ^ 24) := by
  simp only [State.delayExpiry, hend, hlive, Nat.not_lt.2 hdue, decide_false, Bool.not_true, Bool.or_self, Bool.false_eq_true,
    if_false]
  rfl

section
variable {s : State} {c e : Nat} (hend : (s.ctx c).ackEnd = some e) (hdue : e ≤ s.now)
  (hlive : s.ctxLive (s.ctx c) = true) (hopen : (s.ctx c).unack ≠ (s.ctx c).sPsn)
include hend hdue hlive hopen

theorem ackExpiry_resends (hleft : (s.ctx c).retries < bitsOf ((s.ctx c).words.getD 2 0) 24 3) :
    s.ackExpiry c = (s.dropOuts c).setCtx c { (s.dropOuts c).ctx c with
      sendAt := (s.ctx c).unack, retries := ((s.dropOuts c).ctx c).retries + 1, ackEnd := none } := by
  have hvalid : ((s.dropOuts c).ctx c).valid = true := by
    rw [dropOuts_ctx]
    exact ctxLive_valid hlive
  simp only [State.ackExpiry, hend, hlive, hopen, Ctx.word, Nat.not_lt.2 hdue, Nat.not_le.2 hleft, decide_false, Bool.not_true,
    Bool.or_self, Bool.false_eq_true, if_false, State.resendFrom, ctx_setCtx_self]
  rw [setCtx_setCtx (valid_ne_default (by exact hvalid))]

theorem ackExpiry_spent (hspent : bitsOf ((s.ctx c).words.getD 2 0) 24 3 ≤ (s.ctx c).retries) :
    s.ackExpiry c = s.teardown c (((s.ctx c).msgAt (s.ctx c).unack).map (fun g => (g.first, 0x21))) := by
  simp only [State.ackExpiry, hend, hlive, hopen, Ctx.word, Nat.not_lt.2 hdue, hspent, decide_false, Bool.not_true, Bool.or_self,
    Bool.false_eq_true, if_false, if_true]

end

theorem rnrExpiry_eq {s : State} {c e : Nat} (hend : (s.ctx c).rnrEnd = some e) :
    s.rnrExpiry c = if s.now < e then s else s.setCtx c { s.ctx c with rnrEnd := none } := by
  simp only [State.rnrExpiry, hend]

theorem alphaExpiry_due {s : State} {c : Nat} (hvalid : (s.ctx c).valid = true)
    (hdue : (s.ctx c).alphaAt + 1000 * s.fld Reg.stoCc1 [] 0 16 ≤ s.now) :
    s.alphaExpiry c = s.setCtx c { s.ctx c with
      alpha := (1 - (s.fld Reg.stoCc0 [] 0 8 : Rat) / 256) * (s.ctx c).alpha, alphaAt := s.now } := by
  rw [State.fld] at hdue
  refine if_neg ?_
  rw [hvalid, decide_eq_false (Nat.not_lt.2 hdue)]
  decide

theorem increase_due {s : State} {c : Nat} (hvalid : (s.ctx c).valid = true)
    (hdue : (s.ctx c).incrAt + 1000 * s.fld Reg.stoCc1 [] 16 16 ≤ s.now) (hstage : (s.ctx c).stage < s.fld Reg.stoCc0 [] 8 8)
    (hbytes : (s.ctx c).incrBytes < 1024 * s.word Reg.stoCc5 []) :
    s.increase c = s.setCtx c { s.ctx c with
      rc := ((s.ctx c).rt + (s.ctx c).rc) / 2, stage := (s.ctx c).stage + 1, incrAt := s.now } := by
  rw [State.fld] at hdue hstage
  simp only [State.increase, hvalid, hdue, Nat.not_le.2 hstage, Nat.not_le.2 hbytes, decide_true, Bool.true_or, Bool.not_true,
    Bool.or_self, Bool.false_eq_true, if_false, if_true]

/-- Settles O28: each timer acts once it has run out. -/
theorem transportTimers : Obligations.TransportTimers := by
  intro s c hreleased hready x
  refine ⟨fun e hend hdue hlive => ?delay, fun e hend hdue hlive hopen => ⟨fun hleft => ?resends, fun hspent => ?spent⟩,
    fun e hend => ⟨fun hdue => ?rnr, fun hwait => ?rnrWait⟩, fun hvalid hdue => ?alpha, fun hvalid hdue hstage hbytes => ?increase⟩
  case delay =>
    exact runHostBlock_effect (f := fun t => t.delayExpiry c) hreleased hready (delayExpiry_due (s := s.begun) hend hdue hlive)
  case resends =>
    exact runHostBlock_effect (f := fun t => t.ackExpiry c) hreleased hready
      (ackExpiry_resends (s := s.begun) hend hdue hlive hopen hleft)
  case spent =>
    exact runHostBlock_effect (f := fun t => t.ackExpiry c) hreleased hready
      (ackExpiry_spent (s := s.begun) hend hdue hlive hopen hspent)
  case rnr =>
    exact runHostBlock_effect (f := fun t => t.rnrExpiry c) hreleased hready
      ((rnrExpiry_eq (s := s.begun) hend).trans (if_neg (Nat.not_lt.2 hdue)))
  case rnrWait =>
    exact runHostBlock_effect (f := fun t => t.rnrExpiry c) hreleased hready
      ((rnrExpiry_eq (s := s.begun) hend).trans (if_pos hwait))
  case alpha =>
    exact runBlock_effect (f := fun t => t.alphaExpiry c) hreleased hready (alphaExpiry_due (s := s.begun) hvalid hdue)
  case increase =>
    exact runBlock_effect (f := fun t => t.increase c) hreleased hready
      (increase_due (s := s.begun) hvalid hdue hstage hbytes)

end Sys2Proof.Machine
end

