-- ==== Sys2Proof/Proofs/TransportPackets.lean ====
section

/-! O29: the packets of the transport engine, and direct data placement. -/

namespace Sys2Proof.Machine

theorem touchCtx_sto (s : State) (c : Nat) : (s.touchCtx c).sto.ctxs = s.sto.ctxs := by
  unfold State.touchCtx
  dsimp only
  split
  · rfl
  · rw [(EventFrame.count _ _ _).sto]

@[simp] theorem touchCtx_ctx (s : State) (c k : Nat) : (s.touchCtx c).ctx k = s.ctx k := by
  rw [State.ctx, touchCtx_sto]
  rfl

/-! ### Received packets -/

/-- A RoCE packet that the engine looks at (spec/15 R448). -/
def Packet.isRoce (x : Packet) (prof : Nat) : Prop :=
  bitOf prof 0 = true ∧ (x.mark.heads.getLastD (0, 0)).1 = 21 ∧ x.passBy = false ∧ x.mark.flags.drop = false
    ∧ x.mark.flags.exception = false ∧ x.ended = true

section
variable {s : State} {p : Nat} {x : Packet} (hp : s.pkt p = some x) (hst : x.stage = .atStorage) (hready : s.ready 13 = true)
include hp hst hready

theorem stoRx_passes (h : x.passBy = true ∨ x.mark.flags.drop = true ∨ x.mark.flags.exception = true
      ∨ (bitOf (s.word Reg.stoClassProf [x.mark.cls]) 0 = false ∧ bitOf (s.word Reg.stoClassProf [x.mark.cls]) 1 = false)) :
    s.stoRx p = s.setPkt p { x with stage := .atBuffer } := by
  rw [State.stoRx, onPkt_at hp hst]
  by_cases hpass : (x.passBy || x.mark.flags.drop || x.mark.flags.exception) = true
  · simp only [hready, hpass, Bool.not_true, Bool.false_eq_true, if_false, if_true]
  · have hoff : bitOf (s.word Reg.stoClassProf [x.mark.cls]) 0 = false
        ∧ bitOf (s.word Reg.stoClassProf [x.mark.cls]) 1 = false := by
      rcases h with h | h | h | h
      · exact absurd (by simp [h]) hpass
      · exact absurd (by simp [h]) hpass
      · exact absurd (by simp [h]) hpass
      · exact h
    obtain ⟨h0, h1⟩ := hoff
    simp only [hready, hpass, h0, h1, Bool.false_and, Bool.not_true, Bool.false_eq_true, if_false]

theorem stoRx_roce (h : x.isRoce (s.word Reg.stoClassProf [x.mark.cls])) : s.stoRx p =
    (s.takeRoce p x (x.mark.heads.getLastD (0, 0)).2 (s.word Reg.stoClassProf [x.mark.cls])).getD
      (s.setPkt p { x with stage := .atBuffer }) := by
  obtain ⟨hprof, hlast, hpass, hdrop, hexc, hended⟩ := h
  rw [State.stoRx, onPkt_at hp hst]
  simp only [hready, hpass, hdrop, hexc, hprof, hlast, hended, Bool.not_true, Bool.or_self, Bool.false_eq_true, if_false,
    decide_true, Bool.and_self, if_true]
  cases s.takeRoce p x (x.mark.heads.getLastD (0, 0)).2 (s.word Reg.stoClassProf [x.mark.cls]) <;> rfl

end

section
variable {s : State} {p o prof : Nat} {x : Packet}

theorem takeRoce_foreign (h : (roceParts x.mark x.bytes o).dest < 2 ∨ 1048576 ≤ (roceParts x.mark x.bytes o).dest) :
    s.takeRoce p x o prof = none :=
  if_pos (by rcases h with h | h <;> simp [h])

variable (hlow : 2 ≤ (roceParts x.mark x.bytes o).dest) (hhigh : (roceParts x.mark x.bytes o).dest < 1048576)
include hlow hhigh

theorem takeRoce_badIcrc (hon : bitOf prof 2 = true) (hbad : icrcGood x.mark x.bytes o = false) :
    s.takeRoce p x o prof = some ((s.touchCtx (roceParts x.mark x.bytes o).dest).stoDrop p 0x71) := by
  simp only [State.takeRoce, Nat.not_lt.2 hlow, Nat.not_le.2 hhigh, hon, hbad, decide_false, Bool.or_self, Bool.not_false,
    Bool.and_self, Bool.false_eq_true, if_false, if_true]

variable (hicrc : bitOf prof 2 = true → icrcGood x.mark x.bytes o = true)
include hicrc

theorem takeRoce_noCtx (hnone : (s.ctx (roceParts x.mark x.bytes o).dest).valid = false) :
    s.takeRoce p x o prof = some ((s.touchCtx (roceParts x.mark x.bytes o).dest).stoDrop p 0x70) := by
  have hgood : (bitOf prof 2 && !icrcGood x.mark x.bytes o) = false := by
    cases hon : bitOf prof 2
    · rfl
    · rw [hicrc hon]; rfl
  simp only [State.takeRoce, Nat.not_lt.2 hlow, Nat.not_le.2 hhigh, hgood, hnone, decide_false, Bool.or_self, Bool.not_false,
    Bool.true_or, Bool.false_eq_true, if_false, if_true]

/-- A request of a live RC context in RTR or RTS is answered as a responder (spec/15 R457). -/
theorem takeRoce_request {y : Ctx} (hy : s.ctx (roceParts x.mark x.bytes o).dest = y)
    (hvalid : y.valid = true) (hkind : y.kind = .rc)
    (hgen : (s.touchCtx (roceParts x.mark x.bytes o).dest).genOk y.owner y.ownerGen = true)
    (hinst : x.mark.inst = noInst ∨ x.mark.inst = y.owner)
    (hstate : y.state = .rtr ∨ y.state = .rts)
    (hce : (roceParts x.mark x.bytes o).ce = false) (hop : (roceParts x.mark x.bytes o).op ≤ 0x0B) :
    s.takeRoce p x o prof = some ((s.touchCtx (roceParts x.mark x.bytes o).dest).respond (roceParts x.mark x.bytes o).dest p
      (roceParts x.mark x.bytes o)) := by
  have hgood : (bitOf prof 2 && !icrcGood x.mark x.bytes o) = false := by
    cases hon : bitOf prof 2
    · rfl
    · rw [hicrc hon]; rfl
  have hfits : kindFits .rc (roceParts x.mark x.bytes o).op = true := by
    simp [kindFits, show (roceParts x.mark x.bytes o).op < 0x20 by omega]
  have hmine : ¬ (x.mark.inst ≠ noInst ∧ x.mark.inst ≠ y.owner) := by
    rcases hinst with h | h <;> simp [h]
  have hlive : ¬ (y.state ≠ .rtr
      ∧ y.state ≠ .rts) := by
    rcases hstate with h | h <;> simp [h]
  have hnotRead : ¬ 0x0D ≤ (roceParts x.mark x.bytes o).op := by omega
  have hnotCnp : (roceParts x.mark x.bytes o).op ≠ 0x81 := by omega
  have hnotAck : (roceParts x.mark x.bytes o).op ≠ 0x11 := by omega
  have hkind' : ¬ CtxKind.rc = CtxKind.ud := by decide
  simp only [State.takeRoce, Nat.not_lt.2 hlow, Nat.not_le.2 hhigh, hgood, hy, hvalid, hkind, hfits, hgen, hce, hnotRead, hnotCnp,
    hnotAck, hkind', decide_false, Bool.or_self, Bool.not_true, Bool.false_and, Bool.false_eq_true, if_false]
  simp only [Bool.and_eq_true, decide_eq_true_eq, hmine, hlive, if_false]

end

theorem respond_ahead {s : State} {c p : Nat} {r : RoceIn} (hahead : 0 < sub24 r.psn (s.ctx c).ePsn)
    (hnear : sub24 r.psn (s.ctx c).ePsn < 2 ^ 23) (hsent : (s.ctx c).nakSent = true) : s.respond c p r = s.stoDrop p 0x72 := by
  simp only [State.respond, Nat.ne_of_gt hahead, hnear, hsent, if_false, if_true]

theorem respond_duplicate {s : State} {c p : Nat} {r : RoceIn} (hbehind : 2 ^ 23 ≤ sub24 r.psn (s.ctx c).ePsn)
    (hop : r.op ≤ 0x0B) :
    s.respond c p r = (s.sendAck c 0x1F (((s.ctx c).ePsn + 2 ^ 24 - 1) % 2 ^ 24)).stoTaken p := by
  have hne : sub24 r.psn (s.ctx c).ePsn ≠ 0 := by omega
  have hnotRead : r.op ≠ 0x0C := by omega
  simp only [State.respond, hne, Nat.not_lt.2 hbehind, hnotRead, if_false]
  rfl

/-! ### Sending -/

section
variable {s : State} {c : Nat} (hlive : s.ctxLive (s.ctx c) = true) (hready : s.ready 13 = true)
  (hkind : (s.ctx c).kind ≠ .nvt) (hstate : (s.ctx c).state = .rtr ∨ (s.ctx c).state = .rts)
include hlive hready hkind hstate

theorem stoSend_open : (!s.ctxLive (s.ctx c) || !s.ready 13 || decide ((s.ctx c).kind = .nvt)
    || !(decide ((s.ctx c).state = .rtr) || decide ((s.ctx c).state = .rts))) = false := by
  rcases hstate with h | h <;> simp [hlive, hready, hkind, h]

theorem stoSend_hands {o : StoOut} {os : List StoOut} (houts : (s.ctx c).outs = o :: os) (hread : o.reads = 0)
    (hrate : (s.ctx c).ccEn = false ∨ (s.ctx c).nextSend ≤ (s.now : Rat)) : s.stoSend c = (s.touchCtx c).handOut c o := by
  have hnow : (s.touchCtx c).now = s.now := by
    unfold State.touchCtx
    dsimp only
    split
    · rfl
    · rw [(EventFrame.count _ _ _).now]
      rfl
  have hallowed : ((s.ctx c).ccEn && decide ((s.now : Rat) < (s.ctx c).nextSend)) = false := by
    rcases hrate with h | h
    · rw [h]; rfl
    · rw [decide_eq_false (not_lt.2 h), Bool.and_false]
  refine (if_neg (Bool.eq_false_iff.1 (stoSend_open hlive hready hkind hstate))).trans ?_
  simp only [houts, hread, hnow, hallowed, Bool.false_eq_true, if_false, if_true]

theorem stoSend_responds (houts : (s.ctx c).outs = []) (hreads : (s.ctx c).reads ≠ []) :
    s.stoSend c = (s.touchCtx c).prepareResp c := by
  refine (if_neg (Bool.eq_false_iff.1 (stoSend_open hlive hready hkind hstate))).trans ?_
  simp only [houts]
  exact if_pos hreads

theorem stoSend_nothing (houts : (s.ctx c).outs = []) (hreads : (s.ctx c).reads = []) (hrtr : (s.ctx c).state = .rtr) :
    s.stoSend c = s.touchCtx c := by
  refine (if_neg (Bool.eq_false_iff.1 (stoSend_open hlive hready hkind hstate))).trans ?_
  simp only [houts]
  refine (if_neg (by simp [hreads])).trans (if_pos ?_)
  rw [hrtr]
  rfl

end

/-! ### Direct data placement -/

theorem ddpSetup_eq {s : State} {c q : Nat} {i : TxItem} (hitem : s.ddpItem c 1 = some (q, i)) : s.ddpSetup c =
    if 256 ≤ ((s.ctx c).ddp.filter (fun e => decide (e.cid ≠ bitsOf (leAt i.head 16 4) 0 16))).length then
      (s.touchCtx c).setItem q { i with phase := .ended, status := 0x2E, toAdmit := 0 }
    else ((s.touchCtx c).setCtx c { s.ctx c with
      ddp := (s.ctx c).ddp.filter (fun e => decide (e.cid ≠ bitsOf (leAt i.head 16 4) 0 16))
        ++ [{ cid := bitsOf (leAt i.head 16 4) 0 16, segs := i.segs.map (fun g => (g.1, g.2.1))
              refTag := leAt i.head 20 4 }] }).setItem q { i with phase := .ended, status := 0, toAdmit := 0 } := by
  simp only [State.ddpSetup, hitem, touchCtx_ctx, State.endDdp]

theorem ddpTeardown_free {s : State} {c q : Nat} {i : TxItem} (hitem : s.ddpItem c 2 = some (q, i))
    (hpdu : (s.ctx c).pdu.cid ≠ some (bitsOf (leAt i.head 16 4) 0 16))
    (hplacing : ∀ g ∈ (s.ctx c).placing, g.cid ≠ some (bitsOf (leAt i.head 16 4) 0 16)) :
    s.ddpTeardown c = ((s.touchCtx c).setCtx c { s.ctx c with
      ddp := (s.ctx c).ddp.filter (fun e => decide (e.cid ≠ bitsOf (leAt i.head 16 4) 0 16)) }).setItem q
        { i with phase := .ended, status := 0, toAdmit := 0 } := by
  have hidle : (decide ((s.ctx c).pdu.cid = some (bitsOf (leAt i.head 16 4) 0 16))
      || (s.ctx c).placing.any (fun p => decide (p.cid = some (bitsOf (leAt i.head 16 4) 0 16)))) = false := by
    simpa [hpdu] using hplacing
  simp only [State.ddpTeardown, hitem, touchCtx_ctx, State.endDdp, hidle, Bool.false_eq_true, if_false]

/-- Settles O29: what the engine passes on, discards or answers, what it hands in, and what the placement table records. -/
theorem transportPackets : Obligations.TransportPackets := by
  intro s hreleased hready
  refine ⟨fun p x hp hst => ?packets, fun c => ?sends, fun c q i hitem => ?setup, fun c q i hitem => ?teardown⟩
  case packets =>
    intro prof o r t y roce mine
    have hctx : y = s.ctx r.dest := touchCtx_ctx s.begun r.dest r.dest
    have hgo : ∀ {u : State}, s.begun.stoRx p = u → exec (.stoRxPacket p) s = .next (s.close u.settleSto) :=
      fun h => runHostBlock_effect (f := fun t => t.stoRx p) hreleased hready h
    have hrx : roce → s.begun.stoRx p = (s.begun.takeRoce p x o prof).getD (s.begun.setPkt p { x with stage := .atBuffer }) :=
      fun hroce => stoRx_roce (s := s.begun) hp hst hready hroce
    have htaken : ∀ {u : State}, roce → s.begun.takeRoce p x o prof = some u → s.begun.stoRx p = u := by
      intro u hroce hu
      rw [hrx hroce, hu, Option.getD_some]
    have hrequest : mine → s.begun.stoRx p = t.respond r.dest p r := by
      rintro ⟨hroce, hlow, hhigh, hicrc, hvalid, hkind, hgen, hinst, hstate, hce, hop⟩
      exact htaken hroce (takeRoce_request (s := s.begun) hlow hhigh hicrc (y := y) hctx.symm (by rw [hctx]; exact hvalid) (by rw [hctx]; exact hkind)
        hgen hinst hstate hce hop)
    refine ⟨?pass, fun hroce hlow hhigh hicrc hnone => ?noCtx, fun hroce hlow hhigh hon hbad => ?icrc,
      fun hmine hahead hnear hsent => ?ahead, fun hmine hbehind => ?duplicate⟩
    case pass =>
      rintro (h | h | h | h | ⟨hroce, hforeign⟩)
      · exact hgo (stoRx_passes (s := s.begun) hp hst hready (.inl h))
      · exact hgo (stoRx_passes (s := s.begun) hp hst hready (.inr (.inl h)))
      · exact hgo (stoRx_passes (s := s.begun) hp hst hready (.inr (.inr (.inl h))))
      · exact hgo (stoRx_passes (s := s.begun) hp hst hready (.inr (.inr (.inr h))))
      · exact hgo ((hrx hroce).trans (by rw [takeRoce_foreign (s := s.begun) hforeign, Option.getD_none]))
    case noCtx => exact hgo (htaken hroce (takeRoce_noCtx (s := s.begun) hlow hhigh hicrc hnone))
    case icrc => exact hgo (htaken hroce (takeRoce_badIcrc (s := s.begun) hlow hhigh hon hbad))
    case ahead => exact hgo ((hrequest hmine).trans (respond_ahead hahead hnear hsent))
    case duplicate =>
      have hop : r.op ≤ 0x0B := by
        obtain ⟨-, -, -, -, -, -, -, -, -, -, hop⟩ := hmine
        exact hop
      exact hgo ((hrequest hmine).trans (respond_duplicate hbehind hop))
  case sends =>
    intro t y hlive hkind hstate
    have hctx : y = s.ctx c := touchCtx_ctx s.begun c c
    have hgo : ∀ {u : State}, s.begun.stoSend c = u → exec (.stoSend c) s = .next (s.close u.settleSto) :=
      fun h => runHostBlock_effect (f := fun t => t.stoSend c) hreleased hready h
    refine ⟨fun o os houts hread hrate => ?hands, fun houts hreads => ?responds, fun houts hreads hrtr => ?nothing⟩
    case hands =>
      rw [hctx] at houts hrate
      exact hgo (stoSend_hands (s := s.begun) hlive hready hkind hstate houts hread hrate)
    case responds =>
      rw [hctx] at houts hreads
      exact hgo (stoSend_responds (s := s.begun) hlive hready hkind hstate houts hreads)
    case nothing =>
      rw [hctx] at houts hreads
      exact hgo (stoSend_nothing (s := s.begun) hlive hready hkind hstate houts hreads hrtr)
  case setup =>
    intro t y cid rest
    have hctx : y = s.ctx c := touchCtx_ctx s.begun c c
    have heff := ddpSetup_eq (s := s.begun) hitem
    have hrest : rest = (s.ctx c).ddp.filter (fun e => decide (e.cid ≠ cid)) := by rw [← hctx]
    refine ⟨fun hfull => ?full, fun hroom => ?room⟩
    case full =>
      rw [hrest] at hfull
      exact runHostBlock_effect (f := fun t => t.ddpSetup c) hreleased hready (heff.trans (if_pos hfull))
    case room =>
      rw [hrest] at hroom ⊢
      rw [hctx]
      exact runHostBlock_effect (f := fun t => t.ddpSetup c) hreleased hready (heff.trans (if_neg (Nat.not_le.2 hroom)))
  case teardown =>
    intro t y cid hpdu hplacing
    have hctx : y = s.ctx c := touchCtx_ctx s.begun c c
    rw [hctx] at hpdu hplacing ⊢
    exact runHostBlock_effect (f := fun t => t.ddpTeardown c) hreleased hready
      (ddpTeardown_free (s := s.begun) hitem hpdu hplacing)

end Sys2Proof.Machine
end

