-- ==== Sys2Proof/Proofs/PacketRemoval.lean ====
section

/-! What the removal of a packet leaves: it is gone, and the mark, bytes and stage of every other packet stay. -/

namespace Sys2Proof.Machine

/-! ### The map of packets -/

section
variable {α : Type}

theorem keysAbove_mapPut {b q : Nat} {m : AMap α} {v : α} (h : keysAbove b m) (hq : b < q) : keysAbove b (mapPut m q v) := by
  intro p hp
  rcases mem_mapPut hp with rfl | hp
  · exact hq
  · exact h p hp

theorem keysRise_mapPut {m : AMap α} (h : keysRise m = true) (q : Nat) (v : α) : keysRise (mapPut m q v) = true := by
  induction m with
  | nil => rfl
  | cons p m ih =>
    obtain ⟨k, w⟩ := p
    obtain ⟨habove, hrise⟩ := (keysRise_cons k w m).1 h
    by_cases hlt : q < k
    · rw [mapPut, if_pos hlt]
      refine (keysRise_cons q v _).2 ⟨fun p hp => ?_, h⟩
      rcases List.mem_cons.1 hp with rfl | hp
      · exact hlt
      · exact Nat.lt_trans hlt (habove p hp)
    · by_cases heq : q = k
      · rw [mapPut, if_neg hlt, if_pos heq]
        exact (keysRise_cons q v m).2 ⟨by rw [heq]; exact habove, hrise⟩
      · rw [mapPut, if_neg hlt, if_neg heq]
        exact (keysRise_cons k w _).2 ⟨keysAbove_mapPut habove (by omega), ih hrise⟩

theorem keysRise_mapErase {m : AMap α} (h : keysRise m = true) (q : Nat) : keysRise (mapErase m q) = true := by
  induction m with
  | nil => rfl
  | cons p m ih =>
    obtain ⟨k, w⟩ := p
    obtain ⟨habove, hrise⟩ := (keysRise_cons k w m).1 h
    rw [mapErase, List.filter_cons]
    split
    · exact (keysRise_cons k w _).2 ⟨keysAbove_mapErase habove q, ih hrise⟩
    · exact ih hrise

theorem mapFind_mapPut_ne (m : AMap α) {q r : Nat} (h : r ≠ q) (v : α) : mapFind (mapPut m q v) r = mapFind m r := by
  have hne : ¬ q = r := fun e => h e.symm
  induction m with
  | nil => simp [mapPut, mapFind, hne]
  | cons p m ih =>
    obtain ⟨k, w⟩ := p
    by_cases hlt : q < k
    · simp [mapPut, hlt, mapFind, hne]
    · by_cases heq : q = k
      · simp [mapPut, ← heq, mapFind, hne]
      · simp [mapPut, hlt, heq, mapFind, ih]

theorem mapFind_mapErase_self (m : AMap α) (q : Nat) : mapFind (mapErase m q) q = none := by
  induction m with
  | nil => rfl
  | cons p m ih =>
    obtain ⟨k, w⟩ := p
    by_cases heq : k = q
    · rw [mapErase, List.filter_cons_of_neg (by simp [heq])]
      exact ih
    · rw [mapErase, List.filter_cons_of_pos (by simp [heq]), mapFind, if_neg heq]
      exact ih

theorem mapFind_mapErase_ne (m : AMap α) {q r : Nat} (h : r ≠ q) : mapFind (mapErase m q) r = mapFind m r := by
  induction m with
  | nil => rfl
  | cons p m ih =>
    obtain ⟨k, w⟩ := p
    by_cases heq : k = q
    · rw [mapErase, List.filter_cons_of_neg (by simp [heq]), mapFind, if_neg (fun e => h (e.symm.trans heq))]
      exact ih
    · rw [mapErase, List.filter_cons_of_pos (by simp [heq]), mapFind, mapFind]
      exact congrArg _ ih

/-- In a map whose keys rise, every entry is what its key finds. -/
theorem mapFind_of_mem {m : AMap α} (h : keysRise m = true) {q : Nat} {v : α} (hmem : (q, v) ∈ m) : mapFind m q = some v := by
  induction m with
  | nil => exact absurd hmem List.not_mem_nil
  | cons p m ih =>
    obtain ⟨k, w⟩ := p
    obtain ⟨habove, hrise⟩ := (keysRise_cons k w m).1 h
    rcases List.mem_cons.1 hmem with heq | hmem
    · obtain ⟨rfl, rfl⟩ := Prod.mk.inj heq
      simp [mapFind]
    · have hlt : k < q := habove _ hmem
      rw [mapFind, if_neg (by omega)]
      exact ih hrise hmem

theorem mem_of_mapFind {m : AMap α} {q : Nat} {v : α} (h : mapFind m q = some v) : (q, v) ∈ m := by
  induction m with
  | nil => exact absurd h (by simp [mapFind])
  | cons p m ih =>
    obtain ⟨k, w⟩ := p
    rw [mapFind] at h
    split at h
    · rename_i hk
      rw [hk, Option.some.inj h]
      exact List.mem_cons_self ..
    · exact List.mem_cons_of_mem _ (ih h)

end

theorem pkt_setPkt_ne {s : State} {p q : Nat} (h : q ≠ p) (x : Packet) : (s.setPkt p x).pkt q = s.pkt q :=
  mapFind_mapPut_ne s.packets h x

/-! ### Steps that touch no packet -/

/-- `t` has the packets, the cells of receive queues and the spilled cells of `s`. -/
def StoreFrame (s t : State) : Prop := t.packets = s.packets ∧ t.buf.rxqs = s.buf.rxqs ∧ t.buf.spilled = s.buf.spilled

theorem StoreFrame.refl (s : State) : StoreFrame s s := ⟨rfl, rfl, rfl⟩

theorem StoreFrame.trans {s u t : State} (h : StoreFrame s u) (k : StoreFrame u t) : StoreFrame s t :=
  ⟨k.1.trans h.1, k.2.1.trans h.2.1, k.2.2.trans h.2.2⟩

theorem StoreFrame.ite {s a b : State} (c : Prop) [Decidable c] (ha : StoreFrame s a) (hb : StoreFrame s b) :
    StoreFrame s (if c then a else b) := by
  split
  · exact ha
  · exact hb

theorem EventFrame.store {s t : State} (h : EventFrame s t) : StoreFrame s t :=
  ⟨h.packets, congrArg Buf.rxqs h.buf, congrArg Buf.spilled h.buf⟩

theorem StoreFrame.count (s : State) (a n : Nat) : StoreFrame s (s.count a n) := (EventFrame.count s a n).store

theorem StoreFrame.setPort (s : State) (n : Nat) (x : LinePort) : StoreFrame s (s.setPort n x) := ⟨rfl, rfl, rfl⟩

theorem StoreFrame.updateXoff (s : State) (n : Nat) : StoreFrame s (s.updateXoff n) := by
  unfold State.updateXoff
  exact StoreFrame.ite _ (StoreFrame.refl s) (StoreFrame.setPort _ _ _)

theorem StoreFrame.setPg (s : State) (n p : Nat) (x : PgUse) : StoreFrame s (s.setPg n p x) := ⟨rfl, rfl, rfl⟩

theorem StoreFrame.evalXoff (s : State) (n p : Nat) : StoreFrame s (s.evalXoff n p) := by
  unfold State.evalXoff
  exact ((StoreFrame.ite _ (StoreFrame.count _ _ _) (StoreFrame.refl _)).trans (StoreFrame.setPg _ _ _ _)).trans
    (StoreFrame.updateXoff _ _)

theorem StoreFrame.evalUnit (s : State) (u : IngUnit) : StoreFrame s (s.evalUnit u) := by
  cases u with
  | pg n p => exact StoreFrame.evalXoff s n p
  | act a => exact StoreFrame.refl s

theorem StoreFrame.ingSub (s : State) (u : IngUnit) (c : Nat) : StoreFrame s (s.ingSub u c) := by
  cases u <;> exact ⟨rfl, rfl, rfl⟩

theorem StoreFrame.foldl {β : Type} {f : State → β → State} (hf : ∀ t x, StoreFrame t (f t x)) (s : State) (l : List β) :
    StoreFrame s (l.foldl f s) :=
  foldl_keeps (R := StoreFrame) StoreFrame.refl StoreFrame.trans hf l s

theorem StoreFrame.setRsXoff (s : State) (o : Nat) (v : Bool) :
    StoreFrame s { s with buf := { s.buf with rsXoff := setNth s.buf.rsXoff o v } } := ⟨rfl, rfl, rfl⟩

theorem StoreFrame.evalStore (s : State) (o : Nat) : StoreFrame s (s.evalStore o) := by
  unfold State.evalStore
  refine StoreFrame.ite _ (StoreFrame.refl s) ?_
  exact (StoreFrame.ite _ (StoreFrame.trans (StoreFrame.setRsXoff s o _) (StoreFrame.count _ _ _)) (StoreFrame.setRsXoff s o _)).trans
    (StoreFrame.foldl (fun t k => StoreFrame.updateXoff t _) _ _)

theorem StoreFrame.storeAdd (s : State) (o : Nat) (d : Int) : StoreFrame s (s.storeAdd o d) :=
  StoreFrame.trans ⟨rfl, rfl, rfl⟩ (StoreFrame.evalStore _ o)

theorem StoreFrame.credit (s : State) (q : Nat) (x : QuoinPort) (i n : Nat) :
    StoreFrame s (({ s with csc := { s.csc with ports := setNth s.csc.ports q x } }).send (.credit q i n)) := ⟨rfl, rfl, rfl⟩

theorem StoreFrame.returnOwed (s : State) (p : Nat) : StoreFrame s (s.returnOwed p) :=
  StoreFrame.foldl (fun t q => StoreFrame.ite _ (StoreFrame.refl t) (StoreFrame.credit t q _ _ _)) _ _

theorem StoreFrame.updItem (s : State) (it : Option (Nat × Nat)) (f : TxItem → TxItem) : StoreFrame s (s.updItem it f) := by
  cases it <;> exact ⟨rfl, rfl, rfl⟩

theorem setEg_packets (s : State) (u : EgUnit) (c : Nat) : (s.setEg u c).packets = s.packets := by
  cases u <;> rfl

/-! ### The other packets -/

/-- What a step may not change of a packet that it is not about. -/
def Packet.core (x : Packet) : Mark × List Byte × Stage := (x.mark, x.bytes, x.stage)

/-- From a state whose packet keys rise: they rise still, and the packets beside `p` keep their mark, bytes and stage. -/
def OthersKept (p : Nat) (s t : State) : Prop :=
  keysRise s.packets = true → keysRise t.packets = true ∧ ∀ q, q ≠ p → (t.pkt q).map Packet.core = (s.pkt q).map Packet.core

theorem OthersKept.of_packets {p : Nat} {s t : State} (h : t.packets = s.packets) : OthersKept p s t := by
  intro hrise
  rw [h]
  exact ⟨hrise, fun q _ => by rw [State.pkt, State.pkt, h]⟩

theorem StoreFrame.others {s t : State} (h : StoreFrame s t) (p : Nat) : OthersKept p s t := OthersKept.of_packets h.1

theorem OthersKept.trans {p : Nat} {s u t : State} (h : OthersKept p s u) (k : OthersKept p u t) : OthersKept p s t := by
  intro hrise
  obtain ⟨hriseU, hsame⟩ := h hrise
  obtain ⟨hriseT, hsame'⟩ := k hriseU
  exact ⟨hriseT, fun q hq => (hsame' q hq).trans (hsame q hq)⟩

theorem OthersKept.ite {p : Nat} {s a b : State} (c : Prop) [Decidable c] (ha : OthersKept p s a) (hb : OthersKept p s b) :
    OthersKept p s (if c then a else b) := by
  split
  · exact ha
  · exact hb

theorem OthersKept.setPkt (s : State) (p : Nat) (x : Packet) : OthersKept p s (s.setPkt p x) :=
  fun hrise => ⟨keysRise_mapPut hrise p x, fun q hq => by rw [pkt_setPkt_ne hq]⟩

/-- Rewriting a packet that is there, with its mark, bytes and stage. -/
theorem OthersKept.setPkt_core {p : Nat} {s : State} {q : Nat × Packet} (hmem : q ∈ s.packets) {x : Packet}
    (hx : x.core = q.2.core) : OthersKept p s (s.setPkt q.1 x) := by
  intro hrise
  refine ⟨keysRise_mapPut hrise q.1 x, fun r _ => ?_⟩
  by_cases hr : r = q.1
  · have hq : s.pkt q.1 = some q.2 := mapFind_of_mem hrise hmem
    rw [hr, pkt_setPkt_self, hq, Option.map_some, Option.map_some, hx]
  · rw [pkt_setPkt_ne hr]

/-- The map of packets without one of them. -/
def State.erasePkt (s : State) (p : Nat) : State := { s with packets := mapErase s.packets p }

theorem erasePkt_pkt (s : State) (p : Nat) : (s.erasePkt p).pkt p = none := mapFind_mapErase_self s.packets p

theorem OthersKept.erase (s : State) (p : Nat) : OthersKept p s (s.erasePkt p) :=
  fun hrise => ⟨keysRise_mapErase hrise p, fun _ hq => congrArg (Option.map Packet.core) (mapFind_mapErase_ne s.packets hq)⟩

theorem mem_of_family {s : State} {p : Nat} {x : Packet} {q : Nat × Packet} (h : q ∈ s.family p x) : q ∈ s.packets :=
  (List.mem_filter.1 h).1

theorem family_ne {s : State} {p : Nat} {x : Packet} {q : Nat × Packet} (h : q ∈ s.family p x) : q.1 ≠ p := by
  have hcond := (List.mem_filter.1 h).2
  simp only [Bool.and_eq_true, decide_eq_true_eq] at hcond
  exact hcond.2

theorem OthersKept.leaveStore (s : State) (p : Nat) : OthersKept p s (s.leaveStore p) := by
  unfold State.leaveStore
  split
  · exact OthersKept.ite _ (OthersKept.of_packets rfl)
      ((OthersKept.setPkt s p _).trans ((StoreFrame.storeAdd _ _ _).others p))
  · exact OthersKept.of_packets rfl

theorem OthersKept.freeSlot (s : State) (p : Nat) : OthersKept p s (s.freeSlot p) := by
  unfold State.freeSlot
  split
  · exact OthersKept.ite _ ((OthersKept.setPkt s p _).trans (OthersKept.of_packets rfl)) (OthersKept.of_packets rfl)
  · exact OthersKept.of_packets rfl

theorem OthersKept.passLate (s : State) (p : Nat) (x : Packet) : OthersKept p s (s.passLate p x) := by
  refine OthersKept.ite _ (OthersKept.of_packets rfl) ?_
  cases hfamily : s.family p x with
  | nil => exact OthersKept.of_packets rfl
  | cons q qs =>
    exact OthersKept.setPkt_core (mem_of_family (p := p) (x := x) (by rw [hfamily]; exact List.mem_cons_self ..)) rfl

/-- A packet without its cells. -/
def Packet.noCells (x : Packet) : Packet := { x with egCells := 0, ingCells := 0, hdrmCells := 0 }

theorem StoreFrame.setUsed (s : State) (c : Nat) : StoreFrame s { s with buf := { s.buf with used := c } } := ⟨rfl, rfl, rfl⟩

/-- The cells of a packet go back: to its egress unit, and to a copy of the same original or its ingress unit (spec/16 R493). -/
theorem freeCells_cases {s : State} {p : Nat} {x : Packet} (hp : s.pkt p = some x) :
    let t := (s.setEg x.eg (s.egUsed x.eg - x.egCells)).setPkt p x.noCells
    (∃ q ∈ t.family p x, s.freeCells p = t.setPkt q.1
        { q.2 with ingCells := x.ingCells, hdrmCells := x.hdrmCells, ing := x.ing })
      ∨ StoreFrame t (s.freeCells p) := by
  intro t
  unfold State.freeCells
  rw [hp]
  show (∃ q ∈ t.family p x, (if x.ingCells + x.hdrmCells = 0 then t else _) = _) ∨
    StoreFrame t (if x.ingCells + x.hdrmCells = 0 then t else _)
  by_cases hheld : x.ingCells + x.hdrmCells = 0
  · rw [if_pos hheld]
    exact .inr (StoreFrame.refl t)
  · rw [if_neg hheld]
    split
    · rename_i q hfind
      exact .inl ⟨q, List.mem_of_find?_eq_some hfind, rfl⟩
    · exact .inr (((StoreFrame.ingSub t x.ing _).trans (StoreFrame.setUsed _ _)).trans (StoreFrame.evalUnit _ x.ing))

theorem OthersKept.freeCells (s : State) (p : Nat) : OthersKept p s (s.freeCells p) := by
  cases hp : s.pkt p with
  | none =>
    rw [State.freeCells, hp]
    exact OthersKept.of_packets rfl
  | some x =>
    have hset : OthersKept p s ((s.setEg x.eg (s.egUsed x.eg - x.egCells)).setPkt p x.noCells) :=
      (OthersKept.of_packets (setEg_packets s _ _)).trans (OthersKept.setPkt _ p _)
    rcases freeCells_cases hp with ⟨q, hq, heq⟩ | hframe
    · rw [heq]
      exact hset.trans (OthersKept.setPkt_core (mem_of_family hq) rfl)
    · exact hset.trans (hframe.others p)

/-- What stands before a packet is taken out of the map. -/
def State.beforeErase (s : State) (p : Nat) : State := (((s.leaveStore p).returnOwed p).freeSlot p).freeCells p

theorem OthersKept.beforeErase (s : State) (p : Nat) : OthersKept p s (s.beforeErase p) :=
  (((OthersKept.leaveStore s p).trans ((StoreFrame.returnOwed _ p).others p)).trans (OthersKept.freeSlot _ p)).trans
    (OthersKept.freeCells _ p)

/-- The spilled cells of a receive packet go before the packet. -/
def State.spillGone (s : State) (p : Nat) : State :=
  match s.pkt p with
  | some x =>
    match x.eg with
    | .rxq q => if x.inHbm then s.leaveSpill q (cellsOf x.mark.len) else s
    | _ => s
  | none => s

theorem spillGone_packets (s : State) (p : Nat) : (s.spillGone p).packets = s.packets := by
  unfold State.spillGone
  split
  · split
    · split <;> rfl
    · rfl
  · rfl

theorem removePkt_eq (s : State) (p : Nat) : s.removePkt p = ((s.beforeErase p).spillGone p).erasePkt p := by
  unfold State.removePkt State.beforeErase
  generalize (((s.leaveStore p).returnOwed p).freeSlot p).freeCells p = t
  unfold State.spillGone
  dsimp only
  congr 1

theorem removePkt_pkt (s : State) (p : Nat) : (s.removePkt p).pkt p = none := by
  rw [removePkt_eq, erasePkt_pkt]

theorem OthersKept.removePkt (s : State) (p : Nat) : OthersKept p s (s.removePkt p) := by
  rw [removePkt_eq]
  exact ((OthersKept.beforeErase s p).trans (OthersKept.of_packets (spillGone_packets _ p))).trans (OthersKept.erase _ p)

theorem dropPkt_pkt (s : State) (p : Nat) : (s.dropPkt p).pkt p = none := by
  unfold State.dropPkt
  split
  · assumption
  · exact removePkt_pkt _ p

theorem StoreFrame.itemAdmitted (s : State) (x : Packet) : StoreFrame s (s.itemAdmitted x) :=
  StoreFrame.ite _ (StoreFrame.updItem _ _ _) (StoreFrame.refl s)

theorem StoreFrame.itemTagGone (s : State) (x : Packet) : StoreFrame s (s.itemTagGone x) :=
  StoreFrame.ite _ (StoreFrame.updItem _ _ _) (StoreFrame.refl s)

theorem OthersKept.dropPkt (s : State) (p : Nat) : OthersKept p s (s.dropPkt p) := by
  unfold State.dropPkt
  split
  · exact OthersKept.of_packets rfl
  · rename_i x _
    extract_lets admitted tagged
    have hadmitted : StoreFrame s admitted := StoreFrame.ite _ (StoreFrame.itemAdmitted s x) (StoreFrame.refl s)
    have htagged : StoreFrame admitted tagged := StoreFrame.ite _ (StoreFrame.refl _) (StoreFrame.itemTagGone _ x)
    exact (((hadmitted.trans htagged).others p).trans (OthersKept.passLate _ p x)).trans (OthersKept.removePkt _ p)

/-- What is counted and reported before a packet of the buffer is discarded. -/
theorem dropBuf_drops (s : State) (p r : Nat) : s.dropBuf p r = s ∧ s.pkt p = none ∨
    ∃ t, StoreFrame s t ∧ s.dropBuf p r = t.dropPkt p := by
  unfold State.dropBuf
  split
  · exact .inl ⟨rfl, by assumption⟩
  · rename_i x _
    extract_lets counted noted
    have hcounted : StoreFrame s counted := StoreFrame.ite _ (StoreFrame.count _ _ _) (StoreFrame.refl s)
    refine .inr ⟨noted, hcounted.trans ?_, rfl⟩
    show StoreFrame counted noted
    simp only [noted]
    split
    · refine StoreFrame.ite _ ((StoreFrame.count _ _ _).trans (StoreFrame.ite _ ?_ (StoreFrame.refl _))) (StoreFrame.refl _)
      exact (StoreFrame.setPg _ _ _ _).trans (EventFrame.raise _ _ _ _ _).store
    · exact StoreFrame.refl _

theorem dropBuf_pkt (s : State) (p r : Nat) : (s.dropBuf p r).pkt p = none := by
  rcases dropBuf_drops s p r with ⟨heq, hnone⟩ | ⟨t, -, heq⟩
  · rw [heq, hnone]
  · rw [heq, dropPkt_pkt]

theorem OthersKept.dropBuf (s : State) (p r : Nat) : OthersKept p s (s.dropBuf p r) := by
  rcases dropBuf_drops s p r with ⟨heq, -⟩ | ⟨t, hframe, heq⟩
  · rw [heq]
    exact OthersKept.of_packets rfl
  · rw [heq]
    exact (hframe.others p).trans (OthersKept.dropPkt t p)

/-- A fold over the packets that discards those of one kind: they are gone, and the others keep mark, bytes and stage. -/
theorem dropFold {gone : Nat × Packet → Bool} {r : Nat} (l : AMap Packet) :
    ∀ s : State, keysRise s.packets = true → keysRise l = true →
      let u := l.foldl (fun t q => if gone q then t.dropBuf q.1 r else t) s
      ∀ p, (∀ x, mapFind l p = some x → gone (p, x) = true → u.pkt p = none)
        ∧ ((∀ x, mapFind l p = some x → gone (p, x) = false) → (u.pkt p).map Packet.core = (s.pkt p).map Packet.core)
        ∧ (s.pkt p = none → u.pkt p = none) := by
  induction l with
  | nil => exact fun s _ _ p => ⟨fun x hx => absurd hx (by simp [mapFind]), fun _ => rfl, fun h => h⟩
  | cons e l ih =>
    intro s hrise hl
    obtain ⟨k, y⟩ := e
    obtain ⟨habove, hrest⟩ := (keysRise_cons k y l).1 hl
    have hkl : mapFind l k = none := by
      by_contra hsome
      obtain ⟨v, hv⟩ := Option.ne_none_iff_exists'.1 hsome
      exact absurd (habove _ (mem_of_mapFind hv)) (Nat.lt_irrefl k)
    have hstep : keysRise (if gone (k, y) then s.dropBuf k r else s).packets = true := by
      split
      · exact (OthersKept.dropBuf s k r hrise).1
      · exact hrise
    intro u p
    obtain ⟨hgone, hkept, hnone⟩ := ih _ hstep hrest p
    by_cases hpk : p = k
    · subst hpk
      refine ⟨fun x hx hg => hnone ?_, fun hall => ?_, fun h => hnone ?_⟩
      · rw [mapFind, if_pos rfl] at hx
        rw [Option.some.inj hx, if_pos hg]
        exact dropBuf_pkt s p r
      · have hstay : gone (p, y) = false := hall y (by rw [mapFind, if_pos rfl])
        have hthen := hkept (fun x hx => absurd (hkl.symm.trans hx) (by simp))
        rw [hstay] at hthen
        have hsame : (if (false : Bool) = true then s.dropBuf p r else s) = s := if_neg Bool.false_ne_true
        rw [hsame] at hthen
        show Option.map Packet.core ((l.foldl _ (if gone (p, y) = true then s.dropBuf p r else s)).pkt p) = _
        rw [hstay, hsame]
        exact hthen
      · split
        · exact dropBuf_pkt s p r
        · exact h
    · have hsame : ((if gone (k, y) then s.dropBuf k r else s).pkt p).map Packet.core = (s.pkt p).map Packet.core := by
        split
        · exact (OthersKept.dropBuf s k r hrise).2 p hpk
        · rfl
      have hfind : mapFind ((k, y) :: l) p = mapFind l p := by rw [mapFind, if_neg (fun h => hpk h.symm)]
      rw [hfind]
      refine ⟨hgone, fun hall => (hkept hall).trans hsame, fun h => hnone ?_⟩
      rw [h] at hsame
      exact Option.map_eq_none_iff.1 hsame

end Sys2Proof.Machine
end

