-- ==== Sys2Proof/Proofs/PacketsHeld.lean ====
section

/-! O31: XOFF, the age, hold, spill and flush of the packets that the buffer holds (spec/01 R17, spec/16 R495-R506). -/

namespace Sys2Proof.Machine

/-! ### XOFF -/

@[simp] theorem pg_setPg_self (s : State) (n p : Nat) (x : PgUse) : (s.setPg n p x).pg n p = x := by
  rw [State.pg, State.setPg, mapGet_mapSet_self]

/-- What the evaluation of a group makes of its XOFF (spec/16 R495). -/
def State.xoffOf (s : State) (n p : Nat) : Bool :=
  if !s.lossless n p then false
  else if 0 < (s.pg n p).hdrmUsed then true
  else if (s.pg n p).rsv + thr (s.fld Reg.bufPgCtl [n, p] 0 4) s.sharedFree ≤ (s.pg n p).used then true
  else if (s.pg n p).used + s.fld Reg.bufPgCtl [n, p] 8 16 ≤ (s.pg n p).rsv + thr (s.fld Reg.bufPgCtl [n, p] 0 4) s.sharedFree
    then false
  else (s.pg n p).xoff

section
variable {s : State} {n p : Nat}

theorem xoffOf_lossy (h : s.lossless n p = false) : s.xoffOf n p = false := if_pos (by rw [h]; rfl)

theorem xoffOf_full (hlossless : s.lossless n p = true) (h : 0 < (s.pg n p).hdrmUsed ∨
    (s.pg n p).rsv + thr (s.fld Reg.bufPgCtl [n, p] 0 4) s.sharedFree ≤ (s.pg n p).used) : s.xoffOf n p = true := by
  refine (if_neg (by rw [hlossless]; exact Bool.false_ne_true)).trans ?_
  by_cases hhdrm : 0 < (s.pg n p).hdrmUsed
  · exact if_pos hhdrm
  · exact (if_neg hhdrm).trans (if_pos (h.resolve_left hhdrm))

theorem xoffOf_room (hlossless : s.lossless n p = true) (hhdrm : (s.pg n p).hdrmUsed = 0)
    (hroom : (s.pg n p).used < (s.pg n p).rsv + thr (s.fld Reg.bufPgCtl [n, p] 0 4) s.sharedFree) :
    s.xoffOf n p = if (s.pg n p).used + s.fld Reg.bufPgCtl [n, p] 8 16
      ≤ (s.pg n p).rsv + thr (s.fld Reg.bufPgCtl [n, p] 0 4) s.sharedFree then false else (s.pg n p).xoff :=
  (if_neg (by rw [hlossless]; exact Bool.false_ne_true)).trans ((if_neg (by omega)).trans (if_neg (Nat.not_le.2 hroom)))

end

theorem updateXoff_buf (s : State) (n : Nat) : (s.updateXoff n).buf = s.buf := by
  unfold State.updateXoff
  dsimp only
  split <;> rfl

theorem updateXoff_xoff (s : State) (n : Nat) : ((s.updateXoff n).port n).xoff = (s.updateXoff n).portXoff n := by
  unfold State.updateXoff
  dsimp only
  split
  · exact Eq.symm (by assumption)
  · rw [port_setPort_self]
    rfl

/-- What is counted where XOFF is asserted (spec/16 R512). -/
theorem xoffCounted_frame (s : State) (n p : Nat) (v : Bool) :
    EventFrame s (if v && !(s.pg n p).xoff then s.count (blockBase 15 + 0x30000 + 8 * 10) 1 else s) :=
  EventFrame.ite _ (EventFrame.count _ _ _) (EventFrame.refl s)

theorem evalXoff_eq (s : State) (n p : Nat) : ∃ t, EventFrame s t ∧
    s.evalXoff n p = (t.setPg n p { s.pg n p with xoff := s.xoffOf n p }).updateXoff n := by
  refine ⟨_, xoffCounted_frame s n p (s.xoffOf n p), ?_⟩
  have hpg : ∀ v : Bool, (if v && !(s.pg n p).xoff then s.count (blockBase 15 + 0x30000 + 8 * 10) 1 else s).pg n p = s.pg n p :=
    fun v => by rw [State.pg, (xoffCounted_frame s n p v).buf, State.pg]
  unfold State.evalXoff State.xoffOf
  dsimp only
  rw [hpg]

theorem evalXoff_pg (s : State) (n p : Nat) : (s.evalXoff n p).pg n p = { s.pg n p with xoff := s.xoffOf n p } := by
  obtain ⟨t, -, heq⟩ := evalXoff_eq s n p
  rw [heq, State.pg, updateXoff_buf]
  exact pg_setPg_self t n p _

theorem evalXoff_port (s : State) (n p : Nat) : ((s.evalXoff n p).port n).xoff = (s.evalXoff n p).portXoff n := by
  obtain ⟨t, -, heq⟩ := evalXoff_eq s n p
  rw [heq]
  exact updateXoff_xoff _ n

/-! ### Discarding by age and by port -/

theorem foldl_congr_fun {α β : Type} {f g : α → β → α} (h : ∀ a b, f a b = g a b) (a : α) (l : List β) :
    l.foldl f a = l.foldl g a := by
  rw [show f = g from funext fun a => funext (h a)]

/-- A packet that the flush of a line port discards (spec/16 R503). -/
def Packet.queuedFor (n : Nat) (x : Packet) : Bool :=
  match x.eg with
  | .line k _ => decide (k = n) && decide (x.stage = .queued)
  | _ => false

theorem queuedFor_iff (n : Nat) (x : Packet) : x.queuedFor n = true ↔ x.stage = .queued ∧ ∃ g, x.eg = .line n g := by
  cases hx : x.eg <;> simp [Packet.queuedFor, hx, and_comm]

theorem flushLine_eq (s : State) (n : Nat) : s.flushLine n =
    s.packets.foldl (fun t q => if q.2.queuedFor n then t.dropBuf q.1 Reason.bufPortDown else t) s := by
  refine foldl_congr_fun (fun t q => ?_) s s.packets
  cases hq : q.2.eg <;> simp [Packet.queuedFor, hq]

/-- What a fold that discards the packets of one kind leaves of a packet that was there. -/
theorem dropFold_pkt {gone : Packet → Bool} {r : Nat} {s : State} (hrise : keysRise s.packets = true) {p : Nat} {x : Packet}
    (hp : s.pkt p = some x) :
    let u := s.packets.foldl (fun t q => if gone q.2 then t.dropBuf q.1 r else t) s
    (gone x = true → u.pkt p = none)
      ∧ (gone x = false → ∃ y, u.pkt p = some y ∧ y.mark = x.mark ∧ y.bytes = x.bytes ∧ y.stage = x.stage) := by
  intro u
  obtain ⟨hgone, hkept, -⟩ := dropFold (gone := fun q => gone q.2) (r := r) s.packets s hrise hrise p
  refine ⟨hgone x hp, fun hstay => ?_⟩
  have hcore : (u.pkt p).map Packet.core = some x.core :=
    (hkept fun y hy => by rw [← Option.some.inj (hp.symm.trans hy)]; exact hstay).trans (by rw [hp]; rfl)
  obtain ⟨y, hy, heq⟩ := Option.map_eq_some_iff.1 hcore
  obtain ⟨hmark, hrest⟩ := Prod.mk.inj heq
  obtain ⟨hbytes, hstage⟩ := Prod.mk.inj hrest
  exact ⟨y, hy, hmark, hbytes, hstage⟩

/-! ### Spill -/

theorem StoreFrame.egUsed {s t : State} (h : StoreFrame s t) (q : Nat) : t.egUsed (.rxq q) = s.egUsed (.rxq q) :=
  congrArg (fun m => mapGet 0 m q) h.2.1

/-- A packet gives up its cells, and its egress unit's count falls by them (spec/16 R493). -/
theorem freeCells_rxq {s : State} {p q : Nat} {x : Packet} (hp : s.pkt p = some x) (heg : x.eg = .rxq q) :
    (s.freeCells p).pkt p = some x.noCells ∧ (s.freeCells p).buf.spilled = s.buf.spilled
      ∧ (s.freeCells p).egUsed (.rxq q) = s.egUsed (.rxq q) - x.egCells := by
  have hset : ((s.setEg x.eg (s.egUsed x.eg - x.egCells)).setPkt p x.noCells).egUsed (.rxq q) = s.egUsed (.rxq q) - x.egCells := by
    rw [heg]
    exact mapGet_mapSet_self _ _ _ _
  have hspilled : ((s.setEg x.eg (s.egUsed x.eg - x.egCells)).setPkt p x.noCells).buf.spilled = s.buf.spilled := by
    rw [heg]
    rfl
  rcases freeCells_cases hp with ⟨r, hr, heq⟩ | hframe
  · rw [heq]
    refine ⟨?_, hspilled, hset⟩
    rw [pkt_setPkt_ne (fun e => family_ne hr e.symm), pkt_setPkt_self]
  · refine ⟨?_, hframe.2.2.trans hspilled, (hframe.egUsed q).trans hset⟩
    rw [State.pkt, hframe.1]
    exact pkt_setPkt_self _ p _

theorem StoreFrame.pkt {s t : State} (h : StoreFrame s t) (p : Nat) : t.pkt p = s.pkt p := by
  rw [State.pkt, State.pkt, h.1]

/-- A spilled packet moves to HBM and frees its cells (spec/16 R501). -/
theorem spillMove_moves {s : State} {p q : Nat} {x : Packet} (hp : s.pkt p = some x) (hst : x.stage = .queued)
    (heg : x.eg = .rxq q) (hspill : x.spill = true) (hhbm : x.inHbm = false) (hprov : x.prov = false)
    (hactive : s.spillActive = true) :
    ∃ u, s.spillMove p = u ∧ u.pkt p = some { x with inHbm := true, egCells := 0, ingCells := 0, hdrmCells := 0 }
      ∧ mapGet 0 u.buf.spilled q = mapGet 0 s.buf.spilled q + (x.mark.len + 255) / 256
      ∧ u.egUsed (.rxq q) = s.egUsed (.rxq q) - x.egCells := by
  obtain ⟨hpkt, hspilled, hused⟩ := freeCells_rxq hp heg
  generalize hfreed : s.freeCells p = f at hpkt hspilled hused
  have hcounted := StoreFrame.count ((({ f with buf := { f.buf with
      spilled := mapUpd 0 f.buf.spilled q (fun c => c + cellsOf x.mark.len) } } : State).setPkt p
        { x.noCells with inHbm := true })) (bufCounter 13) 1
  refine ⟨_, ?_, (hcounted.pkt p).trans (pkt_setPkt_self _ p _), ?_, (hcounted.egUsed q).trans hused⟩
  · rw [State.spillMove, onPkt_at hp hst]
    simp only [heg, hspill, hhbm, hprov, hactive, Bool.not_true, Bool.or_self, Bool.false_eq_true, if_false, hfreed, hpkt]
  · rw [hcounted.2.2, ← hspilled]
    exact mapGet_mapSet_self _ _ _ _

/-- A spilled packet that can be read is back in the buffer (spec/16 R502). -/
theorem spillReadback_reads {s : State} {p q : Nat} {x : Packet} (hp : s.pkt p = some x) (hst : x.stage = .queued)
    (heg : x.eg = .rxq q) (hhbm : x.inHbm = true) (hrunning : (s.queue (queueKey true q)).state = .running)
    (hgen : s.genOk x.mark.inst x.mark.gen = true) :
    ∃ u, s.spillReadback p false = u ∧ u.pkt p = some { x with inHbm := false, spill := false }
      ∧ mapGet 0 u.buf.spilled q = mapGet 0 s.buf.spilled q - (x.mark.len + 255) / 256 := by
  have hcounted := StoreFrame.count ((s.setPkt p { x with inHbm := false, spill := false }).leaveSpill q (cellsOf x.mark.len))
    (bufCounter 14) 1
  refine ⟨_, ?_, (hcounted.pkt p).trans (pkt_setPkt_self _ p _), ?_⟩
  · rw [State.spillReadback, onPkt_at hp hst]
    simp only [heg, hhbm, hrunning, hgen, Bool.not_true, ne_eq, not_true, decide_false, Bool.or_self, Bool.false_eq_true, if_false]
  · rw [hcounted.2.2]
    exact mapGet_mapSet_self _ _ _ _

theorem spillReadback_fails {s : State} {p q : Nat} {x : Packet} (hp : s.pkt p = some x) (hst : x.stage = .queued)
    (heg : x.eg = .rxq q) (hhbm : x.inHbm = true) (hrunning : (s.queue (queueKey true q)).state = .running)
    (hgen : s.genOk x.mark.inst x.mark.gen = true) :
    s.spillReadback p true = (s.raise 358 q (some x.mark.inst)).dropBuf p 0x87 := by
  rw [State.spillReadback, onPkt_at hp hst]
  simp only [heg, hhbm, hrunning, hgen, Bool.not_true, ne_eq, not_true, decide_false, Bool.or_self, Bool.false_eq_true, if_false,
    if_true]
  rfl

/-! ### Hold time -/

theorem hrxHoldExpiry_early {s : State} {p q : Nat} {x : Packet} (hp : s.pkt p = some x) (hst : x.stage = .queued)
    (heg : x.eg = .rxq q) (hearly : s.fld Reg.bufHrxProf1 [s.hrxProf q] 0 16 = 0 ∨
      s.now < x.admitted + 1000000 * s.fld Reg.bufHrxProf1 [s.hrxProf q] 0 16) : s.hrxHoldExpiry p = s := by
  rw [State.hrxHoldExpiry, onPkt_at hp hst]
  simp only [heg]
  exact if_pos (by simpa using hearly)

theorem hrxHoldExpiry_late {s : State} {p q : Nat} {x : Packet} (hp : s.pkt p = some x) (hst : x.stage = .queued)
    (heg : x.eg = .rxq q) (hms : s.fld Reg.bufHrxProf1 [s.hrxProf q] 0 16 ≠ 0)
    (hlate : x.admitted + 1000000 * s.fld Reg.bufHrxProf1 [s.hrxProf q] 0 16 ≤ s.now) :
    (s.buf.holdAt = none → s.hrxHoldExpiry p =
        (({ s with buf := { s.buf with holdAt := some s.now } }).raise 359 q (some x.mark.inst)).dropBuf p 0x85)
      ∧ ∀ t, s.buf.holdAt = some t → s.now < t + 1000000 → s.hrxHoldExpiry p = s.dropBuf p 0x85 := by
  have hnot : (decide (s.fld Reg.bufHrxProf1 [s.hrxProf q] 0 16 = 0) ||
      decide (s.now < x.admitted + 1000000 * s.fld Reg.bufHrxProf1 [s.hrxProf q] 0 16)) = false := by
    rw [decide_eq_false hms, decide_eq_false (Nat.not_lt.2 hlate)]; rfl
  rw [State.hrxHoldExpiry, onPkt_at hp hst]
  simp only [heg, hnot, Bool.false_eq_true, if_false]
  refine ⟨fun hnone => ?_, fun t hsome hquiet => ?_⟩
  · rw [hnone]
    rfl
  · rw [hsome]
    simp only [hquiet, decide_true, if_true]
    rfl

/-- Settles O31: the rule of each command, and a fold over the packets that discards those of one kind. -/
theorem packetsAreHeld : Obligations.PacketsAreHeld := by
  intro s hreleased hready
  refine ⟨fun n p hn hpri => ?xoff, fun hrise => ?age, fun p x q hp hst heg => ?hold,
    fun p x q hp hst heg => ⟨fun hspill hhbm hprov hen hfeature hmem => ?spill, fun hhbm hrunning hgen => ⟨?lost, ?back⟩⟩,
    fun n hn hrise => ⟨fun hopen => ?open', fun hshut => ?shut⟩, fun m d hheld hw hd => ?peak⟩
  case xoff =>
    have hbound : ¬ (31 < n || 7 < p) = true := by simp; omega
    refine ⟨s.begun.evalXoff n p, runBlock_effect (f := fun t => if 31 < n || 7 < p then t else t.evalXoff n p) hreleased hready
      (if_neg hbound), ?_, ?_, ?_, ?_, evalXoff_port _ n p, (StoreFrame.evalXoff s.begun n p).1⟩
    all_goals
      rw [evalXoff_pg]
    · intro hlossy
      rw [show s.begun.xoffOf n p = false from xoffOf_lossy hlossy]
      rfl
    · intro hlossless hfull
      rw [show s.begun.xoffOf n p = true from xoffOf_full hlossless hfull]
      rfl
    · intro hlossless hhdrm hroom hlow
      rw [show s.begun.xoffOf n p = false from (xoffOf_room hlossless hhdrm hroom).trans (if_pos hlow)]
      rfl
    · intro hlossless hhdrm hroom hhigh
      rw [show s.begun.xoffOf n p = (s.pg n p).xoff from
        (xoffOf_room hlossless hhdrm hroom).trans (if_neg (Nat.not_le.2 hhigh))]
      rfl
  case age =>
    refine ⟨s.begun.ageScan, runHostBlock_effect (f := fun t => t.ageScan) hreleased hready rfl, fun p x hp => ?_⟩
    obtain ⟨hgone, hkept⟩ := dropFold_pkt (s := s.begun) (r := Reason.aged) (gone := fun x => x.stage = .queued &&
      decide (2 ^ 31 ≤ markAge s.now x.mark.ts)) hrise hp
    refine ⟨fun haged => hgone (by simpa using haged), fun hyoung => hkept (by simpa using hyoung)⟩
  case hold =>
    refine ⟨fun hearly => runBlock_effect (f := fun t => t.hrxHoldExpiry p) hreleased hready
      (hrxHoldExpiry_early (s := s.begun) hp hst heg hearly), fun hms hlate => ?_⟩
    obtain ⟨hreport, hquiet⟩ := hrxHoldExpiry_late (s := s.begun) hp hst heg hms hlate
    exact ⟨fun hnone => runBlock_effect (f := fun t => t.hrxHoldExpiry p) hreleased hready (hreport hnone),
      fun t hsome hlt => runBlock_effect (f := fun t => t.hrxHoldExpiry p) hreleased hready (hquiet t hsome hlt)⟩
  case spill =>
    have hactive : s.begun.spillActive = true := by
      show (s.buf.spillEn && bitOf s.fuses.features 7 && s.ready 16) = true
      rw [hen, hfeature, hmem]
      rfl
    obtain ⟨u, heq, hu⟩ := spillMove_moves (s := s.begun) hp hst heg hspill hhbm hprov hactive
    exact ⟨u, runBlock_effect (f := fun t => t.spillMove p) hreleased hready heq, hu⟩
  case lost =>
    exact runBlock_effect (f := fun t => t.spillReadback p true) hreleased hready
      (spillReadback_fails (s := s.begun) hp hst heg hhbm hrunning hgen)
  case back =>
    obtain ⟨u, heq, hu⟩ := spillReadback_reads (s := s.begun) hp hst heg hhbm hrunning hgen
    exact ⟨u, runBlock_effect (f := fun t => t.spillReadback p false) hreleased hready heq, hu⟩
  case open' =>
    exact runHostBlock_effect (f := fun t => if 31 < n then t else t.portDownFlush n) hreleased hready
      ((if_neg (by omega)).trans (if_neg (by rw [show s.begun.lineShut n = false from hopen]; exact Bool.false_ne_true)))
  case shut =>
    refine ⟨s.begun.flushLine n, runHostBlock_effect (f := fun t => if 31 < n then t else t.portDownFlush n) hreleased hready
      ((if_neg (by omega)).trans (if_pos hshut)), fun p x hp => ?_⟩
    obtain ⟨hgone, hkept⟩ := dropFold_pkt (s := s.begun) (r := Reason.bufPortDown) (gone := Packet.queuedFor n) hrise hp
    rw [← queuedFor_iff, flushLine_eq]
    refine ⟨hgone, fun hstay => ?_⟩
    obtain ⟨y, hy, hmark, hbytes, -⟩ := hkept (Bool.eq_false_iff.2 hstay)
    exact ⟨y, hy, hmark, hbytes⟩
  case peak =>
    show (_ → execPeakClear m d s = _) ∧ (_ → execPeakClear m d s = _)
    rw [execPeakClear, Nat.mod_eq_of_lt hd]
    exact ⟨fun hbit => run_write hw (banksHeld_of hheld rfl rfl) (congrArg (·, true) (if_pos hbit)) rfl rfl rfl rfl rfl rfl,
      fun hbit => run_write hw hheld (congrArg (·, true) (if_neg (Bool.eq_false_iff.1 hbit))) rfl rfl rfl rfl rfl rfl⟩

end Sys2Proof.Machine
end

