-- ==== Sys2Proof/Proofs/Counters.lean ====
section

/-! What counting and reporting do to a counter that is not the Plumb's own (spec/19 R588). -/

namespace Sys2Proof.Machine

/-- Every counter beside the Plumb's first five has in `t` the count that it has in `s`. -/
def CountsKept (s t : State) : Prop := ∀ a, (∀ k, k < 5 → a ≠ fltCounter k) → mapGet 0 t.counters a = mapGet 0 s.counters a

theorem CountsKept.of_eq {s t : State} (h : t.counters = s.counters) : CountsKept s t := fun a _ => by rw [h]

theorem CountsKept.trans {s u t : State} (h : CountsKept s u) (k : CountsKept u t) : CountsKept s t :=
  fun a ha => (k a ha).trans (h a ha)

theorem CountsKept.ite {s a b : State} (c : Prop) [Decidable c] (ha : CountsKept s a) (hb : CountsKept s b) :
    CountsKept s (if c then a else b) := by
  split
  · exact ha
  · exact hb

theorem halfMark_counters (s : State) (a : Nat) : (s.halfMark a).counters = s.counters := by
  unfold State.halfMark
  dsimp only
  split
  · rfl
  · split <;> rfl

/-- Counting at an address: the count there rises modulo 2^48, and where it turns to its upper half `r` runs. -/
theorem countWith_counts {r : State → Nat → Nat → State} (h : ∀ s a d, CountsKept s (r s a d)) (s : State) (a n : Nat) :
    CountsKept { s with counters := mapSet 0 s.counters a ((mapGet 0 s.counters a + n) % 2 ^ 48) } (s.countWith r a n) := by
  unfold State.countWith
  exact CountsKept.ite _ ((CountsKept.of_eq (halfMark_counters _ a)).trans (h _ _ _)) (CountsKept.of_eq rfl)

theorem CountsKept.countWith_flt {r : State → Nat → Nat → State} (h : ∀ s a d, CountsKept s (r s a d)) (s : State) {k : Nat}
    (hk : k < 5) (n : Nat) : CountsKept s (s.countWith r (fltCounter k) n) := by
  refine CountsKept.trans (fun a ha => ?_) (countWith_counts h s (fltCounter k) n)
  exact mapGet_mapSet_ne 0 s.counters _ (ha k hk)

theorem CountsKept.toKeystone {cnt : State → Nat → State} (h : ∀ s k, k < 5 → CountsKept s (cnt s (fltCounter k))) (s : State)
    (src : Nat) (trap : Bool) : CountsKept s (s.toKeystone cnt src trap) := by
  unfold State.toKeystone
  split
  · split
    · exact (h s 4 (by omega)).trans (CountsKept.of_eq rfl)
    · exact CountsKept.of_eq rfl
  · split <;> exact CountsKept.of_eq rfl

theorem CountsKept.tellEvent {cnt : State → Nat → State} (h : ∀ s k, k < 5 → CountsKept s (cnt s (fltCounter k))) (s : State)
    (src lvl : Nat) (was : Bool) : CountsKept s (State.tellEvent cnt s src lvl was) := by
  have hrefl : ∀ u : State, CountsKept u u := fun u => CountsKept.of_eq rfl
  have hirq := CountsKept.ite (s.bit Reg.fltSrcCfg [src] 3 = true) (CountsKept.toKeystone h s src false) (hrefl s)
  have hmgr := fun u : State =>
    CountsKept.ite ((u.bit Reg.fltSrcCfg [src] 4 && !was && u.bit Reg.fltMgrCfg [] 8) = true)
      (CountsKept.of_eq (toManager_due u).2) (hrefl u)
  have htrap := fun u : State => CountsKept.ite (2 ≤ lvl) (CountsKept.toKeystone h u src true) (hrefl u)
  exact (hirq.trans (hmgr _)).trans (htrap _)

theorem askEvent_counters (s : State) (src lvl : Nat) : (s.askEvent src lvl).counters = s.counters := by
  unfold State.askEvent
  dsimp only
  repeat' split
  all_goals rfl

theorem powerUpComplex_counters (s : State) (x : Nat) : (s.powerUpComplex x).counters = s.counters := by
  unfold State.powerUpComplex
  dsimp only
  split <;> rfl

theorem mbxEvent_counters (s : State) (c : Nat) (e : Bool) : (s.mbxEvent c e).counters = s.counters := by
  unfold State.mbxEvent
  split
  · split <;> rfl
  · split
    · rfl
    · exact powerUpComplex_counters _ _
  · split
    · rfl
    · exact powerUpComplex_counters _ _
  · split <;> rfl
  · split
    · rfl
    · split
      · rfl
      · dsimp only
        split
        · exact (fire_due _ _ _).2
        · rfl

theorem mbxNotify_counters (s : State) (c : Nat) : (s.mbxNotify c).counters = s.counters := by
  unfold State.mbxNotify
  dsimp only
  split
  · rfl
  · exact mbxEvent_counters _ _ _

theorem postNotice_counters (s : State) (c : Nat) (n : Notice) : (s.postNotice c n).counters = s.counters := by
  have key : ∀ t : State, t.counters = s.counters →
      (if (decide (c < 2048) || t.keystoneUp) = true then t.mbxNotify c else t).counters = s.counters := by
    intro t h
    split
    · exact (mbxNotify_counters _ _).trans h
    · exact h
  exact key { s with ivm := { s.ivm with notices := _ } } rfl

theorem faultNotice_counters (s : State) (src : Nat) (who : Option Nat) : (s.faultNotice src who).counters = s.counters := by
  unfold State.faultNotice
  split
  · split
    · rfl
    · exact postNotice_counters _ _ _
  · rfl

theorem CountsKept.raiseF (fuel : Nat) : ∀ (s : State) (src d : Nat) (who : Option Nat) (acc : Acc),
    CountsKept s (State.raiseF fuel s src d who acc) := by
  induction fuel with
  | zero => exact fun s src d who acc => CountsKept.of_eq rfl
  | succ n ih =>
    intro s src d who acc
    have hcnt : ∀ (t : State) (k : Nat), k < 5 →
        CountsKept t (t.countWith (fun u x d => State.raiseF n u x d none {}) (fltCounter k) 1) :=
      fun t k hk => CountsKept.countWith_flt (fun u x d => ih u x d none {}) t hk 1
    have hcounted : CountsKept (s.noteEvent src d acc) (State.countEvent
        (fun (t : State) (a : Nat) => t.countWith (fun u x d => State.raiseF n u x d none {}) a 1) (s.noteEvent src d acc)
        (decide (s.eventLevel src ≠ s.fld Reg.fltSrcCfg [src] 0 3))) := by
      unfold State.countEvent
      exact CountsKept.ite _ ((hcnt _ 0 (by omega)).trans (hcnt _ 1 (by omega))) (hcnt _ 0 (by omega))
    have hnoted := CountsKept.trans (s := s) (CountsKept.of_eq rfl) hcounted
    have hlogged := hnoted.trans (t := State.pushHistory _ src (s.eventLevel src)
      (decide (s.eventLevel src ≠ s.fld Reg.fltSrcCfg [src] 0 3)) d) (CountsKept.of_eq rfl)
    have htold := hlogged.trans
      (CountsKept.tellEvent (cnt := fun t a => t.countWith (fun u x d => State.raiseF n u x d none {}) a 1) hcnt _ src
        (s.eventLevel src) (bitOf (mapGet 0 s.flt.pend (src / 32)) (src % 32)))
    unfold State.raiseF
    exact CountsKept.ite _ (CountsKept.of_eq rfl) ((htold.trans (CountsKept.of_eq (askEvent_counters _ src (s.eventLevel src)))).trans
      (CountsKept.of_eq (faultNotice_counters _ src who)))

theorem CountsKept.raise (s : State) (src d : Nat) (who : Option Nat) (acc : Acc) : CountsKept s (s.raise src d who acc) :=
  CountsKept.raiseF 4 s src d who acc

/-- A counter that is counted stands one count higher. -/
theorem count_self (s : State) {a : Nat} (ha : ∀ k, k < 5 → a ≠ fltCounter k) (n : Nat) :
    mapGet 0 (s.count a n).counters a = (mapGet 0 s.counters a + n) % 2 ^ 48 :=
  (countWith_counts (fun t x d => CountsKept.raise t x d none {}) s a n a ha).trans (mapGet_mapSet_self 0 s.counters a _)

theorem count_other (s : State) {a b : Nat} (hb : ∀ k, k < 5 → b ≠ fltCounter k) (h : b ≠ a) (n : Nat) :
    mapGet 0 (s.count a n).counters b = mapGet 0 s.counters b :=
  (countWith_counts (fun t x d => CountsKept.raise t x d none {}) s a n b hb).trans (mapGet_mapSet_ne 0 s.counters _ h)

end Sys2Proof.Machine
end

