-- ==== Sys2Proof/Proofs/Selection.lean ====
section

/-! The selection of the next packet at an exit that has one eligible head, or none (spec/17 R518, R519). -/

namespace Sys2Proof.Machine

/-- `t` is `s` but for the scheduler's own state. -/
def SchedFrame (s t : State) : Prop := t = { s with tms := t.tms }

theorem SchedFrame.refl (s : State) : SchedFrame s s := rfl

theorem SchedFrame.trans {s u t : State} (h : SchedFrame s u) (k : SchedFrame u t) : SchedFrame s t :=
  calc t = { u with tms := t.tms } := k
    _ = { ({ s with tms := u.tms } : State) with tms := t.tms } := congrArg (fun x : State => { x with tms := t.tms }) h
    _ = { s with tms := t.tms } := rfl

theorem SchedFrame.packets {s t : State} (h : SchedFrame s t) : t.packets = s.packets :=
  show t.packets = ({ s with tms := t.tms } : State).packets from congrArg State.packets h

theorem SchedFrame.line {s t : State} (h : SchedFrame s t) : t.line = s.line :=
  show t.line = ({ s with tms := t.tms } : State).line from congrArg State.line h

theorem SchedFrame.counters {s t : State} (h : SchedFrame s t) : t.counters = s.counters :=
  show t.counters = ({ s with tms := t.tms } : State).counters from congrArg State.counters h

/-- One eligible member is the next of its round. -/
theorem wrrNext_one (w : Wrr) (g : Nat) {v : Nat} (hv : 1 ≤ v) : ∃ w', wrrNext w [(g, v)] = some (g, w') := by
  unfold wrrNext
  by_cases hhere : w.next ≤ g ∧ w.pass ≤ v
  · simp [hhere]
  · by_cases hnext : w.pass < v
    · simp [hhere, hnext]
    · simp [hhere, hnext, hv]

theorem weightOf_pos (w : Nat) : 1 ≤ weightOf w := by
  unfold weightOf
  split <;> omega

theorem wrrChoose_one (s : State) (e p : Nat) (q : Nat × Packet) :
    ∃ u, s.wrrChoose e p [q] = (some q, u) ∧ SchedFrame s u := by
  unfold State.wrrChoose
  obtain ⟨wg, hg⟩ := wrrNext_one (mapGet {} s.tms.wrrGroup (8 * e + p)) (s.leafGroup q.2.leaf)
    (weightOf_pos (s.fld Reg.tmsGroupCfg [s.leafGroup q.2.leaf] 8 8))
  obtain ⟨wm, hm⟩ := wrrNext_one (mapGet {} s.tms.wrrMember (8 * s.leafGroup q.2.leaf + p)) q.2.member
    (weightOf_pos (if q.2.member = 4095 then s.fld Reg.tmsGroupCfg [s.leafGroup q.2.leaf] 16 8 else s.fld Reg.tmsNodeCfg [q.2.member] 0 8))
  obtain ⟨wq, hq⟩ := wrrNext_one (mapGet {} s.tms.wrrQueue ((4096 * s.leafGroup q.2.leaf + q.2.member) * 8 + p)) q.2.leaf
    (weightOf_pos (bitsOf (s.leafCfg q.2.leaf) 12 8))
  simp [distinct, mapPut, hg, hm, hq, SchedFrame]

theorem wrrChoose_none (s : State) (e p : Nat) : s.wrrChoose e p [] = (none, s) := by
  unfold State.wrrChoose
  simp [distinct, wrrNext]

theorem SchedFrame.setVisits (s : State) (v : AMap (Option Visit)) : SchedFrame s { s with tms := { s.tms with visits := v } } := rfl

theorem chooseAt_one (s : State) (e p : Nat) (q : Nat × Packet) :
    ∃ u, s.chooseAt e p [q] = (some q, u) ∧ SchedFrame s u := by
  unfold State.chooseAt
  split
  · split
    · rename_i r hfind
      split at hfind
      · have hr : r = q := List.mem_singleton.1 (List.mem_of_find?_eq_some hfind)
        exact ⟨_, by rw [hr], SchedFrame.setVisits s _⟩
      · exact absurd hfind (by simp)
    · exact wrrChoose_one s e p q
  · exact wrrChoose_one s e p q

theorem chooseAt_none (s : State) (e p : Nat) : s.chooseAt e p [] = (none, s) := by
  unfold State.chooseAt
  split
  · split
    · rename_i hfind
      split at hfind <;> exact absurd hfind (by simp)
    · exact wrrChoose_none s e p
  · exact wrrChoose_none s e p

/-- Where nothing waits at an exit, no priority has a packet. -/
theorem selectDown_none {s : State} {e : Nat} (h : s.heads e = []) (p : Nat) : s.selectDown e p false = (none, false, s) := by
  induction p with
  | zero => rfl
  | succ p ih =>
    rw [State.selectDown, h]
    simp only [List.filter_nil, List.find?_nil, List.any_nil, Bool.or_self, chooseAt_none, ih]

theorem select_none {s : State} {e n : Nat} (h : s.heads e = []) : s.select e (n + 1) = (none, s) := by
  rw [State.select, selectDown_none h]
  rfl

/-- The one eligible head of an exit is taken at its priority. -/
theorem selectDown_one {s : State} {e : Nat} {q : Nat × Packet} (h : s.heads e = [q]) (heligible : s.eligible e q = true)
    (p : Nat) (hp : s.leafPri q.2.leaf < p) : ∃ u, s.selectDown e p false = (some q, false, u) ∧ SchedFrame s u := by
  have hopen : s.openHead e q.1 q.2 none = true := (Bool.and_eq_true_iff.1 heligible).1
  have hfits : s.gateJudge e (s.leafPri q.2.leaf) (s.countedOf e q.2) = .fits := of_decide_eq_true (Bool.and_eq_true_iff.1 heligible).2
  induction p with
  | zero => exact absurd hp (Nat.not_lt_zero _)
  | succ p ih =>
    rw [State.selectDown, h]
    by_cases hpri : s.leafPri q.2.leaf = p
    · obtain ⟨u, hu, hframe⟩ := chooseAt_one s e p q
      rw [← hpri] at hu ⊢
      refine ⟨u, ?_, hframe⟩
      simp [hopen, hfits, hu]
    · obtain ⟨u, hu, hframe⟩ := ih (by omega)
      refine ⟨u, ?_, hframe⟩
      simp [hpri, chooseAt_none, hu]

section
variable {s : State} {e p : Nat} {x : Packet}

theorem dequeueCheck_stale (h : s.genOk x.mark.inst x.mark.gen = false) :
    s.dequeueCheck e p x = (true, (s.count (tmsCounter e 4) 1).dropPkt p) := if_pos (by rw [h]; rfl)

theorem dequeueCheck_good (hgen : s.genOk x.mark.inst x.mark.gen = true) (hage : markAge s.now x.mark.ts < 2 ^ 31) :
    s.dequeueCheck e p x = (false, s) :=
  (if_neg (by rw [hgen]; exact Bool.false_ne_true)).trans (if_neg (Nat.not_le.2 hage))

theorem select_one {n : Nat} (h : s.heads e = [(p, x)]) (heligible : s.eligible e (p, x) = true)
    (hgen : s.genOk x.mark.inst x.mark.gen = true) (hage : markAge s.now x.mark.ts < 2 ^ 31) :
    ∃ u, s.select e (n + 1) = (some (p, x), u) ∧ SchedFrame s u := by
  obtain ⟨u, hu, hframe⟩ := selectDown_one h heligible 8 (Nat.mod_lt _ (by decide))
  refine ⟨u, ?_, hframe⟩
  have hgood : u.dequeueCheck e p x = (false, u) := by
    refine dequeueCheck_good ?_ ?_
    · rw [hframe]; exact hgen
    · rw [hframe]; exact hage
  rw [State.select, hu]
  simp only [Bool.false_eq_true, if_false, hgood]

end

/-! ### A packet starts to leave -/

theorem SchedFrame.setShaper (s : State) (k : Nat) (x : Shaper) : SchedFrame s (s.setShaper k x) := rfl

theorem SchedFrame.shapersAdd (s : State) (e : Nat) (x : Packet) (b : Int) : SchedFrame s (s.shapersAdd e x b) := by
  unfold State.shapersAdd
  refine foldl_keeps (R := SchedFrame) SchedFrame.refl SchedFrame.trans (fun t k => ?_) _ s
  dsimp only
  split
  · exact SchedFrame.setShaper _ _ _
  · exact SchedFrame.refl _

theorem tmsCounter_not_flt (e k : Nat) (he : e < 64) (hk : k < 32) : ∀ j, j < 5 → tmsCounter e k ≠ fltCounter j := by
  intro j hj
  unfold tmsCounter fltCounter blockBase
  omega

end Sys2Proof.Machine
end

