-- ==== Sys2Proof/Proofs/Exits.lean ====
section

/-! O32: recirculation, selection, refills and transmit gates (spec/12 R355, R357, spec/17 R518-R533). -/

namespace Sys2Proof.Machine

theorem runMain_effect {f : State → State} {s u : State} (hreleased : s.released = true) (h : f s.begun = u) :
    runMain f s = .next (s.close u) := (runMain_on hreleased).trans (run_effect h)

/-! ### Recirculation -/

theorem freeCells_pkt {s : State} {p : Nat} {x : Packet} (hp : s.pkt p = some x) : (s.freeCells p).pkt p = some x.noCells := by
  rcases freeCells_cases hp with ⟨r, hr, heq⟩ | hframe
  · rw [heq, pkt_setPkt_ne (fun e => family_ne hr e.symm), pkt_setPkt_self]
  · rw [hframe.pkt, pkt_setPkt_self]

/-- A packet at the start of its next pass (spec/12 R355). -/
def Packet.nextPass (x : Packet) : Packet :=
  { x with
    stage := .waitSlot, fresh := false
    mark := { x.mark with
      act := .recirc, entAct := .recirc, pass := x.mark.pass + 1, flags := { x.mark.flags with recirc := false } } }

section
variable {s : State} {p : Nat} {x : Packet}

theorem recircTake_at (hold : s.oldestAt .recirc = some (p, x)) (hprov : x.prov = false) (hended : x.ended = true)
    (hready : s.ready 14 = true) {t : State} {b : Bool} (hcheck : s.dequeueCheck 44 p x = (b, t)) :
    s.recircTake p =
      if b then t
      else
        match (((t.freeCells p).count (tmsCounter 44 0) 1).count (tmsCounter 44 1) x.mark.len).pkt p with
        | none => ((t.freeCells p).count (tmsCounter 44 0) 1).count (tmsCounter 44 1) x.mark.len
        | some y => (((t.freeCells p).count (tmsCounter 44 0) 1).count (tmsCounter 44 1) x.mark.len).setPkt p y.nextPass := by
  rw [State.recircTake, hold]
  simp only [hprov, hended, hready, hcheck, ne_eq, not_true, decide_false, Bool.not_true, Bool.or_self, Bool.false_eq_true, if_false] <;> rfl

theorem recircTake_passes (hold : s.oldestAt .recirc = some (p, x)) (hp : s.pkt p = some x) (hprov : x.prov = false)
    (hended : x.ended = true) (hready : s.ready 14 = true) (hgen : s.genOk x.mark.inst x.mark.gen = true)
    (hage : markAge s.now x.mark.ts < 2 ^ 31) : (s.recircTake p).pkt p = some x.noCells.nextPass := by
  rw [recircTake_at hold hprov hended hready (dequeueCheck_good hgen hage), if_neg Bool.false_ne_true]
  have hpkt : (((s.freeCells p).count (tmsCounter 44 0) 1).count (tmsCounter 44 1) x.mark.len).pkt p = some x.noCells := by
    rw [(EventFrame.count _ _ _).pkt, (EventFrame.count _ _ _).pkt, freeCells_pkt hp]
  rw [hpkt]
  exact pkt_setPkt_self _ p _

theorem recircTake_stale (hold : s.oldestAt .recirc = some (p, x)) (hprov : x.prov = false)
    (hended : x.ended = true) (hready : s.ready 14 = true) (hgen : s.genOk x.mark.inst x.mark.gen = false) :
    s.recircTake p = (s.count (tmsCounter 44 4) 1).dropPkt p :=
  (recircTake_at hold hprov hended hready (dequeueCheck_stale hgen)).trans (if_pos rfl)

theorem recircHold_late (hp : s.pkt p = some x) (hprov : x.prov = false) (hst : x.stage = .waitSlot)
    (hent : x.mark.entAct = .recirc) (hlate : x.since + 4000 ≤ s.now) :
    s.recircHold p = (s.count (clsCounter x.mark.course 8) 1).dropPkt p := by
  rw [State.recircHold, hp]
  simp [hprov, hst, hent, Nat.not_lt.2 hlate]

theorem recircHold_early (hp : s.pkt p = some x) (hearly : s.now < x.since + 4000) : s.recircHold p = s := by
  rw [State.recircHold, hp]
  simp [hearly]

end

/-! ### A line port takes a packet -/

theorem selectLine_none {s : State} {n : Nat} (h : s.heads n = []) : s.selectLine n = s := by
  unfold State.selectLine
  dsimp only
  split
  · rfl
  · rw [select_none h]

theorem selectLine_busy {s : State} {n p : Nat} (h : (s.port n).txNow = some p) : s.selectLine n = s := by
  unfold State.selectLine
  exact if_pos (by simp [h])

theorem exitSelect_line {s : State} {n : Nat} (hready : s.ready 14 = true) (hn : n < 32) : s.exitSelect n = s.selectLine n := by
  unfold State.exitSelect
  rw [hready]
  exact (if_neg Bool.false_ne_true).trans (if_pos hn)

section
variable {s : State} {n p : Nat} {x : Packet}

theorem startLeave_whole (e : Nat) (hprov : x.prov = false) : s.startLeave e p x =
    (((s.shapersAdd e x (-(s.countedOf e x : Int))).count (tmsCounter e 0) 1).count (tmsCounter e 1) (s.countedOf e x)).setPkt p
      { x with stage := .leaving, charged := none } := by
  unfold State.startLeave
  rw [hprov]
  rfl

/-- A whole packet that starts to leave: counted once, and no other packet is touched (spec/17 R523, R545). -/
theorem startLeave_counts {e : Nat} (he : e < 64) (hprov : x.prov = false) :
    (s.startLeave e p x).pkt p = some { x with stage := .leaving, charged := none }
      ∧ mapGet 0 (s.startLeave e p x).counters (tmsCounter e 0) = (mapGet 0 s.counters (tmsCounter e 0) + 1) % 2 ^ 48
      ∧ ∀ q, q ≠ p → (s.startLeave e p x).pkt q = s.pkt q := by
  rw [startLeave_whole e hprov]
  have hshapers := SchedFrame.shapersAdd s e x (-(s.countedOf e x : Int))
  refine ⟨pkt_setPkt_self _ p _, ?_, fun q hq => ?_⟩
  · rw [setPkt_counters, count_other _ (tmsCounter_not_flt e 0 he (by omega)) (by unfold tmsCounter; omega),
      count_self _ (tmsCounter_not_flt e 0 he (by omega)), hshapers.counters]
  · rw [pkt_setPkt_ne hq, (EventFrame.count _ _ _).pkt, (EventFrame.count _ _ _).pkt, State.pkt, hshapers.packets, State.pkt]

/-- A free line port takes its one eligible head (spec/17 R518). -/
theorem selectLine_one (hn : n < 32) (htakes : (s.port n).takes = true) (hfree : (s.port n).txNow = none)
    (hloop : (s.port n).loopback ≠ 3) (h : s.heads n = [(p, x)]) (heligible : s.eligible n (p, x) = true) (hprov : x.prov = false)
    (hgen : s.genOk x.mark.inst x.mark.gen = true) (hage : markAge s.now x.mark.ts < 2 ^ 31) :
    ∃ u, s.selectLine n = u ∧ u.pkt p = some { x with stage := .leaving, charged := none } ∧ (u.port n).txNow = some p
      ∧ mapGet 0 u.counters (tmsCounter n 0) = (mapGet 0 s.counters (tmsCounter n 0) + 1) % 2 ^ 48
      ∧ ∀ q, q ≠ p → u.pkt q = s.pkt q := by
  obtain ⟨t, ht, hframe⟩ := select_one (n := s.packets.length) h heligible hgen hage
  obtain ⟨hpkt, hcount, hothers⟩ := startLeave_counts (s := t) (p := p) (e := n) (by omega) hprov
  refine ⟨(t.startLeave n p x).setPort n { t.port n with txNow := some p }, ?_, hpkt, ?_, ?_, fun q hq => ?_⟩
  · unfold State.selectLine
    simp only [htakes, hfree, hloop, ht, Bool.not_true, Option.isSome_none, decide_false, Bool.or_self, Bool.false_eq_true, if_false]
  · rw [port_setPort_self]
  · rw [setPort_counters, hcount, hframe.counters]
  · rw [show ((t.startLeave n p x).setPort n { t.port n with txNow := some p }).pkt q = (t.startLeave n p x).pkt q from rfl,
      hothers q hq, State.pkt, hframe.packets, State.pkt]

theorem cutCorrection_returns {c : Nat} (hp : s.pkt p = some x) (hcharged : x.charged = some c) (hended : x.ended = true)
    (hprov : x.prov = false) : s.cutCorrection p =
      ((s.shapersAdd (s.exitOf x) x ((c : Int) - (s.counted (s.exitOf x) x.mark.len : Int))).count (tmsCounter (s.exitOf x) 1)
        (s.counted (s.exitOf x) x.mark.len)).setPkt p { x with charged := none } := by
  rw [State.cutCorrection, hp]
  simp only [hcharged, hended, hprov, Bool.not_true, Bool.or_self, Bool.false_eq_true, if_false]

end

/-! ### Shapers -/

/-- A shaper with the words of its registers, refilled now (spec/17 R523). -/
def State.loadedShaper (s : State) (k : Nat) : Shaper :=
  { s.shaper k with
    en := bitOf (s.shaperWords k).1 31, rate := bitsOf (s.shaperWords k).1 0 20, k := bitsOf (s.shaperWords k).1 20 3
    cbs := (s.shaperWords k).2, refilled := some s.now }

/-- What a period brings an enabled shaper. -/
def State.shaperInc (s : State) (k : Nat) : Int :=
  (bitsOf (s.shaperWords k).1 0 20 * (32 * 2 ^ bitsOf (s.shaperWords k).1 20 3) * 2 ^ 24 / 8000 : Nat)

section
variable {s : State} {k : Nat}

theorem refill_early (h : s.now % (32 * 2 ^ (s.shaper k).k) ≠ 0) : s.refill k = s := by
  unfold State.refill
  exact if_pos (by simp [h])

theorem refill_enabled (hdue : s.now % (32 * 2 ^ (s.shaper k).k) = 0) (hnew : (s.shaper k).refilled ≠ some s.now)
    (hen : bitOf (s.shaperWords k).1 31 = true) : s.refill k = s.setShaper k { s.loadedShaper k with
      credit := min (if s.shaperBusy k then min ((s.shaper k).credit + s.shaperInc k) ((s.shaperWords k).2 * 2 ^ 24 : Nat)
        else if 0 < (s.shaper k).credit then 0 else min ((s.shaper k).credit + s.shaperInc k) 0)
        (((s.shaperWords k).2 * 2 ^ 24 : Nat) : Int) } := by
  unfold State.refill
  simp only [hdue, hnew, hen, ne_eq, not_true, decide_false, Bool.or_self, Bool.false_eq_true, if_false, Bool.not_true,
    State.loadedShaper]
  rfl

end

/-! ### Gates -/

/-- A write to a register without lockable fields stores its fields, locked or not (spec/00 R6). -/
theorem writeReg_unlockable {m : Master} {r : RegDef} {idx : List Nat} {d : Nat} {s : State} (hfw : r.fw = false)
    (hvalid : r.valid idx = true) (hfields : r.fields ≠ []) (hlock : (r.fields.any fun f => f.lock) = false) :
    State.writeReg m r idx d s = (s.setWord r idx (storeFields (bitOf s.glb.lock r.block) (s.word r idx) d r.fields), true) := by
  simp only [State.writeReg, hfw, hvalid, hfields, hlock, Bool.false_and, Bool.not_true, decide_false, Bool.or_self, Bool.and_false,
    Bool.false_eq_true, if_false]

theorem gateEntries_setCtl (s : State) {n l : Nat} (hl : l < 2) (w : Nat) :
    (s.setWord Reg.tmsGateCtl [n] w).gateEntries n l = s.gateEntries n l := by
  have hlist : (s.setWord Reg.tmsGateCtl [n] w).fld Reg.tmsGateList [n, l] 0 7 = s.fld Reg.tmsGateList [n, l] 0 7 := by
    unfold State.fld
    rw [word_setWord_ne (by simp only [RegDef.addr, Reg.tmsGateList, Reg.tmsGateCtl, idxOff]; omega)]
  unfold State.gateEntries
  rw [hlist]
  refine List.map_congr_left fun j hj => ?_
  have hj' : j < 128 := Nat.lt_of_lt_of_le (List.mem_range.1 hj) (Nat.le_of_lt (Nat.mod_lt _ (by decide)))
  rw [word_setWord_ne (by simp only [RegDef.addr, Reg.tmsGateEnt, Reg.tmsGateCtl, idxOff]; omega)]

theorem gateValid_iff (es : List (Nat × Nat)) :
    gateValid es = true ↔ 1 ≤ es.length ∧ es.length ≤ 64 ∧ (∀ e ∈ es, 0 < e.1) ∧ gateCycle es < 2 ^ 32 := by
  simp [gateValid, and_assoc]

section
variable {s : State} {m : Master} {n d : Nat}

/-- Arming as a state change, once the word is stored (spec/17 R533). -/
theorem gateArm_at (harm : bitOf d 1 = true) (hkeep : bitOf d 6 = false) :
    State.gateArm m n d s =
      if (s.gate n).oper = some (bitsOf d 2 1) || !s.feature 9 || !gateValid (s.gateEntries n (bitsOf d 2 1)) then
        (((State.writeReg m Reg.tmsGateCtl [n] d s).1.setGate n { s.gate n with cfgInvalid := true }).raise 325
          (globalPort s.moduleId n), true)
      else ((State.writeReg m Reg.tmsGateCtl [n] d s).1.setGate n { s.gate n with pending := some (bitsOf d 2 1) }, true) := by
  have hopen := writeReg_unlockable (m := m) (r := Reg.tmsGateCtl) (idx := [n]) (d := d) (s := s) rfl rfl (by simp [Reg.tmsGateCtl]) rfl
  have hentries := gateEntries_setCtl s (n := n) (l := bitsOf d 2 1) (Nat.mod_lt _ (by decide))
    (storeFields (bitOf s.glb.lock Reg.tmsGateCtl.block) (s.word Reg.tmsGateCtl [n]) d Reg.tmsGateCtl.fields)
  unfold State.gateArm
  rw [hopen]
  simp only [harm, hkeep, Bool.not_true, Bool.false_eq_true, if_false, hentries]
  rfl

/-- GATE_ARM on a reached register ends with what the arming leaves. -/
theorem execGateArm_eff {v : State} (hn : n < 32) (hd : d < 2 ^ 32) (hw : s.writes m (Reg.tmsGateCtl.addr [n]))
    (he : State.gateArm m n d s.begun = (v, true)) :
    exec (.gateArm m n d) s = .next (s.close (m.logged (Reg.tmsGateCtl.addr [n]) 4 d v)) := by
  show execGateArm m n d s = _
  rw [execGateArm, Nat.mod_eq_of_lt hd, runMain_on hw.1.1]
  have heff := access_eff ((begun_reaches s m _).2 hw.1) 4 d (State.gateArm m n d) false (by rw [he])
  rw [he] at heff
  exact run_effect (f := fun t => if 31 < n then t else t.access m (Reg.tmsGateCtl.addr [n]) 4 d (State.gateArm m n d))
    ((if_neg (by omega)).trans heff)

end

/-- Settles O32: the rule of each command of the scheduler. -/
theorem exitsAreServed : Obligations.ExitsAreServed := by
  intro s hreleased hready
  refine ⟨fun p x hold hp hprov hended => ⟨fun hgen hage => ?pass, fun hgen => ?stale⟩,
    fun p x hp hprov hst hent => ⟨fun hlate => ?late, fun hearly => ?early⟩,
    fun n hn htakes hfree hloop => ⟨fun p x h hp heligible hprov hgen hage => ?one, fun h => ?none⟩,
    fun n p hbusy hn => ?busy, fun p x c hp hcharged hended hprov => ?cut,
    fun k => ⟨fun hearly => ?notDue, fun hdue hnew hen => ?refill⟩,
    fun m n d hn hd harm hkeep hw => ⟨fun hoper hfeature hvalid => ?arm, fun hbad => ?refuse⟩,
    fun n l hpending => ⟨fun hpos => ?switch, fun hpos => ?notYet⟩⟩
  case pass =>
    exact ⟨s.begun.recircTake p, x.noCells.nextPass, runBlock_effect (f := fun t => t.recircTake p) hreleased hready rfl,
      recircTake_passes (s := s.begun) hold hp hprov hended hready hgen hage, rfl, rfl, rfl, rfl, rfl, rfl⟩
  case stale =>
    exact runBlock_effect (f := fun t => t.recircTake p) hreleased hready
      (recircTake_stale (s := s.begun) hold hprov hended hready hgen)
  case late =>
    exact runMain_effect (f := fun t => t.recircHold p) hreleased (recircHold_late (s := s.begun) hp hprov hst hent hlate)
  case early =>
    exact runMain_effect (f := fun t => t.recircHold p) hreleased (recircHold_early (s := s.begun) hp hearly)
  case one =>
    obtain ⟨u, heq, hu⟩ := selectLine_one (s := s.begun) hn htakes hfree hloop h heligible hprov hgen hage
    exact ⟨u, runHostBlock_effect (f := fun t => t.exitSelect n) hreleased hready ((exitSelect_line (s := s.begun) hready hn).trans heq), hu⟩
  case none =>
    exact runHostBlock_effect (f := fun t => t.exitSelect n) hreleased hready
      ((exitSelect_line (s := s.begun) hready hn).trans (selectLine_none (s := s.begun) h))
  case busy =>
    exact runHostBlock_effect (f := fun t => t.exitSelect n) hreleased hready
      ((exitSelect_line (s := s.begun) hready hn).trans (selectLine_busy (s := s.begun) hbusy))
  case cut =>
    exact runBlock_effect (f := fun t => t.cutCorrection p) hreleased hready
      (cutCorrection_returns (s := s.begun) hp hcharged hended hprov)
  case notDue =>
    exact runBlock_effect (f := fun t => t.refill k) hreleased hready (refill_early (s := s.begun) hearly)
  case refill =>
    have hrefill := runBlock_effect (f := fun t => t.refill k) hreleased hready (refill_enabled (s := s.begun) hdue hnew hen)
    refine ⟨fun hbusy => ?_, fun hidle hpos => ?_, fun hidle hneg => ?_⟩
    · rw [if_pos (show s.begun.shaperBusy k = true from hbusy)] at hrefill
      exact hrefill
    · rw [if_neg (Bool.eq_false_iff.1 (show s.begun.shaperBusy k = false from hidle)),
        if_pos (show 0 < (s.begun.shaper k).credit from hpos)] at hrefill
      exact hrefill
    · rw [if_neg (Bool.eq_false_iff.1 (show s.begun.shaperBusy k = false from hidle)),
        if_neg (show ¬ 0 < (s.begun.shaper k).credit from Int.not_lt.2 hneg)] at hrefill
      exact hrefill
  case arm =>
    refine execGateArm_eff hn hd hw ((gateArm_at (s := s.begun) harm hkeep).trans (if_neg ?_))
    rw [Bool.not_eq_true, Bool.or_eq_false_iff, Bool.or_eq_false_iff]
    refine ⟨⟨decide_eq_false hoper, ?_⟩, ?_⟩
    · rw [show s.begun.feature 9 = true from hfeature]; rfl
    · rw [(gateValid_iff (s.begun.gateEntries n (bitsOf d 2 1))).2 hvalid]; rfl
  case refuse =>
    refine execGateArm_eff hn hd hw ((gateArm_at (s := s.begun) harm hkeep).trans (if_pos ?_))
    rw [Bool.or_eq_true, Bool.or_eq_true]
    rcases hbad with hinvalid | hoper | hfeature
    · exact .inr (by rw [Bool.not_eq_true', Bool.eq_false_iff]; exact fun h => hinvalid ((gateValid_iff _).1 h))
    · exact .inl (.inl (decide_eq_true hoper))
    · exact .inl (.inr (by rw [show s.begun.feature 9 = false from hfeature]; rfl))
  case switch =>
    refine runBlock_effect (f := fun t => t.gateSwitch n) hreleased hready ?_
    unfold State.gateSwitch
    rw [show (s.begun.gate n).pending = some l from hpending]
    exact if_neg (not_not.2 hpos)
  case notYet =>
    refine runBlock_effect (f := fun t => t.gateSwitch n) hreleased hready ?_
    unfold State.gateSwitch
    rw [show (s.begun.gate n).pending = some l from hpending]
    exact if_pos hpos

end Sys2Proof.Machine
end

