-- ==== Sys2Proof/Proofs/FaceLinks.lean ====
section

/-! O33: the links of a face train, reset and sleep (spec/06 R155, R185-R187, spec/04 R111, R114). -/

namespace Sys2Proof.Machine

theorem runHost_effect {f : State → State} {s u : State} (hreleased : s.released = true) (h : f s.begun = u) :
    runHost f s = .next (s.close u.settleSto) :=
  runMain_effect (f := fun t => (f t).settleSto) hreleased (congrArg State.settleSto h)

/-- Ending D3cold moves no tenant to another face. -/
theorem face_setFace_d3cold (s : State) (f n : Nat) (b : Bool) :
    ((s.setFace f { s.face f with d3cold := b }).face n).firstInst = (s.face n).firstInst
      ∧ ((s.setFace f { s.face f with d3cold := b }).face n).totalVfs = (s.face n).totalVfs := by
  by_cases hn : n = f
  · by_cases hlen : f < s.host.faces.length
    · rw [hn, face_setFace_self hlen]
      exact ⟨rfl, rfl⟩
    · have hset : (s.setFace f { s.face f with d3cold := b }).face n = s.face n := by
        rw [State.face, State.setFace, setNth, List.set_eq_of_length_le (Nat.not_lt.1 hlen), State.face]
      rw [hset]
      exact ⟨rfl, rfl⟩
  · rw [face_setFace_ne hn]
    exact ⟨rfl, rfl⟩

theorem fnFace_setFace_d3cold (s : State) (f k : Nat) (b : Bool) :
    (s.setFace f { s.face f with d3cold := b }).fnFace k = s.fnFace k := by
  unfold State.fnFace State.tenantFace
  simp only [face_setFace_d3cold]

section
variable {s : State} {f l : Nat}

theorem pcieDlActive_trains {rate width : Nat} {flit : Bool} (hreleased : s.released = true) (hf : f < 4)
    (hreset : (s.face f).inReset = false) (hl : l = 0 ∨ l = 1 ∧ (s.face f).mode = 1) (hdown : (s.link f l).active = false)
    (hclock : s.clocks.pcie.getD f false = true) (hmin : (s.face f).maxRate ≤ rate) (hmax : rate ≤ 5)
    (hflit : flit = true ∨ 1 ≤ rate)
    (hwidth : width ∈ (if l = 0 ∧ (s.face f).mode = 0 then [16, 8, 4, 2, 1] else [8, 4, 2, 1])) :
    let v := s.setLink f l { state := .l0, rate, width, flit }
    let w := v.setFace f { v.face f with d3cold := false }
    let t := { w with supply := { w.supply with wakeN := setNth w.supply.wakeN f false } }
    let ks := (s.host.fns.map (fun p => p.1)).filter (fun k => decide (s.fnFace k = some f) && decide (fnLink k = l))
    s.pcieDlActive f l rate width flit =
      ks.foldl (fun u k => u.fnResume k) (ks.foldl (fun u k => u.releasePme k) (t.sendDrs f l)) := by
  intro v w t ks
  have hks : (t.host.fns.map (fun p => p.1)).filter (fun k => decide (t.fnFace k = some f) && decide (fnLink k = l)) = ks :=
    List.filter_congr fun k _ => by rw [show t.fnFace k = s.fnFace k from fnFace_setFace_d3cold v f k false]
  have hport : (l ≠ 0 && (l ≠ 1 || (s.face f).mode ≠ 1)) = false := by
    rcases hl with rfl | ⟨rfl, hmode⟩
    · rfl
    · simp [hmode]
  have hwidth' : (if (l = 0 && (s.face f).mode = 0) = true then [16, 8, 4, 2, 1] else [8, 4, 2, 1]).contains width = true := by
    rw [List.contains_iff_mem]
    simpa using hwidth
  have hrate : (!flit && rate = 0) = false := by
    rcases hflit with rfl | hpos
    · rfl
    · rw [decide_eq_false (by omega), Bool.and_false]
  have hguard : (!s.released || (s.face f).inReset || decide (3 < f) || (l ≠ 0 && (l ≠ 1 || (s.face f).mode ≠ 1))
      || (s.link f l).active || !s.clocks.pcie.getD f false || decide (5 < rate) || decide (rate < (s.face f).maxRate)
      || (!flit && rate = 0)
      || !(if (l = 0 && (s.face f).mode = 0) = true then [16, 8, 4, 2, 1] else [8, 4, 2, 1]).contains width) = false := by
    rw [hreleased, hreset, hport, hdown, hclock, hrate, hwidth', decide_eq_false (by omega), decide_eq_false (by omega),
      decide_eq_false (by omega)]
    rfl
  rw [← hks]
  exact if_neg (Bool.eq_false_iff.1 hguard)

theorem pcieDlActive_refused {rate width : Nat} {flit : Bool} (h : (s.face f).inReset = true ∨ rate < (s.face f).maxRate ∨
    5 < rate ∨ (flit = false ∧ rate = 0) ∨ (s.link f l).active = true) : s.pcieDlActive f l rate width flit = s := by
  refine if_pos ?_
  simp only [Bool.or_eq_true, decide_eq_true_eq, Bool.and_eq_true, Bool.not_eq_true']
  tauto

theorem l1Entry_sleeps {sub : Nat} (hstate : (s.link f l).state = .l0) (h : bitOf (s.fn (linkFn f l)).aspm 1 = true ∨
    ∀ k ∈ s.linkFns f l, (s.fn k).d3hot = true) : s.l1Entry f l sub = s.setLink f l { s.link f l with
      state := .l1, substate := l1Substate (s.fn (linkFn f l)).l1ss sub } := by
  refine if_neg ?_
  rw [List.all_eq_true.symm] at h
  simp only [hstate, ne_eq, not_true, decide_false, Bool.false_or, Bool.not_eq_true', Bool.not_eq_false, Bool.or_eq_true]
  exact h

theorem l1Entry_stays {sub : Nat} (haspm : bitOf (s.fn (linkFn f l)).aspm 1 = false)
    (h : ∃ k ∈ s.linkFns f l, (s.fn k).d3hot = false) : s.l1Entry f l sub = s := by
  obtain ⟨k, hk, hd3⟩ := h
  have hall : (s.linkFns f l).all (fun j => (s.fn j).d3hot) = false := List.all_eq_false.2 ⟨k, hk, by simp [hd3]⟩
  refine if_pos ?_
  rw [haspm, hall]
  exact Bool.or_true _

theorem pmeTurnOff_acks (hactive : (s.link f l).active = true) (h : ∃ k ∈ s.linkFns f l, (s.fn k).d3hot = false) :
    s.pmeTurnOff f l = s.send (.pcie f l .pmeToAck) := by
  obtain ⟨k, hk, hd3⟩ := h
  have hall : ((s.send (.pcie f l .pmeToAck)).linkFns f l).all (fun j => ((s.send (.pcie f l .pmeToAck)).fn j).d3hot) = false :=
    List.all_eq_false.2 ⟨k, hk, by rw [show ((s.send (.pcie f l .pmeToAck)).fn k).d3hot = (s.fn k).d3hot from rfl, hd3]; simp⟩
  unfold State.pmeTurnOff
  rw [hactive]
  exact (if_neg Bool.false_ne_true).trans (if_neg (Bool.eq_false_iff.1 hall))

theorem pmeTurnOff_sleeps (hactive : (s.link f l).active = true) (h : ∀ k ∈ s.linkFns f l, (s.fn k).d3hot = true) :
    s.pmeTurnOff f l = (((s.send (.pcie f l .pmeToAck)).setFace f { s.face f with d3cold := true }).linkReset f l .l2).raise 69 f
      (some (2048 + f)) := by
  have hall : ((s.send (.pcie f l .pmeToAck)).linkFns f l).all (fun j => ((s.send (.pcie f l .pmeToAck)).fn j).d3hot) = true :=
    List.all_eq_true.2 h
  unfold State.pmeTurnOff
  rw [hactive]
  exact (if_neg Bool.false_ne_true).trans (if_pos hall)

/-- A PM_PME whose time has come (spec/06 R187). -/
theorem pmeResend_due {k t : Nat} (hface : s.fnFace k = some f) (hstatus : (s.fn k).pmeStatus = true)
    (hat : (s.fn k).pmeResendAt = some t) (hdue : t ≤ s.now) : s.pmeResend k =
      if (s.link f (fnLink k)).active then
        (s.setFn k { s.fn k with pmeResendAt := some (t + 100000000) }).send (.pcie f (fnLink k) (.pmPme k))
      else s.setFn k { s.fn k with pmeResendAt := none, pmeHeld := true } := by
  unfold State.pmeResend
  simp only [hat, hstatus, hface, Nat.not_lt.2 hdue, Bool.not_true, decide_false, Bool.or_self, Bool.false_eq_true, if_false]

end

/-- Settles O33: the rule of each command of a link. -/
theorem faceLinksTrainAndSleep : Obligations.FaceLinksTrainAndSleep := by
  intro s f l hreleased hf hl x y ks
  refine ⟨fun rate width flit hreset hport hdown hclock hmin hmax hflit hwidth => ?train, fun rate width flit h => ?refused,
    fun hot hreset hstate => ?reset, fun sub hstate => ⟨fun h => ?sleep, fun haspm h => ?awake⟩, fun hstate => ?wake,
    fun hactive => ⟨fun h => ?ack, fun h => ?off⟩, fun k t hface hlink hstatus hat hdue => ⟨fun hactive => ?again, fun hdown => ?held⟩⟩
  case train =>
    refine runHost_effect (f := fun t => t.pcieDlActive f l rate width flit) hreleased
      (pcieDlActive_trains (s := s.begun) hreleased hf hreset ?_ hdown hclock hmin hmax hflit hwidth)
    rcases hport with h0 | hmode
    · exact .inl h0
    · by_cases h0 : l = 0
      · exact .inl h0
      · exact .inr ⟨by omega, hmode⟩
  case refused =>
    exact runHost_effect (f := fun t => t.pcieDlActive f l rate width flit) hreleased (pcieDlActive_refused (s := s.begun) h)
  case reset =>
    refine runHost_effect (f := fun t => t.pcieLinkReset f l hot) hreleased (if_neg ?_)
    simp only [Bool.or_eq_true, decide_eq_true_eq, not_or, Bool.not_eq_true]
    exact ⟨⟨⟨hreset, by omega⟩, by omega⟩, hstate⟩
  case sleep =>
    exact runMain_effect (f := fun t => t.l1Entry f l sub) hreleased (l1Entry_sleeps (s := s.begun) hstate h)
  case awake =>
    exact runMain_effect (f := fun t => t.l1Entry f l sub) hreleased (l1Entry_stays (s := s.begun) haspm h)
  case wake =>
    exact runMain_effect (f := fun t => t.l1Exit f l) hreleased (if_pos hstate)
  case ack =>
    exact runHost_effect (f := fun t => t.pmeTurnOff f l) hreleased (pmeTurnOff_acks (s := s.begun) hactive h)
  case off =>
    exact runHost_effect (f := fun t => t.pmeTurnOff f l) hreleased (pmeTurnOff_sleeps (s := s.begun) hactive h)
  case again =>
    refine runMain_effect (f := fun t => t.pmeResend k) hreleased ((pmeResend_due (s := s.begun) hface hstatus hat hdue).trans ?_)
    rw [hlink]
    exact if_pos hactive
  case held =>
    refine runMain_effect (f := fun t => t.pmeResend k) hreleased ((pmeResend_due (s := s.begun) hface hstatus hat hdue).trans ?_)
    rw [hlink]
    exact if_neg (Bool.eq_false_iff.1 hdown)

end Sys2Proof.Machine
end

