-- ==== Sys2Proof/Proofs/Functions.lean ====
section

/-! O34 and O35: configuration requests, VFs, bus mastering and power states of functions, and management over MCTP
(spec/06 R160-R192, spec/08 R249, R250). -/

namespace Sys2Proof.Machine

@[simp] theorem fn_setFn_self (s : State) (k : Nat) (x : PciFn) : (s.setFn k x).fn k = x := by
  rw [State.fn, State.setFn, mapGet_mapSet_self]

/-! ### Configuration requests -/

section
variable {s : State} {k f bus dev : Nat}

/-- A configuration request that the function's link carries (spec/04 R110). -/
theorem configRequest_reaches (r : CfgReq) (hreleased : s.released = true) (hface : s.fnFace k = some f)
    (hreset : (s.face f).inReset = false) (hactive : (s.link f (fnLink k)).active = true) : s.configRequest k bus dev r =
      if !bitOf s.bring.readyFace f then s.send (.cfg k none)
      else if !s.fnExists k then s.send (.cfg k (some 0xFFFFFFFF))
      else
        match r with
        | .read g => s.send (.cfg k (some ((s.fn k).cfgRead g)))
        | .write g v =>
          ((if k < 2048 then s else s.setFn k { s.fn k with bus := bus % 256, dev := dev % 32 }).cfgWrite k g v).send (.cfg k (some 0))
        | .other => s.send (.cfg k (some 0)) := by
  unfold State.configRequest
  rw [hface]
  simp only [hreleased, hreset, hactive, Bool.not_true, Bool.or_self, Bool.false_eq_true, if_false] <;> rfl

theorem configRequest_early (r : CfgReq) (hreleased : s.released = true) (hface : s.fnFace k = some f)
    (hreset : (s.face f).inReset = false) (hactive : (s.link f (fnLink k)).active = true)
    (hready : bitOf s.bring.readyFace f = false) : s.configRequest k bus dev r = s.send (.cfg k none) := by
  rw [configRequest_reaches r hreleased hface hreset hactive, hready]
  rfl

section
variable (hreleased : s.released = true) (hface : s.fnFace k = some f) (hreset : (s.face f).inReset = false)
  (hactive : (s.link f (fnLink k)).active = true) (hready : bitOf s.bring.readyFace f = true) (hexists : s.fnExists k = true)
include hreleased hface hreset hactive hready hexists

theorem configRequest_read (g : CfgField) :
    s.configRequest k bus dev (.read g) = s.send (.cfg k (some ((s.fn k).cfgRead g))) := by
  rw [configRequest_reaches _ hreleased hface hreset hactive, hready, hexists]
  rfl

theorem configRequest_write (g : CfgField) (v : Nat) : s.configRequest k bus dev (.write g v) =
    ((if k < 2048 then s else s.setFn k { s.fn k with bus := bus % 256, dev := dev % 32 }).cfgWrite k g v).send (.cfg k (some 0)) := by
  rw [configRequest_reaches _ hreleased hface hreset hactive, hready, hexists]
  rfl

end

theorem cfgWrite_mse (v : Nat) : s.cfgWrite k .mse v = s.setFn k { s.fn k with mse := decide (v % 2 = 1) } := rfl

theorem cfgWrite_mrrs_tenant (v : Nat) (hk : k < 2048) : s.cfgWrite k .mrrs v = s := if_pos hk

/-! ### VFs, bus mastering and power states -/

theorem vfEnableSet_open {n : Nat} (hf : f < 4) (hopen : s.cfgOpen (2048 + f) = true) (hoff : (s.fn (2048 + f)).vfEnable = false) :
    s.vfEnableSet f n = (s.setFn (2048 + f) { s.fn (2048 + f) with
      numVfs := n, vfEnable := decide (n ≤ (s.face f).totalVfs) }).evalLines :=
  if_neg (by simp [hopen, hoff]; omega)

theorem vfDisableSet_open (hf : f < 4) (hopen : s.cfgOpen (2048 + f) = true) (hon : (s.fn (2048 + f)).vfEnable = true) :
    s.vfDisableSet f = (s.setFn (2048 + f) { s.fn (2048 + f) with vfEnable := false }).resetVfs
      ((s.linkFns f 0).filter (fun j => decide (j < 2048))) :=
  if_neg (by simp [hopen, hon]; omega)

theorem vfFlr_open (hk : k < 2048) (hopen : s.cfgOpen k = true) : s.vfFlr k = s.resetVfs [k] := if_pos (by simp [hk, hopen])

theorem bmeClear_open (hface : s.fnFace k = some f) (hopen : s.cfgOpen k = true) (hbme : (s.fn k).bme = true) :
    s.bmeClear k = ((((s.setFn k { s.fn k with bme := false }).withdrawFn f k).jobsOver f k 5).queuesOff k).raise 72 (fnInst k)
      (some (fnInst k)) := by
  unfold State.bmeClear
  rw [hface]
  exact if_neg (by simp [hopen, hbme])

theorem bmeClear_clear (hbme : (s.fn k).bme = false) : s.bmeClear k = s := by
  unfold State.bmeClear
  split
  · rfl
  · exact if_pos (by simp [hbme])

theorem bmeSet_open (hopen : s.cfgOpen k = true) (hbme : (s.fn k).bme = false) :
    s.bmeSet k = (s.setFn k { s.fn k with bme := true }).fnResume k := if_neg (by simp [hopen, hbme])

theorem d3hotEntry_open (hopen : s.cfgOpen k = true) : s.d3hotEntry k = (s.setFn k { s.fn k with d3hot := true }).evalLines :=
  if_neg (by simp [hopen])

theorem d0Return_open (hopen : s.cfgOpen k = true) (hd3 : (s.fn k).d3hot = true) :
    s.d0Return k = (s.setFn k { s.fn k with d3hot := false }).fnResume k := if_neg (by simp [hopen, hd3])

theorem d0Return_d0 (hd3 : (s.fn k).d3hot = false) : s.d0Return k = s := if_pos (by simp [hd3])

theorem msixUnmask_function (v : Nat) (hopen : s.cfgOpen k = true) :
    s.msixUnmask k v true = (s.setFn k { s.fn k with msixMask := false }).flushVectors k := (if_pos rfl).trans (if_pos hopen)

theorem msixUnmask_vector {v : Nat} (hv : v < fnVectors k) (hreach : s.fnReachable k = true) : s.msixUnmask k v false =
    (s.setFn k { s.fn k with msix := mapUpd {} (s.fn k).msix v (fun m => { m with masked := false }) }).flushVectors k :=
  (if_neg Bool.false_ne_true).trans (if_pos (by simp [hv, hreach]))

end

/-- The face of a PF's function number. -/
theorem face_of_pf {s : State} {f : Nat} (h : s.fnFace (2048 + f) = some f) : f < 4 := by
  unfold State.fnFace at h
  rw [if_neg (by omega)] at h
  by_cases hpf : 2048 + f < 2052
  · omega
  · rw [if_neg hpf] at h
    split at h
    · exact absurd (Option.some.inj h) (by omega)
    · exact absurd h (by simp)

/-- Settles O34: the rule of each command of a function. -/
theorem functionsAreManaged : Obligations.FunctionsAreManaged := by
  intro s k f hreleased hface x answering
  refine ⟨fun bus dev r hans => ⟨fun hready => ?early, fun hready hexists => ⟨fun g hr => ?read, fun v hr hk => ?write,
    fun v hr hk => ?tenant⟩⟩, fun hopen => ⟨fun n hk hoff => ?enable, fun hk hon => ?disable, fun hk => ?flr, fun hbme => ?clear,
    fun hbme => ⟨?stay, ?set⟩, ?sleep, fun hd3 => ?wake, fun hd3 => ?awake, fun v => ?unmask⟩, fun v hv hreach => ?vector⟩
  case early =>
    obtain ⟨hreset, hactive⟩ := hans
    exact runHost_effect (f := fun t => t.configRequest k bus dev r) hreleased
      (configRequest_early (s := s.begun) r hreleased hface hreset hactive hready)
  case read =>
    obtain ⟨hreset, hactive⟩ := hans
    subst hr
    exact runHost_effect (f := fun t => t.configRequest k bus dev _) hreleased
      (configRequest_read (s := s.begun) hreleased hface hreset hactive hready hexists g)
  case write =>
    obtain ⟨hreset, hactive⟩ := hans
    subst hr
    refine runHost_effect (f := fun t => t.configRequest k bus dev _) hreleased
      ((configRequest_write (s := s.begun) hreleased hface hreset hactive hready hexists .mse v).trans ?_)
    rw [if_neg (Nat.not_lt.2 hk), cfgWrite_mse, fn_setFn_self]
    rfl
  case tenant =>
    obtain ⟨hreset, hactive⟩ := hans
    subst hr
    refine runHost_effect (f := fun t => t.configRequest k bus dev _) hreleased
      ((configRequest_write (s := s.begun) hreleased hface hreset hactive hready hexists .mrrs v).trans ?_)
    rw [if_pos hk, cfgWrite_mrrs_tenant v hk]
  case enable =>
    subst hk
    exact runHost_effect (f := fun t => t.vfEnableSet f n) hreleased (vfEnableSet_open (s := s.begun) (face_of_pf hface) hopen hoff)
  case disable =>
    subst hk
    exact runHost_effect (f := fun t => t.vfDisableSet f) hreleased (vfDisableSet_open (s := s.begun) (face_of_pf hface) hopen hon)
  case flr => exact runHost_effect (f := fun t => t.vfFlr k) hreleased (vfFlr_open (s := s.begun) hk hopen)
  case clear => exact runHost_effect (f := fun t => t.bmeClear k) hreleased (bmeClear_open (s := s.begun) hface hopen hbme)
  case stay => exact runHost_effect (f := fun t => t.bmeClear k) hreleased (bmeClear_clear (s := s.begun) hbme)
  case set => exact runHost_effect (f := fun t => t.bmeSet k) hreleased (bmeSet_open (s := s.begun) hopen hbme)
  case sleep => exact runHost_effect (f := fun t => t.d3hotEntry k) hreleased (d3hotEntry_open (s := s.begun) hopen)
  case wake => exact runHost_effect (f := fun t => t.d0Return k) hreleased (d0Return_open (s := s.begun) hopen hd3)
  case awake => exact runHost_effect (f := fun t => t.d0Return k) hreleased (d0Return_d0 (s := s.begun) hd3)
  case unmask => exact runMain_effect (f := fun t => t.msixUnmask k v true) hreleased (msixUnmask_function (s := s.begun) v hopen)
  case vector => exact runMain_effect (f := fun t => t.msixUnmask k v false) hreleased (msixUnmask_vector (s := s.begun) hv hreach)

/-! ### Management over MCTP -/

section
variable {s : State} {f : Nat} {msg : List Byte}

theorem mctpControl_request (hon : s.mctpOn f = true) (htype : beAt msg 0 1 % 128 = 0) (hrq : 128 ≤ beAt msg 1 1) :
    s.mctpControl f msg = ((s.mctpAnswer (beAt msg 2 1) (msg.drop 3)).2).send (.pcie f 0 (.mctp
      (toBe 1 0 ++ toBe 1 (beAt msg 1 1 % 32) ++ toBe 1 (beAt msg 2 1) ++ (s.mctpAnswer (beAt msg 2 1) (msg.drop 3)).1))) :=
  if_neg (by simp [hon, htype, hrq])

theorem mctpAnswer_set {body : List Byte} (h0 : beAt body 1 1 ≠ 0) (h255 : beAt body 1 1 ≠ 255) : s.mctpAnswer 1 body =
    (toBe 1 0 ++ toBe 1 0 ++ toBe 1 (beAt body 1 1) ++ toBe 1 0, { s with glb := { s.glb with mctpEid := beAt body 1 1 } }) :=
  if_neg (by simp [h0, h255])

theorem mctpOn_other (h : f ≠ s.glb.primary) : s.mctpOn f = false := by
  unfold State.mctpOn
  rw [decide_eq_false h, Bool.false_and, Bool.false_and, Bool.false_and]

theorem pldmRequest_on (hon : s.mctpOn f = true) (htype : beAt msg 0 1 % 128 = 1) : s.pldmRequest f msg =
    if s.ready 18 then s.send (.pldm f msg)
    else s.send (.pcie f 0 (.mctp (toBe 1 1 ++ toBe 1 (beAt msg 1 1 % 32) ++ bytesAt msg 2 2 ++ toBe 1 4))) :=
  if_neg (by simp [hon, htype])

end

/-- Settles O35: what each request over the primary face is answered. -/
theorem managementIsAnswered : Obligations.ManagementIsAnswered := by
  intro s f msg hreleased reply
  refine ⟨fun hon => ⟨fun htype hrq => ⟨fun e hcmd he h0 h255 => ?set, fun hcmd => ?get⟩, fun htype =>
    ⟨fun hready => ?passed, fun hready => ?refused⟩⟩, fun hother => ⟨?control, ?pldm⟩⟩
  case set =>
    subst he
    refine runMain_effect (f := fun t => t.mctpControl f msg) hreleased ((mctpControl_request (s := s.begun) hon htype hrq).trans ?_)
    rw [hcmd, mctpAnswer_set h0 h255]
    rfl
  case get =>
    refine runMain_effect (f := fun t => t.mctpControl f msg) hreleased ((mctpControl_request (s := s.begun) hon htype hrq).trans ?_)
    rw [hcmd]
    rfl
  case passed =>
    exact runMain_effect (f := fun t => t.pldmRequest f msg) hreleased
      ((pldmRequest_on (s := s.begun) hon htype).trans (if_pos hready))
  case refused =>
    exact runMain_effect (f := fun t => t.pldmRequest f msg) hreleased
      ((pldmRequest_on (s := s.begun) hon htype).trans (if_neg (Bool.eq_false_iff.1 hready)))
  case control =>
    exact runMain_effect (f := fun t => t.mctpControl f msg) hreleased (if_pos (by simp [mctpOn_other (s := s.begun) hother]))
  case pldm =>
    exact runMain_effect (f := fun t => t.pldmRequest f msg) hreleased (if_pos (by simp [mctpOn_other (s := s.begun) hother]))

end Sys2Proof.Machine
end

