-- ==== Sys2Proof/Proofs/HostTransfers.lean ====
section

/-! O36: reads and writes of the host DMA engines go out and end (spec/09 R261-R281). -/

namespace Sys2Proof.Machine

section
variable {s : State} {f : Nat}

/-! ### Reads go out -/

/-- A face with something waiting is one of the faces. -/
theorem dmaFace_setDmaFace_waiting {r : HostRead} {rs : List HostRead} (h : (s.dmaFace f).waiting = r :: rs) (x : DmaFace) :
    (s.setDmaFace f x).dmaFace f = x := by
  by_cases hlen : f < s.dma.faces.length
  · rw [State.dmaFace, State.setDmaFace, setNth, List.getD_eq_getElem?_getD, List.getElem?_set_self hlen, Option.getD_some]
  · rw [State.dmaFace, List.getD_eq_default _ _ (Nat.not_lt.1 hlen)] at h
    exact absurd h (by simp)

theorem judgeRead_goes {r : HostRead} (hopen : s.fnOpen r.fn = true) (hats : r.ats = false) (hflush : r.req.isFlush = false)
    (hroom : s.roomFor r.face r.link r.pool r.req.isPoll (((s.readSpan r).2 + (s.readSpan r).1 % 64 + 63) / 64 * 64) = true) :
    s.judgeRead r = .go r.addr := by
  unfold State.judgeRead
  simp only [hopen, hats, hflush, hroom, Bool.not_true, Bool.not_false, Bool.true_or, Bool.false_eq_true, if_false, if_true]

theorem pickRead_one {r : HostRead} {a : Nat} (h : s.judgeRead r = .go a) : s.pickRead [] [r] = some (r, .go a) := by
  rw [State.pickRead, h]
  rfl

theorem readIssue_one {r : HostRead} (hwaiting : (s.dmaFace f).waiting = [r]) (hgen : s.genOk r.inst r.gen = true)
    (hjudge : (s.setDmaFace f { s.dmaFace f with waiting := [r] }).judgeRead r = .go r.addr) :
    s.readIssue f = (((s.setDmaFace f { s.dmaFace f with waiting := [r] }).dropWaiting f r.id).issueRead r r.addr, none) := by
  have hfilter : [r].filter (fun r => r.req.isFlush || s.genOk r.inst r.gen) = [r] := by simp [hgen]
  unfold State.readIssue
  dsimp only
  rw [hwaiting, hfilter, dmaFace_setDmaFace_waiting hwaiting, pickRead_one hjudge]

/-! ### Completions -/

section
variable {tag : Nat} {o : OutRead} {bs : List Byte}

theorem completion_done (hout : s.outRead f tag = some o) (hxlate : o.rd.req.isXlate = false) (hflush : o.rd.req.isFlush = false)
    (hbs : bs ≠ []) (hlen : o.rd.got.length + bs.length = o.total) : s.completion f tag .ok bs =
      (s.closeRead f tag).endRead o.rd (.ok (((o.rd.got ++ bs).drop o.lead).take o.rd.len)) := by
  unfold State.completion
  rw [hout]
  simp only [hxlate, hflush, hbs, hlen, Nat.lt_irrefl, decide_false, Bool.or_self, Bool.false_eq_true, if_false]

theorem completion_part (hout : s.outRead f tag = some o) (hxlate : o.rd.req.isXlate = false) (hflush : o.rd.req.isFlush = false)
    (hbs : bs ≠ []) (hlen : o.rd.got.length + bs.length < o.total) : s.completion f tag .ok bs =
      (s.setDmaFace f { s.dmaFace f with out := (s.dmaFace f).out.map (fun r =>
        if r.tag = tag then { r with rd := { r.rd with got := r.rd.got ++ bs } } else r) }, none) := by
  have hnot : ¬ o.total < o.rd.got.length + bs.length := by omega
  unfold State.completion
  rw [hout]
  simp only [hxlate, hflush, hbs, hlen, hnot, decide_false, Bool.or_self, Bool.false_eq_true, if_false, if_true]

theorem completion_error (hout : s.outRead f tag = some o) (hxlate : o.rd.req.isXlate = false) (hflush : o.rd.req.isFlush = false) :
    s.completion f tag .error bs =
      (((s.closeRead f tag).count (dmaCounter f 6) 1).raise 102 0 (some o.rd.inst)
        { addr := o.rd.addr, master := s.fnMaster o.rd.fn, access := 1 }).endRead o.rd .error := by
  unfold State.completion
  rw [hout]
  simp only [hxlate, hflush, Bool.or_self, Bool.false_eq_true, if_false]

theorem completion_late {st : CplStatus} {q : Quarantined} (hout : s.outRead f tag = none)
    (hquarantine : (s.dmaFace f).quarantine.find? (fun q => decide (q.tag = tag)) = some q) : s.completion f tag st bs =
      ((s.count (dmaCounter f 5) 1).raise 100 0 none { master := s.fnMaster q.fn, access := 1 }, none) := by
  unfold State.completion
  rw [hout]
  simp only [hquarantine]

theorem completion_unexpected {st : CplStatus} (hout : s.outRead f tag = none)
    (hquarantine : (s.dmaFace f).quarantine.find? (fun q => decide (q.tag = tag)) = none) : s.completion f tag st bs =
      (((s.count (dmaCounter f 8) 1).aerLog (linkFn f (tag / 4096)) 16).raise 101 0 none
        { master := s.fnMaster (linkFn f (tag / 4096)), access := 1 }, none) := by
  unfold State.completion
  rw [hout]
  simp only [hquarantine]

theorem doCompletion_active {st : CplStatus} (h : (s.link f (tag / 4096)).active = true) :
    s.doCompletion f tag st bs = endOne (s.completion f tag st bs) := if_pos h

/-! ### Timers -/

theorem readTimeout_early (hout : s.outRead f tag = some o) (hearly : s.now < o.issued + o.t) : s.readTimeout f tag = (s, none) := by
  unfold State.readTimeout
  rw [hout]
  exact if_pos (by simp [hearly])

theorem readTimeout_due (hout : s.outRead f tag = some o) (hflush : o.rd.req.isFlush = false) (hdue : o.issued + o.t ≤ s.now) :
    s.readTimeout f tag = s.timeOutRead f o := by
  unfold State.readTimeout
  rw [hout]
  exact if_neg (by simp [hflush, hdue])

theorem flushEnd_completed (hout : s.outRead f tag = some o) (hflush : o.rd.req.isFlush = true) :
    s.flushEnd f tag false = s.closeRead f tag := by
  unfold State.flushEnd
  rw [hout]
  exact (if_neg (by simp [hflush])).trans (if_neg Bool.false_ne_true)

theorem flushEnd_early (hout : s.outRead f tag = some o) (hearly : s.now < o.issued + o.t) : s.flushEnd f tag true = s := by
  unfold State.flushEnd
  rw [hout]
  exact if_pos (by simp [hearly])

theorem flushEnd_due (hout : s.outRead f tag = some o) (hflush : o.rd.req.isFlush = true) (hdue : o.issued + o.t ≤ s.now) :
    s.flushEnd f tag true = ((s.closeRead f tag).count (dmaCounter f 10) 1).raise 105 o.rd.inst (some o.rd.inst)
      { addr := o.rd.addr, master := (s.closeRead f tag).fnMaster o.rd.fn, access := 1 } := by
  unfold State.flushEnd
  rw [hout]
  exact (if_neg (by simp [hflush, hdue])).trans (if_pos rfl)

end

/-! ### Write channels -/

section
variable {l a : Nat} {w : HostWrite} {ws : List HostWrite}

theorem writeTlp_stale (hwork : s.chanWork f l a = w :: ws) (hkept : w.withdrawn = false) (hgen : s.genOk w.inst w.gen = false) :
    s.writeTlp f l a = ((s.setChanWork f l a ws).count (dmaCounter f 15) (s.tlpsLeft w), some (w, .stale)) := by
  unfold State.writeTlp
  simp only [hwork, hkept, hgen, Bool.not_false, Bool.false_eq_true, if_false, if_true]

/-- A function that may send is a bus master. -/
theorem fnOpen_bme {k : Nat} (h : s.fnOpen k = true) : (s.fn k).bme = true := by
  unfold State.fnOpen at h
  split at h
  · exact absurd h Bool.false_ne_true
  · simp only [Bool.and_eq_true] at h
    exact h.1.1.2

/-- One TLP up to the next payload boundary (spec/09 R272). -/
theorem writeTlp_sends {addr : Nat} {bs : List Byte} {ps : List (Nat × List Byte)} (hwork : s.chanWork f l a = w :: ws)
    (hkept : w.withdrawn = false) (hgen : s.genOk w.inst w.gen = true) (hopen : s.fnOpen w.fn = true) (hats : w.ats = false)
    (hparts : w.parts = (addr, bs) :: ps) :
    let n := min bs.length (s.mps w.fn - addr % s.mps w.fn)
    let rest := (advanceParts n ((addr, bs) :: ps)).filter (fun q => q.2 ≠ [])
    let t := s.emitWrite f l a w.fn w.inst addr { pasid := w.pasid, relaxed := s.relaxedData f w.fn } (bs.take n)
    s.writeTlp f l a = if rest = [] then (t.setChanWork f l a ws, some (w, .done))
      else (t.setChanWork f l a ({ w with parts := rest, started := true } :: ws), none) := by
  have haddr : s.writeAddr f l (chanPool a) w.fn w.inst w.gen (chanXlateId l a) addr false w.pasid = (s, some (addr, true)) := rfl
  unfold State.writeTlp
  simp only [hwork, hkept, hgen, hopen, fnOpen_bme hopen, hparts, hats, haddr, Bool.not_true, Bool.false_eq_true, if_false]

theorem doWriteTlp_ended (hready : s.ready 5 = true) {u : State} {e : WriteEnd} (h : s.writeTlp f l a = (u, some (w, e))) :
    s.doWriteTlp f l a = u.writeEnded w e := by
  unfold State.doWriteTlp
  simp only [h, hready, Bool.not_true, Bool.false_eq_true, if_false]

theorem doWriteTlp_sent (hready : s.ready 5 = true) {u : State} (h : s.writeTlp f l a = (u, none)) : s.doWriteTlp f l a = u := by
  unfold State.doWriteTlp
  simp only [h, hready, Bool.not_true, Bool.false_eq_true, if_false]

end
end

/-- Settles O36: the rule of each command of the host DMA engines. -/
theorem hostReadsAndWritesEnd : Obligations.HostReadsAndWritesEnd := by
  intro s f hf hreleased hready d
  refine ⟨fun r hwaiting hgen hopen hats hflush => ?issue,
    fun tag o bs hout hactive hxlate hflush hbs => ⟨fun hlen => ?done, fun hlen => ?part, ?error⟩,
    fun tag st bs hout hactive => ⟨fun q hq => ?late, fun hq => ?unexpected⟩,
    fun tag o hout hflush => ⟨fun hearly => ?early, fun hdue => ?timeout⟩, fun tag => ?quarantine,
    fun l a w ws hwork hkept => ⟨fun hgen => ?stale, fun addr bs ps hgen hopen hats hparts => ?write⟩,
    fun tag o hout hflush => ⟨?flushed, fun hearly => ?flushEarly, fun hdue => ?flushLate⟩⟩
  case issue =>
    intro sp t hroom
    have hjudge := judgeRead_goes (s := t) (r := r) hopen hats hflush hroom
    refine runHostBlock_effect (f := fun t => t.doReadIssue f) hreleased hready ((if_pos hready).trans ?_)
    rw [readIssue_one (s := s.begun) hwaiting hgen hjudge]
    rfl
  case done =>
    exact runHost_effect (f := fun t => t.doCompletion f tag .ok bs) hreleased ((doCompletion_active (s := s.begun) hactive).trans
      (congrArg endOne (completion_done (s := s.begun) hout hxlate hflush hbs hlen)))
  case part =>
    exact runHost_effect (f := fun t => t.doCompletion f tag .ok bs) hreleased ((doCompletion_active (s := s.begun) hactive).trans
      (congrArg endOne (completion_part (s := s.begun) hout hxlate hflush hbs hlen)))
  case error =>
    exact runHost_effect (f := fun t => t.doCompletion f tag .error bs) hreleased ((doCompletion_active (s := s.begun) hactive).trans
      (congrArg endOne (completion_error (s := s.begun) hout hxlate hflush)))
  case late =>
    exact runHost_effect (f := fun t => t.doCompletion f tag st bs) hreleased ((doCompletion_active (s := s.begun) hactive).trans
      (congrArg endOne (completion_late (s := s.begun) hout hq)))
  case unexpected =>
    exact runHost_effect (f := fun t => t.doCompletion f tag st bs) hreleased ((doCompletion_active (s := s.begun) hactive).trans
      (congrArg endOne (completion_unexpected (s := s.begun) hout hq)))
  case early =>
    exact runHost_effect (f := fun t => t.doReadTimeout f tag) hreleased
      (congrArg endOne (readTimeout_early (s := s.begun) hout hearly))
  case timeout =>
    exact runHost_effect (f := fun t => t.doReadTimeout f tag) hreleased
      (congrArg endOne (readTimeout_due (s := s.begun) hout hflush hdue))
  case quarantine => exact runHost_effect (f := fun t => t.quarantineEnd f tag) hreleased rfl
  case stale =>
    exact runHostBlock_effect (f := fun t => t.doWriteTlp f l a) hreleased hready
      (doWriteTlp_ended (s := s.begun) hready (writeTlp_stale (s := s.begun) hwork hkept hgen))
  case write =>
    have hsends := writeTlp_sends (s := s.begun) hwork hkept hgen hopen hats hparts
    exact ⟨fun hmore => runHostBlock_effect (f := fun t => t.doWriteTlp f l a) hreleased hready
        (doWriteTlp_sent (s := s.begun) hready (hsends.trans (if_neg hmore))),
      fun hlast => runHostBlock_effect (f := fun t => t.doWriteTlp f l a) hreleased hready
        (doWriteTlp_ended (s := s.begun) hready (hsends.trans (if_pos hlast)))⟩
  case flushed =>
    exact runHost_effect (f := fun t => t.flushEnd f tag false) hreleased (flushEnd_completed (s := s.begun) hout hflush)
  case flushEarly =>
    exact runHost_effect (f := fun t => t.flushEnd f tag true) hreleased (flushEnd_early (s := s.begun) hout hearly)
  case flushLate =>
    exact runHost_effect (f := fun t => t.flushEnd f tag true) hreleased (flushEnd_due (s := s.begun) hout hflush hdue)

end Sys2Proof.Machine
end

