-- ==== Sys2Proof/Proofs/Translations.lean ====
section

/-! O37: an invalidation that meets a flush read (spec/09 R280, R281). -/

namespace Sys2Proof.Machine

/-- A face whose one outstanding read is a flush read of function 0 at page 5 under a translation that the cache no longer holds. -/
def bareFlush : State :=
  { bring := { phase := .released }
    dma := { faces := [{ out := [{ tag := 0, issued := 0, t := 0, rd :=
      { id := 7, req := .flush 0 0 0, face := 0, link := 0, pool := .flush, fn := 0, inst := 0, gen := 0, addr := 5 * 4096
        len := 4, ats := true } }] }, {}, {}, {}] } }

/-- The invalidations that the first face serves. -/
def State.serving (s : State) : Nat := (s.dmaFace 0).invals.length

theorem bareFlush_invalidate : (bareFlush.close (bareFlush.begun.invalidate 0 0 5 1).settleSto).serving = 0 := by decide

/-- Refutes O37: the statement has an invalidation wait for every outstanding read under a translated address whose address lies in
its range, but a flush read carries its translated address and is waited for only through the cache entry that it used; in
`bareFlush` there is none, and the Invalidate Completion goes out at once. -/
theorem not_jobsAndTranslations : ¬ Obligations.JobsAndTranslations := by
  intro h
  obtain ⟨-, -, -, -, hinvalidate, -⟩ := h bareFlush 0 (by decide) rfl rfl
  have hrun : exec (.atsInvalidate 0 0 5 1) bareFlush = _ :=
    runHost_effect (f := fun t => t.invalidate 0 0 5 1) (s := bareFlush) rfl rfl
  have hstates := Host.Outcome.next.inj (hrun.symm.trans (hinvalidate 0 5 1))
  have hserving := congrArg State.serving hstates
  rw [bareFlush_invalidate] at hserving
  exact absurd hserving (by decide)

end Sys2Proof.Machine
end

