-- ==== Sys2Proof/Proofs/QueueCommands.lean ====
section

/-! O38: queue and line commands (spec/07 R214, R215, R221-R223, R229). -/

namespace Sys2Proof.Machine

/-! ### The way of a command -/

/-- What a write of a command to QMG_CMD of a face does, where the effect takes it. -/
theorem run_qmgRow {s v : State} {m : Master} {f op typ q : Nat} (hf : f < 4) (hq : q < 16384)
    (hw : s.writes m (blockBase 6 + 0x130080 + 0x1000 * f)) (he : State.qmgCommand m f op typ q s.begun = (v, true)) :
    runHost (fun t => t.qmgRow m f op typ q) s =
      .next (s.close (m.logged (blockBase 6 + 0x130080 + 0x1000 * f) 4 (op + typ * 8 + q * 32) v).settleSto) := by
  have hmod : q % 2 ^ 14 = q := Nat.mod_eq_of_lt hq
  refine runHost_effect (f := fun t => t.qmgRow m f op typ q) hw.1.1 ?_
  have heff := access_eff ((begun_reaches s m _).2 hw.1) 4 (op + typ * 8 + q * 32) (State.qmgCommand m f op typ q) false (by rw [he])
  rw [State.qmgRow, if_neg (by omega), hmod, heff, he]

section
variable {s : State} {m : Master} {f op q : Nat}

theorem qmgCommand_queue (rx : Bool) (hfree : (s.qmg.cmd.getD f {}).busy = false) (hop : 1 ≤ op ∧ op ≤ 4) (hq : q < 16384) :
    State.qmgCommand m f op (b2n rx) q s = (s.queueCommand m f op (queueKey rx q), true) := by
  unfold State.qmgCommand
  rw [hfree]
  cases rx <;> simp [b2n, queueKey, hop.1, hop.2, Nat.mod_eq_of_lt hq]

theorem qmgCommand_line (hfree : (s.qmg.cmd.getD f {}).busy = false) (hop : op = 1 ∨ op = 5) (hq : q < 8192) :
    State.qmgCommand m f op 2 q s = (s.lineCommand m f op q, true) := by
  unfold State.qmgCommand
  rw [hfree]
  have hop' : (op ≠ 1 && op ≠ 5) = false := by rcases hop with rfl | rfl <;> rfl
  simp only [hop', Nat.not_le.2 hq, Bool.false_eq_true, if_false]

end

/-! ### Queue commands -/

/-- The tenant or manager whose command over a queue is judged. -/
def State.queueJudge (s : State) (k : Nat) : Nat := (s.queueOwner (decide (16384 ≤ k)) (queueNo k)).getD (s.readQCtx k).inst

section
variable {s : State} {m : Master} {f k : Nat}

theorem queueCommand_denied {op : Nat} (hinst : (s.readQCtx k).inst ≤ 2051) (h : s.cmdDenied m f (s.queueJudge k) = true) :
    s.queueCommand m f op k = s.endQmg f 3 0 := by
  have hinst' : (op = 1 && 2051 < (s.readQCtx k).inst) = false := by simp; omega
  exact (if_neg (Bool.eq_false_iff.1 hinst')).trans (if_pos h)

theorem queueCommand_enable (h : s.cmdDenied m f (s.queueJudge k) = false) (hinst : (s.readQCtx k).inst ≤ 2051)
    (hstate : (s.queue k).state = .disabled) : s.queueCommand m f 1 k =
      if s.queueWhy k (s.readQCtx k) ≠ 0 then s.endQmg f 2 (s.queueWhy k (s.readQCtx k))
      else ((s.setQueue k { state := .running, ctx := s.readQCtx k }).endQmg f 0 0).evalLine (s.readQCtx k).dbLine := by
  have hinst' : (1 = 1 && 2051 < (s.readQCtx k).inst) = false := by simp; omega
  refine (if_neg (Bool.eq_false_iff.1 hinst')).trans ((if_neg (Bool.eq_false_iff.1 h)).trans ?_)
  rw [hstate]
  rfl

theorem queueCommand_stop (h : s.cmdDenied m f (s.queueJudge k) = false) (hstate : (s.queue k).state = .running)
    (hbound : s.boundStops k = true) : s.queueCommand m f 2 k =
      (((s.setQueue k { s.queue k with state := .stopping, stopTo := some (s.queue k).p }).abortQueue k 5).runQmg f k).evalLine
        (s.queue k).ctx.dbLine := by
  unfold State.queueJudge at h
  unfold State.queueCommand
  simp only [Nat.reduceEqDiff, decide_false, Bool.false_and, Bool.false_eq_true, if_false, h, hstate, hbound, Bool.not_true]
  rfl

theorem queueCommand_stop_busy (h : s.cmdDenied m f (s.queueJudge k) = false) (hstate : (s.queue k).state ≠ .running) :
    s.queueCommand m f 2 k = s.endQmg f 1 0 := by
  unfold State.queueJudge at h
  unfold State.queueCommand
  simp only [Nat.reduceEqDiff, decide_false, Bool.false_and, Bool.false_eq_true, if_false, h]
  split
  · exact absurd ‹2 = 1› (by decide)
  · exact absurd (by assumption) hstate
  · exact absurd ‹2 = 3› (by decide)
  · exact absurd ‹2 = 4› (by decide)
  · rfl

theorem queueCommand_resume (h : s.cmdDenied m f (s.queueJudge k) = false) (hstate : (s.queue k).state = .stopped) :
    s.queueCommand m f 3 k = ((s.setQueue k { s.queue k with
      state := .running
      ctx := { (s.queue k).ctx with
        course := (s.readQCtx k).course, weight := (s.readQCtx k).weight, burst := (s.readQCtx k).burst } }).endQmg f 0 0).evalLine
      (s.queue k).ctx.dbLine := by
  unfold State.queueJudge at h
  unfold State.queueCommand
  simp only [Nat.reduceEqDiff, decide_false, Bool.false_and, Bool.false_eq_true, if_false, h, hstate]

theorem queueCommand_reset (h : s.cmdDenied m f (s.queueJudge k) = false) (hbound : s.boundStops k = true)
    (hstate : (s.queue k).state = .error ∨ ((s.queue k).state = .masterOff ∧ (s.fn (s.queue k).ctx.fn).bme = true)) :
    s.queueCommand m f 4 k =
      ((((s.endQmgOn k 1).setQueue k { s.queue k with state := .resetting, stopTo := some (s.queue k).p }).abortQueue k 5).runQmg
        f k).evalLine (s.queue k).ctx.dbLine := by
  have hmay : ((s.queue k).state = .disabled || (s.queue k).state = .resetting) = false
      ∧ ((s.queue k).state = .masterOff && !(s.fn (s.queue k).ctx.fn).bme) = false := by
    rcases hstate with hstate | ⟨hstate, hbme⟩
    · rw [hstate]
      exact ⟨rfl, rfl⟩
    · rw [hstate, hbme]
      exact ⟨rfl, rfl⟩
  unfold State.queueJudge at h
  unfold State.queueCommand
  simp only [Nat.reduceEqDiff, decide_false, Bool.false_and, Bool.false_eq_true, if_false, h, hmay, hbound, Bool.not_true]
  rfl

theorem queueCommand_reset_busy (h : s.cmdDenied m f (s.queueJudge k) = false) (hstate : (s.queue k).state = .masterOff)
    (hbme : (s.fn (s.queue k).ctx.fn).bme = false) : s.queueCommand m f 4 k = s.endQmg f 1 0 := by
  unfold State.queueJudge at h
  unfold State.queueCommand
  simp only [Nat.reduceEqDiff, decide_false, Bool.false_and, Bool.false_eq_true, if_false, h, hstate, hbme, Bool.not_false,
    decide_true, Bool.true_and, if_true, reduceCtorEq, Bool.or_self]

theorem queueWhy_size {c : QCtx} (h : 10 < bitsOf (s.ctxWord k 2) 12 4) : s.queueWhy k c = 1 := if_pos h

theorem queueStopped_quiet (hstate : (s.queue k).state = .stopping) (hquiet : s.queueQuiet k = true) : s.queueStopped k =
    ((s.setQueue k { s.queue k with state := .stopped, stopTo := none }).endQmgOn k 0).evalLine (s.queue k).ctx.dbLine :=
  if_pos (by rw [hstate, hquiet]; rfl)

theorem queueStopped_waits (hquiet : s.queueQuiet k = false) : s.queueStopped k = s :=
  if_neg (by rw [hquiet, Bool.and_false]; exact Bool.false_ne_true)

theorem queueResetDone_quiet (hstate : (s.queue k).state = .resetting) (hquiet : s.queueQuiet k = true) : s.queueResetDone k =
    ((s.setQueue k { ctx := (s.queue k).ctx }).endQmgOn k 0).evalLine (s.queue k).ctx.dbLine :=
  if_pos (by rw [hstate, hquiet]; rfl)

end

/-! ### Line commands -/

section
variable {s : State} {m : Master} {f l : Nat}

/-- The tenant or manager whose command over a line is judged. -/
def State.lineJudge (s : State) (l : Nat) : Nat := if (s.dbLine l).enabled then (s.dbLine l).inst else (s.readLine l).inst

/-- A line's ENABLE that its entry's address, link and owner allow. -/
theorem lineCommand_enable (hinst : s.lineJudge l ≤ 2051) (h : s.cmdDenied m f (s.lineJudge l) = false)
    (hoff : (s.dbLine l).enabled = false) (haddr : (s.readLine l).addr % 64 = 0)
    (hlink : s.linkAllowed (s.readLine l).inst (s.readLine l).link = true) (hstarted : (s.inst (s.readLine l).inst).state = .started) :
    s.lineCommand m f 1 l =
      if (s.readLine l).cls = 0 && (decide (512 ≤ s.hotLines (fun y => decide (s.lineFace y = f)))
        || decide ((s.inst (s.readLine l).inst).grant.hotSlots ≤ s.hotLines (fun y => decide (y.inst = (s.readLine l).inst))))
      then s.endQmg f 2 9
      else ((s.setLine l { s.readLine l with state := .idle }).evalLine l).endQmg f 0 0 := by
  refine (if_neg (Nat.not_lt.2 hinst)).trans ((if_neg (Bool.eq_false_iff.1 h)).trans ((if_pos rfl).trans ?_))
  exact (if_neg (Bool.eq_false_iff.1 hoff)).trans ((if_neg (not_not.2 haddr)).trans ((if_neg (by simp [hlink])).trans
    (if_neg (not_not.2 hstarted))))

theorem lineCommand_disable (hinst : s.lineJudge l ≤ 2051) (h : s.cmdDenied m f (s.lineJudge l) = false) :
    s.lineCommand m f 5 l =
      if s.qmg.queues.any (fun p => decide (p.2.state ≠ .disabled) && decide (p.2.ctx.dbLine = l))
        || s.qmg.rings.any (fun p => decide (p.2.state ≠ .disabled) && decide (p.2.ctx.dbLine = l)) then s.endQmg f 1 0
      else (s.setLine l {}).endQmg f 0 0 :=
  (if_neg (Nat.not_lt.2 hinst)).trans ((if_neg (Bool.eq_false_iff.1 h)).trans (if_neg (by decide)))

end

/-- Settles O38: the rule of each command, written to QMG_CMD of its face. -/
theorem queuesAreCommanded : Obligations.QueuesAreCommanded := by
  intro s m f q rx hf hq hreleased hready k x c a fin judge
  have hqueue : ∀ {op : Nat} {v : State}, 1 ≤ op ∧ op ≤ 4 → s.writes m a → (s.qmg.cmd.getD f {}).busy = false →
      s.begun.queueCommand m f op k = v → runHost (fun t => t.qmgRow m f op (b2n rx) q) s = fin op (b2n rx) q v :=
    fun hop hw hfree hv => run_qmgRow hf hq hw ((qmgCommand_queue (s := s.begun) rx hfree hop hq).trans (congrArg (·, true) hv))
  have hline : ∀ {op : Nat} {v : State}, op = 1 ∨ op = 5 → q < 8192 → s.writes m a → (s.qmg.cmd.getD f {}).busy = false →
      s.begun.lineCommand m f op q = v → runHost (fun t => t.qmgRow m f op 2 q) s = fin op 2 q v :=
    fun hop hq' hw hfree hv => run_qmgRow hf hq hw ((qmgCommand_line (s := s.begun) hfree hop hq').trans (congrArg (·, true) hv))
  refine ⟨fun hw hfree => ⟨fun hdenied hinst => ?denied, fun hgranted => ⟨fun hstate hinst => ⟨fun hwhy => ?enable, fun hwhy => ?invalid,
    queueWhy_size⟩, fun hstate hbound => ?stop, fun hstate => ?stopBusy, fun hstate => ?resume, fun hstate hbound => ?reset,
    fun hstate hbme => ?resetBusy⟩, fun hq' => ?lines⟩,
    fun hstate => ⟨fun hquiet => ?stopped, fun hbusy => ?notYet⟩, fun hstate hquiet => ?resetDone⟩
  case denied =>
    exact ⟨hqueue (by omega) hw hfree (queueCommand_denied (s := s.begun) hinst hdenied),
      hqueue (by omega) hw hfree (queueCommand_denied (s := s.begun) hinst hdenied)⟩
  case enable =>
    exact hqueue (by omega) hw hfree ((queueCommand_enable (s := s.begun) hgranted hinst hstate).trans (if_neg (not_not.2 hwhy)))
  case invalid =>
    exact hqueue (by omega) hw hfree ((queueCommand_enable (s := s.begun) hgranted hinst hstate).trans (if_pos hwhy))
  case stop => exact hqueue (by omega) hw hfree (queueCommand_stop (s := s.begun) hgranted hstate hbound)
  case stopBusy => exact hqueue (by omega) hw hfree (queueCommand_stop_busy (s := s.begun) hgranted hstate)
  case resume => exact hqueue (by omega) hw hfree (queueCommand_resume (s := s.begun) hgranted hstate)
  case reset => exact hqueue (by omega) hw hfree (queueCommand_reset (s := s.begun) hgranted hbound hstate)
  case resetBusy => exact hqueue (by omega) hw hfree (queueCommand_reset_busy (s := s.begun) hgranted hstate hbme)
  case lines =>
    intro y r owner hinst hgranted
    refine ⟨fun hoff haddr hlink hstarted hroom => ?_, fun hoff haddr hlink hstarted hcls hfull => ?_, fun hqueues hrings => ?_,
      fun hused => ?_⟩
    · refine hline (.inl rfl) hq' hw hfree
        ((lineCommand_enable (s := s.begun) hinst hgranted hoff haddr hlink hstarted).trans (if_neg ?_))
      show ¬ (r.cls = 0 && (decide (512 ≤ s.hotLines (fun y => decide (s.lineFace y = f)))
        || decide ((s.inst r.inst).grant.hotSlots ≤ s.hotLines (fun y => decide (y.inst = r.inst))))) = true
      simp only [Bool.and_eq_true, Bool.or_eq_true, decide_eq_true_eq]
      omega
    · refine hline (.inl rfl) hq' hw hfree
        ((lineCommand_enable (s := s.begun) hinst hgranted hoff haddr hlink hstarted).trans (if_pos ?_))
      show (r.cls = 0 && (decide (512 ≤ s.hotLines (fun y => decide (s.lineFace y = f)))
        || decide ((s.inst r.inst).grant.hotSlots ≤ s.hotLines (fun y => decide (y.inst = r.inst))))) = true
      rw [decide_eq_true hcls, decide_eq_true hfull]
      rfl
    · refine hline (.inr rfl) hq' hw hfree ((lineCommand_disable (s := s.begun) hinst hgranted).trans (if_neg ?_))
      simp only [Bool.or_eq_true, List.any_eq_true, Bool.and_eq_true, decide_eq_true_eq]
      rintro (⟨p, hp, hstate, hp'⟩ | ⟨p, hp, hstate, hp'⟩)
      · exact hqueues p hp hstate hp'
      · exact hrings p hp hstate hp'
    · refine hline (.inr rfl) hq' hw hfree ((lineCommand_disable (s := s.begun) hinst hgranted).trans (if_pos ?_))
      simp only [Bool.or_eq_true, List.any_eq_true, Bool.and_eq_true, decide_eq_true_eq]
      exact .inl hused
  case stopped =>
    exact runHostBlock_effect (f := fun t => t.queueStopped k) hreleased hready (queueStopped_quiet (s := s.begun) hstate hquiet)
  case notYet =>
    exact runHostBlock_effect (f := fun t => t.queueStopped k) hreleased hready (queueStopped_waits (s := s.begun) hbusy)
  case resetDone =>
    exact runHostBlock_effect (f := fun t => t.queueResetDone k) hreleased hready (queueResetDone_quiet (s := s.begun) hstate hquiet)

end Sys2Proof.Machine
end

