-- ==== Sys2Proof/Proofs/QueueWork.lean ====
section

/-! O39: polls, fetches, items and regions of queues (spec/07 R200-R219). -/

namespace Sys2Proof.Machine

theorem dmaFace_setDmaFace_self {s : State} {f : Nat} (hf : f < s.dma.faces.length) (x : DmaFace) :
    (s.setDmaFace f x).dmaFace f = x := by
  rw [State.dmaFace, State.setDmaFace, setNth, List.getD_eq_getElem?_getD, List.getElem?_set_self hf, Option.getD_some]

@[simp] theorem dbLine_setLine_self (s : State) (l : Nat) (x : DbLine) : (s.setLine l x).dbLine l = x := by
  rw [State.dbLine, State.setLine, mapGet_mapSet_self]

/-! ### Polls -/

/-- The read of a line's poll (spec/07 R216). -/
def State.pollRead (s : State) (l : Nat) : HostRead :=
  { id := s.dma.nextId, req := .poll l, face := s.lineFace (s.dbLine l), link := (s.dbLine l).link, pool := .htx
    fn := (s.dbLine l).fn, inst := (s.dbLine l).inst, gen := (s.inst (s.dbLine l).inst).gen, addr := (s.dbLine l).addr
    len := 64, ats := (s.dbLine l).ats, pasid := (s.dbLine l).pasid }

section
variable {s : State} {l : Nat}

/-- The outstanding read of a request that is neither data nor a flush. -/
def State.plainOut (s : State) (r : HostRead) : OutRead :=
  { tag := s.freeTag r.face r.link, rd := { r with stage := ((s.readSpan r).2 + (s.readSpan r).1 % 64 + 63) / 64 * 64 }
    issued := s.now, t := s.linkT r.face r.link, lead := 0, total := r.len }

/-- A read that is neither data nor a flush goes out: it is outstanding, counted, and its request is sent (spec/09 R261). -/
theorem issueRead_plain {r : HostRead} (hflush : r.req.isFlush = false) (hdata : r.req.isData = false) (addr : Nat) :
    ∃ t, EventFrame (s.setDmaFace r.face { s.dmaFace r.face with out := (s.dmaFace r.face).out ++ [s.plainOut r] }) t
      ∧ s.issueRead r addr = t.send (.hostRead r.face r.link (s.freeTag r.face r.link) r.fn
          (addr / 4096 * 4096 + (s.readSpan r).1 % 4096) (s.readSpan r).2 (t.readBe r).1 (t.readBe r).2
          { translated := r.ats, pasid := r.pasid }) := by
  refine ⟨_, (EventFrame.count _ (dmaCounter r.face 0) 1).trans (EventFrame.count _ (dmaCounter r.face 1) (s.readSpan r).2), ?_⟩
  unfold State.issueRead State.plainOut
  simp only [hflush, hdata, Bool.false_and, Bool.false_eq_true, if_false]

theorem pollRead_span (haddr : (s.dbLine l).addr % 64 = 0) : s.readSpan (s.pollRead l) = ((s.dbLine l).addr, 64) := by
  have hspan : s.readSpan (s.pollRead l) =
      ((s.dbLine l).addr / 4 * 4, ((s.dbLine l).addr + 64 + 3) / 4 * 4 - (s.dbLine l).addr / 4 * 4) := rfl
  rw [hspan]
  refine Prod.ext ?_ ?_
  · show (s.dbLine l).addr / 4 * 4 = (s.dbLine l).addr
    omega
  · show ((s.dbLine l).addr + 64 + 3) / 4 * 4 - (s.dbLine l).addr / 4 * 4 = 64
    omega

theorem pollRead_be (haddr : (s.dbLine l).addr % 64 = 0) (t : State) : t.readBe (s.pollRead l) = (15, 15) := by
  have hbe : t.readBe (s.pollRead l) =
      if (s.dbLine l).addr % 4 + 64 ≤ 4 then (2 ^ ((s.dbLine l).addr % 4 + 64) - 2 ^ ((s.dbLine l).addr % 4), 0)
      else (16 - 2 ^ ((s.dbLine l).addr % 4),
        if ((s.dbLine l).addr % 4 + 64) % 4 = 0 then 15 else 2 ^ (((s.dbLine l).addr % 4 + 64) % 4) - 1) := rfl
  rw [hbe, show (s.dbLine l).addr % 4 = 0 by omega]
  rfl

/-- A line whose poll may go out now (spec/07 R216, R217). -/
structure State.PollReady (s : State) (l : Nat) : Prop where
  due : s.pollDue l (s.dbLine l) = true
  first : ∀ p ∈ s.qmg.lines, p.1 ≠ l → s.lineFace p.2 = s.lineFace (s.dbLine l) → s.pollDue p.1 p.2 = true →
    pollBefore p (l, s.dbLine l) = false
  few : s.pollsOut (s.lineFace (s.dbLine l)) < 512
  rate : ((s.qmg.pollTicks.getD (s.lineFace (s.dbLine l)) []).filter (fun t => decide (s.now < t + 1000))).length
    < s.fld Reg.qmgPollFace [s.lineFace (s.dbLine l)] 0 9
  spaced : ∀ t ∈ ((s.qmg.pollTicks.getD (s.lineFace (s.dbLine l)) []).filter (fun t => decide (s.now < t + 1000))).head?,
    t + 2 ≤ s.now
  room : s.roomFor (s.lineFace (s.dbLine l)) (s.dbLine l).link .htx true 64 = true

/-- What is noted of a poll that has gone out, leaving `t` (spec/07 R216, R217). -/
def State.pollNoted (s t : State) (l : Nat) : State :=
  let t := { t with dma := { t.dma with nextId := t.dma.nextId + 1 } }
  let t := t.count (pollCounter (s.lineFace (s.dbLine l)) 0) 1
  let t := if (s.dbLine l).due + s.pollInterval (s.dbLine l) (s.dbLine l).shift < s.now then
    t.count (pollCounter (s.lineFace (s.dbLine l)) 1) 1 else t
  let recent := (s.qmg.pollTicks.getD (s.lineFace (s.dbLine l)) []).filter (fun t => decide (s.now < t + 1000))
  let t := { t with qmg := { t.qmg with pollTicks := setNth t.qmg.pollTicks (s.lineFace (s.dbLine l)) (s.now :: recent) } }
  t.setLine l { t.dbLine l with issued := s.now, outstanding := true }

theorem pollIssue_sends (h : s.PollReady l) (hats : (s.dbLine l).ats = false) :
    s.pollIssue l = s.pollNoted (s.issueRead (s.pollRead l) (s.dbLine l).addr) l := by
  have hfirst : s.qmg.lines.any (fun p => decide (p.1 ≠ l) && decide (s.lineFace p.2 = s.lineFace (s.dbLine l))
      && s.pollDue p.1 p.2 && pollBefore p (l, s.dbLine l)) = false := by
    refine List.any_eq_false.2 fun p hp => ?_
    simp only [Bool.and_eq_true, decide_eq_true_eq, not_and, Bool.not_eq_true]
    exact fun ⟨⟨hne, hface⟩, hdue⟩ => h.first p hp hne hface hdue
  have haddr : ∀ g, s.writeAddr (s.lineFace (s.dbLine l)) (s.dbLine l).link .htx (s.dbLine l).fn (s.dbLine l).inst g (pollXlateId l)
      (s.dbLine l).addr (s.dbLine l).ats (s.dbLine l).pasid = (s, some ((s.dbLine l).addr, true)) := fun g => by rw [hats]; rfl
  refine (if_neg (by rw [h.due]; exact Bool.false_ne_true)).trans ((if_neg (Bool.eq_false_iff.1 hfirst)).trans
    ((if_neg (Nat.not_le.2 h.few)).trans ((if_neg (Nat.not_le.2 h.rate)).trans ((if_neg ?_).trans ((if_neg ?_).trans ?_)))))
  · have hspaced := h.spaced
    revert hspaced
    generalize (s.qmg.pollTicks.getD (s.lineFace (s.dbLine l)) []).filter (fun t => decide (s.now < t + 1000)) = recent
    intro hspaced
    cases recent with
    | nil => exact Bool.false_ne_true
    | cons t ts => exact fun hlt => Nat.not_lt.2 (hspaced t rfl) (of_decide_eq_true hlt)
  · rw [h.room]
    exact Bool.false_ne_true
  · extract_lets r
    rw [haddr]
    refine (if_neg ?_).trans rfl
    cases s.atsFind (s.lineFace (s.dbLine l)) (s.dbLine l).fn (s.dbLine l).pasid (s.dbLine l).addr <;> simp [hats]

theorem pollNoted_frame (s t : State) (l : Nat) : (s.pollNoted t l).dma.faces = t.dma.faces ∧ OutKept t (s.pollNoted t l)
    ∧ (s.pollNoted t l).dbLine l = { t.dbLine l with issued := s.now, outstanding := true } := by
  let v : State := { t with dma := { t.dma with nextId := t.dma.nextId + 1 } }
  have hframe := (EventFrame.count v (pollCounter (s.lineFace (s.dbLine l)) 0) 1).trans
    (EventFrame.ite ((s.dbLine l).due + s.pollInterval (s.dbLine l) (s.dbLine l).shift < s.now)
      (EventFrame.count _ (pollCounter (s.lineFace (s.dbLine l)) 1) 1) (EventFrame.refl _))
  have hout := (OutKept.count v (pollCounter (s.lineFace (s.dbLine l)) 0) 1).trans
    (OutKept.ite ((s.dbLine l).due + s.pollInterval (s.dbLine l) (s.dbLine l).shift < s.now)
      (OutKept.count _ (pollCounter (s.lineFace (s.dbLine l)) 1) 1) (OutKept.of_eq rfl))
  have hfaces := congrArg Dma.faces hframe.dma
  refine ⟨hfaces, hout, ?_⟩
  unfold State.pollNoted
  rw [dbLine_setLine_self]
  exact congrArg (fun x : DbLine => { x with issued := s.now, outstanding := true })
    (congrArg (fun g : Qmg => mapGet ({} : DbLine) g.lines l) hframe.qmg)

/-- A line's poll goes out with a tag, and the line waits for it (spec/07 R216). -/
theorem pollIssue_issues (hf : s.lineFace (s.dbLine l) < s.dma.faces.length) (h : s.PollReady l) (hats : (s.dbLine l).ats = false)
    (haddr : (s.dbLine l).addr % 64 = 0) :
    ((s.pollIssue l).dmaFace (s.lineFace (s.dbLine l))).out =
        (s.dmaFace (s.lineFace (s.dbLine l))).out ++ [s.plainOut (s.pollRead l)]
      ∧ .hostRead (s.lineFace (s.dbLine l)) (s.dbLine l).link (s.freeTag (s.lineFace (s.dbLine l)) (s.dbLine l).link)
          (s.dbLine l).fn (s.dbLine l).addr 64 15 15 { pasid := (s.dbLine l).pasid } ∈ (s.pollIssue l).out
      ∧ (s.pollIssue l).dbLine l = { s.dbLine l with issued := s.now, outstanding := true } := by
  obtain ⟨t, hframe, hissue⟩ := issueRead_plain (s := s) (r := s.pollRead l) rfl rfl (s.dbLine l).addr
  rw [pollIssue_sends h hats, hissue]
  rw [pollRead_span haddr, pollRead_be haddr] at hissue ⊢
  obtain ⟨hfaces, hout, hline⟩ := pollNoted_frame s (t.send (.hostRead (s.pollRead l).face (s.pollRead l).link
    (s.freeTag (s.pollRead l).face (s.pollRead l).link) (s.pollRead l).fn
    ((s.dbLine l).addr / 4096 * 4096 + (s.dbLine l).addr % 4096) 64 15 15
    { translated := (s.pollRead l).ats, pasid := (s.pollRead l).pasid })) l
  refine ⟨?_, hout.mem ?_, ?_⟩
  · rw [State.dmaFace, hfaces, send_dma, hframe.dma]
    exact congrArg DmaFace.out (dmaFace_setDmaFace_self hf _)
  · have hsent : (s.dbLine l).addr / 4096 * 4096 + (s.dbLine l).addr % 4096 = (s.dbLine l).addr := by omega
    rw [hsent, show (s.pollRead l).ats = false from hats]
    exact mem_send t _
  · rw [hline]
    exact congrArg (fun g : Qmg => { mapGet ({} : DbLine) g.lines l with issued := s.now, outstanding := true }) hframe.qmg

theorem pollIssue_idle (h : s.pollDue l (s.dbLine l) = false) : s.pollIssue l = s := if_pos (by rw [h]; rfl)

end

/-! ### Fetches -/

section
variable {s : State} {f k : Nat} {x : Queue}

/-- The queues that a face's scheduler of one direction serves (spec/07 R219). -/
def State.roundQueues (s : State) (f : Nat) (rx : Bool) : List Nat :=
  (s.qmg.queues.filter (fun p => decide ((16384 ≤ p.1) = rx) && decide (s.instFace p.2.ctx.inst = some f))).map (fun p => p.1)

theorem queue_of_one (hone : s.qmg.queues = [(k, x)]) : s.queue k = x := by
  rw [State.queue, hone]
  simp [mapGet]

theorem fetchRound_none {rx : Bool} (h : s.roundQueues f rx = []) : s.fetchRound f rx = s := by
  unfold State.roundQueues at h
  unfold State.fetchRound
  rw [h]
  rfl

/-- The round of a scheduler that serves one queue of weight 1. -/
theorem fetchRound_one {rx : Bool} (h : s.roundQueues f rx = [k]) (hx : s.queue k = x) (hweight : x.ctx.weight = 1) :
    s.fetchRound f rx = if s.fetchable x then s.fetchDescs k x.visit else s := by
  unfold State.roundQueues at h
  unfold State.fetchRound
  simp only [h, List.map_cons, List.map_nil, hx, hweight, List.foldl_cons, List.foldl_nil]
  simp [List.range_succ, hx, hweight]
  by_cases hfetch : s.fetchable x = true <;> simp [hfetch]

theorem mem_mapSet {α : Type} [DecidableEq α] {d : α} {m : AMap α} {q : Nat} {v : α} {p : Nat × α} (h : p ∈ mapSet d m q v) :
    p = (q, v) ∨ p ∈ m := by
  unfold mapSet at h
  split at h
  · exact .inr (List.mem_filter.1 h).1
  · exact mem_mapPut h

theorem setQueue_keys (hone : s.qmg.queues = [(k, x)]) {t : State} (ht : t.qmg = s.qmg) (v : Queue) :
    ∀ p ∈ (t.setQueue k v).qmg.queues, p.1 = k := by
  intro p hp
  rw [show (t.setQueue k v).qmg.queues = mapSet {} t.qmg.queues k v from rfl, ht, hone] at hp
  rcases mem_mapSet hp with rfl | hp
  · rfl
  · rw [List.mem_singleton.1 hp]

theorem fetchDescs_keys (hone : s.qmg.queues = [(k, x)]) (n : Nat) : ∀ p ∈ (s.fetchDescs k n).qmg.queues, p.1 = k := by
  have hasked : ∀ (l : List (Nat × Nat)) (r : State → Nat × Nat → HostRead), (l.foldl (fun t q => t.askRead (r t q)) s).qmg = s.qmg :=
    fun l r => foldl_keeps (R := fun t u : State => u.qmg = t.qmg) (f := fun t q => t.askRead (r t q)) (fun _ => rfl)
      (fun h h' => Eq.trans h' h) (fun _ _ => rfl) l s
  exact setQueue_keys hone (hasked _ _) _

/-- Both rounds of a face whose one queue has weight 1 (spec/07 R213, R219). -/
theorem fetchRounds_one (hone : s.qmg.queues = [(k, x)]) (hface : s.instFace x.ctx.inst = some f) (hweight : x.ctx.weight = 1) :
    (s.fetchRound f false).fetchRound f true = if s.fetchable x then s.fetchDescs k x.visit else s := by
  by_cases hrx : 16384 ≤ k
  · have hnone : s.roundQueues f false = [] := by simp [State.roundQueues, hone, hrx]
    have hserved : s.roundQueues f true = [k] := by simp [State.roundQueues, hone, hrx, hface]
    rw [fetchRound_none hnone, fetchRound_one hserved (queue_of_one hone) hweight]
  · have hserved : s.roundQueues f false = [k] := by simp [State.roundQueues, hone, Nat.not_le.1 hrx, hface]
    rw [fetchRound_one hserved (queue_of_one hone) hweight]
    have hnone : ∀ t : State, (∀ p ∈ t.qmg.queues, p.1 = k) → t.roundQueues f true = [] := by
      intro t ht
      rw [State.roundQueues, List.map_eq_nil_iff, List.filter_eq_nil_iff]
      intro p hp
      simp [ht p hp, hrx]
    refine fetchRound_none (hnone _ ?_)
    split
    · exact fetchDescs_keys hone _
    · rw [hone]
      exact fun p hp => by rw [List.mem_singleton.1 hp]

end

/-! ### Items -/

section
variable {s : State} {k : Nat}

theorem itemHandoff_next {i : TxItem} (hbound : s.boundCtx k = none) (hnext : (s.queue k).nextItem = some i) :
    s.itemHandoff k = s.handFrames k i id := by
  unfold State.itemHandoff
  rw [hbound]
  simp only [hnext]

theorem itemHandoff_none (hbound : s.boundCtx k = none) (hnext : (s.queue k).nextItem = none) : s.itemHandoff k = s := by
  unfold State.itemHandoff
  rw [hbound]
  simp only [hnext]

theorem itemComplete_first {i : TxItem} {is : List TxItem} (hbound : s.boundCtx k = none) (hitems : (s.queue k).items = i :: is)
    (hdone : i.phase = .ended ∨ (i.phase = .handed ∧ i.toAdmit = 0 ∧ i.tsWait = false)) : s.itemComplete k =
      (s.setQueue k { s.queue k with items := (s.queue k).items.filter (fun j => decide (j.first ≠ i.first)) }).entryReady
        (s.queue k).ctx.cq (txEntry k (s.queue k) i) := by
  have hfind : (s.queue k).items.find? (fun i => i.phase = .ended || (i.phase = .handed && decide (i.toAdmit = 0) && !i.tsWait))
      = some i := by
    rw [hitems]
    refine List.find?_cons_of_pos ?_
    simpa [and_assoc] using hdone
  unfold State.itemComplete
  rw [hbound]
  show s.completeItem k = _
  unfold State.completeItem
  simp only [hfind]

theorem regionClose_closed {q : Nat} {r : RxRegion} (h : (s.queue (16384 + q)).regions.find? (fun r => r.closed && decide (r.open_ = 0))
    = some r) : s.regionClose q =
      (s.setQueue (16384 + q) { s.queue (16384 + q) with
        regions := (s.queue (16384 + q)).regions.filter (fun t => decide (t.count ≠ r.count)) }).entryReady
        (s.queue (16384 + q)).ctx.cq
        { cookie := r.cookie, count := r.count, queue := q, rx := true, status := 6, bytes := r.next
          inst := (s.queue (16384 + q)).ctx.inst, gen := (s.inst (s.queue (16384 + q)).ctx.inst).gen } := by
  unfold State.regionClose
  simp only [h]
  rfl

theorem regionClose_none {q : Nat} (h : (s.queue (16384 + q)).regions.find? (fun r => r.closed && decide (r.open_ = 0)) = none) :
    s.regionClose q = s := by
  unfold State.regionClose
  simp only [h]

end

theorem isPoll_plain {r : Requester} (h : r.isPoll = true) : r.isXlate = false ∧ r.isFlush = false := by
  cases r with
  | poll l => exact ⟨rfl, rfl⟩
  | _ => exact absurd h Bool.false_ne_true

/-- Settles O39: the rule of each command of the queues. -/
theorem queuesWork : Obligations.QueuesWork := by
  intro s hreleased hready
  refine ⟨fun l => ?polls, fun f tag o bs hout hactive => ⟨fun hpoll hbs hlen => ?returned, fun hother => ?other⟩,
    fun f k x hone hface hweight => ?fetch, fun k => ?items, fun q => ?regions⟩
  case polls =>
    intro x f recent
    refine ⟨fun hidle => runHostBlock_effect (f := fun t => t.pollIssue l) hreleased hready (pollIssue_idle (s := s.begun) hidle),
      fun hdue hf hlen hats haddr _ hfirst hfew hrate hspaced hroom => ?_⟩
    have hpoll : s.begun.PollReady l := ⟨hdue, hfirst, hfew, hrate, hspaced, hroom⟩
    obtain ⟨hout, hsent, hline⟩ := pollIssue_issues (s := s.begun) (by rw [show s.begun.dma.faces.length = 4 from hlen]; exact hf)
      hpoll hats haddr
    exact ⟨s.begun.pollIssue l, s.begun.plainOut (s.begun.pollRead l),
      runHostBlock_effect (f := fun t => t.pollIssue l) hreleased hready rfl, hout, rfl, rfl, rfl, rfl, rfl, hsent, hline⟩
  case returned =>
    have htag : s.begun.isPollTag f tag = true := by
      rw [State.isPollTag, show s.begun.outRead f tag = some o from hout]
      exact hpoll
    exact runHost_effect (f := fun t => if t.isPollTag f tag then t.doCompletion f tag .ok bs else t) hreleased ((if_pos htag).trans
      ((doCompletion_active (s := s.begun) hactive).trans
        (congrArg endOne (completion_done (s := s.begun) hout (isPoll_plain hpoll).1 (isPoll_plain hpoll).2 hbs hlen))))
  case other =>
    have htag : s.begun.isPollTag f tag = false := by
      rw [State.isPollTag, show s.begun.outRead f tag = some o from hout]
      exact hother
    exact runHost_effect (f := fun t => if t.isPollTag f tag then t.doCompletion f tag .ok bs else t) hreleased
      (if_neg (Bool.eq_false_iff.1 htag))
  case fetch =>
    have hrounds := fetchRounds_one (s := s.begun) hone hface hweight
    exact ⟨fun hfetch => runHostBlock_effect (f := fun t => (t.fetchRound f false).fetchRound f true) hreleased hready
        (hrounds.trans (if_pos hfetch)),
      fun hidle => runHostBlock_effect (f := fun t => (t.fetchRound f false).fetchRound f true) hreleased hready
        (hrounds.trans (if_neg (Bool.eq_false_iff.1 hidle)))⟩
  case items =>
    intro x hbound
    exact ⟨fun i hnext => runHostBlock_effect (f := fun t => t.itemHandoff k) hreleased hready
        (itemHandoff_next (s := s.begun) hbound hnext),
      fun hnext => runHostBlock_effect (f := fun t => t.itemHandoff k) hreleased hready
        (itemHandoff_none (s := s.begun) hbound hnext),
      fun i is hitems hdone => runHostBlock_effect (f := fun t => t.itemComplete k) hreleased hready
        (itemComplete_first (s := s.begun) hbound hitems hdone)⟩
  case regions =>
    exact ⟨fun r hfind => runHostBlock_effect (f := fun t => t.regionClose q) hreleased hready
        (regionClose_closed (s := s.begun) hfind),
      fun hfind => runHostBlock_effect (f := fun t => t.regionClose q) hreleased hready
        (regionClose_none (s := s.begun) hfind)⟩

end Sys2Proof.Machine
end

