-- ==== Sys2Proof/Proofs/CompletionRings.lean ====
section

/-! O40: completion entries, the corbel, moderation and ring commands (spec/08 R231-R255). -/

namespace Sys2Proof.Machine

@[simp] theorem ring_setRing_self (s : State) (r : Nat) (x : CompRing) : (s.setRing r x).ring r = x := by
  rw [State.ring, State.setRing, mapGet_mapSet_self]

theorem setRing_setRing (s : State) (r : Nat) {x : CompRing} (hx : x ≠ {}) (y : CompRing) :
    (s.setRing r x).setRing r y = s.setRing r y := by
  simp only [State.setRing, mapSet_mapSet _ _ hx]

/-! ### Entries -/

theorem emitWrite_qmg (s : State) (f l a k i addr : Nat) (attr : ReqAttr) (bytes : List Byte) :
    (s.emitWrite f l a k i addr attr bytes).qmg = s.qmg :=
  ((EventFrame.count _ (dmaCounter f 2) 1).trans (EventFrame.count _ (dmaCounter f 3) bytes.length)).qmg

section
variable {s : State} {r : Nat} {e : CqEntry}

/-- What an entry written to a ring whose addresses are not translated leaves (spec/08 R231-R233). -/
def State.wroteEntry (s : State) (r : Nat) (e : CqEntry) : State :=
  ((s.emitWrite (s.ringFace (s.ring r)) (s.ring r).ctx.link e.chan (s.ring r).fn (s.ring r).ctx.inst
    ((s.ring r).ctx.ring + 32 * ((s.ring r).w % (s.ring r).ctx.m)) { pasid := (s.ring r).ctx.pasid }
    (entryBytes e (s.ring r).w (s.ring r).ctx.m)).setRing r
      { s.ring r with w := ((s.ring r).w + 1) % 2 ^ 32 }).count (cqCounter (s.ringFace (s.ring r)) 0) 1

theorem writeEntry_plain (hats : (s.ring r).ctx.ats = false) : s.writeEntry r e = (s.wroteEntry r e, .yes) := by
  have hring : ∀ f l a k i addr attr bytes, (s.emitWrite f l a k i addr attr bytes).ring r = s.ring r :=
    fun f l a k i addr attr bytes => by rw [State.ring, emitWrite_qmg, State.ring]
  have haddr : ∀ f p g, s.writeAddr f (s.ring r).ctx.link p (s.ring r).fn (s.ring r).ctx.inst g (ringXlateId r)
      ((s.ring r).ctx.ring + 32 * ((s.ring r).w % (s.ring r).ctx.m)) false (s.ring r).ctx.pasid =
        (s, some ((s.ring r).ctx.ring + 32 * ((s.ring r).w % (s.ring r).ctx.m), true)) := fun f p g => rfl
  unfold State.writeEntry State.wroteEntry
  simp only [hats, haddr, hring]

theorem placeEntry_at {rest : List CqEntry} (hready : (s.ring r).ready = e :: rest) : s.placeEntry r =
    (if s.entryStale (s.ring r) e then (s.setRing r { s.ring r with ready := rest }).count (cqCounter (s.ringFace (s.ring r)) 6) 1
      else if (s.ring r).state = .disabled || ((s.ring r).state = .error && e.status = stAborted) then
        (s.setRing r { s.ring r with ready := rest }).discardEntry r 1
      else if s.ringOpen (s.ring r) && !(s.ring r).full && (s.ring r).corbel = [] && (s.ring r).waiting = [] then
        match (s.setRing r { s.ring r with ready := rest }).writeEntry r e with
        | (u, .yes) => u
        | (u, .later) => u.setRing r { u.ring r with ready := e :: rest }
        | (u, .denied) => (u.holdEntry r e).ringError r 3
      else (s.setRing r { s.ring r with ready := rest }).holdEntry r e).cqCheck r := by
  unfold State.placeEntry
  simp only [hready] <;> rfl

theorem placeEntry_stale {rest : List CqEntry} (hready : (s.ring r).ready = e :: rest) (h : s.entryStale (s.ring r) e = true) :
    s.placeEntry r =
      ((s.setRing r { s.ring r with ready := rest }).count (cqCounter (s.ringFace (s.ring r)) 6) 1).cqCheck r :=
  (placeEntry_at hready).trans (congrArg (State.cqCheck · r) (if_pos h))

theorem placeEntry_disabled {rest : List CqEntry} (hready : (s.ring r).ready = e :: rest)
    (hfresh : s.entryStale (s.ring r) e = false) (hstate : (s.ring r).state = .disabled) :
    s.placeEntry r = ((s.setRing r { s.ring r with ready := rest }).discardEntry r 1).cqCheck r :=
  (placeEntry_at hready).trans (congrArg (State.cqCheck · r) ((if_neg (Bool.eq_false_iff.1 hfresh)).trans
    (if_pos (by rw [hstate]; rfl))))

/-- A running ring with nothing held: an entry is written where the ring has room, and held where it has none. -/
theorem placeEntry_running {rest : List CqEntry} (hready : (s.ring r).ready = e :: rest)
    (hfresh : s.entryStale (s.ring r) e = false) (hstate : (s.ring r).state = .running) (hcorbel : (s.ring r).corbel = [])
    (hwaiting : (s.ring r).waiting = []) :
    ((s.ring r).full = false → s.fnOpen (s.ring r).fn = true → ∀ u,
        (s.setRing r { s.ring r with ready := rest }).writeEntry r e = (u, .yes) → s.placeEntry r = u.cqCheck r)
      ∧ ((s.ring r).full = true → s.placeEntry r = ((s.setRing r { s.ring r with ready := rest }).holdEntry r e).cqCheck r) := by
  have hlive : ((s.ring r).state = .disabled || ((s.ring r).state = .error && e.status = stAborted)) = false := by
    rw [hstate]; rfl
  refine ⟨fun hroom hopen u hwrote => ?_, fun hfull => ?_⟩
  · have hgo : (s.ringOpen (s.ring r) && !(s.ring r).full && (s.ring r).corbel = [] && (s.ring r).waiting = []) = true := by
      rw [State.ringOpen, hstate, hopen, hroom, hcorbel, hwaiting]; rfl
    rw [placeEntry_at hready, if_neg (Bool.eq_false_iff.1 hfresh), if_neg (Bool.eq_false_iff.1 hlive), if_pos hgo, hwrote]
  · have hstop : (s.ringOpen (s.ring r) && !(s.ring r).full && (s.ring r).corbel = [] && (s.ring r).waiting = []) = false := by
      rw [hfull, Bool.not_true, Bool.and_false, Bool.false_and, Bool.false_and]
    rw [placeEntry_at hready, if_neg (Bool.eq_false_iff.1 hfresh), if_neg (Bool.eq_false_iff.1 hlive),
      if_neg (Bool.eq_false_iff.1 hstop)]

/-- The first entries of a ring always find their share of the corbel (spec/08 R240). -/
theorem holdEntry_first (hcorbel : (s.ring r).corbel = []) (hwaiting : (s.ring r).waiting = []) (hcap : 0 < (s.ring r).ctx.corbelCap) :
    s.holdEntry r e = s.toCorbel r e := by
  refine if_pos ?_
  rw [State.corbelGrants, hcorbel, hwaiting]
  simp [hcap]

theorem placeEntry_none (hready : (s.ring r).ready = []) : s.placeEntry r = s := by
  unfold State.placeEntry
  simp only [hready]

/-! ### The corbel and the timer -/

theorem drainRing_running (hstate : (s.ring r).state = .running) {t : State}
    (hloop : s.drainLoop r ((s.ring r).corbel.length + (s.ring r).waiting.length + 1) = t)
    (hnone : ∀ p ∈ t.qmg.rings, p.2.waiting = []) : s.drainRing r = t.updExhausted.cqCheck r := by
  have hfold : ∀ (l : AMap CompRing), (∀ p ∈ l, p.2.waiting = []) → ∀ u : State,
      l.foldl (fun t p => if p.2.waiting ≠ [] then t.admitWaiting p.1 p.2.waiting.length else t) u = u := by
    intro l
    induction l with
    | nil => exact fun _ _ => rfl
    | cons p l ih =>
      intro h u
      have hp : (if p.2.waiting ≠ [] then u.admitWaiting p.1 p.2.waiting.length else u) = u :=
        if_neg (not_not.2 (h p (List.mem_cons_self ..)))
      rw [List.foldl_cons, hp]
      exact ih (fun q hq => h q (List.mem_cons_of_mem _ hq)) u
  unfold State.drainRing
  simp only [hstate, reduceCtorEq, if_false, hloop, hfold _ hnone]

theorem drainLoop_empty (n : Nat) (hcorbel : (s.ring r).corbel = []) (hwaiting : (s.ring r).waiting = []) :
    s.drainLoop r (n + 1) = s := by
  rw [State.drainLoop, hwaiting]
  simp only [List.length_nil, State.admitWaiting, hcorbel]

theorem drainLoop_one (n : Nat) (hcorbel : (s.ring r).corbel = [e]) (hwaiting : (s.ring r).waiting = [])
    (hfresh : s.entryStale (s.ring r) e = false) (hopen : s.ringOpen (s.ring r) = true) (hroom : (s.ring r).full = false)
    {u : State} (hwrote : s.writeEntry r e = (u, .yes)) (hkept : (u.ring r).waiting = []) :
    s.drainLoop r (n + 2) = u.setRing r { u.ring r with corbel := [] } := by
  rw [State.drainLoop, hwaiting]
  simp only [List.length_nil, State.admitWaiting, hcorbel, hfresh, hopen, hroom, hwrote, Bool.not_true, Bool.or_self,
    Bool.false_eq_true, if_false]
  exact drainLoop_empty n (by rw [ring_setRing_self]) (by rw [ring_setRing_self]; exact hkept)

theorem wroteEntry_qmg : (s.wroteEntry r e).qmg =
    { s.qmg with rings := mapSet {} s.qmg.rings r { s.ring r with w := ((s.ring r).w + 1) % 2 ^ 32 } } := by
  unfold State.wroteEntry
  rw [(EventFrame.count _ _ _).qmg, State.setRing, emitWrite_qmg]

theorem wroteEntry_ring : (s.wroteEntry r e).ring r = { s.ring r with w := ((s.ring r).w + 1) % 2 ^ 32 } := by
  rw [State.ring, wroteEntry_qmg]
  exact mapGet_mapSet_self _ _ _ _

theorem coalesceExpiry_early {t : Nat} (htimer : (s.ring r).timerEnd = some t) (hearly : s.now < t) : s.coalesceExpiry r = s := by
  unfold State.coalesceExpiry
  rw [htimer]
  exact if_neg (Nat.not_le.2 hearly)

theorem coalesceExpiry_fires {t : Nat} (htimer : (s.ring r).timerEnd = some t) (hdue : t ≤ s.now)
    (hstate : (s.ring r).state = .running) (harmed : (s.ring r).armed = true) (hunread : (s.ring r).w ≠ (s.ring r).l) :
    s.coalesceExpiry r = (s.setRing r { s.ring r with armed := false, u := 0, timerEnd := none, f := (s.ring r).l }).fireRing
      (s.ring r) := by
  unfold State.coalesceExpiry
  rw [htimer]
  refine (if_pos hdue).trans ?_
  unfold State.cqCheck
  refine (if_neg (by simp [hstate, harmed, hunread])).trans (if_pos ?_)
  rw [htimer]
  simp [hdue]

end

/-! ### Ring commands -/

/-- What a write of a command to QMG_CQ_CMD of a face does, where the effect takes it. -/
theorem run_cqRow {s v : State} {m : Master} {g op r : Nat} (hg : g < 4) (hr : r < 8192)
    (hw : s.writes m (blockBase 6 + 0x1A0000 + 0x1000 * g)) (he : State.cqCommand m g op r s.begun = (v, true)) :
    runHost (fun t => t.cqRow m g op r) s =
      .next (s.close (m.logged (blockBase 6 + 0x1A0000 + 0x1000 * g) 4 (op + r * 8) v).settleSto) := by
  have hmod : r % 2 ^ 13 = r := Nat.mod_eq_of_lt hr
  refine runHost_effect (f := fun t => t.cqRow m g op r) hw.1.1 ?_
  have heff := access_eff ((begun_reaches s m _).2 hw.1) 4 (op + r * 8) (State.cqCommand m g op r) false (by rw [he])
  rw [State.cqRow, if_neg (by omega), hmod, heff, he]

section
variable {s : State} {m : Master} {g r : Nat} (hfree : (s.qmg.cqCmd.getD g {}).busy = false) (hjudge : s.ringJudge r ≤ 2051)
  (hgranted : s.cmdDenied m g (s.ringJudge r) = false)
include hfree hjudge hgranted

theorem cqCommand_enable (hstate : (s.ring r).state = .disabled) : State.cqCommand m g 1 r s =
    if s.cqWhy r (s.readCqCtx r) ≠ 0 then (s.endCq g 2 (s.cqWhy r (s.readCqCtx r)), true)
    else ((s.setRing r { state := .running, ctx := s.readCqCtx r }).endCq g 0 0, true) := by
  unfold State.cqCommand
  simp only [hfree, Nat.not_lt.2 hjudge, hgranted, hstate, ne_eq, not_true, decide_false, Bool.false_and, Bool.false_eq_true,
    if_false, if_true]

theorem cqCommand_disable_used (hstate : (s.ring r).state ≠ .disabled)
    (hused : (s.qmg.queues.any (fun p => decide (p.2.state ≠ .disabled) && decide (p.2.ctx.cq = r))) = true) :
    State.cqCommand m g 5 r s = (s.endCq g 1 0, true) := by
  unfold State.cqCommand
  simp only [hfree, Nat.not_lt.2 hjudge, hgranted, hstate, hused, ne_eq, not_true, decide_false, Bool.and_false, Bool.false_eq_true,
    if_false, if_true, Nat.reduceEqDiff]

theorem cqCommand_disable (hstate : (s.ring r).state ≠ .disabled) (hwaiting : (s.ring r).waiting = [])
    (hunused : (s.qmg.queues.any (fun p => decide (p.2.state ≠ .disabled) && decide (p.2.ctx.cq = r))) = false) :
    State.cqCommand m g 5 r s = ((((s.discardEntry r ((s.ring r).ready.length + (s.ring r).corbel.length)).setRing r { s.ring r with
        ready := [], corbel := [], waiting := [], armed := false, u := 0, timerEnd := none, state := .disabled
        errCause := 0 }).updExhausted).endCq g 0 0, true) := by
  have hring : ∀ n, (s.discardEntry r n).ring r = s.ring r := fun n => by
    rw [State.ring, State.discardEntry, (EventFrame.count _ _ _).qmg, State.ring]
  unfold State.cqCommand
  simp only [hfree, Nat.not_lt.2 hjudge, hgranted, hstate, hunused, hwaiting, hring, List.length_nil, Nat.add_zero, ne_eq, not_true,
    decide_false, Bool.and_false, Bool.false_eq_true, if_false, if_true, Nat.reduceEqDiff]
  rfl

theorem cqCommand_disable_off (hstate : (s.ring r).state = .disabled) : State.cqCommand m g 5 r s = (s.endCq g 1 0, true) := by
  unfold State.cqCommand
  simp only [hfree, Nat.not_lt.2 hjudge, hgranted, hstate, ne_eq, not_true, decide_false, Bool.and_false, Bool.false_eq_true,
    if_false, if_true, Nat.reduceEqDiff]

end

/-- Settles O40: the rule of each command of a ring. -/
theorem completionRingsWork : Obligations.CompletionRingsWork := by
  intro s r hreleased hready x f
  have hplace : ∀ {u : State}, s.begun.placeEntry r = u → runHostBlock 6 (fun t => t.placeEntry r) s = .next (s.close u.settleSto) :=
    fun h => runHostBlock_effect (f := fun t => t.placeEntry r) hreleased hready h
  have hdrain : ∀ {u : State}, s.begun.drainRing r = u → runHostBlock 6 (fun t => t.drainRing r) s = .next (s.close u.settleSto) :=
    fun h => runHostBlock_effect (f := fun t => t.drainRing r) hreleased hready h
  refine ⟨fun e rest hfirst => ⟨fun hstale => ?stale, fun hfresh hstate => ?disabled,
    fun hfresh hstate hopen hcorbel hwaiting hroom hats => ?written, fun hfresh hstate hcorbel hwaiting hfull hcap => ?held⟩,
    fun hnone => hplace (placeEntry_none (s := s.begun) hnone), fun hwait hstate hwaiting => ⟨fun hcorbel => ?empty,
    fun e hcorbel hfresh hopen hroom hats => ?drained⟩, fun e htimer => ⟨fun hearly => ?early, fun hdue hstate harmed hunread => ?fires⟩,
    fun m g hg hr => ?commands⟩
  case stale => exact hplace (placeEntry_stale (s := s.begun) hfirst hstale)
  case disabled => exact hplace (placeEntry_disabled (s := s.begun) hfirst hfresh hstate)
  case written =>
    have hwrote := writeEntry_plain (s := s.begun.setRing r { x with ready := rest }) (r := r) (e := e)
      (by rw [ring_setRing_self]; exact hats)
    refine hplace (((placeEntry_running (s := s.begun) hfirst hfresh hstate hcorbel hwaiting).1
      (decide_eq_false (Nat.not_le.2 hroom)) hopen _ hwrote).trans ?_)
    unfold State.wroteEntry
    rw [ring_setRing_self]
    rfl
  case held =>
    refine hplace (((placeEntry_running (s := s.begun) hfirst hfresh hstate hcorbel hwaiting).2 (decide_eq_true hfull)).trans ?_)
    rw [holdEntry_first (by rw [ring_setRing_self]; exact hcorbel) (by rw [ring_setRing_self]; exact hwaiting)
      (by rw [ring_setRing_self]; exact hcap)]
    rfl
  case empty =>
    exact hdrain (drainRing_running (s := s.begun) hstate (drainLoop_empty _ hcorbel hwaiting) hwait)
  case drained =>
    have hwrote := writeEntry_plain (s := s.begun) (r := r) (e := e) hats
    have hring := wroteEntry_ring (s := s.begun) (r := r) (e := e)
    have hloop := drainLoop_one (s := s.begun) 0 hcorbel hwaiting hfresh
      (by rw [State.ringOpen, show (s.begun.ring r).state = .running from hstate]; exact hopen)
      (decide_eq_false (Nat.not_le.2 hroom)) hwrote (by rw [hring]; exact hwaiting)
    intro t
    have ht : t = s.begun.wroteEntry r e := congrArg Prod.fst hwrote
    rw [ht]
    refine hdrain (drainRing_running (s := s.begun) hstate ?_ fun p hp => ?_)
    · rw [show (s.begun.ring r).corbel = [e] from hcorbel, show (s.begun.ring r).waiting = [] from hwaiting]
      exact hloop
    · rcases mem_mapSet hp with rfl | hp
      · show ((s.begun.wroteEntry r e).ring r).waiting = []
        rw [hring]
        exact hwaiting
      · rw [wroteEntry_qmg] at hp
        rcases mem_mapSet hp with rfl | hp
        · exact hwaiting
        · exact hwait p hp
  case early =>
    exact runHostBlock_effect (f := fun t => t.coalesceExpiry r) hreleased hready
      (coalesceExpiry_early (s := s.begun) htimer hearly)
  case fires =>
    exact runHostBlock_effect (f := fun t => t.coalesceExpiry r) hreleased hready
      (coalesceExpiry_fires (s := s.begun) htimer hdue hstate harmed hunread)
  case commands =>
    intro a hw hfree hjudge hgranted c fin
    have hcmd : ∀ {op : Nat} {v : State}, State.cqCommand m g op r s.begun = (v, true) →
        runHost (fun t => t.cqRow m g op r) s = fin op v := fun he => run_cqRow hg hr hw he
    refine ⟨fun hstate => ⟨fun hwhy => ?_, fun hwhy => ?_, ?_⟩, fun hstate => ⟨fun hused => ?_, fun hunused hwaiting => ?_⟩⟩
    · exact hcmd ((cqCommand_enable (s := s.begun) hfree hjudge hgranted hstate).trans (if_neg (not_not.2 hwhy)))
    · exact hcmd ((cqCommand_enable (s := s.begun) hfree hjudge hgranted hstate).trans (if_pos hwhy))
    · exact hcmd (cqCommand_disable_off (s := s.begun) hfree hjudge hgranted hstate)
    · have hlive : (s.begun.ring r).state ≠ .disabled := by
        rw [show (s.begun.ring r).state = .running from hstate]; decide
      have hwaits : (s.begun.qmg.queues.any (fun p => decide (p.2.state ≠ .disabled) && decide (p.2.ctx.cq = r))) = true := by
        obtain ⟨p, hp, hqueue, hcq⟩ := hused
        exact List.any_eq_true.2 ⟨p, hp, by rw [decide_eq_true hqueue, decide_eq_true hcq]; rfl⟩
      exact hcmd (cqCommand_disable_used (s := s.begun) hfree hjudge hgranted hlive hwaits)
    · have hlive : (s.begun.ring r).state ≠ .disabled := by
        rw [show (s.begun.ring r).state = .running from hstate]; decide
      refine hcmd ((cqCommand_disable (s := s.begun) hfree hjudge hgranted hlive hwaiting ?_))
      refine List.any_eq_false.2 fun p hp => ?_
      simp only [Bool.and_eq_true, decide_eq_true_eq, not_and]
      exact hunused p hp

end Sys2Proof.Machine
end

