-- ==== Sys2Proof/Proofs/Instances.lean ====
section

/-! O41: commands over tenants and managers and the end of a reset sequence (spec/10 R288-R298). -/

namespace Sys2Proof.Machine

/-! ### The way of a command -/

/-- A write of a command to IVM_CMD of a face: the effect it has, and the log where the effect takes it. -/
theorem run_ivmRow {s v : State} {m : Master} {f op i : Nat} {b : Bool} (hf : f < 4) (hi : i < 2052)
    (hw : s.writes m (ivmCmdAddr f)) (he : State.ivmCommand m f op i s.begun = (v, b)) :
    runHost (fun t => t.ivmRow m f op i) s =
      .next (s.close (if b then m.logged (ivmCmdAddr f) 4 (ivmCmdWord op i) v else v).settleSto) := by
  have hmod : i % 4096 = i := Nat.mod_eq_of_lt (by omega)
  refine runHost_effect (f := fun t => t.ivmRow m f op i) hw.1.1 ?_
  rw [State.ivmRow, if_neg (by omega), hmod, access_reaches ((begun_reaches s m _).2 hw.1), he]

section
variable {s : State} {m : Master} {f op i : Nat}

/-- Masters that may give no command of a face's set: other managers, and tenants (spec/10 R289). -/
def Master.foreign (m : Master) (f : Nat) : Bool :=
  match m with
  | .pf g => decide (g ≠ f)
  | .vf _ => true
  | .fw _ _ => false

theorem ivmCommand_busy (hbusy : (s.ivm.cmd.getD f {}).busy = true) : State.ivmCommand m f op i s = (s, false) := if_pos hbusy

theorem ivmCommand_denied (hfree : (s.ivm.cmd.getD f {}).busy = false) (hop : 1 ≤ op ∧ op ≤ 5)
    (h : m.foreign f = true ∨ (m.isFw = false ∧ op ≠ 2 ∧ op ≠ 3)) : State.ivmCommand m f op i s = (s.endIvm f 3 0, true) := by
  have hop' : (op = 0 || 5 < op) = false := by simp; omega
  have hdenied : (m.foreign f || (!m.isFw && op ≠ 2 && op ≠ 3)) = true := by
    rcases h with h | ⟨hfw, h2, h3⟩
    · rw [h]; rfl
    · simp [hfw, h2, h3]
  exact (if_neg (Bool.eq_false_iff.1 hfree)).trans ((if_neg (Bool.eq_false_iff.1 hop')).trans (if_pos hdenied))

/-- What a granted command does, by its op (spec/10 R288). -/
def State.ivmDo (s : State) (f op i : Nat) : State :=
  match op with
  | 1 => s.ivmCreate f i
  | 2 => s.ivmStart f i
  | 3 => s.ivmReset f i
  | 4 => s.ivmRemove f i
  | _ => s.ivmShare f i

/-- A command of a master that may give it, over a tenant of the face or its manager. -/
theorem ivmCommand_granted (hfree : (s.ivm.cmd.getD f {}).busy = false) (hop : 1 ≤ op ∧ op ≤ 5) (hi : i < 2052)
    (hown : m.foreign f = false) (hfw : m.isFw = true ∨ op = 2 ∨ op = 3) (hface : s.instFace i = some f) :
    State.ivmCommand m f op i s =
      if 2048 ≤ i && (op = 1 || op = 4) then (s.endIvm f 2 6, true) else (s.ivmDo f op i, true) := by
  have hop' : (op = 0 || 5 < op) = false := by simp; omega
  have hgranted : (m.foreign f || (!m.isFw && op ≠ 2 && op ≠ 3)) = false := by
    rw [hown]
    rcases hfw with hfw | h2 | h3
    · simp [hfw]
    · simp [h2]
    · simp [h3]
  refine (if_neg (Bool.eq_false_iff.1 hfree)).trans ((if_neg (Bool.eq_false_iff.1 hop')).trans ((if_neg
    (Bool.eq_false_iff.1 hgranted)).trans ((if_neg (by omega)).trans ?_)))
  rw [hface]
  exact if_neg (not_not.2 rfl)

theorem foreign_fw (h : m.isFw = true) : m.foreign f = false := by
  cases m with
  | fw c e => rfl
  | pf g => exact absurd h Bool.false_ne_true
  | vf i => exact absurd h Bool.false_ne_true

theorem foreign_own (h : m.isFw = true ∨ m = .pf f) : m.foreign f = false := by
  rcases h with h | rfl
  · exact foreign_fw h
  · exact decide_eq_false (not_not.2 rfl)

/-! ### What the commands do -/

theorem ivmCreate_absent (hstate : (s.inst i).state = .absent) : s.ivmCreate f i =
    if s.grantWhy i (s.ivmArg f) ≠ 0 then s.endIvm f 2 (s.grantWhy i (s.ivmArg f))
    else ((s.setInst i { s.inst i with state := .created, prior := .created, grant := s.ivmArg f }).endIvm f 0 0).evalLines :=
  if_neg (not_not.2 hstate)

theorem ivmCreate_present (hstate : (s.inst i).state ≠ .absent) : s.ivmCreate f i = s.endIvm f 1 0 := if_pos hstate

theorem ivmStart_created (hstate : (s.inst i).state = .created) : s.ivmStart f i =
    ((s.setInst i { s.inst i with state := .started, prior := .started }).endIvm f 0 0).evalLines := if_neg (not_not.2 hstate)

theorem ivmStart_other (hstate : (s.inst i).state ≠ .created) : s.ivmStart f i = s.endIvm f 1 0 := if_pos hstate

theorem ivmRemove_present (hstate : (s.inst i).state = .created ∨ (s.inst i).state = .started) :
    s.ivmRemove f i = (s.startRemoval i).endIvm f 0 0 := by
  unfold State.ivmRemove
  rcases hstate with hstate | hstate <;> simp only [hstate]

theorem ivmRemove_resetting (hstate : (s.inst i).state = .resetting) :
    s.ivmRemove f i = (s.setInst i { s.inst i with removeNext := true }).endIvm f 0 0 := by
  unfold State.ivmRemove
  simp only [hstate]

theorem ivmShare_present (hstate : (s.inst i).state = .created ∨ (s.inst i).state = .started) :
    (s.grantWhy i (s.ivmArg f) ≠ 0 → s.ivmShare f i = s.endIvm f 2 (s.grantWhy i (s.ivmArg f)))
      ∧ (s.grantWhy i (s.ivmArg f) = 0 → s.shareWhy i (s.inst i).grant (s.ivmArg f) ≠ 0 →
        s.ivmShare f i = s.endIvm f 1 (s.shareWhy i (s.inst i).grant (s.ivmArg f)))
      ∧ (s.grantWhy i (s.ivmArg f) = 0 → s.shareWhy i (s.inst i).grant (s.ivmArg f) = 0 →
        s.queuesLost (s.inst i).grant (s.ivmArg f) = [] →
        s.ivmShare f i = ((s.setInst i { s.inst i with grant := s.ivmArg f }).endIvm f 0 0).evalLines) := by
  have hlive : ((s.inst i).state ≠ .created && (s.inst i).state ≠ .started) = false := by
    rcases hstate with hstate | hstate <;> rw [hstate] <;> rfl
  unfold State.ivmShare
  refine ⟨fun hwhy => ?_, fun hwhy haway => ?_, fun hwhy haway hlost => ?_⟩
  · exact (if_neg (Bool.eq_false_iff.1 hlive)).trans (if_pos hwhy)
  · exact (if_neg (Bool.eq_false_iff.1 hlive)).trans ((if_neg (not_not.2 hwhy)).trans (if_pos haway))
  · refine (if_neg (Bool.eq_false_iff.1 hlive)).trans ((if_neg (not_not.2 hwhy)).trans ((if_neg (not_not.2 haway)).trans ?_))
    rw [hlost]
    rfl

/-! ### The end of a reset sequence -/

theorem resetDone_waits (h : (s.inst i).resetting = false ∨ s.flushing i = true) : s.resetDone i = s := by
  refine if_pos ?_
  rcases h with h | h
  · rw [h]; rfl
  · rw [h, Bool.or_true]

section
variable (hresetting : (s.inst i).resetting = true) (hflushed : s.flushing i = false)
include hresetting hflushed

theorem resetDone_wrapped (hwrapped : (s.inst i).wrapped = true) (hnamed : s.namesInst i = true) : s.resetDone i = s.wrapWait i := by
  refine (if_neg ?_).trans (if_pos ?_)
  · rw [hresetting, hflushed]; exact Bool.false_ne_true
  · rw [hwrapped, hnamed]; rfl

theorem resetDone_returns (hwrapped : (s.inst i).wrapped = false) (hstate : (s.inst i).state = .resetting)
    (hstays : (s.inst i).removeNext = false) :
    let t := s.setInst i { state := (s.inst i).prior, prior := (s.inst i).prior, gen := (s.inst i).gen
                           grant := (s.inst i).grant, resets := ((s.inst i).resets + 1) % 2 ^ 48 }
    let u := (t.setFn i { t.fn i with flrBusy := false }).count (ivmCounter 0) 1
    s.resetDone i = ((u.raise 163 i (some i)).deliverHeld i).evalLines := by
  intro t u
  unfold State.resetDone
  simp only [hresetting, hflushed, hwrapped, hstate, hstays, Bool.not_true, Bool.or_self, Bool.false_and, Bool.false_eq_true,
    if_false, reduceCtorEq, decide_false]
  rfl

theorem resetDone_removes (hwrapped : (s.inst i).wrapped = false) (hstate : (s.inst i).state = .removing)
    (hmoved : (s.inst i).moved = none) (hgone : (s.inst i).gone = true) :
    let t := s.setInst i { gen := (s.inst i).gen, resets := ((s.inst i).resets + 1) % 2 ^ 48 }
    let u := ((t.setFn i { t.fn i with flrBusy := false }).clearBits i).count (ivmCounter 0) 1
    let v := u.raise 163 i (some i)
    v.instFace i = some f → s.resetDone i =
      ((v.postNotice (2048 + f) { kind := 0x01, inst := i, data := (s.inst i).gen }).deliverHeld i).evalLines := by
  intro t u v hface
  unfold State.resetDone
  simp only [hresetting, hflushed, hwrapped, hstate, hmoved, hgone, Bool.not_true, Bool.or_self, Bool.false_and,
    Bool.false_eq_true, if_false, decide_true, Bool.true_or, if_true]
  change (State.evalLines (State.deliverHeld (match v.instFace i with
    | some n => v.postNotice (2048 + n) { kind := 0x01, inst := i, data := (s.inst i).gen }
    | none => v) i)) = _
  rw [hface]

end
end

/-- Settles O41, by the dispatch of a command over the masters that may give it and the branches of the end of a sequence. -/
theorem instancesAreManaged : Obligations.InstancesAreManaged := by
  unfold Obligations.InstancesAreManaged
  intro s m f i hf hi hreleased hready a x g fin
  have hdone : ∀ {u : State}, s.begun.resetDone i = u → exec (.resetSequenceDone i) s = .next (s.close u.settleSto) :=
    fun h => runHostBlock_effect (f := fun t => t.resetDone i) hreleased hready h
  have hstays : ∀ {op : Nat}, s.writes m a → (s.ivm.cmd.getD f {}).busy = true →
      runHost (fun t => t.ivmRow m f op i) s = .next (s.close s.begun.settleSto) := fun hw hbusy =>
    run_ivmRow (b := false) hf hi hw (ivmCommand_busy (s := s.begun) hbusy)
  refine ⟨fun hw hfree => ?granted, fun hw hbusy _ => hstays hw hbusy, fun h => hdone (resetDone_waits (s := s.begun) h),
    fun hresetting hflushed => ⟨fun hwrapped hnamed => ?wrapped, fun hwrapped hstate hstays => ?returns,
      fun hwrapped hstate hmoved hgone _ => ?removes⟩⟩
  case wrapped => exact hdone (resetDone_wrapped (s := s.begun) hresetting hflushed hwrapped hnamed)
  case returns => exact hdone (resetDone_returns (s := s.begun) hresetting hflushed hwrapped hstate hstays)
  case removes =>
    intro t u v hface
    exact hdone (resetDone_removes (s := s.begun) hresetting hflushed hwrapped hstate hmoved hgone hface)
  case granted =>
    clear hdone hstays
    have hcmd : ∀ {op : Nat} {v : State}, State.ivmCommand m f op i s.begun = (v, true) →
        runHost (fun t => t.ivmRow m f op i) s = fin op v := fun he => run_ivmRow (b := true) hf hi hw he
    have hdo : ∀ {op : Nat} {v : State}, 1 ≤ op ∧ op ≤ 5 → m.foreign f = false → (m.isFw = true ∨ op = 2 ∨ op = 3) →
        s.instFace i = some f → (2048 ≤ i && (op = 1 || op = 4)) = false → s.begun.ivmDo f op i = v →
        runHost (fun t => t.ivmRow m f op i) s = fin op v := fun hop hown hfw hface hlow hv =>
      hcmd ((ivmCommand_granted (s := s.begun) hfree hop hi hown hfw hface).trans
        ((if_neg (Bool.eq_false_iff.1 hlow)).trans (congrArg (·, true) hv)))
    refine ⟨fun h hm hne => ?foreign, fun hfw => ?tenant, fun hfw hface => ?firmware, fun hown hface => ?own⟩
    case foreign =>
      have hforeign : m.foreign f = true := by rw [hm]; exact decide_eq_true hne
      exact ⟨hcmd (ivmCommand_denied (s := s.begun) hfree (by omega) (.inl hforeign)),
        hcmd (ivmCommand_denied (s := s.begun) hfree (by omega) (.inl hforeign))⟩
    case tenant =>
      have hdenied : ∀ {op : Nat}, 1 ≤ op ∧ op ≤ 5 → op ≠ 2 → op ≠ 3 →
          runHost (fun t => t.ivmRow m f op i) s = fin op (s.begun.endIvm f 3 0) := fun hop h2 h3 =>
        hcmd (ivmCommand_denied (s := s.begun) hfree hop (.inr ⟨hfw, h2, h3⟩))
      exact ⟨hdenied (by omega) (by omega) (by omega), hdenied (by omega) (by omega) (by omega),
        hdenied (by omega) (by omega) (by omega)⟩
    case own =>
      have hgive : ∀ {op : Nat} {v : State}, op = 2 ∨ op = 3 → s.begun.ivmDo f op i = v →
          runHost (fun t => t.ivmRow m f op i) s = fin op v := fun hop hv =>
        hdo (by omega) (foreign_own hown) (.inr hop) hface (by rcases hop with rfl | rfl <;> exact Bool.and_false _) hv
      exact ⟨fun hstate => hgive (.inl rfl) (ivmStart_created (s := s.begun) hstate),
        fun hstate => hgive (.inl rfl) (ivmStart_other (s := s.begun) hstate), hgive (.inr rfl) rfl⟩
    case firmware =>
      have hgive : ∀ {op : Nat} {v : State}, 1 ≤ op ∧ op ≤ 5 → i < 2048 → s.begun.ivmDo f op i = v →
          runHost (fun t => t.ivmRow m f op i) s = fin op v := fun hop hlow hv =>
        hdo hop (foreign_fw hfw) (.inl hfw) hface (by rw [decide_eq_false (Nat.not_le.2 hlow)]; rfl) hv
      have hhigh : ∀ {op : Nat}, 2048 ≤ i → op = 1 ∨ op = 4 →
          runHost (fun t => t.ivmRow m f op i) s = fin op (s.begun.endIvm f 2 6) := fun hlow hop =>
        hcmd ((ivmCommand_granted (s := s.begun) hfree (by omega) hi (foreign_fw hfw) (.inl hfw) hface).trans
          (if_pos (by rw [decide_eq_true hlow]; rcases hop with rfl | rfl <;> rfl)))
      have hshare : ∀ {v : State}, s.begun.ivmShare f i = v → exec (.setShare m f i) s = fin 5 v := fun hv =>
        hdo (by omega) (foreign_fw hfw) (.inl hfw) hface (Bool.and_false _) hv
      refine ⟨fun hlow hstate => ⟨fun hwhy => ?_, fun hwhy => ?_⟩, fun hlow hstate => ?_, fun hlow hstate => ?_,
        fun hlow hstate => ?_, fun hlow => ⟨hhigh hlow (.inl rfl), hhigh hlow (.inr rfl)⟩, fun hstate => ?_⟩
      · exact hgive (by omega) hlow ((ivmCreate_absent (s := s.begun) hstate).trans (if_neg (not_not.2 hwhy)))
      · exact hgive (by omega) hlow ((ivmCreate_absent (s := s.begun) hstate).trans (if_pos hwhy))
      · exact hgive (by omega) hlow (ivmCreate_present (s := s.begun) hstate)
      · exact hgive (by omega) hlow (ivmRemove_present (s := s.begun) hstate)
      · exact hgive (by omega) hlow (ivmRemove_resetting (s := s.begun) hstate)
      · obtain ⟨hbad, haway, hshared⟩ := ivmShare_present (s := s.begun) (f := f) hstate
        exact ⟨fun h => hshare (hbad h), fun h h' => hshare (haway h h'), fun h h' h'' => hshare (hshared h h' h'')⟩

end Sys2Proof.Machine
end

