-- ==== Sys2Proof/Proofs/Mailboxes.lean ====
section

/-! O42: mailbox channels and their two ends (spec/10 R300-R308). -/

namespace Sys2Proof.Machine

/-- A module whose Keystone holds the lease and is end A of the channel over Quoin port 0; the far module is end B. -/
def farChannel : State :=
  { bring := { phase := .released, readySub := 2 ^ 7 }
    ksc := { held := true }
    ivm := { quoinEndA := [3, 0, 0, 0] } }

/-- The control flits that wait at Quoin port 0. -/
def State.flitsWaiting (s : State) : Nat := ((s.quoin 0).waiting.getD 8 []).length

theorem farChannel_write : (farChannel.close (farChannel.begun.mbxRow (.fw 0 0) 2052 0 0 (.data 0 0))).flitsWaiting = 1 := by decide

/-- Refutes O42: the statement has a data write of end A change its word alone, on every channel; on the channels over the Quoin links
(2052-2055) an accepted action is also sent to the far module, and in `farChannel` its flit is left waiting at the port. -/
theorem not_mailboxesCarryMessages : ¬ Obligations.MailboxesCarryMessages := by
  intro h
  obtain ⟨hendA, -⟩ := h farChannel (.fw 0 0) 2052 (by decide) rfl rfl
  obtain ⟨hdata, -⟩ := hendA (by decide)
  obtain ⟨hstored, -⟩ := hdata 0 0 (by decide) (by decide) ⟨rfl, by decide⟩
  have hrun : exec (.mbxDataWrite (.fw 0 0) 2052 0 0) farChannel = _ :=
    runMain_effect (f := fun t => t.mbxRow (.fw 0 0) 2052 0 0 (.data 0 0)) (s := farChannel) rfl rfl
  have hstates := Host.Outcome.next.inj (hrun.symm.trans (hstored (by decide) (by decide)))
  have hflits := congrArg State.flitsWaiting hstates
  rw [farChannel_write] at hflits
  exact absurd hflits (by decide)

end Sys2Proof.Machine
end

