-- ==== Sys2Proof/Proofs/Messages.lean ====
section

/-! O43: messages over the mailboxes are answered (spec/10 R309-R312, spec/21 R646). -/

namespace Sys2Proof.Machine

theorem getD_setNth_self {α : Type} {l : List α} {n : Nat} (h : n < l.length) (x : α) {d : α} : (setNth l n x).getD n d = x := by
  unfold setNth
  rw [List.getD_eq_getElem?_getD, List.getElem?_set_self h]
  rfl

/-! ### What a channel carries -/

/-- What an event to an end of a channel leaves alone: the held notices, and the words, state and sequence number of a channel. -/
def State.talk (s : State) (c : Nat) : AMap Notices × AMap Nat × MbxSt × Nat :=
  (s.ivm.notices, (s.chan c).data, (s.chan c).state, (s.chan c).seq)

theorem talk_of_ivm {s u : State} (h : u.ivm = s.ivm) (c : Nat) : u.talk c = s.talk c := by
  unfold State.talk State.chan
  rw [h]

theorem chan_setChan_self (s : State) (c : Nat) (x : Channel) : (s.setChan c x).chan c = x := mapGet_mapSet_self _ _ _ _

theorem pme_ivm (s : State) (k : Nat) : (s.pme k).ivm = s.ivm := by
  unfold State.pme
  split
  · rfl
  · dsimp only
    repeat' split
    all_goals rfl

theorem fire_ivm (s : State) (k vec : Nat) : (s.fire k vec).ivm = s.ivm := by
  unfold State.fire
  split
  · rfl
  · split
    · rfl
    · exact pme_ivm _ _

theorem powerUpComplex_ivm (s : State) (x : Nat) : (s.powerUpComplex x).ivm = s.ivm := by
  unfold State.powerUpComplex
  dsimp only
  split <;> rfl

theorem holdEvent_talk (s : State) (c : Nat) (e h : Bool) : (s.holdEvent c e h).talk c = s.talk c := by
  unfold State.holdEvent State.talk
  rw [chan_setChan_self]
  cases e <;> rfl

theorem mbxEvent_talk (s : State) (c : Nat) (e : Bool) : (s.mbxEvent c e).talk c = s.talk c := by
  have hheld : ∀ {h : Bool} {u : State}, u.ivm = (s.holdEvent c e h).ivm → u.talk c = s.talk c := fun hu =>
    (talk_of_ivm hu c).trans (holdEvent_talk s c e _)
  unfold State.mbxEvent
  split
  · split
    · exact hheld (h := false) rfl
    · exact hheld (h := true) rfl
  · split
    · exact hheld (h := false) rfl
    · exact hheld (powerUpComplex_ivm _ _)
  · split
    · exact hheld (h := false) rfl
    · exact hheld (powerUpComplex_ivm _ _)
  · split
    · exact hheld (h := false) rfl
    · exact hheld (h := true) rfl
  · split
    · rfl
    · dsimp only
      split
      · exact hheld (h := true) rfl
      · split
        · exact hheld (fire_ivm _ _ _)
        · exact hheld (h := false) rfl

theorem mbxNotify_talk (s : State) (c : Nat) : (s.mbxNotify c).talk c = s.talk c := by
  unfold State.mbxNotify
  dsimp only
  split
  · rfl
  · rw [mbxEvent_talk]
    unfold State.talk
    rw [chan_setChan_self]
    rfl

/-! ### The words of a reply -/

/-- Words written from word `j + 1` on. -/
def putWords (j : Nat) (ws : List Nat) (d : AMap Nat) : AMap Nat :=
  (ws.mapIdx (fun k v => (j + k + 1, v))).foldl (fun (m : AMap Nat) p => mapSet 0 m p.1 (p.2 % 2 ^ 32)) d

theorem putWords_cons (j v : Nat) (ws : List Nat) (d : AMap Nat) :
    putWords j (v :: ws) d = putWords (j + 1) ws (mapSet 0 d (j + 1) (v % 2 ^ 32)) := by
  have hshift : ∀ k, j + (k + 1) + 1 = j + 1 + k + 1 := fun k => by omega
  simp only [putWords, List.mapIdx_cons, List.foldl_cons, Nat.add_zero, hshift]

theorem putWords_below {j q : Nat} (ws : List Nat) (d : AMap Nat) (hq : q ≤ j) : mapGet 0 (putWords j ws d) q = mapGet 0 d q := by
  induction ws generalizing j d with
  | nil => rfl
  | cons v ws ih => rw [putWords_cons, ih _ (by omega), mapGet_mapSet_ne _ _ _ (by omega)]

theorem putWords_at {j : Nat} (ws : List Nat) (d : AMap Nat) (hclear : ∀ q, j < q → mapGet 0 d q = 0) (k : Nat) :
    mapGet 0 (putWords j ws d) (j + k + 1) = ws.getD k 0 % 2 ^ 32 := by
  induction ws generalizing j d k with
  | nil => exact hclear _ (by omega)
  | cons v ws ih =>
    rw [putWords_cons]
    cases k with
    | zero => rw [putWords_below _ _ (by omega), Nat.add_zero, mapGet_mapSet_self, List.getD_cons_zero]
    | succ k =>
      rw [show j + (k + 1) + 1 = j + 1 + k + 1 by omega, ih, List.getD_cons_succ]
      exact fun q hq => (mapGet_mapSet_ne _ _ _ (by omega)).trans (hclear q (by omega))

/-- The words of a reply: the first, and the result's after it. -/
def replyData (w0 : Nat) (ws : List Nat) : AMap Nat := putWords 0 ws (mapSet 0 [] 0 w0)

theorem replyData_first (w0 : Nat) (ws : List Nat) : mapGet 0 (replyData w0 ws) 0 = w0 := by
  rw [replyData, putWords_below _ _ (Nat.le_refl 0), mapGet_mapSet_self]

theorem replyData_word (w0 : Nat) (ws : List Nat) (k : Nat) : mapGet 0 (replyData w0 ws) (k + 1) = ws.getD k 0 % 2 ^ 32 := by
  have h := putWords_at (j := 0) ws (mapSet 0 [] 0 w0) (fun q hq => mapGet_mapSet_ne _ _ _ (by omega)) k
  rwa [Nat.zero_add] at h

/-! ### Replies -/

section
variable {s : State} {c : Nat}

/-- The channel with the words of a reply. -/
def State.replied (s : State) (c r : Nat) (ws : List Nat) : Channel :=
  { s.chan c with data := replyData (s.msgWord c 0 % 2 ^ 24 + r * 2 ^ 24) ws }

theorem reply_eq (r : Nat) (ws : List Nat) : s.reply c r ws =
    ((s.setChan c (s.replied c r ws)).setChan c { s.replied c r ws with state := .replied }).mbxEvent c false := by
  have hwords : ((fun k v => (0 + k + 1, v)) : Nat → Nat → Nat × Nat) = fun k v => (k + 1, v) := by
    funext k v
    rw [Nat.zero_add]
  unfold State.reply State.mbxEffect State.replied replyData putWords
  simp only [chan_setChan_self, hwords]

/-- What the channel holds after an answer, as it was in `s` (spec/10 R309). -/
def Answered (s u : State) (n result : Nat) (ws : List Nat) : Prop :=
  (u.chan n).state = .replied ∧ u.msgWord n 0 = s.msgWord n 0 % 2 ^ 24 + result * 2 ^ 24
    ∧ (∀ k, k < 15 → u.msgWord n (k + 1) = ws.getD k 0 % 2 ^ 32) ∧ (u.chan n).seq = (s.chan n).seq

theorem Answered.of_talk {u v : State} {r : Nat} {ws : List Nat} (h : Answered s u c r ws) (huv : v.talk c = u.talk c) :
    Answered s v c r ws := by
  obtain ⟨hstate, hfirst, hwords, hseq⟩ := h
  unfold State.talk at huv
  obtain ⟨-, hdata, hst, hsq⟩ : _ ∧ _ ∧ _ ∧ _ := by simpa only [Prod.mk.injEq] using huv
  unfold Answered State.msgWord at *
  rw [hdata, hst, hsq]
  exact ⟨hstate, hfirst, hwords, hseq⟩

theorem reply_answered {t : State} (ht : t.chan c = s.chan c) (r : Nat) (ws : List Nat) : Answered s (t.reply c r ws) c r ws := by
  rw [reply_eq]
  refine Answered.of_talk ?_ (mbxEvent_talk _ _ _)
  unfold Answered State.msgWord State.replied State.msgWord
  rw [chan_setChan_self, ht]
  exact ⟨rfl, replyData_first _ _, fun k _ => replyData_word _ _ k, rfl⟩

theorem reply_frame (r : Nat) (ws : List Nat) : EventFrame s (s.reply c r ws) := by
  rw [reply_eq]
  exact EventFrame.trans (show EventFrame s ((s.setChan c _).setChan c _) from rfl) (EventFrame.mbxEvent _ _ _)

theorem reply_notices (r : Nat) (ws : List Nat) : (s.reply c r ws).ivm.notices = s.ivm.notices := by
  rw [reply_eq]
  exact congrArg Prod.fst (mbxEvent_talk ((s.setChan c _).setChan c _) c false)

theorem EventFrame.tap_eq {u : State} (h : EventFrame s u) : u.tap = s.tap := by
  rw [show u = s.eventOn u from h]
  rfl

theorem EventFrame.helloVer_eq {u : State} (h : EventFrame s u) : u.ivm.helloVer = s.ivm.helloVer := by
  rw [show u = s.eventOn u from h]
  rfl

/-! ### What the answerers do -/

theorem answer_known {op : Nat} {f : State → State} (hasked : s.asked c op = true) (hver : s.verOk c = true) : s.answer c op f = f s := by
  refine (if_neg ?_).trans (if_pos hver)
  rw [hasked]
  exact Bool.false_ne_true

theorem answer_unasked {op : Nat} {f : State → State} (hasked : s.asked c op = false) : s.answer c op f = s :=
  if_pos (by rw [hasked]; rfl)

theorem asked_op {op : Nat} (h : s.asked c op = true) : bitsOf (s.msgWord c 0) 0 8 = op := by
  simp only [State.asked, Bool.and_eq_true, decide_eq_true_eq] at h
  exact h.2

/-- A request for the manager's answerer in firmware, which may write and holds the channel. -/
theorem served_known {u : State} (hwrites : s.fwWrites = true) (hholds : s.answererHolds c = true) :
    (if (!s.fwWrites || !s.answererHolds c) = true then s else u) = u := by
  refine if_neg ?_
  rw [hwrites, hholds]
  exact Bool.false_ne_true

section
variable {f : Nat}

theorem mgrHello_known (hasked : s.asked (2048 + f) 1 = true) (hver : s.verOk (2048 + f) = true) :
    s.mgrHello f =
      ({ s with ivm := { s.ivm with helloVer := setNth s.ivm.helloVer f 1 } }).reply (2048 + f) 0 (s.helloWords f) := by
  refine (if_neg ?_).trans (answer_known hasked hver)
  rw [asked_op hasked]
  exact Bool.false_ne_true

theorem mgrHello_unknown {op : Nat} (hasked : s.asked (2048 + f) op = true) (hop : knownMgrOp op = false) :
    s.mgrHello f = s.unsupported (2048 + f) := by
  refine if_pos ?_
  rw [asked_op hasked, hop, hasked]
  rfl

theorem mgrHello_waits (hasked : s.asked (2048 + f) 1 = false)
    (hknown : ∀ op, op < 256 → s.asked (2048 + f) op = true → knownMgrOp op = true) : s.mgrHello f = s := by
  have hop : bitsOf (s.msgWord (2048 + f) 0) 0 8 < 256 := Nat.mod_lt _ (by decide)
  refine (if_neg ?_).trans (answer_unasked hasked)
  simp only [Bool.and_eq_true, not_and, Bool.not_eq_true', Bool.not_eq_true]
  intro hunknown
  by_contra hno
  rw [hknown _ hop (Bool.not_eq_false _ ▸ hno)] at hunknown
  exact Bool.false_ne_true hunknown.symm

variable (hwrites : s.fwWrites = true) (hholds : s.answererHolds (2048 + f) = true) (hver : s.verOk (2048 + f) = true)
include hwrites hholds hver

theorem mgrGrant_own {op ivmOp : Nat} (hasked : s.asked (2048 + f) op = true) (hi : s.msgWord (2048 + f) 1 % 4096 < 2048)
    (hface : s.tenantFace (s.msgWord (2048 + f) 1 % 4096) = some f) :
    let v := s.fwIvm f ivmOp (s.msgWord (2048 + f) 1 % 4096) ((List.range 4).map (fun j => s.msgWord (2048 + f) (2 + j)))
    s.mgrGrant f op ivmOp = v.reply (2048 + f) (v.ivm.cmd.getD f {}).result [(v.ivm.cmd.getD f {}).why] := by
  intro v
  refine (served_known hwrites hholds).trans ((answer_known hasked hver).trans (if_pos ?_))
  rw [hface, decide_eq_true hi]
  exact decide_eq_true rfl

theorem mgrGrant_other {op ivmOp : Nat} (hasked : s.asked (2048 + f) op = true)
    (hface : s.tenantFace (s.msgWord (2048 + f) 1 % 4096) ≠ some f) : s.mgrGrant f op ivmOp = s.reply (2048 + f) 3 [] := by
  refine (served_known hwrites hholds).trans ((answer_known hasked hver).trans (if_neg ?_))
  rw [decide_eq_false hface, Bool.and_false]
  exact Bool.false_ne_true

theorem mboxRemove_own (hasked : s.asked (2048 + f) 3 = true) (hi : s.msgWord (2048 + f) 1 % 4096 < 2048)
    (hface : s.tenantFace (s.msgWord (2048 + f) 1 % 4096) = some f) :
    let i := s.msgWord (2048 + f) 1 % 4096
    let v := s.fwIvm f 4 i []
    s.mboxRemove f =
      if (v.ivm.cmd.getD f {}).result = 0 then (v.setInst i { v.inst i with gone := true }).reply (2048 + f) 5 []
      else v.reply (2048 + f) (v.ivm.cmd.getD f {}).result [(v.ivm.cmd.getD f {}).why] := by
  intro i v
  refine (served_known hwrites hholds).trans ((answer_known hasked hver).trans (if_pos ?_))
  rw [hface, decide_eq_true hi]
  exact decide_eq_true rfl

theorem mboxRemove_other (hasked : s.asked (2048 + f) 3 = true)
    (hface : s.tenantFace (s.msgWord (2048 + f) 1 % 4096) ≠ some f) : s.mboxRemove f = s.reply (2048 + f) 3 [] := by
  refine (served_known hwrites hholds).trans ((answer_known hasked hver).trans (if_neg ?_))
  rw [decide_eq_false hface, Bool.and_false]
  exact Bool.false_ne_true

theorem upgradeConfirm_other (hasked : s.asked (2048 + f) 0x41 = true) (hf : f ≠ s.glb.primary) :
    s.upgradeConfirm f = s.reply (2048 + f) 3 [] :=
  (served_known hwrites hholds).trans ((answer_known hasked hver).trans (if_pos hf))

theorem upgradeConfirm_primary (hasked : s.asked (2048 + f) 0x41 = true) (hf : f = s.glb.primary)
    (hraise : bitOf (s.msgWord (2048 + f) 1) 0 = false) (hidle : s.tap.svnBusy = false) :
    let t := s.reply (2048 + f) 5 []
    s.upgradeConfirm f = ({ t with tap := { t.tap with ckWritten := t.tap.ckVer, confirmed := true, upgradeWait := true } }).upgradeDone := by
  intro t
  have htap : t.tap = s.tap := EventFrame.tap_eq (reply_frame 5 [])
  refine (served_known hwrites hholds).trans ((answer_known hasked hver).trans ((if_neg (not_not.2 hf)).trans ?_))
  simp only [hraise, Bool.false_eq_true, if_false]
  exact if_neg (by rw [show (s.reply (2048 + f) 5 []).tap = s.tap from htap, hidle]; exact Bool.false_ne_true)

end

theorem upgradeStatus_known {f : Nat} (hasked : s.asked (2048 + f) 0x40 = true) (hver : s.verOk (2048 + f) = true) :
    s.upgradeStatus f =
      if f = s.glb.primary then
        s.reply (2048 + f) 0 [s.glb.dtFirmware.getD 0 0, s.tap.ckWritten + b2n s.tap.confirmed * 256, s.fuses.minSvn]
      else s.reply (2048 + f) 3 [] := by
  unfold State.upgradeStatus
  exact answer_known hasked hver

theorem tenantHello_known (hc : c < 2048) (hasked : s.asked c 1 = true) (hver : s.verOk c = true) :
    s.tenantHello c = s.reply c 0 ((c + (s.inst c).gen * 4096) :: (s.inst c).grant.words) := by
  refine (if_neg (by omega)).trans ((if_neg ?_).trans (answer_known hasked hver))
  rw [asked_op hasked]
  exact Bool.false_ne_true

theorem resetRequest_manager {f : Nat} (hc : c < 2048) (hasked : s.asked c 6 = true) (hver : s.verOk c = true)
    (hface : s.tenantFace c = some f) (hend : s.endVal c true = 2) : s.resetRequest c =
      (s.reply c 5 []).access (.pf f) (ivmCmdAddr f) 4 (ivmCmdWord 3 c) (State.ivmCommand (.pf f) f 3 c) := by
  refine (if_neg (by omega)).trans ?_
  rw [hface]
  refine (if_neg ?_).trans ((answer_known hasked hver).trans (if_pos hend))
  rw [decide_eq_true hend]
  exact Bool.false_ne_true

/-- GET_NOTICE returns the words `ws`, leaves the notices `h` and, where any are left, raises the notice bit again. -/
theorem getNotice_known {out : List Notice} {h : Notices} (hasked : s.asked c 5 = true) (hver : s.verOk c = true)
    (hout : out = (mapGet {} s.ivm.notices c).list.take 7 ++
      (if ((mapGet {} s.ivm.notices c).list.length < 7 && (mapGet {} s.ivm.notices c).lost ≠ 0) = true then
        [{ kind := 0xFF, inst := 0, data := (mapGet {} s.ivm.notices c).lost }] else []))
    (hleft : h = { list := (mapGet {} s.ivm.notices c).list.drop 7
                   lost := if ((mapGet {} s.ivm.notices c).list.length < 7 && (mapGet {} s.ivm.notices c).lost ≠ 0) = true then 0
                     else (mapGet {} s.ivm.notices c).lost }) :
    Answered s (s.getNotice c) c 0 (out.length :: out.flatMap Notice.words)
      ∧ mapGet {} (s.getNotice c).ivm.notices c = h := by
  let t : State := { s with ivm := { s.ivm with notices := mapSet {} s.ivm.notices c h } }
  let u := t.reply c 0 (out.length :: out.flatMap Notice.words)
  have hanswer : s.getNotice c = if (h.list ≠ [] || h.lost ≠ 0) = true then u.mbxNotify c else u := by
    subst hout hleft
    exact answer_known hasked hver
  have hreply : Answered s u c 0 (out.length :: out.flatMap Notice.words) :=
    reply_answered (t := t) (show t.chan c = s.chan c from rfl) _ _
  have hnotices : mapGet {} u.ivm.notices c = h := by
    rw [reply_notices]
    exact mapGet_mapSet_self _ _ _ _
  rw [hanswer]
  split
  · exact ⟨hreply.of_talk (mbxNotify_talk u c), (congrArg (mapGet {} · c) (congrArg Prod.fst (mbxNotify_talk u c))).trans hnotices⟩
  · exact ⟨hreply, hnotices⟩

theorem getNotice_full (hasked : s.asked c 5 = true) (hver : s.verOk c = true)
    (hfull : (mapGet {} s.ivm.notices c).lost = 0 ∨ 7 ≤ (mapGet {} s.ivm.notices c).list.length) :
    let h := mapGet {} s.ivm.notices c
    Answered s (s.getNotice c) c 0 (min 7 h.list.length :: (h.list.take 7).flatMap Notice.words)
      ∧ mapGet {} (s.getNotice c).ivm.notices c = { h with list := h.list.drop 7 } := by
  intro h
  have hroom : ¬ (h.list.length < 7 && h.lost ≠ 0) = true := by
    simp only [Bool.and_eq_true, decide_eq_true_eq]
    exact fun ⟨hlen, hlost⟩ => hfull.elim hlost (Nat.not_le.2 hlen)
  rw [← List.length_take]
  refine getNotice_known hasked hver ?_ ?_
  · exact ((congrArg (h.list.take 7 ++ ·) (if_neg hroom)).trans (List.append_nil _)).symm
  · exact (congrArg (Notices.mk (h.list.drop 7)) (if_neg hroom)).symm

theorem getNotice_last (hasked : s.asked c 5 = true) (hver : s.verOk c = true) (hlost : (mapGet {} s.ivm.notices c).lost ≠ 0)
    (hlen : (mapGet {} s.ivm.notices c).list.length < 7) :
    let h := mapGet {} s.ivm.notices c
    Answered s (s.getNotice c) c 0
        ((h.list.length + 1) :: (h.list ++ [({ kind := 0xFF, inst := 0, data := h.lost } : Notice)]).flatMap Notice.words)
      ∧ mapGet {} (s.getNotice c).ivm.notices c = {} := by
  intro h
  have hroom : (h.list.length < 7 && h.lost ≠ 0) = true := by
    simp only [Bool.and_eq_true, decide_eq_true_eq]
    exact ⟨hlen, hlost⟩
  rw [show h.list.length + 1 = (h.list ++ [({ kind := 0xFF, inst := 0, data := h.lost } : Notice)]).length from
    (List.length_append (bs := [_])).symm]
  refine getNotice_known hasked hver ?_ ?_
  · exact (congrArg₂ (· ++ ·) (List.take_of_length_le (Nat.le_of_lt hlen)) (if_pos hroom)).symm
  · exact (congrArg₂ Notices.mk (List.drop_eq_nil_of_le (Nat.le_of_lt hlen)) (if_pos hroom)).symm

end

/-- Settles O43, by the words of a reply and the branches of each answerer. -/
theorem messagesAreAnswered : Obligations.MessagesAreAnswered := by
  unfold Obligations.MessagesAreAnswered
  intro s f hf hreleased c answered
  have hhost : ∀ {g : State → State} {u : State}, g s.begun = u → runHost g s = .next (s.close u.settleSto) :=
    fun h => runHost_effect hreleased h
  have hmain : ∀ {g : State → State} {u : State}, g s.begun = u → runMain g s = .next (s.close u) :=
    fun h => runMain_effect hreleased h
  have hanswered : ∀ {n : Nat} (r : Nat) (ws : List Nat), answered n r ws (s.begun.reply n r ws) := fun r ws =>
    reply_answered (s := s.begun) rfl r ws
  have hhello : ∀ {u : State}, s.begun.mgrHello f = u → exec (.mgrHello f) s = .next (s.close u.settleSto) :=
    fun h => hhost (g := fun t => t.mgrHello f) h
  refine ⟨fun hasked hver hlen => ?hello, fun op hasked hop => ?unknown,
    fun hasked hknown => hhello (mgrHello_waits (s := s.begun) hasked hknown),
    fun hwrites hholds => ?grants, fun n hasked hver => ?notices, fun i hi hver => ⟨fun hasked => ?tenant, fun hasked hface hend => ?reset⟩,
    fun hasked hver => ?status, fun hasked hver hwrites hholds => ?confirm⟩
  case hello =>
    refine ⟨_, hhello (mgrHello_known (s := s.begun) hasked hver), ?_, ?_⟩
    · have hframe := reply_frame (c := c) (s := { s.begun with ivm := { s.begun.ivm with helloVer := setNth s.begun.ivm.helloVer f 1 } })
        0 (s.begun.helloWords f)
      rw [hframe.helloVer_eq]
      exact getD_setNth_self (by rw [show s.begun.ivm.helloVer.length = 4 from hlen]; exact hf) _
    · exact reply_answered (s := s)
        (t := { s.begun with ivm := { s.begun.ivm with helloVer := setNth s.begun.ivm.helloVer f 1 } }) rfl _ _
  case unknown => exact ⟨_, hhello (mgrHello_unknown (s := s.begun) hasked hop), hanswered 4 _⟩
  case tenant =>
    exact ⟨_, hhost (g := fun t => t.tenantHello i) (tenantHello_known (s := s.begun) hi hasked hver), hanswered 0 _⟩
  case reset => exact hhost (g := fun t => t.resetRequest i) (resetRequest_manager (s := s.begun) hi hasked hver hface hend)
  case status =>
    have hstatus := upgradeStatus_known (s := s.begun) hasked hver
    exact ⟨fun hprimary => ⟨_, hmain (g := fun t => t.upgradeStatus f) (hstatus.trans (if_pos hprimary)), hanswered 0 _⟩,
      fun hother => ⟨_, hmain (g := fun t => t.upgradeStatus f) (hstatus.trans (if_neg hother)), hanswered 3 _⟩⟩
  case confirm =>
    exact ⟨fun hother => ⟨_, hmain (g := fun t => t.upgradeConfirm f)
        (upgradeConfirm_other (s := s.begun) hwrites hholds hver hasked hother), hanswered 3 _⟩,
      fun hprimary hraise hidle => hmain (g := fun t => t.upgradeConfirm f)
        (upgradeConfirm_primary (s := s.begun) hwrites hholds hver hasked hprimary hraise hidle)⟩
  case grants =>
    intro i ws
    refine ⟨fun hi hface => ⟨fun hasked hver => ?_, fun hasked hver => ?_, fun hasked hver => ?_⟩, fun hface hver =>
      ⟨fun hasked => ⟨_, hhost (g := fun t => t.mboxCreate f) (mgrGrant_other (s := s.begun) hwrites hholds hver hasked hface),
          hanswered 3 _⟩,
        fun hasked => ⟨_, hhost (g := fun t => t.mboxShare f) (mgrGrant_other (s := s.begun) hwrites hholds hver hasked hface),
          hanswered 3 _⟩,
        fun hasked => ⟨_, hhost (g := fun t => t.mboxRemove f) (mboxRemove_other (s := s.begun) hwrites hholds hver hasked hface),
          hanswered 3 _⟩⟩⟩
    · exact hhost (g := fun t => t.mboxCreate f) (mgrGrant_own (s := s.begun) hwrites hholds hver hasked hi hface)
    · exact hhost (g := fun t => t.mboxShare f) (mgrGrant_own (s := s.begun) hwrites hholds hver hasked hi hface)
    · have hremove := mboxRemove_own (s := s.begun) hwrites hholds hver hasked hi hface
      exact ⟨fun hresult => hhost (g := fun t => t.mboxRemove f) (hremove.trans (if_pos hresult)),
        fun hresult => hhost (g := fun t => t.mboxRemove f) (hremove.trans (if_neg hresult))⟩
  case notices =>
    intro h
    refine ⟨fun hroom => ?_, fun hlost hlen => ?_⟩
    · obtain ⟨hanswer, hleft⟩ := getNotice_full (s := s.begun) hasked hver hroom
      exact ⟨_, hhost (g := fun t => t.getNotice n) rfl, hanswer, hleft⟩
    · obtain ⟨hanswer, hleft⟩ := getNotice_last (s := s.begun) hasked hver hlost hlen
      exact ⟨_, hhost (g := fun t => t.getNotice n) rfl, hanswer, hleft⟩

end Sys2Proof.Machine
end

