-- ==== Sys2Proof/Proofs/RuleBanks.lean ====
section

/-! O44: rule-set banks are loaded, committed and cleared (spec/12 R362-R364, R375). -/

namespace Sys2Proof.Machine

/-- A write of a command to CLS_CMD: the effect it has, and the log where the effect takes it. -/
theorem run_bankRow {s v : State} {m : Master} {op b : Nat} {taken : Bool} (hb : b < 2) (hr : s.reaches m (blockBase 9))
    (he : State.bankCommand m op b s.begun = (v, taken)) :
    runMain (fun t => t.bankRow m op b) s =
      .next (s.close (if taken then m.logged (blockBase 9) 4 (op + b * 4) v else v)) := by
  refine runMain_effect (f := fun t => t.bankRow m op b) hr.1 ?_
  rw [State.bankRow, if_neg (by omega), access_reaches ((begun_reaches s m _).2 hr), he]

/-- The end of a COMMIT, once `t` holds what becomes of the bank that was active (spec/12 R364). -/
def State.takeBank (s t : State) (b : Nat) : State :=
  let e := (s.rules.epoch + 1) % 256
  let u := t.setBank b { s.bank b with state := .active, epoch := e }
  ((({ u with rules := { u.rules with epoch := e, swapTick := s.now } }).endBank 0 0).raise 195 b).drainBanks

section
variable {s : State} {m : Master} {b : Nat}

theorem bankCommand_ignored {op : Nat} (h : m.isFw = false ∨ s.rules.cmdBusy = true) : State.bankCommand m op b s = (s, false) := by
  refine if_pos ?_
  rcases h with h | h
  · rw [h]; rfl
  · rw [h, Bool.or_true]

section
variable (hfw : m.isFw = true) (hfree : s.rules.cmdBusy = false)
include hfw hfree

theorem bank_served : ¬ (!m.isFw || s.rules.cmdBusy) = true := by
  rw [hfw, hfree]
  exact Bool.false_ne_true

theorem bankCommand_load : State.bankCommand m 1 b s =
    if (s.bank b).state = .empty || (s.bank b).state = .ready then
      ({ s.setBank b { s.bank b with state := .loading } with
         rules := { (s.setBank b { s.bank b with state := .loading }).rules with cmdBusy := true } }, true)
    else (s.endBank 1 0, true) := if_neg (bank_served hfw hfree)

theorem bankCommand_clear : State.bankCommand m 3 b s =
    if (s.bank b).state = .ready then ((s.setBank b { s.bank b with state := .empty, image := {} }).endBank 0 0, true)
    else (s.endBank 1 0, true) := if_neg (bank_served hfw hfree)

theorem bankCommand_commit_active (hstate : (s.bank b).state = .active) :
    State.bankCommand m 2 b s = (s.endBank 2 12, true) := (if_neg (bank_served hfw hfree)).trans (if_pos hstate)

theorem bankCommand_commit_other (hactive : (s.bank b).state ≠ .active) (hready : (s.bank b).state ≠ .ready) :
    State.bankCommand m 2 b s = (s.endBank 1 0, true) :=
  (if_neg (bank_served hfw hfree)).trans ((if_neg hactive).trans (if_neg hready))

theorem bankCommand_commit (hstate : (s.bank b).state = .ready) (hold : (s.bank (1 - b)).state = .active) :
    State.bankCommand m 2 b s = (s.takeBank (s.setBank (1 - b) { s.bank (1 - b) with state := .draining }) b, true) := by
  have hactive : (s.bank b).state ≠ .active := by rw [hstate]; decide
  exact (if_neg (bank_served hfw hfree)).trans ((if_neg hactive).trans ((if_pos hstate).trans
    (congrArg (fun t => (s.takeBank t b, true)) (if_pos hold))))

end

/-! ### The end of a load -/

/-- Why a load fails: the code of the first check that fails, or 0 (spec/12 R363). -/
def State.loadWhy (s : State) (uncorr : Bool) : Nat :=
  let a := s.word Reg.clsLoadSrc []
  let n := s.word Reg.clsLoadLen []
  if a % 64 ≠ 0 || !inKeystoneLocal a n then 8 else if uncorr then 2 else imageWhy (s.localBytes a n)

theorem loadWhy_apart {e : Bool} (h : s.word Reg.clsLoadSrc [] % 64 ≠ 0
    ∨ inKeystoneLocal (s.word Reg.clsLoadSrc []) (s.word Reg.clsLoadLen []) = false) : s.loadWhy e = 8 := by
  refine if_pos ?_
  rcases h with h | h
  · rw [decide_eq_true h]; rfl
  · rw [h]; exact Bool.or_true _

theorem loadWhy_inside {e : Bool} (halign : s.word Reg.clsLoadSrc [] % 64 = 0)
    (hinside : inKeystoneLocal (s.word Reg.clsLoadSrc []) (s.word Reg.clsLoadLen []) = true) :
    s.loadWhy e = if e then 2 else imageWhy (s.localBytes (s.word Reg.clsLoadSrc []) (s.word Reg.clsLoadLen [])) := by
  refine if_neg ?_
  rw [hinside, decide_eq_false (not_not.2 halign)]
  exact Bool.false_ne_true

theorem loadComplete_idle (hstate : (s.bank b).state ≠ .loading) (e : Bool) : s.loadComplete b e = s := if_pos hstate

theorem loadComplete_good {e : Bool} (hstate : (s.bank b).state = .loading) (hwhy : s.loadWhy e = 0) : s.loadComplete b e =
    (s.setBank b { s.bank b with
      state := .ready, image := parseImage (s.localBytes (s.word Reg.clsLoadSrc []) (s.word Reg.clsLoadLen [])) }).endBank 0 0 :=
  (if_neg (not_not.2 hstate)).trans (if_pos hwhy)

theorem loadComplete_bad {e : Bool} {why : Nat} (hstate : (s.bank b).state = .loading) (hwhy : s.loadWhy e = why) (hbad : why ≠ 0) :
    s.loadComplete b e = ((s.setBank b { s.bank b with state := .empty, image := {} }).endBank 2 why).raise 197 b := by
  subst hwhy
  exact (if_neg (not_not.2 hstate)).trans (if_neg hbad)

end

/-- Settles O44, by the states of a bank that each command is taken in and the checks of a load. -/
theorem ruleBanksAreDriven : Obligations.RuleBanksAreDriven := by
  unfold Obligations.RuleBanksAreDriven
  intro s m b hb hreleased a x fin
  have hend : ∀ {e : Bool} {u : State}, s.begun.loadComplete b e = u → exec (.loadComplete b e) s = .next (s.close u) :=
    fun {e _} h => runMain_effect (f := fun t => t.loadComplete b e) hreleased h
  refine ⟨fun hw hfw hfree => ?commands, fun hr hignored => ?ignored, fun hstate => ?loading,
    fun hstate e => hend (loadComplete_idle (s := s.begun) hstate e)⟩
  case ignored =>
    have hstays : ∀ {op : Nat}, runMain (fun t => t.bankRow m op b) s = .next (s.close s.begun) := fun {op} =>
      run_bankRow (taken := false) hb hr (bankCommand_ignored (s := s.begun) (op := op) hignored)
    exact ⟨hstays, hstays, hstays⟩
  case loading =>
    intro src n bs bad
    have hbad : ∀ {e : Bool} {why : Nat}, s.begun.loadWhy e = why → why ≠ 0 → exec (.loadComplete b e) s = .next (s.close (bad why)) :=
      fun hwhy hne => hend (loadComplete_bad (s := s.begun) hstate hwhy hne)
    refine ⟨fun halign hinside => ?_, fun h e => hbad (loadWhy_apart (s := s.begun) h) (by decide)⟩
    have hwhy : ∀ {e : Bool}, s.begun.loadWhy e = if e then 2 else imageWhy bs := loadWhy_inside (s := s.begun) halign hinside
    exact ⟨fun hgood => hend (loadComplete_good (s := s.begun) hstate (hwhy.trans hgood)), fun hne => hbad hwhy hne,
      hbad hwhy (by decide)⟩
  case commands =>
    have hcmd : ∀ {op : Nat} {v : State}, State.bankCommand m op b s.begun = (v, true) →
        runMain (fun t => t.bankRow m op b) s = fin op v := fun he => run_bankRow (taken := true) hb hw.1 he
    have hload := bankCommand_load (s := s.begun) (b := b) hfw hfree
    have hclear := bankCommand_clear (s := s.begun) (b := b) hfw hfree
    refine ⟨fun hstate => hcmd (hload.trans (if_pos ?_)), fun hstate => hcmd (hload.trans (if_neg ?_)),
      fun hstate hold => hcmd (bankCommand_commit (s := s.begun) hfw hfree hstate hold),
      fun hstate => hcmd (bankCommand_commit_active (s := s.begun) hfw hfree hstate), fun hstate => hcmd ?_,
      fun hstate => hcmd (hclear.trans (if_pos hstate)), fun hstate => hcmd (hclear.trans (if_neg hstate))⟩
    · rcases hstate with hstate | hstate <;> rw [show (s.begun.bank b).state = _ from hstate] <;> rfl
    · rcases hstate with hstate | hstate | hstate <;> rw [show (s.begun.bank b).state = _ from hstate] <;> exact Bool.false_ne_true
    · refine bankCommand_commit_other (s := s.begun) hfw hfree ?_ ?_ <;>
        rcases hstate with hstate | hstate | hstate <;> rw [show (s.begun.bank b).state = _ from hstate] <;> decide

end Sys2Proof.Machine
end

