-- ==== Sys2Proof/Proofs/ForwardingCommands.lean ====
section

/-! O45: the exact-match and express tables, and rehash (spec/13 R382-R389, R399). -/

namespace Sys2Proof.Machine

/-! ### The way of a command -/

/-- Commands of a forwarding command set: a set of firmware's is firmware's alone. -/
def Master.commands (m : Master) (set : Nat) : Prop := set < 5 ∧ (set = 4 → m.isFw = true)

/-- A write of a command to a forwarding command set: the effect it has, and the log where the effect takes it. -/
theorem run_fwdRow {s v : State} {m : Master} {set op i : Nat} {rep taken : Bool} (hset : set < 5) (hi : i < 4096)
    (hr : s.reaches m (blockBase 10 + 0x5000 + 0x100 * set)) (he : State.fwdCommand m set op rep i s.begun = (v, taken)) :
    runMain (fun t => t.fwdRow m set op rep i) s = .next (s.close
      (if taken then m.logged (blockBase 10 + 0x5000 + 0x100 * set) 4 (op + b2n rep * 16 + i * 32) v else v)) := by
  have hmod : i % 4096 = i := Nat.mod_eq_of_lt hi
  refine runMain_effect (f := fun t => t.fwdRow m set op rep i) hr.1 ?_
  rw [State.fwdRow, if_neg (by omega), hmod, access_reaches ((begun_reaches s m _).2 hr), he]

section
variable {s : State} {m : Master} {set op i : Nat} {rep : Bool}

theorem fwdCommand_busy (hbusy : (s.fwd.sets.getD set {}).busy = true) : State.fwdCommand m set op rep i s = (s, false) :=
  if_pos (by rw [hbusy, Bool.or_true])

/-- What a command of a set does, by its op (spec/13 R399). -/
def State.fwdDo (s : State) (m : Master) (f op : Nat) (replace : Bool) (index : Nat) : State :=
  if 1 ≤ op && op ≤ 3 then s.emCommand f op replace
  else if op = 4 || op = 5 then s.expCommand f op index
  else if 6 ≤ op && op ≤ 8 then s.flowCommand m f op index replace
  else if op = 9 || op = 10 then s.lpmCommand f op
  else if op = 11 then s.startRehash f
  else s.endFwd f 2 0

theorem fwdCommand_served (hm : m.commands set) (hfree : (s.fwd.sets.getD set {}).busy = false) :
    State.fwdCommand m set op rep i s = (s.fwdDo m set op rep i, true) := by
  obtain ⟨hset, hown⟩ := hm
  refine if_neg ?_
  simp only [hfree, Bool.or_false, Bool.or_eq_true, Bool.and_eq_true, decide_eq_true_eq, Bool.not_eq_true']
  rintro (h | ⟨h, hfw⟩)
  · omega
  · rw [hown h] at hfw
    exact Bool.false_ne_true hfw.symm

/-! ### Exact-match commands -/

/-- The entry that the argument words of a set describe. -/
def State.fwdEntry (s : State) (set : Nat) : EmEntry := emOfArgs (s.fwdArg set 0) (s.fwdArg set 1) (s.fwdArg set 2)

theorem emCommand_insert (hkey : (s.fwdEntry set).keyOk = true) (hdest : destOk (s.fwdEntry set).dest false = true) :
    s.emCommand set 1 rep = (s.emInsert (s.fwdEntry set) rep).1.endFwd set (s.emInsert (s.fwdEntry set) rep).2 0 := by
  refine (if_neg ?_).trans (if_pos rfl)
  rw [show (emOfArgs (s.fwdArg set 0) (s.fwdArg set 1) (s.fwdArg set 2)).keyOk = true from hkey,
    show destOk (emOfArgs (s.fwdArg set 0) (s.fwdArg set 1) (s.fwdArg set 2)).dest false = true from hdest]
  exact Bool.false_ne_true

theorem emCommand_badKey (hkey : (s.fwdEntry set).keyOk = false) : s.emCommand set op rep = s.endFwd set 2 0 := by
  refine if_pos ?_
  rw [show (emOfArgs (s.fwdArg set 0) (s.fwdArg set 1) (s.fwdArg set 2)).keyOk = false from hkey]
  rfl

theorem emCommand_absent (hop : op ≠ 1) (hkey : (s.fwdEntry set).keyOk = true)
    (hfind : s.fwd.emFind s.emSeeds (s.fwdEntry set).key = none) : s.emCommand set op rep = s.endFwd set 5 0 := by
  refine (if_neg ?_).trans ((if_neg hop).trans ?_)
  · rw [show (emOfArgs (s.fwdArg set 0) (s.fwdArg set 1) (s.fwdArg set 2)).keyOk = true from hkey, decide_eq_false hop]
    exact Bool.false_ne_true
  · rw [show s.fwd.emFind s.emSeeds (emOfArgs (s.fwdArg set 0) (s.fwdArg set 1) (s.fwdArg set 2)).key = none from hfind]

theorem emCommand_found {p : EmPlace} (hop : op ≠ 1) (hkey : (s.fwdEntry set).keyOk = true)
    (hfind : s.fwd.emFind s.emSeeds (s.fwdEntry set).key = some p) : s.emCommand set op rep =
      if op = 2 then ({ s with fwd := s.fwd.emRemove s.emSeeds p }).endFwd set 0 0
      else (s.putFwdArgs set ((s.fwd.emAt p).getD {}).words).endFwd set 0 0 := by
  refine (if_neg ?_).trans ((if_neg hop).trans ?_)
  · rw [show (emOfArgs (s.fwdArg set 0) (s.fwdArg set 1) (s.fwdArg set 2)).keyOk = true from hkey, decide_eq_false hop]
    exact Bool.false_ne_true
  · rw [show s.fwd.emFind s.emSeeds (emOfArgs (s.fwdArg set 0) (s.fwdArg set 1) (s.fwdArg set 2)).key = some p from hfind]

section
variable {e : EmEntry}

theorem emInsert_failed (hfailed : s.fwd.rehashFailed = true) (hidle : s.fwd.rehash = false) : s.emInsert e rep = (s, 1) :=
  if_pos (by rw [hfailed, hidle]; rfl)

theorem emInsert_found {p : EmPlace} {o : EmEntry} (hok : s.fwd.rehashFailed = false)
    (hfind : s.fwd.emFind s.emSeeds e.key = some p) (hat : s.fwd.emAt p = some o) :
    s.emInsert e false = (s, 4) ∧ s.emInsert e true =
      ({ s with fwd := s.fwd.emWrite p { o with dest := e.dest, static := e.static, ageEn := e.ageEn } }, 0) := by
  unfold State.emInsert
  simp only [hok, hfind, hat, Bool.false_and, Bool.false_eq_true, if_false, Bool.not_true, Bool.not_false, if_true, and_self]

section
variable (hok : s.fwd.rehashFailed = false) (hfind : s.fwd.emFind s.emSeeds e.key = none)
include hok hfind

theorem emInsert_full (hfull : s.word Reg.fwdEmLimit [e.ktype] ≤ s.fwd.ktUsed e.ktype) : s.emInsert e rep = (s, 7) := by
  unfold State.emInsert
  simp only [hok, hfind, hfull, Bool.false_and, Bool.false_eq_true, if_false, if_true]

theorem emInsert_placed {f : Fwd} (hroom : ¬ s.word Reg.fwdEmLimit [e.ktype] ≤ s.fwd.ktUsed e.ktype)
    (hplace : s.fwd.emPlace s.placeSeeds (s.fld Reg.fwdTblCfg [] 6 4) { e with hit := false, born := s.bornNow, stamp := 0 } = some f) :
    s.emInsert e rep = ({ s with fwd := f }, 0) := by
  unfold State.emInsert
  simp only [hok, hfind, hroom, hplace, Bool.false_and, Bool.false_eq_true, if_false]

theorem emInsert_noPlace (hroom : ¬ s.word Reg.fwdEmLimit [e.ktype] ≤ s.fwd.ktUsed e.ktype)
    (hplace : s.fwd.emPlace s.placeSeeds (s.fld Reg.fwdTblCfg [] 6 4) { e with hit := false, born := s.bornNow, stamp := 0 } = none) :
    s.emInsert e rep = s.noPlace s.placeSeeds { e with hit := false, born := s.bornNow, stamp := 0 } := by
  unfold State.emInsert
  simp only [hok, hfind, hroom, hplace, Bool.false_and, Bool.false_eq_true, if_false]

end

theorem noPlace_noEvict {seeds : List Nat} (hcode : s.fld Reg.fwdTblCfg [] 2 2 = 0) :
    s.noPlace seeds e = ((s.fwdNotice 5 e.domain e.ktype e.value (destPort e.dest) 0).raise 227 0, 6) := by
  refine if_pos ?_
  rw [hcode]
  rfl

end

/-! ### Express commands -/

theorem expCommand_clear (hbit : bitOf (s.fwdArg set 2) 30 = false) : s.expCommand set 4 i =
    ({ s with fwd := { s.fwd with express := mapErase s.fwd.express i } }).endFwd set 0 0 :=
  (if_pos rfl).trans (if_pos (by rw [hbit]; rfl))

theorem expCommand_write (hbit : bitOf (s.fwdArg set 2) 30 = true) : s.expCommand set 4 i =
    if !(s.fwdEntry set).keyOk || !destOk (s.fwdEntry set).dest false then s.endFwd set 2 0
    else ({ s with fwd := { s.fwd with
      express := mapPut s.fwd.express i { s.fwdEntry set with born := s.bornNow } } }).endFwd set 0 0 :=
  (if_pos rfl).trans (if_neg (by rw [hbit]; exact Bool.false_ne_true))

theorem expCommand_read : s.expCommand set 5 i =
    (s.putFwdArgs set (((mapFind s.fwd.express i).map EmEntry.words).getD [0, 0, 0, 0])).endFwd set 0 0 := by
  refine (if_neg (by decide)).trans ?_
  cases mapFind s.fwd.express i <;> rfl

/-! ### Rehash -/

theorem emPut_probe (f : Fwd) (p : EmPlace) (e : EmEntry) : (f.emPut p e).probe = f.probe := by cases p <;> rfl

theorem emClear_probe (f : Fwd) (p : EmPlace) : (f.emClear p).probe = f.probe := by cases p <;> rfl

theorem moveChain_probe (path : List Nat) : ∀ f : Fwd, (f.moveChain path).probe = f.probe := by
  induction path with
  | nil => exact fun f => rfl
  | cons d rest ih =>
    intro f
    cases rest with
    | nil => rfl
    | cons n rest =>
      unfold Fwd.moveChain
      split
      · rw [ih, emClear_probe, emPut_probe]
      · exact ih f

theorem emPlace_probe {f g : Fwd} {seeds : List Nat} {kick : Nat} {e : EmEntry} (h : f.emPlace seeds kick e = some g) :
    g.probe = f.probe := by
  unfold Fwd.emPlace at h
  dsimp only at h
  split at h
  · rw [← Option.some.inj h, emPut_probe]
  · split at h
    · rw [← Option.some.inj h, emPut_probe, moveChain_probe]
    · obtain ⟨b, -, h⟩ := Option.bind_eq_some_iff.1 h
      obtain ⟨n, -, h⟩ := Option.map_eq_some_iff.1 h
      rw [← h, emPut_probe]

theorem replaceKey_probe {f g : Fwd} {sets : List (List Nat)} {seeds : List Nat} {kick key : Nat}
    (h : f.replaceKey sets seeds kick key = some g) : g.probe = f.probe := by
  unfold Fwd.replaceKey at h
  split at h
  · rw [← Option.some.inj h]
  · split at h
    · rw [← Option.some.inj h]
    · rw [emPlace_probe h, emClear_probe]

/-- The entries of a rehash placed again, up to the first that finds no place. -/
def State.rehashed (s : State) : Fwd × Bool :=
  (s.fwd.buckets.map (fun p => p.2.key) ++ s.fwd.stash.map (fun p => p.2.key)).foldl (fun (r : Fwd × Bool) k =>
    if r.2 then
      match r.1.replaceKey s.emSeeds s.placeSeeds (s.fld Reg.fwdTblCfg [] 6 4) k with
      | some f => (f, true)
      | none => (r.1, false)
    else r) (s.fwd, true)

theorem rehashed_probe : s.rehashed.1.probe = s.fwd.probe := by
  refine List.foldlRecOn (motive := fun (r : Fwd × Bool) => r.1.probe = s.fwd.probe) _ _ rfl ?_
  intro r hr k _
  split
  · split
    · rename_i f hf
      exact (replaceKey_probe hf).trans hr
    · exact hr
  · exact hr

/-- The seeds of a probe set written into the seed registers. -/
def State.takeSeeds (s : State) (seeds : List Nat) : State :=
  (List.range 4).foldl (fun t k => t.setWord Reg.fwdSeed [k] (ix seeds k)) s

theorem takeSeeds_eq (seeds : List Nat) : s.takeSeeds seeds =
    (((s.setWord Reg.fwdSeed [0] (ix seeds 0)).setWord Reg.fwdSeed [1] (ix seeds 1)).setWord Reg.fwdSeed [2] (ix seeds 2)).setWord
      Reg.fwdSeed [3] (ix seeds 3) := by
  rw [State.takeSeeds, show List.range 4 = [0, 1, 2, 3] from rfl]
  simp only [List.foldl_cons, List.foldl_nil]

theorem takeSeeds_fwd (seeds : List Nat) : (s.takeSeeds seeds).fwd = s.fwd := by
  simp only [takeSeeds_eq, setWord_fwd]

theorem seedAddr_ne {j k : Nat} (h : j ≠ k) : Reg.fwdSeed.addr [j] ≠ Reg.fwdSeed.addr [k] := by
  simp only [RegDef.addr, idxOff, Reg.fwdSeed]
  omega

theorem takeSeeds_word (seeds : List Nat) {k : Nat} (hk : k < 4) : (s.takeSeeds seeds).word Reg.fwdSeed [k] = ix seeds k := by
  rw [takeSeeds_eq]
  obtain rfl | rfl | rfl | rfl : k = 0 ∨ k = 1 ∨ k = 2 ∨ k = 3 := by omega
  · rw [word_setWord_ne (seedAddr_ne (by decide)), word_setWord_ne (seedAddr_ne (by decide)),
      word_setWord_ne (seedAddr_ne (by decide)), word_setWord_self]
  · rw [word_setWord_ne (seedAddr_ne (by decide)), word_setWord_ne (seedAddr_ne (by decide)), word_setWord_self]
  · rw [word_setWord_ne (seedAddr_ne (by decide)), word_setWord_self]
  · exact word_setWord_self ..

theorem endRehash_running (hrunning : s.fwd.rehash = true) : s.endRehash =
    if s.rehashed.2 then
      (({ s with fwd := { s.rehashed.1 with rehash := false, probe := [] } }).takeSeeds s.placeSeeds).raise 228 0
    else { s with fwd := { s.rehashed.1 with rehash := false, rehashFailed := true } } :=
  if_neg (by rw [hrunning]; exact Bool.false_ne_true)

theorem EventFrame.fwd_eq {u : State} (h : EventFrame s u) : u.fwd = s.fwd := by
  rw [show u = s.eventOn u from h]
  rfl

theorem EventFrame.word_eq {u : State} (h : EventFrame s u) (r : RegDef) (idx : List Nat) : u.word r idx = s.word r idx := by
  rw [show u = s.eventOn u from h]
  rfl

theorem endRehash_cases (hrunning : s.fwd.rehash = true) : s.endRehash.fwd.rehash = false
    ∧ ((s.endRehash.fwd.probe = [] ∧ ∀ k, k < 4 → s.endRehash.word Reg.fwdSeed [k] = s.placeSeeds.getD k 0)
      ∨ (s.endRehash.fwd.rehashFailed = true ∧ s.endRehash.fwd.probe = s.fwd.probe ∧ s.endRehash.regs = s.regs)) := by
  rw [endRehash_running hrunning]
  split
  · have hframe := EventFrame.raise (({ s with fwd := { s.rehashed.1 with rehash := false, probe := [] } }).takeSeeds
      s.placeSeeds) 228 0 none {}
    rw [hframe.fwd_eq, takeSeeds_fwd]
    exact ⟨rfl, .inl ⟨rfl, fun k hk => (hframe.word_eq _ _).trans (takeSeeds_word _ hk)⟩⟩
  · exact ⟨rfl, .inr ⟨rfl, rehashed_probe, rfl⟩⟩

end

/-- Settles O45, by the branches of each command over the tables and the end of the rehash's fold over the keys. -/
theorem addressesAreKept : Obligations.AddressesAreKept := by
  unfold Obligations.AddressesAreKept
  intro s m set hset hown hreleased a e fin
  refine ⟨fun hw hfree => ?commands, fun hr hbusy => ?busy, fun hready => ⟨fun hidle => ?idle, fun hrunning => ?running⟩⟩
  case busy => exact run_fwdRow (taken := false) hset (by decide) hr (fwdCommand_busy (s := s.begun) hbusy)
  case idle => exact runBlock_effect (f := fun t => t.endRehash) hreleased hready (if_pos (by rw [show s.begun.fwd.rehash = false from hidle]; rfl))
  case running =>
    exact ⟨_, runBlock_effect (f := fun t => t.endRehash) hreleased hready rfl, endRehash_cases (s := s.begun) hrunning⟩
  case commands =>
    have hdo : ∀ {op i : Nat} {rep : Bool} {r : Nat} {u : State}, i < 4096 → s.begun.fwdDo m set op rep i = u.endFwd set r 0 →
        runMain (fun t => t.fwdRow m set op rep i) s = fin op rep i r u := fun hi hu =>
      run_fwdRow (taken := true) hset hi hw.1 ((fwdCommand_served (s := s.begun) ⟨hset, hown⟩ hfree).trans (congrArg (·, true) hu))
    have hem : ∀ {op : Nat} {rep : Bool} {r : Nat} {u : State}, 1 ≤ op ∧ op ≤ 3 → s.begun.emCommand set op rep = u.endFwd set r 0 →
        runMain (fun t => t.fwdRow m set op rep 0) s = fin op rep 0 r u := fun hop hu =>
      hdo (by decide) ((if_pos (by rw [decide_eq_true hop.1, decide_eq_true hop.2]; rfl)).trans hu)
    refine ⟨fun hkey hdest => ?insert, fun hkey => ⟨fun p hfind => ?found, fun hfind => ?absent⟩, fun hkey => ?badKey,
      fun i hi => ⟨fun hbit => ?clear, fun hbit => ?write, hdo hi (expCommand_read (s := s.begun))⟩,
      fun hother => hdo (by decide) (if_pos hother),
      fun hfw hrunning => hdo (by decide) ((if_neg (not_not.2 hfw)).trans (if_pos hrunning)),
      fun hfw hidle => hdo (by decide) ((if_neg (not_not.2 hfw)).trans (if_neg (Bool.eq_false_iff.1 hidle)))⟩
    case insert =>
      have hins : ∀ {rep : Bool} {r : Nat} {u : State}, s.begun.emInsert e rep = (u, r) →
          exec (.emInsert m set rep) s = fin 1 rep 0 r u := fun h =>
        hem (by decide) ((emCommand_insert (s := s.begun) hkey hdest).trans
          (congrArg (fun x : State × Nat => x.1.endFwd set x.2 0) h))
      refine ⟨fun p o hfind hat hok => ?_, fun rep hfailed hidle => hins (emInsert_failed (s := s.begun) hfailed hidle),
        fun rep hfind hok => ?_⟩
      · obtain ⟨hkeep, hreplace⟩ := emInsert_found (s := s.begun) hok hfind hat
        exact ⟨hins hkeep, hins hreplace⟩
      · exact ⟨fun hfull => hins (emInsert_full (s := s.begun) hok hfind hfull),
          fun hroom f hplace => hins (emInsert_placed (s := s.begun) hok hfind hroom hplace),
          fun hroom hplace hcode => hins ((emInsert_noPlace (s := s.begun) hok hfind hroom hplace).trans
            (noPlace_noEvict (s := s.begun) hcode))⟩
    case found =>
      refine ⟨hem (by decide) (emCommand_found (s := s.begun) (by decide) hkey hfind), fun o hat => hem (by decide) ?_⟩
      refine (emCommand_found (s := s.begun) (by decide) hkey hfind).trans ((if_neg (by decide)).trans ?_)
      rw [show s.begun.fwd.emAt p = some o from hat]
      rfl
    case absent =>
      exact ⟨hem (by decide) (emCommand_absent (s := s.begun) (by decide) hkey hfind),
        hem (by decide) (emCommand_absent (s := s.begun) (by decide) hkey hfind)⟩
    case badKey => exact ⟨hem (by decide) (emCommand_badKey (s := s.begun) hkey), hem (by decide) (emCommand_badKey (s := s.begun) hkey),
        fun rep => hem (by decide) (emCommand_badKey (s := s.begun) hkey)⟩
    case clear => exact hdo hi (expCommand_clear (s := s.begun) hbit)
    case write =>
      have hexp := expCommand_write (s := s.begun) (set := set) (i := i) hbit
      refine ⟨fun hkey hdest => hdo hi (hexp.trans (if_neg ?_)), fun hbad => hdo hi (hexp.trans (if_pos ?_))⟩
      · rw [show (s.begun.fwdEntry set).keyOk = true from hkey, show destOk (s.begun.fwdEntry set).dest false = true from hdest]
        exact Bool.false_ne_true
      · rcases hbad with hkey | hdest
        · rw [show (s.begun.fwdEntry set).keyOk = false from hkey]
          rfl
        · rw [show destOk (s.begun.fwdEntry set).dest false = false from hdest]
          exact Bool.or_true _

end Sys2Proof.Machine
end

