-- ==== Sys2Proof/Proofs/FlowCommands.lean ====
section

/-! O46: the flow and route tables (spec/13 R390-R393, R399). -/

namespace Sys2Proof.Machine

section
variable {s : State} {m : Master} {set op r : Nat} {rep : Bool}

theorem mapGet_of_mapFind {α : Type} {d x : α} {m : AMap α} {q : Nat} (h : mapFind m q = some x) : mapGet d m q = x := by
  induction m with
  | nil => exact absurd h (by simp [mapFind])
  | cons p m ih =>
    obtain ⟨k, v⟩ := p
    unfold mapFind at h
    unfold mapGet
    split at h
    · rw [if_pos (by assumption)]
      exact Option.some.inj h
    · rw [if_neg (by assumption)]
      exact ih h

/-! ### Flow commands -/

/-- The flow entry that the argument words of a set describe. -/
def State.flowEntry (s : State) (set : Nat) : FlowEntry :=
  let w := s.fwdArg set 12
  { key := s.flowKeyArg set, dest := bitsOf (s.fwdArg set 11) 0 27, sa := bitsOf w 0 24, saEn := bitOf w 24, ageEn := bitOf w 27
    cookie := s.fwdArg set 13 }

theorem flowCommand_unready (hmem : s.ready 16 = false) : s.flowCommand m set op r rep = s.endFwd set 1 0 :=
  if_pos (by rw [hmem]; rfl)

section
variable (hmem : s.ready 16 = true)
include hmem

theorem flowCommand_invalid (h : 2112 ≤ r ∨ flowKeyOk (s.flowKeyArg set) = false) :
    s.flowCommand m set op r rep = s.endFwd set 2 0 := by
  refine (if_neg (by rw [hmem]; exact Bool.false_ne_true)).trans (if_pos ?_)
  rcases h with h | h
  · rw [decide_eq_true h]; rfl
  · rw [h]; simp only [Bool.not_false, Bool.or_true, Bool.true_or]

variable (hr : r < 2112) (hkey : flowKeyOk (s.flowKeyArg set) = true)
  (hdest : op = 6 → destOk (s.flowEntry set).dest true = true)
include hr hkey hdest

omit hmem in
theorem flow_valid : ¬ (2112 ≤ r || !flowKeyOk (s.flowKeyArg set) || (op = 6 && !destOk (bitsOf (s.fwdArg set 11) 0 27) true)) = true := by
  rw [hkey, decide_eq_false (Nat.not_le.2 hr)]
  by_cases hop : op = 6
  · rw [show destOk (bitsOf (s.fwdArg set 11) 0 27) true = true from hdest hop, Bool.not_true, Bool.and_false]
    exact Bool.false_ne_true
  · rw [decide_eq_false hop]
    exact Bool.false_ne_true

theorem flowCommand_denied (hregion : s.regionAllowed m set r = false) : s.flowCommand m set op r rep = s.endFwd set 3 0 :=
  (if_neg (by rw [hmem]; exact Bool.false_ne_true)).trans ((if_neg (flow_valid hr hkey hdest)).trans
    (if_pos (by rw [hregion]; rfl)))

section
variable (hregion : s.regionAllowed m set r = true)
include hregion

theorem flowCommand_insert (hop : op = 6) : s.flowCommand m set op r rep =
    (s.flowInsert r (s.flowEntry set) rep).1.endFwd set (s.flowInsert r (s.flowEntry set) rep).2.1
      (s.flowInsert r (s.flowEntry set) rep).2.2 :=
  (if_neg (by rw [hmem]; exact Bool.false_ne_true)).trans ((if_neg (flow_valid hr hkey hdest)).trans
    ((if_neg (by rw [hregion]; exact Bool.false_ne_true)).trans (if_pos hop)))

theorem flowCommand_absent (hop : op ≠ 6) (hfind : s.flowFind r (s.flowKeyArg set) = none) :
    s.flowCommand m set op r rep = s.endFwd set 5 0 := by
  refine (if_neg (by rw [hmem]; exact Bool.false_ne_true)).trans ((if_neg (flow_valid hr hkey hdest)).trans
    ((if_neg (by rw [hregion]; exact Bool.false_ne_true)).trans ((if_neg hop).trans ?_)))
  rw [hfind]

theorem flowCommand_found {i : Nat} (hop : op ≠ 6) (hfind : s.flowFind r (s.flowKeyArg set) = some i) :
    s.flowCommand m set op r rep =
      if op = 7 then ({ s with fwd := { s.fwd with flows := mapErase s.fwd.flows i } }).endFwd set 0 0
      else (s.putFwdArgs set (mapGet {} s.fwd.flows i).words).endFwd set 0 0 := by
  refine (if_neg (by rw [hmem]; exact Bool.false_ne_true)).trans ((if_neg (flow_valid hr hkey hdest)).trans
    ((if_neg (by rw [hregion]; exact Bool.false_ne_true)).trans ((if_neg hop).trans ?_)))
  rw [hfind]

end
end

theorem flowInsert_found {e o : FlowEntry} {i : Nat} (hfind : s.flowFind r e.key = some i) (hat : mapFind s.fwd.flows i = some o) :
    s.flowInsert r e false = (s, 4, 0) ∧ s.flowInsert r e true = (s.setFlow i { e with hit := o.hit }, 0, flowHandle i) := by
  unfold State.flowInsert
  simp only [hfind, hat, Bool.not_false, Bool.not_true, Bool.false_eq_true, if_true, if_false, and_self]

/-- The free slots of a bucket. -/
def State.freeFlows (s : State) (b : Nat) : List Nat :=
  ((List.range 8).map (b + ·)).filter (fun i => (mapFind s.fwd.flows i).isNone)

theorem flowInsert_free {e : FlowEntry} {i : Nat} {is : List Nat} (hfind : s.flowFind r e.key = none)
    (hfree : (if (s.freeFlows ((s.flowBuckets r e.key).getD 0 0)).length < (s.freeFlows ((s.flowBuckets r e.key).getD 1 0)).length
      then s.freeFlows ((s.flowBuckets r e.key).getD 1 0) else s.freeFlows ((s.flowBuckets r e.key).getD 0 0)) = i :: is) :
    s.flowInsert r e rep = (s.setFlow i { e with hit := false }, 0, flowHandle i) := by
  rw [← apply_ite s.freeFlows] at hfree
  unfold State.freeFlows at hfree
  unfold State.flowInsert
  simp only [hfind, ix]
  split
  · rename_i j js hslots
    have hsame := List.cons.inj (hslots.symm.trans hfree)
    rw [hsame.1]
  · rename_i hslots
    exact absurd (hslots.symm.trans hfree) (List.cons_ne_nil i is).symm

/-! ### Route commands -/

/-- The routes of the table. -/
def State.putRoutes (s : State) (l : List Route) : State := { s with fwd := { s.fwd with routes := l } }

theorem lpmCommand_unready (hmem : s.ready 16 = false) : s.lpmCommand set op = s.endFwd set 1 0 := if_pos (by rw [hmem]; rfl)

section
variable (hmem : s.ready 16 = true)
include hmem

theorem lpmCommand_invalid (harg : s.routeArg set = none) : s.lpmCommand set op = s.endFwd set 2 0 := by
  refine (if_neg (by rw [hmem]; exact Bool.false_ne_true)).trans ?_
  rw [harg]

theorem lpmCommand_add {q : Route} (harg : s.routeArg set = some q) : s.lpmCommand set 9 =
    if !destOk (bitsOf (s.fwdArg set 5) 0 27) false then s.endFwd set 2 0
    else if s.fwd.routes.any (fun p => p.same q) then
      (s.putRoutes (s.fwd.routes.map (fun (p : Route) => if p.same q then { p with dest := bitsOf (s.fwdArg set 5) 0 27 } else p))).endFwd
        set 0 0
    else if (if q.v6 then 2097152 else 4194304) ≤ s.routesHeld q.v6 then s.endFwd set 6 0
    else (s.putRoutes (s.fwd.routes ++ [{ q with dest := bitsOf (s.fwdArg set 5) 0 27 }])).endFwd set 0 0 := by
  refine (if_neg (by rw [hmem]; exact Bool.false_ne_true)).trans ?_
  rw [harg]
  exact if_pos rfl

theorem lpmCommand_del {q : Route} (harg : s.routeArg set = some q) : s.lpmCommand set 10 =
    if s.fwd.routes.any (fun p => p.same q) then
      (s.putRoutes (s.fwd.routes.filter (fun p => !p.same q))).endFwd set 0 0
    else s.endFwd set 5 0 := by
  refine (if_neg (by rw [hmem]; exact Bool.false_ne_true)).trans ?_
  rw [harg]
  exact if_neg (by decide)

end
end

/-- Settles O46, by the checks of a flow command in their order and the branches of a route command. -/
theorem flowsAndRoutesAreKept : Obligations.FlowsAndRoutesAreKept := by
  unfold Obligations.FlowsAndRoutesAreKept
  intro s m set r hset hown hr hreleased a key w e fin hw hfree
  have hdo : ∀ {op i res out : Nat} {rep : Bool} {u : State}, i < 4096 → s.begun.fwdDo m set op rep i = u.endFwd set res out →
      runMain (fun t => t.fwdRow m set op rep i) s = fin op rep i res out u := fun hi hu =>
    run_fwdRow (taken := true) hset hi hw.1 ((fwdCommand_served (s := s.begun) ⟨hset, hown⟩ hfree).trans (congrArg (·, true) hu))
  have hflow : ∀ {op res out : Nat} {rep : Bool} {u : State}, op = 6 ∨ op = 7 ∨ op = 8 →
      s.begun.flowCommand m set op r rep = u.endFwd set res out →
      runMain (fun t => t.fwdRow m set op rep r) s = fin op rep r res out u := fun hop hu => hdo hr (by
    rcases hop with rfl | rfl | rfl <;> exact hu)
  have hlpm : ∀ {op res : Nat} {u : State}, op = 9 ∨ op = 10 → s.begun.lpmCommand set op = u.endFwd set res 0 →
      runMain (fun t => t.fwdRow m set op false 0) s = fin op false 0 res 0 u := fun hop hu => hdo (by decide) (by
    rcases hop with rfl | rfl <;> exact hu)
  refine ⟨fun hmem => ?unready, fun hmem => ⟨fun hbad => ?invalid, fun hlow hkey => ?flows, fun harg => ?badRoute, fun q harg => ?routes⟩⟩
  case unready =>
    exact ⟨hflow (by decide) (flowCommand_unready (s := s.begun) hmem), hflow (by decide) (flowCommand_unready (s := s.begun) hmem),
      hflow (by decide) (flowCommand_unready (s := s.begun) hmem), hlpm (by decide) (lpmCommand_unready (s := s.begun) hmem),
      hlpm (by decide) (lpmCommand_unready (s := s.begun) hmem)⟩
  case invalid =>
    exact ⟨hflow (by decide) (flowCommand_invalid (s := s.begun) hmem hbad), hflow (by decide) (flowCommand_invalid (s := s.begun) hmem hbad),
      fun rep => hflow (by decide) (flowCommand_invalid (s := s.begun) hmem hbad)⟩
  case badRoute =>
    exact ⟨hlpm (by decide) (lpmCommand_invalid (s := s.begun) hmem harg), hlpm (by decide) (lpmCommand_invalid (s := s.begun) hmem harg)⟩
  case routes =>
    intro dest old put
    have hadd := lpmCommand_add (s := s.begun) hmem harg
    have hdel := lpmCommand_del (s := s.begun) hmem harg
    have hgood : destOk dest false = true → ¬ (!destOk (bitsOf (s.begun.fwdArg set 5) 0 27) false) = true := fun hdest => by
      rw [show destOk (bitsOf (s.begun.fwdArg set 5) 0 27) false = true from hdest]
      exact Bool.false_ne_true
    refine ⟨fun hdest => hlpm (.inl rfl) (hadd.trans (if_pos ?_)),
      fun hdest hold => hlpm (.inl rfl) (hadd.trans ((if_neg (hgood hdest)).trans (if_pos hold))),
      fun hdest hnew => ⟨fun hroom => hlpm (.inl rfl) (hadd.trans ((if_neg (hgood hdest)).trans ((if_neg
          (Bool.eq_false_iff.1 hnew)).trans (if_neg (Nat.not_le.2 hroom))))),
        fun hfull => hlpm (.inl rfl) (hadd.trans ((if_neg (hgood hdest)).trans ((if_neg (Bool.eq_false_iff.1 hnew)).trans
          (if_pos hfull))))⟩,
      fun hold => hlpm (.inr rfl) (hdel.trans (if_pos hold)), fun hnew => hlpm (.inr rfl) (hdel.trans (if_neg (Bool.eq_false_iff.1 hnew)))⟩
    rw [show destOk (bitsOf (s.begun.fwdArg set 5) 0 27) false = false from hdest]
    rfl
  case flows =>
    have hnot : ∀ {op : Nat}, op = 7 ∨ op = 8 → op = 6 → destOk (s.begun.flowEntry set).dest true = true := fun h h6 => by omega
    refine ⟨fun hregion => ⟨hflow (by decide) ?_, hflow (by decide) ?_, fun hdest rep => hflow (by decide) ?_⟩,
      fun hregion => ⟨fun i o hfind hat => ?found, fun hfind => ?absent⟩⟩
    · exact flowCommand_denied (s := s.begun) hmem hlow hkey (hnot (.inl rfl)) hregion
    · exact flowCommand_denied (s := s.begun) hmem hlow hkey (hnot (.inr rfl)) hregion
    · exact flowCommand_denied (s := s.begun) hmem hlow hkey (fun _ => hdest) hregion
    case found =>
      refine ⟨hflow (by decide) (flowCommand_found (s := s.begun) hmem hlow hkey (hnot (.inl rfl)) hregion (by decide) hfind),
        hflow (by decide) ?_, fun hdest => ?_⟩
      · refine (flowCommand_found (s := s.begun) hmem hlow hkey (hnot (.inr rfl)) hregion (by decide) hfind).trans
          ((if_neg (by decide)).trans ?_)
        rw [mapGet_of_mapFind (m := s.begun.fwd.flows) hat]
      · have hinsert := fun rep => flowCommand_insert (s := s.begun) (m := m) (rep := rep) hmem hlow hkey (fun _ => hdest) hregion rfl
        obtain ⟨hkeep, hreplace⟩ := flowInsert_found (s := s.begun) (e := e) hfind hat
        exact ⟨hflow (by decide) ((hinsert false).trans
            (congrArg (fun x : State × Nat × Nat => x.1.endFwd set x.2.1 x.2.2) hkeep)),
          hflow (by decide) ((hinsert true).trans (congrArg (fun x : State × Nat × Nat => x.1.endFwd set x.2.1 x.2.2) hreplace))⟩
    case absent =>
      refine ⟨hflow (by decide) (flowCommand_absent (s := s.begun) hmem hlow hkey (hnot (.inl rfl)) hregion (by decide) hfind),
        hflow (by decide) (flowCommand_absent (s := s.begun) hmem hlow hkey (hnot (.inr rfl)) hregion (by decide) hfind), ?_⟩
      intro hdest bs free fa fb rep i is hslots
      exact hflow (by decide) ((flowCommand_insert (s := s.begun) hmem hlow hkey (fun _ => hdest) hregion rfl).trans
        (congrArg (fun x : State × Nat × Nat => x.1.endFwd set x.2.1 x.2.2) (flowInsert_free (s := s.begun) (e := e) hfind hslots)))

end Sys2Proof.Machine
end

