-- ==== Sys2Proof/Proofs/CryptoCommands.lean ====
section

/-! O47: security associations and crypto lanes (spec/14 R436, R438). -/

namespace Sys2Proof.Machine

section
variable {s : State} {m : Master}

/-! ### The way of a command -/

/-- What a write of a command to an SA command set does, where the effect takes it. -/
theorem run_saRow {v : State} {set op i : Nat} (hset : set < 5) (hi : i < 4194304)
    (hw : s.writes m (blockBase 12 + 0x5000 + 0x100 * set)) (he : State.saCommand m set op i s.begun = (v, true)) :
    runMain (fun t => t.saRow m set op i) s =
      .next (s.close (m.logged (blockBase 12 + 0x5000 + 0x100 * set) 4 (op + i * 8) v)) := by
  have hmod : i % 2 ^ 22 = i := Nat.mod_eq_of_lt hi
  refine runMain_effect (f := fun t => t.saRow m set op i) hw.1.1 ?_
  rw [State.saRow, if_neg (by omega), hmod, access_eff ((begun_reaches s m _).2 hw.1) _ _ _ _ (by rw [he]), he]

/-- What a write of a command to CRY_LANE_CMD does, where the effect takes it. -/
theorem run_laneRow {v : State} {op l : Nat} (hl : l < 8) (hw : s.writes m (blockBase 12 + 0x1100))
    (he : State.laneCommand m op l s.begun = (v, true)) :
    runMain (fun t => t.laneRow m op l) s = .next (s.close (m.logged (blockBase 12 + 0x1100) 4 (op + l * 4) v)) := by
  refine runMain_effect (f := fun t => t.laneRow m op l) hw.1.1 ?_
  rw [State.laneRow, if_neg (by omega), access_eff ((begun_reaches s m _).2 hw.1) _ _ _ _ (by rw [he]), he]

/-! ### SA commands -/

section
variable {set op i : Nat}

/-- What a command of a set does, once MEM is ready (spec/14 R436). -/
def State.saDo (s : State) (m : Master) (f op i : Nat) : State :=
  if op = 1 then s.saWrite m f i
  else if i = 0 || 4194303 < i then s.endSa f 2
  else if (s.sa i).valid && !s.saAllowed m f (s.sa i).owner then s.endSa f 3
  else if op = 2 then (s.putSaArgs f (s.sa i).words).endSa f 0
  else if op = 3 then if (s.sa i).valid then (s.setSa i { s.sa i with valid := false }).endSa f 0 else s.endSa f 5
  else if op = 4 then
    if (s.sa i).valid then
      (s.setSa i { s.sa i with softLimit := s.saArg f 8 + 2 ^ 32 * s.saArg f 9, softHit := false }).endSa f 0
    else s.endSa f 5
  else if (s.sa i).valid && (s.sa i).proto = 3 && (s.sa i).decrypt && (s.sa i).tlsState = 2 then
    (s.setSa i { s.sa i with resync := some (s.saArg f 0, s.saArg f 1 + 2 ^ 32 * s.saArg f 2) }).endSa f 0
  else s.endSa f 2

theorem saCommand_served (hm : m.commands set) (hfree : (s.cry.sets.getD set {}).busy = false) (hop : 1 ≤ op ∧ op ≤ 5) :
    State.saCommand m set op i s = (if s.ready 16 then s.saDo m set op i else s.endSa set 1, true) := by
  obtain ⟨hset, hown⟩ := hm
  have hop' : (op = 0 || 5 < op) = false := by simp; omega
  refine (if_neg ?_).trans (congrArg (·, true) ?_)
  · simp only [hfree, Bool.or_false, Bool.or_eq_true, Bool.and_eq_true, decide_eq_true_eq, Bool.not_eq_true']
    rintro (h | ⟨h, hfw⟩)
    · omega
    · rw [hown h] at hfw
      exact Bool.false_ne_true hfw.symm
  · cases hmem : s.ready 16
    · exact (if_pos rfl).trans (if_neg Bool.false_ne_true).symm
    · exact (if_neg Bool.false_ne_true).trans ((if_neg (Bool.eq_false_iff.1 hop')).trans (if_pos rfl).symm)

/-- A command over an entry of the table other than SA_WRITE. -/
theorem sa_inside (hi : 0 < i ∧ i < 4194304) : ¬ (i = 0 || 4194303 < i) = true := by simp; omega

theorem saDo_outside (hop : op ≠ 1) : s.saDo m set op 0 = s.endSa set 2 := (if_neg hop).trans (if_pos rfl)

section
variable (hi : 0 < i ∧ i < 4194304)
include hi

theorem saDo_denied (hop : op ≠ 1) (hvalid : (s.sa i).valid = true) (hallowed : s.saAllowed m set (s.sa i).owner = false) :
    s.saDo m set op i = s.endSa set 3 :=
  (if_neg hop).trans ((if_neg (sa_inside hi)).trans (if_pos (by rw [hvalid, hallowed]; rfl)))

section
variable (hgranted : ((s.sa i).valid && !s.saAllowed m set (s.sa i).owner) = false)
include hgranted

theorem saDo_read : s.saDo m set 2 i = (s.putSaArgs set (s.sa i).words).endSa set 0 :=
  (if_neg (by decide)).trans ((if_neg (sa_inside hi)).trans ((if_neg (Bool.eq_false_iff.1 hgranted)).trans (if_pos rfl)))

theorem saDo_delete : s.saDo m set 3 i =
    if (s.sa i).valid then (s.setSa i { s.sa i with valid := false }).endSa set 0 else s.endSa set 5 :=
  (if_neg (by decide)).trans ((if_neg (sa_inside hi)).trans ((if_neg (Bool.eq_false_iff.1 hgranted)).trans
    ((if_neg (by decide)).trans (if_pos rfl))))

theorem saDo_limit : s.saDo m set 4 i =
    if (s.sa i).valid then
      (s.setSa i { s.sa i with softLimit := s.saArg set 8 + 2 ^ 32 * s.saArg set 9, softHit := false }).endSa set 0
    else s.endSa set 5 :=
  (if_neg (by decide)).trans ((if_neg (sa_inside hi)).trans ((if_neg (Bool.eq_false_iff.1 hgranted)).trans
    ((if_neg (by decide)).trans ((if_neg (by decide)).trans (if_pos rfl)))))

theorem saDo_resync : s.saDo m set 5 i =
    if (s.sa i).valid && (s.sa i).proto = 3 && (s.sa i).decrypt && (s.sa i).tlsState = 2 then
      (s.setSa i { s.sa i with resync := some (s.saArg set 0, s.saArg set 1 + 2 ^ 32 * s.saArg set 2) }).endSa set 0
    else s.endSa set 2 :=
  (if_neg (by decide)).trans ((if_neg (sa_inside hi)).trans ((if_neg (Bool.eq_false_iff.1 hgranted)).trans
    ((if_neg (by decide)).trans ((if_neg (by decide)).trans (if_neg (by decide))))))

end
end

/-! ### SA_WRITE -/

/-- The number of key words of an algorithm. -/
def SaEntry.keyLen (x : SaEntry) : Nat := if x.alg % 2 = 0 then 7 else 11

/-- The argument words describe an SA that may be written (spec/14 R436). -/
structure SaValid (s : State) (f : Nat) : Prop where
  proto : (s.saOfArgs f).proto ≠ 0
  offset : (s.saOfArgs f).confOff ≠ 3
  owner : (s.saOfArgs f).owner ≤ 2051
  window : (s.saOfArgs f).winLog2 = 0 ∨ 6 ≤ (s.saOfArgs f).winLog2 ∧ (s.saOfArgs f).winLog2 ≤ 10
  tls : (s.saOfArgs f).proto = 3 → (s.saOfArgs f).alg < 2
  key : s.keyWords f = List.range (s.saOfArgs f).keyLen
  fused : bitOf s.fuses.features
    (if (s.saOfArgs f).proto = 2 then 0 else if (s.saOfArgs f).proto = 1 then 1 else 2) = true

/-- The entry that SA_WRITE stores, with a window: the counts and the soft limit begin afresh (spec/14 R436). -/
def State.saWritten (s : State) (f window : Nat) : SaEntry :=
  let n := s.saOfArgs f
  { n with
    valid := true, ownerGen := (s.inst n.owner).gen, key := (s.keyBytes f n.keyLen).take (4 * n.keyLen - 12)
    salt := (s.keyBytes f n.keyLen).drop (4 * n.keyLen - 12), stored := n.seq, window }

/-- The replay window of a new entry: its own sequence number alone. -/
def SaEntry.firstWindow (n : SaEntry) : Nat := if n.decrypt = true ∧ n.winLog2 ≠ 0 then 2 ^ (n.seq % 2 ^ n.winLog2) else 0

theorem saWrite_noProto (h : (s.saOfArgs set).proto = 0) : s.saWrite m set i = s.endSa set 2 :=
  if_pos (by rw [decide_eq_true h]; simp only [Bool.or_true, Bool.true_or])

theorem saWrite_zero : s.saWrite m set 0 = s.endSa set 2 := by
  unfold State.saWrite
  exact if_pos (by simp only [decide_true, Bool.true_or])

theorem saWrite_valid (hi : 0 < i ∧ i < 4194304) (h : SaValid s set) : s.saWrite m set i =
    if !s.saAllowed m set (s.saOfArgs set).owner then s.endSa set 3
    else if s.saLive (s.sa i) && (s.sa i).owner ≠ (s.saOfArgs set).owner then s.endSa set 6
    else if s.saShare (s.saOfArgs set).owner < s.saInUse (s.saOfArgs set).owner i + 1 then s.endSa set 4
    else (s.setSa i (s.saWritten set (s.saOfArgs set).firstWindow)).endSa set 0 := by
  obtain ⟨hproto, hoffset, howner, hwindow, htls, hkey, hfused⟩ := h
  refine (if_neg ?_).trans (if_congr Iff.rfl rfl (if_congr Iff.rfl rfl (if_congr Iff.rfl rfl ?_)))
  · simp only [Bool.or_eq_true, Bool.and_eq_true, Bool.not_eq_true', decide_eq_true_eq, not_or, not_and]
    refine ⟨⟨⟨⟨⟨⟨⟨⟨by omega, by omega⟩, hproto⟩, hoffset⟩, by omega⟩, ?_⟩, fun h => ?_⟩, not_not.2 hkey⟩, by rw [hfused]; decide⟩
    · rw [Bool.not_eq_false, Bool.or_eq_true, Bool.and_eq_true]
      simpa only [decide_eq_true_eq] using hwindow
    · have halg := htls h
      rw [SaEntry.gmac, decide_eq_true_eq]
      omega
  · exact congrArg (fun w => (s.setSa i (s.saWritten set w)).endSa set 0)
      (if_congr (by rw [Bool.and_eq_true, decide_eq_true_eq]) rfl rfl)

end

/-! ### Lane commands -/

section
variable {l : Nat} (hfw : m.isFw = true) (hfree : s.cry.laneCmd.busy = false)
include hfw hfree

theorem lane_served : ¬ (!m.isFw || s.cry.laneCmd.busy) = true := by
  rw [hfw, hfree]
  exact Bool.false_ne_true

theorem laneCommand_drain : State.laneCommand m 1 l s =
    (if (s.lane l).state ≠ .inService then s.endLane 1
     else if (s.inLanes (s.lane l).decrypt).length ≤ 1 then s.endLane 2
     else (s.setLane l { s.lane l with state := .draining }).endLane 0, true) := if_neg (lane_served hfw hfree)

theorem laneCommand_test : State.laneCommand m 2 l s =
    (if (s.lane l).state = .out || (s.lane l).state = .failed then
       { s.setLane l { s.lane l with state := .testing } with cry := { (s.setLane l { s.lane l with state := .testing }).cry with
         laneCmd := { (s.setLane l { s.lane l with state := .testing }).cry.laneCmd with busy := true } } }
     else s.endLane 1, true) := if_neg (lane_served hfw hfree)

theorem laneCommand_return : State.laneCommand m 3 l s =
    (if (s.lane l).state = .out then
       (s.setLane l { s.lane l with state := .inService, decrypt := s.bit Reg.cryLaneCtl [l] 0 }).endLane 0
     else s.endLane 1, true) := if_neg (lane_served hfw hfree)

end

theorem laneGoesOut_stays {l : Nat} (h : (s.lane l).state ≠ .draining ∨ s.missHeld l ≠ []) : s.laneGoesOut l = s := by
  refine if_neg ?_
  rw [Bool.and_eq_true, decide_eq_true_eq, decide_eq_true_eq, not_and_or]
  exact h

theorem laneGoesOut_empty {l : Nat} (hstate : (s.lane l).state = .draining) (hheld : s.missHeld l = []) :
    s.laneGoesOut l = (s.setLane l { s.lane l with state := .out, miss := [] }).raise 279 l :=
  if_pos (by rw [decide_eq_true hstate, decide_eq_true hheld]; rfl)

end

/-- Settles O47, by the checks of each command in their order and the states of a lane. -/
theorem cryptoIsManaged : Obligations.CryptoIsManaged := by
  unfold Obligations.CryptoIsManaged
  intro s m hreleased
  refine ⟨fun set i hset hown hi => ?_, fun l hl => ?_⟩
  · intro a fin n kw x hw hfree
    have hcmd : ∀ {op r : Nat} {u : State}, 1 ≤ op ∧ op ≤ 5 → (if s.ready 16 then s.begun.saDo m set op i else s.begun.endSa set 1) =
        u.endSa set r → runMain (fun t => t.saRow m set op i) s = fin op r u := fun hop hu =>
      run_saRow hset hi hw ((saCommand_served (s := s.begun) ⟨hset, hown⟩ hfree hop).trans (congrArg (·, true) hu))
    refine ⟨fun hmem => ?unready, fun hmem hzero => ?zero, fun hmem hpos => ?entry⟩
    case unready =>
      have hno : ∀ {op : Nat}, 1 ≤ op ∧ op ≤ 5 → runMain (fun t => t.saRow m set op i) s = fin op 1 s.begun := fun hop =>
        hcmd hop (if_neg (Bool.eq_false_iff.1 hmem))
      exact ⟨hno (by decide), hno (by decide), hno (by decide), hno (by decide), hno (by decide)⟩
    case zero =>
      subst hzero
      exact ⟨hcmd (by decide) ((if_pos hmem).trans (saWrite_zero (s := s.begun) (m := m))),
        hcmd (by decide) ((if_pos hmem).trans (saDo_outside (s := s.begun) (by decide)))⟩
    case entry =>
      have hdo : ∀ {op r : Nat} {u : State}, 1 ≤ op ∧ op ≤ 5 → s.begun.saDo m set op i = u.endSa set r →
          runMain (fun t => t.saRow m set op i) s = fin op r u := fun hop hu => hcmd hop ((if_pos hmem).trans hu)
      refine ⟨fun hproto hoffset howner hwindow htls hkey hfused => ?valid,
        fun h => hdo (by decide) (saWrite_noProto (s := s.begun) h), fun hvalid hdenied => ?denied,
        fun hvalid hallowed => ?allowed, fun hinvalid => ?invalid⟩
      case valid =>
        have hwrite := saWrite_valid (s := s.begun) (m := m) (set := set) ⟨hpos, hi⟩
          ⟨hproto, hoffset, howner, hwindow, htls, hkey, hfused⟩
        have hallowed : s.saAllowed m set n.owner = true → ¬ (!s.begun.saAllowed m set (s.begun.saOfArgs set).owner) = true := fun h => by
          rw [show s.begun.saAllowed m set (s.begun.saOfArgs set).owner = true from h]
          exact Bool.false_ne_true
        refine ⟨fun hdenied => hdo (by decide) (hwrite.trans (if_pos ?_)),
          fun hown hlive hother => hdo (by decide) (hwrite.trans ((if_neg (hallowed hown)).trans (if_pos ?_))), fun hown hfree => ?_⟩
        · rw [show s.begun.saAllowed m set (s.begun.saOfArgs set).owner = false from hdenied]
          rfl
        · rw [show s.begun.saLive (s.begun.sa i) = true from hlive, decide_eq_true (show (s.begun.sa i).owner ≠ (s.begun.saOfArgs set).owner
            from hother)]
          rfl
        · have hfree' : ¬ (s.begun.saLive (s.begun.sa i) && (s.begun.sa i).owner ≠ (s.begun.saOfArgs set).owner) = true := by
            rw [Bool.and_eq_true, decide_eq_true_eq]
            rintro ⟨hlive, hother⟩
            exact hfree.elim (fun h => Bool.false_ne_true (h.symm.trans hlive)) hother
          exact ⟨fun hfull => hdo (by decide) (hwrite.trans ((if_neg (hallowed hown)).trans ((if_neg hfree').trans
              (if_pos (Nat.lt_succ_of_le hfull))))),
            fun hroom => hdo (by decide) (hwrite.trans ((if_neg (hallowed hown)).trans ((if_neg hfree').trans
              (if_neg (Nat.not_lt.2 hroom)))))⟩
      case denied =>
        have hno : ∀ {op : Nat}, op ≠ 1 → 1 ≤ op ∧ op ≤ 5 → runMain (fun t => t.saRow m set op i) s = fin op 3 s.begun := fun hne hop =>
          hdo hop (saDo_denied (s := s.begun) ⟨hpos, hi⟩ hne hvalid hdenied)
        exact ⟨hno (by decide) (by decide), hno (by decide) (by decide), hno (by decide) (by decide), hno (by decide) (by decide)⟩
      case allowed =>
        have hgranted : ((s.begun.sa i).valid && !s.begun.saAllowed m set (s.begun.sa i).owner) = false := by
          rw [show s.begun.saAllowed m set (s.begun.sa i).owner = true from hallowed, Bool.not_true, Bool.and_false]
        have hresync := saDo_resync (s := s.begun) ⟨hpos, hi⟩ hgranted
        refine ⟨hdo (by decide) (saDo_read (s := s.begun) ⟨hpos, hi⟩ hgranted),
          hdo (by decide) ((saDo_delete (s := s.begun) ⟨hpos, hi⟩ hgranted).trans (if_pos hvalid)),
          hdo (by decide) ((saDo_limit (s := s.begun) ⟨hpos, hi⟩ hgranted).trans (if_pos hvalid)),
          fun hproto hdecrypt htls => hdo (by decide) (hresync.trans (if_pos ?_)),
          fun htls => hdo (by decide) (hresync.trans (if_neg ?_))⟩
        · rw [show (s.begun.sa i).valid = true from hvalid, show (s.begun.sa i).proto = 3 from hproto,
            show (s.begun.sa i).decrypt = true from hdecrypt, show (s.begun.sa i).tlsState = 2 from htls]
          rfl
        · rw [decide_eq_false (show (s.begun.sa i).tlsState ≠ 2 from htls), Bool.and_false]
          exact Bool.false_ne_true
      case invalid =>
        have hgranted : ((s.begun.sa i).valid && !s.begun.saAllowed m set (s.begun.sa i).owner) = false := by
          rw [show (s.begun.sa i).valid = false from hinvalid, Bool.false_and]
        exact ⟨hdo (by decide) ((saDo_delete (s := s.begun) ⟨hpos, hi⟩ hgranted).trans (if_neg (Bool.eq_false_iff.1 hinvalid))),
          hdo (by decide) ((saDo_limit (s := s.begun) ⟨hpos, hi⟩ hgranted).trans (if_neg (Bool.eq_false_iff.1 hinvalid)))⟩
  · intro a fin x
    refine ⟨fun hw hfw hfree => ?_, fun hready => ?_⟩
    · have hcmd : ∀ {op : Nat} {v : State}, State.laneCommand m op l s.begun = (v, true) → runMain (fun t => t.laneRow m op l) s =
          .next (s.close (m.logged a 4 (op + l * 4) v)) := fun he => run_laneRow hl hw he
      have hdrain := laneCommand_drain (s := s.begun) (l := l) hfw hfree
      have htest := laneCommand_test (s := s.begun) (l := l) hfw hfree
      have hreturn := laneCommand_return (s := s.begun) (l := l) hfw hfree
      refine ⟨fun hstate hothers => hcmd (hdrain.trans (congrArg (·, true) ((if_neg (not_not.2 hstate)).trans
          (if_neg (Nat.not_le.2 hothers))))),
        fun hstate hlast => hcmd (hdrain.trans (congrArg (·, true) ((if_neg (not_not.2 hstate)).trans (if_pos hlast)))),
        fun hstate => hcmd (hdrain.trans (congrArg (·, true) (if_pos hstate))),
        fun hstate => hcmd (htest.trans (congrArg (·, true) (if_pos ?_))),
        fun hout hfailed => hcmd (htest.trans (congrArg (·, true) (if_neg ?_))),
        fun hstate => hcmd (hreturn.trans (congrArg (·, true) (if_pos hstate))),
        fun hstate => hcmd (hreturn.trans (congrArg (·, true) (if_neg hstate)))⟩
      · rw [Bool.or_eq_true, decide_eq_true_eq, decide_eq_true_eq]
        exact hstate
      · rw [Bool.or_eq_true, decide_eq_true_eq, decide_eq_true_eq, not_or]
        exact ⟨hout, hfailed⟩
    · have hout : ∀ {u : State}, s.begun.laneGoesOut l = u → exec (.laneOut l) s = .next (s.close u) := fun h =>
        runBlock_effect (f := fun t => t.laneGoesOut l) hreleased hready h
      have htested : ∀ {p : Bool} {u : State}, s.begun.endLaneTest l p = u → exec (.laneTestEnd l p) s = .next (s.close u) :=
        fun {p _} h => runBlock_effect (f := fun t => t.endLaneTest l p) hreleased hready h
      exact ⟨fun hstate hheld => hout (laneGoesOut_empty (s := s.begun) hstate hheld),
        fun h => hout (laneGoesOut_stays (s := s.begun) h),
        fun hstate => ⟨htested ((if_neg (not_not.2 hstate)).trans (if_pos rfl)),
          htested ((if_neg (not_not.2 hstate)).trans (if_neg Bool.false_ne_true))⟩,
        fun hstate p => htested (if_pos hstate)⟩

end Sys2Proof.Machine
end

