-- ==== Sys2Proof/Proofs/Lease.lean ====
section

/-! O48: the Keystone lease: renewal, loss, request and handover (spec/18 R547, R549, R555, R558). -/

namespace Sys2Proof.Machine

/-! ### What holds the lease -/

/-- The lease, beside the complexes, the stale log and the waiting journal writes: what the follow-ups of a lease's loss leave alone. -/
def State.lease (s : State) : Ksc × BringUp × Nat :=
  ({ s.ksc with cplx := [], jrnlWait := [], stale := {}, dead := false }, s.bring, s.now)

theorem EventFrame.lease {s u : State} (h : EventFrame s u) : u.lease = s.lease := by
  rw [show u = s.eventOn u from h]
  rfl

section
variable {s : State}

section
variable {u : State} (h : u.lease = s.lease)
include h

theorem held_of_lease : u.ksc.held = s.ksc.held := congrArg (fun l => l.1.held) h
theorem active_of_lease : u.ksc.active = s.ksc.active := congrArg (fun l => l.1.active) h
theorem epoch_of_lease : u.ksc.epoch = s.ksc.epoch := congrArg (fun l => l.1.epoch) h
theorem leaseEnd_of_lease : u.ksc.leaseEnd = s.ksc.leaseEnd := congrArg (fun l => l.1.leaseEnd) h
theorem takeover_of_lease : u.ksc.takeover = s.ksc.takeover := congrArg (fun l => l.1.takeover) h
theorem takeoverAt_of_lease : u.ksc.takeoverAt = s.ksc.takeoverAt := congrArg (fun l => l.1.takeoverAt) h
theorem now_of_lease : u.now = s.now := congrArg (fun l => l.2.2) h
theorem bring_of_lease : u.bring = s.bring := congrArg (fun l => l.2.1) h

end

theorem staleWrite_lease (x e off : Nat) : (s.staleWrite x e off).lease = s.lease := by
  unfold State.staleWrite
  dsimp only
  rw [(EventFrame.raise _ _ _ _ _).lease, (EventFrame.count _ _ _).lease]
  split <;> rfl

theorem refuseWaiting_lease : s.refuseWaiting.lease = s.lease :=
  foldl_keeps (R := fun (a b : State) => b.lease = a.lease) (fun _ => rfl) (fun h k => k.trans h)
    (f := fun (t : State) (w : JrnlWait) => t.staleWrite w.cplx w.epoch w.off) (fun _ _ => staleWrite_lease _ _ _) s.ksc.jrnlWait _

theorem jobOver_lease (f slot st : Nat) : (s.jobOver f slot st).lease = s.lease := by
  unfold State.jobOver
  split <;> rfl

theorem suppress_lease (f : Nat) (p : HostWrite → Bool) : (s.suppress f p).1.lease = s.lease := by
  refine foldl_keeps (R := fun (a b : State × List HostWrite) => b.1.lease = a.1.lease) (fun _ => rfl) (fun h k => k.trans h) ?_ _ _
  intro acc c
  dsimp only
  split
  · rfl
  · exact (EventFrame.count _ _ _).lease.trans rfl

theorem endJobs_lease : s.endJobs.lease = s.lease := by
  refine foldl_keeps (R := fun (a b : State) => b.lease = a.lease) (fun _ => rfl) (fun h k => k.trans h) ?_ _ _
  intro t f
  refine (suppress_lease _ _).trans ?_
  exact foldl_keeps (R := fun (a b : State) => b.lease = a.lease) (fun _ => rfl) (fun h k => k.trans h)
    (f := fun (u : State) (j : Job) => u.jobOver f (j.count % 32) 3) (fun _ _ => jobOver_lease _ _ _) _ _

/-! ### The loss of the lease -/

theorem standbyFail_lease (x : Nat) : (s.standbyFail x).lease = s.lease := (EventFrame.raise _ _ _ _ _).lease.trans rfl

/-- The holder FAILED and the takeover begun. -/
def State.holderFails (s : State) : State :=
  let t := (s.setCplx s.ksc.active { s.cplx s.ksc.active with state := .failed }).setReady 18 false
  { t with ksc := { t.ksc with
    held := false, takeover := true, takeoverAt := some s.now, handover := false, handoverReq := none } }

theorem failLease_lease : s.failLease.lease = s.holderFails.lease := by
  unfold State.failLease
  dsimp only
  generalize hw : State.refuseWaiting _ = w
  have hlease : w.lease = s.holderFails.lease := by
    rw [← hw, refuseWaiting_lease, endJobs_lease, (EventFrame.raise _ _ _ _ _).lease, (EventFrame.count _ _ _).lease]
    rfl
  rw [← hlease]
  split
  · rfl
  · rfl
  · rfl
  · rfl
  · exact standbyFail_lease _

/-- The lease is lost at the tick, and the Keystone is not ready (spec/18 R555). -/
def LeaseLost (now : Nat) (u : State) : Prop :=
  u.ksc.held = false ∧ u.ksc.takeover = true ∧ u.ksc.takeoverAt = some now ∧ bitOf u.bring.readySub 18 = false

theorem failLease_lost : LeaseLost s.now s.failLease := by
  have hlease := failLease_lease (s := s)
  unfold LeaseLost
  rw [held_of_lease hlease, takeover_of_lease hlease, takeoverAt_of_lease hlease, bring_of_lease hlease]
  exact ⟨rfl, rfl, rfl, bitOf_putBit_self _ _ _⟩

theorem leaseEnds_passed (hheld : s.ksc.held = true) (hend : s.ksc.leaseEnd ≤ s.now) : s.leaseEnds = s.failLease :=
  if_pos (by rw [hheld, decide_eq_true hend]; rfl)

theorem leaseEnds_before (h : s.ksc.held = false ∨ s.now < s.ksc.leaseEnd) : s.leaseEnds = s := by
  refine if_neg ?_
  rcases h with h | h
  · rw [h]; exact Bool.false_ne_true
  · rw [decide_eq_false (Nat.not_le.2 h), Bool.and_false]; exact Bool.false_ne_true

/-- A complex whose cores differ FAILED, and reported (spec/18 R547). -/
def State.mismatched (s : State) (x : Nat) : State :=
  ((s.setCplx x { s.cplx x with state := .failed }).count (kscCounter 4) 1).raise 451 x none { master := masterWord 2 x 0 }

theorem mismatched_lease (x : Nat) : (s.mismatched x).lease = s.lease :=
  (EventFrame.raise _ _ _ _ _).lease.trans ((EventFrame.count _ _ _).lease.trans rfl)

section
variable {x : Nat}

theorem mismatch_still (hruns : s.complexRuns x = false) : s.mismatch x = s :=
  if_pos (by rw [hruns]; exact Bool.or_true _)

variable (hx : x < 2) (hruns : s.complexRuns x = true) (hheld : s.ksc.held = true)
include hx hruns hheld

theorem mismatch_held : s.mismatch x = if x = s.ksc.active then (s.mismatched x).failLease else s.mismatched x := by
  have hcount : ((s.setCplx x { s.cplx x with state := .failed }).count (kscCounter 4) 1).lease = s.lease :=
    (EventFrame.count _ _ _).lease.trans rfl
  have hsome : (decide (1 < x) || !s.complexRuns x) = false := by rw [hruns, decide_eq_false (by omega)]; rfl
  refine (if_neg (Bool.eq_false_iff.1 hsome)).trans (if_congr ?_ rfl (if_neg ?_))
  · rw [held_of_lease hcount, active_of_lease hcount, hheld, Bool.true_and, decide_eq_true_eq]
  · rw [held_of_lease (EventFrame.raise _ _ _ _ _).lease, held_of_lease hcount, hheld]
    exact Bool.false_ne_true

end
/-! ### The grant of the lease -/

theorem deliverWaiting_lease : s.deliverWaiting.lease = s.lease := by
  have hfold : ∀ {α : Type} {f : State → α → State}, (∀ b x, (f b x).lease = b.lease) → ∀ l b, (List.foldl f b l).lease = b.lease :=
    fun hf l b => foldl_keeps (R := fun (a b : State) => b.lease = a.lease) (fun _ => rfl) (fun h k => k.trans h) hf l b
  refine (hfold ?_ _ _).trans ((hfold ?_ _ _).trans ((hfold ?_ _ _).trans rfl))
  · intro t p
    split
    · exact (EventFrame.mbxNotify _ _).lease
    · rfl
  · intro t p
    dsimp only
    have hend : ∀ (c : Prop) [Decidable c] (v : State) (e : Bool), (if c then v.mbxEvent p.1 e else v).lease = v.lease := by
      intro c _ v e
      split
      · exact (EventFrame.mbxEvent _ _ _).lease
      · rfl
    exact (hend _ _ _).trans (hend _ _ _)
  · intro t p
    exact (EventFrame.toKeystone _ (fun v a => EventFrame.count v a 1) _ _ _).lease

theorem takeoverNotices_lease : s.takeoverNotices.lease = s.lease :=
  foldl_keeps (R := fun (a b : State) => b.lease = a.lease) (fun _ => rfl) (fun h k => k.trans h)
    (f := fun (t : State) (n : Nat) => t.postNotice (2048 + n) { kind := 3, inst := 0, data := t.ksc.active })
    (fun _ _ => (EventFrame.postNotice _ _ _).lease) _ _

/-- Complex `x` holds the lease from the tick under the epoch, and the Keystone is ready (spec/18 R549, R555). -/
def LeaseGranted (x epoch now : Nat) (u : State) : Prop :=
  u.ksc.held = true ∧ u.ksc.active = x ∧ u.ksc.epoch = epoch ∧ u.ksc.leaseEnd = now + 100000 ∧ u.ksc.takeover = false
    ∧ bitOf u.bring.readySub 18 = true

theorem LeaseGranted.of_lease {u : State} {x epoch now : Nat} (h : LeaseGranted x epoch now s) (hlease : u.lease = s.lease) :
    LeaseGranted x epoch now u := by
  unfold LeaseGranted at *
  rw [held_of_lease hlease, active_of_lease hlease, epoch_of_lease hlease, leaseEnd_of_lease hlease, takeover_of_lease hlease,
    bring_of_lease hlease]
  exact h

theorem unconfirmed_lease : ({ s with tap := { s.tap with confirmed := false } }).lease = s.lease := rfl

theorem grantLease_granted (x : Nat) : LeaseGranted x ((s.ksc.epoch + 1) % 65536) s.now (s.grantLease x) := by
  unfold State.grantLease
  refine LeaseGranted.of_lease ?_ deliverWaiting_lease
  exact ⟨rfl, rfl, rfl, rfl, rfl, bitOf_putBit_self _ _ _⟩

section
variable {x j : Nat}

theorem request_other (hstate : (s.cplx x).state ≠ .sync) : State.request x j s = (s.refuseLease, false) := if_pos hstate

variable (hstate : (s.cplx x).state = .sync)
include hstate

theorem request_held (hheld : s.ksc.held = true) : State.request x j s =
    if s.bit Reg.kscReturnCtl [] 0 then
      (({ s with ksc := { s.ksc with handover := true, handoverReq := some (x, s.now) } }).raise 459 s.ksc.active, true)
    else ((s.setCplx x { s.cplx x with state := .off }).raise 458 x, true) :=
  (if_neg (not_not.2 hstate)).trans (if_pos hheld)

variable (hfree : s.ksc.held = false)
include hfree

theorem request_refused (h : s.ksc.dead = true ∨ j % 2 ^ 32 ≠ s.ksc.j % 2 ^ 32) : State.request x j s = (s.refuseLease, false) := by
  refine (if_neg (not_not.2 hstate)).trans ((if_neg (Bool.eq_false_iff.1 hfree)).trans (if_pos ?_))
  rw [Bool.or_eq_true, decide_eq_true_eq]
  exact h

theorem request_granted (halive : s.ksc.dead = false) (hj : j % 2 ^ 32 = s.ksc.j % 2 ^ 32) :
    (State.request x j s).2 = true ∧ LeaseGranted x ((s.ksc.epoch + 1) % 65536) s.now (State.request x j s).1 := by
  have hmay : ¬ (s.ksc.dead || j % 2 ^ 32 ≠ s.ksc.j % 2 ^ 32) = true := by
    rw [halive, Bool.false_or, decide_eq_true_eq]
    exact not_not.2 hj
  have hrequest : State.request x j s = _ :=
    (if_neg (not_not.2 hstate)).trans ((if_neg (Bool.eq_false_iff.1 hfree)).trans (if_neg hmay))
  rw [hrequest]
  split
  · exact ⟨rfl, (grantLease_granted x).of_lease takeoverNotices_lease⟩
  · refine ⟨rfl, (grantLease_granted (s := s) x).of_lease ?_⟩
    rw [(EventFrame.raise _ _ _ _ _).lease, unconfirmed_lease, (EventFrame.count _ _ _).lease]

end

/-! ### Accesses to the lease registers -/

/-- The registers of the Keystone are not journalled. -/
theorem logged_keystone {m : Master} {off n d : Nat} (hoff : off / 0x200000 = 18) : m.logged off n d s = s := by
  have hquiet : journalled off = false := by
    unfold journalled
    rw [decide_eq_true hoff]
    rfl
  unfold Master.logged
  split
  · rw [hquiet]
    rfl
  · rfl

/-- A request is carried out under any epoch. -/
theorem access_request {x ep j : Nat} (hreleased : s.released = true) :
    s.leaseReq (.fw x ep) j = (State.request x j s).1 := by
  have hblock : addrBlock (blockBase 18 + 0x10) = some 18 := rfl
  have hquiet : journalled (blockBase 18 + 0x10) = false := rfl
  simp only [State.leaseReq, State.access, hblock, hquiet, hreleased, Bool.not_true, Bool.false_and, Bool.not_false, Bool.true_or,
    Bool.false_eq_true, if_false, if_true, ne_eq, not_true, decide_false, Bool.and_false]

/-- The holder OFF and the lease free. -/
def State.leaseReleased (s : State) : State :=
  let t := s.setCplx s.ksc.active { s.cplx s.ksc.active with state := .off }
  { t with ksc := { t.ksc with held := false } }

section
variable {x ep e : Nat}

theorem access_keystone {m : Master} {off d : Nat} {f : Eff} (hoff : off / 0x200000 = 18) (hr : s.reaches m off) :
    s.access m off 4 d f = (f s).1 := by
  rw [access_reaches hr, logged_keystone hoff]
  exact ite_self _

theorem leaseRenew_fresh (hr : s.reaches (.fw x ep) (blockBase 18 + 8)) (hfresh : s.freshEpoch ep = true) :
    s.leaseRenew (.fw x ep) e = (State.renew (.fw x ep) e s).1 := by
  refine (if_pos hfresh).trans ?_
  exact access_keystone rfl hr

theorem leaseRenew_stale (hstale : s.freshEpoch ep = false) :
    s.leaseRenew (.fw x ep) e = (s.staleWrite x ep (blockBase 18 + 8)).count (kscCounter 3) 1 := by
  have haccess : s.access (.fw x ep) (blockBase 18 + 8) 4 e (State.renew (.fw x ep) e) = s.staleWrite x ep (blockBase 18 + 8) :=
    if_pos (by rw [hstale]; rfl)
  refine (if_neg (Bool.eq_false_iff.1 hstale)).trans ?_
  rw [haccess]
  rfl

theorem fresh_of_reaches {off : Nat} (hr : s.reaches (.fw x ep) off) : s.freshEpoch ep = true := by
  obtain ⟨-, hr⟩ := hr
  split at hr
  · rename_i h
    cases h
  · rename_i h
    cases h
    simp only [Bool.and_eq_true] at hr
    exact hr.1.1.1
  · exact absurd hr Bool.false_ne_true

theorem held_of_fresh (h : s.freshEpoch ep = true) : s.ksc.held = true := by
  rw [State.freshEpoch, Bool.and_eq_true] at h
  exact h.1

variable (he : e < 65536) (hheld : s.ksc.held = true)
include he hheld

theorem renew_current (hepoch : e = s.ksc.epoch) (htime : s.now ≤ s.ksc.leaseEnd) :
    State.renew (.fw x ep) e s = ({ s with ksc := { s.ksc with leaseEnd := s.now + 100000 } }, true) := by
  have hmod : e % 65536 = s.ksc.epoch := (Nat.mod_eq_of_lt he).trans hepoch
  refine if_pos ?_
  rw [hheld, decide_eq_true hmod, decide_eq_true htime]
  rfl

omit hheld in
theorem renew_refused (h : e ≠ s.ksc.epoch ∨ s.ksc.leaseEnd < s.now) : State.renew (.fw x ep) e s = (s.refuseLease, false) := by
  refine if_neg ?_
  rw [Nat.mod_eq_of_lt he, Bool.and_eq_true, Bool.and_eq_true, decide_eq_true_eq, decide_eq_true_eq]
  rintro ⟨⟨-, hepoch⟩, htime⟩
  exact h.elim (fun h => h hepoch) (Nat.not_lt.2 htime)

theorem release_current (hepoch : e = s.ksc.epoch) :
    State.release (.fw x ep) e s = (s.leaseReleased.endJobs.refuseWaiting, true) := by
  have hmod : e % 65536 = s.ksc.epoch := (Nat.mod_eq_of_lt he).trans hepoch
  refine if_pos ?_
  rw [hheld, decide_eq_true hmod]
  rfl

omit hheld in
theorem release_other (hepoch : e ≠ s.ksc.epoch) : State.release (.fw x ep) e s = (s, false) := by
  refine if_neg ?_
  rw [Nat.mod_eq_of_lt he, decide_eq_false hepoch, Bool.and_false]
  exact Bool.false_ne_true

end

theorem takeoverLate_eq {t : Nat} (h : s.ksc.takeoverAt = some t) : s.takeoverLate =
    if s.ksc.takeover && decide (t + 2000000 ≤ s.now) then
      ({ s with ksc := { s.ksc with takeoverAt := none } }).raise 454 0
    else s := by
  unfold State.takeoverLate
  rw [h]

theorem handoverLapses_eq {x t : Nat} (h : s.ksc.handoverReq = some (x, t)) : s.handoverLapses =
    if s.ksc.held && decide (t + 2000000 ≤ s.now) then
      ({ s with ksc := { s.ksc with handover := false, handoverReq := none } }).raise 461 x
    else s := by
  unfold State.handoverLapses
  rw [h]

end

/-- Settles O48, by the branches of each lease operation; what follows a loss or a grant leaves the lease as it set it. -/
theorem leaseIsHeld : Obligations.LeaseIsHeld := by
  unfold Obligations.LeaseIsHeld
  intro s hreleased _ _ k failed granted
  have hhost : ∀ {g : State → State} {u : State}, g s.begun = u → runHost g s = .next (s.close u.settleSto) :=
    fun h => runHost_effect hreleased h
  have hmain : ∀ {g : State → State} {u : State}, g s.begun = u → runMain g s = .next (s.close u) :=
    fun h => runMain_effect hreleased h
  refine ⟨fun x ep e he => ⟨fun hr => ?renew, fun hstale => ?stale, fun hr => ?release⟩, fun hheld hend => ?lost, fun h => ?before,
    fun x hx => ⟨fun hruns hheld => ?mismatch, fun hruns => ?still⟩, fun x ep j hx hj => ?request, fun t ht => ?late, fun x t hreq => ?lapse⟩
  case renew =>
    have hmod : e % 65536 = e := Nat.mod_eq_of_lt he
    have hfresh := fresh_of_reaches hr
    have hrenew : s.begun.leaseRenew (.fw x ep) (e % 65536) = (State.renew (.fw x ep) e s.begun).1 := by
      rw [hmod]
      exact leaseRenew_fresh (s := s.begun) ((begun_reaches s _ _).2 hr) hfresh
    exact ⟨fun hepoch htime => hhost (g := fun t => t.leaseRenew (.fw x ep) (e % 65536)) (hrenew.trans
        (congrArg Prod.fst (renew_current (s := s.begun) he (held_of_fresh hfresh) hepoch htime))),
      fun h => hhost (g := fun t => t.leaseRenew (.fw x ep) (e % 65536)) (hrenew.trans
        (congrArg Prod.fst (renew_refused (s := s.begun) he h)))⟩
  case stale => exact hhost (g := fun t => t.leaseRenew (.fw x ep) (e % 65536)) (leaseRenew_stale (s := s.begun) hstale)
  case release =>
    have hmod : e % 65536 = e := Nat.mod_eq_of_lt he
    have hheld := held_of_fresh (fresh_of_reaches hr)
    have hrelease : ∀ {u : State} {taken : Bool}, State.release (.fw x ep) e s.begun = (u, taken) →
        exec (.leaseRelease (.fw x ep) e) s = .next (s.close u.settleSto) := by
      intro u taken hu
      refine hhost (g := fun t => t.leaseRelease (.fw x ep) (e % 65536)) ?_
      rw [hmod]
      refine (access_keystone (s := s.begun) rfl ((begun_reaches s _ _).2 hr)).trans ?_
      rw [hu]
    exact ⟨fun hepoch => hrelease (release_current (s := s.begun) he hheld hepoch),
      fun hepoch => hrelease (release_other (s := s.begun) he hepoch)⟩
  case lost => exact ⟨_, hhost (g := fun t => t.leaseEnds) (leaseEnds_passed (s := s.begun) hheld hend), failLease_lost (s := s.begun)⟩
  case before => exact hhost (g := fun t => t.leaseEnds) (leaseEnds_before (s := s.begun) h)
  case still => exact hhost (g := fun t => t.mismatch x) (mismatch_still (s := s.begun) hruns)
  case mismatch =>
    have heq := mismatch_held (s := s.begun) hx hruns hheld
    refine ⟨fun hactive => ⟨_, hhost (g := fun t => t.mismatch x) (heq.trans (if_pos hactive)), ?_⟩,
      fun hactive => hhost (g := fun t => t.mismatch x) (heq.trans (if_neg hactive))⟩
    have hnow : (s.begun.mismatched x).now = s.now := now_of_lease (mismatched_lease x)
    have hlost := failLease_lost (s := s.begun.mismatched x)
    rw [hnow] at hlost
    exact hlost
  case request =>
    have hmod : j % 2 ^ 32 = j := Nat.mod_eq_of_lt hj
    have hreq : ∀ {u : State}, (State.request x j s.begun).1 = u → exec (.leaseReq (.fw x ep) j) s = .next (s.close u.settleSto) := by
      intro u hu
      refine hhost (g := fun t => t.leaseReq (.fw x ep) (j % 2 ^ 32)) ?_
      rw [hmod]
      exact (access_request (s := s.begun) hreleased).trans hu
    refine ⟨fun hstate => hreq (congrArg Prod.fst (request_other (s := s.begun) hstate)), fun hstate => ⟨fun hheld hbit => ?_,
      fun hheld hbit => ?_, fun hfree h => ?_, fun hfree halive hjpos => ?_⟩⟩
    · exact hreq (congrArg Prod.fst ((request_held (s := s.begun) hstate hheld).trans (if_neg (Bool.eq_false_iff.1 hbit))))
    · exact hreq (congrArg Prod.fst ((request_held (s := s.begun) hstate hheld).trans (if_pos hbit)))
    · exact hreq (congrArg Prod.fst (request_refused (s := s.begun) hstate hfree (hmod.symm ▸ h)))
    · exact ⟨_, hreq rfl, (request_granted (s := s.begun) hstate hfree halive (hmod.trans hjpos)).2⟩
  case late =>
    have heq := takeoverLate_eq (s := s.begun) ht
    refine ⟨fun htakeover htime => hmain (g := fun t => t.takeoverLate) (heq.trans (if_pos ?_)),
      fun h => hmain (g := fun t => t.takeoverLate) (heq.trans (if_neg ?_))⟩
    · rw [Bool.and_eq_true, decide_eq_true_eq]
      exact ⟨htakeover, htime⟩
    · rw [Bool.and_eq_true, decide_eq_true_eq]
      rintro ⟨htakeover, htime⟩
      exact h.elim (fun h => Bool.false_ne_true (h.symm.trans htakeover)) (Nat.not_lt.2 htime)
  case lapse =>
    have heq := handoverLapses_eq (s := s.begun) hreq
    refine ⟨fun hheld htime => hmain (g := fun t => t.handoverLapses) (heq.trans (if_pos ?_)),
      fun h => hmain (g := fun t => t.handoverLapses) (heq.trans (if_neg ?_))⟩
    · rw [Bool.and_eq_true, decide_eq_true_eq]
      exact ⟨hheld, htime⟩
    · rw [Bool.and_eq_true, decide_eq_true_eq]
      rintro ⟨hheld, htime⟩
      exact h.elim (fun h => Bool.false_ne_true (h.symm.trans hheld)) (Nat.not_lt.2 htime)

end Sys2Proof.Machine
end

