-- ==== Sys2Proof/Proofs/Complexes.lean ====
section

/-! O49: checkpoints, and the starting, stopping and testing of complexes (spec/18 R554, R555, R557). -/

namespace Sys2Proof.Machine

section
variable {s : State} {m : Master}

/-! ### Checkpoints -/

/-- Firmware that reaches a register holds the lease, and no journal write of its waits. -/
theorem held_of_reaches_fw {off : Nat} (hr : s.reaches m off) (hfw : m.isFw = true) :
    s.ksc.held = true ∧ s.ksc.jrnlWait = [] := by
  obtain ⟨-, hr⟩ := hr
  cases m with
  | pf f => exact absurd hfw Bool.false_ne_true
  | vf i => exact absurd hfw Bool.false_ne_true
  | fw x ep =>
    split at hr
    · rename_i h
      cases h
    · rename_i h
      cases h
      simp only [Bool.and_eq_true, decide_eq_true_eq] at hr
      exact ⟨held_of_fresh hr.1.1.1, hr.1.2⟩
    · exact absurd hr Bool.false_ne_true

section
variable {slot j : Nat}

theorem ckptEff_refused (hslot : slot < 2) (hj : j < 2 ^ 48) (h : m.isFw = false ∨ s.ksc.j < j ∨ j < s.ksc.ckptJpos) :
    ckptEff m (slot + j * 2 ^ 16) s = (s, false) := by
  have hpos : (slot + j * 2 ^ 16) / 2 ^ 16 % 2 ^ 48 = j := by omega
  have hcommit : State.commitCkpt m ((slot + j * 2 ^ 16) % 2) ((slot + j * 2 ^ 16) / 2 ^ 16) s = (s, false) := by
    refine if_neg ?_
    rw [hpos]
    simp only [Bool.and_eq_true, decide_eq_true_eq]
    rintro ⟨⟨⟨hfw, -⟩, hle⟩, hge⟩
    rcases h with h | h | h
    · rw [hfw] at h
      exact Bool.false_ne_true h.symm
    · omega
    · omega
  unfold ckptEff
  rw [hcommit]
  rfl

theorem EventFrame.jrnlWait_eq {u : State} (h : EventFrame s u) : u.ksc.jrnlWait = s.ksc.jrnlWait := by
  rw [show u = s.eventOn u from h]
  rfl

/-- The checkpoint taken at the tick. -/
def State.checkpointed (s : State) (slot j : Nat) : State :=
  ({ s with ksc := { s.ksc with ckptSlot := slot, ckptJpos := j, ckptTick := s.now, ckptFrom := s.now } }).count (kscCounter 5) 1

theorem ckptEff_taken (hslot : slot < 2) (hj : j < 2 ^ 48) (hfw : m.isFw = true) (hheld : s.ksc.held = true)
    (hwait : s.ksc.jrnlWait = []) (hle : j ≤ s.ksc.j) (hge : s.ksc.ckptJpos ≤ j) :
    ckptEff m (slot + j * 2 ^ 16) s = (s.checkpointed slot j, true) := by
  have hpos : (slot + j * 2 ^ 16) / 2 ^ 16 % 2 ^ 48 = j := by omega
  have hbit : (slot + j * 2 ^ 16) % 2 % 2 = slot := by omega
  have hcommit : State.commitCkpt m ((slot + j * 2 ^ 16) % 2) ((slot + j * 2 ^ 16) / 2 ^ 16) s = (s.checkpointed slot j, true) := by
    unfold State.commitCkpt
    simp only [hpos, hbit]
    refine if_pos ?_
    rw [hfw, hheld, decide_eq_true hle, decide_eq_true hge]
    rfl
  have hnone : (s.checkpointed slot j).ksc.jrnlWait = [] := by
    unfold State.checkpointed
    rw [(EventFrame.count _ _ _).jrnlWait_eq]
    exact hwait
  unfold ckptEff
  rw [hcommit]
  dsimp only
  rw [hnone]
  rfl

end

/-! ### Complex commands -/

/-- The result of a complex command. -/
def State.endCplx (s : State) (r : Nat) : State := { s with ksc := { s.ksc with cmd := { result := r } } }

section
variable {op x slot : Nat} (hfw : m.isFw = true) (hfree : s.ksc.cmd.busy = false)
include hfw hfree

theorem complex_served : ¬ (!m.isFw || s.ksc.cmd.busy) = true := by
  rw [hfw, hfree]
  exact Bool.false_ne_true

theorem complexCommand_holder (hheld : s.ksc.held = true) (hx : x = s.ksc.active) :
    State.complexCommand m op x slot s = (s.endCplx 2, true) := by
  refine (if_neg (complex_served hfw hfree)).trans (if_pos ?_)
  rw [hheld, decide_eq_true hx, Bool.and_true, Bool.or_true]

variable (hop : 1 ≤ op ∧ op ≤ 3) (hx : x < 2) (hother : s.ksc.held = false ∨ x ≠ s.ksc.active)
include hop hx hother

theorem complexCommand_other : State.complexCommand m op x slot s =
    if op = 1 && ((s.cplx x).state = .off || (s.cplx x).state = .failed) then ((s.startComplex x (slot % 2) false).endCplx 0, true)
    else if op = 2 && (s.cplx x).state = .sync then ((s.setCplx x { s.cplx x with state := .off }).endCplx 0, true)
    else if op = 3 && ((s.cplx x).state = .off || (s.cplx x).state = .failed) then
      ((s.setCplx x { s.cplx x with state := .testing }).endCplx 0, true)
    else (s.endCplx 1, true) := by
  refine (if_neg (complex_served hfw hfree)).trans (if_neg ?_)
  simp only [Bool.or_eq_true, Bool.and_eq_true, decide_eq_true_eq]
  rintro (((h | h) | h) | ⟨hheld, hactive⟩)
  · omega
  · omega
  · omega
  · exact hother.elim (fun h => Bool.false_ne_true (h.symm.trans hheld)) (fun h => h hactive)

end

/-! ### The ends of a start and of a test -/

theorem cplx_setCplx_self {x : Nat} (hx : x < s.ksc.cplx.length) (c : Complex) : (s.setCplx x c).cplx x = c :=
  getD_setNth_self hx c

theorem cplx_of_ksc {u : State} (h : u.ksc = s.ksc) (x : Nat) : u.cplx x = s.cplx x := by
  unfold State.cplx
  rw [h]

theorem pme_ksc (k : Nat) : (s.pme k).ksc = s.ksc := by
  unfold State.pme
  split
  · rfl
  · dsimp only
    repeat' split
    all_goals rfl

theorem fire_ksc (k vec : Nat) : (s.fire k vec).ksc = s.ksc := by
  unfold State.fire
  split
  · rfl
  · split
    · rfl
    · exact pme_ksc _

/-- An event to an end starts no complex that is not OFF. -/
theorem powerUpComplex_cplx {x y : Nat} (hon : (s.cplx x).state ≠ .off) : (s.powerUpComplex y).cplx x = s.cplx x := by
  refine (congrArg (fun (t : State) => t.cplx x) (show s.powerUpComplex y = if (s.cplx y).state = .off then
    s.setCplx y { s.cplx y with state := .starting } else s from rfl)).trans ?_
  dsimp only
  split
  · rename_i hoff
    have hne : y ≠ x := fun h => hon (h ▸ hoff)
    rw [State.cplx, State.setCplx, setNth, List.getD_eq_getElem?_getD, List.getElem?_set_ne hne, ← List.getD_eq_getElem?_getD]
    rfl
  · rfl

theorem mbxEvent_cplx {x : Nat} (hon : (s.cplx x).state ≠ .off) (c : Nat) (e : Bool) : (s.mbxEvent c e).cplx x = s.cplx x := by
  have hheld : ∀ {h : Bool} {u : State}, u.ksc = (s.holdEvent c e h).ksc → u.cplx x = s.cplx x := fun hu => cplx_of_ksc hu x
  unfold State.mbxEvent
  split
  · split
    · exact hheld (h := false) rfl
    · exact hheld (h := true) rfl
  · split
    · exact hheld (h := false) rfl
    · exact powerUpComplex_cplx (s := s.holdEvent c e true) hon
  · split
    · exact hheld (h := false) rfl
    · exact powerUpComplex_cplx (s := s.holdEvent c e true) hon
  · split
    · exact hheld (h := false) rfl
    · exact hheld (h := true) rfl
  · split
    · rfl
    · dsimp only
      split
      · exact hheld (h := true) rfl
      · split
        · exact hheld (fire_ksc _ _)
        · exact hheld (h := false) rfl

theorem deliverNamed_cplx {x : Nat} (hon : (s.cplx x).state ≠ .off) (y : Nat) : (s.deliverNamed y).cplx x = s.cplx x := by
  refine foldl_keeps (R := fun (a b : State) => (a.cplx x).state ≠ .off → b.cplx x = a.cplx x) (fun _ _ => rfl)
    (fun h k ha => (k (by rw [h ha]; exact ha)).trans (h ha)) ?_ _ _ hon
  intro t p ht
  have hgo : ∀ (v : State) (e : Bool), (v.cplx x).state ≠ .off →
      (if (v.endVal p.1 e = 4 + y && ((v.chan p.1).fin e).held) = true then v.mbxEvent p.1 e else v).cplx x = v.cplx x := by
    intro v e hv
    split
    · exact mbxEvent_cplx hv _ _
    · rfl
  exact (hgo _ true (by rw [hgo t false ht]; exact ht)).trans (hgo t false ht)

section
variable {x : Nat} {test verify : Bool}

theorem complexStarted_still (hstate : (s.cplx x).state ≠ .starting) : s.complexStarted x test verify = s :=
  if_pos (by rw [decide_eq_true hstate, Bool.or_true])

variable (hx : x < 2) (hstate : (s.cplx x).state = .starting)
include hx hstate

theorem started_taken : ¬ (1 < x || (s.cplx x).state ≠ .starting) = true := by
  rw [Bool.or_eq_true, decide_eq_true_eq, decide_eq_true_eq]
  rintro (h | h)
  · omega
  · exact h hstate

theorem complexStarted_sync (hok : s.imageOk (s.cplx x).loadSlot true = true) : s.complexStarted x true true =
    (s.setCplx x { s.cplx x with
      state := .sync, imgSlot := (s.cplx x).loadSlot, verifyFail := false, forTakeover := false
      fwVer := s.imageField (s.cplx x).loadSlot 0x18 4, svn := s.imageField (s.cplx x).loadSlot 0xC 2
      key := s.imageField (s.cplx x).loadSlot 4 4 / 65536 % 4, sram := s.imageCode (s.cplx x).loadSlot }).deliverNamed x :=
  (if_neg (started_taken hx hstate)).trans (if_pos (by rw [hok]; rfl))

theorem complexStarted_testFails (htakeover : (s.cplx x).forTakeover = false) : s.complexStarted x false verify =
    (s.setCplx x { s.cplx x with state := .failed }).raise 455 x :=
  (if_neg (started_taken hx hstate)).trans ((if_neg Bool.false_ne_true).trans (if_neg (Bool.eq_false_iff.1 htakeover)))

theorem complexStarted_verifyFails (htakeover : (s.cplx x).forTakeover = false) : s.complexStarted x true false =
    (s.setCplx x { s.cplx x with state := .failed, imgSlot := (s.cplx x).loadSlot, verifyFail := true }).raise 455 x :=
  (if_neg (started_taken hx hstate)).trans ((if_neg Bool.false_ne_true).trans (if_neg (Bool.eq_false_iff.1 htakeover)))

theorem complexStarted_takeoverFails (htakeover : (s.cplx x).forTakeover = true) :
    (s.complexStarted x false verify).ksc.dead = true := by
  have heq : s.complexStarted x false verify = (s.setCplx x (s.cplx x)).standbyFail x :=
    (if_neg (started_taken hx hstate)).trans ((if_neg Bool.false_ne_true).trans (if_pos htakeover))
  rw [heq]
  unfold State.standbyFail
  rw [show State.raise _ 455 x = State.eventOn _ (State.raise _ 455 x) from EventFrame.raise _ _ _ _ _]
  rfl

end
theorem complexTested_eq {x : Nat} (hx : x < 2) (hstate : (s.cplx x).state = .testing) (pass : Bool) : s.complexTested x pass =
    s.setCplx x { s.cplx x with state := if pass then .off else .failed, testPass := pass } := by
  refine if_neg ?_
  rw [Bool.or_eq_true, decide_eq_true_eq, decide_eq_true_eq]
  rintro (h | h)
  · omega
  · exact h hstate

theorem ckptLate_due (hbooted : s.bring.btlState = 4) (hdue : s.ksc.ckptFrom + 1100000 ≤ s.now) :
    s.ckptLate = ({ s with ksc := { s.ksc with ckptFrom := s.now } }).raise 457 0 :=
  if_pos (by rw [decide_eq_true hbooted, decide_eq_true hdue]; rfl)

theorem ckptLate_early (h : s.bring.btlState ≠ 4 ∨ s.now < s.ksc.ckptFrom + 1100000) : s.ckptLate = s := by
  refine if_neg ?_
  rw [Bool.and_eq_true, decide_eq_true_eq, decide_eq_true_eq]
  rintro ⟨hbooted, hdue⟩
  exact h.elim (fun h => h hbooted) (Nat.not_lt.2 hdue)

end

/-- Settles O49, by the conditions of a commit, the states of a complex and the fact that no delivery touches a running complex. -/
theorem complexesAreManaged : Obligations.ComplexesAreManaged := by
  unfold Obligations.ComplexesAreManaged
  intro s m hreleased hlen k
  refine ⟨fun slot j hslot hj hr => ?commit, fun hbooted hdue => ?due,
    fun h => runMain_effect (f := fun t => t.ckptLate) hreleased (ckptLate_early (s := s.begun) h),
    fun x slot hx hslot hr hfw hfree => ?commands, fun x hx => ?ends⟩
  case due =>
    intro u
    exact runMain_effect (f := fun t => t.ckptLate) hreleased (ckptLate_due (s := s.begun) hbooted hdue)
  case commit =>
    have hword : slot % 2 + j % 2 ^ 48 * 2 ^ 16 = slot + j * 2 ^ 16 := by rw [Nat.mod_eq_of_lt hslot, Nat.mod_eq_of_lt hj]
    have hcommit : ∀ {u : State} {taken : Bool}, ckptEff m (slot + j * 2 ^ 16) s.begun = (u, taken) →
        exec (.ckptCommit m slot j) s = .next (s.close u.settleSto) := by
      intro u taken hu
      refine runHost_effect (f := fun t => t.access m (blockBase 18 + 0x28) 8 (slot % 2 + j % 2 ^ 48 * 2 ^ 16)
        (ckptEff m (slot % 2 + j % 2 ^ 48 * 2 ^ 16))) hreleased ?_
      rw [hword, access_reaches ((begun_reaches s m _).2 hr), logged_keystone rfl, hu]
      exact ite_self _
    refine ⟨fun hfw hle hge => ?_, fun h => hcommit (ckptEff_refused (s := s.begun) hslot hj h)⟩
    obtain ⟨hheld, hwait⟩ := held_of_reaches_fw hr hfw
    exact hcommit (ckptEff_taken (s := s.begun) hslot hj hfw hheld hwait hle hge)
  case commands =>
    intro c fin
    have hxmod : x % 2 = x := Nat.mod_eq_of_lt hx
    have hcmd : ∀ {op r w sl : Nat} {u : State}, State.complexCommand m op x sl s.begun = (u.endCplx r, true) →
        runMain (fun t => t.access m (blockBase 18 + 0x18) 4 w (State.complexCommand m op (x % 2) sl)) s = fin r u := by
      intro op r w sl u hu
      refine runMain_effect (f := fun t => t.access m (blockBase 18 + 0x18) 4 w (State.complexCommand m op (x % 2) sl)) hreleased ?_
      rw [access_keystone (s := s.begun) rfl ((begun_reaches s _ _).2 hr), hxmod, hu]
      rfl
    refine ⟨fun hheld hactive => ?_, fun hother => ?_⟩
    · exact ⟨hcmd (complexCommand_holder (s := s.begun) hfw hfree hheld hactive),
        hcmd (complexCommand_holder (s := s.begun) hfw hfree hheld hactive),
        hcmd (complexCommand_holder (s := s.begun) hfw hfree hheld hactive)⟩
    · have hcases := fun {op sl : Nat} (hop : 1 ≤ op ∧ op ≤ 3) =>
        complexCommand_other (s := s.begun) (slot := sl) hfw hfree hop hx hother
      refine ⟨fun hidle => ?_, fun hsync => ?_, fun hbusy => ?_⟩
      · have hidle' : ((s.begun.cplx x).state = .off || (s.begun.cplx x).state = .failed) = true := by
          rw [Bool.or_eq_true, decide_eq_true_eq, decide_eq_true_eq]
          exact hidle
        have hsync : (s.begun.cplx x).state ≠ .sync := by
          rcases hidle with h | h <;> rw [show (s.begun.cplx x).state = _ from h] <;> decide
        have hslot' : slot % 2 % 2 = slot := by omega
        refine ⟨hcmd ((hcases (by decide)).trans ?_), hcmd ((hcases (by decide)).trans ?_), hcmd ((hcases (by decide)).trans ?_)⟩
        · refine (if_pos (by rw [hidle']; rfl)).trans ?_
          rw [hslot']
          rfl
        · exact (if_neg Bool.false_ne_true).trans ((if_neg (by rw [decide_eq_false hsync]; exact Bool.false_ne_true)).trans
            (if_neg Bool.false_ne_true))
        · exact (if_neg Bool.false_ne_true).trans ((if_neg Bool.false_ne_true).trans (if_pos (by rw [hidle']; rfl)))
      · exact hcmd ((hcases (by decide)).trans ((if_neg Bool.false_ne_true).trans
          (if_pos (by rw [decide_eq_true (show (s.begun.cplx x).state = .sync from hsync)]; rfl))))
      · have hidle' : ((s.begun.cplx x).state = .off || (s.begun.cplx x).state = .failed) = false := by
          rcases hbusy with h | h | h <;> rw [show (s.begun.cplx x).state = _ from h] <;> rfl
        refine ⟨hcmd ((hcases (by decide)).trans ?_), hcmd ((hcases (by decide)).trans ?_)⟩
        · exact (if_neg (by rw [hidle', Bool.and_false]; exact Bool.false_ne_true)).trans ((if_neg Bool.false_ne_true).trans
            (if_neg Bool.false_ne_true))
        · exact (if_neg Bool.false_ne_true).trans ((if_neg Bool.false_ne_true).trans
            (if_neg (by rw [hidle', Bool.and_false]; exact Bool.false_ne_true)))
  case ends =>
    intro c
    have hstarted : ∀ {t v : Bool} {u : State}, s.begun.complexStarted x t v = u →
        exec (.complexStarted x t v) s = .next (s.close u.settleSto) := fun {t v _} h =>
      runHost_effect (f := fun w => w.complexStarted x t v) hreleased h
    have htested : ∀ {p : Bool} {u : State}, s.begun.complexTested x p = u → exec (.complexTestEnd x p) s = .next (s.close u) :=
      fun {p _} h => runMain_effect (f := fun w => w.complexTested x p) hreleased h
    refine ⟨fun hstate => ⟨fun hok => ?_, fun hown v => ?_, fun hown => ?_, fun htakeover v => ?_⟩,
      fun hstate t v => hstarted (complexStarted_still (s := s.begun) hstate),
      fun hstate => ⟨htested (complexTested_eq (s := s.begun) hx hstate true), htested (complexTested_eq (s := s.begun) hx hstate false)⟩,
      fun hstate p => htested (if_pos (by rw [decide_eq_true (show (s.begun.cplx x).state ≠ .testing from hstate), Bool.or_true]))⟩
    · refine ⟨_, hstarted (complexStarted_sync (s := s.begun) hx hstate hok), ?_⟩
      have hself : ∀ c' : Complex, (s.begun.setCplx x c').cplx x = c' := cplx_setCplx_self (by rw [show s.begun.ksc.cplx.length = 2 from hlen]; exact hx)
      rw [deliverNamed_cplx (by rw [hself]; exact CplxSt.noConfusion), hself]
      rfl
    · exact hstarted (complexStarted_testFails (s := s.begun) hx hstate hown)
    · exact hstarted (complexStarted_verifyFails (s := s.begun) hx hstate hown)
    · exact ⟨_, hstarted rfl, complexStarted_takeoverFails (s := s.begun) hx hstate htakeover⟩

end Sys2Proof.Machine
end

