-- ==== Sys2Proof/Proofs/MasonPackets.lean ====
section

/-! O50: packets at the Masons and their return (spec/01 R36, spec/18 R567-R571). -/

namespace Sys2Proof.Machine

section
variable {s : State} {c : Nat}

/-! ### Free slots -/

theorem pickSlot_none (hfree : (s.cluster c).freeSlots = []) : s.pickSlot c = (none, s) := by
  unfold State.pickSlot
  rw [hfree]

/-- A free slot is chosen, and the choice is used up. -/
theorem pickSlot_some (hfree : (s.cluster c).freeSlots ≠ []) :
    ∃ k ∈ (s.cluster c).freeSlots, s.pickSlot c = (some k, { s with freeCount := s.freeCount + 1 }) := by
  unfold State.pickSlot
  split
  · exact absurd (by assumption) hfree
  · rename_i k ks hslots
    refine ⟨_, ?_, rfl⟩
    have hlt : Config.freeNat s.freeCount % (ks.length + 1) < (k :: ks).length := Nat.mod_lt _ (Nat.succ_pos _)
    rw [hslots, show s.takeFree.1 = s.freeCount from rfl, List.getD_eq_getElem?_getD, List.getElem?_eq_getElem hlt]
    exact List.getElem_mem hlt

/-! ### Delivery -/

section
variable {p : Nat} {x : Packet} (hhead : s.oldestAt .exc = some (p, x)) (hprov : x.prov = false) (hmem : s.ready 14 = true)
  (hxpe : s.ready 17 = true) (hmason : s.masonOf x.mark.hash = some c)
include hhead hprov hmem hxpe hmason

theorem masonDelivery_eq : s.masonDelivery =
    if (s.cluster c).freeSlots = [] then s
    else if (s.dequeueCheck 45 p x).1 then (s.dequeueCheck 45 p x).2
    else
      match ((s.dequeueCheck 45 p x).2.pickSlot c).1 with
      | none => s
      | some k =>
        (((((((s.dequeueCheck 45 p x).2.pickSlot c).2.itemTagGone x).masonPlace c k x).count (tmsCounter 45 0) 1).count
          (tmsCounter 45 1) x.mark.len).count (xpeCounter c 0) 1).removePkt p := by
  have hgo : ¬ (x.prov || !s.ready 14 || !s.ready 17) = true := by
    rw [hprov, hmem, hxpe]
    exact Bool.false_ne_true
  unfold State.masonDelivery
  rw [hhead]
  refine (if_neg hgo).trans ?_
  rw [hmason] <;> rfl

theorem masonDelivery_full (hfull : (s.cluster c).freeSlots = []) : s.masonDelivery = s :=
  (masonDelivery_eq hhead hprov hmem hxpe hmason).trans (if_pos hfull)

theorem masonDelivery_placed (hitem : x.item = none) (hgen : s.genOk x.mark.inst x.mark.gen = true)
    (hage : markAge s.now x.mark.ts < 2 ^ 31) (hfree : (s.cluster c).freeSlots ≠ []) :
    ∃ k ∈ (s.cluster c).freeSlots, s.masonDelivery =
      ((((({ s with freeCount := s.freeCount + 1 }).masonPlace c k x).count (tmsCounter 45 0) 1).count (tmsCounter 45 1)
        x.mark.len).count (xpeCounter c 0) 1).removePkt p := by
  obtain ⟨k, hk, hpick⟩ := pickSlot_some hfree
  have htag : ∀ t : State, t.itemTagGone x = t := fun t => by
    unfold State.itemTagGone
    rw [hitem]
    exact ite_self _
  refine ⟨k, hk, ?_⟩
  rw [masonDelivery_eq hhead hprov hmem hxpe hmason, if_neg hfree, dequeueCheck_good hgen hage]
  refine (if_neg Bool.false_ne_true).trans ?_
  rw [hpick]
  dsimp only
  rw [htag]

end

/-! ### The queue registers -/

section
variable (hup : s.coresUp c = true)
include hup

theorem cores_up : ¬ (!s.coresUp c) = true := by
  rw [hup]
  exact Bool.false_ne_true

theorem xqPop_empty (hxq : (s.cluster c).xq = []) : s.xqPop c = s.send (.pop c 0) := by
  refine (if_neg (cores_up hup)).trans ?_
  dsimp only
  rw [hxq]

theorem xqPop_oldest {k : Nat} {q : List Nat} (hxq : (s.cluster c).xq = k :: q) : s.xqPop c =
    (s.setCluster c ({ s.cluster c with xq := q }.setSlot k { (s.cluster c).slot k with
      st := .popped, since := s.now, raised := false })).send (.pop c (k + 2 ^ 31)) := by
  refine (if_neg (cores_up hup)).trans ?_
  dsimp only
  rw [hxq]

theorem xqFreePop_none (hfree : (s.cluster c).freeSlots = []) : s.xqFreePop c = s.send (.pop c 0) := by
  refine (if_neg (cores_up hup)).trans ?_
  rw [pickSlot_none hfree]

theorem xqFreePop_some (hfree : (s.cluster c).freeSlots ≠ []) : ∃ k ∈ (s.cluster c).freeSlots, s.xqFreePop c =
    (({ s with freeCount := s.freeCount + 1 }).setCluster c ((s.cluster c).setSlot k
      { st := .fresh, isFree := true, since := s.now })).send (.pop c (k + 2 ^ 31)) := by
  obtain ⟨k, hk, hpick⟩ := pickSlot_some hfree
  refine ⟨k, hk, (if_neg (cores_up hup)).trans ?_⟩
  rw [hpick]
  rfl

section
variable {w : Nat}

theorem xqRet_unheld (hpopped : ((s.cluster c).slot (retEntryOf w).slot).st ≠ .popped)
    (hfresh : ((s.cluster c).slot (retEntryOf w).slot).st ≠ .fresh) : s.xqRet c w [] = s.count (xpeCounter c 5) 1 :=
  (if_neg (cores_up hup)).trans (if_pos (by
    rw [List.foldl_nil, decide_eq_true hpopped, decide_eq_true hfresh]
    rfl))

theorem xqRet_held (hheld : ((s.cluster c).slot (retEntryOf w).slot).st = .popped ∨ ((s.cluster c).slot (retEntryOf w).slot).st = .fresh) :
    let e := retEntryOf w
    let y := (s.cluster c).setSlot e.slot { (s.cluster c).slot e.slot with st := .returned }
    s.xqRet c w [] = s.setCluster c (if (s.cluster c).ret.length < 64 && (s.cluster c).stalled = [] then
      { y with ret := (s.cluster c).ret ++ [e] } else { y with stalled := (s.cluster c).stalled ++ [e] }) := by
  refine (if_neg (cores_up hup)).trans (if_neg ?_)
  rw [List.foldl_nil, Bool.and_eq_true, decide_eq_true_eq, decide_eq_true_eq]
  rintro ⟨hpopped, hfresh⟩
  exact hheld.elim hpopped hfresh

end
end

/-! ### Returned entries -/

/-- The length of a returned frame is allowed (spec/18 R569). -/
def RetEntry.lenOk (e : RetEntry) : Prop := 14 ≤ e.len ∧ e.len ≤ 10240

theorem actionOf_misfit {v : MSlot} {e : RetEntry} (h : e.action = 1 ∨ ¬ e.lenOk) : actionOf v e = (1, false) := by
  unfold RetEntry.lenOk at h
  refine if_pos ?_
  simp only [Bool.or_eq_true, decide_eq_true_eq]
  omega

theorem actionOf_good {v : MSlot} {e : RetEntry} (haction : e.action ≠ 1) (hlen : e.lenOk) : actionOf v e =
    if (e.action = 0 && v.isFree) || (e.action = 2 && !v.isFree) then (1, true) else (e.action, false) := by
  obtain ⟨hlow, hhigh⟩ := hlen
  refine if_neg ?_
  simp only [Bool.or_eq_true, decide_eq_true_eq]
  omega

theorem actionOf_return {v : MSlot} {e : RetEntry} (haction : e.action = 0) (hfree : v.isFree = false) (hlen : e.lenOk) :
    actionOf v e = (0, false) := by
  rw [actionOf_good (by omega) hlen, haction, hfree]
  rfl

theorem actionOf_new {v : MSlot} {e : RetEntry} (haction : e.action = 2) (hfree : v.isFree = true) (hlen : e.lenOk) :
    actionOf v e = (2, false) := by
  rw [actionOf_good (by omega) hlen, haction, hfree]
  rfl

theorem actionOf_strayReturn {v : MSlot} {e : RetEntry} (haction : e.action = 0) (hfree : v.isFree = true) (hlen : e.lenOk) :
    actionOf v e = (1, true) := by
  rw [actionOf_good (by omega) hlen, haction, hfree]
  rfl

section
variable {e : RetEntry} {q : List RetEntry} (hc : c < 4) (hrun : s.inReset 17 = false) (hret : (s.cluster c).ret = e :: q)
include hc hrun hret

theorem onReturn_eq {a : Nat} {b : Bool} {f : RetEntry → MSlot → Bool → State}
    (haction : actionOf ((s.cluster c).slot e.slot) e = (a, b)) : s.onReturn c a f = f e ((s.cluster c).slot e.slot) b := by
  have hgo : ¬ (3 < c || s.inReset 17) = true := by
    rw [hrun, decide_eq_false (by omega)]
    exact Bool.false_ne_true
  refine (if_neg hgo).trans ?_
  rw [hret]
  refine (if_pos (by rw [haction])).trans ?_
  rw [haction]

theorem masonReturn_eq (haction : e.action = 0) (hfree : ((s.cluster c).slot e.slot).isFree = false) (hlen : e.lenOk) :
    let v := (s.cluster c).slot e.slot
    let back := s.returnMark v.mark ((s.cluster c).slotMark e.slot) e
    s.masonReturn c =
      if v.stale && ((s.cluster c).slotMark e.slot).inst = v.inst then
        ((s.count (xpeCounter c 1) 1).count (xpeReason Reason.staleGen) 1).retTaken c e
      else if back.epoch ≠ s.rules.epoch then ((s.count (xpeCounter c 1) 1).count (clsCounter back.course 9) 1).retTaken c e
      else s.masonAdmit c e back ((s.cluster c).slotFrame e.slot e.len) false 1 :=
  onReturn_eq hc hrun hret (actionOf_return haction hfree hlen)

theorem masonNew_eq (haction : e.action = 2) (hfree : ((s.cluster c).slot e.slot).isFree = true) (hlen : e.lenOk) :
    s.masonNew c = s.masonAdmit c e (s.newMark ((s.cluster c).slotMark e.slot) e) ((s.cluster c).slotFrame e.slot e.len) true 3 :=
  onReturn_eq hc hrun hret (actionOf_new haction hfree hlen)

theorem masonDiscard_eq {misfit : Bool} (haction : actionOf ((s.cluster c).slot e.slot) e = (1, misfit)) :
    let t := (s.count (xpeCounter c 2) 1).count (xpeReason ((s.cluster c).slotMark e.slot).reason) 1
    s.masonDiscard c = (if misfit then t.count (xpeCounter c 6) 1 else t).retTaken c e :=
  onReturn_eq hc hrun hret haction

end

theorem masonAdmit_eq {e : RetEntry} {mk : Mark} {bs : List Byte} {fresh : Bool} {k : Nat} {y : Packet}
    (hy : ((s.newPkt { mark := mk, bytes := bs, stage := .waitSlot, fresh := fresh, since := s.now }).2.createMark s.nextPkt).pkt
      s.nextPkt = some y) :
    s.masonAdmit c e mk bs fresh k = if y.stage = .atParser then
      ((((s.newPkt { mark := mk, bytes := bs, stage := .waitSlot, fresh := fresh, since := s.now }).2.createMark s.nextPkt)).count
        (xpeCounter c k) 1).retTaken c e else s := by
  unfold State.masonAdmit
  dsimp only
  rw [show (s.newPkt { mark := mk, bytes := bs, stage := .waitSlot, fresh := fresh, since := s.now }).1 = s.nextPkt from rfl, hy]

end

/-- Settles O50, by the free slots of a cluster, the states of a slot and the action of the oldest returned entry. -/
theorem masonsHoldPackets : Obligations.MasonsHoldPackets := by
  unfold Obligations.MasonsHoldPackets
  intro s c hc hreleased _ hrun cl
  refine ⟨fun p x hhead hprov hmem hxpe hitem hmason hgen hage => ?delivery, fun hup => ?queues, fun e q hret => ?returns⟩
  case delivery =>
    have hdeliver : ∀ {u : State}, s.begun.masonDelivery = u → exec .masonDelivery s = .next (s.close u) := fun h =>
      runMain_effect (f := fun t => t.masonDelivery) hreleased h
    refine ⟨fun hfull => hdeliver (masonDelivery_full (s := s.begun) hhead hprov hmem hxpe hmason hfull), fun hfree => ?_⟩
    obtain ⟨k, hk, hplaced⟩ := masonDelivery_placed (s := s.begun) hhead hprov hmem hxpe hmason hitem hgen hage hfree
    exact ⟨k, hk, hdeliver hplaced⟩
  case queues =>
    have hmain : ∀ {g : State → State} {u : State}, g s.begun = u → runMain g s = .next (s.close u) := fun h =>
      runMain_effect hreleased h
    refine ⟨fun hxq => hmain (g := fun t => t.xqPop c) (xqPop_empty (s := s.begun) hup hxq),
      fun k q hxq => hmain (g := fun t => t.xqPop c) (xqPop_oldest (s := s.begun) hup hxq),
      fun hfree => hmain (g := fun t => t.xqFreePop c) (xqFreePop_none (s := s.begun) hup hfree), fun hfree => ?_, ?_⟩
    · obtain ⟨k, hk, hpopped⟩ := xqFreePop_some (s := s.begun) hup hfree
      exact ⟨k, hk, hmain (g := fun t => t.xqFreePop c) hpopped⟩
    · intro w hw e v y
      have hret : ∀ {u : State}, s.begun.xqRet c w [] = u → exec (.xqRet c w []) s = .next (s.close u) := by
        intro u hu
        refine hmain (g := fun t => t.xqRet c (w % 2 ^ 32) []) ?_
        rw [Nat.mod_eq_of_lt hw]
        exact hu
      refine ⟨fun hheld => ⟨fun hroom hstall => hret ((xqRet_held (s := s.begun) hup hheld).trans ?_),
        fun hfull => hret ((xqRet_held (s := s.begun) hup hheld).trans ?_)⟩,
        fun hpopped hfresh => hret (xqRet_unheld (s := s.begun) hup hpopped hfresh)⟩
      · exact congrArg (s.begun.setCluster c) (if_pos (by
          rw [Bool.and_eq_true, decide_eq_true_eq, decide_eq_true_eq]
          exact ⟨hroom, hstall⟩))
      · exact congrArg (s.begun.setCluster c) (if_neg (by
          rw [Bool.and_eq_true, decide_eq_true_eq, decide_eq_true_eq]
          exact fun h => Nat.not_lt.2 hfull h.1))
  case returns =>
    intro v given frame back new lenOk
    have hmain : ∀ {g : State → State} {u : State}, g s.begun = u → runMain g s = .next (s.close u) := fun h =>
      runMain_effect hreleased h
    refine ⟨fun haction hfree hlen => ?_, fun haction hfree hlen => ?_, fun h => ?_, fun haction hfree hlen => ?_⟩
    · have hback := masonReturn_eq (s := s.begun) hc hrun hret haction hfree hlen
      have hreturn : ∀ {u : State}, s.begun.masonReturn c = u → exec (.masonReturn c) s = .next (s.close u) := fun h =>
        hmain (g := fun t => t.masonReturn c) h
      have hlive : v.stale = false → ¬ (v.stale && decide (given.inst = v.inst)) = true := fun h => by
        rw [h]
        exact Bool.false_ne_true
      refine ⟨fun hstale hinst => hreturn (hback.trans (if_pos ?_)),
        fun hstale hepoch => hreturn (hback.trans ((if_neg (hlive hstale)).trans (if_pos hepoch))), fun hstale hepoch => ?_⟩
      · rw [Bool.and_eq_true, decide_eq_true_eq]
        exact ⟨hstale, hinst⟩
      · intro r t y hy hstage
        exact hreturn (hback.trans ((if_neg (hlive hstale)).trans ((if_neg (not_not.2 hepoch)).trans
          ((masonAdmit_eq (s := s.begun) hy).trans (if_pos hstage)))))
    · have hnew := masonNew_eq (s := s.begun) hc hrun hret haction hfree hlen
      intro r t y hy
      have hadmit := hnew.trans (masonAdmit_eq (s := s.begun) hy)
      exact ⟨fun hstage => hmain (g := fun t => t.masonNew c) (hadmit.trans (if_pos hstage)),
        fun hstage => hmain (g := fun t => t.masonNew c) (hadmit.trans (if_neg hstage))⟩
    · exact hmain (g := fun t => t.masonDiscard c) (masonDiscard_eq (s := s.begun) (misfit := false) hc hrun hret (actionOf_misfit h))
    · exact hmain (g := fun t => t.masonDiscard c)
        (masonDiscard_eq (s := s.begun) (misfit := true) hc hrun hret (actionOf_strayReturn haction hfree hlen))

end Sys2Proof.Machine
end

