-- ==== Sys2Proof/Proofs/MasonClusters.lean ====
section

/-! O51: Mason clusters are drained, tested and returned, and held slots reported (spec/18 R571, R572). -/

namespace Sys2Proof.Machine

section
variable {s : State} {m : Master} {c : Nat}

theorem cluster_setCluster_self (hc : c < s.xpe.clusters.length) (x : Cluster) : (s.setCluster c x).cluster c = x :=
  getD_setNth_self hc x

theorem setCluster_setCluster (x y : Cluster) : (s.setCluster c x).setCluster c y = s.setCluster c y := by
  unfold State.setCluster setNth
  simp only [List.set_set]

/-- What a write of a command to XPE_CMD does, where the effect takes it. -/
theorem run_clusterRow {v : State} {op : Nat} (hc : c < 4) (hw : s.writes m (blockBase 17 + 0x1000))
    (he : State.clusterCommand m op c s.begun = (v, true)) :
    runMain (fun t => t.clusterRow m op c) s = .next (s.close (m.logged (blockBase 17 + 0x1000) 4 (op + c * 4) v)) := by
  refine runMain_effect (f := fun t => t.clusterRow m op c) hw.1.1 ?_
  rw [State.clusterRow, if_neg (by omega), clusterWord, Nat.mod_eq_of_lt hc,
    access_eff ((begun_reaches s m _).2 hw.1) _ _ _ _ (by rw [he]), he]

section
variable (hfw : m.isFw = true) (hfree : s.xpe.cmd.busy = false) (hc : c < 4)
include hfw hfree hc

theorem cluster_served : ¬ (!m.isFw || s.xpe.cmd.busy || 3 < c) = true := by
  rw [hfw, hfree, decide_eq_false (by omega)]
  exact Bool.false_ne_true

theorem clusterCommand_drain : State.clusterCommand m 1 c s =
    (if (s.cluster c).state ≠ .inService then s.endXpe 1
     else if s.inClusters.length ≤ 1 then s.endXpe 2
     else (s.setClusterSt c .draining).endXpe 0, true) := if_neg (cluster_served hfw hfree hc)

theorem clusterCommand_test : State.clusterCommand m 2 c s =
    (if (s.cluster c).state = .out || (s.cluster c).state = .failed then (s.setClusterSt c .testing).endXpe 0
     else s.endXpe 1, true) := if_neg (cluster_served hfw hfree hc)

theorem clusterCommand_return : State.clusterCommand m 3 c s =
    (if (s.cluster c).state ≠ .out then s.endXpe 1
     else ((s.setCluster c { s.cluster c with entry := s.word Reg.xpeClusterCtl [c] }).setClusterSt c .inService).endXpe 0, true) :=
  if_neg (cluster_served hfw hfree hc)

end

/-- A cluster given a new value and then a new state. -/
theorem setClusterSt_setCluster (hc : c < s.xpe.clusters.length) (x : Cluster) (st : UnitSt) :
    (s.setCluster c x).setClusterSt c st = (s.setCluster c { x with state := st }).xpeReady := by
  unfold State.setClusterSt
  rw [cluster_setCluster_self hc, setCluster_setCluster]

/-! ### The ends of a drain and of a test -/

theorem clusterOut_empty (hc : c < 4) (hstate : (s.cluster c).state = .draining) (hslots : (s.cluster c).slots = [])
    (hret : (s.cluster c).ret = []) (hstalled : (s.cluster c).stalled = []) : s.clusterOut c = (s.setClusterSt c .out).raise 420 c := by
  refine if_neg ?_
  simp only [hstate, hslots, hret, hstalled, Bool.or_eq_true, decide_eq_true_eq, ne_eq, not_true, or_false]
  omega

theorem clusterOut_stays (h : (s.cluster c).state ≠ .draining ∨ (s.cluster c).slots ≠ [] ∨ (s.cluster c).ret ≠ []) :
    s.clusterOut c = s := by
  refine if_pos ?_
  simp only [Bool.or_eq_true, decide_eq_true_eq]
  tauto

/-- A cluster after its test: the SRAM below the shared memory is cleared (spec/18 R572). -/
def Cluster.tested (x : Cluster) (pass : Bool) : Cluster :=
  { x with testPass := pass, mem := x.mem.filter (fun (p : Nat × Byte) => decide (0x200000 ≤ p.1)) }

theorem clusterTestEnd_eq (hc : c < 4) (hstate : (s.cluster c).state = .testing) (pass : Bool) : s.clusterTestEnd c pass =
    let t := (s.setCluster c ((s.cluster c).tested pass)).setClusterSt c (if pass then .out else .failed)
    if pass then t else t.raise 421 c := by
  refine if_neg ?_
  rw [Bool.or_eq_true, decide_eq_true_eq, decide_eq_true_eq]
  rintro (h | h)
  · omega
  · exact h hstate

theorem clusterTestEnd_stays (hstate : (s.cluster c).state ≠ .testing) (pass : Bool) : s.clusterTestEnd c pass = s :=
  if_pos (by rw [decide_eq_true hstate, Bool.or_true])

/-! ### Held slots -/

section
variable {k : Nat}

theorem slotHold_over (hc : c < 4) (hheld : ((s.cluster c).slot k).st = .popped ∨ ((s.cluster c).slot k).st = .fresh)
    (hraised : ((s.cluster c).slot k).raised = false) (hus : s.fld Reg.xpeClusterCfg [c] 0 16 ≠ 0)
    (hover : ((s.cluster c).slot k).since + 1000 * s.fld Reg.xpeClusterCfg [c] 0 16 < s.now) : s.slotHold c k =
      ((s.setCluster c ((s.cluster c).setSlot k { (s.cluster c).slot k with raised := true })).count (xpeCounter c 4) 1).raise 419 c := by
  refine if_neg ?_
  simp only [hraised, Bool.or_false, Bool.or_eq_true, Bool.and_eq_true, decide_eq_true_eq]
  rintro (((h | ⟨hpopped, hfresh⟩) | h) | h)
  · omega
  · exact hheld.elim hpopped hfresh
  · exact hus h
  · omega

theorem slotHold_stays (h : ((s.cluster c).slot k).raised = true ∨ s.fld Reg.xpeClusterCfg [c] 0 16 = 0
    ∨ s.now ≤ ((s.cluster c).slot k).since + 1000 * s.fld Reg.xpeClusterCfg [c] 0 16) : s.slotHold c k = s := by
  refine if_pos ?_
  simp only [Bool.or_eq_true, decide_eq_true_eq]
  tauto

end
end

/-- Settles O51, by the states of a cluster and the conditions of each report. -/
theorem clustersAreManaged : Obligations.ClustersAreManaged := by
  unfold Obligations.ClustersAreManaged
  intro s m c hc hreleased a cl fin
  have hmain : ∀ {g : State → State} {u : State}, g s.begun = u → runMain g s = .next (s.close u) := fun h =>
    runMain_effect hreleased h
  refine ⟨fun hw hfw hfree => ?commands,
    fun hstate hslots hret hstalled => hmain (g := fun t => t.clusterOut c) (clusterOut_empty (s := s.begun) hc hstate hslots hret hstalled),
    fun h => hmain (g := fun t => t.clusterOut c) (clusterOut_stays (s := s.begun) h), fun hstate hlen => ?tested,
    fun hstate p => hmain (g := fun t => t.clusterTestEnd c p) (clusterTestEnd_stays (s := s.begun) hstate p),
    fun k => ⟨fun hheld hraised hus hover => hmain (g := fun t => t.slotHold c k)
        (slotHold_over (s := s.begun) hc hheld hraised hus hover),
      fun h => hmain (g := fun t => t.slotHold c k) (slotHold_stays (s := s.begun) h)⟩⟩
  case tested =>
    intro mem
    have htest := clusterTestEnd_eq (s := s.begun) hc hstate
    have hset := fun x st => setClusterSt_setCluster (s := s.begun) (c := c) (by rw [show s.begun.xpe.clusters.length = 4 from hlen]; exact hc) x st
    refine ⟨hmain (g := fun t => t.clusterTestEnd c true) ((htest true).trans ?_),
      hmain (g := fun t => t.clusterTestEnd c false) ((htest false).trans ?_)⟩
    · exact hset _ _
    · exact congrArg (fun t : State => t.raise 421 c) (hset _ _)
  case commands =>
    have hcmd : ∀ {op r : Nat} {t u : State}, State.clusterCommand m op c s.begun = (t, true) → t = u.endXpe r →
        runMain (fun t => t.clusterRow m op c) s = fin op r u := by
      intro op r t u he ht
      subst ht
      exact run_clusterRow hc hw he
    have hdrain := clusterCommand_drain (s := s.begun) hfw hfree hc
    have htest := clusterCommand_test (s := s.begun) hfw hfree hc
    have hreturn := clusterCommand_return (s := s.begun) hfw hfree hc
    refine ⟨fun hstate hothers => hcmd hdrain ((if_neg (not_not.2 hstate)).trans (if_neg (Nat.not_le.2 hothers))),
      fun hstate hlast => hcmd hdrain ((if_neg (not_not.2 hstate)).trans (if_pos hlast)), fun hstate => hcmd hdrain (if_pos hstate),
      fun hstate => hcmd htest (if_pos ?_), fun hout hfailed => hcmd htest (if_neg ?_),
      fun hstate hlen => hcmd hreturn ((if_neg (not_not.2 hstate)).trans ?_), fun hstate => hcmd hreturn (if_pos hstate)⟩
    · rw [Bool.or_eq_true, decide_eq_true_eq, decide_eq_true_eq]
      exact hstate
    · rw [Bool.or_eq_true, decide_eq_true_eq, decide_eq_true_eq, not_or]
      exact ⟨hout, hfailed⟩
    · exact congrArg (fun t : State => t.endXpe 0)
        (setClusterSt_setCluster (s := s.begun) (by rw [show s.begun.xpe.clusters.length = 4 from hlen]; exact hc) _ _)

end Sys2Proof.Machine
end

