-- ==== Sys2Proof/Proofs/QuoinLinks.lean ====
section

/-! O52: Quoin links train, negotiate and come up (spec/20 R599, R602, R605, R617). -/

namespace Sys2Proof.Machine

section
variable {s : State} {p : Nat}

/-! ### Ports -/

theorem quoin_setQuoin_self (hp : p < s.csc.ports.length) (x : QuoinPort) : (s.setQuoin p x).quoin p = x := getD_setNth_self hp x

theorem setNth_getD_self {α : Type} {l : List α} {n : Nat} (h : n < l.length) (d : α) : setNth l n (l.getD n d) = l := by
  rw [setNth, List.getD_eq_getElem?_getD, List.getElem?_eq_getElem h]
  exact List.set_getElem_self h

theorem setQuoin_quoin (hp : p < s.csc.ports.length) : s.setQuoin p (s.quoin p) = s := by
  unfold State.setQuoin State.quoin
  rw [setNth_getD_self hp]

/-! ### Enabling -/

/-- The word of CSC_PORT_CFG after a write. -/
def portCfgWord (w d : Nat) : Nat := putBits (putBits (putBits w 0 1 (d % 2)) 1 2 (d / 2 % 4)) 3 16 (d / 8 % 65536)

theorem portCfg_stored (locked : Bool) (w d : Nat) : storeFields locked w d Reg.cscPortCfg.fields = portCfgWord w d := by
  have hlow : bitsOf d 0 1 = d % 2 := by rw [bitsOf, Nat.pow_zero, Nat.div_one, Nat.pow_one]
  simp only [storeFields, Reg.cscPortCfg, rw, List.foldl_cons, List.foldl_nil, Bool.false_and, Bool.false_eq_true, if_false,
    Store.apply, hlow]
  rfl

/-- What CSC does once its port configuration is written. -/
def portSwitched (p d : Nat) (r : State × Bool) : State × Bool :=
  if !r.2 then r
  else if bitOf d 0 then
    (if (r.1.quoin p).state = .disabled then r.1.setQuoin p { r.1.quoin p with state := .training } else r.1, true)
  else if (r.1.quoin p).state = .disabled then r else (r.1.quoinDown p .disabled (some 1) false, true)

theorem quoinPortCfg_eq {m : Master} {d : Nat} (hp : p < 4) (hfeature : s.feature 6 = true) :
    State.quoinPortCfg m p d s =
      portSwitched p d (s.setWord Reg.cscPortCfg [p] (portCfgWord (s.word Reg.cscPortCfg [p]) d), true) := by
  have hvalid : Reg.cscPortCfg.valid [p] = true := by
    obtain rfl | rfl | rfl | rfl : p = 0 ∨ p = 1 ∨ p = 2 ∨ p = 3 := by omega
    all_goals rfl
  have hwrite : State.writeReg m Reg.cscPortCfg [p] d s =
      (s.setWord Reg.cscPortCfg [p] (portCfgWord (s.word Reg.cscPortCfg [p]) d), true) := by
    rw [writeReg_unlockable rfl hvalid (List.cons_ne_nil _ _) rfl, portCfg_stored]
  have hdata : (if s.feature 6 then d else putBits d 0 1 0) = d := if_pos hfeature
  rw [← hwrite]
  exact congrArg (fun e => portSwitched p e (State.writeReg m Reg.cscPortCfg [p] e s)) hdata

section
variable {d : Nat}

theorem portSwitched_on (hbit : bitOf d 0 = true) : portSwitched p d (s, true) =
    (if (s.quoin p).state = .disabled then s.setQuoin p { s.quoin p with state := .training } else s, true) :=
  (if_neg Bool.false_ne_true).trans (if_pos hbit)

theorem portSwitched_off (hbit : bitOf d 0 = false) (hstate : (s.quoin p).state ≠ .disabled) :
    portSwitched p d (s, true) = (s.quoinDown p .disabled (some 1) false, true) :=
  (if_neg Bool.false_ne_true).trans ((if_neg (Bool.eq_false_iff.1 hbit)).trans (if_neg hstate))

end

/-! ### Negotiation -/

theorem laneAlign_waits {r : Bool} {i : Nat} (h : (s.quoin p).state ≠ .training ∨ bitOf s.glb.lock 20 = false) :
    s.laneAlign p r i = s := by
  refine if_pos ?_
  rcases h with h | h
  · rw [decide_eq_true h]; rfl
  · rw [h]; exact Bool.or_true _

theorem laneAlign_negotiates {r : Bool} {i : Nat} (hi : i < 256) (hstate : (s.quoin p).state = .training)
    (hready : bitOf s.bring.readyQuoin p = true) (hclock : s.clocks.lrefa = true) (hlock : bitOf s.glb.lock 20 = true) :
    s.laneAlign p r i = s.setQuoin p { s.quoin p with
      state := .negotiate, laneRev := r, rxInvert := i, heard := false, sentSeen := false, gotSeen := false } := by
  refine (if_neg ?_).trans ?_
  · rw [hready, hclock, hlock, decide_eq_false (not_not.2 hstate)]
    exact Bool.false_ne_true
  · rw [Nat.mod_eq_of_lt hi]

theorem tryUp_eq {x : QuoinPort} (hp : p < s.csc.ports.length) (hstate : x.state = .negotiate) (hheard : x.heard = true) :
    (s.setQuoin p x).tryUp p = if x.sentSeen && x.gotSeen then (s.setQuoin p x).linkGoesUp p else s.setQuoin p x := by
  unfold State.tryUp
  dsimp only
  rw [quoin_setQuoin_self hp, decide_eq_true hstate, hheard]
  rfl

theorem helloTimer_other (hstate : (s.quoin p).state ≠ .negotiate) : s.helloTimer p = s := if_pos hstate

theorem helloTimer_unheard (hp : p < s.csc.ports.length) (hstate : (s.quoin p).state = .negotiate)
    (hheard : (s.quoin p).heard = false) :
    s.helloTimer p = s.send (.flit p 2 8 true true 0 (s.helloBytes p false)) := by
  have hsame : { s.quoin p with sentSeen := (s.quoin p).sentSeen || (s.quoin p).heard } = s.quoin p := by
    rw [hheard, Bool.or_false]
  have hport : (s.send (.flit p 2 8 true true 0 (s.helloBytes p (s.quoin p).heard))).setQuoin p (s.quoin p) =
      s.send (.flit p 2 8 true true 0 (s.helloBytes p (s.quoin p).heard)) :=
    setQuoin_quoin (s := s.send (.flit p 2 8 true true 0 (s.helloBytes p (s.quoin p).heard))) hp
  unfold State.helloTimer
  refine (if_neg (not_not.2 hstate)).trans ?_
  dsimp only
  rw [hsame, hport, hheard]
  refine if_neg ?_
  rw [show ((s.send (.flit p 2 8 true true 0 (s.helloBytes p false))).quoin p).heard = false from hheard, Bool.and_false]
  exact Bool.false_ne_true

theorem helloTimer_heard (hp : p < s.csc.ports.length) (hstate : (s.quoin p).state = .negotiate)
    (hheard : (s.quoin p).heard = true) :
    let t := (s.send (.flit p 2 8 true true 0 (s.helloBytes p true))).setQuoin p { s.quoin p with sentSeen := true }
    s.helloTimer p = if (s.quoin p).gotSeen then t.linkGoesUp p else t := by
  unfold State.helloTimer
  refine (if_neg (not_not.2 hstate)).trans ?_
  dsimp only
  rw [hheard, Bool.or_true]
  exact tryUp_eq (s := s.send (.flit p 2 8 true true 0 (s.helloBytes p true))) (x := { s.quoin p with sentSeen := true, heard := true })
    hp hstate rfl

section
variable {h : HelloMsg}

theorem rxHello_unasked (hneg : (s.quoin p).state ≠ .negotiate) (hid : (s.quoin p).state ≠ .idConflict) : s.rxHello p h = s :=
  if_pos (by rw [decide_eq_true hneg, decide_eq_true hid]; rfl)

variable (hstate : (s.quoin p).state = .negotiate ∨ (s.quoin p).state = .idConflict) (hid : h.id < 4)
include hstate hid

omit hid in
theorem hello_judged : ¬ ((s.quoin p).state ≠ .negotiate && (s.quoin p).state ≠ .idConflict) = true := by
  rw [Bool.and_eq_true, decide_eq_true_eq, decide_eq_true_eq]
  rintro ⟨hneg, hconflict⟩
  exact hstate.elim hneg hconflict

theorem rxHello_conflict (hown : h.id = s.moduleId) : s.rxHello p h = s.setQuoin p { s.quoin p with state := .idConflict } :=
  (if_neg (hello_judged hstate)).trans (if_pos ((Nat.mod_eq_of_lt hid).trans hown))

/-- A port that has judged a HELLO good. -/
def QuoinPort.greeted (x : QuoinPort) (h : HelloMsg) (v : Nat) : QuoinPort :=
  { x with
    state := .negotiate, heard := true, gotSeen := x.gotSeen || h.seen, helloFrom := (h.id, h.port, v)
    peerAlloc := (List.range 9).map (fun k => h.alloc.getD k 0 % 8192) }

theorem rxHello_other (hp : p < s.csc.ports.length) (hother : h.id ≠ s.moduleId) (hport : h.port < 4) (hmin : h.verMin < 16)
    (hmax : h.verMax < 16) :
    let v := min (s.fld Reg.cscCfg [] 6 2) h.verMax
    s.rxHello p h =
      if v < h.verMin then s.setQuoin p { s.quoin p with state := .verMismatch }
      else if (s.quoin p).sentSeen && ((s.quoin p).gotSeen || h.seen) then (s.setQuoin p ((s.quoin p).greeted h v)).linkGoesUp p
      else s.setQuoin p ((s.quoin p).greeted h v) := by
  intro v
  have hup := tryUp_eq (x := (s.quoin p).greeted h v) hp rfl rfl
  refine (if_neg (hello_judged hstate)).trans ((if_neg ?_).trans ?_)
  · rw [Nat.mod_eq_of_lt hid]
    exact hother
  · rw [Nat.mod_eq_of_lt hid, Nat.mod_eq_of_lt hport, Nat.mod_eq_of_lt hmin, Nat.mod_eq_of_lt hmax]
    exact if_congr Iff.rfl rfl hup

end

/-! ### Loss -/

theorem quoinDown_early {st : QPort} {why : Option Nat} {reset : Bool} (hstate : (s.quoin p).state ≠ .up) :
    s.quoinDown p st why reset = s.setQuoin p { s.quoin p with state := st, heard := false, sentSeen := false, gotSeen := false } :=
  if_pos hstate

theorem quoinLoss_idle (h : (s.quoin p).state = .disabled ∨ (s.quoin p).state = .training) : s.quoinLoss p = s :=
  if_pos (by rw [Bool.or_eq_true, decide_eq_true_eq, decide_eq_true_eq]; exact h)

theorem quoinLoss_live (hoff : (s.quoin p).state ≠ .disabled) (htraining : (s.quoin p).state ≠ .training) :
    s.quoinLoss p = s.quoinDown p .training none false :=
  if_neg (by rw [decide_eq_false hoff, decide_eq_false htraining]; exact Bool.false_ne_true)

end

/-- Settles O52, by the states of a port that each command and message is taken in. -/
theorem quoinLinksNegotiate : Obligations.QuoinLinksNegotiate := by
  unfold Obligations.QuoinLinksNegotiate
  intro s m p hp hreleased hready hlen x a
  have hlen' : p < s.begun.csc.ports.length := by rw [show s.begun.csc.ports.length = 4 from hlen]; exact hp
  have hblock : ∀ {g : State → State} {u : State}, g s.begun = u → runBlock 20 g s = .next (s.close u) := fun h =>
    runBlock_effect hreleased hready h
  have hloss : ∀ {u : State}, s.begun.quoinLoss p = u → exec (.quoinLinkLoss p) s = .next (s.close u) := fun h =>
    hblock (g := fun t => t.quoinLoss p) h
  refine ⟨fun d hd hw hfeature => ?enable, fun r i hi => ⟨fun hstate hrq hclock hlock => ?align, fun h => ?unaligned⟩, ?timer,
    fun h hid hport hmin hmax => ?hello, fun hstate => ?up, fun hstate => ?negotiating,
    fun h => hloss (quoinLoss_idle (s := s.begun) h), fun hstate c => ?down⟩
  case align => exact hblock (g := fun t => t.laneAlign p r i) (laneAlign_negotiates (s := s.begun) hi hstate hrq hclock hlock)
  case unaligned => exact hblock (g := fun t => t.laneAlign p r i) (laneAlign_waits (s := s.begun) h)
  case enable =>
    intro t
    have hmod : d % 2 ^ 32 = d := Nat.mod_eq_of_lt hd
    have hcfg : ∀ {u : State}, State.quoinPortCfg m p d s.begun = (u, true) →
        exec (.quoinPortEnable m p d) s = .next (s.close (m.logged a 4 d u)) := by
      intro u hu
      refine runMain_effect (f := fun t => if 3 < p then t else
        t.access m (Reg.cscPortCfg.addr [p]) 4 (d % 2 ^ 32) (State.quoinPortCfg m p (d % 2 ^ 32))) hreleased ?_
      rw [if_neg (by omega), hmod, access_eff ((begun_reaches s m _).2 hw.1) _ _ _ _ (by rw [hu]), hu]
    have heq := quoinPortCfg_eq (s := s.begun) (m := m) (d := d) hp hfeature
    exact ⟨fun hbit hstate => hcfg (heq.trans ((portSwitched_on (s := t) hbit).trans (congrArg (·, true) (if_pos hstate)))),
      fun hbit hstate => hcfg (heq.trans ((portSwitched_on (s := t) hbit).trans (congrArg (·, true) (if_neg hstate)))),
      fun hbit hstate => hcfg (heq.trans (portSwitched_off (s := t) hbit hstate))⟩
  case timer =>
    intro hello
    have htimer : ∀ {u : State}, s.begun.helloTimer p = u → exec (.helloTimer p) s = .next (s.close u) := fun h =>
      hblock (g := fun t => t.helloTimer p) h
    exact ⟨fun hstate hheard _ => htimer (helloTimer_unheard (s := s.begun) hlen' hstate hheard),
      fun hstate hheard hgot => htimer ((helloTimer_heard (s := s.begun) hlen' hstate hheard).trans (if_neg (Bool.eq_false_iff.1 hgot))),
      fun hstate hheard hgot => htimer ((helloTimer_heard (s := s.begun) hlen' hstate hheard).trans (if_pos hgot)),
      fun hstate => htimer (helloTimer_other (s := s.begun) hstate)⟩
  case hello =>
    intro v y
    have hrx : ∀ {u : State}, s.begun.rxHello p h = u → exec (.hello p h) s = .next (s.close u) := fun hu =>
      hblock (g := fun t => t.rxHello p h) hu
    refine ⟨fun hstate => ⟨fun hown => hrx (rxHello_conflict (s := s.begun) hstate hid hown), fun hother hold => ?_, fun hother hver => ?_⟩,
      fun hneg hconflict => hrx (rxHello_unasked (s := s.begun) hneg hconflict)⟩
    · exact hrx ((rxHello_other (s := s.begun) hstate hid hlen' hother hport hmin hmax).trans (if_pos hold))
    · have hgood := (rxHello_other (s := s.begun) hstate hid hlen' hother hport hmin hmax).trans (if_neg (Nat.not_lt.2 hver))
      refine ⟨fun hsent hgot => hrx (hgood.trans (if_pos ?_)), fun hnot => hrx (hgood.trans (if_neg ?_))⟩
      · rw [Bool.and_eq_true]
        exact ⟨hsent, hgot⟩
      · rw [Bool.and_eq_true]
        rintro ⟨hsent, hgot⟩
        exact hnot.elim (fun h => Bool.false_ne_true (h.symm.trans hsent)) (fun h => Bool.false_ne_true (h.symm.trans hgot))
  case up =>
    have hlive : ∀ st : QPort, st ≠ .up → (s.begun.quoin p).state ≠ st := fun st hne h => hne (h.symm.trans hstate)
    exact ⟨hloss (quoinLoss_live (s := s.begun) (hlive _ (by decide)) (hlive _ (by decide))),
      fun c => hblock (g := fun t => t.rxDown p) (if_pos (decide_eq_true hstate))⟩
  case negotiating =>
    have hlive : ∀ st : QPort, st ≠ .negotiate → (s.begun.quoin p).state ≠ st := fun st hne h => hne (h.symm.trans hstate)
    exact hloss ((quoinLoss_live (s := s.begun) (hlive _ (by decide)) (hlive _ (by decide))).trans
      (quoinDown_early (s := s.begun) (hlive _ (by decide))))
  case down =>
    exact hblock (g := fun t => t.rxDown p) (if_neg (by rw [State.quoinUp, decide_eq_true_eq]; exact hstate))

end Sys2Proof.Machine
end

