-- ==== Sys2Proof/Proofs/Flits.lean ====
section

/-! O53: flits are judged, acknowledged and sent again (spec/20 R600-R604, R617). -/

namespace Sys2Proof.Machine

section
variable {s : State} {p : Nat}

theorem EventFrame.csc_eq {u : State} (h : EventFrame s u) : u.csc = s.csc := by
  rw [show u = s.eventOn u from h]
  rfl

theorem count_quoin (a n : Nat) : (s.count a n).quoin p = s.quoin p := by
  rw [State.quoin, (EventFrame.count s a n).csc_eq]
  rfl

/-! ### Gaps -/

theorem nakGap_first (hup : (s.quoin p).state = .up) (hnew : (s.quoin p).nakSent = false) : s.nakGap p =
    (s.setQuoin p { s.quoin p with nakSent := true }).send (.ack p (((s.quoin p).rxSeq + 4095) % 4096) true) :=
  if_neg (by rw [decide_eq_false (not_not.2 hup), hnew]; exact Bool.false_ne_true)

theorem nakGap_again (hsent : (s.quoin p).nakSent = true) : s.nakGap p = s := if_pos (by rw [hsent, Bool.or_true])

/-! ### Reception -/

/-- What a port does with a flit whose header it has taken. -/
def State.sequenced (t : State) (p : Nat) (f : FlitIn) : State :=
  if f.seq ≠ (t.quoin p).rxSeq then t.nakGap p
  else
    let u := (t.setQuoin p { t.quoin p with
      rxSeq := ((t.quoin p).rxSeq + 1) % 4096, ackVld := true, nakSent := false }).send (.ack p (t.quoin p).rxSeq false)
    if f.typ = 3 || 8 < f.ch || (f.typ = 2 && f.ch ≠ 8) then u.count (cscCounter p 9) 1
    else if f.typ = 1 then u.rxData p f.ch f.sop f.eop f.payload
    else u.rxControlFlit p f.sop f.eop f.payload

section
variable {f : FlitIn}

theorem flitRx_down (hstate : (s.quoin p).state = .disabled ∨ (s.quoin p).state = .training) : s.flitRx p f = s :=
  if_pos (by rw [Bool.or_eq_true, decide_eq_true_eq, decide_eq_true_eq]; exact hstate)

variable (hup : (s.quoin p).state = .up)
include hup

theorem flit_taken : ¬ ((s.quoin p).state = .disabled || (s.quoin p).state = .training) = true := by
  rw [hup]
  exact Bool.false_ne_true

theorem flitRx_broken (hfec : 2 ≤ f.fec) : s.flitRx p f = (s.count (cscCounter p 5) 1).nakGap p :=
  (if_neg (flit_taken hup)).trans (if_pos hfec)

variable (hfec : f.fec = 0)
include hfec

theorem flitRx_idle (htyp : f.typ = 0) : s.flitRx p f = s.rxHeader p f := by
  refine (if_neg (flit_taken hup)).trans ((if_neg (by omega)).trans ((if_pos htyp).trans ?_))
  rw [if_neg (by omega)]

/-- A data flit, or a control flit other than HELLO and DOWN. -/
def FlitIn.inSequence (f : FlitIn) : Prop :=
  (f.typ = 2 ∧ f.ch = 8 ∧ leAt f.payload 0 1 ≠ 1 ∧ leAt f.payload 0 1 ≠ 7) ∨ f.typ = 1

variable (hseq : f.seq < 4096) (hkind : f.inSequence) (hlive : ((s.rxHeader p f).quoin p).state = .up)
include hseq hkind hlive

theorem flitRx_sequenced : s.flitRx p f = (s.rxHeader p f).sequenced p f := by
  have htyp : f.typ ≠ 0 := by unfold FlitIn.inSequence at hkind; omega
  have hfirst : (if f.fec = 1 then s.count (cscCounter p 4) 1 else s) = s := if_neg (by omega)
  have hplain : ¬ (f.typ = 2 && f.ch = 8 && f.sop && (leAt f.payload 0 1 = 1 || leAt f.payload 0 1 = 7)) = true := by
    simp only [Bool.and_eq_true, Bool.or_eq_true, decide_eq_true_eq]
    unfold FlitIn.inSequence at hkind
    omega
  have hmod : f.seq % 4096 = f.seq := Nat.mod_eq_of_lt hseq
  unfold State.flitRx
  refine (if_neg (flit_taken hup)).trans ((if_neg (by omega)).trans ?_)
  rw [hfirst]
  refine (if_neg htyp).trans ((if_neg hplain).trans ((if_neg ?_).trans ?_))
  · rw [State.quoinUp, decide_eq_true (show ((s.rxHeader p f).csc.ports.getD p {}).state = .up from hlive)]
    exact Bool.false_ne_true
  · rw [hmod]
    rfl

end

section
variable {f : FlitIn}

theorem sequenced_gap (h : f.seq ≠ (s.quoin p).rxSeq) : s.sequenced p f = s.nakGap p := if_pos h

variable (h : f.seq = (s.quoin p).rxSeq)
include h

/-- A port that has taken the next flit. -/
def State.took (s : State) (p seq : Nat) : State :=
  (s.setQuoin p { s.quoin p with rxSeq := ((s.quoin p).rxSeq + 1) % 4096, ackVld := true, nakSent := false }).send (.ack p seq false)

theorem sequenced_next : s.sequenced p f =
    if f.typ = 3 || 8 < f.ch || (f.typ = 2 && f.ch ≠ 8) then (s.took p f.seq).count (cscCounter p 9) 1
    else if f.typ = 1 then (s.took p f.seq).rxData p f.ch f.sop f.eop f.payload
    else (s.took p f.seq).rxControlFlit p f.sop f.eop f.payload := by
  rw [h]
  exact if_neg (not_not.2 h)

theorem sequenced_badChannel (hch : 8 < f.ch) : s.sequenced p f = (s.took p f.seq).count (cscCounter p 9) 1 :=
  (sequenced_next h).trans (if_pos (by rw [decide_eq_true hch, Bool.or_true, Bool.true_or]))

theorem sequenced_data (htyp : f.typ = 1) (hch : f.ch ≤ 8) :
    s.sequenced p f = (s.took p f.seq).rxData p f.ch f.sop f.eop f.payload := by
  refine (sequenced_next h).trans ((if_neg ?_).trans (if_pos htyp))
  rw [htyp, decide_eq_false (Nat.not_lt.2 hch)]
  exact Bool.false_ne_true

theorem sequenced_message (htyp : f.typ = 2) (hch : f.ch = 8) (hsop : f.sop = true) (heop : f.eop = true) :
    s.sequenced p f = (((s.took p f.seq).credit p 8 1).setRx p 8 none none).rxMessage p f.payload := by
  refine (sequenced_next h).trans ((if_neg ?_).trans ((if_neg (by omega)).trans ?_))
  · rw [htyp, hch]
    exact Bool.false_ne_true
  · rw [hsop, heop]
    rfl

end

theorem rxMessage_unknown {b : List Byte} (h : 8 ≤ leAt b 0 1 ∨ leAt b 0 1 = 0) : s.rxMessage p b = s.count (cscModCounter 4) 1 := by
  unfold State.rxMessage
  rcases h with h | h
  · obtain ⟨n, hn⟩ : ∃ n, leAt b 0 1 = n + 8 := ⟨_, (Nat.sub_add_cancel h).symm⟩
    simp only [hn]
  · simp only [h]

theorem rxMessage_time {b : List Byte} (h : leAt b 0 1 = 5) : s.rxMessage p b = s.rxTime p (leAt b 4 8) (leAt b 12 8) (leAt b 20 8) := by
  unfold State.rxMessage
  simp only [h]

/-! ### A header with nothing to send -/

theorem pumpChan_idle (hp : p < s.csc.ports.length) (hwaiting : (s.quoin p).waiting = List.replicate 9 [])
    (hcredit : (s.quoin p).creditWait = List.replicate 9 none) (ch n : Nat) : s.pumpChan p ch n = s := by
  have hempty : (s.quoin p).waiting.getD ch [] = [] := by
    rw [hwaiting, List.getD_eq_getElem?_getD, List.getElem?_replicate]
    split <;> rfl
  have hsame : { s.quoin p with creditWait := setNth (s.quoin p).creditWait ch none } = s.quoin p := by
    rw [setNth, hcredit, List.set_replicate_self, ← hcredit]
  cases n with
  | zero => rfl
  | succ n =>
    unfold State.pumpChan
    dsimp only
    rw [hempty]
    exact (congrArg (s.setQuoin p) hsame).trans (setQuoin_quoin hp)

theorem pump_idle (hp : p < s.csc.ports.length) (hwaiting : (s.quoin p).waiting = List.replicate 9 [])
    (hcredit : (s.quoin p).creditWait = List.replicate 9 none) : s.pump p = s :=
  List.foldl_fixed' (fun ch => pumpChan_idle hp hwaiting hcredit ch _) _

theorem rxHeader_credits {f : FlitIn} (hp : p < s.csc.ports.length) (hup : (s.quoin p).state = .up) (hack : f.ackVld = false)
    (hnak : f.nak = false) (hwaiting : (s.quoin p).waiting = List.replicate 9 [])
    (hcredit : (s.quoin p).creditWait = List.replicate 9 none) (hch : f.crCh ≤ 8) : s.rxHeader p f =
      s.setQuoin p { s.quoin p with
        credits := setNth (s.quoin p).credits f.crCh ((s.quoin p).credits.getD f.crCh 0 + f.crCount) } := by
  unfold State.rxHeader
  refine (if_neg (not_not.2 hup)).trans ?_
  simp only [hack, hnak, hch, Bool.false_and, Bool.false_eq_true, if_false, if_true, Nat.lt_irrefl]
  refine pump_idle (by rw [State.setQuoin, setNth, List.length_set]; exact hp) ?_ ?_
  · rw [quoin_setQuoin_self hp]
    exact hwaiting
  · rw [quoin_setQuoin_self hp]
    exact hcredit

/-! ### Resending -/

/-- The flits that are not acknowledged, sent once more. -/
def State.resent (s : State) (p : Nat) : State :=
  ((s.quoin p).unacked.map (fun (u : SentFlit) => { u with sends := u.sends + 1 })).foldl (fun (t : State) u =>
    (t.send (.flit p u.flit.typ u.flit.ch u.flit.sop u.flit.eop u.seq u.flit.payload)).count (cscCounter p 6) 1)
      (s.setQuoin p { s.quoin p with
        unacked := (s.quoin p).unacked.map (fun (u : SentFlit) => { u with sends := u.sends + 1 }), ackAt := s.now })

theorem resend_eq : s.resend p =
    if (s.quoin p).unacked.any (fun u => decide (8 ≤ u.sends)) then (s.resent p).quoinDown p .training (some 2) false
    else s.resent p := by
  have hany : ((s.quoin p).unacked.map (fun (u : SentFlit) => { u with sends := u.sends + 1 })).any (fun u => decide (9 ≤ u.sends)) =
      (s.quoin p).unacked.any (fun u => decide (8 ≤ u.sends)) := by
    rw [List.any_map]
    congr 1
    funext u
    exact decide_eq_decide.2 Nat.succ_le_succ_iff
  rw [← hany]
  rfl

theorem resendTimer_due (hup : (s.quoin p).state = .up) (hheld : (s.quoin p).unacked ≠ []) (hdue : (s.quoin p).ackAt + 1000 ≤ s.now) :
    s.resendTimer p = s.resend p :=
  if_pos (by rw [decide_eq_true hup, decide_eq_true hheld, decide_eq_true hdue]; rfl)

theorem resendTimer_idle (h : (s.quoin p).state ≠ .up ∨ (s.quoin p).unacked = [] ∨ s.now < (s.quoin p).ackAt + 1000) :
    s.resendTimer p = s := by
  refine if_neg ?_
  rw [Bool.and_eq_true, Bool.and_eq_true, decide_eq_true_eq, decide_eq_true_eq, decide_eq_true_eq]
  rintro ⟨⟨hup, hheld⟩, hdue⟩
  exact h.elim (fun h => h hup) (fun h => h.elim hheld (Nat.not_lt.2 hdue))

/-! ### Waits for credit, and the flush of a port that is down -/

theorem creditExpiry_eq {ch t : Nat} (hwait : (s.quoin p).creditWait.getD ch none = some t) : s.creditExpiry p ch =
    if t = 0 || s.now < t + 1000 * s.fld Reg.cscPortCredit [p] 0 16 then s
    else ((s.setQuoin p { s.quoin p with creditWait := setNth (s.quoin p).creditWait ch (some 0) }).count
      (cscCounter p 7) 1).raise 522 (s.quoinId p) := by
  unfold State.creditExpiry
  dsimp only
  rw [hwait]

/-- The waiting flits of a channel that stay when its port is flushed. -/
def flushKept (w : List Flit) : List Flit :=
  match w with
  | f :: _ => if f.typ = 1 then [] else w
  | [] => []

theorem flushKept_head {w : List Flit} {f : Flit} {fs : List Flit} (h : flushKept w = f :: fs) : f.typ ≠ 1 := by
  cases w with
  | nil => exact absurd h (List.cons_ne_nil f fs).symm
  | cons g gs =>
    unfold flushKept at h
    dsimp only at h
    split at h
    · exact absurd h (List.cons_ne_nil f fs).symm
    · rename_i hg
      rw [← (List.cons.inj h).1]
      exact hg

/-- Whatever a port holds, once its waiting flits are filtered no channel begins with a data flit. -/
theorem setQuoin_flushed {w : List Flit} {f : Flit} {fs : List Flit}
    (hmem : w ∈ ((s.setQuoin p { s.quoin p with waiting := (s.quoin p).waiting.map flushKept }).quoin p).waiting) (hw : w = f :: fs) :
    f.typ ≠ 1 := by
  by_cases hp : p < s.csc.ports.length
  · rw [quoin_setQuoin_self hp] at hmem
    obtain ⟨v, -, hv⟩ := List.mem_map.1 hmem
    exact flushKept_head (hv.trans hw)
  · have hport : (s.setQuoin p { s.quoin p with waiting := (s.quoin p).waiting.map flushKept }).quoin p = {} := by
      unfold State.quoin State.setQuoin setNth
      rw [List.getD_eq_getElem?_getD, List.getElem?_eq_none (by rw [List.length_set]; omega)]
      rfl
    rw [hport] at hmem
    have hnil : w = [] := List.eq_of_mem_replicate (n := 9) hmem
    exact absurd (hnil.symm.trans hw) (List.cons_ne_nil f fs).symm

theorem quoinFlush_open (h : s.quoinShut p = false) : s.quoinFlush p = s := if_pos (by rw [h]; rfl)

theorem quoinFlush_shut (h : s.quoinShut p = true) : ∃ t : State,
    s.quoinFlush p = t.setQuoin p { t.quoin p with waiting := (t.quoin p).waiting.map flushKept } :=
  ⟨_, if_neg (by rw [h]; exact Bool.false_ne_true)⟩

end

/-- Settles O53, by the checks of a flit in their order, the resending's fold and the flush's filter. -/
theorem flitsAreExchanged : Obligations.FlitsAreExchanged := by
  unfold Obligations.FlitsAreExchanged
  intro s p hp hreleased hready hlen x nak
  have hlen' : p < s.begun.csc.ports.length := by rw [show s.begun.csc.ports.length = 4 from hlen]; exact hp
  have hblock : ∀ {g : State → State} {u : State}, g s.begun = u → runBlock 20 g s = .next (s.close u) := fun h =>
    runBlock_effect hreleased hready h
  have hrx : ∀ {f : FlitIn} {u : State}, s.begun.flitRx p f = u → exec (.flitRx p f) s = .next (s.close u) := fun {f _} h =>
    hblock (g := fun t => t.flitRx p f) h
  refine ⟨fun hstate f => hrx (flitRx_down (s := s.begun) hstate),
    fun f hup => ⟨fun hfec => ?broken, fun hfec htyp hack hnak hwaiting hcredit _ hch => ?idle, fun hfec hseq hkind => ?sequence⟩,
    ?resend, fun ch t hwait => ?credit,
    fun hopen => hblock (g := fun t => t.quoinFlush p) (quoinFlush_open (s := s.begun) hopen), fun hshut => ?flush⟩
  case broken =>
    have hbroken := flitRx_broken (s := s.begun) (p := p) hup hfec
    have hport := count_quoin (s := s.begun) (p := p) (cscCounter p 5) 1
    intro t
    refine ⟨fun hnew => hrx (hbroken.trans ?_), fun hsent => hrx (hbroken.trans (nakGap_again (by rw [hport]; exact hsent)))⟩
    refine (nakGap_first (by rw [hport]; exact hup) (by rw [hport]; exact hnew)).trans ?_
    rw [show (s.begun.count (cscCounter p 5) 1).quoin p = s.begun.quoin p from hport]
    exact congrArg (fun y => (t.setQuoin p { y with nakSent := true }).send (.ack p ((x.rxSeq + 4095) % 4096) true)) hport.symm
  case idle =>
    exact hrx ((flitRx_idle (s := s.begun) hup hfec htyp).trans
      (rxHeader_credits (s := s.begun) hlen' hup hack hnak hwaiting hcredit hch))
  case sequence =>
    intro t hlive
    have hflit := flitRx_sequenced (s := s.begun) hup hfec hseq hkind hlive
    refine ⟨fun hgap => hrx (hflit.trans (sequenced_gap hgap)), fun hnext => ?_⟩
    intro u
    refine ⟨fun htyp hch => hrx (hflit.trans (sequenced_badChannel hnext hch)),
      fun htyp hch => hrx (hflit.trans (sequenced_data hnext htyp hch)), fun htyp hsop heop => ?_⟩
    intro v
    have hch : f.ch = 8 := by omega
    have hmessage := hflit.trans (sequenced_message hnext htyp hch hsop heop)
    exact ⟨fun hkind => hrx (hmessage.trans (rxMessage_unknown hkind)), fun hkind => hrx (hmessage.trans (rxMessage_time hkind))⟩
  case resend =>
    intro us sent
    have htimer : ∀ {u : State}, s.begun.resendTimer p = u → exec (.resendTimer p) s = .next (s.close u) := fun h =>
      hblock (g := fun t => t.resendTimer p) h
    refine ⟨fun hup hheld hdue => ?_, fun h => htimer (resendTimer_idle (s := s.begun) h)⟩
    have hresend := (resendTimer_due (s := s.begun) hup hheld hdue).trans resend_eq
    refine ⟨fun hfew => htimer (hresend.trans (if_neg ?_)), fun hmany => htimer (hresend.trans (if_pos ?_))⟩
    · rw [Bool.not_eq_true, List.any_eq_false]
      intro w hw
      rw [decide_eq_true_eq]
      exact Nat.not_le.2 (hfew w hw)
    · obtain ⟨w, hw, hsends⟩ := hmany
      exact List.any_eq_true.2 ⟨w, hw, decide_eq_true hsends⟩
  case credit =>
    intro lim
    have hexpiry := creditExpiry_eq (s := s.begun) hwait
    refine ⟨fun hfresh hdue => hblock (g := fun t => t.creditExpiry p ch) (hexpiry.trans (if_neg ?_)),
      fun h => hblock (g := fun t => t.creditExpiry p ch) (hexpiry.trans (if_pos ?_))⟩
    · rw [Bool.or_eq_true, decide_eq_true_eq, decide_eq_true_eq]
      rintro (h | h)
      · exact hfresh h
      · exact Nat.not_lt.2 hdue h
    · rw [Bool.or_eq_true, decide_eq_true_eq, decide_eq_true_eq]
      exact h
  case flush =>
    obtain ⟨t, ht⟩ := quoinFlush_shut (s := s.begun) hshut
    exact ⟨_, hblock (g := fun t => t.quoinFlush p) ht, fun w hmem f fs hw => setQuoin_flushed hmem hw⟩

end Sys2Proof.Machine
end

