-- ==== Sys2Proof/Proofs/Stack.lean ====
section

/-! O54: the stack elects, renews and moves configuration epochs (spec/20 R606, R611-R616). -/

namespace Sys2Proof.Machine

section
variable {s : State} {p : Nat}

/-! ### Sending leaves the time base alone -/

theorem EventFrame.tsu_eq {u : State} (h : EventFrame s u) : u.tsu = s.tsu := by
  rw [show u = s.eventOn u from h]
  rfl

theorem sendFlit_tsu (f : Flit) : (s.sendFlit p f).tsu = s.tsu := by
  unfold State.sendFlit
  dsimp only
  split
  · exact (EventFrame.count _ _ _).tsu_eq
  · rfl

theorem pumpChan_tsu (ch n : Nat) : (s.pumpChan p ch n).tsu = s.tsu := by
  induction n generalizing s with
  | zero => rfl
  | succ n ih =>
    unfold State.pumpChan
    dsimp only
    split
    · rfl
    · split
      · rfl
      · split
        · split <;> rfl
        · exact ih.trans (sendFlit_tsu _)

theorem pump_tsu : (s.pump p).tsu = s.tsu :=
  foldl_keeps (R := fun (a b : State) => b.tsu = a.tsu) (fun _ => rfl) (fun h k => k.trans h)
    (f := fun (t : State) (ch : Nat) => t.pumpChan p ch (((t.quoin p).waiting.getD ch []).length + 1)) (fun _ _ => pumpChan_tsu _ _) _ s

theorem sendCtl_tsu (bs : List Byte) : (s.sendCtl p bs).tsu = s.tsu := by
  unfold State.sendCtl State.sendFlits
  dsimp only
  rw [pump_tsu]
  rfl

theorem sendAll_tsu (but : Option Nat) (bs : State → Nat → List Byte) : (s.sendAll but bs).tsu = s.tsu := by
  refine foldl_keeps (R := fun (a b : State) => b.tsu = a.tsu) (fun _ => rfl) (fun h k => k.trans h) ?_ _ s
  intro t q
  split
  · exact sendCtl_tsu _
  · rfl

/-! ### Firmware's commands -/

section
variable {m : Master} {e : Nat}

theorem stackRenew_tenant (hfw : m.isFw = false) : State.stackRenew m e s = (s, false) := if_pos (by rw [hfw]; rfl)

theorem stackRenew_master (hfw : m.isFw = true) (he : e < 65536) (hmaster : s.csc.isMaster = true) (hepoch : e = s.csc.leaseEpoch) :
    State.stackRenew m e s =
      ((s.withCsc (fun c => { c with leaseEnd := s.now + 1000000, renewSeq := (c.renewSeq + 1) % 2 ^ 32 })).sendLease, true) := by
  refine (if_neg (by rw [hfw]; exact Bool.false_ne_true)).trans (if_pos ?_)
  rw [hmaster, decide_eq_true ((Nat.mod_eq_of_lt he).trans hepoch)]
  rfl

theorem stackRenew_refused (hfw : m.isFw = true) (he : e < 65536) (h : s.csc.isMaster = false ∨ e ≠ s.csc.leaseEpoch) :
    State.stackRenew m e s = (s.refuseStack 2, false) := by
  refine (if_neg (by rw [hfw]; exact Bool.false_ne_true)).trans (if_neg ?_)
  rw [Bool.and_eq_true, decide_eq_true_eq, Nat.mod_eq_of_lt he]
  rintro ⟨hmaster, hepoch⟩
  exact h.elim (fun h => Bool.false_ne_true (h.symm.trans hmaster)) (fun h => h hepoch)

/-- The time at which a commanded epoch is to become current. -/
def State.epochAt (s : State) : Nat := s.word Reg.cscEpochAt [0] + 2 ^ 32 * s.word Reg.cscEpochAt [1]

theorem activateEpoch_later {e t : Nat} (hpending : s.csc.pending = some (e, t)) (hlater : s.tsu.todNs < t) : s.activateEpoch = s := by
  unfold State.activateEpoch
  rw [hpending]
  exact if_neg (Nat.not_le.2 hlater)

theorem activateEpoch_now {e t : Nat} (hpending : s.csc.pending = some (e, t)) (hnow : t ≤ s.tsu.todNs) :
    s.activateEpoch = s.withCsc (fun c => { c with cfgEpoch := e, bank := 1 - c.bank, pending := none }) := by
  unfold State.activateEpoch
  rw [hpending]
  exact if_pos hnow

/-- The epoch that becomes current at a time is pending. -/
def State.pendEpoch (s : State) (e t : Nat) : State := s.withCsc (fun c => { c with pending := some (e, t) })

theorem pendEpoch_later {e t : Nat} (hlater : s.tsu.todNs < t) : (s.pendEpoch e t).activateEpoch = s.pendEpoch e t :=
  activateEpoch_later (s := s.pendEpoch e t) rfl hlater

theorem pendEpoch_now {e t : Nat} (hnow : t ≤ s.tsu.todNs) :
    (s.pendEpoch e t).activateEpoch = s.withCsc (fun c => { c with cfgEpoch := e, bank := 1 - c.bank, pending := none }) :=
  (activateEpoch_now (s := s.pendEpoch e t) rfl hnow).trans rfl

theorem epochCommand_master (hfw : m.isFw = true) (he : e < 65536) (hmaster : s.csc.isMaster = true)
    (hnewer : newer16 e s.csc.cfgEpoch = true) (hlater : s.tsu.todNs < s.epochAt) :
    State.epochCommand m e s =
      ((s.sendAll none (fun u _ => epochBytes u.csc.leaseEpoch e s.epochAt u.moduleId)).pendEpoch e s.epochAt, true) := by
  have hmod : e % 65536 = e := Nat.mod_eq_of_lt he
  unfold State.epochCommand
  rw [hmod]
  refine (if_neg (by rw [hfw]; exact Bool.false_ne_true)).trans ((if_pos (by rw [hmaster, hnewer]; rfl)).trans ?_)
  refine congrArg (·, true) (pendEpoch_later ?_)
  rw [sendAll_tsu]
  exact hlater

theorem epochCommand_refused (hfw : m.isFw = true) (he : e < 65536)
    (h : s.csc.isMaster = false ∨ newer16 e s.csc.cfgEpoch = false) : State.epochCommand m e s = (s.refuseStack 3, false) := by
  have hmod : e % 65536 = e := Nat.mod_eq_of_lt he
  unfold State.epochCommand
  rw [hmod]
  refine (if_neg (by rw [hfw]; exact Bool.false_ne_true)).trans (if_neg ?_)
  rw [Bool.and_eq_true]
  rintro ⟨hmaster, hnewer⟩
  exact h.elim (fun h => Bool.false_ne_true (h.symm.trans hmaster)) (fun h => Bool.false_ne_true (h.symm.trans hnewer))

end

/-! ### Received messages -/

theorem quoin_up (hup : (s.quoin p).state = .up) : ¬ (!s.quoinUp p) = true := by
  rw [State.quoinUp, decide_eq_true (show (s.csc.ports.getD p {}).state = .up from hup)]
  exact Bool.false_ne_true

section
variable {e i prio n : Nat}

/-- A LEASE that is accepted by its epoch, its sequence or its priority (spec/20 R613). -/
def State.leaseGood (s : State) (e i prio n : Nat) : Prop :=
  let own := if s.csc.isMaster = true then s.ownPrio else s.csc.masterPrio
  newer16 e s.csc.leaseEpoch = true ∨ (e = s.csc.leaseEpoch ∧ i = s.csc.masterId ∧ newer32 n s.csc.renewSeq = true)
    ∨ (e = s.csc.leaseEpoch ∧ i ≠ s.csc.masterId ∧ (own < prio ∨ (prio = own ∧ i < s.csc.masterId)))

/-- The lease taken from a LEASE and passed on. -/
def State.leaseTaken (s : State) (p e i prio n : Nat) : State :=
  (s.withCsc (fun c => { c with
    leaseEpoch := e, masterId := i, masterValid := true, leaseEnd := s.now + 1000000, renewSeq := n, masterPrio := prio
    isMaster := c.isMaster && decide (i = s.moduleId) })).sendAll (some p) (fun _ _ => leaseBytes e i prio n)

theorem rxLease_eq [Decidable (s.leaseGood e i prio n)] (hup : (s.quoin p).state = .up) (he : e < 65536) (hi : i < 4) (hprio : prio < 16)
    (hn : n < 2 ^ 32) : s.rxLease p e i prio n =
      if s.leaseGood e i prio n then
        if i ≠ s.csc.masterId ∨ e ≠ s.csc.leaseEpoch then (s.leaseTaken p e i prio n).masterChange else s.leaseTaken p e i prio n
      else s.refuseStack 2 := by
  have hgood : (newer16 e s.csc.leaseEpoch || (e = s.csc.leaseEpoch && i = s.csc.masterId && newer32 n s.csc.renewSeq)
      || (e = s.csc.leaseEpoch && i ≠ s.csc.masterId && ((if s.csc.isMaster then s.ownPrio else s.csc.masterPrio) < prio
        || (prio = (if s.csc.isMaster then s.ownPrio else s.csc.masterPrio) && i < s.csc.masterId)))) = true ↔ s.leaseGood e i prio n := by
    unfold State.leaseGood
    simp only [Bool.or_eq_true, Bool.and_eq_true, decide_eq_true_eq, or_assoc, and_assoc]
  unfold State.rxLease
  rw [Nat.mod_eq_of_lt he, Nat.mod_eq_of_lt hi, Nat.mod_eq_of_lt hprio, Nat.mod_eq_of_lt hn]
  refine (if_neg (quoin_up hup)).trans ?_
  by_cases h : s.leaseGood e i prio n
  · rw [if_pos h]
    refine (if_neg (by rw [hgood.2 h]; exact Bool.false_ne_true)).trans (if_congr ?_ rfl rfl)
    rw [Bool.or_eq_true, decide_eq_true_eq, decide_eq_true_eq]
  · rw [if_neg h]
    exact if_pos (by rw [Bool.eq_false_iff.2 (mt hgood.1 h)]; rfl)

end

section
variable {le ce tod i : Nat}

/-- An EPOCH of the master that is newer than the current and the pending epoch (spec/20 R615). -/
def State.epochGood (s : State) (le ce i : Nat) : Prop :=
  le = s.csc.leaseEpoch ∧ i = s.csc.masterId ∧ newer16 ce s.csc.cfgEpoch = true ∧ (∀ q ∈ s.csc.pending, newer16 ce q.1 = true)

/-- An epoch is newer than the pending one, if any. -/
def newerThan (ce : Nat) (pending : Option (Nat × Nat)) : Bool :=
  match pending with
  | some (e, _) => newer16 ce e
  | none => true

theorem newerThan_iff (ce : Nat) (pending : Option (Nat × Nat)) : newerThan ce pending = true ↔ ∀ q ∈ pending, newer16 ce q.1 = true := by
  unfold newerThan
  cases pending with
  | none => simp
  | some q => simp

theorem rxEpoch_eq [Decidable (s.epochGood le ce i)] (hup : (s.quoin p).state = .up) (hle : le < 65536) (hce : ce < 65536)
    (htod : tod < 2 ^ 64) (hi : i < 4) : s.rxEpoch p le ce tod i =
      if s.epochGood le ce i then ((s.sendAll (some p) (fun _ _ => epochBytes le ce tod i)).pendEpoch ce tod).activateEpoch
      else s.refuseStack 3 := by
  have hgood : (le = s.csc.leaseEpoch && i = s.csc.masterId && newer16 ce s.csc.cfgEpoch && newerThan ce s.csc.pending) = true ↔
      s.epochGood le ce i := by
    unfold State.epochGood
    simp only [Bool.and_eq_true, decide_eq_true_eq, and_assoc, newerThan_iff]
  unfold State.rxEpoch
  rw [Nat.mod_eq_of_lt hle, Nat.mod_eq_of_lt hce, Nat.mod_eq_of_lt htod, Nat.mod_eq_of_lt hi]
  refine (if_neg (quoin_up hup)).trans ?_
  by_cases h : s.epochGood le ce i
  · rw [if_pos h]
    exact if_neg (show ¬ (!(le = s.csc.leaseEpoch && i = s.csc.masterId && newer16 ce s.csc.cfgEpoch && newerThan ce s.csc.pending)) = true
      by rw [hgood.2 h]; exact Bool.false_ne_true)
  · rw [if_neg h]
    exact if_pos (show (!(le = s.csc.leaseEpoch && i = s.csc.masterId && newer16 ce s.csc.cfgEpoch && newerThan ce s.csc.pending)) = true
      by rw [Bool.eq_false_iff.2 (mt hgood.1 h)]; rfl)

end

/-! ### Timers -/

theorem stackLeaseEnds_passed (hvalid : s.csc.masterValid = true) (hend : s.csc.leaseEnd ≤ s.now) : s.stackLeaseEnds =
    (s.withCsc (fun c => { c with masterValid := false, isMaster := false, invalidSince := s.now })).raise 520 0 :=
  if_pos (by rw [hvalid, decide_eq_true hend]; rfl)

theorem stackLeaseEnds_before (h : s.csc.masterValid = false ∨ s.now < s.csc.leaseEnd) : s.stackLeaseEnds = s := by
  refine if_neg ?_
  rw [Bool.and_eq_true, decide_eq_true_eq]
  rintro ⟨hvalid, hend⟩
  exact h.elim (fun h => Bool.false_ne_true (h.symm.trans hvalid)) (Nat.not_lt.2 hend)

theorem elect_early (h : s.csc.masterValid = true ∨ s.now < s.csc.invalidSince + 200000) : s.elect = s := by
  refine if_pos ?_
  rcases h with h | h
  · rw [h]; rfl
  · rw [decide_eq_true h, Bool.or_true, Bool.true_or]

/-- The lease taken under the next epoch by this module. -/
def State.elected (s : State) : State :=
  s.withCsc (fun c => { c with
    leaseEpoch := (c.leaseEpoch + 1) % 65536, masterValid := true, isMaster := true, masterId := s.moduleId
    leaseEnd := s.now + 1000000, masterPrio := s.ownPrio })

theorem elect_alone (hp : p < 4) (hvalid : s.csc.masterValid = false) (hdue : s.csc.invalidSince + 200000 ≤ s.now)
    (hup : (s.quoin p).state = .up) (halone : s.candidates = [(s.ownPrio, s.moduleId)]) :
    s.elect = s.elected.sendLease.masterChange := by
  have hany : (List.range 4).any (fun p => s.quoinUp p) = true :=
    List.any_eq_true.2 ⟨p, List.mem_range.2 hp, decide_eq_true hup⟩
  unfold State.elect
  refine (if_neg ?_).trans ?_
  · rw [hvalid, hany, decide_eq_false (Nat.not_lt.2 hdue)]
    exact Bool.false_ne_true
  · rw [halone]
    exact if_neg (not_not.2 rfl)

theorem topoExpiry_eq {r : TopoRec} (h : (s.quoin p).topo = some r) : s.topoExpiry p =
    if r.at_ + 300000 ≤ s.now then (s.setQuoin p { s.quoin p with topo := none }).settleReach else s := by
  unfold State.topoExpiry
  rw [h]

theorem moduleLost_eq {i t : Nat} (h : s.csc.lostSince.getD i none = some t) : s.moduleLost i =
    if t + 1000000 ≤ s.now then
      ({ s with csc := { s.csc with lostSince := setNth s.csc.lostSince i none } }).raise 521 i
    else s := by
  unfold State.moduleLost
  rw [h]

theorem rxTopo_up {k : TopoMsg} (hup : (s.quoin p).state = .up) (hid : k.id < 4) (hdirect : k.direct < 16) (hprio : k.prio < 16) :
    s.rxTopo p k = (s.setQuoin p { s.quoin p with topo := some {
      at_ := s.now, id := k.id, direct := k.direct, prio := k.prio, capable := k.capable, kscReady := k.kscReady } }).settleReach := by
  refine (if_neg (quoin_up hup)).trans ?_
  rw [Nat.mod_eq_of_lt hid, Nat.mod_eq_of_lt hdirect, Nat.mod_eq_of_lt hprio]

theorem rxTime_up {tx et er : Nat} (hup : (s.quoin p).state = .up) (htx : tx < 2 ^ 64) : s.rxTime p tx et er =
    s.setQuoin p { s.quoin p with
      offsetNs := signedOf 64 (unsignedOf 64 (((er : Int) - et + (tx - s.tsu.todNs)) / 2))
      delayNs := unsignedOf 16 (((s.tsu.todNs : Int) - et - (tx - er)) / 2), echo := some (tx, s.tsu.todNs) } := by
  refine (if_neg (quoin_up hup)).trans ?_
  rw [Nat.mod_eq_of_lt htx]

end

/-- Settles O54, by the conditions of each command, message and timer; what is sent leaves the time base alone. -/
theorem stackIsLed : Obligations.StackIsLed := by
  unfold Obligations.StackIsLed
  intro s p hp hreleased hready _ c x refused
  have hblock : ∀ {g : State → State} {u : State}, g s.begun = u → runBlock 20 g s = .next (s.close u) := fun h =>
    runBlock_effect hreleased hready h
  refine ⟨fun m e he => ⟨?renew, ?epochCmd⟩, fun e i prio n he hi hprio hn hup => ?lease, fun hdown e i prio n => ?leaseDown,
    fun hvalid hend => ?expiry, fun h => hblock (g := fun t => t.stackLeaseEnds) (stackLeaseEnds_before (s := s.begun) h),
    fun h => hblock (g := fun t => t.elect) (elect_early (s := s.begun) h), fun hvalid hdue hup halone => ?election,
    fun le ce tod i hle hce htod hi hup => ?epoch, fun e t hpending => ?activation,
    fun hdue => hblock (g := fun t => t.topoTimer) (if_neg (Nat.not_lt.2 hdue)),
    fun hdue => hblock (g := fun t => t.timeTimer) (if_neg (Nat.not_lt.2 hdue)),
    fun hearly => hblock (g := fun t => t.topoTimer) (if_pos hearly), fun hearly => hblock (g := fun t => t.timeTimer) (if_pos hearly),
    fun k hup hid hdirect hprio => hblock (g := fun t => t.rxTopo p k) (rxTopo_up (s := s.begun) hup hid hdirect hprio),
    fun r htopo => ?topoAged, fun tx et er hup htx _ _ => ?time, fun i t hlost => ?lost⟩
  case renew =>
    intro a
    have hmod : e % 65536 = e := Nat.mod_eq_of_lt he
    have hrenew : ∀ {u : State} {taken : Bool}, s.reaches m a → State.stackRenew m e s.begun = (u, taken) →
        exec (.stackRenew m e) s = .next (s.close (if taken then m.logged a 4 e u else u)) := by
      intro u taken hr hu
      refine runMain_effect (f := fun t => t.access m (blockBase 20 + 0x1008) 4 (e % 65536) (State.stackRenew m (e % 65536))) hreleased ?_
      rw [hmod, access_reaches ((begun_reaches s m _).2 hr), hu]
    exact ⟨fun hw hfw hmaster hepoch => hrenew (taken := true) hw.1 (stackRenew_master (s := s.begun) hfw he hmaster hepoch),
      fun hr hfw h => hrenew (taken := false) hr (stackRenew_refused (s := s.begun) hfw he h),
      fun hr hfw => hrenew (taken := false) hr (stackRenew_tenant (s := s.begun) hfw)⟩
  case epochCmd =>
    intro a at_
    have hmod : e % 65536 = e := Nat.mod_eq_of_lt he
    have hcmd : ∀ {u : State} {taken : Bool}, s.reaches m a → State.epochCommand m e s.begun = (u, taken) →
        exec (.epochCmd m e) s = .next (s.close (if taken then m.logged a 4 e u else u)) := by
      intro u taken hr hu
      refine runMain_effect (f := fun t => t.access m (blockBase 20 + 0x1018) 4 (e % 65536) (State.epochCommand m (e % 65536))) hreleased ?_
      rw [hmod, access_reaches ((begun_reaches s m _).2 hr), hu]
    refine ⟨?_, fun hr hfw h => hcmd (taken := false) hr (epochCommand_refused (s := s.begun) hfw he h)⟩
    intro hw hfw hmaster hnewer hlater t
    have hpend : t.pendEpoch e at_ = { t with csc := { t.csc with pending := some (e, at_) } } := rfl
    have hdone := hcmd hw.1 (epochCommand_master (s := s.begun) hfw he hmaster hnewer hlater)
    rw [if_pos rfl] at hdone
    rw [← hpend]
    exact hdone
  case lease =>
    intro own good t
    classical
    have hrx : ∀ {u : State}, s.begun.rxLease p e i prio n = u → exec (.lease p e i prio n) s = .next (s.close u) := fun h =>
      hblock (g := fun t => t.rxLease p e i prio n) h
    have hlease := rxLease_eq (s := s.begun) (p := p) hup he hi hprio hn
    refine ⟨fun hgood hsame hepoch => hrx (hlease.trans ((if_pos hgood).trans (if_neg ?_))),
      fun hgood hchanged => hrx (hlease.trans ((if_pos hgood).trans (if_pos hchanged))), fun hbad => hrx (hlease.trans (if_neg hbad))⟩
    rintro (h | h)
    · exact h hsame
    · exact h hepoch
  case leaseDown =>
    exact hblock (g := fun t => t.rxLease p e i prio n) (if_pos (by
      rw [State.quoinUp, decide_eq_false (show (s.begun.csc.ports.getD p {}).state ≠ .up from hdown)]
      rfl))
  case expiry =>
    intro t
    exact hblock (g := fun t => t.stackLeaseEnds) (stackLeaseEnds_passed (s := s.begun) hvalid hend)
  case election =>
    intro t
    exact hblock (g := fun t => t.elect) (elect_alone (s := s.begun) hp hvalid hdue hup halone)
  case epoch =>
    intro good t
    classical
    have hrx : ∀ {u : State}, s.begun.rxEpoch p le ce tod i = u → exec (.epoch p le ce tod i) s = .next (s.close u) := fun h =>
      hblock (g := fun t => t.rxEpoch p le ce tod i) h
    have hepoch := rxEpoch_eq (s := s.begun) (p := p) hup hle hce htod hi
    have htsu : t.tsu = s.tsu := sendAll_tsu _ _
    refine ⟨fun hgood hlater => hrx (hepoch.trans ((if_pos hgood).trans (pendEpoch_later (s := t) ?_))),
      fun hgood hnow => hrx (hepoch.trans ((if_pos hgood).trans (pendEpoch_now (s := t) ?_))), fun hbad => hrx (hepoch.trans (if_neg hbad))⟩
    · rw [htsu]
      exact hlater
    · rw [htsu]
      exact hnow
  case activation =>
    exact ⟨fun hnow => hblock (g := fun t => t.activateEpoch) (activateEpoch_now (s := s.begun) hpending hnow),
      fun hlater => hblock (g := fun t => t.activateEpoch) (activateEpoch_later (s := s.begun) hpending hlater)⟩
  case topoAged =>
    have hexpiry := topoExpiry_eq (s := s.begun) (p := p) htopo
    exact ⟨fun hdue => hblock (g := fun t => t.topoExpiry p) (hexpiry.trans (if_pos hdue)),
      fun hearly => hblock (g := fun t => t.topoExpiry p) (hexpiry.trans (if_neg (Nat.not_le.2 hearly)))⟩
  case time =>
    intro r
    exact hblock (g := fun t => t.rxTime p tx et er) (rxTime_up (s := s.begun) hup htx)
  case lost =>
    have hlost' := moduleLost_eq (s := s.begun) hlost
    exact ⟨fun hdue => hblock (g := fun t => t.moduleLost i) (hlost'.trans (if_pos hdue)),
      fun hearly => hblock (g := fun t => t.moduleLost i) (hlost'.trans (if_neg (Nat.not_le.2 hearly)))⟩

end Sys2Proof.Machine
end

