-- ==== Sys2Proof/Proofs/QuoinMailboxes.lean ====
section

/-! O55: mailbox actions over a Quoin link, and port retirement (spec/10 R303, R304, R308, spec/21 R636). -/

namespace Sys2Proof.Machine

section
variable {s : State} {p : Nat}

/-! ### Mailbox actions from the far module -/

theorem binding_port : s.binding (2052 + p) =
    if s.ivm.quoinEndA.getD p 0 = 3 then (3, 6) else if s.ivm.quoinEndA.getD p 0 = 6 then (6, 3) else (0, 0) := by
  refine (if_neg (by omega)).trans ?_
  rw [Nat.add_sub_cancel_left]

theorem endVal_far (hend : s.ivm.quoinEndA.getD p 0 = 6) : s.endVal (2052 + p) false = 6 := by
  unfold State.endVal
  rw [binding_port, hend]
  rfl

theorem endVal_near (hend : s.ivm.quoinEndA.getD p 0 = 3) : s.endVal (2052 + p) false = 3 := by
  unfold State.endVal
  rw [binding_port, hend]
  rfl

theorem rxMbox_down (hdown : (s.quoin p).state ≠ .up) (a : MbxAct) : s.rxMbox p a = s :=
  if_pos (by rw [State.quoinUp, decide_eq_false (show (s.csc.ports.getD p {}).state ≠ .up from hdown)]; rfl)

section
variable {a : MbxAct} (hup : (s.quoin p).state = .up)
include hup

theorem rxMbox_far (hend : s.ivm.quoinEndA.getD p 0 = 6) : s.rxMbox p a = s.mbxEffect (2052 + p) a :=
  (if_neg (quoin_up hup)).trans (if_pos (endVal_far hend))

theorem rxMbox_near (hend : s.ivm.quoinEndA.getD p 0 = 3) : s.rxMbox p a =
    if s.mbxAccepts (2052 + p) true a then s.mbxEffect (2052 + p) a else s.mbxRefuse (2052 + p) true :=
  (if_neg (quoin_up hup)).trans (if_neg (by rw [endVal_near hend]; decide))

end

theorem mbxAccepts_done (c : Nat) : s.mbxAccepts c true .done = decide ((s.chan c).state = .posted) := by
  unfold State.mbxAccepts
  simp only [Bool.not_true, Bool.false_and, Bool.not_false, Bool.true_and]

theorem mbxEffect_data (c : Nat) {w v : Nat} (hw : w < 16) (hv : v < 2 ^ 32) :
    s.mbxEffect c (.data (w % 16) v) = s.setChan c { s.chan c with data := mapSet 0 (s.chan c).data w v } := by
  unfold State.mbxEffect
  simp only [Nat.mod_eq_of_lt hw, Nat.mod_eq_of_lt hv]

/-! ### The far module counts as reset -/

theorem mbxLinkTimeout_eq {t : Nat} (hsince : s.ivm.quoinDownSince.getD p none = some t) :
    let u := { s with ivm := { s.ivm with quoinDownSince := setNth s.ivm.quoinDownSince p none } }
    let far := decide (s.endVal (2052 + p) false = 6)
    s.mbxLinkTimeout p = if s.quoinUp p || s.now < t + 1000000 then s
      else (u.setQuoin p { s.quoin p with waiting := setNth (s.quoin p).waiting 8 [] }).clearChan (2052 + p) far (!far) := by
  unfold State.mbxLinkTimeout
  rw [hsince]
  rfl

/-! ### Retirement -/

theorem writeReg_firmware {m : Master} {r : RegDef} {idx : List Nat} {d : Nat} (hfw : m.isFw = true)
    (hvalid : r.valid idx = true) (hfields : r.fields ≠ []) (hlock : (r.fields.any fun f => f.lock) = false) :
    State.writeReg m r idx d s = (s.setWord r idx (storeFields (bitOf s.glb.lock r.block) (s.word r idx) d r.fields), true) := by
  simp only [State.writeReg, hfw, hvalid, hfields, hlock, Bool.not_true, Bool.and_false, decide_false, Bool.or_self,
    Bool.false_eq_true, if_false]

theorem retire_stored (locked : Bool) (w d : Nat) : storeFields locked w d Reg.cscRetire.fields = putBits w 0 4 (d % 16) := by
  have hlow : bitsOf d 0 4 = d % 2 ^ 4 := by rw [bitsOf, Nat.pow_zero, Nat.div_one]
  simp only [storeFields, Reg.cscRetire, rw, List.foldl_cons, List.foldl_nil, Bool.false_and, Bool.false_eq_true, if_false,
    Store.apply, hlow]
  rfl

theorem retirePorts_firmware {m : Master} {d : Nat} (hfw : m.isFw = true) : State.retirePorts m d s =
    ((s.setWord Reg.cscRetire [] (putBits (s.word Reg.cscRetire []) 0 4 (d % 16))).settleReach, true) := by
  have hwrite := writeReg_firmware (s := s) (d := d) (r := Reg.cscRetire) (idx := []) hfw rfl (List.cons_ne_nil _ _) rfl
  rw [retire_stored] at hwrite
  unfold State.retirePorts
  rw [hwrite]
  rfl

theorem retirePorts_tenant {m : Master} {d : Nat} (hfw : m.isFw = false) : State.retirePorts m d s = (s, false) := by
  have hwrite : State.writeReg m Reg.cscRetire [] d s = (s, false) := if_pos (by rw [hfw]; rfl)
  unfold State.retirePorts
  rw [hwrite]
  rfl

end

/-- Settles O55, by the end that this copy of the channel is, and the branches of the timeout and of the register write. -/
theorem quoinMailboxesAndRetirement : Obligations.QuoinMailboxesAndRetirement := by
  unfold Obligations.QuoinMailboxesAndRetirement
  intro s p hp hreleased _ x y c
  refine ⟨fun hready => ⟨fun hup hend => ?far, fun hup hend => ?near, fun hdown a w v => ?down⟩, fun t hsince => ?timeout,
    fun m d hd => ?retire⟩
  case far =>
    have hrx : ∀ {a w v : Nat} {act : MbxAct} {u : State}, mbxActOf a w v = some act → s.begun.mbxEffect (2052 + p) act = u →
        exec (.mbox p a w v) s = .next (s.close u) := by
      intro a w v act u hact hu
      refine runBlock_effect (f := fun t => match mbxActOf a w v with | some a => t.rxMbox p a | none => t) hreleased hready ?_
      rw [hact]
      exact (rxMbox_far (s := s.begun) hup hend).trans hu
    exact ⟨fun w v hw hv => hrx rfl (mbxEffect_data (s := s.begun) _ hw hv), fun w v => hrx rfl rfl⟩
  case near =>
    have hrx : ∀ {w v : Nat} {u : State}, (if (s.chan c).state = .posted then s.begun.mbxEffect c .done else s.begun.mbxRefuse c true) = u →
        exec (.mbox p 2 w v) s = .next (s.close u) := by
      intro w v u hu
      refine runBlock_effect (f := fun t => match mbxActOf 2 w v with | some a => t.rxMbox p a | none => t) hreleased hready ?_
      refine (rxMbox_near (s := s.begun) (a := .done) hup hend).trans (Eq.trans (if_congr ?_ rfl rfl) hu)
      rw [mbxAccepts_done, decide_eq_true_eq]
      exact Iff.rfl
    exact ⟨fun hposted w v => hrx (if_pos hposted), fun hposted w v => hrx (if_neg hposted)⟩
  case down =>
    refine runBlock_effect (f := fun t => match mbxActOf a w v with | some a => t.rxMbox p a | none => t) hreleased hready ?_
    cases mbxActOf a w v with
    | none => rfl
    | some act => exact rxMbox_down (s := s.begun) hdown act
  case timeout =>
    have htimeout := mbxLinkTimeout_eq (s := s.begun) hsince
    refine ⟨fun h => runMain_effect (f := fun t => t.mbxLinkTimeout p) hreleased (htimeout.trans (if_pos ?_)), fun hdown hdue => ?_⟩
    · rw [Bool.or_eq_true, State.quoinUp, decide_eq_true_eq, decide_eq_true_eq]
      exact h
    · intro u far
      refine runMain_effect (f := fun t => t.mbxLinkTimeout p) hreleased (htimeout.trans (if_neg ?_))
      rw [Bool.or_eq_true, State.quoinUp, decide_eq_true_eq, decide_eq_true_eq]
      rintro (h | h)
      · exact hdown h
      · exact Nat.not_lt.2 hdue h
  case retire =>
    intro a
    have hmod : d % 2 ^ 32 = d := Nat.mod_eq_of_lt hd
    have hwrite : ∀ {u : State} {taken : Bool}, s.reaches m a → State.retirePorts m d s.begun = (u, taken) →
        exec (.retire m d) s = .next (s.close (if taken then m.logged a 4 d u else u)) := by
      intro u taken hr hu
      refine runMain_effect (f := fun t => t.access m (Reg.cscRetire.addr []) 4 (d % 2 ^ 32) (State.retirePorts m (d % 2 ^ 32))) hreleased ?_
      rw [hmod, access_reaches ((begun_reaches s m _).2 hr), hu]
    refine ⟨fun hw hfw => ?_, fun hr hfw => hwrite (taken := false) hr (retirePorts_tenant (s := s.begun) hfw)⟩
    have hdone := hwrite hw.1 (retirePorts_firmware (s := s.begun) hfw)
    rw [if_pos rfl] at hdone
    exact hdone

end Sys2Proof.Machine
end
